-- ==== Sys2Proof/Word.lean ====
section
/-! DEFINITION. The plain types of the model: bytes, 32-bit words, and finite maps held as sorted lists. -/

namespace Sys2Proof

/-- A byte. -/
abbrev Byte := BitVec 8

/-- A 32-bit word. -/
abbrev Word := BitVec 32

/-- A finite map from numbers: a list of (key, value) pairs whose keys rise strictly. -/
abbrev SMap (α : Type) := List (Nat × α)

/-- A memory: the bytes that differ from 0, by rising address. -/
abbrev Mem := SMap Byte

/-- A packet header (R399) and its payload. -/
structure Packet where
  dst  : Nat        -- pair bit and device id, 13 bits; 10 R399
  fwd  : Bool       -- FWD; 10 R399
  src  : Nat        -- 13 bits; 10 R399
  kind : Nat        -- KIND, 6 bits; 10 R400
  vc   : Nat        -- virtual channel, 2 bits; 10 R397
  ctx  : Nat        -- CTX; 10 R399
  len  : Nat        -- LEN; 10 R399
  tag  : Nat        -- TAG, 16 bits; 10 R399
  addr : Nat        -- VA bits 51:6; 10 R399
  data : List Byte  -- payload; 10 R399
  deriving DecidableEq, Repr

end Sys2Proof
end

