-- ==== Sys2Proof/Syntax.lean ====
section
/-! DEFINITION. The commands and events of the part: one constructor for each row of the table of operations. -/

namespace Sys2Proof

/-- What waits for a grant of a memory channel (07 R301): the transfer of a line or of a transfer unit, a mangle, the fabric for
a peer, or Jenorneb with moves, rinse and scrub. -/
inductive MemUnit where
  | transfer (id : Nat)
  | mangle (m : Fin 32)
  | fabric
  | hub
  deriving DecidableEq, Repr

/-- A request at a memory arbiter: the access of a unit, or the page table walk that the access needs (07 R301). -/
structure MemReq where
  unit : MemUnit
  walk : Bool
  deriving DecidableEq, Repr

/-- How a protected unit read from memory differs from the codeword that was written: of a burst the symbols in error with the
difference, 0 to 35 stored and 36 to 40 of the address (07 R248, R249); of a cupboard word the bits in error, 64 of data and 8 of
the check (07 R263). -/
inductive UnitErr where
  | burst (dpa : Nat) (symbols : List (Fin 41 × Byte))
  | word (dpa : Nat) (flips : List (Fin 72))
  deriving DecidableEq, Repr

/-- A command or event of the part. -/
inductive Instr where
  /-- SUBMISSION_DOORBELL (R39). A host write of SQ_TAIL submits the entries from SQ_HEAD up to the new tail, or sets DB_RANGE for an out-of-range value. -/
  | submissionDoorbell (q : Fin 256) (value : BitVec 32)
  /-- COMPLETION_DOORBELL (R37). A host write of CQ_HEAD frees completion ring records that the host has consumed. -/
  | completionDoorbell (q : Fin 256) (value : BitVec 32)
  /-- REGISTER_WRITE (R10). A host write to a register that has no row of its own sets its RW fields and clears its RW1C bits. -/
  | registerWrite (off : Nat) (wide : Bool) (value : BitVec 64)
  /-- Q0_CFG_ENABLE (R613). Writing ENABLE 1 in Q0_CFG makes queue 0 ACTIVE with the written bases and sizes, or sets CFG_ERR. -/
  | q0CfgEnable (value : BitVec 32)
  /-- DEVICE_ID_WRITE (R612). A write of DEVICE_ID sets the pair bit and device id only while every half-port is OFF. -/
  | deviceIdWrite (value : BitVec 32)
  /-- FLASH_READ (R615). FLASH_CTRL GO with OP 0 reads 4 KiB of flash into the flash buffer. -/
  | flashRead
  /-- FLASH_PROGRAM (R615). FLASH_CTRL GO with OP 1 programs 4 KiB from the buffer, or sets REFUSED for a protected region. -/
  | flashProgram
  /-- FLASH_ERASE (R615). FLASH_CTRL GO with OP 2 erases 64 KiB, or sets REFUSED for a protected region. -/
  | flashErase
  /-- FLASH_OP_COMPLETE (R615). A flash erase or program ends, which clears BUSY or sets ERROR. -/
  | flashOpComplete (failed : Bool)
  /-- COMMAND_FETCH (R35). Jenorneb fetches commands in weighted round-robin order from queues that have commands waiting and room in flight. -/
  | commandFetch
  /-- COMMAND_COMPLETE (R54). A running command finishes its effect and produces its one final record, which sets its result slot READY or FAILED. -/
  | commandComplete (cid : Nat)
  /-- HOLD_BUFFER_DRAIN (R42). Held records, and records waiting for a full hold buffer, are written in device sequence order as ring space appears. -/
  | holdBufferDrain (q : Fin 256)
  /-- QUEUE_NOP (R47). QUEUE.NOP does nothing and completes. -/
  | queueNop (cid : Nat)
  /-- QUEUE_CREATE (R33). QUEUE.CREATE creates queue pair 1 to 255 with its rings, retention log and result slots. -/
  | queueCreate (cid : Nat)
  /-- QUEUE_DESTROY (R645). QUEUE.DESTROY drains the target queue, writes all of its records and then disables it and releases its memory. -/
  | queueDestroy (cid : Nat)
  /-- QUEUE_RESYNC (R75). QUEUE.RESYNC reports a snapshot of the target queue and carries out the mode selected. -/
  | queueResync (cid : Nat)
  /-- CTX_CREATE (R500). CTX.CREATE creates a context in a partition, resident or demoted, with its shares and generator key. -/
  | ctxCreate (cid : Nat)
  /-- CTX_DESTROY (R503). CTX.DESTROY cancels the context's work, waits for its collectives and frees and rinses everything it holds. -/
  | ctxDestroy (cid : Nat)
  /-- CTX_SAVE (R506). CTX.SAVE writes the context image at the context's next switch-out. -/
  | ctxSave (cid : Nat)
  /-- CTX_RESTORE (R507). CTX.RESTORE writes a context image into an existing context, re-tiling it or refusing with LANES_MISMATCH. -/
  | ctxRestore (cid : Nat)
  /-- CFG_LOAD (R591). CFG.LOAD checks a table of one kind whole and puts it into force whole, updating the digest. -/
  | cfgLoad (cid : Nat)
  /-- CFG_DIGEST (R593). CFG.DIGEST returns the configuration digest and, with SLOT, the list of table entries. -/
  | cfgDigest (cid : Nat)
  /-- MEM_ALLOC (R265). MEM.ALLOC maps pages in a tier and placement, or registers a slower-tier pool range. -/
  | memAlloc (cid : Nat)
  /-- MEM_FREE (R269). MEM.FREE unmaps a range, frees its pool pages and passes its frames to rinse. -/
  | memFree (cid : Nat)
  /-- MEM_COPY (R270). MEM.COPY copies a range on the mangles of the destination's home dies. -/
  | memCopy (cid : Nat)
  /-- MEM_FILL (R270). MEM.FILL writes a repeated 32-bit pattern over a range on the mangles. -/
  | memFill (cid : Nat)
  /-- MEM_DEMOTE (R273). MEM.DEMOTE moves the pages of a range down to LPDDR6 or the slower tier. -/
  | memDemote (cid : Nat)
  /-- MEM_RECALL (R273). MEM.RECALL moves the pages of a range up to the cupboard or LPDDR6. -/
  | memRecall (cid : Nat)
  /-- MEM_MANGLE (R284). MEM.MANGLE runs one mangle operation over COUNT elements, cut into pieces. -/
  | memMangle (cid : Nat)
  /-- MANGLE_PIECE_START (R282). A mangle takes the next piece of a command in round-robin order once earlier ordered commands have completed on its range. -/
  | manglePieceStart (m : Fin 32)
  /-- MANGLE_PIECE_COMPLETE (R282). A mangle finishes a piece of 16,384 elements. -/
  | manglePieceComplete (m : Fin 32)
  /-- PROG_LOAD (R237). PROG.LOAD installs a program image in a slot on every engine of the context. -/
  | progLoad (cid : Nat)
  /-- PROG_LAUNCH (R239). PROG.LAUNCH starts or resumes a program on a range of the context's engines. -/
  | progLaunch (cid : Nat)
  /-- STEP_RUN (R467). STEP.RUN admits a learning step that pins a weight version and waits for its tokens before launching. -/
  | stepRun (cid : Nat)
  /-- STEP_DISCARD (R477). STEP.DISCARD cancels waiting or running learning steps and marks their iteration entries DISCARDED. -/
  | stepDiscard (cid : Nat)
  /-- REQ_SUBMIT (R350). REQ.SUBMIT admits, defers or refuses a serving request on the admission arithmetic. -/
  | reqSubmit (cid : Nat)
  /-- REQ_CANCEL (R374). REQ.CANCEL cancels a request at once or at the commit of its step. -/
  | reqCancel (cid : Nat)
  /-- REQ_QUERY (R384). REQ.QUERY copies a request record and its tokens to a slot, and can release a DONE record. -/
  | reqQuery (cid : Nat)
  /-- KV_APPEND (R317). KV.APPEND appends keys and values for positions of a sequence, quantising them on the home die. -/
  | kvAppend (cid : Nat)
  /-- KV_FORK (R322). KV.FORK creates a sequence, a clone, a pattern-tree extension or a pool, as MODE selects. -/
  | kvFork (cid : Nat)
  /-- KV_FREE (R323). KV.FREE frees a sequence, truncates it, prunes tree nodes or frees a pool, as MODE selects. -/
  | kvFree (cid : Nat)
  /-- WEIGHTS_STAGE (R478). WEIGHTS.STAGE opens, updates or seals a staged version, as MODE selects. -/
  | weightsStage (cid : Nat)
  /-- WEIGHTS_COMMIT (R484). WEIGHTS.COMMIT votes on a version across the commit group and applies the COMMIT or ABORT decision. -/
  | weightsCommit (cid : Nat)
  /-- WEIGHTS_ABORT (R492). WEIGHTS.ABORT frees a staged version or releases a HELD one. -/
  | weightsAbort (cid : Nat)
  /-- WEIGHTS_SWITCH (R491). WEIGHTS.SWITCH makes a COMMITTED or HELD version live at the next boundary. -/
  | weightsSwitch (cid : Nat)
  /-- WEIGHTS_QUERY (R493). WEIGHTS.QUERY writes the registry record, the peers' records, or adopts the peers' state. -/
  | weightsQuery (cid : Nat)
  /-- REFOLD_RUN (R449). REFOLD.RUN permutes shards between layouts in rounds of sends, receives and local copies. -/
  | refoldRun (cid : Nat)
  /-- COLL_RUN (R422). COLL.RUN takes part in a collective operation of a group, beginning with the start phase. -/
  | collRun (cid : Nat)
  /-- TALLY_FREEZE (R563). TALLY.FREEZE freezes the store once every earlier update has been applied. -/
  | tallyFreeze (cid : Nat)
  /-- TALLY_THAW (R565). TALLY.THAW applies the held updates in order and unfreezes the store. -/
  | tallyThaw (cid : Nat)
  /-- TALLY_READ (R567). TALLY.READ copies the header and directory, or selected records, to a slot and can clear them. -/
  | tallyRead (cid : Nat)
  /-- RESULT_READ (R71). RESULT.READ copies a result slot's header and payload to host memory and counts the read. -/
  | resultRead (cid : Nat)
  /-- ATTEST_REPORT (R600). ATTEST.REPORT writes a signed report of the selected measurements with the nonce. -/
  | attestReport (cid : Nat)
  /-- PART_INFO (R597). PART.INFO returns the identity and capacity of the part. -/
  | partInfo (cid : Nat)
  /-- NOP (R194). Engine instruction NOP does nothing. -/
  | iNop (e : Fin 96)
  /-- HALT (R194). HALT ends this engine's part of the launch once its dispatched instructions have completed. -/
  | iHalt (e : Fin 96)
  /-- BR (R194). BR branches when its condition holds on two scalar registers. -/
  | iBr (e : Fin 96)
  /-- LOOP (R194). LOOP repeats a body a given number of times. -/
  | iLoop (e : Fin 96)
  /-- CALL (R194). CALL pushes the return index and jumps. -/
  | iCall (e : Fin 96)
  /-- RET (R194). RET pops the return index. -/
  | iRet (e : Fin 96)
  /-- SLI (R194). SLI loads an immediate into a scalar register. -/
  | iSli (e : Fin 96)
  /-- SOP (R194). SOP performs a scalar arithmetic or logic operation. -/
  | iSop (e : Fin 96)
  /-- SLD (R194). SLD loads a 32-bit basket word into a scalar register. -/
  | iSld (e : Fin 96)
  /-- SST (R194). SST stores a scalar register to a basket word. -/
  | iSst (e : Fin 96)
  /-- MOVS (R199). MOVS reads a special register into a scalar register. -/
  | iMovs (e : Fin 96)
  /-- XADD (R198). XADD adds scalar registers into fields of the next instruction. -/
  | iXadd (e : Fin 96)
  /-- FDSET (R194). FDSET writes a format descriptor register without checking it. -/
  | iFdset (e : Fin 96)
  /-- BFENCE (R194). BFENCE stalls until the named units have completed their basket accesses. -/
  | iBfence (e : Fin 96)
  /-- LSET (R208). LSET loads a line descriptor and makes the line READY. -/
  | iLset (e : Fin 96)
  /-- LSTART (R215). LSTART starts a READY line with every slot EMPTY. -/
  | iLstart (e : Fin 96)
  /-- LWAIT (R215). LWAIT waits until the head peg is FULL and returns it TAKEN, or raises the line's stored fault. -/
  | iLwait (e : Fin 96)
  /-- LREL (R215). LREL releases the oldest TAKEN peg once earlier readers have finished with it. -/
  | iLrel (e : Fin 96)
  /-- LCANCEL (R226). LCANCEL cancels the line, emptying or draining its slots. -/
  | iLcancel (e : Fin 96)
  /-- LSTAT (R215). LSTAT reads the line's state word into a scalar register. -/
  | iLstat (e : Fin 96)
  /-- LINE_CREDIT_REFILL (R213). Every 256 a-cycles a line's regulator credit is refilled by RATE up to the burst cap. -/
  | lineCreditRefill (e : Fin 96)
  /-- LINE_TRANSFER_ISSUE (R214). The line unit issues one transfer of the eligible line with the highest PRIO, within credit and outstanding limits. -/
  | lineTransferIssue (e : Fin 96)
  /-- LINE_TRANSFER_COMPLETE (R212). A line transfer lands, or is discarded into a DRAINING slot, and pegs become FULL in stream order. -/
  | lineTransferComplete (id : Nat)
  /-- LINE_TRANSFER_FAULT (R222). A failed line transfer stops the line, which enters RECALL or FAULTED by the kind of failure. -/
  | lineTransferFault (id : Nat) (remote : Bool)
  /-- LINE_RESUME (R223). Once an absent page has been recalled, the line becomes RUNNING and fetches again from the recorded position. -/
  | lineResume (e : Fin 96) (l : Fin 16)
  /-- XFER (R230). XFER moves data between the basket and memory or another engine's basket. -/
  | iXfer (e : Fin 96)
  /-- XFER_COMPLETE (R232). A transfer lands and, with SIG set, increments the receiver's semaphore. -/
  | xferComplete (id : Nat) (ok : Bool)
  /-- SIG (R231). SIG increments a semaphore of another engine. -/
  | iSig (e : Fin 96)
  /-- SWAIT (R231). SWAIT stalls until a semaphore reaches the count and then subtracts the count. -/
  | iSwait (e : Fin 96)
  /-- BAR (R233). BAR stalls until every engine of the launch has issued the same barrier, and the last arrival releases them all. -/
  | iBar (e : Fin 96)
  /-- PMUL (R138). PMUL adds the groups of a K range of a chunk into an accumulator tile. -/
  | iPmul (e : Fin 96)
  /-- PCOMB (R142). PCOMB combines two sibling tiles of the chunk tree. -/
  | iPcomb (e : Fin 96)
  /-- PSTORE (R144). PSTORE writes a tile image to the basket. -/
  | iPstore (e : Fin 96)
  /-- PLOAD (R144). PLOAD loads a tile image from the basket, tag included. -/
  | iPload (e : Fin 96)
  /-- PSET (R144). PSET writes the press control register PCTL. -/
  | iPset (e : Fin 96)
  /-- FLD (R178). FLD loads and decodes stored elements into tile registers as fp32. -/
  | iFld (e : Fin 96)
  /-- FST (R179). FST rounds or quantises a vector and writes it to the basket. -/
  | iFst (e : Fin 96)
  /-- FACC (R180). FACC resolves an accumulator tile, scales it, applies a chain and writes it to registers or the basket. -/
  | iFacc (e : Fin 96)
  /-- FOP (R181). FOP applies a chain to a vector. -/
  | iFop (e : Fin 96)
  /-- FRED (R171). FRED reduces a vector or its segments by sum, maximum, minimum or arg-extreme. -/
  | iFred (e : Fin 96)
  /-- FPERM (R174). FPERM permutes a vector by index, transpose, expand or rotate. -/
  | iFperm (e : Fin 96)
  /-- FDOT (R177). FDOT forms a press-equivalent dot product on the finisher into column 0 of a tile. -/
  | iFdot (e : Fin 96)
  /-- FSET (R182). FSET writes FCTL, FIDX or a scalar FS register. -/
  | iFset (e : Fin 96)
  /-- FCHAIN (R182). FCHAIN loads 32 bytes into a chain register. -/
  | iFchain (e : Fin 96)
  /-- FCURVE (R166). FCURVE loads a curve table image into a slot, or refuses it. -/
  | iFcurve (e : Fin 96)
  /-- LAUNCH_WATCHDOG_EXPIRE (R243). A launch that runs past its WATCHDOG is stopped with the resumable fault CTL_WATCHDOG. -/
  | launchWatchdogExpire (launch : Nat)
  /-- BASKET_RINSE_COMPLETE (R203). A basket granule's rinse ends, and the new owner's waiting access proceeds. -/
  | basketRinseComplete (e : Fin 96) (granule : Fin 128)
  /-- REFRESH (R253). A refresh that falls due takes the subchannel at the next burst boundary. -/
  | refresh (bank : Fin 384 × Fin 16)
  /-- PATROL_SCRUB (R252). The controller reads each burst once every 24 hours and writes corrected bursts back. -/
  | patrolScrub (sub : Fin 384) (symbols : List (Fin 41 × Byte))
  /-- ARBITER_REFILL (R303). Every 256 n-cycles the memory arbiter adds each class's WEIGHT to its counter. -/
  | arbiterRefill (ch : Fin 896)
  /-- MEMORY_GRANT (R303). At the end of a granule the memory arbiter grants the next granule to the fullest waiting class. -/
  | memoryGrant (ch : Fin 896) (waiting : List MemReq) (errs : List UnitErr)
  /-- PAGE_MOVE (R274). Jenorneb moves a page: TRANSIT, copy, rewrite of the entry, and rinse of the old frame. -/
  | pageMove (ctx : Nat) (page : Nat)
  /-- PAGE_MOVE_COMPLETE (R274). A page move ends, the entry takes its new target, and accessors that waited on TRANSIT proceed. -/
  | pageMoveComplete (ctx : Nat) (page : Nat)
  /-- FRAME_RINSE_COMPLETE (R280). A frame's rinse ends, and the frame returns to the pool. -/
  | frameRinseComplete (frame : Nat)
  /-- APPEND_WINDOW_WRITE (R320). The mangle applies the append entries of a write into an append window as appends of one token. -/
  | appendWindowWrite (id : Nat)
  /-- KV_HEAT_HALVE (R339). Every 64 batch steps the heat of each KV page halves. -/
  | kvHeatHalve (ctx : Nat) (pool : Fin 4)
  /-- KV_HOT_PROMOTE (R339). Every 16 batch steps Jenorneb promotes the hottest pages into the pool's cupboard quota. -/
  | kvHotPromote (ctx : Nat) (pool : Fin 4)
  /-- BATCH_STEP_PLAN (R355). Jenorneb chooses the step group with the earliest due time and fills the batch table. -/
  | batchStepPlan (ctx : Nat)
  /-- BATCH_TABLE_RECEIVE (R380). A member receives the leader's batch table and launches the step on it. -/
  | batchTableReceive (pkt : Packet)
  /-- BATCH_STEP_COMMIT (R358). After the step's launch ends, Jenorneb reads the token table, applies cancellations and stop rules and writes tokens and records. -/
  | batchStepCommit (ctx : Nat)
  /-- STEP_TOKEN_ARRIVE (R473). A step token message adds one to the token's count in the named context. -/
  | stepTokenArrive (ctx : Nat) (token : BitVec 32)
  /-- STEP_LAUNCH (R474). A WAITING learning step whose tokens are present is launched by PRIO and admission order. -/
  | stepLaunch (ctx : Nat)
  /-- STEP_END (R471). A learning step's launch ends, and it ends OK, NOT_FINITE or LOSS_SPIKE and sends its notify tokens. -/
  | stepEnd (cid : Nat)
  /-- SCHEDULE_NEXT (R510). When engines become free, Jenorneb starts the first eligible candidate in class order, or gates the engines. -/
  | scheduleNext (part : Fin 8)
  /-- SLICE_MAX_EXPIRE (R511). A class-2 launch that runs past SLICE_MAX is pre-empted when another context's candidate waits. -/
  | sliceMaxExpire (launch : Nat)
  /-- CONTEXT_DEMOTE (R516). The resident blocked longest is switched out, written to the pool, rinsed and released. -/
  | contextDemote (ctx : Nat)
  /-- CONTEXT_RECALL (R516). A waiting demoted context has its shares placed and its image and cupboard pages read back. -/
  | contextRecall (ctx : Nat)
  /-- BUDGET_WINDOW (R526). At each 1 hub ms window the governor sets every die's rate and resets the energy allowance. -/
  | budgetWindow
  /-- SENSOR_READ (R532). Every 100 hub µs the junction sensors are read. -/
  | sensorRead (readings : List (BitVec 16))
  /-- ENGINE_GATE (R524). An engine or mangle with nothing dispatched for 64 a-cycles gates its clock. -/
  | engineGate (unit : Fin 128)
  /-- ENGINE_OFF (R524). An engine on which no context has a share for 1 ms powers off. -/
  | engineOff (e : Fin 96)
  /-- CUPBOARD_BANK_OFF (R524). A cupboard bank with no allocated frame powers off. -/
  | cupboardBankOff (die : Fin 32) (bank : Fin 16)
  /-- CLOCK_FAULT (R523). A reference that stops or leaves its range trips the part as a thermal trip does. -/
  | clockFault
  /-- INPUT_LOSS (R535). An input below 38 V for 50 µs, or below 30 V, switches off every rail, and all state is lost. -/
  | inputLoss (vin : Nat)
  /-- COLD_START (R579). The input rising above 40 V with a valid reference begins the rail sequence and the boot phases. -/
  | coldStart (vin : Nat)
  /-- RAILS_UP (R579). The rails are sequenced, PWR_GOOD rises, and the root PLL starts to lock. -/
  | railsUp
  /-- PLL_LOCK (R521). The root PLL locks, and the root of trust senses its fuses and runs its self-test. -/
  | pllLock
  /-- ROT_SELF_TEST_DONE (R579). The root-of-trust self-test ends, and image verification begins. -/
  | rotSelfTestDone (ok : Bool)
  /-- IMAGE_VERIFY (R576). The root of trust verifies an image slot after reading it, falling back to the other slot on failure. -/
  | imageVerify
  /-- JENORNEB_START (R579). The control cores are released, Jenorneb starts, and LPDDR6 training begins. -/
  | jenornebStart
  /-- LPDDR6_TRAINING_DONE (R579). Training of all subchannels ends, and the rinse and self-test begin. -/
  | lpddr6TrainingDone (failed : List Nat)
  /-- BOOT_RINSE_DONE (R579). The rinse of all memory and the self-test end, and the default tables and configuration bundle are applied. -/
  | bootRinseDone (failed : List Nat)
  /-- ANTI_ROLLBACK_RATCHET (R578). After READY, the root of trust blows anti-rollback and revocation fuses for a RATCHET image. -/
  | antiRollbackRatchet
  /-- RESET_N_ASSERT (R585). RESET_N held low for 10 µs or more starts a SYSTEM reset. -/
  | resetNAssert
  /-- CONVENTIONAL_RESET (R621). PERST#, hot reset, secondary bus reset, link down or IDE failure starts a SYSTEM reset. -/
  | conventionalReset (perst : Bool)
  /-- FUNCTION_LEVEL_RESET (R621). A CXL Function Level Reset starts a FUNCTION reset unless one is joined or a boot is in progress. -/
  | functionLevelReset
  /-- CXL_RESET (R621). A CXL Reset starts a FUNCTION reset, rinsing the HDM-DB backing with Mem Clr Enable. -/
  | cxlReset (memClr : Bool)
  /-- D3HOT_ENTRY (R622). Entry into D3hot begins a FUNCTION reset and stops command fetch. -/
  | d3hotEntry
  /-- D0_RETURN (R622). A return from D3hot to D0 finishes the FUNCTION reset. -/
  | d0Return
  /-- BUS_MASTER_ENABLE_SET (R652). Setting Bus Master Enable lets waiting records and device-initiated requests proceed. -/
  | busMasterEnableSet
  /-- HDM_MEM_REQUEST (R609). A CXL.mem read or write to the HDM-DB window is served from the backing, or poisoned before READY. -/
  | hdmMemRequest (write : Bool) (off : Nat) (data : List Byte)
  /-- HOST_SNOOP (R616). An H2D snoop is answered with RspIHitI. -/
  | hostSnoop (addr : Nat)
  /-- HOST_READ_COMPLETE (R616). A device-initiated RdCurr returns its data. -/
  | hostReadComplete (addr : Nat) (data : List Byte)
  /-- HOST_READ_ERROR (R618). A device-initiated read that errors or times out after 50 ms is treated as an uncorrectable source. -/
  | hostReadError (addr : Nat)
  /-- GET_VERSION (R598). The SPDM responder answers GET_VERSION. -/
  | getVersion (msg : List Byte)
  /-- GET_CAPABILITIES (R598). The SPDM responder answers GET_CAPABILITIES. -/
  | getCapabilities (msg : List Byte)
  /-- NEGOTIATE_ALGORITHMS (R598). The SPDM responder answers NEGOTIATE_ALGORITHMS. -/
  | negotiateAlgorithms (msg : List Byte)
  /-- GET_DIGESTS (R598). The SPDM responder returns the digest of certificate slot 0. -/
  | getDigests (msg : List Byte)
  /-- GET_CERTIFICATE (R598). The SPDM responder returns the certificate chain of slot 0. -/
  | getCertificate (msg : List Byte)
  /-- CHALLENGE (R598). The SPDM responder answers CHALLENGE with a signature of the identity key. -/
  | challenge (msg : List Byte)
  /-- GET_MEASUREMENTS (R599). The SPDM responder returns measurement indices 1 to 6. -/
  | getMeasurements (msg : List Byte)
  /-- KEY_EXCHANGE (R598). The SPDM responder begins a secured session. -/
  | keyExchange (msg : List Byte)
  /-- FINISH (R598). The SPDM responder completes the session handshake. -/
  | finish (msg : List Byte)
  /-- KEY_UPDATE (R598). The SPDM responder updates the session keys. -/
  | keyUpdate (msg : List Byte)
  /-- END_SESSION (R598). The SPDM responder ends the session. -/
  | endSession (msg : List Byte)
  /-- IDE_KM_REQUEST (R620). A VENDOR_DEFINED_REQUEST carries IDE key management for the CXL streams. -/
  | ideKmRequest (msg : List Byte)
  /-- SPDM_UNSUPPORTED_REQUEST (R598). Any other SPDM request is answered with UnsupportedRequest. -/
  | spdmUnsupportedRequest (msg : List Byte)
  /-- CDAT_TABLE_ACCESS (R608). A DOE CDAT access returns the DSMAS and DSLBIS entries. -/
  | cdatTableAccess (entry : Nat)
  /-- PORT_SIGNAL_DETECT (R414). Signal on the lanes moves a half-port from DETECT to auto-negotiation or training. -/
  | portSignalDetect (p : Fin 36)
  /-- PORT_AN_COMPLETE (R414). Clause 73 auto-negotiation ends, and training begins. -/
  | portAnComplete (p : Fin 36)
  /-- PORT_TRAIN_COMPLETE (R416). Link training ends, correcting polarity and order or falling back to a degraded half. -/
  | portTrainComplete (p : Fin 36) (lanes : BitVec 8) (pol : BitVec 8) (rev : Bool)
  /-- PORT_ALIGN_COMPLETE (R414). FEC and PCS lock, and a direct port begins its IDENT exchange or the port comes UP. -/
  | portAlignComplete (p : Fin 36)
  /-- PORT_STATE_TIMEOUT (R414). A bring-up state that exceeds its limit sends the half-port DOWN. -/
  | portStateTimeout (p : Fin 36)
  /-- PORT_DOWN_WAIT_EXPIRE (R414). After 1 s in DOWN a half-port returns to DETECT. -/
  | portDownWaitExpire (p : Fin 36)
  /-- IDENT (R415). An IDENT message brings a direct port UP if the peer matches, or sets PEER_MISMATCH or DIGEST_DIFF. -/
  | ident (p : Fin 36) (dev : Nat) (port : Nat) (credits : List Nat) (digest : BitVec 64)
  /-- LINK_FLIT_RECEIVE (R395). A received flit is checked by CRC, processes ACK and credits, and delivers or discards DATA in order. -/
  | linkFlitReceive (p : Fin 36) (flit : List Byte)
  /-- NAK (R395). A NAK makes the transmitter send again from the named SEQ. -/
  | nak (p : Fin 36) (seq : Nat)
  /-- RETRAIN (R396). A RETRAIN message, or 8 replays without progress, retrains the port while keeping the retry buffers. -/
  | retrain (p : Fin 36) (received : Bool)
  /-- REPLAY_TIMEOUT (R395). With no ACK progress for 2 µs the transmitter sends again from the oldest unacknowledged flit. -/
  | replayTimeout (p : Fin 36)
  /-- RETRAIN_TIMEOUT (R396). A port not UP within 1 s of retraining goes DOWN, and its unacknowledged packets are lost. -/
  | retrainTimeout (p : Fin 36)
  /-- READ (R401). A READ packet is translated at the destination and answered with READ_DATA or READ_ERR. -/
  | read (pkt : Packet)
  /-- WRITE (R401). A WRITE packet is translated and written, and answered with WRITE_ACK or READ_ERR. -/
  | write (pkt : Packet)
  /-- READ_DATA (R401). READ_DATA completes the outstanding request with its TAG. -/
  | readData (pkt : Packet)
  /-- WRITE_ACK (R401). WRITE_ACK completes an outstanding write. -/
  | writeAck (pkt : Packet)
  /-- READ_ERR (R401). READ_ERR fails the requester's transfer with the mapped fault. -/
  | readErr (pkt : Packet)
  /-- MSG (R400). A CTRL message passes between Jenorneb instances. -/
  | msg (pkt : Packet)
  /-- REQ_TIMEOUT_EXPIRE (R401). A request without an answer after REQ_TIMEOUT fails with LINE_REMOTE or XFER_SOURCE. -/
  | reqTimeoutExpire (tag : Nat)
  /-- ETH_FRAME_RECEIVE (R404). An Ethernet frame is filtered by MAC, EtherType and DST, and its packet is accepted by PSN and acknowledged. -/
  | ethFrameReceive (p : Fin 36) (frame : List Byte)
  /-- ETH_NAK (R404). A NAK in the shim makes the sender send the named packet again. -/
  | ethNak (p : Fin 36) (frame : List Byte)
  /-- ETH_RTO_EXPIRE (R404). A packet unacknowledged for RTO is sent again, and after 7 resends the peer is declared unreachable. -/
  | ethRtoExpire (peer : Nat) (psn : Nat)
  /-- FABRIC_ARBITER_REFILL (R412). Every 256 n-cycles each fabric class counter gains its WEIGHT. -/
  | fabricArbiterRefill (p : Fin 36)
  /-- FABRIC_GRANT (R412). At the end of a packet the egress arbiter grants the next whole packet to the fullest waiting class. -/
  | fabricGrant (p : Fin 36)
  /-- COLL_START (R429). A START packet is collected by a node leader or by member 0 for the start phase. -/
  | collStart (pkt : Packet)
  /-- DECIDE (R430). A received DECIDE begins the data phase, or ends the collective with its code. -/
  | decide (pkt : Packet)
  /-- COLL_START_TIMEOUT (R430). A START missing after START_TIMEOUT decides DEVICE_FAULT, or ABORT for a commit. -/
  | collStartTimeout (coll : Nat)
  /-- COLL_START_RESEND (R429). A member whose START was dropped sends it again every RTO. -/
  | collStartResend (coll : Nat)
  /-- COLL_DATA (R455). A DATA packet lands, and a shard is verified by CRC and acknowledged or asked again once its last byte lands. -/
  | collData (pkt : Packet)
  /-- FETCH (R435). A FETCH makes a holder answer with the shard's DATA, or NACK STALE. -/
  | fetch (pkt : Packet)
  /-- ACK (R455). A shard ACK lets the sender drop the shard and lets a combiner forward its slots. -/
  | ack (pkt : Packet)
  /-- RESEND (R455). A RESEND makes the sender send the shard again. -/
  | resend (pkt : Packet)
  /-- BUSY (R443). A BUSY answer makes the sender send the partial again after RTO. -/
  | busy (pkt : Packet)
  /-- BUSY_RETRY_EXPIRE (R443). RTO after a BUSY, the partial is sent again. -/
  | busyRetryExpire (coll : Nat) (shard : Nat)
  /-- READY (R452). A refold READY lets the sender send its entries of that round to the peer. -/
  | ready (pkt : Packet)
  /-- ABORT (R428). An ABORT ends the collective with the code and member it carries. -/
  | abort (pkt : Packet)
  /-- COUNT (R447). An all-to-all COUNT carries rows offered or placed between members. -/
  | count (pkt : Packet)
  /-- NACK (R436). A NACK makes the receiver ask the next holder. -/
  | nack (pkt : Packet)
  /-- DARN_WAIT_EXPIRE (R456). A shard without progress for DARN_WAIT counts a failed attempt and is darned from the next source. -/
  | darnWaitExpire (coll : Nat) (shard : Nat)
  /-- COMMIT_WAIT_EXPIRE (R485). WAIT after admission, a commit member sends START with its vote as it stands. -/
  | commitWaitExpire (coll : Nat)
  /-- COMMIT_DECIDE_TIMEOUT (R489). A READY voter without DECIDE after START_TIMEOUT asks its peers and adopts a decision, or ends DOUBT. -/
  | commitDecideTimeout (coll : Nat)
  /-- TALLY_UPDATE (R558). The tally unit applies one update to a record and to the store header, or drops it when its queue is full. -/
  | tallyUpdate
  /-- TALLY_MAX_HOLD_EXPIRE (R565). When MAX_HOLD passes, the store is thawed as TALLY.THAW would. -/
  | tallyMaxHoldExpire
  /-- MGMT_CONTROLLER_START (R629). The power controller starts when the input exceeds 36 V and samples the address straps. -/
  | mgmtControllerStart (vin : Nat) (straps : Fin 8)
  /-- MGMT_REFRESH (R636). The management registers are refreshed at least once every second. -/
  | mgmtRefresh
  /-- MGMT_WRITE (R635). An SMBus write is answered with NACK and changes nothing. -/
  | mgmtWrite (reg : Nat) (value : Nat)
  /-- REFCLK_VALID (R644). The reference clock becomes valid, so that a waiting cold start or SYSTEM reset leaves phase 0 and proceeds. -/
  | refclkValid
  /-- RESET_N_RELEASE (R644). RESET_N or PERST_N returns high, which ends a held SYSTEM reset and lets phases 1 to 8 proceed. -/
  | resetNRelease (perst : Bool)
  /-- MGMT_CONTROLLER_STOP (R629). The input falls below 36 V, the power controller stops, BOOT_CAUSE is lost and every sideband output reads low. -/
  | mgmtControllerStop
  /-- BUS_MASTER_ENABLE_CLEAR (R617). The host clears Bus Master Enable, and the part stops issuing device-initiated requests, so records and host-memory work wait. -/
  | busMasterEnableClear
  /-- BOOT_PHASE_TIMEOUT (R579). A boot phase exceeds its longest time, such as a PLL that does not lock or Jenorneb failing to start, and the boot stops with its FAIL_UNIT. -/
  | bootPhaseTimeout
  /-- CXL_LINK_TRAINED (R605). The host link trains to 256-byte flit mode at an allowed width and rate and comes up, making configuration space and BOOT_STATUS reachable. -/
  | cxlLinkTrained (width : Nat) (gts : Nat)
  /-- CABLE_CONNECT (R644). A cable is connected to a fabric connector while its port trains, and the half-port returns to DETECT through DOWN. -/
  | cableConnect (p : Fin 36)
  /-- DOE_DISCOVERY (R604). A DOE discovery request on the mailbox is answered with the protocols the instance supports. -/
  | doeDiscovery (index : Nat)
  /-- GLOBAL_PERSISTENT_FLUSH (R604). A CXL Global Persistent Flush is acknowledged at once. -/
  | globalPersistentFlush
  /-- BACK_INVALIDATE_RESPONSE (R610). The host answers a BISnpData, after writing back any modified line, and the waiting read of window data proceeds. -/
  | backInvalidateResponse (off : Nat) (data : List Byte)
  /-- PFC_FRAME_RECEIVE (R406). A priority-based flow control frame arrives on an Ethernet half-port and pauses or releases transmission on its priorities. -/
  | pfcFrameReceive (p : Fin 36) (prio : Fin 8) (quanta : Nat)
  /-- DEFERRAL_EXPIRE (R364). A WAITING request without a TTFT goal that has waited 2^32 − 1 hub µs ends ADMISSION_REFUSED with DETAIL 0x15. -/
  | deferralExpire (req : Nat)
  /-- PEERS_QUERY_TIMEOUT (R493). 1,000 hub µs after a WEIGHTS.QUERY in PEERS or ADOPT mode asked its node peers, it stops waiting and completes with the answers received. -/
  | peersQueryTimeout (cid : Nat)
  deriving DecidableEq, Repr

end Sys2Proof
end

