-- ==== Sys2Proof/Config.lean ====
section
/-! DEFINITION. What the spec leaves open: opaque constants of which no proof can see a value. -/

namespace Sys2Proof.Config

/-- The n-th value that the spec leaves undefined, of w bits (log 12). -/
opaque freeValue (w n : Nat) : BitVec w

/-- A basket byte read while the write of another unit to it has not been handed over: draw n, address a (06 R189; log 7). -/
opaque freeByte (n a : Nat) : Byte

/-- Byte i of the body of a CTRL flit: message 0 NAK, 1 IDENT, 2 RETRAIN, with its argument (10 R393; log 28). -/
opaque ctrlByte (message argument i : Nat) : Byte

/-- The bytes of the firmware's default table of a kind (16 R589; log 14). -/
opaque defaultTable (kind : Nat) : List Byte

/-- The directory's byte offset of instance 0's record of a quantity, and its record stride (15 R553; log 37). -/
opaque tallyPlace (qid : Nat) : Nat × Nat

/-- Command handlers that the firmware holds (02 R48, R50; log 14). -/
opaque knownHandler (handler : Nat) : Bool

/-- SHA-256 of the root-of-trust ROM (16 R599; log 14). -/
opaque romHash : BitVec 256

/-- Check symbol i, 0 to 3, of the Reed-Solomon code over the data and address symbols of a burst (07 R248; log 62). -/
opaque burstCheck (symbols : List Byte) (i : Nat) : Byte

/-- The eight check bits of a 64-bit cupboard word (07 R263; log 62). -/
opaque wordCheck (word : BitVec 64) : Byte

/-- DPA bits 43:8 of a context's page table of a level, of the table that serves addresses with the given high bits (07 R256, R258;
log 63). -/
opaque tableAt (ctx level high : Nat) : BitVec 36

/-- What an erased byte of the serial flash reads as (16 R615; log 16). -/
opaque flashErased : Byte
/-- SHA-256 of the Carmudom root certificate, which the part does not hold (16 R595, R598; log 42). -/
opaque rootHash : BitVec 256

end Sys2Proof.Config
end

