-- ==== Sys2Proof/Machine/Bits.lean ====
section
/-! DEFINITION. Finite maps, byte strings, bit fields and little-endian numbers. -/

namespace Sys2Proof.Machine

/-- The value under key k, if there is one. -/
def smFind {α : Type} : SMap α → Nat → Option α
  | [], _ => none
  | (k', v) :: m, k => if k = k' then some v else smFind m k

/-- Puts v under key k. -/
def smPut {α : Type} : SMap α → Nat → α → SMap α
  | [], k, v => [(k, v)]
  | (k', v') :: m, k, v =>
    if k < k' then (k, v) :: (k', v') :: m
    else if k = k' then (k, v) :: m
    else (k', v') :: smPut m k v

/-- Removes key k. -/
def smErase {α : Type} (m : SMap α) (k : Nat) : SMap α := m.filter (fun p => p.1 != k)

/-- The value under k, d where none is listed. -/
def smGet {α : Type} (d : α) (m : SMap α) (k : Nat) : α := (smFind m k).getD d

/-- Puts v under k in a map whose unlisted keys read as d: the value d is not listed. -/
def smSet {α : Type} [DecidableEq α] (d : α) (m : SMap α) (k : Nat) (v : α) : SMap α :=
  if v = d then smErase m k else smPut m k v

/-- Applies f to the value under k of a map whose unlisted keys read as d. -/
def smMod {α : Type} [DecidableEq α] (d : α) (m : SMap α) (k : Nat) (f : α → α) : SMap α :=
  smSet d m k (f (smGet d m k))

/-- Applies f to the value under k, if there is one. -/
def smUpd {α : Type} (m : SMap α) (k : Nat) (f : α → α) : SMap α :=
  match smFind m k with
  | some v => smPut m k (f v)
  | none => m

/-- Keys above the bound rise strictly. -/
def smSorted {α : Type} : SMap α → Bool
  | [] => true
  | [_] => true
  | a :: b :: m => decide (a.1 < b.1) && smSorted (b :: m)

/-- The canonical form of a map with default d: keys rise strictly and no entry equals d. -/
def smCanon {α : Type} [DecidableEq α] (d : α) (m : SMap α) : Bool :=
  smSorted m && m.all (fun p => decide (p.2 ≠ d))

/-- The canonical form of a memory: addresses rise strictly, and no entry holds the 0 that an unlisted address reads as. -/
def Memory.wf (m : Mem) : Bool := smCanon 0#8 m

/-- The byte at address a. -/
def memByte (m : Mem) (a : Nat) : Byte := smGet 0#8 m a

/-- Writes the byte at address a. -/
def memSet (m : Mem) (a : Nat) (b : Byte) : Mem := smSet 0#8 m a b

/-- The n bytes from address a. -/
def memRead (m : Mem) (a : Nat) : Nat → List Byte
  | 0 => []
  | n + 1 => memByte m a :: memRead m (a + 1) n

/-- Writes a byte string from address a upwards. -/
def memWrite (m : Mem) (a : Nat) : List Byte → Mem
  | [] => m
  | b :: bs => memWrite (memSet m a b) (a + 1) bs

/-- Clears the n bytes from address a. -/
def memClear (m : Mem) (a n : Nat) : Mem := m.filter (fun p => p.1 < a || a + n ≤ p.1)

/-- A byte string as a number, first byte least significant. -/
def leNat : List Byte → Nat
  | [] => 0
  | b :: bs => b.toNat + 256 * leNat bs

/-- A number as n bytes, least significant first. -/
def natLe : Nat → Nat → List Byte
  | 0, _ => []
  | n + 1, v => BitVec.ofNat 8 v :: natLe n (v / 256)

/-- A byte string as a number, first byte most significant. -/
def beNat (bs : List Byte) : Nat := bs.foldl (fun a b => a * 256 + b.toNat) 0

/-- A number as n bytes, most significant first. -/
def natBe (n v : Nat) : List Byte := (natLe n v).reverse

/-- Bits hi:lo of a number. -/
def bits (v hi lo : Nat) : Nat := (v / 2 ^ lo) % 2 ^ (hi + 1 - lo)

/-- Bit i of a number. -/
def bit (v i : Nat) : Bool := v / 2 ^ i % 2 = 1

/-- A Bool as a number. -/
def b2n (b : Bool) : Nat := if b then 1 else 0

/-- n bytes of a string from offset o, zeros past its end. -/
def slice (bs : List Byte) (o n : Nat) : List Byte :=
  let r := (bs.drop o).take n
  r ++ List.replicate (n - r.length) 0#8

/-- The little-endian number of n bytes at offset o. -/
def field (bs : List Byte) (o n : Nat) : Nat := leNat (slice bs o n)

/-- The 32-bit word at offset o of a byte string. -/
def word (bs : List Byte) (o : Nat) : Word := BitVec.ofNat 32 (field bs o 4)

/-- Replaces the bytes of a string from offset o. -/
def patchBytes (bs : List Byte) (o : Nat) (v : List Byte) : List Byte :=
  slice bs 0 o ++ v ++ bs.drop (o + v.length)

/-- The bytes all are zero. -/
def zeros (bs : List Byte) : Bool := bs.all (fun b => b == 0#8)

/-- Offset of the first byte in bs that is not zero, counted from o. -/
def firstNonZero (bs : List Byte) (o : Nat) : Option Nat :=
  (bs.findIdx? (fun b => b != 0#8)).map (fun i => o + i)

/-- The quotient rounded up. -/
def ceilDiv (a b : Nat) : Nat := (a + b - 1) / b

/-- The least k with n ≤ 2 ^ k. -/
def ceilLog2 (n : Nat) : Nat := if n ≤ 1 then 0 else (n - 1).log2 + 1

/-- The integer of a w-bit two's-complement number. -/
def sext (w v : Nat) : Int := (BitVec.ofNat w v).toInt

/-- The list 0, 1, …, n − 1 with an offset. -/
def span (lo n : Nat) : List Nat := List.range' lo n

/-- An element added to a list without repeats, in rising order. -/
def insertSorted (x : Nat) : List Nat → List Nat
  | [] => [x]
  | y :: ys => if x < y then x :: y :: ys else if x = y then y :: ys else y :: insertSorted x ys

/-- One list's elements added to a rising list. -/
def insertAll (xs ys : List Nat) : List Nat := xs.foldl (fun l x => insertSorted x l) ys

/-- The element at index i, d past the end. -/
def nth {α : Type} (d : α) (l : List α) (i : Nat) : α := l.getD i d

/-- Replaces the element at index i. -/
def setNth {α : Type} (l : List α) (i : Nat) (v : α) : List α := l.set i v

/-- The first n from a list of options: the first one that is some. -/
def firstSome {α : Type} : List (Option α) → Option α
  | [] => none
  | some a :: _ => some a
  | none :: l => firstSome l

end Sys2Proof.Machine
end

