-- ==== Sys2Proof/Machine/Flags.lean ====
section
/-! DEFINITION. The arithmetic flags: the bits of AFLAGS and computations that set them (03 R104). -/

namespace Sys2Proof.Machine

/-- A value computed with sticky flags, in the bits of AFLAGS (R104). -/
abbrev FlagM := StateM (BitVec 32)

namespace Fl
def flushed : BitVec 32 := 0x01#32
def invalid : BitVec 32 := 0x02#32
def overflow : BitVec 32 := 0x04#32
def saturated : BitVec 32 := 0x08#32
def narrowNan : BitVec 32 := 0x10#32
def widenInexact : BitVec 32 := 0x20#32
def permRange : BitVec 32 := 0x40#32
def scaleNan : BitVec 32 := 0x80#32
end Fl

/-- Sets a sticky flag (R104). -/
def raise (f : BitVec 32) : FlagM Unit := modify (fun s => s ||| f)

/-- Sets a sticky flag when the condition holds. -/
def raiseIf (c : Bool) (f : BitVec 32) : FlagM Unit := modify (fun s => if c then s ||| f else s)

/-- Runs a flagged computation from clear flags. -/
def runFlags {α : Type} (m : FlagM α) : α × BitVec 32 := m.run 0#32

end Sys2Proof.Machine
end

