-- ==== Sys2Proof/Machine/Formats.lean ====
section
/-! DEFINITION. Number formats, scales, rounding and the arithmetic of fp32 values (chapter 03). -/

namespace Sys2Proof.Machine

/-- An exact value: NaN, an infinity, or sign × mag / den × 2^exp, where exp is the weight of the least significant
significand bit of its source (R107) and den is 1 unless it was divided (R89). -/
inductive Val where
  | nan
  | inf (neg : Bool)
  | fin (neg : Bool) (mag den : Nat) (exp : Int)
  deriving DecidableEq, Repr

/-- The power of two with an integer exponent, as numerator and denominator. -/
def pow2Num (e : Int) : Nat := 2 ^ e.toNat
def pow2Den (e : Int) : Nat := 2 ^ (-e).toNat

/-- ⌊log2 (num / den)⌋ of a positive ratio. -/
def floorLog2Ratio (num den : Nat) : Int :=
  let k : Int := (num.log2 : Int) - (den.log2 : Int)
  -- num / den lies in (2^(k-1), 2^(k+1))
  if den * pow2Num k ≤ num * pow2Den k then k else k - 1

/-- The floating-point formats by code: exponent bits, mantissa bits, bias (R79). -/
def fltShape (elem : Nat) : Nat × Nat × Nat :=
  match elem with
  | 0 => (8, 23, 127)
  | 1 => (8, 7, 127)
  | 2 => (4, 3, 7)
  | 3 => (5, 2, 15)
  | _ => (2, 1, 1)

/-- Bits of an element (R79). -/
def elemBits (elem : Nat) : Nat :=
  match elem with
  | 0 => 32 | 1 => 16 | 2 => 8 | 3 => 8 | 4 => 4 | 5 => 4 | _ => 32

/-- A code of the format table (R79). -/
def elemValid (elem : Nat) : Bool := decide (elem ≤ 6)

/-- Decodes an element exactly (R79, R80), with no subnormal mode. -/
def decodeElem (elem code : Nat) : Val :=
  if elem = 5 then let v := sext 4 code; .fin (decide (v < 0)) v.natAbs 1 0
  else if elem = 6 then let v := sext 32 code; .fin (decide (v < 0)) v.natAbs 1 0
  else
    let (eb, mb, bias) := fltShape elem
    let neg := bit code (eb + mb)
    let e := bits code (eb + mb - 1) mb
    let m := code % 2 ^ mb
    let top := 2 ^ eb - 1
    if (elem = 0 ∨ elem = 1 ∨ elem = 3) ∧ e = top then (if m = 0 then .inf neg else .nan)
    else if elem = 2 ∧ e = top ∧ m = 7 then .nan
    else if e = 0 then .fin neg m 1 (1 - (bias : Int) - mb)
    else .fin neg (m + 2 ^ mb) 1 ((e : Int) - bias - mb)

/-- A subnormal fp32 or BF16 value. -/
def isSubnormal (elem code : Nat) : Bool :=
  let (eb, mb, _) := fltShape elem
  decide (elem ≤ 1) && bits code (eb + mb - 1) mb == 0 && code % 2 ^ mb != 0

/-- Reads an operand under the subnormal mode (R100, R101, R103). -/
def readElem (subn : Bool) (elem code : Nat) : FlagM Val := do
  if subn && isSubnormal elem code then
    raise Fl.flushed
    return (match decodeElem elem code with | .fin n _ _ e => .fin n 0 1 e | v => v)
  else return decodeElem elem code

/-- Largest finite magnitude of a format for a sign, as (mag, exp) (R79, R99). -/
def maxMag (elem : Nat) (neg : Bool) : Nat × Int :=
  match elem with
  | 0 => (2 ^ 24 - 1, 104)
  | 1 => (2 ^ 8 - 1, 120)
  | 2 => (448, 0)
  | 3 => (57344, 0)
  | 4 => (6, 0)
  | 5 => (if neg then 8 else 7, 0)
  | _ => (if neg then 2 ^ 31 else 2 ^ 31 - 1, 0)

/-- Code of the grid magnitude m × 2^t of a floating-point format, m at most 2 to the precision. -/
def packFloat (elem : Nat) (neg : Bool) (m : Nat) (t : Int) : Nat :=
  let (eb, mb, bias) := fltShape elem
  let s := if neg then 2 ^ (eb + mb) else 0
  if m < 2 ^ mb then s + m
  else if m = 2 ^ (mb + 1) then s + ((t + bias + mb + 1).toNat) * 2 ^ mb
  else s + ((t + bias + mb).toNat) * 2 ^ mb + (m - 2 ^ mb)

/-- Code of an integer of a two's-complement format. -/
def packInt (elem : Nat) (neg : Bool) (m : Nat) : Nat :=
  let w := elemBits elem
  if neg then (2 ^ w - m) % 2 ^ w else m % 2 ^ w

/-- Code of the infinity of a format that has one. -/
def infCode (elem : Nat) (neg : Bool) : Nat :=
  let (eb, mb, _) := fltShape elem
  (if neg then 2 ^ (eb + mb) else 0) + (2 ^ eb - 1) * 2 ^ mb

/-- The canonical NaN (R94). -/
def nanCode (elem : Nat) : Nat :=
  match elem with
  | 0 => 0x7FC00000 | 1 => 0x7FC0 | 2 => 0x7F | 3 => 0x7E | _ => 0

/-- Code of a zero of a sign (R98). -/
def zeroCode (elem : Nat) (neg : Bool) : Nat :=
  if elem ≥ 5 then 0 else (let (eb, mb, _) := fltShape elem; if neg then 2 ^ (eb + mb) else 0)

/-- Code of the largest finite value of a sign. -/
def maxCode (elem : Nat) (neg : Bool) : Nat :=
  match elem with
  | 0 => infCode 0 neg - 1
  | 1 => infCode 1 neg - 1
  | 2 => (if neg then 0x80 else 0) + 0x7E
  | 3 => (if neg then 0x80 else 0) + 0x7B
  | 4 => (if neg then 0x8 else 0) + 0x7
  | 5 => if neg then 8 else 7
  | _ => if neg then 2 ^ 31 else 2 ^ 31 - 1

/-- The magnitude rounded to a multiple of 2^t (R105 to R107): the multiple, none when R105 replaces it by zero.
rb is the generator output of stochastic rounding; none rounds to nearest even. -/
def roundGrid (rb : Option Nat) (mag den : Nat) (exp t : Int) : Option Nat :=
  let num := mag * pow2Num (exp - t)
  let dn := den * pow2Den (exp - t)
  if num * 2 ^ 104 < dn then none
  else
    let i := num / dn
    let r := num % dn
    let up :=
      match rb with
      | none => decide (dn < 2 * r) || (decide (2 * r = dn) && i % 2 == 1)
      | some rv =>
        let c : Nat := if den = 1 then min (t - exp).toNat 127 else 127
        let d := r * 2 ^ c / dn
        decide (2 ^ c ≤ d + rv % 2 ^ c)
    some (if up then i + 1 else i)

/-- Exponent of the least kept bit: t of the rounding rules. -/
def gridExp (elem : Nat) (mag den : Nat) (exp : Int) : Int :=
  if elem ≥ 5 then 0
  else
    let (_, mb, bias) := fltShape elem
    max (floorLog2Ratio mag den + exp) (1 - (bias : Int)) - mb

/-- A magnitude m × 2^t exceeds n × 2^u. -/
def magGt (m : Nat) (t : Int) (n : Nat) (u : Int) : Bool :=
  decide (n * pow2Num (u - t) < m * pow2Den (u - t))

/-- Formats without NaN (R99). -/
def noNan (elem : Nat) : Bool := decide (4 ≤ elem)

/-- One rounded conversion into an element format (R99, R102 to R110). An infinity that a format without NaN takes as its largest
finite value is clamped, so SATURATED is set beside OVERFLOW (R104). A value that the rounding of R106 or R107 takes to zero under
SUBN 1 sets no FLUSHED: R103 and R104 speak of a non-zero result, where the procedure under Rounding tests the magnitude alone
(DEDUCED, log 17). -/
def encodeElem (elem : Nat) (subn sat : Bool) (rb : Option Nat) (v : Val) : FlagM Nat := do
  let sat := sat || noNan elem
  match v with
  | .nan =>
    raiseIf (noNan elem) Fl.narrowNan
    return (if noNan elem then 0 else nanCode elem)
  | .inf neg =>
    if noNan elem then
      raise Fl.overflow
      raise Fl.saturated
      return maxCode elem neg
    else if elem = 2 then
      raise Fl.overflow
      if sat then
        raise Fl.saturated
        return maxCode elem neg
      else return nanCode elem
    else return infCode elem neg
  | .fin neg mag den exp =>
    if mag = 0 then return zeroCode elem neg
    let t := gridExp elem mag den exp
    match roundGrid rb mag den exp t with
    | none => return zeroCode elem neg
    | some m =>
      let (mm, me) := maxMag elem neg
      if magGt m t mm me then
        raise Fl.overflow
        if sat then
          raise Fl.saturated
          return maxCode elem neg
        else return (if elem = 2 then nanCode elem else infCode elem neg)
      else if m = 0 then return zeroCode elem neg
      else if elem ≥ 5 then return packInt elem neg m
      else
        let (_, mb, _) := fltShape elem
        if subn && decide (elem ≤ 1) && decide (m < 2 ^ mb) then
          raise Fl.flushed
          return zeroCode elem neg
        else return packFloat elem neg m t

/-! ### Exact arithmetic (R95, R98) -/

def vneg : Val → Val
  | .nan => .nan
  | .inf n => .inf (!n)
  | .fin n m d e => .fin (!n) m d e

/-- The value times 2^k. -/
def vscale (k : Int) : Val → Val
  | .fin n m d e => .fin n m d (e + k)
  | v => v

def isNan : Val → Bool
  | .nan => true
  | _ => false

def isInf : Val → Bool
  | .inf _ => true
  | _ => false

def isZeroVal : Val → Bool
  | .fin _ 0 _ _ => true
  | _ => false

def isNegVal : Val → Bool
  | .nan => false
  | .inf n => n
  | .fin n _ _ _ => n

def sgn (neg : Bool) (m : Nat) : Int := if neg then -(m : Int) else m

/-- The exact sum. R107 lists no e_lsb of a sum, which only a stochastic RESOLVE rounds: the model takes the lesser exponent of the two
operands, a zero among them counting with the exponent of its encoding (DESIGN CHOICE, log 17). -/
def vadd (a b : Val) : FlagM Val := do
  match a, b with
  | .nan, _ => return .nan
  | _, .nan => return .nan
  | .inf n, .inf n' =>
    if n = n' then return .inf n
    else
      raise Fl.invalid
      return .nan
  | .inf n, _ => return .inf n
  | _, .inf n => return .inf n
  | .fin n m d e, .fin n' m' d' e' =>
    let lo := min e e'
    let x := sgn n (m * d' * 2 ^ (e - lo).toNat)
    let y := sgn n' (m' * d * 2 ^ (e' - lo).toNat)
    let s := x + y
    if s = 0 then return .fin (n && n' && decide (m = 0) && decide (m' = 0)) 0 1 lo
    else return .fin (decide (s < 0)) s.natAbs (d * d') lo

/-- The exact product. -/
def vmul (a b : Val) : FlagM Val := do
  match a, b with
  | .nan, _ => return .nan
  | _, .nan => return .nan
  | .fin n m d e, .fin n' m' d' e' => return .fin (n != n') (m * m') (d * d') (e + e')
  | x, y =>
    if isZeroVal x || isZeroVal y then
      raise Fl.invalid
      return .nan
    else return .inf (isNegVal x != isNegVal y)

/-- The exact quotient; a finite non-zero value over zero is an infinity and sets OVERFLOW (R95). -/
def vdiv (a b : Val) : FlagM Val := do
  match a, b with
  | .nan, _ => return .nan
  | _, .nan => return .nan
  | .inf _, .inf _ =>
    raise Fl.invalid
    return .nan
  | .inf n, y => return .inf (n != isNegVal y)
  | .fin n _ _ _, .inf n' => return .fin (n != n') 0 1 0
  | .fin n m d e, .fin n' m' d' e' =>
    if m' = 0 then
      if m = 0 then
        raise Fl.invalid
        return .nan
      else
        raise Fl.overflow
        return .inf (n != n')
    else return .fin (n != n') (m * d') (d * m') (e - e')

/-! ### fp32 operations, each rounded to nearest even (R85, R95, R100) -/

def f32 (subn : Bool) (x : Word) : FlagM Val := readElem subn 0 x.toNat

/-- Rounds an exact value to fp32 (R85). -/
def rne32 (subn : Bool) (v : Val) : FlagM Word := do
  let c ← encodeElem 0 subn false none v
  return BitVec.ofNat 32 c

def fadd (subn : Bool) (x y : Word) : FlagM Word := do
  let a ← f32 subn x
  let b ← f32 subn y
  let s ← vadd a b
  rne32 subn s

def fsub (subn : Bool) (x y : Word) : FlagM Word := do
  let a ← f32 subn x
  let b ← f32 subn y
  let s ← vadd a (vneg b)
  rne32 subn s

def fmul (subn : Bool) (x y : Word) : FlagM Word := do
  let a ← f32 subn x
  let b ← f32 subn y
  let s ← vmul a b
  rne32 subn s

def fdiv (subn : Bool) (x y : Word) : FlagM Word := do
  let a ← f32 subn x
  let b ← f32 subn y
  let s ← vdiv a b
  rne32 subn s

/-- a × b + c with one rounding (R98). -/
def ffma (subn : Bool) (x y z : Word) : FlagM Word := do
  let a ← f32 subn x
  let b ← f32 subn y
  let c ← f32 subn z
  if isNan a || isNan b || isNan c then return 0x7FC00000#32
  else
    let p ← vmul a b
    let s ← vadd p c
    rne32 subn s

/-- The integer square root by bits: the greatest r with r * r ≤ n, below 2^k. -/
def isqrt (n : Nat) : Nat → Nat → Nat
  | 0, r => r
  | k + 1, r => let r' := r + 2 ^ k; if r' * r' ≤ n then isqrt n k r' else isqrt n k r

/-- The square root rounded to nearest even (R95). -/
def fsqrt (subn : Bool) (x : Word) : FlagM Word := do
  match ← f32 subn x with
  | .nan => return 0x7FC00000#32
  | .inf false => return 0x7F800000#32
  | .inf true =>
    raise Fl.invalid
    return 0x7FC00000#32
  | .fin n m _ e =>
    if m = 0 then return (if n then 0x80000000#32 else 0#32)
    else if n then
      raise Fl.invalid
      return 0x7FC00000#32
    else
      -- m × 2^e = k × 2^(2 h) with k of at least 60 bits; a sticky bit keeps the rounding exact
      let sh : Nat := if (e - 80) % 2 = 0 then 80 else 81
      let k := m * 2 ^ sh
      let h : Int := (e - sh) / 2
      let r := isqrt k 64 0
      rne32 subn (.fin false (2 * r + (if r * r = k then 0 else 1)) 1 (h - 1))

/-- The sign-and-magnitude order of two values that are not NaN: a < b. -/
def vlt (a b : Val) : Bool :=
  match a, b with
  | .nan, _ => false
  | _, .nan => false
  | .inf n, .inf n' => n && !n'
  | .inf n, _ => n
  | _, .inf n => !n
  | .fin n m d e, .fin n' m' d' e' =>
    let lo := min e e'
    decide (sgn n (m * d' * 2 ^ (e - lo).toNat) < sgn n' (m' * d * 2 ^ (e' - lo).toNat))

def veq (a b : Val) : Bool := !isNan a && !isNan b && !vlt a b && !vlt b a

def isNan32 (x : Word) : Bool := isNan (decodeElem 0 x.toNat)
def isInf32 (x : Word) : Bool := isInf (decodeElem 0 x.toNat)
def isFinite32 (x : Word) : Bool := !isNan32 x && !isInf32 x
def isNeg32 (x : Word) : Bool := x.toNat ≥ 2 ^ 31

/-- Maximum (R96). -/
def fmax (subn : Bool) (x y : Word) : FlagM Word := do
  let a ← f32 subn x
  let b ← f32 subn y
  if isNan a || isNan b then return 0x7FC00000#32
  else if vlt a b then rne32 subn b
  else if vlt b a then rne32 subn a
  else rne32 subn (if isNegVal a then b else a)

/-- Minimum (R96). -/
def fmin (subn : Bool) (x y : Word) : FlagM Word := do
  let a ← f32 subn x
  let b ← f32 subn y
  if isNan a || isNan b then return 0x7FC00000#32
  else if vlt a b then rne32 subn a
  else if vlt b a then rne32 subn b
  else rne32 subn (if isNegVal a then a else b)

/-- Negation of an fp32 value; a NaN stays the canonical NaN (R94, R98). -/
def fneg (subn : Bool) (x : Word) : FlagM Word := do
  let a ← f32 subn x
  rne32 subn (vneg a)

/-- Absolute value (R98). -/
def fabs (subn : Bool) (x : Word) : FlagM Word := do
  let a ← f32 subn x
  rne32 subn (if isNegVal a then vneg a else a)

/-- Comparisons by code 0 EQ, 1 NE, 2 LT, 3 LE, 4 GT, 5 GE (R97). -/
def fcmp (subn : Bool) (op : Nat) (x y : Word) : FlagM Bool := do
  let a ← f32 subn x
  let b ← f32 subn y
  if isNan a || isNan b then return false
  else return (match op with
    | 0 => veq a b
    | 1 => !veq a b
    | 2 => vlt a b
    | 3 => !vlt b a
    | 4 => vlt b a
    | _ => !vlt a b)

/-! ### Format descriptors (R83, R84) -/

/-- A format descriptor: word 0x00 in bits 31:0, word 0x04 in bits 63:32. -/
structure Fd where
  elem  : Nat
  block : Bool
  ts    : Bool
  sat   : Bool
  stoch : Bool
  scale : Word
  deriving DecidableEq, Repr

def fdFields (w0 w1 : Nat) : Fd :=
  { elem := bits w0 7 0, block := bit w0 17, ts := bit w0 18, sat := bit w0 19,
    stoch := bits w0 23 20 == 1, scale := BitVec.ofNat 32 w1 }

/-- A positive, finite and normal fp32 value. -/
def normalPos32 (x : Nat) : Bool := decide (1 ≤ bits x 30 23) && decide (bits x 30 23 ≤ 254) && !bit x 31

/-- The first of a descriptor's two words that makes it invalid (R83, R84). -/
def fdBadWord (w0 w1 : Nat) : Option Nat :=
  let e := bits w0 7 0
  if decide (6 < e) || ((bit w0 17 || bit w0 18) && !(decide (2 ≤ e) && decide (e ≤ 5)))
      || decide (1 < bits w0 23 20) || bits w0 31 24 != 0 || bits w0 16 8 != 0 then some 0
  else if (if bit w0 18 then !normalPos32 w1 else w1 != 0) then some 4
  else none

/-- The reserved bits of a descriptor's first word are not all 0 (R83). -/
def fdReserved (w0 : Nat) : Bool := bits w0 31 24 != 0 || bits w0 16 8 != 0

def fdOk (w0 w1 : Nat) : Bool := (fdBadWord w0 w1).isNone

/-- The descriptor of an fd register when it is valid. -/
def fdOf (v : BitVec 64) : Option Fd :=
  let w0 := v.toNat % 2 ^ 32
  let w1 := v.toNat / 2 ^ 32
  if fdOk w0 w1 then some (fdFields w0 w1) else none

/-- The tensor scale T of a descriptor (R83). -/
def fdT (f : Fd) : Word := if f.ts then f.scale else 0x3F800000#32

/-- A tensor scale that is a power of two. -/
def isPow2Scale (t : Word) : Bool := t.toNat % 2 ^ 23 == 0

/-! ### The quantiser (R89, R90) -/

/-- emax, lo, hi and the code of the largest quantised magnitude. -/
def quantShape (elem : Nat) : Nat × Nat × Nat :=
  match elem with
  | 2 => (8, 10, 246)
  | 3 => (15, 17, 239)
  | 4 => (2, 2, 252)
  | _ => (2, 1, 251)

/-- Largest quantised magnitude (R89). -/
def quantMax (elem : Nat) : Nat :=
  match elem with
  | 2 => 448 | 3 => 57344 | 4 => 6 | _ => 7

/-- Code of the largest quantised magnitude of a sign: INT4 never takes −8 (R90). -/
def quantMaxCode (elem : Nat) (neg : Bool) : Nat :=
  if elem = 5 then (if neg then 9 else 7) else maxCode elem neg

/-- The value divided by T: a power of two shifts it, another scale divides it (R89, R107). -/
def divT (t : Word) (v : Val) : Val :=
  match v, decodeElem 0 t.toNat with
  | .fin n m d e, .fin _ m' _ e' =>
    if isPow2Scale t then .fin n m d (e - e' - 23) else .fin n m (d * m') (e - e')
  | v, _ => v

/-- The block scale of a block of quotients (R89, R90). -/
def blockScale (elem : Nat) (qs : List Val) : Nat :=
  let (emax, lo, hi) := quantShape elem
  if qs.any isNan then 0xFF
  else if qs.any isInf then hi
  else
    let logs := qs.filterMap (fun v => match v with
      | .fin _ m d e => if m = 0 then none else some (floorLog2Ratio m d + e)
      | _ => none)
    match logs with
    | [] => 127
    | l :: ls =>
      let s : Int := ls.foldl max l - emax + 127
      if s < lo then lo else if s > hi then hi else s.toNat

/-- One element of a block quantised with scale code s (R89). -/
def quantElem (elem s : Nat) (rb : Option Nat) (v : Val) : FlagM Nat := do
  match v with
  | .nan => return 0
  | .inf n =>
    raise Fl.overflow
    raise Fl.saturated
    return quantMaxCode elem n
  | .fin neg mag den exp0 =>
    if mag = 0 then return zeroCode elem neg
    let exp := exp0 - ((s : Int) - 127)
    let t := gridExp elem mag den exp
    match roundGrid rb mag den exp t with
    | none => return zeroCode elem neg
    | some m =>
      if magGt m t (quantMax elem) 0 then
        raise Fl.saturated
        return quantMaxCode elem neg
      else if m = 0 then return zeroCode elem neg
      else if elem = 5 then return packInt elem neg m
      else return packFloat elem neg m t

/-- Quantises one block of quotients; rbs gives each element's generator output (R89, R90). -/
def quantBlock (elem : Nat) (qs : List Val) (rbs : List (Option Nat)) : FlagM (Nat × List Nat) := do
  let s := blockScale elem qs
  if s = 0xFF then
    raise Fl.invalid
    return (0xFF, qs.map (fun _ => 0))
  else
    let codes ← (qs.zip rbs).mapM (fun p => quantElem elem s p.2 p.1)
    return (s, codes)

/-- The value of an element under its block scale and tensor scale (R86): scales that are powers of two shift it (R107). -/
def scaledVal (v : Val) (s : Nat) (t : Word) : FlagM Val := do
  if s = 0xFF then
    raise Fl.scaleNan
    return .nan
  else if isPow2Scale t then return vscale ((s : Int) - 127 + ((bits t.toNat 30 23 : Int) - 127)) v
  else vmul (vscale ((s : Int) - 127) v) (decodeElem 0 t.toNat)

/-- The scale code lies in the quantiser's window (R89, R93). -/
def inWindow (elem s : Nat) : Bool :=
  let (_, lo, hi) := quantShape elem
  decide (lo ≤ s) && decide (s ≤ hi)

/-- A converted element differs from its exact value. -/
def inexact (to_ c : Nat) (x : Val) : Bool :=
  !(match x, decodeElem to_ c with
    | .nan, .nan => true
    | .inf n, .inf n' => n == n'
    | a, b => veq a b)

/-- Widens a key or value element into BF16 or fp32 (R92, R93). -/
def widen (subn : Bool) (to_ elem code s : Nat) : FlagM Nat := do
  let v ← readElem subn elem code
  let x ← scaledVal v s 0x3F800000#32
  let c ← encodeElem to_ (subn && !inWindow elem s) false none x
  raiseIf (!inWindow elem s && inexact to_ c x && s != 0xFF) Fl.widenInexact
  return c

/-- The E4M3 code of a 4-bit element (R80). -/
def expand4 (elem code : Nat) : Nat :=
  ((encodeElem 2 false false none (decodeElem elem code)).run 0#32).1

/-- Element i of a packed run of elements (R81). -/
def packedElem (elem : Nat) (bs : List Byte) (i : Nat) : Nat :=
  match elemBits elem with
  | 4 => let b := (nth 0#8 bs (i / 2)).toNat; if i % 2 = 0 then b % 16 else b / 16
  | 8 => (nth 0#8 bs i).toNat
  | 16 => field bs (2 * i) 2
  | _ => field bs (4 * i) 4

/-- Packs codes of an element format densely (R81). -/
def packCodes (elem : Nat) : List Nat → List Byte
  | [] => []
  | c :: cs =>
    match elemBits elem with
    | 8 => BitVec.ofNat 8 c :: packCodes elem cs
    | 16 => natLe 2 c ++ packCodes elem cs
    | 32 => natLe 4 c ++ packCodes elem cs
    | _ =>
      match cs with
      | [] => [BitVec.ofNat 8 (c % 16)]
      | d :: ds => BitVec.ofNat 8 (c % 16 + 16 * (d % 16)) :: packCodes elem ds

end Sys2Proof.Machine
end

