-- ==== Sys2Proof/Machine/State.lean ====
section
/-! DEFINITION. The state of the part as plain data, the state after reset, faults and refusals.
Every field's comment gives what it is; the chapter and rule that name it; and its reset value. -/

namespace Sys2Proof.Machine

/-- States of a queue pair (R41). -/
inductive QState where
  | disabled | active | held | draining
  deriving DecidableEq, Repr

/-- A status record (R52). `result` is bytes 0x0C to 0x1F, byte 0x0C in bits 7:0. -/
structure Rec where
  hostSeq : BitVec 32   -- host sequence number, echoed; 02 R52
  devSeq  : BitVec 32   -- device sequence number; 02 R52, R60
  status  : BitVec 16   -- status code; 02 R55
  detail  : BitVec 16   -- detail; 02 R52
  result  : BitVec 160  -- result parameters; 02 R52
  deriving DecidableEq, Repr

/-- A record that is ready: it has a number once it is produced (R650). -/
structure QRec where
  rcd   : Rec         -- the record; 02 R52
  irq   : Bool        -- raise the queue's MSI-X vector once it is visible; 02 R45
  final : Bool        -- it is the final record of a command that consumed its host sequence number; 02 R54, R59
  cid   : Option Nat  -- the command in flight that produces it; 02 R650
  deriving DecidableEq, Repr

/-- States of a result slot (R68). -/
inductive SlotState where
  | empty | pending | ready | failed
  deriving DecidableEq, Repr

/-- A result slot (R68, R69). -/
structure Slot where
  state   : SlotState := .empty  -- STATE_WORD 7:0; 02 R68; reset EMPTY (DESIGN CHOICE EMPTY, log 3)
  rpt     : Bool := false        -- STATE_WORD bit 8 REPEAT; 02 R68; reset 0 (log 3)
  trunc   : Bool := false        -- STATE_WORD bit 9 TRUNC; 02 R68; reset 0 (log 3)
  hostSeq : BitVec 32 := 0       -- CMD_HOST_SEQ; 02 R68; reset 0 (log 3)
  devSeq  : BitVec 32 := 0       -- CMD_DEV_SEQ; 02 R68; reset 0 (log 3)
  status  : BitVec 16 := 0       -- CMD_STATUS; 02 R68; reset 0 (log 3)
  payload : List Byte := []      -- the payload held; LENGTH is its length; 02 R68; reset empty (log 3)
  reads   : BitVec 32 := 0       -- READS; 02 R68; reset 0 (log 3)
  deriving DecidableEq, Repr

/-- A replay in progress (R76, R77): the records still to be written to the ring, and the command it serves. -/
structure Replay where
  left   : List Rec      -- retained records still to be written, in order; 02 R76
  cid    : Nat           -- the QUEUE.RESYNC in flight; 02 R78
  snap   : BitVec 160    -- the snapshot its record carries; 02 R75
  rebind : Bool          -- it is a REBIND; 02 R77
  deriving DecidableEq, Repr

/-- A queue pair (R27). -/
structure Queue where
  state       : QState := .disabled -- STATE, 2 bits; 02 R37, R41; reset DISABLED
  dbRange     : Bool := false       -- DB_RANGE; 02 R37, R39; reset 0
  sqBase      : BitVec 64 := 0      -- SQ_BASE, offset in the HDM-DB window; 02 R33, 17 R613; reset 0
  cqBase      : BitVec 64 := 0      -- CQ_BASE, host address; 02 R33, 17 R613; reset 0
  sqLog2      : Nat := 0            -- SQ_LOG2 6-16; 02 R33; reset 0 (DESIGN CHOICE, log 3)
  cqLog2      : Nat := 0            -- CQ_LOG2 6-16; 02 R33; reset 0 (DESIGN CHOICE, log 3)
  partition   : Option Nat := none  -- PARTITION; none for queue 0; 02 R32; reset none
  weight      : Nat := 1            -- WEIGHT 1-16; 02 R33, R35; reset 1 (queue 0: 17 R613)
  retainLog2  : Nat := 10           -- RETAIN_LOG2 10-16; 02 R33, R62; reset 10 (queue 0: 17 R613)
  msix        : BitVec 16 := 0      -- MSIX_VECTOR; 02 R33; reset 0
  maxInflight : Nat := 1            -- MAX_INFLIGHT 1-1024; 02 R33; reset 1 (DESIGN CHOICE, log 3)
  slotLog2    : Nat := 12           -- SLOT_LOG2 12-20; 02 R33; reset 12 (DESIGN CHOICE, log 3)
  slotCount   : Nat := 0            -- SLOT_COUNT 0-4096; 02 R33; reset 0
  sqHead      : Nat := 0            -- SQ_HEAD, 16 bits; 02 R37; reset 0
  sqTail      : Nat := 0            -- last accepted SQ_TAIL, 16 bits; 02 R39; reset 0
  subs        : List (Nat × Nat) := [] -- submitted entries not yet read, by doorbell write: (entries, arrival h-cycle); 02 R39, R63; reset empty
  cqHead      : Nat := 0            -- CQ_HEAD, 16 bits; 02 R37; reset 0
  cqTail      : Nat := 0            -- index of the next record the part writes; 02 R40; reset 0
  nextDevSeq  : BitVec 32 := 0      -- NEXT_DEV_SEQ; 02 R38; reset 0
  expHostSeq  : BitVec 32 := 0      -- EXP_HOST_SEQ; 02 R38, R57; reset 0
  log         : List Rec := []      -- retention log, oldest first; 02 R62; reset empty
  finals      : List (BitVec 32 × BitVec 32) := [] -- (host sequence, device sequence) of the consuming final records the log still holds; 02 R59; reset empty
  hold        : List QRec := []     -- hold buffer, oldest first; 02 R42; reset empty
  waiting     : List QRec := []     -- records that wait unnumbered for room, in the order they became ready; 02 R650; reset empty
  replay      : Option Replay := none -- the REPLAY or REBIND being written; 02 R76, R77; reset none
  slots       : SMap Slot := []     -- result slots by index; 02 R68; reset empty
  frames      : List Nat := []      -- frames of its log and slots; 02 R647; reset none
  charged     : Nat := 0            -- bytes charged to its partition for them; 02 R647; reset 0
  destroyCid  : Option Nat := none  -- the QUEUE.DESTROY that drains the queue; 02 R43, R645; reset none
  roundLeft   : Nat := 0            -- commands the arbiter may still take in this round; 02 R35; reset 0
  deriving DecidableEq, Repr

/-- The final record a command has prepared: R54, R52. -/
structure Done where
  status  : BitVec 16        -- 02 R55
  detail  : BitVec 16        -- 02 R52
  result  : BitVec 160       -- 02 R52
  slotOut : Option (List Byte) -- what the command writes to its result slot, when it wrote a result; 02 R69
  at_     : Nat              -- the h-cycle at which the effect was complete; 02 R64
  deriving DecidableEq, Repr

/-- Stages of a command in flight (R48 to R51, the stage table). -/
inductive CmdPhase where
  | admitted | running | done
  deriving DecidableEq, Repr

/-- A command in flight: consumed, admitted, without its final record. -/
structure Cmd where
  queue     : Nat           -- queue pair it was fetched from; 02 R44
  hdr       : List Byte     -- the 64 header bytes; 02 R44
  payload   : List Byte     -- the payload; 02 R44
  arrival   : Nat           -- h-cycle of the doorbell write that submitted its header entry; 02 R63
  phase     : CmdPhase      -- stage; 02 R48
  entry     : List Byte     -- its command table entry as it was when admitted; 02 R50
  tstate    : Nat           -- present state of the command table entry, 15 DONE; 02 R49
  guarantee : Option Nat    -- latest completion it was admitted with, in h-cycles; none: unbounded; 02 R65
  throttled : Bool          -- the part throttled for temperature while it ran; 02 R66
  bmeStall  : Bool          -- it waited while Bus Master Enable was clear; 02 R66, 17 R617
  bmeFrom   : Option Nat := none -- h-cycle since which it waits for Bus Master Enable; 17 R617
  bmeFor    : Nat := 0      -- h-cycles it waited for Bus Master Enable before; 02 R66, 17 R617
  progress  : Nat           -- work done so far, in the units of its opcode; 02 R54
  errAddr   : Nat := 0      -- the host address of the read that failed; 17 R618
  hostErr   : Bool := false -- a host read of it failed; 17 R618
  fin       : Option Done   -- its final record once its effect is complete; 02 R54
  flags     : BitVec 32 := 0 -- numeric flags of its pieces so far, in the layout of AFLAGS; 07 R283
  count     : Nat := 0      -- what its pieces have counted so far; 07 R290, R298
  frames    : List Nat := [] -- frames reserved for it at admission, in page order; 07 R267, 02 R647
  pool      : List Nat := [] -- pool pages reserved for it at admission; 07 R273
  charged   : Nat := 0      -- bytes charged for what it has reserved; 07 R648
  part      : Nat := 0      -- the partition charged; 07 R648
  snap      : Option Slot := none -- RESULT.READ: the slot as it reads it; 02 R72
  moved     : Nat := 0      -- h-cycles by which its deadline instant has moved; 11 R434
  info      : List Nat := [] -- what its family keeps of it between steps: the definition of the family says what; 02 R48
  deriving DecidableEq, Repr

/-- The tag of an accumulator tile (R135). -/
structure Tag where
  lo     : Nat := 0      -- LO, 20 bits; 04 R135; reset 0
  hi     : Nat := 0      -- HI, 21 bits; 04 R135; reset 0
  nchunk : Nat := 0      -- NCHUNK, 20 bits; 04 R135; reset 0
  valid  : Bool := false -- VALID; 04 R135; reset 0
  nf     : Bool := false -- NF; 04 R135; reset 0
  mode   : Nat := 0      -- MODE, 3 bits; 04 R135; reset 0
  group  : Nat := 0      -- GROUP, 2 bits; 04 R135; reset 0
  chlog  : Nat := 0      -- CHLOG, 4 bits; 04 R135; reset 0
  kpos   : Nat := 0      -- KPOS, 15 bits; 04 R135; reset 0
  klast  : Nat := 0      -- KLAST, 15 bits; 04 R135; reset 0
  deriving DecidableEq, Repr

/-- An accumulator tile (R133, R134): entry (i, j) at 64 i + j, its s in bits 31:0 and its c in bits 63:32. -/
structure Tile where
  ent : SMap (BitVec 64) := [] -- 2048 entries of s and c; 04 R134; reset 0 (DESIGN CHOICE, log 3)
  tag : Tag := {}              -- the tag; 04 R135; reset 0
  deriving DecidableEq, Repr

/-- States of a line (R219). -/
inductive LState where
  | idle | ready | running | done | faulted | cancelling | recall
  deriving DecidableEq, Repr

/-- States of a peg slot (R210). -/
inductive PegState where
  | empty | filling | full | taken | draining
  deriving DecidableEq, Repr

/-- A peg slot of a line. -/
structure Peg where
  state  : PegState := .empty -- 06 R210; reset EMPTY
  peg    : Nat := 0           -- the stream peg in it; 06 R209; reset 0
  landed : Nat := 0           -- destination bytes landed; 06 R221; reset 0
  issued : Nat := 0           -- element bytes asked for the peg, and all that was asked for before a resumption; 06 R229; reset 0
  scales : Nat := 0           -- scale bytes asked for the peg; 06 R206; reset 0
  deriving DecidableEq, Repr

/-- A line of an engine for one context (R204 to R229). -/
structure Line where
  state   : LState := .idle     -- STATE; 06 R219; reset IDLE
  desc    : List Byte := []     -- the 64-byte line descriptor; 06 R204; reset empty (DESIGN CHOICE, log 3)
  head    : Nat := 0            -- HEAD, next stream peg LWAIT returns; 06 R209; reset 0
  tail    : Nat := 0            -- TAIL, next stream peg to begin filling; 06 R209; reset 0
  rel     : Nat := 0            -- oldest TAKEN stream peg; 06 R215; reset 0
  pegs    : List Peg := []      -- the ring of slots; 06 R210; reset empty
  pos     : Nat := 0            -- source position of the first byte not yet asked for; 06 R221; reset 0
  credit  : Nat := 0            -- credit counter, bytes; 06 R213; reset 0
  out     : Nat := 0            -- transfers outstanding; 06 R214; reset 0
  fault   : Nat := 0            -- stored fault code; 06 R219, R222; reset 0
  faultPos : Nat := 0           -- source position of the failed transfer; 06 R222; reset 0
  faultPeg : Nat := 0           -- stream peg of the failed transfer; 06 R222; reset 0
  faultVa : Nat := 0            -- its virtual address; 06 R244; reset 0
  runs    : SMap Nat := []      -- INDEX mode: the list entries read, by run; 06 R207; reset empty
  olds    : List (Nat × Nat) := [] -- INDEX mode: entries as they stood before the program wrote them while the line runs: (run, value); 06 R207; reset empty
  scratch : SMap Byte := []     -- bytes that wait in the expander: element bytes by stream position, scale bytes at 2^60 + stream position / 16; 06 R206; reset empty
  deriving DecidableEq, Repr

/-- Who writes or reads a basket (R188, R189). -/
inductive BUnit where
  | press | finisher | line | transfer | sequencer
  | signalled (sem : Nat)      -- the transfer unit: data of an XFER from memory with SIG set (R232)
  | remote (sem : Option Nat)  -- data that landed from another engine, with the semaphore that announces it (R232)
  deriving DecidableEq, Repr

/-- Basket bytes that a unit has written and that no BFENCE, LWAIT or SWAIT has yet handed over (R189, R232). -/
structure Dirty where
  who : BUnit  -- the writing unit; 06 R189
  lo  : Nat    -- first byte, offset in the share; 06 R189
  hi  : Nat    -- one past the last byte; 06 R189
  deriving DecidableEq, Repr

/-- Where the sequencer of an engine stands in a launch. -/
inductive SeqState where
  | idle | running | halted | stopped
  deriving DecidableEq, Repr

/-- What one engine holds for one context. -/
structure EngCtx where
  seq    : SeqState := .idle      -- whether the engine runs, has halted or was stopped; 06 R194, R244; reset idle
  pc     : Nat := 0               -- PC; 06 R192; reset 0 (DESIGN CHOICE, log 3)
  s      : SMap (BitVec 32) := [] -- s0-s31; 06 R192; reset 0 (DESIGN CHOICE, log 3)
  loops  : List (Nat × Nat × Nat) := [] -- loop counters, innermost first: (start, end, iterations left); 06 R194, R195; reset empty
  calls  : List Nat := []         -- call stack, at most 8; 06 R194, R195; reset empty
  patch  : Option (Nat × BitVec 128) := none -- instruction index and its word as an XADD just executed patched it; 06 R198; reset none
  fd     : SMap (BitVec 64) := [] -- fd0-fd15, word 0x00 in bits 31:0; 06 R196; reset 0 (DESIGN CHOICE, log 3)
  aflags : BitVec 32 := 0         -- AFLAGS; 03 R104; reset 0
  sem    : SMap Nat := []         -- semaphores 0-15, 16 bits; 06 R231; reset 0 (DESIGN CHOICE, log 3)
  barAt  : Option Nat := none     -- the barrier number it waits at; 06 R233; reset none
  dirty  : List Dirty := []       -- writes not yet handed over; 06 R189; reset empty
  lines  : SMap Line := []        -- l0-l15; 06 R204; reset IDLE
  turn   : SMap Nat := []         -- line of each PRIO that issued its last transfer (round-robin); 06 R214; reset 0 (DESIGN CHOICE, log 3)
  tiles  : SMap Tile := []        -- accumulator tiles by context tile index; 04 R133; reset VALID 0
  pctl0  : BitVec 32 := 0x200#32  -- PCTL word 0; 04 R136; reset CHLOG 2, NCHUNK 0
  pctl1  : BitVec 32 := 0         -- PCTL word 1; 04 R136; reset 0
  pnf    : SMap (BitVec 32) := [] -- PNF0-PNF3; 04 R149; reset 0
  pstat  : Nat := 0               -- PSTAT COUNT, 31 bits; 04 R149; reset 0
  t      : SMap (BitVec 32) := [] -- t0-t63, element 256 i + k; 05 R151; reset 0 (DESIGN CHOICE, log 3)
  ch     : SMap (BitVec 32) := [] -- ch0-ch15, stage word 8 i + stage; 05 R159; reset 0 = empty chains (DESIGN CHOICE, log 3)
  fs     : SMap (BitVec 32) := [] -- FS0-FS15; 05 R155; reset 0
  fctl   : BitVec 32 := 0x020007FF#32 -- FCTL; 05 R155; reset STREAM 0, CHLOG 2, VL 0x7FF
  fidx   : BitVec 64 := 0         -- FIDXL and FIDXH; 05 R155; reset 0
  curves : SMap Mem := []         -- loaded curve table images by slot; 05 R164, R167; reset none loaded
  stallFrom : Option Nat := none  -- a-cycle at which it began to stall in an LWAIT; 06 R242; reset none
  stalled : Nat := 0              -- a-cycles stalled in LWAIT in this launch; 06 R242; reset 0
  startCyc : Nat := 0             -- its a-cycle counter when the launch began; 06 R242; reset 0
  endCyc  : Nat := 0              -- its a-cycle counter at HALT; 06 R242; reset 0
  deriving DecidableEq, Repr

/-- A program installed in a slot (R235). -/
structure Prog where
  hdr   : List Byte           -- the 64-byte header; 06 R235
  words : List (BitVec 128)   -- its instructions; 06 R235
  deriving DecidableEq, Repr

/-- A transfer that a line or the transfer unit has issued and that has not completed. -/
inductive XKind where
  | line (l : Nat) (scale : Bool) (slot pos : Nat) -- of line l, scale or element bytes, into a slot, at a source position (R205, R206)
  | toMem | toBasket                               -- XFER DIR 0 and 1 (R230)
  | toEngine (dst : Nat)                           -- XFER DIR 2, to an engine of the context (R230)
  | sig (dst : Nat)                                -- a SIG held in order behind transfers (R232)
  deriving DecidableEq, Repr

structure Xfer where
  kind   : XKind         -- 06 R205, R230
  ctx    : Nat           -- context
  idx    : Nat           -- the context's engine index
  va     : Nat           -- virtual address in memory; 06 R230
  off    : Nat           -- local basket offset; 06 R230
  roff   : Nat           -- remote basket offset; 06 R230
  len    : Nat           -- bytes
  sem    : Option Nat    -- semaphore to increment at completion; 06 R230
  drain  : Bool          -- its slot is DRAINING; 06 R227
  tags   : List Nat      -- the fabric requests that carry it and are not answered, when it goes to a peer; 10 R401
  pc     : Nat           -- PC of the instruction that issued it; 06 R244
  data   : List Byte     -- data it carries: read at issue (DIR 0, 2) or returned by a peer; 06 R230
  launch : Nat := 0      -- the launch whose instruction issued it; 06 R244
  dropped : Nat := 0     -- append entries of the write dropped so far; 08 R320
  deriving DecidableEq, Repr

/-- The first program fault of a launch (R244). -/
structure PFault where
  idx  : Nat  -- launch index of the engine; 06 R244
  line : Nat  -- line, or 0xFF; 06 R244
  peg  : Nat  -- stream peg modulo 256, or 0xFF; 06 R244
  pc   : Nat  -- PC of the faulting instruction; 06 R244
  va   : Nat  -- faulting virtual address or basket offset; 06 R244
  code : Nat  -- fault code; 06 R243
  deriving DecidableEq, Repr

/-- What a launch runs for. -/
inductive LaunchFor where
  | prog (cid : Nat)     -- PROG.LAUNCH (R239)
  | serve (step : Nat)   -- a batch step of the context (R355)
  | train (cid : Nat)    -- the learning step of a STEP.RUN (R467)
  deriving DecidableEq, Repr

inductive LaunchState where
  | waiting | running | preempted | ended
  deriving DecidableEq, Repr

/-- A launch (R239 to R245). -/
structure Launch where
  ctx      : Nat               -- context; 06 R239
  purpose  : LaunchFor         -- what it runs for; 06 R239
  slot     : Nat               -- program slot; 06 R239
  engFirst : Nat               -- first of the context's engines; 06 R239
  engCount : Nat               -- engines; 06 R239
  args     : List (BitVec 32)  -- eight words; 06 R239
  resume   : Bool              -- MODE RESUME; 06 R239
  cls      : Nat               -- scheduling class, 1 to 3; 13 R508
  due      : Option Nat        -- deadline instant, h-cycles; 13 R509
  arrived  : Nat               -- when it became a candidate; 13 R509
  state    : LaunchState       -- waiting, running, pre-empted or ended; 13 R511
  started  : Nat               -- h-cycle of its start; 06 R239
  watchdog : Nat               -- WATCHDOG, hub us, 0 none; 06 R239
  fault    : Option PFault     -- the first fault observed; 06 R244
  faultAt  : Nat := 0          -- hub µs in which it was observed; 06 R244
  wasted   : Nat               -- wasted prefetch source bytes; 06 R242
  sliceFrom : Nat              -- h-cycle at which its present slice began; 13 R511
  timeFrom : Nat := 0          -- h-cycle up to which its engine time has been charged; 13 R510
  pstat0   : Nat               -- PSTAT COUNT summed over its engines at its start; 04 R149, 12 R471
  nonfin   : Nat               -- the increase of that sum at its end; 12 R471
  most     : Nat               -- greatest a-cycle count of an engine at its end; 12 R470
  deriving DecidableEq, Repr

/-- Kinds of a leaf page table entry (R258). -/
inductive PKind where
  | localPage | slow | remote
  deriving DecidableEq, Repr

/-- A leaf of a context's page table (R258). The four-level table is reached by `Pte.word`. -/
structure Pte where
  kind    : PKind         -- KIND; 07 R258
  size2m  : Bool          -- SIZE; 07 R258
  r       : Bool          -- R; 07 R258
  w       : Bool          -- W; 07 R258
  mg      : Bool          -- MG; 07 R258
  rx      : Bool          -- RX; 07 R258
  transit : Bool          -- TRANSIT; 07 R258
  target  : Nat           -- TARGET: LOCAL frame number DPA 43:16 of the page's first frame; SLOW pool page; REMOTE device, pair, peer context; 07 R258
  frames  : List Nat      -- DPA 43:16 of each 64 KiB frame of a LOCAL page (a 2 MiB page: 32 contiguous ones); 07 R254
  slowPgs : List Nat      -- the 64 KiB pool pages of a SLOW page; 07 R268, R273
  tier0   : Bool          -- allocated with TIER 0; 07 R648
  cupTier : Bool          -- the tier a SLOW page was demoted from is the cupboard; 07 R278
  kvPool  : Option Nat    -- the KV pool whose region it belongs to; 08 R310
  deriving DecidableEq, Repr

/-- States of a frame (R251, R280). A frame not listed is FREE; `rinsingUsed` is taken by a command that waits for its
rinse (R267); `retiredUsed` is retired and still mapped; `retiredRinsing` is retired and taken by a command that waits for its rinse. -/
inductive FrameState where
  | used | rinsing | rinsingUsed | retired | retiredUsed | retiredRinsing
  deriving DecidableEq, Repr

/-- What kind of operation a mangle piece belongs to. -/
inductive PieceOp where
  | mangle | copy | fill | kvAppend | stage
  deriving DecidableEq, Repr

/-- A piece of a mangle command (R282). -/
structure Piece where
  cid   : Nat         -- the command in flight; 07 R282
  op    : PieceOp     -- what it does; 07 R282
  q     : Nat         -- piece number; 07 R282
  die   : Nat         -- memory-side die whose mangles run it; 07 R282
  mang  : Option Nat  -- the mangle that runs it; none while it waits; 07 R282
  deriving DecidableEq, Repr

/-- A page move in progress (R274). -/
structure Move where
  ctx    : Nat         -- context; 07 R274
  page   : Nat         -- VA bits 51:16 of the page's base; 07 R274
  dest   : Option (List Nat) -- destination frames; none: the slower tier; 07 R274
  slow   : List Nat    -- destination or source pool pages; 07 R273
  cid    : Option Nat  -- the command it serves; 07 R273
  failAt : Option Nat  -- the host address at which a read of it failed; 17 R618
  line   : List (Nat × Nat × Nat) -- lines in RECALL that wait for it: (context, engine index, line); 06 R222
  asked  : Bool        -- the host data of a recall has been asked for; 17 R616
  copied : Bool := false -- the copy of a KV page between the near tiers is made, and the switch waits for the end of the step; 08 R342
  deriving DecidableEq, Repr

/-- A page that waits for its move: its command has been admitted (R273) or a line has met it (R222). -/
structure MoveWait where
  ctx   : Nat          -- context; 07 R273
  page  : Nat          -- VA bits 51:16; 07 R273
  to_   : Nat          -- destination tier 0, 1, 2; 07 R272
  dest  : Option (List Nat) -- reserved destination frames; 07 R267
  slow  : List Nat     -- reserved pool pages; 07 R273
  cid   : Option Nat   -- command; 07 R273
  line  : List (Nat × Nat × Nat) -- lines in RECALL; 06 R222
  deriving DecidableEq, Repr

/-- A slower-tier pool range of a partition (R268). -/
structure PoolRange where
  base  : Nat        -- host physical address; 07 R265
  pages : Nat        -- 64 KiB pool pages; 07 R268
  rate  : Nat        -- RATE, GB/s; 07 R265
  used  : List Nat   -- pool pages in use, numbered across the partition's ranges; 07 R273
  deriving DecidableEq, Repr

/-- A channel arbiter of the memory (R303). -/
structure Arb where
  counters : List Int := [0,0,0,0,0,0,0,0] -- signed counter of each class; 07 R303; reset 0 (DESIGN CHOICE, log 3)
  current  : Option Nat := none -- class of the present granule; 07 R303; reset none
  snapshot : List Nat := []     -- classes with a request waiting at the start of the present granule; 07 R303; reset empty
  deriving DecidableEq, Repr

/-- Memory of the part other than registers. -/
structure MemSys where
  dram     : Mem := []            -- LPDDR6 and cupboard bytes by device physical address, 44 bits; 07 R254; reset 0 (rinsed, 16 R579)
  hdm      : Mem := []            -- the 64 GiB HDM-DB window by offset; 02 R30, 07 R256; reset 0 (rinsed)
  baskets  : Mem := []            -- the 96 baskets: engine e at 2^23 e; 06 R200; reset 0 (rinsed)
  frames   : SMap FrameState := [] -- frames not FREE, by DPA 43:16; 07 R251, R280; reset all FREE
  bad      : List Nat := []       -- uncorrectable bursts or words, by DPA; 07 R250, R263; reset none
  granRinse : List Nat := []      -- basket granules still to be rinsed, numbered 128 e + granule; 06 R203; reset empty
  arbs     : SMap Arb := []       -- arbiters: subchannels 0-383, then cupboard channels 384 + 16 d + channel; 07 R303; reset counters 0
  scrub    : SMap Nat := []       -- patrol scrub position of each subchannel; 07 R252; reset 0 (DESIGN CHOICE, log 3)
  refresh  : SMap Nat := []       -- refreshes taken by each bank of each subchannel, numbered 16 s + bank; 07 R246, R253; reset 0
  caches   : SMap (List (Nat × Nat × BitVec 64)) := [] -- cached translations, newest first, as (context, page, entry word): of engine e at e, mangle m at 96 + m, link die k at 128 + k; 07 R260; reset empty
  pieces   : List Piece := []     -- mangle pieces waiting or running; 07 R282; reset empty
  turn     : SMap Nat := []       -- which of a die's two mangles takes the next piece; 07 R282; reset 0
  lastCmd  : SMap Nat := []       -- the command whose piece each mangle started last, plus 1 (round-robin); 07 R282; reset 0
  moves    : List Move := []      -- page moves in progress; 07 R274; reset empty
  waits    : List MoveWait := []  -- pages that wait for their move; 07 R273; reset empty
  deriving DecidableEq, Repr

/-- States of a KV page (R330). -/
inductive KvPageState where
  | held | retiring | rinsing
  deriving DecidableEq, Repr

/-- A KV page (R330, R339). A page not listed is FREE. -/
structure KvPage where
  state : KvPageState := .held -- 08 R330
  count : Nat := 0             -- holders; 08 R330
  pins  : Nat := 0             -- batch steps in flight that read it; 08 R330
  fill  : Nat := 0             -- one past the highest position written; 08 R330
  heat  : Nat := 0             -- 16-bit heat; 08 R339
  tier  : Nat := 1             -- 0 cupboard, 1 LPDDR6, 2 slower tier; 08 R272, R340
  rinse : List Nat := []       -- RINSING: its planes l × H + h still to be rinsed; 08 R330
  streams : SMap (BitVec 64) := [] -- stream named by the append of each position, layer and head, by (offset in the page) x L x H + l x H + h; 08 R315
  deriving DecidableEq, Repr

/-- A KV sequence (R312, R313). -/
structure KvSeq where
  gen     : Nat := 0          -- generation, 15 bits; 08 R312
  live    : Bool := false     -- the slot is in use; 08 R312
  pool    : Nat := 0          -- pool; 08 R321
  version : BitVec 32 := 0    -- weight version; 08 R322
  publish : Bool := false     -- PUBLISH; 08 R322
  len     : List Nat := []    -- LEN[l]; 08 R313
  heads   : List Nat := []    -- mask of the heads of each layer already appended at LEN[l]; 08 R320
  commit  : Nat := 0          -- COMMIT; 08 R313
  pages   : List Nat := []    -- its pages in order; 08 R306
  treePos : Option Nat := none -- node of its last block in the tree; none: none or the root; 08 R338
  closed  : Nat := 0          -- value blocks already closed; 08 R314
  reserved : Nat := 0         -- pages reserved for it by the serving loop and not yet taken; 09 R362
  deriving DecidableEq, Repr

/-- A node of a pattern tree (R336). -/
structure KvNode where
  key     : BitVec 64        -- 08 R337
  parent  : Option Nat       -- 08 R336
  ids     : List (BitVec 32) -- 32 token ids; 08 R336
  version : BitVec 32        -- 08 R336
  page    : Nat              -- 08 R336
  block   : Nat              -- token block; 08 R336
  matched : Nat              -- step in which it was last matched; 08 R336
  deriving DecidableEq, Repr

/-- A KV pool of a context (R310). -/
structure KvPool where
  layout : List Byte         -- the 32-byte layout entry it was created with; 08 R304, R321
  va     : Nat               -- POOL_VA; 08 R321
  pages  : Nat               -- KV_PAGES; 08 R321
  seqs   : Nat               -- SEQS; 08 R321
  nodes  : Nat               -- TREE_NODES; 08 R321
  cup    : Nat               -- CUP_PAGES; 08 R321
  page   : SMap KvPage       -- pages not FREE; 08 R330
  seq    : SMap KvSeq          -- sequences by slot; 08 R312
  node   : SMap KvNode         -- nodes; 08 R336
  nextNode : Nat             -- number of the next node made; 08 R336
  step   : Nat               -- batch steps ended on the pool; 08 R336, R339
  halved : Nat := 0          -- step up to which the heat has been halved; 08 R339
  promoted : Nat := 0        -- step up to which pages have been promoted; 08 R339
  remap  : List (Nat × Nat)  -- cupboard mappings prepared and not switched: (page, tier); 08 R342
  toks   : SMap (BitVec 32)  -- token ids known of sequences: 2^20 slot + position; 08 R336
  deriving DecidableEq, Repr

/-- States of a request (R345). -/
inductive ReqState where
  | free | waiting | prefill | decode | preempted | done
  deriving DecidableEq, Repr

/-- A request record (R344) with what the loop keeps beside it. -/
structure Req where
  gen      : Nat := 0            -- generation, 15 bits; 09 R343
  ctx      : Nat := 0            -- context; 09 R343
  cid      : Option Nat := none  -- the REQ.SUBMIT in flight; 09 R364
  state    : ReqState := .free   -- STATE; 09 R345
  model    : Nat := 0            -- MODEL; 09 R344
  sflags   : BitVec 8 := 0       -- SFLAGS; 09 R350
  unreserved : Bool := false     -- FLAGS bit 0; 09 R344
  specPaused : Bool := false     -- FLAGS bit 1; 09 R344
  queue    : Nat := 0            -- QUEUE; 09 R344
  stop     : Nat := 0            -- STOP_REASON; 09 R354
  k        : Nat := 0            -- K; 09 R371
  hostSeq  : BitVec 32 := 0      -- HOST_SEQ; 09 R344
  seq      : BitVec 32 := 0xFFFFFFFF#32 -- SEQ; 09 R344
  draftSeq : BitVec 32 := 0xFFFFFFFF#32 -- KV sequence in the draft pool; 09 R370
  promptLen : Nat := 0           -- PROMPT_LEN; 09 R344
  maxNew   : Nat := 0            -- MAX_NEW; 09 R344
  outLen   : Nat := 0            -- OUT_LEN; 09 R344
  reservedTo : Nat := 0          -- RESERVED_TO; 09 R344
  horizon  : Nat := 0            -- HORIZON in force; 09 R350
  vFirst   : BitVec 32 := 0      -- VERSION_FIRST; 09 R344
  vLast    : BitVec 32 := 0      -- VERSION_LAST; 09 R344
  vPos     : Nat := 0            -- VERSION_POS; 09 R344
  version  : BitVec 32 := 0      -- version of its step group; 09 R379
  ttftGoal : Nat := 0            -- TTFT_GOAL; 09 R344
  tbtGoal  : Nat := 0            -- TBT_GOAL; 09 R344
  ttft     : Nat := 0            -- TTFT; 09 R344
  tbtMax   : Nat := 0            -- TBT_MAX; 09 R344
  invTemp  : BitVec 32 := 0      -- INV_TEMP; 09 R350
  topK     : Nat := 0            -- TOP_K; 09 R350
  stopMask : BitVec 8 := 0       -- STOP_MASK; 09 R350
  stream   : BitVec 64 := 0      -- STREAM_ID; 09 R344
  outVa    : Nat := 0            -- OUT_VA; 09 R344
  drafted  : Nat := 0            -- DRAFTED; 09 R344
  accepted : Nat := 0            -- ACCEPTED; 09 R344
  preempts : Nat := 0            -- PREEMPTS; 09 R344
  status   : BitVec 16 := 1      -- FINAL_STATUS; 09 R344
  reward   : BitVec 32 := 0x7FC00000#32 -- REWARD; 09 R344
  rollout  : Nat := 0xFFFFFFFF   -- ROLLOUT; 09 R344
  prompt   : List (BitVec 32) := [] -- prompt tokens not inherited; 09 R351
  outToks  : List (BitVec 32 × BitVec 32) := [] -- committed tokens and log-probabilities (also in the output area); 09 R358
  draftToks : List (BitVec 32) := [] -- draft tokens proposed for the next main step; 09 R370
  processed : Nat := 0           -- prompt positions processed; 09 R359
  arrival  : Nat := 0            -- h-cycle; 02 R63
  lastDeliv : Nat := 0           -- h-cycle of its last delivery; 09 R365
  late     : Nat := 0            -- greatest lateness, hub us; 09 R365
  lateHot  : Bool := false       -- a goal was missed while the request was throttled; 09 R365, 13 R533
  missed   : Bool := false       -- a goal was missed; 09 R365
  pausedSteps : Nat := 0         -- steps since SPEC_PAUSED was set; 09 R371
  cancel   : Bool := false       -- a cancellation waits for the commit; 09 R374
  joinBy   : Nat := 0            -- latest join instant, h-cycles; 09 R364
  preemptAt : Nat := 0           -- order of its pre-emption; 09 R375, R376
  doneAt   : Nat := 0            -- order in which it became DONE; 09 R346
  member   : Nat := 0            -- member that holds its KV sequence; 09 R380
  scores   : BitVec 32 := 0xFFFFFFFF#32 -- with SCORE, the request scored; 09 R382
  ended    : Bool := false       -- it has ended, and its final record is still to be placed; 09 R345
  endStatus : BitVec 16 := 1     -- status of that record; 09 R344
  deriving DecidableEq, Repr

/-- Stages of a batch step (R355). -/
inductive StepStage where
  | planned | running | committed
  deriving DecidableEq, Repr

/-- A row of a batch table (R356). -/
structure BRow where
  req    : BitVec 32  -- REQ; 09 R356
  seq    : BitVec 32  -- SEQ; 09 R356
  pos    : Nat        -- POS; 09 R356
  token  : BitVec 32  -- TOKEN; 09 R356
  kind   : Nat        -- KIND; 09 R356
  sample : Bool       -- RFLAGS bit 0; 09 R356
  tent   : Bool       -- RFLAGS bit 1; 09 R356
  topK   : Nat        -- TOP_K; 09 R356
  invTemp : BitVec 32 -- INV_TEMP; 09 R356
  stream : BitVec 64  -- STREAM_ID; 09 R356
  deriving DecidableEq, Repr

/-- The batch step in flight of a context (R355). -/
structure BStep where
  num     : Nat             -- step number; 09 R356
  model   : Nat             -- serving table entry; 09 R355
  draft   : Bool            -- a draft step of the entry's draft model; 09 R370
  version : BitVec 32       -- pinned version; 09 R355
  stage   : StepStage       -- 09 R355
  rows    : List BRow        -- 09 R356
  pins    : List Nat        -- KV pages it pins; 08 R330
  tableVa : Nat             -- batch table; 09 R356
  failed  : Bool            -- it failed on a member; 09 R380
  launch  : Option Nat      -- its launch; 09 R355
  remote  : Bool            -- launched on a received batch table; 09 R380
  waiting : List Nat        -- members whose end of the step is awaited; 09 R380
  got     : List Nat        -- offsets of the pieces received of a batch table; 09 R380
  leader  : Nat             -- device that sent it; 09 R380
  deriving DecidableEq, Repr

/-- The serving loop of a context. -/
structure Serve where
  step     : Option BStep := none  -- the batch step in flight; 09 R355; reset none
  nextStep : Nat := 0              -- number of the next step; 09 R356; reset 0 (DESIGN CHOICE, log 3)
  resident : List Nat := []        -- resident models, least recently stepped first; 09 R378; reset empty
  heldCmds : List Nat := []        -- KV commands that wait for the end of the step, in admission order; 08 R325; reset empty
  outTop   : List (Nat × Nat) := [] -- output areas in use: (address, bytes); 09 R344; reset empty
  rollouts : SMap Nat := []        -- rollout table entries in use: request slot + 1; 09 R381; reset empty
  draftDue : List (BitVec 32 × Nat) := [] -- requests with draft steps still to run before their main step; 09 R370; reset empty
  deriving DecidableEq, Repr

/-- States of a half-port (R414). -/
inductive PState where
  | off | down | detect | an | train | align | ident | up
  deriving DecidableEq, Repr

/-- A half-port (R385 to R417). -/
structure HalfPort where
  state   : PState := .off       -- STATE; 10 R414, R417; reset OFF
  degraded : Bool := false       -- DEGRADED; 10 R417; reset 0
  digestDiff : Bool := false     -- DIGEST_DIFF; 10 R417; reset 0
  peerMismatch : Bool := false   -- PEER_MISMATCH; 10 R417; reset 0
  peer    : Nat := 0             -- PEER, 13 bits; 10 R417; reset 0
  laneOk  : BitVec 8 := 0        -- LANE_OK; 10 R417; reset 0
  revPol  : BitVec 8 := 0        -- lanes whose polarity the receiver corrects; 10 R387; reset 0
  laneRev : Bool := false        -- lane order reversal corrected; 10 R387; reset 0
  txSeq   : Nat := 0             -- SEQ of the next DATA flit, modulo 1024; 10 R393; reset 0 (DESIGN CHOICE, log 3)
  txAcked : Nat := 1023          -- last SEQ acknowledged; 10 R393; reset 1023 (DESIGN CHOICE, log 3)
  rxNext  : Nat := 0             -- expected SEQ; 10 R395; reset 0 (DESIGN CHOICE, log 3)
  nakSent : Bool := false        -- a NAK has been sent for the present failure; 10 R395; reset 0
  retry   : List (Nat × List Byte) := [] -- retry buffer, at most 512: SEQ and body; 10 R394; reset empty
  inRetry : List (Nat × Packet) := [] -- packets whose last flit is not acknowledged: its SEQ and the packet; 10 R396; reset empty
  replays : Nat := 0             -- replays of the oldest SEQ without progress; 10 R396; reset 0
  retrain : Bool := false        -- retraining with the retry buffer kept; 10 R396; reset 0
  credits : List Nat := [0,0,0,0] -- transmit credits held on each VC; 10 R397, R398; reset 0 until the IDENT exchange (R415)
  owed    : List Nat := [0,0,0,0] -- credits to be returned on each VC; 10 R398; reset 0
  rxBuf   : List Byte := []      -- body bytes of a packet not yet whole; 10 R392; reset empty
  rxFill  : List Nat := [0,0,0,0] -- bytes in the receive buffer of each VC; 10 R397, R406; reset 0
  paused  : List Bool := [false,false,false,false] -- the partner has paused the priority of VC i; 10 R406; reset 0
  pausing : List Bool := [false,false,false,false] -- this half-port has sent a pause for VC i; 10 R406; reset 0
  queued  : List (Nat × Packet) := [] -- packets waiting for egress with their class; 10 R411; reset empty
  arb     : List Int := [0,0,0,0,0]   -- fabric arbiter counters; 10 R412; reset 0 (DESIGN CHOICE, log 3)
  current : Option Nat := none   -- class of the packet being sent; 10 R411; reset none
  snapshot : List Nat := []      -- classes with a packet waiting when the present one began; 10 R412; reset empty
  txBuf   : List Byte := []      -- bytes of started packets that no flit has taken yet; 10 R392; reset empty
  ackAt   : Nat := 0             -- h-cycle of the last ACK progress or replay; 10 R395; reset 0
  stateAt : Nat := 0             -- h-cycle at which STATE was entered; 10 R414; reset 0
  retrainAt : Nat := 0           -- h-cycle at which the retraining began; 10 R396; reset 0
  deriving DecidableEq, Repr

/-- A connection to a peer over the Ethernet half-ports (R404). -/
structure EthConn where
  txPsn  : Nat := 0              -- PSN of the next packet, 24 bits; 10 R404; reset 0 (DESIGN CHOICE, log 3)
  unacked : List (Nat × Packet × Nat × Nat) := [] -- packets not acknowledged: PSN, packet, resends, h-cycle of the last sending; 10 R404; reset empty
  rxCum  : Nat := 0xFFFFFF       -- cumulative point; 10 R404; reset 2^24 - 1 (DESIGN CHOICE, log 3)
  rxAhead : List Nat := []       -- PSNs received beyond it; 10 R404; reset empty
  ackDue : Bool := false         -- an acknowledgement is due; 10 R404; reset 0
  naked  : Option Nat := none    -- PSN of the last NAK sent; 10 R404; reset none
  deriving DecidableEq, Repr

/-- What an outstanding fabric request serves. -/
inductive ReqFor where
  | xfer (id off : Nat)                    -- a line or transfer-unit transfer, from an offset in it (R222, R234)
  | mirror (cid : Nat)                     -- a mirror write of WEIGHTS.STAGE (R481)
  | coll (coll : Nat) (shard : Nat)        -- a collective
  deriving DecidableEq, Repr

/-- An outstanding request (R401). -/
structure Outst where
  dst  : Nat     -- destination; 10 R401
  use  : ReqFor  -- what it serves; 10 R401
  port : Nat     -- the half-port it left on; 36: none; 10 R401
  dead : Bool    -- failed: the TAG is not used again until 2 x REQ_TIMEOUT; 10 R401
  at_  : Nat     -- h-cycle of its issue or failure; 10 R401
  deriving DecidableEq, Repr

/-- The fabric of the part. -/
structure Fabric where
  ports  : SMap HalfPort := []  -- half-ports 0-35; 10 R385; reset OFF
  conns  : SMap EthConn := []   -- connections by peer; 10 R404; reset none
  outst  : SMap Outst := []     -- outstanding requests by TAG; 10 R401; reset none
  nextTag : Nat := 0            -- next TAG tried; 10 R401; reset 0 (DESIGN CHOICE, log 3)
  rxq    : List (Nat × Packet) := [] -- packets received whole and not yet taken: half-port (36: this part) and packet; 10 R398, R408; reset empty
  deriving DecidableEq, Repr

/-- Phases of a collective (R429): it waits to send its START, then for the decision, then to begin its data phase. -/
inductive CollPhase where
  | waiting | start | go | data | complete -- complete: its effect is complete, and its final record is to be placed
  deriving DecidableEq, Repr

/-- One shard that this member receives or sends (R455, R456). -/
structure Shard where
  idx      : Nat               -- SHARD; 11 R427
  peer     : Nat               -- member asked, or to which it goes; 11 R436
  va       : Nat               -- where its bytes land here, or are read; 11 R427
  bytes    : Nat               -- its bytes; 11 R435
  other    : Nat := 0          -- where it lies or lands on the other end; 11 R450
  lo       : Nat := 0          -- reductions: LO; refold: its round; 11 R442, R450
  hi       : Nat := 0          -- reductions: HI; 11 R442
  alts     : List Nat := []    -- further holders, in order; 11 R456
  wset     : Nat := 0xFF       -- WSET; 11 R435
  copy     : Bool := false     -- refold: a LOCAL copy; 11 R452
  asked    : Bool := false     -- it has been asked for, or sent; 11 R435, R457
  landed   : List Nat := []    -- offsets of the packets landed in the present attempt; 11 R455
  crc      : Option (BitVec 32) := none -- CRC of its LAST packet; 11 R455
  attempts : Nat := 0          -- failed attempts at the present holder; 11 R456
  total    : Nat := 0          -- attempts in all; 11 R433
  stales   : Nat := 0          -- holders that answered STALE; 11 R436
  fails    : Nat := 0          -- holders that failed for another reason; 11 R436
  repl     : Bool := false     -- the member asked is a replica; 11 R456
  done     : Bool := false     -- verified, or acknowledged to its sender; 11 R455
  lost     : Bool := false     -- 11 R457
  stale    : Bool := false     -- every holder asked gave STALE; 11 R436
  busy     : Option Nat := none -- h-cycle of a BUSY answer; 11 R443
  at_      : Nat := 0          -- h-cycle of its last progress; 11 R456
  deriving DecidableEq, Repr

/-- A collective on this member (R422 to R458, R484). -/
structure Coll where
  group   : Nat            -- GROUP; 11 R422
  id      : BitVec 32      -- COLL_ID; 11 R422
  op      : Nat            -- OP, 0x10 refold, 0x20 commit; 11 R423, 12 R484
  cid     : Option Nat     -- its command in flight; none: the command was refused; 11 R429
  ctx     : Nat            -- context; 11 R419
  member  : Nat            -- this part's member index; 11 R419
  hdr     : List Byte      -- the command's header with its parameters; 11 R422
  desc    : List Byte      -- descriptor or map; 11 R435, R450
  digest  : List Byte      -- digest with which it was admitted; 11 R428
  hash    : List Byte      -- PARAM_HASH or MAP_ID, 8 bytes; 11 R429
  refusal : BitVec 32      -- this member's own refusal, status and detail; 0: none; 11 R429
  phase   : CollPhase := .waiting -- 11 R429
  startAt : Nat := 0       -- h-cycle of its own START; 11 R434
  sentAt  : Nat := 0       -- h-cycle at which it last sent its START; 11 R429
  starts  : SMap (List Byte) := [] -- STARTs collected, by member index: 48 bytes each (log 35); 11 R429
  passed  : Bool := false  -- a node leader has sent its summary; 11 R429
  send    : SMap Shard := [] -- shards this member sends; 11 R455
  recv    : SMap Shard := [] -- shards this member receives; 11 R455
  heard   : SMap Nat := [] -- h-cycle of the last packet of each member; 11 R456
  held    : List Packet := [] -- packets that wait for what they ask; 11 R426, R436
  bytes   : Nat := 0       -- data bytes received; 11 R433
  resends : Nat := 0       -- retransmissions; 11 R433
  darns   : Nat := 0       -- shards darned from replicas; 11 R433
  round   : Nat := 0       -- refold: present round; 11 R452
  ready   : List (Nat × Nat) := [] -- refold: READYs received (member, round); 11 R452
  counts  : SMap Nat := [] -- ALL_TO_ALL: rows offered by each source; 11 R447
  placed  : SMap Nat := [] -- ALL_TO_ALL: rows placed from each source; 11 R447
  took    : SMap Nat := [] -- ALL_TO_ALL: rows that each destination placed; 11 R447
  parked  : List (Nat × Nat × Nat × Nat) := [] -- parked partials: segment, LO, HI, place in the park area; 11 R443
  covered : List (Nat × Nat × Nat) := [] -- reductions: segment, LO and HI of the partials reduced; 11 R442
  forwarded : List Nat := [] -- segments whose slots a combiner has sent on; 11 R442
  gathering : Bool := false -- ALL_REDUCE: in its GATHER; 11 R446
  vote    : Option Nat := none -- commit: this member's vote; 12 R485
  asks    : Option (Nat × List Nat) := none -- commit: when it asked for a decision, and who has not answered; 12 R489
  pins    : List Nat := [] -- pages pinned (VA bits 51:16); 11 R425
  wpins   : List (Nat × BitVec 32) := [] -- COLL pins: weight set and version; 12 R465
  status  : BitVec 16 := 0 -- status of its final record; 11 R433, 12 R483
  met     : List (Nat × Nat) := [] -- weight slots that it writes: weight set and slot; 12 R483
  deriving DecidableEq, Repr

/-- Collectives of the part. -/
structure Colls where
  live    : SMap Coll := []      -- collectives by number; 11 R422; reset none
  next    : Nat := 0             -- number of the next one; 11 R422; reset 0
  checked : List Nat := []       -- groups for which CHECK has ended OK; 11 R424, R432; reset none
  okA2a   : List (Nat × BitVec 32 × List (Nat × Nat)) := [] -- forward all-to-alls ended OK: group, COLL_ID, (placed from i, placed at i); 11 R448; reset none
  early   : List Packet := []    -- STARTs held for COLL_IDs not yet admitted here; 11 R429; reset empty
  decided : List (Nat × BitVec 32 × List Byte) := [] -- decisions held: group, COLL_ID, the DECIDE's payload; 12 R489; reset empty
  deriving DecidableEq, Repr

/-- States of a slot of a weight set (R462). -/
inductive WState where
  | free | staging | ready | failed | doubt | committed | live | held
  deriving DecidableEq, Repr

/-- A working-weight slot (R462, R465). -/
structure WSlot where
  state   : WState := .free        -- 12 R462; reset FREE
  version : BitVec 32 := 0xFFFFFFFF#32 -- version; 12 R462; reset none
  reason  : Nat := 0               -- reason of FAILED; 12 R485; reset 0
  released : Bool := false         -- released with pins left; 12 R462; reset 0
  serve   : Nat := 0               -- SERVE pins; 12 R465; reset 0
  step    : Nat := 0               -- STEP pins; 12 R465; reset 0
  coll    : Nat := 0               -- COLL pins; 12 R465; reset 0
  layout  : BitVec 64 := 0         -- LAYOUT tag; 12 R483; reset 0
  deriving DecidableEq, Repr

/-- An iteration entry (R472): state, loss and tokens of a step that has LOSS set. -/
structure IterE where
  state  : Nat := 0            -- 0 NONE to 7 DISCARDED; 12 R472; reset 0
  cid    : Option Nat := none  -- the STEP.RUN that sets it; 12 R472
  queue  : Nat := 0            -- its queue; 12 R477
  hostSeq : BitVec 32 := 0     -- its host sequence number; 12 R477
  hasLoss : Bool := false      -- LOSS set; 12 R476
  loss   : BitVec 32 := 0      -- 12 R476
  tokens : BitVec 32 := 0      -- 12 R476
  deriving DecidableEq, Repr

/-- The registry of a weight set (R460 to R494). -/
structure WSet where
  slots     : List WSlot := []   -- slots 0-3; 12 R462; reset FREE
  mpar      : Nat := 0           -- MPAR; 12 R463; reset 0
  rejoin    : Bool := false      -- REJOIN; 12 R494; reset 0
  decided   : BitVec 32 := 0xFFFFFFFF#32 -- last decided version; 12 R488; reset none
  outcome   : Nat := 0           -- 0 none, 1 COMMIT, 2 ABORT; 12 R493; reset 0
  outDetail : Nat := 0           -- its DETAIL; 12 R493; reset 0
  committed : BitVec 32 := 0xFFFFFFFF#32 -- last committed version; 12 R488; reset none
  scale     : BitVec 32 := 0     -- loss scale, fp32; 12 R475; reset SCALE0 when the entry is loaded
  good      : Nat := 0           -- GOOD; 12 R475; reset 0
  commits   : Nat := 0           -- COMMITS; 12 R475; reset 0
  mean      : BitVec 32 := 0     -- MEAN, fp32; 12 R476; reset +0
  dev       : BitVec 32 := 0     -- DEV, fp32; 12 R476; reset +0
  iter      : SMap IterE := []    -- iteration record, 4096 entries; 12 R472; reset NONE
  pending   : List (BitVec 32 × Bool × Option Nat) := [] -- switches that wait for a boundary, in order: version, HOLD_OLD, command; 12 R464, R491; reset none
  deriving DecidableEq, Repr

/-- A learning step (R467). -/
structure TStep where
  cid     : Nat             -- its STEP.RUN; 12 R467
  ctx     : Nat             -- 12 R467
  wset    : Nat             -- WSET; 12 R467
  slot    : Nat             -- weight slot pinned; 12 R465
  version : BitVec 32       -- pinned version; 12 R469
  launch  : Option Nat      -- its launch; none while WAITING; 12 R474
  complete: Bool := false   -- its effect is complete, and its final record is to be placed; 12 R465
  status  : BitVec 16 := 0  -- status of that record; 12 R473
  notes   : List (Nat × Nat × BitVec 32) := [] -- notify entries to send if it ends OK: device, context, token; 12 R473
  deriving DecidableEq, Repr

/-- A PEERS or ADOPT query in progress (R493). -/
structure PeersQ where
  cid     : Nat                       -- 12 R493
  answers : SMap (List Byte)          -- registry records by device; 12 R493
  waiting : List Nat                  -- peers not yet answered; 12 R493
  at_     : Nat                       -- h-cycle at which the peers were asked; 12 R493
  deriving DecidableEq, Repr

/-- Weights and learning steps. -/
structure Weights where
  sets    : SMap WSet := []     -- registries by WSET; 12 R459; reset none loaded
  steps   : SMap TStep := []    -- steps WAITING or RUNNING by command; 12 R467; reset none
  tokens  : SMap Nat := []      -- token counts: 2^32 context + token; 12 R473; reset 0
  queries : List PeersQ := []   -- 12 R493; reset none
  deriving DecidableEq, Repr

/-- States of a context (R499). -/
inductive CtxState where
  | resident | demoting | demoted | recalling
  deriving DecidableEq, Repr

/-- A context (R499 to R502). -/
structure Ctx where
  state   : CtxState       -- 13 R499
  part    : Nat            -- PARTITION; 13 R500
  subn    : Bool           -- SUBN; 03 R100, 13 R500
  engFirst : Nat           -- ENG_FIRST; 13 R500
  engCount : Nat           -- ENG_COUNT; 13 R500
  basket  : Nat            -- BASKET granules; 13 R500
  tiles   : Nat            -- TILES; 13 R500
  ttiles  : Nat            -- TTILES; 13 R500
  weight  : Nat            -- WEIGHT; 13 R500
  istore  : Nat            -- ISTORE; 13 R500
  seed    : BitVec 64      -- SEED, the generator key; 14 R539
  base    : List Nat       -- first granule of its share on each of its engines; 13 R501
  saveFrames : List Nat    -- frames of its save areas; 13 R501
  progs   : SMap Prog      -- program slots 0-63; 06 R236
  ptes    : SMap Pte       -- page table leaves by VA bits 51:16; 07 R258
  pools   : SMap KvPool    -- KV pools 0-3; 08 R310
  serve   : Serve          -- its serving loop; 09 R355
  pins    : List (Nat × Nat) -- pinned pages (VA bits 51:16) with their pin counts; 07 R269
  stopped : Bool           -- stopped at a resumable fault, or holding a restored pre-empted launch; 06 R240, 13 R507
  stopLaunch : Option Nat  -- that launch; 06 R241
  imgLaunch : List Byte := [] -- LAUNCH field of the image of a restored pre-empted launch; 13 R504, R507; reset none
  destroying : Bool        -- a CTX.DESTROY has been admitted; 13 R503
  destroyCid : Option Nat  -- 13 R503
  moveCid : Option Nat     -- a CTX.SAVE that waits for a switch-out; 13 R506
  image   : Option (List Nat) -- pool pages that hold the image of a demoted context; 13 R516
  cupBack : List Nat       -- cupboard pages that went to the pool with it; 13 R516
  blockedAt : Nat          -- blocking instant; 13 R514
  wantAt  : Option Nat     -- when a demoted context's candidate first appeared; 13 R518
  engTime : List Nat       -- engine time of the present and the 15 previous windows, newest first; 13 R510
  eest    : SMap (List Nat) -- energies of the last 8 launches by program slot, nJ; 13 R530
  everResident : Bool      -- it has been resident; 13 R517
  rinseWait : List Nat     -- frames (2 f) and basket granules (2 g + 1) whose rinse ends its demotion or destruction; 13 R503, R516
  deriving DecidableEq, Repr

/-- A partition in force (R496). -/
structure Partn where
  dies   : Nat   -- DIE_MASK; 13 R496; default 0xFF for partition 0 (R497)
  resMax : Nat   -- RESIDENT_MAX; 13 R496; default 16
  slice  : Nat   -- SLICE_MAX; 13 R496; default 1000
  block  : Nat   -- BLOCK_MIN; 13 R496; default 10000
  quota  : Nat   -- MEM_QUOTA; 13 R496; default the allocatable capacity
  charge : Nat   -- LPDDR6 bytes charged; 07 R648; reset 0
  pool   : List PoolRange -- slower-tier pool ranges, in registration order; 07 R268; reset empty
  deriving DecidableEq, Repr

/-- The step scheduler and the budget governor. -/
structure Gov where
  windowAt  : Nat := 0          -- h-cycle at which the window began; 13 R526; reset 0
  windows   : Nat := 0          -- budget windows since reset; 13 R526, 15 R552; reset 0
  thermal   : SMap Nat := []    -- thermal rate k of each RDIE, 0 standing for 16 - k = 0 suppressed; 13 R532; reset 16/16
  rate      : SMap Nat := []    -- 16 - k of each RDIE in force; 13 R525; reset 16/16
  hotSeen   : List Nat := []    -- RDIEs with a reading of THROTTLE_C or more in the window; 13 R532; reset none
  warmSeen  : List Nat := []    -- RDIEs with a reading above THROTTLE_C - HYST in the window; 13 R532; reset none
  temps     : SMap Nat := []    -- last reading of each SDIE, in 0.25 C; 13 R531; reset 0 (DESIGN CHOICE, log 3)
  tempMax   : SMap Nat := []    -- greatest reading of each SDIE in the window; 13 R533; reset 0
  spent     : Nat := 0          -- energy drawn in the window, pJ; 13 R530; reset 0
  acyc16    : SMap Nat := []    -- sixteenths of a-cycles of each RDIE; 13 R525; reset 0
  gated     : List Nat := []    -- engines GATED; 13 R524; reset none
  off       : List Nat := []    -- engines OFF; 13 R524; reset none
  shareFree : SMap Nat := []    -- h-cycle since which no resident has had a share on an engine; 13 R524; reset 0
  mangGated : List Nat := []    -- mangles GATED; 13 R524; reset none
  banksOff  : List Nat := []    -- cupboard banks OFF, numbered 16 d + bank; 13 R524; reset none
  tripped   : Bool := false     -- thermal trip; 13 R534
  deriving DecidableEq, Repr

/-- A tally record (R555). A record not listed is as R551 rebuilds it. -/
structure TRec where
  seq   : BitVec 32 := 0            -- SEQ and MARK; 15 R555; reset 0
  rflags : Nat := 0                 -- RFLAGS, 16 bits; 15 R555; reset 0
  count : Nat := 0                  -- COUNT, 64 bits; 15 R555; reset 0
  sum   : Nat := 0                  -- SUM, 64 bits; 15 R555; reset 0
  min   : BitVec 32 := 0xFFFFFFFF#32 -- MIN, KIND 1 and 2; 15 R556; reset 0xFFFF_FFFF
  minTag : BitVec 32 := 0           -- MIN_TAG; 15 R555; reset 0
  max   : BitVec 32 := 0            -- MAX; 15 R556; reset 0
  maxTag : BitVec 32 := 0           -- MAX_TAG; 15 R555; reset 0
  bins  : SMap Nat := []            -- 32 bins of 64 bits, KIND 2; 15 R555; reset 0
  deriving DecidableEq, Repr

/-- An update sent to the tally unit (R561). -/
inductive TUpd where
  | count (qid inst n amount src at_ : Nat) -- COUNT update of a source at a hub µs: n updates, an amount in SUM
  | value (qid inst v : Nat) (tag : BitVec 32) -- EXTREME or HIST update
  | clearCtx (ctx : Nat)              -- CTX.CREATE clears the context's records (R557)
  | edges (qid : Nat)                 -- an edge change clears the bins (R560)
  deriving DecidableEq, Repr

/-- The tally store (R551). -/
structure Tally where
  recs    : SMap TRec := []       -- records: 256 QID + instance; 15 R551; reset as R551
  storeSeq : BitVec 32 := 0       -- STORE_SEQ; 15 R552; reset 0
  lost    : Nat := 0              -- LOST, 64 bits; 15 R552; reset 0
  applied : Nat := 0              -- APPLIED, 64 bits; 15 R552; reset 0
  frozen  : Bool := false         -- STATE bit 0; 15 R552; reset 0
  input   : List TUpd := []       -- input queue, 4096 entries; 15 R562; reset empty
  taken   : Nat := 0              -- updates taken from the input queue since reset (the model's own count); 15 R563; reset 0
  held    : List TUpd := []       -- hold queue, 65536 entries; 15 R564; reset empty
  edgeHeld : List Nat := []       -- QIDs whose bins the thaw clears first; 15 R570; reset empty
  heldDrops : SMap Nat := []      -- updates dropped during the freeze, by record: 256 QID + instance; 15 R562, R564; reset empty
  window  : Nat := 0              -- WINDOW, 64 bits: held while FROZEN; 15 R552, R564; reset 0
  freezeEnd : Nat := 0            -- h-cycle at which MAX_HOLD passes; 15 R563; reset 0
  byHold  : Bool := false         -- the last freeze ended by MAX_HOLD; 15 R565; reset 0
  edges   : SMap (List Nat) := [] -- edges loaded for a HIST quantity; 15 R560; reset the catalogue's defaults
  deriving DecidableEq, Repr

/-- The fuse array (R572). It is kept with power removed (01 R26). -/
structure Fuses where
  serial   : BitVec 64 := 0      -- SERIAL; 16 R572; at manufacture (DESIGN CHOICE 0, log 3)
  partCode : Nat := 1            -- PART_CODE, 8 bits: 1 CM-RVK96-3T, 2 CM-RVK96-1T5; 16 R572; at manufacture (DESIGN CHOICE 1, log 3)
  lifecycle : Nat := 5           -- LIFECYCLE, 4 bits; 16 R572; at manufacture (DESIGN CHOICE 0x5 PRODUCTION, log 3)
  keyHash  : List (List Byte) := [] -- FW_KEY_HASH[0..3]; 16 R572; at manufacture (DESIGN CHOICE empty, log 3)
  keyRevoke : BitVec 4 := 0      -- KEY_REVOKE; 16 R572; at manufacture (DESIGN CHOICE 0, log 3)
  antiRollback : BitVec 64 := 0  -- ANTI_ROLLBACK; 16 R572; at manufacture (DESIGN CHOICE 0, log 3)
  idPriv   : BitVec 256 := 0     -- ID_PRIV, readable only by the signature engine; 16 R572; at manufacture (DESIGN CHOICE 0, log 3)
  idPubHash : List Byte := []    -- ID_PUB_HASH; 16 R572; at manufacture (DESIGN CHOICE empty, log 3)
  deriving DecidableEq, Repr

/-- What the part keeps with power removed (01 R26). -/
structure NonVol where
  fuses : Fuses := {}         -- the fuse array; 16 R572
  flash : SMap Byte := []     -- the serial flash: bytes programmed since their erase, any other byte is erased; 16 R573; at manufacture erased (DESIGN CHOICE, log 16)
  torn  : List (Nat × Nat) := [] -- ranges (address, bytes) whose program or erase a reset or a loss of power broke off; 16 R603; at manufacture none (DESIGN CHOICE, log 16)
  deriving DecidableEq, Repr

/-- Kinds of start (R585). -/
inductive ResetKind where
  | cold | system | function
  deriving DecidableEq, Repr

/-- The boot (R579 to R588). -/
structure Boot where
  kind     : Option ResetKind := none -- the start in progress; 16 R585; reset none
  phase    : Nat := 0        -- PHASE; 16 R579; reset 0
  ready    : Bool := false   -- READY; 16 R583; reset 0
  failed   : Bool := false   -- FAILED; 16 R583; reset 0
  slot     : Nat := 0        -- SLOT; 16 R583; reset 0
  partCode : Nat := 1        -- PART_CODE as read from the fuses at the start; 16 R572; reset 1 (DESIGN CHOICE, log 3)
  fallback : Bool := false   -- FALLBACK; 16 R583; reset 0
  certMis  : Bool := false   -- CERT_MISMATCH; 16 R583; reset 0
  failCode : Nat := 0        -- FAIL_CODE; 16 R583; reset 0
  failUnit : Nat := 0        -- FAIL_UNIT; 16 R583; reset 0
  cfgSkip  : Bool := false   -- CFG_SKIPPED; 16 R583; reset 0
  detail   : Nat := 0        -- BOOT_DETAIL INDEX; 16 R583; reset 0
  latched  : BitVec 32 := 0  -- BOOT_STATUS as latched at READY; 16 R597; reset 0
  tried    : List (Nat × BitVec 16) := [] -- slots verified in this boot with their status; 16 R577, R597; reset none
  svn      : Nat := 0        -- SVN of the booted image; 16 R575; reset 0
  build    : BitVec 64 := 0  -- its BUILD; 16 R575; reset 0
  keyIndex : Nat := 0        -- its KEY_INDEX; 16 R575; reset 0
  iflags   : Nat := 0        -- its FLAGS; 16 R575; reset 0
  fwMeas   : List Byte := [] -- FW_MEAS; 16 R575; reset empty
  idPub    : List Byte := [] -- the identity public key read from the device certificate; 16 R595, R597; reset empty
  selfTest : Bool := false   -- phase 2 has passed; 16 R579; reset 0
  rinseHdm : Bool := false   -- the reset in progress rinses the HDM-DB backing; 17 R621; reset 0
  memClr   : Bool := false   -- a CXL Reset waits to report CXL Reset Complete at READY; 17 R621; reset 0
  joined   : Bool := false   -- the FUNCTION reset that entry into D3hot began waits for the return to D0; 17 R622, R653; reset 0
  rinsed   : Bool := false   -- its rinse has ended; 17 R622; reset 0
  deriving DecidableEq, Repr

/-- The SPDM responder (R598). -/
structure Spdm where
  stage    : Nat := 0          -- 0 nothing, 1 version, 2 capabilities, 3 algorithms negotiated; 16 R598; reset 0
  session  : Option Nat := none -- the session being set up or established; 16 R598; reset none
  established : Bool := false  -- FINISH has been answered; 16 R598; reset 0
  nextSession : Nat := 0       -- number of the next session; 16 R598; reset 0 (DESIGN CHOICE, log 3)
  keyGen   : Nat := 0          -- key updates of the session; 16 R598; reset 0
  peerKey  : List Byte := []   -- the requester's DHE public key; 16 R598; reset empty
  transcript : List Byte := [] -- messages exchanged, hashed into signatures; 16 R598; reset empty
  ideMem   : Bool := false     -- a CXL.cachemem IDE key has been programmed; 17 R620; reset 0
  ideIo    : Bool := false     -- a CXL.io IDE key has been programmed; 17 R620; reset 0
  deriving DecidableEq, Repr

/-- What a device-initiated read of host memory serves (R616). -/
inductive ReadFor where
  | cmd (cid : Nat)               -- a command: configuration table, prompt or context image
  | move (ctx page : Nat)         -- a recall of a slower-tier page (R274)
  | image (ctx k : Nat)           -- pool page k of the image of a demoted context (13 R506, R516)
  deriving DecidableEq, Repr

/-- A range of host memory still to be read, and the reads of it in flight (R616). -/
structure HostWant where
  use   : ReadFor      -- what it serves; 17 R616
  addr  : Nat          -- host address of byte 0; 17 R616
  next  : Nat          -- bytes already asked for, a multiple of 64 past the aligned start; 17 R616
  len   : Nat          -- bytes; 17 R616
  got   : SMap Byte    -- bytes returned, by offset; 17 R616
  left  : Nat          -- lines not yet returned; 17 R616
  deriving DecidableEq, Repr

/-- Operations of the flash controller (R615). -/
inductive FlashOp where
  | read | program | erase
  deriving DecidableEq, Repr

/-- The host attachment. -/
structure HostIf where
  linkUp   : Bool := false       -- the link has trained; 17 R605; reset 0
  width    : Nat := 0            -- lanes; 17 R605; reset 0
  gts      : Nat := 0            -- GT/s; 17 R605; reset 0
  ide      : Bool := false       -- IDE; 17 R620; reset off
  bme      : Bool := false       -- Bus Master Enable; 17 R652; reset 0
  d3hot    : Bool := false       -- the function is in D3hot; 17 R622; reset D0
  cxlRstC  : Bool := false       -- CXL Reset Complete; 17 R621; reset 0
  decoder  : Bool := false       -- the HDM decoder is committed; 17 R609; reset 0
  deviceId : BitVec 32 := 0      -- DEVICE_ID; 17 R612; reset 0
  q0Sq     : BitVec 64 := 0      -- Q0_SQ_BASE; 17 R611; reset 0 (DESIGN CHOICE, log 3)
  q0Cq     : BitVec 64 := 0      -- Q0_CQ_BASE; 17 R611; reset 0 (DESIGN CHOICE, log 3)
  q0Cfg    : BitVec 32 := 0      -- Q0_CFG; 17 R613; reset 0
  win      : SMap (BitVec 64 × BitVec 64) := [] -- HOST_WIN (BASE, LIMIT), window 4 p + w; 17 R614; reset window 0 open, others disabled
  msixTab  : SMap (BitVec 128) := [] -- MSI-X table; 17 R611; reset every vector masked (PRESUMED 1 << 96, the PCIe family's, log 3)
  snooping : List Nat := []      -- window lines whose BISnpData is not answered, by offset / 64; 17 R610; reset none
  snooped  : List Nat := []      -- window lines answered and not yet read; 17 R610; reset none
  pba      : List Nat := []      -- MSI-X pending bits that are set; 17 R611; reset 0
  reads    : List HostWant := [] -- device-initiated reads; 17 R616; reset none
  inFlight : List (Nat × ReadFor) := [] -- lines in flight: host address and use, at most 4096; 17 R616; reset none
  deriving DecidableEq, Repr

/-- The flash controller (R615), which no FUNCTION reset reinitialises (R623). -/
structure FlashIf where
  addr    : BitVec 32 := 0       -- FLASH_ADDR; 17 R611; reset 0 (DESIGN CHOICE, log 3)
  busy    : Option (FlashOp × Nat) := none -- BUSY: the operation and its address; 17 R615; reset none
  refused : Bool := false        -- REFUSED; 17 R615; reset 0
  error   : Bool := false        -- ERROR; 17 R615; reset 0
  buf     : SMap Byte := []      -- the 4 KiB flash buffer; 17 R611; reset 0 (DESIGN CHOICE, log 3)
  deriving DecidableEq, Repr

/-- A message that leaves the part. -/
inductive OutMsg where
  | memWrite (addr : Nat) (data : List Byte) (relaxed : Bool) -- a device-initiated write of host memory (17 R616)
  | msix (vector : Nat)                                  -- an MSI-X message (02 R45)
  | readReq (addr : Nat)                                 -- a CXL.cache RdCurr (17 R616)
  | biSnp (off : Nat)                                    -- a BISnpData for a line of the window (17 R610)
  | snoopResp                                            -- RspIHitI (17 R616)
  | memData (data : List Byte) (poison : Bool)           -- the answer of a CXL.mem read (17 R609)
  | spdm (code : Nat) (data : List Byte)                 -- an SPDM response (16 R598)
  | doe (data : List Byte)                               -- an answer of another DOE protocol (17 R604)
  | cdat (data : List Byte)                              -- a CDAT table (17 R608)
  | gpfAck                                               -- Global Persistent Flush acknowledged (17 R604)
  | smbNack                                              -- a management write answered with NACK (18 R635)
  | flit (port : Nat) (bytes : List Byte)                -- a direct-mode flit of 1,024 bytes (10 R392)
  | frame (port : Nat) (bytes : List Byte)               -- an Ethernet frame, without its FCS (10 R402)
  | pfc (port : Nat) (prio : Nat) (pause : Bool)         -- a priority pause or its release (10 R406)
  | train (port : Nat)                                   -- the half-port begins link training from its preset (10 R413)
  deriving DecidableEq, Repr

/-- The module power controller and the connectors (18). -/
structure Pwr where
  vin      : Nat := 0           -- input voltage, mV; 18 R628; reset 0 (not powered)
  ctrlOn   : Bool := false      -- the controller runs; 18 R629; reset off
  straps   : Nat := 0           -- ADDR as sampled, 3 bits; 18 R632, R635; reset 0
  refOk    : Bool := false      -- the reference clock is valid; 18 R631; reset 0
  resetN   : Bool := true       -- RESET_N is high; 18 R632, R634; reset high (pulled up)
  perstN   : Bool := true       -- PERST_N is high; 18 R632, R634; reset high
  rails    : Bool := false      -- the package rails are on; 16 R579; reset off
  coldWait : Bool := false      -- a start waits for a valid reference; 16 R587, 18 R644; reset 0
  pwrGood  : Bool := false      -- PWR_GOOD; 18 R632; reset low
  readyPin : Bool := false      -- READY; 18 R632; reset low
  throttle : Bool := false      -- THROTTLE; 18 R632; reset low
  trip     : Bool := false      -- TRIP; 18 R632; reset low
  tripClk  : Bool := false      -- TRIP is high because of a clock fault; 18 R636; reset 0
  cause    : BitVec 32 := 0     -- BOOT_CAUSE; 16 R584; reset 0
  vinOut   : Bool := false      -- the input left 40 V to 60 V in the last second of operation; 18 R636; reset 0
  tjMax    : BitVec 16 := 0x8000#16 -- greatest junction reading of the last second, or the last one before the rails went off; 18 R636; reset 0x8000
  tjHist   : List (Nat × BitVec 16) := [] -- junction readings of the last second, newest first, with their h-cycles; 18 R636; reset empty
  rStatus  : BitVec 16 := 0     -- STATUS register; 18 R636; reset 0
  rVin     : BitVec 16 := 0     -- VIN register; 18 R636; reset 0 (DESIGN CHOICE, log 3)
  rIin     : BitVec 16 := 0     -- IIN register; 18 R636; reset 0 (DESIGN CHOICE, log 3)
  rPin     : BitVec 16 := 0     -- PIN register; 18 R636; reset 0 (DESIGN CHOICE, log 3)
  rPlate   : BitVec 16 := 0     -- PLATE_TEMP register; 18 R636; reset 0 (DESIGN CHOICE, log 3)
  rTj      : BitVec 16 := 0x8000#16 -- TJ_MAX register; 18 R636; reset 0x8000
  rCause   : BitVec 16 := 0     -- BOOT_CAUSE_LO register; 18 R636; reset 0
  deriving DecidableEq, Repr

/-- Everything the part holds while it is powered. -/
structure Dev where
  now     : Nat := 0              -- h-cycles since the clocks began; 00 R3, R4; reset 0
  freeCtr : Nat := 0              -- MODEL FIELD: number of the next free value (log 12); reset 0 (DESIGN CHOICE, log 12)
  out     : List OutMsg := []     -- MODEL FIELD: messages that have left the part, newest first (log 11); reset empty
  pwr     : Pwr := {}             -- power controller and connectors; 18 R628
  boot    : Boot := {}            -- boot; 16 R579
  flashIf : FlashIf := {}         -- flash controller; 17 R615
  host    : HostIf := {}          -- host attachment; 17 R605
  spdm    : Spdm := {}            -- SPDM responder; 16 R598
  queues  : SMap Queue := []      -- queue pairs 0-255; 02 R27; reset DISABLED
  cmds    : SMap Cmd := []        -- commands in flight by admission number; 02 R48; reset none
  nextCid : Nat := 0              -- number of the next command admitted; 02 R48; reset 0
  rr      : Nat := 0              -- queue at which the arbiter's round stands; 02 R35; reset 0 (DESIGN CHOICE, log 3)
  tables  : SMap (List Byte) := [] -- configuration tables in force by 256 KIND + instance; 16 R591; reset none
  loading : Option (Nat × Nat × Nat × List Byte) := none -- a checked table that takes effect at the final record of its CFG.LOAD: command, KIND, instance, bytes; 02 R50, 16 R591; reset none
  configGen : Nat := 0            -- CONFIG_GEN; 16 R592; reset 0
  ctxs    : SMap Ctx := []        -- contexts 0-254; 13 R499; reset none
  eng     : SMap EngCtx := []     -- what engine i of context c holds, by 128 c + i; 06 R192; reset as EngCtx
  launches : SMap Launch := []    -- launches by number; 06 R239; reset none
  nextLaunch : Nat := 0           -- number of the next launch; 06 R239; reset 0
  running : SMap Nat := []        -- the launch each physical engine runs; 13 R511; reset none
  xfers   : SMap Xfer := []       -- transfers of lines and transfer units not complete; 06 R214; reset none
  nextXfer : Nat := 0             -- number of the next transfer; 06 R214; reset 0
  mem     : MemSys := {}          -- memory and mangles; 07 R246
  parts   : SMap Partn := []      -- partitions; 13 R496; reset none
  reqs    : SMap Req := []        -- request records by slot, 131,072; 09 R343; reset FREE
  kvGens  : SMap Nat := []        -- generation that the next sequence in each sequence slot takes; 08 R312; reset 0 (DESIGN CHOICE, log 3)
  fabric  : Fabric := {}          -- fabric; 10 R385
  colls   : Colls := {}           -- collectives; 11 R422
  weights : Weights := {}         -- weights and learning steps; 12 R459
  gov     : Gov := {}             -- scheduler and governor; 13 R526
  tally   : Tally := {}           -- tally store; 15 R551
  deriving DecidableEq, Repr

/-- The machine: the commands and events that wait, first in first out, what is kept without power, and the rest. -/
structure State where
  pending : List Instr := []      -- MODEL FIELD: commands and events waiting; reset empty
  nv      : NonVol := {}          -- fuses and flash; 01 R26
  dev     : Dev := {}             -- everything else
  deriving DecidableEq, Repr

/-- Why the machine stops with a fault. -/
inductive Fault where
  /-- Raised by a command or event whose operand is no message that can reach the part (`Instr.wf` is false): a
  direct-mode flit that is not 1,024 bytes, a returned line that is not 64 bytes. Safe: no such event exists on the hardware. -/
  | illFormed
  deriving DecidableEq, Repr

/-- Why the machine refuses a command. -/
inductive Refusal where
  /-- Raised by an arm of exec whose command has no meaning yet. Safe: the machine stops. -/
  | notModelled (mnemonic : String)
  deriving DecidableEq, Repr

/-- The part with no power applied (01 R26, 18 R628): nothing runs, and every register holds its reset value. -/
def State.reset : State := {}

end Sys2Proof.Machine
end

