-- ==== Sys2Proof/Machine/Ops.lean ====
section
/-! DEFINITION. Named operations that every family shares: effects on the device, free values, tally updates, commands in
flight, engines and the basket. -/

namespace Sys2Proof.Machine

/-- The outcome of a command whose effect is a change of the device. -/
def onDev (s : State) (f : Dev → Dev) : Host.Outcome State Fault Refusal := .next { s with dev := f s.dev }

/-- Draws the next free value (log 12). -/
def drawFree (w : Nat) (d : Dev) : BitVec w × Dev :=
  (Config.freeValue w d.freeCtr, { d with freeCtr := d.freeCtr + 1 })

/-- A message leaves the part (log 11). -/
def emit (d : Dev) (m : OutMsg) : Dev := { d with out := m :: d.out }

/-- The hub microsecond (01 R4). -/
def hubUs (d : Dev) : Nat := d.now / 400

/-! ### Tally updates (15 R561 to R564) -/

/-- Quantities whose COUNT counts events and whose SUM counts other events (15 R569). -/
def twoValued (qid : Nat) : Bool := qid == 0x33 || qid == 0x42

/-- The number of a record: quantity and instance. -/
def recKey (qid inst : Nat) : Nat := 256 * qid + inst

/-- The record of an update. -/
def updKey : TUpd → Option Nat
  | .count q i _ _ _ _ => some (recKey q i)
  | .value q i _ _ => some (recKey q i)
  | _ => none

/-- Updates of a record are dropped: LOSS in it and their number in LOST (15 R562). -/
def tallyLoss (t : Tally) (k n : Nat) : Tally :=
  { t with recs := smMod {} t.recs k (fun r => { r with rflags := r.rflags ||| 2 }), lost := min (t.lost + n) (2 ^ 64 - 1) }

/-- An update is dropped; while the store is FROZEN its record and header keep what they hold (15 R562, R564). -/
def tallyDrop (t : Tally) (u : TUpd) : Tally :=
  match updKey u with
  | none => t
  | some k => if t.frozen then { t with heldDrops := smMod 0 t.heldDrops k (fun n => n + 1) } else tallyLoss t k 1

/-- A source combines its COUNT updates of one record within one hub µs (15 R561). -/
def tallyMerge (l : List TUpd) (u : TUpd) : Option (List TUpd) :=
  match u with
  | .count q i n a src at_ =>
    let same (v : TUpd) : Bool := match v with
      | .count q' i' _ _ src' at' => q == q' && i == i' && src == src' && at_ == at'
      | _ => false
    if l.any same then
      some (l.map (fun v => if same v then
        (match v with
          | .count q' i' n' a' src' at' =>
            .count q' i' (if twoValued q' then n' + n else n') (min (a' + a) (2 ^ 32 - 1)) src' at'
          | v => v) else v))
    else none
  | _ => none

/-- Sends an update to the tally unit (15 R561, R562, R564). -/
def tallySend (d : Dev) (u : TUpd) : Dev :=
  let t := d.tally
  let t' :=
    if t.frozen then
      match tallyMerge t.held u with
      | some l => { t with held := l }
      | none => if t.held.length < 65536 then { t with held := t.held ++ [u] } else tallyDrop t u
    else
      match tallyMerge t.input u with
      | some l => { t with input := l }
      | none => if t.input.length < 4096 then { t with input := t.input ++ [u] } else tallyDrop t u
  { d with tally := t' }

/-- Sources of tally updates. -/
def srcJenorneb : Nat := 1000

/-- A COUNT update of one event with an amount (15 R555, R556). -/
def tallyCount (d : Dev) (qid inst amount src : Nat) : Dev :=
  tallySend d (.count qid inst 1 (min amount (2 ^ 32 - 1)) src (hubUs d))

/-- A value update (15 R556). -/
def tallyValue (d : Dev) (qid inst v : Nat) (tag : Word) : Dev :=
  tallySend d (.value qid inst (min v (2 ^ 32 - 1)) tag)

/-! ### Commands in flight -/

/-- The command header's HOST_SEQ (02 R44). -/
def hostSeqOf (c : Cmd) : Word := word c.hdr 4

def cmdContext (c : Cmd) : Nat := field c.hdr 8 1
def cmdFlags (c : Cmd) : Nat := field c.hdr 2 2
def cmdDeadline (c : Cmd) : Nat := field c.hdr 12 4

/-- A parameter field of n bytes at offset o of the header. -/
def par (c : Cmd) (o n : Nat) : Nat := field c.hdr o n

/-- The deadline instant in h-cycles (02 R63; 11 R434). -/
def deadlineOf (c : Cmd) : Option Nat :=
  if cmdDeadline c = 0 then none else some (c.arrival + 400 * cmdDeadline c + c.moved)

/-- RESULT bytes from a list of (offset, size, value) with offsets from 0x0C (02 R52). -/
def resultOf (l : List (Nat × Nat × Nat)) : BitVec 160 :=
  l.foldl (fun r f => r ||| BitVec.ofNat 160 ((f.2.2 % 256 ^ f.2.1) * 256 ^ (f.1 - 12))) 0

/-- The command's effect is complete: it has prepared its final record (02 R54). -/
def finishCmd (d : Dev) (cid : Nat) (status detail : Nat) (result : List (Nat × Nat × Nat))
    (slotOut : Option (List Byte)) : Dev :=
  { d with cmds := smUpd d.cmds cid (fun c =>
      if c.fin.isSome then c
      else { c with phase := .done, tstate := 15,
                    fin := some { status := BitVec.ofNat 16 status, detail := BitVec.ofNat 16 detail,
                                  result := resultOf result, slotOut := slotOut, at_ := d.now } }) }

def stOk : Nat := 0x0000
def stPending : Nat := 0x0001
def stAlreadyComplete : Nat := 0x0002
def stCancelled : Nat := 0x0003
def stBadOpcode : Nat := 0x0010
def stBadParam : Nat := 0x0011
def stSeqGap : Nat := 0x0012
def stSlotBusy : Nat := 0x0013
def stQueueState : Nat := 0x0014
def stAdmissionRefused : Nat := 0x0020
def stDeadlineMissed : Nat := 0x0021
def stLineFault : Nat := 0x0030
def stLanesMismatch : Nat := 0x0031
def stConfigSkew : Nat := 0x0040
def stShardLost : Nat := 0x0041
def stStaleShard : Nat := 0x0042
def stVersionAbort : Nat := 0x0043
def stNotFinite : Nat := 0x0050
def stLossSpike : Nat := 0x0051
def stSignatureInvalid : Nat := 0x0060
def stRollbackRefused : Nat := 0x0061
def stThermalLimit : Nat := 0x0070
def stDeviceFault : Nat := 0x00F0

/-- The command is marked as throttled when a rate-bearing die that it uses runs below 16/16 by its temperature: compute die
c is die c, memory-side die m is die 8 + m (13 R533). -/
def markThrottled (d : Dev) (cid : Nat) (dies : List Nat) : Dev :=
  if dies.any (fun r => smGet 0 d.gov.thermal r != 0) then
    { d with cmds := smUpd d.cmds cid (fun c => { c with throttled := true }) }
  else d

/-! ### Partitions, contexts and engines -/

def partOf (d : Dev) (p : Nat) : Option Partn := smFind d.parts p

/-- Compute dies of a partition, in rising order (13 R496). -/
def partDies (p : Partn) : List Nat := (span 0 8).filter (fun c => bit p.dies c)

/-- Engines of a partition: those of its compute dies, in rising order (13 R496). -/
def partEngines (p : Partn) : List Nat := (partDies p).flatMap (fun c => span (12 * c) 12)

/-- The physical engine of a context's engine i (13 R500). -/
def physEngine (d : Dev) (x : Ctx) (i : Nat) : Nat :=
  match partOf d x.part with
  | some p => nth 0 (partEngines p) (x.engFirst + i)
  | none => 0

def engKey (ctx i : Nat) : Nat := 128 * ctx + i

/-- What engine i of a context holds. -/
def getE (d : Dev) (ctx i : Nat) : EngCtx := smGet {} d.eng (engKey ctx i)

def setE (d : Dev) (ctx i : Nat) (v : EngCtx) : Dev := { d with eng := smSet {} d.eng (engKey ctx i) v }

def modE (d : Dev) (ctx i : Nat) (f : EngCtx → EngCtx) : Dev := setE d ctx i (f (getE d ctx i))

def modCtx (d : Dev) (ctx : Nat) (f : Ctx → Ctx) : Dev := { d with ctxs := smUpd d.ctxs ctx f }

def modMem (d : Dev) (f : MemSys → MemSys) : Dev := { d with mem := f d.mem }

/-- The a-cycle counter of a physical engine (06 R199, 13 R525). -/
def acycles (d : Dev) (phys : Nat) : Nat := smGet 0 d.gov.acyc16 (phys / 12) / 16

/-- The subnormal mode of a context (03 R100). -/
def subnOf (d : Dev) (ctx : Nat) : Bool := match smFind d.ctxs ctx with | some x => x.subn | none => false

/-! ### Instruction context and the ways an instruction does not go on -/

/-- Why an instruction does not take effect now: it stalls, or it raises a program fault (06 R243). -/
inductive Stop where
  | stall
  | fault (code va line peg : Nat)
  deriving DecidableEq, Repr

abbrev Ex := Except Stop

/-- A program fault with no line and no address. -/
def flt {α : Type} (code : Nat) : Ex α := .error (.fault code 0 0xFF 0xFF)

/-- A program fault with an address (06 R244). -/
def fltAt {α : Type} (code va : Nat) : Ex α := .error (.fault code va 0xFF 0xFF)

/-- Fails with a fault when the condition holds. -/
def failIf (c : Bool) (code : Nat) : Ex Unit := if c then flt code else .ok ()

/-- Stalls while the condition holds (06 R187). -/
def stallIf (c : Bool) : Ex Unit := if c then .error .stall else .ok ()

/-- An instruction at issue: context, context engine index, physical engine, launch, launch index, PC and the word. -/
structure Ic where
  ctx : Nat
  idx : Nat
  phys : Nat
  launch : Nat
  li : Nat
  pc : Nat
  w0 : Nat
  w1 : Nat
  w2 : Nat
  w3 : Nat
  deriving DecidableEq, Repr

def CTL_OPERAND : Nat := 0x01
def CTL_RANGE : Nat := 0x02
def CTL_ORDER : Nat := 0x03
def CTL_WATCHDOG : Nat := 0x04
def LINE_OPERAND : Nat := 0x11
def LINE_RANGE : Nat := 0x12
def LINE_ORDER : Nat := 0x13
def LINE_ABSENT : Nat := 0x14
def LINE_MAP : Nat := 0x15
def LINE_DATA : Nat := 0x16
def LINE_REMOTE : Nat := 0x17
def XFER_RANGE : Nat := 0x21
def XFER_SOURCE : Nat := 0x22
def PRESS_OPERAND : Nat := 0x31
def PRESS_RANGE : Nat := 0x32
def PRESS_ORDER : Nat := 0x33
def FIN_OPERAND : Nat := 0x41
def FIN_RANGE : Nat := 0x42
def FIN_ORDER : Nat := 0x43

/-- A resumable fault code (06 R243). -/
def resumable (code : Nat) : Bool := code == CTL_WATCHDOG || (decide (0x14 ≤ code) && decide (code ≤ 0x17))

/-! ### Fields of the line descriptor (06 R204) -/

def ldSrc (x : List Byte) : Nat := field x 0x00 8 % 2 ^ 52
def ldScale (x : List Byte) : Nat := field x 0x08 8 % 2 ^ 52
def ldStride1 (x : List Byte) : Int := sext 64 (field x 0x10 8)
def ldStride2 (x : List Byte) : Int := sext 64 (field x 0x18 8)
def ldRun (x : List Byte) : Nat := field x 0x20 4
def ldCount1 (x : List Byte) : Nat := field x 0x24 4
def ldCount2 (x : List Byte) : Nat := field x 0x28 4
def ldPegCfg (x : List Byte) : Nat := field x 0x2C 4
def ldPegBytes (x : List Byte) : Nat := field x 0x30 4
def ldReg (x : List Byte) : Nat := field x 0x34 4
def ldList (x : List Byte) : Nat := field x 0x38 4
def ldPegBase (x : List Byte) : Nat := 64 * bits (ldPegCfg x) 31 15
def ldSlots (x : List Byte) : Nat := bits (ldPegCfg x) 14 11 + 1
def ldPegSize (x : List Byte) : Nat := 4096 * (bits (ldPegCfg x) 10 3 + 1)
def ldRate (x : List Byte) : Nat := bits (ldReg x) 31 20
def ldBurst (x : List Byte) : Nat := bits (ldReg x) 19 16
def ldMaxOut (x : List Byte) : Nat := bits (ldReg x) 15 10
def ldPrio (x : List Byte) : Nat := bits (ldReg x) 9 8
def ldMode (x : List Byte) : Nat := bits (ldReg x) 7 4
def ldExpand (x : List Byte) : Nat := bits (ldReg x) 3 0

/-- Offset of the index list. -/
def listBase (x : List Byte) : Nat := 64 * bits (ldList x) 31 15

/-! ### The basket (06 R189, R200 to R203) -/

/-- Bytes of a context's basket share (06 R202). -/
def shareBytes (d : Dev) (ctx : Nat) : Nat :=
  match smFind d.ctxs ctx with | some x => 65536 * x.basket | none => 0

/-- Address in `MemSys.baskets` of offset 0 of the share of engine i of a context. -/
def shareBase (d : Dev) (ctx i : Nat) : Nat :=
  match smFind d.ctxs ctx with
  | some x => 2 ^ 23 * physEngine d x i + 65536 * nth 0 x.base i
  | none => 0

/-- Some granule of a range of a share is still to be rinsed (06 R203). -/
def rinsing (d : Dev) (ctx i off n : Nat) : Bool :=
  let b := shareBase d ctx i + off
  n != 0 && d.mem.granRinse.any (fun g => decide (g * 65536 < b + n) && decide (b < (g + 1) * 65536))

/-- Checks a basket access: beyond the share it raises the fault, a granule still being rinsed stalls (06 R202, R203). -/
def basketOk (d : Dev) (ctx i off n : Nat) (code : Nat) : Ex Unit :=
  if shareBytes d ctx < off + n then fltAt code off
  else if rinsing d ctx i off n then .error .stall
  else .ok ()

/-- The unit that wrote: data that an XFER with SIG brought from memory is the transfer unit's. -/
def writerOf : BUnit → BUnit
  | .signalled _ => .transfer
  | w => w

/-- The access of a unit meets bytes another unit has written and not handed over. -/
def dirtyFor (who : BUnit) (lo hi : Nat) (z : Dirty) : Bool :=
  decide (writerOf z.who ≠ writerOf who) && decide (z.lo < hi) && decide (lo < z.hi)

/-- Reads n bytes of the basket by a unit: bytes another unit has not handed over read as free values (06 R189; log 7). -/
def basketRead (d : Dev) (ctx i : Nat) (who : BUnit) (off n : Nat) : List Byte × Dev :=
  let raw := memRead d.mem.baskets (shareBase d ctx i + off) n
  let ds := (getE d ctx i).dirty.filter (dirtyFor who off (off + n))
  if ds.isEmpty then (raw, d)
  else
    (raw.zipIdx.map (fun p =>
        if ds.any (fun z => dirtyFor who (off + p.2) (off + p.2 + 1) z) then Config.freeByte d.freeCtr (off + p.2)
        else p.1),
     { d with freeCtr := d.freeCtr + 1 })

/-- The line reads an index list while it runs. -/
def listRuns (l : Line) : Bool := decide (l.state = .running) && ldMode l.desc == 1

/-- A write of n bytes at off while the line runs: the list entries that it meets, and that the line has not read, are kept as
they stood, since the line may use either value (06 R207). -/
def noteOlds (old : Mem) (base off n : Nat) (l : Line) : Line :=
  if listRuns l then
    let at_ (r : Nat) : Nat := listBase l.desc + 8 * r
    let hit := (span 0 (ldCount1 l.desc)).filter (fun r => decide (off < at_ r + 8) && decide (at_ r < off + n) && (smFind l.runs r).isNone)
    { l with olds := hit.map (fun r => (r, leNat (memRead old (base + at_ r) 8))) ++ l.olds }
  else l

/-- The lines of an engine note the entries of their INDEX lists that a write of n bytes replaces (06 R207; log 7). -/
def noteLists (d : Dev) (ctx i off n : Nat) (old : Mem) : Dev :=
  if (getE d ctx i).lines.any (fun p => listRuns p.2) then
    modE d ctx i (fun e => { e with lines := e.lines.map (fun p => (p.1, noteOlds old (shareBase d ctx i) off n p.2)) })
  else d

/-- Writes bytes of the basket by a unit: bytes that another unit has written and not handed over become free values,
since the order of the two writes is open (06 R188, R189; log 7). -/
def basketWrite (d : Dev) (ctx i : Nat) (who : BUnit) (off : Nat) (bs : List Byte) : Dev :=
  let e := getE d ctx i
  let ds := e.dirty.filter (dirtyFor who off (off + bs.length))
  let bs' := if ds.isEmpty then bs else
    bs.zipIdx.map (fun p =>
      if ds.any (fun z => dirtyFor who (off + p.2) (off + p.2 + 1) z) then Config.freeByte d.freeCtr (off + p.2) else p.1)
  let d1 : Dev := { d with
    freeCtr := if ds.isEmpty then d.freeCtr else d.freeCtr + 1,
    mem := { d.mem with baskets := memWrite d.mem.baskets (shareBase d ctx i + off) bs' } }
  let d2 := noteLists d1 ctx i off bs.length d.mem.baskets
  let entry : Dirty := { who := who, lo := off, hi := off + bs.length }
  if bs.isEmpty || decide (who = .sequencer) || decide (entry ∈ e.dirty) then d2
  else modE d2 ctx i (fun e => { e with dirty := entry :: e.dirty })

/-- Hands over the writes a predicate selects (06 R189, R232). -/
def handOver (d : Dev) (ctx i : Nat) (p : Dirty → Bool) : Dev :=
  modE d ctx i (fun e => { e with dirty := e.dirty.filter (fun z => !p z) })

/-- Adds flags to AFLAGS (03 R104). -/
def addAflags (d : Dev) (ctx i : Nat) (f : Word) : Dev := modE d ctx i (fun e => { e with aflags := e.aflags ||| f })

/-! ### Pages: reaching device memory by virtual address (07 R258) -/

def pageOf (va : Nat) : Nat := va / 65536

/-- The leaf that maps a virtual address (07 R258): of a 2 MiB page or a 64 KiB page. -/
def leafKey (x : Ctx) (va : Nat) : Option (Nat × Pte) :=
  match smFind x.ptes (pageOf va) with
  | some p => some (pageOf va, p)
  | none =>
    match smFind x.ptes (pageOf va / 32 * 32) with
    | some p => if p.size2m then some (pageOf va / 32 * 32, p) else none
    | none => none

/-- Every cached copy of a page's entry is invalidated (07 R261). -/
def dropCached (d : Dev) (ctx page : Nat) : Dev :=
  modMem d (fun m => { m with caches := m.caches.map (fun c => (c.1, c.2.filter (fun e => !(e.1 == ctx && e.2.1 == page)))) })

/-- The device physical address of a local page's byte (07 R254). -/
def dpaOf (key : Nat) (p : Pte) (va : Nat) : Nat := 65536 * nth 0 p.frames (pageOf va - key) + va % 65536

end Sys2Proof.Machine
end

