-- ==== Sys2Proof/Machine/LineOps.lean ====
section
/-! DEFINITION. The geometry of a line's stream and pegs, and the operations that end or change a line (06 R204 to R229). -/

namespace Sys2Proof.Machine

/-! ### The stream (06 R205 to R209) -/

/-- Source bytes of the stream. -/
def streamSrc (x : List Byte) : Nat := ldRun x * ldCount1 x * ldCount2 x

/-- Source bytes of a whole peg: 1,024 for each 2,112 destination bytes when expanding (06 R206). -/
def pegSrc (x : List Byte) : Nat := if ldExpand x = 0 then ldPegBytes x else ldPegBytes x / 2112 * 1024

/-- Pegs of the stream (06 R209). -/
def streamPegs (x : List Byte) : Nat := ceilDiv (streamSrc x) (pegSrc x)

/-- Source bytes of stream peg p; the last may be shorter (06 R209). -/
def pegSrcLen (x : List Byte) (p : Nat) : Nat := min (pegSrc x) (streamSrc x - p * pegSrc x)

/-- Destination bytes of source bytes. -/
def dstLen (x : List Byte) (n : Nat) : Nat := if ldExpand x = 0 then n else n / 1024 * 2112

/-- Basket offset of slot k. -/
def slotOff (x : List Byte) (k : Nat) : Nat := ldPegBase x + k * ldPegSize x

/-- Virtual address of a stream position (06 R205). -/
def posVa (l : Line) (pos : Nat) : Nat :=
  let x := l.desc
  let r := pos / ldRun x
  let off := pos % ldRun x
  if ldMode x = 0 then
    let a : Int := ldSrc x + ldStride2 x * (r / ldCount1 x : Nat) + ldStride1 x * (r % ldCount1 x : Nat) + off
    (a % 2 ^ 52).toNat
  else (smGet 0 l.runs r + off) % 2 ^ 52

/-- Virtual address of the scale bytes of the 1,024 stream bytes at a position (06 R206). -/
def scaleVa (l : Line) (pos : Nat) : Nat :=
  let x := l.desc
  let o : Int := (posVa l pos : Int) - ldSrc x
  (((ldScale x : Int) + o / 16) % 2 ^ 52).toNat

def pegAt (l : Line) (k : Nat) : Peg := nth {} l.pegs k

def setPeg (l : Line) (k : Nat) (p : Peg) : Line := { l with pegs := setNth l.pegs k p }

def slotOf (l : Line) (p : Nat) : Nat := p % ldSlots l.desc

def lineOf (e : EngCtx) (n : Nat) : Line := smGet {} e.lines n

def setLine (e : EngCtx) (n : Nat) (l : Line) : EngCtx := { e with lines := smSet {} e.lines n l }

def lstateCode : LState → Nat
  | .idle => 0 | .ready => 1 | .running => 2 | .done => 3 | .faulted => 4 | .cancelling => 5 | .recall => 6

def countPegs (l : Line) (s : PegState) : Nat := (l.pegs.filter (fun p => decide (p.state = s))).length

/-- The state word of a line (06 R219). -/
def lineWord (l : Line) : Word :=
  if l.state = .idle then 0#32
  else BitVec.ofNat 3 (lstateCode l.state) ++ BitVec.ofNat 4 (slotOf l l.head) ++ BitVec.ofNat 4 (slotOf l l.tail)
    ++ BitVec.ofNat 5 (countPegs l .full) ++ BitVec.ofNat 5 (countPegs l .taken) ++ BitVec.ofNat 8 l.fault ++ 0#3

/-! ### Which transfer a line issues next (06 R205, R206, R211) -/

/-- The stream peg that a line fills now: its tail, or the one before it while that is not wholly asked for. -/
def fillPeg (l : Line) : Nat := l.pos / pegSrc l.desc

/-- The slot of the peg to fill may take a transfer: it is EMPTY for a new peg, FILLING for the present one (06 R211). -/
def slotReady (l : Line) : Bool :=
  let p := fillPeg l
  let s := pegAt l (slotOf l p)
  if p = l.tail then decide (s.state = .empty) else decide (s.state = .filling) && s.peg == p

/-- Bytes of a transfer from va that may take n: it crosses no 4 KiB boundary (06 R205). -/
def cut4k (va n : Nat) : Nat := min n (4096 - va % 4096)

/-- What the line asks for next: scale or element bytes, and the source position whose address they take; a peg's scale bytes
come first (06 R206). -/
def nextKind (l : Line) : Option (Bool × Nat) :=
  let x := l.desc
  if l.pos < streamSrc x ∧ slotReady l then
    let p := fillPeg l
    let asked := if p = l.tail then 0 else (pegAt l (slotOf l p)).scales
    if asked < (if ldExpand x = 0 then 0 else pegSrcLen x p / 16) then some (true, p * pegSrc x + asked / 64 * 1024)
    else some (false, l.pos)
  else none

/-- The run of a source position has an address: in INDEX mode its list entry has been read (06 R207). -/
def runKnown (l : Line) (pos : Nat) : Bool := ldMode l.desc != 1 || (smFind l.runs (pos / ldRun l.desc)).isSome

/-- The next transfer: scale or element, its virtual address, its source position and its bytes. -/
def nextTransfer (l : Line) : Option (Bool × Nat × Nat × Nat) :=
  match nextKind l with
  | none => none
  | some (scale, pos) =>
    if !runKnown l pos then none
    else
      let x := l.desc
      let p := fillPeg l
      let start := p * pegSrc x
      let runLeft := ldRun x - pos % ldRun x
      if scale then
        let asked := if p = l.tail then 0 else (pegAt l (slotOf l p)).scales
        let va := scaleVa l pos + asked % 64
        some (true, va, start + asked * 16, cut4k va (min (pegSrcLen x p / 16 - asked) (runLeft / 16 - asked % 64)))
      else
        let va := posVa l pos
        some (false, va, pos, cut4k va (min (start + pegSrcLen x p - pos) runLeft))

/-- Marks the transfer as issued: the slot is FILLING and the tail has passed its peg (06 R210). -/
def noteIssued (l : Line) (scale : Bool) (n : Nat) : Line :=
  let p := fillPeg l
  let k := slotOf l p
  let s0 := pegAt l k
  let s := if p = l.tail then { state := .filling, peg := p, issued := if s0.peg = p then s0.issued else 0 : Peg } else s0
  let s' := if scale then { s with scales := s.scales + n } else { s with issued := s.issued + n }
  { setPeg l k s' with
    tail := max l.tail (p + 1), out := l.out + 1,
    pos := if scale then l.pos else l.pos + n,
    credit := if ldRate l.desc = 0 then l.credit else l.credit - n }

/-! ### Landing (06 R206, R212) -/

/-- Pegs become FULL in stream order (06 R212): from peg p, at most fuel of them. -/
def fillFull (l : Line) (p : Nat) : Nat → Line
  | 0 => l
  | fuel + 1 =>
    if p < l.tail then
      let k := slotOf l p
      let s := pegAt l k
      if s.peg = p ∧ s.state = .filling then
        if s.landed = dstLen l.desc (pegSrcLen l.desc p) then
          fillFull (setPeg l k { s with state := .full }) (p + 1) fuel
        else l
      else fillFull l (p + 1) fuel
    else l

/-- A line is DONE once every transfer of the stream has completed (06 R219). -/
def settleDone (l : Line) : Line :=
  if l.state = .running ∧ l.pos = streamSrc l.desc ∧ l.out = 0 then { l with state := .done } else l

/-- The FP8 K-step of 1,024 stream bytes and their 64 scale bytes: elements expanded, scales after them (06 R206, 04 R119). -/
def expandStep (x : List Byte) (elems scales : List Byte) : List Byte :=
  let elem := if ldExpand x = 1 then 4 else 5
  elems.flatMap (fun b => [BitVec.ofNat 8 (expand4 elem (b.toNat % 16)), BitVec.ofNat 8 (expand4 elem (b.toNat / 16))])
    ++ scales

/-- Stream positions of the K-steps of 1,024 bytes that a landing of n source bytes at pos touches. -/
def stepsTouched (pos n : Nat) : List Nat :=
  (span (pos / 1024) (ceilDiv (pos + n) 1024 - pos / 1024)).map (fun k => k * 1024)

def haveAll (m : SMap Byte) (a n : Nat) : Bool := (span a n).all (fun k => (smFind m k).isSome)

def takeAll (m : SMap Byte) (a n : Nat) : List Byte := (span a n).map (fun k => smGet 0#8 m k)

def dropAll (m : SMap Byte) (a n : Nat) : SMap Byte := m.filter (fun p => decide (p.1 < a) || decide (a + n ≤ p.1))

def putAll (m : SMap Byte) (a : Nat) : List Byte → SMap Byte
  | [] => m
  | b :: bs => putAll (smPut m a b) (a + 1) bs

def scaleKey (pos : Nat) : Nat := 2 ^ 60 + pos / 16

/-- Writes the K-steps that are complete in the expander. -/
def writeSteps (d : Dev) (ctx i n : Nat) : List Nat → Dev
  | [] => d
  | p :: ps =>
    let l := lineOf (getE d ctx i) n
    if haveAll l.scratch p 1024 && haveAll l.scratch (scaleKey p) 64 then
      let bytes := expandStep l.desc (takeAll l.scratch p 1024) (takeAll l.scratch (scaleKey p) 64)
      let peg := p / pegSrc l.desc
      let k := slotOf l peg
      let off := slotOff l.desc k + (p - peg * pegSrc l.desc) / 1024 * 2112
      let l' := setPeg { l with scratch := dropAll (dropAll l.scratch p 1024) (scaleKey p) 64 } k
        { pegAt l k with landed := (pegAt l k).landed + 2112 }
      writeSteps (modE (basketWrite d ctx i .line off bytes) ctx i (fun e => setLine e n l')) ctx i n ps
    else writeSteps d ctx i n ps

/-- The bytes of the basket that a line transfer may write: its own, or with EXPAND its whole peg. -/
def landRange (l : Line) (pos n : Nat) : Nat × Nat :=
  let p := pos / pegSrc l.desc
  let o := slotOff l.desc (slotOf l p)
  if ldExpand l.desc = 0 then (o + (pos - p * pegSrc l.desc), n) else (o, dstLen l.desc (pegSrcLen l.desc p))

/-- Data of a line transfer lands in its peg (06 R206, R212). -/
def landLine (d : Dev) (ctx i n : Nat) (scale : Bool) (pos : Nat) (data : List Byte) : Dev :=
  let l := lineOf (getE d ctx i) n
  let d1 :=
    if ldExpand l.desc = 0 then
      let p := pos / pegSrc l.desc
      let k := slotOf l p
      let d1 := basketWrite d ctx i .line (slotOff l.desc k + (pos - p * pegSrc l.desc)) data
      modE d1 ctx i (fun e => let l := lineOf e n
        setLine e n (setPeg l k { pegAt l k with landed := (pegAt l k).landed + data.length }))
    else
      let a := if scale then scaleKey pos else pos
      let d1 := modE d ctx i (fun e => let l := lineOf e n
        setLine e n { l with scratch := putAll l.scratch a data })
      writeSteps d1 ctx i n (stepsTouched pos (if scale then data.length * 16 else data.length))
  modE d1 ctx i (fun e => let l := lineOf e n
    setLine e n (settleDone (fillFull { l with out := l.out - 1 } l.rel (ldSlots l.desc))))

/-! ### Cancellation (06 R226 to R229) -/

/-- Source bytes asked for pegs that LWAIT has not returned (06 R229). -/
def wastedBytes (l : Line) : Nat :=
  (l.pegs.map (fun s => if s.state = .taken then 0 else s.issued + s.scales)).sum

/-- A transfer of line n of an engine. -/
def isLineXfer (ctx i n : Nat) (x : Xfer) : Bool :=
  x.ctx == ctx && x.idx == i && (match x.kind with | .line m _ _ _ => m == n | _ => false)

def xferSlot (x : Xfer) : Nat := match x.kind with | .line _ _ k _ => k | _ => 0

/-- The line as cancellation leaves it, given its transfers in flight (06 R226). -/
def cancelledLine (l : Line) (flying : List Xfer) : Line :=
  let pegs := l.pegs.zipIdx.map (fun p =>
    if flying.any (fun x => xferSlot x == p.2) then { state := .draining, peg := p.1.peg : Peg } else {})
  if flying.isEmpty then {}
  else { l with state := .cancelling, pegs := pegs, scratch := [] }

/-- Cancels line n of engine i of a context, for a launch that counts the waste as its own (06 R226, R225, R229, R242). -/
def cancelLine (d : Dev) (ctx i n : Nat) (own : Option Nat) : Dev :=
  let l := lineOf (getE d ctx i) n
  if l.state = .idle ∨ l.state = .cancelling then d
  else
    let flying := (d.xfers.map (·.2)).filter (isLineXfer ctx i n)
    let w := wastedBytes l
    let phys := match smFind d.ctxs ctx with | some x => physEngine d x i | none => 0
    let d1 : Dev := { d with
      xfers := d.xfers.map (fun p => if isLineXfer ctx i n p.2 then (p.1, { p.2 with drain := true }) else p) }
    let d2 := modE d1 ctx i (fun e => setLine e n (cancelledLine l flying))
    let d3 := match own with
      | some k => { d2 with launches := smUpd d2.launches k (fun z => { z with wasted := z.wasted + w }) }
      | none => d2
    let d4 := if w = 0 then d3 else tallyCount d3 0x0001 ctx w phys
    if l.state = .faulted ∨ l.state = .recall then tallyCount d4 0x0002 ctx 1 phys else d4

/-- Cancels every line of engine i of a context. -/
def cancelLines (d : Dev) (ctx i : Nat) (own : Option Nat) : Dev := (span 0 16).foldl (fun d n => cancelLine d ctx i n own) d

/-- A transfer into a DRAINING slot completes: its data is discarded (06 R226, R227). -/
def drainOne (d : Dev) (ctx i n k : Nat) : Dev :=
  let left := (d.xfers.map (·.2)).filter (isLineXfer ctx i n)
  modE d ctx i (fun e =>
    let l := lineOf e n
    let l1 := { l with out := l.out - 1 }
    let l2 := if left.any (fun x => xferSlot x == k) then l1 else setPeg l1 k {}
    setLine e n (if left.isEmpty then {} else l2))

/-! ### Failure and resumption (06 R222 to R225) -/

/-- A transfer of a line has failed: the line stops issuing and records where (06 R222). -/
def failLine (d : Dev) (ctx i n : Nat) (code : Nat) (again : Bool) (scale : Bool) (pos va : Nat) : Dev :=
  modE d ctx i (fun e =>
    let l := lineOf e n
    let p0 := if scale then min (pos / 1024 * 1024) l.pos else pos
    let l1 := { l with out := l.out - 1 }
    let first := decide (l.state = .running) || decide (p0 < l.faultPos)
    setLine e n (if first then
      { l1 with state := if again then .recall else .faulted, fault := code, faultPos := p0,
                faultPeg := p0 / pegSrc l.desc, faultVa := va }
    else l1))

/-- The line fetches again from the recorded position: later pegs are filled anew, and `issued` keeps what was asked for
them before, which cancellation counts too (06 R223, R229). -/
def resumedLine (l : Line) : Line :=
  let x := l.desc
  let p := l.faultPeg
  let pre := l.faultPos - p * pegSrc x
  let pegs := l.pegs.map (fun s =>
    if s.state = .filling ∨ s.state = .full then
      let scales := if ldExpand x = 0 then 0 else pre / 16
      if s.peg = p then { s with state := .filling, issued := s.issued + (s.scales - scales), scales := scales,
                                 landed := dstLen x (pre / (if ldExpand x = 0 then 1 else 1024) * (if ldExpand x = 0 then 1 else 1024)) }
      else if p < s.peg then { peg := s.peg, issued := s.issued + s.scales : Peg }
      else s
    else s)
  let held := pegs.any (fun s => decide (s.state = .filling) && s.peg == p)
  { l with state := .running, pegs := pegs, pos := l.faultPos, fault := 0, scratch := [],
           tail := if held then p + 1 else p, credit := 64 * ldRate x }

end Sys2Proof.Machine
end

