-- ==== Sys2Proof/Machine/LaunchOps.lean ====
section
/-! DEFINITION. Starting, stopping and ending a launch (06 R239 to R245, 13 R511, R520). -/

namespace Sys2Proof.Machine

/-- Context engine indices of a launch. -/
def launchEngines (z : Launch) : List Nat := span z.engFirst z.engCount

/-- PSTAT COUNT summed over the engines of a launch (04 R149). -/
def pstatSum (d : Dev) (z : Launch) : Nat := ((launchEngines z).map (fun i => (getE d z.ctx i).pstat)).sum

/-- The physical engines of a launch. -/
def launchPhys (d : Dev) (z : Launch) : List Nat :=
  match smFind d.ctxs z.ctx with
  | some x => (launchEngines z).map (physEngine d x)
  | none => []

/-- Takes the launch off its engines: they run nothing. -/
def releaseEngines (d : Dev) (k : Nat) : Dev := { d with running := d.running.filter (fun p => p.2 != k) }

/-- Charges the context with the engine time since the last charge (13 R510). -/
def chargeTime (d : Dev) (z : Launch) : Dev :=
  let t := (d.now - z.timeFrom) * z.engCount
  modCtx d z.ctx (fun x => { x with engTime := match x.engTime with | [] => [t] | h :: r => (h + t) :: r })

/-- The free figures of a launch that ends: the greatest slowdown, the mean, the kind of arbiter and the energy in nJ
(13 R519, R520, R530; log 8). -/
def launchFigures (d : Dev) : Nat × Nat × Nat × Nat × Dev :=
  let (a, d) := drawFree 16 d
  let (b, d) := drawFree 16 d
  let (c, d) := drawFree 2 d
  let (e, d) := drawFree 64 d
  let slow := max 256 a.toNat
  let mean := 256 + b.toNat % (slow - 255)
  (slow, mean, if slow = 256 then 0 else c.toNat, e.toNat, d)

/-- HOST_SEQ of the command a launch serves. -/
def launchTag (d : Dev) (z : Launch) : Word :=
  match z.purpose with
  | .prog c => match smFind d.cmds c with | some x => hostSeqOf x | none => 0#32
  | .train c => match smFind d.cmds c with | some x => hostSeqOf x | none => 0#32
  | .serve _ => 0#32

/-- Tally and energy records of a launch that ends (13 R520, R530; 15 R569). -/
def recordLaunch (d : Dev) (k : Nat) (z : Launch) : Nat × Nat × Nat × Dev :=
  let (slow, mean, kind, energy, d1) := launchFigures d
  let tag := launchTag d z
  let d2 := tallyValue d1 0x0004 z.ctx slow tag
  let d3 := tallyValue d2 0x0008 z.ctx (pstatSum d z - z.pstat0) tag
  let most := (((launchEngines z).map (getE d z.ctx)).map (fun e => e.endCyc - e.startCyc)).foldl max 0
  let d3' : Dev := { d3 with
    gov := { d3.gov with spent := d3.gov.spent + 1000 * energy },
    launches := smUpd d3.launches k (fun z => { z with nonfin := pstatSum d z - z.pstat0, most := most }) }
  let d4 := modCtx d3' z.ctx (fun x =>
    { x with eest := smMod [] x.eest z.slot (fun l => (energy :: l).take 8) })
  (slow, mean, kind, d4)

/-- Saturates to 32 bits. -/
def sat32 (n : Nat) : Nat := min n (2 ^ 32 - 1)

/-- The end of a launch clears VALID in every transient tile of its context (13 R501). -/
def clearTransient (d : Dev) (z : Launch) : Dev :=
  match smFind d.ctxs z.ctx with
  | none => d
  | some x => (launchEngines z).foldl (fun d i => modE d z.ctx i (fun e => { e with tiles := dropValid x.tiles e.tiles })) d
where
  /-- Tiles from index n on are no longer valid. -/
  dropValid (n : Nat) (m : SMap Tile) : SMap Tile :=
    (m.map (fun t => if t.1 < n then t else (t.1, { t.2 with tag := { t.2.tag with valid := false } }))).filter
      (fun t => decide (t.2 ≠ ({} : Tile)))

/-- Every engine of the launch has executed HALT: it ends OK (06 R242). -/
def endLaunchOk (d : Dev) (k : Nat) : Dev :=
  match smFind d.launches k with
  | none => d
  | some z =>
    let es := (launchEngines z).map (getE d z.ctx)
    let most := (es.map (fun e => e.endCyc - e.startCyc)).foldl max 0
    let stalls := (es.map (fun e => e.stalled)).sum
    let d1 := (launchEngines z).foldl (fun d i => cancelLines d z.ctx i (some k)) d
    let wasted := match smFind d1.launches k with | some z' => z'.wasted | none => 0
    let d2 := chargeTime (releaseEngines d1 k) z
    let (slow, mean, kind, d3) := recordLaunch (clearTransient d2 z) k z
    let d4 : Dev := { d3 with launches := smUpd d3.launches k (fun z => { z with state := .ended }) }
    let d5 := modCtx d4 z.ctx (fun x => { x with stopped := false, stopLaunch := none, imgLaunch := [] })
    match z.purpose with
    | .prog cid => finishCmd d5 cid stOk 0
        [(0x0C, 4, sat32 most), (0x10, 4, sat32 stalls), (0x14, 4, sat32 (wasted / 64)),
         (0x18, 2, slow), (0x1A, 2, mean), (0x1C, 1, kind)] none
    | _ => d5

/-- DETAIL of LINE_FAULT (06 R243). -/
def faultDetail (code : Nat) : Nat := (if resumable code then 0x8000 else 0) + (code / 16) * 256 + code

/-- RESULT of LINE_FAULT (06 R244). -/
def faultResult (f : PFault) : List (Nat × Nat × Nat) :=
  [(0x0C, 1, f.idx), (0x0D, 1, f.line), (0x0E, 1, f.peg % 256), (0x10, 4, f.pc), (0x14, 8, f.va)]

/-- The engines of a launch stop at a fault; one that cannot be resumed cancels its lines (06 R244, R245). -/
def stopForFault (d : Dev) (k : Nat) (z : Launch) (f : PFault) : Dev :=
  let res := resumable f.code
  let d1 := if res then d else (launchEngines z).foldl (fun d i => cancelLines d z.ctx i (some k)) d
  let d2 := (launchEngines z).foldl (fun d i => modE d z.ctx i (fun e =>
    { e with seq := if e.seq = .running then .stopped else e.seq, stallFrom := none })) d1
  let d3 := if z.state = .running then chargeTime (releaseEngines d2 k) z else d2
  let (_, _, _, d4) := recordLaunch (if res then d3 else clearTransient d3 z) k z
  let d5 : Dev := { d4 with launches := smUpd d4.launches k (fun z => { z with state := .ended, fault := some f, faultAt := hubUs d }) }
  let d6 := modCtx d5 z.ctx (fun x => { x with stopped := res, stopLaunch := if res then some k else none, imgLaunch := [] })
  match z.purpose with
  | .prog cid => finishCmd d6 cid stLineFault (faultDetail f.code) (faultResult f) none
  | _ => d6

/-- A fault of a launch that has ended by a fault g. It is counted in tally; of faults of one hub µs the one on the lowest launch
index is the one described, as long as the final record has not been placed; and one that is not resumable leaves the context
to START alone (06 R244, R245). -/
def laterFault (d : Dev) (k : Nat) (z : Launch) (g f : PFault) : Dev :=
  let d1 := tallyCount d 0x0003 z.ctx 1 srcJenorneb
  let mine : Bool := match smFind d.ctxs z.ctx with | some x => x.stopLaunch == some k | none => false
  let d2 := if mine && !resumable f.code then
      modCtx (clearTransient ((launchEngines z).foldl (fun d i => cancelLines d z.ctx i none) d1) z) z.ctx
        (fun x => { x with stopped := false, stopLaunch := none, imgLaunch := [] })
    else d1
  if z.faultAt = hubUs d ∧ f.idx < g.idx then
    let d3 : Dev := { d2 with launches := smUpd d2.launches k (fun z => { z with fault := some f }) }
    match z.purpose with
    | .prog cid => { d3 with cmds := smUpd d3.cmds cid (fun c => { c with fin := c.fin.map (fun v =>
        { v with detail := BitVec.ofNat 16 (faultDetail f.code), result := resultOf (faultResult f) }) }) }
    | _ => d3
  else d2

/-- A program fault ends the launch, also one that stands pre-empted (06 R243 to R245); a later one is counted in tally. -/
def endLaunchFault (d : Dev) (k : Nat) (f : PFault) : Dev :=
  match smFind d.launches k with
  | none => d
  | some z =>
    if z.state = .running ∨ z.state = .preempted then stopForFault d k z f
    else match z.fault with
      | some g => laterFault d k z g f
      | none => tallyCount d 0x0003 z.ctx 1 srcJenorneb

/-- A launch ends by a cancel or discard command or by CTX.DESTROY (06 Cancellation; 12 R477; 13 R503). -/
def cancelLaunch (d : Dev) (k : Nat) : Dev :=
  match smFind d.launches k with
  | none => d
  | some z =>
    let d1 := (launchEngines z).foldl (fun d i => cancelLines d z.ctx i (some k)) d
    let d2 := (launchEngines z).foldl (fun d i => modE d z.ctx i (fun e =>
      { e with seq := .idle, stallFrom := none })) d1
    let d3 := if z.state = .running then chargeTime (releaseEngines d2 k) z else releaseEngines d2 k
    let d4 : Dev := { clearTransient d3 z with launches := smUpd d3.launches k (fun z => { z with state := .ended }) }
    match z.purpose with
    | .prog cid => finishCmd d4 cid stCancelled 0 [] none
    | _ => d4

/-- One engine begins the launch: START sets PC to ENTRY, loads s1 to s8, clears the rest and sets every line IDLE; what an earlier
launch wrote has been written (R194, R244; log 7). RESUME continues from the saved state: a FAULTED line resumes, and one in
RECALL waits for its page (06 R222, R241). -/
def startEngine (d : Dev) (z : Launch) (entry i : Nat) : Dev :=
  let phys := match smFind d.ctxs z.ctx with | some x => physEngine d x i | none => 0
  let cyc := acycles d phys
  if z.resume then
    modE d z.ctx i (fun e =>
      let lines := e.lines.map (fun p =>
        if p.2.state = .faulted ∧ p.2.out = 0 then (p.1, resumedLine p.2)
        else if p.2.state = .running then (p.1, { p.2 with credit := 64 * ldRate p.2.desc }) else p)
      { e with seq := if e.seq = .halted then .halted else .running, lines := lines, stalled := 0,
               startCyc := cyc, endCyc := cyc })
  else
    modE (cancelLines d z.ctx i none) z.ctx i (fun e =>
      { e with seq := .running, pc := entry, s := putWords z.args 1, loops := [], calls := [], sem := [],
               barAt := none, patch := none, dirty := [], stallFrom := none, stalled := 0, startCyc := cyc, endCyc := cyc })
where
  /-- Scalar registers loaded with words from register n on. -/
  putWords : List Word → Nat → SMap Word
    | [], _ => []
    | w :: ws, n => if w = 0#32 then putWords ws (n + 1) else (n, w) :: putWords ws (n + 1)

/-- Starts a waiting launch on its engines (06 R241, 13 R510). -/
def startLaunch (d : Dev) (k : Nat) : Dev :=
  match smFind d.launches k with
  | none => d
  | some z =>
    match smFind d.ctxs z.ctx with
    | none => d
    | some x =>
      let entry := match smFind x.progs z.slot with | some p => field p.hdr 0x14 4 | none => 0
      let d1 := if z.state = .preempted then
          -- a pre-empted launch goes on where it stopped; its credit counters are set as at LSTART (R221)
          (launchEngines z).foldl (fun d i => modE d z.ctx i (fun e =>
            { e with lines := e.lines.map (fun p => if p.2.state = .running
                then (p.1, { p.2 with credit := 64 * ldRate p.2.desc }) else p) })) d
        else (launchEngines z).foldl (fun d i => startEngine d z entry i) d
      { d1 with
        running := (launchPhys d z).foldl (fun r e => smPut r e k) d1.running,
        launches := smUpd d1.launches k (fun z =>
          { z with state := .running, started := if z.state = .preempted then z.started else d.now,
                   sliceFrom := d.now, timeFrom := d.now, pstat0 := if z.state = .preempted then z.pstat0 else pstatSum d z }) }

/-- A new launch becomes a candidate (13 R508). -/
def addLaunch (d : Dev) (z : Launch) : Nat × Dev :=
  (d.nextLaunch, { d with nextLaunch := d.nextLaunch + 1, launches := smPut d.launches d.nextLaunch z })

end Sys2Proof.Machine
end

