-- ==== Sys2Proof/Machine/Operands.lean ====
section
/-! DEFINITION. Operand fields of engine instructions, scalar registers, and the issue of an instruction: the word at PC with
the patch of a preceding XADD, the fault it may raise and the advance of PC (06 R187 to R199, R243, R245). -/

namespace Sys2Proof.Machine

def opcodeOf (w0 : Nat) : Nat := bits w0 31 24

/-- The words of a 128-bit instruction. -/
def insWord (w : BitVec 128) (k : Nat) : Nat := w.toNat / 2 ^ (32 * k) % 2 ^ 32

/-- A scalar register; s0 reads as zero (06 R192). -/
def sreg (e : EngCtx) (n : Nat) : Word := if n = 0 then 0#32 else smGet 0#32 e.s n

/-- Writes a scalar register; a write of s0 is discarded (06 R192). -/
def setSreg (e : EngCtx) (n : Nat) (v : Word) : EngCtx := if n = 0 then e else { e with s := smSet 0#32 e.s n v }

/-- Fields of a control or scalar instruction (06 R193). -/
def fSD (w0 : Nat) : Nat := bits w0 23 19
def fSA (w0 : Nat) : Nat := bits w0 18 14
def fSB (w0 : Nat) : Nat := bits w0 13 9
def fFUNC (w0 : Nat) : Nat := bits w0 8 4

/-- A descriptor register as the instruction names it (06 R196). -/
def fdReg (e : EngCtx) (n : Nat) : BitVec 64 := smGet 0#64 e.fd n

/-- An opcode that some row of the instruction tables has (06 R191, R194, R215, R230 to R233; 04; 05). -/
def opcodeKnown (op : Nat) : Bool :=
  decide (op ≤ 0x0D) || (decide (0x20 ≤ op) && decide (op ≤ 0x25)) || (decide (0x30 ≤ op) && decide (op ≤ 0x33))
    || (decide (0x40 ≤ op) && decide (op ≤ 0x44)) || (decide (0x50 ≤ op) && decide (op ≤ 0x59))

/-- The instruction at issue on a physical engine, with the program's instruction count. -/
def fetchIns (d : Dev) (e : Nat) : Option (Ic × Nat) :=
  match smFind d.running e with
  | none => none
  | some k =>
    match smFind d.launches k with
    | none => none
    | some z =>
      match smFind d.ctxs z.ctx with
      | none => none
      | some x =>
        match (launchEngines z).find? (fun i => physEngine d x i == e) with
        | none => none
        | some i =>
          let v := getE d z.ctx i
          if v.seq ≠ .running then none
          else
            match smFind x.progs z.slot with
            | none => none
            | some p =>
              let raw := nth 0#128 p.words v.pc
              let w := match v.patch with
                | some (pc, pw) => if pc = v.pc then pw else raw
                | none => raw
              some ({ ctx := z.ctx, idx := i, phys := e, launch := k, li := i - z.engFirst, pc := v.pc,
                      w0 := insWord w 0, w1 := insWord w 1, w2 := insWord w 2, w3 := insWord w 3 }, p.words.length)

/-- The end of loop bodies at index last: back to the innermost body's start while iterations are left (06 R194). -/
def loopNext (last npc : Nat) : List (Nat × Nat × Nat) → List (Nat × Nat × Nat) × Nat
  | [] => ([], npc)
  | (s, e, n) :: r =>
    if e = last then (if 1 < n then ((s, e, n - 1) :: r, s) else loopNext last npc r)
    else ((s, e, n) :: r, npc)

/-- Moves PC: to the next instruction, or to a jump's target; an instruction that ends a loop body repeats the body. -/
def movePc (d : Dev) (ctx i : Nat) (npc : Nat) (sequential : Bool) : Dev :=
  modE d ctx i (fun e =>
    if sequential then
      let (l, n) := loopNext (npc - 1) npc e.loops
      { e with loops := l, pc := n }
    else { e with pc := npc })

/-- Where an instruction leaves the sequencer: the state, the next index, and whether it comes by sequence. -/
structure Nx where
  dev : Dev
  pc : Nat
  seq : Bool

/-- The instruction is followed by the next one. -/
def nextIns (c : Ic) (d : Dev) : Ex Nx := .ok { dev := d, pc := c.pc + 1, seq := true }

/-- A stalled LWAIT notes when its stall began (06 R242). -/
def noteStall (d : Dev) (c : Ic) : Dev :=
  modE d c.ctx c.idx (fun e => { e with stallFrom := match e.stallFrom with | some a => some a | none => some (acycles d c.phys) })

/-- The fault of a reserved opcode: FIN_OPERAND in the finisher's class, CTL_OPERAND elsewhere (06 R191, 05 R183). -/
def reservedFault (op : Nat) : Nat := if 0x50 ≤ op ∧ op ≤ 0x5F then FIN_OPERAND else CTL_OPERAND

/-- A patch outlives an instruction only up to the one it patches, which keeps it while it stays at its PC (06 R198, R233). -/
def keptPatch (c : Ic) (npc : Nat) (p : Option (Nat × BitVec 128)) : Option (Nat × BitVec 128) :=
  p.filter (fun q => q.1 == c.pc + 1 || (q.1 == c.pc && npc == c.pc))

/-- Issues the instruction at PC of the engine if its opcode is op: a PC past the program raises CTL_RANGE and a reserved
opcode its class's fault; an engine whose instruction is another one, or that runs nothing, is left alone (06 R187, R191, R243). -/
def issue (op : Nat) (e : Nat) (body : Dev → Ic → Ex Nx) (d : Dev) : Dev :=
  match fetchIns d e with
  | none => d
  | some (c, n) =>
    let fail (code va line peg : Nat) : Dev :=
      endLaunchFault d c.launch { idx := c.li, line := line, peg := peg, pc := c.pc, va := va, code := code }
    if n ≤ c.pc then fail CTL_RANGE 0 0xFF 0xFF
    else if !opcodeKnown (opcodeOf c.w0) then fail (reservedFault (opcodeOf c.w0)) 0 0xFF 0xFF
    else if opcodeOf c.w0 ≠ op then d
    else
      match body d c with
      | .error .stall => if op = 0x22 then noteStall d c else d
      | .error (.fault code va line peg) => fail code va line peg
      | .ok x =>
        let d1 := modE x.dev c.ctx c.idx (fun v => { v with patch := keptPatch c x.pc v.patch })
        movePc d1 c.ctx c.idx x.pc x.seq

/-- Control instructions' reserved bits: 3:0 of the word at 0x00, and the word at 0x0C (06 R193). -/
def ctlReserved (c : Ic) : Bool := c.w0 % 16 != 0 || c.w3 != 0

end Sys2Proof.Machine
end

