-- ==== Sys2Proof/Machine/Engine.lean ====
section
/-! DEFINITION. Control, scalar, line, transfer and synchronisation instructions of an engine (06 R187 to R234). -/

namespace Sys2Proof.Machine

/-! ### Control and scalar instructions (06 R194) -/

/-- The launch's program's instruction count. -/
def icount (d : Dev) (c : Ic) : Nat :=
  match smFind d.launches c.launch, smFind d.ctxs c.ctx with
  | some z, some x => match smFind x.progs z.slot with | some p => p.words.length | none => 0
  | _, _ => 0

def doNop (d : Dev) (c : Ic) : Ex Nx := do
  failIf (ctlReserved c) CTL_OPERAND
  nextIns c d

/-- Transfers and signals of the transfer unit of an engine that have not completed. -/
def unitXfers (d : Dev) (ctx i : Nat) : List Xfer :=
  (d.xfers.map (·.2)).filter (fun x => x.ctx == ctx && x.idx == i &&
    (match x.kind with | .line _ _ _ _ => false | _ => true))

def doHalt (d : Dev) (c : Ic) : Ex Nx := do
  failIf (ctlReserved c) CTL_OPERAND
  stallIf (!(unitXfers d c.ctx c.idx).isEmpty)
  let d1 := modE d c.ctx c.idx (fun e => { e with seq := .halted, endCyc := acycles d c.phys })
  let allDone : Bool := match smFind d1.launches c.launch with
    | some z => (launchEngines z).all (fun i => decide ((getE d1 c.ctx i).seq = .halted))
    | none => false
  -- PC stays at the HALT, which a restored image would execute again (13 R505)
  return { dev := if allDone then endLaunchOk d1 c.launch else d1, pc := c.pc, seq := false }

/-- Conditions of BR by FUNC (06 R194). -/
def brTaken (f : Nat) (a b : Word) : Bool :=
  match f with
  | 0 => true
  | 1 => a == b
  | 2 => a != b
  | 3 => decide (a.toInt < b.toInt)
  | 4 => decide (b.toInt ≤ a.toInt)
  | 5 => decide (a.toNat < b.toNat)
  | _ => decide (b.toNat ≤ a.toNat)

def doBr (d : Dev) (c : Ic) : Ex Nx := do
  let f := fFUNC c.w0
  let e := getE d c.ctx c.idx
  failIf (ctlReserved c || decide (6 < f)) CTL_OPERAND
  failIf (decide (icount d c ≤ c.w1)) CTL_RANGE
  if brTaken f (sreg e (fSA c.w0)) (sreg e (fSB c.w0)) then
    return { dev := d, pc := c.w1, seq := decide (c.w1 = c.pc + 1) }
  else nextIns c d

def doLoop (d : Dev) (c : Ic) : Ex Nx := do
  let f := fFUNC c.w0
  let e := getE d c.ctx c.idx
  failIf (ctlReserved c || decide (1 < f)) CTL_OPERAND
  failIf (decide (icount d c ≤ c.w1) || decide (c.w1 < c.pc + 1) || decide (4 ≤ e.loops.length)) CTL_RANGE
  let n := if f = 1 then (sreg e (fSA c.w0)).toNat else c.w2
  if n = 0 then return { dev := d, pc := c.w1 + 1, seq := true }
  else nextIns c (modE d c.ctx c.idx (fun e => { e with loops := (c.pc + 1, c.w1, n) :: e.loops }))

def doCall (d : Dev) (c : Ic) : Ex Nx := do
  let e := getE d c.ctx c.idx
  failIf (ctlReserved c) CTL_OPERAND
  failIf (decide (icount d c ≤ c.w1) || decide (8 ≤ e.calls.length)) CTL_RANGE
  return { dev := modE d c.ctx c.idx (fun e => { e with calls := (c.pc + 1) :: e.calls }), pc := c.w1, seq := false }

def doRet (d : Dev) (c : Ic) : Ex Nx := do
  let e := getE d c.ctx c.idx
  failIf (ctlReserved c) CTL_OPERAND
  match e.calls with
  | [] => flt CTL_RANGE
  | r :: rs => return { dev := modE d c.ctx c.idx (fun e => { e with calls := rs }), pc := r, seq := false }

/-- Writes SD and goes on. -/
def writeSd (d : Dev) (c : Ic) (v : Word) : Ex Nx :=
  nextIns c (modE d c.ctx c.idx (fun e => setSreg e (fSD c.w0) v))

def doSli (d : Dev) (c : Ic) : Ex Nx := do
  failIf (ctlReserved c) CTL_OPERAND
  writeSd d c (BitVec.ofNat 32 c.w1)

/-- Scalar operations by FUNC 3:0; a shift takes the whole of B (06 R194). -/
def scalarOp (f : Nat) (a b : Word) : Word :=
  match f with
  | 0 => a + b
  | 1 => a - b
  | 2 => a &&& b
  | 3 => a ||| b
  | 4 => a ^^^ b
  | 5 => a <<< b.toNat
  | 6 => a >>> b.toNat
  | 7 => a.sshiftRight b.toNat
  | 8 => a * b
  | 9 => if a.toInt ≤ b.toInt then a else b
  | _ => if a.toInt ≤ b.toInt then b else a

def doSop (d : Dev) (c : Ic) : Ex Nx := do
  let f := fFUNC c.w0
  let e := getE d c.ctx c.idx
  failIf (ctlReserved c || decide (10 < f % 16)) CTL_OPERAND
  let b := if bit f 4 then BitVec.ofNat 32 c.w1 else sreg e (fSB c.w0)
  writeSd d c (scalarOp (f % 16) (sreg e (fSA c.w0)) b)

/-- The basket offset of SLD and SST. -/
def sldOff (d : Dev) (c : Ic) : Nat := (sreg (getE d c.ctx c.idx) (fSA c.w0)).toNat + c.w1

def sldCheck (d : Dev) (c : Ic) : Ex Nat := do
  let off := sldOff d c % 2 ^ 32
  (if off % 4 = 0 then .ok () else fltAt CTL_RANGE off : Ex Unit)
  basketOk d c.ctx c.idx off 4 CTL_RANGE
  return off

def doSld (d : Dev) (c : Ic) : Ex Nx := do
  failIf (ctlReserved c) CTL_OPERAND
  let off ← sldCheck d c
  let (bs, d1) := basketRead d c.ctx c.idx .sequencer off 4
  writeSd d1 c (BitVec.ofNat 32 (leNat bs))

def doSst (d : Dev) (c : Ic) : Ex Nx := do
  failIf (ctlReserved c) CTL_OPERAND
  let off ← sldCheck d c
  nextIns c (basketWrite d c.ctx c.idx .sequencer off (natLe 4 (sreg (getE d c.ctx c.idx) (fSB c.w0)).toNat))

/-- Special registers of MOVS (06 R199). -/
def special (d : Dev) (c : Ic) (n : Nat) : Option Word :=
  let e := getE d c.ctx c.idx
  let cyc := acycles d c.phys
  let count := match smFind d.launches c.launch with | some z => z.engCount | none => 0
  match n with
  | 0 => some (BitVec.ofNat 32 c.li)
  | 1 => some (BitVec.ofNat 32 count)
  | 2 => some (BitVec.ofNat 32 c.phys)
  | 3 => some (BitVec.ofNat 32 (d.host.deviceId.toNat % 2 ^ 13))
  | 4 => some (BitVec.ofNat 32 c.ctx)
  | 5 => some 256#32
  | 6 => some (BitVec.ofNat 32 (shareBytes d c.ctx / 64))
  | 7 => some (BitVec.ofNat 32 cyc)
  | 8 => some (BitVec.ofNat 32 (cyc / 2 ^ 32))
  | _ => if 16 ≤ n ∧ n ≤ 31 then some (lineWord (lineOf e (n - 16))) else none

def doMovs (d : Dev) (c : Ic) : Ex Nx := do
  failIf (ctlReserved c) CTL_OPERAND
  match special d c c.w1 with
  | none => flt CTL_OPERAND
  | some v => writeSd d c v

/-- A patch of XADD: register, word, lowest bit, width (06 R197). -/
structure Patch where
  sr : Nat
  word : Nat
  low : Nat
  width : Nat
  deriving DecidableEq, Repr

def patchOf (w : Nat) : Option Patch :=
  if bit w 14 then some { sr := bits w 31 27, word := bits w 26 25, low := bits w 24 20, width := bits w 19 15 + 1 } else none

/-- A field beyond the word, or one that overlaps the opcode (06 R198). -/
def patchBad (p : Patch) : Bool := decide (32 < p.low + p.width) || (p.word == 0 && decide (24 < p.low + p.width))

def patchOverlap (p q : Patch) : Bool :=
  p.word == q.word && decide (p.low < q.low + q.width) && decide (q.low < p.low + p.width)

/-- Two of the enabled patches overlap: an XADD has at most three (06 R197, R198). -/
def patchClash : List Patch → Bool
  | [p, q] => patchOverlap p q
  | [p, q, r] => patchOverlap p q || patchOverlap p r || patchOverlap q r
  | _ => false

/-- Adds a register into its field without carry (06 R198). -/
def applyPatch (e : EngCtx) (w : BitVec 128) (p : Patch) : BitVec 128 :=
  let sh := 32 * p.word + p.low
  let old := w.toNat / 2 ^ sh % 2 ^ p.width
  let new := (old + (sreg e p.sr).toNat) % 2 ^ p.width
  BitVec.ofNat 128 (w.toNat - old * 2 ^ sh + new * 2 ^ sh)

def doXadd (d : Dev) (c : Ic) : Ex Nx := do
  let ws := [c.w1, c.w2, c.w3]
  let e := getE d c.ctx c.idx
  failIf (c.w0 % 2 ^ 24 != 0 || ws.any (fun w => w % 2 ^ 14 != 0)) CTL_OPERAND
  failIf (decide (icount d c ≤ c.pc + 1)) CTL_RANGE
  let ps := ws.filterMap patchOf
  failIf (ps.any patchBad || patchClash ps) CTL_OPERAND
  let target := match smFind d.launches c.launch, smFind d.ctxs c.ctx with
    | some z, some x => match smFind x.progs z.slot with | some p => nth 0#128 p.words (c.pc + 1) | none => 0#128
    | _, _ => 0#128
  failIf (decide (opcodeOf (insWord target 0) < 0x20)) CTL_ORDER
  let w := ps.foldl (applyPatch e) target
  nextIns c (modE d c.ctx c.idx (fun e => { e with patch := some (c.pc + 1, w) }))

def doFdset (d : Dev) (c : Ic) : Ex Nx := do
  failIf (ctlReserved c || decide (15 < fFUNC c.w0)) CTL_OPERAND
  nextIns c (modE d c.ctx c.idx (fun e =>
    { e with fd := smSet 0#64 e.fd (fFUNC c.w0) (BitVec.ofNat 32 c.w2 ++ BitVec.ofNat 32 c.w1) }))

/-- BFENCE hands over what the named units have written; it waits for transfers of the engine whose basket writes, here or on
another engine, are still to land. The line unit's part are the bytes that have landed: a stream that goes on is not waited for
(06 R189, R194; log 7). -/
def doBfence (d : Dev) (c : Ic) : Ex Nx := do
  let m := fFUNC c.w0
  failIf (ctlReserved c || decide (15 < m)) CTL_OPERAND
  stallIf (bit m 3 && (unitXfers d c.ctx c.idx).any (fun x => lands x.kind))
  nextIns c (handOver d c.ctx c.idx (fun z =>
    (bit m 0 && decide (z.who = .press)) || (bit m 1 && decide (z.who = .finisher))
      || (bit m 2 && decide (z.who = .line)) || (bit m 3 && decide (writerOf z.who = .transfer))))
where
  /-- The transfer writes a basket. -/
  lands : XKind → Bool
    | .toBasket => true
    | .toEngine _ => true
    | _ => false

/-! ### Line instructions (06 R208, R215 to R220) -/

def fLine (w0 : Nat) : Nat := bits w0 23 20
def fLineSD (w0 : Nat) : Nat := bits w0 19 15

/-- A line fault that names the line. -/
def lineFlt {α : Type} (code n : Nat) : Ex α := .error (.fault code 0 n 0xFF)

/-- Fails with a range fault of a line at a basket offset when the condition holds (06 R244). -/
def lineAt (c : Bool) (off n : Nat) : Ex Unit := if c then .error (.fault LINE_RANGE off n 0xFF) else .ok ()

/-- Fails with a line fault when the condition holds. -/
def lineIf (c : Bool) (code n : Nat) : Ex Unit := if c then lineFlt code n else .ok ()

def lineReserved (c : Ic) : Bool := c.w0 % 2 ^ 15 != 0 || c.w1 != 0 || c.w2 != 0 || c.w3 != 0

/-- What LSET refuses as LINE_OPERAND (06 R208). -/
def ldBad (x : List Byte) : Bool :=
  let a := if ldExpand x = 0 then 64 else 1024
  let pc := ldPegCfg x
  let r := ldReg x
  decide (2 ^ 52 ≤ field x 0 8) || decide (2 ^ 52 ≤ field x 8 8) || (ldExpand x == 0 && field x 8 8 != 0)
  || pc % 8 != 0 || decide (ldSlots x < 3)
  || decide (1 < ldMode x) || decide (2 < ldExpand x) || bits (ldList x) 14 0 != 0 || field x 0x3C 4 != 0
  || ldSrc x % a != 0 || ldScale x % a != 0 || field x 0x10 8 % a != 0 || field x 0x18 8 % a != 0 || ldRun x % a != 0
  || decide (ldRun x < 64) || decide (2 ^ 31 < ldRun x)
  || ldPegBytes x == 0 || ldPegBytes x % 64 != 0 || decide (ldPegSize x < ldPegBytes x)
  || (ldExpand x != 0 && ldPegBytes x % 2112 != 0)
  || decide (ldCount1 x = 0) || decide ((if ldMode x = 1 then 4096 else 2 ^ 20) < ldCount1 x)
  || decide (ldCount2 x = 0) || decide ((if ldMode x = 1 then 1 else 2 ^ 20) < ldCount2 x)
  || ldMaxOut x == 0 || decide (8 < ldBurst x) || bits r 3 0 != ldExpand x

/-- The pegs of two descriptors share bytes. -/
def pegsOverlap (x y : List Byte) : Bool :=
  decide (ldPegBase x < ldPegBase y + ldSlots y * ldPegSize y) && decide (ldPegBase y < ldPegBase x + ldSlots x * ldPegSize x)

def doLset (d : Dev) (c : Ic) : Ex Nx := do
  let n := fLine c.w0
  let e := getE d c.ctx c.idx
  lineIf (c.w0 % 2 ^ 15 != 0 || c.w1 % 2 ^ 15 != 0 || c.w2 != 0 || c.w3 != 0) LINE_OPERAND n
  stallIf (decide ((lineOf e n).state = .cancelling))
  let off := 64 * bits c.w1 31 15
  let share := shareBytes d c.ctx
  lineAt (decide (share < off + 64)) off n
  basketOk d c.ctx c.idx off 64 LINE_RANGE
  let (x, d1) := basketRead d c.ctx c.idx .line off 64
  lineIf (ldBad x) LINE_OPERAND n
  lineIf (decide ((lineOf e n).state ≠ .idle)) LINE_RANGE n
  lineAt (decide (share < ldPegBase x + ldSlots x * ldPegSize x)) (ldPegBase x) n
  lineAt (ldMode x == 1 && decide (share < listBase x + 8 * ldCount1 x)) (listBase x) n
  lineAt (e.lines.any (fun p => p.1 != n && decide (p.2.state ≠ .idle) && pegsOverlap x p.2.desc)) (ldPegBase x) n
  nextIns c (modE d1 c.ctx c.idx (fun e => setLine e n { state := .ready, desc := x }))

def doLstart (d : Dev) (c : Ic) : Ex Nx := do
  let n := fLine c.w0
  let l := lineOf (getE d c.ctx c.idx) n
  lineIf (lineReserved c) LINE_OPERAND n
  lineIf (decide (l.state ≠ .ready)) LINE_ORDER n
  nextIns c (modE d c.ctx c.idx (fun e => setLine e n
    { l with state := .running, head := 0, tail := 0, rel := 0, pos := 0,
             pegs := List.replicate (ldSlots l.desc) {}, credit := 64 * ldRate l.desc }))

/-- What is left of an entry of the line unit once its bytes from lo up to hi have been handed over. -/
def trimDirty (lo hi : Nat) (z : Dirty) : List Dirty :=
  if decide (z.who = .line) && decide (z.lo < hi) && decide (lo < z.hi) then
    (if z.lo < lo then [{ z with hi := lo }] else []) ++ (if hi < z.hi then [{ z with lo := hi }] else [])
  else [z]

/-- The HEAD peg is FULL and is returned: TAKEN, with its address and byte count (06 R215, R218). -/
def takePeg (d : Dev) (c : Ic) (n : Nat) (l : Line) : Dev :=
  let k := slotOf l l.head
  let off := slotOff l.desc k
  let bytes := dstLen l.desc (pegSrcLen l.desc l.head)
  let sd := fLineSD c.w0
  let d1 := modE d c.ctx c.idx (fun e =>
    let e1 := setLine e n { setPeg l k { pegAt l k with state := .taken } with head := l.head + 1 }
    let e2 := setSreg (setSreg e1 sd (BitVec.ofNat 32 (off / 64))) (sd + 1) (BitVec.ofNat 32 bytes)
    { e2 with stalled := e2.stalled + (match e2.stallFrom with | some a => acycles d c.phys - a | none => 0),
              stallFrom := none })
  modE d1 c.ctx c.idx (fun e => { e with dirty := e.dirty.flatMap (trimDirty off (off + bytes)) })

def doLwait (d : Dev) (c : Ic) : Ex Nx := do
  let n := fLine c.w0
  let l := lineOf (getE d c.ctx c.idx) n
  lineIf (lineReserved c) LINE_OPERAND n
  lineIf (fLineSD c.w0 == 31) LINE_OPERAND n
  lineIf (decide (l.state = .idle ∨ l.state = .ready ∨ l.state = .cancelling)) LINE_ORDER n
  lineIf (decide (l.head = streamPegs l.desc ∨ countPegs l .taken = ldSlots l.desc)) LINE_ORDER n
  let s := pegAt l (slotOf l l.head)
  if s.state = .full ∧ s.peg = l.head then nextIns c (takePeg d c n l)
  else if l.state = .faulted ∧ l.head = l.faultPeg ∧ (unitXfers d c.ctx c.idx).isEmpty then
    -- precise: every earlier transfer has completed (06 R245)
    .error (.fault l.fault l.faultVa n l.faultPeg)
  else .error .stall

def doLrel (d : Dev) (c : Ic) : Ex Nx := do
  let n := fLine c.w0
  let l := lineOf (getE d c.ctx c.idx) n
  lineIf (lineReserved c) LINE_OPERAND n
  lineIf (countPegs l .taken == 0) LINE_ORDER n
  let l1 := { setPeg l (slotOf l l.rel) {} with rel := l.rel + 1 }
  let l2 := if l.state = .done ∧ l1.rel = streamPegs l.desc then {} else l1
  nextIns c (modE d c.ctx c.idx (fun e => setLine e n l2))

def doLcancel (d : Dev) (c : Ic) : Ex Nx := do
  let n := fLine c.w0
  lineIf (lineReserved c) LINE_OPERAND n
  nextIns c (cancelLine d c.ctx c.idx n (some c.launch))

def doLstat (d : Dev) (c : Ic) : Ex Nx := do
  let n := fLine c.w0
  lineIf (lineReserved c) LINE_OPERAND n
  nextIns c (modE d c.ctx c.idx (fun e => setSreg e (fLineSD c.w0) (lineWord (lineOf e n))))

/-! ### Transfers and synchronisation (06 R230 to R234) -/

def xDir (w0 : Nat) : Nat := bits w0 23 22
def xSig (w0 : Nat) : Bool := bit w0 21
def xEngine (w0 : Nat) : Nat := bits w0 20 14
def xSem (w0 : Nat) : Nat := bits w0 13 10

/-- Engines in the launch of an instruction. -/
def launchCount (d : Dev) (c : Ic) : Nat := match smFind d.launches c.launch with | some z => z.engCount | none => 0

/-- Context engine index of an engine by launch index. -/
def ofLaunchIndex (d : Dev) (k li : Nat) : Nat := match smFind d.launches k with | some z => z.engFirst + li | none => li

/-- Transfers outstanding of an engine, lines and transfer unit together (06 R214). -/
def outstanding (d : Dev) (ctx i : Nat) : Nat :=
  (d.xfers.filter (fun p => p.2.ctx == ctx && p.2.idx == i && (match p.2.kind with | .sig _ => false | _ => true))).length

def addXfer (d : Dev) (x : Xfer) : Nat × Dev :=
  (d.nextXfer, { d with nextXfer := d.nextXfer + 1, xfers := smPut d.xfers d.nextXfer x })

/-- Increments a semaphore of engine i of a context; false when it would pass 65,535, where it saturates (06 R231). -/
def bumpSem (d : Dev) (ctx i n : Nat) : Dev × Bool :=
  let v := smGet 0 (getE d ctx i).sem n
  (modE d ctx i (fun e => { e with sem := smSet 0 e.sem n (min (v + 1) 65535) }), decide (v < 65535))

/-- Earlier transfers or signals from engine i to engine dst of the context are still to take effect (06 R232). -/
def earlierTo (d : Dev) (ctx i dst below : Nat) : Bool :=
  d.xfers.any (fun p => decide (p.1 < below) && p.2.ctx == ctx && p.2.idx == i &&
    (match p.2.kind with | .toEngine k => k == dst | .sig k => k == dst | _ => false))

def doSig (d : Dev) (c : Ic) : Ex Nx := do
  let dst := xEngine c.w0
  failIf (c.w0 % 2 ^ 10 != 0 || bits c.w0 23 21 != 0 || c.w1 != 0 || c.w2 != 0 || c.w3 != 0
    || decide (launchCount d c ≤ dst)) XFER_RANGE
  let to_ := ofLaunchIndex d c.launch dst
  if earlierTo d c.ctx c.idx to_ d.nextXfer then
    let (_, d1) := addXfer d { kind := .sig to_, launch := c.launch, ctx := c.ctx, idx := c.idx, va := 0, off := 0, roff := 0, len := 0,
                               sem := some (xSem c.w0), drain := false, tags := [], pc := c.pc, data := [] }
    nextIns c d1
  else
    let (d1, ok) := bumpSem d c.ctx to_ (xSem c.w0)
    if ok then nextIns c d1 else flt XFER_RANGE

def doSwait (d : Dev) (c : Ic) : Ex Nx := do
  failIf (bits c.w0 23 14 != 0 || c.w1 != 0 || c.w2 != 0 || c.w3 != 0) XFER_RANGE
  let n := xSem c.w0
  let count := bits c.w0 9 0
  let v := smGet 0 (getE d c.ctx c.idx).sem n
  stallIf (decide (v < count))
  let d1 := modE d c.ctx c.idx (fun e => { e with sem := smSet 0 e.sem n (v - count) })
  nextIns c (handOver d1 c.ctx c.idx (fun z => match z.who with
    | .remote (some k) => k == n | .remote none => true | .signalled k => k == n | _ => false))

/-- The last engine of the launch to issue the barrier releases every other one (06 R233). -/
def releaseBar (d : Dev) (c : Ic) : Dev :=
  match smFind d.launches c.launch with
  | none => d
  | some z => (launchEngines z).foldl (fun d i =>
      if i = c.idx then modE d c.ctx i (fun e => { e with barAt := none })
      else
        let p := (getE d c.ctx i).pc
        movePc (modE d c.ctx i (fun e => { e with barAt := none, patch := none })) c.ctx i (p + 1) true) d

def doBar (d : Dev) (c : Ic) : Ex (Bool × Dev) := do
  failIf (bits c.w0 23 14 != 0 || bits c.w0 9 0 != 0 || c.w1 != 0 || c.w2 != 0 || c.w3 != 0) XFER_RANGE
  let n := xSem c.w0
  let d1 := modE d c.ctx c.idx (fun e => { e with barAt := some n })
  let all : Bool := match smFind d.launches c.launch with
    | some z => (launchEngines z).all (fun i => decide ((getE d1 c.ctx i).barAt = some n))
    | none => false
  return (all, if all then releaseBar d1 c else d1)

/-! ### The rows -/

/-- NOP (06 R194). -/
def execNop (e : Fin 96) (s : State) : Host.Outcome State Fault Refusal := onDev s (issue 0x00 e doNop)
/-- HALT (06 R194, R242). -/
def execHalt (e : Fin 96) (s : State) : Host.Outcome State Fault Refusal := onDev s (issue 0x01 e doHalt)
/-- BR (06 R194, R195). -/
def execBr (e : Fin 96) (s : State) : Host.Outcome State Fault Refusal := onDev s (issue 0x02 e doBr)
/-- LOOP (06 R194, R195). -/
def execLoop (e : Fin 96) (s : State) : Host.Outcome State Fault Refusal := onDev s (issue 0x03 e doLoop)
/-- CALL (06 R194, R195). -/
def execCall (e : Fin 96) (s : State) : Host.Outcome State Fault Refusal := onDev s (issue 0x04 e doCall)
/-- RET (06 R194, R195). -/
def execRet (e : Fin 96) (s : State) : Host.Outcome State Fault Refusal := onDev s (issue 0x05 e doRet)
/-- SLI (06 R194). -/
def execSli (e : Fin 96) (s : State) : Host.Outcome State Fault Refusal := onDev s (issue 0x06 e doSli)
/-- SOP (06 R194). -/
def execSop (e : Fin 96) (s : State) : Host.Outcome State Fault Refusal := onDev s (issue 0x07 e doSop)
/-- SLD (06 R194, R195). -/
def execSld (e : Fin 96) (s : State) : Host.Outcome State Fault Refusal := onDev s (issue 0x08 e doSld)
/-- SST (06 R194, R195). -/
def execSst (e : Fin 96) (s : State) : Host.Outcome State Fault Refusal := onDev s (issue 0x09 e doSst)
/-- MOVS (06 R199). -/
def execMovs (e : Fin 96) (s : State) : Host.Outcome State Fault Refusal := onDev s (issue 0x0A e doMovs)
/-- XADD (06 R197, R198). -/
def execXadd (e : Fin 96) (s : State) : Host.Outcome State Fault Refusal := onDev s (issue 0x0B e doXadd)
/-- FDSET (06 R194, R196). -/
def execFdset (e : Fin 96) (s : State) : Host.Outcome State Fault Refusal := onDev s (issue 0x0C e doFdset)
/-- BFENCE (06 R189, R194). -/
def execBfence (e : Fin 96) (s : State) : Host.Outcome State Fault Refusal := onDev s (issue 0x0D e doBfence)
/-- LSET (06 R208). -/
def execLset (e : Fin 96) (s : State) : Host.Outcome State Fault Refusal := onDev s (issue 0x20 e doLset)
/-- LSTART (06 R213, R215). -/
def execLstart (e : Fin 96) (s : State) : Host.Outcome State Fault Refusal := onDev s (issue 0x21 e doLstart)
/-- LWAIT (06 R215, R217, R218). -/
def execLwait (e : Fin 96) (s : State) : Host.Outcome State Fault Refusal := onDev s (issue 0x22 e doLwait)
/-- LREL (06 R215, R216, R220). -/
def execLrel (e : Fin 96) (s : State) : Host.Outcome State Fault Refusal := onDev s (issue 0x23 e doLrel)
/-- LCANCEL (06 R226). -/
def execLcancel (e : Fin 96) (s : State) : Host.Outcome State Fault Refusal := onDev s (issue 0x24 e doLcancel)
/-- LSTAT (06 R215, R219). -/
def execLstat (e : Fin 96) (s : State) : Host.Outcome State Fault Refusal := onDev s (issue 0x25 e doLstat)
/-- SIG (06 R231, R232). -/
def execSig (e : Fin 96) (s : State) : Host.Outcome State Fault Refusal := onDev s (issue 0x31 e doSig)
/-- SWAIT (06 R231, R232). -/
def execSwait (e : Fin 96) (s : State) : Host.Outcome State Fault Refusal := onDev s (issue 0x32 e doSwait)
/-- BAR (06 R233): an engine that waits stays at its BAR until the last arrival moves it on. -/
def execBar (e : Fin 96) (s : State) : Host.Outcome State Fault Refusal :=
  onDev s (fun d => issue 0x33 e (fun d c => do
    let (all, d1) ← doBar d c
    return (if all then { dev := d1, pc := c.pc + 1, seq := true } else { dev := d1, pc := c.pc, seq := false })) d)

end Sys2Proof.Machine
end

