-- ==== Sys2Proof/Machine/Crc.lean ====
section
/-! DEFINITION. CRC-32C (10 R392, 11 R427, 16 R574), and the CRC-32 of an Ethernet frame (10 R402). -/

namespace Sys2Proof.Machine

/-- One bit of the reflected division by a polynomial. -/
def crcBit (poly c : Word) : Word := if c.getLsbD 0 then (c >>> 1) ^^^ poly else c >>> 1

def crcByte (poly c : Word) (b : Byte) : Word :=
  let f := crcBit poly
  f (f (f (f (f (f (f (f (c ^^^ b.setWidth 32))))))))

def crcOf (poly : Word) (bs : List Byte) : Word := bs.foldl (crcByte poly) 0xFFFFFFFF#32 ^^^ 0xFFFFFFFF#32

/-- CRC-32C of a byte string: the Castagnoli polynomial. -/
def crc32c (bs : List Byte) : Word := crcOf 0x82F63B78#32 bs

/-- The FCS of a frame: the CRC-32 of IEEE 802.3 Clause 3, least significant byte first (R388, R402). -/
def fcs32 (bs : List Byte) : List Byte := natLe 4 (crcOf 0xEDB88320#32 bs).toNat

end Sys2Proof.Machine
end

