-- ==== Sys2Proof/Machine/FabricOps.lean ====
section
/-! DEFINITION. Sending packets: the fabric table, routing, half-port queues, flits, frames and outstanding requests
(10 R385 to R412). -/

namespace Sys2Proof.Machine

/-- The table of a kind in force, empty where there is none (16 R589). -/
def tableOf (d : Dev) (kind inst : Nat) : List Byte := smGet [] d.tables (256 * kind + inst)

def kindCommand : Nat := 0x01
def kindArbiter : Nat := 0x02
def kindPartition : Nat := 0x03
def kindBudget : Nat := 0x04
def kindFabric : Nat := 0x05
def kindEqual : Nat := 0x06
def kindGroup : Nat := 0x07
def kindKv : Nat := 0x08
def kindWeights : Nat := 0x09
def kindServing : Nat := 0x0A
def kindEdges : Nat := 0x0B

def fabTable (d : Dev) : List Byte := tableOf d kindFabric 0

/-- The pair bit and device id of this part (17 R612). -/
def myId (d : Dev) : Nat := d.host.deviceId.toNat % 2 ^ 13

def nodeSize (d : Dev) : Nat := let n := field (fabTable d) 0 1; if n = 0 then 1 else n
def ethMask (d : Dev) : Nat := field (fabTable d) 4 4
def splitMask (d : Dev) : Nat := field (fabTable d) 8 4
def fabVlan (d : Dev) : Nat := field (fabTable d) 0x0C 2
def fabPcp (d : Dev) (vc : Nat) : Nat := bits (field (fabTable d) 0x0E 2) (3 * vc + 2) (3 * vc)
def fabRto (d : Dev) : Nat := field (fabTable d) 0x10 4
def fabReqTimeout (d : Dev) : Nat := field (fabTable d) 0x14 4
def fabWeight (d : Dev) (cls : Nat) : Nat :=
  if (fabTable d).isEmpty then nth 0 [32, 64, 192, 160, 32] cls else field (fabTable d) (0x20 + 4 * cls) 4
def fabMedia (d : Dev) (p : Nat) : Nat := bits (field (fabTable d) 0x18 8) (2 * p + 1) (2 * p)

/-- Configuration of a half-port: 0 OFF, 1 DIRECT, 2 ETHERNET, 3 ETHERNET split (10 R385, R386, R407). -/
def portConfig (d : Dev) (h : Nat) : Nat :=
  let p := h / 2
  if (fabTable d).isEmpty then 0
  else if p + 2 ≤ nodeSize d then (if h % 2 = 0 then 1 else 0)
  else if bit (ethMask d) p then (if bit (splitMask d) p then 3 else if h % 2 = 0 then 2 else 0)
  else 0

def portOf (d : Dev) (h : Nat) : HalfPort := smGet {} d.fabric.ports h

def setPort (d : Dev) (h : Nat) (p : HalfPort) : Dev :=
  { d with fabric := { d.fabric with ports := smSet {} d.fabric.ports h p } }

def modPort (d : Dev) (h : Nat) (f : HalfPort → HalfPort) : Dev := setPort d h (f (portOf d h))

def isUp (d : Dev) (h : Nat) : Bool := decide ((portOf d h).state = .up)

/-! ### Packets as bytes (10 R399) -/

def packetBytes (p : Packet) : List Byte :=
  natLe 2 (p.dst % 2 ^ 13 + b2n p.fwd * 2 ^ 15) ++ natLe 2 (p.src % 2 ^ 13) ++ natLe 1 (p.kind % 64 + p.vc % 4 * 64)
    ++ natLe 1 p.ctx ++ natLe 2 (p.len % 2 ^ 13) ++ natLe 2 p.tag ++ natLe 6 (p.addr % 2 ^ 46) ++ p.data

/-- The packet whose 16 header bytes and payload these are; READ carries no payload. -/
def packetOf (bs : List Byte) : Packet :=
  let kind := bits (field bs 4 1) 5 0
  let len := field bs 6 2 % 2 ^ 13
  { dst := field bs 0 2 % 2 ^ 13, fwd := bit (field bs 0 2) 15, src := field bs 2 2 % 2 ^ 13, kind := kind,
    vc := bits (field bs 4 1) 7 6, ctx := field bs 5 1, len := len, tag := field bs 8 2,
    addr := field bs 10 6 % 2 ^ 46, data := if kind = 1 then [] else slice bs 16 len }

/-- Bytes of a packet on the wire. -/
def packetSize (p : Packet) : Nat := 16 + p.data.length

/-- Credits a packet occupies (10 R398). -/
def packetCredits (p : Packet) : Nat := ceilDiv (packetSize p) 256

def pkRead : Nat := 0x01
def pkWrite : Nat := 0x02
def pkReadData : Nat := 0x03
def pkWriteAck : Nat := 0x04
def pkReadErr : Nat := 0x05
def pkColl : Nat := 0x10
def pkMsg : Nat := 0x20

/-- The virtual channel of a kind (10 R400). -/
def vcOfKind (k : Nat) : Nat :=
  if k = pkRead ∨ k = pkWrite then 0 else if k = pkColl then 2 else if k = pkMsg then 3 else 1

/-- Egress class of a packet (10 R411). -/
def egressClass (p : Packet) (forwarded : Bool) : Nat :=
  if forwarded then 4 else match p.vc with | 0 => 1 | 1 => 2 | 2 => 3 | _ => 0

/-! ### Routing (10 R408 to R410) -/

def queuedBytes (p : HalfPort) : Nat := (p.queued.map (fun q => packetSize q.2)).sum

/-- Bytes queued as the choice of a half-port counts them (10 R410). -/
def weighedBytes (d : Dev) (h : Nat) : Nat :=
  let p := portOf d h
  if p.degraded || portConfig d h == 3 then 2 * queuedBytes p else queuedBytes p

/-- The UP half-port of the Ethernet group with the fewest bytes queued (10 R410). -/
def ethChoice (d : Dev) : Option Nat :=
  ((span 0 36).filter (fun h => decide (2 ≤ portConfig d h) && isUp d h)).foldl (fun b h =>
    match b with
    | none => some h
    | some g => if weighedBytes d h < weighedBytes d g then some h else some g) none

/-- The direct port from member a to member b of a node (10 R408). -/
def directPort (n a b : Nat) : Nat := (b + 2 * n - a - 1) % n

/-- The half-port for a destination and whether the packet is forwarded by another member; none: unreachable
(10 R408 to R410). A part that forwards uses its direct port only. -/
def routeTo (d : Dev) (dst : Nat) : Option (Nat × Bool) :=
  let n := nodeSize d
  let me := myId d
  let sid := me % 4096
  let did := dst % 4096
  if dst / 4096 = me / 4096 ∧ did / n = sid / n then
    let p := directPort n (sid % n) (did % n)
    if isUp d (2 * p) then some (2 * p, false)
    else match ethChoice d with
      | some h => some (h, false)
      | none =>
        match (span 0 n).find? (fun k => k != sid % n && k != did % n && isUp d (2 * directPort n (sid % n) k)) with
        | some k => some (2 * directPort n (sid % n) k, true)
        | none => none
  else (ethChoice d).map (fun h => (h, false))

/-- Sends a packet: it stays on the part, waits on a half-port, or has no way out (10 R408). -/
def sendPacket (d : Dev) (p : Packet) : Option (Nat × Dev) :=
  if p.dst = myId d then some (36, { d with fabric := { d.fabric with rxq := d.fabric.rxq ++ [(36, p)] } })
  else match routeTo d p.dst with
    | none => none
    | some (h, fwd) =>
      some (h, modPort d h (fun q => { q with queued := q.queued ++ [(egressClass p false, { p with fwd := fwd })] }))

/-- Sends a packet; one that has no way out is dropped (10 R409). -/
def sendOrDrop (d : Dev) (p : Packet) : Dev := match sendPacket d p with | some (_, d') => d' | none => d

/-- A packet of this part to a destination. -/
def mkPacket (d : Dev) (dst kind ctx tag va len : Nat) (data : List Byte) : Packet :=
  { dst := dst, fwd := false, src := myId d, kind := kind, vc := vcOfKind kind, ctx := ctx, len := len, tag := tag,
    addr := va / 64, data := data }

/-! ### Outstanding requests (10 R401) -/

/-- TAGs held by failed requests are free again after 2 × REQ_TIMEOUT. -/
def reapTags (d : Dev) : Dev :=
  { d with fabric := { d.fabric with outst := d.fabric.outst.filter (fun p =>
      !(p.2.dead && decide (p.2.at_ + 800 * fabReqTimeout d ≤ d.now))) } }

/-- The next TAG not in use. -/
def freeTag (m : SMap Outst) (t : Nat) : Nat → Option Nat
  | 0 => none
  | fuel + 1 => if (smFind m t).isNone then some t else freeTag m ((t + 1) % 65536) fuel

/-- What became of a request. -/
inductive Asked where
  | sent (tag : Nat) (d : Dev)
  | unreachable
  | full
  deriving DecidableEq, Repr

/-- Issues a READ or WRITE request of at most 4 KiB (10 R401). -/
def fabRequest (d0 : Dev) (use : ReqFor) (dst kind ctx va len : Nat) (data : List Byte) : Asked :=
  let d := reapTags d0
  if 16384 ≤ (d.fabric.outst.filter (fun p => !p.2.dead)).length then .full
  else match freeTag d.fabric.outst d.fabric.nextTag (d.fabric.outst.length + 1) with
    | none => .full
    | some t =>
      match sendPacket d (mkPacket d dst kind ctx t va len data) with
      | none => .unreachable
      | some (h, d1) =>
        let o : Outst := { dst := dst, use := use, port := h, dead := false, at_ := d.now }
        .sent t { d1 with fabric := { d1.fabric with outst := smPut d1.fabric.outst t o, nextTag := (t + 1) % 65536 } }

/-- A request's TAG is not used again for a while: its request has failed (10 R401). -/
def killTag (d : Dev) (t : Nat) : Dev :=
  { d with fabric := { d.fabric with outst := smUpd d.fabric.outst t (fun o => { o with dead := true, at_ := d.now }) } }

def freeTagOf (d : Dev) (t : Nat) : Dev := { d with fabric := { d.fabric with outst := smErase d.fabric.outst t } }

/-! ### Direct-mode flits (10 R392 to R394) -/

/-- The credit return a flit carries: the first channel that is owed any (10 R393). -/
def creditReturn (owed : List Nat) : Nat × Nat :=
  match owed.findIdx? (fun n => n != 0) with
  | some vc => (vc, min (nth 0 owed vc) 255)
  | none => (0, 0)

/-- A flit of 1,024 bytes with its CRC (10 R392). -/
def flitBytes (ty seq ack vc credits : Nat) (body : List Byte) : List Byte :=
  let h := natLe 4 (ty * 2 ^ 30 + seq * 2 ^ 20 + ack * 2 ^ 10 + vc * 2 ^ 8 + credits)
  let b := h ++ slice body 0 1016
  b ++ natLe 4 (crc32c b).toNat

/-- Sends one flit on a direct port; every flit carries ACK and a credit return (10 R393). -/
def sendFlit (d : Dev) (h ty seq : Nat) (body : List Byte) : Dev :=
  let p := portOf d h
  let (vc, n) := creditReturn p.owed
  let ack := (p.rxNext + 1023) % 1024
  let d1 := modPort d h (fun p => { p with owed := setNth p.owed vc (nth 0 p.owed vc - n) })
  emit d1 (.flit h (flitBytes ty seq ack vc n body))

/-- Sends a CTRL flit: 0 NAK, 1 IDENT, 2 RETRAIN (10 R393). -/
def sendCtrl (d : Dev) (h message argument : Nat) : Dev :=
  sendFlit d h 2 0 ((span 0 1016).map (Config.ctrlByte message argument))

/-- Flits still unacknowledged. -/
def unackedFlits (p : HalfPort) : Nat := p.retry.length

/-- Sends the next DATA flit and keeps it for replay (10 R393, R394). -/
def sendData (d : Dev) (h : Nat) (body : List Byte) : Dev :=
  let seq := (portOf d h).txSeq
  let d1 := sendFlit d h 1 seq body
  modPort d1 h (fun p => { p with
    txSeq := (seq + 1) % 1024, retry := p.retry ++ [(seq, slice body 0 1016)], ackAt := if p.retry.isEmpty then d.now else p.ackAt })

/-- Sends the whole flit bodies of a port's byte stream: at most fuel. -/
def sendWhole (h : Nat) : Nat → Dev → Dev
  | 0, d => d
  | fuel + 1, d =>
    let p := portOf d h
    if p.txBuf.length < 1016 then d
    else sendWhole h fuel (sendData (modPort d h (fun p => { p with txBuf := p.txBuf.drop 1016 })) h (p.txBuf.take 1016))

/-- Sends the last body of a port's byte stream, the rest of it zero, when no packet follows (10 R392). -/
def flushBody (d : Dev) (h : Nat) : Dev :=
  let p := portOf d h
  if p.txBuf.isEmpty then d else sendData (modPort d h (fun p => { p with txBuf := [] })) h p.txBuf

/-- The byte stream with a packet behind it, back to back. A packet whose first bytes would leave the end of a body zero, which a
receiver takes for unused, begins with the next body (10 R392; log 28). -/
def withPacket (buf bs : List Byte) : List Byte :=
  let room := (1016 - buf.length % 1016) % 1016
  if zeros (bs.take room) then buf ++ List.replicate room 0#8 ++ bs else buf ++ bs

/-- Starts a packet on a direct port: its bytes follow those of the packet before (10 R392). It is lost with the port until the flit
that ends it is acknowledged (R396). -/
def sendPacketFlits (d : Dev) (h : Nat) (p : Packet) : Dev :=
  let buf := withPacket (portOf d h).txBuf (packetBytes p)
  sendWhole h (buf.length / 1016) (modPort d h (fun q => { q with
    txBuf := buf, inRetry := q.inRetry ++ [((q.txSeq + (buf.length - 1) / 1016) % 1024, p)] }))

/-- Sends the flits from a SEQ on again (10 R395). -/
def replayFrom (d : Dev) (h seq : Nat) : Dev :=
  (((portOf d h).retry).dropWhile (fun f => f.1 != seq)).foldl (fun d f => sendFlit d h 1 f.1 f.2)
    (modPort d h (fun p => { p with ackAt := d.now }))

/-- Sends an IDLE flit, which returns ACK and credits (10 R393, R398). -/
def sendIdle (d : Dev) (h : Nat) : Dev := sendFlit d h 0 0 []

/-! ### Ethernet frames (10 R402 to R405) -/

def macOf (d : Dev) (id h : Nat) : List Byte :=
  [0x02#8, BitVec.ofNat 8 (field (fabTable d) 1 1), BitVec.ofNat 8 (id / 4096), BitVec.ofNat 8 (id % 4096 / 256),
   BitVec.ofNat 8 (id % 256), BitVec.ofNat 8 h]

def connOf (d : Dev) (peer : Nat) : EthConn := smGet {} d.fabric.conns peer

def modConn (d : Dev) (peer : Nat) (f : EthConn → EthConn) : Dev :=
  { d with fabric := { d.fabric with conns := smMod {} d.fabric.conns peer f } }

/-- A frame, padded to the minimum and with its FCS (10 R402, R403). -/
def frameBytes (d : Dev) (h peer : Nat) (sflags ackPsn psn vc : Nat) (pkt : List Byte) : List Byte :=
  let vlan := fabVlan d
  let tag : List Byte := if bit vlan 12 then [0x81#8, 0x00#8] ++ natBe 2 (fabPcp d vc * 2 ^ 13 + vlan % 2 ^ 12) else []
  let raw := macOf d peer h ++ macOf d (myId d) h ++ tag ++ natBe 2 (field (fabTable d) 2 2)
    ++ natLe 8 (psn + ackPsn * 2 ^ 24 + sflags * 2 ^ 48) ++ pkt
  let body := raw ++ List.replicate (60 - raw.length) 0#8
  body ++ fcs32 body

/-- Sends a packet in a frame of half-port h: with a new PSN, or the PSN of a packet sent again (10 R404). -/
def sendFrame (d : Dev) (h : Nat) (p : Packet) (again : Option Nat) : Dev :=
  let c := connOf d p.dst
  let psn := match again with | some n => n | none => c.txPsn
  let d1 := emit d (.frame h (frameBytes d h p.dst 0 c.rxCum psn p.vc (packetBytes p)))
  modConn d1 p.dst (fun c => match again with
    | some n => { c with ackDue := false, unacked := c.unacked.map (fun u => if u.1 = n then (u.1, u.2.1, u.2.2.1 + 1, d.now) else u) }
    | none => { c with ackDue := false, txPsn := (c.txPsn + 1) % 2 ^ 24, unacked := c.unacked ++ [(psn, p, 0, d.now)] })

/-- Sends an ACK_ONLY frame, with NAK for a missing PSN (10 R404). -/
def sendAckOnly (d : Dev) (h peer : Nat) (nak : Option Nat) : Dev :=
  let c := connOf d peer
  let d1 := emit d (.frame h (frameBytes d h peer (if nak.isSome then 3 else 1) c.rxCum (nak.getD 0) 3 []))
  modConn d1 peer (fun c => { c with ackDue := false, naked := match nak with | some n => some n | none => c.naked })

end Sys2Proof.Machine
end

