-- ==== Sys2Proof/Machine/Ecc.lean ====
section
/-! DEFINITION. The burst code of LPDDR6 and the word code of the cupboard (07 R246 to R250, R263). The metadata bits of a burst are
no state of their own: they are the check symbols of what was last written there, save for the errors that `UnitErr` gives. -/

namespace Sys2Proof.Machine

/-- The address symbols of a burst: bits 43:5 of its device physical address with a zero bit above them (R248). -/
def addrSymbols (dpa : Nat) : List Byte := natLe 5 (dpa / 32 % 2 ^ 39)

/-- The stored symbols of a burst: its 32 data bytes and the four check symbols of the data and address symbols (R248). -/
def storedSymbols (dpa : Nat) (data : List Byte) : List Byte :=
  data ++ (span 0 4).map (Config.burstCheck (data ++ addrSymbols dpa))

/-- The 32 metadata bits of a burst (R246, R248). -/
def metadataBits (dpa : Nat) (data : List Byte) : List Byte := (storedSymbols dpa data).drop 32

/-- The beat and DQ pin that carry bit b of stored symbol i (R248). -/
def symbolCell (i b : Nat) : Nat × Nat := (8 * (i / 12) + b, i % 12)

/-- What DQ pin p carries at a beat of a burst (R248). -/
def beatBit (symbols : List Byte) (beat p : Nat) : Bool := (nth 0#8 symbols (12 * (beat / 8) + p)).getLsbD (beat % 8)

/-- The symbols that a DQ pin carries (R248, R249). -/
def pinSymbols (p : Nat) : List Nat := [p, p + 12, p + 24]

/-- What a decoder makes of a unit: as written, corrected, reported as uncorrectable; or, for errors beyond those that the spec
speaks of, open. -/
inductive Decoded where
  | clean | corrected | uncorrectable | beyond
  deriving DecidableEq, Repr

/-- The symbols in error of a burst: those whose differences do not cancel. -/
def symbolsWrong (e : List (Fin 41 × Byte)) : List Nat :=
  (span 0 41).filter (fun i => decide ((e.filter (fun p => p.1.val == i)).foldl (fun b p => b ^^^ p.2) 0#8 ≠ 0#8))

/-- The decoder of a burst (R249): one stored symbol is corrected; two or three symbols, and an address symbol, are uncorrectable. -/
def decodeBurst (e : List (Fin 41 × Byte)) : Decoded :=
  match symbolsWrong e with
  | [] => .clean
  | [i] => if i < 36 then .corrected else .uncorrectable
  | l => if l.length ≤ 3 then .uncorrectable else .beyond

/-- The bits in error of a cupboard word. -/
def bitsWrong (e : List (Fin 72)) : List Nat := (span 0 72).filter (fun i => (e.filter (fun b => b.val == i)).length % 2 == 1)

/-- The decoder of a cupboard word (R263): one bit is corrected, two are uncorrectable. -/
def decodeWord (e : List (Fin 72)) : Decoded :=
  match (bitsWrong e).length with
  | 0 => .clean
  | 1 => .corrected
  | 2 => .uncorrectable
  | _ => .beyond

end Sys2Proof.Machine
end

