-- ==== Sys2Proof/Machine/Vmem.lean ====
section
/-! DEFINITION. Reading and writing device memory through a context's page table (07 R250, R257 to R264). -/

namespace Sys2Proof.Machine

/-- Why an access to a virtual address does not go on, with the address. -/
inductive VErr where
  | absent (va : Nat)   -- the page lies in the slower tier (R272)
  | unmapped (va : Nat) -- no valid leaf (R258)
  | denied (va : Nat)   -- the leaf does not permit the access (R258)
  | transit (va : Nat)  -- the page is being moved (R275)
  | remote (va : Nat)   -- the page lies on a peer part (R259)
  | data (va : Nat)     -- an uncorrectable burst or word (R250, R263)
  deriving DecidableEq, Repr

/-- Who accesses: which permission bit the leaf must have (R258). -/
inductive Perm where
  | engRead | engWrite | mangle | peer | any
  deriving DecidableEq, Repr

def permOk (p : Pte) : Perm → Bool
  | .engRead => p.r
  | .engWrite => p.w
  | .mangle => p.mg
  | .peer => p.rx
  | .any => true

/-- The device physical address behind a virtual address. -/
def translate (x : Ctx) (va : Nat) (perm : Perm) : Except VErr Nat :=
  match leafKey x va with
  | none => .error (.unmapped va)
  | some (key, p) =>
    if !permOk p perm then .error (.denied va)
    else if p.transit then .error (.transit va)
    else match p.kind with
      | .localPage => .ok (dpaOf key p va)
      | .slow => .error (.absent va)
      | .remote => .error (.remote va)

/-- A range cut at 64 KiB boundaries: at most fuel pieces of (virtual address, bytes). -/
def pagePieces (va n : Nat) : Nat → List (Nat × Nat)
  | 0 => []
  | fuel + 1 =>
    if n = 0 then []
    else
      let k := min n (65536 - va % 65536)
      (va, k) :: pagePieces (va + k) (n - k) fuel

def pieces (va n : Nat) : List (Nat × Nat) := pagePieces va n (n / 65536 + 2)

/-- Bytes of a protected unit: a burst of LPDDR6, a word of the cupboard (R248, R263). -/
def eccUnit (dpa : Nat) : Nat := if dpa / 2 ^ 42 = 0 then 32 else 8

/-- A range meets an uncorrectable unit. -/
def badIn (m : MemSys) (dpa n : Nat) : Bool :=
  m.bad.any (fun b => decide (b < dpa + n) && decide (dpa < b + eccUnit b))

/-- The first uncorrectable unit that a range meets. -/
def firstBad (m : MemSys) (dpa n : Nat) : Option Nat :=
  (m.bad.filter (fun b => decide (b < dpa + n) && decide (dpa < b + eccUnit b))).foldl (fun o b => match o with
    | none => some b
    | some a => some (min a b)) none

/-- A write that covers a protected unit whole makes it correct again (R251). -/
def healWrite (m : MemSys) (dpa n : Nat) : MemSys :=
  { m with bad := m.bad.filter (fun b => !(decide (dpa ≤ b) && decide (b + eccUnit b ≤ dpa + n))) }

def readPieces (d : Dev) (x : Ctx) (perm : Perm) : List (Nat × Nat) → Except VErr (List Byte)
  | [] => .ok []
  | (va, n) :: r => do
    let dpa ← translate x va perm
    match firstBad d.mem dpa n with
    | some b => .error (.data (va / 65536 * 65536 + b % 65536))
    | none => pure ()
    let rest ← readPieces d x perm r
    return memRead d.mem.dram dpa n ++ rest

/-- Reads n bytes of a context's virtual memory. -/
def readVirt (d : Dev) (ctx va n : Nat) (perm : Perm) : Except VErr (List Byte) :=
  match smFind d.ctxs ctx with
  | none => .error (.unmapped va)
  | some x => readPieces d x perm (pieces va n)

def checkPieces (x : Ctx) (perm : Perm) : List (Nat × Nat) → Except VErr Unit
  | [] => .ok ()
  | (va, _) :: r => do
    let _ ← translate x va perm
    checkPieces x perm r

/-- Every page of a range may be accessed. -/
def checkVirt (d : Dev) (ctx va n : Nat) (perm : Perm) : Except VErr Unit :=
  match smFind d.ctxs ctx with
  | none => .error (.unmapped va)
  | some x => checkPieces x perm (pieces va n)

/-- Writes bytes at a device physical address. -/
def writePhys (m : MemSys) (dpa : Nat) (bs : List Byte) : MemSys :=
  let m1 := healWrite m dpa bs.length
  { m1 with dram := memWrite m1.dram dpa bs }

def writePieces (x : Ctx) (perm : Perm) (m : MemSys) (bs : List Byte) : List (Nat × Nat) → MemSys
  | [] => m
  | (va, n) :: r =>
    match translate x va perm with
    | .ok dpa => writePieces x perm (writePhys m dpa (bs.take n)) (bs.drop n) r
    | .error _ => m

/-- Writes bytes of a context's virtual memory: all of them or, when some page may not be written, none. -/
def writeVirt (d : Dev) (ctx va : Nat) (bs : List Byte) (perm : Perm) : Except VErr Dev :=
  match smFind d.ctxs ctx with
  | none => .error (.unmapped va)
  | some x =>
    match checkPieces x perm (pieces va bs.length) with
    | .error e => .error e
    | .ok _ => .ok { d with mem := writePieces x perm d.mem bs (pieces va bs.length) }

/-- The virtual address an error names. -/
def verrVa : VErr → Nat
  | .absent a => a | .unmapped a => a | .denied a => a | .transit a => a | .remote a => a | .data a => a

/-! ### Page tables and cached translations (R258, R260, R261) -/

/-- The entry word of a leaf as the page table holds it (R258). -/
def pteWord (p : Pte) : BitVec 64 :=
  BitVec.ofNat 64 (2 ^ 63
    + (match p.kind with | .localPage => 1 | .slow => 2 | .remote => 3) * 2 ^ 61
    + b2n p.size2m * 2 ^ 60 + b2n p.r * 2 ^ 59 + b2n p.w * 2 ^ 58 + b2n p.mg * 2 ^ 57 + b2n p.rx * 2 ^ 56
    + b2n p.transit * 2 ^ 55 + p.target)

/-- The entry that points to the next table: V, KIND NEXT and the table's DPA bits 43:8 (R258). -/
def nextWord (ctx level high : Nat) : BitVec 64 := BitVec.ofNat 64 (2 ^ 63 + (Config.tableAt ctx level high).toNat)

/-- The lowest address bit of the index of a level (R258). -/
def levelShift : Nat → Nat
  | 0 => 39 | 1 => 30 | 2 => 21 | _ => 16

/-- Entries of a table of a level (R258). -/
def levelEntries : Nat → Nat
  | 0 => 8192 | 3 => 32 | _ => 512

/-- The entry through which an address goes at a level: a leaf at level 3 and, of a 2 MiB page, at level 2; a pointer to the next
table where a leaf lies below it; else not valid (R258). -/
def levelEntry (ctx : Nat) (x : Ctx) (level va : Nat) : BitVec 64 :=
  let high := va / 2 ^ levelShift level
  let below := x.ptes.filter (fun q => decide (65536 * q.1 / 2 ^ levelShift level = high))
  let leaf (m : SMap Pte) : BitVec 64 := match m with | q :: _ => pteWord q.2 | [] => 0#64
  if level = 3 then leaf (below.filter (fun q => !q.2.size2m))
  else if level = 2 ∧ below.any (fun q => q.2.size2m) then leaf (below.filter (fun q => q.2.size2m))
  else if below.isEmpty then 0#64 else nextWord ctx (level + 1) high

/-- The DPA of an entry: its table's, and 8 bytes for each entry before it. -/
def entryDpa (ctx level va : Nat) : Nat :=
  256 * (Config.tableAt ctx level (va / (2 ^ levelShift level * levelEntries level))).toNat
    + 8 * (va / 2 ^ levelShift level % levelEntries level)

/-- The entry is a leaf or not valid: the walk ends with it. -/
def walkEnds (w : BitVec 64) : Bool := !w.getLsbD 63 || decide (w.extractLsb' 61 2 ≠ 0#2)

/-- The walk of an address from a level on: the entries that it reads in LPDDR6, at most four of them (R258, R260). -/
def walkFrom (ctx : Nat) (x : Ctx) (va : Nat) : List Nat → List (Nat × BitVec 64)
  | [] => []
  | l :: r =>
    let w := levelEntry ctx x l va
    (entryDpa ctx l va, w) :: (if walkEnds w then [] else walkFrom ctx x va r)

def walk (ctx : Nat) (x : Ctx) (va : Nat) : List (Nat × BitVec 64) := walkFrom ctx x va [0, 1, 2, 3]

/-- Translations that a unit caches: an engine 512, a mangle 256, a link die 1,024 (R260). -/
def cacheSize (unit : Nat) : Nat := if unit < 96 then 512 else if unit < 128 then 256 else 1024

/-- An access of a unit to an address: a miss walks the table and caches the valid leaf it finds; the oldest entry makes room
(R260; log 63). -/
def cacheFill (d : Dev) (unit ctx va : Nat) : Dev :=
  match smFind d.ctxs ctx with
  | none => d
  | some x =>
    match leafKey x va, (walk ctx x va).getLast? with
    | some (key, _), some (_, w) =>
      if w.getLsbD 63 && !(smGet [] d.mem.caches unit).any (fun e => e.1 == ctx && e.2.1 == key) then
        modMem d (fun m => { m with caches := smMod [] m.caches unit (fun l => ((ctx, key, w) :: l).take (cacheSize unit)) })
      else d
    | _, _ => d

/-- An access to a range. -/
def cacheRange (d : Dev) (unit ctx va n : Nat) : Dev := (pieces va n).foldl (fun d p => cacheFill d unit ctx p.1) d

end Sys2Proof.Machine
end

