-- ==== Sys2Proof/Machine/MemOps.lean ====
section
/-! DEFINITION. Frames of LPDDR6 and the cupboard, placement, the quota, and the slower-tier pool (07 R251 to R280, R648). -/

namespace Sys2Proof.Machine

/-! ### Frame numbers: DPA bits 43:16 (07 R254) -/

def lpFrame (m f : Nat) : Nat := m * 2 ^ 22 + f
def cupFrame (c f : Nat) : Nat := 2 ^ 26 + c * 2 ^ 21 + f

def isCup (fr : Nat) : Bool := decide (2 ^ 26 ≤ fr)
def frameDie (fr : Nat) : Nat := if isCup fr then (fr - 2 ^ 26) / 2 ^ 21 else fr / 2 ^ 22

/-- The memory-side die that homes a frame (07 R282). -/
def homeDie (fr : Nat) : Nat := if isCup fr then 2 * (frameDie fr / 4) + frameDie fr % 2 else frameDie fr

/-- 64 KiB frames of a memory-side die that can be allocated: its capacity less Jenorneb's 256 MiB and 4 GiB
(07 R254, R256); the reserved frames are the die's last ones (log 9). -/
def lpFrames (d : Dev) : Nat := (if d.boot.partCode = 2 then 3 * 2 ^ 19 else 3 * 2 ^ 20) - 69632

def cupFrames : Nat := 8192

/-- A place where frames are taken: a memory-side die or a cupboard die. -/
inductive Place where
  | die (m : Nat)
  | cup (c : Nat)
  deriving DecidableEq, Repr

def placeBase : Place → Nat
  | .die m => lpFrame m 0
  | .cup c => cupFrame c 0

def placeSize (d : Dev) : Place → Nat
  | .die _ => lpFrames d
  | .cup _ => cupFrames

def placeOf (fr : Nat) : Place := if isCup fr then .cup (frameDie fr) else .die (frameDie fr)

/-- Capacity of the part that can be allocated, in bytes (07 R256). -/
def allocatable (d : Dev) : Nat := 16 * 65536 * lpFrames d

def frameState (d : Dev) (fr : Nat) : Option FrameState := smFind d.mem.frames fr

/-- A frame is free, or will be when its rinse ends. -/
def frameOpen (d : Dev) (fr : Nat) : Bool :=
  match frameState d fr with | none => true | some .rinsing => true | _ => false

/-- No rinse of a frame that is taken is still awaited (07 R280). -/
def rinsed (d : Dev) (fr : Nat) : Bool :=
  match frameState d fr with | some .rinsingUsed => false | some .retiredRinsing => false | _ => true

def frameFree (d : Dev) (fr : Nat) : Bool := (frameState d fr).isNone

/-- Frames of a place that are neither free nor being rinsed. -/
def framesHeld (d : Dev) (p : Place) : Nat :=
  (d.mem.frames.filter (fun q => decide (placeOf q.1 = p) && !frameOpen d q.1)).length

/-- Frames of a place that are free or being rinsed. -/
def framesOpen (d : Dev) (p : Place) : Nat := placeSize d p - framesHeld d p

/-- Takes a frame: a free one is used, one being rinsed is used when its rinse ends (07 R267), and so is one of a cupboard bank
that leaves OFF (13 R524). -/
def takeFrame (d : Dev) (fr : Nat) : Dev :=
  let b := 16 * frameDie fr + fr % 2 ^ 21 / 512
  let off := isCup fr && d.gov.banksOff.contains b
  modMem { d with gov := { d.gov with banksOff := d.gov.banksOff.filter (fun k => !(isCup fr && k == b)) } } (fun m =>
    { m with frames := smPut m.frames fr (if frameFree d fr && !off then .used else .rinsingUsed) })

/-- Runs of k frames of a place, aligned to k: the lowest free ones first, then those with frames still being rinsed
(log 9). At most n of them. -/
def findRuns (d : Dev) (p : Place) (k n : Nat) : List Nat :=
  let base := placeBase p
  let cands := (span 0 (min (placeSize d p / k) (n + d.mem.frames.length))).map (fun j => base + j * k)
  let free := (cands.filter (fun f => (span f k).all (frameFree d))).take n
  let rest := (cands.filter (fun f => (span f k).all (frameOpen d) && !(span f k).all (frameFree d))).take (n - free.length)
  free ++ rest

/-- Takes a run of k frames at a place. -/
def takeRun (d : Dev) (p : Place) (k : Nat) : Option (Nat × Dev) :=
  match findRuns d p k 1 with
  | f :: _ => some (f, (span f k).foldl takeFrame d)
  | [] => none

/-- Takes a run of k frames at each place of a list; the first frames in order, or none when some place lacks one. -/
def takeRuns (d : Dev) (k : Nat) : List Place → Option (List Nat × Dev)
  | [] => some ([], d)
  | p :: ps =>
    match takeRun d p k with
    | none => none
    | some (f, d1) =>
      match takeRuns d1 k ps with
      | none => none
      | some (fs, d2) => some (f :: fs, d2)

/-- A frame is freed: it is rinsed before it returns to the pool; a retired frame never returns (07 R251, R280). -/
def freeFrame (d : Dev) (fr : Nat) : Dev :=
  modMem d (fun m =>
    match smFind m.frames fr with
    | none => m
    | some .retiredUsed => { m with frames := smPut m.frames fr .retired }
    | some .retired => m
    | some .used => { m with frames := smPut m.frames fr .rinsing }
    | some .rinsing => m
    | some .rinsingUsed => { m with frames := smPut m.frames fr .rinsing }
    | some .retiredRinsing => { m with frames := smPut m.frames fr .retired })

def freeFrames (d : Dev) (l : List Nat) : Dev := l.foldl freeFrame d

/-- The rinse of a frame ends: zeros with their valid code (07 R280). -/
def rinseFrame (d : Dev) (fr : Nat) : Dev :=
  let wipe (m : MemSys) : MemSys := { healWrite m (65536 * fr) 65536 with dram := memClear m.dram (65536 * fr) 65536 }
  modMem d (fun m =>
    match smFind m.frames fr with
    | some .rinsing => { wipe m with frames := smErase m.frames fr }
    | some .rinsingUsed => { wipe m with frames := smPut m.frames fr .used }
    | some .retiredRinsing => { wipe m with frames := smPut m.frames fr .retiredUsed }
    | _ => m)

/-- A frame that holds an uncorrectable unit is retired (07 R250, R251). -/
def retireFrame (d : Dev) (fr : Nat) : Dev :=
  modMem d (fun m =>
    match smFind m.frames fr with
    | some .used => { m with frames := smPut m.frames fr .retiredUsed }
    | some .rinsingUsed => { m with frames := smPut m.frames fr .retiredRinsing }
    | some .retiredRinsing => m
    | some .retiredUsed => m
    | some .retired => m
    | some .rinsing => { m with frames := smPut m.frames fr .retired }
    | none => { m with frames := smPut m.frames fr .retired })

/-- An uncorrectable unit has been reported: it is counted and its frame is retired (07 R250, R251, R263). -/
def reportBad (d : Dev) (dpa : Nat) : Dev :=
  let fr := dpa / 65536
  let u := dpa / eccUnit dpa * eccUnit dpa
  let known := match frameState d fr with | some .retired => true | some .retiredUsed => true | some .retiredRinsing => true | _ => false
  let d0 := modMem d (fun m => { m with bad := if m.bad.contains u then m.bad else u :: m.bad })
  let d1 := if isCup fr then tallySend d0 (.count 0x33 (frameDie fr) 0 1 (2000 + frameDie fr) (hubUs d))
    else tallyCount d0 0x31 (frameDie fr) 1 (2000 + frameDie fr)
  if known then d1 else tallyCount (retireFrame d1 fr) 0x32 (homeDie fr) 1 srcJenorneb

/-- What a decoder does with a unit that has been read (07 R249, R250, R263): one corrected is written back and counted, one that
is uncorrectable is reported. Of errors beyond those that the spec speaks of the outcome is free, and so is what a unit then
delivers (log 62). -/
def decodedUnit (d : Dev) (dpa : Nat) (o : Decoded) : Dev :=
  let fixed (d : Dev) : Dev :=
    if isCup (dpa / 65536) then tallySend d (.count 0x33 (frameDie (dpa / 65536)) 1 0 (2000 + frameDie (dpa / 65536)) (hubUs d))
    else tallyCount d 0x30 (frameDie (dpa / 65536)) 1 (2000 + frameDie (dpa / 65536))
  match o with
  | .clean => d
  | .corrected => fixed d
  | .uncorrectable => reportBad d dpa
  | .beyond =>
    let (k, d1) := drawFree 2 d
    if k = 0#2 then reportBad d1 dpa
    else
      let u := dpa / eccUnit dpa * eccUnit dpa
      let (v, d2) := drawFree 256 d1
      let d3 := modMem d2 (fun m => writePhys m u ((natLe 32 v.toNat).take (eccUnit dpa)))
      if k = 1#2 then fixed d3 else d3

/-- A unit read with errors. -/
def readErr (d : Dev) : UnitErr → Dev
  | .burst dpa e => decodedUnit d dpa (decodeBurst e)
  | .word dpa e => decodedUnit d dpa (decodeWord e)

/-- Where a unit read with errors lies; none: it is no unit of that kind of memory. -/
def errAt : UnitErr → Option Nat
  | .burst dpa _ => if dpa % 32 = 0 ∧ !isCup (dpa / 65536) then some dpa else none
  | .word dpa _ => if dpa % 8 = 0 ∧ isCup (dpa / 65536) then some dpa else none

/-- The frame of the first uncorrectable unit in a range. -/
def badFrame (m : MemSys) (dpa n : Nat) : Option Nat :=
  (m.bad.find? (fun b => decide (b < dpa + n) && decide (dpa < b + eccUnit b))).map (fun b => b / 65536)

/-! ### Placement (07 R266) -/

/-- The place of page p of an allocation in a tier; none: the combination is refused. -/
def placePage (tier place home p : Nat) : Option Place :=
  match tier, place with
  | 1, 0 => some (.die ((home + p) % 16))
  | 1, 1 => some (.die home)
  | 1, 2 => some (.die (2 * home + p % 2))
  | 0, 0 => some (.cup (4 * home + p % 4))
  | 0, 1 => some (.cup home)
  | _, _ => none

/-- The greatest HOME of a tier and placement. -/
def homeMax (tier place : Nat) : Nat :=
  match tier, place with
  | 1, 2 => 7
  | 1, _ => 15
  | _, 1 => 31
  | _, _ => 7

/-! ### The quota (07 R648) and partitions -/

def modPart (d : Dev) (p : Nat) (f : Partn → Partn) : Dev := { d with parts := smUpd d.parts p f }

def partOfCtx (d : Dev) (ctx : Nat) : Nat := match smFind d.ctxs ctx with | some x => x.part | none => 0

/-- Bytes that partition p may still be charged. -/
def quotaLeft (d : Dev) (p : Nat) : Nat := match partOf d p with | some x => x.quota - x.charge | none => 0

def charge (d : Dev) (p n : Nat) : Dev := modPart d p (fun x => { x with charge := x.charge + n })
def uncharge (d : Dev) (p n : Nat) : Dev := modPart d p (fun x => { x with charge := x.charge - n })

/-- Cupboard dies of a partition (07 R264). -/
def partCups (x : Partn) : List Nat := (partDies x).flatMap (fun c => span (4 * c) 4)

/-! ### The slower-tier pool (07 R268, R273) -/

/-- Pool pages of a partition that are free, in the order in which they are taken. -/
def freePool (x : Partn) (n : Nat) : List Nat := go x.pool 0 n
where
  /-- From the ranges in registration order. -/
  go : List PoolRange → Nat → Nat → List Nat
    | [], _, _ => []
    | r :: rs, b, n =>
      let l := ((span b (min r.pages (n + r.used.length))).filter (fun k => !r.used.contains k)).take n
      l ++ go rs (b + r.pages) (n - l.length)

/-- The range of a pool page: its base address and rate. -/
def poolRange (x : Partn) (k : Nat) : Option (PoolRange × Nat) := go x.pool 0
where
  /-- The range and its first pool page number. -/
  go : List PoolRange → Nat → Option (PoolRange × Nat)
    | [], _ => none
    | r :: rs, b => if k < b + r.pages then some (r, b) else go rs (b + r.pages)

/-- Host physical address of a pool page. -/
def poolAddr (x : Partn) (k : Nat) : Nat :=
  match poolRange x k with | some (r, b) => r.base + 65536 * (k - b) | none => 0

/-- Marks pool pages as used or free. -/
def markPool (x : Partn) (ks : List Nat) (used : Bool) : Partn :=
  { x with pool := go x.pool 0 }
where
  /-- The ranges with their pages marked. -/
  go : List PoolRange → Nat → List PoolRange
    | [], _ => []
    | r :: rs, b =>
      let mine := ks.filter (fun k => decide (b ≤ k) && decide (k < b + r.pages))
      { r with used := if used then insertAll mine r.used else r.used.filter (fun k => !mine.contains k) } :: go rs (b + r.pages)

def takePool (d : Dev) (p : Nat) (ks : List Nat) : Dev := modPart d p (fun x => markPool x ks true)
def freePoolPages (d : Dev) (p : Nat) (ks : List Nat) : Dev := modPart d p (fun x => markPool x ks false)

/-! ### Pages of a context -/

def pageBytes (p : Pte) : Nat := if p.size2m then 2 ^ 21 else 65536
def pageFrames (p : Pte) : Nat := if p.size2m then 32 else 1

/-- The leaves whose pages meet a range of virtual addresses, by page base. -/
def leavesIn (x : Ctx) (va n : Nat) : SMap Pte :=
  x.ptes.filter (fun q => decide (65536 * q.1 < va + n) && decide (va < 65536 * q.1 + pageBytes q.2))

/-- A range is covered whole by mapped pages. -/
def coveredBy (l : SMap Pte) (va n : Nat) : Bool :=
  let inside := l.map (fun q =>
    min (va + n) (65536 * q.1 + pageBytes q.2) - max va (65536 * q.1))
  decide (inside.sum = n)

/-- The range begins or ends inside a page (07 R269): the offset of the field at fault. -/
def cutsPage (l : SMap Pte) (va n oVa oBytes : Nat) : Option Nat :=
  if l.any (fun q => decide (65536 * q.1 < va) && decide (va < 65536 * q.1 + pageBytes q.2)) then some oVa
  else if l.any (fun q => decide (65536 * q.1 < va + n) && decide (va + n < 65536 * q.1 + pageBytes q.2)) then some oBytes
  else none

/-- Number of pins of a page (07 R269): its own pins, or those of the KV page it belongs to. -/
def pagePinned (x : Ctx) (page : Nat) (p : Pte) : Bool :=
  x.pins.any (fun q => decide (page ≤ q.1) && decide (q.1 < page + pageFrames p) && q.2 != 0)

/-- Rewrites a leaf; its cached copies are invalidated (07 R261). -/
def setPte (d : Dev) (ctx page : Nat) (p : Pte) : Dev := modCtx (dropCached d ctx page) ctx (fun x => { x with ptes := smPut x.ptes page p })

/-- A page that a TIER 0 allocation maps is charged while it lies in LPDDR6 (07 R648). -/
def chargedInLp (p : Pte) : Bool := p.tier0 && decide (p.kind = .localPage) && !(p.frames.any isCup)

/-- Unmaps a page: its frames go to rinse, its pool pages are freed without being read (07 R269). -/
def unmapPage (d : Dev) (ctx page : Nat) : Dev :=
  match smFind d.ctxs ctx with
  | none => d
  | some x =>
    match smFind x.ptes page with
    | none => d
    | some p =>
      let d1 := modCtx (dropCached d ctx page) ctx (fun x => { x with ptes := smErase x.ptes page })
      let d2 := freePoolPages (freeFrames d1 p.frames) x.part p.slowPgs
      let bytes := if p.kvPool.isSome then 0
        else if p.tier0 then (if chargedInLp p then pageBytes p else 0)
        else match p.kind with | .remote => 0 | _ => pageBytes p
      uncharge d2 x.part bytes

end Sys2Proof.Machine
end

