-- ==== Sys2Proof/Machine/CmdOps.lean ====
section
/-! DEFINITION. Records, rings, hold buffers, result slots and the life of a command (02 R27 to R78). -/

namespace Sys2Proof.Machine

/-! ### Queues -/

def queueOf (d : Dev) (q : Nat) : Queue := smGet {} d.queues q
def setQueue (d : Dev) (q : Nat) (v : Queue) : Dev := { d with queues := smSet {} d.queues q v }
def modQueue (d : Dev) (q : Nat) (f : Queue → Queue) : Dev := setQueue d q (f (queueOf d q))

def qstateCode : QState → Nat
  | .disabled => 0 | .active => 1 | .held => 2 | .draining => 3

def sqSize (q : Queue) : Nat := 2 ^ q.sqLog2
def cqSize (q : Queue) : Nat := 2 ^ q.cqLog2

/-- Records the completion ring can take: one stays unwritten (02 R40). -/
def ringRoom (q : Queue) : Nat := cqSize q - 1 - (q.cqTail + cqSize q - q.cqHead) % cqSize q

/-- Records of a hold buffer (02 R42). -/
def holdCap (q : Queue) : Nat := min (2 ^ q.retainLog2) 4096

/-- Payload bytes of a result slot (02 R69). -/
def slotCap (q : Queue) : Nat := 2 ^ q.slotLog2 - 32

/-- The queue status register (02 R37). -/
def queueStatus (q : Queue) : Word :=
  BitVec.ofNat 32 (qstateCode q.state * 2 ^ 30 + b2n q.dbRange * 2 ^ 29 + b2n (!q.hold.isEmpty) * 2 ^ 28 + q.sqHead)

/-- Commands consumed and without a final record. -/
def inFlightOf (d : Dev) (q : Nat) : Nat := (d.cmds.filter (fun c => c.2.queue == q)).length

/-! ### Interrupts -/

/-- An entry of the MSI-X table; after reset every vector is masked (log 3). -/
def msixEntry (d : Dev) (v : Nat) : BitVec 128 := smGet (1#128 <<< 96) d.host.msixTab v

/-- Raises an MSI-X vector: a masked one becomes pending (17 R611, R616; log 3). -/
def raiseMsix (d : Dev) (v : Nat) : Dev :=
  if (msixEntry d v).getLsbD 96 then { d with host := { d.host with pba := insertSorted v d.host.pba } }
  else emit d (.msix v)

/-! ### Producing and writing records (02 R42, R53, R60, R62, R650) -/

def recBytes (r : Rec) : List Byte :=
  natLe 4 r.hostSeq.toNat ++ natLe 4 r.devSeq.toNat ++ natLe 2 r.status.toNat ++ natLe 2 r.detail.toNat
    ++ natLe 20 r.result.toNat

/-- Writes a record into the completion ring: its DEV_SEQ last (02 R53, 17 R616), then its interrupt (02 R45). -/
def writeRing (d : Dev) (q : Nat) (r : QRec) : Dev :=
  let v := queueOf d q
  let a := v.cqBase.toNat + 32 * v.cqTail
  let b := recBytes r.rcd
  let d1 := emit (emit (emit d (.memWrite a (b.take 4) false)) (.memWrite (a + 8) (b.drop 8) false))
    (.memWrite (a + 4) (slice b 4 4) false)
  let d2 := modQueue d1 q (fun v => { v with cqTail := (v.cqTail + 1) % cqSize v })
  if r.irq then raiseMsix d2 v.msix.toNat else d2

/-- Records may be written to the ring: there is room and the part may issue writes (17 R617). -/
def ringOpen (d : Dev) (q : Nat) : Bool := d.host.bme && decide (0 < ringRoom (queueOf d q))

/-- The last n elements of a list. -/
def lastN {α : Type} (n : Nat) (l : List α) : List α := l.drop (l.length - n)

/-- A record enters the retention log (02 R62). -/
def logRec (v : Queue) (r : QRec) : Queue :=
  let log := lastN (2 ^ v.retainLog2) (v.log ++ [r.rcd])
  let fins := if r.final then v.finals ++ [(r.rcd.hostSeq, r.rcd.devSeq)] else v.finals
  { v with log := log, finals := fins.filter (fun f => log.any (fun x => x.devSeq == f.2)) }

/-- The result slot of a command that names one (02 R44, R45). -/
def slotIndex (c : Cmd) : Option Nat := if bit (cmdFlags c) 0 then some (par c 0x3C 2) else none

/-- The final record of a command has been placed: its slot is READY or FAILED, and it is in flight no longer
(02 R54, R69). -/
def settleFinal (d : Dev) (cid : Nat) (r : Rec) : Dev :=
  match smFind d.cmds cid with
  | none => d
  | some c =>
    let d1 : Dev := { d with cmds := smErase d.cmds cid }
    match slotIndex c, c.fin with
    | some k, some f =>
      modQueue d1 c.queue (fun v => { v with slots := smUpd v.slots k (fun s =>
        match f.slotOut with
        | some p => { s with state := .ready, devSeq := r.devSeq, status := r.status,
                             payload := p.take (slotCap v), trunc := decide (slotCap v < p.length) }
        | none => { s with state := .failed, devSeq := r.devSeq, status := r.status, payload := [] }) })
    | _, _ => d1

/-- A record is produced: it takes its number, enters the log, and goes to the ring or the hold buffer (02 R650). -/
def produce (d : Dev) (q : Nat) (r : QRec) : Dev :=
  let v := queueOf d q
  let r1 : QRec := { r with rcd := { r.rcd with devSeq := v.nextDevSeq } }
  let d1 := modQueue d q (fun v => { logRec v r1 with nextDevSeq := v.nextDevSeq + 1 })
  let d2 := if v.replay.isNone && v.hold.isEmpty && ringOpen d q then writeRing d1 q r1
    else modQueue d1 q (fun v =>
      let h := v.hold ++ [r1]
      { v with hold := h, state := if v.state = .active ∧ holdCap v ≤ h.length then .held else v.state })
  match r.cid with
  | some cid => settleFinal d2 cid r1.rcd
  | none => d2

/-- A record is ready: it is produced, or it waits unnumbered while the hold buffer is full (02 R650). -/
def readyRec (d : Dev) (q : Nat) (r : QRec) : Dev :=
  let v := queueOf d q
  if v.state = .disabled then d
  else if v.waiting.isEmpty && decide (v.hold.length < holdCap v) then produce d q r
  else modQueue d q (fun v => { v with waiting := v.waiting ++ [r] })

/-- A record of the given status for a header. -/
def mkRec (hostSeq : Word) (status detail : Nat) (result : BitVec 160) : Rec :=
  { hostSeq := hostSeq, devSeq := 0, status := BitVec.ofNat 16 status, detail := BitVec.ofNat 16 detail, result := result }

/-- A progress record of a command with EVENTS set (02 R45, R54). -/
def progress (d : Dev) (cid kind : Nat) (result : List (Nat × Nat × Nat)) : Dev :=
  match smFind d.cmds cid with
  | none => d
  | some c =>
    if bit (cmdFlags c) 1 then
      readyRec d c.queue { rcd := mkRec (hostSeqOf c) stPending kind (resultOf result), irq := false, final := false, cid := none }
    else d

/-- The command's effect is complete, with a result already laid out. -/
def finishRaw (d : Dev) (cid : Nat) (status detail : Nat) (result : BitVec 160) : Dev :=
  { d with cmds := smUpd d.cmds cid (fun c =>
      if c.fin.isSome then c
      else { c with phase := .done, tstate := 15,
                    fin := some { status := BitVec.ofNat 16 status, detail := BitVec.ofNat 16 detail,
                                  result := result, slotOut := none, at_ := d.now } }) }

/-- Distance of a sequence number from another (R57). -/
def serial (a b : BitVec 32) : Nat := (a - b).toNat

/-- Oldest retained record's number; the next number where the log is empty. -/
def oldestSeq (v : Queue) : BitVec 32 := match v.log with | r :: _ => r.devSeq | [] => v.nextDevSeq

/-- The oldest held record comes before a number in device sequence order. -/
def heldBefore (v : Queue) (r : Rec) : Option QRec :=
  v.hold.head?.filter (fun h => decide (serial h.rcd.devSeq (oldestSeq v) < serial r.devSeq (oldestSeq v)))

/-- One record goes to the ring: of a replay first, then of the hold buffer (02 R42, R76, R77). Held records older than a
replayed one go before it, in device sequence order (R42; log 58). -/
def drainOnce (d : Dev) (q : Nat) : Dev :=
  let v := queueOf d q
  match v.replay with
  | some p =>
    match p.left with
    | [] => finishRaw (modQueue d q (fun v => { v with replay := none })) p.cid stOk 0 p.snap
    | r :: rs =>
      if ringOpen d q then
        match heldBefore v r with
        | some h => writeRing (modQueue d q (fun v => { v with hold := v.hold.drop 1 })) q h
        | none =>
        let held := v.hold.find? (fun h => h.rcd.devSeq == r.devSeq)
        let qr : QRec := match held with | some h => h | none => { rcd := r, irq := false, final := false, cid := none }
        let d1 := modQueue d q (fun v => { v with
          replay := some { p with left := rs }, hold := v.hold.filter (fun h => h.rcd.devSeq != r.devSeq) })
        writeRing d1 q qr
      else d
  | none =>
    match v.hold with
    | h :: hs => if ringOpen d q then writeRing (modQueue d q (fun v => { v with hold := hs })) q h else d
    | [] => d

/-- Waiting records enter the hold buffer as space appears (02 R650). -/
def admitWaiting (d : Dev) (q : Nat) : Dev :=
  let v := queueOf d q
  match v.waiting with
  | r :: rs =>
    if v.hold.length < holdCap v then produce (modQueue d q (fun v => { v with waiting := rs })) q r else d
  | [] => d

/-- The hold buffer has drained: the queue is ACTIVE again (02 R41). -/
def endHeld (d : Dev) (q : Nat) : Dev :=
  modQueue d q (fun v => if v.state = .held ∧ v.hold.isEmpty then { v with state := .active } else v)

/-- Writes held and waiting records while there is room: at most fuel rounds. -/
def drainLoop (q : Nat) : Nat → Dev → Dev
  | 0, d => d
  | fuel + 1, d => drainLoop q fuel (admitWaiting (endHeld (drainOnce d q) q) q)

def drainQueue (d : Dev) (q : Nat) : Dev :=
  let v := queueOf d q
  let n := v.hold.length + v.waiting.length + (match v.replay with | some p => p.left.length + 1 | none => 0)
  endHeld (drainLoop q (n + 1) d) q

/-! ### When a command begins (02 R43, R45, R46) -/

def opcodeC (c : Cmd) : Nat := field c.hdr 0 2

/-- Every earlier command of the queue has begun, and with FENCE has its final record. -/
def mayBegin (d : Dev) (cid : Nat) (c : Cmd) : Bool :=
  (d.cmds.filter (fun p => decide (p.1 < cid) && p.2.queue == c.queue)).all (fun p =>
    decide (p.2.phase ≠ .admitted) && !bit (cmdFlags c) 2)

def setPhase (d : Dev) (cid : Nat) (p : CmdPhase) : Dev := { d with cmds := smUpd d.cmds cid (fun c => { c with phase := p }) }

def modCmd (d : Dev) (cid : Nat) (f : Cmd → Cmd) : Dev := { d with cmds := smUpd d.cmds cid f }

/-- A command waits for Bus Master Enable (17 R617). -/
def stallBme (d : Dev) (cid : Nat) : Dev :=
  modCmd d cid (fun c => { c with bmeStall := true, bmeFrom := some (c.bmeFrom.getD d.now) })

/-- H-cycles that a command has waited for Bus Master Enable. -/
def bmeWaited (d : Dev) (c : Cmd) : Nat := c.bmeFor + (match c.bmeFrom with | some a => d.now - a | none => 0)

/-- A command whose handler waits enters NEXT_WAIT of its present state (02 R49). What each handler does is the firmware's:
together the handlers of a command do its effect, and the command is DONE when the effect is complete (log 59). -/
def waitState (c : Cmd) : Cmd :=
  if c.fin.isNone ∧ c.phase = .running ∧ c.tstate < 12 then
    { c with tstate := bits (field c.entry (0x10 + 4 * c.tstate) 4) 15 12 }
  else c

/-- Runs a step of an admitted command of an opcode: it begins when its order allows, or goes on. A body that answers none
leaves the command as it stands, waiting. -/
def runCmd (op cid : Nat) (body : Dev → Nat → Cmd → Option Dev) (d : Dev) : Dev :=
  match smFind d.cmds cid with
  | none => d
  | some c =>
    if opcodeC c = op ∧ c.fin.isNone ∧ (c.phase = .running ∨ (c.phase = .admitted ∧ mayBegin d cid c)) then
      ((body (setPhase d cid .running) cid c).map (fun d1 => modCmd d1 cid waitState)).getD d
    else d

/-- What a command has reserved is released (02 R647, 07 R267, R273). -/
def undoReserve (d : Dev) (cid : Nat) : Dev :=
  match smFind d.cmds cid with
  | none => d
  | some c =>
    modCmd (uncharge (freePoolPages (freeFrames d c.frames) c.part c.pool) c.part c.charged) cid
      (fun c => { c with frames := [], pool := [], charged := 0 })

/-- What a command has reserved is in use: it is the command's no longer. -/
def useReserve (d : Dev) (cid : Nat) : Dev := modCmd d cid (fun c => { c with frames := [], pool := [], charged := 0 })

/-- Every frame reserved for the command has been rinsed (07 R267). -/
def reserveReady (d : Dev) (c : Cmd) : Bool :=
  c.frames.all (rinsed d)

/-- Takes a run of k frames on any memory-side die, trying them from one on. -/
def takeAny (d : Dev) (k from_ : Nat) : Nat → Option (Nat × Dev)
  | 0 => none
  | n + 1 =>
    match takeRun d (.die (from_ % 16)) k with
    | some r => some r
    | none => takeAny d k (from_ + 1) n

/-- Takes n single frames spread over the memory-side dies (log 9). -/
def takeSpread (d : Dev) (from_ : Nat) : Nat → Option (List Nat × Dev)
  | 0 => some ([], d)
  | n + 1 =>
    match takeAny d 1 from_ 16 with
    | none => none
    | some (f, d1) =>
      match takeSpread d1 (from_ + 1) n with
      | none => none
      | some (fs, d2) => some (f :: fs, d2)

/-! ### Refusals (02 R51, R56) -/

/-- A refused command: its status, DETAIL and result. -/
structure Ref where
  status : Nat
  detail : Nat
  result : List (Nat × Nat × Nat) := []
  deriving DecidableEq, Repr

abbrev Chk := Except Ref

def badParam {α : Type} (off : Nat) : Chk α := .error { status := stBadParam, detail := off }
def refused {α : Type} (detail : Nat) : Chk α := .error { status := stAdmissionRefused, detail := detail }

/-- The field at the lowest offset of those that fail decides (02 R51). -/
def lowest (l : List (Nat × Bool)) : Option Nat :=
  ((l.filter (·.2)).map (·.1)).foldl (fun b o => match b with | none => some o | some x => some (min x o)) none

/-- Refuses with BAD_PARAM when some field fails. -/
def chkFields (l : List (Nat × Bool)) : Chk Unit :=
  match lowest l with | some o => badParam o | none => .ok ()

/-- Reserved bytes of the header: the offset of the first that is not zero fails (02 R9, R51). -/
def resv (hdr : List Byte) (lo n : Nat) : List (Nat × Bool) :=
  match firstNonZero (slice hdr lo n) lo with | some o => [(o, true)] | none => []

/-- Reserved bytes of the payload. -/
def resvPay (pay : List Byte) (lo n : Nat) : List (Nat × Bool) :=
  match firstNonZero (slice pay lo n) (0x40 + lo) with | some o => [(o, true)] | none => []

/-- The partition of a queue. -/
def queuePart (d : Dev) (q : Nat) : Option Nat := (queueOf d q).partition

/-- A range of host memory lies in an enabled host window of the queue's partition (17 R614). -/
def hostOk (d : Dev) (q addr n : Nat) : Bool :=
  match queuePart d q with
  | none => true
  | some p => (span 0 4).any (fun w =>
      let (b, l) := smGet (if w = 0 then (0#64, 0xFFFFFFFFFFFFFFFF#64) else (1#64, 0#64)) d.host.win (4 * p + w)
      decide (b.toNat ≤ l.toNat) && decide (b.toNat ≤ addr) && decide (addr + n ≤ l.toNat + 1))

/-- The latest completion that can be guaranteed for a command whose cost model gives at least the cost: what the waits and
rates add to it is left open (02 R65; log 22). Commands without a deadline have no bound. -/
def guaranteeOf (d : Dev) (c : Cmd) (costUs : Option Nat) : Chk (Option Nat × Dev) :=
  match deadlineOf c with
  | none => .ok (none, d)
  | some t =>
    match costUs with
    | none => .error { status := stAdmissionRefused, detail := 0, result := [(0x0C, 4, 0xFFFFFFFF)] }
    | some n =>
      let (w, d1) := drawFree 32 d
      let g := d.now + 400 * n + w.toNat
      if g ≤ t then .ok (some g, d1)
      else .error { status := stAdmissionRefused, detail := 0,
                    result := [(0x0C, 4, min (ceilDiv (g - c.arrival) 400) 0xFFFFFFFF)] }

/-! ### The final record (02 R54, R64, R66) -/

/-- The record of the request that a REQ.SUBMIT submitted (`info` holds its slot). -/
def reqOfCmd (d : Dev) (cid : Nat) (c : Cmd) : Option Req :=
  if opcodeC c = 0x0701 then ((c.info.head?).bind (smFind d.reqs)).filter (fun r => r.cid == some cid) else none

/-- Status, DETAIL and tally of a command at its completion (R66); of a request that missed a goal, by its greatest lateness
(09 R365). -/
def lateStatus (d : Dev) (cid : Nat) (c : Cmd) (f : Done) : BitVec 16 × BitVec 16 × Dev :=
  let (missed, reqLate, hot) := match reqOfCmd d cid c with | some r => (r.missed, r.late, r.lateHot) | none => (false, 0, false)
  let due := deadlineOf c
  let past := match due with | some t => decide (t < d.now) | none => false
  let lateBy := match due with | some t => (d.now - t) / 400 | none => 0
  if f.status.toNat = stOk ∧ (past || missed) = true then
    let late := max lateBy reqLate
    let det := BitVec.ofNat 16 (min late 0xFFFF)
    if hot || (past && c.throttled) then
      (BitVec.ofNat 16 stThermalLimit, det, tallyValue d 0x11 c.queue late (hostSeqOf c))
    else if !missed && c.bmeStall && decide (d.now ≤ due.getD 0 + bmeWaited d c) then (BitVec.ofNat 16 stDeviceFault, 0x0006#16, d)
    else (BitVec.ofNat 16 stDeadlineMissed, det, tallyValue d 0x10 c.queue late (hostSeqOf c))
  else (f.status, f.detail, d)

/-- Notes the status of the final record of a request, a learning step or a collective (09 R344; 11 R433; 12 R473). -/
def noteStatus (d : Dev) (cid : Nat) (c : Cmd) (st : BitVec 16) : Dev :=
  let d1 : Dev := { d with
    weights := { d.weights with steps := smUpd d.weights.steps cid (fun t => { t with status := st }) }
    colls := { d.colls with live := d.colls.live.map (fun k => if k.2.cid = some cid then (k.1, { k.2 with status := st }) else k) } }
  match reqOfCmd d cid c, c.info with
  | some _, slot :: _ => { d1 with reqs := smUpd d1.reqs slot (fun r => { r with endStatus := st }) }
  | _, _ => d1

/-- The opcodes whose commands consume a host sequence number: all but QUEUE.RESYNC (02 R57). -/
def consumes (op : Nat) : Bool := op != 0x0103

/-- Commands that keep their context from being blocked: those with a deadline, launches, requests, collectives and mangle commands
(13 R514). -/
def keepsBusy (c : Cmd) : Bool :=
  cmdDeadline c != 0
    || [0x0403, 0x0404, 0x0407, 0x0502, 0x0601, 0x0701, 0x0801, 0x0901, 0x0902, 0x0A01, 0x0B01].contains (opcodeC c)

/-- The context of such a command can be blocked from its end on (13 R514). -/
def noteEnd (d : Dev) (c : Cmd) : Dev :=
  if keepsBusy c then modCtx d (cmdContext c) (fun x => { x with blockedAt := d.now }) else d

/-- The command's final record is ready (02 R54). -/
def completeCmd (d : Dev) (cid : Nat) : Dev :=
  match smFind d.cmds cid with
  | none => d
  | some c =>
    match c.fin with
    | none => d
    | some f =>
      if (queueOf d c.queue).waiting.any (fun r => r.cid == some cid) then d
      else
        let (st, det, d0) := lateStatus d cid c f
        let d1 := noteEnd (noteStatus d0 cid c st) c
        let d2 := tallyValue d1 0x12 c.queue ((d.now - c.arrival) / 400) (hostSeqOf c)
        readyRec d2 c.queue { rcd := { hostSeq := hostSeqOf c, devSeq := 0, status := st, detail := det, result := f.result },
                              irq := bit (cmdFlags c) 3, final := consumes (opcodeC c), cid := some cid }

/-! ### Reading host memory (17 R616, R617) -/

/-- Issues reads of host lines while fewer than 4,096 are in flight and Bus Master Enable is set: at most fuel of them. -/
def pumpReads : Nat → Dev → Dev
  | 0, d => d
  | fuel + 1, d =>
    if d.host.bme && decide (d.host.inFlight.length < 4096) then
      match d.host.reads.find? (fun w => decide (w.next < w.len + w.addr % 64)) with
      | none => d
      | some w =>
        let a := w.addr / 64 * 64 + w.next
        let rs := d.host.reads.map (fun x => if x = w then { x with next := x.next + 64 } else x)
        pumpReads fuel (emit { d with host := { d.host with reads := rs, inFlight := d.host.inFlight ++ [(a, w.use)] } } (.readReq a))
    else d

/-- Asks for a range of host memory. -/
def wantHost (d0 : Dev) (use : ReadFor) (addr len : Nat) : Dev :=
  let d : Dev := match use with | .cmd c => if d0.host.bme then d0 else stallBme d0 c | _ => d0
  pumpReads 4096 { d with host := { d.host with reads := d.host.reads ++
    [{ use := use, addr := addr, next := 0, len := len, got := [], left := ceilDiv (addr % 64 + len) 64 }] } }

/-- The bytes of a range that has been read whole. -/
def wantDone (d : Dev) (use : ReadFor) : Option (List Byte) :=
  match d.host.reads.find? (fun w => decide (w.use = use)) with
  | some w => if w.left = 0 then some (memRead w.got 0 w.len) else none
  | none => none

def dropWant (d : Dev) (use : ReadFor) : Dev :=
  { d with host := { d.host with reads := d.host.reads.filter (fun w => decide (w.use ≠ use)) } }

/-- The host read of something is under way. -/
def wanting (d : Dev) (use : ReadFor) : Bool := d.host.reads.any (fun w => decide (w.use = use))

/-- Writes host memory in bulk, cut at Max_Payload_Size, 512 bytes (17 R607, R616). -/
def bulkWrite (d : Dev) (addr : Nat) (bs : List Byte) : Dev := go d addr bs bs.length
where
  /-- Pieces of at most 512 bytes. -/
  go (d : Dev) (addr : Nat) (bs : List Byte) : Nat → Dev
    | 0 => d
    | fuel + 1 =>
      if bs.isEmpty then d
      else
        let n := 512 - addr % 512
        go (emit d (.memWrite addr (bs.take n) true)) (addr + n) (bs.drop n) fuel

/-! ### Window lines (17 R610) -/

/-- Lines of a window range. -/
def windowLines (off n : Nat) : List Nat := span (off / 64) (ceilDiv (off % 64 + n) 64)

/-- Every line has been answered: the range may be read. Otherwise its snoops are issued. -/
def snoopRange (d : Dev) (lines : List Nat) : Bool × Dev :=
  let missing := lines.filter (fun l => !d.host.snooped.contains l && !d.host.snooping.contains l)
  let d1 := missing.foldl (fun d l => emit d (.biSnp (64 * l)))
    { d with host := { d.host with snooping := d.host.snooping ++ missing } }
  (lines.all (fun l => d.host.snooped.contains l), d1)

/-- The lines have been read. -/
def dropSnooped (d : Dev) (lines : List Nat) : Dev :=
  { d with host := { d.host with snooped := d.host.snooped.filter (fun l => !lines.contains l) } }

end Sys2Proof.Machine
end

