-- ==== Sys2Proof/Machine/Reduce.lean ====
section
/-! DEFINITION. The arithmetic that every reduction shares (04 R123 to R131, R143) and the key-and-counter generator (14). -/

namespace Sys2Proof.Machine

/-- An accumulator entry: the sum s and the compensation c (04 R126). -/
structure Entry where
  s : Word
  c : Word
  deriving DecidableEq, Repr

def zeroEntry : Entry := { s := 0#32, c := 0#32 }

/-- An entry as a tile stores it: s in bits 31:0, c in bits 63:32 (04 R134). -/
def packEntry (e : Entry) : BitVec 64 := e.c ++ e.s

def unpackEntry (v : BitVec 64) : Entry :=
  { s := v.extractLsb' 0 32, c := v.extractLsb' 32 32 }

/-- ⌊log2⌋ of the largest magnitude among finite non-zero leaves, none when all are zero. -/
def maxLog (leaves : List Val) : Option Int :=
  leaves.foldl (fun m v => match v with
    | .fin _ k d e => if k = 0 then m else
        let l := floorLog2Ratio k d + e
        (match m with | none => some l | some x => some (max x l))
    | _ => m) none

/-- A leaf in units of 2^u, rounded toward zero (04 R123, R125). -/
def truncTo (u : Int) (v : Val) : Int :=
  match v with
  | .fin n m d e => sgn n (m * pow2Num (e - u) / (d * pow2Den (e - u)))
  | _ => 0

/-- The group sum of a set of leaves (04 R123 to R125). -/
def groupSum (subn : Bool) (sexp : Int) (scaleIsNan operandNan : Bool) (leaves : List Val) : FlagM Word := do
  if scaleIsNan then
    raise Fl.scaleNan
    return 0x7FC00000#32
  else if leaves.any isNan || (leaves.any (fun v => decide (v = .inf false)) && leaves.any (fun v => decide (v = .inf true))) then
    raiseIf (!operandNan) Fl.invalid
    return 0x7FC00000#32
  else match leaves.find? isInf with
    | some v => return (if isNegVal v then 0xFF800000#32 else 0x7F800000#32)
    | none =>
      match maxLog leaves with
      | none => return (if !leaves.isEmpty && leaves.all isNegVal then 0x80000000#32 else 0#32)
      | some e =>
        let q := (leaves.map (truncTo (e - 40))).sum
        rne32 subn (.fin (decide (q < 0)) q.natAbs 1 (e - 40 + sexp))

/-- Adds a group sum to an entry (04 R126, R127). -/
def accAdd (subn : Bool) (a : Entry) (g : Word) : FlagM Entry := do
  let x ← f32 subn a.s
  let y ← f32 subn g
  let sum ← vadd x y
  let t ← rne32 subn sum
  if !isFinite32 t then return { s := t, c := 0#32 }
  else
    let err ← vadd sum (vneg (decodeElem 0 t.toNat))
    let c ← f32 subn a.c
    let c' ← vadd c err
    let cw ← rne32 subn c'
    return { s := t, c := cw }

/-- Combines two entries that cover adjacent chunks (04 R128). -/
def comb (subn : Bool) (l r : Entry) : FlagM Entry := do
  let x ← f32 subn l.s
  let y ← f32 subn r.s
  let sum ← vadd x y
  let t ← rne32 subn sum
  if !isFinite32 t then return { s := t, c := 0#32 }
  else
    let err ← vadd sum (vneg (decodeElem 0 t.toNat))
    let u ← fadd subn l.c r.c
    let uv ← f32 subn u
    let c' ← vadd uv err
    let cw ← rne32 subn c'
    return { s := t, c := cw }

/-- Resolves an entry to one fp32 value (04 R128). -/
def resolve (subn : Bool) (a : Entry) : FlagM Word := do
  if isFinite32 a.s then fadd subn a.s a.c
  else return a.s

/-- The split point of a node of the chunk tree (04 R128). -/
def treeSplit (lo hi : Nat) : Nat := lo + 2 ^ (ceilLog2 (hi - lo) - 1)

/-- [a, b) and [b, c) are the two children of a node of the tree over n chunks (04 R143). -/
def isSplitIn (a b c : Nat) (lo hi : Nat) : Nat → Bool
  | 0 => false
  | fuel + 1 =>
    if hi - lo ≤ 1 then false
    else
      let m := treeSplit lo hi
      if lo = a ∧ hi = c then decide (m = b)
      else if c ≤ m then isSplitIn a b c lo m fuel
      else if m ≤ a then isSplitIn a b c m hi fuel
      else false

def isSplit (a b c n : Nat) : Bool := isSplitIn a b c 0 n (ceilLog2 n + 1)

/-- tree(lo, hi) over the chunks' entries (04 R128). -/
def treeOf (subn : Bool) (chunk : List Entry) (lo hi : Nat) : Nat → FlagM Entry
  | 0 => return nth zeroEntry chunk lo
  | fuel + 1 => do
    if hi - lo ≤ 1 then return nth zeroEntry chunk lo
    else
      let m := treeSplit lo hi
      let l ← treeOf subn chunk lo m fuel
      let r ← treeOf subn chunk m hi fuel
      comb subn l r

/-- A list cut into runs of n: at most fuel runs. -/
def runsOf {α : Type} (n : Nat) (l : List α) : Nat → List (List α)
  | 0 => []
  | fuel + 1 => if l.isEmpty then [] else l.take n :: runsOf n (l.drop n) fuel

/-- Accumulates one chunk's group sums from an entry (04 R126). -/
def chunkSum (subn : Bool) (e0 : Entry) (gs : List Word) : FlagM Entry := gs.foldlM (accAdd subn) e0

/-- A whole reduction of leaves by group size 16 and a chunk size (04 R123 to R128, 05 R171). -/
def reduceLeaves (subn : Bool) (chunk : Nat) (xs : List Word) : FlagM Word := do
  let chunks := runsOf chunk xs (xs.length + 1)
  let es ← chunks.mapM (fun c => do
    let groups := runsOf 16 c (c.length + 1)
    let gs ← groups.mapM (fun g => do
      let vs ← g.mapM (f32 subn)
      groupSum subn 0 false (vs.any isNan) vs)
    chunkSum subn zeroEntry gs)
  let e ← treeOf subn es 0 es.length (es.length + 1)
  resolve subn e

/-! ### The key-and-counter generator (14 R536, R537) -/

def kcgRot (r : Nat) : Nat × Nat × Nat :=
  match r % 6 with
  | 0 => (13, 7, 19)
  | 1 => (11, 23, 5)
  | 2 => (17, 9, 27)
  | 3 => (25, 3, 14)
  | 4 => (6, 29, 10)
  | _ => (21, 15, 8)

/-- Round r on the four state words. -/
def kcgRound (k : List Word) (x : Word × Word × Word × Word) (r : Nat) : Word × Word × Word × Word :=
  let (x0, x1, x2, x3) := x
  let (a, b, c) := kcgRot r
  let rk := nth 0#32 k (r % 4) + BitVec.ofNat 32 r * 0xB5AD4ECF#32
  let x0 := x0 + (x1 ^^^ rk)
  let x3 := (x3 ^^^ x0).rotateLeft a
  let x2 := x2 + x3
  let x1 := (x1 ^^^ x2).rotateLeft b
  let x0 := x0 + (x2.rotateLeft c ^^^ nth 0#32 k ((r + 2) % 4))
  (x0, x1, x2, x3)

/-- The generator's 128 bits as a number (14 R536). -/
def kcg (seed stream idx : BitVec 64) : Nat :=
  let lo (v : BitVec 64) : Word := BitVec.ofNat 32 v.toNat
  let hi (v : BitVec 64) : Word := BitVec.ofNat 32 (v.toNat / 2 ^ 32)
  let k := [lo seed, hi seed, lo stream, hi stream]
  let (a, b, c, d) := (span 0 12).foldl (kcgRound k) (lo idx, hi idx, 0x6A4E52C1#32, 0xC3D117A5#32)
  let w (x : Word) (i : Nat) : Nat := (x + nth 0#32 k i).toNat
  w a 0 + w b 1 * 2 ^ 32 + w c 2 * 2 ^ 64 + w d 3 * 2 ^ 96

end Sys2Proof.Machine
end

