-- ==== Sys2Proof/Machine/Convert.lean ====
section
/-! DEFINITION. Conversion of values into a format descriptor, and back (03 R86 to R93, R110), as stores of the finisher and
the mangles use it. -/

namespace Sys2Proof.Machine

/-- Codes and block scales of values stored under a descriptor; rnd gives element k's generator output. -/
def encodeVals (subn : Bool) (f : Fd) (rnd : Nat → Nat) (xs : List Val) : FlagM (List Byte × List Byte) := do
  let vs := xs.map (divT (fdT f))
  let rb (k : Nat) : Option Nat := if f.stoch then some (rnd k) else none
  if f.block then
    let out ← (runsOf 32 vs (vs.length + 1)).zipIdx.mapM (fun p =>
      quantBlock f.elem p.1 ((span (32 * p.2) p.1.length).map rb))
    return (packCodes f.elem (out.flatMap (·.2)), out.map (fun o => BitVec.ofNat 8 o.1))
  else
    let codes ← vs.zipIdx.mapM (fun p => encodeElem f.elem subn f.sat (rb p.2) p.1)
    return (packCodes f.elem codes, [])

/-- Values of n elements stored under a descriptor, with their block and tensor scales applied (03 R86). -/
def decodeVals (subn : Bool) (f : Fd) (bs scales : List Byte) (n : Nat) : FlagM (List Val) :=
  (span 0 n).mapM (fun k => do
    let v ← readElem subn f.elem (packedElem f.elem bs k)
    scaledVal v (if f.block then (nth 0#8 scales (k / 32)).toNat else 127) (fdT f))

/-- Bytes of n packed elements (03 R81). -/
def packedBytes (elem n : Nat) : Nat := ceilDiv (n * elemBits elem) 8

end Sys2Proof.Machine
end

