-- ==== Sys2Proof/Machine/Sha.lean ====
section
/-! DEFINITION. SHA-256 of a byte string (FIPS 180-4), as the tree keys, digests, measurements and signatures use it
(08 R337; 11 R426; 16 R593). -/

namespace Sys2Proof.Machine

/-- The round constants. -/
def shaK : List Word := [
  0x428a2f98#32, 0x71374491#32, 0xb5c0fbcf#32, 0xe9b5dba5#32, 0x3956c25b#32, 0x59f111f1#32, 0x923f82a4#32, 0xab1c5ed5#32,
  0xd807aa98#32, 0x12835b01#32, 0x243185be#32, 0x550c7dc3#32, 0x72be5d74#32, 0x80deb1fe#32, 0x9bdc06a7#32, 0xc19bf174#32,
  0xe49b69c1#32, 0xefbe4786#32, 0x0fc19dc6#32, 0x240ca1cc#32, 0x2de92c6f#32, 0x4a7484aa#32, 0x5cb0a9dc#32, 0x76f988da#32,
  0x983e5152#32, 0xa831c66d#32, 0xb00327c8#32, 0xbf597fc7#32, 0xc6e00bf3#32, 0xd5a79147#32, 0x06ca6351#32, 0x14292967#32] ++ [
  0x27b70a85#32, 0x2e1b2138#32, 0x4d2c6dfc#32, 0x53380d13#32, 0x650a7354#32, 0x766a0abb#32, 0x81c2c92e#32, 0x92722c85#32,
  0xa2bfe8a1#32, 0xa81a664b#32, 0xc24b8b70#32, 0xc76c51a3#32, 0xd192e819#32, 0xd6990624#32, 0xf40e3585#32, 0x106aa070#32,
  0x19a4c116#32, 0x1e376c08#32, 0x2748774c#32, 0x34b0bcb5#32, 0x391c0cb3#32, 0x4ed8aa4a#32, 0x5b9cca4f#32, 0x682e6ff3#32,
  0x748f82ee#32, 0x78a5636f#32, 0x84c87814#32, 0x8cc70208#32, 0x90befffa#32, 0xa4506ceb#32, 0xbef9a3f7#32, 0xc67178f2#32]

/-- The initial hash value. -/
def shaInit : List Word := [0x6a09e667#32, 0xbb67ae85#32, 0x3c6ef372#32, 0xa54ff53a#32, 0x510e527f#32, 0x9b05688c#32,
  0x1f83d9ab#32, 0x5be0cd19#32]

def rotr (x : Word) (n : Nat) : Word := x.rotateRight n

/-- The next word of the message schedule, from the last 16 words, oldest first. -/
def shaNext (w : List Word) : Word :=
  let a := nth 0#32 w 1
  let b := nth 0#32 w 14
  nth 0#32 w 0 + (rotr a 7 ^^^ rotr a 18 ^^^ (a >>> 3)) + nth 0#32 w 9 + (rotr b 17 ^^^ rotr b 19 ^^^ (b >>> 10))

/-- The rounds of a block: the constants left, the next 16 schedule words, and the working variables. -/
def shaRounds : List Word → List Word → Word × Word × Word × Word × Word × Word × Word × Word →
    Word × Word × Word × Word × Word × Word × Word × Word
  | [], _, v => v
  | k :: ks, w, (a, b, c, d, e, f, g, h) =>
    let t1 := h + (rotr e 6 ^^^ rotr e 11 ^^^ rotr e 25) + ((e &&& f) ^^^ (~~~e &&& g)) + k + nth 0#32 w 0
    let t2 := (rotr a 2 ^^^ rotr a 13 ^^^ rotr a 22) + ((a &&& b) ^^^ (a &&& c) ^^^ (b &&& c))
    shaRounds ks (w.drop 1 ++ [shaNext w]) (t1 + t2, a, b, c, d + t1, e, f, g)

/-- One block of 64 bytes. -/
def shaBlock (hs : List Word) (block : List Byte) : List Word :=
  let w := (span 0 16).map (fun i => BitVec.ofNat 32 (beNat (slice block (4 * i) 4)))
  let n (i : Nat) : Word := nth 0#32 hs i
  let (a, b, c, d, e, f, g, h) := shaRounds shaK w (n 0, n 1, n 2, n 3, n 4, n 5, n 6, n 7)
  [n 0 + a, n 1 + b, n 2 + c, n 3 + d, n 4 + e, n 5 + f, n 6 + g, n 7 + h]

/-- The blocks of a padded message: at most fuel of them. -/
def shaBlocks (hs : List Word) (m : List Byte) : Nat → List Word
  | 0 => hs
  | fuel + 1 => if m.isEmpty then hs else shaBlocks (shaBlock hs (m.take 64)) (m.drop 64) fuel

/-- SHA-256: 32 bytes. -/
def sha256 (m : List Byte) : List Byte :=
  let n := m.length
  let pad := m ++ [0x80#8] ++ List.replicate ((119 - n % 64) % 64) 0#8 ++ natBe 8 (8 * n)
  (shaBlocks shaInit pad (pad.length / 64)).flatMap (fun w => natBe 4 w.toNat)

end Sys2Proof.Machine
end

