-- ==== Sys2Proof/Machine/KvOps.lean ====
section
/-! DEFINITION. Pools, pages, sequences and the pattern tree: the operations that the KV commands, append windows and batch
steps share (08 R304 to R338). -/

namespace Sys2Proof.Machine

/-! ### Geometry (R304 to R311) -/

def kvD (p : KvPool) : Nat := 2 ^ field p.layout 1 1
def kvL (p : KvPool) : Nat := field p.layout 2 2
def kvH (p : KvPool) : Nat := field p.layout 4 1
def kvKf (p : KvPool) : Fd := fdFields (field p.layout 8 4) (field p.layout 12 4)
def kvVf (p : KvPool) : Fd := fdFields (field p.layout 16 4) (field p.layout 20 4)
/-- Element size in bits; keys and values have the same (R305). -/
def kvBits (p : KvPool) : Nat := elemBits (kvKf p).elem
def kvTpp (p : KvPool) : Nat := 262144 / (kvD p * kvBits p)
/-- Bytes of a scale slot; none where no format has BLOCK (R308, R310). -/
def kvS (p : KvPool) : Nat := if (kvKf p).block || (kvVf p).block then 16384 / kvBits p else 0
def kvLH (p : KvPool) : Nat := kvL p * kvH p

def align64k (n : Nat) : Nat := ceilDiv n 65536 * 65536

def kvScaleBase (p : KvPool) : Nat := p.va + p.pages * kvLH p * 65536
def kvTailBase (p : KvPool) : Nat := align64k (kvScaleBase p + p.pages * kvLH p * kvS p)
def kvTailBytes (p : KvPool) : Nat := if (kvVf p).block then p.seqs * kvLH p * 128 * kvD p else 0
def kvWinBase (p : KvPool) : Nat := align64k (kvTailBase p + kvTailBytes p)
def kvEnd (p : KvPool) : Nat := kvWinBase p + 16 * 65536

/-- Bytes charged for a pool (R310). -/
def kvQuota (p : KvPool) : Nat := p.pages * kvLH p * (65536 + kvS p) + kvTailBytes p + 2 ^ 20

def planeVa (p : KvPool) (pg lh : Nat) : Nat := p.va + (pg * kvLH p + lh) * 65536
def scaleSlotVa (p : KvPool) (pg lh : Nat) : Nat := kvScaleBase p + (pg * kvLH p + lh) * kvS p
def tailVa (p : KvPool) (slot lh : Nat) : Nat := kvTailBase p + (slot * kvLH p + lh) * 128 * kvD p

/-- The KV page of a virtual page of the planes. -/
def kvPageOf (p : KvPool) (page : Nat) : Nat := (page - p.va / 65536) / kvLH p

/-- The page lies in the planes region. -/
def inPlanes (p : KvPool) (page : Nat) : Bool :=
  decide (p.va / 65536 ≤ page) && decide (65536 * page < kvScaleBase p)

/-- The append window at an address (R310, R319). -/
def windowAt (x : Ctx) (va : Nat) : Option (Nat × Nat) :=
  firstSome (x.pools.map (fun q =>
    let b := kvWinBase q.2
    if b ≤ va ∧ va < b + 16 * 65536 then some (q.1, (va - b) / 65536) else none))

/-! ### Pools of a context -/

def poolOf (d : Dev) (ctx n : Nat) : Option KvPool := (smFind d.ctxs ctx).bind (fun x => smFind x.pools n)

def modPool (d : Dev) (ctx n : Nat) (f : KvPool → KvPool) : Dev :=
  modCtx d ctx (fun x => { x with pools := smUpd x.pools n f })

/-- Bytes of a context's memory, whatever the access; zeros where it cannot be read. -/
def peek (d : Dev) (ctx va n : Nat) : List Byte :=
  match readVirt d ctx va n .any with | .ok l => l | .error _ => List.replicate n 0#8

def poke (d : Dev) (ctx va : Nat) (bs : List Byte) : Dev :=
  match writeVirt d ctx va bs .any with | .ok d' => d' | .error _ => d

def seedOfCtx (d : Dev) (ctx : Nat) : BitVec 64 := match smFind d.ctxs ctx with | some x => x.seed | none => 0

/-! ### Pages (R330, R331) -/

def kvPage (p : KvPool) (pg : Nat) : KvPage := (smFind p.page pg).getD {}

def setPage (p : KvPool) (pg : Nat) (v : KvPage) : KvPool := { p with page := smPut p.page pg v }

/-- The lowest FREE page. -/
def freeKvPage (p : KvPool) : Option Nat := (span 0 (min p.pages (p.page.length + 1))).find? (fun k => (smFind p.page k).isNone)

def kvFreeCount (p : KvPool) : Nat := p.pages - p.page.length
def kvRinsing (p : KvPool) : Nat := (p.page.filter (fun q => decide (q.2.state = .rinsing))).length

/-- A page passes to rinse: every plane and scale slot (R330). -/
def startKvRinse (p : KvPool) (pg : Nat) : KvPool :=
  { p with page := smUpd p.page pg (fun v =>
      { v with state := .rinsing, count := 0, pins := 0, fill := 0, heat := 0, rinse := span 0 (kvLH p), streams := [] }) }

/-- A batch step of the context is in flight. -/
def stepBusy (d : Dev) (ctx : Nat) : Bool :=
  match smFind d.ctxs ctx with | some x => x.serve.step.isSome | none => false

/-- A page loses a holder: at zero it retires while pinned. It passes to rinse at the end of a batch step (R330, R333, R334; log 24). -/
def dropCount (p : KvPool) (pg : Nat) : KvPool :=
  let v := kvPage p pg
  let n := v.count - 1
  setPage p pg { v with count := n, state := if n = 0 ∧ v.pins ≠ 0 then .retiring else v.state }

/-- Every page without a holder or pin passes to rinse (R330, R334 action 4). -/
def rinseIdle (p : KvPool) : KvPool :=
  ((p.page.filter (fun v => v.2.count == 0 && v.2.pins == 0 && decide (v.2.state ≠ .rinsing))).map (·.1)).foldl startKvRinse p

/-- The leaf node to evict: one whose page is held by tree nodes alone, the least recently matched first, and not the one that a
block is to be published under (R338). -/
def evictable (p : KvPool) (but : Option Nat) : Option Nat :=
  let parents := p.node.filterMap (fun n => n.2.parent)
  let held (pg : Nat) : Bool := p.seq.any (fun s => s.2.live && s.2.pages.contains pg)
  ((p.node.filter (fun n => !parents.contains n.1 && !held n.2.page && decide (some n.1 ≠ but))).foldl (fun b n =>
    match b with
    | none => some n
    | some m => if n.2.matched < m.2.matched then some n else some m) none).map (·.1)

/-- Removes a node: its page loses a holder, and no sequence has its tree position there any longer. -/
def removeNode (p : KvPool) (k : Nat) : KvPool :=
  match smFind p.node k with
  | none => p
  | some n => dropCount { p with
      node := smErase p.node k
      seq := p.seq.map (fun s => if s.2.treePos = some k then (s.1, { s.2 with treePos := none }) else s) } n.page

/-- Whether pages can be taken. -/
inductive Avail where
  | ready | wait | full
  deriving DecidableEq, Repr

/-- Pages without a holder or pin that pass to rinse at the end of the step (R334). -/
def kvIdle (p : KvPool) : Nat :=
  (p.page.filter (fun q => decide (q.2.state ≠ .rinsing) && q.2.count == 0 && q.2.pins == 0)).length

/-- Whether n pages can be taken now: leaves are evicted while pages run short (R334, R335, R338), until enough are free, being
rinsed or due for rinse at the end of the step; at most fuel leaves. -/
def makeRoom (p : KvPool) (n : Nat) : Nat → Avail × KvPool
  | 0 => if n ≤ kvFreeCount p then (.ready, p) else if n ≤ kvFreeCount p + kvRinsing p then (.wait, p) else (.full, p)
  | fuel + 1 =>
    if n ≤ kvFreeCount p then (.ready, p)
    else if n ≤ kvFreeCount p + kvRinsing p then (.wait, p)
    else if n ≤ kvFreeCount p + kvRinsing p + kvIdle p then (.full, p)
    else match evictable p none with
      | some k => makeRoom (removeNode p k) n fuel
      | none => (.full, p)

/-- Pages reserved by requests for their sequences and not yet taken (09 R362). -/
def kvReserved (p : KvPool) : Nat := (p.seq.map (fun s => if s.2.live then s.2.reserved else 0)).sum

/-- Pages held by tree nodes alone (R338). -/
def kvTreeOnly (p : KvPool) : Nat :=
  ((p.node.map (fun n => n.2.page)).eraseDups.filter (fun pg => !p.seq.any (fun s => s.2.live && s.2.pages.contains pg))).length

/-- Pages that are free, being rinsed or evictable, and not reserved (09 R362). -/
def kvOpen (p : KvPool) : Nat := kvFreeCount p + kvRinsing p + kvTreeOnly p - kvReserved p

/-- Makes room for pages of a reservation. -/
def roomWithin (d : Dev) (ctx n need : Nat) : Avail × Dev :=
  match poolOf d ctx n with
  | none => (.full, d)
  | some p =>
    let (a, p') := makeRoom p need p.node.length
    (a, modPool d ctx n (fun _ => p'))

/-- Makes room for n pages in a pool beyond those reserved. -/
def roomFor (d : Dev) (ctx n need : Nat) : Avail × Dev :=
  match poolOf d ctx n with
  | none => (.full, d)
  | some p => if need ≤ kvOpen p then roomWithin d ctx n need else (.full, d)

/-- Takes the lowest free page for one holder. -/
def takeKvPage (d : Dev) (ctx n : Nat) : Option (Nat × Dev) :=
  match poolOf d ctx n with
  | none => none
  | some p => (freeKvPage p).map (fun pg => (pg, modPool d ctx n (fun p => setPage p pg { count := 1 })))

/-- Copies the planes and scale slots of the token blocks of page a that hold positions below an offset (R331). -/
def copyPageBytes (d : Dev) (ctx n a b upto : Nat) : Dev :=
  match poolOf d ctx n with
  | none => d
  | some p =>
    let blocks := ceilDiv upto 32
    let bytes := blocks * 64 * kvD p * kvBits p / 8
    let d0 := modPool d ctx n (fun p => { p with page := smUpd p.page b (fun v =>
      { v with streams := (kvPage p a).streams.filter (fun q => decide (q.1 < upto * kvLH p)) }) })
    (span 0 (kvLH p)).foldl (fun d lh =>
      let d1 := poke d ctx (planeVa p b lh) (peek d ctx (planeVa p a lh) bytes)
      if kvS p = 0 then d1 else poke d1 ctx (scaleSlotVa p b lh) (peek d ctx (scaleSlotVa p a lh) (2 * kvD p * blocks))) d0

/-! ### Sequences (R312, R313) -/

def handleOf (slot gen : Nat) : Nat := slot + gen * 2 ^ 17

/-- The sequence a handle names: its pool, slot and record. -/
def seqFind (d : Dev) (ctx handle : Nat) : Option (Nat × Nat × KvSeq) :=
  match smFind d.ctxs ctx with
  | none => none
  | some x =>
    firstSome (x.pools.map (fun q =>
      match smFind q.2.seq (handle % 2 ^ 17) with
      | some s => if s.live && handleOf (handle % 2 ^ 17) s.gen == handle then some (q.1, handle % 2 ^ 17, s) else none
      | none => none))

def seqAt (d : Dev) (ctx n slot : Nat) : KvSeq :=
  match poolOf d ctx n with | some p => (smFind p.seq slot).getD {} | none => {}

def modSeq (d : Dev) (ctx n slot : Nat) (f : KvSeq → KvSeq) : Dev :=
  modPool d ctx n (fun p => { p with seq := smUpd p.seq slot f })

/-- The length: the least LEN[l] (R313). -/
def seqLen (s : KvSeq) : Nat := match s.len with | [] => 0 | l :: ls => ls.foldl min l

/-- Sequences live on the part (R312). -/
def liveSeqs (d : Dev) : Nat :=
  (d.ctxs.map (fun c => (c.2.pools.map (fun p => (p.2.seq.filter (fun s => s.2.live)).length)).sum)).sum

/-- A new sequence in the lowest slot not in use. The generation of a slot number goes on over all pools of the part, so that a
handle stays stale when its pool is gone (R312; log 23). -/
def newSeq (d : Dev) (ctx n : Nat) (s : KvSeq) : Option (Nat × Dev) :=
  match smFind d.ctxs ctx, poolOf d ctx n with
  | some x, some p =>
    let used (k : Nat) : Bool := match smFind p.seq k with | some s => s.live | none => false
    if 131072 ≤ liveSeqs d then none
    else match (span 0 (min p.seqs (p.seq.length + 1))).find? (fun k => !used k) with
      | none => none
      | some k =>
        let g0 := smGet 0 d.kvGens k
        let taken := (x.pools.map (fun q => match smFind q.2.seq k with
          | some s => if s.live then [s.gen] else [] | none => [])).flatten
        let g := ((span 0 6).map (fun j => (g0 + j) % 2 ^ 15)).find? (fun g => !taken.contains g && handleOf k g != 0xFFFFFFFF)
        let s1 := { s with gen := g.getD (g0 % 2 ^ 15), live := true, pool := n,
                           len := List.replicate (kvL p) (seqLen s), heads := List.replicate (kvL p) 0 }
        some (handleOf k s1.gen, modPool { d with kvGens := smSet 0 d.kvGens k ((s1.gen + 1) % 2 ^ 15) } ctx n
          (fun p => { p with seq := smPut p.seq k s1 }))
  | _, _ => none

/-- The sequence belongs to the batch step in flight (R325). -/
def attached (d : Dev) (ctx handle : Nat) : Bool :=
  match smFind d.ctxs ctx with
  | none => false
  | some x => match x.serve.step with
    | some st => st.rows.any (fun r => r.seq.toNat == handle)
    | none => false

/-- A holder of the page appends to it in the step in flight (R342). -/
def appendedInStep (d : Dev) (ctx n pg : Nat) : Bool :=
  match smFind d.ctxs ctx with
  | none => false
  | some x => match x.serve.step, smFind x.pools n with
    | some st, some p => st.rows.any (fun r => match seqFind d ctx r.seq.toNat with
        | some (m, _, s) => m == n && s.pages[r.pos / kvTpp p]? == some pg
        | none => false)
    | _, _ => false

/-! ### Writing keys and values (R307 to R309, R315) -/

/-- The logical index of a key's dimension 0 (R315). -/
def kvIndex (p : KvPool) (pos l h : Nat) : Nat := ((pos * kvL p + l) * kvH p + h) * 2 * kvD p

def rndAt (d : Dev) (ctx : Nat) (stream : BitVec 64) (base : Nat) (k : Nat) : Nat :=
  kcg (seedOfCtx d ctx) stream (BitVec.ofNat 64 (base + k))

/-- BF16 codes as values. -/
def bf16Vals (subn : Bool) (bs : List Byte) (n : Nat) : FlagM (List Val) := (span 0 n).mapM (fun k => readElem subn 1 (field bs (2 * k) 2))

/-- Writes one token's key of a layer and head into its page, and its scales. -/
def putKey (d : Dev) (ctx n pg l h pos : Nat) (stream : BitVec 64) (keys : List Byte) : Dev × BitVec 32 :=
  match poolOf d ctx n with
  | none => (d, 0)
  | some p =>
    let subn := subnOf d ctx
    let off := pos % kvTpp p
    let j := off / 32
    let t := off % 32
    let lh := l * kvH p + h
    (span 0 (kvD p / 32)).foldl (fun (acc : Dev × BitVec 32) b =>
      let (d, f) := acc
      let m : FlagM (List Byte × List Byte) := do
        let vs ← bf16Vals subn (slice keys (64 * b) 64) 32
        encodeVals subn (kvKf p) (rndAt d ctx stream (kvIndex p pos l h + 32 * b)) vs
      let (o, f1) := runFlags m
      let d1 := poke d ctx (planeVa p pg lh + (64 * kvD p * j + (b * 32 + t) * 32) * kvBits p / 8) o.1
      let d2 := if (kvKf p).block then poke d1 ctx (scaleSlotVa p pg lh + 2 * kvD p * j + b * 32 + t) o.2 else d1
      (d2, f ||| f1)) (d, 0)

/-- Byte address of the tail value of a position and dimension (R309). -/
def tailElem (p : KvPool) (slot lh pos dim : Nat) : Nat :=
  tailVa p slot lh + (pos / 32 % 2) * 64 * kvD p + 2 * (dim * 32 + pos % 32)

/-- Writes one token's value: into the tail, or the plane where values are not blocked. -/
def putValue (d : Dev) (ctx n slot pg l h pos : Nat) (stream : BitVec 64) (vals : List Byte) : Dev × BitVec 32 :=
  match poolOf d ctx n with
  | none => (d, 0)
  | some p =>
    let subn := subnOf d ctx
    let lh := l * kvH p + h
    if (kvVf p).block then
      ((span 0 (kvD p)).foldl (fun d k => poke d ctx (tailElem p slot lh pos k) (slice vals (2 * k) 2)) d, 0)
    else
      let off := pos % kvTpp p
      let m : FlagM (List Byte × List Byte) := do
        let vs ← bf16Vals subn vals (kvD p)
        encodeVals subn (kvVf p) (rndAt d ctx stream (kvIndex p pos l h + kvD p)) vs
      let (o, f) := runFlags m
      let es := kvBits p / 8
      ((span 0 (kvD p)).foldl (fun d k =>
        poke d ctx (planeVa p pg lh + (64 * kvD p * (off / 32) + 32 * kvD p + k * 32 + off % 32) * es) (slice o.1 (es * k) es)) d, f)

/-! ### Closing and reopening value blocks (R314, R324) -/

/-- Quantises value block j of a layer and head from its tail into its page, and zeroes the tail block. -/
def closeValue (d : Dev) (ctx n slot lh j : Nat) (s : KvSeq) : Dev × BitVec 32 :=
  match poolOf d ctx n with
  | none => (d, 0)
  | some p =>
    let subn := subnOf d ctx
    let pg := nth 0 s.pages (32 * j / kvTpp p)
    let jj := 32 * j % kvTpp p / 32
    let l := lh / kvH p
    let h := lh % kvH p
    let (d1, f) := (span 0 (kvD p)).foldl (fun (acc : Dev × BitVec 32) k =>
      let (d, f) := acc
      let m : FlagM (List Byte × List Byte) := do
        let vs ← bf16Vals subn (peek d ctx (tailElem p slot lh (32 * j) k) 64) 32
        encodeVals subn (kvVf p) (fun t =>
          rndAt d ctx (smGet 0 (kvPage p pg).streams ((32 * jj + t) * kvLH p + lh)) (kvIndex p (32 * j + t) l h + kvD p) k) vs
      let (o, f1) := runFlags m
      let d1 := poke d ctx (planeVa p pg lh + (64 * kvD p * jj + 32 * kvD p + k * 32) * kvBits p / 8) o.1
      (poke d1 ctx (scaleSlotVa p pg lh + 2 * kvD p * jj + kvD p + k) o.2, f ||| f1)) (d, 0)
    (poke d1 ctx (tailElem p slot lh (32 * j) 0) (List.replicate (64 * kvD p) 0#8), f)

/-- Decodes value block j exactly into the tail (R324). -/
def reopenValue (d : Dev) (ctx n slot lh j : Nat) (s : KvSeq) : Dev :=
  match poolOf d ctx n with
  | none => d
  | some p =>
    let pg := nth 0 s.pages (32 * j / kvTpp p)
    let jj := 32 * j % kvTpp p / 32
    (span 0 (kvD p)).foldl (fun d k =>
      let codes := peek d ctx (planeVa p pg lh + (64 * kvD p * jj + 32 * kvD p + k * 32) * kvBits p / 8) (4 * kvBits p)
      let sc := (peek d ctx (scaleSlotVa p pg lh + 2 * kvD p * jj + kvD p + k) 1)
      let out := (span 0 32).flatMap (fun t =>
        natLe 2 (runFlags (widen (subnOf d ctx) 1 (kvVf p).elem (packedElem (kvVf p).elem codes t) (nth 0#8 sc 0).toNat)).1)
      poke d ctx (tailElem p slot lh (32 * j) k) out) d

/-! ### The pattern tree (R336 to R338) -/

/-- The key of a node (R337). -/
def nodeKey (parent : BitVec 64) (ids : List Word) (version : Word) (layout : Nat) : BitVec 64 :=
  BitVec.ofNat 64 (field (sha256 (natLe 8 parent.toNat ++ ids.flatMap (fun i => natLe 4 i.toNat) ++ natLe 4 version.toNat
    ++ [BitVec.ofNat 8 layout])) 0 8)

def keyOfNode (p : KvPool) (parent : Option Nat) : BitVec 64 :=
  match parent with | none => 0 | some k => match smFind p.node k with | some n => n.key | none => 0

/-- Looks up a block: the accepted node; without one, 1 when a node has the key and differs: a hash collision (R337). -/
def lookNode (p : KvPool) (parent : Option Nat) (ids : List Word) (version : Word) : Option Nat × Nat :=
  let key := nodeKey (keyOfNode p parent) ids version (field p.layout 0 1)
  let same := p.node.filter (fun n => n.2.key == key)
  let ok (n : Nat × KvNode) : Bool := n.2.parent == parent && n.2.ids == ids && n.2.version == version
  let hit := (same.find? ok).map (·.1)
  (hit, b2n (hit.isNone && !same.isEmpty))

/-- The token ids of a block of a sequence, when all are known. -/
def blockIds (p : KvPool) (slot j : Nat) : Option (List Word) :=
  (span (32 * j) 32).mapM (fun t => smFind p.toks (2 ^ 20 * slot + t))

/-- Publishes the block that has just closed (R338). -/
def publishBlock (d : Dev) (ctx n slot j : Nat) : Dev :=
  match poolOf d ctx n with
  | none => d
  | some p =>
    let s := (smFind p.seq slot).getD {}
    if !s.publish || (j ≠ 0 ∧ s.treePos.isNone) then d
    else match blockIds p slot j with
      | none => modSeq d ctx n slot (fun s => { s with treePos := none })
      | some ids =>
        let (hit, coll) := lookNode p s.treePos ids s.version
        let d1 := if coll = 0 then d else tallyCount d 0x38 ctx coll srcJenorneb
        match hit with
        | some k => modSeq d1 ctx n slot (fun s => { s with treePos := some k })
        | none =>
          let p1 := if p.node.length < p.nodes then some p
            else match evictable p s.treePos with | some k => some (removeNode p k) | none => none
          match p1 with
          | none => modSeq d1 ctx n slot (fun s => { s with treePos := none })
          | some p1 =>
            let pg := nth 0 s.pages (32 * j / kvTpp p)
            let node : KvNode := { key := nodeKey (keyOfNode p s.treePos) ids s.version (field p.layout 0 1),
                                   parent := s.treePos, ids := ids, version := s.version, page := pg,
                                   block := 32 * j % kvTpp p / 32, matched := p.step }
            let v := kvPage p1 pg
            let p2 := { setPage p1 pg { v with count := v.count + 1 } with
              node := smPut p1.node p1.nextNode node, nextNode := p1.nextNode + 1,
              seq := smUpd p1.seq slot (fun s => { s with treePos := some p1.nextNode }) }
            modPool d1 ctx n (fun _ => p2)

/-- Closes every block of a sequence whose 32 positions are committed on every layer (R314, R338): at most fuel. -/
def closeBlocks (d : Dev) (ctx n slot : Nat) (flags : BitVec 32) : Nat → Dev × BitVec 32
  | 0 => (d, flags)
  | fuel + 1 =>
    match poolOf d ctx n with
    | none => (d, flags)
    | some p =>
      let s := (smFind p.seq slot).getD {}
      let j := s.closed
      if 32 * (j + 1) ≤ min s.commit (seqLen s) then
        let (d1, f) := if (kvVf p).block then
            (span 0 (kvLH p)).foldl (fun (acc : Dev × BitVec 32) lh =>
              let (d, f) := closeValue acc.1 ctx n slot lh j s
              (d, acc.2 ||| f)) (d, 0)
          else (d, 0)
        let d2 := modSeq d1 ctx n slot (fun s =>
          { s with closed := j + 1, treePos := if s.publish then s.treePos else none })
        closeBlocks (publishBlock d2 ctx n slot j) ctx n slot (flags ||| f) fuel
      else (d, flags)

/-! ### Appending (R317, R320, R331) -/

/-- Every head of layers that a mask can hold. -/
def allHeads (p : KvPool) : Nat := 2 ^ kvH p - 1

/-- The sequence has already written at the position, on some layer or head. -/
def touched (s : KvSeq) (pos : Nat) : Bool :=
  s.len.any (fun l => decide (pos < l)) || (s.len.zip s.heads).any (fun q => q.1 == pos && q.2 != 0)

/-- Makes the page of a position ready for an append: taken, copied when the position is below its fill, or in place (R331).
None: no page is free. -/
def pageForAppend (d : Dev) (ctx n slot pos : Nat) : Option (Nat × Dev) :=
  match poolOf d ctx n with
  | none => none
  | some p =>
    let s := (smFind p.seq slot).getD {}
    let i := pos / kvTpp p
    let fillTo (d : Dev) (pg : Nat) : Dev :=
      modPool d ctx n (fun p => { p with page := smUpd p.page pg (fun v => { v with fill := max v.fill (pos + 1) }) })
    match s.pages[i]? with
    | none =>
      (takeKvPage d ctx n).map (fun (pg, d1) =>
        (pg, fillTo (modSeq d1 ctx n slot (fun s => { s with pages := s.pages ++ [pg], reserved := s.reserved - 1 })) pg))
    | some pg =>
      if touched s pos || decide ((kvPage p pg).fill ≤ pos) then some (pg, fillTo d pg)
      else
        (takeKvPage d ctx n).map (fun (q, d1) =>
          let d2 := copyPageBytes d1 ctx n pg q (pos % kvTpp p)
          let d3 := modPool d2 ctx n (fun p => dropCount p pg)
          let d4 := modSeq d3 ctx n slot (fun s => { s with pages := setNth s.pages i q })
          (q, fillTo (tallyCount d4 0x3A ctx 1 srcJenorneb) q))

/-- A sequence after the append of one layer and head at a position: LEN[l] advances with the layer's last head (R320). -/
def headDone (p : KvPool) (s : KvSeq) (pos l h : Nat) : KvSeq :=
  let m := nth 0 s.heads l ||| 2 ^ h
  let whole := decide (m = allHeads p)
  { s with heads := setNth s.heads l (if whole then 0 else m), len := if whole then setNth s.len l (pos + 1) else s.len }

/-- Appends one token of one layer and head; commits when told to. The page is ready. -/
def appendOne (d : Dev) (ctx n slot pos l h : Nat) (tent : Bool) (stream : BitVec 64) (keys vals : List Byte) :
    Option (Dev × BitVec 32) :=
  match pageForAppend d ctx n slot pos with
  | none => none
  | some (pg, d1) =>
    let (d2, f1) := putKey d1 ctx n pg l h pos stream keys
    let (d3, f2) := putValue d2 ctx n slot pg l h pos stream vals
    some (modPool d3 ctx n (fun p => { p with
      page := smUpd p.page pg (fun v => { v with streams := smSet 0 v.streams (pos % kvTpp p * kvLH p + l * kvH p + h) stream }),
      seq := smUpd p.seq slot (fun s =>
      let s1 := headDone p s pos l h
      if !tent && decide (s1.commit < seqLen s1) then { s1 with commit := seqLen s1 } else s1) }), f1 ||| f2)

/-- Pages that an append of a sequence from pos for count positions takes, copies included (R317, R331): (new, copied). -/
def appendNeeds (p : KvPool) (s : KvSeq) (pos count : Nat) : Nat × Nat :=
  let have_ := s.pages.length
  let last := (pos + count - 1) / kvTpp p
  let fresh := last + 1 - have_
  let i := pos / kvTpp p
  let copy := match s.pages[i]? with
    | some pg => if touched s pos || decide ((kvPage p pg).fill ≤ pos) then 0 else 1
    | none => 0
  (fresh, copy)

/-- An append would leave more than 32 positions tentative, or pass 2^20 (R317). -/
def appendBad (s : KvSeq) (newLen : Nat) (tent : Bool) : Bool :=
  decide (2 ^ 20 < newLen) || (tent && decide (s.commit + 32 < newLen))

/-! ### Freeing and truncating (R323, R324) -/

/-- Zeroes one position of a page: its keys with their scales, and its values where they are not blocked. -/
def zeroSlot (p : KvPool) (ctx pg off : Nat) (d : Dev) : Dev :=
  let j := off / 32
  let t := off % 32
  (span 0 (kvLH p)).foldl (fun d lh =>
    let d1 := (span 0 (kvD p / 32)).foldl (fun d b =>
      let d1 := poke d ctx (planeVa p pg lh + (64 * kvD p * j + (b * 32 + t) * 32) * kvBits p / 8) (List.replicate (4 * kvBits p) 0#8)
      if (kvKf p).block then poke d1 ctx (scaleSlotVa p pg lh + 2 * kvD p * j + b * 32 + t) [0#8] else d1) d
    if (kvVf p).block then d1
    else (span 0 (kvD p)).foldl (fun d k =>
      poke d ctx (planeVa p pg lh + (64 * kvD p * j + 32 * kvD p + k * 32 + t) * kvBits p / 8) (List.replicate (kvBits p / 8) 0#8)) d1) d

/-- Zeroes what a sequence's tails hold of positions from len on, once every block before len's own is closed (R323, R324). -/
def zeroTails (d : Dev) (ctx n slot len : Nat) : Dev :=
  match poolOf d ctx n with
  | none => d
  | some p =>
    if !(kvVf p).block then d
    else (span 0 (kvLH p)).foldl (fun d lh =>
      let d1 := poke d ctx (tailElem p slot lh (len / 32 * 32 + 32) 0) (List.replicate (64 * kvD p) 0#8)
      (span 0 (kvD p)).foldl (fun d k => poke d ctx (tailElem p slot lh len k) (List.replicate (2 * (32 - len % 32)) 0#8)) d1) d

/-- One past the highest position that a sequence has written on some layer or head. -/
def seqTop (s : KvSeq) : Nat := ((s.len.zip s.heads).map (fun q => q.1 + b2n (q.2 != 0))).foldl max 0

/-- Zeroes the positions from len on of the page that holds it, to the end of len's token block and as far as the sequence has
written (R323, R324; log 27), and sets the page's fill. -/
def zeroPage (d : Dev) (ctx n pg len top : Nat) : Dev :=
  match poolOf d ctx n with
  | none => d
  | some p =>
    let tpp := kvTpp p
    let stop := min (tpp - len % tpp) (max (ceilDiv len 32 * 32) top - len)
    let d1 := (span (len % tpp) stop).foldl (fun d off => zeroSlot p ctx pg off d) d
    modPool d1 ctx n (fun p => { p with page := smUpd p.page pg (fun v =>
      { v with fill := len, streams := v.streams.filter (fun q => decide (q.1 < len % tpp * kvLH p)) }) })

/-- The node that is k steps up from a node. -/
def ancestor (p : KvPool) (k : Nat) (n : Option Nat) : Option Nat :=
  match k with
  | 0 => n
  | k + 1 => match n with | none => none | some i => ancestor p k ((smFind p.node i).bind (·.parent))

/-- Cuts a sequence back to a length (R323, R324, R328): what remains is committed, and blocks that it makes whole close (R314).
None: a copy needs a page and none is free. -/
def truncateSeq (d : Dev) (ctx n slot len : Nat) : Option Dev :=
  match poolOf d ctx n with
  | none => none
  | some p =>
    let s := (smFind p.seq slot).getD {}
    let tpp := kvTpp p
    let keep := ceilDiv len tpp
    -- a closed block that the cut reopens is decoded first, from the page as it stands
    let d1 := if (kvVf p).block && len % 32 != 0 && decide (len / 32 < s.closed) then
        (span 0 (kvLH p)).foldl (fun d lh => reopenValue d ctx n slot lh (len / 32) s) d
      else d
    let shared : Bool := match s.pages[len / tpp]? with | some pg => decide (1 < (kvPage p pg).count) | none => false
    -- a cut that removes nothing leaves the page's writer its writer, and breaks no rule of R328
    let copies := shared && len % 32 != 0 && decide (len < seqTop s)
    let moved : Option Dev :=
      if copies then
        (takeKvPage d1 ctx n).map (fun (q, d2) =>
          let pg := nth 0 s.pages (len / tpp)
          let d3 := modPool (copyPageBytes d2 ctx n pg q (len % tpp)) ctx n (fun p => dropCount p pg)
          tallyCount (modSeq d3 ctx n slot (fun s => { s with pages := setNth s.pages (len / tpp) q })) 0x3A ctx 1 srcJenorneb)
      else some d1
    moved.map (fun d2 =>
      let pages := (seqAt d2 ctx n slot).pages
      let d3 := (pages.drop keep).foldl (fun d pg => modPool d ctx n (fun p => dropCount p pg)) d2
      let d4 := modPool (modSeq d3 ctx n slot (fun s =>
        { s with pages := s.pages.take keep, len := s.len.map (fun _ => len), heads := s.heads.map (fun _ => 0),
                 commit := len, closed := min s.closed (len / 32),
                 treePos := ancestor p (s.closed - len / 32) s.treePos })) ctx n (fun p =>
        { p with toks := p.toks.filter (fun q => decide (q.1 < 2 ^ 20 * slot + len) || decide (2 ^ 20 * (slot + 1) ≤ q.1)) })
      let d5 := (closeBlocks d4 ctx n slot 0 2).1
      let d6 := if (!shared || copies) && len % tpp != 0 then zeroPage d5 ctx n (nth 0 pages (len / tpp)) len (seqTop s) else d5
      if len < seqTop s then zeroTails d6 ctx n slot len else d6)

/-- Drops a sequence: its pages lose a holder, its tails are zeroed and its handle is stale (R323). -/
def freeSeq (d : Dev) (ctx n slot : Nat) : Dev :=
  match poolOf d ctx n with
  | none => d
  | some p =>
    let s := (smFind p.seq slot).getD {}
    let d1 := s.pages.foldl (fun d pg => modPool d ctx n (fun p => dropCount p pg)) d
    let d2 := if (kvVf p).block then
        (span 0 (kvLH p)).foldl (fun d lh => poke d ctx (tailVa p slot lh) (List.replicate (128 * kvD p) 0#8)) d1
      else d1
    modPool d2 ctx n (fun p => { p with
      seq := smPut p.seq slot { gen := s.gen, live := false },
      toks := p.toks.filter (fun q => decide (q.1 < 2 ^ 20 * slot) || decide (2 ^ 20 * (slot + 1) ≤ q.1)) })

/-- Extends a sequence through the tree by token ids (R338): at most fuel blocks. Blocks added, and pages matched in the
slower tier. -/
def matchBlocks (d : Dev) (ctx n slot : Nat) (ids : List Word) : Nat → Nat × Nat × Dev
  | 0 => (0, 0, d)
  | fuel + 1 =>
    match poolOf d ctx n with
    | none => (0, 0, d)
    | some p =>
      let s := (smFind p.seq slot).getD {}
      if ids.length < 32 then (0, 0, d)
      else
        let b := ids.take 32
        let (hit, coll) := lookNode p s.treePos b s.version
        let d1 := if coll = 0 then d else tallyCount d 0x38 ctx coll srcJenorneb
        match hit with
        | none => (0, 0, d1)
        | some k =>
          match smFind p.node k with
          | none => (0, 0, d1)
          | some node =>
            let len := seqLen s
            let i := len / kvTpp p
            let fresh := s.pages[i]? ≠ some node.page
            let p1 := if fresh then setPage p node.page { kvPage p node.page with count := (kvPage p node.page).count + 1 } else p
            let p2 := match s.pages[i]? with
              | some old => if old = node.page then p1 else dropCount p1 old
              | none => p1
            let pages := match s.pages[i]? with | some _ => setNth s.pages i node.page | none => s.pages ++ [node.page]
            let s1 := { s with pages := pages, len := s.len.map (fun _ => len + 32), commit := len + 32,
                               closed := (len + 32) / 32, treePos := some k }
            let toks := (b.zipIdx.foldl (fun m q => smPut m (2 ^ 20 * slot + len + q.2) q.1) p2.toks)
            let p3 := { p2 with seq := smPut p2.seq slot s1, toks := toks,
                                node := smUpd p2.node k (fun v => { v with matched := p2.step }) }
            let slow := if fresh ∧ (kvPage p node.page).tier = 2 then 1 else 0
            let (m, sl, d2) := matchBlocks (modPool d1 ctx n (fun _ => p3)) ctx n slot (ids.drop 32) fuel
            (m + 1, sl + slow, d2)

/-! ### Pins of pages (07 R269, R276; 08 R340) -/

/-- A page of a KV pool is pinned while a batch step in flight reads it; the other regions while one is in flight. -/
def kvPinned (x : Ctx) (page : Nat) (p : Pte) : Bool :=
  match p.kvPool with
  | none => false
  | some n => match smFind x.pools n with
    | none => false
    | some k =>
      if inPlanes k page then (kvPage k (kvPageOf k page)).pins != 0 else k.page.any (fun q => q.2.pins != 0)

/-- The page may not be demoted or freed (07 R269, R276). -/
def heldPage (x : Ctx) (page : Nat) (p : Pte) : Bool := pagePinned x page p || kvPinned x page p

/-- KV pages of whose scale slots a page of that region holds some. -/
def scalePages (k : KvPool) (page : Nat) : List Nat :=
  let w := max 1 (kvLH k * kvS k)
  let a := 65536 * page - kvScaleBase k
  span (a / w) ((a + 65535) / w + 1 - a / w)

/-- A page of a pool's regions holds planes, scale slots or tails of some KV pages and a sequence slot. -/
def kvHolds (k : KvPool) (pages : List Nat) (slot page : Nat) : Bool :=
  let a := 65536 * page
  if inPlanes k page then pages.contains (kvPageOf k page)
  else if a < kvTailBase k then (scalePages k page).any pages.contains
  else if a < kvWinBase k then decide (tailVa k slot 0 < a + 65536) && decide (a < tailVa k (slot + 1) 0)
  else false

/-- The memory-side die of a KV region's page (08 R311). A page of scale slots or tails holds those of several layers and heads and
lies, as R254 and R258 have it, in one frame: on the die of its first (log 56). -/
def kvDie (k : KvPool) (page : Nat) : Nat :=
  let a := 65536 * page
  let lh :=
    if a < kvScaleBase k then (page - k.va / 65536) % max 1 (kvLH k)
    else if a < kvTailBase k then (a - kvScaleBase k) / max 1 (kvS k) % max 1 (kvLH k)
    else if a < kvWinBase k then (a - kvTailBase k) / (128 * kvD k) % max 1 (kvLH k)
    else (a - kvWinBase k) / 65536
  lh % 16

end Sys2Proof.Machine
end

