-- ==== Sys2Proof/Machine/Catalog.lean ====
section
/-! DEFINITION. The catalogue of tally and the default edges (15 R554, R560, R569). -/

namespace Sys2Proof.Machine

/-! ### The catalogue (R554, R569) -/

/-- A quantity: QID, KIND and SCOPE_KIND. -/
structure Qty where
  qid   : Nat
  kind  : Nat
  scope : Nat
  deriving DecidableEq, Repr

def kCount : Nat := 0
def kExtreme : Nat := 1
def kHist : Nat := 2

def qtys (kind scope : Nat) (l : List Nat) : List Qty := l.map (fun q => { qid := q, kind := kind, scope := scope })

/-- The catalogue in QID order. -/
def catalogue : List Qty :=
  qtys 0 1 [0x01, 0x02, 0x03] ++ qtys 2 1 [0x04] ++ qtys 0 1 [0x05, 0x06, 0x07] ++ qtys 2 1 [0x08]
    ++ qtys 1 3 [0x10, 0x11] ++ qtys 2 3 [0x12]
    ++ qtys 2 1 [0x20, 0x21] ++ qtys 0 1 [0x22, 0x23, 0x24, 0x25, 0x26, 0x27, 0x28]
    ++ qtys 0 4 [0x30, 0x31, 0x32] ++ qtys 0 5 [0x33] ++ qtys 0 1 [0x38, 0x39, 0x3A]
    ++ qtys 0 6 [0x40, 0x41, 0x42, 0x43] ++ qtys 1 6 [0x44] ++ qtys 0 0 [0x48]
    ++ qtys 0 1 [0x50] ++ qtys 0 0 [0x51] ++ qtys 0 1 [0x58, 0x59, 0x5A]
    ++ qtys 2 7 [0x60] ++ qtys 2 8 [0x61] ++ qtys 2 0 [0x62]

def qtyOf (qid : Nat) : Option Qty := catalogue.find? (fun q => q.qid == qid)

def kindOfQ (qid : Nat) : Nat := match qtyOf qid with | some q => q.kind | none => 0

/-- Instances of a scope kind (R554). -/
def instances : Nat → Nat
  | 0 => 1 | 1 => 255 | 2 => 96 | 3 => 256 | 4 => 16 | 5 => 32 | 6 => 36 | 7 => 24 | _ => 66

/-- Bytes of a record of a kind (R555). -/
def recSize (kind : Nat) : Nat := if kind = 2 then 384 else 64

/-! ### Edges (R560) -/

def p2Edges : List Nat := (span 1 31).map (fun b => 2 ^ (b - 1))
def linEdges (a w : Nat) : List Nat := (span 1 31).map (fun b => a + w * (b - 1))

/-- Default edges of a quantity. -/
def defaultEdges (qid : Nat) : List Nat :=
  match qid with
  | 0x04 => linEdges 256 16 | 0x60 => linEdges 1 1 | 0x61 => linEdges 320 8 | 0x62 => linEdges 800 64 | _ => p2Edges

end Sys2Proof.Machine
end

