-- ==== Sys2Proof/Machine/Tables.lean ====
section
/-! DEFINITION. The group table (11 R419 to R421): its entries, the members of a group, and the job; the tables in force and
their digest (16 R589, R592). -/

namespace Sys2Proof.Machine

/-- The 32-byte entries of a group table: up to 64 of them, ending where the first member list begins (R419; log 25). -/
def groupScan (t : List Byte) : List (List Byte) := go 0 t.length 64
where
  /-- Entries from index i on, below the end. -/
  go (i stop : Nat) : Nat → List (List Byte)
    | 0 => []
    | fuel + 1 =>
      if stop < 32 * i + 32 then []
      else
        let e := slice t (32 * i) 32
        let stop' := if field e 1 1 = 1 then min stop (max (field e 0x0C 4) (32 * i + 32)) else stop
        e :: go (i + 1) stop' fuel

/-- The entry of a group. -/
def groupEntry (d : Dev) (g : Nat) : Option (List Byte) :=
  (groupScan (tableOf d kindGroup 0)).find? (fun e => field e 0 1 == g)

def gContext (e : List Byte) : Nat := field e 2 1
def gMembers (e : List Byte) : Nat := field e 4 2
def gRailLat (e : List Byte) : Nat := field e 0x10 4
def gStartTimeout (e : List Byte) : Nat := field e 0x14 4
def gDarnWait (e : List Byte) : Nat := field e 0x18 4

/-- The pair bit and device id of member i of an entry of a table (R420). -/
def memberIn (t e : List Byte) (i : Nat) : Nat :=
  if field e 1 1 = 1 then field t (field e 0x0C 4 + 2 * i) 2 % 2 ^ 13
  else
    let b := field e 6 2
    b / 4096 % 2 * 4096 + (b % 4096 + i * field e 8 2) % 4096

/-- The devices of a group, in member order. -/
def groupDevs (d : Dev) (g : Nat) : List Nat :=
  match groupEntry d g with
  | none => []
  | some e => (span 0 (gMembers e)).map (memberIn (tableOf d kindGroup 0) e)

/-- This part's member index in a group. -/
def memberOf (d : Dev) (g : Nat) : Option Nat := (groupDevs d g).findIdx? (fun v => v == myId d)

/-- A device is a member of the job: of group 0 (R421). -/
def inJob (d : Dev) (dev : Nat) : Bool := (groupDevs d 0).contains dev

/-! ### Firmware defaults (16 R589) -/

/-- Default weights of the memory arbiter (07 R301). -/
def defaultWeight (c : Nat) : Nat := nth 0 [256, 192, 128, 64, 96, 160, 96, 32] c

/-- The defaults of the budget table (13 R527). -/
def budgetRows : List (Nat × Nat × Nat × Bool) :=
  [(0x42B40000, 0x44834000, 0x3256BF95, true), (0x42100000, 0x43340000, 0x2C1E5466, true),
   (0x42300000, 0x435C0000, 0x311D5E1B, true), (0x42700000, 0x43820000, 0x2E151802, true),
   (0x42200000, 0x43700000, 0x2E151802, true), (0x437A0000, 0x43A50000, 0x2D5158D6, false),
   (0x42700000, 0x42700000, 0, false)]

/-- The default budget table: P_LIMIT 2,400, THROTTLE_C 100, HYST 3, HEAT_MARGIN 3, LOSS 1/39 and the rows. -/
def budgetDefault : List Byte :=
  natLe 2 2400 ++ natLe 1 100 ++ natLe 1 3 ++ natLe 1 3 ++ natLe 3 0 ++ natLe 4 0x3CD20D21 ++ natLe 4 0
    ++ budgetRows.flatMap (fun r => natLe 4 r.1 ++ natLe 4 r.2.1 ++ natLe 4 r.2.2.1 ++ natLe 4 (b2n r.2.2.2))

/-- Allocatable bytes of the part (07 R256). -/
def allocBytes (partCode : Nat) : Nat := if partCode = 2 then 1468 * 2 ^ 30 else 3004 * 2 ^ 30

/-- One entry of a partition table. -/
def partEntry (p valid mask res slice block quota : Nat) : List Byte :=
  natLe 1 p ++ natLe 1 valid ++ natLe 1 mask ++ natLe 1 res ++ natLe 2 slice ++ natLe 2 block ++ natLe 8 quota ++ natLe 16 0

/-- The default partition table (13 R497). -/
def partDefault (partCode : Nat) : List Byte :=
  partEntry 0 1 0xFF 16 1000 10000 (allocBytes partCode) ++ (span 1 7).flatMap (fun p => partEntry p 0 0 0 0 0 0)

/-- An entry of an edge table (15 R560). -/
def edgeEntry (qid : Nat) (edges : List Nat) : List Byte := natLe 2 qid ++ natLe 2 0 ++ edges.flatMap (natLe 4)

/-! ### The opcodes and the command table (02 R47 to R50, R646) -/

/-- The opcodes: value, Q0 only, accepts a deadline. -/
def opcodes : List (Nat × Bool × Bool) :=
  [(0x0100, false, true), (0x0101, true, false), (0x0102, true, false), (0x0103, false, false),
   (0x0201, true, false), (0x0202, true, false), (0x0203, false, true), (0x0204, false, true),
   (0x0301, true, false), (0x0302, false, false),
   (0x0401, false, false), (0x0402, false, false), (0x0403, false, true), (0x0404, false, true), (0x0405, false, true),
   (0x0406, false, true), (0x0407, false, true), (0x0501, false, false), (0x0502, false, true),
   (0x0601, false, true), (0x0602, false, false), (0x0701, false, true), (0x0702, false, false), (0x0703, false, false)]
  ++ [(0x0801, false, true), (0x0802, false, false), (0x0803, false, false),
   (0x0901, false, true), (0x0902, false, true), (0x0903, false, false), (0x0904, false, false), (0x0905, false, false),
   (0x0A01, false, true), (0x0B01, false, true), (0x0C01, false, false), (0x0C02, false, false), (0x0C03, false, false),
   (0x0D01, false, true), (0x0E01, false, false), (0x0F01, false, false)]

/-- Opcodes that write a result slot (R646). -/
def slotOps : List Nat := [0x0B01, 0x0A01, 0x0703, 0x0905, 0x0C03, 0x0E01, 0x0302, 0x0F01]

/-- Opcodes for which the default table requires a context (R646). -/
def ctxOps (op : Nat) : Bool :=
  [4, 5, 6, 7, 8, 9, 10, 11].contains (op / 256) || op == 0x0203 || op == 0x0204

/-- Payload bounds of the default command table (02 R646). -/
def defaultLens (op : Nat) : Nat × Nat :=
  match op with | 0x0407 => (16, 128) | 0x0601 => (32, 96) | 0x0701 => (0, 4096) | 0x0802 => (0, 4096) | _ => (0, 0)

/-- The k-th entry of the firmware's default command table (02 R646): its states and its COST_MODEL are the firmware's own
(log 14), and its entries stand in the order of 02 R47 (log 59). -/
def defaultEntry (m : Nat × Bool × Bool) (k : Nat) : List Byte :=
  let op := m.1
  let slot := slotOps.contains op
  let lens := defaultLens op
  natLe 2 op ++ natLe 2 (0xE + b2n slot) ++ natLe 2 lens.1 ++ natLe 2 lens.2
    ++ natLe 4 (b2n m.2.1 + 2 * b2n m.2.2 + 4 * b2n (ctxOps op) + 8 * b2n slot)
    ++ slice (Config.defaultTable 1) (64 * k + 12) 52

/-- The firmware's default command table (02 R646). -/
def commandDefault : List Byte := opcodes.zipIdx.flatMap (fun m => defaultEntry m.1 m.2)

/-- The firmware's default table of a kind: those the spec gives, the command table with
the firmware's own states, and the firmware's own bytes for the equalisation table (log 14). -/
def firmwareTable (d : Dev) (kind : Nat) : List Byte :=
  match kind with
  | 1 => commandDefault
  | 2 => (span 0 8).flatMap (fun c => natLe 4 (defaultWeight c))
  | 3 => partDefault d.boot.partCode
  | 4 => budgetDefault
  | 0x0B => (catalogue.filter (fun q => q.kind == 2)).flatMap (fun q => edgeEntry q.qid (defaultEdges q.qid))
  | k => Config.defaultTable k

/-! ### The configuration digest (16 R592) -/

/-- Kinds with a firmware default (16 R589). -/
def hasDefault (kind : Nat) : Bool := [1, 2, 3, 4, 6, 0x0B].contains kind

/-- The tables in force with their keys 256 KIND + INSTANCE, firmware defaults included, in order. -/
def tablesInForce (d : Dev) : List (Nat × List Byte) :=
  (span 1 11).flatMap (fun k =>
    let own := d.tables.filter (fun t => t.1 / 256 == k)
    if own.isEmpty && hasDefault k then [(256 * k, firmwareTable d k)] else own)

/-- The header of a table's entry in the digest. -/
def tableHead (key : Nat) (t : List Byte) : List Byte :=
  natLe 1 (key / 256) ++ natLe 1 (key % 256) ++ [0#8, 0#8] ++ natLe 4 t.length

/-- The table of a kind in force. -/
def tableInForce (d : Dev) (kind : Nat) : List Byte :=
  match smFind d.tables (256 * kind) with
  | some t => t
  | none => if hasDefault kind then firmwareTable d kind else []

def configDigest (d : Dev) : List Byte :=
  sha256 (d.boot.fwMeas ++ (tablesInForce d).flatMap (fun t => tableHead t.1 t.2 ++ t.2))

end Sys2Proof.Machine
end

