-- ==== Sys2Proof/Machine/MemRanges.lean ====
section
/-! DEFINITION. Reduction buffers, the operand blocks of mangle commands with their checks, and the memory ranges of commands with
their order (07 R270, R271, R276, R284 to R300, R651). -/

namespace Sys2Proof.Machine

/-! ### Reduction buffers (R291 to R295) -/

def rbE (h : List Byte) : Nat := field h 0 4
def rbN (h : List Byte) : Nat := field h 4 4 + 1
def rbSlots (h : List Byte) : Nat := field h 8 1
def rbDone (h : List Byte) : Bool := field h 9 1 != 0
def rbRoot (h : List Byte) : Nat := field h 10 1
def rbTag (h : List Byte) (k : Nat) : Nat := field h (0x20 + 8 * k) 8
def rbValid (h : List Byte) (k : Nat) : Bool := bit (rbTag h k) 63
def rbLo (h : List Byte) (k : Nat) : Nat := rbTag h k % 2 ^ 20
def rbHi (h : List Byte) (k : Nat) : Nat := bits (rbTag h k) 40 20

/-- The offset of slot k's data. -/
def slotData (e k : Nat) : Nat := 0x100 + 8 * e * k

/-- The parent of a node of tree(0, n) and its sibling; none at the root or for a range that is no node: at most fuel levels. -/
def parentIn (lo hi a b : Nat) : Nat → Option ((Nat × Nat) × (Nat × Nat))
  | 0 => none
  | fuel + 1 =>
    if hi - lo ≤ 1 then none
    else
      let m := treeSplit lo hi
      if a = lo ∧ b = m then some ((lo, hi), (m, hi))
      else if a = m ∧ b = hi then some ((lo, hi), (lo, m))
      else if b ≤ m then parentIn lo m a b fuel
      else if m ≤ a then parentIn m hi a b fuel
      else none

def parentOf (n a b : Nat) : Option ((Nat × Nat) × (Nat × Nat)) := parentIn 0 n a b (ceilLog2 n + 1)

/-- The range is a node of tree(0, n) (04 R128). -/
def isNode (n a b : Nat) : Bool := (a == 0 && b == n) || (parentOf n a b).isSome

/-- The slots a partial combines with, each with whether the slot is the left part, and the range that it then covers (R293). -/
def combChain (h : List Byte) (a b : Nat) : Nat → List (Nat × Bool) × (Nat × Nat)
  | 0 => ([], (a, b))
  | fuel + 1 =>
    match parentOf (rbN h) a b with
    | none => ([], (a, b))
    | some (p, s) =>
      match (span 0 (rbSlots h)).find? (fun k => rbValid h k && rbLo h k == s.1 && rbHi h k == s.2) with
      | none => ([], (a, b))
      | some k =>
        let (l, r) := combChain h p.1 p.2 fuel
        ((k, decide (s.1 < a)) :: l, r)

/-- How a partial goes into a buffer: the chain, the destination slot and the range it then holds. -/
structure RedPlan where
  chain : List (Nat × Bool)
  dest  : Nat
  lo    : Nat
  hi    : Nat
  deriving DecidableEq, Repr

/-- Why a partial is refused (R294). -/
inductive RedErr where
  | range | done | full
  deriving DecidableEq, Repr

def planReduce (h : List Byte) (a b : Nat) : Except RedErr RedPlan :=
  let slots := span 0 (rbSlots h)
  if rbDone h then .error .done
  else if !isNode (rbN h) a b || slots.any (fun k => rbValid h k && decide (rbLo h k < b) && decide (a < rbHi h k)) then
    .error .range
  else
    let (chain, r) := combChain h a b (ceilLog2 (rbN h) + 1)
    match slots.find? (fun k => !rbValid h k || chain.any (fun c => c.1 == k)) with
    | none => .error .full
    | some k => .ok { chain := chain, dest := k, lo := r.1, hi := r.2 }

/-- The header after the partial has gone in (R293). -/
def afterReduce (h : List Byte) (p : RedPlan) : List Byte :=
  let h1 := p.chain.foldl (fun h c => patchBytes h (0x20 + 8 * c.1) (natLe 8 0)) h
  let h2 := patchBytes h1 (0x20 + 8 * p.dest) (natLe 8 (p.lo + p.hi * 2 ^ 20 + 2 ^ 63))
  let h3 := if p.lo = 0 ∧ p.hi = rbN h then patchBytes h2 9 [1#8, BitVec.ofNat 8 p.dest] else h2
  patchBytes h3 0x10 (natLe 4 (field h 0x10 4 + 1))

def bufEntry (bs : List Byte) (i : Nat) : Entry := { s := word bs (8 * i), c := word bs (8 * i + 4) }

def entryBytes (e : Entry) : List Byte := natLe 4 e.s.toNat ++ natLe 4 e.c.toNat

/-- The combination of a partial's entries with the slots of its chain, all of n elements (R293). -/
def combSlots (subn : Bool) (n : Nat) (slots : List (List Byte × Bool)) (src : List Byte) : FlagM (List Byte) := do
  let out ← (span 0 n).mapM (fun i =>
    slots.foldlM (fun x s => if s.2 then comb subn (bufEntry s.1 i) x else comb subn x (bufEntry s.1 i)) (bufEntry src i))
  return out.flatMap entryBytes

/-- The header that RB_INIT writes (R292). -/
def rbInit (e nchunk slots : Nat) : List Byte :=
  natLe 4 e ++ natLe 4 nchunk ++ natLe 1 slots ++ List.replicate 247 0#8

/-- RESOLVE's element: the exact sum of the root's entry, rounded once (R295). -/
def resolveInto (subn : Bool) (f : Fd) (rb : Option Nat) (e : Entry) : FlagM Nat := do
  let s ← f32 subn e.s
  let v ← (match s with
    | .fin .. => do
      let c ← f32 subn e.c
      vadd s c
    | v => return v)
  encodeElem f.elem subn f.sat rb v

/-! ### Operand blocks (R284 to R300) -/

def mOp (c : Cmd) : Nat := par c 0x10 1
def mFlags (c : Cmd) : Nat := par c 0x14 4
def mStream (c : Cmd) : BitVec 64 := BitVec.ofNat 64 (par c 0x18 8)
def mCount (c : Cmd) : Nat := par c 0x20 8
def mIndex0 (c : Cmd) : Nat := par c 0x28 8
def blk (c : Cmd) (o n : Nat) : Nat := field c.payload o n
def blkFd (c : Cmd) (o : Nat) : Fd := fdFields (blk c o 4) (blk c (o + 4) 4)

/-- The operand block's length (R284). -/
def blockLen (op : Nat) : Nat :=
  match op with
  | 1 => 128 | 2 => 24 | 3 => 24 | 4 => 40 | 5 => 40 | 6 => 32 | 7 => 32 | 8 => 48 | _ => 16

/-- An operand: its payload offset, address, bits per element, elements, and whether the operation writes it. -/
structure Operand where
  off   : Nat
  va    : Nat
  bits  : Nat
  n     : Nat
  write : Bool
  deriving DecidableEq, Repr

def opBytes (o : Operand) : Nat := ceilDiv (o.n * o.bits) 8

/-- SLOTS of the RB_INIT of a buffer admitted last, while it has not finished: it will write the header (R651). -/
def pendingInit (d : Dev) (ctx va : Nat) : Option Nat :=
  d.cmds.foldl (fun b p =>
    if opcodeC p.2 = 0x0407 ∧ mOp p.2 = 9 ∧ cmdContext p.2 = ctx ∧ blk p.2 0 8 = va ∧ p.2.fin.isNone then some (blk p.2 0xC 1)
    else b) none

/-- SLOTS of a header that is a reduction buffer's (R291). -/
def slotsOk (h : List Byte) : Bool := decide (1 ≤ rbSlots h) && decide (rbSlots h ≤ 24)

/-- The slots that a buffer extends over: by its header once the command begins, and before that by the RB_INIT still to write
it; a header that is no buffer's gives no extent beyond itself (R285, R651; log 31). -/
def bufSlots (d : Dev) (ctx va : Nat) (begins : Bool) : Nat :=
  let h := peek d ctx va 256
  match (if begins then none else pendingInit d ctx va) with
  | some k => k
  | none => if slotsOk h then rbSlots h else 0

/-- The arrays of a reduction buffer: its header, and each of its slots; which of them the operation writes (RB_INIT: the header
alone, R292). -/
def bufOperands (off va n : Nat) (head data : Bool) (slots : Nat) : List Operand :=
  { off := off, va := va, bits := 2048, n := 1, write := head } ::
    (span 0 slots).map (fun j => { off := off, va := va + slotData n j, bits := 64, n := n, write := data })

/-- Bits of an element under a descriptor field. -/
def fdBits (c : Cmd) (o : Nat) : Nat := elemBits (blkFd c o).elem

/-- The operands of a MEM.MANGLE, the first output first among those that decide the pieces (R282). -/
def mangleOperands (d : Dev) (c : Cmd) (begins : Bool) : List Operand :=
  let n := mCount c
  let a (off bits n : Nat) (w : Bool) : Operand := { off := off, va := blk c off 8, bits := bits, n := n, write := w }
  let buf (o : Nat) (w : Bool) : List Operand := bufOperands o (blk c o 8) n w w (bufSlots d (cmdContext c) (blk c o 8) begins)
  match mOp c with
  | 1 => [a 0 32 n false, a 8 32 n true, a 16 32 n false, a 24 32 n true, a 32 32 n false, a 40 32 n true]
      ++ (if bit (mFlags c) 1 then buf 0x30 false else [a 0x30 32 n false])
      ++ (if blk c 0x38 8 = 0 then [] else [a 0x38 (fdBits c 0x40) n true])
  | 2 => buf 0 true ++ [a 8 64 n false]
  | 3 => buf 0 false ++ [a 8 (fdBits c 0x10) n true]
  | 4 => [a 0 (fdBits c 8) n false, a 0x10 (fdBits c 0x18) n true]
      ++ (if (blkFd c 0x18).block then [a 0x20 8 (n / 32) true] else [])
  | 5 => [a 0 (fdBits c 8) n false] ++ (if (blkFd c 8).block then [a 0x10 8 (ceilDiv n 32) false] else [])
      ++ [a 0x18 (fdBits c 0x20) n true]
  | 6 => [a 0 32 n false, a 8 (8 * blk c 0x14 4) (blk c 0x10 4) false, a 0x18 (8 * blk c 0x14 4) n true]
  | 7 => [a 0 32 n false, a 8 (8 * blk c 0x14 4) n false, a 0x18 (8 * blk c 0x14 4) (blk c 0x10 4) true]
  | 8 => [a 0 (fdBits c 8 * blk c 0x28 1 * blk c 0x2C 4) n false, a 0x10 (32 * blk c 0x28 1) n false,
          a 0x18 (fdBits c 0x20 * blk c 0x2C 4) n true]
  | _ => bufOperands 0 (blk c 0 8) n true false (blk c 0xC 1)

/-- A range is mapped LOCAL or SLOW, with MG where it is written (R270, R285). -/
def rangeOk (x : Ctx) (va n : Nat) (write : Bool) : Bool :=
  n == 0 || (let l := leavesIn x va n
    coveredBy l va n && l.all (fun q => decide (q.2.kind ≠ .remote) && (!write || q.2.mg)))

/-- The memory-side die of a byte of a context; none where the page is SLOW (R282). -/
def dieAt (x : Ctx) (va : Nat) : Option Nat :=
  match leafKey x va with
  | some (key, p) => if p.kind = .localPage then some (homeDie (nth 0 p.frames (pageOf va - key))) else none
  | none => none

/-- The elements at which an operand enters a page. -/
def pageStarts (o : Operand) : List Nat :=
  (pieces o.va (opBytes o)).map (fun p => ceilDiv ((p.1 - o.va) * 8) (max 1 o.bits))

/-- The first operand whose element i lies on another memory-side die than that of an earlier operand, at the first such i; a page
in the slower tier lies on none yet (R285). -/
def dieMismatch (x : Ctx) (os : List Operand) : Option Nat :=
  let es := (os.filter (fun o => decide (1 < o.n) || o.bits != 2048)) -- the headers of buffers are no element arrays
  let at_ (i : Nat) : List (Nat × Nat) := es.filterMap (fun o =>
    if i < o.n then (dieAt x (o.va + i * o.bits / 8)).map (fun m => (o.off, m)) else none)
  let starts := es.foldl (fun l o => insertAll (pageStarts o) l) []
  firstSome (starts.map (fun i => match at_ i with
    | [] => none
    | r :: rest => (rest.find? (fun o => o.2 != r.2)).map (·.1)))

/-- Every page of a range lies on one memory-side die (R292). -/
def onOneDie (x : Ctx) (va n : Nat) : Bool :=
  match (pieces va n).filterMap (fun p => dieAt x p.1) with
  | [] => true
  | m :: l => l.all (fun k => k == m)

/-- The word of a descriptor of the block that fails (03 R84), as an offset from 0x40 on; none: it is valid. -/
def fdBadAt (c : Cmd) (o : Nat) : Option Nat := (fdBadWord (blk c o 4) (blk c (o + 4) 4)).map (fun k => 0x40 + o + k)

/-- Descriptor and value fields of the operand block that fail (R285, R288, R292, R295 to R300). -/
def blockFields (c : Cmd) : List (Nat × Bool) :=
  let fd (o : Nat) (noBlock : Bool) : List (Nat × Bool) :=
    [((fdBadAt c o).getD (0x40 + o), (fdBadAt c o).isSome || (noBlock && (blkFd c o).block))]
  match mOp c with
  | 1 =>
    -- without OUT the descriptor is not used; its reserved bits are reserved all the same (02 R9)
    (if blk c 0x38 8 = 0 then [(0x80, fdReserved (blk c 0x40 4))] else fd 0x40 true) ++ resvPay c.payload 0x70 16
  | 3 => fd 0x10 true ++ [(0x50, decide (1 < (blkFd c 0x10).elem))]
  | 4 => fd 8 true ++ fd 0x18 false ++ [(0x20, (blkFd c 0x18).block && mCount c % 32 != 0)]
  | 5 => fd 8 false ++ fd 0x20 true
  | 6 => [(0x54, blk c 0x14 4 % 64 != 0 || outside' 64 65536 (blk c 0x14 4))]
  | 7 => [(0x54, blk c 0x14 4 % 64 != 0 || outside' 64 65536 (blk c 0x14 4))]
  | 8 => fd 8 true ++ fd 0x20 true ++ [(0x68, outside' 1 16 (blk c 0x28 1))] ++ resvPay c.payload 0x29 3
      ++ [(0x6C, blk c 0x2C 4 == 0)]
  | 9 => [(0x48, decide (2 ^ 20 ≤ blk c 8 4)), (0x4C, outside' 1 24 (blk c 0xC 1))] ++ resvPay c.payload 0x0D 3
  | _ => []
where
  /-- Outside a closed range. -/
  outside' (lo hi v : Nat) : Bool := decide (v < lo) || decide (hi < v)

/-- The parameter check of MEM.MANGLE (R284 to R286), made again when it begins. -/
def chkMangle (d : Dev) (c : Cmd) (begins : Bool) : Chk Unit :=
  let op := mOp c
  let opBad := op == 0 || decide (9 < op)
  let flagBad := if op = 1 then mFlags c / 4 != 0 else mFlags c != 0
  let basic := [(0x10, opBad), (0x14, flagBad)] ++ resv c.hdr 0x11 3 ++ resv c.hdr 0x30 16
  if opBad then chkFields basic
  else if c.payload.length < blockLen op then chkFields ((0x0A, true) :: basic)
  else match smFind d.ctxs (cmdContext c) with
    | none => badParam 0x08
    | some x =>
      let os := mangleOperands d c begins
      let ranges := os.map (fun o => (0x40 + o.off, !rangeOk x o.va (opBytes o) o.write))
      let dies := if op ≤ 3 then (match dieMismatch x os with | some o => [(0x40 + o, true)] | none => []) else []
      let whole := if op = 9 then [(0x40, !onOneDie x (blk c 0 8) (0x100 + 8 * mCount c * blk c 0xC 1))] else []
      let extra := resvPay c.payload (blockLen op) (c.payload.length - blockLen op)
      chkFields (basic ++ blockFields c ++ ranges ++ dies ++ whole ++ extra)

/-! ### The order of memory commands (R271) -/

def isMemOp (c : Cmd) : Bool := opcodeC c / 256 == 4

/-- The ranges of a memory command: address, bytes, whether it writes them. -/
def memRanges (d : Dev) (c : Cmd) : List (Nat × Nat × Bool) :=
  match opcodeC c with
  | 0x0403 => [(par c 0x10 8, par c 0x20 8, false), (par c 0x18 8, par c 0x20 8, true)]
  | 0x0404 => [(par c 0x10 8, par c 0x18 8, true)]
  | 0x0407 => (mangleOperands d c false).map (fun o => (o.va, opBytes o, o.write))
  | 0x0401 => if par c 0x20 1 = 2 then [] else [(par c 0x10 8, par c 0x18 8, true)]
  | _ => [(par c 0x10 8, par c 0x18 8, true)]

def rangesMeet (a b : List (Nat × Nat × Bool)) : Bool :=
  a.any (fun x => b.any (fun y => (x.2.2 || y.2.2) && decide (x.1 < y.1 + y.2.1) && decide (y.1 < x.1 + x.2.1)))

/-- Entry k of an update list, as the ADAM command with GRAD_RB that it stands for (12 R480; log 31). -/
def stageEntry (c : Cmd) (k : Nat) : Cmd :=
  { c with
    hdr := natLe 2 0x0407 ++ slice c.hdr 2 14 ++ natLe 4 1 ++ natLe 4 2 ++ slice c.hdr 0x28 8 ++ slice c.payload (144 * k) 16
      ++ natLe 16 0
    payload := slice c.payload (144 * k + 16) 128 }

/-- A command whose work runs on mangles (R270, R282; 12 R480). -/
def isMangleOp (c : Cmd) : Bool := [0x0403, 0x0404, 0x0407, 0x0901].contains (opcodeC c)

/-- The ranges of a mangle command; of a WEIGHTS.STAGE those of its entries (12 R480). -/
def mangleRanges (d : Dev) (c : Cmd) : List (Nat × Nat × Bool) :=
  if opcodeC c = 0x0901 then
    (span 0 (c.payload.length / 144)).flatMap (fun k => (mangleOperands d (stageEntry c k) false).map (fun o => (o.va, opBytes o, o.write)))
  else memRanges d c

/-- A page meets ranges. -/
def pageMeets (page bytes : Nat) (rs : List (Nat × Nat × Bool)) : Bool :=
  rs.any (fun r => decide (65536 * page < r.1 + r.2.1) && decide (r.1 < 65536 * page + bytes))

/-- A mangle piece of the context that has its translations uses a page (R261). -/
def pieceUses (d : Dev) (ctx page : Nat) (p : Pte) : Bool :=
  d.mem.pieces.any (fun q => q.mang.isSome && (match smFind d.cmds q.cid with
    | some c => cmdContext c == ctx && pageMeets page (pageBytes p) (mangleRanges d c)
    | none => false))

/-- A mangle command of the context has a page in range; of those that a MEM.DEMOTE of the range goes before, only one that has
begun (R271, R276). -/
def mangleHas (d : Dev) (ctx page : Nat) (p : Pte) (cid : Option Nat) : Bool :=
  d.cmds.any (fun q => isMangleOp q.2 && q.2.fin.isNone && cmdContext q.2 == ctx
    && (match cid with | some k => decide (q.1 < k) || !q.2.info.isEmpty || opcodeC q.2 == 0x0901 | none => true)
    && pageMeets page (pageBytes p) (mangleRanges d q.2))

/-- An earlier memory command of the context on the same range has not completed (R271). -/
def memBlocked (d : Dev) (cid : Nat) (c : Cmd) : Bool :=
  let mine := memRanges d c
  d.cmds.any (fun p => decide (p.1 < cid) && isMemOp p.2 && p.2.fin.isNone && cmdContext p.2 == cmdContext c
    && rangesMeet (memRanges d p.2) mine)

/-- The pages of the ranges that are not local now: SLOW ones are to be recalled (R278), those in TRANSIT waited for (R275). -/
def notLocal (d : Dev) (ctx : Nat) (rs : List (Nat × Nat × Bool)) : SMap Pte :=
  match smFind d.ctxs ctx with
  | none => []
  | some x => (x.ptes.filter (fun q => (q.2.transit || decide (q.2.kind = .slow))
      && rs.any (fun r => decide (65536 * q.1 < r.1 + r.2.1) && decide (r.1 < 65536 * q.1 + pageBytes q.2))))

end Sys2Proof.Machine
end

