-- ==== Sys2Proof/Machine/MoveOps.lean ====
section
/-! DEFINITION. Page moves between the tiers, rinse of frames, patrol scrub, refresh and the memory arbiters
(07 R252, R253, R272 to R281, R303). -/

namespace Sys2Proof.Machine

/-! ### Pages that wait for a move (R222, R273, R278) -/

def moveOf (d : Dev) (ctx page : Nat) : Option Move := d.mem.moves.find? (fun m => m.ctx == ctx && m.page == page)

def waitOf (d : Dev) (ctx page : Nat) : Option MoveWait := d.mem.waits.find? (fun w => w.ctx == ctx && w.page == page)

/-- The tier of a page (R272). -/
def tierOf (p : Pte) : Nat := match p.kind with
  | .slow => 2 | .localPage => if p.frames.any isCup then 0 else 1 | .remote => 1

/-- The engine side of the context is in the slower tier or on its way there. -/
def ctxAway (d : Dev) (ctx : Nat) : Bool :=
  match smFind d.ctxs ctx with | some x => decide (x.state = .demoted ∨ x.state = .demoting) | none => false

/-- Asks for a page of the slower tier to be brought back to the tier that it was demoted from (R278), but to LPDDR6 while its
context is demoted (13 R518), for a command or a line; a move or a wait that exists already serves a line as well. -/
def recallPage (d : Dev) (ctx page : Nat) (p : Pte) (cid : Option Nat) (line : List (Nat × Nat × Nat)) : Dev :=
  match moveOf d ctx page with
  | some _ =>
    modMem d (fun m => { m with moves := m.moves.map (fun v =>
      if v.ctx = ctx ∧ v.page = page then { v with line := v.line ++ line } else v) })
  | none =>
    match waitOf d ctx page with
    | some _ => modMem d (fun m => { m with waits := m.waits.map (fun v =>
        if v.ctx = ctx ∧ v.page = page then { v with line := v.line ++ line } else v) })
    | none =>
      if p.kind = .slow then
        modMem d (fun m => { m with waits := m.waits ++
          [{ ctx := ctx, page := page, to_ := if p.cupTier && !ctxAway d ctx then 0 else 1, dest := none, slow := [], cid := cid, line := line }] })
      else d

/-- A launch with a deadline runs in the context (R224). -/
def deadlineRuns (d : Dev) (ctx : Nat) : Bool :=
  d.launches.any (fun z => z.2.ctx == ctx && z.2.due.isSome && decide (z.2.state = .running))

/-- A mangle piece of the context is waiting or running (R276). -/
def mangling (d : Dev) (ctx : Nat) : Bool :=
  d.mem.pieces.any (fun p => match smFind d.cmds p.cid with | some c => cmdContext c == ctx | none => false)

/-- A transfer in flight, or a mangle piece, uses a page (R261). -/
def inUse (d : Dev) (ctx page : Nat) (p : Pte) : Bool :=
  d.xfers.any (fun x => x.2.ctx == ctx && (match x.2.kind with | .sig _ => false | .toEngine _ => false | _ => true)
    && decide (x.2.va < 65536 * page + pageBytes p) && decide (65536 * page < x.2.va + x.2.len))
    || pieceUses d ctx page p

/-- A handle names a sequence of a pre-empted request. -/
def isPreempted (d : Dev) (ctx handle : Nat) : Bool :=
  d.reqs.any (fun r => r.2.ctx == ctx && decide (r.2.state = .preempted) && (r.2.seq.toNat == handle || r.2.draftSeq.toNat == handle))

/-- Every sequence of which a page of a KV pool holds planes, scale slots or tails is a pre-empted request's (08 R340). -/
def kvMayLeave (d : Dev) (ctx : Nat) (p : Pte) (page : Nat) : Bool :=
  match p.kvPool with
  | none => true
  | some n => match poolOf d ctx n with
    | none => true
    | some k => (k.seq.filter (fun s => s.2.live && kvHolds k s.2.pages s.1 page)).all (fun s => isPreempted d ctx (handleOf s.1 s.2.gen))

/-- The leaves of a sequence's planes, scale slots and tails that lie in the slower tier or are on their way (08 R340, R341). -/
def seqAway (d : Dev) (ctx n slot : Nat) (pages : List Nat) : SMap Pte :=
  match smFind d.ctxs ctx, poolOf d ctx n with
  | some x, some p =>
    x.ptes.filter (fun q => q.2.kvPool == some n && (q.2.transit || decide (q.2.kind = .slow)) && kvHolds p pages slot q.1)
  | _, _ => []

/-- A move of a KV page between the near tiers may not begin while a step in flight appends to the page (08 R342). -/
def stepAppends (d : Dev) (x : Ctx) (ctx page : Nat) (p : Pte) (to_ : Nat) : Bool :=
  match p.kvPool, p.kvPool.bind (fun n => smFind x.pools n) with
  | some n, some k => decide (to_ ≠ 2) && decide (p.kind = .localPage) && inPlanes k page && appendedInStep d ctx n (kvPageOf k page)
  | _, _ => false

/-- A copy of a KV page between the near tiers, whose mapping is switched at the end of the step in flight (08 R342). -/
def switchLater (d : Dev) (mv : Move) (p : Pte) : Bool :=
  p.kvPool.isSome && mv.dest.isSome && decide (p.kind = .localPage) && stepBusy d mv.ctx

/-- A demotion of the page, by a command or none, must wait (R224, R276; 08 R340). -/
def demoteHeld (d : Dev) (x : Ctx) (ctx page : Nat) (p : Pte) (to_ : Nat) (cid : Option Nat) : Bool :=
  heldPage x page p || deadlineRuns d ctx || mangleHas d ctx page p cid || (to_ == 2 && !kvMayLeave d ctx p page)

/-- The place a page goes to when its move names none (R273, R278; log 9). -/
def defaultPlace (d : Dev) (x : Ctx) (page : Nat) (p : Pte) (to_ : Nat) : Place :=
  match p.kvPool.bind (fun n => smFind x.pools n) with
  | some k =>
    if to_ = 0 then
      match partOf d x.part with
      | some q => let cs := partCups q; .cup (nth 0 cs ((page - k.va / 65536) % max 1 (kvLH k) % max 1 cs.length))
      | none => .cup 0
    else .die (kvDie k page)
  | none =>
    if to_ = 0 then
      match partOf d x.part with
      | some q => let cs := partCups q; .cup (nth 0 cs (page % max 1 cs.length))
      | none => .cup 0
    else match p.frames with
      | f :: _ => .die (homeDie f)
      | [] => .die (page % 16)

def dropWait (d : Dev) (w : MoveWait) : Dev := modMem d (fun m => { m with waits := m.waits.filter (fun v => v != w) })

/-- Starts the move of a page that waits for one (R274 step 1): the page is in TRANSIT. A recall asks for its host data. -/
def startMove (ctx page : Nat) (d : Dev) : Dev :=
  match smFind d.ctxs ctx, waitOf d ctx page, moveOf d ctx page with
  | some x, some w, none =>
    match smFind x.ptes page with
    | none => freePoolPages (freeFrames (dropWait d w) (w.dest.getD [])) x.part w.slow
    | some p =>
      let t := tierOf p
      let down := decide (t < w.to_)
      if p.kind = .remote ∨ t = w.to_ then
        freePoolPages (freeFrames (dropWait d w) (w.dest.getD [])) x.part w.slow
      else if (down && demoteHeld d x ctx page p w.to_ w.cid) || inUse d ctx page p || stepAppends d x ctx page p w.to_ then d
      else
        let got : Option (Option (List Nat) × Dev) :=
          if w.to_ = 2 then some (none, d)
          else match w.dest with
            | some fs => some (some fs, d)
            | none => (takeRun d (defaultPlace d x page p w.to_) (pageFrames p)).map (fun (f, d1) =>
                (some (span f (pageFrames p)), d1))
        match got with
        | none => d
        | some (dest, d1) =>
          let mv : Move := { ctx := ctx, page := page, dest := dest, slow := if w.to_ = 2 then w.slow else p.slowPgs,
                             cid := w.cid, failAt := none, line := w.line, asked := false }
          let d2 := modMem (dropWait d1 w) (fun m => { m with moves := m.moves ++ [mv] })
          let d2 := match w.cid with
            | some c => markThrottled d2 c (((p.frames ++ dest.getD []).filterMap (fun f => if isCup f then none else some (8 + homeDie f))).eraseDups)
            | none => d2
          let d2 := match w.cid with
            | some c => if !d.host.bme && (w.to_ == 2 || decide (p.kind = .slow)) then stallBme d2 c else d2
            | none => d2
          -- readers of a KV page go on while it is copied between the near tiers (08 R342)
          let d3 := if switchLater d mv p then d2 else setPte d2 ctx page { p with transit := true }
          if p.kind = .slow then
            match partOf d x.part with
            | none => d3
            | some q => p.slowPgs.zipIdx.foldl (fun d k => wantHost d (.move ctx (page + k.2)) (poolAddr q k.1) 65536) d3
          else d3
  | _, _, _ => d

/-- PAGE_MOVE (R274). -/
def execPageMove (ctx page : Nat) (s : State) : Host.Outcome State Fault Refusal := onDev s (startMove ctx page)

/-- The bytes of a page's frames. -/
def frameBytesOf (d : Dev) (fs : List Nat) : List Byte := fs.flatMap (fun f => memRead d.mem.dram (65536 * f) 65536)

/-- The bytes of a page's frames as a move reads them. An uncorrectable unit is not delivered, its frame is retired (R250,
R251, R263), and what the copy holds in its place is free (log 9). -/
def copiedBytes (d : Dev) (fs : List Nat) : List Byte × Dev :=
  let bad := d.mem.bad.filter (fun b => fs.contains (b / 65536))
  if bad.isEmpty then (frameBytesOf d fs, d)
  else
    ((frameBytesOf d fs).zipIdx.map (fun p =>
        if badIn d.mem (65536 * nth 0 fs (p.2 / 65536) + p.2 % 65536) 1 then Config.freeByte d.freeCtr p.2 else p.1),
     bad.foldl reportBad { d with freeCtr := d.freeCtr + 1 })

def putFrames (d : Dev) (fs : List Nat) (bs : List Byte) : Dev :=
  fs.zipIdx.foldl (fun d f => modMem d (fun m => writePhys m (65536 * f.1) (slice bs (65536 * f.2) 65536))) d

/-- The move ends: the entry takes its new kind and target and leaves TRANSIT (R274 step 3). -/
def finishMove (d : Dev) (mv : Move) (p : Pte) : Dev :=
  let d1 := setPte d mv.ctx mv.page { p with transit := false }
  let d2 := modMem d1 (fun m => { m with moves := m.moves.filter (fun v => !(v.ctx == mv.ctx && v.page == mv.page)) })
  match p.kvPool, p.kvPool.bind (fun n => poolOf d mv.ctx n) with
  | some n, some k =>
    if inPlanes k mv.page then
      modPool d2 mv.ctx n (fun k => { k with page := smUpd k.page (kvPageOf k mv.page) (fun v => { v with tier := tierOf p }) })
    else d2
  | _, _ => d2

def wantsOf (mv : Move) : List ReadFor := mv.slow.zipIdx.map (fun k => .move mv.ctx (mv.page + k.2))

def dropWants (d : Dev) (mv : Move) : Dev := (wantsOf mv).foldl dropWant d

/-- Ends the move of a page (R274 to R276). A move whose copy is not complete goes on. -/
def endMove (ctx page : Nat) (d : Dev) : Dev :=
  match smFind d.ctxs ctx, moveOf d ctx page with
  | some x, some mv =>
    match smFind x.ptes page with
    | none => d
    | some p =>
      match mv.failAt with
      | some a =>
        -- a recall whose read failed leaves the page SLOW (17 R618)
        let d1 := freeFrames (finishMove (dropWants d mv) mv p) (mv.dest.getD [])
        let d2 := mv.line.foldl (fun d l => modE d l.1 l.2.1 (fun e =>
          let v := smGet {} e.lines l.2.2
          if v.state = .recall then
            { e with lines := smSet {} e.lines l.2.2 { v with state := .faulted, fault := LINE_DATA } } else e)) d1
        match mv.cid with
        | some c => finishCmd d2 c stDeviceFault 0x0007 [(0x18, 8, a)] none
        | none => d2
      | none =>
        match mv.dest with
        | none =>
          -- to the slower tier, by device-initiated writes
          if !d.host.bme then d
          else match partOf d x.part with
            | none => d
            | some q =>
              let (bs, d0) := copiedBytes d p.frames
              let d1 := mv.slow.zipIdx.foldl (fun d k => bulkWrite d (poolAddr q k.1) (slice bs (65536 * k.2) 65536)) d0
              let d2 := finishMove d1 mv { p with kind := .slow, target := nth 0 mv.slow 0, frames := [], slowPgs := mv.slow,
                                                   cupTier := p.frames.any isCup }
              uncharge (freeFrames d2 p.frames) x.part (if chargedInLp p then pageBytes p else 0)
        | some fs =>
          if fs.any (fun f => !rinsed d f) then d
          else if switchLater d mv p then
            modMem d (fun m => { m with moves := m.moves.map (fun v => if v = mv then { v with copied := true } else v) })
          else
            let q : Pte := { p with kind := .localPage, target := nth 0 fs 0, frames := fs, slowPgs := [] }
            let fee (d : Dev) : Dev := charge d x.part (if chargedInLp q && !chargedInLp p then pageBytes q else 0)
            match p.kind with
            | .slow =>
              let parts := (wantsOf mv).map (wantDone d)
              if parts.all (·.isSome) then
                let d1 := putFrames (dropWants d mv) fs (parts.flatMap (·.getD []))
                fee (freePoolPages (finishMove d1 mv q) x.part p.slowPgs)
              else d
            | _ =>
              let (bs, d0) := copiedBytes d p.frames
              let d1 := putFrames d0 fs bs
              let d2 := fee (freeFrames (finishMove d1 mv q) p.frames)
              uncharge d2 x.part (if chargedInLp p && !chargedInLp q then pageBytes p else 0)
  | _, _ => d

/-- PAGE_MOVE_COMPLETE (R274, R275). -/
def execPageMoveComplete (ctx page : Nat) (s : State) : Host.Outcome State Fault Refusal := onDev s (endMove ctx page)

/-! ### Rinse (R280; 08 R330) -/

/-- The KV plane that a frame holds, if its page is being rinsed: context, pool, page and plane. -/
def kvPlaneAt (d : Dev) (fr : Nat) : Option (Nat × Nat × Nat × Nat) :=
  firstSome (d.ctxs.map (fun c => firstSome (c.2.ptes.map (fun q =>
    match q.2.kvPool with
    | none => none
    | some n =>
      if q.2.frames.contains fr then
        match smFind c.2.pools n with
        | some k =>
          let idx := q.1 - k.va / 65536
          if inPlanes k q.1 ∧ (kvPage k (idx / kvLH k)).state = .rinsing then some (c.1, n, idx / kvLH k, idx % kvLH k) else none
        | none => none
      else none))))

/-- A plane of a KV page has been rinsed, with its scale slot; the page is FREE after its last plane (08 R330). -/
def rinsePlane (d : Dev) (ctx n pg lh : Nat) : Dev :=
  match poolOf d ctx n with
  | none => d
  | some k =>
    let d1 := poke d ctx (planeVa k pg lh) (List.replicate 65536 0#8)
    let d2 := if kvS k = 0 then d1 else poke d1 ctx (scaleSlotVa k pg lh) (List.replicate (kvS k) 0#8)
    modPool d2 ctx n (fun k =>
      let v := kvPage k pg
      let left := v.rinse.filter (fun j => j != lh)
      { k with page := if left.isEmpty then smErase k.page pg else smPut k.page pg { v with rinse := left } })

/-- FRAME_RINSE_COMPLETE (R280). -/
def execFrameRinseComplete (frame : Nat) (s : State) : Host.Outcome State Fault Refusal :=
  onDev s (fun d => match kvPlaneAt d frame with
    | some (ctx, n, pg, lh) => rinsePlane d ctx n pg lh
    | none => rinseFrame d frame)

/-! ### Refresh and patrol scrub (R252, R253) -/

/-- REFRESH of a bank of a subchannel (R246, R253; log 62): the subchannel is taken at the next burst boundary; the remaining bursts
of its granule follow. -/
def execRefresh (bank : Fin 384 × Fin 16) (s : State) : Host.Outcome State Fault Refusal :=
  onDev s (fun d => modMem d (fun m => { m with refresh := smMod 0 m.refresh (16 * (bank.1 : Nat) + bank.2) (· + 1) }))

/-- Granules of frame f that lie on subchannel c of a die (R255). -/
def granulesOf (f c : Nat) : List Nat := (span 0 256).filter (fun j => (j + f) % 24 == c)

/-- The device physical address of the k-th burst of a subchannel, in address order (R255). -/
def scrubDpa (sub k : Nat) : Nat :=
  let c := sub % 24
  let g := k / 8
  let block := g / 256
  let (f, j) := locate c (24 * block) (g % 256) 24
  65536 * lpFrame (sub / 24) f + 256 * j + 32 * (k % 8)
where
  /-- The frame and granule of the r-th granule of the subchannel from frame f on. -/
  locate (c f r : Nat) : Nat → Nat × Nat
    | 0 => (f, 0)
    | n + 1 =>
      let l := granulesOf f c
      if r < l.length then (f, nth 0 l r) else locate c (f + 1) (r - l.length) n

/-- Bursts of a subchannel. -/
def scrubBursts (d : Dev) : Nat := (if d.boot.partCode = 2 then 3 * 2 ^ 19 else 3 * 2 ^ 20) * 256 / 24 * 8

/-- PATROL_SCRUB (R249, R250, R252): the next burst is read with the symbols in error that it has, and written back where it is
corrected. -/
def execPatrolScrub (sub : Fin 384) (symbols : List (Fin 41 × Byte)) (s : State) : Host.Outcome State Fault Refusal :=
  onDev s (fun d =>
    let k := smGet 0 d.mem.scrub sub
    decodedUnit (modMem d (fun m => { m with scrub := smSet 0 m.scrub sub ((k + 1) % scrubBursts d) })) (scrubDpa sub k)
      (decodeBurst symbols))

/-! ### Memory arbiters (R301 to R303) -/

/-- WEIGHT of a class (R302). -/
def memWeight (d : Dev) (c : Nat) : Nat :=
  let t := tableOf d kindArbiter 0
  if t.isEmpty then defaultWeight c else field t (4 * c) 4 % 2 ^ 12

def modArb (d : Dev) (ch : Nat) (f : Arb → Arb) : Dev := modMem d (fun m => { m with arbs := smMod {} m.arbs ch f })

/-- ARBITER_REFILL (R303). -/
def execArbiterRefill (ch : Fin 896) (s : State) : Host.Outcome State Fault Refusal :=
  onDev s (fun d => modArb d ch (fun a => { a with
    counters := a.counters.zipIdx.map (fun p => min (p.1 + memWeight d p.2) (4 * memWeight d p.2 : Nat)) }))

/-- The fullest counter among classes; ties go to the lower code (R303). -/
def fullest (counters : List Int) (cls : List Nat) : Option Nat :=
  (cls.foldl (fun b c => insertSorted c b) []).foldl (fun b c => match b with
    | none => some c
    | some x => if nth 0 counters x < nth 0 counters c then some c else some x) none

/-- The channel of a device physical address (R255, R262). -/
def channelOf (dpa : Nat) : Nat :=
  let fr := dpa / 65536
  let j := dpa % 65536 / 256
  if isCup fr then 384 + 16 * frameDie fr + j % 16
  else 24 * frameDie fr + (j + fr % 2 ^ 22) % 24

/-- The class of a request (R204, R301): of a line by its PRIO; a page table walk has the class of its requester. A transfer that
is not outstanding asks for nothing. -/
def classOf (d : Dev) (r : MemReq) : Option Nat :=
  match r.unit with
  | .transfer id => (smFind d.xfers id).map (fun x => match x.kind with
      | .line n _ _ _ => 3 - ldPrio (lineOf (getE d x.ctx x.idx) n).desc
      | _ => 4)
  | .mangle _ => some 5
  | .fabric => some 6
  | .hub => some 7

/-- MEMORY_GRANT (R250, R303): the present granule ends, and what was read with errors in it is decoded; the next goes to the
fullest class of the requests that waited when the present granule began, or now when the channel was idle. -/
def execMemoryGrant (ch : Fin 896) (waiting : List MemReq) (errs : List UnitErr) (s : State) : Host.Outcome State Fault Refusal :=
  onDev s (fun d =>
    let now : List Nat := waiting.filterMap (classOf d)
    let d1 := modArb d ch (fun a =>
      let cls := if a.current.isNone then now else a.snapshot
      match fullest a.counters cls with
      | some c => { a with current := some c, snapshot := now,
                           counters := setNth a.counters c (max (nth 0 a.counters c - 96) (-4096)) }
      | none => { a with current := none, snapshot := now })
    (errs.filter (fun e => (errAt e).map channelOf == some (ch : Nat))).foldl readErr d1)

end Sys2Proof.Machine
end

