-- ==== Sys2Proof/Machine/LineUnits.lean ====
section
/-! DEFINITION. The line units, the transfer units and the basket rinse, as events of their own (06 R203 to R234, R243). -/

namespace Sys2Proof.Machine

/-- The launch that a physical engine runs, with its context and context engine index. -/
def runningOn (d : Dev) (e : Nat) : Option (Nat × Launch × Nat) :=
  match smFind d.running e with
  | none => none
  | some k =>
    match smFind d.launches k with
    | none => none
    | some z =>
      match smFind d.ctxs z.ctx with
      | none => none
      | some x => ((launchEngines z).find? (fun i => physEngine d x i == e)).map (fun i => (k, z, i))

/-! ### Credit (R213) -/

def refillLine (l : Line) : Line :=
  if l.state ≠ .idle ∧ l.state ≠ .ready ∧ ldRate l.desc ≠ 0 then
    { l with credit := max l.credit (min (l.credit + 64 * ldRate l.desc) (4096 * 2 ^ ldBurst l.desc)) }
  else l

/-- LINE_CREDIT_REFILL (R213): the credits of the lines of the engine's running context. -/
def execLineCreditRefill (e : Fin 96) (s : State) : Host.Outcome State Fault Refusal :=
  onDev s (fun d => match runningOn d e with
    | none => d
    | some (_, z, i) => modE d z.ctx i (fun v => { v with lines := v.lines.map (fun p => (p.1, refillLine p.2)) }))

/-! ### Issue (R205 to R214) -/

/-- The list entry of a run: read from the basket, or, when the program has written it while the line runs, either value that it
has held since (R207). -/
def listValue (d : Dev) (ctx i : Nat) (l : Line) (r : Nat) : Nat × Dev :=
  let a := listBase l.desc + 8 * r
  let olds := (l.olds.filter (fun o => o.1 == r)).map (·.2)
  let now := leNat (memRead d.mem.baskets (shareBase d ctx i + a) 8)
  if olds.isEmpty then
    let (bs, d1) := basketRead d ctx i .line a 8
    (leNat bs % 2 ^ 52, d1)
  else
    let (k, d1) := drawFree 32 d
    (nth now (now :: olds) (k.toNat % (olds.length + 1)) % 2 ^ 52, d1)

/-- In INDEX mode a line that comes to a run reads its list entry, once; a granule still being rinsed makes it wait (R203, R207). -/
def beginRun (ctx i : Nat) (d : Dev) (n : Nat) : Dev :=
  let l := lineOf (getE d ctx i) n
  match nextKind l with
  | none => d
  | some (_, pos) =>
    if l.state = .running ∧ !runKnown l pos ∧ !rinsing d ctx i (listBase l.desc + 8 * (pos / ldRun l.desc)) 8 then
      let (v, d1) := listValue d ctx i l (pos / ldRun l.desc)
      modE d1 ctx i (fun e => setLine e n { l with runs := smPut l.runs (pos / ldRun l.desc) v })
    else d

def beginRuns (d : Dev) (ctx i : Nat) : Dev := (span 0 16).foldl (beginRun ctx i) d

/-- The line may issue its next transfer (R213, R214). -/
def lineEligible (d : Dev) (ctx i : Nat) (l : Line) : Bool :=
  decide (l.state = .running) && decide (l.out < ldMaxOut l.desc) && decide (outstanding d ctx i < 128)
    && (match nextTransfer l with
        | some (_, _, _, n) => ldRate l.desc == 0 || decide (n ≤ l.credit)
        | none => false)

/-- The eligible line of a PRIO whose turn it is: from the one after the last of that PRIO (R214). -/
def chooseOf (d : Dev) (ctx i prio : Nat) : Option Nat :=
  let v := getE d ctx i
  ((span 1 16).map (fun k => (smGet 0 v.turn prio + k) % 16)).find?
    (fun n => ldPrio (lineOf v n).desc == prio && lineEligible d ctx i (lineOf v n))

/-- The eligible line with the highest PRIO; lines of equal PRIO take turns (R214). -/
def chooseLine (d : Dev) (ctx i : Nat) : Option Nat := [3, 2, 1, 0].findSome? (chooseOf d ctx i)

/-- Where a range of virtual addresses in one page lies: on the peer of a REMOTE page that the access may use (R259). -/
def remoteOf (d : Dev) (ctx va : Nat) (write : Bool) : Option (Nat × Nat) :=
  match smFind d.ctxs ctx with
  | none => none
  | some x => match leafKey x va with
    | some (_, p) => if decide (p.kind = .remote) && (if write then p.w else p.r) then
        some (p.target % 2 ^ 13, p.target / 2 ^ 13 % 256) else none
    | none => none

def issueLine (e : Nat) (d : Dev) : Dev :=
  match runningOn d e with
  | none => d
  | some (k, z, i) =>
    let d1 := beginRuns d z.ctx i
    match chooseLine d1 z.ctx i with
    | none => d1
    | some n =>
      let l := lineOf (getE d1 z.ctx i) n
      match nextTransfer l with
      | none => d1
      | some (scale, va, pos, len) =>
        let x : Xfer := { kind := .line n scale (slotOf l (fillPeg l)) pos, ctx := z.ctx, idx := i, va := va, off := 0,
                          roff := 0, len := len, sem := none, drain := false, tags := [], pc := 0, data := [], launch := k }
        let go (d : Dev) (x : Xfer) : Dev :=
          modE (addXfer (cacheRange d e z.ctx va len) x).2 z.ctx i (fun v => { setLine v n (noteIssued l scale len) with turn := smSet 0 v.turn (ldPrio l.desc) n })
        match remoteOf d1 z.ctx va false with
        | none => go d1 x
        | some (dev, pctx) =>
          match fabRequest d1 (.xfer d1.nextXfer 0) dev pkRead pctx va len [] with
          | .sent t d2 => go d2 { x with tags := [t], data := List.replicate len 0#8 }
          | .unreachable => go d1 x   -- fails at once: LINE_TRANSFER_FAULT (R222)
          | .full => d1

/-- LINE_TRANSFER_ISSUE (R205 to R207, R211, R214, R260). -/
def execLineTransferIssue (e : Fin 96) (s : State) : Host.Outcome State Fault Refusal := onDev s (issueLine e)

/-! ### Completion and failure (R212, R222 to R228) -/

def dropXfer (d : Dev) (id : Nat) : Dev := { d with xfers := smErase d.xfers id }

/-- The data of a line transfer, when it can be delivered now. -/
def lineData (d : Dev) (x : Xfer) : Option (List Byte) :=
  if (remoteOf d x.ctx x.va false).isSome then (if x.tags.isEmpty ∧ x.data.length = x.len then some x.data else none)
  else match readVirt d x.ctx x.va x.len .engRead with
    | .ok bs => some bs
    | .error _ => none

/-- LINE_TRANSFER_COMPLETE (R203, R206, R212, R226, R227): a transfer that cannot be delivered is left to LINE_TRANSFER_FAULT, and
one whose granule is still being rinsed waits. -/
def execLineTransferComplete (id : Nat) (s : State) : Host.Outcome State Fault Refusal :=
  onDev s (fun d => match smFind d.xfers id with
    | none => d
    | some x => match x.kind with
      | .line n scale k pos =>
        if x.drain then drainOne (dropXfer d id) x.ctx x.idx n k
        else match lineData d x with
          | some bs =>
            let r := landRange (lineOf (getE d x.ctx x.idx) n) pos bs.length
            if rinsing d x.ctx x.idx r.1 r.2 then d else landLine (dropXfer d id) x.ctx x.idx n scale pos bs
          | none => d
      | _ => d)

/-- A line transfer fails with a code (R222): a drained one is discarded. -/
def failXfer (d : Dev) (id : Nat) (x : Xfer) (code : Nat) (again : Bool) : Dev :=
  match x.kind with
  | .line n scale k pos =>
    if x.drain then drainOne (dropXfer d id) x.ctx x.idx n k
    else failLine (dropXfer d id) x.ctx x.idx n code again scale pos x.va
  | _ => d

/-- What the source of a local transfer does: absent in the slower tier or in TRANSIT (recall), unmapped, or in error. -/
def localFault (d : Dev) (id : Nat) (x : Xfer) (n : Nat) : Dev :=
  match smFind d.ctxs x.ctx with
  | none => failXfer d id x LINE_MAP false
  | some c =>
    match readVirt d x.ctx x.va x.len .engRead with
    | .error (.absent a) =>
      if deadlineRuns d x.ctx then failXfer d id x LINE_ABSENT false
      else match leafKey c a with
        | some (key, p) => recallPage (failXfer d id x LINE_ABSENT true) x.ctx key p none [(x.ctx, x.idx, n)]
        | none => failXfer d id x LINE_MAP false
    | .error (.transit a) =>
      if deadlineRuns d x.ctx then failXfer d id x LINE_ABSENT false
      else match leafKey c a with
        | some (key, p) => recallPage (failXfer d id x LINE_ABSENT true) x.ctx key p none [(x.ctx, x.idx, n)]
        | none => failXfer d id x LINE_MAP false
    | .error (.data a) =>
      match translate c a .engRead with
      | .ok dpa => reportBad (failXfer d id x LINE_DATA false) dpa
      | .error _ => failXfer d id x LINE_DATA false
    | .error _ => failXfer d id x LINE_MAP false
    | .ok _ =>
      -- the read itself finds an uncorrectable burst (07 R250)
      match translate c x.va .engRead with
      | .ok dpa => reportBad (failXfer d id x LINE_DATA false) dpa
      | .error _ => failXfer d id x LINE_DATA false

/-- LINE_TRANSFER_FAULT (R222): remote says that the peer of a REMOTE page cannot be reached. -/
def execLineTransferFault (id : Nat) (remote : Bool) (s : State) : Host.Outcome State Fault Refusal :=
  onDev s (fun d => match smFind d.xfers id with
    | none => d
    | some x => match x.kind with
      | .line n _ _ _ =>
        if (remoteOf d x.ctx x.va false).isSome then
          if remote then failXfer (x.tags.foldl killTag d) id x LINE_REMOTE false else d
        else localFault d id x n
      | _ => d)

def resumeLine (e l : Nat) (d : Dev) : Dev :=
  match runningOn d e with
  | none => d
  | some (_, z, i) =>
    let v := lineOf (getE d z.ctx i) l
    if v.state ≠ .recall ∨ v.out ≠ 0 then d
    else match smFind d.ctxs z.ctx with
      | none => d
      | some x => match leafKey x v.faultVa with
        | none => modE d z.ctx i (fun w => setLine w l { v with state := .faulted, fault := LINE_MAP })
        | some (key, p) =>
          if p.transit then d
          else match p.kind with
            | .slow => recallPage d z.ctx key p none [(z.ctx, i, l)]
            | _ => modE d z.ctx i (fun w => setLine w l (resumedLine v))

/-- LINE_RESUME (R222, R223; 07 R275). -/
def execLineResume (e : Fin 96) (l : Fin 16) (s : State) : Host.Outcome State Fault Refusal := onDev s (resumeLine e l)

/-! ### XFER (R230 to R234) -/

/-- The pieces of a transfer to a REMOTE page: at most 4 KiB each (10 R401), with their offsets. -/
def remotePieces (va n : Nat) : List (Nat × Nat) := go va n 0 (n / 4096 + 2)
where
  /-- Cut at 4 KiB boundaries of virtual address. -/
  go (va n off : Nat) : Nat → List (Nat × Nat)
    | 0 => []
    | fuel + 1 => if n = 0 then [] else
        let k := min n (4096 - va % 4096)
        (off, k) :: go (va + k) (n - k) (off + k) fuel

/-- Issues the requests of the pieces of a transfer that lie on peers. -/
def askPieces (d : Dev) (ctx : Nat) (x : Xfer) (write : Bool) : List (Nat × Nat) → Ex (List Nat × Dev)
  | [] => .ok ([], d)
  | (off, k) :: r =>
    match remoteOf d ctx (x.va + off) write with
    | none => askPieces d ctx x write r
    | some (dev, pctx) =>
      match fabRequest d (.xfer d.nextXfer off) dev (if write then pkWrite else pkRead) pctx (x.va + off) k
          (if write then slice x.data off k else []) with
      | .full => .error .stall
      | .unreachable => fltAt XFER_SOURCE (x.va + off)
      | .sent t d1 => do
        let (ts, d2) ← askPieces d1 ctx x write r
        return (t :: ts, d2)

def doXfer (d : Dev) (c : Ic) : Ex Nx := do
  let dir := xDir c.w0
  let len := 64 * bits c.w1 14 0
  let off := 64 * bits c.w1 31 15
  failIf (c.w0 % 2 ^ 10 != 0 || dir == 3 || len == 0
    || (if dir = 2 then c.w2 % 2 ^ 15 != 0 || c.w3 != 0 else c.w3 / 2 ^ 20 != 0)) XFER_RANGE
  failIf (dir == 2 && decide (launchCount d c ≤ xEngine c.w0)) XFER_RANGE
  basketOk d c.ctx c.idx off len XFER_RANGE
  stallIf (decide (128 ≤ outstanding d c.ctx c.idx))
  let sem := if xSig c.w0 then some (xSem c.w0) else none
  if dir = 2 then
    let to_ := ofLaunchIndex d c.launch (xEngine c.w0)
    let roff := 64 * bits c.w2 31 15
    basketOk d c.ctx to_ roff len XFER_RANGE
    let (bs, d1) := basketRead d c.ctx c.idx .transfer off len
    let x : Xfer := { kind := .toEngine to_, launch := c.launch, ctx := c.ctx, idx := c.idx, va := 0, off := off, roff := roff,
                      len := len, sem := sem, drain := false, tags := [], pc := c.pc, data := bs }
    nextIns c (addXfer d1 x).2
  else
    let va := c.w2 + 2 ^ 32 * c.w3
    if dir = 0 then
      let (bs, d1) := basketRead d c.ctx c.idx .transfer off len
      let x : Xfer := { kind := .toMem, launch := c.launch, ctx := c.ctx, idx := c.idx, va := va, off := off, roff := 0, len := len,
                        sem := sem, drain := false, tags := [], pc := c.pc, data := bs }
      let (ts, d2) ← askPieces d1 c.ctx x true (remotePieces va len)
      nextIns c (addXfer (cacheRange d2 c.phys c.ctx va len) { x with tags := ts }).2
    else
      let x : Xfer := { kind := .toBasket, launch := c.launch, ctx := c.ctx, idx := c.idx, va := va, off := off, roff := 0, len := len,
                        sem := sem, drain := false, tags := [], pc := c.pc, data := [] }
      let (ts, d2) ← askPieces d c.ctx x false (remotePieces va len)
      nextIns c (addXfer (cacheRange d2 c.phys c.ctx va len) { x with tags := ts, data := if ts.isEmpty then [] else List.replicate len 0#8 }).2

/-- XFER (R230, R234, R260). -/
def execXfer (e : Fin 96) (s : State) : Host.Outcome State Fault Refusal := onDev s (issue 0x30 e doXfer)

/-! ### Completion of a transfer (R231, R232, R234) -/

/-- The running launch of a context in which one of its engines takes part. -/
def launchOfEngine (d : Dev) (ctx i : Nat) : Option (Nat × Launch) :=
  (d.launches.find? (fun z => z.2.ctx == ctx && decide (z.2.state = .running ∨ z.2.state = .preempted)
    && (launchEngines z.2).contains i))

/-- The launch that a transfer's fault ends: the one that issued it, or the one that has resumed it (R241, R244). -/
def faultLaunch (d : Dev) (x : Xfer) : Nat :=
  match smFind d.launches x.launch, launchOfEngine d x.ctx x.idx with
  | some z, some (k, y) => if z.state = .ended ∧ y.resume then k else x.launch
  | _, _ => x.launch

/-- Transfer number id of a unit has failed: the unit stops there, and its later transfers and signals that have not completed
are not carried out (R245). -/
def dropLater (d : Dev) (id : Nat) (x : Xfer) : Dev :=
  let later (p : Nat × Xfer) : Bool := decide (id < p.1) && p.2.ctx == x.ctx && p.2.idx == x.idx &&
    (match p.2.kind with | .line _ _ _ _ => false | _ => true)
  let gone := d.xfers.filter later
  { (gone.flatMap (·.2.tags)).foldl killTag d with xfers := d.xfers.filter (fun p => !later p) }

/-- A fault of the transfer unit ends the launch (R231, R234, R244, R245). -/
def xferFault (d : Dev) (id : Nat) (x : Xfer) (code va : Nat) : Dev :=
  let k := faultLaunch d x
  let first := match smFind d.launches k with | some z => z.engFirst | none => 0
  endLaunchFault (dropLater d id x) k { idx := x.idx - first, line := 0xFF, peg := 0xFF, pc := x.pc, va := va, code := code }

/-- The semaphore of a completed transfer or signal is incremented; past 65,535 it faults the sender (R231). -/
def signal (d : Dev) (id : Nat) (x : Xfer) (to_ : Nat) : Dev :=
  match x.sem with
  | none => d
  | some n =>
    let (d1, ok) := bumpSem d x.ctx to_ n
    if ok then d1 else xferFault d1 id x XFER_RANGE 0

/-- Signals that were held behind transfers take effect in order (R232): at most fuel of them. -/
def releaseSigs (ctx i dst : Nat) : Nat → Dev → Dev
  | 0, d => d
  | fuel + 1, d =>
    match d.xfers.find? (fun p => p.2.ctx == ctx && p.2.idx == i && p.2.kind == .sig dst
        && !earlierTo d ctx i dst p.1) with
    | none => d
    | some (id, x) => releaseSigs ctx i dst fuel (signal (dropXfer d id) id x dst)

/-- The local bytes of a transfer from memory, with the pieces that peers returned in their places. -/
def xferBytes (d : Dev) (x : Xfer) : Except VErr (List Byte) :=
  go (remotePieces x.va x.len)
where
  /-- Piece by piece. -/
  go : List (Nat × Nat) → Except VErr (List Byte)
    | [] => .ok []
    | (off, k) :: r => do
      let bs ← if (remoteOf d x.ctx (x.va + off) false).isSome then .ok (slice x.data off k)
        else readVirt d x.ctx (x.va + off) k .engRead
      let rest ← go r
      return bs ++ rest

/-- Writes the local pieces of a transfer to memory, when every one may be written. -/
def xferStore (d : Dev) (x : Xfer) : Except VErr Dev :=
  let mine := (remotePieces x.va x.len).filter (fun p => (remoteOf d x.ctx (x.va + p.1) true).isNone)
  match mine.findSome? (fun p => match checkVirt d x.ctx (x.va + p.1) p.2 .engWrite with | .error e => some e | .ok _ => none) with
  | some e => .error e
  | none => .ok (mine.foldl (fun d p => match writeVirt d x.ctx (x.va + p.1) (slice x.data p.1 p.2) .engWrite with
      | .ok d' => d' | .error _ => d) d)

/-- The address lies in an append window of the context (08 R319). -/
def inWindowOf (d : Dev) (ctx va : Nat) : Bool := match smFind d.ctxs ctx with | some c => (windowAt c va).isSome | none => false

def isTransit : VErr → Bool
  | .transit _ => true
  | _ => false

/-- A transfer ends: it lands and signals, or fails. Transfers to one engine end in their order. -/
def endXfer (id : Nat) (ok : Bool) (d : Dev) : Dev :=
  match smFind d.xfers id with
  | none => d
  | some x =>
    match x.kind with
    | .toMem =>
      if inWindowOf d x.ctx x.va then d  -- left to APPEND_WINDOW_WRITE (08 R320)
      else if !ok then xferFault (dropXfer (x.tags.foldl killTag d) id) id x XFER_SOURCE x.va
      else if !x.tags.isEmpty then d
      else match xferStore d x with
        | .ok d1 => signal (dropXfer d1 id) id x x.idx
        | .error e => if isTransit e then d else xferFault (dropXfer d id) id x XFER_SOURCE (verrVa e)
    | .toBasket =>
      if !ok then xferFault (dropXfer (x.tags.foldl killTag d) id) id x XFER_SOURCE x.va
      else if !x.tags.isEmpty then d
      else match xferBytes d x with
        | .ok bs => 
          let who := match x.sem with | some k => BUnit.signalled k | none => .transfer
          signal (basketWrite (dropXfer d id) x.ctx x.idx who x.off bs) id x x.idx
        | .error e => if isTransit e then d else xferFault (dropXfer d id) id x XFER_SOURCE (verrVa e)
    | .toEngine dst =>
      if !ok || earlierTo d x.ctx x.idx dst id then d
      else
        let d1 := basketWrite (dropXfer d id) x.ctx dst (.remote x.sem) x.roff x.data
        releaseSigs x.ctx x.idx dst d1.xfers.length (signal d1 id x dst)
    | _ => d

/-- XFER_COMPLETE (R230 to R234). -/
def execXferComplete (id : Nat) (ok : Bool) (s : State) : Host.Outcome State Fault Refusal := onDev s (endXfer id ok)

/-! ### The watchdog (R239, R243) and the basket rinse (R203) -/

/-- The lowest of the engines of a launch that has not executed HALT. -/
def lowestRunning (d : Dev) (z : Launch) : Nat :=
  match (launchEngines z).find? (fun i => decide ((getE d z.ctx i).seq ≠ .halted)) with
  | some i => i | none => z.engFirst

/-- LAUNCH_WATCHDOG_EXPIRE (R243, R245): a launch past its WATCHDOG stops with CTL_WATCHDOG. The fault is precise: the sequencers
stop at once, and the launch ends when every transfer that they have issued has completed. -/
def execLaunchWatchdogExpire (launch : Nat) (s : State) : Host.Outcome State Fault Refusal :=
  onDev s (fun d => match smFind d.launches launch with
    | none => d
    | some z =>
      if z.state = .running ∧ z.watchdog ≠ 0 ∧ z.started + 400 * z.watchdog ≤ d.now then
        if (launchEngines z).all (fun i => (unitXfers d z.ctx i).isEmpty) then
          let i := lowestRunning d z
          endLaunchFault d launch { idx := i - z.engFirst, line := 0xFF, peg := 0xFF, pc := (getE d z.ctx i).pc, va := 0,
                                    code := CTL_WATCHDOG }
        else (launchEngines z).foldl (fun d i => modE d z.ctx i (fun e =>
          { e with seq := if e.seq = .running then .stopped else e.seq })) d
      else d)

/-- BASKET_RINSE_COMPLETE (R203): the granule is zero and its new owner's access proceeds. -/
def execBasketRinseComplete (e : Fin 96) (granule : Fin 128) (s : State) : Host.Outcome State Fault Refusal :=
  onDev s (fun d =>
    let g := 128 * (e : Nat) + granule
    if d.mem.granRinse.contains g then
      modMem d (fun m => { m with granRinse := m.granRinse.filter (fun k => k != g),
                                  baskets := memClear m.baskets (65536 * g) 65536 })
    else d)

end Sys2Proof.Machine
end

