-- ==== Sys2Proof/Machine/Fabric.lean ====
section
/-! DEFINITION. The fabric ports: flits, frames, packets, the arbiter and bring-up (10 R385 to R418). -/

namespace Sys2Proof.Machine

/-! ### Requests that end (R401) -/

/-- How a request ends without its answer: the answer's error code, or 0 for one that is not answered. -/
def failXferReq (d : Dev) (id : Nat) (code : Nat) : Dev :=
  match smFind d.xfers id with
  | none => d
  | some x =>
    let d1 := x.tags.foldl killTag d
    match x.kind with
    | .line _ _ _ _ =>
      let fc := match code with | 0 => LINE_REMOTE | 2 => LINE_DATA | 3 => LINE_ABSENT | _ => LINE_MAP
      failXfer d1 id x fc (decide (fc = LINE_ABSENT) && !deadlineRuns d x.ctx)
    | .toMem => xferFault (dropXfer d1 id) id x XFER_SOURCE x.va
    | .toBasket => xferFault (dropXfer d1 id) id x XFER_SOURCE x.va
    | _ => d1

/-- A request has failed. -/
def failRequest (d : Dev) (tag code : Nat) : Dev :=
  match smFind d.fabric.outst tag with
  | none => d
  | some o =>
    if o.dead then d
    else
      let d1 := killTag d tag
      match o.use with
      | .xfer id _ => failXferReq d1 id code
      | .mirror cid => { d1 with cmds := smUpd d1.cmds cid (fun c => { c with hostErr := true }) }
      | .coll _ _ => d1

/-- The requests to a peer fail (R404). -/
def failPeer (d : Dev) (peer : Nat) : Dev :=
  (d.fabric.outst.filter (fun o => o.2.dst == peer && !o.2.dead)).foldl (fun d o => failRequest d o.1 0) d

/-- Packets are lost with a port: the requests of this part among them fail at once (R396). -/
def losePackets (d : Dev) (l : List Packet) : Dev :=
  l.foldl (fun d p => if p.src = myId d ∧ p.vc = 0 then failRequest d p.tag 0 else d) d

/-! ### Ports that go down and come up (R414, R416, R418) -/

/-- A half-port goes DOWN and its packets are lost (R396, R414); what it knew of the link is forgotten, but for what its receive
buffers still hold. -/
def portDown (d : Dev) (h : Nat) : Dev :=
  let p := portOf d h
  losePackets (setPort d h { ({} : HalfPort) with
    state := if portConfig d h = 0 then .off else .down, peerMismatch := p.peerMismatch, digestDiff := p.digestDiff,
    arb := p.arb, rxFill := p.rxFill, stateAt := d.now }) (p.inRetry.map (·.2) ++ p.queued.map (·.2))

/-- A bring-up failure is counted (R414). -/
def bringUpFail (d : Dev) (h : Nat) : Dev := portDown (tallySend d (.count 0x42 h 0 1 (4000 + h) (hubUs d))) h

/-- A half-port enters a state (R414). -/
def enterState (d : Dev) (h : Nat) (s : PState) : Dev := modPort d h (fun p => { p with state := s, stateAt := d.now })

/-- Link training begins from the preset (R413). -/
def startTrain (d : Dev) (h : Nat) : Dev := emit (enterState d h .train) (.train h)

/-- H-cycles that a half-port may spend in a state before it fails, and that it spends in DOWN (R414). -/
def stateLimit : PState → Option Nat
  | .down => some 400000000 | .an => some 200000000 | .train => some 400000000 | .align => some 4000000 | .ident => some 400000
  | .off => none | .detect => none | .up => none

/-- The limit of the state that a half-port is in has passed. -/
def limitPassed (d : Dev) (h : Nat) : Bool :=
  let p := portOf d h
  match stateLimit p.state with | some n => decide (p.stateAt + n ≤ d.now) | none => false

/-- PORT_SIGNAL_DETECT (R414): auto-negotiation on Ethernet over copper, else training. -/
def execPortSignalDetect (p : Fin 36) (s : State) : Host.Outcome State Fault Refusal :=
  onDev s (fun d =>
    if (portOf d p).state ≠ .detect then d
    else if 2 ≤ portConfig d p ∧ fabMedia d (p / 2) = 0 then enterState d p .an
    else startTrain d p)

/-- PORT_AN_COMPLETE (R414). -/
def execPortAnComplete (p : Fin 36) (s : State) : Host.Outcome State Fault Refusal :=
  onDev s (fun d => if (portOf d p).state = .an then startTrain d p else d)

/-- Lanes of the port that belong to a half-port, of 8 (R385). -/
def laneMask (d : Dev) (h : Nat) : Nat := if portConfig d h = 3 then (if h % 2 = 0 then 0x0F else 0xF0) else 0xFF

def hasLanes (lanes mask : Nat) : Bool := (span 0 8).all (fun i => !bit mask i || bit lanes i)

/-- Training ends with the lanes on which it succeeded at both ends (R416). -/
def trained (h lanes pol : Nat) (rev : Bool) (d : Dev) : Dev :=
  let p := portOf d h
  let up (mask : Nat) : Dev := modPort d h (fun p => { p with
    state := .align, stateAt := d.now, laneOk := BitVec.ofNat 8 (lanes % 256 &&& mask), revPol := BitVec.ofNat 8 pol, laneRev := rev })
  if p.state ≠ .train then d
  else if p.degraded then (if hasLanes lanes p.laneOk.toNat then up p.laneOk.toNat else bringUpFail d h)
  else if hasLanes lanes (laneMask d h) then up (laneMask d h)
  else if portConfig d h ≠ 1 then bringUpFail d h
  else
    let half (mask : Nat) : Dev :=
      startTrain (modPort d h (fun p => { p with degraded := true, laneOk := BitVec.ofNat 8 mask })) h
    if hasLanes lanes 0x0F then half 0x0F else if hasLanes lanes 0xF0 then half 0xF0 else bringUpFail d h

/-- PORT_TRAIN_COMPLETE (R387, R416): a direct port with a failed lane trains again on the half that holds none. -/
def execPortTrainComplete (p : Fin 36) (lanes pol : BitVec 8) (rev : Bool) (s : State) : Host.Outcome State Fault Refusal :=
  onDev s (trained p lanes.toNat pol.toNat rev)

/-- The port carries packets; after a retraining it first sends again what is not acknowledged (R396). -/
def portUp (d : Dev) (h : Nat) : Dev :=
  let p := portOf d h
  let d1 := setPort d h { p with state := .up, stateAt := d.now, retrain := false, replays := 0, nakSent := false }
  match p.retrain, p.retry with
  | true, f :: _ => replayFrom d1 h f.1
  | _, _ => d1

/-- Bytes of the receive buffer of a channel (R397). -/
def vcBuffer (vc : Nat) : Nat := nth 0 [32768, 262144, 262144, 16384] vc

/-- The credits on each channel that an IDENT carries: those of the receive buffer that no packet holds (R397, R415), 16 bits
each in the argument of the message (log 28). -/
def identCredits (d : Dev) (h : Nat) : Nat :=
  ((span 0 4).map (fun vc =>
    (vcBuffer vc / 256 - ((d.fabric.rxq.filter (fun q => q.1 == h && q.2.vc == vc)).map (fun q => packetCredits q.2)).sum)
      * 2 ^ (16 * vc))).sum

/-- What a direct port owes when its link begins anew: its IDENT carries every free credit (R415). -/
def owesAtIdent (q : HalfPort) : List Nat := if q.retrain then q.owed else [0, 0, 0, 0]

/-- PORT_ALIGN_COMPLETE (R414): a direct port sends its IDENT. -/
def execPortAlignComplete (p : Fin 36) (s : State) : Host.Outcome State Fault Refusal :=
  onDev s (fun d =>
    if (portOf d p).state ≠ .align then d
    else if portConfig d p = 1 then sendCtrl (modPort d p (fun q => { q with state := .ident, stateAt := d.now, owed := owesAtIdent q })) p 1 (identCredits d p)
    else portUp d p)

/-- PORT_STATE_TIMEOUT (R414). -/
def execPortStateTimeout (p : Fin 36) (s : State) : Host.Outcome State Fault Refusal :=
  onDev s (fun d => if [PState.an, .train, .align, .ident].contains (portOf d p).state && limitPassed d p then bringUpFail d p else d)

/-- PORT_DOWN_WAIT_EXPIRE (R414). -/
def execPortDownWaitExpire (p : Fin 36) (s : State) : Host.Outcome State Fault Refusal :=
  onDev s (fun d => if (portOf d p).state = .down ∧ limitPassed d p = true then enterState d p .detect else d)

/-- CABLE_CONNECT (18 R644): a half-port that trains goes DOWN, from where it returns to DETECT. -/
def execCableConnect (p : Fin 36) (s : State) : Host.Outcome State Fault Refusal :=
  onDev s (fun d => if [PState.an, .train, .align, .ident].contains (portOf d p).state then portDown d p else d)

/-- The first 64 bits of this part's digest (R415). -/
def digest64 (d : Dev) : BitVec 64 := BitVec.ofNat 64 (field (configDigest d) 0 8)

/-- The device and the port that direct port p of this part leads to (R408). -/
def directPeer (d : Dev) (p : Nat) : Nat × Nat :=
  let n := nodeSize d
  let s := myId d % 4096
  (myId d / 4096 * 4096 + s / n * n + (s % n + p + 1) % n, n - 2 - p)

/-- An IDENT from the peer brings a direct port UP, or names the wrong device or port (R415). -/
def gotIdent (h dev port : Nat) (credits : List Nat) (digest : BitVec 64) (d : Dev) : Dev :=
  let p := portOf d h
  if p.state ≠ .ident ∨ portConfig d h ≠ 1 then d
  else if (dev, port) ≠ directPeer d (h / 2) then
    bringUpFail (modPort d h (fun p => { p with peerMismatch := true, digestDiff := decide (digest ≠ digest64 d) })) h
  else
    let p1 := { p with peer := dev, digestDiff := decide (digest ≠ digest64 d) }
    portUp (setPort d h (if p.retrain then p1
      else { p1 with txSeq := 0, txAcked := 1023, retry := [], inRetry := [], credits := (span 0 4).map (nth 0 credits) })) h

/-- IDENT (R415). -/
def execIdent (p : Fin 36) (dev port : Nat) (credits : List Nat) (digest : BitVec 64) (s : State) :
    Host.Outcome State Fault Refusal := onDev s (gotIdent p dev port credits digest)

/-- Ports whose configuration, MEDIA or presets differ from what they were go DOWN and come up again (R418). -/
def refitPorts (old d : Dev) : Dev :=
  (span 0 36).foldl (fun d h =>
    let p := h / 2
    let media := fabMedia d p
    if portConfig old h ≠ portConfig d h ∨ (portConfig d h ≠ 0 ∧ (fabMedia old p ≠ media ∨
        slice (tableInForce old kindEqual) (64 * media) 64 ≠ slice (tableInForce d kindEqual) (64 * media) 64)) then portDown d h
    else d) d

/-! ### Receiving packets (R397 to R400, R409) -/

def knownKind (k : Nat) : Bool := [pkRead, pkWrite, pkReadData, pkWriteAck, pkReadErr, pkColl, pkMsg].contains k

/-- A packet or frame that is dropped is counted (R400, R405, R409). -/
def countDrop (d : Dev) (h : Nat) : Dev := tallyCount d 0x43 h 1 (4000 + h)

/-- Priority-based flow control is on (R406). -/
def pfcOn (d : Dev) : Bool := bit (fabVlan d) 13

/-- A packet enters the receive buffer; past 3/4 an Ethernet half-port pauses the partner (R406). -/
def bufferIn (d : Dev) (h : Nat) (p : Packet) : Dev :=
  let d1 := modPort d h (fun q => { q with rxFill := setNth q.rxFill p.vc (nth 0 q.rxFill p.vc + packetSize p) })
  let d2 : Dev := { d1 with fabric := { d1.fabric with rxq := d1.fabric.rxq ++ [(h, p)] } }
  let q := portOf d2 h
  if pfcOn d ∧ 2 ≤ portConfig d h ∧ !nth false q.pausing p.vc ∧ 3 * vcBuffer p.vc ≤ 4 * nth 0 q.rxFill p.vc then
    emit (modPort d2 h (fun q => { q with pausing := setNth q.pausing p.vc true })) (.pfc h (fabPcp d p.vc) true)
  else d2

/-- A packet has been taken from the buffer: its credits are returned, and below half the pause ends (R398, R406). -/
def bufferOut (d : Dev) (h : Nat) (p : Packet) : Dev :=
  if 36 ≤ h then d
  else
    let d1 := modPort d h (fun q => { q with
      rxFill := setNth q.rxFill p.vc (nth 0 q.rxFill p.vc - packetSize p),
      owed := if portConfig d h = 1 then setNth q.owed p.vc (nth 0 q.owed p.vc + packetCredits p) else q.owed })
    let q := portOf d1 h
    if nth false q.pausing p.vc ∧ 2 * nth 0 q.rxFill p.vc < vcBuffer p.vc then
      let d2 := modPort d1 h (fun q => { q with pausing := setNth q.pausing p.vc false })
      -- a priority that another channel still pauses is not released
      if (span 0 4).any (fun v => nth false (portOf d2 h).pausing v && fabPcp d v == fabPcp d p.vc) then d2
      else emit d2 (.pfc h (fabPcp d p.vc) false)
    else d1

/-- A whole packet has arrived: kept when it is for this part, sent on once when FWD is set, else dropped (R400, R409). -/
def arrive (d : Dev) (h : Nat) (p : Packet) : Dev :=
  if !knownKind p.kind then modPort (countDrop d h) h (fun q => { q with owed := setNth q.owed p.vc (nth 0 q.owed p.vc + packetCredits p) })
  else if p.dst = myId d then bufferIn d h p
  else
    let d0 := modPort d h (fun q => { q with owed := setNth q.owed p.vc (nth 0 q.owed p.vc + packetCredits p) })
    let n := nodeSize d
    let me := myId d
    let out := 2 * directPort n (me % 4096 % n) (p.dst % 4096 % n)
    if p.fwd ∧ p.dst / 4096 = me / 4096 ∧ p.dst % 4096 / n = me % 4096 / n ∧ isUp d out then
      modPort d0 out (fun q => { q with queued := q.queued ++ [(egressClass p true, p)] })
    else countDrop d0 h

/-- Takes the whole packets off the bytes of a port; bytes that are zero to the end of a body are no packet (R392; log 28). -/
def takeWhole (h : Nat) (bs : List Byte) (d : Dev) : Nat → List Byte × Dev
  | 0 => (bs, d)
  | fuel + 1 =>
    if zeros bs then ([], d)
    else if bs.length < 16 then (bs, d)
    else
      let p := packetOf bs
      let n := packetSize p
      if bs.length < n then (bs, d) else takeWhole h (bs.drop n) (arrive d h p) fuel

/-- SEQs that an ACK acknowledges: those of the retry buffer up to it. -/
def ackRetry (now : Nat) (p : HalfPort) (ack : Nat) : HalfPort :=
  match p.retry.findIdx? (fun f => f.1 == ack) with
  | none => p
  | some i =>
    let gone := (p.retry.take (i + 1)).map (·.1)
    { p with retry := p.retry.drop (i + 1), txAcked := ack, replays := 0, ackAt := now, inRetry := p.inRetry.filter (fun q => !gone.contains q.1) }

/-- A received flit (R392 to R396): its CRC, then ACK and credits, then its packet bytes in order. -/
def gotFlit (h : Nat) (f : List Byte) (d : Dev) : Dev :=
  let p := portOf d h
  if portConfig d h ≠ 1 ∨ !(decide (p.state = .up) || decide (p.state = .ident)) then d
  else if (crc32c (f.take 1020)).toNat ≠ field f 1020 4 then
    let d1 := tallyCount d 0x40 h 1 (4000 + h)
    if p.nakSent then d1 else sendCtrl (modPort d1 h (fun p => { p with nakSent := true })) h 0 p.rxNext
  else
    let w := field f 0 4
    let seq := bits w 29 20
    let vc := bits w 9 8
    let d1 := modPort d h (fun p =>
      let p1 := ackRetry d.now p (bits w 19 10)
      { p1 with credits := setNth p1.credits vc (nth 0 p1.credits vc + bits w 7 0) })
    if bits w 31 30 = 1 ∧ seq = p.rxNext then
      let d2 := modPort d1 h (fun p => { p with rxNext := (seq + 1) % 1024, nakSent := false })
      let (rest, d3) := takeWhole h ((portOf d2 h).rxBuf ++ slice f 4 1016) d2 128
      modPort d3 h (fun p => { p with rxBuf := rest })
    else d1

/-- LINK_FLIT_RECEIVE (R392 to R396). -/
def execLinkFlitReceive (p : Fin 36) (flit : List Byte) (s : State) : Host.Outcome State Fault Refusal :=
  if flit.length = 1024 then onDev s (gotFlit p flit) else .fault .illFormed

/-- Sends again from a SEQ on (R395); the replay is counted. -/
def replay (d : Dev) (h seq : Nat) : Dev :=
  let p := portOf d h
  if p.state = .up ∧ p.retry.any (fun f => f.1 == seq) then
    replayFrom (tallyCount (modPort d h (fun p => { p with replays := p.replays + 1 })) 0x41 h 1 (4000 + h)) h seq
  else d

/-- NAK (R395): the peer asks for the flits from a SEQ on. -/
def execNak (p : Fin 36) (seq : Nat) (s : State) : Host.Outcome State Fault Refusal := onDev s (fun d => replay d p seq)

/-- REPLAY_TIMEOUT (R395): no ACK progress for 3,200 n-cycles, which are 800 h-cycles. -/
def execReplayTimeout (p : Fin 36) (s : State) : Host.Outcome State Fault Refusal :=
  onDev s (fun d => match (portOf d p).retry with
    | f :: _ => if (portOf d p).ackAt + 800 ≤ d.now then replay d p f.1 else d
    | [] => d)

/-- RETRAIN (R396): received from the peer, or after 8 replays of one SEQ without progress; the retry buffer is kept. -/
def execRetrain (p : Fin 36) (received : Bool) (s : State) : Host.Outcome State Fault Refusal :=
  onDev s (fun d =>
    let q := portOf d p
    if q.state = .up ∧ portConfig d p = 1 ∧ (received ∨ 8 ≤ q.replays) then
      let d1 := if received then d else sendCtrl d p 2 0
      startTrain (modPort (tallySend d1 (.count 0x42 p 1 0 (4000 + p) (hubUs d))) p (fun q => { q with
        retrain := true, retrainAt := d.now, degraded := false })) p
    else d)

/-- RETRAIN_TIMEOUT (R396): a port that is not UP again within 1 s goes DOWN and its unacknowledged packets are lost. -/
def execRetrainTimeout (p : Fin 36) (s : State) : Host.Outcome State Fault Refusal :=
  onDev s (fun d =>
    if (portOf d p).retrain ∧ (!isUp d p) = true ∧ (portOf d p).retrainAt + 400000000 ≤ d.now then portDown d p else d)

/-! ### Packets taken from the receive buffer -/

/-- Takes a packet of a kind that has been received; packets of one channel of one port are taken in order (R398). -/
def takePacket (d : Dev) (kind : Nat) (p : Packet) : Option Dev :=
  let l := d.fabric.rxq
  match l.find? (fun q => q.2 == p) with
  | none => none
  | some (h, _) =>
    if p.kind ≠ kind ∨ (l.takeWhile (fun q => q.2 != p)).any (fun q => q.1 == h && q.2.vc == p.vc) then none
    else some (bufferOut { d with fabric := { d.fabric with rxq := l.erase (h, p) } } h p)

/-- The error code with which a request is answered (R259, R275, R401). -/
def errCode : VErr → Nat
  | .transit _ => 3
  | .data _ => 2
  | _ => 1

/-- What a request that arrives may touch: within one 4 KiB page of a context's LOCAL page with RX (R259, R401). -/
def peerCheck (d : Dev) (p : Packet) : Except Nat Unit :=
  let va := 64 * p.addr
  match smFind d.ctxs p.ctx with
  | none => .error 4
  | some x =>
    if 4096 < va % 4096 + p.len then .error 1
    else match leafKey x va with
      | some (_, q) => if q.transit && q.rx then .error 3 else .ok ()
      | none => .error 1

/-- The link die that carries a half-port (01 R16). -/
def linkDieOf (h : Nat) : Nat := if h < 6 then 0 else if h < 12 then 1 else (h - 12) / 4 + 2

/-- A received packet's access goes through the translations of the link die at whose half-port it came in (R260). -/
def peerAccess (d0 : Dev) (p : Packet) (d : Dev) : Dev :=
  match d0.fabric.rxq.find? (fun q => q.2 == p) with
  | some (h, _) => cacheRange d (128 + linkDieOf h) p.ctx (64 * p.addr) p.len
  | none => d

def answerErr (d : Dev) (p : Packet) (code : Nat) : Dev :=
  sendOrDrop d (mkPacket d p.src pkReadErr 0 p.tag 0 4 (natLe 4 code))

def serveRead (d : Dev) (p : Packet) : Dev :=
  match peerCheck d p with
  | .error c => answerErr d p c
  | .ok _ => match readVirt d p.ctx (64 * p.addr) p.len .peer with
    | .ok bs => sendOrDrop d (mkPacket d p.src pkReadData p.ctx p.tag (64 * p.addr) p.len bs)
    | .error e =>
      let d1 := match e, smFind d.ctxs p.ctx with
        | .data a, some x => (match translate x a .any with | .ok dpa => reportBad d dpa | .error _ => d)
        | _, _ => d
      answerErr d1 p (errCode e)

/-- READ (R259, R401). -/
def execRead (pkt : Packet) (s : State) : Host.Outcome State Fault Refusal :=
  onDev s (fun d => match takePacket d pkRead pkt with | some d1 => serveRead (peerAccess d pkt d1) pkt | none => d)

def serveWrite (d : Dev) (p : Packet) : Dev :=
  match peerCheck d p with
  | .error c => answerErr d p c
  | .ok _ => match writeVirt d p.ctx (64 * p.addr) p.data .peer with
    | .ok d1 => sendOrDrop d1 (mkPacket d p.src pkWriteAck p.ctx p.tag (64 * p.addr) 0 [])
    | .error e => answerErr d p (errCode e)

/-- WRITE (R259, R401). -/
def execWrite (pkt : Packet) (s : State) : Host.Outcome State Fault Refusal :=
  onDev s (fun d => match takePacket d pkWrite pkt with | some d1 => serveWrite (peerAccess d pkt d1) pkt | none => d)

/-- The outstanding request that an answer matches (R401). -/
def matched (d : Dev) (p : Packet) : Option Outst :=
  match smFind d.fabric.outst p.tag with
  | some o => if o.dead || o.dst != p.src then none else some o
  | none => none

/-- A request has been answered: its transfer waits for one tag less. -/
def answered (d : Dev) (tag : Nat) (data : Option (List Byte)) : Dev :=
  match smFind d.fabric.outst tag with
  | none => d
  | some o =>
    let d1 := freeTagOf d tag
    match o.use with
    | .xfer id off => { d1 with xfers := smUpd d1.xfers id (fun x => { x with
        tags := x.tags.filter (fun t => t != tag),
        data := match data with | some bs => (patchBytes x.data off bs).take x.len | none => x.data }) }
    | _ => d1

/-- READ_DATA (R401). -/
def execReadData (pkt : Packet) (s : State) : Host.Outcome State Fault Refusal :=
  onDev s (fun d => match takePacket d pkReadData pkt with
    | some d1 => if (matched d1 pkt).isSome then answered d1 pkt.tag (some pkt.data) else d1
    | none => d)

/-- WRITE_ACK (R401). -/
def execWriteAck (pkt : Packet) (s : State) : Host.Outcome State Fault Refusal :=
  onDev s (fun d => match takePacket d pkWriteAck pkt with
    | some d1 => if (matched d1 pkt).isSome then answered d1 pkt.tag none else d1
    | none => d)

/-- READ_ERR (R401). -/
def execReadErr (pkt : Packet) (s : State) : Host.Outcome State Fault Refusal :=
  onDev s (fun d => match takePacket d pkReadErr pkt with
    | some d1 => if (matched d1 pkt).isSome then failRequest d1 pkt.tag (max 1 (field pkt.data 0 4)) else d1
    | none => d)

/-- REQ_TIMEOUT_EXPIRE (R401). -/
def execReqTimeoutExpire (tag : Nat) (s : State) : Host.Outcome State Fault Refusal :=
  onDev s (fun d => match smFind d.fabric.outst tag with
    | some o => if o.at_ + 400 * fabReqTimeout d ≤ d.now then failRequest d tag 0 else d
    | none => d)

/-! ### Ethernet (R402 to R406) -/

/-- Bytes of a frame before its EtherType. -/
def etherOff (d : Dev) : Nat := if bit (fabVlan d) 12 then 16 else 12

/-- The frame is whole, from 64 bytes to the largest, and its FCS holds (R402). -/
def fcsOk (f : List Byte) : Bool :=
  decide (64 ≤ f.length ∧ f.length ≤ 4142) && f.drop (f.length - 4) == fcs32 (f.take (f.length - 4))

/-- The frame's FCS holds and it passes the filter of its half-port, but for DST (R402, R405). -/
def frameOk (d : Dev) (h : Nat) (f : List Byte) : Bool :=
  let o := etherOff d
  fcsOk f && slice f 0 6 == macOf d (myId d) h && (o == 12 || slice f 12 2 == [0x81#8, 0x00#8])
    && beNat (slice f o 2) == field (fabTable d) 2 2

/-- The peer that a frame comes from, by its source address. -/
def framePeer (f : List Byte) : Nat := (field f 8 1 % 2) * 4096 + field f 9 1 % 16 * 256 + field f 10 1

def frameShim (d : Dev) (f : List Byte) : Nat := field f (etherOff d + 2) 8

/-- The cumulative acknowledgement of a frame: packets up to it need no resend (R403). -/
def takeAck (d : Dev) (peer ackPsn : Nat) : Dev :=
  modConn d peer (fun c => { c with unacked := c.unacked.filter (fun u =>
    -- beyond the point: more than half the number space behind it
    decide (2 ^ 23 ≤ (ackPsn + 2 ^ 24 - u.1) % 2 ^ 24)) })

/-- Moves the cumulative point over PSNs received ahead of it: at most fuel. -/
def advance (c : EthConn) : Nat → EthConn
  | 0 => c
  | fuel + 1 =>
    let n := (c.rxCum + 1) % 2 ^ 24
    if c.rxAhead.contains n then advance { c with rxCum := n, rxAhead := c.rxAhead.filter (fun k => k != n) } fuel else c

/-- A frame that passes the filter (R404): acknowledgement, then its packet by PSN. -/
def gotFrame (h : Nat) (f : List Byte) (d : Dev) : Dev :=
  if portConfig d h < 2 ∨ !isUp d h then d
  else if !frameOk d h f then countDrop d h
  else
    let shim := frameShim d f
    let peer := framePeer f
    let d1 := takeAck d peer (bits shim 47 24)
    if bit shim 48 then d1
    else
      let pkt := packetOf (f.drop (etherOff d + 10))
      if pkt.dst ≠ myId d then countDrop d1 h
      else
        let psn := bits shim 23 0
        let c := connOf d1 peer
        let ahead := (psn + 2 ^ 24 - c.rxCum) % 2 ^ 24
        let d2 := modConn d1 peer (fun c => { c with ackDue := true })
        if ahead = 0 ∨ 4096 < ahead ∨ c.rxAhead.contains psn then d2
        else
          let d3 := modConn d2 peer (fun c => advance { c with rxAhead := psn :: c.rxAhead } 4097)
          let d4 := if knownKind pkt.kind then bufferIn d3 h pkt else countDrop d3 h
          let c1 := connOf d4 peer
          let miss := (c1.rxCum + 1) % 2 ^ 24
          if c1.rxAhead.any (fun k => decide (64 ≤ (k + 2 ^ 24 - miss) % 2 ^ 24)) ∧ c1.naked ≠ some miss then
            sendAckOnly d4 h peer (some miss)
          else d4

/-- ETH_FRAME_RECEIVE (R402 to R406). The NAK that a shim carries is ETH_NAK. -/
def execEthFrameReceive (p : Fin 36) (frame : List Byte) (s : State) : Host.Outcome State Fault Refusal :=
  onDev s (gotFrame p frame)

/-- Sends a packet of a connection again, on the UP half-port with the fewest bytes queued; after 7 resends the peer is
unreachable, and the connection to it restarts (R404; log 28). -/
def resend (d : Dev) (peer psn : Nat) : Dev :=
  match (connOf d peer).unacked.find? (fun u => u.1 == psn) with
  | none => d
  | some (_, pkt, n, _) =>
    if 7 ≤ n then failPeer (modConn d peer (fun c => { c with txPsn := 0, unacked := [] })) peer
    else match ethChoice d with
      | some h => tallyValue (sendFrame d h pkt (some psn)) 0x44 h (n + 1) (BitVec.ofNat 32 peer)
      | none => modConn d peer (fun c => { c with unacked := c.unacked.map (fun u => if u.1 = psn then (u.1, u.2.1, u.2.2.1 + 1, d.now) else u) })

/-- ETH_NAK (R404): the shim of a frame names the oldest missing packet, the one after the cumulative point. -/
def execEthNak (p : Fin 36) (frame : List Byte) (s : State) : Host.Outcome State Fault Refusal :=
  onDev s (fun d =>
    let shim := frameShim d frame
    if portConfig d p < 2 ∨ !isUp d p then d
    else if !frameOk d p frame then countDrop d p
    else
      let d1 := takeAck d (framePeer frame) (bits shim 47 24)
      if bit shim 49 then resend d1 (framePeer frame) ((bits shim 47 24 + 1) % 2 ^ 24) else d1)

/-- ETH_RTO_EXPIRE (R404): a packet has gone without acknowledgement for RTO. -/
def execEthRtoExpire (peer psn : Nat) (s : State) : Host.Outcome State Fault Refusal :=
  onDev s (fun d => match (connOf d peer).unacked.find? (fun u => u.1 == psn) with
    | some (_, _, _, t) => if t + 400 * fabRto d ≤ d.now then resend d peer psn else d
    | none => d)

/-- PFC_FRAME_RECEIVE (R406): a pause, or with no quanta its release, of the channels of a priority. -/
def execPfcFrameReceive (p : Fin 36) (prio : Fin 8) (quanta : Nat) (s : State) : Host.Outcome State Fault Refusal :=
  onDev s (fun d =>
    if pfcOn d ∧ 2 ≤ portConfig d p then
      modPort d p (fun q => { q with paused := q.paused.zipIdx.map (fun v =>
        if fabPcp d v.2 = prio then quanta != 0 else v.1) })
    else d)

/-! ### The arbiter (R411, R412) -/

/-- FABRIC_ARBITER_REFILL (R412). -/
def execFabricArbiterRefill (p : Fin 36) (s : State) : Host.Outcome State Fault Refusal :=
  onDev s (fun d => if portConfig d p = 0 then d else modPort d p (fun q => { q with
    arb := q.arb.zipIdx.map (fun c => min (c.1 + fabWeight d c.2) (4 * fabWeight d c.2 : Nat)) }))

/-- Connections whose acknowledgement is due. -/
def acksDue (d : Dev) : List Nat := (d.fabric.conns.filter (fun c => c.2.ackDue)).map (·.1)

/-- The first packet of a class on a half-port. -/
def headOf (q : HalfPort) (c : Nat) : Option Packet := (q.queued.find? (fun p => p.1 == c)).map (·.2)

/-- A packet may start: credits and retry room on a direct port, no pause on an Ethernet one (R394, R398, R406). -/
def maySend (d : Dev) (h : Nat) (p : Packet) : Bool :=
  let q := portOf d h
  if portConfig d h = 1 then
    decide (packetCredits p ≤ nth 0 q.credits p.vc) && decide (q.retry.length + ceilDiv (withPacket q.txBuf (packetBytes p)).length 1016 ≤ 512)
  else !nth false q.paused p.vc

/-- Classes with a packet that may start, ACK_ONLY frames in class 0 (R411). -/
def classesReady (d : Dev) (h : Nat) : List Nat :=
  let q := portOf d h
  (span 0 5).filter (fun c => (match headOf q c with | some p => maySend d h p | none => false)
    || (c == 0 && decide (2 ≤ portConfig d h) && !(acksDue d).isEmpty))

/-- Starts the next packet of a class: the units that it takes, and the device after it. -/
def startPacket (d : Dev) (h c : Nat) : Nat × Dev :=
  let q := portOf d h
  match c, (if 2 ≤ portConfig d h then acksDue d else []) with
  | 0, peer :: _ => (1, sendAckOnly d h peer none)
  | _, _ => match headOf q c with
    | none => (0, d)
    | some p =>
      let d1 := modPort d h (fun q => { q with queued := q.queued.erase (c, p) })
      let d2 := if portConfig d h = 1 then
          sendPacketFlits (modPort d1 h (fun q => { q with credits := setNth q.credits p.vc (nth 0 q.credits p.vc - packetCredits p) })) h p
        else sendFrame d1 h p none
      (ceilDiv (16 + p.len) 64, d2)

/-- A direct port with no packet to start ends its last body, or sends an IDLE flit (R392, R393). -/
def restFlit (d : Dev) (h : Nat) : Dev :=
  if portConfig d h ≠ 1 then d
  else if (portOf d h).txBuf.isEmpty then sendIdle d h
  else flushBody d h

/-- The present packet ends and the fullest class of those that waited when it began is granted (R411, R412). -/
def grant (h : Nat) (d : Dev) : Dev :=
  let q := portOf d h
  if q.state ≠ .up then d
  else
    let ready := classesReady d h
    let cls := if q.current.isNone then ready else q.snapshot.filter ready.contains
    -- the fullest counter, ties to the lower code
    match cls.foldl (fun b c => match b with
      | none => some c
      | some x => if nth 0 q.arb x < nth 0 q.arb c then some c else some x) none with
    | none => restFlit (modPort d h (fun q => { q with current := none, snapshot := [] })) h
    | some c =>
      let (n, d1) := startPacket d h c
      let waiting := classesReady d1 h
      let d2 := if waiting.isEmpty ∧ portConfig d h = 1 then flushBody d1 h else d1
      modPort d2 h (fun q => { q with
        current := some c, snapshot := waiting,
        arb := setNth q.arb c (max (nth 0 q.arb c - n) (-4096)) })

/-- FABRIC_GRANT (R411, R412). -/
def execFabricGrant (p : Fin 36) (s : State) : Host.Outcome State Fault Refusal := onDev s (grant p)

end Sys2Proof.Machine
end

