-- ==== Sys2Proof/Machine/Curve.lean ====
section
/-! DEFINITION. Curve tables: the check of an image and the evaluation of a table (05 R164 to R166). -/

namespace Sys2Proof.Machine

/-- A signed byte. -/
def sbyte (v : Nat) : Int := sext 8 v

def cvMode (img : Mem) : Nat := (memByte img 0).toNat
def cvLog2w (img : Mem) : Int := sbyte (memByte img 1).toNat
def cvEs (img : Mem) : Int := sbyte (memByte img 2).toNat
def cvExtrap (img : Mem) : Nat := (memByte img 3).toNat
def cvWord (img : Mem) (o : Nat) : Word := BitVec.ofNat 32 (leNat (memRead img o 4))
def cvX0 (img : Mem) : Word := cvWord img 0x04
def cvKe (img : Mem) : Word := cvWord img 0x08
def cvBelow (img : Mem) : Word := cvWord img 0x0C
def cvAbove (img : Mem) : Word := cvWord img 0x10
def cvZero (img : Mem) : Word := cvWord img 0x14
def cvNeg (img : Mem) : Word := cvWord img 0x18
def cvCoef (img : Mem) (seg k : Nat) : Word := cvWord img (0x40 + 16 * seg + 4 * k)

/-- X0 is an integer multiple of 2^w. -/
def multipleOf (x : Word) (w : Int) : Bool :=
  match decodeElem 0 x.toNat with
  | .fin _ m _ e => m * pow2Num (e - w) % pow2Den (e - w) == 0
  | _ => false

/-- What FCURVE refuses (05 R166): a range is judged in the mode that uses it. -/
def curveBad (img : Mem) : Bool :=
  let mode := cvMode img
  decide (3 < mode)
  || (mode == 0 && (decide (cvLog2w img < -30) || decide (20 < cvLog2w img) || !multipleOf (cvX0 img) (cvLog2w img)))
  || (mode == 2 && cvEs img != 1 && cvEs img != -1)
  || !zeros (memRead img 0x24 28)
  || (span 0 1024).any (fun i =>
      (span 0 3).any (fun k => !isFinite32 (cvCoef img i k)) || cvCoef img i 3 != 0#32)

/-- The segment's quadratic at an exact d, rounded at each step (05 R165). -/
def quad (subn : Bool) (img : Mem) (seg : Nat) (dv : Val) : FlagM Word := do
  let c2 ← f32 subn (cvCoef img seg 2)
  let c1 ← f32 subn (cvCoef img seg 1)
  let p ← vmul c2 dv
  let s ← vadd p c1
  let u ← rne32 subn s
  let uv ← f32 subn u
  let c0 ← f32 subn (cvCoef img seg 0)
  let q ← vmul uv dv
  let r ← vadd q c0
  rne32 subn r

/-- A value of the header as a result (05 R162). -/
def headerValue (subn : Bool) (x : Word) : FlagM Word := do
  let v ← f32 subn x
  rne32 subn v

/-- ⌊m × 2^e⌋ of a signed dyadic value. -/
def vfloor : Val → Int
  | .fin n m d e => sgn n (m * pow2Num e) / (d * pow2Den e : Nat)
  | _ => 0

def ofInt (i : Int) : Val := .fin (decide (i < 0)) i.natAbs 1 0

/-- The exact difference of two finite values. -/
def vsubX (a b : Val) : Val := ((vadd a (vneg b)).run 0#32).1

/-- Evaluates a table at x (05 R165). -/
def curve (subn : Bool) (img : Mem) (x : Word) : FlagM Word := do
  let v ← f32 subn x
  if isNan v then return 0x7FC00000#32
  else match cvMode img with
    | 0 =>
      let w := cvLog2w img
      let x0 := decodeElem 0 (cvX0 img).toNat
      if isInf v then headerValue subn (if isNegVal v then cvBelow img else cvAbove img)
      else
        let top := ((vadd x0 (.fin false 1024 1 w)).run 0#32).1
        let seg : Option Nat :=
          if vlt v x0 then (if bit (cvExtrap img) 0 then some 0 else none)
          else if !vlt v top then (if bit (cvExtrap img) 1 then some 1023 else none)
          else some (vfloor (vscale (-w) (vsubX v x0))).toNat
        match seg with
        | none => headerValue subn (if vlt v x0 then cvBelow img else cvAbove img)
        | some i =>
          let start := ((vadd x0 (.fin false i 1 w)).run 0#32).1
          let dw ← rne32 subn (vsubX v start)
          quad subn img i (decodeElem 0 dw.toNat)
    | 3 =>
      if isInf v then headerValue subn (if isNegVal v then cvBelow img else cvAbove img)
      else if !vlt v (ofInt 128) then headerValue subn (cvAbove img)
      else if vlt v (ofInt (-150)) then headerValue subn (cvBelow img)
      else
        let n := vfloor v
        let f := vsubX v (ofInt n)
        let i := (vfloor (vscale 10 f)).toNat
        let q ← quad subn img i (vsubX f (.fin false i 1 (-10)))
        let qv ← f32 subn q
        rne32 subn (vscale n qv)
    | mode =>
      if isZeroVal v then headerValue subn (cvZero img)
      else if isNegVal v then headerValue subn (cvNeg img)
      else match v with
        | .fin _ m _ e0 =>
          let e := (m.log2 : Int) + e0
          let mant : Val := .fin false m 1 (e0 - e)
          let frac := vsubX mant (ofInt 1)
          let i := (vfloor (vscale 10 frac)).toNat
          let q ← quad subn img i (vsubX frac (.fin false i 1 (-10)))
          if mode = 1 then
            let ew ← rne32 subn (ofInt e)
            ffma subn ew (cvKe img) q
          else
            let qv ← f32 subn q
            rne32 subn (vscale (cvEs img * e) qv)
        | _ => headerValue subn (cvAbove img)

end Sys2Proof.Machine
end

