-- ==== Sys2Proof/Machine/Press.lean ====
section
/-! DEFINITION. The press: PMUL, PCOMB, PSTORE, PLOAD and PSET, and the product that FDOT shares (04, 05 R177). -/

namespace Sys2Proof.Machine

/-! ### Tiles, tags and the press registers -/

def tileOf (e : EngCtx) (n : Nat) : Tile := smGet {} e.tiles n

def setTile (e : EngCtx) (n : Nat) (t : Tile) : EngCtx := { e with tiles := smSet {} e.tiles n t }

/-- Tiles of the context's allocation on an engine (04 R133). -/
def tileCount (d : Dev) (ctx : Nat) : Nat := match smFind d.ctxs ctx with | some x => x.tiles + x.ttiles | none => 0

def entryAt (t : Tile) (k : Nat) : Entry := unpackEntry (smGet 0#64 t.ent k)

def setEntry (m : SMap (BitVec 64)) (k : Nat) (e : Entry) : SMap (BitVec 64) := smSet 0#64 m k (packEntry e)

/-- The tag's words 0x4000 to 0x4010 (04 R135). -/
def tagWords (t : Tag) : List Nat :=
  [t.lo % 2 ^ 20, t.hi % 2 ^ 21, t.nchunk % 2 ^ 20,
   b2n t.valid * 2 ^ 31 + b2n t.nf * 2 ^ 24 + t.mode * 2 ^ 21 + t.group * 2 ^ 19 + t.chlog * 2 ^ 15 + t.kpos % 2 ^ 15,
   t.klast % 2 ^ 15]

/-- The tag of a tile image; its reserved bits are ignored (04 R135, R144). -/
def tagOf (img : List Byte) : Tag :=
  let w (k : Nat) : Nat := field img (0x4000 + 4 * k) 4
  { lo := bits (w 0) 19 0, hi := bits (w 1) 20 0, nchunk := bits (w 2) 19 0, valid := bit (w 3) 31, nf := bit (w 3) 24,
    mode := bits (w 3) 23 21, group := bits (w 3) 20 19, chlog := bits (w 3) 18 15, kpos := bits (w 3) 14 0,
    klast := bits (w 4) 14 0 }

/-- The 16,448 bytes of a tile image (04 R134). -/
def tileImage (t : Tile) : List Byte :=
  (span 0 2048).flatMap (fun k => natLe 8 (smGet 0#64 t.ent k).toNat)
    ++ (tagWords t.tag).flatMap (natLe 4) ++ List.replicate 44 0#8

/-- The tile of an image (04 R134, R144). -/
def tileOfImage (img : List Byte) : Tile :=
  { ent := (span 0 2048).filterMap (fun k => let v := field img (8 * k) 8
            if v = 0 then none else some (k, BitVec.ofNat 64 v)),
    tag := tagOf img }

def pctlNchunk (e : EngCtx) : Nat := bits e.pctl0.toNat 31 12
def pctlChlog (e : EngCtx) : Nat := bits e.pctl0.toNat 11 8
def pctlBias (e : EngCtx) : Nat := 64 * bits e.pctl1.toNat 31 15
def pctlKlast (e : EngCtx) : Nat := bits e.pctl1.toNat 14 0

/-- Length of chunk q (04 R136). -/
def chunkLen (nchunk chlog klast q : Nat) : Nat := if q < nchunk then 2 ^ (chlog + 8) else klast

/-- Sets or clears a tile's bit in the PNF registers (04 R149). -/
def setPnf (e : EngCtx) (tile : Nat) (v : Bool) : EngCtx :=
  { e with pnf := smMod 0#32 e.pnf (tile / 32) (fun w =>
      if v then w ||| (1#32 <<< (tile % 32)) else w &&& ~~~(1#32 <<< (tile % 32))) }

/-- PSTAT COUNT saturates (04 R149). -/
def addPstat (e : EngCtx) (n : Nat) : EngCtx := { e with pstat := min (e.pstat + n) (2 ^ 31 - 1) }

/-! ### Operands of a product (04 R113 to R120) -/

/-- Fields of PMUL and FDOT (04 R137). -/
structure Mul where
  tile : Nat
  init : Bool
  bias : Bool
  group : Nat
  mode : Nat
  mrows : Nat
  ncols : Nat
  aAddr : Nat
  bAddr : Nat
  klen : Nat
  chunk : Nat
  fda : Nat
  fdb : Nat
  dot : Bool
  deriving DecidableEq, Repr

def mulOf (c : Ic) (dot : Bool) : Mul :=
  { tile := bits c.w0 23 17, init := bit c.w0 16, bias := bit c.w0 15, group := bits c.w0 14 13, mode := bits c.w0 12 10,
    mrows := bits c.w0 9 5, ncols := bits c.w1 31 26, aAddr := 64 * bits c.w1 25 9, bAddr := 64 * bits c.w2 31 15,
    klen := bits c.w2 14 0, chunk := bits c.w3 31 12, fda := bits c.w3 11 8, fdb := bits c.w3 7 4, dot := dot }

def mulReserved (c : Ic) : Bool := bits c.w0 4 0 != 0 || bits c.w1 8 0 != 0 || bits c.w3 3 0 != 0

/-- K elements of a K-step (04 R113, R119). -/
def kStep (mode : Nat) : Nat := if mode = 1 then 32 else 16

/-- The K span of a group (04 R116). -/
def kSpan (mode group : Nat) : Nat := kStep mode / 2 ^ group

/-- Bytes of an A K-step and a B K-step (04 R119, 05 R177). -/
def aStep (mode : Nat) (block : Bool) : Nat :=
  match mode with | 0 => 1024 | 1 => if block then 1088 else 1024 | _ => 2048

def bStep (mode : Nat) (block dot : Bool) : Nat :=
  if dot then 64 else match mode with | 0 => 2048 | 1 => if block then 2112 else 2048 | 2 => 4096 | _ => 2048

/-- Bytes of a run (04 R119). -/
def runLen (mode : Nat) : Nat := if mode ≤ 1 then 32 else 64

/-- A descriptor that the mode accepts (04 R140). -/
def modeAccepts (mode : Nat) (f : Fd) : Bool :=
  match mode with
  | 1 => f.elem == 2 || f.elem == 3
  | 2 => f.elem == 0 && !f.block
  | _ => f.elem == 1 && !f.block

/-- An operand element: one value, hi and lo, or real and imaginary part. -/
structure El where
  a : Val
  b : Val
  zeroLo : Bool  -- b is the exact zero lo of a non-finite operand (R117)
  deriving DecidableEq, Repr

def isFinVal (v : Val) : Bool := !isNan v && !isInf v

def elNan (mode : Nat) (x : El) : Bool := isNan x.a || (mode == 3 && isNan x.b)

def elFin (mode : Nat) (x : El) : Bool := isFinVal x.a && (mode != 3 || isFinVal x.b)

/-- hi and lo of an fp32 operand (04 R117); lo is a BF16 value under the context's subnormal mode (03 R100). -/
def splitHiLo (subn : Bool) (x : Nat) : FlagM El := do
  let v ← readElem subn 0 x
  if isFinVal v then
    if isZeroVal v then return { a := v, b := .fin false 0 1 0, zeroLo := false }
    else
      let hi := decodeElem 0 (x / 65536 * 65536)
      let r ← vadd v (vneg hi)
      let lo ← encodeElem 1 subn false none r
      return { a := hi, b := decodeElem 1 lo, zeroLo := false }
  else return { a := v, b := .fin false 0 1 0, zeroLo := true }

/-- Element r of a row of A or a column of B; o is the offset of its run within a K-step. -/
def operandEl (subn : Bool) (mode elem : Nat) (bs : List Byte) (step o r : Nat) : FlagM El := do
  let base := r / kStep mode * step + o
  let k := r % kStep mode
  match mode with
  | 1 => return { a := decodeElem elem (nth 0#8 bs (base + k)).toNat, b := .nan, zeroLo := false }
  | 2 => splitHiLo subn (field bs (base + 4 * k) 4)
  | 3 =>
    let re ← readElem subn 1 (field bs (base + 4 * k) 2)
    let im ← readElem subn 1 (field bs (base + 4 * k + 2) 2)
    return { a := re, b := im, zeroLo := false }
  | _ =>
    let v ← readElem subn 1 (field bs (base + 2 * k) 2)
    return { a := v, b := .nan, zeroLo := false }

/-- A leaf with the exact zero of a non-finite operand as a factor is +0 (04 R117). -/
def mul3 (z : Bool) (x y : Val) : FlagM Val := if z then return .fin false 0 1 0 else vmul x y

/-- Exact pair sums of FP8 products (04 R124). -/
def pairLeaves : List (El × El) → FlagM (List Val)
  | [] => return []
  | [(x, y)] => do
    let p ← vmul x.a y.a
    return [p]
  | (x, y) :: (x', y') :: r => do
    let p ← vmul x.a y.a
    let q ← vmul x'.a y'.a
    let s ← vadd p q
    let rest ← pairLeaves r
    return s :: rest

/-- The leaves of a group for a real (im false) or an imaginary column (04 R117, R118, R124). -/
def groupLeaves (mode : Nat) (im : Bool) (xs : List (El × El)) : FlagM (List Val) :=
  match mode with
  | 1 => pairLeaves xs
  | 2 => do
    let ls ← xs.mapM (fun p => do
      let hh ← vmul p.1.a p.2.a
      let hl ← mul3 p.2.zeroLo p.1.a p.2.b
      let lh ← mul3 p.1.zeroLo p.1.b p.2.a
      return [hh, hl, lh])
    return ls.flatten
  | 3 => do
    let ls ← xs.mapM (fun p => do
      if im then
        let u ← vmul p.1.a p.2.b
        let v ← vmul p.1.b p.2.a
        return [u, v]
      else
        let u ← vmul p.1.a p.2.a
        let v ← vmul p.1.b p.2.b
        return [u, vneg v])
    return ls.flatten
  | _ => xs.mapM (fun p => vmul p.1.a p.2.a)

/-- One group's sum, and whether it is non-finite from finite inputs (04 R123, R149). -/
def oneGroup (subn : Bool) (mode : Nat) (im : Bool) (sa sb : Nat) (xs : List (El × El)) : FlagM (Word × Bool) := do
  let ls ← groupLeaves mode im xs
  let nan := xs.any (fun p => elNan mode p.1 || elNan mode p.2)
  let fin := xs.all (fun p => elFin mode p.1 && elFin mode p.2)
  let snan := sa == 0xFF || sb == 0xFF
  let g ← groupSum subn ((sa : Int) + sb - 254) snan nan ls
  return (g, !isFinite32 g && fin && !snan)

/-- An output entry after all groups, with the count of non-finite group sums. -/
def runGroups (subn : Bool) (mode : Nat) (im : Bool) (as_ bs_ : List Nat) (e0 : Entry)
    (groups : List (Nat × List (El × El))) : FlagM (Entry × Nat) :=
  groups.foldlM (fun st g => do
    let (w, bad) ← oneGroup subn mode im (nth 127 as_ (g.1 / 32)) (nth 127 bs_ (g.1 / 32)) g.2
    let e ← accAdd subn st.1 w
    return (e, if bad then st.2 + 1 else st.2)) (e0, 0)

/-- Cuts a row's elements into groups, each with the index of its first element. -/
def numberGroups (n : Nat) (gs : List (List (El × El))) : List (Nat × List (El × El)) :=
  gs.zipIdx.map (fun p => (p.2 * n, p.1))

/-- Computes every active entry of the product: (index, entry) pairs and the count (04 R120, R146). -/
def product (subn : Bool) (m : Mul) (fa fb : Fd) (abytes bbytes biasBytes : List Byte) (t : Tile) (useBias : Bool) :
    FlagM (List (Nat × Entry) × Nat) := do
  let sa := aStep m.mode fa.block
  let sb := bStep m.mode fb.block m.dot
  let run := runLen m.mode
  let gk := kSpan m.mode m.group
  let steps := ceilDiv m.klen (kStep m.mode)
  let outCols := if m.mode = 3 then 2 * (m.ncols + 1) else m.ncols + 1
  let cols ← (span 0 (m.ncols + 1)).mapM (fun j =>
    (span 0 m.klen).mapM (operandEl subn m.mode fb.elem bbytes sb (if m.dot then 0 else j * run)))
  let rows ← (span 0 (m.mrows + 1)).mapM (fun i =>
    (span 0 m.klen).mapM (operandEl subn m.mode fa.elem abytes sa (i * run)))
  let scales (bs : List Byte) (step o : Nat) (on : Bool) : List Nat :=
    if on then (span 0 steps).map (fun k => (nth 0#8 bs (k * step + o)).toNat) else []
  (rows.zipIdx).foldlM (fun st row => do
    (span 0 outCols).foldlM (fun st c => do
      let j := if m.mode = 3 then c / 2 else c
      let i := row.2
      let e0 ← if m.init then
          (if useBias then do
              let v ← f32 subn (word biasBytes (4 * c))
              let w ← rne32 subn v
              return { s := w, c := 0#32 }
            else return zeroEntry : FlagM Entry)
        else (return entryAt t (64 * i + c) : FlagM Entry)
      let xs := row.1.zip (nth [] cols j)
      let groups := numberGroups gk (runsOf gk xs (m.klen + 1))
      let (e, n) ← runGroups subn m.mode (m.mode == 3 && c % 2 == 1)
        (scales abytes sa (1024 + i) (m.mode == 1 && fa.block))
        (scales bbytes sb (if m.dot then 32 else 2048 + j) (m.mode == 1 && fb.block)) e0 groups
      return (st.1 ++ [(64 * i + c, e)], st.2 + n)) st) ([], 0)

/-- The order checks of PMUL (04 R141, R148). A KLAST above 16,384, or above the chunk size, is taken as it stands: R136 gives its range
and R141 no fault for it (DESIGN CHOICE, log 60). -/
def mulOrderBad (e : EngCtx) (m : Mul) : Bool :=
  let n := pctlNchunk e
  let ch := pctlChlog e
  let kl := pctlKlast e
  let len := chunkLen n ch kl m.chunk
  let g := (tileOf e m.tile).tag
  let sp := kSpan m.mode m.group
  if m.init then
    decide (n < m.chunk) || decide (len < m.klen) || (m.klen % sp != 0 && m.klen != len)
  else if m.klen = 0 then false
  else
    !g.valid || g.lo != m.chunk || g.hi != m.chunk + 1 || g.mode != m.mode || g.group != m.group || g.nchunk != n
      || g.chlog != ch || g.klast != kl || g.kpos % sp != 0 || decide (len < g.kpos + m.klen)
      || ((g.kpos + m.klen) % sp != 0 && g.kpos + m.klen != len)

/-- PMUL and FDOT (04 R137 to R141, R146 to R150; 05 R177). An NCOLS above 31 in complex mode raises PRESS_OPERAND: R137 gives its
range and R141 no fault for it (DESIGN CHOICE, log 60). -/
def doMul (dot : Bool) (d : Dev) (c : Ic) : Ex Nx := do
  let m := mulOf c dot
  let e := getE d c.ctx c.idx
  let subn := subnOf d c.ctx
  let unit : BUnit := if dot then .finisher else .press
  failIf (mulReserved c || decide (3 < m.mode) || decide (2 < m.group) || decide (6 < pctlChlog e)
    || (if dot then m.ncols != 0 else m.mode == 3 && decide (31 < m.ncols))) PRESS_OPERAND
  match fdOf (fdReg e m.fda), fdOf (fdReg e m.fdb) with
  | some fa, some fb =>
    failIf (!modeAccepts m.mode fa || !modeAccepts m.mode fb) PRESS_OPERAND
    failIf (decide (tileCount d c.ctx ≤ m.tile)) PRESS_RANGE
    let steps := ceilDiv m.klen (kStep m.mode)
    let alen := steps * aStep m.mode fa.block
    let blen := steps * bStep m.mode fb.block dot
    let useBias := m.init && m.bias && m.chunk == 0
    basketOk d c.ctx c.idx m.aAddr alen PRESS_RANGE
    basketOk d c.ctx c.idx m.bAddr blen PRESS_RANGE
    basketOk d c.ctx c.idx (if useBias then pctlBias e else 0) (if useBias then 256 else 0) PRESS_RANGE
    failIf (mulOrderBad e m) PRESS_ORDER
    if m.klen = 0 ∧ !m.init then nextIns c d
    else
      let (ab, d1) := basketRead d c.ctx c.idx unit m.aAddr alen
      let (bb, d2) := basketRead d1 c.ctx c.idx unit m.bAddr blen
      let (bias, d3) := if useBias then basketRead d2 c.ctx c.idx unit (pctlBias e) 256 else ([], d2)
      let t := tileOf e m.tile
      let ((out, bad), fl) := runFlags (product subn m fa fb ab bb bias t useBias)
      let nf := out.any (fun p => !isFinite32 p.2.s)
      let tag0 : Tag := if m.init then
          { lo := m.chunk, hi := m.chunk + 1, nchunk := pctlNchunk e, valid := true, nf := false, mode := m.mode,
            group := m.group, chlog := pctlChlog e, kpos := 0, klast := pctlKlast e }
        else t.tag
      let tag := { tag0 with kpos := tag0.kpos + m.klen, nf := tag0.nf || nf }
      let ent := out.foldl (fun mp p => setEntry mp p.1 p.2) t.ent
      nextIns c (addAflags (modE d3 c.ctx c.idx (fun e =>
        let e1 := if m.init then setPnf e m.tile false else e
        let e2 := if nf then setPnf e1 m.tile true else e1
        addPstat (setTile e2 m.tile { ent := ent, tag := tag }) bad)) c.ctx c.idx fl)
  | _, _ => flt PRESS_OPERAND

/-! ### Combining, storing and loading tiles -/

/-- A leaf tile whose chunk is not complete (04 R143). -/
def openLeaf (g : Tag) : Bool := g.hi == g.lo + 1 && g.kpos != chunkLen g.nchunk g.chlog g.klast g.lo

/-- Two tiles that PCOMB refuses (04 R141, R143). -/
def combBad (a b : Tag) : Bool :=
  let (l, r) := if a.lo < b.lo then (a, b) else (b, a)
  !a.valid || !b.valid || a.nchunk != b.nchunk || a.chlog != b.chlog || a.klast != b.klast || a.mode != b.mode
    || a.group != b.group || openLeaf a || openLeaf b || l.hi != r.lo || !isSplit l.lo l.hi r.hi (a.nchunk + 1)

/-- comb of two tiles, entry by entry: (index, entry) pairs, last first, and the count of R149 (04 R127, R142, R149). -/
def combTiles (subn : Bool) (l r : Tile) : FlagM (List (Nat × Entry) × Nat) :=
  (span 0 2048).foldlM (fun st k => do
    let x := entryAt l k
    let y := entryAt r k
    let z ← comb subn x y
    let fin := isFinite32 x.s && isFinite32 x.c && isFinite32 y.s && isFinite32 y.c
    return ((k, z) :: st.1, if !isFinite32 z.s && fin then st.2 + 1 else st.2)) ([], 0)

/-- PCOMB (04 R142). -/
def doPcomb (d : Dev) (c : Ic) : Ex Nx := do
  let td := bits c.w0 23 17
  let ts := bits c.w0 16 10
  let e := getE d c.ctx c.idx
  let subn := subnOf d c.ctx
  failIf (bits c.w0 9 0 != 0 || c.w1 != 0 || c.w2 != 0 || c.w3 != 0) PRESS_OPERAND
  failIf (decide (tileCount d c.ctx ≤ td) || decide (tileCount d c.ctx ≤ ts)) PRESS_RANGE
  let a := tileOf e td
  let b := tileOf e ts
  failIf (combBad a.tag b.tag) PRESS_ORDER
  let (l, r) := if a.tag.lo < b.tag.lo then (a, b) else (b, a)
  let ((out, bad), fl) := runFlags (combTiles subn l r)
  let nf := out.any (fun p => !isFinite32 p.2.s)
  let ent : SMap (BitVec 64) := out.foldl (fun mp p =>
    if packEntry p.2 = 0#64 then mp else (p.1, packEntry p.2) :: mp) []
  let tag : Tag := { l.tag with hi := r.tag.hi, nf := l.tag.nf || r.tag.nf }
  nextIns c (addAflags (modE d c.ctx c.idx (fun e =>
    let e1 := setTile e td { ent := ent, tag := tag }
    let e2 := if ts = td then e1 else setTile e1 ts { b with tag := { b.tag with valid := false } }
    addPstat (if nf then setPnf e2 td true else e2) bad)) c.ctx c.idx fl)

/-- PSTORE (04 R144). -/
def doPstore (d : Dev) (c : Ic) : Ex Nx := do
  let tile := bits c.w0 23 17
  let off := 64 * bits c.w1 31 15
  failIf (bits c.w0 16 0 != 0 || bits c.w1 14 0 != 0 || c.w2 != 0 || c.w3 != 0) PRESS_OPERAND
  failIf (decide (tileCount d c.ctx ≤ tile)) PRESS_RANGE
  basketOk d c.ctx c.idx off 16448 PRESS_RANGE
  nextIns c (basketWrite d c.ctx c.idx .press off (tileImage (tileOf (getE d c.ctx c.idx) tile)))

/-- PLOAD (04 R144). -/
def doPload (d : Dev) (c : Ic) : Ex Nx := do
  let tile := bits c.w0 23 17
  let off := 64 * bits c.w1 31 15
  failIf (bits c.w0 16 0 != 0 || bits c.w1 14 0 != 0 || c.w2 != 0 || c.w3 != 0) PRESS_OPERAND
  failIf (decide (tileCount d c.ctx ≤ tile)) PRESS_RANGE
  basketOk d c.ctx c.idx off 16448 PRESS_RANGE
  let (img, d1) := basketRead d c.ctx c.idx .press off 16448
  let t := tileOfImage img
  nextIns c (modE d1 c.ctx c.idx (fun e =>
    let e1 := setTile e tile t
    if t.tag.nf then setPnf e1 tile true else e1))

/-- PSET (04 R136, R144). -/
def doPset (d : Dev) (c : Ic) : Ex Nx := do
  failIf (bits c.w0 23 0 != 0 || c.w3 != 0) PRESS_OPERAND
  nextIns c (modE d c.ctx c.idx (fun e =>
    { e with pctl0 := BitVec.ofNat 32 c.w1 &&& 0xFFFFFF00#32, pctl1 := BitVec.ofNat 32 c.w2 }))

/-- PMUL (04 R138). -/
def execPmul (e : Fin 96) (s : State) : Host.Outcome State Fault Refusal := onDev s (issue 0x40 e (doMul false))
/-- PCOMB (04 R142). -/
def execPcomb (e : Fin 96) (s : State) : Host.Outcome State Fault Refusal := onDev s (issue 0x41 e doPcomb)
/-- PSTORE (04 R144). -/
def execPstore (e : Fin 96) (s : State) : Host.Outcome State Fault Refusal := onDev s (issue 0x42 e doPstore)
/-- PLOAD (04 R144). -/
def execPload (e : Fin 96) (s : State) : Host.Outcome State Fault Refusal := onDev s (issue 0x43 e doPload)
/-- PSET (04 R144). -/
def execPset (e : Fin 96) (s : State) : Host.Outcome State Fault Refusal := onDev s (issue 0x44 e doPset)
/-- FDOT (05 R177). -/
def execFdot (e : Fin 96) (s : State) : Host.Outcome State Fault Refusal := onDev s (issue 0x56 e (doMul true))

end Sys2Proof.Machine
end

