-- ==== Sys2Proof/Machine/Finisher.lean ====
section
/-! DEFINITION. The finisher: loads, stores, chains, reductions, permutations and accumulator reads (05). -/

namespace Sys2Proof.Machine

/-! ### Vectors (05 R151 to R154) -/

/-- Elements an instruction works on (05 R153). -/
def vecLen (e : EngCtx) (nreg : Nat) : Nat := min (e.fctl.toNat % 2 ^ 11 + 1) (256 * nreg)

def fTD (w0 : Nat) : Nat := bits w0 23 18
def fTS (w0 : Nat) : Nat := bits w0 17 12
def fNREG (w0 : Nat) : Nat := bits w0 11 9 + 1
def fCH (w0 : Nat) : Nat := bits w0 8 5

/-- A vector that extends beyond t63 (05 R183). -/
def vecBad (base nreg : Nat) : Bool := decide (64 < base + nreg)

/-- Element k of the vector at a base register (05 R152). -/
def tElem (e : EngCtx) (base k : Nat) : Word := smGet 0#32 e.t (256 * base + k)

def readVec (e : EngCtx) (base n : Nat) : List Word := (span 0 n).map (tElem e base)

/-- Writes elements 0 on of the vector at a base register; others keep their values (05 R153). -/
def writeVec (e : EngCtx) (base : Nat) (vs : List Word) : EngCtx :=
  { e with t := vs.zipIdx.foldl (fun m p => smSet 0#32 m (256 * base + p.2) p.1) e.t }

/-- The stream id of the slot FCTL names (14 R540). -/
def streamOf (d : Dev) (c : Ic) : BitVec 64 × Dev :=
  let slot := bits (getE d c.ctx c.idx).fctl.toNat 31 28
  let (bs, d1) := basketRead d c.ctx c.idx .finisher (8 * slot) 8
  (BitVec.ofNat 64 (leNat bs), d1)

def seedOf (d : Dev) (ctx : Nat) : BitVec 64 := match smFind d.ctxs ctx with | some x => x.seed | none => 0#64

/-- The generator's output for element k of an instruction (05 R154, 14 R544). -/
def elemBitsOf (d : Dev) (c : Ic) (stream : BitVec 64) (k : Nat) : Nat :=
  kcg (seedOf d c.ctx) stream ((getE d c.ctx c.idx).fidx + BitVec.ofNat 64 k)

/-! ### Chains (05 R159 to R162) -/

/-- A stage of a chain (05 R160). -/
structure Stage where
  op : Nat
  bk : Nat
  bn : Nat
  ck : Nat
  cn : Nat
  tbl : Nat
  deriving DecidableEq, Repr

def stageOf (w : Nat) : Stage :=
  { op := bits w 31 26, bk := bits w 25 24, bn := bits w 23 18, ck := bits w 17 16, cn := bits w 15 10, tbl := bits w 9 6 }

def chainWords (e : EngCtx) (ch : Nat) : List Nat := (span 0 8).map (fun i => (smGet 0#32 e.ch (8 * ch + i)).toNat)

/-- The stages before the first END. -/
def chainStages (ws : List Nat) : List Stage := (ws.map stageOf).takeWhile (fun s => s.op != 0)

def needsB (op : Nat) : Bool := [1, 2, 3, 4, 5, 6, 0x0B, 0x0C, 0x0D, 0x0E, 0x13].contains op
def needsC (op : Nat) : Bool := op == 4 || op == 0x0E

/-- A stage the finisher refuses as FIN_OPERAND (05 R161, R183; 14 R543). -/
def stageBad (nreg : Nat) (s : Stage) : Bool :=
  decide (0x13 < s.op) || s.bk == 3 || s.ck == 3 || (needsB s.op && s.bk == 2) || (needsC s.op && s.ck == 2)
    || (s.op == 0x0A && decide (2 < s.tbl))
    || (needsB s.op && s.bk == 0 && vecBad s.bn nreg) || (needsC s.op && s.ck == 0 && vecBad s.cn nreg)

/-- A chain the finisher refuses as FIN_OPERAND. -/
def chainBad (nreg : Nat) (ws : List Nat) : Bool :=
  ws.any (fun w => w % 64 != 0) || ((ws.map stageOf).dropWhile (fun s => s.op != 0)).any (fun s => s.op != 0)
    || (ws.map stageOf).any (fun s => s.bk == 3 || s.ck == 3) || (chainStages ws).any (stageBad nreg)

/-- A CURVE stage names a slot that no FCURVE has loaded (05 R167). -/
def curveMissing (e : EngCtx) (ws : List Nat) : Bool :=
  (chainStages ws).any (fun s => s.op == 9 && (smFind e.curves s.tbl).isNone)

/-- The value of an operand of a stage for element k. -/
def stageOperand (e : EngCtx) (kind n k : Nat) : Word :=
  if kind = 0 then tElem e n k else smGet 0#32 e.fs (n % 16)

def one32 : Word := 0x3F800000#32

def boolWord (b : Bool) : Word := if b then one32 else 0#32

/-- One stage on one element; rnd is the generator's output for it (05 R161). -/
def runStage (subn : Bool) (e : EngCtx) (rnd k : Nat) (s : Stage) (a : Word) : FlagM Word := do
  let b := stageOperand e s.bk s.bn k
  let c := stageOperand e s.ck s.cn k
  match s.op with
  | 0x01 => fadd subn a b
  | 0x02 => fsub subn a b
  | 0x03 => fmul subn a b
  | 0x04 => ffma subn b c a
  | 0x05 => fmax subn a b
  | 0x06 => fmin subn a b
  | 0x07 => fabs subn a
  | 0x08 => fneg subn a
  | 0x09 => curve subn ((smFind e.curves s.tbl).getD []) a
  | 0x0A =>
    match s.tbl with
    | 0 => rne32 subn (.fin false (bits rnd 127 104) 1 (-24))
    | 1 => rne32 subn (.fin false (bits rnd 127 120) 1 (-8))
    | _ => return BitVec.ofNat 32 (bits rnd 127 96)
  | 0x0B =>
    let r ← fcmp subn 0 a b
    return boolWord r
  | 0x0C =>
    let r ← fcmp subn 2 a b
    return boolWord r
  | 0x0D =>
    let r ← fcmp subn 3 a b
    return boolWord r
  | 0x0E =>
    let r ← fcmp subn 1 a 0#32
    let v ← f32 subn (if r then b else c)
    rne32 subn v
  | 0x0F =>
    let v ← f32 subn a
    return boolWord (isNan v)
  | 0x10 =>
    let v ← f32 subn a
    return boolWord (isInf v)
  | 0x11 =>
    let v ← f32 subn a
    let r ← encodeElem 6 subn true none v
    return BitVec.ofNat 32 r
  | 0x12 => rne32 subn (decodeElem 6 a.toNat)
  | _ => return a + b

/-- A chain on every element of a vector (05 R162). -/
def runChain (subn : Bool) (e : EngCtx) (rnd : Nat → Nat) (stages : List Stage) (xs : List Word) : FlagM (List Word) :=
  xs.zipIdx.mapM (fun p => stages.foldlM (fun a s => runStage subn e (rnd p.2) p.2 s a) p.1)

/-! ### Loads and stores (05 R178, R179) -/

/-- An n that the descriptor does not allow (05 R183). -/
def countBad (f : Fd) (n : Nat) : Bool :=
  if f.block then n % 32 != 0 else elemBits f.elem == 4 && n % 2 != 0

/-- Decodes loaded elements into fp32 (05 R178). With block scales alone this is the widening of 08 R326: a scale outside the
quantiser's window whose element is not exact in fp32 sets WIDEN_INEXACT (03 R93). -/
def loadElems (subn : Bool) (f : Fd) (bs scales : List Byte) (n : Nat) : FlagM (List Word) :=
  (span 0 n).mapM (fun k => do
    let code := packedElem f.elem bs k
    if f.elem = 6 then return BitVec.ofNat 32 code
    else
      let v ← readElem subn f.elem code
      let s := if f.block then (nth 0#8 scales (k / 32)).toNat else 127
      let x ← scaledVal v s (fdT f)
      let w ← rne32 subn x
      raiseIf (f.block && !f.ts && s != 0xFF && !inWindow f.elem s && inexact 0 w.toNat x) Fl.widenInexact
      return w)

/-- Codes and block scales of stored elements; rnd gives element k's generator output (05 R179). -/
def storeElems (subn : Bool) (f : Fd) (rnd : Nat → Nat) (xs : List Word) : FlagM (List Byte × List Byte) := do
  if f.elem = 6 then return (xs.flatMap (fun x => natLe 4 x.toNat), [])
  else
    let vs ← xs.mapM (f32 subn)
    encodeVals subn f rnd vs

/-- Basket regions of a store of n elements lie within the share. -/
def storeOk (d : Dev) (c : Ic) (f : Fd) (addr saddr n : Nat) : Ex Unit := do
  basketOk d c.ctx c.idx addr (packedBytes f.elem n) FIN_RANGE
  if f.block then basketOk d c.ctx c.idx saddr (n / 32) FIN_RANGE

/-- The generator's outputs for an instruction, read from its stream only when it draws. -/
def drawsOf (d : Dev) (c : Ic) (need : Bool) : (Nat → Nat) × Dev :=
  if need then
    let (st, d1) := streamOf d c
    (fun k => elemBitsOf d c st k, d1)
  else (fun _ => 0, d)

/-- Writes stored elements and scales to the basket. -/
def putStore (d : Dev) (c : Ic) (addr saddr : Nat) (o : List Byte × List Byte) : Dev :=
  let d1 := basketWrite d c.ctx c.idx .finisher addr o.1
  if o.2.isEmpty then d1 else basketWrite d1 c.ctx c.idx .finisher saddr o.2

/-- Bits of the words that an instruction does not use are zero (05 R181, R182). -/
def finUsed (c : Ic) (m0 m1 m2 m3 : Nat) : Bool :=
  (c.w0 % 2 ^ 24) &&& m0 == c.w0 % 2 ^ 24 && c.w1 &&& m1 == c.w1 && c.w2 &&& m2 == c.w2 && c.w3 &&& m3 == c.w3

def doFld (d : Dev) (c : Ic) : Ex Nx := do
  let e := getE d c.ctx c.idx
  let subn := subnOf d c.ctx
  failIf (!finUsed c 0xFC0E00 0xFFFFF800 0xFFFF8000 0) FIN_OPERAND
  match fdOf (fdReg e (bits c.w1 14 11)) with
  | none => flt FIN_OPERAND
  | some f =>
    let nreg := fNREG c.w0
    let n := vecLen e nreg
    let addr := 64 * bits c.w1 31 15
    let saddr := 64 * bits c.w2 31 15
    failIf (vecBad (fTD c.w0) nreg || countBad f n) FIN_OPERAND
    storeOk d c f addr saddr n
    let (bs, d1) := basketRead d c.ctx c.idx .finisher addr (packedBytes f.elem n)
    let (sc, d2) := if f.block then basketRead d1 c.ctx c.idx .finisher saddr (n / 32) else ([], d1)
    let (xs, fl) := runFlags (loadElems subn f bs sc n)
    nextIns c (addAflags (modE d2 c.ctx c.idx (fun e => writeVec e (fTD c.w0) xs)) c.ctx c.idx fl)

def doFst (d : Dev) (c : Ic) : Ex Nx := do
  let e := getE d c.ctx c.idx
  let subn := subnOf d c.ctx
  failIf (!finUsed c 0x03FE00 0xFFFFF800 0xFFFF8000 0) FIN_OPERAND
  match fdOf (fdReg e (bits c.w1 14 11)) with
  | none => flt FIN_OPERAND
  | some f =>
    let nreg := fNREG c.w0
    let n := vecLen e nreg
    let addr := 64 * bits c.w1 31 15
    let saddr := 64 * bits c.w2 31 15
    failIf (vecBad (fTS c.w0) nreg || countBad f n) FIN_OPERAND
    storeOk d c f addr saddr n
    let (rnd, d1) := drawsOf d c f.stoch
    let (o, fl) := runFlags (storeElems subn f rnd (readVec e (fTS c.w0) n))
    nextIns c (addAflags (putStore d1 c addr saddr o) c.ctx c.idx fl)

/-- A chain draws random numbers. -/
def drawsRandom (ws : List Nat) : Bool := (chainStages ws).any (fun s => s.op == 0x0A)

def doFop (d : Dev) (c : Ic) : Ex Nx := do
  let e := getE d c.ctx c.idx
  let subn := subnOf d c.ctx
  failIf (!finUsed c 0xFFFFE0 0 0 0) FIN_OPERAND
  let nreg := fNREG c.w0
  let n := vecLen e nreg
  let ws := chainWords e (fCH c.w0)
  failIf (vecBad (fTD c.w0) nreg || vecBad (fTS c.w0) nreg || chainBad nreg ws) FIN_OPERAND
  failIf (curveMissing e ws) FIN_RANGE
  let (rnd, d1) := drawsOf d c (drawsRandom ws)
  let (ys, fl) := runFlags (runChain subn e rnd (chainStages ws) (readVec e (fTS c.w0) n))
  nextIns c (addAflags (modE d1 c.ctx c.idx (fun e => writeVec e (fTD c.w0) ys)) c.ctx c.idx fl)

/-- The first n entries of a tile, resolved and multiplied by the tensor scales (05 R180, 04 R128). -/
def readTile (subn : Bool) (fa fb : Fd) (t : Tile) (n : Nat) : FlagM (List Word) := do
  let ts ← fmul subn (fdT fa) (fdT fb)
  (span 0 n).mapM (fun k => do
    let r ← resolve subn (entryAt t k)
    fmul subn r ts)

def doFacc (d : Dev) (c : Ic) : Ex Nx := do
  let e := getE d c.ctx c.idx
  let subn := subnOf d c.ctx
  failIf (!finUsed c 0xFC0FE0 0xFFFFC000 0xFFFFF800 0xFFFF8000) FIN_OPERAND
  let tile := bits c.w1 31 25
  let store := bit c.w1 24
  let clear := bit c.w1 23
  let chain := bit c.w1 22
  let fs := fdOf (fdReg e (bits c.w2 14 11))
  match fdOf (fdReg e (bits c.w1 21 18)), fdOf (fdReg e (bits c.w1 17 14)) with
  | some fa, some fb =>
    let nreg := fNREG c.w0
    let n := vecLen e nreg
    let ws := if chain then chainWords e (fCH c.w0) else []
    let addr := 64 * bits c.w2 31 15
    let saddr := 64 * bits c.w3 31 15
    failIf (chainBad nreg ws) FIN_OPERAND
    failIf (if store then (match fs with | some f => countBad f n | none => true) else vecBad (fTD c.w0) nreg) FIN_OPERAND
    match store, fs with
    | true, some f => storeOk d c f addr saddr n
    | _, _ => pure ()
    failIf (decide (tileCount d c.ctx ≤ tile) || curveMissing e ws) FIN_RANGE
    let t := tileOf e tile
    failIf (!t.tag.valid) FIN_ORDER
    let stoch := store && (match fs with | some f => f.stoch | none => false)
    let (rnd, d1) := drawsOf d c (drawsRandom ws || stoch)
    let go : FlagM (List Word × List Byte × List Byte) := do
      let xs ← readTile subn fa fb t n
      let ys ← runChain subn e rnd (chainStages ws) xs
      let o ← (match store, fs with
        | true, some f => storeElems subn f rnd ys
        | _, _ => return ([], []) : FlagM (List Byte × List Byte))
      return (ys, o.1, o.2)
    let ((ys, o), fl) := runFlags go
    let d2 := if store then putStore d1 c addr saddr o else modE d1 c.ctx c.idx (fun e => writeVec e (fTD c.w0) ys)
    let d3 := if clear then modE d2 c.ctx c.idx (fun e => setTile e tile { t with tag := { t.tag with valid := false } }) else d2
    nextIns c (addAflags d3 c.ctx c.idx fl)
  | _, _ => flt FIN_OPERAND

/-! ### Reductions (05 R171 to R173) -/

/-- x beats y in the order of ARGMAX (mx true) or ARGMIN, positions apart (05 R172). -/
def argBeats (mx : Bool) (x y : Val) : Bool :=
  match isNan x, isNan y with
  | true, yn => !yn
  | false, true => false
  | false, false =>
    if mx then vlt y x || (veq x y && isZeroVal x && !isNegVal x && isNegVal y)
    else vlt x y || (veq x y && isZeroVal x && isNegVal x && !isNegVal y)

/-- The winner of a segment: its element and its index. -/
def argWinner (mx : Bool) (subn : Bool) (xs : List Word) : FlagM (Word × Nat) := do
  let vs ← xs.mapM (f32 subn)
  let best := vs.zipIdx.foldl (fun b p => match b with
    | none => some p
    | some q => if argBeats mx p.1 q.1 then some p else some q) none
  match best with
  | none => return (0#32, 0)
  | some (v, k) =>
    let w ← rne32 subn v
    return (w, k)

/-- Maximum or minimum of a segment (05 R172). -/
def foldExtreme (mx subn : Bool) : List Word → FlagM Word
  | [] => return 0#32
  | x :: xs => do
    let v ← f32 subn x
    let w ← rne32 subn v
    xs.foldlM (fun a y => if mx then fmax subn a y else fmin subn a y) w

def doFred (d : Dev) (c : Ic) : Ex Nx := do
  let e := getE d c.ctx c.idx
  let subn := subnOf d c.ctx
  failIf (!finUsed c 0xFFFE00 0xFF000000 0 0) FIN_OPERAND
  let op := bits c.w1 31 29
  let row := bit c.w1 28
  let sl := bits c.w1 27 24
  let chlog := bits e.fctl.toNat 27 24
  let nreg := fNREG c.w0
  let n := vecLen e nreg
  let seg := if row then 2 ^ sl else n
  let nseg := n / seg
  let regs := ceilDiv nseg 256
  failIf (decide (4 < op) || (row && (decide (sl < 4) || decide (11 < sl))) || (op == 0 && decide (6 < chlog))
    || (row && n % seg != 0) || vecBad (fTS c.w0) nreg
    || vecBad (fTD c.w0) (if op ≥ 3 then 2 * regs else regs)) FIN_OPERAND
  let segs := runsOf seg (readVec e (fTS c.w0) n) (nseg + 1)
  if op ≥ 3 then
    let (rs, fl) := runFlags (segs.mapM (argWinner (op == 3) subn))
    let pos := rs.zipIdx.map (fun p => BitVec.ofNat 32 (p.2 * seg + p.1.2))
    nextIns c (addAflags (modE d c.ctx c.idx (fun e =>
      writeVec (writeVec e (fTD c.w0) (rs.map (·.1))) (fTD c.w0 + regs) pos)) c.ctx c.idx fl)
  else
    let (rs, fl) := runFlags (segs.mapM (fun s =>
      if op = 0 then reduceLeaves subn (2 ^ (chlog + 8)) s else foldExtreme (op == 1) subn s))
    nextIns c (addAflags (modE d c.ctx c.idx (fun e => writeVec e (fTD c.w0) rs)) c.ctx c.idx fl)

/-! ### Permutations (05 R174, R175) -/

def permSrc (e : EngCtx) (pat ti sl imm n k : Nat) : Nat :=
  match pat with
  | 0 => (tElem e ti k).toNat
  | 1 => 256 * (k / 256) + 16 * (k % 16) + k % 256 / 16
  | 2 => imm + k / 2 ^ sl
  | _ => (k + imm) % n

def doFperm (d : Dev) (c : Ic) : Ex Nx := do
  let e := getE d c.ctx c.idx
  failIf (!finUsed c 0xFFFE00 0xFFFFFE00 0 0) FIN_OPERAND
  let pat := bits c.w1 31 30
  let ti := bits c.w1 29 24
  let sl := bits c.w1 23 20
  let imm := bits c.w1 19 9
  let nreg := fNREG c.w0
  let n := vecLen e nreg
  failIf (vecBad (fTD c.w0) nreg || vecBad (fTS c.w0) nreg || (pat == 0 && vecBad ti nreg)
    || (pat == 2 && decide (11 < sl))) FIN_OPERAND
  let srcs := (span 0 n).map (permSrc e pat ti sl imm n)
  let out := srcs.map (fun k => if k < n then tElem e (fTS c.w0) k else 0#32)
  let beyond := srcs.any (fun k => decide (n ≤ k))
  nextIns c (addAflags (modE d c.ctx c.idx (fun e => writeVec e (fTD c.w0) out)) c.ctx c.idx
    (if beyond then Fl.permRange else 0#32))

/-! ### Registers, chains and tables (05 R155, R159, R166, R182) -/

def doFset (d : Dev) (c : Ic) : Ex Nx := do
  failIf (!finUsed c 0 0xFF000000 0xFFFFFFFF 0) FIN_OPERAND
  let tgt := bits c.w1 31 28
  let r := bits c.w1 27 24
  let v : Word := BitVec.ofNat 32 c.w2
  failIf (decide (3 < tgt)) FIN_OPERAND
  nextIns c (modE d c.ctx c.idx (fun e =>
    match tgt with
    | 0 => { e with fctl := v &&& 0xFF0007FF#32 }
    | 1 => { e with fidx := e.fidx.extractLsb' 32 32 ++ v }
    | 2 => { e with fidx := v ++ e.fidx.extractLsb' 0 32 }
    | _ => { e with fs := smSet 0#32 e.fs r v }))

def doFchain (d : Dev) (c : Ic) : Ex Nx := do
  failIf (!finUsed c 0 0xFFFFF800 0 0) FIN_OPERAND
  let off := 64 * bits c.w1 31 15
  let n := bits c.w1 14 11
  basketOk d c.ctx c.idx off 32 FIN_RANGE
  let (bs, d1) := basketRead d c.ctx c.idx .finisher off 32
  nextIns c (modE d1 c.ctx c.idx (fun e =>
    { e with ch := (span 0 8).foldl (fun m i => smSet 0#32 m (8 * n + i) (word bs (4 * i))) e.ch }))

/-- A byte string as a memory from address 0. -/
def memOf (bs : List Byte) : Mem := bs.zipIdx.filterMap (fun p => if p.1 = 0#8 then none else some (p.2, p.1))

def doFcurve (d : Dev) (c : Ic) : Ex Nx := do
  failIf (!finUsed c 0 0xFFFFF800 0 0) FIN_OPERAND
  let off := 64 * bits c.w1 31 15
  let n := bits c.w1 14 11
  basketOk d c.ctx c.idx off 16448 FIN_RANGE
  let (bs, d1) := basketRead d c.ctx c.idx .finisher off 16448
  let img := memOf bs
  failIf (curveBad img) FIN_OPERAND
  nextIns c (modE d1 c.ctx c.idx (fun e => { e with curves := smPut e.curves n img }))

/-- FLD (05 R178). -/
def execFld (e : Fin 96) (s : State) : Host.Outcome State Fault Refusal := onDev s (issue 0x50 e doFld)
/-- FST (05 R179). -/
def execFst (e : Fin 96) (s : State) : Host.Outcome State Fault Refusal := onDev s (issue 0x51 e doFst)
/-- FACC (05 R180). -/
def execFacc (e : Fin 96) (s : State) : Host.Outcome State Fault Refusal := onDev s (issue 0x52 e doFacc)
/-- FOP (05 R181). -/
def execFop (e : Fin 96) (s : State) : Host.Outcome State Fault Refusal := onDev s (issue 0x53 e doFop)
/-- FRED (05 R171 to R173). -/
def execFred (e : Fin 96) (s : State) : Host.Outcome State Fault Refusal := onDev s (issue 0x54 e doFred)
/-- FPERM (05 R174, R175). -/
def execFperm (e : Fin 96) (s : State) : Host.Outcome State Fault Refusal := onDev s (issue 0x55 e doFperm)
/-- FSET (05 R182). -/
def execFset (e : Fin 96) (s : State) : Host.Outcome State Fault Refusal := onDev s (issue 0x57 e doFset)
/-- FCHAIN (05 R182). -/
def execFchain (e : Fin 96) (s : State) : Host.Outcome State Fault Refusal := onDev s (issue 0x58 e doFchain)
/-- FCURVE (05 R166). -/
def execFcurve (e : Fin 96) (s : State) : Host.Outcome State Fault Refusal := onDev s (issue 0x59 e doFcurve)

end Sys2Proof.Machine
end

