-- ==== Sys2Proof/Machine/MangleOps.lean ====
section
/-! DEFINITION. The mangle operations: recalls of their pages, and what one piece of each operation does (07 R278, R282 to R300,
R651). -/

namespace Sys2Proof.Machine

/-- Brings the pages of the ranges in; true once all are local. -/
def bringIn (d : Dev) (cid : Nat) (c : Cmd) (rs : List (Nat × Nat × Bool)) : Bool × Dev :=
  let ctx := cmdContext c
  let l := notLocal d ctx rs
  (l.isEmpty, l.foldl (fun d q => if q.2.kind = .slow then recallPage d ctx q.1 q.2 (some cid) [] else d) d)

/-! ### One piece (R282, R289, R293 to R300) -/

def pieceLen : Nat := 16384

/-- What a piece works on: the mangle that runs it; the device, flags raised, things counted; or why it does not go on. -/
abbrev PieceM := ReaderT Nat (StateT (Dev × BitVec 32 × Nat) (Except VErr))

def pread (ctx va n : Nat) : PieceM (List Byte) := do
  let s ← get
  match readVirt s.1 ctx va n .any with
  | .ok bs =>
    set (cacheRange s.1 (96 + (← read)) ctx va n, s.2)
    return bs
  | .error e => throw e

def pwrite (ctx va : Nat) (bs : List Byte) : PieceM Unit := do
  let s ← get
  match writeVirt s.1 ctx va bs .any with
  | .ok d => set (cacheRange d (96 + (← read)) ctx va bs.length, s.2)
  | .error e => throw e

def pflags {α : Type} (m : FlagM α) : PieceM α := do
  let s ← get
  let (a, f) := runFlags m
  set (s.1, s.2.1 ||| f, s.2.2)
  return a

def pcount (n : Nat) : PieceM Unit := modify (fun s => (s.1, s.2.1, s.2.2 + n))

/-- Random bits of element i of a command (R283). -/
def mangleRnd (d : Dev) (c : Cmd) (i : Nat) : Nat :=
  kcg (seedOfCtx d (cmdContext c)) (mStream c) (BitVec.ofNat 64 (mIndex0 c + i))

/-- One element of ADAM (R289): new master, moments, and whether g is finite. -/
def adamElem (subn l2 : Bool) (k : Nat → Word) (g0 w0 m0 v0 : Word) : FlagM (Word × Word × Word × Bool) := do
  let lr := k 0; let b1 := k 1; let c1 := k 2; let b2 := k 3; let c2 := k 4
  let eps := k 5; let wd := k 6; let bc1 := k 7; let bc2 := k 8; let gscale := k 9
  let g1 ← fmul subn g0 gscale
  let g ← if l2 then ffma subn wd w0 g1 else pure g1
  let cg ← fmul subn c1 g
  let m ← ffma subn b1 m0 cg
  let gg ← fmul subn g g
  let cgg ← fmul subn c2 gg
  let v ← ffma subn b2 v0 cgg
  let vb ← fmul subn v bc2
  let sq ← fsqrt subn vb
  let den ← fadd subn sq eps
  let mb ← fmul subn m bc1
  let u ← fdiv subn mb den
  let s ← if l2 then pure u else ffma subn wd w0 u
  let w ← ffma subn (lr ^^^ 0x80000000#32) s w0
  return (w, m, v, isFinite32 g)

def pieceAdam (subn : Bool) (ctx : Nat) (c : Cmd) (i n : Nat) : PieceM Unit := do
  let rd (o : Nat) : PieceM (List Byte) := pread ctx (blk c o 8 + 4 * i) (4 * n)
  let w ← rd 0
  let m ← rd 16
  let v ← rd 32
  let gs ← if bit (mFlags c) 1 then do
      let h ← pread ctx (blk c 0x30 8) 256
      let bs ← pread ctx (blk c 0x30 8 + slotData (rbE h) (rbRoot h) + 8 * i) (8 * n)
      pflags ((span 0 n).mapM (fun j => resolve subn (bufEntry bs j)))
    else do
      let bs ← rd 0x30
      pure ((span 0 n).map (fun j => word bs (4 * j)))
  let k (j : Nat) : Word := word c.payload (0x48 + 4 * j)
  let out ← pflags ((span 0 n).mapM (fun j =>
    adamElem subn (bit (mFlags c) 0) k (nth 0#32 gs j) (word w (4 * j)) (word m (4 * j)) (word v (4 * j))))
  let put (o : Nat) (f : Word × Word × Word × Bool → Word) : PieceM Unit :=
    pwrite ctx (blk c o 8 + 4 * i) (out.flatMap (fun r => natLe 4 (f r).toNat))
  put 8 (·.1)
  put 24 (·.2.1)
  put 40 (·.2.2.1)
  if blk c 0x38 8 ≠ 0 then do
    let f := blkFd c 0x40
    let s ← get
    let o ← pflags (do
      let vs ← out.mapM (fun r => f32 subn r.1)
      encodeVals subn f (fun j => mangleRnd s.1 c (i + j)) vs)
    pwrite ctx (blk c 0x38 8 + i * elemBits f.elem / 8) o.1
  pcount ((out.filter (fun r => !r.2.2.2)).length)

def pieceReduce (subn : Bool) (ctx : Nat) (c : Cmd) (i n : Nat) : PieceM Unit := do
  let h ← pread ctx (blk c 0 8) 256
  match planReduce h (blk c 0x10 4) (blk c 0x14 4) with
  | .error _ => pure ()
  | .ok p =>
    let e := rbE h
    let src ← pread ctx (blk c 8 8 + 8 * i) (8 * n)
    let slots ← p.chain.mapM (fun s => do
      let bs ← pread ctx (blk c 0 8 + slotData e s.1 + 8 * i) (8 * n)
      return (bs, s.2))
    let out ← pflags (combSlots subn n slots src)
    pwrite ctx (blk c 0 8 + slotData e p.dest + 8 * i) out

def pieceResolve (subn : Bool) (ctx : Nat) (c : Cmd) (i n : Nat) : PieceM Unit := do
  let h ← pread ctx (blk c 0 8) 256
  let bs ← pread ctx (blk c 0 8 + slotData (rbE h) (rbRoot h) + 8 * i) (8 * n)
  let f := blkFd c 0x10
  let s ← get
  let codes ← pflags ((span 0 n).mapM (fun j =>
    resolveInto subn f (if f.stoch then some (mangleRnd s.1 c (i + j)) else none) (bufEntry bs j)))
  pwrite ctx (blk c 8 8 + i * elemBits f.elem / 8) (packCodes f.elem codes)

def pieceQuantise (subn : Bool) (ctx : Nat) (c : Cmd) (i n : Nat) : PieceM Unit := do
  let sf := blkFd c 8
  let df := blkFd c 0x18
  let bs ← pread ctx (blk c 0 8 + i * elemBits sf.elem / 8) (packedBytes sf.elem n)
  let s ← get
  let o ← pflags (do
    let vs ← decodeVals subn sf bs [] n
    encodeVals subn df (fun j => mangleRnd s.1 c (i + j)) vs)
  pwrite ctx (blk c 0x10 8 + i * elemBits df.elem / 8) o.1
  if df.block then pwrite ctx (blk c 0x20 8 + i / 32) o.2

def pieceDecode (subn : Bool) (ctx : Nat) (c : Cmd) (i n : Nat) : PieceM Unit := do
  let sf := blkFd c 8
  let df := blkFd c 0x20
  let bs ← pread ctx (blk c 0 8 + i * elemBits sf.elem / 8) (packedBytes sf.elem n)
  let sc ← if sf.block then pread ctx (blk c 0x10 8 + i / 32) (ceilDiv n 32) else pure []
  let s ← get
  let o ← pflags (do
    let vs ← decodeVals subn sf bs sc n
    encodeVals subn df (fun j => mangleRnd s.1 c (i + j)) vs)
  pwrite ctx (blk c 0x18 8 + i * elemBits df.elem / 8) o.1

def pieceGather (ctx : Nat) (c : Cmd) (i n : Nat) : PieceM Unit := do
  let row := blk c 0x14 4
  let idx ← pread ctx (blk c 0 8 + 4 * i) (4 * n)
  (span 0 n).forM (fun j => do
    let k := field idx (4 * j) 4
    if k < blk c 0x10 4 then do
      let bs ← pread ctx (blk c 8 8 + row * k) row
      pwrite ctx (blk c 0x18 8 + row * (i + j)) bs
    else do
      pwrite ctx (blk c 0x18 8 + row * (i + j)) (List.replicate row 0#8)
      pcount 1)

def pieceScatter (ctx : Nat) (c : Cmd) (i n : Nat) : PieceM Unit := do
  let row := blk c 0x14 4
  let idx ← pread ctx (blk c 0 8 + 4 * i) (4 * n)
  let rest ← pread ctx (blk c 0 8 + 4 * (i + n)) (4 * (mCount c - i - n))
  (span 0 n).forM (fun j => do
    let k := field idx (4 * j) 4
    if k < blk c 0x10 4 then do
      let bs ← pread ctx (blk c 8 8 + row * (i + j)) row
      -- a row of a later piece that names the same index remains, whichever piece ends first (R299)
      if (span 0 (mCount c - i - n)).any (fun m => field rest (4 * m) 4 == k) then pure ()
      else pwrite ctx (blk c 0x18 8 + row * k) bs
    else pcount 1)

/-- Rows i to i + n - 1 of a COMBINE: its rows lie packed one after the other, and a piece begins at a whole byte (R81, R300). -/
def pieceCombine (subn : Bool) (ctx : Nat) (c : Cmd) (i n : Nat) : PieceM Unit := do
  let k := blk c 0x28 1
  let rl := blk c 0x2C 4
  let yf := blkFd c 8
  let df := blkFd c 0x20
  let gates ← pread ctx (blk c 0x10 8 + 4 * k * i) (4 * k * n)
  let ys ← pread ctx (blk c 0 8 + i * k * rl * elemBits yf.elem / 8) (packedBytes yf.elem (n * k * rl))
  let s ← get
  let o ← pflags (do
    let vals ← decodeVals subn yf ys [] (n * k * rl)
    let acc ← (span 0 (n * rl)).mapM (fun r =>
      let t := r / rl
      (span 0 k).foldlM (fun a j => do
        let g ← f32 subn (word gates (4 * (t * k + j)))
        let y := nth Val.nan vals ((t * k + j) * rl + r % rl)
        let av ← f32 subn a
        if isNan g || isNan y || isNan av then return 0x7FC00000#32
        else
          let p ← vmul g y
          let z ← vadd p av
          rne32 subn z) 0#32)
    let vs ← acc.mapM (f32 subn)
    encodeVals subn df (fun r => mangleRnd s.1 c (i * rl + r)) vs)
  pwrite ctx (blk c 0x18 8 + i * rl * elemBits df.elem / 8) o.1

/-- The collective of a REFOLD.RUN. -/
def refoldOf (d : Dev) (c : Cmd) : Option (Nat × Coll) :=
  d.colls.live.find? (fun k => k.2.cid.isSome && k.2.op == 0x10 && k.2.hdr == c.hdr)

/-- Entry e of a refold map, of which piece q copies block q / 65,536 (11 R450, R452). -/
def refoldEntry (d : Dev) (c : Cmd) (e : Nat) : List Byte := match refoldOf d c with | some k => slice k.2.desc (64 + 32 * e) 32 | none => []

/-- The effect of piece q of a command. A piece of WEIGHTS.STAGE UPDATE, or of a refold's LOCAL copy, is
piece q / 65,536 of entry q mod 65,536. -/
def pieceBody (d : Dev) (c : Cmd) (q : Nat) : PieceM Unit :=
  let ctx := cmdContext c
  let subn := subnOf d ctx
  match opcodeC c with
  | 0x0403 =>
    let n := min 65536 (par c 0x20 8 - 65536 * q)
    do
      let bs ← pread ctx (par c 0x10 8 + 65536 * q) n
      pwrite ctx (par c 0x18 8 + 65536 * q) bs
  | 0x0404 =>
    let n := min 65536 (par c 0x18 8 - 65536 * q)
    pwrite ctx (par c 0x10 8 + 65536 * q)
      ((span 0 n).map (fun k => nth 0#8 (natLe 4 (par c 0x20 4)) ((65536 * q + k) % 4)))
  | 0x0A01 =>
    let e := refoldEntry d c (q % 65536)
    let o := 65536 * (q / 65536)
    do
      let bs ← pread ctx (field e 8 8 + o) (min 65536 (field e 0x18 4 - o))
      pwrite ctx (field e 0x10 8 + o) bs
  | 0x0901 =>
    let e := stageEntry c (q % 65536)
    let i := pieceLen * (q / 65536)
    pieceAdam subn ctx e i (min pieceLen (mCount e - i))
  | _ =>
    let i := pieceLen * q
    let n := min pieceLen (mCount c - i)
    match mOp c with
    | 1 => pieceAdam subn ctx c i n
    | 2 => pieceReduce subn ctx c i n
    | 3 => pieceResolve subn ctx c i n
    | 4 => pieceQuantise subn ctx c i n
    | 5 => pieceDecode subn ctx c i n
    | 6 => pieceGather ctx c i n
    | 7 => pieceScatter ctx c i n
    | 8 => pieceCombine subn ctx c i n
    | _ => pure ()

/-- Pieces of a command (R282). -/
def pieceCount (c : Cmd) : Nat :=
  match opcodeC c with
  | 0x0403 => ceilDiv (par c 0x20 8) 65536
  | 0x0404 => ceilDiv (par c 0x18 8) 65536
  | _ => if mOp c = 9 then 1 else ceilDiv (mCount c) pieceLen

/-- The address of the first output element of piece q. -/
def pieceVa (c : Cmd) (q : Nat) : Nat :=
  match opcodeC c with
  | 0x0403 => par c 0x18 8 + 65536 * q
  | 0x0404 => par c 0x10 8 + 65536 * q
  | _ =>
    let i := pieceLen * q
    match mOp c with
    | 1 => blk c 8 8 + 4 * i
    | 2 => blk c 0 8 + 0x100 + 8 * i
    | 3 => blk c 8 8 + i * fdBits c 0x10 / 8
    | 4 => blk c 0x10 8 + i * fdBits c 0x18 / 8
    | 5 => blk c 0x18 8 + i * fdBits c 0x20 / 8
    | 6 => blk c 0x18 8 + i * blk c 0x14 4
    | 7 => blk c 0x18 8 + i * blk c 0x14 4
    | 8 => blk c 0x18 8 + i * blk c 0x2C 4 * fdBits c 0x20 / 8
    | _ => blk c 0 8

def pieceOpOf (c : Cmd) : PieceOp := match opcodeC c with | 0x0403 => .copy | 0x0404 => .fill | _ => .mangle

/-- Cuts a command's work into pieces, each on the die that homes its first output element (R282). -/
def makePieces (d : Dev) (cid : Nat) (c : Cmd) : Dev :=
  match smFind d.ctxs (cmdContext c) with
  | none => d
  | some x => modMem d (fun m => { m with pieces := m.pieces ++ (span 0 (pieceCount c)).map (fun q =>
      { cid := cid, op := pieceOpOf c, q := q, die := (dieAt x (pieceVa c q)).getD 0, mang := none }) })

/-- A memory command's result when its last piece ends (R283, R290, R298). -/
def mangleResult (c : Cmd) : List (Nat × Nat × Nat) :=
  if opcodeC c = 0x0407 then
    (0x0C, 4, c.flags.toNat) :: (if mOp c = 1 ∨ mOp c = 6 ∨ mOp c = 7 then [(0x10, 4, min c.count 0xFFFFFFFF)] else [])
  else []

/-- What REDUCE and RB_INIT write in the header once their pieces have ended (R292, R293). -/
def mangleClose (d : Dev) (c : Cmd) : Dev :=
  let ctx := cmdContext c
  if opcodeC c ≠ 0x0407 then d
  else match mOp c with
    | 2 =>
      let h := peek d ctx (blk c 0 8) 256
      (match planReduce h (blk c 0x10 4) (blk c 0x14 4) with
        | .ok p => poke d ctx (blk c 0 8) (afterReduce h p)
        | .error _ => d)
    | 9 => poke d ctx (blk c 0 8) (rbInit (mCount c) (blk c 8 4) (blk c 0xC 1))
    | _ => d

/-- The checks on a reduction buffer's state when the command begins its work (R290, R293 to R295, R651). -/
def chkBuffer (d : Dev) (c : Cmd) : Chk Unit :=
  if opcodeC c ≠ 0x0407 then .ok ()
  else
    let hdr (o : Nat) : List Byte := peek d (cmdContext c) (blk c o 8) 256
    match mOp c with
    | 1 =>
      if bit (mFlags c) 1 then
        chkFields [(0x70, !slotsOk (hdr 0x30) || !rbDone (hdr 0x30)), (0x20, rbE (hdr 0x30) != mCount c)]
      else .ok ()
    | 2 =>
      let h := hdr 0
      if rbE h ≠ mCount c then badParam 0x20
      else if !slotsOk h then badParam 0x40
      else match planReduce h (blk c 0x10 4) (blk c 0x14 4) with
        | .ok _ => .ok ()
        | .error .done => badParam 0x40
        | .error .range => badParam 0x50
        | .error .full => refused 4
    | 3 => chkFields [(0x40, !slotsOk (hdr 0) || !rbDone (hdr 0)), (0x20, rbE (hdr 0) != mCount c)]
    | _ => .ok ()

/-- Ends a command with what a check answered. -/
def endRef (d : Dev) (cid : Nat) (r : Ref) : Dev :=
  finishCmd { d with freeCtr := d.freeCtr + 1 } cid r.status r.detail r.result none

end Sys2Proof.Machine
end

