-- ==== Sys2Proof/Machine/Queues.lean ====
section
/-! DEFINITION. The QUEUE and RESULT commands, the doorbells, and the writing of records (02). Each opcode has its checks
(`chk…`, step 5 of R51), its reservation (`adm…`, step 7) and its effect (`exec…`). -/

namespace Sys2Proof.Machine

/-! ### Doorbells (R37 to R40) -/

/-- The queue pair exists and its doorbells are heard: the part is READY (16 R581). -/
def heard (d : Dev) (q : Nat) : Bool := d.boot.ready && decide ((queueOf d q).state ≠ .disabled)

def ringSubmission (q value : Nat) (d : Dev) : Dev :=
  if !heard d q then d
  else
    let v := queueOf d q
    let t := value % 65536
    let size := sqSize v
    if size ≤ t then setQueue d q { v with dbRange := true }
    else
      let n := (t + size - v.sqHead) % size
      let o := (v.sqTail + size - v.sqHead) % size
      if n ≤ o then d
      else setQueue d q { v with sqTail := t, subs := v.subs ++ [(n - o, d.now)] }

def ringCompletion (q value : Nat) (d : Dev) : Dev :=
  if !heard d q then d
  else
    let v := queueOf d q
    let t := value % 65536
    if cqSize v ≤ t then setQueue d q { v with dbRange := true } else setQueue d q { v with cqHead := t }

/-- SUBMISSION_DOORBELL (R39). -/
def execSubmissionDoorbell (q : Fin 256) (value : BitVec 32) (s : State) : Host.Outcome State Fault Refusal :=
  onDev s (ringSubmission q value.toNat)

/-- COMPLETION_DOORBELL (R37, R39). -/
def execCompletionDoorbell (q : Fin 256) (value : BitVec 32) (s : State) : Host.Outcome State Fault Refusal :=
  onDev s (ringCompletion q value.toNat)

/-! ### QUEUE.NOP -/

def chkNop (c : Cmd) : Chk Unit := chkFields (resv c.hdr 0x10 48)

/-- QUEUE.NOP (R47). -/
def execQueueNop (cid : Nat) (s : State) : Host.Outcome State Fault Refusal :=
  onDev s (runCmd 0x0100 cid (fun d cid _ => some (finishCmd d cid stOk 0 [] none)))

/-! ### QUEUE.CREATE (R33, R647) -/

/-- A queue pair exists, or a QUEUE.CREATE of it is in flight. -/
def queueTaken (d : Dev) (q : Nat) : Bool :=
  decide ((queueOf d q).state ≠ .disabled)
    || d.cmds.any (fun p => opcodeC p.2 == 0x0101 && p.2.fin.isNone && par p.2 0x20 1 == q)

/-- A host range lies in the windows of a partition (17 R614). -/
def windowOk (d : Dev) (p addr n : Nat) : Bool :=
  (span 0 4).any (fun w =>
    let (b, l) := smGet (if w = 0 then (0#64, 0xFFFFFFFFFFFFFFFF#64) else (1#64, 0#64)) d.host.win (4 * p + w)
    decide (b.toNat ≤ l.toNat) && decide (b.toNat ≤ addr) && decide (addr + n ≤ l.toNat + 1))

def outside (lo hi v : Nat) : Bool := decide (v < lo) || decide (hi < v)

def chkCreate (d : Dev) (c : Cmd) : Chk Unit :=
  let sq := par c 0x10 8
  let cq := par c 0x18 8
  let m := par c 0x22 1
  let p := par c 0x23 1
  chkFields ([
    (0x10, sq % 4096 != 0 || decide (2 ^ 36 < sq + 64 * 2 ^ min (par c 0x21 1) 16)),
    (0x18, cq % 4096 != 0 || !windowOk d p cq (32 * 2 ^ min m 16)),
    (0x20, par c 0x20 1 == 0 || queueTaken d (par c 0x20 1)),
    (0x21, outside 6 16 (par c 0x21 1)), (0x22, outside 6 16 m),
    (0x23, (partOf d p).isNone), (0x24, outside 1 16 (par c 0x24 1)), (0x25, outside 10 16 (par c 0x25 1)),
    (0x26, decide (512 ≤ par c 0x26 2)), (0x30, outside 1 1024 (par c 0x30 2)), (0x32, outside 12 20 (par c 0x32 1)),
    (0x33, par c 0x33 1 != 0), (0x34, decide (4096 < par c 0x34 2))] ++ resv c.hdr 0x36 10)

/-- Bytes of the log and the slots of a new queue (R647). -/
def createBytes (c : Cmd) : Nat := 32 * 2 ^ par c 0x25 1 + par c 0x34 2 * 2 ^ par c 0x32 1

/-- Reserves memory for a command: quota of the partition, then the frames (R647, 07 R648). -/
def reserve (d : Dev) (c : Cmd) (p bytes : Nat) : Chk (Cmd × Dev) :=
  if quotaLeft d p < bytes then refused 1
  else match takeSpread d 0 (ceilDiv bytes 65536) with
    | none => refused 2
    | some (fs, d1) => .ok ({ c with frames := fs, charged := bytes, part := p }, charge d1 p bytes)

def admCreate (d : Dev) (c : Cmd) : Chk (Cmd × Dev) := reserve d c (par c 0x23 1) (createBytes c)

/-- The queue pair that a QUEUE.CREATE makes (R33, R38, R41). -/
def newQueue (c : Cmd) : Queue :=
  { state := .active, sqBase := BitVec.ofNat 64 (par c 0x10 8), cqBase := BitVec.ofNat 64 (par c 0x18 8),
    sqLog2 := par c 0x21 1, cqLog2 := par c 0x22 1, partition := some (par c 0x23 1), weight := par c 0x24 1,
    retainLog2 := par c 0x25 1, msix := BitVec.ofNat 16 (par c 0x26 2), maxInflight := par c 0x30 2,
    slotLog2 := par c 0x32 1, slotCount := par c 0x34 2, nextDevSeq := word c.hdr 0x2C, expHostSeq := word c.hdr 0x28,
    frames := c.frames, charged := c.charged }

/-- QUEUE.CREATE (R33, R647). -/
def execQueueCreate (cid : Nat) (s : State) : Host.Outcome State Fault Refusal :=
  onDev s (runCmd 0x0101 cid (fun d cid c =>
    if reserveReady d c then
      some (finishCmd (setQueue (useReserve d cid) (par c 0x20 1) (newQueue c)) cid stOk 0 [] none)
    else some d))

/-! ### QUEUE.DESTROY (R43, R645) -/

def chkDestroy (d : Dev) (c : Cmd) : Chk Unit :=
  let t := par c 0x10 1
  let st := (queueOf d t).state
  chkFields ((0x10, t == 0 || !(decide (st = .active) || decide (st = .held))) :: resv c.hdr 0x11 47)

/-- The target has nothing left: no command in flight, no record still to be written. -/
def queueEmpty (d : Dev) (q : Nat) : Bool :=
  let v := queueOf d q
  inFlightOf d q == 0 && v.hold.isEmpty && v.waiting.isEmpty && v.replay.isNone

/-! ### QUEUE.RESYNC (R74 to R78) -/

/-- A number lies from the oldest retained record to the next one. -/
def retained (v : Queue) (n : BitVec 32) : Bool := decide (serial n (oldestSeq v) ≤ serial v.nextDevSeq (oldestSeq v))

/-- A REPLAY or REBIND of the target is in flight: it has no final record yet (R78, R650). -/
def resyncBusy (d : Dev) (t : Nat) : Bool :=
  d.cmds.any (fun p => opcodeC p.2 == 0x0103 && par p.2 0x10 1 == t && par p.2 0x11 1 != 0)

/-- The checks of QUEUE.RESYNC (R74 to R78). The spec gives neither DETAIL of the QUEUE_STATE refusal of R78 nor its place among the
checks: the model gives the target's state, after the field checks. NEW_CQ_BASE is held to the host windows of the partition of the
queue on which the command runs (17 R614), which the spec leaves open for a target of another partition (log 58). -/
def chkResync (d : Dev) (c : Cmd) : Chk Unit := do
  let t := par c 0x10 1
  let mode := par c 0x11 1
  let v := queueOf d t
  let cq := par c 0x18 8
  let m := par c 0x20 1
  chkFields ([
    (0x10, decide (v.state = .disabled) && (mode == 1 || mode == 2)), (0x11, decide (2 < mode)),
    (0x14, mode == 1 && !retained v (word c.hdr 0x14)),
    (0x18, mode == 2 && (cq % 4096 != 0 || !hostOk d c.queue cq (32 * 2 ^ min m 16))),
    (0x20, mode == 2 && outside 6 16 m), (0x28, mode == 2 && !retained v (word c.hdr 0x28))]
    ++ resv c.hdr 0x12 2 ++ resv c.hdr 0x21 3 ++ resv c.hdr 0x2C 20)
  if mode ≠ 0 ∧ resyncBusy d t then .error { status := stQueueState, detail := qstateCode v.state }

/-- The snapshot of a queue (R75). -/
def snapshotOf (d : Dev) (t : Nat) : BitVec 160 :=
  let v := queueOf d t
  if v.state = .disabled then 0
  else
    let n := (d.cmds.filter (fun c => c.2.queue == t && consumes (opcodeC c.2))).length
    resultOf [(0x0C, 4, v.expHostSeq.toNat), (0x10, 4, v.nextDevSeq.toNat), (0x14, 4, (oldestSeq v).toNat), (0x18, 2, n),
      (0x1A, 2, v.sqHead), (0x1C, 2, v.sqTail), (0x1E, 1, qstateCode v.state)]

/-- Retained records from a number on. -/
def retainedFrom (v : Queue) (n : BitVec 32) : List Rec :=
  v.log.filter (fun r => decide (serial n (oldestSeq v) ≤ serial r.devSeq (oldestSeq v)))

/-- The target takes its new ring; the records from FIRST_DEV_SEQ on are still to be written to it (R77). -/
def rebound (v : Queue) (c : Cmd) (cid : Nat) (snap : BitVec 160) : Queue :=
  let first := word c.hdr 0x28
  { v with cqBase := BitVec.ofNat 64 (par c 0x18 8), cqLog2 := par c 0x20 1, cqHead := 0, cqTail := 0,
           expHostSeq := word c.hdr 0x24,
           hold := v.hold.filter (fun h => decide (serial first (oldestSeq v) ≤ serial h.rcd.devSeq (oldestSeq v))),
           replay := some { left := retainedFrom v first, cid := cid, rebind := true, snap := snap } }

def stepResync (d : Dev) (cid : Nat) (c : Cmd) : Option Dev :=
  let t := par c 0x10 1
  let v := queueOf d t
  let snap := snapshotOf d t
  if c.phase = .running then some d
  else match par c 0x11 1 with
    | 0 => some (finishRaw d cid stOk 0 snap)
    | 1 =>
      if v.state = .disabled then some (finishCmd d cid stBadParam 0x10 [] none)
      else if !retained v (word c.hdr 0x14) then some (finishCmd d cid stBadParam 0x14 [] none)
      else some (drainQueue (setQueue d t { v with
        replay := some { left := retainedFrom v (word c.hdr 0x14), cid := cid, rebind := false, snap := snap } }) t)
    | _ =>
      if v.state = .disabled then some (finishCmd d cid stBadParam 0x10 [] none)
      else if !retained v (word c.hdr 0x28) then some (finishCmd d cid stBadParam 0x28 [] none)
      else some (drainQueue (setQueue d t (rebound v c cid snap)) t)

/-! ### RESULT.READ (R70 to R73) -/

def chkResultRead (d : Dev) (c : Cmd) : Chk Unit :=
  chkFields ([
    (0x10, decide ((queueOf d c.queue).slotCount ≤ par c 0x10 2)),
    (0x18, !hostOk d c.queue (par c 0x18 8) (par c 0x20 4)), (0x20, decide (par c 0x20 4 < 32))]
    ++ resv c.hdr 0x12 6 ++ resv c.hdr 0x24 28)

/-- A slot as a read sees it: a read of a READY slot counts itself (R71). -/
def readSlot (s : Slot) : Slot :=
  if s.state = .ready then
    { s with reads := if s.reads = 0xFFFFFFFF#32 then s.reads else s.reads + 1, rpt := s.reads != 0#32 }
  else s

def slotCode : SlotState → Nat
  | .empty => 0 | .pending => 1 | .ready => 2 | .failed => 3

/-- The slot header (R68). -/
def slotHeader (s : Slot) : List Byte :=
  natLe 4 (slotCode s.state + 256 * b2n s.rpt + 512 * b2n s.trunc) ++ natLe 4 s.hostSeq.toNat ++ natLe 4 s.devSeq.toNat
    ++ natLe 2 s.status.toNat ++ natLe 2 0 ++ natLe 4 (if s.state = .ready then s.payload.length else 0)
    ++ natLe 4 s.reads.toNat ++ natLe 8 0

/-- The read takes its view of the slot (R72). -/
def captureSlot (d : Dev) (cid : Nat) (c : Cmd) : Dev :=
  if c.snap.isSome then d
  else
    let k := par c 0x10 2
    let s := readSlot (smGet {} (queueOf d c.queue).slots k)
    modCmd (modQueue d c.queue (fun v => { v with slots := smSet {} v.slots k s })) cid (fun c => { c with snap := some s })

/-- Every read of the queue takes its view, before a command with a higher number is admitted (R72). -/
def captureReads (d : Dev) (q : Nat) : Dev :=
  d.cmds.foldl (fun d p =>
    if p.2.queue = q ∧ opcodeC p.2 = 0x0D01 ∧ p.2.fin.isNone then captureSlot d p.1 p.2 else d) d

/-- A command claims a slot, which is PENDING from then on (R69). -/
def claimSlot (d : Dev) (q k : Nat) (hostSeq : Word) : Dev :=
  modQueue d q (fun v => { v with slots := smPut v.slots k { state := .pending, hostSeq := hostSeq } })

/-- RESULT.READ (R70 to R73). The bytes copied that RESULT 0x18 gives are header and payload together (log 58). -/
def stepResultRead (d : Dev) (cid : Nat) (c : Cmd) : Option Dev :=
  let d1 := captureSlot d cid c
  match (smFind d1.cmds cid).bind (·.snap) with
  | none => some d1
  | some s =>
    if !d1.host.bme then some (stallBme d1 cid)
    else
      let size := par c 0x20 4
      let pay := if s.state = .ready then s.payload else []
      let out := slotHeader s ++ pay.take (size - 32)
      let cutS := decide (size < 32 + pay.length)
      some (finishCmd (bulkWrite d1 (par c 0x18 8) out) cid stOk (b2n s.rpt + 2 * b2n cutS)
        [(0x0C, 4, slotCode s.state), (0x10, 4, s.hostSeq.toNat), (0x14, 4, s.status.toNat), (0x18, 4, out.length)] none)

/-- RESULT.READ (R70 to R73). -/
def execResultRead (cid : Nat) (s : State) : Host.Outcome State Fault Refusal := onDev s (runCmd 0x0D01 cid stepResultRead)

end Sys2Proof.Machine
end

