-- ==== Sys2Proof/Machine/Mem.lean ====
section
/-! DEFINITION. The MEM commands and the mangle pieces (07 R265 to R300). `info` of a MEM.DEMOTE or MEM.RECALL holds the pages
it moves and leaves; of a mangle command [1] once its pieces are cut. -/

namespace Sys2Proof.Machine

/-! ### MEM.ALLOC (R265 to R268, R648) -/

def allocPage (c : Cmd) : Nat := if par c 0x21 1 = 1 then 2 ^ 21 else 65536

/-- The ranges overlap a mapped page of the context. -/
def mapped (x : Ctx) (va n : Nat) : Bool := !(leavesIn x va n).isEmpty

def chkAlloc (d : Dev) (c : Cmd) : Chk Unit :=
  let tier := par c 0x20 1
  let va := par c 0x10 8
  let n := par c 0x18 8
  let place := par c 0x22 1
  let home := par c 0x23 1
  let t := par c 0x28 8
  match smFind d.ctxs (cmdContext c) with
  | none => badParam 0x08
  | some x =>
    let unit := if tier = 2 then 2 ^ 21 else allocPage c
    let cups := match partOf d x.part with | some p => partCups p | none => []
    let homeBad : Bool :=
      if 2 ≤ tier ∨ (placePage tier place 0 0).isNone then false
      else decide (homeMax tier place < home)
        || (tier == 0 && !cups.contains (if place = 1 then home else 4 * home))
    chkFields ([
      (0x10, if tier = 2 then va != 0 else va % unit != 0 || decide (2 ^ 52 < va + n) || mapped x va n),
      (0x18, n == 0 || n % unit != 0), (0x20, decide (3 < tier)), (0x21, decide (1 < par c 0x21 1)),
      (0x22, decide (2 < place) || (tier == 0 && place == 2)), (0x23, homeBad), (0x24, par c 0x24 1 / 16 != 0),
      (0x28, if tier = 2 then t % 2 ^ 21 != 0 || !windowOk d x.part t n
             else if tier = 3 then t / 2 ^ 24 != 0 || bits t 15 13 != 0 || !inJob d (t % 2 ^ 13) else false),
      (0x30, tier == 2 && (par c 0x30 2 == 0 || decide (121 < par c 0x30 2)))]
      ++ resv c.hdr 0x25 3 ++ resv c.hdr 0x32 14)

/-- The places of an allocation's pages, in page order (R266). -/
def allocPlaces (c : Cmd) : List Place :=
  (span 0 (par c 0x18 8 / allocPage c)).filterMap (fun p => placePage (par c 0x20 1) (par c 0x22 1) (par c 0x23 1) p)

def admAlloc (d : Dev) (c : Cmd) : Chk (Cmd × Dev) :=
  let tier := par c 0x20 1
  let n := par c 0x18 8
  let p := partOfCtx d (cmdContext c)
  let k := if par c 0x21 1 = 1 then 32 else 1
  match tier with
  | 1 =>
    if quotaLeft d p < n then refused 1
    else match takeRuns d k (allocPlaces c) with
      | none => refused 2
      | some (fs, d1) => .ok ({ c with frames := fs.flatMap (fun f => span f k), charged := n, part := p }, charge d1 p n)
  | 0 =>
    match takeRuns d k (allocPlaces c) with
    | none => refused 2
    | some (fs, d1) => .ok ({ c with frames := fs.flatMap (fun f => span f k), part := p }, d1)
  | 2 =>
    match partOf d p with
    | some x => if 4 ≤ x.pool.length then refused 6 else .ok (c, d)
    | none => refused 6
  | _ => .ok (c, d)

/-- The leaves of a new allocation. -/
def allocLeaf (c : Cmd) (j : Nat) : Nat × Pte :=
  let k := if par c 0x21 1 = 1 then 32 else 1
  let tier := par c 0x20 1
  let fs := (c.frames.drop (j * k)).take k
  let perm := par c 0x24 1
  (par c 0x10 8 / 65536 + j * k,
   { kind := if tier = 3 then .remote else .localPage, size2m := par c 0x21 1 == 1, r := bit perm 0, w := bit perm 1,
     mg := bit perm 2, rx := bit perm 3, transit := false,
     target := if tier = 3 then par c 0x28 8 % 2 ^ 13 + bits (par c 0x28 8) 23 16 * 2 ^ 13 else nth 0 fs 0,
     frames := fs, slowPgs := [], tier0 := tier == 0, cupTier := false, kvPool := none })

def stepAlloc (d : Dev) (cid : Nat) (c : Cmd) : Option Dev :=
  let ctx := cmdContext c
  let tier := par c 0x20 1
  let n := par c 0x18 8
  match smFind d.ctxs ctx with
  | none => some (finishCmd (undoReserve d cid) cid stCancelled 0 [] none)
  | some x =>
    if tier = 2 then
      let r : PoolRange := { base := par c 0x28 8, pages := n / 65536, rate := par c 0x30 2, used := [] }
      match partOf d x.part with
      | none => some (endRef d cid { status := stAdmissionRefused, detail := 6 })
      | some q =>
        if 4 ≤ q.pool.length then some (endRef d cid { status := stAdmissionRefused, detail := 6 })
        else some (finishCmd (modPart d x.part (fun q => { q with pool := q.pool ++ [r] })) cid stOk 0 [(0x0C, 4, 0)] none)
    else if memBlocked d cid c then none
    else if mapped x (par c 0x10 8) n then some (finishCmd (undoReserve d cid) cid stBadParam 0x10 [] none)
    else if !reserveReady d c then some d
    else
      let leaves := (span 0 (n / allocPage c)).map (allocLeaf c)
      let d1 := modCtx (useReserve d cid) ctx (fun x => { x with ptes := leaves.foldl (fun m q => smPut m q.1 q.2) x.ptes })
      some (finishCmd d1 cid stOk 0 [(0x0C, 4, c.frames.length)] none)

/-- MEM.ALLOC (R265 to R268): it waits for the rinse of the frames it takes. -/
def execMemAlloc (cid : Nat) (s : State) : Host.Outcome State Fault Refusal := onDev s (runCmd 0x0401 cid stepAlloc)

/-! ### MEM.FREE (R269) -/

def chkFree (d : Dev) (c : Cmd) : Chk Unit :=
  let va := par c 0x10 8
  let n := par c 0x18 8
  match smFind d.ctxs (cmdContext c) with
  | none => badParam 0x08
  | some x =>
    let l := leavesIn x va n
    let bad := n != 0 && (!coveredBy l va n || l.any (fun q => q.2.kvPool.isSome))
    match chkFields ([(0x18, n == 0)] ++ (match cutsPage l va n 0x10 0x18 with | some o => [(o, true)] | none => [])
        ++ [(0x10, bad)] ++ resv c.hdr 0x20 32) with
    | .error r => .error r
    | .ok _ =>
      match l.find? (fun q => heldPage x q.1 q.2) with
      | some q => .error { status := stBadParam, detail := 0x10, result := [(0x18, 8, 65536 * q.1)] }
      | none => .ok ()

def stepFree (d : Dev) (cid : Nat) (c : Cmd) : Option Dev :=
  let ctx := cmdContext c
  match smFind d.ctxs ctx with
  | none => some (finishCmd d cid stCancelled 0 [] none)
  | some x =>
    if memBlocked d cid c then none
    else match chkFree d c with
      | .error r => some (endRef d cid r)
      | .ok _ =>
        let l := leavesIn x (par c 0x10 8) (par c 0x18 8)
        if l.any (fun q => inUse d ctx q.1 q.2 || q.2.transit) then some d
        else
          let d1 := modMem d (fun m => { m with waits := m.waits.filter (fun w => !(w.ctx == ctx && l.any (fun q => q.1 == w.page))) })
          some (finishCmd (l.foldl (fun d q => unmapPage d ctx q.1) d1) cid stOk 0 [] none)

/-- MEM.FREE (R261, R269). -/
def execMemFree (cid : Nat) (s : State) : Host.Outcome State Fault Refusal := onDev s (runCmd 0x0402 cid stepFree)

/-! ### MEM.COPY, MEM.FILL and MEM.MANGLE (R270, R271, R278, R282) -/

def chkCopy (d : Dev) (c : Cmd) : Chk Unit :=
  let src := par c 0x10 8
  let dst := par c 0x18 8
  let n := par c 0x20 8
  match smFind d.ctxs (cmdContext c) with
  | none => badParam 0x08
  | some x => chkFields ([(0x10, !rangeOk x src n false),
      (0x18, !rangeOk x dst n true || (decide (src < dst + n) && decide (dst < src + n) && n != 0)),
      (0x20, n % 64 != 0)] ++ resv c.hdr 0x28 24)

def chkFill (d : Dev) (c : Cmd) : Chk Unit :=
  match smFind d.ctxs (cmdContext c) with
  | none => badParam 0x08
  | some x => chkFields ([(0x10, !rangeOk x (par c 0x10 8) (par c 0x18 8) true)] ++ resv c.hdr 0x24 28)

/-- A command with a deadline that names a SLOW page is refused (R278). -/
def admSlow (d : Dev) (c : Cmd) (rs : List (Nat × Nat × Bool)) : Chk (Cmd × Dev) :=
  if cmdDeadline c ≠ 0 ∧ (notLocal d (cmdContext c) rs).any (fun q => decide (q.2.kind = .slow)) then refused 3 else .ok (c, d)

def admRanges (d : Dev) (c : Cmd) : Chk (Cmd × Dev) := admSlow d c (memRanges d c)

/-- The checks of ranges and buffers made when the command begins (R271, R651). -/
def chkBegin (d : Dev) (c : Cmd) : Chk Unit := do
  match opcodeC c with
  | 0x0403 => chkCopy d c
  | 0x0404 => chkFill d c
  | _ => chkMangle d c true
  chkBuffer d c

/-- Begins, brings its pages in, and cuts its pieces; without any piece it ends at once. -/
def stepPieces (d : Dev) (cid : Nat) (c : Cmd) : Option Dev :=
  if !c.info.isEmpty then some d
  else if memBlocked d cid c then none
  else
    let (here, d1) := bringIn d cid c (memRanges d c)
    if !here then some d1
    else match chkBegin d1 c with
      | .error r => some (endRef d1 cid r)
      | .ok _ =>
        let d2 := modCmd d1 cid (fun c => { c with info := [1] })
        if pieceCount c = 0 then some (finishCmd (mangleClose d2 c) cid stOk 0 (mangleResult c) none)
        else some (makePieces d2 cid c)

/-- MEM.COPY (R270). -/
def execMemCopy (cid : Nat) (s : State) : Host.Outcome State Fault Refusal := onDev s (runCmd 0x0403 cid stepPieces)
/-- MEM.FILL (R270). -/
def execMemFill (cid : Nat) (s : State) : Host.Outcome State Fault Refusal := onDev s (runCmd 0x0404 cid stepPieces)
/-- MEM.MANGLE (R282 to R300). -/
def execMemMangle (cid : Nat) (s : State) : Host.Outcome State Fault Refusal := onDev s (runCmd 0x0407 cid stepPieces)

/-- The piece a mangle takes next: of the commands with pieces waiting on its die, in turn after the last one (R282). The two
mangles of a die take pieces in turn. -/
def nextPiece (d : Dev) (m : Nat) : Option Piece :=
  let die := m / 2
  if smGet 0 d.mem.turn die ≠ m % 2 ∨ d.mem.pieces.any (fun p => p.mang == some m) then none
  else
    let wait := d.mem.pieces.filter (fun p => p.die == die && p.mang.isNone)
    let last := smGet 0 d.mem.lastCmd m
    match wait.find? (fun p => decide (last < p.cid + 1)) with
    | some p => (wait.filter (fun q => decide (last < q.cid + 1))).foldl (fun b q => if q.cid < b.cid then q else b) p |> some
    | none => wait.head?.map (fun p => wait.foldl (fun b q => if q.cid < b.cid then q else b) p)

/-- MANGLE_PIECE_START (R282). -/
def execManglePieceStart (m : Fin 32) (s : State) : Host.Outcome State Fault Refusal :=
  onDev s (fun d => match nextPiece d m with
    | none => d
    | some p =>
      let d1 : Dev := { d with gov := { d.gov with mangGated := d.gov.mangGated.filter (fun g => g != (m : Nat)) } }
      modMem (markThrottled d1 p.cid [8 + (m : Nat) / 2]) (fun k => { k with
        pieces := k.pieces.map (fun q => if q = p then { q with mang := some m } else q),
        turn := smSet 0 k.turn (m / 2) (1 - m % 2), lastCmd := smSet 0 k.lastCmd m (p.cid + 1) }))

/-- A refold's LOCAL copy ends with its last piece, or is lost with one that fails (11 R452). -/
def endCopy (d : Dev) (p : Piece) (c : Cmd) (ok : Bool) : Dev :=
  let same (q : Piece) : Bool := q.cid == p.cid && q.q % 65536 == p.q % 65536
  let d1 := if ok then d else modMem d (fun m => { m with pieces := m.pieces.filter (fun q => !same q) })
  match (if d1.mem.pieces.any same then none else refoldOf d1 c) with
  | none => d1
  | some (n, _) => { d1 with colls := { d1.colls with live := smUpd d1.colls.live n (fun k => { k with
      recv := k.recv.map (fun r => if r.2.copy ∧ r.2.idx = p.q % 65536 then
        (r.1, { r.2 with done := ok, lost := !ok, total := 1 }) else r) }) } }

/-- A mangle finishes its piece: its effect, and the command's end after its last piece; an error ends the command (R250). A
WEIGHTS.STAGE goes on with what its `info` then says: [2] its pieces are done, [3, va] one met an error; a refold goes on by its
own row (11 R452). -/
def endPiece (m : Nat) (d : Dev) : Dev :=
  match d.mem.pieces.find? (fun p => p.mang == some m) with
  | none => d
  | some p =>
    let d1 := modMem d (fun k => { k with pieces := k.pieces.filter (fun q => q != p) })
    match smFind d.cmds p.cid with
    | none => d1
    | some c =>
      let ctx := cmdContext c
      match ((pieceBody d c p.q).run m).run (d1, c.flags, c.count) with
      -- a page in TRANSIT is waited for, and one that is SLOW recalled (R275, R278)
      | .error (.transit _) => d
      | .error (.absent va) =>
        (match (smFind d.ctxs ctx).bind (fun x => leafKey x va) with
          | some (key, q) => recallPage d ctx key q none []
          | none => d)
      | .error e =>
        let va := verrVa e
        let d2 := if opcodeC c = 0x0A01 then d1 else modMem d1 (fun k => { k with pieces := k.pieces.filter (fun q => q.cid != p.cid) })
        let d3 := match smFind d.ctxs ctx with
          | some x => (match translate x va .any with | .ok dpa => reportBad d2 dpa | .error _ => d2)
          | none => d2
        if opcodeC c = 0x0901 then modCmd d3 p.cid (fun c => { c with info := [3, va] })
        else if opcodeC c = 0x0A01 then endCopy d3 p c false
        else finishCmd d3 p.cid stDeviceFault 0x0001 [(0x18, 8, va)] none
      | .ok (_, (d2, f, n)) =>
        let d3 := modCmd d2 p.cid (fun c => { c with flags := f, count := n })
        if opcodeC c = 0x0A01 then endCopy d3 p c true
        else if d3.mem.pieces.any (fun q => q.cid == p.cid) then d3
        else if opcodeC c = 0x0901 then modCmd d3 p.cid (fun c => { c with info := [2] })
        else finishCmd (mangleClose d3 c) p.cid stOk 0 (mangleResult { c with flags := f, count := n }) none

/-- MANGLE_PIECE_COMPLETE (R250, R282). -/
def execManglePieceComplete (m : Fin 32) (s : State) : Host.Outcome State Fault Refusal := onDev s (endPiece m)

/-! ### MEM.DEMOTE and MEM.RECALL (R272 to R277) -/

/-- The range check of both (R273). -/
def moveRange (x : Ctx) (c : Cmd) : List (Nat × Bool) :=
  let va := par c 0x10 8
  let n := par c 0x18 8
  let l := leavesIn x va n
  (match cutsPage l va n 0x10 0x18 with | some o => [(o, true)] | none => [])
    ++ [(0x10, n != 0 && !coveredBy l va n)]

def chkDemote (d : Dev) (c : Cmd) : Chk Unit :=
  match smFind d.ctxs (cmdContext c) with
  | none => badParam 0x08
  | some x => chkFields (moveRange x c ++ [(0x20, par c 0x20 1 == 0 || decide (2 < par c 0x20 1))] ++ resv c.hdr 0x21 31)

def chkRecall (d : Dev) (c : Cmd) : Chk Unit :=
  match smFind d.ctxs (cmdContext c) with
  | none => badParam 0x08
  | some x =>
    let to_ := par c 0x20 1
    let place := par c 0x21 1
    let home := par c 0x22 1
    let cups := match partOf d x.part with | some p => partCups p | none => []
    chkFields (moveRange x c ++ [(0x20, decide (1 < to_)), (0x21, (placePage to_ place 0 0).isNone),
      (0x22, decide (homeMax to_ place < home) || (to_ == 0 && !cups.contains (if place = 1 then home else 4 * home)))]
      ++ resv c.hdr 0x23 29)

/-- The pages that a demotion or recall moves, in address order; a page on a peer lies in no tier and is left alone (R272, R273). -/
def movedPages (x : Ctx) (c : Cmd) : SMap Pte :=
  let to_ := par c 0x20 1
  let down := opcodeC c == 0x0405
  (leavesIn x (par c 0x10 8) (par c 0x18 8)).filter (fun q =>
    decide (q.2.kind ≠ .remote) && (if down then decide (tierOf q.2 < to_) else decide (to_ < tierOf q.2)))

/-- LPDDR6 bytes that a list of pages will be charged once they lie there (R648). -/
def lpCharge (l : SMap Pte) : Nat := ((l.filter (fun q => q.2.tier0 && !chargedInLp q.2)).map (fun q => pageBytes q.2)).sum

/-- LPDDR6 bytes that TIER 0 pages of a partition on their way there will be charged: of pages in a move or waiting for one, and of
commands other than `self` that have been admitted and have not begun (R648). -/
def pendingCharge (d : Dev) (part : Nat) (self : Option Nat) : Nat :=
  let page (ctx pg : Nat) : Nat := match smFind d.ctxs ctx with
    | some x => if x.part = part then (match smFind x.ptes pg with | some p => lpCharge [(pg, p)] | none => 0) else 0
    | none => 0
  let toLp (m : Move) : Bool := match m.dest with | some fs => !fs.any isCup | none => false
  ((d.mem.waits.filter (fun w => w.to_ == 1)).map (fun w => page w.ctx w.page)).sum
    + ((d.mem.moves.filter toLp).map (fun m => page m.ctx m.page)).sum
    + (d.cmds.map (fun q =>
        if some q.1 ≠ self ∧ (opcodeC q.2 = 0x0405 ∨ opcodeC q.2 = 0x0406) ∧ q.2.fin.isNone ∧ q.2.info.isEmpty ∧ par q.2 0x20 1 = 1 then
          (match smFind d.ctxs (cmdContext q.2) with
            | some x => if x.part = part then lpCharge (movedPages x q.2) else 0
            | none => 0)
        else 0)).sum

/-- The places to which a command moves its pages, in address order, with their frames (R273). -/
def movePlaces (d : Dev) (x : Ctx) (c : Cmd) (l : SMap Pte) : List (Place × Nat) :=
  let to_ := par c 0x20 1
  l.zipIdx.map (fun q =>
    (if opcodeC c == 0x0405 then defaultPlace d x q.1.1 q.1.2 1
     else (placePage to_ (par c 0x21 1) (par c 0x22 1) q.2).getD (.die 0), pageFrames q.1.2))

/-- Reserves the new places of the pages: pool pages, or frames (R273, R648). -/
def admMove (d : Dev) (c : Cmd) (self : Option Nat := none) : Chk (Cmd × Dev) :=
  match smFind d.ctxs (cmdContext c) with
  | none => badParam 0x08
  | some x =>
    let l := movedPages x c
    let to_ := par c 0x20 1
    let down := opcodeC c == 0x0405
    match partOf d x.part with
    | none => refused 7
    | some p =>
      if cmdDeadline c ≠ 0 ∧ down ∧
          ((leavesIn x (par c 0x10 8) (par c 0x18 8)).any (fun q => heldPage x q.1 q.2) || deadlineRuns d (cmdContext c)) then
        .error { status := stAdmissionRefused, detail := 0, result := [(0x0C, 4, 0xFFFFFFFF)] }
      else if to_ = 2 then
        let need := (l.map (fun q => pageFrames q.2)).sum
        if p.pool.isEmpty then refused 7
        else
          let ks := freePool p need
          if ks.length < need then refused 8
          else .ok ({ c with pool := ks, part := x.part }, takePool d x.part ks)
      else
        let lp := if to_ = 1 then lpCharge l else 0
        if lp ≠ 0 ∧ quotaLeft d x.part < lp + pendingCharge d x.part self then refused 1
        else
          match (movePlaces d x c l).foldl (fun (acc : Option (List Nat × Dev)) q => match acc with
              | none => none
              | some (fs, d) => (takeRun d q.1 q.2).map (fun (f, d1) => (fs ++ span f q.2, d1))) (some ([], d)) with
          | none => refused 2
          | some (fs, d1) => .ok ({ c with frames := fs, part := x.part }, d1)

/-- Hands the reserved frames or pool pages to the pages in order. -/
def splitReserve : List (Nat × Pte) → List Nat → List (Nat × List Nat)
  | [], _ => []
  | q :: qs, fs => (q.1, fs.take (pageFrames q.2)) :: splitReserve qs (fs.drop (pageFrames q.2))

/-- What was reserved at admission suits the pages that move now: earlier commands may have moved some of them since. -/
def reserveFits (d : Dev) (x : Ctx) (c : Cmd) (l : SMap Pte) : Bool :=
  let need := (l.map (fun q => pageFrames q.2)).sum
  if par c 0x20 1 = 2 then c.pool.length == need
  else c.frames.length == need && ((splitReserve l c.frames).zip (movePlaces d x c l)).all (fun q =>
    let f := nth 0 q.1.2 0
    decide (placeOf f = q.2.1) && decide (q.1.2 = span f q.2.2) && (f - placeBase q.2.1) % q.2.2 == 0)

/-- The pages of the command wait for their moves, with what is reserved for them. -/
def bookMoves (d : Dev) (cid : Nat) (x : Ctx) (c : Cmd) : Dev :=
  let ctx := cmdContext c
  let l := movedPages x c
  let to_ := par c 0x20 1
  let left := (leavesIn x (par c 0x10 8) (par c 0x18 8)).length - l.length
  let ws : List MoveWait := (splitReserve l (if to_ = 2 then c.pool else c.frames)).map (fun q =>
    { ctx := ctx, page := q.1, to_ := to_, dest := if to_ = 2 then none else some q.2,
      slow := if to_ = 2 then q.2 else [], cid := some cid, line := [] })
  let d1 := modCmd (modMem (useReserve d cid) (fun m => { m with waits := m.waits ++ ws })) cid
    (fun c => { c with info := [l.length, left] })
  if l.isEmpty then finishCmd d1 cid stOk 0 [(0x0C, 4, 0), (0x10, 4, left)] none else d1

def stepMove (d : Dev) (cid : Nat) (c : Cmd) : Option Dev :=
  let ctx := cmdContext c
  match smFind d.ctxs ctx with
  | none => some (finishCmd (undoReserve d cid) cid stCancelled 0 [] none)
  | some x =>
    if c.info.isEmpty then
      if memBlocked d cid c then none
      else match (if opcodeC c = 0x0405 then chkDemote d c else chkRecall d c) with
        | .error r => some (endRef (undoReserve d cid) cid r)
        | .ok _ =>
          if (leavesIn x (par c 0x10 8) (par c 0x18 8)).any (fun q => q.2.transit) then some d
          else if reserveFits d x c (movedPages x c) then some (bookMoves d cid x c)
          else
            -- the pages that move are others than at admission: their places are reserved anew (log 9)
            let d0 := undoReserve d cid
            match admMove d0 { c with frames := [], pool := [], charged := 0 } (some cid) with
            | .error r => some (endRef d0 cid r)
            | .ok (c1, d1) => some (bookMoves d1 cid x c1)
    else if d.mem.waits.any (fun w => w.cid == some cid) || d.mem.moves.any (fun m => m.cid == some cid) then some d
    else some (finishCmd d cid stOk 0 [(0x0C, 4, nth 0 c.info 0), (0x10, 4, nth 0 c.info 1)] none)

/-- MEM.DEMOTE (R273, R276): its pages then move one by one; it ends with the last of them. -/
def execMemDemote (cid : Nat) (s : State) : Host.Outcome State Fault Refusal := onDev s (runCmd 0x0405 cid stepMove)
/-- MEM.RECALL (R273). -/
def execMemRecall (cid : Nat) (s : State) : Host.Outcome State Fault Refusal := onDev s (runCmd 0x0406 cid stepMove)

end Sys2Proof.Machine
end

