-- ==== Sys2Proof/Machine/CtxOps.lean ====
section
/-! DEFINITION. Shares of a context on its engines, and the context image (13 R501 to R505, 05 R184). -/

namespace Sys2Proof.Machine

/-! ### Shares (R501, R502) -/

/-- The context holds its shares: it is resident or in transit. -/
def hasShares (x : Ctx) : Bool := !x.base.isEmpty

/-- The contexts with a share on a physical engine, with the granules that they hold there: (context, first, granules). -/
def sharesOn (d : Dev) (e : Nat) : List (Nat × Nat × Nat) :=
  d.ctxs.flatMap (fun c =>
    if hasShares c.2 then
      (span 0 c.2.engCount).filterMap (fun i =>
        if physEngine d c.2 i = e then some (c.1, nth 0 c.2.base i, c.2.basket) else none)
    else [])

/-- A run of granules is free on an engine. -/
def runFree (l : List (Nat × Nat × Nat)) (g n : Nat) : Bool := l.all (fun s => decide (g + n ≤ s.2.1) || decide (s.2.1 + s.2.2 ≤ g))

/-- The first free run of n granules (R202, R501). -/
def firstFit (l : List (Nat × Nat × Nat)) (n : Nat) : Option Nat := (span 0 (129 - n)).find? (fun g => runFree l g n)

/-- Contexts with shares on an engine. -/
def ctxsOn (d : Dev) (e : Nat) : List Ctx := (sharesOn d e).filterMap (fun s => smFind d.ctxs s.1)

/-- Frames of a save area (R501). -/
def saveFrames (ttiles : Nat) : Nat := ceilDiv (69632 + 263168 + 16448 * ttiles) 65536

/-- The cupboard die of an engine's save areas (R501). -/
def saveCup (e : Nat) : Nat := 4 * (e / 12) + e % 4

/-- Tiles and instructions leave room for the context on an engine (R502). -/
def roomOn (d : Dev) (x : Ctx) (e : Nat) : Bool :=
  let l := ctxsOn d e
  decide ((l.map (·.tiles)).sum + x.tiles + (l.map (·.ttiles)).foldl max x.ttiles ≤ 128)
    && decide ((l.map (·.istore)).sum + x.istore ≤ 32768)
    && decide ((sharesOn d e).foldl (fun n s => n + s.2.2) 0 + x.basket ≤ 128)

/-- Takes n single frames at a place. -/
def takeSingles (d : Dev) (p : Place) (n : Nat) : Option (List Nat × Dev) := takeRuns d 1 (List.replicate n p)

/-- Moves the shares on an engine together, from granule 0 on, when nothing runs or is rinsed there (R502). -/
def compact (d : Dev) (e : Nat) : Dev :=
  if (smFind d.running e).isSome || d.mem.granRinse.any (fun g => g / 128 == e) then d
  else
    let l := (sharesOn d e).foldl (fun b s => ins s b) []
    let raw := l.map (fun s => memRead d.mem.baskets (2 ^ 23 * e + 65536 * s.2.1) (65536 * s.2.2))
    let d0 := modMem d (fun m => { m with baskets := memClear m.baskets (2 ^ 23 * e) (2 ^ 23) })
    (place 0 (l.zip raw) d0)
where
  /-- Sorted by first granule. -/
  ins (s : Nat × Nat × Nat) : List (Nat × Nat × Nat) → List (Nat × Nat × Nat)
    | [] => [s]
    | t :: ts => if s.2.1 ≤ t.2.1 then s :: t :: ts else t :: ins s ts
  /-- Each share after the one before it. -/
  place (g : Nat) : List ((Nat × Nat × Nat) × List Byte) → Dev → Dev
    | [], d => d
    | (s, bs) :: r, d =>
      let d1 := modMem d (fun m => { m with baskets := memWrite m.baskets (2 ^ 23 * e + 65536 * g) bs })
      let d2 := modCtx d1 s.1 (fun x => { x with base := (span 0 x.engCount).map (fun i =>
        if physEngine d x i = e then g else nth 0 x.base i) })
      place (g + s.2.2) r d2

/-- Why a context cannot be placed now. -/
inductive NoPlace where
  | never  -- some engine lacks room (R502)
  | later  -- its granules suffice but are not contiguous, and a resident there is running
  deriving DecidableEq, Repr

/-- Places the share of one engine: a run of granules and the save area. -/
def placeOne (d : Dev) (x : Ctx) (e : Nat) : Except NoPlace (Nat × List Nat × Dev) :=
  if !roomOn d x e then .error .never
  else
    let d1 := if (firstFit (sharesOn d e) x.basket).isSome then d else compact d e
    match firstFit (sharesOn d1 e) x.basket with
    | none => .error .later
    | some g => match takeSingles d1 (.cup (saveCup e)) (saveFrames x.ttiles) with
      | none => .error .never
      | some (fs, d2) => .ok (g, fs, d2)

/-- Places the shares of a context on all its engines (R502): first granules and save frames. -/
def placeAll (x : Ctx) : List Nat → Dev → Except NoPlace (List Nat × List Nat × Dev)
  | [], d => .ok ([], [], d)
  | i :: is, d => do
    let (g, fs, d1) ← placeOne d x (physEngine d x i)
    let (gs, fss, d2) ← placeAll x is d1
    return (g :: gs, fs ++ fss, d2)

/-- Engine state of a context is forgotten: unloaded state reads as reset (16 R602). -/
def dropEngines (d : Dev) (ctx : Nat) : Dev := { d with eng := d.eng.filter (fun p => p.1 / 128 != ctx) }

/-- Releases the shares and save areas of a context: granules and frames pass to rinse (R203, R516). -/
def releaseShares (d : Dev) (ctx : Nat) : Dev :=
  match smFind d.ctxs ctx with
  | none => d
  | some x =>
    if !hasShares x then d
    else
      let gs := (span 0 x.engCount).flatMap (fun i => span (128 * physEngine d x i + nth 0 x.base i) x.basket)
      let d1 := modMem d (fun m => { m with granRinse := insertAll gs m.granRinse })
      let d2 := freeFrames d1 x.saveFrames
      let es := (span 0 x.engCount).map (physEngine d x)
      let d3 : Dev := { d2 with gov := { d2.gov with shareFree := es.foldl (fun m e => smSet 0 m e d.now) d2.gov.shareFree } }
      modCtx (dropEngines d3 ctx) ctx (fun x => { x with base := [], saveFrames := [] })

/-- The granules that a context holds. -/
def granulesOfCtx (d : Dev) (x : Ctx) : List Nat :=
  if hasShares x then (span 0 x.engCount).flatMap (fun i => span (128 * physEngine d x i + nth 0 x.base i) x.basket) else []

/-- Contexts of a partition that are resident or in transit (R499). -/
def residentsOf (d : Dev) (p : Nat) : SMap Ctx := d.ctxs.filter (fun c => c.2.part == p && decide (c.2.state ≠ .demoted))

/-! ### The context image (R504, R505) -/

/-- A byte string cut or filled with zeros to n bytes. -/
def fit (n : Nat) (bs : List Byte) : List Byte := slice bs 0 n

def words32 (m : SMap (BitVec 32)) (n : Nat) : List Byte := (span 0 n).flatMap (fun k => natLe 4 (smGet 0#32 m k).toNat)

/-- n words of a byte string as a map. -/
def wordsOf (bs : List Byte) (o n : Nat) : SMap (BitVec 32) :=
  (span 0 n).filterMap (fun k => let v := word bs (o + 4 * k); if v = 0#32 then none else some (k, v))

/-- The sequencer section; loop records from the outermost (log 29). -/
def seqSection (e : EngCtx) : List Byte :=
  let loops := e.loops.reverse
  fit 0x200 (natLe 4 e.pc ++ natLe 2 loops.length ++ natLe 2 e.calls.length
    ++ fit 48 (loops.flatMap (fun l => natLe 4 l.1 ++ natLe 4 l.2.1 ++ natLe 4 l.2.2))
    ++ fit 40 (e.calls.reverse.flatMap (natLe 4)) ++ words32 e.s 32
    ++ (span 0 16).flatMap (fun k => natLe 2 (smGet 0 e.sem k))
    ++ natLe 4 (match e.barAt with | some n => 2 ^ n | none => 0))

def slotCodeP : PegState → Nat
  | .empty => 0 | .filling => 1 | .full => 2 | .taken => 3 | .draining => 4

/-- One line of the image. -/
def lineSection (l : Line) : List Byte :=
  let slots := (span 0 16).foldl (fun n k => n + slotCodeP (pegAt l k).state * 16 ^ k) 0
  fit 128 (fit 64 l.desc ++ natLe 4 (lineWord l).toNat ++ natLe 4 l.head ++ natLe 4 l.tail ++ natLe 8 l.pos
    ++ natLe 8 l.faultPos ++ natLe 8 slots ++ natLe 4 l.credit)

/-- A curve table slot with its mark. -/
def curveSection (m : Option Mem) : List Byte :=
  match m with
  | none => List.replicate 16448 0#8
  | some t => memRead t 0 16444 ++ natLe 4 1

/-- The finisher section (05 R184). -/
def finSection (e : EngCtx) (engines layout : Nat) : List Byte :=
  words32 e.t 16384 ++ words32 e.ch 128 ++ words32 e.fs 16 ++ natLe 4 e.fctl.toNat ++ natLe 8 e.fidx.toNat
    ++ natLe 4 256 ++ natLe 4 engines ++ natLe 4 layout ++ List.replicate 40 0#8
    ++ (span 0 16).flatMap (fun k => curveSection (smFind e.curves k))

/-- Bytes of an engine image up to its basket share. -/
def engHead (tiles : Nat) : Nat := align64k (0x52000 + 16448 * tiles)

/-- An engine image (R505). -/
def engImage (d : Dev) (ctx : Nat) (x : Ctx) (layout i : Nat) : List Byte :=
  let e := getE d ctx i
  let tiles := x.tiles + x.ttiles
  let head := fit 64 (natLe 4 i ++ natLe 4 (x.basket * 1024) ++ natLe 4 tiles)
    ++ seqSection e
    ++ (span 0 16).flatMap (fun k => natLe 8 (smGet 0#64 e.fd k).toNat)
    ++ fit 64 (natLe 4 e.aflags.toNat ++ natLe 4 e.pctl0.toNat ++ natLe 4 e.pctl1.toNat ++ words32 e.pnf 4 ++ natLe 4 e.pstat)
    ++ (span 0 16).flatMap (fun k => lineSection (lineOf e k))
  fit (engHead tiles) (fit 0x52000 (fit 0x1000 head ++ finSection e x.engCount layout)
    ++ (span 0 tiles).flatMap (fun k => tileImage (tileOf e k)))
    ++ memRead d.mem.baskets (shareBase d ctx i) (65536 * x.basket)

/-- A program image (06 R235). -/
def progImage (p : Prog) : List Byte := p.hdr ++ p.words.flatMap (fun w => natLe 16 w.toNat)

/-- The program section: the directory, whose offsets count from the image's first byte (log 29), and the images. -/
def progSection (x : Ctx) : List Byte :=
  let imgs := (span 0 64).map (fun k => match smFind x.progs k with | some p => progImage p | none => [])
  let offs := imgs.foldl (fun (acc : List Nat × Nat) b => (acc.1 ++ [acc.2], acc.2 + b.length)) ([], 256 + 1024)
  (imgs.zip offs.1).flatMap (fun q =>
    if q.1.isEmpty then List.replicate 16 0#8 else natLe 4 q.2 ++ natLe 4 q.1.length ++ slice q.1 0x24 8)
    ++ imgs.flatten

/-- The launch that a context holds pre-empted. -/
def preemptedOf (d : Dev) (ctx : Nat) : Option Launch :=
  (d.launches.find? (fun z => z.2.ctx == ctx && decide (z.2.state = .preempted))).map (·.2)

/-- Host sequence number of the command that a launch serves (R504). -/
def launchSeq (d : Dev) (z : Launch) : Nat := (launchTag d z).toNat

def engOff (x : Ctx) : Nat := align64k (256 + (progSection x).length)
def engStride (x : Ctx) : Nat := engHead (x.tiles + x.ttiles) + 65536 * x.basket

/-- Bytes of the image of a context (R504). -/
def imageBytes (x : Ctx) : Nat := engOff x + x.engCount * engStride x

/-- The image of a context that holds its shares (R504, R505). LAUNCH is that of its pre-empted launch, or of the image that was restored
into it. -/
def imageOf (d : Dev) (ctx : Nat) : List Byte :=
  match smFind d.ctxs ctx with
  | none => []
  | some x =>
    let z := preemptedOf d ctx
    let layout := match z.bind (fun z => smFind x.progs z.slot) with | some p => field p.hdr 6 2 | none => 0
    let launch := match z with
      | some z => natLe 1 z.slot ++ natLe 1 z.engFirst ++ natLe 1 z.engCount ++ [0#8]
          ++ natLe 4 (z.watchdog - (d.now - z.started) / 400) ++ natLe 4 (launchSeq d z)
      | none => x.imgLaunch
    let hdr := fit 0xE0 (natLe 4 0x4D495843 ++ natLe 2 1 ++ natLe 1 ctx ++ natLe 1 (b2n x.subn + 2 * b2n (!launch.isEmpty))
      ++ natLe 2 x.engCount ++ natLe 2 256 ++ natLe 1 x.basket ++ natLe 1 x.tiles ++ natLe 1 x.ttiles ++ [0#8]
      ++ natLe 4 x.istore ++ natLe 4 256 ++ natLe 4 (engOff x) ++ natLe 4 (engStride x) ++ natLe 8 (imageBytes x)
      ++ fit 16 launch)
    let body := progSection x
    let rest := fit (engOff x - 256) body ++ (span 0 x.engCount).flatMap (engImage d ctx x layout)
    let dig := sha256 (hdr ++ List.replicate 32 0#8 ++ rest)
    hdr ++ dig ++ rest

/-! ### Reading an image back (R505, R507) -/

/-- A line from the image. Pegs are in the state that R221 gives: no transfer is in flight. -/
def lineOfImage (bs : List Byte) : Line :=
  let w := field bs 64 4
  let st : LState := match bits w 31 29 with
    | 0 => .idle | 1 => .ready | 2 => .running | 3 => .done | 4 => .faulted | 5 => .idle | _ => .recall
  if st = .idle then {}
  else
    let x := slice bs 0 64
    let head := field bs 68 4
    let tail := field bs 72 4
    let pos := field bs 76 8
    let codes := field bs 92 8
    let n := ldSlots x
    let state (k : Nat) : PegState := match codes / 16 ^ k % 16 with | 1 => .filling | 2 => .full | 3 => .taken | _ => .empty
    let taken := ((span 0 n).filter (fun k => decide (state k = .taken))).length
    let rel := head - taken
    let part := pos - pos / pegSrc x * pegSrc x
    -- the bytes of a step that the expander had not completed are asked for again
    let done := if ldExpand x = 0 then part else part / 1024 * 1024
    let pegs := (span 0 n).map (fun k =>
      match (span rel (tail - rel)).find? (fun p => p % n == k) with
      | none => ({} : Peg)
      | some p => if state k = .filling then
          { state := .filling, peg := p, landed := dstLen x done, scales := if ldExpand x = 0 then 0 else done / 16,
            -- everything that has been asked for the peg (06 R229): its scale bytes came first
            issued := part + (if ldExpand x = 0 ∨ part = 0 then 0 else pegSrcLen x p / 16 - done / 16) }
        else { state := state k, peg := p, issued := if state k = .full then pegSrcLen x p else 0,
               scales := if state k = .full ∧ ldExpand x ≠ 0 then pegSrcLen x p / 16 else 0 })
    { state := st, desc := x, head := head, tail := tail, rel := rel, pegs := pegs,
      pos := if pegs.any (fun s => decide (s.state = .filling)) then pos - part + done else pos,
      credit := field bs 100 4, out := 0, fault := bits w 10 3, faultPos := field bs 84 8, faultPeg := field bs 84 8 / pegSrc x }

/-- The engine state that an engine image holds; tiles up to n. -/
def engOfImage (b : List Byte) (n : Nat) : EngCtx :=
  let loops := field b 0x44 2
  let calls := field b 0x46 2
  let f := 0x1000
  { seq := .stopped, pc := field b 0x40 4,
    loops := ((span 0 (min loops 4)).map (fun k => (field b (0x48 + 12 * k) 4, field b (0x4C + 12 * k) 4, field b (0x50 + 12 * k) 4))).reverse,
    calls := ((span 0 (min calls 8)).map (fun k => field b (0x78 + 4 * k) 4)).reverse,
    s := wordsOf b 0xA0 32,
    sem := (span 0 16).filterMap (fun k => let v := field b (0x120 + 2 * k) 2; if v = 0 then none else some (k, v)),
    fd := (span 0 16).filterMap (fun k => let v := field b (0x240 + 8 * k) 8; if v = 0 then none else some (k, BitVec.ofNat 64 v)),
    aflags := word b 0x2C0, pctl0 := word b 0x2C4, pctl1 := word b 0x2C8, pnf := wordsOf b 0x2CC 4, pstat := field b 0x2DC 4 % 2 ^ 31,
    lines := (span 0 16).filterMap (fun k => let l := lineOfImage (slice b (0x300 + 128 * k) 128); if l = {} then none else some (k, l)),
    t := wordsOf b f 16384, ch := wordsOf b (f + 0x10000) 128, fs := wordsOf b (f + 0x10200) 16,
    fctl := word b (f + 0x10240), fidx := BitVec.ofNat 64 (field b (f + 0x10244) 8),
    curves := (span 0 16).filterMap (fun k =>
      let o := f + 0x10280 + 16448 * k
      if field b (o + 16444) 4 = 0 then none else some (k, memOf (slice b o 16444))),
    tiles := (span 0 n).filterMap (fun k => let t := tileOfImage (slice b (0x52000 + 16448 * k) 16448); if t = {} then none else some (k, t)) }

/-- The address at which a stopped line stands, an INDEX line's run read again from its list (06 R207, R222). -/
def setFaultVa (d : Dev) (ctx i : Nat) (l : Line) : Line :=
  let r := l.faultPos / ldRun l.desc
  let a := shareBase d ctx i + listBase l.desc + 8 * r
  { l with faultVa := posVa { l with runs := [(r, leNat (memRead d.mem.baskets a 8) % 2 ^ 52)] } l.faultPos }

/-- Programs of an image (R504). -/
def progsOfImage (img : List Byte) : SMap Prog :=
  let o := field img 0x14 4
  (span 0 64).filterMap (fun k =>
    let off := field img (o + 16 * k) 4
    let n := field img (o + 16 * k + 4) 4
    if n < 64 then none
    else some (k, { hdr := slice img off 64, words := (span 0 ((n - 64) / 16)).map (fun j => BitVec.ofNat 128 (field img (off + 64 + 16 * j) 16)) }))

/-- Writes an image into a context that holds its shares (R507): engines beyond the image's get its curve tables alone
(05 R185), and a larger share is zero beyond the image's. -/
def putImage (d : Dev) (ctx : Nat) (img : List Byte) : Dev :=
  match smFind d.ctxs ctx with
  | none => d
  | some x =>
    let n := field img 0x08 2
    let tiles := field img 0x0D 1 + field img 0x0E 1
    let basket := field img 0x0C 1
    let off := field img 0x18 4
    let stride := field img 0x1C 4
    let one (d : Dev) (i : Nat) : Dev :=
      let b := slice img (off + stride * (if i < n then i else 0)) stride
      let e := engOfImage b tiles
      let share := if i < n then slice b (engHead tiles) (65536 * basket) else []
      let d1 := modMem d (fun m => { m with baskets := memWrite m.baskets (shareBase d ctx i) (fit (65536 * x.basket) share) })
      let e1 := if i < n then { e with lines := e.lines.map (fun l => (l.1, setFaultVa d1 ctx i l.2)) }
        else { ({} : EngCtx) with fctl := 0, pctl0 := 0, curves := e.curves }
      setE d1 ctx i e1
    modCtx ((span 0 x.engCount).foldl one d) ctx (fun x => { x with progs := progsOfImage img })

end Sys2Proof.Machine
end

