-- ==== Sys2Proof/Machine/Kv.lean ====
section
/-! DEFINITION. KV.APPEND, KV.FORK and KV.FREE, the append windows, and the heat of pages (08 R316 to R342). -/

namespace Sys2Proof.Machine

/-! ### Commands that a batch step holds back (R325) -/

/-- Notes that a command waits for the end of the batch step, in admission order. -/
def holdKv (d : Dev) (ctx cid : Nat) : Dev :=
  modCtx d ctx (fun x => { x with serve := { x.serve with heldCmds := insertSorted cid x.serve.heldCmds } })

/-- A refusal whose DETAIL the spec leaves open (log 26). -/
def refusedOpen {α : Type} (d : Dev) : Chk α := refused (Config.freeValue 16 d.freeCtr).toNat

/-- The command is refused with such a DETAIL. -/
def endOpen (d : Dev) (cid : Nat) : Dev :=
  endRef d cid { status := stAdmissionRefused, detail := (Config.freeValue 16 d.freeCtr).toNat }

/-- The planes of pages that are being rinsed and lie in the slower tier: their pool pages are freed without a recall, and
each takes a frame to be rinsed; one for which no frame is found yet stays (R330; 09 R374). -/
def unslow (ctx n : Nat) (d : Dev) : Dev :=
  match smFind d.ctxs ctx, poolOf d ctx n with
  | some x, some p =>
    (x.ptes.filter (fun q => q.2.kvPool == some n && decide (q.2.kind = .slow) && !q.2.transit && inPlanes p q.1
        && decide ((kvPage p (kvPageOf p q.1)).state = .rinsing))).foldl (fun d q =>
      match takeRun d (defaultPlace d x q.1 q.2 1) 1 with
      | none => d
      | some (f, d1) =>
        setPte (freePoolPages d1 x.part q.2.slowPgs) ctx q.1 { q.2 with kind := .localPage, target := f, frames := [f], slowPgs := [] }) d
  | _, _ => d

/-! ### KV.APPEND (R316 to R318) -/

def apSeq (c : Cmd) : Nat := par c 0x10 4
def apPos (c : Cmd) : Nat := par c 0x14 4
def apTokens (c : Cmd) : Nat := par c 0x20 2
def apLayer0 (c : Cmd) : Nat := par c 0x22 2
def apLayers (c : Cmd) : Nat := par c 0x24 2
def apTent (c : Cmd) : Bool := bit (par c 0x26 2) 0
def apStream (c : Cmd) : BitVec 64 := BitVec.ofNat 64 (par c 0x28 8)

def appendSrc (p : KvPool) (c : Cmd) : Nat := apTokens c * apLayers c * kvH p * 4 * kvD p

/-- The length that the append leaves on a layer of the sequence. -/
def appendLen (s : KvSeq) (c : Cmd) : Nat :=
  seqLen { s with len := s.len.zipIdx.map (fun q =>
    if apLayer0 c ≤ q.2 ∧ q.2 < apLayer0 c + apLayers c then q.1 + apTokens c else q.1) }

def chkKvAppend (d : Dev) (c : Cmd) : Chk Unit :=
  let ctx := cmdContext c
  match smFind d.ctxs ctx with
  | none => badParam 0x08
  | some x =>
    let tail := [(0x20, outside 1 4096 (apTokens c)), (0x26, 1 < par c 0x26 2)] ++ resv c.hdr 0x30 16
    match seqFind d ctx (apSeq c) with
    | none => chkFields ((0x10, true) :: tail)
    | some (n, _, s) => match smFind x.pools n with
      | none => chkFields ((0x10, true) :: tail)
      | some p =>
        let layers := (span (apLayer0 c) (apLayers c))
        chkFields ([(0x14, layers.any (fun l => decide (l < kvL p) && nth 0 s.len l != apPos c)),
          (0x18, !rangeOk x (par c 0x18 8) (appendSrc p c) false),
          (0x20, decide (2 ^ 20 < apPos c + apTokens c)
            || (apTent c && decide (s.commit + 32 < max (appendLen s c) (seqLen s)))),
          (0x22, decide (kvL p ≤ apLayer0 c)),
          (0x24, apLayers c == 0 || decide (kvL p < apLayer0 c + apLayers c))] ++ tail)

/-- Pages that the command needs are free or being rinsed (R317, R334). -/
def admKvAppend (d : Dev) (c : Cmd) : Chk (Cmd × Dev) :=
  let ctx := cmdContext c
  match seqFind d ctx (apSeq c) with
  | none => badParam 0x10
  | some (n, _, s) => match poolOf d ctx n with
    | none => badParam 0x10
    | some p =>
      if cmdDeadline c ≠ 0 ∧ !(notLocal d ctx [(par c 0x18 8, appendSrc p c, false)]).isEmpty then refused 3
      else
        let (fresh, copy) := appendNeeds p s (apPos c) (apTokens c)
        match roomFor d ctx n (fresh + copy) with
        | (.full, _) => refused 5
        | (_, d1) => .ok (c, d1)

/-- Bytes of planes and scale slots that a die copies of a page, up to a position (R332). -/
def copyBytes (p : KvPool) (upto : Nat) : Nat :=
  ceilDiv (kvLH p) 16 * ceilDiv upto 32 * (64 * kvD p * kvBits p / 8 + (if kvS p = 0 then 0 else 2 * kvD p))

/-- Hub µs of a number of bytes on one die (R318, R332). -/
def dieUs (bytes : Nat) : Nat := ceilDiv bytes 368750

/-- Bytes one token writes for a layer and head (R307 to R309). -/
def tokenBytes (p : KvPool) : Nat :=
  kvD p * kvBits p / 8 + (if (kvKf p).block then kvD p / 32 else 0)
    + (if (kvVf p).block then 2 * kvD p else kvD p * kvBits p / 8)

/-- The cost model of KV.APPEND (R318). -/
def kvAppendCost (d : Dev) (c : Cmd) : Nat :=
  let ctx := cmdContext c
  match smFind d.ctxs ctx, seqFind d ctx (apSeq c) with
  | some x, some (n, _, s) => match smFind x.pools n with
    | none => 2
    | some p =>
      let (_, copy) := appendNeeds p s (apPos c) (apTokens c)
      let src := pieces (par c 0x18 8) (appendSrc p c)
      let onDie (m : Nat) : Nat :=
        ((src.filter (fun q => dieAt x q.1 == some m)).map (·.2)).sum
          + ((span (apLayer0 c * kvH p) (apLayers c * kvH p)).filter (fun lh => lh % 16 == m)).length * apTokens c * tokenBytes p
      2 + copy * (2 + 2 * dieUs (copyBytes p (apPos c % kvTpp p))) + dieUs (((span 0 16).map onDie).foldl max 0)
  | _, _ => 2

/-- One token on every layer and head of a command; none when a page is not free. -/
def appendToken (d : Dev) (ctx n slot : Nat) (c : Cmd) (p : KvPool) (t : Nat) (src : List Byte) : Option (Dev × BitVec 32) :=
  (span 0 (apLayers c * kvH p)).foldl (fun acc k => match acc with
    | none => none
    | some (d, f) =>
      let at_ := 4 * kvD p * k
      (appendOne d ctx n slot (apPos c + t) (apLayer0 c + k / kvH p) (k % kvH p) (apTent c) (apStream c)
        (slice src at_ (2 * kvD p)) (slice src (at_ + 2 * kvD p) (2 * kvD p))).map (fun (d1, f1) => (d1, f ||| f1))) (some (d, 0))

/-- The tokens of a command in order, closing value blocks as they become whole (R314): on an error, the address at fault. -/
def appendTokens (ctx n slot : Nat) (c : Cmd) (p : KvPool) (d : Dev) (f : BitVec 32) : List Nat → Except (Option Nat) (Dev × BitVec 32)
  | [] => .ok (d, f)
  | t :: ts =>
    let per := apLayers c * kvH p * 4 * kvD p
    match readVirt d ctx (par c 0x18 8 + t * per) per .any with
    | .error e => .error (some (verrVa e))
    | .ok src => match appendToken d ctx n slot c p t src with
      | none => .error none
      | some (d1, f1) =>
        let (d2, f2) := closeBlocks d1 ctx n slot 0 2
        appendTokens ctx n slot c p d2 (f ||| f1 ||| f2) ts

/-- A memory error ends a command (07 R250). -/
def memError (d : Dev) (cid ctx va : Nat) : Dev :=
  let d1 := match smFind d.ctxs ctx with
    | some x => (match translate x va .any with | .ok dpa => reportBad d dpa | .error _ => d)
    | none => d
  finishCmd d1 cid stDeviceFault 0x0001 [(0x18, 8, va)] none

/-- The effect of KV.APPEND (R317), once nothing holds it back. -/
def effectAppend (d : Dev) (cid : Nat) (c : Cmd) : Dev :=
  let ctx := cmdContext c
  match chkKvAppend d c with
  | .error r => endRef d cid r
  | .ok _ => match seqFind d ctx (apSeq c) with
    | none => endRef d cid { status := stBadParam, detail := 0x10 }
    | some (n, slot, s) => match poolOf d ctx n with
      | none => endRef d cid { status := stBadParam, detail := 0x10 }
      | some p =>
        let (here, d1) := bringIn d cid c [(par c 0x18 8, appendSrc p c, false)]
        if !here then d1
        else
          let (fresh, copy) := appendNeeds p s (apPos c) (apTokens c)
          match roomFor d1 ctx n (fresh + copy) with
          | (.full, _) => endRef d1 cid { status := stAdmissionRefused, detail := 5 }
          | (.wait, d2) => d2
          | (.ready, d2') => let d2 := markThrottled d2' cid (((span (apLayer0 c * kvH p) (apLayers c * kvH p)).map (fun lh => 8 + lh % 16)).eraseDups)
            match appendTokens ctx n slot c p d2 0 (span 0 (apTokens c)) with
            | .ok (d3, f) => finishCmd d3 cid stOk 0 [(0x0C, 4, fresh + copy), (0x10, 4, copy), (0x14, 4, f.toNat)] none
            | .error (some va) => memError d2 cid ctx va
            | .error none => d2

def stepKvAppend (d : Dev) (cid : Nat) (c : Cmd) : Option Dev :=
  let ctx := cmdContext c
  if attached d ctx (apSeq c) then some (holdKv d ctx cid) else some (effectAppend d cid c)

/-- KV.APPEND (R316, R317, R325). -/
def execKvAppend (cid : Nat) (s : State) : Host.Outcome State Fault Refusal := onDev s (runCmd 0x0801 cid stepKvAppend)

/-! ### KV.FORK (R321, R322) -/

def fkMode (c : Cmd) : Nat := par c 0x10 1
def fkPool (c : Cmd) : Nat := par c 0x11 1
def fkSeq (c : Cmd) : Nat := par c 0x14 4
def fkLength (c : Cmd) : Nat := par c 0x18 4

/-- The layout table's entry of an id (R304). -/
def kvLayout (d : Dev) (id : Nat) : Option (List Byte) :=
  let t := tableOf d kindKv 0
  ((span 0 (t.length / 32)).map (fun k => slice t (32 * k) 32)).find? (fun e => field e 0 1 == id)

/-- The pool that KV.FORK in POOL mode makes. -/
def newPool (d : Dev) (c : Cmd) : Option KvPool :=
  (kvLayout d (par c 0x38 1)).map (fun l =>
    { layout := l, va := par c 0x20 8, pages := par c 0x28 4, seqs := par c 0x2C 4, nodes := par c 0x30 4, cup := par c 0x34 4,
      page := [], seq := [], node := [], nextNode := 0, step := 0, remap := [], toks := [] })

/-- The sequence of a handle when it belongs to a pool. -/
def seqIn (d : Dev) (ctx pool handle : Nat) : Option (Nat × KvSeq) :=
  match seqFind d ctx handle with | some (n, slot, s) => if n = pool then some (slot, s) else none | none => none

/-- A sequence can be extended through the tree: it is empty, or its last block is whole and has a node (R338). -/
def matchable (s : KvSeq) : Bool := seqLen s == 0 || (s.treePos.isSome && seqLen s % 32 == 0)

def chkKvFork (d : Dev) (c : Cmd) : Chk Unit :=
  let ctx := cmdContext c
  match smFind d.ctxs ctx with
  | none => badParam 0x08
  | some x =>
    let common := [(0x10, decide (3 < fkMode c)), (0x12, decide (1 < par c 0x12 2)), (0x11, decide (3 < fkPool c)
        || (decide (fkMode c < 3) && (smFind x.pools (fkPool c)).isNone)
        || (fkMode c == 3 && (smFind x.pools (fkPool c)).isSome))] ++ resv c.hdr 0x39 7
    let seq := seqIn d ctx (fkPool c) (fkSeq c)
    match fkMode c with
    | 0 => chkFields common
    | 1 => chkFields ([(0x14, seq.isNone),
        (0x18, match seq with | some (_, s) => decide (s.commit < fkLength c) | none => false)] ++ common)
    | 2 => chkFields ([(0x14, match seq with | some (_, s) => !matchable s | none => true)] ++ common)
    | 3 => match newPool d c with
      | none => chkFields ((0x38, true) :: (0x2C, outside 1 131072 (par c 0x2C 4)) :: (0x20, par c 0x20 8 % 65536 != 0) :: common)
      | some p => chkFields ([(0x20, par c 0x20 8 % 65536 != 0 || decide (2 ^ 52 < kvEnd p) || mapped x p.va (kvEnd p - p.va)),
          (0x2C, outside 1 131072 (par c 0x2C 4))] ++ common)
    | _ => chkFields common

/-- The places of a pool's pages, in address order (R311). -/
def poolPlaces (p : KvPool) : List Place :=
  (span (p.va / 65536) ((kvEnd p - p.va) / 65536)).map (fun g => .die (kvDie p g))

def admKvFork (d : Dev) (c : Cmd) : Chk (Cmd × Dev) :=
  let ctx := cmdContext c
  match fkMode c with
  | 3 => match newPool d c with
    | none => badParam 0x38
    | some p =>
      let part := partOfCtx d ctx
      if quotaLeft d part < kvQuota p then refused 1
      else match takeRuns d 1 (poolPlaces p) with
        | none => refused 2
        | some (fs, d1) => .ok ({ c with frames := fs, charged := kvQuota p, part := part }, charge d1 part (kvQuota p))
  | 1 =>
    if fkLength c % 32 = 0 then .ok (c, d)
    else match roomFor d ctx (fkPool c) 1 with
      | (.full, _) => refused 5
      | (_, d1) => .ok (c, d1)
  | _ => .ok (c, d)

/-- Copies the open value block at a length into the new sequence's tail: from the source's tail while the source has not
closed it, decoded from the page otherwise (R309, R324, R328; log 27). -/
def cloneTail (d : Dev) (ctx n from_ to_ len : Nat) : Dev :=
  match poolOf d ctx n with
  | none => d
  | some p =>
    if !(kvVf p).block then d
    else
      let src := (smFind p.seq from_).getD {}
      let j := len / 32
      (span 0 (kvLH p)).foldl (fun d lh =>
        if j < src.closed then reopenValue d ctx n to_ lh j src
        else poke d ctx (tailElem p to_ lh (32 * j) 0) (peek d ctx (tailElem p from_ lh (32 * j) 0) (64 * kvD p))) d

/-- A clone of a sequence up to a length, once a page is free for the copy that a length within a block needs: its handle
and the device; none: no page or no slot for it (R322, R328). -/
def cloneSeq (d : Dev) (ctx n slot : Nat) (s : KvSeq) (len : Nat) : Option (Nat × Dev) :=
  match poolOf d ctx n with
  | none => none
  | some p =>
    let keep := ceilDiv len (kvTpp p)
    let copy := len % 32 != 0
    let shared := s.pages.take (if copy then keep - 1 else keep)
    let d2 := shared.foldl (fun d pg => modPool d ctx n (fun p =>
      setPage p pg { kvPage p pg with count := (kvPage p pg).count + 1 })) d
    let made : Option (List Nat × Dev) :=
      if copy then (takeKvPage d2 ctx n).map (fun (q, d3) =>
        let d4 := copyPageBytes d3 ctx n (nth 0 s.pages (keep - 1)) q (len % kvTpp p)
        (shared ++ [q], tallyCount (modPool d4 ctx n (fun p => { p with page := smUpd p.page q (fun v => { v with fill := len }) }))
          0x3A ctx 1 srcJenorneb))
      else some (shared, d2)
    made.bind (fun (pages, d5) =>
      (newSeq d5 ctx n { version := s.version, len := [len], commit := len, pages := pages, closed := len / 32 }).map (fun (h, d6) =>
        (h, if copy then
          zeroTails (zeroPage (cloneTail d6 ctx n slot (h % 2 ^ 17) len) ctx n (nth 0 pages (keep - 1)) len len) ctx n (h % 2 ^ 17) len
        else d6)))

/-- CLONE (R322, R328). -/
def effectClone (d : Dev) (cid ctx n slot : Nat) (s : KvSeq) (len : Nat) : Dev :=
  let copy := len % 32 != 0
  match if copy then roomFor d ctx n 1 else (.ready, d) with
  | (.full, _) => endRef d cid { status := stAdmissionRefused, detail := 5 }
  | (.wait, d1) => d1
  | (.ready, d1) =>
    match cloneSeq d1 ctx n slot s len with
    | none => endOpen d cid
    | some (h, d2) => finishCmd d2 cid stOk 0 [(0x0C, 4, h), (0x10, 4, b2n copy)] none

/-- The leaves of a pool: all with MG, planes to tails readable and append windows writable by engines (R310). -/
def poolLeaf (p : KvPool) (n : Nat) (frames : List Nat) (j : Nat) : Nat × Pte :=
  let page := p.va / 65536 + j
  let win := decide (kvWinBase p ≤ 65536 * page)
  let f := nth 0 frames j
  (page, { kind := .localPage, size2m := false, r := !win, w := win, mg := true, rx := false, transit := false, target := f,
           frames := [f], slowPgs := [], tier0 := false, cupTier := false, kvPool := some n })

def effectPool (d : Dev) (cid : Nat) (c : Cmd) : Dev :=
  let ctx := cmdContext c
  match chkKvFork d c, newPool d c with
  | .error r, _ => endRef (undoReserve d cid) cid r
  | .ok _, none => endRef (undoReserve d cid) cid { status := stBadParam, detail := 0x38 }
  | .ok _, some p =>
    if !reserveReady d c then d
    else
      let leaves := (span 0 ((kvEnd p - p.va) / 65536)).map (poolLeaf p (fkPool c) c.frames)
      let d1 := modCtx (useReserve d cid) ctx (fun x =>
        { x with pools := smPut x.pools (fkPool c) p, ptes := leaves.foldl (fun m q => smPut m q.1 q.2) x.ptes })
      finishCmd d1 cid stOk 0 [(0x0C, 8, kvEnd p - p.va)] none

/-- Token ids of a payload. -/
def idsOf (bs : List Byte) : List Word := (span 0 (bs.length / 4)).map (fun k => word bs (4 * k))

def effectFork (d : Dev) (cid : Nat) (c : Cmd) : Dev :=
  let ctx := cmdContext c
  if fkMode c = 3 then effectPool d cid c
  else match chkKvFork d c with
    | .error r => endRef d cid r
    | .ok _ =>
      let n := fkPool c
      match fkMode c with
      | 0 => match newSeq d ctx n { version := word c.hdr 0x1C, publish := bit (par c 0x12 2) 0 } with
        | some (h, d1) => finishCmd d1 cid stOk 0 [(0x0C, 4, h)] none
        | none => endOpen d cid
      | 1 => match seqIn d ctx n (fkSeq c) with
        | some (slot, s) => effectClone d cid ctx n slot s (fkLength c)
        | none => d
      | _ => match seqIn d ctx n (fkSeq c) with
        | some (slot, _) =>
          let ids := (idsOf c.payload).take 1024
          let (m, slow, d1) := matchBlocks d ctx n slot ids (ids.length / 32)
          finishCmd d1 cid stOk 0 [(0x0C, 4, fkSeq c), (0x10, 4, 32 * m), (0x14, 4, seqLen (seqAt d1 ctx n slot)), (0x18, 4, slow)] none
        | none => d

def stepKvFork (d : Dev) (cid : Nat) (c : Cmd) : Option Dev :=
  let ctx := cmdContext c
  if (fkMode c == 1 || fkMode c == 2) && attached d ctx (fkSeq c) then some (holdKv d ctx cid) else some (effectFork d cid c)

/-- KV.FORK (R321, R322, R325, R338). -/
def execKvFork (cid : Nat) (s : State) : Host.Outcome State Fault Refusal := onDev s (runCmd 0x0802 cid stepKvFork)

/-! ### KV.FREE (R323 to R325) -/

def chkKvFree (d : Dev) (c : Cmd) : Chk Unit :=
  let ctx := cmdContext c
  match smFind d.ctxs ctx with
  | none => badParam 0x08
  | some x =>
    let common := [(0x10, decide (3 < fkMode c)), (0x11, decide (3 < fkPool c) || (smFind x.pools (fkPool c)).isNone)]
      ++ resv c.hdr 0x12 2 ++ resv c.hdr 0x20 32
    let seq := seqIn d ctx (fkPool c) (fkSeq c)
    match fkMode c with
    | 0 => chkFields ((0x14, seq.isNone) :: common)
    | 1 => chkFields ([(0x14, seq.isNone),
        (0x18, match seq with | some (_, s) => decide (seqLen s < fkLength c) | none => false)] ++ common)
    | _ => chkFields common

/-- Removes the nodes of a version, deepest first (R323): children are made after their parents. -/
def pruneNodes (p : KvPool) (version : Word) : Nat × KvPool :=
  let l := (p.node.filter (fun n => version == 0xFFFFFFFF#32 || n.2.version == version)).map (·.1)
  (l.length, l.reverse.foldl removeNode p)

/-- Frees a pool's sequences and nodes, then its regions; the charge of the pool ends (R310, R323). -/
def dropPool (d : Dev) (ctx n : Nat) : Dev :=
  match smFind d.ctxs ctx with
  | none => d
  | some x => match smFind x.pools n with
    | none => d
    | some p =>
      let l := x.ptes.filter (fun q => q.2.kvPool == some n)
      let d1 := modMem d (fun m => { m with waits := m.waits.filter (fun w => !(w.ctx == ctx && l.any (fun q => q.1 == w.page))) })
      let d2 := l.foldl (fun d q => unmapPage d ctx q.1) d1
      modCtx (uncharge d2 x.part (kvQuota p)) ctx (fun x => { x with pools := smErase x.pools n })

/-- A page of the pool is pinned, or used by a transfer or a move. -/
def poolHeld (d : Dev) (ctx n : Nat) : Bool :=
  match smFind d.ctxs ctx with
  | none => false
  | some x => x.ptes.any (fun q => q.2.kvPool == some n && (heldPage x q.1 q.2 || q.2.transit || inUse d ctx q.1 q.2))

def effectKvFree (d : Dev) (cid : Nat) (c : Cmd) : Dev :=
  let ctx := cmdContext c
  let n := fkPool c
  match chkKvFree d c with
  | .error r => endRef d cid r
  | .ok _ => match fkMode c with
    | 0 => match seqIn d ctx n (fkSeq c) with
      | some (slot, _) => finishCmd (freeSeq d ctx n slot) cid stOk 0 [] none
      | none => d
    | 1 => match seqIn d ctx n (fkSeq c) with
      | none => d
      | some (slot, _) => match truncateSeq d ctx n slot (fkLength c) with
        | some d1 => finishCmd d1 cid stOk 0 [(0x0C, 4, fkLength c)] none
        | none => match roomFor d ctx n 1 with
          | (.full, _) => endRef d cid { status := stAdmissionRefused, detail := 5 }
          | (_, d1) => (truncateSeq d1 ctx n slot (fkLength c)).elim d1 (fun d2 =>
              finishCmd d2 cid stOk 0 [(0x0C, 4, fkLength c)] none)
    | 2 => match poolOf d ctx n with
      | some p =>
        let (k, p1) := pruneNodes p (word c.hdr 0x1C)
        finishCmd (modPool d ctx n (fun _ => p1)) cid stOk 0 [(0x0C, 4, k)] none
      | none => d
    | _ => if poolHeld d ctx n then d else finishCmd (dropPool d ctx n) cid stOk 0 [] none

def stepKvFree (d : Dev) (cid : Nat) (c : Cmd) : Option Dev :=
  let ctx := cmdContext c
  if decide (fkMode c < 2) && attached d ctx (fkSeq c) then some (holdKv d ctx cid)
  else some (unslow ctx (fkPool c) (effectKvFree d cid c))

/-- KV.FREE (R323 to R325). -/
def execKvFree (cid : Nat) (s : State) : Host.Outcome State Fault Refusal := onDev s (runCmd 0x0803 cid stepKvFree)

/-- The effect of a held KV command at the end of its step (R334 step 3). -/
def applyHeld (d : Dev) (cid : Nat) : Dev :=
  match smFind d.cmds cid with
  | none => d
  | some c =>
    if c.fin.isSome then d
    else match opcodeC c with
      | 0x0801 => effectAppend d cid c
      | 0x0802 => effectFork d cid c
      | _ => effectKvFree d cid c

/-! ### Append windows (R319, R320) -/

/-- What becomes of an append entry. -/
inductive EntryRes where
  | done (d : Dev) | bad (d : Dev) | wait (d : Dev)
  deriving DecidableEq, Repr

/-- Applies one append entry through window w of a pool. -/
def applyEntry (d : Dev) (ctx n w : Nat) (e : List Byte) : EntryRes :=
  match poolOf d ctx n, seqIn d ctx n (field e 0 4) with
  | some p, some (slot, s) =>
    let pos := field e 4 4
    let l := field e 8 2
    let h := field e 0x0A 1
    let fl := field e 0x0B 1
    let bad := decide (kvL p ≤ l) || decide (kvH p ≤ h) || (l * kvH p + h) % 16 != w || nth 0 s.len l != pos
      || decide (1 < fl) || !zeros (slice e 0x0C 4) || !zeros (slice e 0x18 40) || decide (2 ^ 20 ≤ pos)
      || (bit fl 0 && decide (s.commit + 32 < seqLen (headDone p s pos l h)))
    if bad then .bad d
    else
      let (fresh, copy) := appendNeeds p s pos 1
      match roomWithin d ctx n (fresh + copy) with
      | (.full, d1) => .bad d1
      | (.wait, d1) => .wait d1
      | (.ready, d1) =>
        match appendOne d1 ctx n slot pos l h (bit fl 0) (BitVec.ofNat 64 (field e 0x10 8))
            (slice e 0x40 (2 * kvD p)) (slice e (0x40 + 2 * kvD p) (2 * kvD p)) with
        | none => .wait d1
        | some (d2, _) => .done (if stepBusy d2 ctx then d2 else (closeBlocks d2 ctx n slot 0 2).1)
  | _, _ => .bad d

/-- Applies the entries of a write in order: those dropped, the device after them, and what is left of the write where an entry must
wait for a page. -/
def applyEntries (ctx n w size : Nat) (d : Dev) (bs : List Byte) (dropped : Nat) : Nat → Nat × Dev × List Byte
  | 0 => (dropped, d, [])
  | fuel + 1 =>
    if bs.isEmpty then (dropped, d, [])
    else if bs.length < size then (dropped + 1, d, [])
    else match applyEntry d ctx n w (bs.take size) with
      | .wait d1 => (dropped, d1, bs)
      | .bad d1 => applyEntries ctx n w size d1 (bs.drop size) (dropped + 1) fuel
      | .done d1 => applyEntries ctx n w size d1 (bs.drop size) dropped fuel

def writeWindow (id : Nat) (d : Dev) : Dev :=
  match smFind d.xfers id with
  | none => d
  | some x => match x.kind, (smFind d.ctxs x.ctx).bind (fun k => windowAt k x.va) with
    | .toMem, some (n, w) =>
      match checkVirt d x.ctx x.va x.len .engWrite, poolOf d x.ctx n with
      | .ok _, some p =>
        let size := 64 + 4 * kvD p
        let (dropped, d1, left) := applyEntries x.ctx n w size d x.data x.dropped (x.data.length / size + 1)
        if !left.isEmpty then { d1 with xfers := smUpd d1.xfers id (fun x => { x with data := left, dropped := dropped }) }
        else if dropped = 0 then signal (dropXfer d1 id) id x x.idx
        else xferFault (dropXfer (tallyCount d1 0x39 x.ctx dropped (3000 + w)) id) id x XFER_SOURCE x.va
      | .error e, _ => if isTransit e then d else xferFault (dropXfer d id) id x XFER_SOURCE (verrVa e)
      | .ok _, none => d
    | _, _ => d

/-- APPEND_WINDOW_WRITE (R319, R320): the mangle applies the entries of the write that transfer id carries. -/
def execAppendWindowWrite (id : Nat) (s : State) : Host.Outcome State Fault Refusal := onDev s (writeWindow id)

/-! ### Heat (R339, R342) -/

/-- Halves the heat of a pool's pages when 64 steps have passed. -/
def halveHeat (p : KvPool) : KvPool :=
  if p.halved + 64 ≤ p.step then
    { p with halved := p.halved + 64, page := p.page.map (fun q => (q.1, { q.2 with heat := q.2.heat / 2 })) }
  else p

/-- KV_HEAT_HALVE (R339). -/
def execKvHeatHalve (ctx : Nat) (pool : Fin 4) (s : State) : Host.Outcome State Fault Refusal :=
  onDev s (fun d => modPool d ctx pool halveHeat)

/-- Pages of a tier, hottest first; ties to the lower page (R339). -/
def byHeat (p : KvPool) (tier : Nat) : List Nat :=
  ((p.page.filter (fun q => q.2.tier == tier && decide (q.2.state = .held))).foldl (fun l q => ins q l) []).map (·.1)
where
  /-- Inserts a page before the first colder one. -/
  ins (q : Nat × KvPage) : SMap KvPage → SMap KvPage
    | [] => [q]
    | r :: rs => if r.2.heat < q.2.heat then q :: r :: rs else r :: ins q rs

/-- The pages that the pool promotes and demotes: (page, new tier). While the quota is full, a page is promoted only when its
heat is at least twice the coldest resident's, which is then demoted. -/
def promotions (p : KvPool) : List (Nat × Nat) := go (byHeat p 1) (byHeat p 0).reverse (byHeat p 0).length
where
  /-- Hottest candidates against the coldest residents. -/
  go : List Nat → List Nat → Nat → List (Nat × Nat)
    | [], _, _ => []
    | h :: hs, cold, used =>
      if used < p.cup then (h, 0) :: go hs cold (used + 1)
      else match cold with
        | [] => []
        | c :: cs =>
          if 2 * (kvPage p c).heat ≤ (kvPage p h).heat then (c, 1) :: (h, 0) :: go hs cs used else []

/-- Copies the planes of a KV page to a tier and switches the mapping (R339, R342); unchanged when frames lack. -/
def retier (ctx n pg tier : Nat) (d : Dev) : Dev :=
  match smFind d.ctxs ctx, poolOf d ctx n with
  | some x, some p =>
    let first := planeVa p pg 0 / 65536
    let places := (span 0 (kvLH p)).map (fun lh => match smFind x.ptes (first + lh) with
      | some q => defaultPlace d x (first + lh) q tier
      | none => .die 0)
    if (span 0 (kvLH p)).any (fun lh => match smFind x.ptes (first + lh) with
        | some q => q.transit || decide (q.kind ≠ .localPage) || inUse d ctx (first + lh) q | none => true) then d
    else match takeRuns d 1 places with
      | none => d
      | some (fs, d1) =>
        if fs.any (fun f => !rinsed d1 f) then d
        else
          let d2 := fs.zipIdx.foldl (fun d f => match smFind x.ptes (first + f.2) with
            | none => d
            | some q =>
              let (bs, d0) := copiedBytes d q.frames
              let d1 := putFrames d0 [f.1] bs
              freeFrames (setPte d1 ctx (first + f.2) { q with target := f.1, frames := [f.1] }) q.frames) d1
          modPool d2 ctx n (fun p => { p with page := smUpd p.page pg (fun v => { v with tier := tier }) })
  | _, _ => d

/-- Switches the mappings prepared during a step (R334 step 5, R342). -/
def switchMaps (d : Dev) (ctx n : Nat) : Dev :=
  match poolOf d ctx n with
  | none => d
  | some p => p.remap.foldl (fun d r => retier ctx n r.1 r.2 d) (modPool d ctx n (fun p => { p with remap := [] }))

/-- Switches the mappings of the copies made during a step (R334 step 5, R342). -/
def switchMoves (d : Dev) (ctx : Nat) : Dev :=
  (d.mem.moves.filter (fun m => m.ctx == ctx && m.copied)).foldl (fun d m => endMove ctx m.page d) d

/-- KV_HOT_PROMOTE (R339, R342): while a step is in flight the mappings are prepared, and switched at its end. -/
def execKvHotPromote (ctx : Nat) (pool : Fin 4) (s : State) : Host.Outcome State Fault Refusal :=
  onDev s (fun d => match poolOf d ctx pool with
    | none => d
    | some p =>
      if p.step < p.promoted + 16 then d
      else
        let l := (promotions p).filter (fun r => !appendedInStep d ctx pool r.1)
        let d1 := modPool d ctx pool (fun p => { p with remap := l, promoted := p.promoted + 16 })
        if stepBusy d ctx then d1 else switchMaps d1 ctx pool)

end Sys2Proof.Machine
end

