-- ==== Sys2Proof/Machine/Prog.lean ====
section
/-! DEFINITION. PROG.LOAD and PROG.LAUNCH (06 R235 to R242). `info` of a PROG.LAUNCH holds its launch. -/

namespace Sys2Proof.Machine

/-! ### Rates (13 R525, R528) -/

/-- Sixteenths of the rate of a compute or memory-side die: compute die c is c, memory-side die m is 8 + m (R525). -/
def rate16 (d : Dev) (rdie : Nat) : Nat := 16 - smGet 0 d.gov.rate rdie

/-- Least rate over a context's engines, in sixteenths. -/
def ctxRate (d : Dev) (x : Ctx) : Nat := ((span 0 x.engCount).map (fun i => rate16 d (physEngine d x i / 12))).foldl min 16

/-! ### PROG.LOAD (R235 to R238) -/

def plVa (c : Cmd) : Nat := par c 0x10 8
def plLen (c : Cmd) : Nat := par c 0x18 4
def plSlot (c : Cmd) : Nat := par c 0x1C 1

def chkProgLoad (d : Dev) (c : Cmd) : Chk Unit :=
  match smFind d.ctxs (cmdContext c) with
  | none => badParam 0x08
  | some x => chkFields ([(0x10, !rangeOk x (plVa c) (plLen c) false), (0x18, decide (plLen c < 80) || decide (64 + 16 * 32768 < plLen c)
      || plLen c % 16 != 0), (0x1C, decide (63 < plSlot c))] ++ resv c.hdr 0x1D 35)

/-- RESULT of LANES_MISMATCH: recorded lanes and engines, and the target's (05 R186). -/
def lanesResult (lanes engines target : Nat) : List (Nat × Nat × Nat) :=
  [(0x0C, 4, lanes), (0x10, 4, engines), (0x14, 4, 256), (0x18, 4, target)]

/-- Checks of the image itself (R235, R237): a field of the image is named by IMAGE_VA. -/
def chkImage (d : Dev) (x : Ctx) (c : Cmd) (img : List Byte) : Chk Unit :=
  let n := field img 0x10 4
  let used := ((x.progs.filter (fun p => p.1 != plSlot c)).map (fun p => p.2.words.length)).sum
  if field img 0 4 ≠ 0x4E4F4547 ∨ field img 4 2 ≠ 1 ∨ 1 < field img 6 2 ∨ outside 1 32768 n ∨ n ≤ field img 0x14 4 then badParam 0x10
  else if plLen c ≠ 64 + 16 * n then badParam 0x18
  else if field img 6 2 = 1 ∧ field img 8 4 ≠ 256 then
    .error { status := stLanesMismatch, detail := 1, result := lanesResult (field img 8 4) (field img 0x0C 4) x.engCount }
  else if x.istore < used + n then refusedOpen d
  else .ok ()

/-- A running launch of the context uses the slot (R238). -/
def slotRuns (d : Dev) (ctx slot : Nat) : Bool :=
  d.launches.any (fun z => z.2.ctx == ctx && z.2.slot == slot && decide (z.2.state = .running ∨ z.2.state = .preempted))

def stepProgLoad (d : Dev) (cid : Nat) (c : Cmd) : Option Dev :=
  let ctx := cmdContext c
  match smFind d.ctxs ctx with
  | none => some (finishCmd d cid stCancelled 0 [] none)
  | some x =>
    if slotRuns d ctx (plSlot c) then some d
    else match chkProgLoad d c with
      | .error r => some (endRef d cid r)
      | .ok _ =>
        let (here, d1) := bringIn d cid c [(plVa c, plLen c, false)]
        if !here then some d1
        else match readVirt d1 ctx (plVa c) (plLen c) .any with
          | .error e => some (memError d1 cid ctx (verrVa e))
          | .ok img => match chkImage d1 x c img with
            | .error r => some (endRef d1 cid r)
            | .ok _ =>
              let n := field img 0x10 4
              let p : Prog := { hdr := slice img 0 64, words := (span 0 n).map (fun k => BitVec.ofNat 128 (field img (64 + 16 * k) 16)) }
              some (finishCmd (modCtx d1 ctx (fun x => { x with progs := smPut x.progs (plSlot c) p })) cid stOk 0 [(0x0C, 4, n)] none)

/-- PROG.LOAD (R235 to R238). -/
def execProgLoad (cid : Nat) (s : State) : Host.Outcome State Fault Refusal := onDev s (runCmd 0x0501 cid stepProgLoad)

/-! ### PROG.LAUNCH (R239 to R242) -/

def lhSlot (c : Cmd) : Nat := par c 0x10 1
def lhMode (c : Cmd) : Nat := par c 0x11 1
def lhFirst (c : Cmd) : Nat := par c 0x12 1
def lhCount (c : Cmd) : Nat := par c 0x13 1

/-- Conditions under which a program may be launched on engines of a context (R240). -/
def chkRun (d : Dev) (x : Ctx) (slot count : Nat) : Chk Unit :=
  match smFind x.progs slot with
  | none => .ok ()
  | some p =>
    if field p.hdr 6 2 = 1 ∧ field p.hdr 0x0C 4 ≠ count then
      .error { status := stLanesMismatch, detail := 2, result := lanesResult (field p.hdr 8 4) (field p.hdr 0x0C 4) count }
    else if 65536 * x.basket < field p.hdr 0x18 4 ∨ x.tiles + x.ttiles < field p.hdr 0x1C 2 then refusedOpen d
    else .ok ()

def chkProgLaunch (d : Dev) (c : Cmd) : Chk Unit := do
  match smFind d.ctxs (cmdContext c) with
  | none => badParam 0x08
  | some x =>
    chkFields ([(0x10, decide (63 < lhSlot c) || (smFind x.progs (lhSlot c)).isNone),
      (0x11, decide (1 < lhMode c) || (lhMode c == 1 && !x.stopped)),
      (0x12, decide (x.engCount ≤ lhFirst c)),
      (0x13, lhCount c == 0 || decide (x.engCount < lhFirst c + lhCount c))] ++ resv c.hdr 0x18 8)
    chkRun d x (lhSlot c) (lhCount c)

/-- T_switch in nanoseconds with the greatest P and T that the residents of a partition allow, the context counted, and other curve
tables (R513). -/
def switchNs (d : Dev) (ctx part : Nat) : Nat :=
  let l := d.ctxs.filter (fun c => c.2.part == part && (decide (c.2.state = .resident) || c.1 == ctx))
  1500 + 50 * 128 + 200 * min 128 ((l.map (fun c => c.2.ttiles)).foldl max 0) + 4000

/-- T_switch of a step of a context: none where no other context of its partition is resident (R513, 09 R361; log 34). -/
def stepSwitchNs (d : Dev) (ctx part : Nat) : Nat :=
  if d.ctxs.any (fun c => c.1 != ctx && c.2.part == part && decide (c.2.state = .resident)) then switchNs d ctx part else 0

/-- Hub µs that CYCLES_MAX bounds, at the rate of the present window, with one switch (R65, R513, R525); none: no bound. -/
def launchCost (d : Dev) (ctx : Nat) (x : Ctx) (slot : Nat) : Option Nat :=
  match smFind x.progs slot with
  | none => none
  | some p =>
    let n := field p.hdr 0x20 4
    if n = 0 then none else some (ceilDiv (16 * n) (800 * max 1 (ctxRate d x)) + ceilDiv (switchNs d ctx x.part) 1000)

def launchCmdCost (d : Dev) (c : Cmd) : Option Nat :=
  (smFind d.ctxs (cmdContext c)).bind (fun x => launchCost d (cmdContext c) x (lhSlot c))

/-- A new launch of a context (R239, 13 R508). -/
def mkLaunch (d : Dev) (ctx : Nat) (purpose : LaunchFor) (slot first count : Nat) (args : List Word) (resume : Bool)
    (watchdog : Nat) (due : Option Nat) (cls : Nat) : Launch :=
  { ctx := ctx, purpose := purpose, slot := slot, engFirst := first, engCount := count, args := args, resume := resume,
    cls := cls, due := due, arrived := d.now, state := .waiting, started := 0, watchdog := watchdog, fault := none,
    wasted := 0, sliceFrom := 0, pstat0 := 0, nonfin := 0, most := 0 }

/-- A candidate of a demoted context is noted (13 R518). -/
def noteWant (d : Dev) (ctx : Nat) : Dev :=
  modCtx d ctx (fun x => if x.state = .resident then x else { x with wantAt := some (x.wantAt.getD d.now) })

/-- Adds a launch and notes what its context wants. -/
def queueLaunch (d : Dev) (z : Launch) : Nat × Dev := let (k, d1) := addLaunch d z; (k, noteWant d1 z.ctx)

def stepProgLaunch (d : Dev) (cid : Nat) (c : Cmd) : Option Dev :=
  let ctx := cmdContext c
  if !c.info.isEmpty then some d
  else match chkProgLaunch d c with
    | .error r => some (endRef d cid r)
    | .ok _ =>
      let args := (span 0 8).map (fun k => word c.hdr (0x20 + 4 * k))
      let z := mkLaunch d ctx (.prog cid) (lhSlot c) (lhFirst c) (lhCount c) args (lhMode c == 1) (par c 0x14 4) (deadlineOf c)
        (if cmdDeadline c = 0 then 2 else 1)
      let (k, d1) := queueLaunch (modCtx d ctx (fun x => { x with stopped := false, stopLaunch := none, imgLaunch := [] })) z
      some (modCmd d1 cid (fun c => { c with info := [k] }))

/-- PROG.LAUNCH (R239 to R242): its launch becomes a candidate, and the command ends with it. -/
def execProgLaunch (cid : Nat) (s : State) : Host.Outcome State Fault Refusal := onDev s (runCmd 0x0502 cid stepProgLaunch)

end Sys2Proof.Machine
end

