-- ==== Sys2Proof/Machine/SchedOps.lean ====
section
/-! DEFINITION. What the step scheduler and the budget governor compute: shares, rates, energies and costs of moves
(07 R277; 13 R508 to R531). -/

namespace Sys2Proof.Machine

/-! ### Shares (R509) -/

/-- WEIGHTs of the resident contexts of a partition, the context itself counted. -/
def shareDen (d : Dev) (ctx part : Nat) : Nat :=
  ((d.ctxs.filter (fun c => c.2.part == part && (decide (c.2.state = .resident) || c.1 == ctx))).map (fun c => c.2.weight)).sum

/-- Engine time over the present and the 15 previous windows. -/
def engTime16 (x : Ctx) : Nat := (x.engTime.take 16).sum

/-! ### The budget table (R527, R528, R530) -/

/-- The budget table in force. -/
def budget (d : Dev) : List Byte := let t := tableOf d kindBudget 0; if t.isEmpty then budgetDefault else t

def pLimit (t : List Byte) : Nat := field t 0 2
def throttleC (t : List Byte) : Nat := field t 2 1
def hystC (t : List Byte) : Nat := field t 3 1
def heatMargin (t : List Byte) : Nat := field t 4 1

/-- A finite, non-negative fp32 value times 2^149, exactly. -/
def fx (w : Nat) : Nat := if bits w 30 23 = 0 then w % 2 ^ 23 else (2 ^ 23 + w % 2 ^ 23) * 2 ^ (bits w 30 23 - 1)

/-- The unit of `fx`. -/
def fxOne : Nat := 2 ^ 149

def budgetLoss (t : List Byte) : Nat := fx (field t 8 4)
def rowStatic (t : List Byte) (r : Nat) : Nat := fx (field t (0x10 + 16 * r) 4)
def rowFull (t : List Byte) (r : Nat) : Nat := fx (field t (0x14 + 16 * r) 4)
def rowUnit (t : List Byte) (r : Nat) : Nat := fx (field t (0x18 + 16 * r) 4)
def rowScaled (t : List Byte) (r : Nat) : Bool := bit (field t (0x1C + 16 * r) 4) 0

/-- k of the power rate of a budget table, evaluated exactly (R528). -/
def powerRate (t : List Byte) : Nat :=
  let rows := span 0 7
  let base := ((rows.map (fun r => if rowScaled t r then rowStatic t r else rowFull t r)).sum : Nat)
  let room := ((rows.map (fun r => if rowScaled t r then rowFull t r - rowStatic t r else 0)).sum : Nat)
  let den : Nat := room * (fxOne + budgetLoss t)
  let num : Int := (pLimit t * fxOne * fxOne : Nat) - ((base * (fxOne + budgetLoss t) : Nat) : Int)
  if den = 0 then (if 0 ≤ num then 16 else 1)
  else max 1 (min 16 ((65536 * num + den) / (4096 * den : Nat)).toNat)

/-- E_rem at the start of a window, in pJ (R530). -/
def windowEnergy (t : List Byte) : Int :=
  let st := ((span 0 7).map (rowStatic t)).sum
  ((pLimit t * fxOne * fxOne : Nat) - (((fxOne + budgetLoss t) * st : Nat) : Int)) * 1000000000 / (fxOne * fxOne : Nat)

/-- E_est of a program slot on some engines, in pJ (R530): of a first launch, the full-rate energy of rows 0 and 2. -/
def energyEst (d : Dev) (x : Ctx) (slot count : Nat) : Nat :=
  match smGet [] x.eest slot with
  | [] =>
    let t := budget d
    let n := match smFind x.progs slot with | some p => field p.hdr 0x20 4 | none => 0
    let cycles := if n = 0 then 800000 else n
    count * cycles * (rowUnit t 0 + rowUnit t 2) * (fxOne + budgetLoss t) * 1000000000000 / (fxOne * fxOne)
  | l => 1000 * l.foldl max 0

/-- The SDIE numbers of the compute dies that a launch's engines use (15 R554). -/
def diesUsed (d : Dev) (x : Ctx) (first count : Nat) : List Nat :=
  ((span first count).map (fun i => physEngine d x i / 12)).eraseDups

/-- The energy and heat test of a class-2 candidate (R531). -/
def energyOk (d : Dev) (x : Ctx) (slot first count : Nat) : Bool :=
  let t := budget d
  decide (((energyEst d x slot count : Nat) : Int) ≤ windowEnergy t - d.gov.spent)
    && (diesUsed d x first count).all (fun c => decide (smGet 0 d.gov.temps c + 4 * heatMargin t < 4 * throttleC t))

/-- Some compute die of the context is throttled (R533). -/
def throttledNow (d : Dev) (x : Ctx) : Bool := (diesUsed d x 0 x.engCount).any (fun c => smGet 0 d.gov.thermal c != 0)

/-- A refold of the context runs, from its START to its final record: batch steps and launches of the context wait (11 R454). -/
def refolding (d : Dev) (ctx : Nat) : Bool :=
  d.colls.live.any (fun k => k.2.op == 0x10 && k.2.ctx == ctx && k.2.cid.isSome && decide (k.2.phase ≠ .waiting))

/-! ### The cost of moves (07 R277) -/

/-- 1,024 L, in GB/s: the usable rate of the host link by its width and rate (17 R606). -/
def linkRate (d : Dev) : Nat := (if d.host.ide then 118 else 121) * d.host.width * d.host.gts

/-- Nanoseconds, rounded up, to move a number of bytes at the lesser of a rate in GB/s and L. -/
def moveNs (d : Dev) (bytes rate : Nat) : Nat := ceilDiv (1024 * bytes) (max 1 (min (1024 * rate) (linkRate d)))

/-- Hub µs, rounded up, to move pool pages to or from the slower tier, each at the rate of its range, and other bytes at the rate of
the first. -/
def tMoveWith (d : Dev) (part : Nat) (ks : List Nat) (more : Nat) : Nat :=
  let rate (k : Nat) : Nat := match (partOf d part).bind (fun p => poolRange p k) with | some (r, _) => r.rate | none => 1
  let rates := (ks.map rate).eraseDups
  let bytes (r : Nat) : Nat := 65536 * (ks.filter (fun k => rate k == r)).length + (if rates.head? = some r then more else 0)
  2 + ceilDiv ((rates.map (fun r => moveNs d (bytes r) r)).sum) 1000

def tMove (d : Dev) (part : Nat) (ks : List Nat) : Nat := tMoveWith d part ks 0

end Sys2Proof.Machine
end

