-- ==== Sys2Proof/Machine/WeightOps.lean ====
section
/-! DEFINITION. Weight sets, versions and their pins, the boundary of a context, and the loss statistics (12 R459 to R466, R475,
R476, R488). -/

namespace Sys2Proof.Machine

/-! ### The weight-set table (R459) -/

def wEntries (d : Dev) : List (List Byte) :=
  let t := tableOf d kindWeights 0
  (span 0 (t.length / 128)).map (fun k => slice t (128 * k) 128)

def wEntry (d : Dev) (w : Nat) : Option (List Byte) := (wEntries d).find? (fun e => field e 0 1 == w)

def weContext (e : List Byte) : Nat := field e 1 1
def weSlots (e : List Byte) : Nat := field e 2 1
def weGroup (e : List Byte) : Nat := field e 3 1
def weBytes (e : List Byte) : Nat := field e 8 8
def weSlotVa (e : List Byte) (s : Nat) : Nat := field e (0x10 + 8 * s) 8
def weMasterVa (e : List Byte) (b : Nat) : Nat := field e (0x30 + 8 * b) 8
def weMasterBytes (e : List Byte) : Nat := field e 0x40 8
def weMirrorVa (e : List Byte) (b : Nat) : Nat := field e (0x48 + 8 * b) 8
def weMirror (e : List Byte) : Nat := field e 0x58 2
def weGrowth (e : List Byte) : Nat := field e 0x5A 2
def weScaleMin (e : List Byte) : Word := word e 0x60
def weScaleMax (e : List Byte) : Word := word e 0x64
def weWarmup (e : List Byte) : Nat := field e 0x68 2
def weSpikeK (e : List Byte) : Word := word e 0x6C
def weAlpha (e : List Byte) : Word := word e 0x70

/-- The weight set of a command's context that it names (R459). -/
def wOfCmd (d : Dev) (c : Cmd) (w : Nat) : Option (List Byte) :=
  (wEntry d w).bind (fun e => if weContext e = cmdContext c then some e else none)

/-! ### Registries (R460 to R464) -/

def wset (d : Dev) (w : Nat) : WSet := smGet {} d.weights.sets w

def modWset (d : Dev) (w : Nat) (f : WSet → WSet) : Dev :=
  { d with weights := { d.weights with sets := smPut d.weights.sets w (f (wset d w)) } }

def wslot (v : WSet) (s : Nat) : WSlot := nth {} v.slots s

def modWSlot (d : Dev) (w s : Nat) (f : WSlot → WSlot) : Dev :=
  modWset d w (fun v => { v with slots := setNth v.slots s (f (wslot v s)) })

/-- The registry that loading an entry gives: every slot FREE, the loss scale SCALE0 (R460). -/
def freshWset (e : List Byte) : WSet := { slots := List.replicate (weSlots e) {}, scale := word e 0x5C }

def noVersion : Word := 0xFFFFFFFF#32

/-- The successor of a version (R461). -/
def nextVersion (v : Word) : Word := if v = 0xFFFFFFFE#32 then 0 else v + 1

/-- Serial-number order of versions (R461). -/
def serialLt (a b : Word) : Bool := a != b && decide ((b - a).toNat < 2 ^ 31)

/-- The LIVE slot (R462); one that has been released keeps its state while it is pinned. -/
def liveSlot (v : WSet) : Option Nat := v.slots.findIdx? (fun s => decide (s.state = .live) && !s.released)

def liveVersion (v : WSet) : Word := match liveSlot v with | some s => (wslot v s).version | none => noVersion

/-- The slot that holds a version and has not been released. -/
def verSlot (v : WSet) (ver : Word) : Option Nat :=
  v.slots.findIdx? (fun s => decide (s.state ≠ .free) && s.version == ver && !s.released)

def slotState (v : WSet) (ver : Word) : WState := match verSlot v ver with | some s => (wslot v s).state | none => .free

def pinsOf (s : WSlot) : Nat := s.serve + s.step + s.coll

/-- A SERVE or STEP pin is accepted (R465). -/
def pinOk (s : WSlot) : Bool := decide (s.state = .committed ∨ s.state = .live ∨ s.state = .held) && !s.released

/-- A COLL pin is accepted (R465). -/
def collPinOk (s : WSlot) : Bool := pinOk s || (decide (s.state = .staging ∨ s.state = .ready) && !s.released)

/-- Released slots of a context whose pins are zero become FREE, unless a batch step of it is in flight (R462). -/
def freeReleased (d : Dev) (w : Nat) : Dev :=
  match wEntry d w with
  | none => d
  | some e =>
    if stepBusy d (weContext e) then d
    else modWset d w (fun v => { v with slots := v.slots.map (fun s => if s.released && pinsOf s == 0 then {} else s) })

/-- Releases a slot (R462): it is FREE at once without pins. -/
def releaseSlot (d : Dev) (w s : Nat) : Dev := freeReleased (modWSlot d w s (fun v => { v with released := true })) w

inductive PinKind where
  | serve | step | coll
  deriving DecidableEq, Repr

def pin (d : Dev) (w s : Nat) (k : PinKind) : Dev :=
  modWSlot d w s (fun v => match k with
    | .serve => { v with serve := v.serve + 1 } | .step => { v with step := v.step + 1 } | .coll => { v with coll := v.coll + 1 })

/-- Drops a pin of a version: of its slot, released or not (R465). -/
def unpin (d : Dev) (w : Nat) (ver : Word) (k : PinKind) : Dev :=
  match (wset d w).slots.findIdx? (fun s => decide (s.state ≠ .free) && s.version == ver) with
  | none => d
  | some s => freeReleased (modWSlot d w s (fun v => match k with
      | .serve => { v with serve := v.serve - 1 } | .step => { v with step := v.step - 1 } | .coll => { v with coll := v.coll - 1 })) w

/-- The version becomes live: the live one becomes HELD or is released (R464, R488). -/
def switchNow (d : Dev) (w s : Nat) (hold : Bool) : Dev :=
  let d1 := match liveSlot (wset d w) with
    | none => d
    | some o => if o = s then d else if hold then modWSlot d w o (fun v => { v with state := .held }) else releaseSlot d w o
  modWSlot d1 w s (fun v => { v with state := .live })

/-- A switch takes effect at a boundary (R464, R491); a version that has left COMMITTED and HELD meanwhile stays as it is (log 53). -/
def applyOne (w : Nat) (d : Dev) (p : Word × Bool × Option Nat) : Dev :=
  let v := wset d w
  let end_ (d : Dev) (status detail : Nat) : Dev := match p.2.2 with | some c => finishCmd d c status detail [] none | none => d
  match verSlot v p.1 with
  | some s => if (wslot v s).state = .committed ∨ (wslot v s).state = .held ∨ (wslot v s).state = .live then
      end_ (switchNow d w s p.2.1) stOk 0 else end_ d stBadParam 0x14
  | none => end_ d stBadParam 0x14

/-- The switches that wait take effect at a boundary, in order (R464, R491). -/
def applySwitch (d : Dev) (w : Nat) : Dev :=
  (wset d w).pending.foldl (applyOne w) (modWset d w (fun v => { v with pending := [] }))

/-- The weight sets of a context. -/
def setsOf (d : Dev) (ctx : Nat) : List Nat := ((wEntries d).filter (fun e => weContext e == ctx)).map (fun e => field e 0 1)

/-- A boundary of a context: pending switches take effect and released versions without pins become FREE (R462, R464). -/
def weightBoundary (d : Dev) (ctx : Nat) : Dev := (setsOf d ctx).foldl (fun d w => freeReleased (applySwitch d w) w) d

/-! ### Loss scale and loss statistics (R475, R476) -/

/-- Runs fp32 arithmetic whose flags nobody keeps. Jenorneb's own keeps subnormals: SUBN is for engines and mangles (03 R100). -/
def quiet {α : Type} (m : FlagM α) : α := (runFlags m).1

/-- An integer as fp32, rounded to nearest even. -/
def f32OfNat (n : Nat) : Word := quiet (rne32 false (.fin false n 1 0))

/-- The spike test (R476). -/
def spikes (e : List Byte) (v : WSet) (loss : Word) : Bool :=
  decide (weWarmup e ≤ v.commits) && quiet (do
    let a ← fmul false (weSpikeK e) v.dev
    let t ← fadd false v.mean a
    return vlt (decodeElem 0 t.toNat) (decodeElem 0 loss.toNat))

/-- The loss of an iteration: Σ ℓ × tokens / Σ tokens over its OK steps with LOSS, in STEP_ID order (R476). -/
def iterLoss (v : WSet) : Option Word :=
  let l := v.iter.filter (fun p => p.2.state == 3 && p.2.hasLoss)
  if l.isEmpty then none
  else some (quiet (do
    let s ← l.foldlM (fun (acc : Word × Word) p => do
      let t := f32OfNat p.2.tokens.toNat
      let x ← fmul false p.2.loss t
      let a ← fadd false acc.1 x
      let b ← fadd false acc.2 t
      return (a, b)) (0, 0)
    fdiv false s.1 s.2))

/-- MEAN and DEV after a COMMIT decision (R476). -/
def lossStats (e : List Byte) (v : WSet) : WSet :=
  match iterLoss v with
  | none => v
  | some l =>
    if v.commits = 0 then { v with mean := l }
    else quiet (do
      let diff ← fsub false l v.mean
      let mag ← fabs false diff
      let dd ← fsub false mag v.dev
      let sd ← fmul false (weAlpha e) dd
      let dev ← fadd false v.dev sd
      let sm ← fmul false (weAlpha e) diff
      let mean ← fadd false v.mean sm
      return { v with mean := mean, dev := dev })

/-- The counters after a COMMIT decision: GOOD, COMMITS and the scale (R475). -/
def commitScale (e : List Byte) (v : WSet) : WSet :=
  let good := v.good + 1
  let commits := v.commits + 1
  if good = weGrowth e then
    let s := quiet (fadd false v.scale v.scale)
    { v with good := 0, commits := commits, scale := if (weScaleMax e).toNat < s.toNat then weScaleMax e else s }
  else { v with good := good, commits := commits }

/-- The scale after an ABORT decision with NF_ANY (R475); positive fp32 values compare as their bits. -/
def abortScale (e : List Byte) (v : WSet) : WSet :=
  let s := quiet (fmul false v.scale 0x3F000000#32)
  { v with good := 0, scale := if s.toNat < (weScaleMin e).toNat then weScaleMin e else s }

/-- A COMMIT decision on this member (R475, R476, R488): the version is COMMITTED, MPAR toggles and the iteration record is
cleared; with SWITCH the version becomes live at the next boundary. A version that is COMMITTED or LIVE already stays. -/
def commitDecision (d : Dev) (w : Nat) (ver : Word) (switch hold : Bool) : Dev :=
  match wEntry d w with
  | none => d
  | some e =>
    let v := wset d w
    let st := slotState v ver
    let changes := decide (st = .staging ∨ st = .ready ∨ st = .failed ∨ st = .doubt)
    let d1 := modWset d w (fun v =>
      let v1 := if changes then commitScale e (lossStats e v) else v
      { v1 with decided := ver, outcome := 1, outDetail := 0, committed := ver, mpar := if changes then 1 - v1.mpar else v1.mpar,
                iter := [] })
    match verSlot v ver with
    | none => d1
    | some s =>
      let d2 := if changes then modWSlot d1 w s (fun x => { x with state := .committed, reason := 0 }) else d1
      if switch ∧ st ≠ .live then modWset d2 w (fun v => { v with pending := v.pending ++ [(ver, hold, none)] }) else d2

/-- An ABORT decision on this member (R475, R476, R488). -/
def abortDecision (d : Dev) (w : Nat) (ver : Word) (detail : Nat) (nfAny : Bool) : Dev :=
  match wEntry d w with
  | none => d
  | some e =>
    let v := wset d w
    let st := slotState v ver
    let changes := decide (st = .staging ∨ st = .ready ∨ st = .failed ∨ st = .doubt)
    let d1 := modWset d w (fun v =>
      let v1 := if nfAny && changes then abortScale e v else v
      { v1 with decided := ver, outcome := 2, outDetail := detail, iter := [] })
    let d2 := if nfAny && (wset d1 w).scale != v.scale then tallyCount d1 0x5A (weContext e) 1 srcJenorneb else d1
    match verSlot v ver with
    | some s => if changes then modWSlot d2 w s (fun _ => {}) else d2
    | none => d2

/-- The version that fails: FAILED with its reason (R462). -/
def failVersion (d : Dev) (w : Nat) (ver : Word) (reason : Nat) : Dev :=
  match verSlot (wset d w) ver with
  | none => d
  | some s => modWSlot d w s (fun x => { x with state := .failed, reason := reason })

/-! ### Weight versions of serving models -/

/-- The weight set of a serving model: that of its context in one of whose slots its weights lie (log 30). -/
def setOfRange (d : Dev) (ctx va : Nat) : Option Nat :=
  ((wEntries d).find? (fun e => weContext e == ctx && (span 0 (weSlots e)).any (fun s =>
    decide (weSlotVa e s ≤ va) && decide (va < weSlotVa e s + weBytes e)))).map (fun e => field e 0 1)

end Sys2Proof.Machine
end

