-- ==== Sys2Proof/Machine/Weights.lean ====
section
/-! DEFINITION. Learning steps and their tokens; staging, aborting, switching and querying weight versions (12 R467 to R494).
`info` of a WEIGHTS.STAGE UPDATE: [1] its pieces run, [2] they are done, [3, va] one met an error, [4] its mirror writes go
out, `progress` of them sent. `info` of a WEIGHTS.ABORT or WEIGHTS.QUERY: [1] once it waits. -/

namespace Sys2Proof.Machine

/-! ### Messages between parts (10 R400) -/

/-- A CTRL message to another part: its payload's first byte says what it is (log 32). -/
def sendMsg (d : Dev) (dst ctx tag : Nat) (data : List Byte) : Dev :=
  sendOrDrop d (mkPacket d dst pkMsg ctx tag 0 data.length data)

/-- The other parts of the node, in member order (10 R408). -/
def nodePeers (d : Dev) : List Nat :=
  let n := nodeSize d
  let me := myId d
  (span 0 n).filterMap (fun k => let p := me / 4096 * 4096 + me % 4096 / n * n + k; if p = me then none else some p)

/-! ### Tokens (R473) -/

def tokenCount (d : Dev) (ctx : Nat) (t : Word) : Nat := smGet 0 d.weights.tokens (2 ^ 32 * ctx + t.toNat)

def setTokens (d : Dev) (ctx : Nat) (t : Word) (n : Nat) : Dev :=
  { d with weights := { d.weights with tokens := smSet 0 d.weights.tokens (2 ^ 32 * ctx + t.toNat) n } }

/-- A token arrives in a context; one that is full, or does not exist, drops it. -/
def tokenArrives (d : Dev) (ctx : Nat) (t : Word) : Dev :=
  let held := (d.weights.tokens.filter (fun p => p.1 / 2 ^ 32 == ctx)).length
  if (smFind d.ctxs ctx).isNone || (tokenCount d ctx t == 0 && decide (4096 ≤ held)) then tallyCount d 0x50 ctx 1 srcJenorneb
  else setTokens d ctx t (tokenCount d ctx t + 1)

/-- STEP_TOKEN_ARRIVE (R473). -/
def execStepTokenArrive (ctx : Nat) (token : BitVec 32) (s : State) : Host.Outcome State Fault Refusal :=
  onDev s (fun d => tokenArrives d ctx token)

/-! ### STEP.RUN (R467 to R474) -/

def srSlot (c : Cmd) : Nat := par c 0x10 1
def srWset (c : Cmd) : Nat := par c 0x11 1
def srPrio (c : Cmd) : Nat := par c 0x12 1
def srHealth (c : Cmd) : Bool := bit (par c 0x13 1) 0
def srLoss (c : Cmd) : Bool := bit (par c 0x13 1) 1
def srIter (c : Cmd) : Bool := bit (par c 0x13 1) 2
def srId (c : Cmd) : Nat := par c 0x18 2
def srFirst (c : Cmd) : Nat := par c 0x1A 1
def srCount (c : Cmd) : Nat := par c 0x1B 1
def srWait0 (c : Cmd) : Word := word c.hdr 0x20
def srWait1 (c : Cmd) : Word := word c.hdr 0x24
def srReport (c : Cmd) : Nat := par c 0x30 8

/-- The notify entries: device, context and token (R467). -/
def srNotes (c : Cmd) : List (Nat × Nat × Word) :=
  (span 0 ((c.payload.length - 32) / 8)).map (fun k =>
    (field c.payload (32 + 8 * k) 2 % 2 ^ 13, field c.payload (34 + 8 * k) 1, word c.payload (36 + 8 * k)))

/-- The version that a STEP.RUN pins. -/
def srVersion (d : Dev) (c : Cmd) : Word :=
  let v := word c.hdr 0x14
  if v = noVersion then liveVersion (wset d (srWset c)) else v

def chkStepRun (d : Dev) (c : Cmd) : Chk Unit := do
  match smFind d.ctxs (cmdContext c) with
  | none => badParam 0x08
  | some x =>
    let v := wset d (srWset c)
    let own := (wOfCmd d c (srWset c)).isSome
    let ver := srVersion d c
    let slot := verSlot v ver
    let notes := (srNotes c).zipIdx.flatMap (fun q =>
      [(0x60 + 8 * q.2, decide (2 ^ 13 ≤ field c.payload (32 + 8 * q.2) 2) || !inJob d q.1.1),
       (0x63 + 8 * q.2, field c.payload (35 + 8 * q.2) 1 != 0), (0x64 + 8 * q.2, q.1.2.2 == 0#32)])
    chkFields ([(0x0A, decide (c.payload.length < 32) || c.payload.length % 8 != 0 || decide (96 < c.payload.length)),
      (0x10, decide (63 < srSlot c) || (smFind x.progs (srSlot c)).isNone), (0x11, !own), (0x12, decide (3 < srPrio c)),
      (0x13, decide (7 < par c 0x13 1)),
      (0x14, own && ((match slot with | some s => !pinOk (wslot v s) | none => true) || (srIter c && ver != v.committed))),
      (0x18, if srIter c then decide (4095 < srId c) || decide ((smGet {} v.iter (srId c)).state = 1 ∨ (smGet {} v.iter (srId c)).state = 2)
             else srId c != 0),
      (0x1A, decide (x.engCount ≤ srFirst c)), (0x1B, srCount c == 0 || decide (x.engCount < srFirst c + srCount c)),
      (0x20, cmdDeadline c != 0 && srWait0 c != 0#32), (0x24, cmdDeadline c != 0 && srWait1 c != 0#32),
      (0x28, own && par c 0x28 8 != 0 && (match slot with | some s => (wslot v s).layout.toNat != par c 0x28 8 | none => true)),
      (0x30, srReport c % 64 != 0)] ++ resv c.hdr 0x38 8 ++ notes)
    chkRun d x (srSlot c) (srCount c)

def stepRunCost (d : Dev) (c : Cmd) : Option Nat := (smFind d.ctxs (cmdContext c)).bind (fun x => launchCost d (cmdContext c) x (srSlot c))

/-- A boundary is taken when no serving step is in flight (R464). -/
def stepRunBoundary (d : Dev) (c : Cmd) : Dev := if stepBusy d (cmdContext c) then d else weightBoundary d (cmdContext c)

def setIter (d : Dev) (w id : Nat) (f : IterE → IterE) : Dev :=
  modWset d w (fun v => { v with iter := smMod {} v.iter id f })

/-- The admission of a STEP.RUN, under the number the command will have: its pin and its iteration entry (R465, R472). -/
def admStepRun (d : Dev) (c : Cmd) : Chk (Cmd × Dev) :=
  let w := srWset c
  let ver := srVersion d c
  let cid := d.nextCid
  if cmdDeadline c ≠ 0 ∧ !(notLocal d (cmdContext c) [(srReport c, 16, false)]).isEmpty then refused 3
  else match verSlot (wset d w) ver with
  | none => badParam 0x14
  | some s =>
    let d1 := pin d w s .step
    let t : TStep := { cid := cid, ctx := cmdContext c, wset := w, slot := s, version := ver, launch := none }
    let d2 : Dev := { d1 with weights := { d1.weights with steps := smPut d1.weights.steps cid t } }
    .ok (c, if srIter c then setIter d2 w (srId c) (fun _ =>
      { state := 1, cid := some cid, queue := c.queue, hostSeq := hostSeqOf c }) else d2)

/-- STEP.RUN (R467, R474): the step waits for its tokens. -/
def execStepRun (cid : Nat) (s : State) : Host.Outcome State Fault Refusal :=
  onDev s (runCmd 0x0601 cid (fun d _ c => some (noteWant d (cmdContext c))))

/-- Its tokens are present (R473). -/
def tokensHere (d : Dev) (ctx : Nat) (c : Cmd) : Bool :=
  [srWait0 c, srWait1 c].all (fun t => t == 0#32 || tokenCount d ctx t != 0)

/-- The step that the context runs next: the highest PRIO, then the first admitted (R474). -/
def nextStep (d : Dev) (ctx : Nat) : Option (TStep × Cmd) :=
  ((d.weights.steps.filterMap (fun p =>
    match smFind d.cmds p.2.cid with
    | some c => if p.2.ctx = ctx ∧ p.2.launch.isNone ∧ c.phase = .running ∧ tokensHere d ctx c then some (p.2, c) else none
    | none => none))).foldl (fun b q => match b with
      | none => some q
      | some r => if srPrio r.2 < srPrio q.2 then some q else b) none

def takeToken (d : Dev) (ctx : Nat) (t : Word) : Dev := if t = 0#32 then d else setTokens d ctx t (tokenCount d ctx t - 1)

/-- STEP_LAUNCH (R473, R474): the launch of the step chosen becomes a candidate, and its tokens are taken. -/
def execStepLaunch (ctx : Nat) (s : State) : Host.Outcome State Fault Refusal :=
  onDev s (fun d => match nextStep d ctx with
    | none => d
    | some (t, c) =>
      let v := wset d t.wset
      let args := (span 0 8).map (fun k => word c.payload (4 * k)) ++ [t.version, v.scale, BitVec.ofNat 32 (srId c)]
      let z := mkLaunch d ctx (.train t.cid) (srSlot c) (srFirst c) (srCount c) args false (par c 0x1C 4) (deadlineOf c)
        (if cmdDeadline c = 0 then 2 else 1)
      let (k, d1) := queueLaunch d z
      let d2 := takeToken (takeToken d1 ctx (srWait0 c)) ctx (srWait1 c)
      let d3 : Dev := { d2 with weights := { d2.weights with steps := smPut d2.weights.steps t.cid { t with launch := some k } } }
      if srIter c then setIter d3 t.wset (srId c) (fun e => if e.cid = some t.cid then { e with state := 2 } else e) else d3)

/-- A step ends (R472): its iteration entry takes its last state. Its pin drops and its notify entries go out with its final record. -/
def closeStep (d : Dev) (t : TStep) (c : Cmd) (state : Nat) (loss tokens : Word) : Dev :=
  let d1 : Dev := { d with weights := { d.weights with
    steps := smPut d.weights.steps t.cid { t with complete := true, notes := srNotes c } } }
  if srIter c then setIter d1 t.wset (srId c) (fun e =>
    if e.cid = some t.cid then { e with state := state, hasLoss := srLoss c, loss := loss, tokens := tokens } else e) else d1

/-- A step leaves: its pin drops (R465). -/
def dropStep (d : Dev) (t : TStep) : Dev :=
  unpin { d with weights := { d.weights with steps := smErase d.weights.steps t.cid } } t.wset t.version .step

/-- Sends a step's notify entries (R473). -/
def notifyAll (d : Dev) (notes : List (Nat × Nat × Word)) : Dev :=
  notes.foldl (fun d n =>
    if n.1 = myId d then tokenArrives d n.2.1 n.2.2 else sendMsg d n.1 n.2.1 0 (natLe 4 1 ++ natLe 4 n.2.2.toNat)) d

/-- The step's final record has been placed: its pin drops, and if it ended OK its notify entries are sent (R465, R473). -/
def settleStep (d : Dev) (t : TStep) : Dev :=
  let d1 := dropStep d t
  if t.status.toNat = stOk then notifyAll d1 t.notes else d1

/-- The steps whose final records have been placed. -/
def settleSteps (d : Dev) : Dev :=
  ((d.weights.steps.map (·.2)).filter (fun t => t.complete && (smFind d.cmds t.cid).isNone)).foldl settleStep d

/-- Ends a step whose launch has ended (R470 to R473). -/
def endStep (d : Dev) (t : TStep) (c : Cmd) (z : Launch) : Dev :=
  match z.fault with
  | some f => finishCmd (closeStep d t c 6 0 0) t.cid stLineFault (faultDetail f.code) (faultResult f) none
  | none =>
    let (here, d1) := bringIn d t.cid c [(srReport c, 16, false)]
    if !here then d1
    else match readVirt d1 t.ctx (srReport c) 16 .any with
      | .error e => memError (closeStep d1 t c 6 0 0) t.cid t.ctx (verrVa e)
      | .ok r =>
        let loss := word r 0
        let bad := if srHealth c then z.nonfin + field r 8 4 else 0
        let st := if 0 < bad ∨ (srLoss c ∧ !isFinite32 loss) then 4
          else match wEntry d t.wset with
            | some e => if srLoss c && spikes e (wset d t.wset) loss then 5 else 3
            | none => 3
        let d2 := closeStep d1 t c st loss (word r 4)
        let d3 := match st with
          | 4 => tallyCount d2 0x58 t.ctx 1 srcJenorneb
          | 5 => tallyCount d2 0x59 t.ctx 1 srcJenorneb
          | _ => d2
        finishCmd d3 t.cid (match st with | 4 => stNotFinite | 5 => stLossSpike | _ => stOk) 0
          [(0x0C, 4, t.version.toNat), (0x10, 4, sat32 z.most), (0x14, 4, sat32 bad), (0x18, 4, loss.toNat),
           (0x1C, 4, field r 4 4)] none

/-- STEP_END (R470 to R473). -/
def execStepEnd (cid : Nat) (s : State) : Host.Outcome State Fault Refusal :=
  onDev s (fun d => match smFind d.weights.steps cid, smFind d.cmds cid with
    | some t, some c => match t.launch.bind (smFind d.launches) with
      | some z => if z.state = .ended ∧ !t.complete then endStep d t c z else d
      | none => d
    | _, _ => d)

/-! ### STEP.DISCARD (R477) -/

/-- Drops a step that waits or runs: it ends CANCELLED and drops its pin at once (R465, R477). -/
def discardStep (d : Dev) (t : TStep) : Dev :=
  match smFind d.cmds t.cid with
  | none => d
  | some c =>
    let d1 := match t.launch with | some k => cancelLaunch d k | none => d
    finishCmd (dropStep (closeStep d1 t c 7 0 0) t) t.cid stCancelled 0 [] none

/-- The steps in flight and the iteration entries that a STEP.DISCARD names. -/
def discardSet (d : Dev) (c : Cmd) : List TStep × List Nat :=
  let w := par c 0x10 1
  let hs := word c.hdr 0x14
  let q := par c 0x11 1
  let id := par c 0x12 2
  let live := (d.weights.steps.map (·.2)).filter (fun t => t.wset == w && !t.complete)
  let iter := (wset d w).iter.filter (fun p => p.2.state != 0)
  if hs ≠ noVersion then
    (live.filter (fun t => match smFind d.cmds t.cid with | some x => x.queue == q && hostSeqOf x == hs | none => false),
     (iter.filter (fun p => p.2.queue == q && p.2.hostSeq == hs)).map (·.1))
  else
    let ids := if id = 0xFFFF then iter else iter.filter (fun p => p.1 == id)
    (live.filter (fun t => ids.any (fun p => p.2.cid == some t.cid)), ids.map (·.1))

def chkStepDiscard (d : Dev) (c : Cmd) : Chk Unit :=
  let base := [(0x10, (wOfCmd d c (par c 0x10 1)).isNone)] ++ resv c.hdr 0x18 40
  let (l, ids) := discardSet d c
  chkFields (base ++ [(0x12, l.isEmpty && ids.isEmpty)])

/-- STEP.DISCARD (R477). -/
def execStepDiscard (cid : Nat) (s : State) : Host.Outcome State Fault Refusal :=
  onDev s (runCmd 0x0602 cid (fun d cid c => match chkStepDiscard d c with
    | .error r => some (endRef d cid r)
    | .ok _ =>
      let (l, ids) := discardSet d c
      let d1 := l.foldl discardStep d
      some (finishCmd (ids.foldl (fun d i => setIter d (par c 0x10 1) i (fun e => { e with state := 7 })) d1) cid stOk 0 [] none)))

/-! ### WEIGHTS.STAGE (R478 to R482) -/

def wgSet (c : Cmd) : Nat := par c 0x10 1
def wgMode (c : Cmd) : Nat := par c 0x11 1
def wgSteps (c : Cmd) : Nat := par c 0x12 2
def wgVersion (c : Cmd) : Word := word c.hdr 0x14
def wgCount (c : Cmd) : Nat := par c 0x20 4

/-- An UPDATE of a version is in flight. -/
def updating (d : Dev) (w : Nat) (ver : Word) (but : Nat) : Bool :=
  d.cmds.any (fun p => p.1 != but && opcodeC p.2 == 0x0901 && wgMode p.2 == 1 && wgSet p.2 == w && wgVersion p.2 == ver
    && decide (p.2.phase = .running))

def chkStage (d : Dev) (c : Cmd) : Chk Unit :=
  let v := wset d (wgSet c)
  let ver := wgVersion c
  let st := slotState v ver
  let base := [(0x10, (wOfCmd d c (wgSet c)).isNone), (0x11, decide (2 < wgMode c))] ++ resv c.hdr 0x24 4 ++ resv c.hdr 0x30 16
  match wgMode c with
  | 0 =>
    let next := if v.rejoin then ver != v.committed else if v.committed = noVersion then ver == noVersion
      else ver != nextVersion v.committed
    chkFields (base ++ [(0x14, next || decide (st = .staging ∨ st = .ready ∨ st = .failed ∨ st = .doubt))])
  | 1 =>
    let steps := (span 0 (wgSteps c)).any (fun i => let e := smGet {} v.iter i; !(e.state == 3 || e.state == 4 || e.state == 5))
    chkFields (base ++ [(0x12, wgSteps c == 0 || decide (4096 < wgSteps c) || steps), (0x14, decide (st ≠ .staging)),
      (0x20, wgCount c == 0 || decide (65536 < wgCount c))])
  | _ => chkFields (base ++ [(0x14, decide (st ≠ .staging))])

/-- The ranges that an UPDATE names: its list and, where that can be read, the operands of its entries (R478, R480). -/
def stageRanges (d : Dev) (c : Cmd) : List (Nat × Nat × Bool) :=
  if wgMode c ≠ 1 then []
  else
    let n := 144 * wgCount c
    (par c 0x18 8, n, false) :: (match readVirt d (cmdContext c) (par c 0x18 8) n .any with
      | .error _ => []
      | .ok list => (span 0 (wgCount c)).flatMap (fun k =>
          (mangleOperands d (stageEntry { c with payload := list } k) false).map (fun o => (o.va, opBytes o, o.write))))

/-- OPEN needs a FREE slot (R479); an UPDATE with a deadline needs its pages here (07 R278). -/
def admStage (d : Dev) (c : Cmd) : Chk (Cmd × Dev) :=
  if wgMode c = 0 ∧ (wset d (wgSet c)).slots.all (fun s => decide (s.state ≠ .free)) then refused 0x30
  else if cmdDeadline c ≠ 0 ∧ !(notLocal d (cmdContext c) (stageRanges d c)).isEmpty then refused 3
  else .ok (c, d)

/-- U: the collective data of the Ethernet group's half-ports that are UP, in halves of 193.75 GB/s (11 R437). -/
def uPorts (d : Dev) : Nat :=
  max 1 ((((span 0 36).filter (fun h => decide (2 ≤ portConfig d h) && isUp d h)).map (fun h =>
    if (portOf d h).degraded || portConfig d h == 3 then 1 else 2)).sum)

def inRange (a n base len : Nat) : Bool := decide (base ≤ a) && decide (a + n ≤ base + len)

/-- The checks of an update list's entry: the first failure (R480). -/
def chkEntry (d : Dev) (c e : Cmd) (we : List Byte) (slot mpar : Nat) : Bool :=
  let n := 4 * mCount e
  let outN := ceilDiv (mCount e * fdBits e 0x40) 8
  let m0 := weMasterVa we mpar
  let m1 := weMasterVa we (1 - mpar)
  let inOk := [0, 0x10, 0x20].all (fun o => inRange (blk e o 8) n m0 (weMasterBytes we))
  let outOk := [8, 0x18, 0x28].all (fun o => inRange (blk e o 8) n m1 (weMasterBytes we))
  let wOk := blk e 0x38 8 == 0 || inRange (blk e 0x38 8) outN (weSlotVa we slot) (weBytes we)
  let rest := match chkMangle d e true, chkBuffer d e with | .ok _, .ok _ => true | _, _ => false
  inOk && outOk && wOk && rest && cmdContext c == weContext we

/-- The update list with each GSCALE divided by the loss scale (R480). -/
def scaledList (list : List Byte) (n : Nat) (scale : Word) : List Byte :=
  (span 0 n).flatMap (fun k =>
    let e := slice list (144 * k) 144
    patchBytes e 0x7C (natLe 4 (quiet (fdiv false (word e 0x7C) scale)).toNat))

/-- Pieces of every entry of the list (07 R282). -/
def stagePieces (d : Dev) (cid : Nat) (c : Cmd) : Dev :=
  match smFind d.ctxs (cmdContext c) with
  | none => d
  | some x =>
    let l := (span 0 (wgCount c)).flatMap (fun k =>
      let e := stageEntry c k
      (span 0 (ceilDiv (mCount e) pieceLen)).map (fun j =>
        { cid := cid, op := .stage, q := k + 65536 * j, die := (dieAt x (blk e 8 8 + 4 * pieceLen * j)).getD 0, mang := none }))
    modMem d (fun m => { m with pieces := m.pieces ++ l })

/-- The mirror writes of an UPDATE: (source address, mirror address, bytes), each within one 4 KiB page of lines (R481). -/
def mirrorWrites (c : Cmd) (we : List Byte) (mpar : Nat) : List (Nat × Nat × Nat) :=
  let base := weMasterVa we (1 - mpar)
  let mir := weMirrorVa we (1 - mpar)
  (span 0 (wgCount c)).flatMap (fun k =>
    let e := stageEntry c k
    [8, 0x18, 0x28].flatMap (fun o =>
      let lo := blk e o 8 / 64 * 64
      let hi := ceilDiv (blk e o 8 + 4 * mCount e) 64 * 64
      (span (lo / 4096) (ceilDiv hi 4096 - lo / 4096)).map (fun pg =>
        let a := max lo (4096 * pg)
        let b := min hi (4096 * pg + 4096)
        (a, mir + (a - base), b - a))))

/-- Sends mirror writes from the next one on, at most fuel of them. -/
def sendMirror (cid dst ctx : Nat) (d : Dev) (l : List (Nat × Nat × Nat)) : Nat → Dev
  | 0 => d
  | fuel + 1 => match l with
    | [] => d
    | w :: ws =>
      match fabRequest d (.mirror cid) dst pkWrite ctx w.2.1 w.2.2 (peek d ctx w.1 w.2.2) with
      | .sent _ d1 => sendMirror cid dst ctx (modCmd d1 cid (fun c => { c with progress := c.progress + 1 })) ws fuel
      | .unreachable => modCmd d cid (fun c => { c with hostErr := true })
      | .full => d

/-- The end of an UPDATE whose pieces are done (R480, R481). -/
def endUpdate (d : Dev) (cid : Nat) (c : Cmd) (we : List Byte) : Dev :=
  let w := wgSet c
  let v := wset d w
  if c.count ≠ 0 then
    finishCmd (failVersion d w (wgVersion c) 0x02) cid stNotFinite 0 [(0x0C, 4, c.flags.toNat), (0x10, 4, sat32 c.count)] none
  else if weMirror we = 0 then finishCmd d cid stOk 0 [(0x0C, 4, c.flags.toNat), (0x10, 4, 0)] none
  else
    let devs := groupDevs d (weGroup we)
    let dst := nth 0 devs (((memberOf d (weGroup we)).getD 0 + weMirror we) % max 1 devs.length)
    let all := mirrorWrites c we v.mpar
    let waits := d.fabric.outst.any (fun o => decide (o.2.use = .mirror cid) && !o.2.dead)
    if c.hostErr then finishCmd (failVersion d w (wgVersion c) 0x05) cid stShardLost 0 [] none
    else if c.progress < all.length then sendMirror cid dst (cmdContext c) d (all.drop c.progress) all.length
    else if waits then d
    else finishCmd d cid stOk 0 [(0x0C, 4, c.flags.toNat), (0x10, 4, 0)] none

/-- UPDATE begins: its list is read, its steps and entries are checked, and its pieces are cut (R480). -/
def beginUpdate (d : Dev) (cid : Nat) (c : Cmd) (we : List Byte) : Dev :=
  let ctx := cmdContext c
  let v := wset d (wgSet c)
  match chkStage d c, verSlot v (wgVersion c) with
  | .error r, _ => endRef d cid r
  | .ok _, none => endRef d cid { status := stBadParam, detail := 0x14 }
  | .ok _, some slot =>
    let (here, d1) := bringIn d cid c [(par c 0x18 8, 144 * wgCount c, false)]
    if !here then d1
    else match readVirt d1 ctx (par c 0x18 8) (144 * wgCount c) .any with
      | .error (.data a) => memError d1 cid ctx a
      | .error _ => endRef d1 cid { status := stBadParam, detail := 0x18 }
      | .ok list =>
        let raw : Cmd := { c with payload := list }
        match (span 0 (wgCount c)).find? (fun k => !chkEntry d1 c (stageEntry raw k) we slot v.mpar) with
        | some k => endRef d1 cid { status := stBadParam, detail := (144 * k + 0x40) % 65536 }
        | none =>
          let st (n : Nat) : Bool := (span 0 (wgSteps c)).any (fun i => (smGet {} v.iter i).state == n)
          if st 4 then finishCmd (failVersion d1 (wgSet c) (wgVersion c) 0x02) cid stNotFinite 0 [(0x10, 4, 0)] none
          else if st 5 then finishCmd (failVersion d1 (wgSet c) (wgVersion c) 0x03) cid stLossSpike 0 [] none
          else
            let c1 : Cmd := { c with payload := scaledList list (wgCount c) v.scale, info := [1] }
            stagePieces (modCmd d1 cid (fun _ => { c1 with phase := .running })) cid c1

/-- SEAL (R482): READY, or LIVE in rejoin. It waits for a collective that writes the version (R465). -/
def sealVersion (d : Dev) (cid : Nat) (c : Cmd) : Dev :=
  let w := wgSet c
  let v := wset d w
  match chkStage d c, verSlot v (wgVersion c) with
  | .error r, _ => endRef d cid r
  | .ok _, none => endRef d cid { status := stBadParam, detail := 0x14 }
  | .ok _, some s =>
    if updating d w (wgVersion c) cid then endRef d cid { status := stBadParam, detail := 0x14 }
    else if (wslot v s).coll ≠ 0 then d
    else if v.rejoin then
      finishCmd (modWset (modWSlot d w s (fun x => { x with state := .live })) w (fun v => { v with rejoin := false })) cid stOk 0 [] none
    else finishCmd (modWSlot d w s (fun x => { x with state := .ready })) cid stOk 0 [] none

def stepStage (d : Dev) (cid : Nat) (c : Cmd) : Option Dev :=
  let w := wgSet c
  match wOfCmd d c w with
  | none => some (endRef d cid { status := stBadParam, detail := 0x10 })
  | some we =>
    match wgMode c with
    | 0 => match chkStage d c, (wset d w).slots.findIdx? (fun s => decide (s.state = .free)) with
      | .error r, _ => some (endRef d cid r)
      | .ok _, none => some (endRef d cid { status := stAdmissionRefused, detail := 0x30 })
      | .ok _, some s => some (finishCmd (modWSlot d w s (fun _ => { state := .staging, version := wgVersion c })) cid stOk 0
          [(0x0C, 4, s)] none)
    | 1 => match c.info with
      | [] => some (beginUpdate d cid c we)
      | [2] => some (endUpdate d cid c we)
      | [3, va] => some (finishCmd (failVersion d w (wgVersion c) 0x05) cid stDeviceFault 0x0001 [(0x18, 8, va)] none)
      | _ => some d
    | _ => some (sealVersion d cid c)

/-- WEIGHTS.STAGE (R478 to R482). -/
def execWeightsStage (cid : Nat) (s : State) : Host.Outcome State Fault Refusal := onDev s (runCmd 0x0901 cid stepStage)

/-! ### WEIGHTS.ABORT and WEIGHTS.SWITCH (R491, R492) -/

/-- A WEIGHTS.COMMIT of the version is in flight on this member (R492, R495). -/
def committing (d : Dev) (w : Nat) (ver : Word) : Bool :=
  d.cmds.any (fun p => opcodeC p.2 == 0x0902 && wgSet p.2 == w && wgVersion p.2 == ver && p.2.fin.isNone)

def chkAbort (d : Dev) (c : Cmd) : Chk Unit :=
  let st := slotState (wset d (wgSet c)) (wgVersion c)
  let bad := match wgMode c with
    | 0 => decide (st ≠ .staging ∧ st ≠ .ready ∧ st ≠ .failed) && !(committing d (wgSet c) (wgVersion c) && decide (st ≠ .doubt))
    | _ => decide (st ≠ .held)
  chkFields ([(0x10, (wOfCmd d c (wgSet c)).isNone), (0x11, decide (1 < wgMode c)), (0x14, bad)]
    ++ resv c.hdr 0x12 2 ++ resv c.hdr 0x18 40)

/-- WEIGHTS.ABORT (R492): STAGED waits for a commit of the version and for its collectives. -/
def stepAbort (d : Dev) (cid : Nat) (c : Cmd) : Option Dev :=
  let w := wgSet c
  let v := wset d w
  if wgMode c = 0 ∧ committing d w (wgVersion c) then some (modCmd d cid (fun c => { c with info := [1] }))
  else if c.info = [1] ∧ slotState v (wgVersion c) = .doubt then some (endRef d cid { status := stBadParam, detail := 0x14 })
  else if c.info = [1] ∧ v.decided = wgVersion c ∧ v.outcome = 2 then some (finishCmd d cid stOk 0 [] none)
  else if c.info = [1] ∧ v.decided = wgVersion c ∧ v.outcome = 1 then some (finishCmd d cid stAlreadyComplete 2 [] none)
  else match chkAbort d c, verSlot v (wgVersion c) with
    | .error r, _ => some (endRef d cid r)
    | .ok _, none => some (endRef d cid { status := stBadParam, detail := 0x14 })
    | .ok _, some s =>
      if wgMode c = 1 then some (finishCmd (releaseSlot d w s) cid stOk 0 [] none)
      else if (wslot v s).coll ≠ 0 then some d
      else some (finishCmd (modWSlot d w s (fun _ => {})) cid stOk 0 [] none)

def execWeightsAbort (cid : Nat) (s : State) : Host.Outcome State Fault Refusal := onDev s (runCmd 0x0903 cid stepAbort)

def chkSwitch (d : Dev) (c : Cmd) : Chk Unit :=
  let st := slotState (wset d (wgSet c)) (wgVersion c)
  chkFields ([(0x10, (wOfCmd d c (wgSet c)).isNone), (0x11, par c 0x11 1 != 0 && par c 0x11 1 != 2),
    (0x14, decide (st ≠ .committed ∧ st ≠ .held))] ++ resv c.hdr 0x12 2 ++ resv c.hdr 0x18 40)

/-- WEIGHTS.SWITCH (R491): it ends when the switch takes effect, after those that wait already. -/
def stepSwitch (d : Dev) (cid : Nat) (c : Cmd) : Option Dev :=
  let w := wgSet c
  let v := wset d w
  if v.pending.any (fun p => p.2.2 == some cid) then some d
  else match chkSwitch d c, verSlot v (wgVersion c) with
    | .error r, _ => some (endRef d cid r)
    | .ok _, none => some (endRef d cid { status := stBadParam, detail := 0x14 })
    | .ok _, some _ => some (modWset d w (fun v => { v with pending := v.pending ++ [(wgVersion c, bit (par c 0x11 1) 1, some cid)] }))

def execWeightsSwitch (cid : Nat) (s : State) : Host.Outcome State Fault Refusal := onDev s (runCmd 0x0904 cid stepSwitch)

/-! ### WEIGHTS.QUERY (R493, R494) -/

def wStateCode : WState → Nat
  | .free => 0 | .staging => 1 | .ready => 2 | .failed => 3 | .doubt => 4 | .committed => 5 | .live => 6 | .held => 7

/-- The registry record (R493). -/
def registry (w : Nat) (v : WSet) : List Byte :=
  let n (st : Nat) : Nat := (v.iter.filter (fun p => p.2.state == st)).length
  natLe 1 w ++ natLe 1 ((liveSlot v).getD 0xFF) ++ natLe 1 v.mpar ++ natLe 1 (b2n v.rejoin) ++ natLe 4 (liveVersion v).toNat
    ++ natLe 4 v.decided.toNat ++ natLe 1 v.outcome ++ natLe 1 v.outDetail ++ natLe 2 0 ++ natLe 4 v.scale.toNat
    ++ natLe 4 v.good ++ natLe 4 v.commits ++ natLe 4 v.mean.toNat ++ natLe 4 v.dev.toNat
    ++ natLe 2 (n 3) ++ natLe 2 (n 4) ++ natLe 2 (n 5) ++ natLe 2 (n 7) ++ natLe 4 v.committed.toNat
    ++ (span 0 4).flatMap (fun k => let s := wslot v k
        natLe 4 s.version.toNat ++ natLe 1 (wStateCode s.state) ++ natLe 1 s.reason ++ natLe 2 s.step ++ natLe 2 s.serve
          ++ natLe 2 s.coll ++ natLe 8 s.layout.toNat ++ natLe 4 0)

def chkQuery (d : Dev) (c : Cmd) : Chk Unit :=
  chkFields ([(0x10, (wOfCmd d c (wgSet c)).isNone),
    (0x11, decide (2 < wgMode c) || (wgMode c == 2 && (wset d (wgSet c)).slots.any (fun s => decide (s.state ≠ .free))))]
    ++ resv c.hdr 0x12 42 ++ resv c.hdr 0x3E 2)

/-- The answering record whose last committed version is greatest (R494). -/
def bestRecord (answers : SMap (List Byte)) : Option (List Byte) :=
  (answers.map (·.2)).foldl (fun b r =>
    if word r 0x2C = noVersion then b
    else match b with
      | none => some r
      | some q => if serialLt (word q 0x2C) (word r 0x2C) then some r else b) none

/-- What ADOPT copies (R494). -/
def adopt (v : WSet) (r : List Byte) : WSet :=
  { v with committed := word r 0x2C, decided := word r 8, outcome := field r 0x0C 1, outDetail := field r 0x0D 1, mpar := field r 2 1,
           scale := word r 0x10, good := field r 0x14 4, commits := field r 0x18 4, mean := word r 0x1C, dev := word r 0x20,
           rejoin := true }

/-- A PEERS or ADOPT query ends with what has been answered (R493, R494). -/
def endPeers (d : Dev) (q : PeersQ) : Dev :=
  let d1 : Dev := { d with weights := { d.weights with queries := d.weights.queries.filter (fun r => r.cid != q.cid) } }
  match smFind d.cmds q.cid with
  | none => d1
  | some c =>
    let out := (nodePeers d).flatMap (fun p => match smFind q.answers p with | some r => natLe 2 p ++ r | none => [])
    if wgMode c = 2 then
      match bestRecord q.answers with
      | none => endRef d1 q.cid { status := stBadParam, detail := 0x11 }
      | some r => finishCmd (modWset d1 (wgSet c) (fun v => adopt v r)) q.cid stOk 0 [] (some out)
    else finishCmd d1 q.cid stOk 0 [] (some out)

def stepQuery (d : Dev) (cid : Nat) (c : Cmd) : Option Dev :=
  if !c.info.isEmpty then some d
  else match chkQuery d c with
    | .error r => some (endRef d cid r)
    | .ok _ =>
      if wgMode c = 0 then some (finishCmd d cid stOk 0 [] (some (registry (wgSet c) (wset d (wgSet c)))))
      else
        let ps := nodePeers d
        let q : PeersQ := { cid := cid, answers := [], waiting := ps, at_ := d.now }
        let d1 := ps.foldl (fun d p => sendMsg d p (cmdContext c) (cid % 65536) (natLe 4 4 ++ natLe 4 (wgSet c))) d
        let d2 := modCmd { d1 with weights := { d1.weights with queries := d1.weights.queries ++ [q] } } cid (fun c => { c with info := [1] })
        some (if ps.isEmpty then endPeers d2 q else d2)

/-- WEIGHTS.QUERY (R493, R494). -/
def execWeightsQuery (cid : Nat) (s : State) : Host.Outcome State Fault Refusal := onDev s (runCmd 0x0905 cid stepQuery)

/-- PEERS_QUERY_TIMEOUT (R493): 1,000 hub µs have passed. -/
def execPeersQueryTimeout (cid : Nat) (s : State) : Host.Outcome State Fault Refusal :=
  onDev s (fun d => match d.weights.queries.find? (fun q => q.cid == cid) with
    | some q => if q.at_ + 400000 ≤ d.now then endPeers d q else d
    | none => d)

/-- A peer answers a query (R493). -/
def peerAnswers (d : Dev) (src tag : Nat) (rcd : List Byte) : Dev :=
  match d.weights.queries.find? (fun q => q.cid % 65536 == tag && q.waiting.contains src) with
  | none => d
  | some q =>
    let q1 : PeersQ := { q with answers := smPut q.answers src rcd, waiting := q.waiting.filter (fun p => p != src) }
    let d1 : Dev := { d with weights := { d.weights with queries := d.weights.queries.map (fun r => if r.cid = q.cid then q1 else r) } }
    if q1.waiting.isEmpty then endPeers d1 q1 else d1

end Sys2Proof.Machine
end

