-- ==== Sys2Proof/Machine/CollOps.lean ====
section
/-! DEFINITION. What collectives rest on: nodes and members, the collective packet, descriptors and maps, the shards that a
member sends and receives, covers of the chunk tree, and the cost models (11 R419 to R454). -/

namespace Sys2Proof.Machine

/-! ### Nodes (R420, R429) -/

def nodeOf (d : Dev) (dev : Nat) : Nat := dev / 4096 * 4096 + dev % 4096 / nodeSize d

/-- The member number of a device in its node. -/
def memberNum (d : Dev) (dev : Nat) : Nat := dev % 4096 % nodeSize d

/-- Indices of the members in the node of member i. -/
def nodeMembers (d : Dev) (devs : List Nat) (i : Nat) : List Nat :=
  (span 0 devs.length).filter (fun j => nodeOf d (nth 0 devs j) == nodeOf d (nth 0 devs i))

/-- The leader of member i's node: its lowest member index. -/
def leaderOf (d : Dev) (devs : List Nat) (i : Nat) : Nat := (nodeMembers d devs i).headD i

def leadersOf (d : Dev) (devs : List Nat) : List Nat := (span 0 devs.length).filter (fun i => leaderOf d devs i == i)

/-- Every node that the group touches holds members with the same member numbers. -/
def rectangular (d : Dev) (devs : List Nat) : Bool :=
  let sets := (leadersOf d devs).map (fun i => insertAll ((nodeMembers d devs i).map (fun j => memberNum d (nth 0 devs j))) [])
  sets.all (fun s => s == sets.headD [])

/-- The member of i's node that has the member number of device v. -/
def twinIn (d : Dev) (devs : List Nat) (i v : Nat) : Option Nat :=
  (nodeMembers d devs i).find? (fun j => memberNum d (nth 0 devs j) == memberNum d v)

/-- T_start in hub µs (R432). -/
def tStart (d : Dev) (e : List Byte) (devs : List Nat) : Nat :=
  let nodes := (leadersOf d devs).length
  4 + (if nodes = 1 then 0 else 2 * gRailLat e) + ceilDiv nodes 64

/-! ### Parameters -/

def opGather : Nat := 3
def opBroadcast : Nat := 4
def opReduceScatter : Nat := 5
def opAllReduce : Nat := 6
def opAllToAll : Nat := 7
def opRefold : Nat := 0x10
def opCommit : Nat := 0x20

def isReduce (op : Nat) : Bool := op == opReduceScatter || op == opAllReduce
def isShardMap (op : Nat) : Bool := op == opGather || op == opBroadcast

/-- The OP of a command (R423, R427; 12 R484). -/
def collOpOf (c : Cmd) : Nat := if opcodeC c = 0x0A01 then opRefold else if opcodeC c = 0x0902 then opCommit else par c 0x10 1

def collIdOf (c : Cmd) : Word := word c.hdr (if opcodeC c = 0x0902 then 0x18 else 0x14)

/-- The group that a command names: of a commit, that of its weight set. -/
def collGroupOf (d : Dev) (c : Cmd) : Nat :=
  if opcodeC c = 0x0A01 then par c 0x10 2
  else if opcodeC c = 0x0902 then (match wEntry d (par c 0x10 1) with | some e => weGroup e | none => 64)
  else par c 0x12 2

/-- The descriptor or map of a command: its address and length. -/
def descRange (c : Cmd) : Nat × Nat :=
  if opcodeC c = 0x0902 ∨ collOpOf c ≤ 2 then (0, 0) else (par c 0x18 8, par c 0x20 4)

/-- The descriptor as it lies in the group's context; none where it cannot be read. -/
def descOf (d : Dev) (c : Cmd) : Option (List Byte) :=
  let (va, n) := descRange c
  if n = 0 then some [] else match readVirt d (cmdContext c) va n .any with | .ok b => some b | .error _ => none

def kStages (k : Coll) : Nat := field k.hdr 0x11 1
def kVersion (k : Coll) : Word := if k.op = opRefold then noVersion else word k.hdr 0x24
def kFlag (k : Coll) (i : Nat) : Bool := k.op != opRefold && bit (field k.hdr 0x28 4) i
def noReplica (k : Coll) : Bool := kFlag k 0
def isReverse (k : Coll) : Bool := kFlag k 1 && k.op == opAllToAll
def notSelf (k : Coll) : Bool := kFlag k 2

/-! ### Shard maps (R435) -/

def nShards (desc : List Byte) : Nat := field desc 0 4
def shardE (desc : List Byte) (s : Nat) : List Byte := slice desc (64 + 32 * s) 32
def seSrc (e : List Byte) : Nat := field e 0 8
def seDst (e : List Byte) : Nat := field e 8 8
def seBytes (e : List Byte) : Nat := field e 0x10 4
/-- Members that hold the shard, its owner first. -/
def seHolders (e : List Byte) : List Nat := ((span 0 3).map (fun j => field e (0x14 + 2 * j) 2)).filter (fun h => h != 0xFFFF)
def seOwner (e : List Byte) : Nat := field e 0x14 2
def seWset (e : List Byte) : Nat := field e 0x1A 1
def seChain (e : List Byte) : Nat := field e 0x1B 1

/-- The chains of a BROADCAST (R438). -/
def chainsOf (desc : List Byte) : List (List Nat) := go (field desc 8 4) (field desc 4 2)
where
  /-- Counts and members from an offset on. -/
  go (o : Nat) : Nat → List (List Nat)
    | 0 => []
    | n + 1 =>
      let k := field desc o 2
      (span 0 k).map (fun j => field desc (o + 2 + 2 * j) 2) :: go (o + 2 + 2 * k) n

/-! ### Reductions (R440, R441) -/

def rdSegs (desc : List Byte) : Nat := field desc 0 4
def rdN (desc : List Byte) : Nat := field desc 4 4 + 1
def rdOp (desc : List Byte) : Nat := field desc 8 1
def rdSlots (desc : List Byte) : Nat := field desc 9 1
def rdElems (desc : List Byte) : Nat := field desc 0x0A 2
def rdFd (desc : List Byte) : Fd := fdFields (field desc 0x10 4) (field desc 0x14 4)
/-- A resolved result is asked for: DST_FD and DST_BASE are not zero (R441; log 36). -/
def rdHasDst (desc : List Byte) : Bool := field desc 0x10 8 != 0 && field desc 0x38 8 != 0
def rdRb (desc : List Byte) (g : Nat) : Nat := field desc 0x20 8 + g * field desc 0x28 4
/-- Bytes of a segment's buffer (07 R291). -/
def rdBufBytes (desc : List Byte) : Nat := 0x100 + 8 * rdElems desc * rdSlots desc
def rdPartial (desc : List Byte) (k g : Nat) : Nat := field desc 0x30 8 + (k * rdSegs desc + g) * 4032
def rdSegBytes (desc : List Byte) : Nat := packedBytes (rdFd desc).elem (rdElems desc)
def rdDst (desc : List Byte) (g : Nat) : Nat := field desc 0x38 8 + g * rdElems desc * elemBits (rdFd desc).elem / 8
def rdPark (desc : List Byte) : Nat × Nat := (field desc 0x40 8, field desc 0x48 8)
/-- The range of member i. -/
def rdRange (desc : List Byte) (i : Nat) : Nat × Nat := (field desc (0x60 + 8 * i) 4, field desc (0x64 + 8 * i) 4)
def rdOwner (desc : List Byte) (n g : Nat) : Nat := g * n / max 1 (rdSegs desc)

/-- Chunks of [lo, hi) in a union of disjoint ranges. -/
def overlap (rs : List (Nat × Nat)) (lo hi : Nat) : Nat := (rs.map (fun r => min hi r.2 - max lo r.1)).sum

/-- The cover of a union of disjoint ranges: the maximal nodes of tree(lo, hi) inside it (R440). -/
def coverIn (rs : List (Nat × Nat)) (lo hi : Nat) : Nat → List (Nat × Nat)
  | 0 => []
  | fuel + 1 =>
    let o := overlap rs lo hi
    if o = 0 then []
    else if o = hi - lo then [(lo, hi)]
    else let m := treeSplit lo hi; coverIn rs lo m fuel ++ coverIn rs m hi fuel

def coverOf (desc : List Byte) (members : List Nat) : List (Nat × Nat) :=
  coverIn (members.map (rdRange desc)) 0 (rdN desc) (ceilLog2 (rdN desc) + 2)

/-- The member to which member i sends its partials of a segment (R442); NODE is as FLAT (log 36). -/
def partialTo (d : Dev) (devs : List Nat) (stages : Nat) (desc : List Byte) (g i : Nat) : Nat :=
  let o := rdOwner desc devs.length g
  if stages = 2 then (twinIn d devs i (nth 0 devs o)).getD o else o

/-! ### Refold maps (R450) -/

def mapEntries (desc : List Byte) : List (List Byte) := (span 0 (field desc 0x0C 4)).map (fun k => slice desc (64 + 32 * k) 32)
def mapRounds (desc : List Byte) : Nat := field desc 0x0A 2
def meDir (e : List Byte) : Nat := field e 0 1
def meRound (e : List Byte) : Nat := field e 1 1
def mePeer (e : List Byte) : Nat := field e 2 2
def meReplica (e : List Byte) : Nat := field e 4 2
def meLocal (e : List Byte) : Nat := field e 8 8
def meOther (e : List Byte) : Nat := field e 0x10 8
def meBytes (e : List Byte) : Nat := field e 0x18 4

/-! ### Who holds what (R436) -/

/-- The members that member i asks for shard s of a GATHER, in order; none: it does not fetch the shard. -/
def askOrder (d : Dev) (devs : List Nat) (stages : Nat) (notSelf : Bool) (holders : List Nat) (i : Nat) : Option (List Nat) :=
  if holders.contains i && !notSelf then none
  else
    let hs := holders.filter (fun h => h != i)
    let near := hs.filter (fun h => nodeOf d (nth 0 devs h) == nodeOf d (nth 0 devs i))
    let flat := match near with
      | f :: _ => f :: hs.filter (fun h => h != f)
      | [] => hs
    match stages, near with
    | 0, _ => some flat
    | _, _ :: _ => some flat
    | 1, [] => none
    | _, [] =>
      match twinIn d devs i (nth 0 devs (holders.headD 0)) with
      | some r => some (if r = i then flat else r :: hs)
      | none => some flat

/-- The holders of a shard that the GATHER of an operation asks: of an ALL_REDUCE, the owner of its segment (R446). -/
def gatherHolders (op : Nat) (desc : List Byte) (n s : Nat) : List Nat :=
  if op = opAllReduce then [rdOwner desc n s] else seHolders (shardE desc s)

def gatherCount (op : Nat) (desc : List Byte) : Nat := if op = opAllReduce then rdSegs desc else nShards desc

/-- Where a gathered shard lies on its holder, where it lands, and its bytes. -/
def gatherPlace (op : Nat) (desc : List Byte) (s : Nat) : Nat × Nat × Nat :=
  if op = opAllReduce then (rdDst desc s, rdDst desc s, rdSegBytes desc)
  else let e := shardE desc s; (seSrc e, seDst e, seBytes e)

/-! ### Ranges of a collective (R425) -/

/-- The segments for which member i keeps a reduction buffer: as their owner or as their combiner (R441, R442). -/
def collBuffers (devs : List Nat) (d : Dev) (i : Nat) (c : Cmd) (desc : List Byte) : List Nat :=
  (if isReduce (collOpOf c) then span 0 (rdSegs desc) else []).filter (fun g =>
    rdOwner desc devs.length g == i || partialTo d devs (par c 0x11 1) desc g i == i)

/-- The ranges that member i reads and writes: address, bytes, whether written. -/
def collRanges (d : Dev) (devs : List Nat) (i : Nat) (c : Cmd) (desc : List Byte) : List (Nat × Nat × Bool) :=
  let op := collOpOf c
  let stages := par c 0x11 1
  if op = opGather then
    (span 0 (nShards desc)).flatMap (fun s =>
      let e := shardE desc s
      (if (seHolders e).contains i then [(seSrc e, seBytes e, false)] else [])
        ++ (match askOrder d devs stages (bit (par c 0x28 4) 2) (seHolders e) i with
            | some _ => [(seDst e, seBytes e, true)] | none => []))
  else if op = opBroadcast then
    (span 0 (nShards desc)).flatMap (fun s =>
      let e := shardE desc s
      match (nth [] (chainsOf desc) (seChain e)).findIdx? (fun m => m == i) with
      | some 0 => [(seSrc e, seBytes e, false)]
      | some _ => [(seDst e, seBytes e, true)]
      | none => [])
  else if isReduce op then
    let mine := (coverOf desc [i]).length
    let bufs := collBuffers devs d i c desc
    (span 0 (rdSegs desc)).flatMap (fun g => (span 0 mine).map (fun k => (rdPartial desc k g, 8 * rdElems desc, false)))
      ++ bufs.map (fun g => (rdRb desc g, rdBufBytes desc, true))
      ++ (if (rdPark desc).2 = 0 then [] else [((rdPark desc).1, (rdPark desc).2, true)])
      ++ (if rdHasDst desc then (span 0 (rdSegs desc)).filterMap (fun g =>
            if rdOwner desc devs.length g = i ∨ op = opAllReduce then some (rdDst desc g, rdSegBytes desc, true) else none) else [])
  else if op = opAllToAll then
    let row := field desc 0 4
    let back := bit (par c 0x28 4) 1
    [(field desc 8 8, row * field desc 4 4, !back), (field desc 0x10 8, if back then 0 else 8 * devs.length, true)]
      ++ (span 0 devs.length).map (fun j => (field desc (0x20 + 16 * j) 8, row * field desc (0x28 + 16 * j) 4, back))
  else if op = opRefold then
    (mapEntries desc).flatMap (fun e => match meDir e with
      | 0 => [(meLocal e, meBytes e, false)]
      | 1 => [(meLocal e, meBytes e, true)]
      | _ => [(meLocal e, meBytes e, false), (meOther e, meBytes e, true)])
  else []

/-- A range is mapped and not on a peer; with R or W where the collective is a refold (R451). -/
def collRangeOk (x : Ctx) (strict : Bool) (r : Nat × Nat × Bool) : Bool :=
  r.2.1 == 0 || (let l := leavesIn x r.1 r.2.1
    coveredBy l r.1 r.2.1 && l.all (fun q => decide (q.2.kind ≠ .remote) && (!strict || (q.2.r && q.2.w))))

/-- The pages of some ranges. -/
def rangePages (x : Ctx) (rs : List (Nat × Nat × Bool)) : List Nat :=
  rs.foldl (fun l r => insertAll ((leavesIn x r.1 r.2.1).map (·.1)) l) []

/-- The weight sets of the shards that a GATHER or BROADCAST names (12 R465). -/
def shardSets (op : Nat) (desc : List Byte) : List Nat :=
  if isShardMap op then
    (((span 0 (nShards desc)).map (fun s => seWset (shardE desc s))).filter (fun w => w != 0xFF)).eraseDups
  else []

/-- The weight slots that some ranges meet: weight set and slot (12 R483). -/
def slotsMet (d : Dev) (ctx : Nat) (rs : List (Nat × Nat × Bool)) : List (Nat × Nat) :=
  (wEntries d).flatMap (fun e => if weContext e ≠ ctx then [] else
    (span 0 (weSlots e)).filterMap (fun s =>
      if rs.any (fun r => decide (weSlotVa e s < r.1 + r.2.1) && decide (r.1 < weSlotVa e s + weBytes e)) then
        some (field e 0 1, s) else none))

/-! ### Costs (R437, R439, R446, R453), in ns -/

def directNs (n : Nat) : Nat := ceilDiv (100 * n) 18384
def etherNs (d : Dev) (n : Nat) : Nat := ceilDiv (200 * n) (uPorts d * 19375)
/-- Bytes over the 5.9 TB/s of the memory-side dies (R453). -/
def mangleNs (n : Nat) : Nat := ceilDiv n 5900

/-- The greatest time over the ports for bytes that pass between this member and others: pairs (device, bytes). -/
def portsNs (d : Dev) (l : List (Nat × Nat)) : Nat :=
  let me := myId d
  let far := l.filter (fun p => nodeOf d p.1 != nodeOf d me)
  let near := l.filter (fun p => nodeOf d p.1 == nodeOf d me && p.1 != me)
  let per (v : Nat) : Nat := directNs (((near.filter (fun p => p.1 == v)).map (·.2)).sum)
  (near.map (fun p => per p.1)).foldl max (etherNs d ((far.map (·.2)).sum))

/-- The data-phase cost of a gather by member i (R437). -/
def gatherNs (d : Dev) (devs : List Nat) (lat stages op : Nat) (ns : Bool) (desc : List Byte) (i : Nat) : Nat :=
  let l := (span 0 (gatherCount op desc)).filterMap (fun s =>
    match askOrder d devs stages ns (gatherHolders op desc devs.length s) i with
    | some (h :: _) => some (nth 0 devs h, (gatherPlace op desc s).2.2)
    | _ => none)
  let far := l.any (fun p => nodeOf d p.1 != nodeOf d (nth 0 devs i))
  portsNs d l + (if l.any (fun p => nodeOf d p.1 == nodeOf d (nth 0 devs i)) then 2000 else 0) + (if far then 1000 * lat else 0)

/-- T_chain of a chain (R439). -/
def chainNs (d : Dev) (devs : List Nat) (lat : Nat) (desc : List Byte) (c : Nat) (chain : List Nat) : Nat :=
  let sizes := ((span 0 (nShards desc)).filter (fun s => seChain (shardE desc s) == c)).map (fun s => seBytes (shardE desc s))
  let far := (chain.zip (chain.drop 1)).any (fun p => nodeOf d (nth 0 devs p.1) != nodeOf d (nth 0 devs p.2))
  let bytes := sizes.sum + (chain.length - 1) * sizes.foldl max 0
  (if far then etherNs d bytes else directNs bytes) + (chain.length - 1) * 1000 * (if far then lat else 2)

/-- The partials that member i sends and receives in a segment's reduction: (device, partials) (R442). -/
def partialsOut (d : Dev) (devs : List Nat) (stages : Nat) (desc : List Byte) (i g : Nat) : List (Nat × Nat) :=
  let o := rdOwner desc devs.length g
  let to_ := partialTo d devs stages desc g i
  (nth 0 devs to_, (coverOf desc [i]).length)
    :: (if to_ = i ∧ o ≠ i then [(nth 0 devs o, (coverOf desc (nodeMembers d devs i)).length)] else [])

def partialsIn (d : Dev) (devs : List Nat) (stages : Nat) (desc : List Byte) (i g : Nat) : List (Nat × Nat) :=
  let o := rdOwner desc devs.length g
  ((span 0 devs.length).filterMap (fun j =>
      if partialTo d devs stages desc g j = i then some (nth 0 devs j, (coverOf desc [j]).length) else none))
    ++ (if stages = 2 ∧ o = i then (leadersOf d devs).filterMap (fun l =>
          let c := partialTo d devs stages desc g l
          if c = i then none else some (nth 0 devs c, (coverOf desc (nodeMembers d devs l)).length)) else [])

/-- Bytes and lane operations of a segment's reduction on its buffer's die: each partial is put, each comb reads a slot, and the
owner resolves into DST (07 R286; R446). -/
def segmentWork (d : Dev) (devs : List Nat) (stages : Nat) (desc : List Byte) (i g : Nat) : Nat × Nat :=
  let e := rdElems desc
  let parts := ((partialsIn d devs stages desc i g).map (·.2)).sum
  let own := rdOwner desc devs.length g == i
  let combs := parts - (if own then 1 else (coverOf desc (nodeMembers d devs i)).length)
  let res := own && rdHasDst desc
  (8 * e * (parts + combs) + (if res then 8 * e + rdSegBytes desc else 0), 6 * e * combs + (if res then e else 0))

/-- Sixteenths of the rate of memory-side die m in the present window (13 R525). -/
def memRate16 (d : Dev) (m : Nat) : Nat := max 1 (16 - smGet 0 d.gov.rate (8 + m))

/-- The mangle time of the segments that a member owns or combines: the greatest over the memory-side dies, in ns (R446). -/
def reduceNs (d : Dev) (devs : List Nat) (i : Nat) (c : Cmd) (desc : List Byte) : Nat :=
  let x := smFind d.ctxs (cmdContext c)
  let works := (collBuffers devs d i c desc).map (fun g =>
    ((x.bind (fun x => dieAt x (rdRb desc g))).getD 0, segmentWork d devs (par c 0x11 1) desc i g))
  ((span 0 16).map (fun m =>
    let l := (works.filter (fun w => w.1 == m)).map (·.2)
    max (ceilDiv (1000 * (l.map (·.1)).sum) 368750) (ceilDiv (160 * (l.map (·.2)).sum) (2048 * memRate16 d m)))).foldl max 0

/-- The data-phase cost of a command, in hub µs (R437, R439, R446, R453). -/
def collCost (d : Dev) (e : List Byte) (devs : List Nat) (i : Nat) (c : Cmd) (desc : List Byte) : Nat :=
  let op := collOpOf c
  let stages := par c 0x11 1
  let lat := gRailLat e
  let ns :=
    if op = opGather then gatherNs d devs lat stages op (bit (par c 0x28 4) 2) desc i
    else if op = opBroadcast then
      (((chainsOf desc).zipIdx.filter (fun q => q.1.contains i)).map (fun q => chainNs d devs lat desc q.2 q.1)).foldl max 0
    else if isReduce op then
      let segs := span 0 (rdSegs desc)
      let bytes (l : List (Nat × Nat)) : List (Nat × Nat) := l.map (fun p => (p.1, 8 * rdElems desc * p.2))
      max (portsNs d (bytes (segs.flatMap (partialsOut d devs stages desc i))))
          (portsNs d (bytes (segs.flatMap (partialsIn d devs stages desc i))))
        + reduceNs d devs i c desc
        + (if op = opAllReduce then gatherNs d devs lat stages op false desc i else 0)
    else if op = opAllToAll then
      let row := field desc 0 4
      portsNs d ((span 0 devs.length).map (fun j => (nth 0 devs j, row * field desc (0x28 + 16 * j) 4)))
    else if op = opRefold then
      let es := mapEntries desc
      ((span 0 (mapRounds desc)).map (fun r =>
        let of (dir : Nat) : List (Nat × Nat) := (es.filter (fun x => meRound x == r && meDir x == dir)).map (fun x =>
          (nth 0 devs (mePeer x), meBytes x))
        let tot (l : List (Nat × Nat)) : Nat := (l.map (·.2)).sum
        2000 + max (max (portsNs d (of 0)) (portsNs d (of 1))) (mangleNs (tot (of 0) + tot (of 1) + 2 * tot (of 2))))).sum
    else 0
  tStart d e devs + ceilDiv ns 1000

/-! ### Packets (R427; log 35) -/

/-- The fields of a collective header that differ between packets. -/
structure CHead where
  pkind : Nat
  shard : Nat := 0
  off   : Nat := 0
  lo    : Nat := 0
  hi    : Nat := 0
  crc   : Nat := 0
  cfl   : Nat := 0
  aux   : Nat := 0
  hash  : Nat := 0
  ver   : Option Word := none -- VERSION, where it is not the command's
  deriving DecidableEq, Repr

def cHead (k : Coll) (h : CHead) : List Byte :=
  natLe 4 k.id.toNat ++ natLe 1 k.op ++ natLe 1 h.pkind ++ natLe 2 k.group ++ slice k.digest 0 8 ++ natLe 4 (h.ver.getD (kVersion k)).toNat
    ++ natLe 4 h.shard ++ natLe 4 h.off ++ natLe 4 h.lo ++ natLe 4 h.hi ++ natLe 4 h.crc ++ natLe 2 h.cfl ++ natLe 2 k.member
    ++ natLe 4 h.aux ++ natLe 8 h.hash ++ natLe 8 0

def ckOf (p : Packet) : Nat := field p.data 5 1
def cpId (p : Packet) : Word := word p.data 0
def cpOp (p : Packet) : Nat := field p.data 4 1
def cpGroup (p : Packet) : Nat := field p.data 6 2
def cpShard (p : Packet) : Nat := field p.data 0x14 4
def cpOff (p : Packet) : Nat := field p.data 0x18 4
def cpLo (p : Packet) : Nat := field p.data 0x1C 4
def cpHi (p : Packet) : Nat := field p.data 0x20 4
def cpCrc (p : Packet) : Word := word p.data 0x24
def cpFlag (p : Packet) (i : Nat) : Bool := bit (field p.data 0x28 2) i
def cpSrc (p : Packet) : Nat := field p.data 0x2A 2
def cpAux (p : Packet) : Nat := field p.data 0x2C 4
def cpHash (p : Packet) : Nat := field p.data 0x30 8
/-- The data after the header. -/
def cpData (p : Packet) : List Byte := p.data.drop 64

/-- The rate-bearing dies that the work of a collective uses: the memory-side dies of its pages, and the compute dies of their cupboard
frames (13 R525, R533). -/
def collDies (d : Dev) (k : Coll) : List Nat :=
  match smFind d.ctxs k.ctx with
  | none => []
  | some x => ((x.ptes.filter (fun q => k.pins.contains q.1)).flatMap (fun q => q.2.frames.map (fun f =>
      if isCup f then frameDie f / 4 else 8 + homeDie f))).eraseDups

/-- This member throttles now (R434). -/
def selfThrottled (d : Dev) (k : Coll) : Bool := !d.gov.thermal.isEmpty && (collDies d k).any (fun r => smGet 0 d.gov.thermal r != 0)

/-- Marks the command of a collective that throttles (R434). -/
def markColl (d : Dev) (k : Coll) : Dev :=
  match k.cid with
  | some c => if selfThrottled d k then modCmd d c (fun c => { c with throttled := true }) else d
  | none => d

/-- Sends a collective packet to a device; a member that throttles sets THROTTLED in every one (R434). -/
def sendCollTo (d : Dev) (k : Coll) (dev : Nat) (h : CHead) (va : Nat) (data : List Byte) : Dev :=
  sendOrDrop d (mkPacket d dev pkColl k.ctx 0 va (64 + data.length)
    (cHead k { h with cfl := h.cfl + 4 * b2n (selfThrottled d k) } ++ data))

/-- Sends a collective packet to a member. -/
def sendColl (d : Dev) (k : Coll) (m : Nat) (h : CHead) (va : Nat) (data : List Byte) : Dev :=
  sendCollTo d k (nth 0 (groupDevs d k.group) m) h va data

/-! ### Records of collectives -/

def getColl (d : Dev) (n : Nat) : Option Coll := smFind d.colls.live n

def modColl (d : Dev) (n : Nat) (f : Coll → Coll) : Dev :=
  { d with colls := { d.colls with live := smUpd d.colls.live n f } }

/-- The collective of a group with a COLL_ID. -/
def findColl (d : Dev) (group : Nat) (id : Word) : Option (Nat × Coll) :=
  d.colls.live.find? (fun p => p.2.group == group && p.2.id == id)

def modSend (d : Dev) (n key : Nat) (f : Shard → Shard) : Dev := modColl d n (fun k => { k with send := smUpd k.send key f })
def modRecv (d : Dev) (n key : Nat) (f : Shard → Shard) : Dev := modColl d n (fun k => { k with recv := smUpd k.recv key f })

/-- A number above every key. -/
def nextKey {α : Type} (m : SMap α) : Nat := match m.getLast? with | some (k, _) => k + 1 | none => 0

/-- Adds shards to a map under fresh keys. -/
def addShards (m : SMap Shard) (l : List Shard) : SMap Shard := m ++ l.zipIdx.map (fun q => (nextKey m + q.2, q.1))

/-- A shard has come to its end: verified or acknowledged, lost or stale. -/
def settled (s : Shard) : Bool := s.done || s.lost

/-- The packets of a shard's bytes: offsets and lengths (R427). -/
def shardCuts (n : Nat) : List (Nat × Nat) := (span 0 (ceilDiv n 4032)).map (fun j => (4032 * j, min 4032 (n - 4032 * j)))

/-- The version that this member's weight-set table records for a range of a weight set (12 R466); none: it lies in no slot. -/
def versionHere (d : Dev) (w va n : Nat) : Option (Nat × Nat × Word) :=
  (wEntry d w).bind (fun e =>
    ((span 0 (weSlots e)).find? (fun s => decide (weSlotVa e s ≤ va) && decide (va + n ≤ weSlotVa e s + weBytes e))).map (fun s =>
      (weContext e, s, (wslot (wset d w) s).version)))

/-- VERSION of a shard that this member sends: what it holds, 0xFFFF_FFFF where the shard has no weight set (R427). -/
def shardVersion (d : Dev) (k : Coll) (s : Shard) : Word :=
  let w := if isShardMap k.op then seWset (shardE k.desc s.idx) else 0xFF
  if w = 0xFF then noVersion else match versionHere d w s.va s.bytes with | some (_, _, v) => v | none => noVersion

/-- Sends the DATA packets of a shard (R435, R442, R455); false where its bytes cannot be read. -/
def sendShard (d : Dev) (k : Coll) (s : Shard) (retry : Bool) : Bool × Dev :=
  match readVirt d k.ctx s.va s.bytes .any with
  | .error _ => (false, d)
  | .ok bs =>
    let crc := (crc32c bs).toNat
    let base := b2n s.repl * 2 + b2n retry * 8
    (true, (shardCuts s.bytes).foldl (fun d q =>
      let last := decide (q.1 + q.2 = s.bytes)
      sendColl d k s.peer {
        pkind := 2, shard := s.idx, off := q.1, lo := if k.op = opRefold then 0 else s.lo, hi := s.hi,
        crc := if last then crc else 0, ver := some (shardVersion d k s), cfl := base + b2n last, aux := if k.op = opRefold then s.lo else 0 }
        (s.other + q.1) (slice bs q.1 q.2)) d)

/-- Asks a holder for a shard (R435). -/
def sendFetch (d : Dev) (k : Coll) (s : Shard) (retry : Bool) : Dev :=
  sendColl d k s.peer {
    pkind := 3, shard := s.idx, lo := s.lo, hi := if k.op = opRefold then s.bytes else s.hi, cfl := b2n retry * 8 + b2n s.repl * 2,
    hash := if k.op = opRefold then s.other else 0 } s.va []

/-- Asks a sender to send a shard again (R455). -/
def sendResend (d : Dev) (k : Coll) (s : Shard) : Dev :=
  sendColl d k s.peer { pkind := 5, shard := s.idx, lo := s.lo, hi := s.hi, cfl := 8 } s.va []

def sendAck (d : Dev) (k : Coll) (p : Packet) (s : Shard) : Dev :=
  sendColl d k (cpSrc p) { pkind := 4, shard := cpShard p, lo := cpLo p, hi := cpHi p, cfl := b2n (cpFlag p 1) * 2 } s.va []

end Sys2Proof.Machine
end

