-- ==== Sys2Proof/Machine/CollData.lean ====
section
/-! DEFINITION. The data phase of a collective: shards landing and darning, reductions, exchanges of rows, refold rounds, and
the end (11 R431 to R457). -/

namespace Sys2Proof.Machine

/-! ### The end of a collective (R425, R433; 12 R465, R483) -/

/-- Pins or unpins pages of a context (07 R269). -/
def pinPages (d : Dev) (ctx : Nat) (pages : List Nat) (up : Bool) : Dev :=
  modCtx d ctx (fun x => { x with pins := pages.foldl (fun m p => smMod 0 m p (fun n => if up then n + 1 else n - 1)) x.pins })

/-- The ranges of an admitted collective. -/
def rangesOf (d : Dev) (k : Coll) : List (Nat × Nat × Bool) :=
  match k.cid.bind (fun c => smFind d.cmds c) with
  | some c => collRanges d (groupDevs d k.group) k.member c k.desc
  | none => []

/-- The collective leaves this member: its pins drop. -/
def dropColl (d : Dev) (n : Nat) : Dev :=
  match getColl d n with
  | none => d
  | some k =>
    let d1 : Dev := { d with colls := { d.colls with live := smErase d.colls.live n } }
    k.wpins.foldl (fun d w => unpin d w.1 w.2 .coll) (if k.pins.isEmpty then d1 else pinPages d1 k.ctx k.pins false)

/-- What its end does to the weight slots that it writes (12 R483). -/
def markSlots (d : Dev) (k : Coll) (ok : Bool) : Dev :=
  k.met.foldl (fun d q =>
    let s := wslot (wset d q.1) q.2
    let d1 := if !ok && decide (s.state = .staging ∨ s.state = .ready) then
        modWSlot d q.1 q.2 (fun s => { s with state := .failed, reason := 0x05 }) else d
    if k.op = opRefold then modWSlot d1 q.1 q.2 (fun s => { s with layout := if ok then BitVec.ofNat 64 (leNat k.hash) else 0 })
    else d1) d

/-- Ends a collective with a status. Its pins stay until its final record is placed (R425; 12 R465). -/
def endColl (d : Dev) (n status detail : Nat) (result : List (Nat × Nat × Nat)) (slot : Option (List Byte)) : Dev :=
  match getColl d n with
  | none => d
  | some k =>
    match k.cid with
    | none => dropColl d n
    | some c =>
      let met := if k.op = opCommit then [] else slotsMet d k.ctx ((rangesOf d k).filter (fun r => r.2.2))
      finishCmd (modColl d n (fun k => { k with phase := .complete, met := met })) c status detail result slot

/-- Keeps the rows of a forward all-to-all that has ended OK, for the one that goes back (R448). -/
def keepRows (d : Dev) (k : Coll) : Dev :=
  { d with colls := { d.colls with okA2a := d.colls.okA2a.filter (fun p => !(p.1 == k.group && p.2.1 == k.id)) ++
    [(k.group, k.id, (span 0 (groupDevs d k.group).length).map (fun i => (smGet 0 k.placed i, smGet 0 k.took i)))] } }

/-- A collective's final record has been placed (R425, R432, R448; 12 R483). -/
def settleColl (d : Dev) (n : Nat) (k : Coll) : Dev :=
  let ok : Bool := k.status.toNat == stOk
  let d1 := markSlots d k ok
  let d2 := if ok && k.op == opAllToAll && !isReverse k then keepRows d1 k else d1
  let d3 : Dev := if ok && k.op == 1 then { d2 with colls := { d2.colls with checked := insertSorted k.group d2.colls.checked } } else d2
  dropColl d3 n

/-- The collectives whose final records have been placed. -/
def settleColls (d : Dev) : Dev :=
  (d.colls.live.filter (fun k => decide (k.2.phase = .complete) && (match k.2.cid with
    | some c => (smFind d.cmds c).isNone | none => true))).foldl (fun d k => settleColl d k.1 k.2) d

/-- The shards listed (R433): each SHARD once. -/
def listedShards (k : Coll) : List Shard :=
  ((k.recv ++ k.send).map (·.2)).foldl (fun l s => if s.lost && !l.any (fun t => t.idx == s.idx) then l ++ [s] else l) []

def listEntry (s : Shard) : List Byte :=
  natLe 4 s.idx ++ natLe 1 (if s.stale then 2 else 1) ++ natLe 1 (min s.total 255) ++ natLe 2 s.peer

/-- The end of a collective's data phase (R433, R447). -/
def endData (d : Dev) (n : Nat) : Dev :=
  match getColl d n with
  | none => d
  | some k =>
    let l := listedShards k
    let st := if l.any (fun s => s.stale) then stStaleShard else if l.isEmpty then stOk else stShardLost
    let drops := ((k.counts.map (fun p => p.2)).sum) - ((k.placed.map (fun p => p.2)).sum)
    endColl d n st 0 [(0x0C, 4, k.bytes / 4096), (0x10, 4, if k.op = opAllToAll then drops else k.resends), (0x14, 4, k.darns),
      (0x18, 4, l.length), (0x1C, 4, match l with | s :: _ => s.idx | [] => 0)] (some (l.flatMap listEntry))

/-! ### Landing and darning (R455 to R457) -/

/-- A shard is pulled from a holder: of a GATHER, of the GATHER of an ALL_REDUCE, or from a replica. -/
def pulled (k : Coll) (s : Shard) : Bool := k.op == opGather || (k.op == opAllReduce && s.hi == 0) || s.repl

/-- The destination bytes of a lost shard are open; a reduction's buffer stays as it is, not DONE (R457). -/
def openLost (d : Dev) (k : Coll) (s : Shard) : Dev :=
  if isReduce k.op ∧ s.hi ≠ 0 then d
  else { poke d k.ctx s.va ((span 0 s.bytes).map (Config.freeByte d.freeCtr)) with freeCtr := d.freeCtr + 1 }

/-- An attempt at a shard fails: 0 its CRC, 1 another reason, 2 STALE (R436, R456). -/
def failAttempt (d : Dev) (n key why : Nat) : Dev :=
  match getColl d n with
  | none => d
  | some k =>
    match smFind k.recv key with
    | none => d
    | some s =>
      let s1 : Shard := { s with total := s.total + 1, attempts := s.attempts + 1, landed := [], crc := none, at_ := d.now }
      if why ≠ 2 ∧ !s.repl ∧ s1.attempts < 4 then
        let d1 := modColl d n (fun k => { k with recv := smPut k.recv key s1, resends := k.resends + 1 })
        if why = 0 ∨ !pulled k s1 then sendResend d1 k s1 else sendFetch d1 k s1 true
      else
        let s2 : Shard := if why = 2 then { s1 with stales := s1.stales + 1 } else { s1 with fails := s1.fails + 1 }
        match (if noReplica k then [] else s2.alts) with
        | h :: t =>
          let s3 : Shard := { s2 with peer := h, alts := t, repl := true, attempts := 0 }
          sendFetch (modRecv d n key (fun _ => s3)) k s3 false
        | [] => modRecv (openLost d k s) n key (fun _ => { s2 with lost := true, stale := s2.fails == 0 && decide (0 < s2.stales) })

/-- A packet of a shard lands; after its last byte the shard is verified (R455). -/
def landData (d : Dev) (n key : Nat) (p : Packet) : Dev :=
  match getColl d n with
  | none => d
  | some k =>
    match smFind k.recv key with
    | none => d
    | some s =>
      let last := cpFlag p 0
      if settled s then
        if last then
          let d1 := modRecv d n key (fun s => { s with total := s.total + 1 })
          if s.done then sendAck d1 k p s else d1
        else d
      else if !((shardCuts s.bytes).contains (cpOff p, (cpData p).length)) then d
      else
        let d1 := poke d k.ctx (s.va + cpOff p) (cpData p)
        let s1 : Shard := { s with landed := insertSorted (cpOff p) s.landed, crc := if last then some (cpCrc p) else s.crc, at_ := d.now }
        let d2 := modColl d1 n (fun k => { k with recv := smPut k.recv key s1, bytes := k.bytes + (cpData p).length })
        match s1.crc with
        | none => d2
        | some c =>
          if s1.landed.length < ceilDiv s.bytes 4032 then d2
          else if crc32c (peek d2 k.ctx s.va s.bytes) = c then
            sendAck (modColl d2 n (fun k => { k with
              recv := smPut k.recv key { s1 with done := true, total := s1.total + 1 }
              darns := k.darns + b2n s1.repl })) k p s
          else failAttempt d2 n key 0

/-! ### Reductions (R442 to R445) -/

/-- Combines a partial with the values of a buffer: ROP MAX, MIN, ARGMAX or ARGMIN (R445). -/
def combVals (subn : Bool) (rop elems : Nat) (old new : List Byte) : List Byte :=
  (span 0 elems).flatMap (fun i =>
    let a := bufEntry old i
    let b := bufEntry new i
    let pick (x y : Entry) : List Byte := entryBytes { s := x.s, c := y.c }
    match rop with
    | 1 => pick { s := quiet (fmax subn a.s b.s), c := 0 } zeroEntry
    | 2 => pick { s := quiet (fmin subn a.s b.s), c := 0 } zeroEntry
    | _ =>
      let x := quiet (f32 subn a.s)
      let y := quiet (f32 subn b.s)
      let mx := rop == 3
      if argBeats mx y x || (!argBeats mx x y && decide (b.c.toNat < a.c.toNat)) then entryBytes b else entryBytes a)

/-- Chunks of a segment that partials have covered. -/
def coveredOf (k : Coll) (g : Nat) : List (Nat × Nat) := (k.covered.filter (fun q => q.1 == g)).map (·.2)

/-- A partial goes into its segment's buffer (R293, R445). -/
def reduceInto (d : Dev) (n : Nat) (k : Coll) (g lo hi : Nat) (src : List Byte) : Except RedErr Dev :=
  let subn := subnOf d k.ctx
  let rb := rdRb k.desc g
  let e := rdElems k.desc
  let note (d : Dev) : Dev := modColl d n (fun k => { k with covered := k.covered ++ [(g, lo, hi)] })
  if rdOp k.desc = 0 then
    let h := peek d k.ctx rb 256
    match planReduce h lo hi with
    | .error r => .error r
    | .ok p =>
      let slots := p.chain.map (fun c => (peek d k.ctx (rb + slotData e c.1) (8 * e), c.2))
      let out := quiet (combSlots subn e slots src)
      .ok (note (poke (poke d k.ctx (rb + slotData e p.dest) out) k.ctx rb (afterReduce h p)))
  else
    let cov := coveredOf k g
    if overlap cov lo hi ≠ 0 then .error .range
    else
      let va := rb + slotData e 0
      let out := combVals subn (rdOp k.desc) e (if cov.isEmpty then src else peek d k.ctx va (8 * e)) src
      let d1 := poke d k.ctx va out
      .ok (note (if overlap ((lo, hi) :: cov) 0 (rdN k.desc) = rdN k.desc then poke d1 k.ctx (rb + 9) [1#8, 0#8] else d1))

/-- The resolved bytes of a segment (R295, R442). The bits of stochastic rounding are open, and their logical index counts the elements of
the segment, which 03 R108 does not say of a collective: the model's choice (log 36). -/
def resolveSegment (d : Dev) (k : Coll) (g : Nat) : Dev :=
  let rb := rdRb k.desc g
  let e := rdElems k.desc
  let h := peek d k.ctx rb 256
  if !rbDone h || !rdHasDst k.desc then d
  else
    let f := rdFd k.desc
    let bs := peek d k.ctx (rb + slotData e (rbRoot h)) (8 * e)
    let (stream, d1) := if f.stoch then drawFree 64 d else (0, d)
    let ent (i : Nat) : Entry := let x := bufEntry bs i; if rdOp k.desc = 0 then x else { x with c := 0 }
    let codes := quiet ((span 0 e).mapM (fun i =>
      resolveInto (subnOf d k.ctx) f (if f.stoch then some (kcg (seedOfCtx d k.ctx) stream (BitVec.ofNat 64 i)) else none) (ent i)))
    poke d1 k.ctx (rdDst k.desc g) (packCodes f.elem codes)

/-- Acknowledges a partial that has been reduced (R442). -/
def ackPartial (d : Dev) (k : Coll) (s : Shard) : Dev :=
  sendColl d k s.peer { pkind := 4, shard := s.idx, lo := s.lo, hi := s.hi } s.va []

/-- This member owns a segment. -/
def ownsSegment (d : Dev) (k : Coll) (g : Nat) : Bool := rdOwner k.desc (groupDevs d k.group).length g == k.member

/-- The shard of a parked partial. -/
def parkedShard (k : Coll) (q : Nat × Nat × Nat × Nat) : Option Shard :=
  (k.recv.find? (fun r => r.2.idx == q.1 && r.2.lo == q.2.1 && r.2.hi == q.2.2.1)).map (·.2)

/-- Presents the parked partials of a segment again, as long as one goes in (R443); a combiner then acknowledges it (R442). -/
def presentParked (n g : Nat) : Nat → Dev → Dev
  | 0, d => d
  | fuel + 1, d =>
    match getColl d n with
    | none => d
    | some k =>
      let mine := k.parked.filter (fun q => q.1 == g)
      match firstSome (mine.map (fun q =>
          match reduceInto d n k g q.2.1 q.2.2.1 (peek d k.ctx ((rdPark k.desc).1 + 4096 * q.2.2.2) (8 * rdElems k.desc)) with
          | .ok d1 =>
            let d2 := modColl d1 n (fun k => { k with parked := k.parked.erase q })
            some (match parkedShard k q with
              | some s => if ownsSegment d k g then d2 else ackPartial d2 k s
              | none => d2)
          | .error _ => none)) with
      | some d1 => presentParked n g fuel d1
      | none => d

/-- A place of the park area that is free. -/
def parkPlace (k : Coll) : Option Nat :=
  (span 0 ((rdPark k.desc).2 / 4096)).find? (fun j => !k.parked.any (fun q => q.2.2.2 == j))

/-- A partial arrives (R442, R443): the owner acknowledges one that it parks, a combiner once it has reduced it. -/
def landPartial (d : Dev) (n key : Nat) (p : Packet) : Dev :=
  match getColl d n with
  | none => d
  | some k =>
    match smFind k.recv key with
    | none => d
    | some s =>
      let data := cpData p
      let g := s.idx
      let waits : Bool := !ownsSegment d k g && k.parked.any (fun q => q.1 == g && q.2.1 == s.lo && q.2.2.1 == s.hi)
      let keep (d : Dev) : Dev := modRecv d n key (fun s => { s with done := true, total := s.total + 1 })
      let took (d : Dev) : Dev := sendAck (keep d) k p s
      if s.done then (if waits then keep d else took d)
      else if s.lost then d
      else if data.length ≠ s.bytes ∨ crc32c data ≠ cpCrc p then failAttempt d n key 0
      else
        let d0 := modColl d n (fun k => { k with bytes := k.bytes + data.length })
        match reduceInto d0 n k g s.lo s.hi data with
        | .ok d1 =>
          let d2 := presentParked n g (k.parked.length + 1) d1
          let d3 := match getColl d2 n with
            | some k1 => if ownsSegment d k g then resolveSegment d2 k1 g else d2
            | none => d2
          took d3
        | .error .full =>
          (match parkPlace k with
            | some j => (if ownsSegment d k g then took else keep) (modColl (poke d0 k.ctx ((rdPark k.desc).1 + 4096 * j) data) n (fun k => { k with
                parked := k.parked ++ [(g, s.lo, s.hi, j)] }))
            | none => sendColl d0 k (cpSrc p) { pkind := 6, shard := g, lo := s.lo, hi := s.hi } s.va [])
        | .error _ => d0

/-- What a combiner sends on: chunk ranges and where their data lie, by rising LO (R442). Where slots are not used (R445), its one
array goes once for each node of the cover of its members' ranges (log 36). -/
def combinerSlots (d : Dev) (k : Coll) (g : Nat) (members : List Nat) : List ((Nat × Nat) × Nat) :=
  let rb := rdRb k.desc g
  let e := rdElems k.desc
  if rdOp k.desc = 0 then
    let h := peek d k.ctx rb 256
    let l := ((span 0 (rbSlots h)).filter (rbValid h)).map (fun j => ((rbLo h j, rbHi h j), rb + slotData e j))
    l.foldl (fun l r => let (a, b) := l.partition (fun q => decide (q.1.1 < r.1.1)); a ++ r :: b) []
  else (coverOf k.desc members).map (fun r => (r, rb + slotData e 0))

/-- A combiner that is not the owner forwards the segments whose node is complete (R442). -/
def forwardSlots (d : Dev) (n : Nat) : Dev :=
  match getColl d n with
  | none => d
  | some k =>
    if !isReduce k.op || kStages k != 2 then d
    else
      let devs := groupDevs d k.group
      let mine := nodeMembers d devs k.member
      (span 0 (rdSegs k.desc)).foldl (fun d g =>
        let o := rdOwner k.desc devs.length g
        if o = k.member ∨ partialTo d devs 2 k.desc g k.member ≠ k.member ∨ k.forwarded.contains g then d
        else
          let parts := (k.recv.filter (fun q => q.2.idx == g && q.2.hi != 0)).map (·.2)
          let note (d : Dev) : Dev := modColl d n (fun k => { k with forwarded := k.forwarded ++ [g] })
          if parts.any (fun s => s.lost) then note d
          else if parts.any (fun s => !s.done) || k.parked.any (fun q => q.1 == g)
              || k.send.any (fun q => q.2.idx == g && q.2.hi != 0 && !q.2.done)
              || overlap (coveredOf k g) 0 (rdN k.desc) != overlap (mine.map (rdRange k.desc)) 0 (rdN k.desc) then d
          else note (modColl d n (fun k => { k with send := addShards k.send ((combinerSlots d k g mine).map (fun q =>
            { idx := g, peer := o, va := q.2, bytes := 8 * rdElems k.desc, other := rdRb k.desc g, lo := q.1.1, hi := q.1.2 })) }))) d

/-! ### The shards of each operation -/

/-- What a member fetches and is asked for in a gather (R436, R446). -/
def gatherShards (d : Dev) (k : Coll) (devs : List Nat) : List Shard × List Shard :=
  let ask (s i : Nat) : Option (List Nat) :=
    askOrder d devs (kStages k) (k.op == opGather && notSelf k) (gatherHolders k.op k.desc devs.length s) i
  let ss := span 0 (gatherCount k.op k.desc)
  let recv := ss.filterMap (fun s =>
    let (_, dst, n) := gatherPlace k.op k.desc s
    let w := if k.op = opGather then seWset (shardE k.desc s) else 0xFF
    match ask s k.member with
    | some (h :: t) => some { idx := s, peer := h, va := dst, bytes := n, alts := t, wset := w, at_ := d.now }
    | some [] => some { idx := s, peer := 0xFFFF, va := dst, bytes := n, lost := true, fails := 1 }
    | none => none)
  let send := ss.flatMap (fun s =>
    let (src, dst, n) := gatherPlace k.op k.desc s
    let own := (gatherHolders k.op k.desc devs.length s).contains k.member
    (span 0 devs.length).filterMap (fun i =>
      if i = k.member then none
      else match ask s i with
        | some (h :: _) => if h = k.member then
            some { idx := s, peer := i, va := if own then src else dst, bytes := n, other := dst, at_ := d.now } else none
        | _ => none))
  (recv, send)

/-- The shards of a member when its data phase begins. -/
def firstShards (d : Dev) (k : Coll) (devs : List Nat) : List Shard × List Shard :=
  let me := k.member
  if k.op = opGather then gatherShards d k devs
  else if k.op = opBroadcast then
    let chains := chainsOf k.desc
    let at_ (s : Nat) : List Nat × Option Nat := let c := nth [] chains (seChain (shardE k.desc s)); (c, c.findIdx? (fun m => m == me))
    let ss := span 0 (nShards k.desc)
    (ss.filterMap (fun s => match at_ s with
      | (c, some (p + 1)) => some { idx := s, peer := nth 0 c p, va := seDst (shardE k.desc s), bytes := seBytes (shardE k.desc s),
                                    alts := (c.take p).reverse, asked := true, at_ := d.now }
      | _ => none),
     ss.filterMap (fun s => match at_ s with
      | (c, some p) => if p + 1 < c.length then
          some { idx := s, peer := nth 0 c (p + 1), va := if p = 0 then seSrc (shardE k.desc s) else seDst (shardE k.desc s),
                 bytes := seBytes (shardE k.desc s), other := seDst (shardE k.desc s), at_ := d.now } else none
      | _ => none))
  else if isReduce k.op then
    let e8 := 8 * rdElems k.desc
    let st := kStages k
    let gs := span 0 (rdSegs k.desc)
    let part (g i : Nat) (r : Nat × Nat) : Shard :=
      { idx := g, peer := i, va := rdRb k.desc g, bytes := e8, lo := r.1, hi := r.2, asked := true, at_ := d.now }
    let recv := gs.flatMap (fun g =>
      let o := rdOwner k.desc devs.length g
      let near := ((span 0 devs.length).filter (fun i => partialTo d devs st k.desc g i == me)).flatMap (fun i =>
        (coverOf k.desc [i]).map (part g i))
      let far := if st = 2 ∧ o = me then (leadersOf d devs).flatMap (fun l =>
          let c := partialTo d devs st k.desc g l
          if c = me then [] else (coverOf k.desc (nodeMembers d devs l)).map (part g c)) else []
      near ++ far)
    let send := gs.flatMap (fun g => (coverOf k.desc [me]).zipIdx.map (fun q =>
      { idx := g, peer := partialTo d devs st k.desc g me, va := rdPartial k.desc q.2 g, bytes := e8, other := rdRb k.desc g,
        lo := q.1.1, hi := q.1.2, at_ := d.now }))
    (recv, send)
  else if k.op = opAllToAll then
    let row := field k.desc 0 4
    let src (j : Nat) : Nat := field k.desc (0x20 + 16 * j) 8
    let rows (j : Nat) : Nat := field k.desc (0x28 + 16 * j) 4
    if isReverse k then
      let fwd := match d.colls.okA2a.find? (fun q => q.1 == k.group && q.2.1 == word k.hdr 0x2C) with | some q => q.2.2 | none => []
      let from_ (i : Nat) : Nat := (nth (0, 0) fwd i).1
      let to_ (i : Nat) : Nat := (nth (0, 0) fwd i).2
      ((span 0 devs.length).map (fun i =>
        { idx := i, peer := i, va := src i, bytes := row * min (to_ i) (rows i), asked := true, done := to_ i == 0, at_ := d.now }),
       (span 0 devs.length).map (fun i =>
        { idx := me, peer := i, va := field k.desc 8 8 + row * (((span 0 i).map from_).sum), bytes := row * from_ i,
          done := from_ i == 0, at_ := d.now }))
    else
      ((span 0 devs.length).map (fun i => { idx := i, peer := i, va := field k.desc 8 8, bytes := 0, asked := true, at_ := d.now }),
       (span 0 devs.length).map (fun j => { idx := me, peer := j, va := src j, bytes := row * rows j, at_ := d.now }))
  else if k.op = opRefold then
    let es := (mapEntries k.desc).zipIdx
    let mk (q : List Byte × Nat) : Shard :=
      { idx := q.2, peer := mePeer q.1, va := meLocal q.1, bytes := meBytes q.1, other := meOther q.1, lo := meRound q.1,
        alts := if meReplica q.1 = 0xFFFF then [] else [meReplica q.1], asked := meDir q.1 == 1, at_ := d.now }
    ((es.filter (fun q => meDir q.1 == 1)).map mk, (es.filter (fun q => meDir q.1 == 0)).map mk)
  else ([], [])

/-! ### Exchanging rows (R447) -/

/-- Places the rows of the sources whose counts are known, in source order, and answers each: at most fuel sources. -/
def placeRows (n : Nat) : Nat → Dev → Dev
  | 0, d => d
  | fuel + 1, d =>
    match getColl d n with
    | none => d
    | some k =>
      let i := k.placed.length
      match smFind k.counts i with
      | none => d
      | some c =>
        let row := field k.desc 0 4
        let base := (k.placed.map (·.2)).sum
        let p := min c (field k.desc 4 4 - base)
        let va := field k.desc 8 8 + row * base
        let d1 := modColl (poke d k.ctx (field k.desc 0x10 8 + 8 * i) (natLe 4 p)) n (fun k => { k with
          placed := smPut k.placed i p
          recv := smUpd k.recv i (fun s => { s with va := va, bytes := row * p, done := p == 0, at_ := d.now }) })
        placeRows n fuel (sendColl d1 k i { pkind := 9, lo := p, hi := 1 } va [])

/-! ### Refold rounds (R452) -/

/-- A round opens: READY to its senders, and its LOCAL copies go to the mangles of their destination dies, 64 KiB a piece (R452;
07 R270). -/
def openRound (d : Dev) (n : Nat) : Dev :=
  match getColl d n with
  | none => d
  | some k =>
    let es := (mapEntries k.desc).zipIdx.filter (fun q => meRound q.1 == k.round)
    let peers := insertAll ((es.filter (fun q => meDir q.1 == 1)).map (fun q => mePeer q.1)) []
    let d1 := peers.foldl (fun d m => sendColl d k m { pkind := 7, aux := k.round } 0 []) d
    let copies := es.filter (fun q => decide (2 ≤ meDir q.1))
    let shard (q : List Byte × Nat) : Shard :=
      { idx := q.2, peer := k.member, va := meOther q.1, bytes := meBytes q.1, lo := k.round, asked := true, copy := true,
        done := meBytes q.1 == 0 }
    let die (va : Nat) : Nat := ((smFind d.ctxs k.ctx).bind (fun x => dieAt x va)).getD 0
    let cut (q : List Byte × Nat) : List Piece := (span 0 (ceilDiv (meBytes q.1) 65536)).map (fun b =>
      { cid := k.cid.getD 0, op := .copy, q := q.2 + 65536 * b, die := die (meOther q.1 + 65536 * b), mang := none })
    modMem (modColl d1 n (fun k => { k with recv := addShards k.recv (copies.map shard) })) (fun m => { m with
      pieces := m.pieces ++ copies.flatMap cut })

/-- Goes on to the next rounds while every entry of the present one is finished: at most fuel rounds. -/
def nextRounds (n : Nat) : Nat → Dev → Dev
  | 0, d => d
  | fuel + 1, d =>
    match getColl d n with
    | none => d
    | some k =>
      if k.op = opRefold ∧ k.round + 1 < mapRounds k.desc
          ∧ (k.send ++ k.recv).all (fun q => decide (k.round < q.2.lo) || settled q.2) then
        nextRounds n fuel (openRound (modColl d n (fun k => { k with round := k.round + 1 })) n)
      else d

/-! ### Progress -/

/-- A shard may be sent now: 0 not yet, 1 yes, 2 never. -/
def maySendShard (k : Coll) (s : Shard) : Nat :=
  if k.op = opGather ∨ (k.op = opAllReduce ∧ s.hi = 0) then 0
  else if k.op = opBroadcast then
    match k.recv.find? (fun q => q.2.idx == s.idx) with
    | none => 1
    | some q => if q.2.done then 1 else if q.2.lost then 2 else 0
  else if k.op = opRefold then if s.lo = k.round ∧ k.ready.contains (s.peer, s.lo) then 1 else 0
  else if k.op = opAllToAll ∧ !isReverse k then if (smFind k.took s.peer).isSome then 1 else 0
  else 1

/-- Sends the shards that are due (R438, R442, R447, R452). -/
def startSends (d : Dev) (n : Nat) : Dev :=
  match getColl d n with
  | none => d
  | some k => (k.send.filter (fun q => !q.2.asked && !settled q.2)).foldl (fun d q =>
      match maySendShard k q.2 with
      | 0 => d
      | 1 =>
        let (ok, d1) := sendShard d k q.2 false
        modSend d1 n q.1 (fun s => { s with asked := true, total := 1, lost := !ok, at_ := d.now })
      | _ => modSend d n q.1 (fun s => { s with lost := true })) d

/-- Fetches shards, at most 64 at once (R435). -/
def issueFetches (d : Dev) (n : Nat) : Dev :=
  match getColl d n with
  | none => d
  | some k =>
    let out := (k.recv.filter (fun q => q.2.asked && pulled k q.2 && !settled q.2)).length
    ((k.recv.filter (fun q => !q.2.asked && !settled q.2)).take (64 - out)).foldl (fun d q =>
      sendFetch (modRecv d n q.1 (fun s => { s with asked := true, at_ := d.now })) k q.2 false) d

/-- An ALL_REDUCE whose reduction is finished begins its GATHER (R446). -/
def beginGather (d : Dev) (n : Nat) : Dev :=
  match getColl d n with
  | none => d
  | some k =>
    if k.op = opAllReduce ∧ !k.gathering ∧ (k.send ++ k.recv).all (fun q => settled q.2)
        ∧ (kStages k ≠ 2 ∨ (span 0 (rdSegs k.desc)).all (fun g =>
            let devs := groupDevs d k.group
            rdOwner k.desc devs.length g == k.member || partialTo d devs 2 k.desc g k.member != k.member || k.forwarded.contains g)) then
      let (r, s) := gatherShards d k (groupDevs d k.group)
      modColl d n (fun k => { k with gathering := true, recv := addShards k.recv r, send := addShards k.send s })
    else d

/-- Everything of the member's data phase is finished. -/
def dataDone (d : Dev) (k : Coll) : Bool :=
  let devs := groupDevs d k.group
  (k.send ++ k.recv).all (fun q => settled q.2)
    && (k.op != opRefold || decide (mapRounds k.desc ≤ k.round + 1))
    && (k.op != opAllReduce || k.gathering)
    && (k.op != opAllToAll || isReverse k || decide (k.placed.length = devs.length))
    && (!isReduce k.op || kStages k != 2 || (span 0 (rdSegs k.desc)).all (fun g =>
        rdOwner k.desc devs.length g == k.member || partialTo d devs 2 k.desc g k.member != k.member || k.forwarded.contains g))

/-! ### Serving (R436, R466) -/

/-- A holder's version check (12 R466): the shard is not of the version asked. A collective that asks for none takes any
(log 36). -/
def staleHere (d : Dev) (ctx w va n : Nat) (ver : Word) : Bool :=
  ver != noVersion && (match versionHere d w va n with
    | none => true
    | some (c, s, v) =>
      let st := (wslot (wset d w) s).state
      c != ctx || v != ver || !(decide (st = .committed ∨ st = .live ∨ st = .held ∨ st = .staging)))

/-- What a FETCH meets: not here yet, not here, or the address of the bytes. -/
inductive Held where
  | later | never | stale | here (va n other : Nat)
  deriving DecidableEq, Repr

def lookShard (d : Dev) (k : Coll) (p : Packet) : Held :=
  let s := cpShard p
  let devs := groupDevs d k.group
  let mine (other : Nat) : Held := match k.recv.find? (fun q => q.2.idx == s && q.2.hi == 0) with
    | none => .never
    | some q => if q.2.done then .here q.2.va q.2.bytes other else if q.2.lost then .never else .later
  if k.op = opGather then
    let e := shardE k.desc s
    if nShards k.desc ≤ s then .never
    else if (seHolders e).contains k.member then
      if seWset e ≠ 0xFF ∧ staleHere d k.ctx (seWset e) (seSrc e) (seBytes e) (word p.data 0x10) then .stale
      else .here (seSrc e) (seBytes e) (seDst e)
    else mine (seDst e)
  else if k.op = opBroadcast then
    let e := shardE k.desc s
    if (nth [] (chainsOf k.desc) (seChain e)).headD 0xFFFF = k.member then .here (seSrc e) (seBytes e) (seDst e) else mine (seDst e)
  else if k.op = opAllReduce then
    if rdOwner k.desc devs.length s = k.member then
      if rbDone (peek d k.ctx (rdRb k.desc s) 256) then .here (rdDst k.desc s) (rdSegBytes k.desc) (rdDst k.desc s)
      else if k.recv.any (fun q => q.2.idx == s && q.2.hi != 0 && q.2.lost) then .never else .later
    else if k.gathering then mine (rdDst k.desc s) else .later
  else if k.op = opRefold then .here (cpHash p) (cpHi p) (64 * p.addr)
  else .never

/-- A FETCH is answered: with the shard, with NACK, or later (R435, R436, R456). -/
def serveFetch (d : Dev) (n : Nat) (p : Packet) : Dev :=
  match getColl d n with
  | none => d
  | some k =>
    let repl := cpFlag p 1
    let nack (r : Nat) : Dev := sendColl d k (cpSrc p) { pkind := 10, shard := cpShard p, lo := cpLo p, cfl := b2n repl * 2, aux := r } 0 []
    match lookShard d k p with
    | .later => modColl d n (fun k => { k with held := k.held ++ [p] })
    | .never => nack 2
    | .stale => nack 1
    | .here va m other =>
      let same (q : Nat × Shard) : Bool :=
        q.2.idx == cpShard p && q.2.peer == cpSrc p && q.2.hi == 0 && (k.op != opRefold || q.2.repl)
      let (key, send) := match k.send.find? same with
        | some q => (q.1, k.send)
        | none =>
          let s : Shard := { idx := cpShard p, peer := cpSrc p, va := va, bytes := m }
          (nextKey k.send, addShards k.send [s])
      let s : Shard := { smGet { idx := 0, peer := 0, va := 0, bytes := 0 } send key with
        va := va, bytes := m, other := other, lo := cpLo p, repl := repl, asked := true, at_ := d.now }
      let (ok, d1) := sendShard (modColl d n (fun k => { k with send := smPut send key { s with total := s.total + 1 } })) k s (cpFlag p 3)
      if ok then d1
      else sendColl (modSend d1 n key (fun s => { s with done := true })) k (cpSrc p)
        { pkind := 10, shard := cpShard p, lo := cpLo p, cfl := b2n repl * 2, aux := 2 } 0 []

/-! ### Packets of the data phase -/

/-- The shard to be received that a DATA packet belongs to. -/
def recvKey (k : Coll) (p : Packet) : Option Nat :=
  (k.recv.find? (fun q =>
    let s := q.2
    if k.op = opRefold then
      s.peer == cpSrc p && s.lo == cpAux p && s.va + cpOff p == 64 * p.addr && (s.repl == cpFlag p 1)
    else s.idx == cpShard p && s.peer == cpSrc p && s.lo == cpLo p && s.hi == cpHi p)).map (·.1)

/-- The shard being sent that an answer names. -/
def sendKey (k : Coll) (p : Packet) : Option Nat :=
  (k.send.find? (fun q =>
    let s := q.2
    s.peer == cpSrc p && (if k.op = opRefold ∧ ckOf p = 5 then s.other == 64 * p.addr && !s.repl
      else s.idx == cpShard p && s.repl == cpFlag p 1 && (k.op == opRefold || (s.lo == cpLo p && s.hi == cpHi p))))).map (·.1)

/-- Sends a shard again (R443, R455, R457). -/
def sendAgain (d : Dev) (n key : Nat) (retry : Bool) : Dev :=
  match getColl d n with
  | none => d
  | some k =>
    match smFind k.send key with
    | none => d
    | some s =>
      if settled s then d
      else if k.op = opAllToAll ∧ !isReverse k ∧ (smFind k.took s.peer).isNone then
        sendColl (modSend d n key (fun s => { s with total := s.total + 1, at_ := d.now })) k s.peer
          { pkind := 9, lo := s.bytes / max 1 (field k.desc 0 4), hi := 0 } 0 []
      else
        let (ok, d1) := sendShard d k s retry
        modColl d1 n (fun k => { k with
          resends := k.resends + b2n retry
          send := smPut k.send key { s with asked := true, busy := none, total := s.total + b2n retry, lost := !ok, at_ := d.now } })

/-- A MEM.MANGLE REDUCE into the buffer has begun and has not ended: a partial from a link waits (07 R293). -/
def reducing (d : Dev) (ctx va : Nat) : Bool :=
  d.cmds.any (fun q => opcodeC q.2 == 0x0407 && mOp q.2 == 2 && !q.2.info.isEmpty && q.2.fin.isNone && cmdContext q.2 == ctx
    && blk q.2 0 8 == va)

/-- What a packet of the data phase does (R435 to R457). -/
def dataPacket (n : Nat) (d : Dev) (p : Packet) : Dev :=
  match getColl d n with
  | none => d
  | some k =>
    match ckOf p with
    | 2 => (match recvKey k p with
      | some key =>
        if isReduce k.op ∧ cpHi p ≠ 0 then
          (if reducing d k.ctx (rdRb k.desc (cpShard p)) then modColl d n (fun k => { k with held := k.held ++ [p] })
           else landPartial d n key p)
        else landData d n key p
      | none => if k.op = opRefold then tallyCount d 0x48 0 1 srcJenorneb else d)
    | 3 => serveFetch d n p
    | 4 => (match sendKey k p with
      | some key => modSend d n key (fun s => { s with done := true, lost := false })
      | none => d)
    | 5 => (match sendKey k p with | some key => sendAgain d n key true | none => d)
    | 6 => (match sendKey k p with | some key => modSend d n key (fun s => { s with busy := some d.now }) | none => d)
    | 7 => modColl d n (fun k => { k with ready := k.ready ++ [(cpSrc p, cpAux p)] })
    | 9 =>
      if k.op ≠ opAllToAll ∨ isReverse k then d
      else if cpHi p = 0 then
        if (smFind k.counts (cpSrc p)).isSome then d
        else placeRows n (groupDevs d k.group).length (modColl d n (fun k => { k with counts := smPut k.counts (cpSrc p) (cpLo p) }))
      else
        let row := field k.desc 0 4
        let d1 := poke d k.ctx (field k.desc 0x10 8 + 8 * cpSrc p + 4) (natLe 4 (cpLo p))
        let set_ (q : Nat × Shard) : Nat × Shard :=
          if q.2.peer = cpSrc p ∧ !q.2.asked then (q.1, { q.2 with bytes := row * cpLo p, other := 64 * p.addr, done := cpLo p == 0 })
          else q
        modColl d1 n (fun k => { k with took := smPut k.took (cpSrc p) (cpLo p), send := k.send.map set_ })
    | 10 => (match k.recv.find? (fun q => q.2.idx == cpShard p && q.2.peer == cpSrc p && q.2.hi == 0 && q.2.asked) with
      | some (key, s) => if settled s then d else failAttempt d n key (if cpAux p = 1 then 2 else 1)
      | none => d)
    | _ => d

/-- Packets that waited are looked at again; a shard is sent on as soon as it is verified (R438). -/
def replayHeld (d : Dev) (n : Nat) : Dev :=
  match getColl d n with
  | none => d
  | some k => k.held.foldl (fun d p => startSends (dataPacket n d p) n) (modColl d n (fun k => { k with held := [] }))

/-! ### The data phase begins (R426, R431) -/

/-- Ranges overlap, one of them written. -/
def collsMeet (a b : List (Nat × Nat × Bool)) : Bool :=
  a.any (fun x => b.any (fun y => (x.2.2 || y.2.2) && decide (x.1 < y.1 + y.2.1) && decide (y.1 < x.1 + x.2.1)))

/-- No collective of an earlier COLL_ID, with an overlapping range, is in flight here (R426). -/
def mayBeginData (d : Dev) (n : Nat) (k : Coll) : Bool :=
  let mine := rangesOf d k
  d.colls.live.all (fun q => q.1 == n || q.2.cid.isNone || decide (q.2.phase = .complete) || q.2.ctx != k.ctx || q.2.op == opCommit
    || !serialLt q.2.id k.id || !collsMeet mine (rangesOf d q.2))

/-- A member's first acts of the data phase. -/
def openData (d : Dev) (n : Nat) (k : Coll) : Dev :=
  let devs := groupDevs d k.group
  let (r, s) := firstShards d k devs
  let d1 := modColl d n (fun k => { k with phase := .data, recv := addShards [] r, send := addShards [] s })
  if isReduce k.op then
    let gs := (span 0 (rdSegs k.desc)).filter (fun g => r.any (fun s => s.idx == g))
    gs.foldl (fun d g => poke d k.ctx (rdRb k.desc g) (rbInit (rdElems k.desc) (rdN k.desc - 1) (rdSlots k.desc))) d1
  else if k.op = opAllToAll then
    let row := field k.desc 0 4
    if isReverse k then
      (span 0 devs.length).foldl (fun d i =>
        let got := match r.find? (fun s => s.idx == i) with | some s => s.bytes | none => 0
        let all := row * field k.desc (0x28 + 16 * i) 4
        poke d k.ctx (field k.desc (0x20 + 16 * i) 8 + got) (List.replicate (all - got) 0#8)) d1
    else (span 0 devs.length).foldl (fun d j =>
        sendColl d k j { pkind := 9, lo := field k.desc (0x28 + 16 * j) 4, hi := 0 } 0 []) d1
  else if k.op = opRefold then openRound d1 n
  else d1

/-- Begins the data phase once it may. -/
def tryOpen (d : Dev) (n : Nat) : Dev :=
  match getColl d n with
  | none => d
  | some k => if k.phase = .go ∧ mayBeginData d n k then replayHeld (openData d n k) n else d

/-- One round of progress of a member. -/
def pumpOnce (d : Dev) (n : Nat) : Dev :=
  startSends (nextRounds n 65 (issueFetches (forwardSlots (replayHeld (startSends d n) n) n) n)) n

/-- Goes on with a collective as far as it can, and ends it. -/
def pump (d : Dev) (n : Nat) : Dev :=
  let d1 := tryOpen d n
  match getColl d1 n with
  | none => d1
  | some k =>
    if k.phase ≠ .data then d1
    else
      let d2 := beginGather (pumpOnce d1 n) n
      let d3 := pumpOnce d2 n
      match getColl d3 n with
      | some k1 => if dataDone d3 k1 then endData d3 n else d3
      | none => d3

end Sys2Proof.Machine
end

