-- ==== Sys2Proof/Machine/ServeOps.lean ====
section
/-! DEFINITION. The serving table, request records, the cost of steps and the admission of requests (09 R343 to R366, R373 to
R381). -/

namespace Sys2Proof.Machine

/-! ### The serving table (R347, R348) -/

def servTab (d : Dev) (ctx : Nat) : List Byte := tableOf d kindServing ctx
def stResident (t : List Byte) : Nat := field t 2 1
def stRecords (t : List Byte) : Nat := field t 4 4
def stWork (t : List Byte) : Nat := field t 8 8
def stWorkBytes (t : List Byte) : Nat := field t 0x10 8
def stRollouts (t : List Byte) : Nat := field t 0x18 4
def stEntries (t : List Byte) : List (List Byte) := (span 0 (field t 1 1)).map (fun k => slice t (0x40 + 128 * k) 128)

def seId (e : List Byte) : Nat := field e 0 1
def seKind (e : List Byte) : Nat := field e 1 1
def seDraft (e : List Byte) : Nat := field e 2 1
def seKmax (e : List Byte) : Nat := field e 3 1
def sePool (e : List Byte) : Nat := field e 4 1
def seSlot (e : List Byte) : Nat := field e 5 1
def seMembers (e : List Byte) : Nat := field e 6 1
def seVocab (e : List Byte) : Nat := field e 8 4
def seRows (e : List Byte) : Nat := field e 0x0C 4
def seChunk (e : List Byte) : Nat := max 1 (field e 0x10 4)
def seHorizon (e : List Byte) : Nat := let h := field e 0x14 2; if h = 0 then 256 else h
def seWeights (e : List Byte) : Nat := field e 0x30 8
def seWeightBytes (e : List Byte) : Nat := field e 0x38 8
def seStop (e : List Byte) (i : Nat) : Word := word e (0x40 + 4 * i)
def seMember (e : List Byte) (i : Nat) : Nat := field e (0x60 + 2 * i) 2 % 2 ^ 13

def sEntry (d : Dev) (ctx m : Nat) : Option (List Byte) := (stEntries (servTab d ctx)).find? (fun e => seId e == m)

def draftOf (d : Dev) (ctx : Nat) (e : List Byte) : Option (List Byte) := if seDraft e = 0xFF then none else sEntry d ctx (seDraft e)

/-- The weight set of a model (log 30). -/
def modelSet (d : Dev) (ctx : Nat) (e : List Byte) : Option Nat := setOfRange d ctx (seWeights e)

/-- The live version of a model; no version for one that lies in no weight set (log 30). -/
def modelVersion (d : Dev) (ctx : Nat) (e : List Byte) : Word :=
  match modelSet d ctx e with | some w => liveVersion (wset d w) | none => noVersion

/-- The version can be pinned for a step (12 R465). -/
def versionOk (d : Dev) (ctx : Nat) (e : List Byte) (ver : Word) : Bool :=
  match modelSet d ctx e with
  | none => true
  | some w => match verSlot (wset d w) ver with | some s => pinOk (wslot (wset d w) s) | none => false

/-! ### The serving area: rollout table, batch table, output areas (R347; log 33) -/

def align64 (n : Nat) : Nat := ceilDiv n 64 * 64

def batchVa (t : List Byte) : Nat := stWork t + 64 * stRollouts t

def outBase (t : List Byte) : Nat :=
  align64 (batchVa t + ((stEntries t).map (fun e => 64 + 48 * seRows e)).foldl max 0)

/-- The lowest place for an output area of n bytes. -/
def placeOut (d : Dev) (ctx n : Nat) : Option Nat :=
  match smFind d.ctxs ctx with
  | none => none
  | some x =>
    let t := servTab d ctx
    let used := x.serve.outTop
    let free (a : Nat) : Bool := decide (a + n ≤ stWork t + stWorkBytes t)
      && used.all (fun u => decide (a + n ≤ u.1) || decide (u.1 + u.2 ≤ a))
    ((outBase t :: used.map (fun u => align64 (u.1 + u.2))).filter free).foldl (fun b a =>
      match b with | none => some a | some c => some (min a c)) none

/-! ### Request records (R343 to R346) -/

def getReq (d : Dev) (slot : Nat) : Req := smGet {} d.reqs slot
def modReq (d : Dev) (slot : Nat) (f : Req → Req) : Dev := { d with reqs := smPut d.reqs slot (f (getReq d slot)) }
def modServe (d : Dev) (ctx : Nat) (f : Serve → Serve) : Dev := modCtx d ctx (fun x => { x with serve := f x.serve })

/-- The handle of a record. A request that waits without one has none (R364; log 64). -/
def reqHandle (slot : Nat) (r : Req) : Nat := if 131072 ≤ slot then 0xFFFFFFFF else slot + 2 ^ 17 * r.gen

/-- The generation that follows in a slot: 0xFFFF_FFFF names no request (R343). -/
def nextGen (slot gen : Nat) : Nat := if slot = 131071 ∧ gen = 32766 then 0 else (gen + 1) % 2 ^ 15

/-- The request that a handle names in a context (R343). -/
def reqFind (d : Dev) (ctx handle : Nat) : Option (Nat × Req) :=
  match smFind d.reqs (handle % 2 ^ 17) with
  | some r => if r.state ≠ .free ∧ r.ctx = ctx ∧ reqHandle (handle % 2 ^ 17) r = handle then some (handle % 2 ^ 17, r) else none
  | none => none

/-- The request submitted as a host sequence number on a queue (R373). -/
def reqByHost (d : Dev) (ctx q : Nat) (hs : Word) : Option (Nat × Req) :=
  d.reqs.find? (fun p => decide (p.2.state ≠ .free) && p.2.ctx == ctx && p.2.queue == q && p.2.hostSeq == hs)

def isActive (r : Req) : Bool := !r.ended && decide (r.state = .prefill ∨ r.state = .decode)

/-- Requests in the batch of a context. -/
def activeReqs (d : Dev) (ctx : Nat) : List (Nat × Req) := d.reqs.filter (fun p => p.2.ctx == ctx && isActive p.2)

def reqLen (r : Req) : Nat := r.promptLen + r.outLen
def hasSpec (r : Req) : Bool := r.sflags.getLsbD 2

/-- The header DEADLINE of a request's command, as an h-cycle. -/
def reqDeadline (d : Dev) (r : Req) : Option Nat := (r.cid.bind (smFind d.cmds)).bind deadlineOf

def hasGoal (d : Dev) (r : Req) : Bool := r.ttftGoal != 0 || r.tbtGoal != 0 || (reqDeadline d r).isSome

/-- The lesser of two instants, none being never. -/
def sooner (a b : Option Nat) : Option Nat :=
  match a, b with | none, b => b | a, none => a | some x, some y => some (min x y)

/-- When the next token of a request is due (R355). -/
def nextDue (d : Dev) (r : Req) : Option Nat :=
  let g := if r.outLen = 0 then (if r.ttftGoal = 0 then none else some (r.arrival + 400 * r.ttftGoal))
    else (if r.tbtGoal = 0 then none else some (r.lastDeliv + 400 * r.tbtGoal))
  sooner g (reqDeadline d r)

/-- The slot of a new record: FREE, else the DONE record without a rollout that became DONE first (R346). -/
def freeRecord (d : Dev) : Option Nat :=
  match (span 0 (min 131072 (d.reqs.length + 1))).find? (fun k => decide ((getReq d k).state = .free)) with
  | some k => some k
  | none => ((d.reqs.filter (fun p => decide (p.2.state = .done) && p.2.rollout == 0xFFFFFFFF)).foldl (fun b p =>
      match b with | none => some p | some q => if p.2.doneAt < q.2.doneAt then some p else some q) none).map (·.1)

def recordsHeld (d : Dev) (ctx : Nat) : Nat :=
  (d.reqs.filter (fun p => decide (p.2.state ≠ .free) && p.2.ctx == ctx && decide (p.1 < 131072))).length

/-- A request's REWARD: as the host or a scorer has set it (R381, R382). -/
def reqReward (d : Dev) (r : Req) : Word :=
  if r.rollout = 0xFFFFFFFF then r.reward
  else
    let e := peek d r.ctx (stWork (servTab d r.ctx) + 64 * r.rollout) 64
    if field e 0x28 2 = 3 then word e 0x24 else r.reward

def reqStateCode : ReqState → Nat
  | .free => 0 | .waiting => 1 | .prefill => 2 | .decode => 3 | .preempted => 4 | .done => 5

/-- The request record as REQ.QUERY gives it (R344). -/
def reqRecord (d : Dev) (slot : Nat) (r : Req) : List Byte :=
  natLe 4 (reqHandle slot r) ++ natLe 1 (reqStateCode r.state) ++ natLe 1 r.model ++ natLe 1 r.sflags.toNat
    ++ natLe 1 (b2n r.unreserved + 2 * b2n r.specPaused) ++ natLe 1 r.queue ++ natLe 1 r.stop ++ natLe 1 r.k ++ natLe 1 0
    ++ natLe 4 r.hostSeq.toNat ++ natLe 4 r.seq.toNat ++ natLe 4 r.promptLen ++ natLe 4 r.maxNew ++ natLe 4 r.outLen
    ++ natLe 4 r.reservedTo ++ natLe 4 r.vFirst.toNat ++ natLe 4 r.vLast.toNat ++ natLe 4 r.vPos ++ natLe 4 r.ttftGoal
    ++ natLe 4 r.tbtGoal ++ natLe 4 r.ttft ++ natLe 4 r.tbtMax ++ natLe 8 r.stream.toNat ++ natLe 8 r.outVa
    ++ natLe 4 r.drafted ++ natLe 4 r.accepted ++ natLe 2 r.preempts ++ natLe 2 0 ++ natLe 2 r.status.toNat ++ natLe 2 0
    ++ natLe 4 (reqReward d r).toNat ++ natLe 4 r.rollout ++ List.replicate 24 0#8

/-- A rollout table entry (R381). -/
def rolloutBytes (slot : Nat) (r : Req) (state : Nat) : List Byte :=
  natLe 4 (reqHandle slot r) ++ natLe 4 r.seq.toNat ++ natLe 4 r.promptLen ++ natLe 4 r.outLen ++ natLe 8 r.outVa
    ++ natLe 4 r.vFirst.toNat ++ natLe 4 r.vLast.toNat ++ natLe 4 r.vPos ++ natLe 4 r.reward.toNat ++ natLe 2 state
    ++ natLe 2 r.status.toNat ++ List.replicate 20 0#8

def rolloutVa (d : Dev) (r : Req) : Nat := stWork (servTab d r.ctx) + 64 * r.rollout

/-- Frees the KV sequence that a handle names, if it is live. -/
def freeHandle (d : Dev) (ctx : Nat) (h : Word) : Dev :=
  match seqFind d ctx h.toNat with
  | some (n, slot, _) => unslow ctx n (freeSeq d ctx n slot)
  | none => d

/-- The other members of a model's group (R380). -/
def otherMembers (e : List Byte) : List Nat := (span 1 (seMembers e - 1)).map (seMember e)

/-- What a leader tells the members about a KV sequence, so that one handle names it in the pool of each (R362, R380; log 32): made, cut
to a length, or freed. -/
inductive KvNews where
  | made | cut | freed
  deriving DecidableEq, Repr

def newsCode : KvNews → Nat
  | .made => 1 | .cut => 2 | .freed => 3

/-- Tells the other members of a request's model about one of its sequences. -/
def tellMembers (d : Dev) (r : Req) (h : Word) (what : KvNews) (parent : Word) (len reserved : Nat) : Dev :=
  match sEntry d r.ctx r.model with
  | none => d
  | some e =>
    if h = noVersion then d
    else
      let pool := match seqFind d r.ctx h.toNat with | some (n, _, _) => n | none => sePool e
      (otherMembers e).foldl (fun d m => sendMsg d m r.ctx 0 (natLe 4 8 ++ natLe 4 (newsCode what) ++ natLe 4 pool ++ natLe 4 h.toNat
        ++ natLe 4 r.version.toNat ++ natLe 4 parent.toNat ++ natLe 4 len ++ natLe 4 reserved)) d

/-- A request's sequence is dropped on every member. -/
def dropHandle (d : Dev) (r : Req) (h : Word) : Dev := freeHandle (tellMembers d r h .freed noVersion 0 0) r.ctx h

/-- The record becomes FREE with its output area, its rollout entry and the rollout's sequence (R346, R384). -/
def releaseReq (d : Dev) (slot : Nat) : Dev :=
  let r := getReq d slot
  let d1 := if r.rollout = 0xFFFFFFFF then d
    else dropHandle (poke (modServe d r.ctx (fun s => { s with rollouts := smErase s.rollouts r.rollout }))
      r.ctx (rolloutVa d r + 0x28) [0#8, 0#8]) r r.seq
  let d2 := modServe d1 r.ctx (fun s => { s with outTop := s.outTop.filter (fun u => u.1 != r.outVa) })
  if 131072 ≤ slot then { d2 with reqs := smErase d2.reqs slot } else modReq d2 slot (fun _ => { gen := r.gen })

/-- The final record of a request has been placed: the record is DONE, with its status, and a rollout's entry is written whole, its
STATE last (R344, R345, R381). One that waited without a record is gone. -/
def closeReq (d : Dev) (slot : Nat) : Dev :=
  let r := getReq d slot
  let r1 : Req := { r with
    state := .done, ended := false, status := r.endStatus, doneAt := 1 + (d.reqs.map (fun p => p.2.doneAt)).foldl max 0 }
  if 131072 ≤ slot then { d with reqs := smErase d.reqs slot }
  else
    let d1 := modReq d slot (fun _ => r1)
    if r.rollout = 0xFFFFFFFF then d1
    else
      let bs := rolloutBytes slot r1 (if r.stop ≤ 2 then 2 else 4)
      let va := rolloutVa d1 r
      poke (poke (poke d1 r.ctx va (bs.take 0x28)) r.ctx (va + 0x2A) (bs.drop 0x2A)) r.ctx (va + 0x28) (slice bs 0x28 2)

/-- Every request whose final record has been placed is DONE (R345). -/
def settleReqs (d : Dev) : Dev :=
  ((d.reqs.filter (fun p => p.2.ended && (match p.2.cid with
    | some c => (smFind d.cmds c).isNone | none => true))).map (·.1)).foldl closeReq d

/-- The end of a request (R354, R365, R374): it leaves the batch with its sequences, save those of a rollout that has run to its end;
its final record is to be placed. The status of a late end is found with that record. -/
def endReq (d : Dev) (slot status detail stop : Nat) : Dev :=
  let r := getReq d slot
  let r1 : Req := { r with ended := true, endStatus := BitVec.ofNat 16 status, stop := stop, cancel := false }
  let d1 := modReq d slot (fun _ => r1)
  let d2 := if r.rollout = 0xFFFFFFFF ∨ 2 < stop then dropHandle d1 r r.seq else d1
  let d3 := dropHandle d2 r r.draftSeq
  match r.cid with
  | none => closeReq d3 slot
  | some c => finishCmd d3 c status detail
      [(0x0C, 4, reqHandle slot r), (0x10, 4, r.outLen), (0x14, 4, stop), (0x18, 4, r.ttft), (0x1C, 4, r.tbtMax)] none

/-! ### The cost of steps (R360, R361) -/

/-- What a request adds to a step: member, positions it holds at most, rows at most. -/
abbrev Load := Nat × Nat × Nat

/-- T_step at the worst state of a group, times 2^149 (R360). -/
def tStep (e : List Byte) (l : List Load) : Nat :=
  let ms := (l.map (·.1)).eraseDups
  let on (m : Nat) : List Load := l.filter (fun q => q.1 == m)
  let n := (ms.map (fun m => ((on m).map (fun q => q.2.1)).sum)).foldl max 0
  let a := (ms.map (fun m => ((on m).map (fun q => q.2.1 * q.2.2)).sum
    + seChunk e * ((on m).map (fun q => q.2.1)).foldl max 0)).foldl max 0
  let r := (l.map (fun q => q.2.2)).sum + seChunk e
  let c (o : Nat) : Nat := fx (field e o 4)
  c 0x18 + max (c 0x1C + c 0x20 * n) (c 0x24 * r + c 0x28 * a)

/-- The step groups of some requests: model and version (R355). -/
def groupsOf (l : List (Nat × Req)) : List (Nat × Word) := (l.map (fun p => (p.2.model, p.2.version))).eraseDups

def inGroup (g : Nat × Word) (r : Req) : Bool := r.model == g.1 && r.version == g.2

/-- T_round as a fraction, in hub µs: over SHARE, the steps at the rate of the present window, and one T_switch for each step
(R361, 13 R513). -/
def tRound (d : Dev) (ctx : Nat) (l : List (Nat × Req)) : Nat × Nat :=
  match smFind d.ctxs ctx with
  | none => (0, 1)
  | some x =>
    let parts : List (Nat × Nat) := (groupsOf l).map (fun g =>
      match sEntry d ctx g.1 with
      | none => (0, 0)
      | some e =>
        let mem := (l.filter (fun p => inGroup g p.2)).map (·.2)
        let main := tStep e (mem.map (fun r => (r.member, r.reservedTo, if hasSpec r then 1 + seKmax e else 1)))
        match mem.any hasSpec, draftOf d ctx e with
        | true, some f => (main + seKmax e * tStep f ((mem.filter hasSpec).map (fun r => (r.member, r.reservedTo, 1))), 1 + seKmax e)
        | _, _ => (main, 1))
    let work := (parts.map (·.1)).sum
    let switches := (parts.map (·.2)).sum * stepSwitchNs d ctx x.part
    let rate := max 1 (ctxRate d x)
    (shareDen d ctx x.part * (16000 * work + rate * switches * fxOne), max 1 x.weight * rate * fxOne * 1000)

/-- A fraction of hub µs is at most a number of them. -/
def fracLe (f : Nat × Nat) (n : Nat) : Bool := decide (f.1 ≤ n * f.2)

/-! ### Models in memory (R378) -/

/-- The leaves of a model's weights that are not in the part's memory. -/
def awayPages (d : Dev) (ctx : Nat) (e : List Byte) : SMap Pte :=
  match smFind d.ctxs ctx with
  | none => []
  | some x => (leavesIn x (seWeights e) (seWeightBytes e)).filter (fun q => q.2.transit || decide (q.2.kind = .slow))

def isResident (d : Dev) (ctx : Nat) (e : List Byte) : Bool := (awayPages d ctx e).isEmpty

/-- The model has an admitted request, or is the draft of one that has. -/
def modelBusy (d : Dev) (ctx m : Nat) : Bool :=
  (activeReqs d ctx).any (fun p => p.2.model == m || (match sEntry d ctx p.2.model with | some e => seDraft e == m | none => false))

/-- A page is to leave for the slower tier, or leaves now. -/
def leaving (d : Dev) (ctx page : Nat) : Bool :=
  (match waitOf d ctx page with | some w => w.to_ == 2 | none => false)
    || (match moveOf d ctx page with | some m => m.dest.isNone | none => false)

/-- A model's weights are being demoted. -/
def modelLeaving (d : Dev) (ctx : Nat) (e : List Byte) : Bool :=
  match smFind d.ctxs ctx with
  | none => false
  | some x => (leavesIn x (seWeights e) (seWeightBytes e)).any (fun q => leaving d ctx q.1)

/-- Hub µs to recall what is away of some models. -/
def recallUs (d : Dev) (ctx : Nat) (es : List (List Byte)) : Nat :=
  let back := es.flatMap (fun f => (awayPages d ctx f).flatMap (fun q => q.2.slowPgs))
  if back.isEmpty then 0 else tMove d (partOfCtx d ctx) back

/-- What bringing a model in takes: models to demote, models to recall, hub µs; none: it cannot be made resident (R378). A model with
an admitted request counts as resident while it is still on its way. -/
def loadPlan (d : Dev) (ctx : Nat) (e : List Byte) : Option (List (List Byte) × List (List Byte) × Nat) :=
  match smFind d.ctxs ctx with
  | none => none
  | some x =>
    let t := servTab d ctx
    let here (f : List Byte) : Bool := isResident d ctx f && !modelLeaving d ctx f
    let need := (e :: (draftOf d ctx e).toList).filter (fun f => !here f)
    if need.isEmpty then some ([], [], 0)
    else
      let res := (stEntries t).filter (fun f => here f || modelBusy d ctx (seId f))
      let order := x.serve.resident
      let idle := res.filter (fun f => !modelBusy d ctx (seId f) && seId f != seId e && seId f != seDraft e)
      let never := idle.filter (fun f => !order.contains (seId f))
      let stepped := order.filterMap (fun m => idle.find? (fun f => seId f == m))
      let k := ((res ++ need).map seId).eraseDups.length - stResident t
      let out := (never ++ stepped).take k
      let pages := (out.map (fun f => ((leavesIn x (seWeights f) (seWeightBytes f)).map (fun q => pageFrames q.2)).sum)).sum
      match partOf d x.part with
      | none => none
      | some p =>
        let ks := freePool p pages
        if out.length < k ∨ ks.length < pages then none
        else some (out, need, (if pages = 0 then 0 else tMove d x.part ks) + recallUs d ctx need)

/-- Demotes a model's pages to the slower tier (07 R273). -/
def demoteModel (ctx : Nat) (d : Dev) (e : List Byte) : Dev :=
  match smFind d.ctxs ctx with
  | none => d
  | some x => (leavesIn x (seWeights e) (seWeightBytes e)).foldl (fun d q =>
      match partOf d x.part with
      | none => d
      | some p =>
        let ks := freePool p (pageFrames q.2)
        modMem (takePool d x.part ks) (fun m => { m with waits := m.waits ++
          [{ ctx := ctx, page := q.1, to_ := 2, dest := none, slow := ks, cid := none, line := [] }] })) d

/-- A demotion that no command has asked for and that has not begun is given up. -/
def keepPage (ctx : Nat) (d : Dev) (page : Nat) : Dev :=
  match waitOf d ctx page with
  | some w => if w.to_ = 2 ∧ w.cid.isNone then freePoolPages (dropWait d w) (partOfCtx d ctx) w.slow else d
  | none => d

/-- Recalls a model's weights whole. -/
def recallModel (ctx : Nat) (d : Dev) (e : List Byte) : Dev :=
  let d1 := match smFind d.ctxs ctx with
    | some x => ((leavesIn x (seWeights e) (seWeightBytes e)).map (·.1)).foldl (keepPage ctx) d
    | none => d
  (awayPages d1 ctx e).foldl (fun d q => recallPage d ctx q.1 q.2 none []) d1

/-! ### Pages of a request's sequences in the slower tier (08 R340, R341) -/

/-- The leaves of a sequence that are away. -/
def handleAway (d : Dev) (ctx : Nat) (h : Word) : SMap Pte :=
  match seqFind d ctx h.toNat with
  | some (n, slot, s) => seqAway d ctx n slot s.pages
  | none => []

/-- The leaves of a request's sequences that are away. -/
def reqAway (d : Dev) (r : Req) : SMap Pte := handleAway d r.ctx r.seq ++ handleAway d r.ctx r.draftSeq

/-- T_move for each SLOW page of a sequence: its planes and scale slots, and with the last page the tails (R362; 08 R340). -/
def kvMoveUs (d : Dev) (ctx : Nat) (h : Word) : Nat :=
  match seqFind d ctx h.toNat with
  | none => 0
  | some (n, slot, s) => match poolOf d ctx n with
    | none => 0
    | some p =>
      let away := (seqAway d ctx n slot s.pages).filter (fun q => inPlanes p q.1)
      let tails := if (kvVf p).block then kvLH p * 128 * kvD p else 0
      ((s.pages.eraseDups).map (fun pg =>
        let ks := (away.filter (fun q => kvPageOf p q.1 == pg)).flatMap (fun q => q.2.slowPgs)
        if ks.isEmpty then 0
        else tMoveWith d (partOfCtx d ctx) ks (kvLH p * kvS p + (if s.pages.getLast? = some pg then tails else 0)))).sum

/-- T_load of an admitted request: what is still to be recalled of its models and of its sequences (R362). -/
def reqLoad (d : Dev) (ctx : Nat) (r : Req) : Nat :=
  if r.state ≠ .prefill then 0
  else kvMoveUs d ctx r.seq + kvMoveUs d ctx r.draftSeq + (match sEntry d ctx r.model with
    | some e => recallUs d ctx (e :: (draftOf d ctx e).toList)
    | none => 0)

/-! ### Admission (R362 to R364) -/

/-- RESERVED_TO of a request whose prompt has a length (R362). -/
def reserveFor (d : Dev) (r : Req) (len : Nat) : Nat :=
  if (reqDeadline d r).isSome then r.promptLen + r.maxNew
  else min (ceilDiv (len + r.horizon) 32 * 32) (r.promptLen + r.maxNew)

/-- PREFILL requests of a request's group, by TTFT instant and then handle (R359). -/
def prefillOrder (l : List (Nat × Req)) : List (Nat × Req) :=
  (l.filter (fun p => decide (p.2.state = .prefill))).foldl (fun acc p => ins p acc) []
where
  /-- The TTFT instant, those without a goal last. -/
  key (p : Nat × Req) : Nat × Nat × Nat :=
    if p.2.ttftGoal = 0 then (1, 0, reqHandle p.1 p.2) else (0, p.2.arrival + 400 * p.2.ttftGoal, reqHandle p.1 p.2)
  before (a b : Nat × Nat × Nat) : Bool :=
    decide (a.1 < b.1) || (a.1 == b.1 && (decide (a.2.1 < b.2.1) || (a.2.1 == b.2.1 && decide (a.2.2 < b.2.2))))
  /-- Inserts in order. -/
  ins (p : Nat × Req) : List (Nat × Req) → List (Nat × Req)
    | [] => [p]
    | q :: qs => if before (key p) (key q) then p :: q :: qs else q :: ins p qs

/-- Prompt positions still to process up to and including a request in its group's order. -/
def promptQueue (l : List (Nat × Req)) (slot : Nat) (r : Req) : Nat :=
  let o := prefillOrder (l.filter (fun p => inGroup (r.model, r.version) p.2))
  ((o.takeWhile (fun p => p.1 != slot)).map (fun p => p.2.promptLen - p.2.processed)).sum + (r.promptLen - r.processed)

/-- Steps that bring a request's first token, without the one in flight. -/
def prefillSteps (d : Dev) (ctx : Nat) (l : List (Nat × Req)) (slot : Nat) (r : Req) : Nat :=
  match sEntry d ctx r.model with | some e => ceilDiv (promptQueue l slot r) (seChunk e) | none => 0

/-- The bound of test 4 from now, in hub µs, as a fraction. -/
def bound4 (d : Dev) (ctx : Nat) (l : List (Nat × Req)) (slot : Nat) (r : Req) (load extra : Nat) : Nat × Nat :=
  let t := tRound d ctx l
  (load * t.2 + (prefillSteps d ctx l slot r + extra) * t.1, t.2)

/-- now + a fraction of hub µs lies by an instant. -/
def byInstant (d : Dev) (f : Nat × Nat) (at_ : Nat) : Bool := decide (d.now * f.2 + 400 * f.1 ≤ at_ * f.2)

def test3 (d : Dev) (ctx : Nat) (l : List (Nat × Req)) (r : Req) : Bool :=
  r.tbtGoal == 0 || r.unreserved || fracLe (tRound d ctx l) r.tbtGoal

def test4 (d : Dev) (ctx : Nat) (l : List (Nat × Req)) (slot : Nat) (r : Req) (load extra : Nat) : Bool :=
  decide (r.state ≠ .prefill) || r.ttftGoal == 0
    || byInstant d (bound4 d ctx l slot r load extra) (r.arrival + 400 * r.ttftGoal)

/-- What failed: its DETAIL and whether a request may wait for it (R363, R364). -/
abbrev Fail := Nat × Bool

/-- Tests 3 to 5 for a request that would join, and for those already admitted (R362). -/
def timeFails (d : Dev) (ctx : Nat) (l : List (Nat × Req)) (slot : Nat) (r : Req) (load : Nat) : List Fail :=
  let others := l.filter (fun p => p.1 != slot)
  let late (extra : Nat) : Bool := others.any (fun p => !test4 d ctx l p.1 p.2 (reqLoad d ctx p.2) extra)
  let t3 := others.any (fun p => !test3 d ctx l p.2)
  (if test3 d ctx l r then [] else [(0x10, true)])
    ++ (if test4 d ctx l slot r load 1 then [] else [(0x11, test4 d ctx l slot r load 0)])
    ++ (match reqDeadline d r with
        | none => []
        | some t =>
          let f := bound4 d ctx l slot r load 1
          let rt := tRound d ctx l
          if byInstant d (f.1 + (r.maxNew - 1) * rt.1, f.2) t then [] else [(0x16, false)])
    ++ (if t3 || late 1 then [(0x17, !late 0)] else [])

/-- A request with its sequences made: what R351 and R338 give it. -/
structure Placed where
  req     : Req
  matched : Nat
  refetch : Nat -- hub µs to recall the SLOW pages of its prefix
  dev     : Dev
  deriving DecidableEq, Repr

/-- Notes the token ids of a sequence from a position on (08 R336). -/
def noteToks (d : Dev) (ctx n slot pos : Nat) (ids : List Word) : Dev :=
  modPool d ctx n (fun p => { p with toks := ids.zipIdx.foldl (fun m q => smPut m (2 ^ 20 * slot + pos + q.2) q.1) p.toks })

/-- Makes a request's KV sequence: a clone of its parent, or a new one extended through the tree with MATCH. Its handle and the blocks
matched; none: a page or a sequence slot lacks (R351). -/
def makeSeq (d : Dev) (ctx : Nat) (e : List Byte) (parent : Word) (r : Req) : Option (Nat × Nat × Dev) :=
  let n := sePool e
  let inherited := r.promptLen - r.prompt.length
  let made : Option (Nat × Dev) :=
    match seqFind d ctx parent.toNat with
    | some (pn, ps, s) =>
      if pn ≠ n then none
      else match if inherited % 32 = 0 then (.ready, d) else roomFor d ctx n 1 with
        | (.ready, d1) => cloneSeq d1 ctx n ps s inherited
        | _ => none
    | none => newSeq d ctx n { version := r.version, publish := r.sflags.getLsbD 3 }
  made.map (fun (h, d1) =>
    let slot := h % 2 ^ 17
    let (m, _, d2) := if r.sflags.getLsbD 4 && parent == noVersion then matchBlocks d1 ctx n slot r.prompt (r.prompt.length / 32) else (0, 0, d1)
    (h, m, noteToks d2 ctx n slot inherited r.prompt))

/-- The page that a request's prefix takes when it ends within a page (R362; 08 R328). -/
def edgePage (p : KvPool) (s : KvSeq) : Nat := if seqLen s % kvTpp p ≠ 0 ∧ seqLen s % 32 = 0 then 1 else 0

/-- Reserves the pages that a sequence needs up to a length, if the pool has them. -/
def reserveSeq (d : Dev) (ctx n slot upTo : Nat) : Option Dev :=
  (poolOf d ctx n).bind (fun p =>
    let s := seqAt d ctx n slot
    let need := ceilDiv upTo (kvTpp p) - s.pages.length + edgePage p s
    if kvOpen p < need then none else some (modSeq d ctx n slot (fun s => { s with reserved := need })))

/-- Makes a request's KV sequences, one in the draft pool with SPEC, and reserves their pages up to RESERVED_TO. None: a page or a
sequence slot lacks (R351, R362). -/
def placeReq (d : Dev) (ctx : Nat) (e : List Byte) (parent : Word) (r : Req) : Option Placed :=
  (makeSeq d ctx e parent r).bind (fun (h, m, d3) =>
    let r1 : Req := { r with seq := BitVec.ofNat 32 h, processed := r.promptLen - r.prompt.length + 32 * m }
    let res := reserveFor d r1 r1.promptLen
    let r2 : Req := { r1 with reservedTo := res, state := if r1.processed < r1.promptLen then .prefill else .decode }
    (reserveSeq d3 ctx (sePool e) (h % 2 ^ 17) res).bind (fun d4 =>
      let placed (r : Req) (d : Dev) : Placed := { req := r, matched := 32 * m, refetch := kvMoveUs d3 ctx r2.seq, dev := d }
      match hasSpec r, draftOf d ctx e with
      | true, some f =>
        (newSeq d4 ctx (sePool f) { version := modelVersion d ctx f }).bind (fun (g, d5) =>
          (reserveSeq d5 ctx (sePool f) (g % 2 ^ 17) res).map (placed { r2 with draftSeq := BitVec.ofNat 32 g }))
      | _, _ => some (placed r2 d4)))

/-- The member with the fewest reserved positions, ties to the lower entry index (R380). -/
def leastMember (e : List Byte) (l : List (Nat × Req)) : Nat :=
  let load (m : Nat) : Nat := ((l.filter (fun p => p.2.model == seId e && p.2.member == m)).map (fun p => p.2.reservedTo)).sum
  (span 0 (seMembers e)).foldl (fun b m => if load m < load b then m else b) 0

/-- The outcome of the admission tests. -/
inductive Adm where
  | ok (p : Placed) (out : List (List Byte)) (in_ : List (List Byte))
  | no (fails : List Fail)
  deriving DecidableEq, Repr

/-- The admission tests for a request in a record (R362, R378, R381). -/
def testReq (d : Dev) (slot : Nat) (parent : Word) (r0 : Req) : Adm :=
  let ctx := r0.ctx
  match sEntry d ctx r0.model with
  | none => .no [(0x14, false)]
  | some e =>
    let act := activeReqs d ctx
    let ver := match seqFind d ctx parent.toNat with | some (_, _, s) => s.version | none => modelVersion d ctx e
    let r := { r0 with version := ver, member := leastMember e act }
    let t := servTab d ctx
    let full := decide (131072 ≤ slot) || decide (stRecords t < recordsHeld d ctx) || (placeOut d ctx (8 * r.maxNew)).isNone
    let rolls := match smFind d.ctxs ctx with | some x => x.serve.rollouts.length | none => 0
    let noRoll := r.sflags.getLsbD 5 && decide (stRollouts t ≤ rolls)
    let rec_ : List Fail := if full then [(0x13, true)] else if noRoll then [(0x13, false)] else []
    match placeReq d ctx e parent r with
    | none =>
      let r1 : Req := { r with reservedTo := reserveFor d r r.promptLen, state := .prefill, processed := r.promptLen - r.prompt.length }
      .no (timeFails d ctx (act ++ [(slot, r1)]) slot r1 0 ++ [(0x12, true)] ++ rec_
        ++ (if (loadPlan d ctx e).isNone then [(0x14, false)] else []))
    | some p =>
      let tl := loadPlan d ctx e
      let load := match tl with | some (_, _, n) => n + p.refetch | none => p.refetch
      let fails := timeFails d ctx (act ++ [(slot, p.req)]) slot p.req load ++ rec_ ++ (if tl.isNone then [(0x14, false)] else [])
      match fails, tl with
      | [], some (o, i, _) => .ok p o i
      | fs, _ => .no fs

/-- The DETAIL of a refusal: of the first test of the table that fails (R363). -/
def firstFail (fs : List Fail) : Nat := (fs.map (·.1)).foldl min 0xFFFF

/-- A hub µs figure as a RESULT field: rounded up, 0xFFFF_FFFF where it has no value. -/
def us32 (f : Nat × Nat) : Nat := min (ceilDiv f.1 (max 1 f.2)) 0xFFFFFFFF

/-- The device with a command's DEADLINE in place of what it is. -/
def withDeadline (d : Dev) (r : Req) (us : Nat) : Dev :=
  match r.cid with
  | some c => modCmd d c (fun c => { c with hdr := c.hdr.take 12 ++ natLe 4 us ++ c.hdr.drop 16 })
  | none => d

def admits (d : Dev) (slot : Nat) (parent : Word) (r : Req) : Bool :=
  match testReq d slot parent r with | .ok _ _ _ => true | .no _ => false

/-- The request as it would stand in the batch, with the hub µs that it loads. -/
def hypothetical (d : Dev) (slot : Nat) (parent : Word) (r0 : Req) : Option (List (Nat × Req) × Req × Nat) :=
  (sEntry d r0.ctx r0.model).bind (fun e =>
    let act := activeReqs d r0.ctx
    let ver := match seqFind d r0.ctx parent.toNat with | some (_, _, s) => s.version | none => modelVersion d r0.ctx e
    (placeReq d r0.ctx e parent { r0 with version := ver, member := leastMember e act }).bind (fun p =>
      (loadPlan d r0.ctx e).map (fun l => (act ++ [(slot, p.req)], p.req, l.2.2 + p.refetch))))

/-- TTFT_GOALs at which a request's place in the prefill order changes or its own bound at a place is met, smallest first. -/
def ttftGoals (d : Dev) (slot : Nat) (l : List (Nat × Req)) (r : Req) (load : Nat) : List Nat :=
  match sEntry d r.ctx r.model with
  | none => []
  | some e =>
    let places := prefillOrder (l.filter (fun p => p.1 != slot && inGroup (r.model, r.version) p.2))
    let waited := (d.now - r.arrival) / 400
    let t := tRound d r.ctx l
    (span 0 (places.length + 1)).map (fun k =>
      let before := ((places.take k).map (fun p => p.2.promptLen - p.2.processed)).sum + (r.promptLen - r.processed)
      let own := us32 ((load + waited) * t.2 + (ceilDiv before (seChunk e) + 1) * t.1, t.2)
      let after := match k, places[k - 1]? with
        | 0, _ => 1
        | _, some p => if p.2.ttftGoal = 0 then 0xFFFFFFFF else (p.2.arrival + 400 * p.2.ttftGoal - r.arrival) / 400
        | _, none => 1
      max own after)

/-- PROMPT_LEN + MAX_NEW that the pages of test 2 hold. -/
def lengthFits (d : Dev) (parent : Word) (r : Req) : Nat :=
  match sEntry d r.ctx r.model with
  | none => 0xFFFFFFFF
  | some e =>
    let room (d : Dev) (n slot : Nat) : Nat := match poolOf d r.ctx n with
      | some p => let s := seqAt d r.ctx n slot; (kvOpen p - edgePage p s + s.pages.length) * kvTpp p
      | none => 0
    match makeSeq d r.ctx e parent r with
    | none => 0xFFFFFFFF
    | some (h, _, d1) =>
      let main := room d1 (sePool e) (h % 2 ^ 17)
      let n := match hasSpec r, draftOf d r.ctx e with
        | true, some f => (match newSeq d1 r.ctx (sePool f) {} with | some (g, d2) => min main (room d2 (sePool f) (g % 2 ^ 17)) | none => 0)
        | _, _ => main
      if n < 2 then 0xFFFFFFFF else min n (2 ^ 20)

/-- The smallest admissible values (R363; log 34): DEADLINE, TBT_GOAL, TTFT_GOAL and the length that fits test 2. A value is one with
which the request, its other parameters unchanged, would be admitted. -/
def admissible (d : Dev) (slot : Nat) (parent : Word) (r : Req) : List (Nat × Nat × Nat) :=
  let waited := (d.now - r.arrival) / 400
  let first (l : List Nat) (ok : Nat → Bool) : Nat := (l.find? (fun v => decide (v < 0xFFFFFFFF) && ok v)).getD 0xFFFFFFFF
  let dl := withDeadline d r 0xFFFFFFFE
  let deadlines := match hypothetical dl slot parent r with
    | some (l, q, load) =>
      let f := bound4 dl r.ctx l slot q load 1
      [max 1 (us32 (f.1 + (r.maxNew - 1) * (tRound dl r.ctx l).1 + waited * f.2, f.2))]
    | none => []
  let h := hypothetical d slot parent r
  let tbts := match h with | some (l, _, _) => [max 1 (us32 (tRound d r.ctx l))] | none => []
  let ttfts := match h with | some (l, q, load) => ttftGoals d slot l q load | none => []
  [(0x0C, 4, first deadlines (fun v => admits (withDeadline d r v) slot parent r)),
   (0x10, 4, first tbts (fun v => admits d slot parent { r with tbtGoal := v })),
   (0x14, 4, first ttfts (fun v => admits d slot parent { r with ttftGoal := v })), (0x18, 4, lengthFits d parent r)]

/-- The parent named by a request's command: none with SCORE. -/
def parentOfReq (d : Dev) (r : Req) : Word :=
  if r.sflags.getLsbD 6 then noVersion
  else match r.cid.bind (smFind d.cmds) with | some c => word c.hdr 0x38 | none => noVersion

/-- A request in a record that does not join ends (R345, R363): its record is DONE when its final record is placed. -/
def refuseReq (d : Dev) (slot status detail : Nat) : Dev :=
  let r := getReq d slot
  let res := if status = stAdmissionRefused then
      admissible d slot (parentOfReq d r) r else []
  let d1 := modReq d slot (fun r => { r with ended := true, endStatus := BitVec.ofNat 16 status, stop := 4 })
  let d2 := if status = stAdmissionRefused then tallyCount d1 0x22 r.ctx 1 srcJenorneb else d1
  match r.cid with
  | some c => finishCmd d2 c status detail res none
  | none => closeReq d2 slot

/-- A request joins the batch: its output area, its rollout entry, its models' moves and its ADMITTED record (R353, R378,
R381). -/
def joinReq (d : Dev) (slot : Nat) (p : Placed) (out in_ : List (List Byte)) : Dev :=
  let ctx := p.req.ctx
  let t := servTab d ctx
  let outVa := (placeOut d ctx (8 * p.req.maxNew)).getD 0
  let used := match smFind d.ctxs ctx with | some x => x.serve.rollouts | none => []
  let roll := if p.req.sflags.getLsbD 5 then ((span 0 (stRollouts t)).find? (fun k => (smFind used k).isNone)).getD 0xFFFFFFFF else 0xFFFFFFFF
  let r : Req := { p.req with outVa := outVa, rollout := roll }
  let d1 := modServe p.dev ctx (fun s => { s with
    outTop := s.outTop ++ [(outVa, 8 * r.maxNew)]
    rollouts := if roll = 0xFFFFFFFF then s.rollouts else smPut s.rollouts roll (slot + 1) })
  let d2 := modReq d1 slot (fun _ => r)
  let d3 := if roll = 0xFFFFFFFF then d2 else poke d2 ctx (rolloutVa d2 r + 0x28) [1#8, 0#8]
  let reserved (h : Word) : Nat := match seqFind p.dev ctx h.toNat with | some (_, _, s) => s.reserved | none => 0
  let d4 := tellMembers (tellMembers (in_.foldl (recallModel ctx) (out.foldl (demoteModel ctx) d3))
    r r.seq .made (parentOfReq p.dev r) (r.promptLen - r.prompt.length) (reserved r.seq)) r r.draftSeq .made noVersion 0 (reserved r.draftSeq)
  match r.cid with
  | some c => progress d4 c 1 [(0x0C, 4, reqHandle slot r), (0x10, 4, r.seq.toNat), (0x14, 4, p.matched), (0x18, 4, r.version.toNat)]
  | none => d4

/-- The latest join instant (R364): by then test 4 can no longer hold, even for the request alone. -/
def latestJoin (d : Dev) (slot : Nat) (r : Req) : Nat :=
  if r.ttftGoal = 0 then r.arrival + 400 * (2 ^ 32 - 1)
  else
    let alone : Req := { r with
      reservedTo := reserveFor d r r.promptLen, state := .prefill, processed := r.promptLen - r.prompt.length }
    let load := match sEntry d r.ctx r.model with
      | some e => (match loadPlan d r.ctx e with | some (_, _, n) => n | none => 0) | none => 0
    r.arrival + 400 * r.ttftGoal - 400 * us32 (bound4 d r.ctx [(slot, alone)] slot alone load 1)

/-- The parent of a request that waits is gone or shorter than what the request was to inherit (log 64). -/
def parentGone (d : Dev) (parent : Word) (r : Req) : Bool :=
  parent != noVersion && (match seqFind d r.ctx parent.toNat with
    | some (_, _, s) => decide (s.commit < r.promptLen - r.prompt.length)
    | none => true)

/-- Takes a slot for a new record: one that is FREE, or a DONE one that is reused (R346). -/
def takeRecord (d : Dev) (slot : Nat) : Dev := if (getReq d slot).state = .done then releaseReq d slot else d

/-- The generation of the next request in a slot. -/
def genOf (d : Dev) (slot : Nat) : Nat := match smFind d.reqs slot with | some o => nextGen slot o.gen | none => 0

/-- A request that waits without a record takes one as soon as there is one (R364; log 64). -/
def enterRecord (d : Dev) (slot : Nat) : Dev × Nat :=
  match if 131072 ≤ slot then freeRecord d else none with
  | none => (d, slot)
  | some k =>
    let d1 := takeRecord d k
    let r : Req := { getReq d slot with gen := genOf d1 k }
    let d2 := modReq { d1 with reqs := smErase d1.reqs slot } k (fun _ => r)
    (match r.cid with | some c => modCmd d2 c (fun c => { c with info := [k] }) | none => d2, k)

/-- Tests a request that is WAITING: it joins, waits on, or ends (R362 to R364). -/
def tryWaiting (d0 : Dev) (slot0 : Nat) : Dev :=
  let (d, slot) := enterRecord d0 slot0
  let r := getReq d slot
  if r.state ≠ .waiting || r.ended then d
  else if r.joinBy < d.now then refuseReq d slot stAdmissionRefused 0x15
  else if parentGone d (parentOfReq d r) r then refuseReq d slot stBadParam 0x38
  else match testReq d slot (parentOfReq d r) r with
    | .ok p o i => joinReq d slot p o i
    | .no _ => d

end Sys2Proof.Machine
end

