-- ==== Sys2Proof/Machine/Serve.lean ====
section
/-! DEFINITION. The serving loop: submitting, cancelling and querying requests, and planning and committing batch steps (09 R350
to R384). `info` of a REQ.SUBMIT: [slot] once its record is made; of a REQ.CANCEL: [slot] while it waits for a commit. -/

namespace Sys2Proof.Machine

/-! ### Token ids of a request -/

/-- Token i of a request: inherited ids are those known of the sequence; an unknown one is open (log 33). -/
def tokenOf (d : Dev) (r : Req) (i : Nat) : Word :=
  let inherited := r.promptLen - r.prompt.length
  if r.promptLen ≤ i then (nth (0#32, 0#32) r.outToks (i - r.promptLen)).1
  else if inherited ≤ i then nth 0#32 r.prompt (i - inherited)
  else match seqFind d r.ctx r.seq.toNat with
    | some (n, slot, _) => match (poolOf d r.ctx n).bind (fun p => smFind p.toks (2 ^ 20 * slot + i)) with
      | some t => t
      | none => Config.freeValue 32 (d.freeCtr + i)
    | none => Config.freeValue 32 (d.freeCtr + i)

/-! ### REQ.SUBMIT (R350 to R352) -/

def rqModel (c : Cmd) : Nat := par c 0x10 1
def rqFlag (c : Cmd) (i : Nat) : Bool := bit (par c 0x11 1) i
def rqPromptLen (c : Cmd) : Nat := par c 0x14 4
def rqAddr (c : Cmd) : Nat := par c 0x18 8
def rqMaxNew (c : Cmd) : Nat := par c 0x20 4
def rqParent (c : Cmd) : Word := word c.hdr 0x38
def rqTopK (c : Cmd) : Nat := par c 0x3E 2

/-- Prompt positions that the request does not bring itself: of the parent sequence, or of the rollout it scores. -/
def inheritedLen (d : Dev) (c : Cmd) : Nat :=
  let ctx := cmdContext c
  if rqFlag c 6 then match reqFind d ctx (rqParent c).toNat with | some (_, r) => reqLen r | none => 0
  else match seqFind d ctx (rqParent c).toNat with | some (_, _, s) => s.commit | none => 0

def chkReqSubmit (d : Dev) (c : Cmd) : Chk Unit :=
  let ctx := cmdContext c
  match smFind d.ctxs ctx with
  | none => badParam 0x08
  | some x => match sEntry d ctx (rqModel c) with
    | none => chkFields [(0x02, !bit (cmdFlags c) 1), (0x0A, rqAddr c == 0 && c.payload.length != 4 * rqPromptLen c), (0x10, true)]
    | some e =>
      let own := rqAddr c == 0
      let n := rqPromptLen c
      let parentBad :=
        if rqFlag c 6 then match reqFind d ctx (rqParent c).toNat with
          | some (_, r) => decide (r.state ≠ .done) || r.rollout == 0xFFFFFFFF
          | none => true
        else rqParent c != noVersion && (match seqFind d ctx (rqParent c).toNat with | some (pn, _, _) => pn != sePool e | none => true)
      chkFields ([(0x02, !bit (cmdFlags c) 1), (0x0A, own && c.payload.length != 4 * n),
        (0x10, seKind e == 2 || (seMember e 0 != myId d)),
        (0x11, rqFlag c 7 || (rqFlag c 2 && (draftOf d ctx e).isNone) || (rqFlag c 6 != (seKind e == 1))),
        (0x12, par c 0x12 2 % 32 != 0), (0x14, outside 1 (2 ^ 20 - 1) n || (own && decide (1024 < n))),
        (0x18, if own then false else if bit (rqAddr c) 63 then !hostOk d c.queue (rqAddr c % 2 ^ 52) (4 * n)
          else !rangeOk x (rqAddr c) (4 * n) false),
        (0x20, rqMaxNew c == 0 || decide (2 ^ 20 < inheritedLen d c + n + rqMaxNew c) || (rqFlag c 6 && rqMaxNew c != 1)),
        (0x2C, !isFinite32 (word c.hdr 0x2C) || vlt (decodeElem 0 (par c 0x2C 4)) (.fin false 0 1 0)), (0x38, parentBad),
        (0x3E, decide (seVocab e < rqTopK c))]
        ++ resv c.hdr 0x3D 1
        ++ (if own then (match (idsOf c.payload).findIdx? (fun t => decide (seVocab e ≤ t.toNat)) with
              | some i => [(0x40 + 4 * i, true)] | none => []) else []))

/-- The prompt tokens of a request: from the payload, the context or host memory; none while they are on their way (R350). -/
def promptOf (d : Dev) (cid : Nat) (c : Cmd) : Except Ref (Option (List Word)) × Dev :=
  let n := 4 * rqPromptLen c
  if rqAddr c = 0 then (.ok (some (idsOf c.payload)), d)
  else if bit (rqAddr c) 63 then
    if c.hostErr then (.error { status := stDeviceFault, detail := 0x0007, result := [(0x18, 8, c.errAddr)] }, d)
    else if !wanting d (.cmd cid) then (.ok none, wantHost d (.cmd cid) (rqAddr c % 2 ^ 52) n)
    else match wantDone d (.cmd cid) with
      | some bs => (.ok (some (idsOf bs)), dropWant d (.cmd cid))
      | none => (.ok none, d)
  else
    let (here, d1) := bringIn d cid c [(rqAddr c, n, false)]
    if !here then (.ok none, d1)
    else match readVirt d1 (cmdContext c) (rqAddr c) n .any with
      | .ok bs => (.ok (some (idsOf bs)), d1)
      | .error e => (.error { status := stDeviceFault, detail := 0x0001, result := [(0x18, 8, verrVa e)] }, d1)

/-- A request's record as its command gives it. -/
def newReq (d : Dev) (cid : Nat) (c : Cmd) (e : List Byte) (ids : List Word) (gen : Nat) : Req :=
  let ctx := cmdContext c
  let scored := if rqFlag c 6 then reqFind d ctx (rqParent c).toNat else none
  let prompt := match scored with
    | some (_, r) => (span 0 (reqLen r)).map (tokenOf d r) ++ ids
    | none => ids
  { gen := gen, ctx := ctx, cid := some cid, state := .waiting, model := rqModel c, sflags := BitVec.ofNat 8 (par c 0x11 1),
    queue := c.queue, k := if rqFlag c 2 then seKmax e else 0,
    specPaused := rqFlag c 2 && seKmax e == 0, hostSeq := hostSeqOf c,
    promptLen := (if rqFlag c 6 then 0 else inheritedLen d c) + prompt.length, maxNew := rqMaxNew c,
    horizon := (let h := par c 0x12 2; if h = 0 then seHorizon e else h), ttftGoal := par c 0x24 4, tbtGoal := par c 0x28 4,
    invTemp := word c.hdr 0x2C, topK := rqTopK c, stopMask := BitVec.ofNat 8 (par c 0x3C 1),
    stream := BitVec.ofNat 64 (par c 0x30 8), prompt := prompt, arrival := c.arrival,
    scores := if rqFlag c 6 then rqParent c else noVersion }

/-- The clone of the parent waits for a page that is being rinsed (08 R334). -/
def cloneWaits (d : Dev) (c : Cmd) : Bool :=
  if rqFlag c 6 then false
  else match seqFind d (cmdContext c) (rqParent c).toNat with
    | some (n, _, s) => s.commit % 32 != 0 && decide ((roomFor d (cmdContext c) n 1).1 = .wait)
    | none => false

/-- The request of a command comes to its admission tests in a record (R362 to R364): it joins, waits, or is refused without effect. A
record is taken only by one that joins or waits. With no record to be had it can wait only outside the records (log 64). -/
def submitReq (d : Dev) (cid : Nat) (c : Cmd) (e : List Byte) (ids : List Word) : Dev :=
  let slot := (freeRecord d).getD (131072 + cid)
  let d1 := if slot < 131072 then takeRecord d slot else d
  let r0 := newReq d1 cid c e ids (genOf d1 slot)
  let d2 := modReq (modCmd { d1 with freeCtr := d1.freeCtr + 2 ^ 20 } cid (fun c => { c with info := [slot] })) slot (fun _ => r0)
  let r : Req := { r0 with joinBy := latestJoin d2 slot r0 }
  let d3 := modReq d2 slot (fun _ => r)
  match testReq d3 slot (parentOfReq d3 r) r with
  | .ok p o i => joinReq d3 slot p o i
  | .no fs =>
    if r.sflags.getLsbD 0 && fs.all (·.2) then d3
    else finishCmd (tallyCount d 0x22 r.ctx 1 srcJenorneb) cid stAdmissionRefused (firstFail fs)
      (admissible d3 slot (parentOfReq d3 r) r) none

def stepReqSubmit (d : Dev) (cid : Nat) (c : Cmd) : Option Dev :=
  if !c.info.isEmpty || cloneWaits d c then some d
  else match chkReqSubmit d c, sEntry d (cmdContext c) (rqModel c) with
    | .error r, _ => some (endRef d cid r)
    | .ok _, none => some (endRef d cid { status := stBadParam, detail := 0x10 })
    | .ok _, some e =>
      match promptOf d cid c with
      | (.error r, d1) => some (endRef d1 cid r)
      | (.ok none, d1) => some d1
      | (.ok (some ids), d1) =>
        if ids.any (fun t => decide (seVocab e ≤ t.toNat)) then some (endRef d1 cid { status := stBadParam, detail := 0x18 })
        else some (noteWant (submitReq d1 cid c e ids) (cmdContext c))

/-- REQ.SUBMIT (R350 to R364): the request is admitted, deferred or refused; the command ends with the request. -/
def execReqSubmit (cid : Nat) (s : State) : Host.Outcome State Fault Refusal := onDev s (runCmd 0x0701 cid stepReqSubmit)

/-- DEFERRAL_EXPIRE (R364): the latest join instant of a WAITING request has passed. -/
def execDeferralExpire (req : Nat) (s : State) : Host.Outcome State Fault Refusal :=
  onDev s (fun d =>
    let slot := req % 2 ^ 17
    let r := getReq d slot
    if reqHandle slot r = req ∧ r.state = .waiting ∧ r.ended = false ∧ r.joinBy < d.now then refuseReq d slot stAdmissionRefused 0x15 else d)

/-! ### REQ.CANCEL and REQ.QUERY (R373, R374, R383, R384) -/

/-- The request that a REQ.CANCEL or REQ.QUERY names. -/
def namedReq (d : Dev) (c : Cmd) : Option (Nat × Req) :=
  if word c.hdr 0x10 = noVersion then reqByHost d (cmdContext c) (par c 0x14 1) (word c.hdr 0x18)
  else reqFind d (cmdContext c) (par c 0x10 4)

def chkReqCancel (d : Dev) (c : Cmd) : Chk Unit :=
  let none_ := (namedReq d c).isNone
  chkFields ([(0x10, word c.hdr 0x10 != noVersion && none_), (0x18, word c.hdr 0x10 == noVersion && none_)]
    ++ resv c.hdr 0x15 3 ++ resv c.hdr 0x1C 36)

/-- The request has rows in the batch step in flight. -/
def inStep (d : Dev) (slot : Nat) (r : Req) : Bool :=
  match (smFind d.ctxs r.ctx).bind (fun x => x.serve.step) with
  | some st => st.rows.any (fun b => b.req.toNat == reqHandle slot r)
  | none => false

/-- A cancellation (R374): at once, or at the commit of the step the request is in. -/
def stepReqCancel (d : Dev) (cid : Nat) (c : Cmd) : Option Dev :=
  match c.info with
  | [slot] => if (getReq d slot).cancel then some d else some (finishCmd d cid stOk 0 [] none)
  | _ => match chkReqCancel d c, namedReq d c with
    | .error r, _ => some (endRef d cid r)
    | .ok _, none => some (endRef d cid { status := stBadParam, detail := 0x18 })
    | .ok _, some (slot, r) =>
      if r.state = .done ∨ r.ended = true then some (finishCmd d cid stAlreadyComplete 0 [] none)
      else if inStep d slot r then
        some (modCmd (modReq d slot (fun r => { r with cancel := true })) cid (fun c => { c with info := [slot] }))
      else some (finishCmd (endReq d slot stCancelled 0 3) cid stOk 0 [] none)

/-- REQ.CANCEL (R373, R374). -/
def execReqCancel (cid : Nat) (s : State) : Host.Outcome State Fault Refusal := onDev s (runCmd 0x0702 cid stepReqCancel)

def chkReqQuery (d : Dev) (c : Cmd) : Chk Unit :=
  let r := namedReq d c
  chkFields ([(0x02, !bit (cmdFlags c) 0), (0x10, word c.hdr 0x10 != noVersion && r.isNone),
    (0x15, decide (1 < par c 0x15 1) || (bit (par c 0x15 1) 0 && (match r with | some (_, q) => decide (q.state ≠ .done) | none => false))),
    (0x18, word c.hdr 0x10 == noVersion && r.isNone)] ++ resv c.hdr 0x16 2 ++ resv c.hdr 0x20 28 ++ resv c.hdr 0x3E 2)

/-- The record, the tokens from FROM on and their log-probabilities; RELEASE frees the record after the copy (R384). -/
def stepReqQuery (d : Dev) (cid : Nat) (c : Cmd) : Option Dev :=
  match chkReqQuery d c, namedReq d c with
  | .error r, _ => some (endRef d cid r)
  | .ok _, none => some (endRef d cid { status := stBadParam, detail := 0x18 })
  | .ok _, some (slot, r) =>
    let l := r.outToks.drop (par c 0x1C 4)
    let out := reqRecord d slot r ++ l.flatMap (fun t => natLe 4 t.1.toNat) ++ l.flatMap (fun t => natLe 4 t.2.toNat)
    let d1 := if bit (par c 0x15 1) 0 then releaseReq d slot else d
    some (finishCmd d1 cid stOk 0 [(0x0C, 4, reqStateCode r.state), (0x10, 4, r.outLen)] (some out))

/-- REQ.QUERY (R383, R384). -/
def execReqQuery (cid : Nat) (s : State) : Host.Outcome State Fault Refusal := onDev s (runCmd 0x0703 cid stepReqQuery)

/-! ### The boundary of a step (R375 to R379) -/

/-- FOLLOW requests move to the live version; others whose version is gone end VERSION_ABORT (R379). -/
def followVersion (d : Dev) (slot : Nat) : Dev :=
  let r := getReq d slot
  if r.ended then d
  else match sEntry d r.ctx r.model with
  | none => d
  | some e =>
    let live := modelVersion d r.ctx e
    if r.sflags.getLsbD 1 ∧ live ≠ noVersion then
      if live = r.version then d
      else
        let d1 := modReq d slot (fun r => { r with version := live })
        match r.cid with
        | some c => progress d1 c 6 [(0x0C, 4, live.toNat), (0x10, 4, r.outLen)]
        | none => d1
    else if versionOk d r.ctx e r.version then d
    else endReq d slot stVersionAbort 0 4

/-- Adds to the pages reserved for a sequence. -/
def reserveMore (d : Dev) (ctx : Nat) (h : Word) (upTo : Nat) : Option Dev :=
  match seqFind d ctx h.toNat with
  | none => some d
  | some (n, slot, s) => match poolOf d ctx n with
    | none => some d
    | some p =>
      let want := ceilDiv upTo (kvTpp p) - s.pages.length
      if kvOpen p + s.reserved < want then none
      else some (modSeq d ctx n slot (fun s => { s with reserved := max s.reserved want }))

/-- Extends the reservation of a request whose length comes near its end (R366). -/
def extendReq (d : Dev) (slot : Nat) : Dev :=
  let r := getReq d slot
  let top := r.promptLen + r.maxNew
  if reqLen r + 32 < r.reservedTo ∨ top ≤ r.reservedTo ∨ r.maxNew ≤ r.outLen then d
  else
    let res := min (r.reservedTo + r.horizon) top
    let r1 : Req := { r with reservedTo := res, unreserved := false }
    let l := (activeReqs d r.ctx).map (fun p => if p.1 = slot then (slot, r1) else p)
    let time := l.all (fun p => test3 d r.ctx l p.2)
    match if time then (reserveMore d r.ctx r.seq res).bind (fun d1 => reserveMore d1 r.ctx r.draftSeq res) else none with
    | some d1 => modReq d1 slot (fun _ => r1)
    | none =>
      if r.unreserved then d
      else
        let d1 := modReq d slot (fun r => { r with unreserved := true })
        match r.cid with
        | some c => progress d1 c 5 [(0x0C, 4, r.reservedTo)]
        | none => d1

/-- The last position of a request's next rows. -/
def nextLast (d : Dev) (r : Req) : Nat :=
  if r.processed < r.promptLen then
    r.processed + min (r.promptLen - r.processed) (match sEntry d r.ctx r.model with | some e => seChunk e | none => 1) - 1
  else reqLen r - 1 + max r.draftToks.length (if hasSpec r then r.k else 0)

/-- Pages, new and copied, that the next rows of a request take in one of its sequences beyond those reserved for it. -/
def seqNeed (d : Dev) (ctx n last : Nat) (h : Word) : Nat × Nat :=
  match seqFind d ctx h.toNat with
  | some (m, _, s) => match poolOf d ctx n with
    | some p =>
      if m ≠ n ∨ last < seqLen s then (0, 0)
      else
        let (fresh, copy) := appendNeeds p s (seqLen s) (last + 1 - seqLen s)
        (fresh - s.reserved, copy - (s.reserved - fresh))
    | none => (0, 0)
  | none => (0, 0)

/-- Pages that a request's next rows take in a pool beyond its reservation (R376). -/
def pagesNeed (d : Dev) (ctx n : Nat) (r : Req) : Nat :=
  let need (h : Word) : Nat := let q := seqNeed d ctx n (nextLast d r) h; q.1 + q.2
  need r.seq + need r.draftSeq

/-- A request outside its reservation: it alone may be pre-empted (R376). -/
def outside_ (d : Dev) (r : Req) : Bool := decide (r.reservedTo ≤ nextLast d r)

/-- The pages of a sequence that pre-empted sequences and tree nodes alone hold are demoted (R376; 08 R340). -/
def demoteSeq (d : Dev) (ctx : Nat) (h : Word) : Dev :=
  match smFind d.ctxs ctx, seqFind d ctx h.toNat with
  | some x, some (n, slot, s) => match smFind x.pools n with
    | none => d
    | some p =>
      (x.ptes.filter (fun q => q.2.kvPool == some n && kvHolds p s.pages slot q.1
          && decide (q.2.kind = .localPage) && kvMayLeave d ctx q.2 q.1 && (waitOf d ctx q.1).isNone)).foldl (fun d q =>
        match (partOf d x.part).map (fun t => freePool t 1) with
        | some [k] => modMem (takePool d x.part [k]) (fun m => { m with waits := m.waits ++
            [{ ctx := ctx, page := q.1, to_ := 2, dest := none, slow := [k], cid := none, line := [] }] })
        | _ => d) d
  | _, _ => d

def preemptReq (d : Dev) (slot : Nat) : Dev :=
  let r := getReq d slot
  let order := 1 + (d.reqs.map (fun p => p.2.preemptAt)).foldl max 0
  let d1 := modReq d slot (fun r => { r with state := .preempted, preempts := min (r.preempts + 1) 65535, preemptAt := order })
  let d2 := tallyCount (demoteSeq (demoteSeq d1 r.ctx r.seq) r.ctx r.draftSeq) 0x23 r.ctx 1 srcJenorneb
  match r.cid with
  | some c => progress d2 c 3 [(0x0C, 4, r.outLen)]
  | none => d2

/-- A pool in which the next rows need pages that are not there. -/
def poolShort (d : Dev) (ctx n : Nat) : Bool :=
  match poolOf d ctx n with
  | some p => decide (kvOpen p < ((activeReqs d ctx).map (fun q => pagesNeed d ctx n q.2)).sum)
  | none => false

/-- The request outside its reservation with the greatest slack: its next due instant is the latest, ties to the higher slot (R376). -/
def victim (d : Dev) (ctx : Nat) : Option Nat :=
  let later (a b : Nat × Req) : Bool :=  -- b has at least a's slack
    match nextTbt a.2, nextTbt b.2 with
    | _, none => true | none, some _ => false | some x, some y => decide (x ≤ y)
  (((activeReqs d ctx).filter (fun q => outside_ d q.2)).foldl (fun b q =>
    match b with | none => some q | some a => if later a q then some q else some a) none).map (·.1)
where
  /-- The next due instant for slack. -/
  nextTbt (r : Req) : Option Nat := if r.tbtGoal = 0 then none else some (r.lastDeliv + 400 * r.tbtGoal)

/-- Pre-empts requests while the next step's rows lack pages: at most fuel requests (R376). -/
def preemptShort (ctx : Nat) (pools : List Nat) (d : Dev) : Nat → Dev
  | 0 => d
  | fuel + 1 =>
    if pools.any (poolShort d ctx) then
      match victim d ctx with
      | some k => preemptShort ctx pools (preemptReq d k) fuel
      | none => d
    else d

/-- The new pages of the next rows are kept for them, ahead of any joiner (R375). -/
def keepForRows (ctx : Nat) (pools : List Nat) (d : Dev) : Dev :=
  (activeReqs d ctx).foldl (fun d q => pools.foldl (fun d n => [q.2.seq, q.2.draftSeq].foldl (fun d h =>
    match seqFind d ctx h.toNat with
    | some (m, slot, _) => if m = n then
        (let k := (seqNeed d ctx n (nextLast d q.2) h).1
         if k = 0 then d else modSeq d ctx n slot (fun s => { s with reserved := s.reserved + k })) else d
    | none => d) d) d) d

/-- A pre-empted request rejoins when the tests hold (R377). -/
def resumeReq (d : Dev) (slot : Nat) : Dev :=
  let r := getReq d slot
  let ctx := r.ctx
  let res := max r.reservedTo (reserveFor d r (reqLen r))
  let r1 : Req := { r with
    state := if r.processed < r.promptLen then .prefill else .decode, reservedTo := res, unreserved := false, lastDeliv := d.now }
  let l := activeReqs d ctx ++ [(slot, r1)]
  match (sEntry d ctx r.model).bind (loadPlan d ctx) with
  | none => d
  | some (o, i, n) =>
    if (timeFails d ctx l slot r1 (n + kvMoveUs d ctx r.seq + kvMoveUs d ctx r.draftSeq)).isEmpty then
      match (reserveMore d ctx r.seq res).bind (fun d1 => reserveMore d1 ctx r.draftSeq res) with
      | some d1 =>
        let held : List Nat := match smFind d1.ctxs ctx with
          | none => []
          | some x => [r.seq, r.draftSeq].flatMap (fun h => match seqFind d1 ctx h.toNat with
              | some (n, k, s) => (match smFind x.pools n with
                | some p => (x.ptes.filter (fun q => q.2.kvPool == some n && kvHolds p s.pages k q.1)).map (·.1)
                | none => [])
              | none => [])
        let d2 := held.foldl (keepPage ctx) (i.foldl (recallModel ctx) (o.foldl (demoteModel ctx) d1))
        let d3 := (reqAway d2 r).foldl (fun d q => recallPage d ctx q.1 q.2 none []) d2
        let d4 := modReq d3 slot (fun _ => r1)
        (match r.cid with | some c => progress d4 c 4 [(0x0C, 4, r.outLen)] | none => d4)
      | none => d
    else d

/-- Requests of a context in some state, in an order. -/
def reqsBy (d : Dev) (ctx : Nat) (st : ReqState) (key : Req → Nat) : List Nat :=
  (((d.reqs.filter (fun p => p.2.ctx == ctx && decide (p.2.state = st) && !p.2.ended)).foldl (fun l p => ins p l) []).map (·.1))
where
  /-- Inserts by rising key, then slot. -/
  ins (p : Nat × Req) : List (Nat × Req) → List (Nat × Req)
    | [] => [p]
    | q :: qs => if key p.2 < key q.2 then p :: q :: qs else q :: ins p qs

/-- The actions at a boundary of a context (R375 steps 3 to 6; R379; 12 R464). -/
def boundary (d : Dev) (ctx : Nat) : Dev :=
  match smFind d.ctxs ctx with
  | none => d
  | some x =>
    let d1 := weightBoundary d ctx
    let held := (d1.reqs.filter (fun p => p.2.ctx == ctx && (isActive p.2 || decide (p.2.state = .preempted)))).map (·.1)
    let d2 := held.foldl followVersion d1
    let d3 := ((activeReqs d2 ctx).map (·.1)).foldl extendReq d2
    let pools := x.pools.map (·.1)
    let d4 := keepForRows ctx pools (preemptShort ctx pools d3 (activeReqs d3 ctx).length)
    let d5 := (reqsBy d4 ctx .preempted (fun r => r.preemptAt)).foldl resumeReq d4
    let d6 := (reqsBy d5 ctx .waiting (fun r => r.joinBy)).foldl tryWaiting d5
    x.pools.foldl (fun d p => unslow ctx p.1 d) d6

/-! ### Planning a step (R355, R356, R359, R370) -/

/-- Rows of a request that decodes: its last token, and its draft tokens to verify (R356, R370). -/
def decodeRows (d : Dev) (slot : Nat) (r : Req) : List BRow :=
  let pos := reqLen r - 1
  let toks := tokenOf d r pos :: r.draftToks
  toks.zipIdx.map (fun t => {
    req := BitVec.ofNat 32 (reqHandle slot r), seq := r.seq, pos := pos + t.2, token := t.1,
    kind := if r.draftToks.isEmpty then 0 else 2, sample := true, tent := !r.draftToks.isEmpty, topK := r.topK, invTemp := r.invTemp,
    stream := r.stream })

/-- Prefill rows: chunks of multiples of 32 positions but for a request's last (R359). -/
def prefillRows (d : Dev) : List (Nat × Req) → Nat → List BRow
  | [], _ => []
  | (slot, r) :: rest, room =>
    let left := r.promptLen - r.processed
    let take := if left ≤ room then left else room / 32 * 32
    (span r.processed take).map (fun pos => {
      req := BitVec.ofNat 32 (reqHandle slot r), seq := r.seq, pos := pos, token := tokenOf d r pos,
      kind := 1, sample := pos + 1 == r.promptLen, tent := false, topK := r.topK, invTemp := r.invTemp, stream := r.stream })
      ++ prefillRows d rest (room - take)

/-- A request that still lacks draft tokens for its next main step (R370). -/
def wantsDraft (r : Req) : Bool :=
  hasSpec r && !r.specPaused && decide (r.state = .decode) && decide (r.draftToks.length < r.k)
    && decide (reqLen r + r.draftToks.length < 2 ^ 20)

/-- Draft rows of a request: from its draft sequence's length up to its newest token (R370; log 33). -/
def draftRows (d : Dev) (slot : Nat) (r : Req) (room : Nat) : List BRow :=
  match seqFind d r.ctx r.draftSeq.toNat with
  | none => []
  | some (_, _, s) =>
    let last := reqLen r - 1 + r.draftToks.length
    (span (seqLen s) (min room (last + 1 - seqLen s))).map (fun pos =>
      { req := BitVec.ofNat 32 (reqHandle slot r), seq := r.draftSeq, pos := pos,
        token := if pos < reqLen r then tokenOf d r pos else nth 0#32 r.draftToks (pos - reqLen r),
        kind := 3, sample := pos == last, tent := decide (reqLen r ≤ pos), topK := r.topK, invTemp := r.invTemp, stream := r.stream })

def rowBytes (b : BRow) : List Byte :=
  natLe 4 b.req.toNat ++ natLe 4 b.seq.toNat ++ natLe 4 b.pos ++ natLe 4 b.token.toNat ++ natLe 1 b.kind
    ++ natLe 1 (b2n b.sample + 2 * b2n b.tent) ++ natLe 2 b.topK ++ natLe 4 b.invTemp.toNat ++ natLe 8 b.stream.toNat

/-- Offset of the token table (R356, R357). -/
def tokenOff (rows : List BRow) : Nat := 64 + 32 * rows.length

def tableBytes (rows : List BRow) : List Byte :=
  natLe 4 rows.length ++ natLe 4 (tokenOff rows) ++ List.replicate 56 0#8 ++ rows.flatMap rowBytes

/-- Makes the copies that a step's appends need, by rising sequence slot: a page is written in place by the lowest slot whose
append is at its fill (08 R331). False: a page lacks or must be rinsed first; leaves evicted meanwhile stay evicted. -/
def copyForRows (d : Dev) (ctx n : Nat) (rows : List BRow) : Bool × Dev :=
  let first := rows.foldl (fun (m : SMap Nat) b => match seqIn d ctx n b.seq.toNat with
    | some (slot, s) => if seqLen s = b.pos ∧ (smFind m slot).isNone then smPut m slot b.pos else m
    | none => m) []
  let r := first.foldl (fun (acc : Bool × Dev × List Nat) q =>
    let (ok, d, claimed) := acc
    if !ok then acc
    else match poolOf d ctx n with
      | none => (false, d, claimed)
      | some p => match (seqAt d ctx n q.1).pages[q.2 / kvTpp p]? with
        | none => acc
        | some pg =>
          if (kvPage p pg).fill ≤ q.2 ∧ !claimed.contains pg then (true, d, pg :: claimed)
          else match roomWithin d ctx n 1 with
            | (.ready, d1) => match takeKvPage d1 ctx n with
              | some (k, d2) =>
                let d3 := copyPageBytes d2 ctx n pg k (q.2 % kvTpp p)
                let d4 := modPool d3 ctx n (fun p => dropCount { p with page := smUpd p.page k (fun v => { v with fill := q.2 }) } pg)
                (true, tallyCount (modSeq d4 ctx n q.1 (fun s => { s with pages := setNth s.pages (q.2 / kvTpp p) k }))
                  0x3A ctx 1 srcJenorneb, claimed)
              | none => (false, d1, claimed)
            | (_, d1) => (false, d1, claimed)) (true, d, [])
  (r.1, r.2.1)

/-- Pages of the sequences of a step's rows. -/
def rowPages (d : Dev) (ctx n : Nat) (rows : List BRow) : List Nat :=
  ((rows.map (fun b => b.seq)).eraseDups).flatMap (fun h => match seqIn d ctx n h.toNat with | some (_, s) => s.pages | none => [])

/-- Sends a batch table to a member, in pieces of at most 2,048 bytes (R380; log 32). -/
def sendTable (d : Dev) (ctx : Nat) (st : BStep) (dst : Nat) (bs : List Byte) : Dev :=
  (span 0 (ceilDiv bs.length 2048)).foldl (fun d k =>
    sendMsg d dst ctx 0 (natLe 4 6 ++ natLe 4 st.num ++ natLe 4 st.version.toNat ++ natLe 4 st.model ++ natLe 8 st.tableVa
      ++ natLe 4 bs.length ++ natLe 4 (2048 * k) ++ (bs.drop (2048 * k)).take 2048)) d

/-- A step's pages are pinned, once each (08 R330). -/
def pinKv (d : Dev) (ctx n : Nat) (pins : List Nat) : Dev :=
  modPool d ctx n (fun p => pins.foldl (fun p pg => setPage p pg { kvPage p pg with pins := (kvPage p pg).pins + 1 }) p)

/-- Pins, fills the batch table and launches a step of a group (R355, R356). False: a copy that it needs has to wait. -/
def launchStep (d : Dev) (ctx : Nat) (x : Ctx) (e : List Byte) (draft : Bool) (ver : Word) (rows : List BRow) (due : Option Nat)
    (cls : Nat) : Bool × Dev :=
  let n := sePool e
  match copyForRows d ctx n rows with
  | (false, d1) => (false, d1)
  | (true, d1) =>
    let pins := (rowPages d1 ctx n rows).eraseDups
    let d2 := pinKv d1 ctx n pins
    let d3 := match modelSet d2 ctx e with
      | some w => (match verSlot (wset d2 w) ver with | some s => pin d2 w s .serve | none => d2)
      | none => d2
    let va := batchVa (servTab d ctx)
    let num := x.serve.nextStep
    let bs := tableBytes rows
    let args := [BitVec.ofNat 32 va, BitVec.ofNat 32 (va / 2 ^ 32), BitVec.ofNat 32 rows.length, BitVec.ofNat 32 num, ver]
    let (k, d4) := queueLaunch (poke d3 ctx va bs) (mkLaunch d3 ctx (.serve num) (seSlot e) 0 x.engCount args false 0 due cls)
    let others := otherMembers e
    let st : BStep := { num := num, model := seId e, draft := draft, version := ver, stage := .running, rows := rows, pins := pins,
                        tableVa := va, failed := false, launch := some k, remote := false, waiting := others, got := [], leader := myId d }
    let d5 := others.foldl (fun d m => sendTable d ctx st m bs) d4
    (true, modServe d5 ctx (fun s => { s with
      step := some st
      nextStep := (num + 1) % 2 ^ 32
      resident := s.resident.filter (fun m => m != seId e) ++ [seId e] }))

/-- The requests of a group that can take part now; pages that are away are recalled (R341, R378). -/
def readyReqs (d : Dev) (ctx : Nat) (e : List Byte) (l : List (Nat × Req)) : List (Nat × Req) × Dev :=
  let d1 := l.foldl (fun d p => (reqAway d p.2).foldl (fun d q => recallPage d ctx q.1 q.2 none []) d) d
  (if isResident d ctx e then l.filter (fun p => (reqAway d p.2).isEmpty) else [], recallModel ctx d1 e)

/-- The earliest of some instants, none being never. -/
def earliest (l : List (Option Nat)) : Option Nat := l.foldl sooner none

/-- Plans the step of a group: a draft step first while draft tokens are wanted, else the main step (R355, R359, R370). False: none can run now. -/
def planGroup (d : Dev) (ctx : Nat) (x : Ctx) (e : List Byte) (ver : Word) (l : List (Nat × Req)) : Bool × Dev :=
  let due := earliest (l.map (fun p => nextDue d p.2))
  let cls := if l.any (fun p => hasGoal d p.2) then 1 else 2
  let drafters := l.filter (fun p => wantsDraft p.2)
  let can (f : List Byte) : Bool := cls == 1 || energyOk d x (seSlot f) 0 x.engCount
  let draftPlan : Option (List Byte × List BRow) := match draftOf d ctx e with
    | none => none
    | some f =>
      let rows := drafters.foldl (fun acc p => acc ++ draftRows d p.1 p.2 (seRows f - acc.length)) []
      if rows.isEmpty || !isResident d ctx f then none else some (f, rows)
  match draftPlan with
  | some (f, rows) => if can f then launchStep d ctx x f true (modelVersion d ctx f) rows due cls else (false, d)
  | none =>
    let dec := (l.filter (fun p => decide (p.2.state = .decode))).foldl (fun acc p =>
      let rs := decodeRows d p.1 p.2
      if acc.length + rs.length ≤ seRows e then acc ++ rs else acc) []
    let pre := prefillRows d (prefillOrder l) (min (seChunk e) (seRows e - dec.length))
    if (dec ++ pre).isEmpty || !can e then (false, d) else launchStep d ctx x e false ver (dec ++ pre) due cls

/-- The groups of a context in order of their earliest due instant, those without one last. -/
def groupOrder (d : Dev) (ctx : Nat) : List (Nat × Word) :=
  let act := activeReqs d ctx
  let due (g : Nat × Word) : Option Nat := earliest ((act.filter (fun p => inGroup g p.2)).map (fun p => nextDue d p.2))
  (groupsOf act).foldl (fun l g => ins due g l) []
where
  /-- Inserts before the first group that is due later. -/
  ins (due : Nat × Word → Option Nat) (g : Nat × Word) : List (Nat × Word) → List (Nat × Word)
    | [] => [g]
    | h :: hs => match due g, due h with
      | some a, some b => if a < b then g :: h :: hs else h :: ins due g hs
      | some _, none => g :: h :: hs
      | none, _ => h :: ins due g hs

/-- The first group that can run. -/
def planFirst (ctx : Nat) (x : Ctx) (d : Dev) : List (Nat × Word) → Dev
  | [] => d
  | g :: gs => match sEntry d ctx g.1 with
    | none => planFirst ctx x d gs
    | some e =>
      let (l, d1) := readyReqs d ctx e ((activeReqs d ctx).filter (fun p => inGroup g p.2))
      match if versionOk d1 ctx e g.2 then planGroup d1 ctx x e g.2 l else (false, d1) with
      | (true, d2) => d2
      | (false, d2) => planFirst ctx x d2 gs

/-- A boundary with no step in flight stands for the end of an empty step: pages without a holder pass to rinse (08 R330; log 24). -/
def idleEnd (d : Dev) (ctx : Nat) : Dev :=
  match smFind d.ctxs ctx with
  | none => d
  | some x => x.pools.foldl (fun d q => unslow ctx q.1 (modPool d ctx q.1 rinseIdle)) d

/-- BATCH_STEP_PLAN (R355, R375): with no step in flight the boundary still stands. -/
def execBatchStepPlan (ctx : Nat) (s : State) : Host.Outcome State Fault Refusal :=
  onDev s (fun d => match smFind d.ctxs ctx with
    | none => d
    | some x =>
      if x.serve.step.isSome || x.destroying || refolding d ctx then d
      else
        let d1 := boundary (idleEnd d ctx) ctx
        match smFind d1.ctxs ctx with
        | none => d1
        | some x1 => planFirst ctx x1 d1 (groupOrder d1 ctx))

/-! ### A member's part (R380) -/

/-- The rows of a batch table as it stands in the serving area (R356). -/
def tableRows (bs : List Byte) : List BRow :=
  (span 0 (field bs 0 4)).map (fun k =>
    let b := slice bs (64 + 32 * k) 32
    { req := word b 0, seq := word b 4, pos := field b 8 4, token := word b 12, kind := field b 0x10 1,
      sample := bit (field b 0x11 1) 0, tent := bit (field b 0x11 1) 1, topK := field b 0x12 2, invTemp := word b 0x14,
      stream := BitVec.ofNat 64 (field b 0x18 8) })

/-- What a leader says of a KV sequence (R362, R380; log 32): the member has it under the same handle in its own pool. -/
def gotKvNews (d : Dev) (ctx : Nat) (m : List Byte) : Dev :=
  let f (o : Nat) : Nat := field m o 4
  let n := f 8
  let h := f 12
  let slot := h % 2 ^ 17
  match f 4, poolOf d ctx n with
  | 1, some p =>
    if (smGet {} p.seq slot).live then d
    else
      -- the sequence takes the slot and generation of its handle
      let put (d : Dev) (s : KvSeq) : Dev := modPool d ctx n (fun p => { p with seq := smPut p.seq slot { s with
        gen := h / 2 ^ 17, live := true, pool := n, reserved := f 28, heads := List.replicate (kvL p) 0 } })
      match seqIn d ctx n (f 20) with
      | some (_, s) =>
        let len := min s.commit (f 24) / kvTpp p * kvTpp p
        let pages := s.pages.take (len / kvTpp p)
        put (pages.foldl (fun d pg => modPool d ctx n (fun p => setPage p pg { kvPage p pg with count := (kvPage p pg).count + 1 })) d)
          { version := word m 16, len := List.replicate (kvL p) len, commit := len, pages := pages, closed := len / 32 }
      | none => put d { version := word m 16, len := List.replicate (kvL p) 0 }
  | 2, _ => (match seqIn d ctx n h with | some (k, s) => (truncateSeq d ctx n k (min (f 24) (seqLen s))).getD d | none => d)
  | 3, _ => freeHandle d ctx (BitVec.ofNat 32 h)
  | _, _ => d

/-- A piece of a batch table arrives; with the last one the member launches the step. -/
def receiveTable (d : Dev) (p : Packet) : Dev :=
  let f (o n : Nat) : Nat := field p.data o n
  let num := f 4 4
  let answer (d : Dev) : Dev := sendMsg d p.src p.ctx 0 (natLe 4 7 ++ natLe 4 num ++ natLe 4 1)
  match smFind d.ctxs p.ctx, sEntry d p.ctx (f 12 4) with
  | some x, some e =>
    let piece := p.data.drop 32
    let d1 := poke d p.ctx (f 16 8 + f 28 4) piece
    let got := f 28 4 :: (match x.serve.step with | some st => st.got | none => [])
    let st : BStep := { num := num, model := f 12 4, draft := false, version := word p.data 8, stage := .planned, rows := [], pins := [],
                        tableVa := f 16 8, failed := false, launch := none, remote := true, waiting := [], got := got, leader := p.src }
    if got.length < ceilDiv (f 24 4) 2048 then modServe d1 p.ctx (fun s => { s with step := some st })
    else
      let rows := tableRows (peek d1 p.ctx (f 16 8) (f 24 4))
      let args := [BitVec.ofNat 32 (f 16 8), BitVec.ofNat 32 (f 16 8 / 2 ^ 32), BitVec.ofNat 32 rows.length, BitVec.ofNat 32 num, st.version]
      let pins := (rowPages d1 p.ctx (sePool e) rows).eraseDups
      let (k, d2) := queueLaunch (pinKv d1 p.ctx (sePool e) pins) (mkLaunch d1 p.ctx (.serve num) (seSlot e) 0 x.engCount args false 0 none 1)
      let d3 := match modelSet d2 p.ctx e with
        | some w => (match verSlot (wset d2 w) st.version with | some s => pin d2 w s .serve | none => d2)
        | none => d2
      modServe d3 p.ctx (fun s => { s with step := some { st with stage := .running, rows := rows, pins := pins, launch := some k } })
  | _, _ => answer d

/-- BATCH_TABLE_RECEIVE (R380): a message of a leader, once the context has no other step in flight. -/
def execBatchTableReceive (pkt : Packet) (s : State) : Host.Outcome State Fault Refusal :=
  onDev s (fun d =>
    let busy := match (smFind d.ctxs pkt.ctx).bind (fun x => x.serve.step) with
      | some st => !(st.remote && decide (st.stage = .planned) && st.num == field pkt.data 4 4 && st.leader == pkt.src)
      | none => false
    if field pkt.data 0 4 != 6 || busy then d
    else match takePacket d pkMsg pkt with
      | some d1 => receiveTable d1 pkt
      | none => d)

/-- A member's step has ended (R380). -/
def memberEnds (d : Dev) (src ctx num status : Nat) : Dev :=
  modServe d ctx (fun s => { s with step := s.step.map (fun st =>
    if st.num = num ∧ !st.remote then
      { st with waiting := st.waiting.filter (fun m => m != src), failed := st.failed || status != 0 } else st) })

/-! ### Committing a step (R357, R358, R368 to R371, R382) -/

/-- What the token table gives for a row: token, log-probability and winning score. -/
abbrev Sample := Word × Word × Word

/-- The samples committed up to a NaN score or a stop: tokens, how the request ends, samples left over (R368, R369). -/
def applyStops (e : List Byte) (r : Req) : List Sample → Nat → List Sample × Option (Nat × Nat) × Nat
  | [], _ => ([], none, 0)
  | s :: ss, n =>
    if isNan32 s.2.2 then ([], some (stNotFinite, 4), 0)
    else if (span 0 8).any (fun i => r.stopMask.getLsbD i && seStop e i != noVersion && seStop e i == s.1) then ([s], some (stOk, 1), ss.length)
    else if r.maxNew ≤ n + 1 then ([s], some (stOk, 0), ss.length)
    else if 2 ^ 20 ≤ r.promptLen + n + 1 then ([s], some (stOk, 2), ss.length)
    else
      let (l, z, w) := applyStops e r ss (n + 1)
      (s :: l, z, w)

/-- TOKENS records, three tokens each (R353). -/
def tokenRecords (cid : Nat) (d : Dev) (toks : List Word) (index : Nat) : Nat → Dev
  | 0 => d
  | fuel + 1 =>
    if toks.isEmpty then d
    else
      let l := toks.take 3
      let d1 := progress d cid 2 ([(0x0C, 4, index)] ++ l.zipIdx.map (fun t => (0x10 + 4 * t.2, 4, t.1.toNat)) ++ [(0x1C, 1, l.length)])
      tokenRecords cid d1 (toks.drop 3) (index + 3) fuel

/-- Delivers committed tokens: the output area, the record, its goals, and the TOKENS records (R344, R353, R358, R365). -/
def deliver (d : Dev) (slot : Nat) (ver : Word) (l : List Sample) : Dev :=
  let r := getReq d slot
  if l.isEmpty then d
  else
    let first := r.outLen == 0
    let gap := (d.now - (if first then r.arrival else r.lastDeliv)) / 400
    let goal := if first then r.ttftGoal else r.tbtGoal
    -- goals are not promised from the position RESERVED_TO on while the request is UNRESERVED (R366)
    let due := (if first then r.arrival else r.lastDeliv) + 400 * goal
    let miss := goal != 0 && !(r.unreserved && decide (r.reservedTo ≤ reqLen r)) && decide (due < d.now)
    let lateBy := if miss then (d.now - due) / 400 else 0
    let hot := match r.cid.bind (smFind d.cmds) with | some c => c.throttled | none => false
    let r1 : Req := { r with
      outLen := r.outLen + l.length, outToks := r.outToks ++ l.map (fun s => (s.1, s.2.1)), lastDeliv := d.now,
      ttft := if first then gap else r.ttft, tbtMax := if first then r.tbtMax else max r.tbtMax gap,
      late := max r.late lateBy, missed := r.missed || miss, lateHot := r.lateHot || (miss && hot),
      vFirst := if first then ver else r.vFirst, vLast := ver, vPos := if first then 0 else if r.vLast = ver then r.vPos else r.outLen }
    let d1 := poke d r.ctx (r.outVa + 4 * r.outLen) (l.flatMap (fun s => natLe 4 s.1.toNat))
    let d2 := poke d1 r.ctx (r.outVa + 4 * r.maxNew + 4 * r.outLen) (l.flatMap (fun s => natLe 4 s.2.1.toNat))
    let d3 := modReq d2 slot (fun _ => r1)
    let d4 := match seqFind d3 r.ctx r.seq.toNat with
      | some (n, k, _) => noteToks d3 r.ctx n k (reqLen r) (l.map (·.1))
      | none => d3
    let d5 := tallyValue d4 (if first then 0x20 else 0x21) r.ctx gap (BitVec.ofNat 32 (reqHandle slot r))
    match r.cid with
    | some c => tokenRecords c d5 (l.map (·.1)) r.outLen l.length
    | none => d5

/-- Cuts a sequence back to a length, or to its own when that is less: what remains is committed (R370; 08 R323). -/
def cutTo (d : Dev) (ctx : Nat) (h : Word) (len : Nat) : Dev :=
  match seqFind d ctx h.toNat with
  | some (n, slot, s) =>
    let l := min len (seqLen s)
    match truncateSeq d ctx n slot l with
    | some d1 => d1
    | none => let (_, d1) := roomWithin d ctx n 1; (truncateSeq d1 ctx n slot l).getD d1
  | none => d

/-- Cuts both sequences of a request, on every member. -/
def cutReq (d : Dev) (r : Req) (len : Nat) : Dev :=
  [r.seq, r.draftSeq].foldl (fun d h => cutTo (tellMembers d r h .cut noVersion len 0) r.ctx h len) d

/-- The draft length after a main step that accepted a of k tokens; a step without draft tokens leaves it, but for the steps of a
pause (R371; log 33). -/
def nextK (e : List Byte) (r : Req) (k a : Nat) : Req :=
  if !hasSpec r then r
  else if r.specPaused then
    if r.pausedSteps + 1 < 16 then { r with pausedSteps := r.pausedSteps + 1 }
    else { r with k := min 1 (seKmax e), specPaused := seKmax e == 0, pausedSteps := 0 }
  else if k = 0 then r
  else
    let k' := if a = k then min (k + 1) (seKmax e) else a
    { r with k := k', specPaused := k' == 0, pausedSteps := 0 }

/-- A scorer's sample: the score goes to the rollout it scores (R382). -/
def writeScore (d : Dev) (ctx : Nat) (h score : Word) : Dev :=
  match reqFind d ctx h.toNat with
  | none => d
  | some (slot, r) =>
    if r.rollout = 0xFFFFFFFF then d
    else
      let d1 := poke d ctx (rolloutVa d r + 0x24) (natLe 4 score.toNat)
      poke (modReq d1 slot (fun r => { r with reward := score })) ctx (rolloutVa d r + 0x28) [3#8, 0#8]

/-- The commit of a main step for one request (R358, R368 to R371, R374, R382). -/
def commitReq (e : List Byte) (ver : Word) (d : Dev) (slot : Nat) (rows : List (BRow × Option Sample)) : Dev :=
  let r := getReq d slot
  if !isActive r then d
  else if r.cancel then endReq d slot stCancelled 0 3
  else
    let fill := (rows.filter (fun b => b.1.kind == 1)).length
    let smp := rows.filterMap (·.2)
    let drafts := r.draftToks
    let verify := !drafts.isEmpty
    let a := ((drafts.zip smp).takeWhile (fun q => q.1 == q.2.1)).length
    let offered := if verify then smp.take (a + 1) else smp
    let (l, fate, waste) := applyStops e r offered r.outLen
    let r1 := nextK e { r with processed := r.processed + fill, draftToks := [], drafted := r.drafted + drafts.length, accepted := r.accepted + a }
      drafts.length a
    let r2 : Req := if r1.processed < r1.promptLen then r1 else { r1 with state := .decode }
    let d1 := modReq d slot (fun _ => if smp.isEmpty then { r with processed := r.processed + fill } else r2)
    let d2 := match seKind e, l with
      | 1, s :: _ => writeScore d1 r.ctx r.scores s.2.2
      | _, _ => d1
    let d3 := deliver d2 slot ver l
    let d4 := if verify then
        tallyCount (tallyCount (tallyCount d3 0x24 r.ctx drafts.length srcJenorneb) 0x25 r.ctx (drafts.length - a) srcJenorneb)
          0x26 r.ctx (drafts.length - a) srcJenorneb
      else d3
    let d5 := if waste = 0 then d4 else tallyCount d4 0x27 r.ctx waste srcJenorneb
    let len := reqLen (getReq d5 slot) - 1
    let d6 := if verify then cutReq d5 r len else d5
    match fate with
    | none => d6
    | some (st, why) => endReq (if st = stNotFinite then tallyCount d6 0x28 r.ctx 1 srcJenorneb else d6) slot st 0 why

/-- The commit of a draft step for one request: its new draft token (R370). -/
def commitDraft (d : Dev) (slot : Nat) (rows : List (BRow × Option Sample)) : Dev :=
  let r := getReq d slot
  if !isActive r then d
  else if r.cancel then endReq d slot stCancelled 0 3
  else modReq d slot (fun r => { r with draftToks := r.draftToks ++ (rows.filterMap (·.2)).map (·.1) })

/-- The samples of a step's rows, in row order (R357). -/
def samplesOf (bs : List Byte) : List BRow → Nat → List (BRow × Option Sample)
  | [], _ => []
  | b :: rows, i =>
    if b.sample then (b, some (word bs (16 * i), word bs (16 * i + 4), word bs (16 * i + 8))) :: samplesOf bs rows (i + 1)
    else (b, none) :: samplesOf bs rows i

/-- The pages that the step's sequences read, once for each sequence (08 R339). -/
def stepReads (d : Dev) (ctx : Nat) (st : BStep) (e : List Byte) : List Nat := rowPages d ctx (sePool e) st.rows

/-- Adds the step's reads to the heat of pages (08 R339). -/
def addHeat (p : KvPool) (reads : List Nat) : KvPool :=
  { p with page := reads.foldl (fun m pg => smUpd m pg (fun v => { v with heat := min (v.heat + 1) 65535 })) p.page }

/-- Closes the blocks of every sequence of a pool that have become whole (08 R314, R334 action 1). -/
def closePool (ctx : Nat) (d : Dev) (n : Nat) : Dev :=
  match poolOf d ctx n with
  | none => d
  | some p => (p.seq.filter (fun s => s.2.live)).foldl (fun d s => (closeBlocks d ctx n s.1 0 (seqLen s.2 / 32 + 1)).1) d

/-- KV commands that the end of the step applies, in admission order: those held, and those admitted meanwhile that name a sequence of
the step (08 R325). -/
def heldKv (d : Dev) (ctx : Nat) : List Nat :=
  let held := match smFind d.ctxs ctx with | some x => x.serve.heldCmds | none => []
  let named (c : Cmd) : Bool :=
    (opcodeC c == 0x0801 && attached d ctx (apSeq c))
      || (opcodeC c == 0x0802 && (fkMode c == 1 || fkMode c == 2) && attached d ctx (fkSeq c))
      || (opcodeC c == 0x0803 && decide (fkMode c < 2) && attached d ctx (fkSeq c))
  ((d.cmds.filter (fun p => held.contains p.1 || (cmdContext p.2 == ctx && p.2.fin.isNone && decide (p.2.phase = .admitted)
    && mayBegin d p.1 p.2 && named p.2))).map (·.1))

/-- What is reserved for a sequence of the step beyond what its request still needs is given up (R362). -/
def trimReserve (ctx : Nat) (d : Dev) (slot : Nat) : Dev :=
  let r := getReq d slot
  [r.seq, r.draftSeq].foldl (fun d h => match seqFind d ctx h.toNat with
    | some (n, k, _) => (match poolOf d ctx n with
      | some p => modSeq d ctx n k (fun s => { s with reserved := min s.reserved (ceilDiv r.reservedTo (kvTpp p) - s.pages.length) })
      | none => d)
    | none => d) d

/-- The end of a batch step (08 R314, R325, R334, R339; 09 R375). -/
def endBatch (d : Dev) (ctx : Nat) (st : BStep) (e : List Byte) (reads : List Nat) : Dev :=
  let n := sePool e
  let pools : List Nat := match smFind d.ctxs ctx with | some x => x.pools.map (·.1) | none => []
  let d1 := pools.foldl (closePool ctx) d
  let d2 := modPool d1 ctx n (fun p => addHeat { p with
    page := st.pins.foldl (fun m pg => smUpd m pg (fun v => { v with pins := v.pins - 1 })) p.page, step := p.step + 1 } reads)
  let held := heldKv d2 ctx
  let d3 := modServe d2 ctx (fun s => { s with heldCmds := [], step := s.step.map (fun b => { b with stage := .committed, rows := [] }) })
  let d4 := held.foldl (fun d c => applyHeld (setPhase d c .running) c) d3
  let d5 := modServe d4 ctx (fun s => { s with step := none })
  let d6 := switchMoves (pools.foldl (fun d q => switchMaps (modPool d ctx q rinseIdle) ctx q) d5) ctx
  let d7 := ((st.rows.map (fun b => b.req.toNat % 2 ^ 17)).eraseDups).foldl (trimReserve ctx) d6
  match modelSet d7 ctx e with
  | some w => unpin d7 w st.version .serve
  | none => d7

/-- A step whose launch has ended is committed, and the boundary's actions follow (R355, R357, R375, R380). -/
def commitStep (d : Dev) (ctx : Nat) (st : BStep) (e : List Byte) (z : Launch) : Dev :=
  let fin (d : Dev) : Dev := { d with launches := match st.launch with | some k => smErase d.launches k | none => d.launches }
  let reads := stepReads d ctx st e
  if st.remote then
    let d1 := sendMsg d st.leader ctx 0 (natLe 4 7 ++ natLe 4 st.num ++ natLe 4 (b2n z.fault.isSome))
    fin (endBatch d1 ctx st e reads)
  else if !st.waiting.isEmpty then d
  else
    let slots := (st.rows.map (fun b => b.req.toNat % 2 ^ 17)).eraseDups
    let n := (st.rows.filter (fun b => b.sample)).length
    match if st.failed || z.fault.isSome then none
        else (readVirt d ctx (st.tableVa + tokenOff st.rows) (16 * n) .any).toOption with
    | none =>
      let d1 := slots.foldl (fun d s => if isActive (getReq d s) then endReq d s stDeviceFault 0x0002 4 else d) d
      boundary (fin (endBatch d1 ctx st e reads)) ctx
    | some bs =>
      let rows := samplesOf bs st.rows 0
      let of (s : Nat) : List (BRow × Option Sample) := rows.filter (fun b => b.1.req.toNat % 2 ^ 17 == s)
      let d1 := slots.foldl (fun d s => if st.draft then commitDraft d s (of s) else commitReq e st.version d s (of s)) d
      boundary (fin (endBatch d1 ctx st e reads)) ctx

/-- BATCH_STEP_COMMIT (R357, R358, R375). -/
def execBatchStepCommit (ctx : Nat) (s : State) : Host.Outcome State Fault Refusal :=
  onDev s (fun d => match (smFind d.ctxs ctx).bind (fun x => x.serve.step) with
    | none => d
    | some st => match st.launch.bind (smFind d.launches), sEntry d ctx st.model with
      | some z, some e => if z.state = .ended then commitStep d ctx st e z else d
      | _, _ => d)

end Sys2Proof.Machine
end

