-- ==== Sys2Proof/Machine/Coll.lean ====
section
/-! DEFINITION. Collectives: checks and admission, the start phase, the decision, the packets and timers of a collective, the commit
of a weight version, and CTRL messages (11 R422 to R458; 12 R484 to R490; 10 R400). -/

namespace Sys2Proof.Machine

/-! ### Checks and admission (R422 to R425, R449 to R451, R454; 12 R484) -/

/-- The descriptor of a shard map is well formed for a group of n members (R435, R438). -/
def shardMapOk (op n : Nat) (desc : List Byte) : Bool :=
  let k := nShards desc
  let chains := chainsOf desc
  decide (1 ≤ k) && decide (k ≤ 2 ^ 20) && decide (64 + 32 * k ≤ desc.length) && decide (field desc 4 2 ≤ 16)
    && (span 0 k).all (fun s =>
      let e := shardE desc s
      decide (64 ≤ seBytes e) && decide (seBytes e ≤ 2 ^ 30) && seBytes e % 64 == 0 && decide (seOwner e < n)
        && (seHolders e).all (fun h => decide (h < n)) && (seWset e == 0xFF || decide (seWset e < 16))
        && (op != opBroadcast || decide (seChain e < chains.length)))
    && (op != opBroadcast || chains.all (fun c => !c.isEmpty && c.all (fun m => decide (m < n)) && c.eraseDups.length == c.length))

/-- The descriptor of a reduction is well formed (R440, R441). -/
def reduceOk (op n : Nat) (desc : List Byte) (me : Nat) : Bool :=
  let rs := (span 0 n).map (rdRange desc)
  decide (0x60 + 8 * n ≤ desc.length) && decide (1 ≤ rdSegs desc) && decide (rdSegs desc ≤ 2 ^ 24) && decide (rdN desc ≤ 2 ^ 20)
    && decide (rdOp desc ≤ 4) && decide (1 ≤ rdSlots desc) && decide (rdSlots desc ≤ 24) && decide (1 ≤ rdElems desc)
    && decide (rdElems desc ≤ 504) && (!rdHasDst desc || (fdOk (field desc 0x10 4) (field desc 0x14 4) && !(rdFd desc).block))
    && (op != opAllReduce || rdHasDst desc) && field desc 0x28 4 % 64 == 0 && (rdPark desc).2 % 4096 == 0
    && rs.all (fun r => decide (r.1 ≤ r.2) && decide (r.2 ≤ rdN desc)) && overlap rs 0 (rdN desc) == rdN desc
    && (rs.map (fun r => r.2 - r.1)).sum == rdN desc && field desc 0x2C 4 == (coverOf desc [me]).length

/-- The word of a reduction's DST_FD that fails, as an offset in its descriptor (03 R84; log 58). -/
def reduceFdBad (op : Nat) (desc : List Byte) : Option Nat :=
  if isReduce op && rdHasDst desc then (fdBadWord (field desc 0x10 4) (field desc 0x14 4)).map (fun k => 0x10 + k) else none

/-- Every reduction buffer of this member lies on one memory-side die, as far as its pages lie on one now (R441; 07 R292). -/
def bufsOnDies (d : Dev) (devs : List Nat) (i : Nat) (c : Cmd) (desc : List Byte) (x : Ctx) : Bool :=
  (collBuffers devs d i c desc).all (fun g => onOneDie x (rdRb desc g) (rdBufBytes desc))

/-- Ranges of a list: one of the first meets one of the second. -/
def rangesTouch (a b : List (Nat × Nat)) : Bool :=
  a.any (fun x => b.any (fun y => decide (x.1 < y.1 + y.2) && decide (y.1 < x.1 + x.2)))

/-- No two destinations of one round of a map overlap, nor a destination and a source (R451). -/
def roundsOk (es : List (List Byte)) (rounds : Nat) : Bool :=
  (span 0 rounds).all (fun r =>
    let l := es.filter (fun e => meRound e == r)
    let dst := l.filterMap (fun e => match meDir e with
      | 1 => some (meLocal e, meBytes e) | 2 => some (meOther e, meBytes e) | _ => none)
    let src := l.filterMap (fun e => if meDir e = 1 then none else some (meLocal e, meBytes e))
    !rangesTouch dst src && (dst.zipIdx).all (fun q => !rangesTouch [q.1] (dst.drop (q.2 + 1))))

/-- A refold map is well formed (R450). -/
def mapOk (n me : Nat) (desc : List Byte) (mapId : Nat) : Bool :=
  let k := field desc 0x0C 4
  let es := mapEntries desc
  field desc 0 8 == mapId && field desc 8 2 == me && decide (1 ≤ mapRounds desc) && decide (mapRounds desc ≤ 64) && decide (1 ≤ k)
    && decide (k ≤ 65536) && decide (64 + 32 * k ≤ desc.length)
    && es.all (fun e => decide (meDir e ≤ 2) && decide (meRound e < mapRounds desc) && meBytes e % 64 == 0 && decide (meBytes e ≤ 2 ^ 31)
      && field e 6 2 == 0 && field e 0x1C 4 == 0 && (meDir e == 2 || decide (mePeer e < n)) && (meReplica e == 0xFFFF || decide (meReplica e < n)))
    && (es.zip (es.drop 1)).all (fun p => decide (meRound p.1 ≤ meRound p.2)) && roundsOk es (mapRounds desc)

/-- The descriptor or map of a command is well formed. -/
def descOk (n me : Nat) (c : Cmd) (desc : List Byte) : Bool :=
  let op := collOpOf c
  if isShardMap op then shardMapOk op n desc
  else if isReduce op then reduceOk op n desc me
  else if op = opAllToAll then
    decide (0x20 + 16 * n ≤ desc.length) && field desc 0 4 != 0 && field desc 0 4 % 64 == 0 && decide (field desc 0 4 ≤ 65536)
  else if op = opRefold then mapOk n me desc (par c 0x28 8)
  else true

/-- Collectives of this member in flight. -/
def inFlightColls (d : Dev) : List Coll := (d.colls.live.map (·.2)).filter (fun k => k.cid.isSome)

/-- The field checks of the command itself, without its descriptor (R422, R449; 12 R484). -/
def chkCollFields (d : Dev) (c : Cmd) : Chk Unit :=
  let op := collOpOf c
  let g := collGroupOf d c
  let devs := groupDevs d g
  let entry := groupEntry d g
  let member := (memberOf d g).isSome
  let ctxBad := match entry with | some e => gContext e != cmdContext c | none => false
  let dup := (findColl d g (collIdOf c)).isSome
  if op = opCommit then
    chkFields ([(0x10, (wEntry d (par c 0x10 1)).isNone || !member), (0x08, ctxBad || (wOfCmd d c (par c 0x10 1)).isNone),
      (0x11, decide (3 < par c 0x11 1)), (0x14, committing d (par c 0x10 1) (word c.hdr 0x14)), (0x18, dup),
      (0x1C, decide (10 ^ 7 < par c 0x1C 4))] ++ resv c.hdr 0x12 2 ++ resv c.hdr 0x20 32)
  else if op = opRefold then
    chkFields ([(0x08, ctxBad), (0x10, !member), (0x14, dup)] ++ resv c.hdr 0x12 2 ++ resv c.hdr 0x24 4 ++ resv c.hdr 0x30 12 ++ resv c.hdr 0x3E 2)
  else
    chkFields ([(0x08, ctxBad), (0x10, op == 0 || decide (7 < op)),
      (0x11, decide (2 < par c 0x11 1) || (par c 0x11 1 == 2 && member && !rectangular d devs)), (0x12, !member), (0x14, dup),
      (0x20, decide (op ≤ 2) && par c 0x20 4 != 0), (0x28, decide (7 < par c 0x28 4)),
      (0x2C, op == opAllToAll && bit (par c 0x28 4) 1 && !d.colls.okA2a.any (fun q => q.1 == g && q.2.1 == word c.hdr 0x2C))]
      ++ resv c.hdr 0x30 12 ++ resv c.hdr 0x3E 2)

/-- The checks of COLL.RUN, REFOLD.RUN and WEIGHTS.COMMIT (R424, R425, R451, R454; 12 R465). -/
def chkColl (d : Dev) (c : Cmd) : Chk Unit := do
  let op := collOpOf c
  chkCollFields d c
  let g := collGroupOf d c
  let devs := groupDevs d g
  let me := (memberOf d g).getD 0
  match descOf d c, smFind d.ctxs (cmdContext c) with
  | none, _ => badParam 0x18
  | _, none => badParam 0x08
  | some desc, some x =>
    if 0x60 ≤ desc.length then match reduceFdBad op desc with
      | some o => badParam o
      | none => .ok ()
    if !descOk devs.length me c desc then badParam 0x18
    let rs := collRanges d devs me c desc
    if !rs.all (collRangeOk x (op == opRefold)) then badParam 0x18
    if isReduce op ∧ !bufsOnDies d devs me c desc x then badParam 0x18
    let ver := word c.hdr 0x24
    if ver ≠ noVersion ∧ (shardSets op desc).any (fun w => match verSlot (wset d w) ver with
        | some s => !collPinOk (wslot (wset d w) s) | none => true) then badParam 0x24
    if op ≠ 1 ∧ !d.colls.checked.contains g then .error { status := stConfigSkew, detail := 5 }
    let l := inFlightColls d
    if 16 ≤ (l.filter (fun k => k.group == g)).length ∨ 64 ≤ l.length then refused 0x21
    if cmdDeadline c ≠ 0 ∧ !(notLocal d (cmdContext c) rs).isEmpty then refused 3
    if cmdDeadline c ≠ 0 ∧ op = opRefold ∧ (leavesOf x rs).any (fun q => heldPage x q.1 q.2) then refused 0x22
where
  /-- The leaves of some ranges. -/
  leavesOf (x : Ctx) (rs : List (Nat × Nat × Bool)) : SMap Pte :=
    x.ptes.filter (fun q => rs.any (fun r => decide (65536 * q.1 < r.1 + r.2.1) && decide (r.1 < 65536 * q.1 + pageBytes q.2)))

/-- PARAM_HASH or MAP_ID (R429; 12 R484). -/
def collHash (c : Cmd) (desc : List Byte) (n : Nat) : List Byte :=
  let op := collOpOf c
  if op = opRefold then slice c.hdr 0x28 8
  else if op = opCommit then (sha256 (slice c.hdr 0x10 8)).take 8
  else
    let common := if isShardMap op then desc.take (64 + 32 * nShards desc)
      else if isReduce op then desc.take 0x20 ++ slice desc 0x60 (8 * n)
      else if op = opAllToAll then desc.take 4
      else []
    (sha256 (slice c.hdr 0x10 8 ++ slice c.hdr 0x24 12 ++ common)).take 8

/-- A START record of 48 bytes (log 35): member, refusal status, AUX, hash and the whole digest. -/
def startRecord (member status aux : Nat) (hash digest : List Byte) : List Byte :=
  natLe 2 member ++ natLe 2 status ++ natLe 4 aux ++ (hash ++ List.replicate 8 0#8).take 8 ++ (digest ++ List.replicate 32 0#8).take 32

def srMember (r : List Byte) : Nat := field r 0 2
def srStatus (r : List Byte) : Nat := field r 2 2
def srAux (r : List Byte) : Nat := field r 4 4
def srHash (r : List Byte) : List Byte := slice r 8 8
def srDigest (r : List Byte) : List Byte := slice r 16 32

/-- The records of a START packet. -/
def startRecords (p : Packet) : List (List Byte) := (span 0 ((cpData p).length / 48)).map (fun j => slice (cpData p) (48 * j) 48)

/-- The collective of a command on this member, with the STARTs that its leader held ahead of it (R429). -/
def newColl (d : Dev) (c : Cmd) (cid : Option Nat) (refusal : Nat) : Nat × Dev :=
  let g := collGroupOf d c
  let devs := groupDevs d g
  let desc := (descOf d c).getD []
  let mine (p : Packet) : Bool := cpGroup p == g && cpId p == collIdOf c
  let starts := (d.colls.early.filter mine).flatMap startRecords
  let k : Coll := {
    group := g, id := collIdOf c, op := collOpOf c, cid := cid, ctx := cmdContext c, member := (memberOf d g).getD 0, hdr := c.hdr,
    desc := desc, digest := configDigest d, refusal := BitVec.ofNat 32 refusal, startAt := d.now,
    hash := if (descOf d c).isNone then List.replicate 8 0#8 else collHash c desc devs.length
    starts := starts.foldl (fun m r => smPut m (srMember r) r) [] }
  let n := d.colls.next
  (n, { d with colls := { d.colls with
          next := n + 1, live := d.colls.live ++ [(n, k)], early := d.colls.early.filter (fun p => !mine p)
          decided := d.colls.decided.filter (fun q => !(q.1 == k.group && q.2.1 == k.id)) } })

/-- The admission of a collective under the number its command will have: its pins (R425; 12 R465). -/
def admColl (d : Dev) (c : Cmd) : Chk (Cmd × Dev) :=
  let (n, d1) := newColl d c (some d.nextCid) 0
  match getColl d1 n, smFind d.ctxs (cmdContext c) with
  | some k, some x =>
    let pages := rangePages x (collRanges d (groupDevs d k.group) k.member c k.desc)
    let ver := word c.hdr 0x24
    let ws := if ver = noVersion then [] else (shardSets k.op k.desc).filterMap (fun w =>
      (verSlot (wset d w) ver).map (fun s => (w, s)))
    let d2 := modColl (pinPages d1 k.ctx pages true) n (fun k => { k with pins := pages, wpins := ws.map (fun q => (q.1, ver)) })
    .ok (c, ws.foldl (fun d q => pin d q.1 q.2 .coll) d2)
  | _, _ => badParam 0x08

/-- The cost model: T_start and the data phase, or WAIT (R434; 12 R490). -/
def collCostOf (d : Dev) (c : Cmd) : Option Nat :=
  let g := collGroupOf d c
  (groupEntry d g).map (fun e =>
    let devs := groupDevs d g
    if collOpOf c = opCommit then tStart d e devs + par c 0x1C 4
    else collCost d e devs ((memberOf d g).getD 0) c ((descOf d c).getD []))

/-! ### The start phase (R429) -/

/-- The AUX of a summary of START records of a commit (12 R486). -/
def voteSummary (rs : List (List Byte)) : Nat :=
  let bad := rs.find? (fun r => srStatus r != 0 || bits (srAux r) 23 16 != 0)
  let any (i : Nat) : Nat := b2n (rs.any (fun r => srStatus r == 0 && bit (srAux r) i))
  (match bad with | some r => srMember r + 65536 * bits (srAux r) 23 16 | none => 0xFFFF) + any 24 * 2 ^ 24 + any 25 * 2 ^ 25

/-- The vote of a member on a version (12 R485, R489). -/
def voteOf (v : WSet) (ver : Word) : Nat :=
  let st := slotState v ver
  let reason := match verSlot v ver with | some s => (wslot v s).reason | none => 0
  let failed (r : Nat) : Bool := decide (st = .failed) && reason == r
  let iter (n : Nat) : Bool := v.iter.any (fun p => p.2.state == n)
  if st = .doubt ∨ st = .committed ∨ st = .live then 0
  else if iter 4 ∨ failed 2 then 2
  else if iter 5 ∨ failed 3 then 3
  else if v.slots.any (fun s => decide (s.state ≠ .free) && nextVersion s.version == ver && s.version != noVersion && (s.step + s.coll) != 0) then 4
  else if failed 5 then 5
  else if st ≠ .ready then 6
  else 0

/-- The vote as a START carries it (12 R486). -/
def voteAux (member vote : Nat) : Nat :=
  (if vote = 0 then 0xFFFF else member) + 65536 * vote + b2n (vote == 2) * 2 ^ 24 + b2n (vote == 3) * 2 ^ 25

def cWset (k : Coll) : Nat := field k.hdr 0x10 1
def cVer (k : Coll) : Word := word k.hdr 0x14

/-- Sends this member's START to the leader of its node (R429). -/
def sendStart (d : Dev) (n : Nat) : Dev :=
  match getColl d n with
  | none => d
  | some k =>
    let d := markColl d k
    let devs := groupDevs d k.group
    let vote := if k.op = opCommit ∧ k.refusal = 0 then voteOf (wset d (cWset k)) (cVer k) else 0
    let vote := if k.phase = .start then k.vote.getD vote else vote
    let aux := if k.refusal ≠ 0 then k.refusal.toNat else if k.op = opCommit then voteAux k.member vote else 0
    let r := startRecord k.member (k.refusal.toNat % 65536) aux k.hash k.digest
    let d1 := modColl d n (fun k => { k with
      startAt := if k.phase = .waiting then d.now else k.startAt
      phase := .start
      sentAt := d.now
      vote := if k.op = opCommit then some vote else none })
    sendColl d1 k (leaderOf d devs k.member) { pkind := 0, aux := aux, hash := leNat k.hash } 0 r

/-! ### The decision (R430, R432; 12 R487) -/

/-- What member 0 decides: status, DETAIL, named member, and the value that RESULT gives at 0x14. -/
structure Decision where
  status : Nat
  detail : Nat := 0
  member : Nat := 0xFFFF
  value  : List Byte := []
  deriving DecidableEq, Repr

/-- The decision of member 0 on the STARTs it has (R430, R432). -/
def decideOn (k : Coll) (n : Nat) (late : Bool) : Decision :=
  let get (i : Nat) : List Byte := smGet [] k.starts i
  let idx := span 0 n
  let own := get 0
  let diff (f : List Byte → List Byte) : Option Nat := idx.find? (fun i => f (get i) != f own)
  let hashOf (r : List Byte) : List Byte := if srStatus r ≠ 0 ∧ zeros (srHash r) then srHash own else srHash r
  let digestOf (r : List Byte) : List Byte := if k.op = 1 then srDigest r else (srDigest r).take 8
  match (if late then idx.find? (fun i => (smFind k.starts i).isNone) else none) with
  | some i => { status := stDeviceFault, detail := 3, member := i }
  | none => match diff digestOf with
    | some i => { status := stConfigSkew, detail := if k.op = 1 then 4 else 1, member := i, value := (srDigest (get i)).take 8 }
    | none => match diff hashOf with
      | some i => { status := stConfigSkew, detail := if k.op = opRefold then 3 else 2, member := i, value := srHash (get i) }
      | none => match idx.find? (fun i => srStatus (get i) != 0) with
        | some i => { status := stAdmissionRefused, detail := 0x20, member := i, value := natLe 4 (srAux (get i)) }
        | none => { status := stOk }

/-- The AUX of a commit's DECIDE (12 R486, R487). -/
def commitAux (k : Coll) (x : Decision) : Nat :=
  let sum := voteSummary (k.starts.map (·.2))
  let flags := bits sum 25 24 * 2 ^ 24
  let reason := if x.status = stDeviceFault then 1 else if x.status = stConfigSkew then (if x.detail = 1 then 2 else 3)
    else if x.status = stAdmissionRefused then 5 else 0
  if x.status ≠ stOk then x.member + 65536 * reason + flags
  else if bits sum 23 16 ≠ 0 then sum % 65536 + 65536 * (bits sum 23 16 + 0x10) + flags
  else 2 ^ 31 + 0xFFFF + flags

/-- A decision as DECIDE and ABORT carry it after their header (log 35): AUX, DETAIL, member and value. -/
def decisionBytes (aux : Nat) (x : Decision) : List Byte :=
  natLe 4 aux ++ natLe 4 x.detail ++ natLe 4 x.member ++ (x.value ++ List.replicate 8 0#8).take 8

def decisionAux (k : Coll) (x : Decision) : Nat := if k.op = opCommit then commitAux k x else x.status + 65536 * (x.member % 65536)

/-- The deadline moves with a decision that is later than T_start (R434). -/
def moveDeadline (d : Dev) (k : Coll) : Dev :=
  match k.cid, groupEntry d k.group with
  | some c, some e => modCmd d c (fun c => { c with moved := d.now - (k.startAt + 400 * tStart d e (groupDevs d k.group)) })
  | _, _ => d

/-- A commit's decision is applied on this member (12 R475, R487 to R489). -/
def applyCommit (d : Dev) (n : Nat) (k : Coll) (aux : Nat) : Dev :=
  let w := cWset k
  let ver := cVer k
  let reason := bits aux 23 16
  let m := aux % 65536
  let st := slotState (wset d w) ver
  let held := decide (st = .committed ∨ st = .live)
  if bit aux 31 then
    let d1 := commitDecision d w ver (bit (field k.hdr 0x11 1) 0) (bit (field k.hdr 0x11 1) 1)
    endColl d1 n stOk 0 [(0x14, 4, (wset d1 w).scale.toNat), (0x18, 4, (liveVersion (wset d1 w)).toNat)] none
  else if held then endColl (tallyCount (abortDecision d w ver reason (bit aux 24)) 0x51 0 1 srcJenorneb) n stDeviceFault 0x0005 [] none
  else endColl (abortDecision d w ver reason (bit aux 24)) n stVersionAbort reason
    [(0x0C, 4, m), (0x10, 4, nth 0 (groupDevs d k.group) m)] none

/-- A decision reaches this member (R430, R431): GO begins its data phase; any other code ends the collective. -/
def applyDecision (d0 : Dev) (n : Nat) (pay : List Byte) : Dev :=
  match getColl d0 n with
  | none => d0
  | some k =>
    let d := moveDeadline d0 k
    let aux := field pay 0 4
    let detail := field pay 4 4
    let m := field pay 8 4
    if k.op = opCommit then applyCommit d n k aux
    else if k.cid.isNone then dropColl d n
    else
      let status := aux % 65536
      if status = stOk then
        if k.op ≤ 2 then endColl d n stOk 0 [] (some [])
        else pump (modColl d n (fun k => { k with phase := .go })) n
      else endColl d n status detail
        ([(0x0C, 4, m), (0x10, 4, nth 0 (groupDevs d k.group) m)]
          ++ (if status = stDeviceFault then [] else [(0x14, if status = stConfigSkew then 8 else 4, field pay 12 8)])) none

/-- Keeps a decision, for members that ask (12 R489). -/
def keepDecision (d : Dev) (k : Coll) (pay : List Byte) : Dev :=
  { d with colls := { d.colls with decided := (d.colls.decided.filter (fun q => !(q.1 == k.group && q.2.1 == k.id))) ++ [(k.group, k.id, pay)] } }

/-- Passes a decision on: member 0 to the other node leaders, a leader to the other members of its node. -/
def passDecision (d : Dev) (k : Coll) (pay : List Byte) : Dev :=
  let devs := groupDevs d k.group
  let heads := if k.member = 0 then (leadersOf d devs).filter (fun i => i != 0) else []
  let node := if leaderOf d devs k.member = k.member then (nodeMembers d devs k.member).filter (fun i => i != k.member) else []
  (heads ++ node).foldl (fun d i => sendColl d k i { pkind := 1, aux := field pay 0 4 } 0 (pay.drop 4)) (keepDecision d k pay)

/-- Passes a decision on and applies it. -/
def spreadDecision (d : Dev) (n : Nat) (pay : List Byte) : Dev :=
  match getColl d n with
  | none => d
  | some k => applyDecision (passDecision d k pay) n pay

/-- Member 0 decides. -/
def decideNow (d : Dev) (n : Nat) (late : Bool) : Dev :=
  match getColl d n with
  | none => d
  | some k =>
    let x := decideOn k (groupDevs d k.group).length late
    spreadDecision d n (decisionBytes (decisionAux k x) x)

/-- A leader passes its node's STARTs on once it has them all; member 0 decides once it has every START (R429, R430). -/
def passStarts (d : Dev) (n : Nat) : Dev :=
  match getColl d n with
  | none => d
  | some k =>
    let devs := groupDevs d k.group
    if k.phase ≠ .start then d
    else if k.member = 0 then
      if (span 0 devs.length).all (fun i => (smFind k.starts i).isSome) then decideNow d n false else d
    else
      let node := nodeMembers d devs k.member
      if leaderOf d devs k.member = k.member ∧ node.all (fun i => (smFind k.starts i).isSome) then
        let rs := node.map (fun i => smGet [] k.starts i)
        sendColl (modColl d n (fun k => { k with passed := true })) k 0
          { pkind := 0, aux := if k.op = opCommit then voteSummary rs else 0, hash := leNat k.hash } 0 rs.flatten
      else d

/-- Takes a collective packet of some PKIND (R427). -/
def takeColl (d : Dev) (pkind : Nat) (p : Packet) : Option Dev :=
  if ckOf p = pkind ∧ 64 ≤ p.data.length then takePacket d pkColl p else none

/-- The decision kept of a collective. -/
def keptDecision (d : Dev) (group : Nat) (id : Word) : Option (List Byte) :=
  (d.colls.decided.find? (fun q => q.1 == group && q.2.1 == id)).map (fun q => q.2.2)

/-- A THROTTLED packet of a collective marks its command (R434). -/
def noteThrottled (d : Dev) (p : Packet) : Dev :=
  match findColl d (cpGroup p) (cpId p) with
  | some (_, k) => (match k.cid with
    | some c => if cpFlag p 2 then modCmd d c (fun c => { c with throttled := true }) else d
    | none => d)
  | none => d

/-- A START arrives at a leader or at member 0 (R429); one that comes after the decision is answered with it (log 35). -/
def gotStart (d : Dev) (p : Packet) : Dev :=
  match findColl d (cpGroup p) (cpId p) with
  | some (n, k) =>
    match (if k.phase = .start ∨ k.phase = .waiting then none else keptDecision d (cpGroup p) (cpId p)) with
    | some pay => sendCollTo d k p.src { pkind := 1, aux := field pay 0 4 } 0 (pay.drop 4)
    | none => passStarts (modColl d n (fun k => { k with starts := (startRecords p).foldl (fun m r => smPut m (srMember r) r) k.starts })) n
  | none =>
    match d.colls.decided.find? (fun q => q.1 == cpGroup p && q.2.1 == cpId p), memberOf d (cpGroup p) with
    | some q, some me =>
      let k : Coll := { group := q.1, id := q.2.1, op := cpOp p, cid := none, ctx := p.ctx, member := me, hdr := [], desc := [],
                        digest := configDigest d, hash := [], refusal := 0 }
      sendCollTo d k p.src { pkind := 1, aux := field q.2.2 0 4 } 0 (q.2.2.drop 4)
    | _, _ =>
      let ids := ((d.colls.early.filter (fun q => cpGroup q == cpGroup p)).map cpId).eraseDups
      if (memberOf d (cpGroup p)).isNone ∨ d.colls.early.contains p ∨ (16 ≤ ids.length ∧ !ids.contains (cpId p)) then d
      else { d with colls := { d.colls with early := d.colls.early ++ [p] } }

/-- COLL_START (R429). -/
def execCollStart (pkt : Packet) (s : State) : Host.Outcome State Fault Refusal :=
  onDev s (fun d => match takeColl d 0 pkt with | some d1 => gotStart (noteThrottled d1 pkt) pkt | none => d)

/-- A decision arrives (R430): a leader passes it on. Where data packets have begun the data phase (R431), it moves the deadline
alone, the first time (R434). -/
def gotDecide (d : Dev) (p : Packet) : Dev :=
  match findColl d (cpGroup p) (cpId p) with
  | none => d
  | some (n, k) =>
    let pay := natLe 4 (cpAux p) ++ cpData p
    if k.phase = .start ∨ k.phase = .waiting then spreadDecision d n pay
    else if (keptDecision d k.group k.id).isSome then d
    else moveDeadline (passDecision d k pay) k

/-- DECIDE (R430). -/
def execDecide (pkt : Packet) (s : State) : Host.Outcome State Fault Refusal :=
  onDev s (fun d => match takeColl d 1 pkt with | some d1 => gotDecide (noteThrottled d1 pkt) pkt | none => d)

/-- COLL_START_TIMEOUT (R430): a START is missing START_TIMEOUT after member 0's own. -/
def execCollStartTimeout (coll : Nat) (s : State) : Host.Outcome State Fault Refusal :=
  onDev s (fun d => match getColl d coll with
    | none => d
    | some k => match groupEntry d k.group with
      | some e => if k.member = 0 ∧ k.phase = .start ∧ k.startAt + 400 * gStartTimeout e ≤ d.now then decideNow d coll true else d
      | none => d)

/-- COLL_START_RESEND (R429): RTO after its START, a member without a decision sends it again. -/
def execCollStartResend (coll : Nat) (s : State) : Host.Outcome State Fault Refusal :=
  onDev s (fun d => match getColl d coll with
    | none => d
    | some k => if k.phase = .start ∧ k.sentAt + 400 * fabRto d ≤ d.now then sendStart d coll else d)

/-! ### The commands -/

/-- Weight slots with pins that a refold of some ranges waits for (R454; 12 R465). -/
def slotPinned (d : Dev) (ctx : Nat) (rs : List (Nat × Nat × Bool)) : Bool :=
  (slotsMet d ctx rs).any (fun q => pinsOf (wslot (wset d q.1) q.2) != 0)

/-- Pages of a refold pinned by others than itself and the collectives admitted after it (R454). -/
def pagesPinned (d : Dev) (n : Nat) (k : Coll) : Bool :=
  match smFind d.ctxs k.ctx with
  | none => false
  | some x => k.pins.any (fun p =>
      let later := (d.colls.live.filter (fun q => decide (n ≤ q.1) && q.2.ctx == k.ctx && q.2.pins.contains p)).length
      decide (later < smGet 0 x.pins p) || (match smFind x.ptes p with | some t => kvPinned x p t | none => false))

/-- The collective of a command. -/
def collOfCmd (d : Dev) (cid : Nat) : Option (Nat × Coll) := d.colls.live.find? (fun q => q.2.cid == some cid)

/-- A reduction whose recalled pages put a buffer on two dies is refused, and its START says so (R429, R441; log 58). -/
def refuseBegun (d : Dev) (cid n : Nat) (k : Coll) : Dev :=
  let d1 := modColl (pinPages d k.ctx k.pins false) n (fun k => { k with
    cid := none, pins := [], refusal := BitVec.ofNat 32 (stBadParam + 65536 * 0x18) })
  endRef (sendStart d1 n) cid { status := stBadParam, detail := 0x18 }

/-- The command begins: its pages are brought in, a refold waits for pins, a commit for its vote; then START (R425, R429, R454;
12 R485). -/
def stepColl (d : Dev) (cid : Nat) (c : Cmd) : Option Dev :=
  match collOfCmd d cid with
  | none => some d
  | some (n, k) =>
    if k.phase ≠ .waiting then some (pump d n)
    else if k.op = opCommit then
      some (if voteOf (wset d (cWset k)) (cVer k) = 0 ∨ k.startAt + 400 * par c 0x1C 4 ≤ d.now then sendStart d n else d)
    else
      let rs := rangesOf d k
      let (here, d1) := bringIn d cid c rs
      if !here then some d1
      else if isReduce k.op ∧ !((smFind d1.ctxs k.ctx).any (bufsOnDies d1 (groupDevs d1 k.group) k.member c k.desc)) then
        some (refuseBegun d1 cid n k)
      else if k.op = opRefold ∧ (pagesPinned d1 n k ∨ slotPinned d1 k.ctx rs) then some d1
      else some (sendStart d1 n)

/-- REFOLD.RUN (R449 to R454). -/
def execRefoldRun (cid : Nat) (s : State) : Host.Outcome State Fault Refusal := onDev s (runCmd 0x0A01 cid stepColl)
/-- COLL.RUN (R422 to R448). -/
def execCollRun (cid : Nat) (s : State) : Host.Outcome State Fault Refusal := onDev s (runCmd 0x0B01 cid stepColl)
/-- WEIGHTS.COMMIT (12 R484 to R490). -/
def execWeightsCommit (cid : Nat) (s : State) : Host.Outcome State Fault Refusal := onDev s (runCmd 0x0902 cid stepColl)

/-- COMMIT_WAIT_EXPIRE (12 R485): WAIT has passed, and the member votes as its version stands. -/
def execCommitWaitExpire (coll : Nat) (s : State) : Host.Outcome State Fault Refusal :=
  onDev s (fun d => match getColl d coll with
    | none => d
    | some k =>
      let running : Bool := match k.cid.bind (fun c => smFind d.cmds c) with | some c => decide (c.phase = .running) | none => false
      if k.op = opCommit ∧ k.phase = .waiting ∧ running = true ∧ k.startAt + 400 * field k.hdr 0x1C 4 ≤ d.now then sendStart d coll else d)

/-- A refused command still sends its START, where its group and COLL_ID are valid (R429). -/
def refusedStart (d : Dev) (c : Cmd) (r : Ref) : Dev :=
  let g := collGroupOf d c
  if (memberOf d g).isNone ∨ (findColl d g (collIdOf c)).isSome then d
  else
    let (n, d1) := newColl d c none (r.status % 65536 + 65536 * (r.detail % 65536))
    sendStart d1 n

/-! ### Packets of the data phase -/

/-- A packet whose DIGEST differs ends the collective on every member (R428). -/
def skewAbort (d : Dev) (n : Nat) (k : Coll) (src : Nat) : Dev :=
  let x : Decision := { status := stConfigSkew, detail := 1, member := src }
  let pay := decisionBytes (stConfigSkew + 65536 * src) x
  let d1 := ((span 0 (groupDevs d k.group).length).filter (fun i => i != k.member)).foldl (fun d i =>
    sendColl d k i { pkind := 8, aux := field pay 0 4 } 0 (pay.drop 4)) (tallyCount d 0x48 0 1 srcJenorneb)
  endColl d1 n stConfigSkew 1 [(0x0C, 4, src), (0x10, 4, nth 0 (groupDevs d k.group) src)] none

/-- A packet of the data phase arrives (R426, R428, R431, R434). -/
def dataArrives (d : Dev) (p : Packet) : Dev :=
  match findColl d (cpGroup p) (cpId p) with
  | none => d
  | some (n, k) =>
    if k.cid.isNone ∨ k.phase = .complete then d
    else if slice p.data 8 8 ≠ k.digest.take 8 then skewAbort d n k (cpSrc p)
    else
      let d2 := modColl (noteThrottled d p) n (fun k => { k with heard := smPut k.heard (cpSrc p) d.now })
      if k.phase = .data then pump (dataPacket n d2 p) n
      else pump (modColl d2 n (fun k => { k with held := k.held ++ [p], phase := if k.phase = .start then .go else k.phase })) n

/-- The row of a PKIND of the data phase. -/
def collRow (pkind : Nat) (p : Packet) (d : Dev) : Dev :=
  match takeColl d pkind p with | some d1 => dataArrives d1 p | none => d

/-- COLL_DATA (R442, R455). -/
def execCollData (pkt : Packet) (s : State) : Host.Outcome State Fault Refusal := onDev s (collRow 2 pkt)
/-- FETCH (R435, R436). -/
def execFetch (pkt : Packet) (s : State) : Host.Outcome State Fault Refusal := onDev s (collRow 3 pkt)
/-- ACK (R455). -/
def execAck (pkt : Packet) (s : State) : Host.Outcome State Fault Refusal := onDev s (collRow 4 pkt)
/-- RESEND (R455). -/
def execResend (pkt : Packet) (s : State) : Host.Outcome State Fault Refusal := onDev s (collRow 5 pkt)
/-- BUSY (R443). -/
def execBusy (pkt : Packet) (s : State) : Host.Outcome State Fault Refusal := onDev s (collRow 6 pkt)
/-- READY (R452). -/
def execReady (pkt : Packet) (s : State) : Host.Outcome State Fault Refusal := onDev s (collRow 7 pkt)
/-- COUNT (R447). -/
def execCount (pkt : Packet) (s : State) : Host.Outcome State Fault Refusal := onDev s (collRow 9 pkt)
/-- NACK (R436). -/
def execNack (pkt : Packet) (s : State) : Host.Outcome State Fault Refusal := onDev s (collRow 10 pkt)

/-- ABORT (R428). -/
def execAbort (pkt : Packet) (s : State) : Host.Outcome State Fault Refusal :=
  onDev s (fun d => match takeColl d 8 pkt with
    | none => d
    | some d1 => match findColl d1 (cpGroup pkt) (cpId pkt) with
      | some (n, k) =>
        let m := cpAux pkt / 65536
        if k.phase = .complete then d1 else endColl d1 n (cpAux pkt % 65536) (field (cpData pkt) 0 4) [(0x0C, 4, m), (0x10, 4, nth 0 (groupDevs d k.group) m)] none
      | none => d1)

/-- BUSY_RETRY_EXPIRE (R443): RTO after BUSY the partial is sent again; `shard` is its number among the member's sends. -/
def execBusyRetryExpire (coll shard : Nat) (s : State) : Host.Outcome State Fault Refusal :=
  onDev s (fun d => match (getColl d coll).bind (fun k => if k.phase = .data then smFind k.send shard else none) with
    | some x => match x.busy with
      | some t => if t + 400 * fabRto d ≤ d.now then sendAgain d coll shard false else d
      | none => d
    | none => d)

/-- A sender's shard has gone DARN_WAIT without progress (R457). -/
def darnSend (d : Dev) (n key : Nat) (k : Coll) (x : Shard) : Dev :=
  if 4 ≤ x.total then modSend d n key (fun s => { s with lost := x.asked, done := !x.asked })
  else if !x.asked || k.op == opGather || (k.op == opAllReduce && x.hi == 0) || x.repl then
    modSend d n key (fun s => { s with total := s.total + 1, at_ := d.now })
  else sendAgain d n key true

/-- A source of an all-to-all that is lost before its COUNT has arrived places no rows (R447, R457). -/
def missingCount (d : Dev) (n key : Nat) : Dev :=
  match getColl d n with
  | none => d
  | some k => match smFind k.recv key with
    | none => d
    | some y =>
      if y.lost && k.op == opAllToAll && !isReverse k && (smFind k.counts y.idx).isNone then
        placeRows n (groupDevs d k.group).length (modColl d n (fun k => { k with counts := smPut k.counts y.idx 0 }))
      else d

/-- DARN_WAIT_EXPIRE (R456, R457): a shard that is received has the number 2 × its place, one that is sent the next odd number. -/
def execDarnWaitExpire (coll shard : Nat) (s : State) : Host.Outcome State Fault Refusal :=
  onDev s (fun d => match getColl d coll with
    | none => d
    | some k =>
      let wait := 400 * (match groupEntry d k.group with | some e => gDarnWait e | none => 0)
      let quietFor (x : Shard) (begun : Bool) : Bool :=
        decide ((if begun then x.at_ else max x.at_ (smGet 0 k.heard x.peer)) + wait ≤ d.now)
      if k.phase ≠ .data then d
      else if shard % 2 = 1 then
        (match smFind k.send (shard / 2) with
          | some x => if settled x || x.busy.isSome || !quietFor x x.asked then d else pump (darnSend d coll (shard / 2) k x) coll
          | none => d)
      else match smFind k.recv (shard / 2) with
        | some x =>
          if settled x || x.copy || !x.asked || !quietFor x (pulled k x || !x.landed.isEmpty) then d
          else
            let d1 := failAttempt d coll (shard / 2) 1
            pump (missingCount d1 coll (shard / 2)) coll
        | none => d)

/-! ### A commit without its decision (12 R489) -/

/-- The version is in DOUBT. -/
def commitDoubt (d : Dev) (n : Nat) (k : Coll) : Dev :=
  let w := cWset k
  let d1 := match verSlot (wset d w) (cVer k) with
    | some s => modWSlot d w s (fun x => if x.state = .ready then { x with state := .doubt } else x)
    | none => d
  endColl d1 n stDeviceFault 0x0004 [] none

def askBytes (kind held group : Nat) (id : Word) (pay : List Byte) : List Byte :=
  natLe 1 kind ++ natLe 1 held ++ natLe 2 0 ++ natLe 4 group ++ natLe 4 id.toNat ++ pay

/-- COMMIT_DECIDE_TIMEOUT (12 R489): a READY voter asks its node peers and member 0; without an answer the version is in DOUBT. -/
def execCommitDecideTimeout (coll : Nat) (s : State) : Host.Outcome State Fault Refusal :=
  onDev s (fun d => match getColl d coll with
    | none => d
    | some k =>
      let due := match groupEntry d k.group with | some e => decide (k.startAt + 400 * gStartTimeout e ≤ d.now) | none => false
      if k.op ≠ opCommit ∨ k.phase ≠ .start ∨ k.vote ≠ some 0 ∨ k.cid.isNone ∨ !due then d
      else match k.asks with
        | some (t, l) => if l.isEmpty ∨ t + 400000 ≤ d.now then commitDoubt d coll k else d
        | none =>
          let devs := groupDevs d k.group
          let l := (((nodeMembers d devs k.member).map (fun i => nth 0 devs i)) ++ [nth 0 devs 0]).eraseDups.filter (fun v => v != myId d)
          let d1 := l.foldl (fun d v => sendMsg d v k.ctx 0 (askBytes 2 0 k.group k.id [])) d
          modColl d1 coll (fun k => { k with asks := some (d.now, l) }))

/-! ### CTRL messages (10 R400; log 32) -/

/-- What a CTRL message does. A piece of a batch table is taken by BATCH_TABLE_RECEIVE. -/
def gotMsg (d : Dev) (p : Packet) : Dev :=
  let f (o n : Nat) : Nat := field p.data o n
  match f 0 1 with
  | 1 => tokenArrives d p.ctx (word p.data 4)
  | 2 =>
    let held := d.colls.decided.find? (fun q => q.1 == f 4 4 && q.2.1 == word p.data 8)
    sendMsg d p.src p.ctx p.tag (askBytes 3 (b2n held.isSome) (f 4 4) (word p.data 8) (match held with | some q => q.2.2 | none => []))
  | 3 => (match findColl d (f 4 4) (word p.data 8) with
    | some (n, k) =>
      if k.phase ≠ .start ∨ k.asks.isNone then d
      else if f 1 1 = 1 then applyDecision d n (p.data.drop 12)
      else modColl d n (fun k => { k with asks := k.asks.map (fun a => (a.1, a.2.filter (fun v => v != p.src))) })
    | none => d)
  | 4 => sendMsg d p.src p.ctx p.tag (natLe 4 5 ++ registry (f 4 4) (wset d (f 4 4)))
  | 5 => peerAnswers d p.src p.tag (p.data.drop 4)
  | 7 => memberEnds d p.src p.ctx (f 4 4) (f 8 4)
  | 8 => gotKvNews d p.ctx p.data
  | _ => d

/-- MSG (10 R400). -/
def execMsg (pkt : Packet) (s : State) : Host.Outcome State Fault Refusal :=
  onDev s (fun d =>
    if field pkt.data 0 1 = 6 then d
    else match takePacket d pkMsg pkt with | some d1 => gotMsg d1 pkt | none => d)

end Sys2Proof.Machine
end

