-- ==== Sys2Proof/Machine/Tally.lean ====
section
/-! DEFINITION. Tally: the update of a record, and the TALLY commands (15 R551 to R570). `info` of a TALLY.FREEZE is the
number of updates that have been taken from the input queue when every update accepted before its admission has been applied. -/

namespace Sys2Proof.Machine

/-! ### Edges (R560) -/

def edgesOf (t : Tally) (qid : Nat) : List Nat := (smFind t.edges qid).getD (defaultEdges qid)

/-- The bin of a value: the number of edges at or below it. -/
def binOf (edges : List Nat) (v : Nat) : Nat := (edges.filter (fun e => decide (e ≤ v))).length

/-! ### One update (R555 to R558, R561) -/

/-- Adds with saturation at 2^64 - 1, and whether it saturated (R556). -/
def satAdd (a b : Nat) : Nat × Bool := if 2 ^ 64 - 1 < a + b then (2 ^ 64 - 1, true) else (a + b, false)

/-- A record after n updates with a total amount. -/
def recCount (r : TRec) (seq : Word) (n amount : Nat) : TRec :=
  let (c, s1) := satAdd r.count n
  let (m, s2) := satAdd r.sum amount
  { r with seq := seq, count := c, sum := m, rflags := if s1 || s2 then r.rflags ||| 1 else r.rflags }

/-- A record after a value (R556, R560). -/
def recValue (r0 : TRec) (seq : Word) (kind v : Nat) (tag : Word) (edges : List Nat) : TRec :=
  let r := recCount r0 seq 1 v
  let r1 := if v < r.min.toNat then { r with min := BitVec.ofNat 32 v, minTag := tag } else r
  let r2 := if r.max.toNat < v then { r1 with max := BitVec.ofNat 32 v, maxTag := tag } else r1
  if kind = 2 then
    let b := binOf edges v
    let (n, s) := satAdd (smGet 0 r2.bins b) 1
    { r2 with bins := smPut r2.bins b n, rflags := if s then r2.rflags ||| 1 else r2.rflags }
  else r2

/-- A cleared record (R567). -/
def recClear (seq : Word) : TRec := { seq := seq }

/-- Sets records by key. -/
def setRecs (t : Tally) (keys : List Nat) (f : TRec → TRec) : Tally :=
  { t with recs := keys.foldl (fun m k => smMod {} m k f) t.recs }

/-- Applies one update: the record with its number, then the header (R558). -/
def applyUpd (t : Tally) (u : TUpd) : Tally :=
  let seq := t.storeSeq + 1
  let t1 : Tally := { t with storeSeq := seq, applied := (satAdd t.applied 1).1 }
  match u with
  | .count q i n a _ _ => setRecs t1 [recKey q i] (fun r => recCount r seq n a)
  | .value q i v tag => setRecs t1 [recKey q i] (fun r => recValue r seq (kindOfQ q) v tag (edgesOf t q))
  | .clearCtx c => setRecs t1 ((catalogue.filter (fun q => q.scope == 1)).map (fun q => recKey q.qid c)) (fun _ => recClear seq)
  | .edges q => setRecs t1 ((span 0 (match qtyOf q with | some x => instances x.scope | none => 0)).map (recKey q))
      (fun r => { r with seq := seq, bins := [], rflags := r.rflags ||| 4 })

/-- The updates accepted so far are applied, in order. -/
def drainInput (t : Tally) : Tally :=
  t.input.foldl applyUpd { t with input := [], taken := t.taken + t.input.length }

/-- The clearing of a context's records or of bins, which is never dropped: it comes after the updates accepted before it, and a FROZEN
store holds it (R557, R560, R570). -/
def applyOrHold (d : Dev) (u : TUpd) : Dev :=
  { d with tally := if d.tally.frozen then { d.tally with held := d.tally.held ++ [u] } else applyUpd (drainInput d.tally) u }

/-- TALLY_UPDATE (R558, R561): the next update of the input queue; nothing changes while the store is FROZEN (R564). -/
def execTallyUpdate (s : State) : Host.Outcome State Fault Refusal :=
  onDev s (fun d => match d.tally.input with
    | u :: us => if d.tally.frozen then d else { d with tally := applyUpd { d.tally with input := us, taken := d.tally.taken + 1 } u }
    | [] => d)

/-! ### Freezing and thawing (R563 to R565, R570) -/

def chkFreeze (c : Cmd) : Chk Unit := chkFields ([(0x10, decide (1000000 < par c 0x10 4))] ++ resv c.hdr 0x14 44)

def admFreeze (d : Dev) (c : Cmd) : Cmd := { c with info := [d.tally.taken + d.tally.input.length] }

/-- TALLY.FREEZE: the store is FROZEN once the updates accepted before are applied; later ones go to the hold queue. -/
def stepFreeze (d : Dev) (cid : Nat) (c : Cmd) : Option Dev :=
  match chkFreeze c with
  | .error r => some (endRef d cid r)
  | .ok _ =>
    if d.tally.frozen then some (finishCmd d cid stAlreadyComplete 0 [] none)
    else if d.tally.taken < nth 0 c.info 0 ∧ !d.tally.input.isEmpty then some d
    else
      let hold := if par c 0x10 4 = 0 then 1000000 else par c 0x10 4
      let t : Tally := { d.tally with frozen := true, held := d.tally.input, input := [], freezeEnd := d.now + 400 * hold, byHold := false,
                                      window := d.gov.windows }
      some (finishCmd { d with tally := t } cid stOk 0 [(0x0C, 4, t.storeSeq.toNat)] none)

def execTallyFreeze (cid : Nat) (s : State) : Host.Outcome State Fault Refusal := onDev s (runCmd 0x0C01 cid stepFreeze)

/-- The thaw: bins of changed edges are cleared, then the held updates are applied in order. -/
def thaw (d : Dev) (byHold : Bool) : Dev :=
  let t := d.tally
  let t1 := t.edgeHeld.foldl (fun t q => applyUpd t (.edges q)) { t with frozen := false, held := [], edgeHeld := [], heldDrops := [] }
  let t2 := t.held.foldl applyUpd t1
  let t3 := t.heldDrops.foldl (fun t k => tallyLoss t k.1 k.2) t2
  { d with tally := { t3 with byHold := byHold } }

def heldDropped (t : Tally) : Nat := (t.heldDrops.map (·.2)).sum

/-- TALLY.THAW (R565). -/
def stepThaw (d : Dev) (cid : Nat) (c : Cmd) : Option Dev :=
  match chkFields (resv c.hdr 0x10 48) with
  | .error r => some (endRef d cid r)
  | .ok _ =>
    if !d.tally.frozen then some (finishCmd d cid stAlreadyComplete (if d.tally.byHold then 3 else 0) [] none)
    else some (finishCmd (thaw d false) cid stOk 0 [(0x0C, 4, d.tally.held.length), (0x10, 4, heldDropped d.tally)] none)

def execTallyThaw (cid : Nat) (s : State) : Host.Outcome State Fault Refusal := onDev s (runCmd 0x0C02 cid stepThaw)

/-- A TALLY.READ is in flight: its final record has not been placed. -/
def readingTally (d : Dev) : Bool := d.cmds.any (fun p => opcodeC p.2 == 0x0C03)

/-- TALLY_MAX_HOLD_EXPIRE (R565): it waits for a TALLY.READ in flight. -/
def execTallyMaxHoldExpire (s : State) : Host.Outcome State Fault Refusal :=
  onDev s (fun d => if d.tally.frozen ∧ d.tally.freezeEnd ≤ d.now ∧ !readingTally d then thaw d true else d)

/-! ### The bytes of the store (R552, R553, R555) -/

def tallyWindow (d : Dev) : Nat := if d.tally.frozen then d.tally.window else d.gov.windows

def storeHeader (d : Dev) : List Byte :=
  let t := d.tally
  natLe 4 t.storeSeq.toNat ++ natLe 4 ((catalogue.map (fun q => instances q.scope)).sum) ++ natLe 4 catalogue.length
    ++ natLe 4 (b2n t.frozen) ++ natLe 8 t.lost ++ natLe 8 t.applied ++ natLe 8 (tallyWindow d) ++ natLe 20 0
    ++ natLe 4 t.storeSeq.toNat

def dirEntry (q : Qty) : List Byte :=
  natLe 2 q.qid ++ natLe 1 q.kind ++ natLe 1 q.scope ++ natLe 2 (instances q.scope) ++ natLe 2 0
    ++ natLe 4 (Config.tallyPlace q.qid).1 ++ natLe 4 (Config.tallyPlace q.qid).2

def directory : List Byte := catalogue.flatMap dirEntry

/-- The bytes of a record. -/
def tallyRecord (t : Tally) (q : Qty) (i : Nat) : List Byte :=
  let r := smGet {} t.recs (recKey q.qid i)
  let ext (v : Word) : List Byte := natLe 4 (if q.kind = 0 then 0 else v.toNat)
  let head := natLe 4 r.seq.toNat ++ natLe 2 q.qid ++ natLe 1 q.kind ++ natLe 1 q.scope ++ natLe 2 i ++ natLe 2 r.rflags ++ natLe 4 0
    ++ natLe 8 r.count ++ natLe 8 r.sum ++ ext r.min ++ ext r.minTag ++ ext r.max ++ ext r.maxTag
  if q.kind = 2 then
    head ++ natLe 16 0 ++ (span 0 32).flatMap (fun b => natLe 8 (smGet 0 r.bins b)) ++ natLe 60 0 ++ natLe 4 r.seq.toNat
  else head ++ natLe 12 0 ++ natLe 4 r.seq.toNat

/-! ### TALLY.READ (R566 to R568) -/

def chkTallyRead (d : Dev) (c : Cmd) : Chk Unit :=
  chkFields ([(0x10, decide (1 < par c 0x10 1)), (0x11, decide (1 < par c 0x11 1) || (bit (par c 0x11 1) 0 && d.tally.frozen))]
    ++ resv c.hdr 0x18 36 ++ resv c.hdr 0x3E 2)

/-- A queue may see the record (R568). -/
def seesRecord (d : Dev) (queue : Nat) (q : Qty) (i : Nat) : Bool :=
  if queue = 0 then true
  else match (queuePart d queue).bind (fun p => (partOf d p).map (fun x => (p, x))) with
    | none => q.scope != 1 && q.scope != 2 && q.scope != 3 && q.scope != 7
    | some (p, x) =>
      match q.scope with
      | 1 => (match smFind d.ctxs i with | some y => y.part == p | none => false)
      | 2 => (partEngines x).contains i
      | 3 => queuePart d i == some p
      | 7 => decide (i < 8) && (partDies x).contains i
      | _ => true

/-- The records that a TALLY.READ selects, in directory order. -/
def selected (d : Dev) (c : Cmd) : List (Qty × Nat) :=
  (catalogue.filter (fun q => decide (par c 0x12 2 ≤ q.qid) && decide (q.qid ≤ par c 0x14 2))).flatMap (fun q =>
    ((span 0 (instances q.scope)).filter (fun i => (par c 0x16 2 == 0xFFFF || par c 0x16 2 == i) && seesRecord d c.queue q i)).map
      (fun i => (q, i)))

/-- TALLY.READ. -/
def stepTallyRead (d : Dev) (cid : Nat) (c : Cmd) : Option Dev :=
  match chkTallyRead d c with
  | .error r => some (endRef d cid r)
  | .ok _ =>
    if par c 0x10 1 = 0 then some (finishCmd d cid stOk 0 [] (some (storeHeader d ++ directory)))
    else
      let l := selected d c
      let t1 := if bit (par c 0x11 1) 0 then
          l.foldl (fun t q =>
            let seq := t.storeSeq + 1
            setRecs { t with storeSeq := seq, applied := (satAdd t.applied 1).1 } [recKey q.1.qid q.2] (fun _ => recClear seq)) d.tally
        else d.tally
      some (finishCmd { d with tally := t1 } cid stOk 0 [(0x0C, 4, l.length), (0x10, 4, d.tally.storeSeq.toNat)]
        (some (l.flatMap (fun q => tallyRecord d.tally q.1 q.2))))

def execTallyRead (cid : Nat) (s : State) : Host.Outcome State Fault Refusal := onDev s (runCmd 0x0C03 cid stepTallyRead)

/-- Bytes of the store as the host reads them through the window: header, directory and records (R551, R568). -/
def storeByte (d : Dev) (a : Nat) : Byte :=
  if a < 64 then nth 0#8 (storeHeader d) a
  else if a < 64 + directory.length then nth 0#8 directory (a - 64)
  else
    match firstSome (catalogue.map (fun q =>
        let (o, st) := Config.tallyPlace q.qid
        let i := (a - o) / max 1 st
        if o ≤ a ∧ i < instances q.scope ∧ (a - o) % max 1 st < recSize q.kind then some (q, i, (a - o) % max 1 st) else none)) with
    | some (q, i, k) => nth 0#8 (tallyRecord d.tally q i) k
    | none => 0#8

end Sys2Proof.Machine
end

