-- ==== Sys2Proof/Machine/Contexts.lean ====
section
/-! DEFINITION. CTX.CREATE, CTX.DESTROY, CTX.SAVE, CTX.RESTORE, and the demotion and recall of contexts (13 R499 to R507, R514 to
R518; 05 R185, R186). `info` of a CTX.CREATE is [1] once its context exists; of a CTX.DESTROY [1] once the context's work has
ended and [2] once all is released. -/

namespace Sys2Proof.Machine

/-! ### Residence (R502, R514, R515) -/

/-- A collective of the context has not had its final record (R503). -/
def collsOf (d : Dev) (ctx : Nat) : Bool :=
  d.cmds.any (fun c => cmdContext c.2 == ctx && [0x0A01, 0x0B01, 0x0902].contains (opcodeC c.2))

/-- The context has no candidate, no admitted request (one that WAITS is not: 09 R375), no admitted command with a deadline, and no
launch, collective or mangle command running (R514). -/
def ctxBlocked (d : Dev) (ctx : Nat) : Bool :=
  !d.launches.any (fun z => z.2.ctx == ctx && decide (z.2.state ≠ .ended))
    && (nextStep d ctx).isNone
    && !d.reqs.any (fun r => r.2.ctx == ctx && decide (r.2.state = .prefill ∨ r.2.state = .decode ∨ r.2.state = .preempted))
    && !d.cmds.any (fun c => cmdContext c.2 == ctx && cmdDeadline c.2 != 0)
    && !collsOf d ctx && !mangling d ctx

/-- It has been blocked for BLOCK_MIN. -/
def longBlocked (d : Dev) (ctx : Nat) (x : Ctx) (p : Partn) : Bool :=
  ctxBlocked d ctx && decide (x.blockedAt + 400 * p.block ≤ d.now)

/-- A resident of the partition can be demoted, or is being demoted (R502, R515, R517). -/
def canDemote (d : Dev) (part : Nat) : Bool :=
  match partOf d part with
  | none => false
  | some p => d.ctxs.any (fun c => c.2.part == part && (decide (c.2.state = .demoting)
      || (decide (c.2.state = .resident) && !p.pool.isEmpty && longBlocked d c.1 c.2 p)))

/-- The partition holds RESIDENT_MAX contexts that are resident or in transit. -/
def placesFull (d : Dev) (part : Nat) : Bool :=
  match partOf d part with | some p => decide (p.resMax ≤ (residentsOf d part).length) | none => true

/-- Every resident's admitted requests pass their admission tests with the SHARE values in force (R515). -/
def sharesPass (d : Dev) (part : Nat) : Bool :=
  d.ctxs.all (fun c => c.2.part != part || decide (c.2.state ≠ .resident) ||
    (let l := activeReqs d c.1; l.all (fun p => (timeFails d c.1 l p.1 p.2 (reqLoad d c.1 p.2)).isEmpty)))

/-- Engines leave OFF: their whole baskets are rinsed before a share is used (R524). -/
def wakeEngines (d : Dev) (es : List Nat) : Dev :=
  let w := es.filter (fun e => d.gov.off.contains e)
  let d1 : Dev := { d with gov := { d.gov with off := d.gov.off.filter (fun e => !es.contains e) } }
  modMem d1 (fun m => { m with granRinse := insertAll (w.flatMap (fun e => span (128 * e) 128)) m.granRinse })

/-- Places the shares of a context and makes it resident or recalling (R502, R515). -/
def settle (d : Dev) (ctx : Nat) (x : Ctx) (state : CtxState) : Except NoPlace Dev :=
  match placeAll x (span 0 x.engCount) d with
  | .error e => .error e
  | .ok (gs, fs, d1) =>
    let y : Ctx := { x with state := .resident, base := gs, saveFrames := fs, blockedAt := d.now }
    let d2 : Dev := wakeEngines { d1 with ctxs := smPut d1.ctxs ctx y } ((span 0 x.engCount).map (physEngine d x))
    if sharesPass d2 x.part then .ok (modCtx d2 ctx (fun x => { x with state := state })) else .error .never

/-! ### CTX.CREATE (R500, R502) -/

def nwCtx (c : Cmd) : Nat := par c 0x10 1
def nwPart (c : Cmd) : Nat := par c 0x11 1
def nwFlags (c : Cmd) : Nat := par c 0x12 2
def nwResident (c : Cmd) : Bool := bit (nwFlags c) 1
def nwIstore (c : Cmd) : Nat := par c 0x1C 4

/-- A CTX.CREATE or CTX.DESTROY in flight, other than the command itself, names the context (R503). -/
def ctxNamed (d : Dev) (cid n : Nat) : Bool :=
  d.cmds.any (fun p => p.1 != cid && (opcodeC p.2 == 0x0201 || opcodeC p.2 == 0x0202) && par p.2 0x10 1 == n
    && (opcodeC p.2 == 0x0202 || decide (p.1 < cid)))

def chkCtxCreate (d : Dev) (cid : Nat) (c : Cmd) : Chk Unit :=
  let n := match partOf d (nwPart c) with | some p => (partEngines p).length | none => 0
  chkFields ([(0x08, cmdContext c != 0xFF),
    (0x10, nwCtx c == 0xFF || (smFind d.ctxs (nwCtx c)).isSome || ctxNamed d cid (nwCtx c)),
    (0x11, (partOf d (nwPart c)).isNone), (0x12, decide (4 ≤ nwFlags c)),
    (0x14, decide (n ≤ par c 0x14 1)), (0x15, par c 0x15 1 == 0 || decide (n < par c 0x14 1 + par c 0x15 1)),
    (0x16, outside 1 128 (par c 0x16 1)), (0x17, decide (128 < par c 0x17 1)),
    (0x18, decide (128 < par c 0x17 1 + par c 0x18 1)), (0x19, par c 0x19 1 == 0),
    (0x1C, nwIstore c % 256 != 0 || decide (32768 < nwIstore c))] ++ resv c.hdr 0x1A 2 ++ resv c.hdr 0x28 20)

/-- The context that a CTX.CREATE describes, not resident. -/
def newCtx (d : Dev) (c : Cmd) : Ctx :=
  { state := .demoted, part := nwPart c, subn := bit (nwFlags c) 0, engFirst := par c 0x14 1, engCount := par c 0x15 1,
    basket := par c 0x16 1, tiles := par c 0x17 1, ttiles := par c 0x18 1, weight := par c 0x19 1, istore := nwIstore c,
    seed := BitVec.ofNat 64 (par c 0x20 8), base := [], saveFrames := [], progs := [], ptes := [], pools := [], serve := {},
    pins := [], stopped := false, stopLaunch := none, destroying := false, destroyCid := none, moveCid := none, image := none,
    cupBack := [], blockedAt := d.now, wantAt := none, engTime := [], eest := [], everResident := nwResident c, rinseWait := [] }

/-- The context exists: its tally records are cleared, or will be when the store thaws (15 R557). -/
def endCreate (d : Dev) (cid : Nat) (c : Cmd) : Dev :=
  if d.tally.held.any (fun u => decide (u = .clearCtx (nwCtx c))) then modCmd d cid (fun c => { c with info := [1] })
  else finishCmd d cid stOk 0 [(0x0C, 1, if nwResident c then 0 else 2)] none

def stepCtxCreate (d : Dev) (cid : Nat) (c : Cmd) : Option Dev :=
  let ctx := nwCtx c
  if c.info = [1] then some (endCreate d cid c)
  else match chkCtxCreate d cid c with
    | .error r => some (endRef d cid r)
    | .ok _ =>
      let x := newCtx d c
      let made (d : Dev) : Option Dev := some (endCreate (applyOrHold d (.clearCtx ctx)) cid c)
      if !nwResident c then made { d with ctxs := smPut d.ctxs ctx x }
      else if placesFull d (nwPart c) then
        if canDemote d (nwPart c) then some d else some (finishCmd d cid stAdmissionRefused 2 [] none)
      else match settle d ctx x .resident with
        | .error .never => some (finishCmd d cid stAdmissionRefused 1 [] none)
        | .error .later => some d
        | .ok d1 => made d1

/-- CTX.CREATE (R500). -/
def execCtxCreate (cid : Nat) (s : State) : Host.Outcome State Fault Refusal := onDev s (runCmd 0x0201 cid stepCtxCreate)

/-! ### CTX.DESTROY (R503) -/

def chkCtxDestroy (d : Dev) (cid : Nat) (c : Cmd) : Chk Unit :=
  chkFields ([(0x10, match smFind d.ctxs (nwCtx c) with
    | none => true
    | some x => x.destroying && decide (x.destroyCid ≠ some cid))] ++ resv c.hdr 0x11 47)

/-- From its admission the context counts as not existing. -/
def admCtxDestroy (d : Dev) (c : Cmd) : Chk (Cmd × Dev) :=
  .ok (c, modCtx d (nwCtx c) (fun x => { x with destroying := true, destroyCid := some d.nextCid }))

/-- An admitted command of the context ends CANCELLED, and what it holds is released. -/
def cancelCmd (d : Dev) (cid : Nat) : Dev :=
  let d1 := undoReserve d cid
  let d2 := modMem d1 (fun m => { m with pieces := m.pieces.filter (fun p => p.cid != cid) })
  let d3 : Dev := { dropWant d2 (.cmd cid) with
    weights := { d2.weights with queries := d2.weights.queries.filter (fun q => q.cid != cid) } }
  finishCmd d3 cid stCancelled 0 [] none

/-- A command that has not begun ends CANCELLED, and all that its admission did is undone: a learning step's pin and iteration
entry (12 R465, R472), a collective with its pins (11 R425), the end of a context (R503). -/
def cancelAdmitted (d : Dev) (cid : Nat) (c : Cmd) : Dev :=
  match smFind d.weights.steps cid, collOfCmd d cid with
  | some t, _ => discardStep d t
  | none, some (n, _) => cancelCmd (dropColl d n) cid
  | none, none =>
    cancelCmd (if opcodeC c = 0x0202 then modCtx d (nwCtx c) (fun x => { x with destroying := false, destroyCid := none }) else d) cid

/-! ### QUEUE.DESTROY (02 R43, R645) -/

/-- The target's commands that have been fetched and have not begun end CANCELLED (02 R43). -/
def cancelUnbegun (d : Dev) (q : Nat) : Dev :=
  d.cmds.foldl (fun d p => if p.2.queue = q ∧ p.2.phase = .admitted ∧ p.2.fin.isNone then cancelAdmitted d p.1 p.2 else d) d

def stepDestroy (d : Dev) (cid : Nat) (c : Cmd) : Option Dev :=
  let t := par c 0x10 1
  let d1 := if c.phase = .admitted then
      modQueue (cancelUnbegun d t) t (fun v => { v with state := .draining, subs := [], destroyCid := some cid })
    else d
  if c.phase = .admitted ∧ ¬((queueOf d t).state = .active ∨ (queueOf d t).state = .held) then
    some (finishCmd d cid stBadParam 0x10 [] none)
  else if queueEmpty d1 t then
    let v := queueOf d1 t
    let d2 := uncharge (freeFrames d1 v.frames) (v.partition.getD 0) v.charged
    some (finishCmd (setQueue d2 t {}) cid stOk 0 [] none)
  else some d1

/-- QUEUE.DESTROY (02 R43, R645): it ends when the target's records have all been written. -/
def execQueueDestroy (cid : Nat) (s : State) : Host.Outcome State Fault Refusal := onDev s (runCmd 0x0102 cid stepDestroy)

/-! ### The end of a context's work (R503) -/

/-- Cancels the lines of every engine of a context (06 R225, R226, R229). -/
def cancelCtxLines (d : Dev) (ctx : Nat) : Dev :=
  match smFind d.ctxs ctx with
  | none => d
  | some x => (span 0 x.engCount).foldl (fun d i => cancelLines d ctx i none) d

/-- The lateness of a request that has ended goes into its command before its record is freed (09 R365). -/
def fixEnd (d : Dev) (cid : Nat) : Dev :=
  match smFind d.cmds cid with
  | none => d
  | some c => match c.fin with
    | none => d
    | some f =>
      let (st, det, d1) := lateStatus d cid c f
      modCmd d1 cid (fun c => { c with fin := some { f with status := st, detail := det } })

/-- Ends the work of a context: launches, the lines of one stopped at a fault, learning steps, requests, and every admitted command but its collectives. -/
def endWork (d : Dev) (ctx : Nat) : Dev :=
  let steps := (d.weights.steps.map (·.2)).filter (fun t => t.ctx == ctx && !t.complete)
  let d1 := steps.foldl discardStep d
  let d2 : Dev := { d1 with weights := { d1.weights with steps := d1.weights.steps.filter (fun t => t.2.ctx != ctx) } }
  let d3 := ((d2.launches.filter (fun z => z.2.ctx == ctx && decide (z.2.state ≠ .ended))).map (·.1)).foldl cancelLaunch d2
  let d3 := cancelCtxLines d3 ctx
  let live := (d3.reqs.filter (fun r => r.2.ctx == ctx && decide (r.2.state ≠ .free ∧ r.2.state ≠ .done) && !r.2.ended)).map (·.1)
  let ending := (d3.cmds.filter (fun c => (reqOfCmd d3 c.1 c.2).isSome && c.2.fin.isSome)).map (·.1)
  let d4 := live.foldl (fun d k => endReq d k stCancelled 0 3) (ending.foldl fixEnd d3)
  let cmds := (d4.cmds.filter (fun c => cmdContext c.2 == ctx && c.2.fin.isNone
    && !([0x0202, 0x0A01, 0x0B01, 0x0902].contains (opcodeC c.2)))).map (·.1)
  let d5 := cmds.foldl cancelCmd d4
  let waits := d5.mem.waits.filter (fun w => w.ctx == ctx)
  let d6 := waits.foldl (fun d w => freePoolPages (freeFrames (dropWait d w) (w.dest.getD [])) (partOfCtx d ctx) w.slow) d5
  let held := (d6.reqs.filter (fun r => r.2.ctx == ctx && decide (r.2.state ≠ .free))).map (·.1)
  modServe (held.foldl releaseReq d6) ctx (fun _ => {})

/-- The table entries that name a context are cleared (R503; 16 R586). -/
def clearEntries (d : Dev) (ctx : Nat) : Dev :=
  let gone := setsOf d ctx
  let left := ((wEntries d).filter (fun e => weContext e != ctx)).flatten
  let t1 := smErase d.tables (256 * kindServing + ctx)
  let t2 := if gone.isEmpty then t1 else if left.isEmpty then smErase t1 (256 * kindWeights) else smPut t1 (256 * kindWeights) left
  if t2 = d.tables then d
  else { d with
    tables := t2, configGen := d.configGen + 1,
    colls := { d.colls with checked := [] },
    weights := { d.weights with sets := d.weights.sets.filter (fun w => !gone.contains w.1) } }

/-- Frees all that a context holds; what is then to be rinsed is noted. -/
def freeCtx (d : Dev) (ctx : Nat) : Dev :=
  match smFind d.ctxs ctx with
  | none => d
  | some x =>
    let fs := x.saveFrames ++ x.ptes.flatMap (fun p => p.2.frames)
    let note := fs.map (fun f => 2 * f) ++ (granulesOfCtx d x).map (fun g => 2 * g + 1)
    let d1 : Dev := (x.pools.map (·.1)).foldl (fun (d : Dev) n => dropPool d ctx n) d
    let left : List Nat := match smFind d1.ctxs ctx with | some y => (y.ptes : List (Nat × Pte)).map (fun q => q.1) | none => []
    let d2 := left.foldl (fun d p => unmapPage d ctx p) d1
    let d3 := releaseShares d2 ctx
    let d4 := freePoolPages d3 x.part (x.image.getD [])
    let d5 := clearEntries d4 ctx
    let d6 : Dev := { d5 with weights := { d5.weights with tokens := d5.weights.tokens.filter (fun (t : Nat × Nat) => t.1 / 2 ^ 32 != ctx) } }
    modCtx d6 ctx (fun x => { x with image := none, progs := [], rinseWait := note })

/-- Every rinse that the context waits for has ended. -/
def allRinsed (d : Dev) (x : Ctx) : Bool :=
  x.rinseWait.all (fun n =>
    if n % 2 = 0 then rinsed d (n / 2) && decide (frameState d (n / 2) ≠ some .rinsing)
    else !d.mem.granRinse.contains (n / 2))

def stepCtxDestroy (d : Dev) (cid : Nat) (c : Cmd) : Option Dev :=
  let ctx := nwCtx c
  match c.info with
  | [] => match chkCtxDestroy d cid c with
    | .error r => some (endRef d cid r)
    | .ok _ => some (modCmd (endWork (modCtx d ctx (fun x => { x with destroying := true, destroyCid := some cid })) ctx) cid
        (fun c => { c with info := [1] }))
  | [1] =>
    if collsOf d ctx || d.mem.moves.any (fun m => m.ctx == ctx) || d.xfers.any (fun x => x.2.ctx == ctx) then some d
    else some (modCmd (freeCtx d ctx) cid (fun c => { c with info := [2] }))
  | _ => match smFind d.ctxs ctx with
    | none => some d
    | some x => if allRinsed d x then some (finishCmd { d with ctxs := smErase d.ctxs ctx } cid stOk 0 [] none) else some d

/-- CTX.DESTROY (R503). -/
def execCtxDestroy (cid : Nat) (s : State) : Host.Outcome State Fault Refusal := onDev s (runCmd 0x0202 cid stepCtxDestroy)

/-! ### CTX.SAVE (R506, R518) -/

def imVa (c : Cmd) : Nat := par c 0x10 8
def imLen (c : Cmd) : Nat := par c 0x18 8
def imHost (c : Cmd) : Bool := bit (imVa c) 63
def imAddr (c : Cmd) : Nat := imVa c % 2 ^ 52

/-- The source or destination of an image of n bytes is no range that the command may use. -/
def imBad (d : Dev) (c : Cmd) (x : Ctx) (n : Nat) : Bool :=
  bits (imVa c) 62 52 != 0 || (if imHost c then !hostOk d c.queue (imAddr c) n else !rangeOk x (imVa c) n false)

def chkCtxSave (d : Dev) (c : Cmd) : Chk Unit :=
  match smFind d.ctxs (cmdContext c) with
  | none => badParam 0x08
  | some x =>
    let n := imageBytes x
    match chkFields ([(0x10, imBad d c x n), (0x18, decide (imLen c < n))] ++ resv c.hdr 0x20 32) with
    | .error r => .error (if r.detail = 0x18 then { r with result := [(0x0C, 8, n)] } else r)
    | .ok _ => .ok ()

/-- An image with its program section as the context now holds it. -/
def withProgs (x : Ctx) (img : List Byte) : List Byte :=
  let eng := img.drop (field img 0x18 4)
  let hdr := patchBytes (patchBytes (slice img 0 0xE0) 0x18 (natLe 4 (engOff x))) 0x20 (natLe 8 (imageBytes x))
  let rest := fit (engOff x - 256) (progSection x) ++ eng
  hdr ++ sha256 (hdr ++ List.replicate 32 0#8 ++ rest) ++ rest

/-- The pool image of a demoted context, once it has been read; a context that has never been resident has its registers
at their reset values and its basket zero. -/
def poolImage (d : Dev) (ctx : Nat) (x : Ctx) : Option (List Byte) × Dev :=
  match x.image with
  | none => (some (imageOf { d with mem := { d.mem with baskets := [] } } ctx), d)
  | some ks =>
    let uses := (span 0 ks.length).map (fun k => ReadFor.image ctx k)
    if uses.all (fun u => (wantDone d u).isSome) then
      (some (withProgs x (uses.flatMap (fun u => (wantDone d u).getD []))), uses.foldl dropWant d)
    else match partOf d x.part with
      | none => (none, d)
      | some p => (none, ks.zipIdx.foldl (fun d k =>
          if wanting d (.image ctx k.2) then d else wantHost d (.image ctx k.2) (poolAddr p k.1) 65536) d)

/-- Takes a launch off its engines at an instruction boundary; it is a candidate again (R511). -/
def preemptLaunch (d : Dev) (k : Nat) : Dev :=
  match smFind d.launches k with
  | some z =>
    if z.state = .running then
      let d0 := (launchEngines z).foldl (fun d i => modE d z.ctx i (fun e =>
        { e with stalled := e.stalled + stallOf d z i e, stallFrom := none })) d
      let d1 := chargeTime (releaseEngines d0 k) z
      { d1 with launches := smUpd d1.launches k (fun z => { z with state := .preempted }) }
    else d
  | none => d
where
  /-- The stall of an LWAIT that ends here (06 R242). -/
  stallOf (d : Dev) (z : Launch) (i : Nat) (e : EngCtx) : Nat :=
    match e.stallFrom, smFind d.ctxs z.ctx with | some a, some x => acycles d (physEngine d x i) - a | _, _ => 0

/-- Writes the image to where the command says. -/
def putSaved (d : Dev) (cid : Nat) (c : Cmd) (img : List Byte) : Option Dev :=
  let ctx := cmdContext c
  let ended (d : Dev) : Dev := modCtx d ctx (fun x => { x with moveCid := none })
  match chkCtxSave d c with
  | .error r => some (endRef (ended d) cid r)
  | .ok _ =>
    if imHost c then
      if d.host.bme then some (finishCmd (ended (bulkWrite d (imAddr c) img)) cid stOk 0 [(0x0C, 8, img.length)] none)
      else some (stallBme d cid)
    else
      let (here, d1) := bringIn d cid c [(imVa c, img.length, false)]
      if here then some (finishCmd (ended (poke d1 ctx (imVa c) img)) cid stOk 0 [(0x0C, 8, img.length)] none) else some d1

def stepCtxSave (d : Dev) (cid : Nat) (c : Cmd) : Option Dev :=
  let ctx := cmdContext c
  match smFind d.ctxs ctx with
  | none => some (finishCmd d cid stCancelled 0 [] none)
  | some x =>
    if x.moveCid.isSome ∧ x.moveCid ≠ some cid then some d
    else
      let d0 := modCtx d ctx (fun x => { x with moveCid := some cid })
      match x.state with
      | .resident =>
        let runs := d0.launches.filter (fun z => z.2.ctx == ctx && decide (z.2.state = .running))
        let d1 := ((runs.filter (fun z => z.2.cls != 1)).map (·.1)).foldl preemptLaunch d0
        if runs.any (fun z => z.2.cls == 1) || d1.xfers.any (fun v => v.2.ctx == ctx) then some d1
        else putSaved d1 cid c (imageOf d1 ctx)
      | .demoted =>
        match poolImage d0 ctx x with
        | (none, d1) => some d1
        | (some img, d1) => putSaved d1 cid c img
      | _ => some d0

/-- CTX.SAVE (R506). -/
def execCtxSave (cid : Nat) (s : State) : Host.Outcome State Fault Refusal := onDev s (runCmd 0x0203 cid stepCtxSave)

/-! ### CTX.RESTORE (R507; 05 R185, R186) -/

/-- The context has a launch running or waiting. -/
def hasLaunch (d : Dev) (ctx : Nat) : Bool := d.launches.any (fun z => z.2.ctx == ctx && decide (z.2.state ≠ .ended))

def chkCtxRestore (d : Dev) (c : Cmd) : Chk Unit :=
  match smFind d.ctxs (cmdContext c) with
  | none => badParam 0x08
  | some x => chkFields ([(0x08, hasLaunch d (cmdContext c)), (0x10, imBad d c x (imLen c)), (0x18, decide (imLen c < 256))]
      ++ resv c.hdr 0x20 32)

/-- Checks of the image against the context. -/
def chkImageFor (x : Ctx) (c : Cmd) (img : List Byte) : Chk Unit :=
  let total := field img 0x20 8
  let engs := field img 0x08 2
  let lanes := field img 0x0A 2
  if imLen c < total then badParam 0x18
  else if field img 0 4 ≠ 0x4D495843 ∨ field img 4 2 ≠ 1 ∨ total < 256 then badParam 0x10
  else if sha256 (slice img 0 0xE0 ++ List.replicate 32 0#8 ++ slice img 256 (total - 256)) ≠ slice img 0xE0 32 then badParam 0x10
  else if bit (field img 7 1) 0 ≠ x.subn ∨ x.basket < field img 0x0C 1 ∨ x.tiles < field img 0x0D 1 ∨ x.ttiles < field img 0x0E 1
      ∨ x.istore < field img 0x10 4 then badParam 0x10
  else
    let fixed := field img (field img 0x18 4 + 0x1000 + 0x10254) 4 == 1
    let why := (if lanes ≠ 256 then 1 else 0) + (if fixed && engs != x.engCount then 2 else 0)
      + (if x.engCount < engs then 4 else 0)
    if !decide (x.engCount < engs) && (!fixed || (lanes == 256 && engs == x.engCount)) then .ok ()
    else .error { status := stLanesMismatch, detail := why, result := lanesResult lanes engs x.engCount }

def stepCtxRestore (d : Dev) (cid : Nat) (c : Cmd) : Option Dev :=
  let ctx := cmdContext c
  match smFind d.ctxs ctx with
  | none => some (finishCmd d cid stCancelled 0 [] none)
  | some x =>
    match chkCtxRestore d c with
    | .error r => some (endRef (dropWant d (.cmd cid)) cid r)
    | .ok _ =>
      if x.state ≠ .resident then some (noteWant d ctx)
      else if (granulesOfCtx d x).any (fun g => d.mem.granRinse.contains g) || x.moveCid.isSome then some d
      else
        let got : Option (List Byte) × Dev :=
          if imHost c then
            match wantDone d (.cmd cid) with
            | some l => (some l, dropWant d (.cmd cid))
            | none => if wanting d (.cmd cid) then (none, d) else (none, wantHost d (.cmd cid) (imAddr c) (imLen c))
          else
            let (here, d1) := bringIn d cid c [(imVa c, imLen c, false)]
            if here then (some (peek d1 ctx (imVa c) (imLen c)), d1) else (none, d1)
        match got with
        | (none, d1) => some d1
        | (some img, d1) => match chkImageFor x c img with
          | .error r => some (endRef d1 cid r)
          | .ok _ => some (finishCmd (modCtx (putImage (dropEngines d1 ctx) ctx img) ctx
              (fun x => { x with
                stopped := bit (field img 7 1) 1
                stopLaunch := none
                imgLaunch := if bit (field img 7 1) 1 then slice img 0x28 16 else [] })) cid stOk 0 [] none)

/-- CTX.RESTORE (R507). -/
def execCtxRestore (cid : Nat) (s : State) : Host.Outcome State Fault Refusal := onDev s (runCmd 0x0204 cid stepCtxRestore)

/-! ### Demotion and recall (R515 to R518) -/

/-- Another context of the partition waits for a resident place. -/
def placeWanted (d : Dev) (part : Nat) : Bool :=
  d.ctxs.any (fun c => c.2.part == part && decide (c.2.state = .demoted) && c.2.wantAt.isSome && !c.2.destroying)
    || d.cmds.any (fun c => opcodeC c.2 == 0x0201 && c.2.fin.isNone && c.2.info.isEmpty && decide (c.2.phase = .running)
        && nwPart c.2 == part && nwResident c.2)

/-- Its cupboard pages: the first page numbers of their leaves. -/
def cupPages (x : Ctx) : SMap Pte := x.ptes.filter (fun q => decide (q.2.kind = .localPage) && q.2.frames.any isCup)

/-- The resident is the one of its partition that has been blocked longest; ties go to the lower number (R515). -/
def longest (d : Dev) (ctx : Nat) (x : Ctx) (p : Partn) : Bool :=
  d.ctxs.all (fun c => c.1 == ctx || c.2.part != x.part || decide (c.2.state ≠ .resident) || !longBlocked d c.1 c.2 p
    || decide (x.blockedAt < c.2.blockedAt ∨ (x.blockedAt = c.2.blockedAt ∧ ctx < c.1)))

/-- Writes the cupboard pages of a context to pool pages, in page order; they are SLOW from then on (R274, R516). -/
def cupToPool (ctx : Nat) (p : Partn) : List (Nat × Pte) → List Nat → Dev → Dev
  | [], _, d => d
  | (pg, q) :: r, ks, d =>
    let n := pageFrames q
    let mine := ks.take n
    let (bs, d0) := copiedBytes d q.frames
    let d1 := mine.zipIdx.foldl (fun d k => bulkWrite d (poolAddr p k.1) (slice bs (65536 * k.2) 65536)) d0
    let mv : Move := { ctx := ctx, page := pg, dest := none, slow := mine, cid := none, failAt := none, line := [], asked := false }
    let d2 := finishMove d1 mv { q with kind := .slow, target := nth 0 mine 0, frames := [], slowPgs := mine, cupTier := true }
    cupToPool ctx p r (ks.drop n) (freeFrames d2 q.frames)

/-- Demotion (R516): the image and the cupboard pages go to the pool, and the shares are released to rinse. -/
def startDemote (d : Dev) (ctx : Nat) (x : Ctx) (p : Partn) : Dev :=
  let img := imageOf d ctx
  let cups := cupPages x
  let n := ceilDiv img.length 65536
  let ks := freePool p (n + (cups.map (fun q => pageFrames q.2)).sum)
  if !d.host.bme || decide (ks.length < n + (cups.map (fun q => pageFrames q.2)).sum) then d
  else
    let note := (cups.flatMap (fun q => q.2.frames)).map (fun f => 2 * f) ++ (granulesOfCtx d x).map (fun g => 2 * g + 1)
    let d1 := modPart d x.part (fun p => markPool p ks true)
    let d2 := (ks.take n).zipIdx.foldl (fun d k => bulkWrite d (poolAddr p k.1) (fit 65536 (img.drop (65536 * k.2)))) d1
    let d3 := cupToPool ctx p cups (ks.drop n) d2
    modCtx (releaseShares d3 ctx) ctx (fun x => { x with
      state := .demoting, image := some (ks.take n), cupBack := cups.map (·.1), rinseWait := note })

def demote (ctx : Nat) (d : Dev) : Dev :=
  match smFind d.ctxs ctx with
  | none => d
  | some x =>
    match partOf d x.part with
    | none => d
    | some p =>
      match x.state with
      | .resident =>
        if !x.destroying && x.moveCid.isNone && placeWanted d x.part && placesFull d x.part && longBlocked d ctx x p
            && longest d ctx x p && !d.ctxs.any (fun c => c.2.part == x.part && decide (c.2.state = .demoting))
            && !(cupPages x).any (fun q => demoteHeld d x ctx q.1 q.2 2 none)
            && !d.xfers.any (fun v => v.2.ctx == ctx) && !d.mem.moves.any (fun m => m.ctx == ctx) then startDemote d ctx x p
        else d
      | .demoting => if allRinsed d x then modCtx d ctx (fun x => { x with state := .demoted, rinseWait := [] }) else d
      | _ => d

/-- CONTEXT_DEMOTE (R515, R516): the demotion begins, and ends when all is rinsed. -/
def execContextDemote (ctx : Nat) (s : State) : Host.Outcome State Fault Refusal := onDev s (demote ctx)

/-- The waiting context of the partition whose candidate appeared first (R518). -/
def firstWanting (d : Dev) (ctx : Nat) (x : Ctx) : Bool :=
  match x.wantAt with
  | none => false
  | some t => d.ctxs.all (fun c => c.1 == ctx || c.2.part != x.part || decide (c.2.state ≠ .demoted) || c.2.destroying ||
      (match c.2.wantAt with | none => true | some u => decide (t < u ∨ (t = u ∧ ctx < c.1))))

/-- Recall begins (R516): the shares are placed, and the image and the cupboard pages are asked for. -/
def startRecall (d : Dev) (ctx : Nat) (x : Ctx) : Dev :=
  match settle d ctx x .recalling with
  | .error _ => d
  | .ok d1 =>
    let (_, d2) := match x.image with | none => (none, d1) | some _ => poolImage d1 ctx x
    (x.cupBack.filterMap (fun p => (smFind x.ptes p).map (fun q => (p, q)))).foldl
      (fun d q => if q.2.kind = .slow ∧ q.2.cupTier then recallPage d ctx q.1 q.2 none [] else d) d2

/-- Recall ends: the image is in the shares, and its pool pages are free. -/
def endRecall (d : Dev) (ctx : Nat) (x : Ctx) : Dev :=
  let away := x.cupBack.any (fun p => match smFind x.ptes p with | some q => q.transit || (waitOf d ctx p).isSome | none => false)
  if away || (granulesOfCtx d x).any (fun g => d.mem.granRinse.contains g) then d
  else
    let fin (d : Dev) : Dev := modCtx d ctx (fun y => { y with
      state := .resident, image := none, cupBack := [], wantAt := none, everResident := true, blockedAt := d.now, progs := x.progs })
    match x.image with
    | none => fin d
    | some ks => match poolImage d ctx x with
      | (none, d1) => d1
      | (some img, d1) => fin (freePoolPages (putImage d1 ctx img) x.part ks)

def recallCtx (ctx : Nat) (d : Dev) : Dev :=
  match smFind d.ctxs ctx with
  | none => d
  | some x =>
    match x.state with
    | .demoted =>
      if !x.destroying && x.moveCid.isNone && firstWanting d ctx x && !placesFull d x.part && d.host.bme then startRecall d ctx x
      else d
    | .recalling => endRecall d ctx x
    | _ => d

/-- CONTEXT_RECALL (R515, R516): the recall begins, and ends when the image and the cupboard pages are back. -/
def execContextRecall (ctx : Nat) (s : State) : Host.Outcome State Fault Refusal := onDev s (recallCtx ctx)

end Sys2Proof.Machine
end

