-- ==== Sys2Proof/Machine/PwrOps.lean ====
section
/-! DEFINITION. The serial flash, the loss of the package rails, and trips (13 R523, R534, R535; 16 R573, R584, R603; 18 R629). -/

namespace Sys2Proof.Machine

/-! ### The serial flash (16 R573) -/

def flashByte (nv : NonVol) (a : Nat) : Byte := smGet Config.flashErased nv.flash a

def flashRead (nv : NonVol) (a n : Nat) : List Byte := (span a n).map (flashByte nv)

/-- Programs bytes. -/
def flashPut (nv : NonVol) (a : Nat) (bs : List Byte) : NonVol :=
  { nv with flash := (span a bs.length).zip bs |>.foldl (fun m p => smPut m p.1 p.2) nv.flash }

/-- Erases a range. -/
def flashWipe (nv : NonVol) (a n : Nat) : NonVol := { nv with flash := nv.flash.filter (fun p => decide (p.1 < a) || decide (a + n ≤ p.1)) }

/-- Bytes that an operation works on (17 R615). -/
def flashOpBytes : FlashOp → Nat
  | .erase => 65536
  | _ => 4096

/-- The bytes of a range are open, and it counts as torn until it is written again (16 R603). -/
def tearRange (nv : NonVol) (draw a n : Nat) : NonVol :=
  { nv with flash := (flashPut nv a ((span a n).map (Config.freeByte draw))).flash, torn := (a, n) :: nv.torn }

/-- A program or erase is broken off. -/
def tearFlash (nv : NonVol) (draw : Nat) (op : FlashOp) (a : Nat) : NonVol :=
  match op with
  | .read => nv
  | op => tearRange nv draw a (flashOpBytes op)

/-- An event that may reset the package: a flash operation that it ends is broken off. -/
def onPackage (s : State) (f : Dev → Dev) : Host.Outcome State Fault Refusal :=
  let d := f s.dev
  match s.dev.flashIf.busy, d.flashIf.busy with
  | some (op, a), none => .next { s with nv := tearFlash s.nv d.freeCtr op a, dev := { d with freeCtr := d.freeCtr + 1 } }
  | _, _ => .next { s with dev := d }

/-! ### Rails, trips and causes -/

/-- Every package rail is off: all state of the package is lost; the module power controller goes on (01 R26, 18 R629). -/
def railsOff (d : Dev) : Dev :=
  { out := d.out, freeCtr := d.freeCtr,
    pwr := { d.pwr with
      rails := false, coldWait := false, pwrGood := false, readyPin := false, throttle := false, tjHist := [],
      tjMax := match d.pwr.tjHist with | t :: _ => t.2 | [] => d.pwr.tjMax } }

/-- How a run ends: a run that a trip has ended keeps its cause (16 R584). -/
def endRun (d : Dev) (stop die : Nat) : Dev :=
  if d.pwr.ctrlOn && (d.pwr.rails || d.boot.kind.isSome) && !d.pwr.trip then
    { d with pwr := { d.pwr with cause := BitVec.ofNat 32 (stop + 16 * die) } }
  else d

/-- A thermal trip (13 R534) or a clock fault (13 R523): the rails go off and TRIP goes high. -/
def tripPart (d : Dev) (stop die : Nat) : Dev :=
  if d.pwr.rails && !d.pwr.trip then
    let d1 := railsOff (endRun d stop die)
    { d1 with gov := { d1.gov with tripped := decide (stop = 3) }, pwr := { d1.pwr with trip := true, tripClk := decide (stop = 4) } }
  else d

end Sys2Proof.Machine
end

