-- ==== Sys2Proof/Machine/Sched.lean ====
section
/-! DEFINITION. The step scheduler, the budget governor's windows and sensors, and blocks that gate or power off (13 R508 to R512,
R524 to R534). -/

namespace Sys2Proof.Machine

/-! ### Candidates (R508 to R510) -/

/-- Engine time of a context over the present and the 15 previous windows, what its running launches have had included. -/
def engUsed (d : Dev) (ctx : Nat) (x : Ctx) : Nat :=
  engTime16 x + ((d.launches.filter (fun z => z.2.ctx == ctx && decide (z.2.state = .running))).map
    (fun z => (d.now - z.2.timeFrom) * z.2.engCount)).sum

/-- The context has had less than SHARE of the engine time of its engines (R509). -/
def underShare (d : Dev) (ctx : Nat) (x : Ctx) : Bool :=
  decide (engUsed d ctx x * shareDen d ctx x.part < x.weight * ((d.now - d.gov.windowAt) + 15 * 400000) * x.engCount)

/-- A launch that resumes begins once the transfers of the lines that it resumes have completed (06 R222, R223; log 61). -/
def linesSettled (d : Dev) (z : Launch) : Bool :=
  !z.resume || (launchEngines z).all (fun i => (getE d z.ctx i).lines.all (fun p => decide (p.2.state ≠ .faulted) || p.2.out == 0))

/-- The candidates of a partition: launches of its residents that wait to begin or to go on. -/
def candidates (d : Dev) (part : Nat) : List (Nat × Launch) :=
  d.launches.filter (fun z => decide (z.2.state = .waiting ∨ z.2.state = .preempted) && linesSettled d z.2 &&
    (match smFind d.ctxs z.2.ctx with
      | some x => x.part == part && decide (x.state = .resident) && x.moveCid.isNone && !x.destroying && !refolding d z.2.ctx
      | none => false))

/-- Priority of a candidate within its context (12 R474). -/
def launchPrio (d : Dev) (z : Launch) : Nat :=
  match z.purpose with
  | .train c => match smFind d.cmds c with | some x => srPrio x + 1 | none => 0
  | _ => 0

/-- The order of two instants, none being never. -/
def soonerBy (a b : Option Nat) : Bool :=
  match a, b with | some x, some y => decide (x < y) | some _, none => true | _, _ => false

/-- A candidate with what its place in the order depends on. -/
structure Cand where
  num  : Nat
  z    : Launch
  rank : Nat   -- 0 class 1 below SHARE, 1 other class 1, 2 class 2
  used : Nat
  wt   : Nat
  prio : Nat
  deriving DecidableEq, Repr

def toCand (d : Dev) (k : Nat × Launch) : Cand :=
  match smFind d.ctxs k.2.ctx with
  | some x => { num := k.1, z := k.2, rank := if k.2.cls ≠ 1 then 2 else if underShare d k.2.ctx x then 0 else 1,
                used := engUsed d k.2.ctx x, wt := max 1 x.weight, prio := launchPrio d k.2 }
  | none => { num := k.1, z := k.2, rank := 2, used := 0, wt := 1, prio := 0 }

/-- One candidate comes before another (R510). -/
def candBefore (a b : Cand) : Bool :=
  if a.rank ≠ b.rank then decide (a.rank < b.rank)
  else if a.rank < 2 then
    if soonerBy a.z.due b.z.due then true
    else if soonerBy b.z.due a.z.due then false
    else decide (a.z.ctx < b.z.ctx ∨ (a.z.ctx = b.z.ctx ∧ a.num < b.num))
  else if a.z.ctx = b.z.ctx then decide (b.prio < a.prio ∨ (a.prio = b.prio ∧ a.num < b.num))
  else if a.used * b.wt ≠ b.used * a.wt then decide (a.used * b.wt < b.used * a.wt)
  else decide (a.z.ctx < b.z.ctx)

def insCand (c : Cand) : List Cand → List Cand
  | [] => [c]
  | x :: xs => if candBefore c x then c :: x :: xs else x :: insCand c xs

/-- The candidates that may start, first to start first: class 2 only within the energy and heat test (R510, R531). -/
def candOrder (d : Dev) (part : Nat) : List Cand :=
  let l := (candidates d part).filter (fun k => k.2.cls == 1 ||
    (match smFind d.ctxs k.2.ctx with | some x => energyOk d x k.2.slot k.2.engFirst k.2.engCount | none => false))
  (l.map (toCand d)).foldl (fun b c => insCand c b) []

/-- Running launches on the engines of a launch. -/
def busyWith (d : Dev) (z : Launch) : List (Nat × Launch) :=
  let es := launchPhys d z
  d.launches.filter (fun r => decide (r.2.state = .running) && (launchPhys d r.2).any (fun e => es.contains e))

/-- A class-1 candidate pre-empts the class-2 launches of other contexts on its engines (R511). -/
def clearFor (d : Dev) (c : Cand) : Dev :=
  if c.z.cls ≠ 1 then d
  else (((busyWith d c.z).filter (fun r => r.2.cls != 1 && r.2.ctx != c.z.ctx)).map (·.1)).foldl preemptLaunch d

/-- The command that a launch serves. -/
def launchCmd (z : Launch) : Option Nat := match z.purpose with | .prog c => some c | .train c => some c | .serve _ => none

/-- Memory-side dies that hold the weights and the KV pages of a batch step. -/
def stepDies (d : Dev) (x : Ctx) (ctx : Nat) (st : BStep) : List Nat :=
  match sEntry d ctx st.model with
  | none => []
  | some e =>
    let kv := x.ptes.filter (fun q => q.2.kvPool == some (sePool e))
    (((leavesIn x (seWeights e) (seWeightBytes e) ++ kv).flatMap (fun q => q.2.frames)).filterMap (fun f =>
      if isCup f then none else some (8 + homeDie f))).eraseDups

/-- Marks the command of a launch, or the requests of a batch step, when a die that it uses is throttled (R533; 09 R365). -/
def markLaunch (d : Dev) (z : Launch) : Dev :=
  match launchCmd z, smFind d.ctxs z.ctx with
  | some c, some x => markThrottled d c (diesUsed d x z.engFirst z.engCount)
  | none, some x => match x.serve.step with
    | some st =>
      let dies := diesUsed d x z.engFirst z.engCount ++ stepDies d x z.ctx st
      ((st.rows.map (fun b => b.req.toNat % 2 ^ 17)).eraseDups).foldl (fun d k => match (getReq d k).cid with
        | some c => markThrottled d c dies | none => d) d
    | none => d
  | _, _ => d

/-- Adds to a sorted list of engines. -/
def addAll (l es : List Nat) : List Nat := es.foldl (fun l e => if l.contains e then l else insertSorted e l) l

/-- SCHEDULE_NEXT on a partition (R510, R511): class-1 candidates pre-empt, the first candidate whose engines are all free starts,
and with none the free engines gate their clocks. -/
def scheduleNext (part : Nat) (d : Dev) : Dev :=
  let d1 := (candOrder d part).foldl clearFor d
  match (candOrder d1 part).find? (fun c => (launchPhys d1 c.z).all (fun e => (smFind d1.running e).isNone)) with
  | some c =>
    let es := launchPhys d1 c.z
    markLaunch (startLaunch { d1 with gov := { d1.gov with gated := d1.gov.gated.filter (fun e => !es.contains e) } } c.num) c.z
  | none =>
    match partOf d1 part with
    | none => d1
    | some p =>
      let free := (partEngines p).filter (fun e => (smFind d1.running e).isNone && !d1.gov.off.contains e)
      { d1 with gov := { d1.gov with gated := addAll d1.gov.gated free } }

def execScheduleNext (part : Fin 8) (s : State) : Host.Outcome State Fault Refusal := onDev s (scheduleNext part)

/-- SLICE_MAX_EXPIRE (R511). -/
def sliceExpire (k : Nat) (d : Dev) : Dev :=
  match smFind d.launches k with
  | none => d
  | some z =>
    match (smFind d.ctxs z.ctx).bind (fun x => (partOf d x.part).map (fun p => (x, p))) with
    | none => d
    | some (x, p) =>
      let es := launchPhys d z
      if z.state = .running ∧ z.cls ≠ 1 ∧ 400 * p.slice < d.now - z.sliceFrom
          ∧ ((candidates d x.part).any (fun c => c.2.ctx != z.ctx && (launchPhys d c.2).any (fun e => es.contains e))) = true then
        preemptLaunch d k
      else d

def execSliceMaxExpire (launch : Nat) (s : State) : Host.Outcome State Fault Refusal := onDev s (sliceExpire launch)

/-! ### Windows of the governor (R525 to R533) -/

/-- The SDIE of an RDIE (15 R554). -/
def sdieOf (r : Nat) : Nat := if r < 8 then r else r + 32

/-- Deficit of the thermal rate of a die at a window boundary: 16 - k falls by 1 or rises by 2 (R532). -/
def thermalNext (g : Gov) (r : Nat) : Nat :=
  let k := smGet 0 g.thermal r
  if g.hotSeen.contains r then min 15 (k + 2) else if g.warmSeen.contains r then k else k - 1

/-- Charges every running launch up to now, and shifts the engine time of every context by a window (R510). -/
def windowTimes (d : Dev) : Dev :=
  let runs := d.launches.filter (fun z => decide (z.2.state = .running))
  let d1 := runs.foldl (fun d z =>
    let d1 := chargeTime d z.2
    { d1 with launches := smUpd d1.launches z.1 (fun v => { v with timeFrom := d.now }) }) d
  { d1 with ctxs := d1.ctxs.map (fun c => (c.1, { c.2 with engTime := (0 :: c.2.engTime).take 16 })) }

/-- Every command whose launch, mangle piece or collective is running is marked when a die it uses is throttled (R533; 11 R434). -/
def markRunning (d : Dev) : Dev :=
  let d1 := (d.launches.filter (fun z => decide (z.2.state = .running))).foldl (fun d z => markLaunch d z.2) d
  let d2 := (d1.mem.pieces.filter (fun p => p.mang.isSome)).foldl (fun d p => markThrottled d p.cid [8 + p.die]) d1
  (d2.colls.live.filter (fun k => decide (k.2.phase ≠ .waiting))).foldl (fun d k => markColl d k.2) d2

/-- The records of the window that ends (15 R569): the energy drawn is open (log 8). -/
def windowTally (d : Dev) : Dev :=
  let tag := BitVec.ofNat 32 (tallyWindow d)
  let d1 := (span 0 24).foldl (fun d r => tallyValue d 0x60 r (16 - smGet 0 d.gov.rate r) tag) d
  let d2 := (span 0 66).foldl (fun d r => tallyValue d 0x61 r (smGet 0 d.gov.tempMax r) tag) d1
  let (e, d3) := drawFree 32 d2
  tallyValue d3 0x62 0 e.toNat tag

def budgetWindow (d : Dev) : Dev :=
  if !d.boot.ready || decide (d.now < d.gov.windowAt + 400000) then d
  else
    let d1 := windowTally (windowTimes d)
    let th := (span 0 24).foldl (fun m r => smSet 0 m r (thermalNext d1.gov r)) ([] : SMap Nat)
    let p := 16 - powerRate (budget d1)
    let rate := (span 0 24).foldl (fun m r => smSet 0 m r (max p (smGet 0 th r))) ([] : SMap Nat)
    let d2 : Dev := { d1 with
      gov := { d1.gov with windowAt := d1.gov.windowAt + 400000, windows := d1.gov.windows + 1, thermal := th, rate := rate,
                           hotSeen := [], warmSeen := [], tempMax := [], spent := 0 },
      pwr := { d1.pwr with throttle := !th.isEmpty } }
    markRunning d2

/-- BUDGET_WINDOW (R526, R528, R530, R532, R533). -/
def execBudgetWindow (s : State) : Host.Outcome State Fault Refusal := onDev s budgetWindow

/-- One reading of the greatest sensor of a die, in 0.25 °C: a negative one stands as 0 (R532). -/
def noteReading (t : List Byte) (g : Gov) (s v : Nat) : Gov :=
  let r? : Option Nat := if s < 8 then some s else if 40 ≤ s ∧ s < 56 then some (s - 32) else none
  let hot := decide (4 * throttleC t ≤ v)
  let warm := decide (4 * (throttleC t - hystC t) < v)
  { g with temps := smSet 0 g.temps s v, tempMax := smMod 0 g.tempMax s (max v),
           hotSeen := match r? with | some r => if hot then addAll g.hotSeen [r] else g.hotSeen | none => g.hotSeen,
           warmSeen := match r? with | some r => if warm then addAll g.warmSeen [r] else g.warmSeen | none => g.warmSeen }

/-- The greatest of some signed readings. -/
def greatest (l : List (BitVec 16)) : BitVec 16 := l.foldl (fun b v => if b.toInt < v.toInt then v else b) 0x8000#16

/-- The management controller notes the greatest reading of each time the sensors are read, for a second (18 R636). -/
def notedTop (p : Pwr) (now : Nat) (top : BitVec 16) : Pwr :=
  let h := (now, top) :: p.tjHist.filter (fun v => decide (now < v.1 + 400000000))
  { p with tjHist := h, tjMax := greatest (h.map (·.2)) }

/-- SENSOR_READ (R532, R534): the sensors are read, and a die at 115 °C or more trips the part. -/
def readSensors (l : List (BitVec 16)) (d : Dev) : Dev :=
  if !d.pwr.rails || !d.boot.selfTest then d
  else
    let vs := (l.take 66).map (fun v => v.toInt.toNat)
    let top := greatest (l.take 66)
    let d1 : Dev := { d with
      gov := vs.zipIdx.foldl (fun g p => noteReading (budget d) g p.2 p.1) d.gov,
      pwr := notedTop d.pwr d.now top }
    match vs.zipIdx.find? (fun p => decide (460 ≤ p.1)) with
    | some p => tripPart d1 3 p.2
    | none => d1

def execSensorRead (readings : List (BitVec 16)) (s : State) : Host.Outcome State Fault Refusal := onPackage s (readSensors readings)

/-! ### Gating and power-off (R524) -/

/-- ENGINE_GATE (R524): engine 0 to 95, or mangle 0 to 31 at 96. An engine or mangle that runs nothing gates its clock. -/
def execEngineGate (unit : Fin 128) (s : State) : Host.Outcome State Fault Refusal :=
  onDev s (fun d =>
    let u : Nat := unit
    if u < 96 then
      if (smFind d.running u).isSome || d.gov.off.contains u then d
      else { d with gov := { d.gov with gated := addAll d.gov.gated [u] } }
    else if d.mem.pieces.any (fun p => p.mang == some (u - 96)) then d
    else { d with gov := { d.gov with mangGated := addAll d.gov.mangGated [u - 96] } })

/-- ENGINE_OFF (R524): no resident has had a share on the engine for 1 ms; its basket keeps nothing. -/
def execEngineOff (e : Fin 96) (s : State) : Host.Outcome State Fault Refusal :=
  onDev s (fun d =>
    let u : Nat := e
    if !(sharesOn d u).isEmpty || decide (d.now < smGet 0 d.gov.shareFree u + 400000) || d.gov.off.contains u then d
    else
      let d1 := modMem d (fun m => { m with baskets := memClear m.baskets (2 ^ 23 * u) (2 ^ 23),
                                            granRinse := m.granRinse.filter (fun g => g / 128 != u) })
      { d1 with gov := { d1.gov with off := addAll d1.gov.off [u], gated := d1.gov.gated.filter (fun g => g != u) } })

/-- The frames of a cupboard bank: 512 of the 8,192 frames of its die (log 9). -/
def bankFrames (die bank : Nat) : Nat × Nat := (cupFrame die (512 * bank), 512)

/-- CUPBOARD_BANK_OFF (R524): no frame of the bank is allocated. -/
def execCupboardBankOff (die : Fin 32) (bank : Fin 16) (s : State) : Host.Outcome State Fault Refusal :=
  onDev s (fun d =>
    let (f, n) := bankFrames die bank
    if d.mem.frames.any (fun p => decide (f ≤ p.1) && decide (p.1 < f + n)
        && (match p.2 with | .retired => false | _ => true)) then d
    else { d with gov := { d.gov with banksOff := addAll d.gov.banksOff [16 * (die : Nat) + bank] } })

end Sys2Proof.Machine
end

