-- ==== Sys2Proof/Machine/Cfg.lean ====
section
/-! DEFINITION. Configuration tables: the checks of each kind, CFG.LOAD and CFG.DIGEST (16 R589 to R593; 02 R48 to R50; 07 R302;
08 R304, R305; 09 R347 to R349; 10 R407, R413, R418; 11 R419, R420; 12 R459, R460; 13 R496, R497, R527, R529; 15 R560). -/

namespace Sys2Proof.Machine

/-! ### Helpers -/

/-- The first byte of a reserved field that is not zero. -/
def resvIn (t : List Byte) (o n : Nat) : List (Nat × Bool) :=
  match firstNonZero (slice t o n) o with | some k => [(k, true)] | none => []

def f32Pos (w : Nat) : Bool := decide (0 < w) && decide (w < 0x7F800000)
def f32Normal (w : Nat) : Bool := decide (0x00800000 ≤ w) && decide (w < 0x7F800000)

/-- A positive power of two in fp32. -/
def f32Pow2 (w : Nat) : Bool :=
  f32Pos w && (if w < 2 ^ 23 then (span 0 23).any (fun k => w == 2 ^ k) else w % 2 ^ 23 == 0)

/-! ### Checks of each kind: the offset of each field that fails -/

abbrev Bad := List (Nat × Bool)

/-- A command table entry at offset o (02 R48, R50). -/
def badCommand (t : List Byte) (o : Nat) : Bad :=
  let e := slice t o 64
  let op := field e 0 2
  let attr := field e 8 4
  let n := field e 0x0E 1
  let state (k : Nat) : Nat := field e (0x10 + 4 * k) 4
  let badNext (v : Nat) : Bool := decide (12 ≤ v ∧ v ≤ 14) || decide (n ≤ v ∧ v ≤ 11)
  let mark := opcodes.find? (fun m => m.1 == op)
  [(o, mark.isNone), (o + 2, decide (15 < field e 2 2)), (o + 4, decide (4096 < field e 4 2)),
   (o + 6, decide (4096 < field e 6 2)),
   (o + 8, decide (15 < attr) || (match mark with
      | some m => bit attr 0 != m.2.1 || bit attr 1 != m.2.2 || bit attr 3 != slotOps.contains op
      | none => false)),
   (o + 0x0E, n == 0 || decide (12 < n))] ++ resvIn t (o + 0x0F) 1
  ++ ((span 0 (min n 12)).map (fun k => (o + 0x10 + 4 * k,
      !Config.knownHandler (bits (state k) 31 20) || badNext (bits (state k) 19 16) || badNext (bits (state k) 15 12)
        || badNext (bits (state k) 11 8) || bits (state k) 7 0 != 0)))

/-- A memory arbiter table (07 R302). -/
def badArbiter (t : List Byte) : Bad := (span 0 8).map (fun c => (4 * c, decide (field t (4 * c) 4 < 16 ∨ 4095 < field t (4 * c) 4)))

def ptField (t : List Byte) (p o n : Nat) : Nat := field t (32 * p + o) n

/-- A context or queue pair of the partition exists. -/
def partInUse (d : Dev) (p : Nat) : Bool :=
  d.ctxs.any (fun c => c.2.part == p) || d.queues.any (fun q => q.2.partition == some p && decide (q.2.state ≠ .disabled))

/-- A partition table (13 R496, R497). -/
def badPartition (d : Dev) (t : List Byte) : Bad :=
  let old := tableInForce d kindPartition
  let valid (p : Nat) : Bool := ptField t p 1 1 == 1
  let upTo (p o n : Nat) : Nat := (((span 0 (p + 1)).filter valid).map (fun q => ptField t q o n)).sum
  (span 0 8).flatMap (fun p =>
    let b := 32 * p
    let changed := slice t b 32 != slice old b 32
    [(b, ptField t p 0 1 != p || (changed && partInUse d p)), (b + 1, decide (1 < ptField t p 1 1))]
    ++ (if valid p then
        [(b + 2, ptField t p 2 1 == 0
            || (span 0 p).any (fun q => valid q && (span 0 8).any (fun c => bit (ptField t p 2 1) c && bit (ptField t q 2 1) c))),
         (b + 3, outside 1 16 (ptField t p 3 1) || decide (16 < upTo p 3 1)),
         (b + 4, decide (ptField t p 4 2 < 50)), (b + 6, decide (ptField t p 6 2 < 100)),
         (b + 8, ptField t p 8 8 % 2 ^ 21 != 0 || decide (allocatable d < upTo p 8 8))] ++ resvIn t (b + 0x10) 16
      else resvIn t (b + 2) 30))

/-- A budget table (13 R527). -/
def badBudget (t : List Byte) : Bad :=
  let fin (w : Nat) : Bool := decide (w < 0x7F800000)
  [(0, outside 800 2400 (field t 0 2)), (2, outside 80 100 (field t 2 1)), (3, outside 1 10 (field t 3 1)), (4, decide (20 < field t 4 1)),
   (8, !fin (field t 8 4))] ++ resvIn t 5 3 ++ resvIn t 0x0C 4
  ++ (span 0 7).flatMap (fun r =>
    let b := 0x10 + 16 * r
    [(b, !fin (field t b 4)), (b + 4, !fin (field t (b + 4) 4) || (fin (field t b 4) && decide (rowFull t r < rowStatic t r))),
     (b + 8, !fin (field t (b + 8) 4)), (b + 12, decide (1 < field t (b + 12) 4))])

/-- A fabric table (10 R407). -/
def badFabric (t : List Byte) : Bad :=
  let n := field t 0 1
  let eth := field t 4 4
  [(0, outside 1 16 n), (2, decide (field t 2 2 < 0x600)),
   (4, decide (2 ^ 18 ≤ eth) || (span 0 (n - 1)).any (fun p => bit eth p)),
   (8, (span 0 32).any (fun p => bit (field t 8 4) p && !bit eth p)), (0x0C, decide (2 ^ 14 ≤ field t 0x0C 2)),
   (0x0E, decide (2 ^ 12 ≤ field t 0x0E 2)), (0x10, outside 8 10000 (field t 0x10 4)),
   (0x14, outside 16 100000 (field t 0x14 4) || decide (field t 0x14 4 < 8 * field t 0x10 4)),
   (0x18, (span 0 32).any (fun p => decide (2 ≤ field t 0x18 8 / 4 ^ p % 4) || (decide (18 ≤ p) && field t 0x18 8 / 4 ^ p % 4 != 0)))]
  ++ resvIn t 0x34 12

/-- An equalisation table: entries of the MEDIA codes 0 and 1 (10 R413). -/
def badEqual (t : List Byte) : Bad :=
  (span 0 16).flatMap (fun k =>
    let b := 8 * k
    let tap (i : Nat) : Int := sext 8 (field t (b + i) 1)
    [(b, decide (128 < ((span 0 5).map (fun i => (tap i).natAbs)).sum)), (b + 3, decide (tap 3 ≤ 0)),
     (b + 5, decide (31 < field t (b + 5) 1)), (b + 6, decide (1 < field t (b + 6) 1))] ++ resvIn t (b + 7) 1)

/-- A group table (11 R419, R420). -/
def badGroup (t : List Byte) : Bad :=
  (groupScan t).zipIdx.flatMap (fun p =>
    let e := p.1
    let b := 32 * p.2
    let n := field e 4 2
    let base := field e 6 2
    let step := field e 8 2
    let off := field e 0x0C 4
    let devs := (span 0 (min n 4096)).map (memberIn t e)
    [(b, decide (63 < field e 0 1)), (b + 1, decide (1 < field e 1 1)), (b + 2, field e 2 1 == 0xFF),
     (b + 4, outside 1 4096 n), (b + 0x10, outside 1 1000 (field e 0x10 4)), (b + 0x14, outside 100 100000000 (field e 0x14 4)),
     (b + 0x18, outside 8 100000 (field e 0x18 4))] ++ resvIn t (b + 3) 1 ++ resvIn t (b + 0x0A) 2 ++ resvIn t (b + 0x1C) 4
    ++ (if field e 1 1 = 0 then
        [(b + 6, decide (2 ^ 13 ≤ base) || decide (4096 ≤ base % 4096 + (n - 1) * step)), (b + 8, outside 1 4095 step)]
      else
        [(b + 0x0C, decide (t.length < off + 2 * n) || decide (devs.eraseDups.length < devs.length)
            || (span 0 (min n 4096)).any (fun i => decide (2 ^ 13 ≤ field t (off + 2 * i) 2)))]))

/-- A format descriptor of a KV layout (08 R305). -/
def badKvFd (t : List Byte) (o : Nat) : Bool :=
  let f := fdFields (field t o 4) (field t (o + 4) 4)
  !fdOk (field t o 4) (field t (o + 4) 4) || bit (field t o 4) 18
    || !((f.elem == 1 && !f.block) || f.elem == 2 || f.elem == 3 || ((f.elem == 4 || f.elem == 5) && f.block))

/-- A KV layout table entry (08 R304, R305). -/
def badKv (t : List Byte) (b : Nat) : Bad :=
  let es (o : Nat) : Nat := elemBits (fdFields (field t o 4) (field t (o + 4) 4)).elem
  [(b, decide (15 < field t b 1)), (b + 1, outside 5 8 (field t (b + 1) 1)), (b + 2, outside 1 256 (field t (b + 2) 2)),
   (b + 4, outside 1 64 (field t (b + 4) 1)), (b + 5, outside 1 32 (field t (b + 5) 1)), (b + 8, badKvFd t (b + 8)),
   (b + 0x10, badKvFd t (b + 0x10) || es (b + 8) != es (b + 0x10)), (b + 0x18, !f32Normal (field t (b + 0x18) 4))]
  ++ resvIn t (b + 6) 2 ++ resvIn t (b + 0x1C) 4

/-- A range is mapped LOCAL with permissions. -/
def mappedAs (x : Ctx) (va n : Nat) (p : Pte → Bool) : Bool :=
  let l := leavesIn x va n
  coveredBy l va n && l.all (fun q => decide (q.2.kind = .localPage) && p q.2)

/-- The ranges of a weight-set entry. -/
def weRanges (e : List Byte) : List (Nat × Nat) :=
  ((span 0 (min 4 (weSlots e))).map (fun s => (weSlotVa e s, weBytes e))
    ++ (span 0 2).map (fun b => (weMasterVa e b, weMasterBytes e))
    ++ (if weMirror e = 0 then [] else (span 0 2).map (fun b => (weMirrorVa e b, weMasterBytes e)))).filter (fun r => r.2 != 0)

def meet (a b : Nat × Nat) : Bool := decide (a.1 < b.1 + b.2) && decide (b.1 < a.1 + a.2)

/-- Two of the ranges overlap. -/
def overlapping : List (Nat × Nat) → Bool
  | [] => false
  | r :: rs => rs.any (meet r) || overlapping rs

def entriesOf (t : List Byte) (size : Nat) : List (List Byte) := (span 0 (t.length / size)).map (fun k => slice t (size * k) size)

/-- A weight-set table entry (12 R459, R460). -/
def badWeights (d : Dev) (t : List Byte) (k : Nat) : Bad :=
  let b := 128 * k
  let e := slice t b 128
  let n := weSlots e
  let others := ((entriesOf t 128).zipIdx.filter (fun p => p.2 != k && weContext p.1 == weContext e)).flatMap (fun p => weRanges p.1)
  let free (w : Nat) : Bool := (wset d w).slots.all (fun s => decide (s.state = .free))
  let x? := smFind d.ctxs (weContext e)
  let ok (va n : Nat) (p : Pte → Bool) : Bool := match x? with | some x => mappedAs x va n p | none => true
  let slotOk (s : Nat) : Bool := ok (weSlotVa e s) (weBytes e) (fun q => q.r && q.w && q.rx)
  let bufOk (va : Nat) : Bool := weMasterBytes e == 0 || ok va (weMasterBytes e) (fun q => q.r && q.w && q.mg)
  let crossed := overlapping (weRanges e) || (weRanges e).any (fun r => others.any (meet r))
  [(b, decide (15 < field e 0 1) || (wEntry d (field e 0 1) != some e && !free (field e 0 1))),
   (b + 1, x?.isNone), (b + 2, outside 2 4 n), (b + 3, (memberOf d (weGroup e)).isNone),
   (b + 8, weBytes e == 0 || weBytes e % 2 ^ 21 != 0), (b + 0x40, weMasterBytes e % 2 ^ 21 != 0),
   (b + 0x5A, weGrowth e == 0), (b + 0x5C, !f32Pow2 (field e 0x5C 4)),
   (b + 0x60, !f32Pow2 (field e 0x60 4) || decide (field e 0x5C 4 < field e 0x60 4)),
   (b + 0x64, !f32Pow2 (field e 0x64 4) || decide (field e 0x64 4 < field e 0x5C 4)),
   (b + 0x6C, !f32Pos (field e 0x6C 4)), (b + 0x70, !f32Pos (field e 0x70 4) || decide (0x3F800000 ≤ field e 0x70 4)),
   (b + 0x10, crossed),
   (b + 0x58, match groupEntry d (weGroup e) with | some g => weMirror e != 0 && decide (gMembers g ≤ weMirror e) | none => false)]
  ++ ((span 0 4).map (fun s => (b + 0x10 + 8 * s, if s < n then !slotOk s else weSlotVa e s != 0)))
  ++ ((span 0 2).map (fun s => (b + 0x30 + 8 * s, !bufOk (weMasterVa e s))))
  ++ ((span 0 2).map (fun s => (b + 0x48 + 8 * s, if weMirror e = 0 then weMirrorVa e s != 0 else !bufOk (weMirrorVa e s))))
  ++ resvIn t (b + 4) 4 ++ resvIn t (b + 0x6A) 2 ++ resvIn t (b + 0x74) 12

/-- Weight sets of the table in force that a new table drops. -/
def droppedSets (d : Dev) (t : List Byte) : List Nat :=
  ((wEntries d).map (fun e => field e 0 1)).filter (fun w => !(entriesOf t 128).any (fun e => field e 0 1 == w))

/-- A serving table (09 R347 to R349). -/
def badServing (d : Dev) (ctx : Nat) (t : List Byte) : Bad :=
  match smFind d.ctxs ctx with
  | none => [(0, true)]
  | some x =>
    let es := stEntries t
    let by_ (m : Nat) : Option (List Byte) := es.find? (fun e => seId e == m)
    [(0, field t 0 1 != ctx), (1, outside 1 16 (field t 1 1) || decide (t.length ≠ 64 + 128 * field t 1 1)),
     (2, outside 1 16 (stResident t)), (4, outside 1 131072 (stRecords t)),
     (8, stWork t % 2 ^ 21 != 0 || stWorkBytes t == 0 || !mappedAs x (stWork t) (stWorkBytes t) (fun q => q.r && q.w)),
     (0x18, decide (131072 < stRollouts t))] ++ resvIn t 3 1 ++ resvIn t 0x1C 36
    ++ es.zipIdx.flatMap (fun p =>
      let e := p.1
      let b := 0x40 + 128 * p.2
      [(b, decide (15 < seId e) || (es.take p.2).any (fun f => seId f == seId e)), (b + 1, decide (2 < seKind e)),
       (b + 2, seDraft e != 0xFF && (match by_ (seDraft e) with
          | some f => seKind e != 0 || seKind f != 2 || seVocab f != seVocab e
          | none => true)),
       (b + 3, decide (8 < seKmax e)), (b + 4, decide (3 < sePool e)),
       (b + 5, decide (63 < seSlot e) || (smFind x.progs (seSlot e)).isNone), (b + 6, outside 1 16 (seMembers e)),
       (b + 8, outside 1 (2 ^ 20) (seVocab e)), (b + 0x0C, outside 32 16384 (seRows e)),
       (b + 0x10, field e 0x10 4 % 32 != 0 || decide (seRows e < field e 0x10 4)), (b + 0x14, field e 0x14 2 % 32 != 0)]
      ++ (span 0 5).map (fun k => (b + 0x18 + 4 * k, !f32Pos (field e (0x18 + 4 * k) 4)))
      ++ (span 0 (min 16 (seMembers e))).map (fun k => (b + 0x60 + 2 * k, decide (2 ^ 13 ≤ field e (0x60 + 2 * k) 2)))
      ++ resvIn t (b + 7) 1 ++ resvIn t (b + 0x16) 2 ++ resvIn t (b + 0x2C) 4)

/-- An edge table entry (15 R560). -/
def badEdges (t : List Byte) (b : Nat) : Bad :=
  (b, kindOfQ (field t b 2) != 2) :: resvIn t (b + 2) 2
    ++ (span 0 30).map (fun k => (b + 8 + 4 * k, decide (field t (b + 8 + 4 * k) 4 ≤ field t (b + 4 + 4 * k) 4)))

/-- The length fits no table of the kind (log 38). -/
def lenBad (kind len : Nat) : Bool :=
  match kind with
  | 1 => len % 64 != 0 | 2 => len != 32 | 3 => len != 256 | 4 => len != 128 | 5 => len != 64 | 6 => len != 128 | 7 => decide (len < 32)
  | 8 => len % 32 != 0 || decide (512 < len) | 9 => len % 128 != 0 || decide (2048 < len) | 0x0A => decide (len < 192)
  | _ => len % 128 != 0

/-- Fields of a table that fail. -/
def badTable (d : Dev) (kind inst : Nat) (t : List Byte) : Bad :=
  match kind with
  | 1 => (span 0 (t.length / 64)).flatMap (fun k => badCommand t (64 * k))
  | 2 => badArbiter t
  | 3 => badPartition d t
  | 4 => badBudget t
  | 5 => badFabric t
  | 6 => badEqual t
  | 7 => badGroup t
  | 8 => (span 0 (t.length / 32)).flatMap (fun k => badKv t (32 * k))
  | 9 => (span 0 (t.length / 128)).flatMap (badWeights d t)
      ++ (if (droppedSets d t).any (fun w => (wset d w).slots.any (fun s => decide (s.state ≠ .free))) then [(0, true)] else [])
  | 0x0A => (if t.isEmpty then [] else badServing d inst t)
      ++ (if d.reqs.any (fun r => r.2.ctx == inst && decide (r.2.state ≠ .free ∧ r.2.state ≠ .done ∧ r.2.state ≠ .waiting)) then [(0, true)] else [])
  | _ => (span 0 (t.length / 128)).flatMap (fun k => badEdges t (128 * k))

/-- Admitted requests with a goal, and admitted commands with a deadline, the CFG.LOAD under way not counted (13 R529). -/
def promised (d : Dev) : Nat :=
  (d.reqs.filter (fun r => decide (r.2.state = .prefill ∨ r.2.state = .decode ∨ r.2.state = .preempted) && hasGoal d r.2)).length
    + (d.cmds.filter (fun c => cmdDeadline c.2 != 0 && !(opcodeC c.2 == 0x0301 && decide (c.2.phase = .running)))).length

/-- The checks of a table's contents (16 R591); an empty one stands for the default, or for none. -/
def chkTable (d : Dev) (kind inst : Nat) (t0 : List Byte) : Chk Unit :=
  let t := if t0.isEmpty && hasDefault kind && decide (2 ≤ kind ∧ kind ≤ 4) then firmwareTable d kind else t0
  match lowest (badTable d kind inst t) with
  | some o => .error { status := stBadParam, detail := 0x18, result := [(0x0C, 4, o), (0x10, 1, kind)] }
  | none =>
    let n := promised d
    if kind = 4 ∧ powerRate t < powerRate (budget d) ∧ 0 < n then .error { status := stAdmissionRefused, detail := 0x40, result := [(0x0C, 4, n)] }
    else .ok ()

/-! ### Taking a table into force -/

/-- The partitions that a table gives: a partition keeps its charge and pool (13 R496). -/
def partsFrom (old : SMap Partn) (t : List Byte) : SMap Partn :=
  (span 0 8).filterMap (fun p =>
    if ptField t p 1 1 = 1 then
      let (charge, pool) := match smFind old p with | some q => (q.charge, q.pool) | none => (0, [])
      some (p, { dies := ptField t p 2 1, resMax := ptField t p 3 1, slice := ptField t p 4 2, block := ptField t p 6 2,
                 quota := ptField t p 8 8, charge := charge, pool := pool })
    else none)

/-- Edges that a table gives a quantity. -/
def edgesFrom (t : List Byte) (q : Nat) : List Nat :=
  match (entriesOf t 128).find? (fun e => field e 0 2 == q) with
  | some e => (span 0 31).map (fun k => field e (4 + 4 * k) 4)
  | none => defaultEdges q

/-- New edges: the bins of each quantity whose edges change are cleared, at the thaw while the store is FROZEN (15 R560, R570). -/
def applyEdges (d : Dev) (t : List Byte) : Dev :=
  ((catalogue.filter (fun q => q.kind == 2)).map (·.qid)).foldl (fun (d : Dev) q =>
    let new := edgesFrom t q
    if edgesOf d.tally q = new then d
    else
      let t1 : Tally := { d.tally with edges := if new = defaultEdges q then smErase d.tally.edges q else smPut d.tally.edges q new }
      { d with tally := if t1.frozen then { t1 with edgeHeld := t1.edgeHeld ++ [q] } else applyUpd (drainInput t1) (.edges q) }) d

/-- A table takes effect whole (16 R591, R592); an empty one restores the default, or removes the table. -/
def loadTable (d : Dev) (kind inst : Nat) (t : List Byte) : Dev :=
  let key := 256 * kind + inst
  let d1 : Dev := { d with tables := if t.isEmpty then smErase d.tables key else smPut d.tables key t }
  if tablesInForce d1 = tablesInForce d then d1
  else
    let d2 : Dev := { d1 with configGen := d.configGen + 1, colls := { d1.colls with checked := [] } }
    match kind with
    | 3 => { d2 with parts := partsFrom d2.parts (tableInForce d2 kindPartition) }
    | 5 => refitPorts d d2
    | 6 => refitPorts d d2
    | 9 =>
      let gone := droppedSets d t
      let fresh := (entriesOf t 128).filter (fun e => wEntry d (field e 0 1) != some e)
      let kept := d2.weights.sets.filter (fun w => !gone.contains w.1)
      { d2 with weights := { d2.weights with sets := fresh.foldl (fun m e => smPut m (field e 0 1) (freshWset e)) kept } }
    | 0x0B => applyEdges d2 t
    | _ => d2

/-! ### CFG.LOAD (16 R590, R591) -/

def clKind (c : Cmd) : Nat := par c 0x10 1
def clInst (c : Cmd) : Nat := par c 0x11 1
def clSrc (c : Cmd) : Nat := par c 0x18 8
def clLen (c : Cmd) : Nat := par c 0x20 4

def chkCfgLoad (d : Dev) (c : Cmd) : Chk Unit :=
  let k := clKind c
  let n := clLen c
  let a := clSrc c
  chkFields ([(0x10, k == 0 || decide (0x0B < k)),
    (0x11, if k = 0x0A then (match smFind d.ctxs (clInst c) with | some x => x.destroying | none => true) else clInst c != 0),
    (0x18, n != 0 && (if bit a 63 then bits a 62 52 != 0 || !hostOk d c.queue (a % 2 ^ 52) n else decide (2 ^ 36 < a + n))),
    (0x20, decide (2 ^ 24 < n) || (n != 0 && lenBad k n))] ++ resv c.hdr 0x12 6 ++ resv c.hdr 0x24 28)

/-- An earlier CFG.LOAD has not ended (16 R591). -/
def loadAhead (d : Dev) (cid : Nat) : Bool := d.cmds.any (fun p => decide (p.1 < cid) && opcodeC p.2 == 0x0301)

/-- The bytes of the table, once they have been read. -/
def cfgBytes (d : Dev) (cid : Nat) (c : Cmd) : Option (List Byte) × Dev :=
  let a := clSrc c
  let n := clLen c
  if n = 0 then (some [], d)
  else if bit a 63 then
    match wantDone d (.cmd cid) with
    | some l => (some l, dropWant d (.cmd cid))
    | none => (none, if wanting d (.cmd cid) then d else wantHost d (.cmd cid) (a % 2 ^ 52) n)
  else
    let lines := windowLines a n
    let (here, d1) := snoopRange d lines
    if here then (some (memRead d1.mem.hdm a n), dropSnooped d1 lines) else (none, d1)

/-- The first 8 bytes of the digest. -/
def digest8 (d : Dev) : Nat := leNat ((configDigest d).take 8)

def stepCfgLoad (d : Dev) (cid : Nat) (c : Cmd) : Option Dev :=
  match chkCfgLoad d c with
  | .error r => some (endRef d cid r)
  | .ok _ =>
    if loadAhead d cid then some d
    else match cfgBytes d cid c with
      | (none, d1) => some d1
      | (some t, d1) => match chkTable d1 (clKind c) (clInst c) t with
        | .error r => some (endRef d1 cid r)
        | .ok _ =>
          let d2 := loadTable d1 (clKind c) (clInst c) t
          some (finishCmd { d1 with loading := some (cid, clKind c, clInst c, t) } cid stOk 0
            [(0x0C, 8, digest8 d2), (0x14, 4, d2.configGen), (0x18, 4, clLen c)] none)

/-- CFG.LOAD (16 R590, R591). -/
def execCfgLoad (cid : Nat) (s : State) : Host.Outcome State Fault Refusal := onDev s (runCmd 0x0301 cid stepCfgLoad)

/-- The table of a CFG.LOAD whose final record has been placed takes effect (02 R50, R591). A serving table whose context has
ended meanwhile is dropped with it. -/
def settleLoad (d : Dev) : Dev :=
  match d.loading with
  | none => d
  | some (cid, kind, inst, t) =>
    if (smFind d.cmds cid).isSome then d
    else
      let d1 : Dev := { d with loading := none }
      if kind = 0x0A ∧ (smFind d.ctxs inst).isNone then d1 else loadTable d1 kind inst t

/-- What follows final records that have been placed: of a CFG.LOAD, of requests (09 R345), of learning steps (12 R465, R473) and of
collectives (11 R425; 12 R465, R483). -/
def settleEnds (d : Dev) : Dev := settleColls (settleSteps (settleReqs (settleLoad d)))

/-! ### Rows at which final records are placed (02 R42, R54, R66, R69, R74 to R78, R650) -/

/-- COMMAND_COMPLETE (02 R54, R66, R69, R650). -/
def execCommandComplete (cid : Nat) (s : State) : Host.Outcome State Fault Refusal :=
  onDev s (fun d => settleEnds (completeCmd d cid))

/-- HOLD_BUFFER_DRAIN (02 R42, R76, R77, R650). -/
def execHoldBufferDrain (q : Fin 256) (s : State) : Host.Outcome State Fault Refusal :=
  onDev s (fun d => settleEnds (drainQueue d q))

/-- QUEUE.RESYNC (02 R74 to R78): REPLAY and REBIND end when their records have been written. -/
def execQueueResync (cid : Nat) (s : State) : Host.Outcome State Fault Refusal :=
  onDev s (fun d => settleEnds (runCmd 0x0103 cid stepResync d))

/-! ### CFG.DIGEST (16 R593) -/

def chkCfgDigest (c : Cmd) : Chk Unit := chkFields (resv c.hdr 0x10 44 ++ resv c.hdr 0x3E 2)

/-- What CFG.DIGEST writes to its slot. -/
def digestList (d : Dev) : List Byte :=
  configDigest d ++ fit 32 d.boot.fwMeas ++ natLe 4 d.configGen
    ++ (tablesInForce d).flatMap (fun t => tableHead t.1 t.2 ++ (sha256 t.2).take 8)

def stepCfgDigest (d : Dev) (cid : Nat) (c : Cmd) : Option Dev :=
  match chkCfgDigest c with
  | .error r => some (endRef d cid r)
  | .ok _ => some (finishCmd d cid stOk 0 [(0x0C, 8, digest8 d), (0x14, 4, d.configGen)] (some (digestList d)))

/-- CFG.DIGEST (16 R593). -/
def execCfgDigest (cid : Nat) (s : State) : Host.Outcome State Fault Refusal := onDev s (runCmd 0x0302 cid stepCfgDigest)

end Sys2Proof.Machine
end

