-- ==== Sys2Proof/Machine/Boot.lean ====
section
/-! DEFINITION. Power, the boot phases, firmware images, the kinds of reset, and the module power controller (13 R521, R523, R535; 16
R572 to R588, R594 to R596; 17 R621, R622, R652 to R654; 18 R629 to R636, R644). -/

namespace Sys2Proof.Machine

/-! ### Fuses and images (16 R572 to R577) -/

/-- The anti-rollback counter: the number of blown bits. -/
def counterOf (f : Fuses) : Nat := ((span 0 64).filter (fun i => f.antiRollback.getLsbD i)).length

def slotBase (k : Nat) : Nat := 0x2000000 * k
def imageHeader (nv : NonVol) (k : Nat) : List Byte := flashRead nv (slotBase k) 256
def imSvn (h : List Byte) : Nat := field h 8 1
def imBuild (h : List Byte) : Nat := field h 0x10 8

/-- The verification of a slot (R576; R603 of a slot whose write was broken off). -/
def imageStatus (nv : NonVol) (k : Nat) : Nat :=
  let h := imageHeader nv k
  let n := field h 0x0C 4
  let key := field h 6 1
  if field h 0 4 ≠ 0x52564657 ∨ field h 4 2 ≠ 1 ∨ 3 < key ∨ bits (field h 7 1) 7 2 ≠ 0 ∨ zeros (slice h 9 3) = false
      ∨ zeros (slice h 0x78 72) = false ∨ 64 < imSvn h ∨ 33554176 < n ∨ nv.fuses.keyRevoke.getLsbD key = true
      ∨ sha256 (slice h 0x38 64) ≠ nth [] nv.fuses.keyHash key then stSignatureInvalid
  else if nv.torn.any (fun t => decide (t.1 < slotBase k + 256 + n) && decide (slotBase k < t.1 + t.2))
      || sha256 (flashRead nv (slotBase k + 256) n) != slice h 0x18 32
      || !p256Verify (slice h 0x38 64) (sha256 (slice h 0 0xC0)) (slice h 0xC0 64) then stSignatureInvalid
  else if imSvn h < counterOf nv.fuses then stRollbackRefused
  else stOk

/-- The slot tried first (R577). -/
def firstSlot (nv : NonVol) : Nat :=
  let a := imageHeader nv 0
  let b := imageHeader nv 1
  if imSvn a < imSvn b ∨ (imSvn a = imSvn b ∧ imBuild a < imBuild b) then 1 else 0

/-! ### The boot registers (R583) -/

def bootStatus (nv : NonVol) (d : Dev) : BitVec 32 :=
  let b := d.boot
  BitVec.ofNat 32 (b2n b.ready * 2 ^ 31 + b2n b.failed * 2 ^ 30 + b.phase % 16 * 2 ^ 26 + b.slot % 2 * 2 ^ 25 + b2n b.fallback * 2 ^ 24
    + b2n b.certMis * 2 ^ 23 + counterOf nv.fuses * 2 ^ 16 + b.failCode % 256 * 2 ^ 8 + b.failUnit % 16 * 2 ^ 4 + b2n b.cfgSkip * 2 ^ 3)

/-! ### Phases (R579) -/

/-- Both reset pins are high. -/
def pinsHigh (d : Dev) : Bool := d.pwr.resetN && d.pwr.perstN

/-- A cold or SYSTEM boot stands in a phase and may go on: the rails are on from phase 1, and phases 1 to 8 wait for the reset
pins (18 R644). -/
def inPhase (d : Dev) (p : Nat) : Bool :=
  decide (d.boot.kind = some .cold ∨ d.boot.kind = some .system) && d.boot.phase == p && !d.boot.failed
    && (p == 0 || (d.pwr.rails && pinsHigh d))

def setBoot (d : Dev) (f : Boot → Boot) : Dev := { d with boot := f d.boot }

/-- The boot stops; FAIL_CODE keeps the first failure (R583). -/
def bootFail (d : Dev) (unit detail : Nat) : Dev :=
  setBoot d (fun b => { b with kind := none, failed := true, ready := false, failUnit := unit, detail := detail,
                               failCode := if b.failCode = 0 then 0xF0 else b.failCode })

def nextPhase (d : Dev) (p : Nat) : Dev := setBoot d (fun b => { b with phase := p })

/-- Phase 0 begins, or waits for a valid reference (R579, R587; 18 R644). -/
def coldBegin (d : Dev) (kind : ResetKind) : Dev :=
  { out := d.out, freeCtr := d.freeCtr,
    pwr := { d.pwr with coldWait := false, trip := false, tripClk := false, pwrGood := false, readyPin := false, throttle := false },
    boot := { kind := some kind, phase := 0 } }

/-- COLD_START (R579): the input rises above 40 V. -/
def coldStart (vin : Nat) (d : Dev) : Dev :=
  if vin ≤ 40000 ∨ !d.pwr.ctrlOn ∨ d.pwr.rails ∨ d.boot.kind.isSome then d
  else
    let d1 : Dev := { d with pwr := { d.pwr with vin := vin } }
    if d.pwr.refOk then coldBegin d1 .cold else { d1 with pwr := { d1.pwr with coldWait := true } }

def execColdStart (vin : Nat) (s : State) : Host.Outcome State Fault Refusal := onPackage s (coldStart vin)

/-- RAILS_UP (R579, R587): PWR_GOOD rises at the end of phase 0. -/
def execRailsUp (s : State) : Host.Outcome State Fault Refusal :=
  onDev s (fun d => if inPhase d 0 && d.pwr.refOk then
    nextPhase { d with pwr := { d.pwr with rails := true, pwrGood := true } } 1 else d)

/-- PLL_LOCK (R521, R579). -/
def execPllLock (s : State) : Host.Outcome State Fault Refusal :=
  onDev s (fun d => if inPhase d 1 && d.pwr.refOk then nextPhase d 2 else d)

/-- ROT_SELF_TEST_DONE (R572, R579): the fuses have been sensed; a part that is not PRODUCTION does not boot. -/
def execRotSelfTestDone (ok : Bool) (s : State) : Host.Outcome State Fault Refusal :=
  onDev s (fun d => if inPhase d 2 then
      if ok && s.nv.fuses.lifecycle == 5 then
        setBoot (nextPhase d 3) (fun b => { b with partCode := s.nv.fuses.partCode, selfTest := true, tried := [] })
      else bootFail d 4 0
    else d)

/-- A good image is booted. -/
def bootImage (nv : NonVol) (k : Nat) (b : Boot) : Boot :=
  let h := imageHeader nv k
  { b with slot := k, svn := imSvn h, build := BitVec.ofNat 64 (imBuild h), keyIndex := field h 6 1, iflags := field h 7 1,
           fwMeas := sha256 (slice h 0 0xC0), phase := 4 }

/-- IMAGE_VERIFY (R576, R577): one slot; after the first one's failure the other. -/
def verifyImage (nv : NonVol) (d : Dev) : Dev :=
  if !inPhase d 3 then d
  else
    let k := match d.boot.tried with | [] => firstSlot nv | t :: _ => 1 - t.1
    let st := imageStatus nv k
    let d1 := setBoot d (fun b => { b with tried := b.tried ++ [(k, BitVec.ofNat 16 st)] })
    if st = stOk then setBoot d1 (bootImage nv k)
    else if d.boot.tried.isEmpty then setBoot d1 (fun b => { b with fallback := true, failCode := st, failUnit := 1 })
    else setBoot d1 (fun b => { b with kind := none, failed := true, ready := false, failUnit := 1 })

def execImageVerify (s : State) : Host.Outcome State Fault Refusal := onDev s (verifyImage s.nv)

/-- JENORNEB_START (R579). -/
def execJenornebStart (s : State) : Host.Outcome State Fault Refusal :=
  onDev s (fun d => if inPhase d 4 then nextPhase d 5 else d)

/-- LPDDR6_TRAINING_DONE (R579, R582): a subchannel that fails stops the boot. -/
def execLpddr6TrainingDone (failed : List Nat) (s : State) : Host.Outcome State Fault Refusal :=
  onDev s (fun d => if inPhase d 5 then
      (match failed with | [] => nextPhase d 6 | f :: _ => bootFail d 2 f) else d)

/-! ### Phase 7 (R594 to R596) -/

/-- A DER element: its tag, its content, and what follows it. -/
def derItem (bs : List Byte) : Option (Nat × List Byte × List Byte) :=
  match bs with
  | t :: l :: r =>
    let v := l.toNat
    let k := v - 128
    if v < 128 then (if r.length < v then none else some (t.toNat, r.take v, r.drop v))
    else if k = 0 ∨ 4 < k then none
    else
      let n := beNat (r.take k)
      let b := r.drop k
      if b.length < n then none else some (t.toNat, b.take n, b.drop n)
  | _ => none

/-- What follows n DER elements. -/
def derSkip : Nat → List Byte → Option (List Byte)
  | 0, bs => some bs
  | n + 1, bs => (derItem bs).bind (fun i => derSkip n i.2.2)

/-- The uncompressed P-256 key of an X.509 certificate, without its leading 0x04 (R571, R595). -/
def certKey (cert : List Byte) : Option (List Byte) := do
  let c ← derItem cert
  let t ← derItem c.2.1
  let v ← derItem t.2.1
  let body := if v.1 = 0xA0 then v.2.2 else t.2.1
  let rest ← derSkip 5 body
  let spki ← derItem rest
  let key ← derSkip 1 spki.2.1
  let b ← derItem key
  if b.1 = 3 ∧ b.2.1.length = 66 ∧ b.2.1.take 2 = [0#8, 4#8] then some (b.2.1.drop 2) else none

/-- The certificates of the certificate area: at most fuel of them, from an offset on (R573). -/
def certList (nv : NonVol) (off : Nat) : Nat → List (List Byte)
  | 0 => []
  | fuel + 1 =>
    if 65532 < off then []
    else
      let n := leNat (flashRead nv (0x4000000 + off) 4)
      if n = 0 ∨ 65536 < off + 4 + n then []
      else flashRead nv (0x4000000 + off + 4) n :: certList nv (off + 4 + n) fuel

def certs (nv : NonVol) : List (List Byte) := certList nv 0 16

/-- The identity check (R596). -/
def checkIdentity (nv : NonVol) (d : Dev) : Dev :=
  match (certs nv).head?.bind certKey with
  | none => setBoot d (fun b => { b with certMis := true, idPub := [] })
  | some k => setBoot d (fun b => { b with idPub := k, certMis := sha256 k != nv.fuses.idPubHash })

/-- Applies one entry of the configuration bundle; one that CFG.LOAD would refuse is skipped (R594). -/
def bundleEntry (d : Dev) (i kind inst : Nat) (t : List Byte) : Dev :=
  let ok := decide (0 < kind ∧ kind ≤ 0x0B ∧ t.length ≤ 2 ^ 24)
    && (if kind = 0x0A then (smFind d.ctxs inst).isSome else inst == 0) && (t.isEmpty || !lenBad kind t.length)
    && (match chkTable d kind inst t with | .ok _ => true | .error _ => false)
  if ok then loadTable d kind inst t
  else if d.boot.cfgSkip then d else setBoot d (fun b => { b with cfgSkip := true, detail := i })

/-- The entries of the bundle from an offset on (log 39). -/
def bundleFrom (nv : NonVol) (i off : Nat) : Nat → Dev → Dev
  | 0, d => d
  | fuel + 1, d =>
    let h := flashRead nv (0x4010000 + off) 8
    let n := field h 4 4
    if 2 ^ 22 < off + 8 + n ∨ field h 2 2 ≠ 0 then
      if d.boot.cfgSkip then d else setBoot d (fun b => { b with cfgSkip := true, detail := i })
    else bundleFrom nv (i + 1) (off + 8 + align64 n) fuel
      (bundleEntry d i (field h 0 1) (field h 1 1) (flashRead nv (0x4010000 + off + 8) n))

def applyBundle (nv : NonVol) (d : Dev) : Dev :=
  let h := flashRead nv 0x4010000 16
  if field h 0 4 = 0x4C444E42 ∧ field h 4 4 ≤ 256 then bundleFrom nv 0 16 (field h 4 4) d else d

/-- READY (R581): BOOT_STATUS is latched, and a CXL Reset is reported complete (17 R621). -/
def becomeReady (nv : NonVol) (d : Dev) : Dev :=
  let d1 := setBoot d (fun b => { b with kind := none, phase := 8, ready := true, joined := false, rinsed := false })
  let d2 : Dev := { d1 with pwr := { d1.pwr with readyPin := true },
                            host := { d1.host with cxlRstC := d1.host.cxlRstC || d.boot.memClr },
                            gov := { d1.gov with windowAt := d1.now } }
  setBoot d2 (fun b => { b with memClr := false, rinseHdm := false, latched := bootStatus nv d2 })

/-- BOOT_RINSE_DONE (R579, R585, R594, R596): after the rinse of a cold or SYSTEM boot the tables are put in force and the part is
ready; that of a FUNCTION reset ends the reset, or waits for the return to D0 (17 R622, R653). -/
def rinseDone (failed : List Nat) (nv : NonVol) (d : Dev) : Dev :=
  if inPhase d 6 then
    match failed with
    | f :: _ => bootFail d 3 f
    | [] =>
      let d1 : Dev := { nextPhase d 7 with tables := [], parts := partsFrom [] (partDefault d.boot.partCode), configGen := 0 }
      becomeReady nv (checkIdentity nv (applyBundle nv d1))
  else if d.boot.kind = some .function ∧ d.boot.rinsed = false then
    let d1 : Dev := if d.boot.rinseHdm then modMem d (fun m => { m with hdm := [] }) else d
    if d.boot.joined then setBoot d1 (fun b => { b with rinsed := true, rinseHdm := false }) else becomeReady nv d1
  else d

def execBootRinseDone (failed : List Nat) (s : State) : Host.Outcome State Fault Refusal := onDev s (rinseDone failed s.nv)

/-- BOOT_PHASE_TIMEOUT (R579, R583). -/
def execBootPhaseTimeout (s : State) : Host.Outcome State Fault Refusal :=
  onDev s (fun d =>
    if inPhase d 1 then bootFail d 6 0 else if inPhase d 2 then bootFail d 4 0 else if inPhase d 3 then bootFail d 5 0
    else if inPhase d 4 then bootFail d 7 0
    else if inPhase d 5 then (let (v, d1) := drawFree 16 d; bootFail d1 2 (v.toNat % 384))
    else if inPhase d 6 then (let (v, d1) := drawFree 16 d; bootFail d1 3 (if v.toNat % 128 < 96 then v.toNat % 128 else 0x100 + (v.toNat % 128 - 96)))
    else d)

/-- The lowest fuse bit that is not blown is blown. -/
def blowOne (v : BitVec 64) : BitVec 64 :=
  match (span 0 64).find? (fun i => !v.getLsbD i) with | some i => v ||| BitVec.ofNat 64 (2 ^ i) | none => v

/-- ANTI_ROLLBACK_RATCHET (R578): one bit is blown; the keys below are revoked with the last one. -/
def ratchet (d : Dev) (nv : NonVol) : NonVol :=
  if d.boot.ready && bit d.boot.iflags 0 && decide (counterOf nv.fuses < d.boot.svn) then
    let f : Fuses := { nv.fuses with antiRollback := blowOne nv.fuses.antiRollback }
    let f1 : Fuses := if counterOf f = d.boot.svn ∧ bit d.boot.iflags 1 = true then
      { f with keyRevoke := f.keyRevoke ||| BitVec.ofNat 4 (2 ^ d.boot.keyIndex - 1) } else f
    { nv with fuses := f1 }
  else nv

def execAntiRollbackRatchet (s : State) : Host.Outcome State Fault Refusal := .next { s with nv := ratchet s.dev s.nv }

/-! ### SYSTEM resets (R585, R587; 17 R621; 18 R644) -/

/-- A SYSTEM reset: phases 1 to 8 run again, preceded by phase 0 when the rails are off. -/
def sysReset (d : Dev) (stop : Nat) : Dev :=
  let d1 := endRun d stop 0
  { out := d.out, freeCtr := d.freeCtr,
    pwr := { d1.pwr with
      pwrGood := d.pwr.rails, readyPin := false, throttle := false, trip := false, tripClk := false, coldWait := false, tjHist := [] },
    boot := { kind := some .system, phase := if d.pwr.rails then 1 else 0 } }

/-- A reset pin goes low: one SYSTEM reset for both pins; a start in phase 0 goes on and then waits. -/
def pinLow (perst : Bool) (d : Dev) : Dev :=
  if (if perst then d.pwr.perstN else d.pwr.resetN) = false then d
  else
    let other := if perst then d.pwr.resetN else d.pwr.perstN
    let d1 : Dev := { d with pwr := if perst then { d.pwr with perstN := false } else { d.pwr with resetN := false } }
    if !d.pwr.ctrlOn || !(d.pwr.rails || d.pwr.trip) || (!other && !d.pwr.trip) then d1
    else sysReset d1 (if perst then 2 else 1)

/-- RESET_N_ASSERT (R585). -/
def execResetNAssert (s : State) : Host.Outcome State Fault Refusal := onPackage s (pinLow false)

/-- CONVENTIONAL_RESET (17 R621): by PERST_N, or over the link. -/
def execConventionalReset (perst : Bool) (s : State) : Host.Outcome State Fault Refusal :=
  onPackage s (fun d => if perst then pinLow true d
    else if d.pwr.ctrlOn && d.pwr.rails && pinsHigh d then sysReset d 2 else d)

/-- RESET_N_RELEASE (18 R644). -/
def execResetNRelease (perst : Bool) (s : State) : Host.Outcome State Fault Refusal :=
  onDev s (fun d => { d with pwr := if perst then { d.pwr with perstN := true } else { d.pwr with resetN := true } })

/-- REFCLK_VALID (18 R644): a waiting cold start begins. -/
def execRefclkValid (s : State) : Host.Outcome State Fault Refusal :=
  onDev s (fun d =>
    let d1 : Dev := { d with pwr := { d.pwr with refOk := true } }
    if d.pwr.coldWait && decide (40000 < d.pwr.vin) then coldBegin d1 .cold else d1)

/-- CLOCK_FAULT (13 R523). -/
def execClockFault (s : State) : Host.Outcome State Fault Refusal :=
  onPackage s (fun d => tripPart { d with pwr := { d.pwr with refOk := false } } 4 0)

/-- INPUT_LOSS (13 R535; 18 R630): the input stays below 38 V for 50 µs, or falls below 30 V. -/
def inputLoss (vin : Nat) (d : Dev) : Dev :=
  if 38000 ≤ vin then d
  else
    let d1 : Dev := { d with pwr := { d.pwr with vin := vin, vinOut := d.pwr.vinOut || d.pwr.rails, coldWait := false } }
    if d.pwr.rails || d.boot.kind.isSome then railsOff (if 36000 < vin then endRun d1 5 0 else d1) else d1

def execInputLoss (vin : Nat) (s : State) : Host.Outcome State Fault Refusal := onPackage s (inputLoss vin)

/-! ### FUNCTION resets (R585, R586; 17 R621, R622, R653, R654) -/

/-- A half-port whose received packets a FUNCTION reset drops: their credits are owed, and its pauses end (10 R398, R406). -/
def emptied (d : Dev) (h : Nat) (p : HalfPort) : HalfPort :=
  let mine (vc : Nat) : List Packet := (d.fabric.rxq.filter (fun q => q.1 == h && q.2.vc == vc)).map (·.2)
  { p with rxFill := [0, 0, 0, 0], pausing := [false, false, false, false],
           owed := if portConfig d h = 1 then (span 0 4).map (fun vc => nth 0 p.owed vc + ((mine vc).map packetCredits).sum) else p.owed }

/-- The ends of those pauses, as they are sent. -/
def pausesEnd (d : Dev) : List OutMsg :=
  d.fabric.ports.flatMap (fun q => ((span 0 4).filter (fun vc => nth false q.2.pausing vc)).map (fun vc => .pfc q.1 (fabPcp d vc) false))

/-- A FUNCTION reset begins: every context ends, and the hub, the engines, the cupboard and the LPDDR6 outside the HDM-DB backing
begin again. The link dies keep their ports, connections and TAGs; an outstanding request has lost its requester. -/
def funcReset (d : Dev) : Dev :=
  let d1 := (d.ctxs.map (·.1)).foldl clearEntries (endRun d 6 0)
  let retired := d.mem.frames.filterMap (fun f => match f.2 with
    | .retired => some (f.1, FrameState.retired) | .retiredUsed => some (f.1, FrameState.retired)
    | .retiredRinsing => some (f.1, FrameState.retired) | _ => none)
  { now := d.now, freeCtr := d.freeCtr, out := pausesEnd d ++ d.out,
    pwr := { d1.pwr with readyPin := false, throttle := false },
    boot := { d.boot with kind := some .function, ready := false, joined := false, rinsed := false, rinseHdm := false, memClr := false },
    flashIf := d.flashIf, spdm := { d.spdm with ideMem := false, ideIo := false },
    host := { linkUp := d.host.linkUp, width := d.host.width, gts := d.host.gts, bme := d.host.bme, d3hot := d.host.d3hot,
              decoder := d.host.decoder, deviceId := d.host.deviceId },
    tables := d1.tables, tally := { edges := d.tally.edges },
    mem := { hdm := d.mem.hdm, frames := retired, scrub := d.mem.scrub, refresh := d.mem.refresh },
    parts := d.parts.map (fun p => (p.1, { p.2 with charge := 0, pool := [] })),
    fabric := { ports := d.fabric.ports.map (fun q => (q.1, emptied d q.1 q.2)), conns := d.fabric.conns, nextTag := d.fabric.nextTag,
                outst := d.fabric.outst.map (fun o => (o.1, { o.2 with dead := true, at_ := d.now })) },
    gov := { windowAt := d.now, temps := d.gov.temps } }

/-- The part runs, or a FUNCTION reset is under way: a further one can begin or be joined (17 R654). -/
def mayFunc (d : Dev) : Bool := d.pwr.rails && (d.boot.ready || decide (d.boot.kind = some .function))

def setHost (d : Dev) (f : HostIf → HostIf) : Dev := { d with host := f d.host }

/-- The return to D0 completes a reset that waits for it (17 R622, R653). -/
def leaveD3 (nv : NonVol) (d : Dev) : Dev :=
  let d1 := setHost d (fun h => { h with d3hot := false })
  if d.boot.kind = some .function ∧ d.boot.joined = true then
    if d.boot.rinsed then becomeReady nv d1 else setBoot d1 (fun b => { b with joined := false })
  else d1

/-- FUNCTION_LEVEL_RESET (17 R621, R652 to R654). -/
def execFunctionLevelReset (s : State) : Host.Outcome State Fault Refusal :=
  onDev s (fun d =>
    let d1 := setHost d (fun h => { h with bme := false })
    if d.boot.ready && d.pwr.rails then setHost (funcReset d1) (fun h => { h with d3hot := false }) else leaveD3 s.nv d1)

/-- CXL_RESET (17 R621, R653, R654). -/
def execCxlReset (memClr : Bool) (s : State) : Host.Outcome State Fault Refusal :=
  onDev s (fun d =>
    let mark (d : Dev) : Dev := setBoot (setHost d (fun h => { h with cxlRstC := false })) (fun b =>
      { b with memClr := true, rinseHdm := b.rinseHdm || memClr })
    if d.boot.ready && d.pwr.rails then mark (funcReset d)
    else if d.boot.kind.isSome then
      -- a rinse of the joined reset that has ended begins again for the backing
      let d1 := mark d
      if memClr && d.boot.rinsed then setBoot d1 (fun b => { b with rinsed := false }) else d1
    else d)

/-- D3HOT_ENTRY (17 R622, R654). -/
def execD3hotEntry (s : State) : Host.Outcome State Fault Refusal :=
  onDev s (fun d =>
    let join (d : Dev) : Dev := setBoot d (fun b => { b with joined := true })
    if d.host.d3hot then d
    else
      let d1 := setHost d (fun h => { h with d3hot := true })
      if d.boot.ready && d.pwr.rails then join (funcReset d1)
      else if d.boot.kind = some .function then join d1 else d1)

/-- D0_RETURN (17 R622, R652). -/
def execD0Return (s : State) : Host.Outcome State Fault Refusal :=
  onDev s (fun d => if d.host.d3hot then leaveD3 s.nv (setHost d (fun h => { h with bme := false })) else d)

/-! ### The module power controller (18 R629 to R636) -/

/-- MGMT_CONTROLLER_START (18 R629, R635): the input exceeds 36 V. -/
def execMgmtControllerStart (vin : Nat) (straps : Fin 8) (s : State) : Host.Outcome State Fault Refusal :=
  onDev s (fun d => if 36000 < vin ∧ d.pwr.ctrlOn = false then
      { d with pwr := { d.pwr with
          vin := vin, ctrlOn := true, straps := straps, cause := 0, trip := false, tripClk := false, vinOut := false,
          rStatus := 0, rVin := 0, rIin := 0, rPin := 0, rPlate := 0, rCause := 0,
          rTj := if d.pwr.rails then d.pwr.rTj else 0x8000#16, tjMax := if d.pwr.rails then d.pwr.tjMax else 0x8000#16 } }
    else d)

/-- MGMT_CONTROLLER_STOP (18 R629, 16 R584): BOOT_CAUSE is lost, and a trip ends with the power cycle. -/
def execMgmtControllerStop (s : State) : Host.Outcome State Fault Refusal :=
  onDev s (fun d => { d with pwr := { d.pwr with ctrlOn := false, cause := 0, trip := false, tripClk := false } })

/-- STATUS of the management bus (18 R636). -/
def mgmtStatus (d : Dev) : BitVec 16 :=
  let p := d.pwr
  BitVec.ofNat 16 (b2n p.pwrGood * 2 ^ 15 + b2n p.readyPin * 2 ^ 14 + b2n p.throttle * 2 ^ 13 + b2n (p.trip && !p.tripClk) * 2 ^ 12
    + b2n (p.trip && p.tripClk) * 2 ^ 11 + b2n d.boot.failed * 2 ^ 10 + b2n p.vinOut * 2 ^ 9)

/-- MGMT_REFRESH (18 R636): the measured current, power and plate temperature are open. -/
def execMgmtRefresh (s : State) : Host.Outcome State Fault Refusal :=
  onDev s (fun d => if d.pwr.ctrlOn then
      let (i, d1) := drawFree 16 d
      let (w, d2) := drawFree 16 d1
      let (t, d3) := drawFree 16 d2
      { d3 with pwr := { d3.pwr with
          rStatus := mgmtStatus d, rVin := BitVec.ofNat 16 (d.pwr.vin / 10), rIin := i, rPin := w, rPlate := t, rTj := d.pwr.tjMax,
          rCause := d.pwr.cause.setWidth 16, vinOut := false } }
    else d)

/-- A register of the management bus as a read returns it, little-endian; none where no register has the code, or the controller
does not run (18 R635, R636). A read changes nothing, so the command table has no row for it. -/
def mgmtReg (nv : NonVol) (d : Dev) (code : Nat) : Option (List Byte) :=
  let p := d.pwr
  let w (v : BitVec 16) : Option (List Byte) := some (natLe 2 v.toNat)
  if !p.ctrlOn then none
  else match code with
    | 0 => w 0x0960#16 | 1 => w p.rStatus | 2 => w p.rVin | 3 => w p.rIin | 4 => w p.rPin | 5 => w p.rPlate | 6 => w p.rTj | 7 => w p.rCause
    | 8 => some (natLe 8 nv.fuses.serial.toNat) | 9 => some (natLe 1 nv.fuses.partCode)
    | _ => none

/-- MGMT_WRITE (18 R635): answered with NACK. -/
def execMgmtWrite (_reg _value : Nat) (s : State) : Host.Outcome State Fault Refusal :=
  onDev s (fun d => if d.pwr.ctrlOn then emit d .smbNack else d)

end Sys2Proof.Machine
end

