-- ==== Sys2Proof/Machine/Host.lean ====
section
/-! DEFINITION. The host attachment: BAR0, the flash update window, the HDM-DB window, host reads, and the DOE mailbox (16 R573, R574,
R583, R584; 17 R604 to R623, R652). -/

namespace Sys2Proof.Machine

/-- The link is up and the function answers (R605; 16 R581). -/
def linkHere (d : Dev) : Bool := d.pwr.rails && d.host.linkUp

/-! ### Queue 0 (R613) -/

def cfgMsix (v : Nat) : Nat := bits v 24 16
def cfgCq (v : Nat) : Nat := bits v 12 8
def cfgSq (v : Nat) : Nat := bits v 4 0

/-- Q0_CFG with its RsvdZ bits zero. -/
def cfgFields (v : Nat) : Nat := cfgMsix v * 2 ^ 16 + cfgCq v * 2 ^ 8 + cfgSq v

/-- Writes of the Q0 registers are heard: the part is READY and ENABLE is 0. -/
def q0Open (d : Dev) : Bool := d.boot.ready && !d.host.q0Cfg.getLsbD 31

/-- The values that ENABLE is refused for: a base misaligned or a field out of range. -/
def q0Bad (d : Dev) (v : Nat) : Bool :=
  d.host.q0Sq.toNat % 4096 != 0 || d.host.q0Cq.toNat % 4096 != 0 || outside 6 16 (cfgSq v) || outside 6 16 (cfgCq v)
    || decide (2 ^ 36 < d.host.q0Sq.toNat + 64 * 2 ^ cfgSq v)

/-- Queue 0 as ENABLE makes it (R613; 02 R29). -/
def queueZero (d : Dev) (v : Nat) : Queue :=
  { state := .active, sqBase := d.host.q0Sq, cqBase := d.host.q0Cq, sqLog2 := cfgSq v, cqLog2 := cfgCq v, partition := none, weight := 16,
    retainLog2 := 12, msix := BitVec.ofNat 16 (cfgMsix v), maxInflight := 1024, slotLog2 := 16, slotCount := 64 }

/-- A write of ENABLE 1. -/
def enableQ0 (d : Dev) (v : Nat) : Dev :=
  if !q0Open d then d
  else if q0Bad d v then setHost d (fun h => { h with q0Cfg := BitVec.ofNat 32 (cfgFields v + 2 ^ 30) })
  else setQueue (setHost d (fun h => { h with q0Cfg := BitVec.ofNat 32 (cfgFields v + 2 ^ 31) })) 0 (queueZero d v)

/-- A write of Q0_CFG: CFG_ERR keeps what the last write of ENABLE gave it. -/
def writeQ0Cfg (d : Dev) (v : Nat) : Dev :=
  if bit v 31 then enableQ0 d v
  else if q0Open d then setHost d (fun h => { h with q0Cfg := BitVec.ofNat 32 (cfgFields v + bits h.q0Cfg.toNat 30 30 * 2 ^ 30) })
  else d

/-- Q0_CFG_ENABLE (R613). -/
def execQ0CfgEnable (value : BitVec 32) (s : State) : Host.Outcome State Fault Refusal :=
  onDev s (fun d => if linkHere d then enableQ0 d value.toNat else d)

/-! ### DEVICE_ID (R612) -/

def writeDeviceId (d : Dev) (v : Nat) : Dev :=
  if (span 0 36).all (fun h => decide ((portOf d h).state = .off)) then
    setHost d (fun h => { h with deviceId := BitVec.ofNat 32 (v % 2 ^ 13) })
  else d

/-- DEVICE_ID_WRITE (R612). -/
def execDeviceIdWrite (value : BitVec 32) (s : State) : Host.Outcome State Fault Refusal :=
  onDev s (fun d => if linkHere d then writeDeviceId d value.toNat else d)

/-! ### The flash update window (R615; 16 R574) -/

/-- Bytes from a to a + n meet the booted slot or the certificate area. -/
def flashGuarded (d : Dev) (a n : Nat) : Bool :=
  (decide (a < slotBase d.boot.slot + 2 ^ 25) && decide (slotBase d.boot.slot < a + n))
    || (decide (a < 0x4010000) && decide (0x4000000 < a + n))

def setFlash (d : Dev) (f : FlashIf → FlashIf) : Dev := { d with flashIf := f d.flashIf }

/-- The operation cannot be done: FLASH_ADDR is not aligned to its size, or the region is protected. -/
def flashRefused (d : Dev) (op : FlashOp) : Bool :=
  let a := d.flashIf.addr.toNat
  let n := flashOpBytes op
  a % n != 0 || (decide (op ≠ .read) && flashGuarded d a n)

/-- The flash buffer as bytes. -/
def bufBytes (f : FlashIf) : List Byte := (span 0 4096).map (smGet 0#8 f.buf)

/-- FLASH_CTRL with GO: a READ is done at once, a PROGRAM or ERASE ends with FLASH_OP_COMPLETE. -/
def flashGo (op : FlashOp) (nv : NonVol) (d : Dev) : Dev :=
  if !linkHere d || !d.boot.ready || d.flashIf.busy.isSome then d
  else if flashRefused d op then setFlash d (fun f => { f with refused := true })
  else match op with
    | .read => setFlash d (fun f => { f with
        buf := (span 0 4096).foldl (fun m i => smSet 0#8 m i (flashByte nv (f.addr.toNat + i))) f.buf })
    | op => setFlash d (fun f => { f with busy := some (op, f.addr.toNat) })

/-- FLASH_READ (R615). -/
def execFlashRead (s : State) : Host.Outcome State Fault Refusal := onDev s (flashGo .read s.nv)

/-- FLASH_PROGRAM (R615). -/
def execFlashProgram (s : State) : Host.Outcome State Fault Refusal := onDev s (flashGo .program s.nv)

/-- FLASH_ERASE (R615). -/
def execFlashErase (s : State) : Host.Outcome State Fault Refusal := onDev s (flashGo .erase s.nv)

/-- A range written whole is torn no longer where it covers. -/
def mendTorn (nv : NonVol) (a n : Nat) : NonVol :=
  { nv with torn := nv.torn.filter (fun t => !(decide (a ≤ t.1) && decide (t.1 + t.2 ≤ a + n))) }

/-- The flash after an operation. -/
def flashEffect (nv : NonVol) (buf : List Byte) (op : FlashOp) (a : Nat) : NonVol :=
  match op with
  | .read => nv
  | .program => mendTorn (flashPut nv a buf) a 4096
  | .erase => mendTorn (flashWipe nv a 65536) a 65536

/-- FLASH_OP_COMPLETE (R615): a flash fault sets ERROR and leaves the bytes of the operation open (log 16). -/
def execFlashOpComplete (failed : Bool) (s : State) : Host.Outcome State Fault Refusal :=
  match s.dev.flashIf.busy with
  | none => .next s
  | some (op, a) =>
    if failed then
      .next { s with
        nv := tearFlash s.nv s.dev.freeCtr op a,
        dev := setFlash { s.dev with freeCtr := s.dev.freeCtr + 1 } (fun f => { f with busy := none, error := true }) }
    else
      .next { s with nv := flashEffect s.nv (bufBytes s.dev.flashIf) op a, dev := setFlash s.dev (fun f => { f with busy := none }) }

/-- FLASH_STATUS (R615). -/
def flashStatus (f : FlashIf) : Word := BitVec.ofNat 32 (b2n f.busy.isSome * 2 ^ 31 + b2n f.refused * 2 + b2n f.error)

/-- A write of FLASH_CTRL. -/
def writeFlashCtrl (nv : NonVol) (d : Dev) (v : Nat) : Dev :=
  if !bit v 31 then d
  else match bits v 1 0 with
    | 0 => flashGo .read nv d
    | 1 => flashGo .program nv d
    | 2 => flashGo .erase nv d
    | _ => if d.boot.ready && d.flashIf.busy.isNone then setFlash d (fun f => { f with refused := true }) else d

/-! ### Host windows and MSI-X (R611, R614) -/

/-- A host window's BASE and LIMIT. -/
def hostWin (d : Dev) (k : Nat) : BitVec 64 × BitVec 64 :=
  smGet (if k % 4 = 0 then (0#64, 0xFFFFFFFFFFFFFFFF#64) else (1#64, 0#64)) d.host.win k

/-- A 64-bit value with one of its words replaced. -/
def putHalf (old : BitVec 64) (high : Bool) (v : Nat) : BitVec 64 :=
  if high then BitVec.ofNat 64 (old.toNat % 2 ^ 32 + v * 2 ^ 32) else BitVec.ofNat 64 (old.toNat / 2 ^ 32 * 2 ^ 32 + v)

/-- A write of a word of HOST_WIN, o bytes from its start. -/
def writeWin (d : Dev) (o v : Nat) : Dev :=
  let k := o / 16
  let w := hostWin d k
  let h := bit o 2
  setHost d (fun x => { x with win := smPut x.win k (if bit o 3 then (w.1, putHalf w.2 h v) else (putHalf w.1 h v, w.2)) })

/-- A write of a word of the MSI-X table: a vector that is pending and no longer masked is sent (log 3). -/
def writeMsix (d : Dev) (o v : Nat) : Dev :=
  let k := o / 16
  let i := 32 * (o % 16 / 4)
  let e := (msixEntry d k).toNat
  let n := BitVec.ofNat 128 (e - e / 2 ^ i % 2 ^ 32 * 2 ^ i + v * 2 ^ i)
  let d1 := setHost d (fun x => { x with msixTab := smSet (1#128 <<< 96) x.msixTab k n })
  if d1.host.pba.contains k && !n.getLsbD 96 then
    emit (setHost d1 (fun x => { x with pba := x.pba.filter (fun j => j != k) })) (.msix k)
  else d1

/-! ### Writes of BAR0 (R611; 01 R10) -/

/-- A write of one 32-bit word of BAR0; what is not listed is ignored. -/
def writeWord (nv : NonVol) (d : Dev) (off v : Nat) : Dev :=
  if off % 4 ≠ 0 then d
  else if off = 0x0C then writeDeviceId d v
  else if off = 0x10 ∨ off = 0x14 then
    (if q0Open d then setHost d (fun h => { h with q0Sq := putHalf h.q0Sq (off == 0x14) v }) else d)
  else if off = 0x18 ∨ off = 0x1C then
    (if q0Open d then setHost d (fun h => { h with q0Cq := putHalf h.q0Cq (off == 0x1C) v }) else d)
  else if off = 0x20 then writeQ0Cfg d v
  else if off = 0x28 then setFlash d (fun f => { f with addr := BitVec.ofNat 32 v })
  else if off = 0x2C then writeFlashCtrl nv d v
  else if off = 0x30 then setFlash d (fun f => { f with refused := f.refused && !bit v 1, error := f.error && !bit v 0 })
  else if 0x100 ≤ off ∧ off < 0x300 then writeWin d (off - 0x100) v
  else if 0x1000 ≤ off ∧ off < 0x2000 then
    setFlash d (fun f => { f with
      buf := (span 0 4).foldl (fun m i => smSet 0#8 m (off - 0x1000 + i) (BitVec.ofNat 8 (v / 256 ^ i))) f.buf })
  else if 0x10000 ≤ off ∧ off < 0x10090 then
    modPort d ((off - 0x10000) / 4) (fun p => { p with peerMismatch := p.peerMismatch && !bit v 26 })
  else if 0x20000 ≤ off ∧ off < 0x22000 then writeMsix d (off - 0x20000) v
  else if 0x100000 ≤ off ∧ off < 0x200000 then
    (match off % 4096 with
      | 0 => ringSubmission (off / 4096 - 256) v d
      | 4 => ringCompletion (off / 4096 - 256) v d
      | 8 => modQueue d (off / 4096 - 256) (fun q => { q with dbRange := q.dbRange && !bit v 29 })
      | _ => d)
  else d

/-- A write of 4 or 8 bytes. -/
def writeBar (nv : NonVol) (off : Nat) (wide : Bool) (v : Nat) (d : Dev) : Dev :=
  if !linkHere d then d
  else
    let d1 := writeWord nv d off (v % 2 ^ 32)
    if wide then writeWord nv d1 (off + 4) (v / 2 ^ 32) else d1

/-- REGISTER_WRITE (01 R10; R611). -/
def execRegisterWrite (off : Nat) (wide : Bool) (value : BitVec 64) (s : State) : Host.Outcome State Fault Refusal :=
  onDev s (writeBar s.nv off wide value.toNat)

/-! ### Reads of BAR0 (R611; 16 R581, R583, R584)

A read changes nothing, so the command table has no row for it: these are the values that the host sees. -/

def portCode : PState → Nat
  | .off => 0 | .down => 1 | .detect => 2 | .an => 3 | .train => 4 | .align => 5 | .ident => 6 | .up => 7

/-- The status register of a half-port (10 R417). -/
def portStatus (p : HalfPort) : Nat :=
  portCode p.state * 2 ^ 29 + b2n p.degraded * 2 ^ 28 + b2n p.digestDiff * 2 ^ 27 + b2n p.peerMismatch * 2 ^ 26
    + p.peer % 2 ^ 13 * 2 ^ 13 + p.laneOk.toNat * 2 ^ 5

/-- A word of a queue page (02 R37, R38). -/
def queueWord (d : Dev) (q o : Nat) : Nat :=
  let v := queueOf d q
  match o with
  | 8 => (queueStatus v).toNat
  | 0x0C => v.nextDevSeq.toNat
  | 0x10 => v.expHostSeq.toNat
  | _ => 0

/-- A 32-bit word of BAR0 as a read returns it; until READY the Kyongo registers read as zero. -/
def barWord (nv : NonVol) (d : Dev) (off : Nat) : Nat :=
  if off = 0 then (bootStatus nv d).toNat
  else if off = 4 then d.boot.detail % 2 ^ 32
  else if off = 8 then d.pwr.cause.toNat
  else if !d.boot.ready then 0
  else if off = 0x0C then d.host.deviceId.toNat
  else if off = 0x10 ∨ off = 0x14 then d.host.q0Sq.toNat / 2 ^ (8 * (off - 0x10)) % 2 ^ 32
  else if off = 0x18 ∨ off = 0x1C then d.host.q0Cq.toNat / 2 ^ (8 * (off - 0x18)) % 2 ^ 32
  else if off = 0x20 then d.host.q0Cfg.toNat
  else if off = 0x28 then d.flashIf.addr.toNat
  else if off = 0x30 then (flashStatus d.flashIf).toNat
  else if 0x100 ≤ off ∧ off < 0x300 then
    let w := hostWin d ((off - 0x100) / 16)
    (if bit off 3 then w.2 else w.1).toNat / 2 ^ (8 * (off % 8)) % 2 ^ 32
  else if 0x1000 ≤ off ∧ off < 0x2000 then leNat ((span (off - 0x1000) 4).map (smGet 0#8 d.flashIf.buf))
  else if 0x10000 ≤ off ∧ off < 0x10090 then portStatus (portOf d ((off - 0x10000) / 4))
  else if 0x20000 ≤ off ∧ off < 0x22000 then (msixEntry d ((off - 0x20000) / 16)).toNat / 2 ^ (8 * (off % 16)) % 2 ^ 32
  else if 0x22000 ≤ off ∧ off < 0x22040 then
    ((d.host.pba.filter (fun v => v / 32 == (off - 0x22000) / 4)).map (fun v => 2 ^ (v % 32))).sum
  else if 0x100000 ≤ off ∧ off < 0x200000 then queueWord d (off / 4096 - 256) (off % 4096)
  else if 0x400000 ≤ off ∧ off < 0x800000 then leNat ((span (off - 0x400000) 4).map (storeByte d))
  else 0

/-! ### The HDM-DB window (R609, R610) -/

/-- The window is served. -/
def hdmOpen (d : Dev) : Bool := d.boot.ready && d.host.decoder

/-- HDM_MEM_REQUEST (R609): a read returns its 64-byte line. -/
def hdmRequest (write : Bool) (off : Nat) (data : List Byte) (d : Dev) : Dev :=
  if !d.pwr.rails || decide (2 ^ 36 ≤ off) then d
  else if write then
    (if hdmOpen d && decide (off % 64 + data.length ≤ 64) then modMem d (fun m => { m with hdm := memWrite m.hdm off data }) else d)
  else emit d (if hdmOpen d then .memData (memRead d.mem.hdm (off / 64 * 64) 64) false else .memData [] true)

def execHdmMemRequest (write : Bool) (off : Nat) (data : List Byte) (s : State) : Host.Outcome State Fault Refusal :=
  onDev s (hdmRequest write off data)

/-- BACK_INVALIDATE_RESPONSE (R610): the host has written back the line, if it held it modified. -/
def gotBiRsp (off : Nat) (data : List Byte) (d : Dev) : Dev :=
  let l := off / 64
  if d.host.snooping.contains l then
    let d1 := modMem d (fun m => { m with hdm := memWrite m.hdm (64 * l) data })
    setHost d1 (fun h => { h with snooping := h.snooping.filter (fun k => k != l), snooped := h.snooped ++ [l] })
  else d

def execBackInvalidateResponse (off : Nat) (data : List Byte) (s : State) : Host.Outcome State Fault Refusal :=
  if data.length = 0 ∨ data.length = 64 then onDev s (gotBiRsp off data) else .fault .illFormed

/-! ### Reads of host memory (R616 to R618) -/

/-- Takes the first line in flight with the address: its use. -/
def takeLine (d : Dev) (addr : Nat) : Option (ReadFor × Dev) :=
  match d.host.inFlight.find? (fun l => l.1 == addr) with
  | none => none
  | some l => some (l.2, setHost d (fun h => { h with inFlight := h.inFlight.erase l }))

/-- The bytes of a returned line that a range asks for. -/
def storeLine (w : HostWant) (addr : Nat) (data : List Byte) : HostWant :=
  { w with
    left := w.left - 1,
    got := (span 0 64).foldl (fun m i =>
      if w.addr ≤ addr + i ∧ addr + i < w.addr + w.len then memSet m (addr + i - w.addr) (nth 0#8 data i) else m) w.got }

/-- The range that asked for a line. -/
def wantFor (d : Dev) (use : ReadFor) (addr : Nat) : Option HostWant :=
  d.host.reads.find? (fun w => decide (w.use = use) && decide (w.addr / 64 * 64 ≤ addr) && decide (addr < w.addr + w.len))

/-- HOST_READ_COMPLETE (R616). -/
def gotLine (addr : Nat) (data : List Byte) (d : Dev) : Dev :=
  match takeLine d addr with
  | none => d
  | some (use, d1) =>
    let d2 := match wantFor d1 use addr with
      | none => d1
      | some w => setHost d1 (fun h => { h with reads := h.reads.map (fun x => if x = w then storeLine w addr data else x) })
    pumpReads 4096 d2

def execHostReadComplete (addr : Nat) (data : List Byte) (s : State) : Host.Outcome State Fault Refusal :=
  if data.length = 64 then onDev s (gotLine addr data) else .fault .illFormed

/-- What a failed read ends (R618): a command, a recall, or the restoring of a context. -/
def failUse (d : Dev) (use : ReadFor) (addr : Nat) : Dev :=
  match use with
  | .cmd cid =>
    (match smFind d.cmds cid with
      | none => d
      | some c =>
        let d1 := modCmd (dropWant d use) cid (fun c => { c with hostErr := true, errAddr := addr })
        if opcodeC c = 0x0501 then d1
        else finishCmd (undoReserve d1 cid) cid stDeviceFault 0x0007 [(0x18, 8, addr)] none)
  | .move ctx page =>
    modMem d (fun m => { m with moves := m.moves.map (fun v =>
      if v.ctx = ctx ∧ v.page ≤ page ∧ page < v.page + max 1 v.slow.length ∧ v.failAt.isNone then { v with failAt := some addr } else v) })
  | .image ctx _ =>
    let d1 := setHost d (fun h => { h with reads := h.reads.filter (fun w => match w.use with | .image c _ => c != ctx | _ => true) })
    match (smFind d1.ctxs ctx).bind (·.moveCid) with
    | none => d1
    | some cid => modCtx (finishCmd d1 cid stDeviceFault 0x0007 [(0x18, 8, addr)] none) ctx (fun x => { x with moveCid := none })

/-- HOST_READ_ERROR (R618). -/
def lineError (addr : Nat) (d : Dev) : Dev :=
  match takeLine d addr with
  | none => d
  | some (use, d1) => pumpReads 4096 (if (wantFor d1 use addr).isSome then failUse d1 use addr else d1)

def execHostReadError (addr : Nat) (s : State) : Host.Outcome State Fault Refusal := onDev s (lineError addr)

/-- HOST_SNOOP (R616): the part holds no line. -/
def execHostSnoop (_addr : Nat) (s : State) : Host.Outcome State Fault Refusal :=
  onDev s (fun d => if linkHere d then emit d .snoopResp else d)

/-! ### Bus Master Enable (R617, R652) -/

/-- Commands that wait for host memory while Bus Master Enable is 0. -/
def stalledCmds (d : Dev) : List Nat :=
  d.host.reads.filterMap (fun w => match w.use with | .cmd c => some c | _ => none)
    ++ d.mem.moves.filterMap (fun m => if m.dest.isNone || !m.slow.isEmpty then m.cid else none)

/-- BUS_MASTER_ENABLE_SET (R652): reads are issued and records written. -/
def setBme (d : Dev) : Dev :=
  if !linkHere d || d.host.bme then d
  else
    let d1 : Dev := { d with cmds := d.cmds.map (fun p => (p.1, { p.2 with bmeFrom := none, bmeFor := bmeWaited d p.2 })) }
    let d2 := pumpReads 4096 (setHost d1 (fun h => { h with bme := true }))
    settleEnds ((d2.queues.map (·.1)).foldl drainQueue d2)

def execBusMasterEnableSet (s : State) : Host.Outcome State Fault Refusal := onDev s setBme

/-- BUS_MASTER_ENABLE_CLEAR (R617): commands that need host memory wait from now on. -/
def execBusMasterEnableClear (s : State) : Host.Outcome State Fault Refusal :=
  onDev s (fun d => (stalledCmds d).foldl stallBme (setHost d (fun h => { h with bme := false })))

/-! ### The link and the mailbox (R604 to R608) -/

/-- CXL_LINK_TRAINED (R605): the link comes up at an allowed width and rate; the host's decoder is then committed (log 40). -/
def execCxlLinkTrained (width gts : Nat) (s : State) : Host.Outcome State Fault Refusal :=
  onDev s (fun d =>
    if d.pwr.rails ∧ 1 ≤ d.boot.phase ∧ (width = 8 ∨ width = 16) ∧ (gts = 32 ∨ gts = 64) then
      setHost d (fun h => { h with linkUp := true, width := width, gts := gts, decoder := true })
    else d)

/-- An entry of the CDAT (R608; its layout: log 41). -/
def cdatBody (d : Dev) : List (List Byte) :=
  let lbis (kind base v : Nat) : List Byte :=
    [1#8, 0#8] ++ natLe 2 24 ++ [0#8, 0#8] ++ natLe 1 kind ++ [0#8] ++ natLe 8 base ++ natLe 2 v ++ natLe 6 0
  [[0#8, 0#8] ++ natLe 2 24 ++ natLe 4 0 ++ natLe 8 0 ++ natLe 8 (2 ^ 36), lbis 1 1000 400, lbis 2 1000 400,
    lbis 3 10 (linkRate d * 100 / 1024)]

/-- The CDAT entries, header first. -/
def cdatEntries (d : Dev) : List (List Byte) :=
  let body := cdatBody d
  let n := 16 + (body.map List.length).sum
  let head (sum : Nat) : List Byte := natLe 4 n ++ [1#8] ++ natLe 1 sum ++ natLe 10 0
  let total := ((head 0 ++ body.flatten).map BitVec.toNat).sum
  head ((256 - total % 256) % 256) :: body

/-- CDAT_TABLE_ACCESS (R608). -/
def execCdatTableAccess (entry : Nat) (s : State) : Host.Outcome State Fault Refusal :=
  onDev s (fun d =>
    let l := cdatEntries d
    if linkHere d && decide (entry < l.length) then
      emit d (.cdat (natLe 2 0 ++ natLe 2 (if entry + 1 < l.length then entry + 1 else 0xFFFF) ++ nth [] l entry))
    else d)

/-- The protocols of the mailbox: vendor and type (R604; identifiers: log 41). -/
def doeProtocols : List (Nat × Nat) := [(0x0001, 0), (0x0001, 1), (0x0001, 2), (0x1E98, 2)]

/-- DOE_DISCOVERY (R604). -/
def execDoeDiscovery (index : Nat) (s : State) : Host.Outcome State Fault Refusal :=
  onDev s (fun d =>
    if linkHere d then
      let (v, t) := nth (0xFFFF, 0) doeProtocols index
      emit d (.doe (natLe 2 v ++ natLe 1 t ++ natLe 1 (if index + 1 < doeProtocols.length then index + 1 else 0)))
    else d)

/-- GLOBAL_PERSISTENT_FLUSH (R604): acknowledged at once. -/
def execGlobalPersistentFlush (s : State) : Host.Outcome State Fault Refusal :=
  onDev s (fun d => if linkHere d then emit d .gpfAck else d)

end Sys2Proof.Machine
end

