-- ==== Sys2Proof/Machine/Attest.lean ====
section
/-! DEFINITION. PART.INFO, ATTEST.REPORT, and the SPDM responder (16 R595 to R601; 17 R620). The layouts of SPDM messages are those of
SPDM 1.2 (log 42); signatures and the values that need the private keys are free (log 13). -/

namespace Sys2Proof.Machine

/-- n free bytes. -/
def freeBytes (d : Dev) (n : Nat) : List Byte × Dev := ((span 0 n).map (Config.freeByte d.freeCtr), { d with freeCtr := d.freeCtr + 1 })

/-! ### PART.INFO (R597) -/

def installedGib (partCode : Nat) : Nat := if partCode = 2 then 1536 else 3072

def chkPartInfo (c : Cmd) : Chk Unit := chkFields (resv c.hdr 0x10 44 ++ resv c.hdr 0x3E 2)

/-- The status of an image slot as last verified. -/
def triedStatus (d : Dev) (k : Nat) : Nat :=
  match d.boot.tried.find? (fun t => t.1 == k) with | some t => t.2.toNat | none => 0xFFFF

/-- The record of the part. -/
def partRecord (nv : NonVol) (d : Dev) : List Byte :=
  natLe 8 nv.fuses.serial.toNat ++ natLe 1 d.boot.partCode ++ natLe 1 d.boot.slot ++ natLe 1 d.boot.svn ++ natLe 1 (counterOf nv.fuses)
    ++ natLe 4 96 ++ natLe 8 (installedGib d.boot.partCode * 2 ^ 30) ++ natLe 8 (allocatable d) ++ natLe 8 d.boot.build.toNat
    ++ natLe 2 (triedStatus d 0) ++ natLe 2 (triedStatus d 1) ++ natLe 4 d.boot.latched.toNat
    ++ slice d.boot.fwMeas 0 32 ++ slice d.boot.idPub 0 64 ++ natLe 112 0

def stepPartInfo (nv : NonVol) (d : Dev) (cid : Nat) (c : Cmd) : Option Dev :=
  match chkPartInfo c with
  | .error r => some (endRef d cid r)
  | .ok _ => some (finishCmd d cid stOk 0 [(0x0C, 4, d.boot.partCode), (0x10, 4, installedGib d.boot.partCode),
      (0x14, 4, allocatable d / 2 ^ 30), (0x18, 4, d.boot.svn)] (some (partRecord nv d)))

/-- PART.INFO (R597). -/
def execPartInfo (cid : Nat) (s : State) : Host.Outcome State Fault Refusal :=
  onDev s (runCmd 0x0F01 cid (stepPartInfo s.nv))

/-! ### Measurements (R599) -/

/-- DMTF type and value of a measurement index. -/
def measurement (nv : NonVol) (d : Dev) (i : Nat) : Nat × List Byte :=
  match i with
  | 1 => (0x00, natBe 32 Config.romHash.toNat)
  | 2 => (0x01, slice d.boot.fwMeas 0 32)
  | 3 => (0x07, natLe 1 d.boot.svn ++ natLe 1 (counterOf nv.fuses) ++ natLe 1 d.boot.slot ++ natLe 5 0)
  | 4 => (0x03, configDigest d)
  | 5 => (0x05, natLe 1 nv.fuses.lifecycle ++ natLe 1 nv.fuses.keyRevoke.toNat ++ natLe 1 (b2n d.boot.fallback)
      ++ natLe 1 (b2n d.boot.cfgSkip) ++ natLe 1 (b2n d.boot.certMis) ++ natLe 3 0)
  | _ => (0x06, natLe 8 d.boot.build.toNat)

/-! ### ATTEST.REPORT (R600, R601) -/

def atMask (c : Cmd) : Nat := par c 0x30 4
def atChain (c : Cmd) : Bool := bit (par c 0x34 4) 0

def chkAttest (c : Cmd) : Chk Unit :=
  chkFields ([(0x02, !bit (cmdFlags c) 0), (0x30, atMask c % 2 != 0 || decide (2 ^ 7 ≤ atMask c)), (0x34, decide (1 < par c 0x34 4))]
    ++ resv c.hdr 0x38 4 ++ resv c.hdr 0x3E 2)

/-- One entry of a report. -/
def reportEntry (nv : NonVol) (d : Dev) (i : Nat) : List Byte :=
  let m := measurement nv d i
  natLe 1 i ++ natLe 1 m.1 ++ natLe 2 m.2.length ++ slice m.2 0 36

/-- The certificates of the area as they stand, each after its length. -/
def certArea (nv : NonVol) : List Byte := (certs nv).flatMap (fun c => natLe 4 c.length ++ c)

/-- A report without its signature. -/
def reportBody (nv : NonVol) (d : Dev) (c : Cmd) : List Byte :=
  let idx := (span 1 6).filter (fun i => bit (atMask c) i)
  let area := certArea nv
  let chain := if atChain c then natLe 4 area.length ++ area else []
  let n := 0x40 + 40 * idx.length + chain.length + 64
  natLe 4 0x54544152 ++ natLe 4 n ++ natLe 8 nv.fuses.serial.toNat ++ slice c.hdr 0x10 32 ++ natLe 4 d.configGen ++ natLe 4 (atMask c)
    ++ natLe 4 idx.length ++ natLe 4 0 ++ idx.flatMap (reportEntry nv d) ++ chain

def stepAttest (nv : NonVol) (d : Dev) (cid : Nat) (c : Cmd) : Option Dev :=
  match chkAttest c with
  | .error r => some (endRef d cid r)
  | .ok _ =>
    let body := reportBody nv d c
    let (sig, d1) := freeBytes d 64
    some (finishCmd d1 cid stOk 0 [(0x0C, 4, body.length + 64), (0x10, 4, d.configGen)] (some (body ++ sig)))

/-- ATTEST.REPORT (R600). -/
def execAttestReport (cid : Nat) (s : State) : Host.Outcome State Fault Refusal :=
  onDev s (runCmd 0x0E01 cid (stepAttest s.nv))

/-! ### The SPDM responder (R598) -/

def spBad : Nat := 0x01
def spUnexpected : Nat := 0x04
def spUnsupported : Nat := 0x07
def spSessions : Nat := 0x0A

/-- A response: version, code, two parameters and what follows; the messages enter the transcript. -/
def spdmSay (d : Dev) (msg : List Byte) (code p1 p2 : Nat) (body : List Byte) : Dev :=
  let r := (if code = 4 then [0x10#8] else [0x12#8]) ++ natLe 1 code ++ natLe 1 p1 ++ natLe 1 p2 ++ body
  emit { d with spdm := { d.spdm with transcript := d.spdm.transcript ++ msg ++ r } } (.spdm code r)

/-- An ERROR response. -/
def spdmError (d : Dev) (err data : Nat) : Dev := emit d (.spdm 0x7F ([0x12#8, 0x7F#8] ++ natLe 1 err ++ natLe 1 data))

def setSpdm (d : Dev) (f : Spdm → Spdm) : Dev := { d with spdm := f d.spdm }

/-- Answers a request that needs a stage of the connection, by f. -/
def onSpdm (need : Nat) (s : State) (f : Dev → Dev) : Host.Outcome State Fault Refusal :=
  onDev s (fun d => if !linkHere d then d else if d.spdm.stage < need then spdmError d spUnexpected 0 else f d)

/-- Answers a request that needs an established session. -/
def inSession (s : State) (f : Dev → Dev) : Host.Outcome State Fault Refusal :=
  onSpdm 3 s (fun d => if d.spdm.established then f d else spdmError d spUnexpected 0)

/-- GET_VERSION: the connection begins again. -/
def execGetVersion (msg : List Byte) (s : State) : Host.Outcome State Fault Refusal :=
  onSpdm 0 s (fun d =>
    spdmSay (setSpdm d (fun p => { p with stage := 1, transcript := [] })) msg 0x04 0 0 ([0#8, 1#8] ++ natLe 2 0x1200))

/-- GET_CAPABILITIES: certificates, challenge, signed measurements, encryption, MAC, key exchange and key update. -/
def execGetCapabilities (msg : List Byte) (s : State) : Host.Outcome State Fault Refusal :=
  onSpdm 1 s (fun d =>
    let (t, d1) := freeBytes d 9
    spdmSay (setSpdm d1 (fun p => { p with stage := max p.stage 2 })) msg 0x61 0 0
      ([0#8] ++ t.take 1 ++ natLe 2 0 ++ natLe 4 0x42D6 ++ t.drop 1))

/-- NEGOTIATE_ALGORITHMS: ECDSA P-256, SHA-256, secp256r1, AES-256-GCM. -/
def execNegotiateAlgorithms (msg : List Byte) (s : State) : Host.Outcome State Fault Refusal :=
  onSpdm 2 s (fun d =>
    let alg (t v : Nat) : List Byte := natLe 1 t ++ [0x20#8] ++ natLe 2 v
    spdmSay (setSpdm d (fun p => { p with stage := 3 })) msg 0x63 3 0
      (natLe 2 48 ++ [1#8, 2#8] ++ natLe 4 2 ++ natLe 4 0x10 ++ natLe 4 1 ++ natLe 12 0 ++ natLe 4 0
        ++ alg 2 8 ++ alg 3 2 ++ alg 5 1))

/-- The certificate chain of slot 0: the root by its hash, then the certificates that the part holds, device certificate last. -/
def spdmChain (nv : NonVol) : List Byte :=
  let c := (certs nv).reverse.flatten
  natLe 2 (36 + c.length) ++ natLe 2 0 ++ natBe 32 Config.rootHash.toNat ++ c

/-- GET_DIGESTS. -/
def execGetDigests (msg : List Byte) (s : State) : Host.Outcome State Fault Refusal :=
  onSpdm 3 s (fun d => spdmSay d msg 0x01 0 1 (sha256 (spdmChain s.nv)))

/-- GET_CERTIFICATE: a portion of the chain of slot 0. -/
def execGetCertificate (msg : List Byte) (s : State) : Host.Outcome State Fault Refusal :=
  onSpdm 3 s (fun d =>
    let chain := spdmChain s.nv
    let o := field msg 4 2
    let part := (chain.drop o).take (field msg 6 2)
    if field msg 2 1 ≠ 0 ∨ chain.length ≤ o then spdmError d spBad 0
    else spdmSay d msg 0x02 0 0 (natLe 2 part.length ++ natLe 2 (chain.length - o - part.length) ++ part))

/-- A measurement block of the DMTF format: bit 7 of the type marks a value that is no digest. -/
def measBlock (nv : NonVol) (d : Dev) (i : Nat) : List Byte :=
  let m := measurement nv d i
  natLe 1 i ++ [1#8] ++ natLe 2 (m.2.length + 3) ++ natLe 1 (m.1 + if m.2.length = 8 then 0x80 else 0) ++ natLe 2 m.2.length ++ m.2

/-- The measurement summary hash: none, over every index, or over those a trusted computing base takes in, which is open. -/
def summaryHash (nv : NonVol) (d : Dev) (kind : Nat) : List Byte × Dev :=
  if kind = 0 then ([], d)
  else if kind = 0xFF then (sha256 ((span 1 6).flatMap (measBlock nv d)), d)
  else freeBytes d 32

/-- CHALLENGE: signed by the identity key. -/
def execChallenge (msg : List Byte) (s : State) : Host.Outcome State Fault Refusal :=
  onSpdm 3 s (fun d =>
    if field msg 2 1 ≠ 0 then spdmError d spBad 0
    else
      let (nonce, d1) := freeBytes d 32
      let (sum, d2) := summaryHash s.nv d1 (field msg 3 1)
      let (sig, d3) := freeBytes d2 64
      spdmSay d3 msg 0x03 0 1 (sha256 (spdmChain s.nv) ++ nonce ++ sum ++ natLe 2 0 ++ sig))

/-- GET_MEASUREMENTS (R599): the number of indices, all of them, or one. -/
def execGetMeasurements (msg : List Byte) (s : State) : Host.Outcome State Fault Refusal :=
  onSpdm 3 s (fun d =>
    let op := field msg 3 1
    let idx := if op = 0 then [] else if op = 0xFF then span 1 6 else [op]
    if op ≠ 0 ∧ op ≠ 0xFF ∧ 6 < op then spdmError d spBad 0
    else
      let recs := idx.flatMap (measBlock s.nv d)
      let (nonce, d1) := freeBytes d 32
      let (sig, d2) := if bit (field msg 2 1) 0 then freeBytes d1 64 else ([], d1)
      spdmSay d2 msg 0x60 (if op = 0 then 6 else 0) 0 (natLe 1 idx.length ++ natLe 3 recs.length ++ recs ++ nonce ++ natLe 2 0 ++ sig))

/-- KEY_EXCHANGE: a session begins; one session at a time (log 42). -/
def execKeyExchange (msg : List Byte) (s : State) : Host.Outcome State Fault Refusal :=
  onSpdm 3 s (fun d =>
    if d.spdm.established then spdmError d spSessions 0
    else
      let n := d.spdm.nextSession
      let (vals, d1) := freeBytes d 96
      let (sum, d2) := summaryHash s.nv d1 (field msg 2 1)
      let (sig, d3) := freeBytes d2 96
      let d4 := setSpdm d3 (fun p => { p with
        session := some (field msg 4 2 + 2 ^ 16 * (n % 2 ^ 16)), nextSession := n + 1, keyGen := 0, peerKey := slice msg 40 64 })
      spdmSay d4 msg 0x64 0 0 (natLe 2 n ++ natLe 2 0 ++ vals ++ sum ++ natLe 2 0 ++ sig))

/-- FINISH: the session is established. -/
def execFinish (msg : List Byte) (s : State) : Host.Outcome State Fault Refusal :=
  onSpdm 3 s (fun d =>
    if d.spdm.session.isSome && !d.spdm.established then
      spdmSay (setSpdm d (fun p => { p with established := true })) msg 0x65 0 0 []
    else spdmError d spUnexpected 0)

/-- KEY_UPDATE: operations 1 and 2 make new keys, 3 verifies them. -/
def execKeyUpdate (msg : List Byte) (s : State) : Host.Outcome State Fault Refusal :=
  inSession s (fun d =>
    let op := field msg 2 1
    if op = 0 ∨ 3 < op then spdmError d spBad 0
    else spdmSay (setSpdm d (fun p => { p with keyGen := p.keyGen + if op = 3 then 0 else 1 })) msg 0x69 op (field msg 3 1) [])

/-- END_SESSION. -/
def execEndSession (msg : List Byte) (s : State) : Host.Outcome State Fault Refusal :=
  inSession s (fun d =>
    spdmSay (setSpdm d (fun p => { p with session := none, established := false, keyGen := 0, peerKey := [] })) msg 0x6C 0 0 [])

/-- IDE_KM_REQUEST (17 R620): a key of the CXL.cachemem stream or of the CXL.io stream is programmed; IDE is on once both streams
have a key and the host has said go. -/
def ideKm (msg : List Byte) (d : Dev) : Dev :=
  let cache := field msg 7 2 = 0x1E98
  let obj := field msg 12 1
  let say (d : Dev) (o : Nat) : Dev := spdmSay d msg 0x7E 0 0 (slice msg 4 5 ++ natLe 2 2 ++ natLe 1 (field msg 11 1) ++ natLe 1 o)
  match obj with
  | 0 => say d 1
  | 2 => say (setSpdm d (fun p => if cache then { p with ideMem := true } else { p with ideIo := true })) 3
  | 4 => say (if d.spdm.ideMem && d.spdm.ideIo then setHost d (fun h => { h with ide := true }) else d) 6
  | 5 => say (setHost d (fun h => { h with ide := false })) 6
  | _ => spdmError d spBad 0

def execIdeKmRequest (msg : List Byte) (s : State) : Host.Outcome State Fault Refusal := inSession s (ideKm msg)

/-- SPDM_UNSUPPORTED_REQUEST (R598). -/
def execSpdmUnsupportedRequest (msg : List Byte) (s : State) : Host.Outcome State Fault Refusal :=
  onDev s (fun d => if linkHere d then spdmError d spUnsupported (field msg 1 1) else d)

end Sys2Proof.Machine
end

