-- ==== Sys2Proof/Machine/Fetch.lean ====
section
/-! DEFINITION. COMMAND_FETCH: the arbiter over the queues, the checks of a command and its admission (02 R31, R35, R41, R44 to R51,
R56 to R59, R63, R65, R69, R646, R649; 07 R277, R286, R287; 12 R481; 17 R610). -/

namespace Sys2Proof.Machine

/-! ### The command table (R48, R646) -/

/-- The entry of an opcode in the command table in force. Of two entries for one opcode, which the spec neither refuses nor
orders, the first holds (log 59). -/
def tableEntry (d : Dev) (op : Nat) : Option (List Byte) :=
  let t := tableOf d kindCommand 0
  if t.isEmpty then (opcodes.findIdx? (fun m => m.1 == op)).map (fun k => defaultEntry (nth (0, false, false) opcodes k) k)
  else ((span 0 (t.length / 64)).map (fun k => slice t (64 * k) 64)).find? (fun e => field e 0 2 == op)

def entMask (e : List Byte) : Nat := field e 2 2
def entMin (e : List Byte) : Nat := field e 4 2
def entMax (e : List Byte) : Nat := field e 6 2
def entQ0 (e : List Byte) : Bool := bit (field e 8 4) 0
def entDeadline (e : List Byte) : Bool := bit (field e 8 4) 1
/-- The entry names the cost model that the firmware's default gives its opcode (R48, R646). -/
def ownModel (e : List Byte) : Bool :=
  match opcodes.findIdx? (fun m => m.1 == field e 0 2) with
  | some k => field e 0x0C 2 == field (defaultEntry (nth (0, false, false) opcodes k) k) 0x0C 2
  | none => false
def entContext (e : List Byte) : Bool := bit (field e 8 4) 2

/-! ### Step 4 (R32, R51; 13 R503) -/

/-- The context that a header names exists and lies in the partition of the queue. -/
def ctxHere (d : Dev) (q ctx : Nat) : Bool :=
  match smFind d.ctxs ctx with
  | none => false
  | some x => !x.destroying && (match queuePart d q with | none => true | some p => x.part == p)

def payloadLen (hdr : List Byte) : Nat := field hdr 0x0A 2

def chkHeader (d : Dev) (c : Cmd) (e : List Byte) : Chk Unit :=
  let f := cmdFlags c
  let l := payloadLen c.hdr
  chkFields [
    (0x02, decide (16 ≤ f) || (span 0 4).any (fun i => bit f i && !bit (entMask e) i)),
    (0x08, if cmdContext c = 0xFF then entContext e else !ctxHere d c.queue (cmdContext c)),
    (0x09, field c.hdr 9 1 != c.queue),
    (0x0A, decide (4096 < l) || outside (entMin e) (entMax e) l),
    (0x0C, cmdDeadline c != 0 && !entDeadline e)]

/-! ### Step 5 -/

/-- The checks of the opcode's parameters and payload. -/
def chkOp (d : Dev) (cid : Nat) (c : Cmd) : Chk Unit :=
  match opcodeC c with
  | 0x0100 => chkNop c
  | 0x0101 => chkCreate d c
  | 0x0102 => chkDestroy d c
  | 0x0103 => chkResync d c
  | 0x0201 => chkCtxCreate d cid c
  | 0x0202 => chkCtxDestroy d cid c
  | 0x0203 => chkCtxSave d c
  | 0x0204 => chkCtxRestore d c
  | 0x0301 => chkCfgLoad d c
  | 0x0302 => chkCfgDigest c
  | 0x0401 => chkAlloc d c
  | 0x0402 => chkFree d c
  | 0x0403 => chkCopy d c
  | 0x0404 => chkFill d c
  | 0x0405 => chkDemote d c
  | 0x0406 => chkRecall d c
  | 0x0407 => chkMangle d c false
  | 0x0501 => chkProgLoad d c
  | 0x0502 => chkProgLaunch d c
  | 0x0601 => chkStepRun d c
  | 0x0602 => chkStepDiscard d c
  | 0x0701 => chkReqSubmit d c
  | 0x0702 => chkReqCancel d c
  | 0x0703 => chkReqQuery d c
  | 0x0801 => chkKvAppend d c
  | 0x0802 => chkKvFork d c
  | 0x0803 => chkKvFree d c
  | 0x0901 => chkStage d c
  | 0x0902 => chkColl d c
  | 0x0903 => chkAbort d c
  | 0x0904 => chkSwitch d c
  | 0x0905 => chkQuery d c
  | 0x0A01 => chkColl d c
  | 0x0B01 => chkColl d c
  | 0x0C01 => chkFreeze c
  | 0x0C02 => chkFields (resv c.hdr 0x10 48)
  | 0x0C03 => chkTallyRead d c
  | 0x0D01 => chkResultRead d c
  | 0x0E01 => chkAttest c
  | 0x0F01 => chkPartInfo c
  | _ => .error { status := stBadOpcode, detail := 0 }

/-! ### Step 6 -/

def chkSlot (d : Dev) (c : Cmd) : Chk Unit :=
  match slotIndex c with
  | none => .ok ()
  | some k =>
    let v := queueOf d c.queue
    if v.slotCount ≤ k then badParam k
    else if (smGet {} v.slots k).state = .pending then .error { status := stSlotBusy, detail := k }
    else .ok ()

/-! ### Cost models (R65; 07 R277, R286, R287; 12 R481) -/

/-- Combs of a REDUCE as its buffer stands (07 R293; log 9). -/
def combsOf (d : Dev) (c : Cmd) : Nat :=
  let h := peek d (cmdContext c) (blk c 0 8) 256
  (combChain h (blk c 0x10 4) (blk c 0x14 4) (ceilLog2 (rbN h) + 1)).1.length

/-- Bytes moved per element, in 32nds, and lane operations per element of a mangle operation; of RB_INIT per buffer (07 R286). -/
def mangleWork (d : Dev) (c : Cmd) : Nat × Nat :=
  match mOp c with
  | 1 => (32 * (if bit (mFlags c) 1 then 34 else 30), 14)
  | 2 => (32 * (16 + 8 * combsOf d c), 6 * combsOf d c) -- its put, the slots it reads, and SRC in memory
  | 3 => (32 * 8 + 4 * fdBits c 0x10, 1)
  | 4 => (4 * (fdBits c 8 + fdBits c 0x18) + 1, 2)
  | 5 => (4 * (fdBits c 8 + fdBits c 0x20) + 1, 1)
  | 6 => (64 * blk c 0x14 4, 0)
  | 7 => (64 * blk c 0x14 4, 0)
  | 8 => (blk c 0x2C 4 * 4 * (blk c 0x28 1 * fdBits c 8 + fdBits c 0x20), blk c 0x2C 4 * blk c 0x28 1)
  | _ => (32 * 256, 0)

/-- Hub µs of elements on a mangle of memory-side die m, at half the die's rate; the lane operations go at the rate of the present
window (13 R525). -/
def mangleUs (d : Dev) (c : Cmd) (m n : Nat) : Nat :=
  let w := mangleWork d c
  max (ceilDiv (2 * n * w.1) (32 * 368750)) (ceilDiv (32 * n * w.2) (204800 * memRate16 d m))

/-- Elements of the pieces that fall on the two mangles of a die, which take them in turn (07 R282, R287). -/
def pairOf (ns : List Nat) : Nat × Nat := ns.foldl (fun b n => (b.2, b.1 + n)) (0, 0)

/-- The greatest time over the mangles, its pieces taken in turn by the two of a die (07 R287). -/
def mangleTime (d : Dev) (c : Cmd) : Nat :=
  match smFind d.ctxs (cmdContext c) with
  | none => 0
  | some x =>
    let ps := (span 0 (pieceCount c)).map (fun q =>
      ((dieAt x (pieceVa c q)).getD 0, if mOp c = 9 then 1 else min pieceLen (mCount c - pieceLen * q)))
    ((span 0 16).map (fun m =>
      let b := pairOf ((ps.filter (fun p => p.1 == m)).map (·.2))
      mangleUs d c m (max b.1 b.2))).foldl max 0

/-- MEM.COPY and MEM.FILL: the bytes that the busiest die moves. -/
def bulkUs (d : Dev) (c : Cmd) (factor : Nat) : Nat :=
  match smFind d.ctxs (cmdContext c) with
  | none => 0
  | some x =>
    let dies := (span 0 (pieceCount c)).map (fun q => (dieAt x (pieceVa c q)).getD 0)
    ((span 0 16).map (fun m => dieUs (factor * 65536 * (dies.filter (fun k => k == m)).length))).foldl max 0

/-- MEM.DEMOTE and MEM.RECALL: pages to or from the slower tier one after the other, the others on their destination dies in parallel
(07 R277). -/
def movesUs (d : Dev) (c : Cmd) : Nat :=
  match smFind d.ctxs (cmdContext c) with
  | none => 0
  | some x =>
    let slow := c.pool ++ (movedPages x c).flatMap (fun q => if q.2.kind = .slow then q.2.slowPgs else [])
    -- the frames that take pages of the other near tier
    let fs := ((movedPages x c).zip (splitReserve (movedPages x c) c.frames)).flatMap (fun q => if q.1.2.kind = .slow then [] else q.2.2)
    let near := ((fs.map placeOf).eraseDups.map (fun p => dieUs (65536 * (fs.filter (fun f => decide (placeOf f = p))).length))).foldl max 0
    (if slow.isEmpty then 0 else tMove d x.part slow) + (if fs.isEmpty then 0 else 2 + near)

/-- UPDATE: the optimizer step and its mirror writes (12 R481). -/
def updateUs (d : Dev) (c : Cmd) : Nat :=
  if wgMode c ≠ 1 then 0
  else match readVirt d (cmdContext c) (par c 0x18 8) (144 * wgCount c) .any, wOfCmd d c (wgSet c) with
    | .ok list, some we =>
      let raw : Cmd := { c with payload := list }
      let es := (span 0 (wgCount c)).map (stageEntry raw)
      let mirror := if weMirror we = 0 then 0 else (es.map (fun e => 12 * mCount e)).sum
      2 + (es.map (mangleTime d)).sum + ceilDiv mirror (193750 * uPorts d)
    | _, _ => 2

/-- The cost model of an opcode in hub µs; none: no completion can be guaranteed. -/
def costOf (d : Dev) (c : Cmd) : Option Nat :=
  match opcodeC c with
  | 0x0203 => some ((smFind d.ctxs (cmdContext c)).elim 0 (fun x => 2 + ceilDiv (moveNs d (imageBytes x) 121) 1000))
  | 0x0204 => some (2 + ceilDiv (moveNs d (imLen c) 121) 1000)
  | 0x0403 => some (2 + bulkUs d c 2)
  | 0x0404 => some (2 + bulkUs d c 1)
  | 0x0405 => some (movesUs d c)
  | 0x0406 => some (movesUs d c)
  | 0x0407 => some (2 + mangleTime d c)
  | 0x0502 => launchCmdCost d c
  | 0x0601 => stepRunCost d c
  | 0x0801 => some (kvAppendCost d c)
  | 0x0901 => some (updateUs d c)
  | 0x0902 => collCostOf d c
  | 0x0A01 => collCostOf d c
  | 0x0B01 => collCostOf d c
  | _ => some 0

/-! ### Step 7 -/

/-- A CTX.SAVE or CTX.RESTORE with a deadline whose image range holds a SLOW page is refused (07 R278). -/
def admImage (d : Dev) (c : Cmd) : Chk (Cmd × Dev) := if imHost c then .ok (c, d) else admSlow d c [(imVa c, imLen c, false)]

/-- The resources of a command. -/
def admOp (d : Dev) (c : Cmd) : Chk (Cmd × Dev) :=
  match opcodeC c with
  | 0x0101 => admCreate d c
  | 0x0202 => admCtxDestroy d c
  | 0x0203 => admImage d c
  | 0x0204 => admImage d c
  | 0x0401 => admAlloc d c
  | 0x0403 => admRanges d c
  | 0x0404 => admRanges d c
  | 0x0405 => admMove d c
  | 0x0406 => admMove d c
  | 0x0407 => admRanges d c
  | 0x0601 => admStepRun d c
  | 0x0801 => admKvAppend d c
  | 0x0802 => admKvFork d c
  | 0x0901 => admStage d c
  | 0x0902 => admColl d c
  | 0x0A01 => admColl d c
  | 0x0B01 => admColl d c
  | 0x0C01 => .ok (admFreeze d c, d)
  | _ => .ok (c, d)

/-- The deadline of a command, by the cost model that its entry names (R48, R65). Of another model than its opcode's own the spec gives
no figure: the free value of `guaranteeOf` is then the whole cost (log 59). It holds for every command save that of a request, which its own admission tests bound (09 R362). -/
def admDeadline (d : Dev) (c : Cmd) : Chk (Option Nat × Dev) :=
  if opcodeC c = 0x0701 then .ok (none, d) else guaranteeOf d c (if ownModel c.entry then costOf d c else some 0)

/-- An admitted command is in flight under the next number, and holds its slot (R48, R69). -/
def enlist (d : Dev) (c : Cmd) (g : Option Nat) : Dev :=
  let cid := d.nextCid
  let d0 := if consumes (opcodeC c) then captureReads d c.queue else d
  let d1 : Dev := { d0 with nextCid := cid + 1, cmds := smPut d.cmds cid { c with guarantee := g } }
  match slotIndex c with
  | some k => claimSlot d1 c.queue k (hostSeqOf c)
  | none => d1

/-- Steps 4 to 7: the admitted command's device, or the refusal. A refusal of admission that step 5 finds waits for step 6. -/
def admitCmd (d : Dev) (c : Cmd) (e : List Byte) : Chk Dev := do
  chkHeader d c e
  match chkOp d d.nextCid c with
  | .error r => do
    if r.status = stAdmissionRefused then chkSlot d c
    .error r
  | .ok _ => do
    chkSlot d c
    let (c1, d1) ← admOp d c
    let (g, d2) ← admDeadline d1 c1
    return enlist d2 c1 g

def isCollOp (op : Nat) : Bool := op == 0x0B01 || op == 0x0A01 || op == 0x0902

/-- The final record of a refused command; it carries the IRQ of its header. -/
def refuse (d : Dev) (c : Cmd) (r : Ref) : Dev :=
  let d1 : Dev := { d with freeCtr := d.freeCtr + 1 }
  readyRec d1 c.queue { rcd := mkRec (hostSeqOf c) r.status r.detail (resultOf r.result), irq := bit (cmdFlags c) 3,
                        final := consumes (opcodeC c), cid := none }

/-- Steps 2 to 7 of R51 on a command that has consumed its number. -/
def checkCmd (d : Dev) (c : Cmd) : Dev :=
  let v := queueOf d c.queue
  if v.state ≠ .active then refuse d c { status := stQueueState, detail := qstateCode v.state }
  else match tableEntry d (opcodeC c) with
    | none => refuse d c { status := stBadOpcode, detail := 0 }
    | some e =>
      if entQ0 e ∧ c.queue ≠ 0 then refuse d c { status := stBadOpcode, detail := 1 }
      else
        -- a STEP.RUN whose context has no step in flight takes a boundary before its checks (12 R464)
        let d0 := if opcodeC c = 0x0601 ∧ ctxHere d c.queue (cmdContext c) then stepRunBoundary d c else d
        match admitCmd d0 { c with entry := e } e with
        | .ok d1 => d1
        | .error r =>
          -- a refused collective still sends its START (11 R429)
          let d1 := refuse d c r
          if isCollOp (opcodeC c) && ctxHere d c.queue (cmdContext c) then refusedStart d1 c r else d1

/-! ### Step 1 (R57 to R59) -/

/-- The answer to a command that consumes nothing. -/
def answerSeq (d : Dev) (q : Nat) (hostSeq : Word) (status detail : Nat) (result : List (Nat × Nat × Nat)) : Dev :=
  readyRec d q { rcd := mkRec hostSeq status detail (resultOf result), irq := false, final := false, cid := none }

/-- The command that consumed a host sequence number is still running. -/
def stillRunning (d : Dev) (q : Nat) (hostSeq : Word) : Bool :=
  d.cmds.any (fun p => p.2.queue == q && consumes (opcodeC p.2) && hostSeqOf p.2 == hostSeq)

/-- Step 1: goes on with the command where it consumes its number, or is exempt. -/
def seqStep (d : Dev) (c : Cmd) (go : Dev → Dev) : Dev :=
  let q := c.queue
  let v := queueOf d q
  let hs := hostSeqOf c
  if !consumes (opcodeC c) then go d
  else if hs = v.expHostSeq then go (modQueue d q (fun v => { v with expHostSeq := v.expHostSeq + 1 }))
  else if (hs - v.expHostSeq).toNat < 2 ^ 31 then answerSeq d q hs stSeqGap 1 [(0x0C, 4, v.expHostSeq.toNat)]
  else if stillRunning d q hs then answerSeq d q hs stPending 1 []
  else match v.finals.reverse.find? (fun f => f.1 == hs) with
    | some f => answerSeq d q hs stAlreadyComplete 1 [(0x0C, 4, f.2.toNat)]
    | none => answerSeq d q hs stSeqGap 2 []

/-! ### Reading a command from the ring (R31, R649; 17 R610) -/

/-- Entries submitted and not yet read. -/
def submitted (v : Queue) : Nat := (v.sqTail + sqSize v - v.sqHead) % sqSize v

/-- Window offset of the j-th entry from the head. -/
def ringAt (v : Queue) (j : Nat) : Nat := v.sqBase.toNat + 64 * ((v.sqHead + j) % sqSize v)

def headerOf (d : Dev) (v : Queue) : List Byte := memRead d.mem.hdm (ringAt v 0) 64

/-- The header entry may be read: its line has been answered. -/
def headerHere (d : Dev) (v : Queue) : Bool := d.host.snooped.contains (ringAt v 0 / 64)

/-- Entries that the command at the head occupies. -/
def cmdEntries (hdr : List Byte) : Nat := 1 + ceilDiv (payloadLen hdr) 64

/-- A command that no submission of its ring can hold. -/
def oversize (v : Queue) (hdr : List Byte) : Bool := decide (sqSize v - 1 < cmdEntries hdr)

/-- The queue has a command that can be read, or a header whose line must be asked for first. -/
def hasWork (d : Dev) (v : Queue) : Bool :=
  decide (0 < submitted v) && (!headerHere d v || oversize v (headerOf d v) || decide (cmdEntries (headerOf d v) ≤ submitted v))

/-- The arbiter may take a command from the queue (R35, R41). -/
def eligible (d : Dev) (q : Nat) (v : Queue) : Bool :=
  decide (v.state = .active) && decide (inFlightOf d q < v.maxInflight) && hasWork d v

/-- Drops entries from the front of the doorbell record. -/
def takeSubs : List (Nat × Nat) → Nat → List (Nat × Nat)
  | [], _ => []
  | s :: ss, n => if n < s.1 then (s.1 - n, s.2) :: ss else takeSubs ss (n - s.1)

/-- A command as it was read. -/
def readCmd (d : Dev) (q : Nat) (hdr payload : List Byte) : Cmd :=
  let v := queueOf d q
  { queue := q, hdr := hdr, payload := payload, arrival := (match v.subs with | s :: _ => s.2 | [] => d.now), phase := .admitted,
    entry := [], tstate := 0, guarantee := none, throttled := false, bmeStall := false, progress := 0, fin := none }

/-- Takes the command at the head of a queue, once the lines of its entries have been answered. -/
def takeCommand (d : Dev) (q : Nat) : Dev :=
  let v := queueOf d q
  let h := ringAt v 0 / 64
  if !headerHere d v then (snoopRange d [h]).2
  else
    let hdr := headerOf d v
    let n := cmdEntries hdr
    if oversize v hdr then
      let c := readCmd d q hdr []
      let d1 := modQueue (dropSnooped d [h]) q (fun v => { v with sqHead := v.sqTail, subs := [], roundLeft := v.roundLeft - 1 })
      seqStep d1 c (fun d => refuse d c { status := stBadParam, detail := 0x0A })
    else
      let lines := (span 0 n).map (fun j => ringAt v j / 64)
      let (here, d1) := snoopRange d lines
      if !here then d1
      else
        let body := (span 1 (n - 1)).flatMap (fun j => memRead d1.mem.hdm (ringAt v j) 64)
        let c := readCmd d1 q hdr (body.take (payloadLen hdr))
        let d2 := modQueue (dropSnooped d1 lines) q (fun v => { v with
          sqHead := (v.sqHead + n) % sqSize v, subs := takeSubs v.subs n, roundLeft := v.roundLeft - 1 })
        seqStep d2 c (fun d => checkCmd d c)

/-! ### The arbiter (R35) -/

/-- A REQ.SUBMIT of the queue is not yet decided: it has neither joined nor entered WAITING, and later commands are not admitted
ahead of it (09 R364). -/
def submitOpen (d : Dev) (q : Nat) : Bool :=
  d.cmds.any (fun p => p.2.queue == q && opcodeC p.2 == 0x0701 && p.2.info.isEmpty && p.2.fin.isNone)

/-- The queue from which the next command is taken, with the round moved to it. The spec does not order the queues of a round:
the model visits them by rising number, from the last one on to the first again (log 58). -/
def nextQueue (d : Dev) : Option (Nat × Dev) :=
  let el := (d.queues.filter (fun p => eligible d p.1 p.2 && !submitOpen d p.1)).map (·.1)
  if el.contains d.rr ∧ 0 < (queueOf d d.rr).roundLeft then some (d.rr, d)
  else
    let next := match el.find? (fun q => decide (d.rr < q)) with | some q => some q | none => el.head?
    next.map (fun q => (q, modQueue { d with rr := q } q (fun v => { v with roundLeft := v.weight })))

/-- Fetching is possible at all: the part is READY, in D0 (17 R622, R654), and holds fewer than 32,768 commands. -/
def mayFetch (d : Dev) : Bool := d.boot.ready && !d.host.d3hot && decide (d.cmds.length < 32768)

def fetchOne (d : Dev) : Dev :=
  if mayFetch d then (match nextQueue d with | some (q, d1) => takeCommand d1 q | none => d) else d

/-- COMMAND_FETCH (R35, R51). -/
def execCommandFetch (s : State) : Host.Outcome State Fault Refusal := onDev s fetchOne

end Sys2Proof.Machine
end

