-- ==== Sys2Proof/Machine/Clock.lean ====
section
/-! DEFINITION. The tick of the hub clock, with which the part idles (00 R3, R4; 13 R514, R525; log 1). -/

namespace Sys2Proof.Machine

/-- Rate-bearing dies: eight compute dies and sixteen memory-side dies (13 R525, R526). -/
def rateDies : Nat := 24

/-- One h-cycle is two a-cycles of every rate-bearing die, at its rate in sixteenths (00 R3; 13 R525). -/
def tickEngines (d : Dev) : Dev :=
  { d with gov := { d.gov with acyc16 := (span 0 rateDies).foldl (fun m r => smPut m r (smGet 0 m r + 2 * rate16 d r)) d.gov.acyc16 } }

/-- A resident context that is not blocked begins its blocked time later than now (13 R514). -/
def tickBlocked (d : Dev) : Dev :=
  d.ctxs.foldl (fun d c => if c.2.state = .resident ∧ !ctxBlocked d c.1 then modCtx d c.1 (fun x => { x with blockedAt := d.now }) else d) d

/-- One h-cycle passes on the device; without its rails it has no clock. -/
def tickDev (d : Dev) : Dev :=
  if d.pwr.rails then tickBlocked (tickEngines { d with now := d.now + 1 }) else d

/-- One h-cycle passes. -/
def tick (s : State) : State := { s with dev := tickDev s.dev }

end Sys2Proof.Machine
end

