-- ==== Sys2Proof/Machine/Dispatch.lean ====
section
/-! DEFINITION. One arm for each command: a direct call of its meaning. -/

namespace Sys2Proof.Machine

/-- The effect of a command on everything but the queue. -/
def exec (i : Instr) (s : State) : Host.Outcome State Fault Refusal :=
  match i with
  | .submissionDoorbell q value => Sys2Proof.Machine.execSubmissionDoorbell q value s
  | .completionDoorbell q value => Sys2Proof.Machine.execCompletionDoorbell q value s
  | .registerWrite off wide value => Sys2Proof.Machine.execRegisterWrite off wide value s
  | .q0CfgEnable value => Sys2Proof.Machine.execQ0CfgEnable value s
  | .deviceIdWrite value => Sys2Proof.Machine.execDeviceIdWrite value s
  | .flashRead => Sys2Proof.Machine.execFlashRead s
  | .flashProgram => Sys2Proof.Machine.execFlashProgram s
  | .flashErase => Sys2Proof.Machine.execFlashErase s
  | .flashOpComplete failed => Sys2Proof.Machine.execFlashOpComplete failed s
  | .commandFetch => Sys2Proof.Machine.execCommandFetch s
  | .commandComplete cid => Sys2Proof.Machine.execCommandComplete cid s
  | .holdBufferDrain q => Sys2Proof.Machine.execHoldBufferDrain q s
  | .queueNop cid => Sys2Proof.Machine.execQueueNop cid s
  | .queueCreate cid => Sys2Proof.Machine.execQueueCreate cid s
  | .queueDestroy cid => Sys2Proof.Machine.execQueueDestroy cid s
  | .queueResync cid => Sys2Proof.Machine.execQueueResync cid s
  | .ctxCreate cid => Sys2Proof.Machine.execCtxCreate cid s
  | .ctxDestroy cid => Sys2Proof.Machine.execCtxDestroy cid s
  | .ctxSave cid => Sys2Proof.Machine.execCtxSave cid s
  | .ctxRestore cid => Sys2Proof.Machine.execCtxRestore cid s
  | .cfgLoad cid => Sys2Proof.Machine.execCfgLoad cid s
  | .cfgDigest cid => Sys2Proof.Machine.execCfgDigest cid s
  | .memAlloc cid => Sys2Proof.Machine.execMemAlloc cid s
  | .memFree cid => Sys2Proof.Machine.execMemFree cid s
  | .memCopy cid => Sys2Proof.Machine.execMemCopy cid s
  | .memFill cid => Sys2Proof.Machine.execMemFill cid s
  | .memDemote cid => Sys2Proof.Machine.execMemDemote cid s
  | .memRecall cid => Sys2Proof.Machine.execMemRecall cid s
  | .memMangle cid => Sys2Proof.Machine.execMemMangle cid s
  | .manglePieceStart m => Sys2Proof.Machine.execManglePieceStart m s
  | .manglePieceComplete m => Sys2Proof.Machine.execManglePieceComplete m s
  | .progLoad cid => Sys2Proof.Machine.execProgLoad cid s
  | .progLaunch cid => Sys2Proof.Machine.execProgLaunch cid s
  | .stepRun cid => Sys2Proof.Machine.execStepRun cid s
  | .stepDiscard cid => Sys2Proof.Machine.execStepDiscard cid s
  | .reqSubmit cid => Sys2Proof.Machine.execReqSubmit cid s
  | .reqCancel cid => Sys2Proof.Machine.execReqCancel cid s
  | .reqQuery cid => Sys2Proof.Machine.execReqQuery cid s
  | .kvAppend cid => Sys2Proof.Machine.execKvAppend cid s
  | .kvFork cid => Sys2Proof.Machine.execKvFork cid s
  | .kvFree cid => Sys2Proof.Machine.execKvFree cid s
  | .weightsStage cid => Sys2Proof.Machine.execWeightsStage cid s
  | .weightsCommit cid => Sys2Proof.Machine.execWeightsCommit cid s
  | .weightsAbort cid => Sys2Proof.Machine.execWeightsAbort cid s
  | .weightsSwitch cid => Sys2Proof.Machine.execWeightsSwitch cid s
  | .weightsQuery cid => Sys2Proof.Machine.execWeightsQuery cid s
  | .refoldRun cid => Sys2Proof.Machine.execRefoldRun cid s
  | .collRun cid => Sys2Proof.Machine.execCollRun cid s
  | .tallyFreeze cid => Sys2Proof.Machine.execTallyFreeze cid s
  | .tallyThaw cid => Sys2Proof.Machine.execTallyThaw cid s
  | .tallyRead cid => Sys2Proof.Machine.execTallyRead cid s
  | .resultRead cid => Sys2Proof.Machine.execResultRead cid s
  | .attestReport cid => Sys2Proof.Machine.execAttestReport cid s
  | .partInfo cid => Sys2Proof.Machine.execPartInfo cid s
  | .iNop e => Sys2Proof.Machine.execNop e s
  | .iHalt e => Sys2Proof.Machine.execHalt e s
  | .iBr e => Sys2Proof.Machine.execBr e s
  | .iLoop e => Sys2Proof.Machine.execLoop e s
  | .iCall e => Sys2Proof.Machine.execCall e s
  | .iRet e => Sys2Proof.Machine.execRet e s
  | .iSli e => Sys2Proof.Machine.execSli e s
  | .iSop e => Sys2Proof.Machine.execSop e s
  | .iSld e => Sys2Proof.Machine.execSld e s
  | .iSst e => Sys2Proof.Machine.execSst e s
  | .iMovs e => Sys2Proof.Machine.execMovs e s
  | .iXadd e => Sys2Proof.Machine.execXadd e s
  | .iFdset e => Sys2Proof.Machine.execFdset e s
  | .iBfence e => Sys2Proof.Machine.execBfence e s
  | .iLset e => Sys2Proof.Machine.execLset e s
  | .iLstart e => Sys2Proof.Machine.execLstart e s
  | .iLwait e => Sys2Proof.Machine.execLwait e s
  | .iLrel e => Sys2Proof.Machine.execLrel e s
  | .iLcancel e => Sys2Proof.Machine.execLcancel e s
  | .iLstat e => Sys2Proof.Machine.execLstat e s
  | .lineCreditRefill e => Sys2Proof.Machine.execLineCreditRefill e s
  | .lineTransferIssue e => Sys2Proof.Machine.execLineTransferIssue e s
  | .lineTransferComplete id => Sys2Proof.Machine.execLineTransferComplete id s
  | .lineTransferFault id remote => Sys2Proof.Machine.execLineTransferFault id remote s
  | .lineResume e l => Sys2Proof.Machine.execLineResume e l s
  | .iXfer e => Sys2Proof.Machine.execXfer e s
  | .xferComplete id ok => Sys2Proof.Machine.execXferComplete id ok s
  | .iSig e => Sys2Proof.Machine.execSig e s
  | .iSwait e => Sys2Proof.Machine.execSwait e s
  | .iBar e => Sys2Proof.Machine.execBar e s
  | .iPmul e => Sys2Proof.Machine.execPmul e s
  | .iPcomb e => Sys2Proof.Machine.execPcomb e s
  | .iPstore e => Sys2Proof.Machine.execPstore e s
  | .iPload e => Sys2Proof.Machine.execPload e s
  | .iPset e => Sys2Proof.Machine.execPset e s
  | .iFld e => Sys2Proof.Machine.execFld e s
  | .iFst e => Sys2Proof.Machine.execFst e s
  | .iFacc e => Sys2Proof.Machine.execFacc e s
  | .iFop e => Sys2Proof.Machine.execFop e s
  | .iFred e => Sys2Proof.Machine.execFred e s
  | .iFperm e => Sys2Proof.Machine.execFperm e s
  | .iFdot e => Sys2Proof.Machine.execFdot e s
  | .iFset e => Sys2Proof.Machine.execFset e s
  | .iFchain e => Sys2Proof.Machine.execFchain e s
  | .iFcurve e => Sys2Proof.Machine.execFcurve e s
  | .launchWatchdogExpire launch => Sys2Proof.Machine.execLaunchWatchdogExpire launch s
  | .basketRinseComplete e granule => Sys2Proof.Machine.execBasketRinseComplete e granule s
  | .refresh bank => Sys2Proof.Machine.execRefresh bank s
  | .patrolScrub sub outcome => Sys2Proof.Machine.execPatrolScrub sub outcome s
  | .arbiterRefill ch => Sys2Proof.Machine.execArbiterRefill ch s
  | .memoryGrant ch waiting bad => Sys2Proof.Machine.execMemoryGrant ch waiting bad s
  | .pageMove ctx page => Sys2Proof.Machine.execPageMove ctx page s
  | .pageMoveComplete ctx page => Sys2Proof.Machine.execPageMoveComplete ctx page s
  | .frameRinseComplete frame => Sys2Proof.Machine.execFrameRinseComplete frame s
  | .appendWindowWrite id => Sys2Proof.Machine.execAppendWindowWrite id s
  | .kvHeatHalve ctx pool => Sys2Proof.Machine.execKvHeatHalve ctx pool s
  | .kvHotPromote ctx pool => Sys2Proof.Machine.execKvHotPromote ctx pool s
  | .batchStepPlan ctx => Sys2Proof.Machine.execBatchStepPlan ctx s
  | .batchTableReceive pkt => Sys2Proof.Machine.execBatchTableReceive pkt s
  | .batchStepCommit ctx => Sys2Proof.Machine.execBatchStepCommit ctx s
  | .stepTokenArrive ctx token => Sys2Proof.Machine.execStepTokenArrive ctx token s
  | .stepLaunch ctx => Sys2Proof.Machine.execStepLaunch ctx s
  | .stepEnd cid => Sys2Proof.Machine.execStepEnd cid s
  | .scheduleNext part => Sys2Proof.Machine.execScheduleNext part s
  | .sliceMaxExpire launch => Sys2Proof.Machine.execSliceMaxExpire launch s
  | .contextDemote ctx => Sys2Proof.Machine.execContextDemote ctx s
  | .contextRecall ctx => Sys2Proof.Machine.execContextRecall ctx s
  | .budgetWindow => Sys2Proof.Machine.execBudgetWindow s
  | .sensorRead readings => Sys2Proof.Machine.execSensorRead readings s
  | .engineGate unit => Sys2Proof.Machine.execEngineGate unit s
  | .engineOff e => Sys2Proof.Machine.execEngineOff e s
  | .cupboardBankOff die bank => Sys2Proof.Machine.execCupboardBankOff die bank s
  | .clockFault => Sys2Proof.Machine.execClockFault s
  | .inputLoss vin => Sys2Proof.Machine.execInputLoss vin s
  | .coldStart vin => Sys2Proof.Machine.execColdStart vin s
  | .railsUp => Sys2Proof.Machine.execRailsUp s
  | .pllLock => Sys2Proof.Machine.execPllLock s
  | .rotSelfTestDone ok => Sys2Proof.Machine.execRotSelfTestDone ok s
  | .imageVerify => Sys2Proof.Machine.execImageVerify s
  | .jenornebStart => Sys2Proof.Machine.execJenornebStart s
  | .lpddr6TrainingDone failed => Sys2Proof.Machine.execLpddr6TrainingDone failed s
  | .bootRinseDone failed => Sys2Proof.Machine.execBootRinseDone failed s
  | .antiRollbackRatchet => Sys2Proof.Machine.execAntiRollbackRatchet s
  | .resetNAssert => Sys2Proof.Machine.execResetNAssert s
  | .conventionalReset perst => Sys2Proof.Machine.execConventionalReset perst s
  | .functionLevelReset => Sys2Proof.Machine.execFunctionLevelReset s
  | .cxlReset memClr => Sys2Proof.Machine.execCxlReset memClr s
  | .d3hotEntry => Sys2Proof.Machine.execD3hotEntry s
  | .d0Return => Sys2Proof.Machine.execD0Return s
  | .busMasterEnableSet => Sys2Proof.Machine.execBusMasterEnableSet s
  | .hdmMemRequest write off data => Sys2Proof.Machine.execHdmMemRequest write off data s
  | .hostSnoop addr => Sys2Proof.Machine.execHostSnoop addr s
  | .hostReadComplete addr data => Sys2Proof.Machine.execHostReadComplete addr data s
  | .hostReadError addr => Sys2Proof.Machine.execHostReadError addr s
  | .getVersion msg => Sys2Proof.Machine.execGetVersion msg s
  | .getCapabilities msg => Sys2Proof.Machine.execGetCapabilities msg s
  | .negotiateAlgorithms msg => Sys2Proof.Machine.execNegotiateAlgorithms msg s
  | .getDigests msg => Sys2Proof.Machine.execGetDigests msg s
  | .getCertificate msg => Sys2Proof.Machine.execGetCertificate msg s
  | .challenge msg => Sys2Proof.Machine.execChallenge msg s
  | .getMeasurements msg => Sys2Proof.Machine.execGetMeasurements msg s
  | .keyExchange msg => Sys2Proof.Machine.execKeyExchange msg s
  | .finish msg => Sys2Proof.Machine.execFinish msg s
  | .keyUpdate msg => Sys2Proof.Machine.execKeyUpdate msg s
  | .endSession msg => Sys2Proof.Machine.execEndSession msg s
  | .ideKmRequest msg => Sys2Proof.Machine.execIdeKmRequest msg s
  | .spdmUnsupportedRequest msg => Sys2Proof.Machine.execSpdmUnsupportedRequest msg s
  | .cdatTableAccess entry => Sys2Proof.Machine.execCdatTableAccess entry s
  | .portSignalDetect p => Sys2Proof.Machine.execPortSignalDetect p s
  | .portAnComplete p => Sys2Proof.Machine.execPortAnComplete p s
  | .portTrainComplete p lanes pol rev => Sys2Proof.Machine.execPortTrainComplete p lanes pol rev s
  | .portAlignComplete p => Sys2Proof.Machine.execPortAlignComplete p s
  | .portStateTimeout p => Sys2Proof.Machine.execPortStateTimeout p s
  | .portDownWaitExpire p => Sys2Proof.Machine.execPortDownWaitExpire p s
  | .ident p dev port credits digest => Sys2Proof.Machine.execIdent p dev port credits digest s
  | .linkFlitReceive p flit => Sys2Proof.Machine.execLinkFlitReceive p flit s
  | .nak p seq => Sys2Proof.Machine.execNak p seq s
  | .retrain p received => Sys2Proof.Machine.execRetrain p received s
  | .replayTimeout p => Sys2Proof.Machine.execReplayTimeout p s
  | .retrainTimeout p => Sys2Proof.Machine.execRetrainTimeout p s
  | .read pkt => Sys2Proof.Machine.execRead pkt s
  | .write pkt => Sys2Proof.Machine.execWrite pkt s
  | .readData pkt => Sys2Proof.Machine.execReadData pkt s
  | .writeAck pkt => Sys2Proof.Machine.execWriteAck pkt s
  | .readErr pkt => Sys2Proof.Machine.execReadErr pkt s
  | .msg pkt => Sys2Proof.Machine.execMsg pkt s
  | .reqTimeoutExpire tag => Sys2Proof.Machine.execReqTimeoutExpire tag s
  | .ethFrameReceive p frame => Sys2Proof.Machine.execEthFrameReceive p frame s
  | .ethNak p frame => Sys2Proof.Machine.execEthNak p frame s
  | .ethRtoExpire peer psn => Sys2Proof.Machine.execEthRtoExpire peer psn s
  | .fabricArbiterRefill p => Sys2Proof.Machine.execFabricArbiterRefill p s
  | .fabricGrant p => Sys2Proof.Machine.execFabricGrant p s
  | .collStart pkt => Sys2Proof.Machine.execCollStart pkt s
  | .decide pkt => Sys2Proof.Machine.execDecide pkt s
  | .collStartTimeout coll => Sys2Proof.Machine.execCollStartTimeout coll s
  | .collStartResend coll => Sys2Proof.Machine.execCollStartResend coll s
  | .collData pkt => Sys2Proof.Machine.execCollData pkt s
  | .fetch pkt => Sys2Proof.Machine.execFetch pkt s
  | .ack pkt => Sys2Proof.Machine.execAck pkt s
  | .resend pkt => Sys2Proof.Machine.execResend pkt s
  | .busy pkt => Sys2Proof.Machine.execBusy pkt s
  | .busyRetryExpire coll shard => Sys2Proof.Machine.execBusyRetryExpire coll shard s
  | .ready pkt => Sys2Proof.Machine.execReady pkt s
  | .abort pkt => Sys2Proof.Machine.execAbort pkt s
  | .count pkt => Sys2Proof.Machine.execCount pkt s
  | .nack pkt => Sys2Proof.Machine.execNack pkt s
  | .darnWaitExpire coll shard => Sys2Proof.Machine.execDarnWaitExpire coll shard s
  | .commitWaitExpire coll => Sys2Proof.Machine.execCommitWaitExpire coll s
  | .commitDecideTimeout coll => Sys2Proof.Machine.execCommitDecideTimeout coll s
  | .tallyUpdate => Sys2Proof.Machine.execTallyUpdate s
  | .tallyMaxHoldExpire => Sys2Proof.Machine.execTallyMaxHoldExpire s
  | .mgmtControllerStart vin straps => Sys2Proof.Machine.execMgmtControllerStart vin straps s
  | .mgmtRefresh => Sys2Proof.Machine.execMgmtRefresh s
  | .mgmtWrite reg value => Sys2Proof.Machine.execMgmtWrite reg value s
  | .refclkValid => Sys2Proof.Machine.execRefclkValid s
  | .resetNRelease perst => Sys2Proof.Machine.execResetNRelease perst s
  | .mgmtControllerStop => Sys2Proof.Machine.execMgmtControllerStop s
  | .busMasterEnableClear => Sys2Proof.Machine.execBusMasterEnableClear s
  | .bootPhaseTimeout => Sys2Proof.Machine.execBootPhaseTimeout s
  | .cxlLinkTrained width gts => Sys2Proof.Machine.execCxlLinkTrained width gts s
  | .cableConnect p => Sys2Proof.Machine.execCableConnect p s
  | .doeDiscovery index => Sys2Proof.Machine.execDoeDiscovery index s
  | .globalPersistentFlush => Sys2Proof.Machine.execGlobalPersistentFlush s
  | .backInvalidateResponse off data => Sys2Proof.Machine.execBackInvalidateResponse off data s
  | .pfcFrameReceive p prio quanta => Sys2Proof.Machine.execPfcFrameReceive p prio quanta s
  | .deferralExpire req => Sys2Proof.Machine.execDeferralExpire req s
  | .peersQueryTimeout cid => Sys2Proof.Machine.execPeersQueryTimeout cid s

end Sys2Proof.Machine
end

