-- ==== Sys2Proof/WellFormed.lean ====
section
/-! DEFINITION. Which operands can reach the part. -/

namespace Sys2Proof

/-- The operands are those of a message that can reach the part: a direct-mode flit of 1,024 bytes (10 R392), a returned host line of
64 bytes (17 R616), a back-invalidate response with no data or with a line of 64 bytes (17 R610). The bounds of every other operand
stand in its type. -/
def Instr.wf (i : Instr) : Bool :=
  match i with
  | .submissionDoorbell _ _ => true
  | .completionDoorbell _ _ => true
  | .registerWrite _ _ _ => true
  | .q0CfgEnable _ => true
  | .deviceIdWrite _ => true
  | .flashRead => true
  | .flashProgram => true
  | .flashErase => true
  | .flashOpComplete _ => true
  | .commandFetch => true
  | .commandComplete _ => true
  | .holdBufferDrain _ => true
  | .queueNop _ => true
  | .queueCreate _ => true
  | .queueDestroy _ => true
  | .queueResync _ => true
  | .ctxCreate _ => true
  | .ctxDestroy _ => true
  | .ctxSave _ => true
  | .ctxRestore _ => true
  | .cfgLoad _ => true
  | .cfgDigest _ => true
  | .memAlloc _ => true
  | .memFree _ => true
  | .memCopy _ => true
  | .memFill _ => true
  | .memDemote _ => true
  | .memRecall _ => true
  | .memMangle _ => true
  | .manglePieceStart _ => true
  | .manglePieceComplete _ => true
  | .progLoad _ => true
  | .progLaunch _ => true
  | .stepRun _ => true
  | .stepDiscard _ => true
  | .reqSubmit _ => true
  | .reqCancel _ => true
  | .reqQuery _ => true
  | .kvAppend _ => true
  | .kvFork _ => true
  | .kvFree _ => true
  | .weightsStage _ => true
  | .weightsCommit _ => true
  | .weightsAbort _ => true
  | .weightsSwitch _ => true
  | .weightsQuery _ => true
  | .refoldRun _ => true
  | .collRun _ => true
  | .tallyFreeze _ => true
  | .tallyThaw _ => true
  | .tallyRead _ => true
  | .resultRead _ => true
  | .attestReport _ => true
  | .partInfo _ => true
  | .iNop _ => true
  | .iHalt _ => true
  | .iBr _ => true
  | .iLoop _ => true
  | .iCall _ => true
  | .iRet _ => true
  | .iSli _ => true
  | .iSop _ => true
  | .iSld _ => true
  | .iSst _ => true
  | .iMovs _ => true
  | .iXadd _ => true
  | .iFdset _ => true
  | .iBfence _ => true
  | .iLset _ => true
  | .iLstart _ => true
  | .iLwait _ => true
  | .iLrel _ => true
  | .iLcancel _ => true
  | .iLstat _ => true
  | .lineCreditRefill _ => true
  | .lineTransferIssue _ => true
  | .lineTransferComplete _ => true
  | .lineTransferFault _ _ => true
  | .lineResume _ _ => true
  | .iXfer _ => true
  | .xferComplete _ _ => true
  | .iSig _ => true
  | .iSwait _ => true
  | .iBar _ => true
  | .iPmul _ => true
  | .iPcomb _ => true
  | .iPstore _ => true
  | .iPload _ => true
  | .iPset _ => true
  | .iFld _ => true
  | .iFst _ => true
  | .iFacc _ => true
  | .iFop _ => true
  | .iFred _ => true
  | .iFperm _ => true
  | .iFdot _ => true
  | .iFset _ => true
  | .iFchain _ => true
  | .iFcurve _ => true
  | .launchWatchdogExpire _ => true
  | .basketRinseComplete _ _ => true
  | .refresh _ => true
  | .patrolScrub _ _ => true
  | .arbiterRefill _ => true
  | .memoryGrant _ _ _ => true
  | .pageMove _ _ => true
  | .pageMoveComplete _ _ => true
  | .frameRinseComplete _ => true
  | .appendWindowWrite _ => true
  | .kvHeatHalve _ _ => true
  | .kvHotPromote _ _ => true
  | .batchStepPlan _ => true
  | .batchTableReceive _ => true
  | .batchStepCommit _ => true
  | .stepTokenArrive _ _ => true
  | .stepLaunch _ => true
  | .stepEnd _ => true
  | .scheduleNext _ => true
  | .sliceMaxExpire _ => true
  | .contextDemote _ => true
  | .contextRecall _ => true
  | .budgetWindow => true
  | .sensorRead _ => true
  | .engineGate _ => true
  | .engineOff _ => true
  | .cupboardBankOff _ _ => true
  | .clockFault => true
  | .inputLoss _ => true
  | .coldStart _ => true
  | .railsUp => true
  | .pllLock => true
  | .rotSelfTestDone _ => true
  | .imageVerify => true
  | .jenornebStart => true
  | .lpddr6TrainingDone _ => true
  | .bootRinseDone _ => true
  | .antiRollbackRatchet => true
  | .resetNAssert => true
  | .conventionalReset _ => true
  | .functionLevelReset => true
  | .cxlReset _ => true
  | .d3hotEntry => true
  | .d0Return => true
  | .busMasterEnableSet => true
  | .hdmMemRequest _ _ _ => true
  | .hostSnoop _ => true
  | .hostReadComplete _ data => data.length == 64
  | .hostReadError _ => true
  | .getVersion _ => true
  | .getCapabilities _ => true
  | .negotiateAlgorithms _ => true
  | .getDigests _ => true
  | .getCertificate _ => true
  | .challenge _ => true
  | .getMeasurements _ => true
  | .keyExchange _ => true
  | .finish _ => true
  | .keyUpdate _ => true
  | .endSession _ => true
  | .ideKmRequest _ => true
  | .spdmUnsupportedRequest _ => true
  | .cdatTableAccess _ => true
  | .portSignalDetect _ => true
  | .portAnComplete _ => true
  | .portTrainComplete _ _ _ _ => true
  | .portAlignComplete _ => true
  | .portStateTimeout _ => true
  | .portDownWaitExpire _ => true
  | .ident _ _ _ _ _ => true
  | .linkFlitReceive _ flit => flit.length == 1024
  | .nak _ _ => true
  | .retrain _ _ => true
  | .replayTimeout _ => true
  | .retrainTimeout _ => true
  | .read _ => true
  | .write _ => true
  | .readData _ => true
  | .writeAck _ => true
  | .readErr _ => true
  | .msg _ => true
  | .reqTimeoutExpire _ => true
  | .ethFrameReceive _ _ => true
  | .ethNak _ _ => true
  | .ethRtoExpire _ _ => true
  | .fabricArbiterRefill _ => true
  | .fabricGrant _ => true
  | .collStart _ => true
  | .decide _ => true
  | .collStartTimeout _ => true
  | .collStartResend _ => true
  | .collData _ => true
  | .fetch _ => true
  | .ack _ => true
  | .resend _ => true
  | .busy _ => true
  | .busyRetryExpire _ _ => true
  | .ready _ => true
  | .abort _ => true
  | .count _ => true
  | .nack _ => true
  | .darnWaitExpire _ _ => true
  | .commitWaitExpire _ => true
  | .commitDecideTimeout _ => true
  | .tallyUpdate => true
  | .tallyMaxHoldExpire => true
  | .mgmtControllerStart _ _ => true
  | .mgmtRefresh => true
  | .mgmtWrite _ _ => true
  | .refclkValid => true
  | .resetNRelease _ => true
  | .mgmtControllerStop => true
  | .busMasterEnableClear => true
  | .bootPhaseTimeout => true
  | .cxlLinkTrained _ _ => true
  | .cableConnect _ => true
  | .doeDiscovery _ => true
  | .globalPersistentFlush => true
  | .backInvalidateResponse _ data => data.length == 0 || data.length == 64
  | .pfcFrameReceive _ _ _ => true
  | .deferralExpire _ => true
  | .peersQueryTimeout _ => true

end Sys2Proof
end

