-- ==== Sys2Proof/Safety.lean ====
section
/-! DEFINITION. What counts as a safe run, and the words in which statements about the machine are made. -/

namespace Sys2Proof.Machine

/-- Every waiting command is well formed: no step of the queue stops. -/
def queueOk (s : State) : Bool := s.pending.all Instr.wf

/-- n steps one after the other, as long as each answers a next state. -/
def steps : Nat → State → Option State
  | 0, s => some s
  | n + 1, s => match step s with
    | .next t => steps n t
    | _ => none

/-- A safe run: n steps, none of which stops. -/
def safeRun (n : Nat) (s : State) : Prop := (steps n s).isSome = true

/-- The command answers a next state of which P holds. -/
def Completes (i : Instr) (s : State) (P : State → Prop) : Prop := ∃ t, exec i s = .next t ∧ P t

/-- Command cid of opcode op is in flight without its final record, and its order allows it to begin or it has begun. -/
abbrev Runs (s : State) (op cid : Nat) (c : Cmd) : Prop :=
  smFind s.dev.cmds cid = some c ∧ opcodeC c = op ∧ c.fin = none
    ∧ (c.phase = .running ∨ (c.phase = .admitted ∧ mayBegin s.dev cid c = true))

/-- The final record that command cid has prepared: status, DETAIL and RESULT. -/
def finOf (s : State) (cid : Nat) : Option (BitVec 16 × BitVec 16 × BitVec 160) :=
  ((smFind s.dev.cmds cid).bind (·.fin)).map (fun f => (f.status, f.detail, f.result))

/-- Command cid has prepared an OK record. -/
def endsOk (s : State) (cid : Nat) : Prop := ∃ r, finOf s cid = some (0#16, 0#16, r)

/-- What the part keeps without power is well formed: the flash is a map in canonical form, and no more anti-rollback bits are blown
than there are. -/
def NonVol.ok (nv : NonVol) : Bool := smSorted nv.flash && decide (counterOf nv.fuses ≤ 64)

/-- Every fuse that is blown in f is blown in g, and nothing else of the fuse array differs but ANTI_ROLLBACK and KEY_REVOKE
(16 R572, R578). -/
def Fuses.onlyBlown (f g : Fuses) : Prop :=
  f.antiRollback &&& g.antiRollback = f.antiRollback ∧ f.keyRevoke &&& g.keyRevoke = f.keyRevoke
    ∧ { g with antiRollback := f.antiRollback, keyRevoke := f.keyRevoke } = f

/-! ### Engines -/

/-- Physical engine e stands at instruction c, whose opcode is op, of a program of n instructions that it is running. -/
abbrev AtIns (s : State) (e op n : Nat) (c : Ic) : Prop :=
  fetchIns s.dev e = some (c, n) ∧ c.pc < n ∧ opcodeOf c.w0 = op

/-- What the engine that executes instruction c holds for the context. -/
def engOf (s : State) (c : Ic) : EngCtx := getE s.dev c.ctx c.idx

/-- The patch that stands once instruction c has moved PC to an index: the one for the instruction after c, or for c itself while PC
stays at it (06 R198, R233). -/
def leavesPatch (c : Ic) (pc : Nat) (v : EngCtx) : Option (Nat × BitVec 128) :=
  match v.patch with
  | some (k, w) => if k = c.pc + 1 ∨ (k = c.pc ∧ pc = c.pc) then some (k, w) else none
  | none => none

/-- The engine once instruction c has been followed by the next in sequence: PC is c.pc + 1, unless c ends the bodies of loops with
iterations left (06 R194). -/
def afterSeq (c : Ic) (v : EngCtx) : EngCtx :=
  { v with patch := leavesPatch c (c.pc + 1) v, loops := (loopNext c.pc (c.pc + 1) v.loops).1, pc := (loopNext c.pc (c.pc + 1) v.loops).2 }

/-- The engine once instruction c has moved PC to an index. -/
def afterJump (c : Ic) (v : EngCtx) (pc : Nat) : EngCtx := { v with patch := leavesPatch c pc v, pc := pc }

/-- Nothing but what engine c.idx of context c.ctx holds differs between s and t. -/
def OnlyEngine (c : Ic) (s t : State) : Prop :=
  t = { s with dev := { s.dev with eng := t.dev.eng } } ∧
    ∀ k, k ≠ engKey c.ctx c.idx → smGet {} t.dev.eng k = smGet {} s.dev.eng k

/-- Instruction c has written v into scalar register n, nothing where n is 0, and gone on in sequence; nothing else differs. -/
def WritesReg (c : Ic) (s t : State) (n : Nat) (v : Word) : Prop :=
  OnlyEngine c s t ∧ (∀ r, sreg (engOf t c) r = if r = n ∧ r ≠ 0 then v else sreg (engOf s c) r)
    ∧ engOf t c = { afterSeq c (engOf s c) with s := (engOf t c).s }

/-- Instruction c has written v into its SD. -/
abbrev WritesSd (c : Ic) (s t : State) (v : Word) : Prop := WritesReg c s t (fSD c.w0) v

/-- Instruction c has put line n of its engine into state l and gone on in sequence; nothing else differs. -/
def WritesLine (c : Ic) (s t : State) (n : Nat) (l : Line) : Prop :=
  OnlyEngine c s t ∧ (∀ m, lineOf (engOf t c) m = if m = n then l else lineOf (engOf s c) m)
    ∧ engOf t c = { afterSeq c (engOf s c) with lines := (engOf t c).lines }

/-- Transfers of line n of engine i of a context that are in flight (06 R214). -/
def flying (s : State) (ctx i n : Nat) : List Xfer := (s.dev.xfers.map (·.2)).filter (isLineXfer ctx i n)

/-- Engine i of a context may reach n bytes at offset off of its share of the basket now: they lie in the share and in no granule that
is still being rinsed (06 R202, R203). -/
abbrev BasketOpen (s : State) (ctx i off n : Nat) : Prop :=
  off + n ≤ shareBytes s.dev ctx ∧ ∀ g ∈ s.dev.mem.granRinse, n ≠ 0 →
    ¬ (g * 65536 < shareBase s.dev ctx i + off + n ∧ shareBase s.dev ctx i + off < (g + 1) * 65536)

/-- The basket address of an offset of the share of engine i of a context. -/
def shareAt (s : State) (ctx i off : Nat) : Nat := shareBase s.dev ctx i + off

/-- No other unit has written the bytes from lo to hi of the share without handing them over (06 R189). What an XFER with SIG has
brought from memory is the transfer unit's. -/
abbrev HandedOver (s : State) (ctx i : Nat) (who : BUnit) (lo hi : Nat) : Prop :=
  ∀ z ∈ (getE s.dev ctx i).dirty, writerOf z.who = writerOf who ∨ z.hi ≤ lo ∨ hi ≤ z.lo

/-- No running line of engine i of a context reads its addresses from an INDEX list (06 R207). -/
abbrev NoIndexLine (s : State) (ctx i : Nat) : Prop := (getE s.dev ctx i).lines.any (fun p => listRuns p.2) = false

/-- What the lines of engine i of a context hold is as it was, but for the replaced entries of INDEX lists that they note: none where no
running line reads one (06 R207; log 7). -/
def LinesNote (s t : State) (ctx i : Nat) : Prop :=
  (∀ m, lineOf (getE t.dev ctx i) m = { lineOf (getE s.dev ctx i) m with olds := (lineOf (getE t.dev ctx i) m).olds })
    ∧ (NoIndexLine s ctx i → (getE t.dev ctx i).lines = (getE s.dev ctx i).lines)

/-- Nothing but what engine c.idx of context c.ctx holds and the bytes of the baskets differs between s and t. -/
def OnlyEngineAndBasket (c : Ic) (s t : State) : Prop :=
  t = { s with dev := { s.dev with eng := t.dev.eng, mem := { s.dev.mem with baskets := t.dev.mem.baskets } } } ∧
    ∀ k, k ≠ engKey c.ctx c.idx → smGet {} t.dev.eng k = smGet {} s.dev.eng k

/-- The field of an instruction word that a patch names (06 R197). -/
def patchField (w : BitVec 128) (p : Patch) : Nat := w.toNat / 2 ^ (32 * p.word + p.low) % 2 ^ p.width

/-- The bit lies in the field that the patch names. -/
def inPatch (p : Patch) (b : Nat) : Prop := 32 * p.word + p.low ≤ b ∧ b < 32 * p.word + p.low + p.width

/-- Instruction c has written the vector vs from element 0 on at tile register base and gone on in sequence; AFLAGS has gained flags
f; nothing else differs (05 R153, 03 R104). -/
def WritesVec (c : Ic) (s t : State) (base : Nat) (vs : List Word) (f : BitVec 32) : Prop :=
  (∀ j, smGet 0#32 (engOf t c).t j =
    if 256 * base ≤ j ∧ j < 256 * base + vs.length then nth 0#32 vs (j - 256 * base) else smGet 0#32 (engOf s c).t j)
    ∧ engOf t c = { afterSeq c (engOf s c) with t := (engOf t c).t, aflags := (engOf s c).aflags ||| f }

/-- Instruction c has put accumulator tile n of its engine into state x; every other tile is as it was. -/
def WritesTile (c : Ic) (s t : State) (n : Nat) (x : Tile) : Prop :=
  ∀ m, tileOf (engOf t c) m = if m = n then x else tileOf (engOf s c) m

/-! ### Commands and queues -/

/-- Nothing but command cid differs between s and t. -/
def OnlyCmd (cid : Nat) (s t : State) : Prop :=
  t = { s with dev := { s.dev with cmds := t.dev.cmds } } ∧ ∀ k, k ≠ cid → smFind t.dev.cmds k = smFind s.dev.cmds k

/-- A record that becomes ready on queue q is produced at once: its hold buffer has room and nothing waits (02 R650). -/
abbrev CanProduce (s : State) (q : Nat) : Prop :=
  (queueOf s.dev q).state ≠ .disabled ∧ (queueOf s.dev q).waiting = [] ∧ (queueOf s.dev q).hold.length < holdCap (queueOf s.dev q)

/-- The state once all that waits for final records which have been placed has followed: of a table load, of requests, of learning steps
and of collectives (02 R50; 09 R345; 11 R425; 12 R465, R473, R483). -/
def followed (u : State) : State := { u with dev := settleEnds u.dev }

/-- Queue q has produced record r, its device sequence number apart, between s and t: it is the newest record of the retention log and
carries the queue's next number (02 R60, R62, R650). Other queues are as they were. -/
def Produced (s t : State) (q : Nat) (r : Rec) : Prop :=
  (queueOf t.dev q).log.getLast? = some { r with devSeq := (queueOf s.dev q).nextDevSeq }
    ∧ (queueOf t.dev q).nextDevSeq = (queueOf s.dev q).nextDevSeq + 1 ∧ ∀ k, k ≠ q → queueOf t.dev k = queueOf s.dev k

/-- The command that COMMAND_FETCH reads from queue q now has header hdr and payload pay: the arbiter stands on the queue, and every line
of its entries has been answered (02 R31, R35; 17 R610). -/
abbrev Fetches (s : State) (q : Nat) (hdr pay : List Byte) : Prop :=
  let v := queueOf s.dev q
  let n := cmdEntries hdr
  mayFetch s.dev = true ∧ (nextQueue s.dev).map (·.1) = some q ∧ hdr = headerOf s.dev v ∧ oversize v hdr = false ∧ headerHere s.dev v = true
    ∧ (∀ j, j < n → ringAt v j / 64 ∈ s.dev.host.snooped)
    ∧ pay = ((span 1 (n - 1)).flatMap (fun j => memRead s.dev.mem.hdm (ringAt v j) 64)).take (payloadLen hdr)

/-- The entries of the command at the head of queue q have been taken, and nothing but the queues, the lines waited for and what has left
the part differs (02 R31). -/
def Taken (s t : State) (q : Nat) (hdr : List Byte) : Prop :=
  t = { s with dev := { s.dev with rr := q, queues := t.dev.queues, out := t.dev.out,
                                   host := { s.dev.host with snooped := t.dev.host.snooped } } }
    ∧ (queueOf t.dev q).sqHead = ((queueOf s.dev q).sqHead + cmdEntries hdr) % sqSize (queueOf s.dev q)

/-- The device as command cid begins, or goes on: it is running. -/
def began (s : State) (cid : Nat) : Dev := setPhase s.dev cid .running

/-- The payload that command cid has prepared for its result slot. -/
def slotOutOf (t : State) (cid : Nat) : Option (List Byte) := ((smFind t.dev.cmds cid).bind (·.fin)).bind (·.slotOut)

/-! ### KV memory -/

/-- The page list of a pool is in its canonical form, and every page that a node of its tree holds is listed (08 R330, R336). -/
abbrev PoolSound (p : KvPool) : Prop :=
  smSorted p.page = true ∧ ∀ v ∈ p.node, (smFind p.page v.2.page).isSome = true

/-- A sequence has a length and a mask of heads for each layer, no layer is longer than its pages, and its pages are listed (08 R313, R330). -/
abbrev SeqSound (p : KvPool) (q : KvSeq) : Prop :=
  q.len.length = kvL p ∧ q.heads.length = kvL p ∧ (∀ v ∈ q.len, v ≤ kvTpp p * q.pages.length) ∧ ∀ pg ∈ q.pages, (smFind p.page pg).isSome = true

/-- An append of n tokens at pos copies no page but the one at pos: each later position has been reached on some layer or head of the
sequence, or is not below the fill of its page, or lies in the page that is copied (08 R331). -/
abbrev NoLaterCopy (p : KvPool) (q : KvSeq) (pos n : Nat) : Prop :=
  ∀ i pg, pos < i → i < pos + n → q.pages[i / kvTpp p]? = some pg →
    touched q i = true ∨ (kvPage p pg).fill ≤ i ∨ (i / kvTpp p = pos / kvTpp p ∧ touched q pos = false)

/-! ### Memory and the SPDM responder -/

/-- The arbiter of a memory channel (07 R303). -/
def arbOf (s : State) (ch : Nat) : Arb := smGet {} s.dev.mem.arbs ch

/-- An SPDM response with the code has left the part; the responder's own state, the transcript among it, and free values are all else that
differs (16 R598). -/
def Says (s t : State) (code : Nat) : Prop :=
  t = { s with dev := { s.dev with spdm := t.dev.spdm, out := t.dev.out, freeCtr := t.dev.freeCtr } }
    ∧ ∃ body, t.dev.out = .spdm code body :: s.dev.out

/-- Nothing but half-port h, what has left the part and the tally differs between s and t. -/
def OnlyPort (h : Nat) (s t : State) : Prop :=
  t = { s with dev := { s.dev with
    fabric := { s.dev.fabric with ports := t.dev.fabric.ports }, out := t.dev.out, tally := t.dev.tally } }
    ∧ ∀ k, k ≠ h → portOf t.dev k = portOf s.dev k

/-! ### The fabric -/

/-- Half-port h is in state q, and nothing but it and the tally differs between s and t. -/
def PortIs (h : Nat) (s t : State) (q : HalfPort) : Prop :=
  OnlyPort h s t ∧ portOf t.dev h = q ∧ t.dev.out = s.dev.out

/-- Half-port h is in state q and has sent n flits of 1,024 bytes since s; nothing but it, the tally and what has left the part differs. -/
def PortSends (h : Nat) (s t : State) (n : Nat) (q : HalfPort) : Prop :=
  OnlyPort h s t ∧ portOf t.dev h = { q with owed := (portOf t.dev h).owed } ∧
    ∃ l, t.dev.out = l ++ s.dev.out ∧ l.length = n ∧ ∀ m ∈ l, ∃ b, m = .flit h b ∧ b.length = 1024

/-- A half-port that has gone DOWN, or OFF where it is configured OFF: what it knew of the link is forgotten, but for
what its receive buffers hold (10 R396, R414). -/
def downPort (s : State) (h : Nat) (q : HalfPort) : HalfPort :=
  { state := if portConfig s.dev h = 0 then .off else .down, peerMismatch := q.peerMismatch, digestDiff := q.digestDiff, arb := q.arb,
    rxFill := q.rxFill, stateAt := s.dev.now }

/-- The flit passes its CRC and is the next DATA flit of half-port q (10 R392, R393, R395). -/
abbrev NextFlit (q : HalfPort) (f : List Byte) : Prop :=
  f.length = 1024 ∧ (crc32c (f.take 1020)).toNat = field f 1020 4 ∧ bits (field f 0 4) 31 30 = 1 ∧ bits (field f 0 4) 29 20 = q.rxNext

/-- Half-port q after the ACK and the credits that a flit carries, where the retry buffer holds the acknowledged flit behind `before`, or
does not hold it (10 R393, R394, R398). -/
def flitAcked (now : Nat) (q : HalfPort) (f : List Byte) (before : Option (List (Nat × List Byte))) (after : List (Nat × List Byte)) :
    HalfPort :=
  let w := field f 0 4
  let c := setNth q.credits (bits w 9 8) (nth 0 q.credits (bits w 9 8) + bits w 7 0)
  match before with
  | none => { q with credits := c }
  | some l => { q with credits := c, retry := after, txAcked := bits w 19 10, replays := 0, ackAt := now,
                       inRetry := q.inRetry.filter (fun k => !(l.map (·.1) ++ [bits w 19 10]).contains k.1) }

/-- Packet pk is the first that has been received, at half-port g (36: from this part itself). -/
abbrev FirstPacket (s : State) (g : Nat) (pk : Packet) (rest : List (Nat × Packet)) : Prop := s.dev.fabric.rxq = (g, pk) :: rest

/-- The device once the first packet has been taken: its buffer room is returned (10 R398, R406). -/
def tookPacket (s : State) (g : Nat) (pk : Packet) (rest : List (Nat × Packet)) : Dev :=
  bufferOut { s.dev with fabric := { s.dev.fabric with rxq := rest } } g pk

/-- The device once a received request's access has gone through the translations of its link die (07 R260). -/
def accessed (s : State) (g : Nat) (pk : Packet) (rest : List (Nat × Packet)) : Dev := peerAccess s.dev pk (tookPacket s g pk rest)

/-- The PFC-paused channels of half-port h after a frame that names a priority (10 R406). -/
def pausedBy (s : State) (h prio quanta vc : Nat) : Bool :=
  if fabPcp s.dev vc = prio then quanta != 0 else nth false (portOf s.dev h).paused vc

end Sys2Proof.Machine
end

