-- ==== Sys2Proof/Certificates/Slice0/Obligations.lean ====
section
/-! DEFINITION. The statements for the provers. -/

open Sys2Proof Sys2Proof.Machine

/-! ### Engine programs: control and scalar instructions (06) -/

/-- 06 R192, R194: SLI, SOP and FDSET write their destination, leave everything else, and go on in sequence; NOP only goes on.
A write of s0 is discarded. -/
def Obligations.ScalarInstructionsWriteTheirDestination : Prop :=
  ∀ (s : State) (e : Fin 96) (n : Nat) (c : Ic), ctlReserved c = false →
    let v := engOf s c
    let A := sreg v (fSA c.w0)
    let B := if bit (fFUNC c.w0) 4 then BitVec.ofNat 32 c.w1 else sreg v (fSB c.w0)
    (AtIns s e 0x00 n c → Completes (.iNop e) s (fun t => OnlyEngine c s t ∧ engOf t c = afterSeq c v)) ∧
    (AtIns s e 0x06 n c → Completes (.iSli e) s (fun t => WritesSd c s t (BitVec.ofNat 32 c.w1))) ∧
    (AtIns s e 0x07 n c → fFUNC c.w0 % 16 ≤ 10 → Completes (.iSop e) s (fun t => ∃ r, WritesSd c s t r ∧
      (fFUNC c.w0 % 16 = 0 → r = A + B) ∧ (fFUNC c.w0 % 16 = 1 → r = A - B) ∧ (fFUNC c.w0 % 16 = 2 → r = A &&& B) ∧
      (fFUNC c.w0 % 16 = 3 → r = A ||| B) ∧ (fFUNC c.w0 % 16 = 4 → r = A ^^^ B) ∧
      (fFUNC c.w0 % 16 = 5 → r.toNat = A.toNat * 2 ^ B.toNat % 2 ^ 32) ∧
      (fFUNC c.w0 % 16 = 6 → r.toNat = A.toNat / 2 ^ B.toNat) ∧ (fFUNC c.w0 % 16 = 7 → r.toInt = A.toInt / 2 ^ B.toNat) ∧
      (fFUNC c.w0 % 16 = 8 → r = A * B) ∧ (fFUNC c.w0 % 16 = 9 → r.toInt = min A.toInt B.toInt) ∧
      (fFUNC c.w0 % 16 = 10 → r.toInt = max A.toInt B.toInt))) ∧
    (AtIns s e 0x0C n c → fFUNC c.w0 ≤ 15 → Completes (.iFdset e) s (fun t => OnlyEngine c s t ∧
      (∀ r, fdReg (engOf t c) r = if r = fFUNC c.w0 then BitVec.ofNat 32 c.w2 ++ BitVec.ofNat 32 c.w1 else fdReg v r) ∧
      engOf t c = { afterSeq c v with fd := (engOf t c).fd }))

/-- 06 R199: MOVS reads the special registers of the table. -/
def Obligations.MovsReadsSpecialRegisters : Prop :=
  ∀ (s : State) (e : Fin 96) (n : Nat) (c : Ic), ctlReserved c = false → AtIns s e 0x0A n c →
    (c.w1 = 0 → Completes (.iMovs e) s (fun t => WritesSd c s t (BitVec.ofNat 32 c.li))) ∧
    (∀ z, smFind s.dev.launches c.launch = some z → c.w1 = 1 →
      Completes (.iMovs e) s (fun t => WritesSd c s t (BitVec.ofNat 32 z.engCount))) ∧
    (c.w1 = 2 → Completes (.iMovs e) s (fun t => WritesSd c s t (BitVec.ofNat 32 e.val))) ∧
    (c.w1 = 3 → Completes (.iMovs e) s (fun t => WritesSd c s t (s.dev.host.deviceId &&& 0x1FFF#32))) ∧
    (c.w1 = 4 → Completes (.iMovs e) s (fun t => WritesSd c s t (BitVec.ofNat 32 c.ctx))) ∧
    (c.w1 = 5 → Completes (.iMovs e) s (fun t => WritesSd c s t 256#32)) ∧
    (∀ x, smFind s.dev.ctxs c.ctx = some x → c.w1 = 6 →
      Completes (.iMovs e) s (fun t => WritesSd c s t (BitVec.ofNat 32 (1024 * x.basket)))) ∧
    (c.w1 = 7 → Completes (.iMovs e) s (fun t => WritesSd c s t (BitVec.ofNat 32 (acycles s.dev e)))) ∧
    (c.w1 = 8 → Completes (.iMovs e) s (fun t => WritesSd c s t (BitVec.ofNat 32 (acycles s.dev e / 2 ^ 32)))) ∧
    (∀ l, l < 16 → c.w1 = 16 + l → Completes (.iMovs e) s (fun t => WritesSd c s t (lineWord (lineOf (engOf s c) l))))

/-- 06 R194: BR, LOOP, CALL, RET and HALT move PC, the loop counters and the call stack as their table says, and change nothing else.
The HALT is that of an engine whose launch has another engine that has not halted. -/
def Obligations.ControlInstructionsMovePc : Prop :=
  ∀ (s : State) (e : Fin 96) (n : Nat) (c : Ic), ctlReserved c = false →
    let v := engOf s c
    let A := sreg v (fSA c.w0)
    let B := sreg v (fSB c.w0)
    let F := fFUNC c.w0
    let holds : Prop := F = 0 ∨ (F = 1 ∧ A = B) ∨ (F = 2 ∧ A ≠ B) ∨ (F = 3 ∧ A.toInt < B.toInt) ∨ (F = 4 ∧ B.toInt ≤ A.toInt)
      ∨ (F = 5 ∧ A.toNat < B.toNat) ∨ (F = 6 ∧ B.toNat ≤ A.toNat)
    (AtIns s e 0x02 n c → F ≤ 6 → c.w1 < n → c.w1 ≠ c.pc + 1 → holds →
      Completes (.iBr e) s (fun t => OnlyEngine c s t ∧ engOf t c = afterJump c v c.w1)) ∧
    (AtIns s e 0x02 n c → F ≤ 6 → c.w1 < n → ¬ holds →
      Completes (.iBr e) s (fun t => OnlyEngine c s t ∧ engOf t c = afterSeq c v)) ∧
    (AtIns s e 0x03 n c → F ≤ 1 → c.w1 < n → c.pc + 1 ≤ c.w1 → v.loops.length < 4 →
      let count := if F = 1 then A.toNat else c.w2
      (0 < count → Completes (.iLoop e) s (fun t => OnlyEngine c s t ∧
        engOf t c = afterSeq c { v with loops := (c.pc + 1, c.w1, count) :: v.loops })) ∧
      (count = 0 → Completes (.iLoop e) s (fun t => OnlyEngine c s t ∧
        ((engOf t c).loops, (engOf t c).pc) = loopNext c.w1 (c.w1 + 1) v.loops))) ∧
    (AtIns s e 0x04 n c → c.w1 < n → v.calls.length < 8 →
      Completes (.iCall e) s (fun t => OnlyEngine c s t ∧
        engOf t c = afterJump c { v with calls := (c.pc + 1) :: v.calls } c.w1)) ∧
    (∀ r rs, AtIns s e 0x05 n c → v.calls = r :: rs →
      Completes (.iRet e) s (fun t => OnlyEngine c s t ∧ engOf t c = afterJump c { v with calls := rs } r)) ∧
    (∀ z i, AtIns s e 0x01 n c → unitXfers s.dev c.ctx c.idx = [] → smFind s.dev.launches c.launch = some z →
      z.engFirst ≤ i → i < z.engFirst + z.engCount → engKey c.ctx i ≠ engKey c.ctx c.idx → (getE s.dev c.ctx i).seq ≠ .halted →
      Completes (.iHalt e) s (fun t => OnlyEngine c s t ∧
        engOf t c = afterJump c { v with seq := .halted, endCyc := acycles s.dev c.phys } c.pc))

/-- 06 R194, R195, R202: SLD reads and SST writes the aligned 32-bit word at basket byte offset SA + IMM; SST changes no other byte of
any basket, and of its engine only what lines that read an INDEX list note of the entries that it replaces (R207; log 7). -/
def Obligations.ScalarLoadsAndStoresReachTheBasket : Prop :=
  ∀ (s : State) (e : Fin 96) (n : Nat) (c : Ic), ctlReserved c = false →
    let off := ((sreg (engOf s c) (fSA c.w0)).toNat + c.w1) % 2 ^ 32
    off % 4 = 0 → BasketOpen s c.ctx c.idx off 4 →
    (AtIns s e 0x08 n c → HandedOver s c.ctx c.idx .sequencer off (off + 4) → Completes (.iSld e) s (fun t => ∃ v, WritesSd c s t v ∧
      ∀ k, k < 4 → v.extractLsb' (8 * k) 8 = memByte s.dev.mem.baskets (shareAt s c.ctx c.idx off + k))) ∧
    (AtIns s e 0x09 n c → HandedOver s c.ctx c.idx .sequencer off (off + 4) → Completes (.iSst e) s (fun t =>
      OnlyEngineAndBasket c s t ∧ engOf t c = { afterSeq c (engOf s c) with lines := (engOf t c).lines } ∧
      LinesNote s t c.ctx c.idx ∧
      (∀ k, k < 4 → memByte t.dev.mem.baskets (shareAt s c.ctx c.idx off + k) = (sreg (engOf s c) (fSB c.w0)).extractLsb' (8 * k) 8) ∧
      ∀ a, (a < shareAt s c.ctx c.idx off ∨ shareAt s c.ctx c.idx off + 4 ≤ a) → memByte t.dev.mem.baskets a = memByte s.dev.mem.baskets a))

/-- 06 R198: XADD adds its registers into the enabled fields of the instruction at PC + 1, each modulo its width, and changes no other
bit of it; the patch serves that instruction only. -/
def Obligations.XaddPatchesTheNextInstruction : Prop :=
  ∀ (s : State) (e : Fin 96) (n : Nat) (c : Ic) (z : Launch) (x : Ctx) (p : Prog),
    let ps := [c.w1, c.w2, c.w3].filterMap patchOf
    let target := nth 0#128 p.words (c.pc + 1)
    AtIns s e 0x0B n c → smFind s.dev.launches c.launch = some z → smFind s.dev.ctxs c.ctx = some x → smFind x.progs z.slot = some p →
    c.w0 % 2 ^ 24 = 0 → (∀ w ∈ [c.w1, c.w2, c.w3], w % 2 ^ 14 = 0) → c.pc + 1 < n → 0x20 ≤ opcodeOf (insWord target 0) →
    (∀ q ∈ ps, patchBad q = false) → ps.Pairwise (fun q r => patchOverlap q r = false) →
    Completes (.iXadd e) s (fun t => ∃ w, OnlyEngine c s t ∧
      engOf t c = afterSeq c { engOf s c with patch := some (c.pc + 1, w) } ∧
      (∀ q ∈ ps, patchField w q = (patchField target q + (sreg (engOf s c) q.sr).toNat) % 2 ^ q.width) ∧
      ∀ b, b < 128 → (∀ q ∈ ps, ¬ inPatch q b) → w.getLsbD b = target.getLsbD b)

/-- 06 R189, R194: BFENCE hands over what the units of its mask have written and what no unit of it has written stays as it was; it waits
while a transfer of the transfer unit it names has still to write a basket, here or on another engine. -/
def Obligations.BfenceHandsOverBasketWrites : Prop :=
  ∀ (s : State) (e : Fin 96) (n : Nat) (c : Ic), ctlReserved c = false → fFUNC c.w0 ≤ 15 → AtIns s e 0x0D n c →
    let landing := ∃ x ∈ unitXfers s.dev c.ctx c.idx, x.kind = .toBasket ∨ ∃ dst, x.kind = .toEngine dst
    let named (w : BUnit) : Prop := (bit (fFUNC c.w0) 0 = true ∧ w = .press) ∨ (bit (fFUNC c.w0) 1 = true ∧ w = .finisher)
      ∨ (bit (fFUNC c.w0) 2 = true ∧ w = .line) ∨ (bit (fFUNC c.w0) 3 = true ∧ writerOf w = .transfer)
    (¬ (bit (fFUNC c.w0) 3 = true ∧ landing) → Completes (.iBfence e) s (fun t => OnlyEngine c s t ∧
      (∀ z, z ∈ (engOf t c).dirty ↔ z ∈ (engOf s c).dirty ∧ ¬ named z.who) ∧
      engOf t c = { afterSeq c (engOf s c) with dirty := (engOf t c).dirty })) ∧
    (bit (fFUNC c.w0) 3 = true ∧ landing → exec (.iBfence e) s = .next s)

/-! ### Engine programs: lines (06) -/

/-- 06 R208, R215, R219, R220: LSET loads the descriptor into an IDLE line, LSTART starts it with every slot EMPTY, LREL frees the oldest
TAKEN peg and ends a DONE line with its last one, LSTAT reads the state word. -/
def Obligations.LineInstructionsMoveTheLineStates : Prop :=
  ∀ (s : State) (e : Fin 96) (k : Nat) (c : Ic),
    let v := engOf s c
    let n := fLine c.w0
    let l := lineOf v n
    let off := 64 * bits c.w1 31 15
    let x := memRead s.dev.mem.baskets (shareAt s c.ctx c.idx off) 64
    let share := shareBytes s.dev c.ctx
    (AtIns s e 0x20 k c → c.w0 % 2 ^ 15 = 0 → c.w1 % 2 ^ 15 = 0 → c.w2 = 0 → c.w3 = 0 → BasketOpen s c.ctx c.idx off 64 →
      HandedOver s c.ctx c.idx .line off (off + 64) → l.state = .idle → ldBad x = false → ldPegBase x + ldSlots x * ldPegSize x ≤ share →
      (ldMode x = 1 → 64 * bits (ldList x) 31 15 + 8 * ldCount1 x ≤ share) →
      (∀ p ∈ v.lines, p.1 ≠ n → p.2.state ≠ .idle → pegsOverlap x p.2.desc = false) →
      Completes (.iLset e) s (fun t => WritesLine c s t n { state := .ready, desc := x })) ∧
    (AtIns s e 0x21 k c → lineReserved c = false → l.state = .ready →
      Completes (.iLstart e) s (fun t => WritesLine c s t n { l with
        state := .running, head := 0, tail := 0, rel := 0, pos := 0,
        pegs := List.replicate (ldSlots l.desc) {}, credit := 64 * ldRate l.desc })) ∧
    (AtIns s e 0x23 k c → lineReserved c = false → 0 < countPegs l .taken → l.state ≠ .done ∨ l.rel + 1 ≠ streamPegs l.desc →
      Completes (.iLrel e) s (fun t => WritesLine c s t n { setPeg l (slotOf l l.rel) {} with rel := l.rel + 1 })) ∧
    (AtIns s e 0x23 k c → lineReserved c = false → 0 < countPegs l .taken → l.state = .done → l.rel + 1 = streamPegs l.desc →
      Completes (.iLrel e) s (fun t => WritesLine c s t n {})) ∧
    (AtIns s e 0x25 k c → lineReserved c = false →
      Completes (.iLstat e) s (fun t => WritesReg c s t (fLineSD c.w0) (lineWord l)))

/-- 06 R215, R217, R218: an LWAIT whose HEAD peg is FULL marks it TAKEN, writes its basket address in 64-byte units to SD and its byte
count to SD + 1, and advances HEAD; one whose HEAD peg is neither FULL nor the faulted peg stalls where it stands. -/
def Obligations.LwaitTakesTheHeadPeg : Prop :=
  ∀ (s : State) (e : Fin 96) (k : Nat) (c : Ic),
    let v := engOf s c
    let n := fLine c.w0
    let l := lineOf v n
    let slot := slotOf l l.head
    AtIns s e 0x22 k c → lineReserved c = false → fLineSD c.w0 ≠ 31 → l.state ≠ .idle → l.state ≠ .ready → l.state ≠ .cancelling →
    l.head ≠ streamPegs l.desc → countPegs l .taken ≠ ldSlots l.desc →
    ((pegAt l slot).state = .full → (pegAt l slot).peg = l.head → Completes (.iLwait e) s (fun t => OnlyEngine c s t ∧
      (∀ r, sreg (engOf t c) r = if r = fLineSD c.w0 + 1 then BitVec.ofNat 32 (dstLen l.desc (pegSrcLen l.desc l.head))
        else if r = fLineSD c.w0 ∧ r ≠ 0 then BitVec.ofNat 32 (slotOff l.desc slot / 64) else sreg v r) ∧
      (∀ m, lineOf (engOf t c) m = if m = n then { setPeg l slot { pegAt l slot with state := .taken } with head := l.head + 1 }
        else lineOf v m) ∧
      engOf t c = { afterSeq c v with s := (engOf t c).s, lines := (engOf t c).lines, dirty := (engOf t c).dirty,
                                      stalled := (engOf t c).stalled, stallFrom := none })) ∧
    (¬ ((pegAt l slot).state = .full ∧ (pegAt l slot).peg = l.head) → ¬ (l.state = .faulted ∧ l.head = l.faultPeg) →
      Completes (.iLwait e) s (fun t => OnlyEngine c s t ∧ engOf t c = { v with stallFrom := (engOf t c).stallFrom }))

/-- 06 R226, R228: LCANCEL makes the line IDLE, or CANCELLING while it has transfers in flight, with its slots EMPTY or DRAINING; bytes
that have landed stay; other lines are left alone. -/
def Obligations.LcancelCancelsTheLine : Prop :=
  ∀ (s : State) (e : Fin 96) (k : Nat) (c : Ic),
    let n := fLine c.w0
    let l := lineOf (engOf s c) n
    AtIns s e 0x24 k c → lineReserved c = false → l.state ≠ .cancelling →
    Completes (.iLcancel e) s (fun t =>
      (lineOf (engOf t c) n).state = (if l.state = .idle ∨ flying s c.ctx c.idx n = [] then .idle else .cancelling) ∧
      (l.state ≠ .idle → ∀ p ∈ (lineOf (engOf t c) n).pegs, p.state = .empty ∨ p.state = .draining) ∧
      (∀ m, m ≠ n → lineOf (engOf t c) m = lineOf (engOf s c) m) ∧
      t.pending = s.pending ∧ t.nv = s.nv ∧ t.dev.mem = s.dev.mem ∧ t.dev.cmds = s.dev.cmds ∧ t.dev.ctxs = s.dev.ctxs)

/-- 06 R205, R207, R213, R214: the refill adds RATE × 64 bytes up to the cap of BURST to the credit of every regulated line that has been
started; before a transfer is issued, each running INDEX line that comes to a run reads its entry of the list; the transfer is that of an
eligible line of the highest PRIO, and takes its size from the credit. -/
def Obligations.LineUnitRefillsCreditAndIssuesTransfers : Prop :=
  ∀ (s : State) (e : Fin 96) (k i : Nat) (z : Launch), runningOn s.dev e = some (k, z, i) →
    let v := getE s.dev z.ctx i
    (Completes (.lineCreditRefill e) s (fun t => t = { s with dev := { s.dev with eng := t.dev.eng } } ∧
      ∀ n, let l := lineOf v n
        lineOf (getE t.dev z.ctx i) n = if l.state ≠ .idle ∧ l.state ≠ .ready ∧ ldRate l.desc ≠ 0 then
          { l with credit := max l.credit (min (l.credit + 64 * ldRate l.desc) (4096 * 2 ^ ldBurst l.desc)) } else l)) ∧
    (let d := beginRuns s.dev z.ctx i
      let w := getE d z.ctx i
      (∀ m, ldMode (lineOf v m).desc ≠ 1 → lineOf w m = lineOf v m) ∧
      (∀ m sc p, m < 16 → ldMode (lineOf v m).desc = 1 → (lineOf v m).state = .running → nextKind (lineOf v m) = some (sc, p) →
        let r := p / ldRun (lineOf v m).desc
        let a := listBase (lineOf v m).desc + 8 * r
        runKnown (lineOf v m) p = false → rinsing s.dev z.ctx i a 8 = false → (∀ o ∈ (lineOf v m).olds, o.1 ≠ r) →
        HandedOver s z.ctx i .line a (a + 8) →
        lineOf w m = { lineOf v m with runs := smPut (lineOf v m).runs r (leNat (memRead s.dev.mem.baskets (shareAt s z.ctx i a) 8) % 2 ^ 52) }) ∧
      ∀ n scale va pos len, chooseLine d z.ctx i = some n →
        nextTransfer (lineOf w n) = some (scale, va, pos, len) → remoteOf s.dev z.ctx va false = none →
        (lineEligible d z.ctx i (lineOf w n) = true ∧
          ∀ m, m < 16 → lineEligible d z.ctx i (lineOf w m) = true → ldPrio (lineOf w m).desc ≤ ldPrio (lineOf w n).desc) ∧
        Completes (.lineTransferIssue e) s (fun t =>
          t = { s with dev := { s.dev with
            freeCtr := t.dev.freeCtr, eng := t.dev.eng, xfers := t.dev.xfers, nextXfer := s.dev.nextXfer + 1,
            mem := { s.dev.mem with caches := t.dev.mem.caches } } } ∧
          smFind t.dev.xfers s.dev.nextXfer = some {
            kind := .line n scale (slotOf (lineOf w n) (fillPeg (lineOf w n))) pos,
            ctx := z.ctx, idx := i, va := va, off := 0, roff := 0, len := len, sem := none, drain := false, tags := [], pc := 0, data := [],
            launch := k } ∧
          lineOf (getE t.dev z.ctx i) n = noteIssued (lineOf w n) scale len ∧
          (ldRate (lineOf w n).desc ≠ 0 → (lineOf (getE t.dev z.ctx i) n).credit + len = (lineOf w n).credit) ∧
          ∀ m, m ≠ n → lineOf (getE t.dev z.ctx i) m = lineOf w m))

/-- 06 R212, R222, R226, R227: a line transfer that completes lands in its peg; one into a DRAINING slot writes nothing; one that fails
leaves the line FAULTED at the recorded position. -/
def Obligations.LineTransfersLandDrainOrFail : Prop :=
  ∀ (s : State) (id n slot pos : Nat) (x : Xfer), smFind s.dev.xfers id = some x → x.kind = .line n false slot pos →
    let l := lineOf (getE s.dev x.ctx x.idx) n
    let off := slotOff l.desc (slotOf l (pos / pegSrc l.desc)) + (pos - pos / pegSrc l.desc * pegSrc l.desc)
    let left (t : State) := flying t x.ctx x.idx n
    (∀ bs, x.drain = false → ldExpand l.desc = 0 → remoteOf s.dev x.ctx x.va false = none →
      readVirt s.dev x.ctx x.va x.len .engRead = .ok bs → rinsing s.dev x.ctx x.idx off bs.length = false →
      HandedOver s x.ctx x.idx .line off (off + bs.length) →
      Completes (.lineTransferComplete id) s (fun t =>
        t = { s with dev := { s.dev with
          xfers := smErase s.dev.xfers id, eng := t.dev.eng, mem := { s.dev.mem with baskets := t.dev.mem.baskets } } } ∧
        (∀ j, (h : j < bs.length) → memByte t.dev.mem.baskets (shareAt s x.ctx x.idx off + j) = bs[j]) ∧
        (∀ a, (a < shareAt s x.ctx x.idx off ∨ shareAt s x.ctx x.idx off + bs.length ≤ a) →
          memByte t.dev.mem.baskets a = memByte s.dev.mem.baskets a) ∧
        (∀ m, m ≠ n → lineOf (getE t.dev x.ctx x.idx) m =
          { lineOf (getE s.dev x.ctx x.idx) m with olds := (lineOf (getE t.dev x.ctx x.idx) m).olds }) ∧
        (NoIndexLine s x.ctx x.idx → ∀ m, m ≠ n → lineOf (getE t.dev x.ctx x.idx) m = lineOf (getE s.dev x.ctx x.idx) m))) ∧
    (x.drain = true → Completes (.lineTransferComplete id) s (fun t =>
      t = { s with dev := { s.dev with xfers := smErase s.dev.xfers id, eng := t.dev.eng } } ∧
      (left t = [] → (lineOf (getE t.dev x.ctx x.idx) n).state = .idle) ∧
      ∀ m, m ≠ n → lineOf (getE t.dev x.ctx x.idx) m = lineOf (getE s.dev x.ctx x.idx) m)) ∧
    (∀ c a, x.drain = false → remoteOf s.dev x.ctx x.va false = none → smFind s.dev.ctxs x.ctx = some c →
      readVirt s.dev x.ctx x.va x.len .engRead = .error (.unmapped a) → l.state = .running →
      Completes (.lineTransferFault id false) s (fun t =>
        t = { s with dev := { s.dev with xfers := smErase s.dev.xfers id, eng := t.dev.eng } } ∧
        ∀ m, lineOf (getE t.dev x.ctx x.idx) m = if m = n then { l with
            out := l.out - 1, state := .faulted, fault := 0x15, faultPos := pos, faultPeg := pos / pegSrc l.desc, faultVa := x.va }
          else lineOf (getE s.dev x.ctx x.idx) m))

/-- 06 R203, R222, R223, R243, R245: a line in RECALL whose page is here again runs from the recorded position; a granule whose rinse is complete
is zero; a launch past its WATCHDOG ends with the resumable fault CTL_WATCHDOG, its sequencers stopping until the transfers that they have
issued have completed (R245). -/
def Obligations.EngineTimersAndRecallsEnd : Prop :=
  ∀ (s : State) (e : Fin 96),
    (∀ (n : Fin 16) k z i x key p, runningOn s.dev e = some (k, z, i) →
      let l := lineOf (getE s.dev z.ctx i) n
      l.state = .recall → l.out = 0 → smFind s.dev.ctxs z.ctx = some x → leafKey x l.faultVa = some (key, p) → p.transit = false →
      p.kind = .localPage → Completes (.lineResume e n) s (fun t => t = { s with dev := { s.dev with eng := t.dev.eng } } ∧
        (lineOf (getE t.dev z.ctx i) n).state = .running ∧ (lineOf (getE t.dev z.ctx i) n).pos = l.faultPos ∧
        (lineOf (getE t.dev z.ctx i) n).desc = l.desc ∧
        ∀ m, m ≠ (n : Nat) → lineOf (getE t.dev z.ctx i) m = lineOf (getE s.dev z.ctx i) m)) ∧
    (∀ g : Fin 128, (128 * (e : Nat) + g) ∈ s.dev.mem.granRinse → Completes (.basketRinseComplete e g) s (fun t =>
      t = { s with dev := { s.dev with mem := { s.dev.mem with granRinse := t.dev.mem.granRinse, baskets := t.dev.mem.baskets } } } ∧
      (128 * (e : Nat) + g) ∉ t.dev.mem.granRinse ∧
      ∀ a, memByte t.dev.mem.baskets a = if a / 65536 = 128 * (e : Nat) + g then 0#8 else memByte s.dev.mem.baskets a)) ∧
    (∀ k z cid c, smFind s.dev.launches k = some z → z.state = .running → z.purpose = .prog cid → z.watchdog ≠ 0 →
      z.started + 400 * z.watchdog ≤ s.dev.now → smFind s.dev.cmds cid = some c → c.fin = none →
      ((∀ i ∈ launchEngines z, unitXfers s.dev z.ctx i = []) →
        Completes (.launchWatchdogExpire k) s (fun t => t.pending = s.pending ∧ t.nv = s.nv ∧
          (∃ r, finOf t cid = some (0x0030#16, 0x8004#16, r)) ∧ (smFind t.dev.launches k).map (·.state) = some .ended)) ∧
      ((∃ i ∈ launchEngines z, unitXfers s.dev z.ctx i ≠ []) →
        Completes (.launchWatchdogExpire k) s (fun t => t = { s with dev := { s.dev with eng := t.dev.eng } } ∧
          ∀ i ∈ launchEngines z, (getE t.dev z.ctx i).seq ≠ .running)))

/-! ### Engine programs: transfers and synchronisation (06) -/

/-- 06 R230: XFER issues a transfer of LEN × 64 bytes by its direction: basket to memory (0), memory to basket (1), basket to the basket of
another engine (2). -/
def Obligations.XferIssuesATransfer : Prop :=
  ∀ (s : State) (e : Fin 96) (n : Nat) (c : Ic),
    let dir := bits c.w0 23 22
    let len := 64 * bits c.w1 14 0
    let off := 64 * bits c.w1 31 15
    let va := c.w2 + 2 ^ 32 * c.w3
    let sem := if bit c.w0 21 then some (bits c.w0 13 10) else none
    let dst := bits c.w0 20 14
    AtIns s e 0x30 n c → c.w0 % 2 ^ 10 = 0 → len ≠ 0 → BasketOpen s c.ctx c.idx off len → outstanding s.dev c.ctx c.idx < 128 →
    (dir ≠ 1 → HandedOver s c.ctx c.idx .transfer off (off + len)) →
    (dir < 2 → c.w3 < 2 ^ 20 ∧ ∀ p ∈ remotePieces va len, remoteOf s.dev c.ctx (va + p.1) (dir == 0) = none) →
    (dir = 2 → c.w2 % 2 ^ 15 = 0 ∧ c.w3 = 0 ∧ dst < launchCount s.dev c ∧
      BasketOpen s c.ctx (ofLaunchIndex s.dev c.launch dst) (64 * bits c.w2 31 15) len) → dir ≠ 3 →
    Completes (.iXfer e) s (fun t => ∃ x,
      t = { s with dev := { s.dev with
        xfers := smPut s.dev.xfers s.dev.nextXfer x, nextXfer := s.dev.nextXfer + 1, eng := t.dev.eng,
        mem := { s.dev.mem with caches := t.dev.mem.caches } } } ∧
      engOf t c = afterSeq c (engOf s c) ∧ x.ctx = c.ctx ∧ x.idx = c.idx ∧ x.off = off ∧ x.len = len ∧ x.sem = sem ∧ x.tags = [] ∧
      (dir ≠ 2 → x.va = va) ∧ (dir = 0 → x.kind = .toMem) ∧ (dir = 1 → x.kind = .toBasket) ∧
      x.launch = c.launch ∧ (dir = 2 → x.kind = .toEngine (ofLaunchIndex s.dev c.launch dst) ∧ x.roff = 64 * bits c.w2 31 15) ∧
      (dir ≠ 1 → x.data = memRead s.dev.mem.baskets (shareAt s c.ctx c.idx off) len))

/-- 06 R231, R233: SIG increments the semaphore of the engine it names, SWAIT subtracts its count once the semaphore is that high and
stalls until then, BAR waits for the other engines of the launch and the last one to arrive moves them all on. -/
def Obligations.SignalsWaitsAndBarriers : Prop :=
  ∀ (s : State) (e : Fin 96) (n : Nat) (c : Ic) (z : Launch), smFind s.dev.launches c.launch = some z →
    let k := bits c.w0 13 10
    let dst := bits c.w0 20 14
    let to_ := z.engFirst + dst
    let v := engOf s c
    (AtIns s e 0x31 n c → c.w0 % 2 ^ 10 = 0 → bits c.w0 23 21 = 0 → c.w1 = 0 → c.w2 = 0 → c.w3 = 0 → dst < z.engCount →
      earlierTo s.dev c.ctx c.idx to_ s.dev.nextXfer = false → smGet 0 (getE s.dev c.ctx to_).sem k < 65535 →
      Completes (.iSig e) s (fun t => t = { s with dev := { s.dev with eng := t.dev.eng } } ∧
        smGet 0 (getE t.dev c.ctx to_).sem k = smGet 0 (getE s.dev c.ctx to_).sem k + 1 ∧
        (∀ i m, i ≠ to_ ∨ m ≠ k → smGet 0 (getE t.dev c.ctx i).sem m = smGet 0 (getE s.dev c.ctx i).sem m) ∧
        (engOf t c).pc = (loopNext c.pc (c.pc + 1) v.loops).2)) ∧
    (AtIns s e 0x32 n c → bits c.w0 23 14 = 0 → c.w1 = 0 → c.w2 = 0 → c.w3 = 0 →
      (bits c.w0 9 0 ≤ smGet 0 v.sem k → Completes (.iSwait e) s (fun t => OnlyEngine c s t ∧
        (∀ m, smGet 0 (engOf t c).sem m = if m = k then smGet 0 v.sem k - bits c.w0 9 0 else smGet 0 v.sem m) ∧
        engOf t c = { afterSeq c v with sem := (engOf t c).sem, dirty := (engOf t c).dirty })) ∧
      (smGet 0 v.sem k < bits c.w0 9 0 → exec (.iSwait e) s = .next s)) ∧
    (AtIns s e 0x33 n c → bits c.w0 23 14 = 0 → bits c.w0 9 0 = 0 → c.w1 = 0 → c.w2 = 0 → c.w3 = 0 → c.idx ∈ launchEngines z →
      ((∃ i ∈ launchEngines z, i ≠ c.idx ∧ (getE s.dev c.ctx i).barAt ≠ some k) →
        Completes (.iBar e) s (fun t => OnlyEngine c s t ∧ engOf t c = afterJump c { v with barAt := some k } c.pc)) ∧
      ((∀ i ∈ launchEngines z, i ≠ c.idx → (getE s.dev c.ctx i).barAt = some k) →
        Completes (.iBar e) s (fun t => t = { s with dev := { s.dev with eng := t.dev.eng } } ∧
          ∀ i ∈ launchEngines z, (getE t.dev c.ctx i).barAt = none ∧
            (getE t.dev c.ctx i).pc = (let w := getE s.dev c.ctx i
              let p := if i = c.idx then c.pc else w.pc
              (loopNext p (p + 1) w.loops).2))))

/-- 06 R230 to R232: a completed transfer has moved its bytes and incremented its semaphore on the engine that receives them. -/
def Obligations.XferCompletesAtItsDestination : Prop :=
  ∀ (s : State) (id : Nat) (x : Xfer), smFind s.dev.xfers id = some x → x.tags = [] →
    (∀ d1, x.kind = .toMem → inWindowOf s.dev x.ctx x.va = false → xferStore s.dev x = .ok d1 → x.sem = none →
      Completes (.xferComplete id true) s (fun t => t = { s with dev := { d1 with xfers := smErase d1.xfers id } })) ∧
    (∀ bs k, x.kind = .toBasket → xferBytes s.dev x = .ok bs → x.sem = some k → smGet 0 (getE s.dev x.ctx x.idx).sem k < 65535 →
      HandedOver s x.ctx x.idx .transfer x.off (x.off + bs.length) →
      Completes (.xferComplete id true) s (fun t =>
        t = { s with dev := { s.dev with
          xfers := smErase s.dev.xfers id, eng := t.dev.eng, mem := { s.dev.mem with baskets := t.dev.mem.baskets } } } ∧
        (∀ j, (h : j < bs.length) → memByte t.dev.mem.baskets (shareAt s x.ctx x.idx x.off + j) = bs[j]) ∧
        (∀ a, (a < shareAt s x.ctx x.idx x.off ∨ shareAt s x.ctx x.idx x.off + bs.length ≤ a) →
          memByte t.dev.mem.baskets a = memByte s.dev.mem.baskets a) ∧
        smGet 0 (getE t.dev x.ctx x.idx).sem k = smGet 0 (getE s.dev x.ctx x.idx).sem k + 1)) ∧
    (∀ dst, x.kind = .toEngine dst → earlierTo s.dev x.ctx x.idx dst id = false →
      x.sem = none → (∀ p ∈ s.dev.xfers, p.2.kind ≠ .sig dst) →
      HandedOver s x.ctx dst (.remote none) x.roff (x.roff + x.data.length) →
      Completes (.xferComplete id true) s (fun t =>
        t = { s with dev := { s.dev with
          xfers := smErase s.dev.xfers id, eng := t.dev.eng, mem := { s.dev.mem with baskets := t.dev.mem.baskets } } } ∧
        (∀ j, (h : j < x.data.length) → memByte t.dev.mem.baskets (shareAt s x.ctx dst x.roff + j) = x.data[j]) ∧
        ∀ a, (a < shareAt s x.ctx dst x.roff ∨ shareAt s x.ctx dst x.roff + x.data.length ≤ a) →
          memByte t.dev.mem.baskets a = memByte s.dev.mem.baskets a))

/-! ### The press (04) -/

/-- 04 R134, R144: PSET writes PCTL, PSTORE writes the tile image to the basket, PLOAD loads a tile image into the tile, tag included, and
sets the tile's PNF bit where the loaded tag has NF. -/
def Obligations.PressRegistersAndTileImagesMove : Prop :=
  ∀ (s : State) (e : Fin 96) (n : Nat) (c : Ic),
    let v := engOf s c
    let tile := bits c.w0 23 17
    let off := 64 * bits c.w1 31 15
    (AtIns s e 0x44 n c → bits c.w0 23 0 = 0 → c.w3 = 0 → Completes (.iPset e) s (fun t => OnlyEngine c s t ∧
      engOf t c = { afterSeq c v with pctl0 := BitVec.ofNat 32 c.w1 &&& 0xFFFFFF00#32, pctl1 := BitVec.ofNat 32 c.w2 })) ∧
    (bits c.w0 16 0 = 0 → bits c.w1 14 0 = 0 → c.w2 = 0 → c.w3 = 0 → tile < tileCount s.dev c.ctx → BasketOpen s c.ctx c.idx off 16448 →
      HandedOver s c.ctx c.idx .press off (off + 16448) →
      (AtIns s e 0x42 n c → Completes (.iPstore e) s (fun t => OnlyEngineAndBasket c s t ∧
        engOf t c = { afterSeq c v with dirty := (engOf t c).dirty, lines := (engOf t c).lines } ∧ LinesNote s t c.ctx c.idx ∧
        (∀ k, k < 16448 → memByte t.dev.mem.baskets (shareAt s c.ctx c.idx off + k) = nth 0#8 (tileImage (tileOf v tile)) k) ∧
        ∀ a, (a < shareAt s c.ctx c.idx off ∨ shareAt s c.ctx c.idx off + 16448 ≤ a) →
          memByte t.dev.mem.baskets a = memByte s.dev.mem.baskets a)) ∧
      (AtIns s e 0x43 n c →
        let x := tileOfImage (memRead s.dev.mem.baskets (shareAt s c.ctx c.idx off) 16448)
        Completes (.iPload e) s (fun t => OnlyEngine c s t ∧ WritesTile c s t tile x ∧
          engOf t c = { afterSeq c v with tiles := (engOf t c).tiles, pnf := (engOf t c).pnf } ∧
          (tile < 128 → x.tag.nf = true → (smGet 0#32 (engOf t c).pnf (tile / 32)).getLsbD (tile % 32) = true) ∧
          (x.tag.nf = false → (engOf t c).pnf = v.pnf))))

/-- 04 R142, R143: PCOMB combines two tiles that are the two children of one node into TILE_D, the lower LO on the left, and invalidates
TILE_S unless it is TILE_D. -/
def Obligations.PcombFormsTheParentTile : Prop :=
  ∀ (s : State) (e : Fin 96) (n : Nat) (c : Ic),
    let v := engOf s c
    let td := bits c.w0 23 17
    let ts := bits c.w0 16 10
    let a := tileOf v td
    let b := tileOf v ts
    let l := if a.tag.lo < b.tag.lo then a else b
    let r := if a.tag.lo < b.tag.lo then b else a
    let out := (runFlags (combTiles (subnOf s.dev c.ctx) l r)).1.1
    AtIns s e 0x41 n c → bits c.w0 9 0 = 0 → c.w1 = 0 → c.w2 = 0 → c.w3 = 0 → td < tileCount s.dev c.ctx → ts < tileCount s.dev c.ctx →
    combBad a.tag b.tag = false → Completes (.iPcomb e) s (fun t => OnlyEngine c s t ∧
      (tileOf (engOf t c) td).tag = { l.tag with hi := r.tag.hi, nf := l.tag.nf || r.tag.nf } ∧
      (tileOf (engOf t c) td).ent = out.foldl (fun m p => if packEntry p.2 = 0#64 then m else (p.1, packEntry p.2) :: m) [] ∧
      (ts ≠ td → tileOf (engOf t c) ts = { b with tag := { b.tag with valid := false } }) ∧
      (∀ m, m ≠ td → m ≠ ts → tileOf (engOf t c) m = tileOf v m) ∧
      engOf t c = { afterSeq c v with tiles := (engOf t c).tiles, pnf := (engOf t c).pnf, pstat := (engOf t c).pstat,
                                      aflags := (engOf t c).aflags })

/-- 04 R138, R139, R146, R148, 05 R177: a PMUL or FDOT with INIT writes the tag of its chunk, one without INIT advances KPOS by KLEN and keeps
the rest of the tag; entries outside the active rows and columns keep their values; with KLEN 0 and without INIT it changes nothing. -/
def Obligations.ProductsKeepTagsAndInactiveEntries : Prop :=
  ∀ (s : State) (e : Fin 96) (n : Nat) (c : Ic) (dot : Bool) (fa fb : Fd),
    let v := engOf s c
    let m := mulOf c dot
    let old := tileOf v m.tile
    let unit : BUnit := if dot then .finisher else .press
    let alen := ceilDiv m.klen (kStep m.mode) * aStep m.mode fa.block
    let blen := ceilDiv m.klen (kStep m.mode) * bStep m.mode fb.block dot
    let row : Instr := if dot then .iFdot e else .iPmul e
    AtIns s e (if dot then 0x56 else 0x40) n c → mulReserved c = false → m.mode ≤ 3 → m.group ≤ 2 → pctlChlog v ≤ 6 →
    (if dot then m.ncols = 0 else m.mode = 3 → m.ncols ≤ 31) → fdOf (fdReg v m.fda) = some fa → fdOf (fdReg v m.fdb) = some fb →
    modeAccepts m.mode fa = true → modeAccepts m.mode fb = true → m.tile < tileCount s.dev c.ctx →
    BasketOpen s c.ctx c.idx m.aAddr alen → BasketOpen s c.ctx c.idx m.bAddr blen → mulOrderBad v m = false →
    (m.init = true → m.bias = true → m.chunk ≠ 0) →
    HandedOver s c.ctx c.idx unit m.aAddr (m.aAddr + alen) → HandedOver s c.ctx c.idx unit m.bAddr (m.bAddr + blen) →
    (m.klen = 0 → m.init = false → Completes row s (fun t => OnlyEngine c s t ∧ engOf t c = afterSeq c v)) ∧
    (m.init = true ∨ m.klen ≠ 0 → Completes row s (fun t => OnlyEngine c s t ∧
      (tileOf (engOf t c) m.tile).tag = { (if m.init then
          ({ lo := m.chunk, hi := m.chunk + 1, nchunk := pctlNchunk v, valid := true, nf := false, mode := m.mode, group := m.group,
             chlog := pctlChlog v, kpos := 0, klast := pctlKlast v } : Tag) else old.tag) with
        kpos := (if m.init then 0 else old.tag.kpos) + m.klen, nf := (tileOf (engOf t c) m.tile).tag.nf } ∧
      (∀ i j, i < 32 → j < 64 → (m.mrows < i ∨ (if m.mode = 3 then 2 * (m.ncols + 1) else m.ncols + 1) ≤ j) →
        entryAt (tileOf (engOf t c) m.tile) (64 * i + j) = entryAt old (64 * i + j)) ∧
      (∀ q, q ≠ m.tile → tileOf (engOf t c) q = tileOf v q) ∧
      engOf t c = { afterSeq c v with tiles := (engOf t c).tiles, pnf := (engOf t c).pnf, pstat := (engOf t c).pstat,
                                      aflags := (engOf t c).aflags }))

/-! ### The finisher (05) -/

/-- 05 R155, R159, R166, R182: FSET writes FCTL, half of FIDX or a scalar operand register, FCHAIN loads the eight stages of a chain, FCURVE a
table image that is good. -/
def Obligations.FinisherRegistersLoad : Prop :=
  ∀ (s : State) (e : Fin 96) (n : Nat) (c : Ic),
    let v := engOf s c
    let off := 64 * bits c.w1 31 15
    let k := bits c.w1 14 11
    let w : Word := BitVec.ofNat 32 c.w2
    let target := bits c.w1 31 28
    (AtIns s e 0x57 n c → finUsed c 0 0xFF000000 0xFFFFFFFF 0 = true → target ≤ 3 → Completes (.iFset e) s (fun t => OnlyEngine c s t ∧
      (target = 0 → engOf t c = { afterSeq c v with fctl := w &&& 0xFF0007FF#32 }) ∧
      (target = 1 → engOf t c = { afterSeq c v with fidx := v.fidx.extractLsb' 32 32 ++ w }) ∧
      (target = 2 → engOf t c = { afterSeq c v with fidx := w ++ v.fidx.extractLsb' 0 32 }) ∧
      (target = 3 → engOf t c = { afterSeq c v with fs := (engOf t c).fs } ∧
        ∀ r, smGet 0#32 (engOf t c).fs r = if r = bits c.w1 27 24 then w else smGet 0#32 v.fs r))) ∧
    (AtIns s e 0x58 n c → finUsed c 0 0xFFFFF800 0 0 = true → BasketOpen s c.ctx c.idx off 32 →
      HandedOver s c.ctx c.idx .finisher off (off + 32) → Completes (.iFchain e) s (fun t => OnlyEngine c s t ∧
        engOf t c = { afterSeq c v with ch := (engOf t c).ch } ∧
        (∀ i, i < 8 → smGet 0#32 (engOf t c).ch (8 * k + i) = word (memRead s.dev.mem.baskets (shareAt s c.ctx c.idx off) 32) (4 * i)) ∧
        ∀ j, (j < 8 * k ∨ 8 * k + 8 ≤ j) → smGet 0#32 (engOf t c).ch j = smGet 0#32 v.ch j)) ∧
    (AtIns s e 0x59 n c → finUsed c 0 0xFFFFF800 0 0 = true → BasketOpen s c.ctx c.idx off 16448 →
      HandedOver s c.ctx c.idx .finisher off (off + 16448) →
      let img := memOf (memRead s.dev.mem.baskets (shareAt s c.ctx c.idx off) 16448)
      curveBad img = false → Completes (.iFcurve e) s (fun t => OnlyEngine c s t ∧
        engOf t c = { afterSeq c v with curves := (engOf t c).curves } ∧
        ∀ j, smFind (engOf t c).curves j = if j = k then some img else smFind v.curves j))

/-- 05 R153, R174, R175, R178, R179: FLD and FST of INT32 elements, which pass unchanged; FPERM by its four patterns, with +0 and PERM_RANGE where the
source lies at or beyond n. -/
def Obligations.FinisherMovesElements : Prop :=
  ∀ (s : State) (e : Fin 96) (n : Nat) (c : Ic) (f : Fd),
    let v := engOf s c
    let nreg := fNREG c.w0
    let len := vecLen v nreg
    let addr := 64 * bits c.w1 31 15
    let src (k : Nat) : Nat := if bits c.w1 31 30 = 0 then (tElem v (bits c.w1 29 24) k).toNat
      else if bits c.w1 31 30 = 1 then 256 * (k / 256) + 16 * (k % 16) + k % 256 / 16
      else if bits c.w1 31 30 = 2 then bits c.w1 19 9 + k / 2 ^ bits c.w1 23 20 else (k + bits c.w1 19 9) % len
    (fdOf (fdReg v (bits c.w1 14 11)) = some f → f.elem = 6 → f.block = false → BasketOpen s c.ctx c.idx addr (4 * len) →
      HandedOver s c.ctx c.idx .finisher addr (addr + 4 * len) →
      (AtIns s e 0x50 n c → finUsed c 0xFC0E00 0xFFFFF800 0xFFFF8000 0 = true → fTD c.w0 + nreg ≤ 64 →
        Completes (.iFld e) s (fun t => OnlyEngine c s t ∧ WritesVec c s t (fTD c.w0)
          ((span 0 len).map (fun k => word (memRead s.dev.mem.baskets (shareAt s c.ctx c.idx addr) (4 * len)) (4 * k))) 0#32)) ∧
      (AtIns s e 0x51 n c → finUsed c 0x03FE00 0xFFFFF800 0xFFFF8000 0 = true → fTS c.w0 + nreg ≤ 64 → f.stoch = false →
        Completes (.iFst e) s (fun t => OnlyEngineAndBasket c s t ∧
          engOf t c = { afterSeq c v with dirty := (engOf t c).dirty, lines := (engOf t c).lines } ∧ LinesNote s t c.ctx c.idx ∧
          (∀ k b, k < len → b < 4 → memByte t.dev.mem.baskets (shareAt s c.ctx c.idx addr + 4 * k + b) =
            (tElem v (fTS c.w0) k).extractLsb' (8 * b) 8) ∧
          ∀ a, (a < shareAt s c.ctx c.idx addr ∨ shareAt s c.ctx c.idx addr + 4 * len ≤ a) →
            memByte t.dev.mem.baskets a = memByte s.dev.mem.baskets a))) ∧
    (AtIns s e 0x55 n c → finUsed c 0xFFFE00 0xFFFFFE00 0 0 = true → fTD c.w0 + nreg ≤ 64 → fTS c.w0 + nreg ≤ 64 →
      (bits c.w1 31 30 = 0 → bits c.w1 29 24 + nreg ≤ 64) → (bits c.w1 31 30 = 2 → bits c.w1 23 20 ≤ 11) →
      Completes (.iFperm e) s (fun t => OnlyEngine c s t ∧ WritesVec c s t (fTD c.w0)
        ((span 0 len).map (fun k => if src k < len then tElem v (fTS c.w0) (src k) else 0#32))
        (if ∃ k, k < len ∧ len ≤ src k then Fl.permRange else 0#32)))

/-- 05 R159, R162, R171 to R173, R180: FOP runs its chain on every element, FRED writes the result of segment j to element j, FACC resolves the entries
of a tile into a vector and clears VALID with CLEAR; elements beyond n keep their values. -/
def Obligations.FinisherComputesVectors : Prop :=
  ∀ (s : State) (e : Fin 96) (n : Nat) (c : Ic),
    let v := engOf s c
    let subn := subnOf s.dev c.ctx
    let nreg := fNREG c.w0
    let len := vecLen v nreg
    let ws := chainWords v (fCH c.w0)
    let xs := readVec v (fTS c.w0) len
    (AtIns s e 0x53 n c → finUsed c 0xFFFFE0 0 0 0 = true → fTD c.w0 + nreg ≤ 64 → fTS c.w0 + nreg ≤ 64 → chainBad nreg ws = false →
      curveMissing v ws = false → drawsRandom ws = false →
      let r := runFlags (runChain subn v (fun _ => 0) (chainStages ws) xs)
      r.1.length = len ∧ (chainStages ws = [] → r.1 = xs) ∧
        Completes (.iFop e) s (fun t => OnlyEngine c s t ∧ WritesVec c s t (fTD c.w0) r.1 r.2)) ∧
    (AtIns s e 0x54 n c → finUsed c 0xFFFE00 0xFF000000 0 0 = true → fTS c.w0 + nreg ≤ 64 → bit c.w1 28 = false →
      (bits c.w1 31 29 = 1 ∨ bits c.w1 31 29 = 2) → fTD c.w0 < 64 →
      let r := runFlags (foldExtreme (bits c.w1 31 29 == 1) subn xs)
      Completes (.iFred e) s (fun t => OnlyEngine c s t ∧ WritesVec c s t (fTD c.w0) [r.1] r.2)) ∧
    (∀ fa fb, let tile := bits c.w1 31 25
      let x := tileOf v tile
      AtIns s e 0x52 n c → finUsed c 0xFC0FE0 0xFFFFC000 0xFFFFF800 0xFFFF8000 = true → bit c.w1 24 = false → bit c.w1 22 = false →
      fdOf (fdReg v (bits c.w1 21 18)) = some fa → fdOf (fdReg v (bits c.w1 17 14)) = some fb → fTD c.w0 + nreg ≤ 64 →
      tile < tileCount s.dev c.ctx → x.tag.valid = true →
      let r := runFlags (readTile subn fa fb x len)
      r.1.length = len ∧ Completes (.iFacc e) s (fun t => OnlyEngine c s t ∧
        (∀ j, smGet 0#32 (engOf t c).t j = if 256 * fTD c.w0 ≤ j ∧ j < 256 * fTD c.w0 + len then nth 0#32 r.1 (j - 256 * fTD c.w0)
          else smGet 0#32 v.t j) ∧
        WritesTile c s t tile (if bit c.w1 23 then { x with tag := { x.tag with valid := false } } else x) ∧
        engOf t c = { afterSeq c v with t := (engOf t c).t, tiles := (engOf t c).tiles, aflags := v.aflags ||| r.2 }))

/-! ### The machine as a whole -/

/-- A step takes the command at the front of the queue and runs it with the rest of the queue waiting; on an empty queue one h-cycle
passes (the model's choice, log 1). -/
def Obligations.StepRunsTheFrontCommand : Prop :=
  (∀ (s : State) (c : Instr), step { s with pending := c :: s.pending } = exec c s) ∧
  (∀ s : State, s.pending = [] → step s = .next (tick s)) ∧
  (∀ s : State, s.dev.pwr.rails = true → (tick s).dev.now = s.dev.now + 1 ∧ (tick s).dev.mem = s.dev.mem ∧ (tick s).nv = s.nv ∧
    (tick s).dev.cmds = s.dev.cmds ∧ (tick s).dev.queues = s.dev.queues ∧ (tick s).dev.out = s.dev.out)

/-- Every command whose operands can reach the part ends in a next state, and no command touches the queue of those that wait; any other
operands end in the fault ILL_FORMED. -/
def Obligations.WellFormedCommandsComplete : Prop :=
  ∀ (i : Instr) (s : State),
    (i.wf = true → ∃ t, exec i s = .next t ∧ t.pending = s.pending) ∧ (i.wf = false → exec i s = .fault .illFormed)

/-- 16 R572, R573, R578; 01 R26: a step keeps the flash a map in canonical form and the fuse array as manufactured: a fuse that is blown
stays blown, and only ANTI_ROLLBACK_RATCHET blows one. -/
def Obligations.StepsKeepTheNonVolatileState : Prop :=
  ∀ s t : State, s.nv.ok = true → step s = .next t →
    t.nv.ok = true ∧ Fuses.onlyBlown s.nv.fuses t.nv.fuses ∧
    (t.nv.fuses ≠ s.nv.fuses → ∃ rest, s.pending = .antiRollbackRatchet :: rest)

/-- After reset: no command waits, the rails are off, READY and FAILED are 0, every queue pair is DISABLED with its sequence numbers 0, no
context exists, every half-port is OFF, DEVICE_ID is 0, and what the part keeps without power is well formed. -/
def Obligations.ResetHoldsTheResetState : Prop :=
  State.reset.pending = [] ∧ State.reset.nv.ok = true ∧ State.reset.dev.pwr.rails = false ∧ State.reset.dev.boot.ready = false ∧
  State.reset.dev.boot.failed = false ∧
  (∀ q, (queueOf State.reset.dev q).state = .disabled ∧ (queueOf State.reset.dev q).nextDevSeq = 0#32 ∧
    (queueOf State.reset.dev q).expHostSeq = 0#32) ∧
  (∀ c, smFind State.reset.dev.ctxs c = none) ∧ (∀ p, (portOf State.reset.dev p).state = .off) ∧ State.reset.dev.host.deviceId = 0#32

/-! ### Queues and records (02) -/

/-- 02 R37, R39: a doorbell write is read in bits 15:0 alone; a value not below the ring's entry count sets DB_RANGE; a submission doorbell
takes the new tail unless it lies behind the one last accepted; a completion doorbell writes CQ_HEAD. -/
def Obligations.DoorbellsSubmitAndFree : Prop :=
  ∀ (s : State) (q : Fin 256) (value : BitVec 32), s.dev.boot.ready = true → (queueOf s.dev q).state ≠ .disabled →
    let v := queueOf s.dev q
    let x := value.toNat % 65536
    let to_ (w : Queue) (t : State) : Prop := t = { s with dev := { s.dev with queues := t.dev.queues } } ∧
      ∀ k, queueOf t.dev k = if k = q then w else queueOf s.dev k
    let n := (x + sqSize v - v.sqHead) % sqSize v
    let o := (v.sqTail + sqSize v - v.sqHead) % sqSize v
    (sqSize v ≤ x → Completes (.submissionDoorbell q value) s (to_ { v with dbRange := true })) ∧
    (x < sqSize v → n ≤ o → exec (.submissionDoorbell q value) s = .next s) ∧
    (x < sqSize v → o < n → Completes (.submissionDoorbell q value) s
      (to_ { v with sqTail := x, subs := v.subs ++ [(n - o, s.dev.now)] })) ∧
    (cqSize v ≤ x → Completes (.completionDoorbell q value) s (to_ { v with dbRange := true })) ∧
    (x < cqSize v → Completes (.completionDoorbell q value) s (to_ { v with cqHead := x }))

/-- 02 R57 to R59: a command ahead of E is answered with SEQ_GAP, DETAIL 1 and E; a duplicate with ALREADY_COMPLETE and the number of the final
record where the log holds it, with PENDING while its first copy runs, else with SEQ_GAP, DETAIL 2. It is not executed, and E stays. -/
def Obligations.FetchAnswersCommandsOutOfSequence : Prop :=
  ∀ (s : State) (q : Nat) (hdr pay : List Byte), Fetches s q hdr pay → CanProduce s q → field hdr 0 2 ≠ 0x0103 →
    let v := queueOf s.dev q
    let hs := word hdr 4
    let d := (hs - v.expHostSeq).toNat
    let running := stillRunning s.dev q hs
    let answers (status detail : Nat) (res : BitVec 160) : Prop := Completes .commandFetch s (fun t => Taken s t q hdr ∧
      (queueOf t.dev q).expHostSeq = v.expHostSeq ∧
      Produced s t q { hostSeq := hs, devSeq := 0, status := BitVec.ofNat 16 status, detail := BitVec.ofNat 16 detail, result := res })
    (1 ≤ d → d < 2 ^ 31 → answers 0x0012 1 (BitVec.ofNat 160 v.expHostSeq.toNat)) ∧
    (2 ^ 31 ≤ d → running = true → answers 0x0001 1 0) ∧
    (∀ a b n, 2 ^ 31 ≤ d → running = false → v.finals = a ++ (hs, n) :: b → (∀ f ∈ b, f.1 ≠ hs) →
      answers 0x0002 1 (BitVec.ofNat 160 n.toNat)) ∧
    (2 ^ 31 ≤ d → running = false → (∀ f ∈ v.finals, f.1 ≠ hs) → answers 0x0012 2 0)

/-- 02 R48, R51, R57: a QUEUE.NOP in sequence, all of whose fields pass, is admitted: it consumes E and is in flight under the next number. -/
def Obligations.FetchAdmitsACommandInSequence : Prop :=
  ∀ (s : State) (q : Nat) (hdr pay e : List Byte), Fetches s q hdr pay →
    let v := queueOf s.dev q
    v.state = .active → tableEntry s.dev 0x0100 = some e → entQ0 e = false → entContext e = false → entMin e = 0 →
    field hdr 0 2 = 0x0100 → field hdr 2 2 = 0 → word hdr 4 = v.expHostSeq → field hdr 8 1 = 0xFF → field hdr 9 1 = q →
    payloadLen hdr = 0 → field hdr 0x0C 4 = 0 → resv hdr 0x10 48 = [] →
    Completes .commandFetch s (fun t =>
      t = { s with dev := { s.dev with rr := q, queues := t.dev.queues, cmds := t.dev.cmds, nextCid := s.dev.nextCid + 1,
                                       host := { s.dev.host with snooped := t.dev.host.snooped } } } ∧
      (queueOf t.dev q).expHostSeq = v.expHostSeq + 1 ∧ (queueOf t.dev q).sqHead = (v.sqHead + 1) % sqSize v ∧
      (∀ k, smFind t.dev.cmds k = if k = s.dev.nextCid then some { readCmd s.dev q hdr [] with entry := e } else smFind s.dev.cmds k) ∧
      ∀ k, k ≠ q → queueOf t.dev k = queueOf s.dev k)

/-- 02 R42, R47, R53, R54, R64, R66, R68, R70 to R73; 09 R365; 13 R533; 17 R617: QUEUE.NOP ends OK; COMMAND_COMPLETE produces the final record, with
the lateness where an OK ends past its deadline: DEADLINE_MISSED, THERMAL_LIMIT where a die was throttled, or DEVICE_FAULT, DETAIL 6, where only the wait
for Bus Master Enable made it late; HOLD_BUFFER_DRAIN writes the held records and ends HELD; RESULT.READ of a READY slot writes its header and as much of
its payload as SIZE holds to host memory, counts the read, and answers with REPEAT where it was read before. -/
def Obligations.CommandsEndWithOneFinalRecord : Prop :=
  ∀ (s : State) (cid : Nat) (c : Cmd),
    (Runs s 0x0100 cid c → Completes (.queueNop cid) s (fun t => OnlyCmd cid s t ∧ finOf t cid = some (0#16, 0#16, 0#160))) ∧
    (∀ f, smFind s.dev.cmds cid = some c → c.fin = some f → CanProduce s c.queue →
      let placed (status detail : BitVec 16) : Prop :=
        let n := noteStatus s.dev cid c status
        Completes (.commandComplete cid) s (fun t => ∃ u : State, t = followed u ∧
          u = { s with dev := { s.dev with
            cmds := smErase s.dev.cmds cid, queues := u.dev.queues, host := u.dev.host, out := u.dev.out, tally := u.dev.tally,
            ctxs := u.dev.ctxs, reqs := n.reqs, weights := n.weights, colls := n.colls } } ∧
          Produced s u c.queue { hostSeq := hostSeqOf c, devSeq := 0, status := status, detail := detail, result := f.result })
      let late (n : Nat) : BitVec 16 := BitVec.ofNat 16 (min n 0xFFFF)
      let onTime : Prop := deadlineOf c = none ∨ ∃ x, deadlineOf c = some x ∧ s.dev.now ≤ x
      (f.status ≠ 0#16 → placed f.status f.detail) ∧
      (onTime → (∀ r, reqOfCmd s.dev cid c = some r → r.missed = false) → placed f.status f.detail) ∧
      (∀ x, deadlineOf c = some x → x < s.dev.now → f.status = 0#16 → reqOfCmd s.dev cid c = none →
        (c.throttled = true → placed 0x0070#16 (late ((s.dev.now - x) / 400))) ∧
        (c.throttled = false → c.bmeStall = true → s.dev.now ≤ x + bmeWaited s.dev c → placed 0x00F0#16 6#16) ∧
        (c.throttled = false → (c.bmeStall = false ∨ x + bmeWaited s.dev c < s.dev.now) → placed 0x0021#16 (late ((s.dev.now - x) / 400)))) ∧
      (∀ r, onTime → reqOfCmd s.dev cid c = some r → r.missed = true → f.status = 0#16 →
        placed (if r.lateHot then 0x0070#16 else 0x0021#16) (late (max (match deadlineOf c with | some x => (s.dev.now - x) / 400 | none => 0) r.late)))) ∧
    (∀ q : Fin 256,
      let v := queueOf s.dev q
      v.replay = none → v.waiting = [] → v.hold ≠ [] → s.dev.host.bme = true → v.hold.length ≤ ringRoom v →
      Completes (.holdBufferDrain q) s (fun t => ∃ u : State, t = followed u ∧
        u = { s with dev := { s.dev with queues := u.dev.queues, host := u.dev.host, out := u.dev.out } } ∧
        (∀ k, k ≠ (q : Nat) → queueOf u.dev k = queueOf s.dev k) ∧
        queueOf u.dev q = { v with hold := [], cqTail := (v.cqTail + v.hold.length) % cqSize v,
                                   state := if v.state = .held then .active else v.state } )) ∧
    (Runs s 0x0D01 cid c → c.snap = none → s.dev.host.bme = true →
      let k := par c 0x10 2
      let x := smGet {} (queueOf s.dev c.queue).slots k
      let y : Slot := { x with reads := if x.reads = 0xFFFFFFFF#32 then x.reads else x.reads + 1, rpt := x.reads != 0#32 }
      let size := par c 0x20 4
      x.state = .ready → Completes (.resultRead cid) s (fun t =>
        t = { s with dev := { s.dev with cmds := t.dev.cmds, queues := t.dev.queues, out := t.dev.out } } ∧
        (∀ q j, smGet {} (queueOf t.dev q).slots j = if q = c.queue ∧ j = k then y else smGet {} (queueOf s.dev q).slots j) ∧
        t.dev.out = (bulkWrite s.dev (par c 0x18 8) (slotHeader y ++ x.payload.take (size - 32))).out ∧
        ∃ r, finOf t cid = some (0#16, BitVec.ofNat 16 (b2n (x.reads != 0#32) + 2 * b2n (decide (size < 32 + x.payload.length))), r)))

/-- 02 R33, R41, R43, R74 to R77, R645: QUEUE.CREATE makes the queue pair ACTIVE as its parameters say, QUEUE.DESTROY checks its target again when it
begins, drains it and disables it once nothing is left, QUEUE.RESYNC answers the snapshot or takes a new completion ring. -/
def Obligations.QueuePairsAreMadeDrainedAndRebound : Prop :=
  ∀ (s : State) (cid : Nat) (c : Cmd),
    let target := par c 0x10 1
    let v := queueOf s.dev target
    (Runs s 0x0101 cid c → reserveReady s.dev c = true → Completes (.queueCreate cid) s (fun t =>
      t = { s with dev := { s.dev with cmds := t.dev.cmds, queues := t.dev.queues } } ∧ endsOk t cid ∧
      ∀ k, queueOf t.dev k = if k = par c 0x20 1 then newQueue c else queueOf s.dev k)) ∧
    (Runs s 0x0102 cid c → target ≠ c.queue → (c.phase = .admitted → v.state = .active ∨ v.state = .held) → v.hold = [] → v.waiting = [] →
      v.replay = none → (∀ p ∈ s.dev.cmds, p.2.queue ≠ target) → Completes (.queueDestroy cid) s (fun t => endsOk t cid ∧ ∀ k, queueOf t.dev k = if k = target then {} else queueOf s.dev k)) ∧
    (Runs s 0x0102 cid c → c.phase = .admitted → v.state ≠ .active → v.state ≠ .held → Completes (.queueDestroy cid) s (fun t =>
      OnlyCmd cid s t ∧ finOf t cid = some (0x0011#16, 0x10#16, 0#160))) ∧
    (∀ k x, Runs s 0x0102 cid c → c.phase = .admitted → (v.state = .active ∨ v.state = .held) → target ≠ c.queue →
      smFind s.dev.cmds k = some x → x.queue = target → x.phase = .admitted → x.fin = none →
      (∀ q, smFind s.dev.weights.steps k = some q → q.cid = k) → Completes (.queueDestroy cid) s (fun t => finOf t k = some (0x0003#16, 0#16, 0#160) ∧
        (queueOf t.dev target).state = .draining ∧ (queueOf t.dev target).subs = [])) ∧
    (Runs s 0x0103 cid c → c.phase = .admitted →
      (par c 0x11 1 = 0 → Completes (.queueResync cid) s (fun t => ∃ u : State, t = followed u ∧ OnlyCmd cid s u ∧
        finOf u cid = some (0#16, 0#16, snapshotOf (setPhase s.dev cid .running) target))) ∧
      (par c 0x11 1 = 2 → v.state ≠ .disabled → retained v (word c.hdr 0x28) = true → v.waiting = [] → s.dev.host.bme = false →
        Completes (.queueResync cid) s (fun t => ∃ u : State, t = followed u ∧
          (queueOf u.dev target).cqBase = BitVec.ofNat 64 (par c 0x18 8) ∧ (queueOf u.dev target).cqLog2 = par c 0x20 1 ∧
          (queueOf u.dev target).cqHead = 0 ∧ (queueOf u.dev target).cqTail = 0 ∧
          (queueOf u.dev target).expHostSeq = word c.hdr 0x24 ∧ ∀ k, k ≠ target → queueOf u.dev k = queueOf s.dev k)))

/-! ### Contexts (13) and configuration (16) -/

/-- 13 R500, R503, R506, R507: CTX.CREATE makes a context that is not resident, CTX.DESTROY ends once everything it held is rinsed and waits for
a collective, CTX.SAVE writes the image of a resident to host memory, CTX.RESTORE loads an image that has been read from there. -/
def Obligations.ContextsAreMadeSavedRestoredAndDestroyed : Prop :=
  ∀ (s : State) (cid : Nat) (c : Cmd),
    let ctx := cmdContext c
    let held := modCtx (began s cid) ctx (fun x => { x with moveCid := some cid })
    (Runs s 0x0201 cid c → c.info ≠ [1] → chkCtxCreate (began s cid) cid c = .ok () → nwResident c = false → s.dev.tally.frozen = false →
      s.dev.tally.held = [] → Completes (.ctxCreate cid) s (fun t =>
        t = { s with dev := { s.dev with cmds := t.dev.cmds, ctxs := t.dev.ctxs, tally := t.dev.tally } } ∧ endsOk t cid ∧
        ∀ k, smFind t.dev.ctxs k = if k = nwCtx c then some (newCtx s.dev c) else smFind s.dev.ctxs k)) ∧
    (Runs s 0x0202 cid c → c.info = [1] → collsOf (began s cid) (nwCtx c) = true →
      Completes (.ctxDestroy cid) s (fun t => OnlyCmd cid s t ∧ finOf t cid = none)) ∧
    (∀ x, Runs s 0x0202 cid c → c.info = [2] → smFind s.dev.ctxs (nwCtx c) = some x → allRinsed s.dev x = true →
      Completes (.ctxDestroy cid) s (fun t => t = { s with dev := { s.dev with cmds := t.dev.cmds, ctxs := t.dev.ctxs } } ∧ endsOk t cid ∧
        ∀ k, smFind t.dev.ctxs k = if k = nwCtx c then none else smFind s.dev.ctxs k)) ∧
    (∀ x, Runs s 0x0203 cid c → smFind s.dev.ctxs ctx = some x → x.state = .resident → x.moveCid = none → imHost c = true →
      s.dev.host.bme = true → (∀ z ∈ s.dev.launches, z.2.ctx ≠ ctx ∨ z.2.state ≠ .running) → (∀ v ∈ s.dev.xfers, v.2.ctx ≠ ctx) →
      chkCtxSave held c = .ok () → Completes (.ctxSave cid) s (fun t =>
        t = { s with dev := { s.dev with cmds := t.dev.cmds, ctxs := t.dev.ctxs, out := t.dev.out } } ∧
        (∀ k, smFind t.dev.ctxs k = smFind s.dev.ctxs k) ∧ t.dev.out = (bulkWrite s.dev (imAddr c) (imageOf held ctx)).out ∧
        finOf t cid = some (0#16, 0#16, BitVec.ofNat 160 ((imageOf held ctx).length % 2 ^ 64)))) ∧
    (∀ x img, Runs s 0x0204 cid c → smFind s.dev.ctxs ctx = some x → chkCtxRestore (began s cid) c = .ok () → x.state = .resident →
      x.moveCid = none → x.engCount ≤ 96 → s.dev.mem.granRinse = [] → imHost c = true → wantDone s.dev (.cmd cid) = some img →
      chkImageFor x c img = .ok () → Completes (.ctxRestore cid) s (fun t => endsOk t cid ∧
        (smFind t.dev.ctxs ctx).map (fun y => (y.progs, y.stopped)) = some (progsOfImage img, bit (field img 7 1) 1) ∧
        (∀ i, i < x.engCount → i < field img 0x08 2 →
          (getE t.dev ctx i).s = wordsOf (slice img (field img 0x18 4 + field img 0x1C 4 * i) (field img 0x1C 4)) 0xA0 32) ∧
        ∀ k, k / 128 ≠ ctx → smGet {} t.dev.eng k = smGet {} s.dev.eng k))

/-- 02 R50; 16 R590 to R593, R597, R600: CFG.LOAD ends OK once its table has been read and passes, and with its final record the table is in force and a
change is counted in CONFIG_GEN; CFG.DIGEST, PART.INFO and
ATTEST.REPORT write their records to the slot; a report ends in a signature of 64 bytes. -/
def Obligations.ConfigurationLoadsAndReports : Prop :=
  ∀ (s : State) (cid : Nat) (c : Cmd),
    let key := 256 * clKind c + clInst c
    (∀ tb, Runs s 0x0301 cid c → chkCfgLoad (began s cid) c = .ok () → loadAhead (began s cid) cid = false → clLen c ≠ 0 → tb ≠ [] →
      bit (clSrc c) 63 = true → wantDone s.dev (.cmd cid) = some tb →
      chkTable (dropWant (began s cid) (.cmd cid)) (clKind c) (clInst c) tb = .ok () → Completes (.cfgLoad cid) s (fun t =>
        t = { s with dev := { s.dev with cmds := t.dev.cmds, host := t.dev.host, loading := some (cid, clKind c, clInst c, tb) } } ∧ endsOk t cid)) ∧
    (∀ f tb, s.dev.loading = some (cid, clKind c, clInst c, tb) → smFind s.dev.cmds cid = some c → c.fin = some f → CanProduce s c.queue → tb ≠ [] →
      (clKind c = 0x0A → (smFind s.dev.ctxs (clInst c)).isSome = true) → Completes (.commandComplete cid) s (fun t => ∃ u : State,
        t = { u with dev := settleColls (settleSteps (settleReqs u.dev)) } ∧ smFind u.dev.cmds cid = none ∧ u.dev.loading = none ∧
        (∀ k, smFind u.dev.tables k = if k = key then some tb else smFind s.dev.tables k) ∧
        u.dev.configGen = if tablesInForce { s.dev with tables := smPut s.dev.tables key tb } = tablesInForce s.dev then s.dev.configGen
          else s.dev.configGen + 1)) ∧
    (Runs s 0x0302 cid c → chkCfgDigest c = .ok () → Completes (.cfgDigest cid) s (fun t => OnlyCmd cid s t ∧ endsOk t cid ∧
      slotOutOf t cid = some (digestList s.dev))) ∧
    (Runs s 0x0F01 cid c → chkPartInfo c = .ok () → Completes (.partInfo cid) s (fun t => OnlyCmd cid s t ∧ endsOk t cid ∧
      slotOutOf t cid = some (partRecord s.nv s.dev))) ∧
    (Runs s 0x0E01 cid c → chkAttest c = .ok () → Completes (.attestReport cid) s (fun t => endsOk t cid ∧
      t = { s with dev := { s.dev with cmds := t.dev.cmds, freeCtr := t.dev.freeCtr } } ∧
      ∃ sig : List Byte, sig.length = 64 ∧ slotOutOf t cid = some (reportBody s.nv s.dev c ++ sig)))

/-! ### Memory (07) -/

/-- 07 R265 to R269: MEM.ALLOC maps its pages on the frames it has reserved, once they are rinsed; MEM.FREE unmaps every page of its range and
sends their frames to rinse. -/
def Obligations.MemoryIsAllocatedAndFreed : Prop :=
  ∀ (s : State) (cid : Nat) (c : Cmd) (x : Ctx), smFind s.dev.ctxs (cmdContext c) = some x → memBlocked (began s cid) cid c = false →
    let l := leavesIn x (par c 0x10 8) (par c 0x18 8)
    (∀ pages, Runs s 0x0401 cid c → par c 0x20 1 ≤ 1 → mapped x (par c 0x10 8) (par c 0x18 8) = false → reserveReady s.dev c = true →
      pages = par c 0x18 8 / allocPage c → Completes (.memAlloc cid) s (fun t =>
        t = { s with dev := { s.dev with cmds := t.dev.cmds, ctxs := t.dev.ctxs } } ∧
        finOf t cid = some (0#16, 0#16, BitVec.ofNat 160 (c.frames.length % 2 ^ 32)) ∧
        (∀ k, k ≠ cmdContext c → smFind t.dev.ctxs k = smFind s.dev.ctxs k) ∧
        ∃ y, smFind t.dev.ctxs (cmdContext c) = some y ∧ y = { x with ptes := y.ptes } ∧
          (∀ j, j < pages → smFind y.ptes (allocLeaf c j).1 = some (allocLeaf c j).2) ∧
          ∀ p, (∀ j, j < pages → p ≠ (allocLeaf c j).1) → smFind y.ptes p = smFind x.ptes p)) ∧
    (Runs s 0x0402 cid c → chkFree (began s cid) c = .ok () → (∀ q ∈ l, inUse s.dev (cmdContext c) q.1 q.2 = false ∧ q.2.transit = false) →
      Completes (.memFree cid) s (fun t => endsOk t cid ∧ t.dev.mem.dram = s.dev.mem.dram ∧
        (∃ y, smFind t.dev.ctxs (cmdContext c) = some y ∧
          ∀ p, smFind y.ptes p = if p ∈ l.map (·.1) then none else smFind x.ptes p) ∧
        ∀ q f, q ∈ l → smFind x.ptes q.1 = some q.2 → f ∈ q.2.frames → frameState s.dev f = some .used →
          frameState t.dev f = some .rinsing))

/-- 07 R250, R270, R275, R278, R282: MEM.COPY, MEM.FILL and MEM.MANGLE cut their work into pieces on the dies that home them; a free mangle takes a piece
of its die; a piece that ends has had its effect, and the last one ends its command; a piece waits for a page in TRANSIT and has a SLOW one recalled. -/
def Obligations.MangleCommandsWorkInPieces : Prop :=
  ∀ (s : State) (m : Fin 32),
    (∀ cid c x, ∀ row ∈ [(0x0403, Instr.memCopy cid), (0x0404, Instr.memFill cid), (0x0407, Instr.memMangle cid)],
      Runs s row.1 cid c → smFind s.dev.ctxs (cmdContext c) = some x → c.info = [] → memBlocked (began s cid) cid c = false →
      notLocal s.dev (cmdContext c) (memRanges (began s cid) c) = [] → chkBegin (began s cid) c = .ok () → pieceCount c ≠ 0 →
      Completes row.2 s (fun t =>
        t = { s with dev := { s.dev with cmds := t.dev.cmds, mem := { s.dev.mem with pieces := t.dev.mem.pieces } } } ∧
        t.dev.mem.pieces = s.dev.mem.pieces ++ (span 0 (pieceCount c)).map (fun q =>
          { cid := cid, op := pieceOpOf c, q := q, die := (dieAt x (pieceVa c q)).getD 0, mang := none }))) ∧
    (∀ p, nextPiece s.dev m = some p → p ∈ s.dev.mem.pieces ∧ p.die = m / 2 ∧ p.mang = none ∧
      Completes (.manglePieceStart m) s (fun t =>
        t.dev.mem = { s.dev.mem with
          turn := t.dev.mem.turn, lastCmd := t.dev.mem.lastCmd,
          pieces := s.dev.mem.pieces.map (fun q => if q = p then { q with mang := some (m : Nat) } else q) } ∧
        smGet 0 t.dev.mem.turn (m / 2) = 1 - m % 2 ∧ smGet 0 t.dev.mem.lastCmd m = p.cid + 1)) ∧
    (∀ p c, s.dev.mem.pieces.find? (fun p => p.mang == some (m : Nat)) = some p → smFind s.dev.cmds p.cid = some c →
      let ctx := cmdContext c
      let left := s.dev.mem.pieces.filter (fun q => q != p)
      let d1 := modMem s.dev (fun k => { k with pieces := left })
      (∀ x bs, opcodeC c = 0x0403 → smFind s.dev.ctxs ctx = some x → c.fin = none →
        let n := min 65536 (par c 0x20 8 - 65536 * p.q)
        let dst := par c 0x18 8 + 65536 * p.q
        readVirt s.dev ctx (par c 0x10 8 + 65536 * p.q) n .any = .ok bs → checkVirt s.dev ctx dst bs.length .any = .ok () →
        Completes (.manglePieceComplete m) s (fun t => t.dev.mem.pieces = left ∧
          t.dev.mem.dram = (writePieces x .any s.dev.mem bs (pieces dst bs.length)).dram ∧
          ((∀ q ∈ left, q.cid ≠ p.cid) → finOf t p.cid = some (0#16, 0#16, 0#160)))) ∧
      (∀ va, ((pieceBody s.dev c p.q).run m).run (d1, c.flags, c.count) = .error (.transit va) →
        Completes (.manglePieceComplete m) s (fun t => t = s)) ∧
      (∀ va x key q, ((pieceBody s.dev c p.q).run m).run (d1, c.flags, c.count) = .error (.absent va) → smFind s.dev.ctxs ctx = some x →
        leafKey x va = some (key, q) → q.kind = .slow → moveOf s.dev ctx key = none → waitOf s.dev ctx key = none →
        Completes (.manglePieceComplete m) s (fun t => ∃ w, t = { s with dev := { s.dev with mem := { s.dev.mem with waits := s.dev.mem.waits ++ [w] } } } ∧
          w.ctx = ctx ∧ w.page = key ∧ w.to_ = if q.cupTier && !ctxAway s.dev ctx then 0 else 1)) ∧
      (∀ e, opcodeC c ≠ 0x0901 → opcodeC c ≠ 0x0A01 → c.fin = none → (∀ va, e ≠ .transit va) → (∀ va, e ≠ .absent va) →
        ((pieceBody s.dev c p.q).run m).run (d1, c.flags, c.count) = .error e →
        Completes (.manglePieceComplete m) s (fun t => (∀ q ∈ t.dev.mem.pieces, q.cid ≠ p.cid) ∧
          finOf t p.cid = some (0x00F0#16, 0x0001#16, resultOf [(0x18, 8, verrVa e)]))))

/-- 07 R222, R273 to R275, R280; 08 R342: MEM.DEMOTE and MEM.RECALL have each of their pages moved and end with the last; a page on its way is in TRANSIT;
its move takes its bytes to the new frames, and of a KV page that a step reads the copy is switched at the step's end; a rinsed frame is zero. -/
def Obligations.PagesMoveBetweenTiers : Prop :=
  ∀ (s : State),
    (∀ cid c x, ∀ row ∈ [(0x0405, Instr.memDemote cid), (0x0406, Instr.memRecall cid)],
      Runs s row.1 cid c → smFind s.dev.ctxs (cmdContext c) = some x →
      (c.info = [] → memBlocked (began s cid) cid c = false → (row.1 = 0x0405 → chkDemote (began s cid) c = .ok ()) →
        (row.1 = 0x0406 → chkRecall (began s cid) c = .ok ()) → (∀ q ∈ leavesIn x (par c 0x10 8) (par c 0x18 8), q.2.transit = false) →
        reserveFits (began s cid) x c (movedPages x c) = true → movedPages x c ≠ [] → Completes row.2 s (fun t =>
        finOf t cid = none ∧ ∃ ws, t.dev.mem = { s.dev.mem with waits := s.dev.mem.waits ++ ws } ∧
          ws.map (fun w => (w.ctx, w.page, w.to_, w.cid)) =
            (movedPages x c).map (fun q => (cmdContext c, q.1, par c 0x20 1, some cid)))) ∧
      (c.info ≠ [] → (∀ w ∈ s.dev.mem.waits, w.cid ≠ some cid) → (∀ v ∈ s.dev.mem.moves, v.cid ≠ some cid) →
        Completes row.2 s (fun t => OnlyCmd cid s t ∧
          finOf t cid = some (0#16, 0#16, resultOf [(0x0C, 4, nth 0 c.info 0), (0x10, 4, nth 0 c.info 1)])))) ∧
    (∀ ctx page x w p fs, smFind s.dev.ctxs ctx = some x → waitOf s.dev ctx page = some w → moveOf s.dev ctx page = none →
      smFind x.ptes page = some p → p.kind = .localPage → w.dest = some fs → w.to_ ≠ 2 → w.to_ ≠ tierOf p →
      (tierOf p < w.to_ → demoteHeld s.dev x ctx page p w.to_ w.cid = false) → inUse s.dev ctx page p = false →
      stepAppends s.dev x ctx page p w.to_ = false →
      Completes (.pageMove ctx page) s (fun t => t.dev.mem.dram = s.dev.mem.dram ∧ t.dev.mem.frames = s.dev.mem.frames ∧
        (∃ y, smFind t.dev.ctxs ctx = some y ∧
          ∀ k, smFind y.ptes k =
            if k = page then some { p with transit := p.transit || !(p.kvPool.isSome && stepBusy s.dev ctx) } else smFind x.ptes k) ∧
        ∃ mv, moveOf t.dev ctx page = some mv ∧ mv.dest = some fs ∧ mv.cid = w.cid)) ∧
    (∀ ctx page x mv p f0 f1, smFind s.dev.ctxs ctx = some x → moveOf s.dev ctx page = some mv → mv.ctx = ctx → mv.page = page →
      smFind x.ptes page = some p → p.kind = .localPage → mv.failAt = none → mv.dest = some [f1] → p.frames = [f0] →
      frameState s.dev f1 = some .used → frameState s.dev f0 = some .used → f0 ≠ f1 → (∀ b ∈ s.dev.mem.bad, b / 65536 ≠ f0) →
      (p.kvPool.isSome = true → stepBusy s.dev ctx = true → Completes (.pageMoveComplete ctx page) s (fun t =>
        t = { s with dev := { s.dev with mem := { s.dev.mem with
          moves := s.dev.mem.moves.map (fun v => if v = mv then { v with copied := true } else v) } } })) ∧
      (p.kvPool = none ∨ stepBusy s.dev ctx = false → Completes (.pageMoveComplete ctx page) s (fun t =>
        (∃ y, smFind t.dev.ctxs ctx = some y ∧ smFind y.ptes page = some { p with
          transit := false, target := f1, frames := [f1], slowPgs := [] }) ∧
        frameState t.dev f0 = some .rinsing ∧ moveOf t.dev ctx page = none ∧
        ∀ a, memByte t.dev.mem.dram a = if a / 65536 = f1 then memByte s.dev.mem.dram (65536 * f0 + a % 65536)
          else memByte s.dev.mem.dram a))) ∧
    (∀ f st, kvPlaneAt s.dev f = none →
      (st, frameState s.dev f) ∈ [(none, some .rinsing), (some .used, some .rinsingUsed), (some .retiredUsed, some .retiredRinsing)] →
      Completes (.frameRinseComplete f) s (fun t =>
        frameState t.dev f = st ∧
        ∀ a, memByte t.dev.mem.dram a = if a / 65536 = f then 0#8 else memByte s.dev.mem.dram a))

/-- 07 R249 to R253, R301, R303: REFRESH takes its bank, PATROL_SCRUB reads its next burst, which is corrected with one stored symbol in error and
uncorrectable with an address symbol or two symbols, its frame retired; ARBITER_REFILL adds each class's weight up to four times it, MEMORY_GRANT serves
the fullest class of those that wait and reports what was read with errors. -/
def Obligations.MemoryUnitsRefreshScrubAndGrant : Prop :=
  ∀ (s : State) (sub : Fin 384) (bank : Fin 16) (ch : Fin 896),
    let a := arbOf s ch
    let k := smGet 0 s.dev.mem.scrub sub
    let bank_ := 16 * (sub : Nat) + bank
    let next (t : State) : Prop := smGet 0 t.dev.mem.scrub sub = (k + 1) % scrubBursts s.dev ∧
      ∀ j, j ≠ (sub : Nat) → smGet 0 t.dev.mem.scrub j = smGet 0 s.dev.mem.scrub j
    let lost (dpa : Nat) (t : State) : Prop := t.dev.mem.dram = s.dev.mem.dram ∧ dpa / eccUnit dpa * eccUnit dpa ∈ t.dev.mem.bad ∧
      frameState t.dev (dpa / 65536) ∈ [some .retired, some .retiredUsed, some .retiredRinsing]
    Completes (.refresh (sub, bank)) s (fun t => t = { s with dev := { s.dev with mem := { s.dev.mem with refresh := t.dev.mem.refresh } } } ∧
      ∀ j, smGet 0 t.dev.mem.refresh j = smGet 0 s.dev.mem.refresh j + if j = bank_ then 1 else 0) ∧
    Completes (.patrolScrub sub []) s (fun t => next t ∧
      t = { s with dev := { s.dev with mem := { s.dev.mem with scrub := t.dev.mem.scrub } } }) ∧
    (∀ (i : Fin 41) (v : Byte), v ≠ 0#8 →
      ((i : Nat) < 36 → Completes (.patrolScrub sub [(i, v)]) s (fun t => next t ∧
        t = { s with dev := { s.dev with mem := { s.dev.mem with scrub := t.dev.mem.scrub }, tally := t.dev.tally } })) ∧
      (36 ≤ (i : Nat) → Completes (.patrolScrub sub [(i, v)]) s (fun t => next t ∧ lost (scrubDpa sub k) t)) ∧
      (∀ (j : Fin 41) (w : Byte), w ≠ 0#8 → i ≠ j →
        Completes (.patrolScrub sub [(i, v), (j, w)]) s (fun t => next t ∧ lost (scrubDpa sub k) t)) ∧
      (∀ waiting dpa, dpa % 32 = 0 → isCup (dpa / 65536) = false → channelOf dpa = ch → 36 ≤ (i : Nat) →
        Completes (.memoryGrant ch waiting [.burst dpa [(i, v)]]) s (lost dpa))) ∧
    Completes (.arbiterRefill ch) s (fun t => t = { s with dev := { s.dev with mem := { s.dev.mem with arbs := t.dev.mem.arbs } } } ∧
      (∀ j, j ≠ (ch : Nat) → arbOf t j = arbOf s j) ∧ (arbOf t ch).counters.length = a.counters.length ∧
      ∀ i, i < a.counters.length → nth 0 (arbOf t ch).counters i =
        min (nth 0 a.counters i + memWeight s.dev i) (4 * (memWeight s.dev i : Int))) ∧
    (∀ waiting : List MemReq, let cls := waiting.filterMap (classOf s.dev)
      a.current = none → cls ≠ [] → Completes (.memoryGrant ch waiting []) s (fun t =>
        t = { s with dev := { s.dev with mem := { s.dev.mem with arbs := t.dev.mem.arbs } } } ∧ (∀ j, j ≠ (ch : Nat) → arbOf t j = arbOf s j) ∧
        ∃ g ∈ cls, (∀ o ∈ cls, nth 0 a.counters o < nth 0 a.counters g ∨ (nth 0 a.counters o = nth 0 a.counters g ∧ g ≤ o)) ∧
          arbOf t ch = { a with current := some g, snapshot := cls,
                                counters := setNth a.counters g (max (nth 0 a.counters g - 96) (-4096)) })) ∧
    (∀ id x n r o l, smFind s.dev.xfers id = some x → x.kind = .line n r o l →
      classOf s.dev { unit := .transfer id, walk := true } = some (3 - ldPrio (lineOf (getE s.dev x.ctx x.idx) n).desc)) ∧
    classOf s.dev { unit := .fabric, walk := false } = some 6 ∧ classOf s.dev { unit := .hub, walk := false } = some 7

/-! ### Launches, the scheduler and the governor (06, 13) -/

/-- 06 R235 to R241; 13 R508, R511: PROG.LOAD puts the image that it reads into its slot, PROG.LAUNCH makes a launch that waits for its engines,
SLICE_MAX_EXPIRE pre-empts a class-2 launch whose engines another context wants. -/
def Obligations.ProgramsLoadAndLaunch : Prop :=
  ∀ (s : State) (cid : Nat) (c : Cmd) (x : Ctx),
    let ctx := cmdContext c
    (∀ img, Runs s 0x0501 cid c → smFind s.dev.ctxs ctx = some x → slotRuns s.dev ctx (plSlot c) = false →
      chkProgLoad (began s cid) c = .ok () → notLocal s.dev ctx [(plVa c, plLen c, false)] = [] →
      readVirt s.dev ctx (plVa c) (plLen c) .any = .ok img → chkImage (began s cid) x c img = .ok () →
      Completes (.progLoad cid) s (fun t => t = { s with dev := { s.dev with cmds := t.dev.cmds, ctxs := t.dev.ctxs } } ∧ endsOk t cid ∧
        (∀ k, k ≠ ctx → smFind t.dev.ctxs k = smFind s.dev.ctxs k) ∧
        ∃ y p, smFind t.dev.ctxs ctx = some y ∧ y = { x with progs := y.progs } ∧
          (∀ k, smFind y.progs k = if k = plSlot c then some p else smFind x.progs k) ∧ p.hdr = slice img 0 64 ∧
          p.words.length = field img 0x10 4 ∧
          ∀ k, k < field img 0x10 4 → nth 0#128 p.words k = BitVec.ofNat 128 (field img (64 + 16 * k) 16))) ∧
    (Runs s 0x0502 cid c → c.info = [] → chkProgLaunch (began s cid) c = .ok () → Completes (.progLaunch cid) s (fun t =>
      t = { s with dev := { s.dev with cmds := t.dev.cmds, ctxs := t.dev.ctxs, launches := t.dev.launches,
                                       nextLaunch := s.dev.nextLaunch + 1 } } ∧ finOf t cid = none ∧
      (∀ k, k ≠ s.dev.nextLaunch → smFind t.dev.launches k = smFind s.dev.launches k) ∧
      ∃ z, smFind t.dev.launches s.dev.nextLaunch = some z ∧ z.state = .waiting ∧ z.ctx = ctx ∧ z.purpose = .prog cid ∧
        z.slot = par c 0x10 1 ∧ z.engFirst = par c 0x12 1 ∧ z.engCount = par c 0x13 1 ∧ z.resume = (par c 0x11 1 == 1) ∧
        z.watchdog = par c 0x14 4 ∧ z.cls = (if cmdDeadline c = 0 then 2 else 1) ∧
        z.args = (span 0 8).map (fun k => word c.hdr (0x20 + 4 * k)))) ∧
    (∀ k z p w, smFind s.dev.launches k = some z → smFind s.dev.ctxs z.ctx = some x → partOf s.dev x.part = some p → z.state = .running →
      z.cls ≠ 1 → 400 * p.slice < s.dev.now - z.sliceFrom → w ∈ candidates s.dev x.part → w.2.ctx ≠ z.ctx →
      (∃ e ∈ launchPhys s.dev w.2, e ∈ launchPhys s.dev z) → Completes (.sliceMaxExpire k) s (fun t =>
        t = { s with dev := { s.dev with running := t.dev.running, ctxs := t.dev.ctxs, launches := t.dev.launches, eng := t.dev.eng } } ∧
        (∀ q i, getE t.dev q i =
          { getE s.dev q i with stalled := (getE t.dev q i).stalled, stallFrom := (getE t.dev q i).stallFrom }) ∧
        (smFind t.dev.launches k).map (·.state) = some .preempted ∧ ∀ q ∈ t.dev.running, q.2 ≠ k))

/-- 13 R508, R510, R524: SCHEDULE_NEXT starts the first candidate of its partition whose engines are all free, and gates the free engines when
there is none; ENGINE_GATE, ENGINE_OFF and CUPBOARD_BANK_OFF take blocks that nothing uses. -/
def Obligations.EnginesStartGateAndPowerOff : Prop :=
  ∀ (s : State) (part : Fin 8),
    (∀ p, candOrder s.dev part = [] → partOf s.dev part = some p → Completes (.scheduleNext part) s (fun t =>
      t = { s with dev := { s.dev with gov := { s.dev.gov with gated := t.dev.gov.gated } } } ∧
      ∀ e, e ∈ t.dev.gov.gated ↔ e ∈ s.dev.gov.gated ∨
        (e ∈ partEngines p ∧ smFind s.dev.running e = none ∧ e ∉ s.dev.gov.off))) ∧
    (∀ c rest x, candOrder s.dev part = c :: rest → (∀ b ∈ c :: rest, b.z.cls ≠ 1) → smFind s.dev.launches c.num = some c.z →
      smFind s.dev.ctxs c.z.ctx = some x → (∀ e ∈ launchPhys s.dev c.z, smFind s.dev.running e = none) →
      Completes (.scheduleNext part) s (fun t =>
        (smFind t.dev.launches c.num).map (·.state) = some .running ∧
        (∀ e ∈ launchPhys s.dev c.z, smFind t.dev.running e = some c.num ∧ e ∉ t.dev.gov.gated) ∧
        ∀ e, e ∉ launchPhys s.dev c.z → smFind t.dev.running e = smFind s.dev.running e)) ∧
    (∀ u : Fin 128, (u : Nat) < 96 → smFind s.dev.running u = none → (u : Nat) ∉ s.dev.gov.off → Completes (.engineGate u) s (fun t =>
      t = { s with dev := { s.dev with gov := { s.dev.gov with gated := t.dev.gov.gated } } } ∧
      ∀ e, e ∈ t.dev.gov.gated ↔ e ∈ s.dev.gov.gated ∨ e = (u : Nat))) ∧
    (∀ u : Fin 128, 96 ≤ (u : Nat) → (∀ p ∈ s.dev.mem.pieces, p.mang ≠ some ((u : Nat) - 96)) → Completes (.engineGate u) s (fun t =>
      t = { s with dev := { s.dev with gov := { s.dev.gov with mangGated := t.dev.gov.mangGated } } } ∧
      ∀ e, e ∈ t.dev.gov.mangGated ↔ e ∈ s.dev.gov.mangGated ∨ e = (u : Nat) - 96)) ∧
    (∀ e : Fin 96, sharesOn s.dev e = [] → smGet 0 s.dev.gov.shareFree e + 400000 ≤ s.dev.now → (e : Nat) ∉ s.dev.gov.off →
      Completes (.engineOff e) s (fun t => (e : Nat) ∈ t.dev.gov.off ∧ (e : Nat) ∉ t.dev.gov.gated ∧ t.dev.eng = s.dev.eng ∧
        ∀ a, memByte t.dev.mem.baskets a = if a / 2 ^ 23 = e then 0#8 else memByte s.dev.mem.baskets a)) ∧
    (∀ (die : Fin 32) (bank : Fin 16), (∀ q ∈ s.dev.mem.frames, q.1 / 512 = (bankFrames die bank).1 / 512 → q.2 = .retired) →
      Completes (.cupboardBankOff die bank) s (fun t =>
        t = { s with dev := { s.dev with gov := { s.dev.gov with banksOff := t.dev.gov.banksOff } } } ∧
        16 * (die : Nat) + bank ∈ t.dev.gov.banksOff))

/-- 13 R523, R526, R532 to R535; 16 R584: a budget window ends with the thermal rates of its readings and the lesser of them and the power rate in
force; a reading of 115 °C or more, a clock fault and a loss of input take the rails off, and the first two raise TRIP with their cause. -/
def Obligations.GovernorLimitsAndTrips : Prop :=
  ∀ (s : State), s.dev.flashIf.busy = none →
    (s.dev.boot.ready = true → s.dev.gov.windowAt + 400000 ≤ s.dev.now → Completes .budgetWindow s (fun t =>
      t.nv = s.nv ∧ t.dev.mem = s.dev.mem ∧ t.dev.eng = s.dev.eng ∧ t.dev.gov.windowAt = s.dev.gov.windowAt + 400000 ∧
      t.dev.gov.windows = s.dev.gov.windows + 1 ∧ t.dev.gov.spent = 0 ∧ t.dev.gov.hotSeen = [] ∧
      (∀ r, r < 24 → smGet 0 t.dev.gov.thermal r = thermalNext s.dev.gov r ∧
        smGet 0 t.dev.gov.rate r = max (16 - powerRate (budget s.dev)) (thermalNext s.dev.gov r)) ∧
      (t.dev.pwr.throttle = true ↔ ∃ r, r < 24 ∧ thermalNext s.dev.gov r ≠ 0))) ∧
    (∀ l : List (BitVec 16), s.dev.pwr.rails = true → s.dev.boot.selfTest = true → l.length ≤ 66 → (∀ v ∈ l, v.toInt < 460) →
      Completes (.sensorRead l) s (fun t => t = { s with dev := { s.dev with gov := t.dev.gov, pwr := t.dev.pwr } } ∧
        t.dev.pwr.trip = s.dev.pwr.trip ∧ t.dev.pwr.rails = true ∧
        ∀ i, (h : i < l.length) → smGet 0 t.dev.gov.temps i = l[i].toInt.toNat)) ∧
    (∀ (l : List (BitVec 16)) (i : Nat) (h : i < l.length), s.dev.pwr.rails = true → s.dev.boot.selfTest = true → l.length ≤ 66 →
      460 ≤ l[i].toInt → (∀ j, (g : j < i) → (l[j]'(Nat.lt_trans g h)).toInt < 460) → s.dev.pwr.ctrlOn = true → s.dev.pwr.trip = false →
      Completes (.sensorRead l) s (fun t => t.nv = s.nv ∧ t.dev.pwr.rails = false ∧ t.dev.pwr.trip = true ∧ t.dev.pwr.tripClk = false ∧
        t.dev.pwr.cause = BitVec.ofNat 32 (3 + 16 * i) ∧ t.dev.boot.ready = false ∧ t.dev.ctxs = [] ∧ t.dev.queues = [])) ∧
    (s.dev.pwr.rails = true → s.dev.pwr.ctrlOn = true → s.dev.pwr.trip = false → Completes .clockFault s (fun t => t.nv = s.nv ∧
      t.dev.pwr.rails = false ∧ t.dev.pwr.trip = true ∧ t.dev.pwr.tripClk = true ∧ t.dev.pwr.cause = 4#32 ∧ t.dev.pwr.refOk = false ∧
      t.dev.boot.ready = false ∧ t.dev.ctxs = [])) ∧
    (∀ vin, vin < 38000 → s.dev.pwr.rails = true → Completes (.inputLoss vin) s (fun t => t.nv = s.nv ∧ t.dev.pwr.rails = false ∧
      t.dev.pwr.trip = s.dev.pwr.trip ∧ t.dev.pwr.vin = vin ∧ t.dev.pwr.pwrGood = false ∧ t.dev.boot.ready = false ∧ t.dev.ctxs = [] ∧
      (36000 < vin → s.dev.pwr.ctrlOn = true → s.dev.pwr.trip = false → t.dev.pwr.cause = 5#32)))

/-! ### Boot and resets (16, 17, 18) -/

/-- 16 R579, R587; 18 R644: a cold start begins once the input is good and the reference valid, and phases 0 to 2, 4 and 5 lead to the next. -/
def Obligations.BootPhasesFollowEachOther : Prop :=
  ∀ (s : State),
    let to_ (p : Nat) (t : State) : Prop := t = { s with dev := { s.dev with boot := { s.dev.boot with phase := p } } }
    let fails (unit detail : Nat) (t : State) : Prop := t = { s with dev := { s.dev with boot := { s.dev.boot with
      kind := none, failed := true, ready := false, failUnit := unit, detail := detail,
      failCode := if s.dev.boot.failCode = 0 then 0xF0 else s.dev.boot.failCode } } }
    (∀ vin, 40000 < vin → s.dev.pwr.ctrlOn = true → s.dev.pwr.rails = false → s.dev.boot.kind = none → s.dev.flashIf.busy = none →
      Completes (.coldStart vin) s (fun t => t.nv = s.nv ∧ t.dev.pwr.vin = vin ∧ t.dev.pwr.rails = false ∧
        (s.dev.pwr.refOk = true → t.dev.boot.kind = some .cold ∧ t.dev.boot.phase = 0 ∧ t.dev.pwr.trip = false) ∧
        (s.dev.pwr.refOk = false → t.dev.pwr.coldWait = true ∧ t.dev.boot = s.dev.boot))) ∧
    Completes .refclkValid s (fun t => t.nv = s.nv ∧ t.dev.pwr.refOk = true ∧
      (s.dev.pwr.coldWait = true → 40000 < s.dev.pwr.vin → t.dev.boot = { kind := some .cold, phase := 0 } ∧ t.dev.pwr.coldWait = false) ∧
      (s.dev.pwr.coldWait = false → t = { s with dev := { s.dev with pwr := { s.dev.pwr with refOk := true } } })) ∧
    (inPhase s.dev 0 = true → s.dev.pwr.refOk = true → Completes .railsUp s (fun t => t = { s with dev := { s.dev with
      pwr := { s.dev.pwr with rails := true, pwrGood := true }, boot := { s.dev.boot with phase := 1 } } })) ∧
    (inPhase s.dev 1 = true → s.dev.pwr.refOk = true → Completes .pllLock s (to_ 2)) ∧
    (inPhase s.dev 2 = true → s.nv.fuses.lifecycle = 5 → Completes (.rotSelfTestDone true) s (fun t =>
      t = { s with dev := { s.dev with boot := { s.dev.boot with
        phase := 3, partCode := s.nv.fuses.partCode, selfTest := true, tried := [] } } })) ∧
    (∀ ok, inPhase s.dev 2 = true → (ok = false ∨ s.nv.fuses.lifecycle ≠ 5) → Completes (.rotSelfTestDone ok) s (fails 4 0)) ∧
    (inPhase s.dev 4 = true → Completes .jenornebStart s (to_ 5)) ∧
    (inPhase s.dev 5 = true → Completes (.lpddr6TrainingDone []) s (to_ 6)) ∧
    (∀ f fs, inPhase s.dev 5 = true → Completes (.lpddr6TrainingDone (f :: fs)) s (fails 2 f)) ∧
    (∀ f fs, inPhase s.dev 6 = true → Completes (.bootRinseDone (f :: fs)) s (fails 3 f)) ∧
    (∀ p u, (p, u) ∈ [(1, 6), (2, 4), (3, 5), (4, 7)] → inPhase s.dev p = true → Completes .bootPhaseTimeout s (fails u 0))

/-- 16 R576 to R581, R585: IMAGE_VERIFY tries the slot of the greater SVN and BUILD, then the other, and boots a good one; the rinse of phase 6 and
that of a FUNCTION reset end READY; the ratchet blows a fuse while the counter lies below the SVN that was booted. -/
def Obligations.ImagesVerifyAndTheBootEndsReady : Prop :=
  ∀ (s : State),
    let h0 := imageHeader s.nv 0
    let h1 := imageHeader s.nv 1
    let k := match s.dev.boot.tried with
      | [] => if imSvn h0 < imSvn h1 ∨ (imSvn h0 = imSvn h1 ∧ imBuild h0 < imBuild h1) then 1 else 0
      | z :: _ => 1 - z.1
    let st := imageStatus s.nv k
    let h := imageHeader s.nv k
    let up (t : State) : Prop := t.nv = s.nv ∧ t.dev.boot.ready = true ∧ t.dev.boot.phase = 8 ∧ t.dev.boot.kind = none ∧
      t.dev.pwr.readyPin = true ∧ t.dev.gov.windowAt = s.dev.now
    (inPhase s.dev 3 = true → Completes .imageVerify s (fun t => t = { s with dev := { s.dev with boot := t.dev.boot } } ∧
      t.dev.boot.tried = s.dev.boot.tried ++ [(k, BitVec.ofNat 16 st)] ∧
      (st = 0 → t.dev.boot.phase = 4 ∧ t.dev.boot.slot = k ∧ t.dev.boot.svn = imSvn h ∧ t.dev.boot.keyIndex = field h 6 1 ∧
        t.dev.boot.fwMeas = sha256 (slice h 0 0xC0) ∧ t.dev.boot.failed = false) ∧
      (st ≠ 0 → s.dev.boot.tried = [] → t.dev.boot.phase = 3 ∧ t.dev.boot.fallback = true ∧ t.dev.boot.failCode = st ∧
        t.dev.boot.failUnit = 1 ∧ t.dev.boot.failed = false) ∧
      (st ≠ 0 → s.dev.boot.tried ≠ [] → t.dev.boot.failed = true ∧ t.dev.boot.kind = none ∧ t.dev.boot.failUnit = 1))) ∧
    (inPhase s.dev 6 = true → Completes (.bootRinseDone []) s up) ∧
    (∀ f, s.dev.boot.kind = some .function → s.dev.boot.rinsed = false → s.dev.boot.joined = false → Completes (.bootRinseDone f) s (fun t =>
      up t ∧ t.dev.mem = { s.dev.mem with hdm := if s.dev.boot.rinseHdm then [] else s.dev.mem.hdm })) ∧
    (s.dev.boot.ready = true → bit s.dev.boot.iflags 0 = true → counterOf s.nv.fuses < s.dev.boot.svn → counterOf s.nv.fuses < 64 →
      Completes .antiRollbackRatchet s (fun t => t = { s with nv := { s.nv with fuses := t.nv.fuses } } ∧
        counterOf t.nv.fuses = counterOf s.nv.fuses + 1)) ∧
    (s.dev.boot.svn ≤ counterOf s.nv.fuses → exec .antiRollbackRatchet s = .next s)

/-- 16 R585, R587; 17 R621; 18 R644: a reset pin that goes low, or a conventional reset over the link, begins a SYSTEM reset, in which the package
starts again from phase 1 with its cause; the release of a pin raises it and nothing else. -/
def Obligations.SystemResetsStartThePackageAgain : Prop :=
  ∀ (s : State), s.dev.flashIf.busy = none →
    let begun (cause : BitVec 32) (t : State) : Prop := t.nv = s.nv ∧ t.pending = s.pending ∧
      t.dev = { out := s.dev.out, freeCtr := s.dev.freeCtr, pwr := t.dev.pwr, boot := { kind := some .system, phase := 1 } } ∧
      t.dev.pwr.rails = true ∧ t.dev.pwr.cause = cause ∧ t.dev.pwr.readyPin = false ∧ t.dev.pwr.throttle = false ∧
      t.dev.pwr.refOk = s.dev.pwr.refOk
    (s.dev.pwr.rails = true → s.dev.pwr.ctrlOn = true → s.dev.pwr.trip = false → s.dev.pwr.resetN = true → s.dev.pwr.perstN = true →
      Completes .resetNAssert s (fun t => begun 1#32 t ∧ t.dev.pwr.resetN = false ∧ t.dev.pwr.perstN = true) ∧
      Completes (.conventionalReset true) s (fun t => begun 2#32 t ∧ t.dev.pwr.resetN = true ∧ t.dev.pwr.perstN = false) ∧
      Completes (.conventionalReset false) s (fun t => begun 2#32 t ∧ t.dev.pwr.resetN = true ∧ t.dev.pwr.perstN = true)) ∧
    Completes (.resetNRelease false) s (fun t => t = { s with dev := { s.dev with pwr := { s.dev.pwr with resetN := true } } }) ∧
    Completes (.resetNRelease true) s (fun t => t = { s with dev := { s.dev with pwr := { s.dev.pwr with perstN := true } } })

/-- 16 R585, R586; 17 R612, R621, R622, R652 to R654: a function level reset, a CXL Reset and entry into D3hot begin a FUNCTION reset, which ends every
context, command and queue and keeps DEVICE_ID, the port states and the HDM-DB backing; D0_RETURN completes the one that waits for it. -/
def Obligations.FunctionResetsEndEveryContext : Prop :=
  ∀ (s : State),
    let begun (t : State) : Prop := t.nv = s.nv ∧ t.pending = s.pending ∧ t.dev.boot.kind = some .function ∧ t.dev.boot.ready = false ∧
      t.dev.ctxs = [] ∧ t.dev.cmds = [] ∧ t.dev.launches = [] ∧ t.dev.eng = [] ∧ t.dev.mem.dram = [] ∧ t.dev.mem.baskets = [] ∧
      (∀ q, (queueOf t.dev q).state = .disabled) ∧ t.dev.host.deviceId = s.dev.host.deviceId ∧
      (∀ h, (portOf t.dev h).state = (portOf s.dev h).state) ∧ t.dev.mem.hdm = s.dev.mem.hdm ∧ t.dev.flashIf = s.dev.flashIf
    (s.dev.boot.ready = true → s.dev.pwr.rails = true →
      Completes .functionLevelReset s (fun t => begun t ∧ t.dev.host.bme = false ∧ t.dev.host.d3hot = false ∧ t.dev.boot.joined = false) ∧
      (∀ memClr, Completes (.cxlReset memClr) s (fun t => begun t ∧ t.dev.boot.memClr = true ∧ t.dev.boot.rinseHdm = memClr ∧
        t.dev.host.cxlRstC = false)) ∧
      (s.dev.host.d3hot = false → Completes .d3hotEntry s (fun t => begun t ∧ t.dev.host.d3hot = true ∧ t.dev.boot.joined = true))) ∧
    (s.dev.host.d3hot = true → Completes .d0Return s (fun t => t.nv = s.nv ∧ t.dev.host.d3hot = false ∧ t.dev.host.bme = false ∧
      (s.dev.boot.kind = some .function → s.dev.boot.joined = true → s.dev.boot.rinsed = true → t.dev.boot.ready = true) ∧
      (s.dev.boot.kind ≠ some .function → t.dev.boot = s.dev.boot)))

/-- 18 R629, R635, R636: the management controller starts above 36 V with BOOT_CAUSE 0, MGMT_REFRESH copies the measured values into the registers,
a write is answered with NACK and changes nothing, and the controller that stops loses BOOT_CAUSE and ends a trip. -/
def Obligations.ManagementControllerRegisters : Prop :=
  ∀ (s : State),
    let only (t : State) : Prop := t = { s with dev := { s.dev with pwr := t.dev.pwr, freeCtr := t.dev.freeCtr } }
    (∀ vin straps, 36000 < vin → s.dev.pwr.ctrlOn = false → Completes (.mgmtControllerStart vin straps) s (fun t => only t ∧
      t.dev.pwr.ctrlOn = true ∧ t.dev.pwr.vin = vin ∧ t.dev.pwr.straps = straps ∧ t.dev.pwr.cause = 0#32 ∧ t.dev.pwr.trip = false)) ∧
    (s.dev.pwr.ctrlOn = true → Completes .mgmtRefresh s (fun t => only t ∧ t.dev.pwr.rVin = BitVec.ofNat 16 (s.dev.pwr.vin / 10) ∧
      t.dev.pwr.rTj = s.dev.pwr.tjMax ∧ t.dev.pwr.rCause = s.dev.pwr.cause.setWidth 16 ∧ t.dev.pwr.vinOut = false ∧
      t.dev.pwr.rStatus.getLsbD 15 = s.dev.pwr.pwrGood ∧ t.dev.pwr.rStatus.getLsbD 14 = s.dev.pwr.readyPin ∧
      t.dev.pwr.rStatus.getLsbD 13 = s.dev.pwr.throttle ∧ t.dev.pwr.rStatus.getLsbD 10 = s.dev.boot.failed)) ∧
    (∀ reg value, s.dev.pwr.ctrlOn = true → Completes (.mgmtWrite reg value) s (fun t =>
      t = { s with dev := { s.dev with out := .smbNack :: s.dev.out } })) ∧
    Completes .mgmtControllerStop s (fun t => t = { s with dev := { s.dev with pwr := { s.dev.pwr with
      ctrlOn := false, cause := 0, trip := false, tripClk := false } } })

/-! ### The host attachment (17) -/

/-- 17 R611, R613: a write of 8 bytes sets Q0_SQ_BASE before ENABLE; ENABLE makes queue 0 ACTIVE with the values written, or sets CFG_ERR where a
base is misaligned or a field out of range; once ENABLE is 1, and before READY, such writes are ignored, as are those of unlisted offsets. -/
def Obligations.HostRegistersConfigureQueueZero : Prop :=
  ∀ (s : State) (v : BitVec 32) (w : BitVec 64), s.dev.pwr.rails = true → s.dev.host.linkUp = true →
    let cfg : Nat := bits v.toNat 24 16 * 2 ^ 16 + bits v.toNat 12 8 * 2 ^ 8 + bits v.toNat 4 0
    let sq := bits v.toNat 4 0
    let cq := bits v.toNat 12 8
    let good : Prop := s.dev.host.q0Sq.toNat % 4096 = 0 ∧ s.dev.host.q0Cq.toNat % 4096 = 0 ∧ 6 ≤ sq ∧ sq ≤ 16 ∧ 6 ≤ cq ∧ cq ≤ 16 ∧
      s.dev.host.q0Sq.toNat + 64 * 2 ^ sq ≤ 2 ^ 36
    let closed : Prop := s.dev.boot.ready = false ∨ s.dev.host.q0Cfg.getLsbD 31 = true
    (s.dev.boot.ready = true → s.dev.host.q0Cfg.getLsbD 31 = false →
      Completes (.registerWrite 0x10 true w) s (fun t => t = { s with dev := { s.dev with host := { s.dev.host with q0Sq := w } } }) ∧
      (good → Completes (.q0CfgEnable v) s (fun t =>
        t = { s with dev := { s.dev with queues := t.dev.queues, host := { s.dev.host with q0Cfg := BitVec.ofNat 32 (cfg + 2 ^ 31) } } } ∧
        ∀ k, queueOf t.dev k = if k = 0 then
          { state := .active, sqBase := s.dev.host.q0Sq, cqBase := s.dev.host.q0Cq, sqLog2 := sq, cqLog2 := cq, weight := 16,
            retainLog2 := 12, msix := BitVec.ofNat 16 (bits v.toNat 24 16), maxInflight := 1024, slotLog2 := 16, slotCount := 64 }
          else queueOf s.dev k)) ∧
      (¬ good → Completes (.q0CfgEnable v) s (fun t =>
        t = { s with dev := { s.dev with host := { s.dev.host with q0Cfg := BitVec.ofNat 32 (cfg + 2 ^ 30) } } }))) ∧
    (closed → exec (.q0CfgEnable v) s = .next s ∧ exec (.registerWrite 0x10 true w) s = .next s) ∧
    (∀ off, 0x34 ≤ off → off < 0xF8 → exec (.registerWrite off true w) s = .next s)

/-- 17 R612: DEVICE_ID takes bits 12:0 of a write while every half-port is OFF, ignores one otherwise, is 0 after reset, and is kept by a FUNCTION
reset. -/
def Obligations.DeviceIdIsWrittenWhileEveryPortIsOff : Prop :=
  (∀ (s : State) (v : BitVec 32), s.dev.pwr.rails = true → s.dev.host.linkUp = true →
    ((∀ h, h < 36 → (portOf s.dev h).state = .off) → Completes (.deviceIdWrite v) s (fun t =>
      t = { s with dev := { s.dev with host := { s.dev.host with deviceId := v &&& 0x1FFF#32 } } })) ∧
    ((∃ h, h < 36 ∧ (portOf s.dev h).state ≠ .off) → exec (.deviceIdWrite v) s = .next s)) ∧
  State.reset.dev.host.deviceId = 0#32 ∧
  (∀ (s : State), ∀ row ∈ [Instr.functionLevelReset, .cxlReset false, .cxlReset true, .d3hotEntry], Completes row s (fun t =>
    t.dev.host.deviceId = s.dev.host.deviceId ∧ ∀ h, (portOf t.dev h).state = (portOf s.dev h).state))

/-- 16 R574; 17 R615: FLASH_READ, FLASH_PROGRAM, FLASH_ERASE and FLASH_OP_COMPLETE complete: GO with OP READ reads 4 KiB into the buffer; PROGRAM and
ERASE are BUSY until they complete, and then have written the buffer or erased 64 KiB; OP 3, a misaligned address, and a PROGRAM or ERASE that touches the
booted slot or the certificate area set REFUSED and do nothing; a GO while BUSY, before READY or without the link is ignored; a flash fault sets ERROR. -/
def Obligations.FlashOperationsReadProgramAndErase : Prop :=
  ∀ (s : State),
    let a := s.dev.flashIf.addr.toNat
    let slot := 0x2000000 * s.dev.boot.slot
    -- the n bytes from FLASH_ADDR on lie outside the booted slot and outside the certificate area
    let free (n : Nat) : Prop := (a + n ≤ slot ∨ slot + 0x2000000 ≤ a) ∧ (a + n ≤ 0x4000000 ∨ 0x4010000 ≤ a)
    let begun (op : FlashOp) (t : State) : Prop := t = { s with dev := { s.dev with flashIf := { s.dev.flashIf with busy := some (op, a) } } }
    let refused (t : State) : Prop := t = { s with dev := { s.dev with flashIf := { s.dev.flashIf with refused := true } } }
    (s.dev.pwr.rails = true → s.dev.host.linkUp = true → s.dev.boot.ready = true → s.dev.flashIf.busy = none →
      (a % 4096 = 0 → Completes .flashRead s (fun t =>
        t = { s with dev := { s.dev with flashIf := { s.dev.flashIf with buf := t.dev.flashIf.buf } } } ∧
        ∀ i, smGet 0#8 t.dev.flashIf.buf i = if i < 4096 then flashByte s.nv (a + i) else smGet 0#8 s.dev.flashIf.buf i)) ∧
      (a % 4096 = 0 → free 4096 → Completes .flashProgram s (begun .program)) ∧
      (a % 65536 = 0 → free 65536 → Completes .flashErase s (begun .erase)) ∧
      (a % 4096 ≠ 0 → Completes .flashRead s refused) ∧
      (a % 4096 ≠ 0 ∨ ¬ free 4096 → Completes .flashProgram s refused) ∧
      (a % 65536 ≠ 0 ∨ ¬ free 65536 → Completes .flashErase s refused) ∧
      (∀ v : BitVec 64, bit v.toNat 31 = true → bits v.toNat 1 0 = 3 → Completes (.registerWrite 0x2C false v) s refused)) ∧
    ((s.dev.pwr.rails = false ∨ s.dev.host.linkUp = false ∨ s.dev.boot.ready = false ∨ s.dev.flashIf.busy ≠ none) →
      exec .flashRead s = .next s ∧ exec .flashProgram s = .next s ∧ exec .flashErase s = .next s) ∧
    (∀ b, s.dev.flashIf.busy = some (.program, b) → Completes (.flashOpComplete false) s (fun t => t.dev.flashIf.busy = none ∧
      t.nv.fuses = s.nv.fuses ∧ ∀ i, flashByte t.nv i = if b ≤ i ∧ i < b + 4096 then smGet 0#8 s.dev.flashIf.buf (i - b)
        else flashByte s.nv i)) ∧
    (∀ b, s.dev.flashIf.busy = some (.erase, b) → Completes (.flashOpComplete false) s (fun t => t.dev.flashIf.busy = none ∧
      t.nv.fuses = s.nv.fuses ∧ ∀ i, flashByte t.nv i = if b ≤ i ∧ i < b + 65536 then Config.flashErased else flashByte s.nv i)) ∧
    (∀ op b, s.dev.flashIf.busy = some (op, b) → Completes (.flashOpComplete true) s (fun t => t.dev.flashIf.busy = none ∧
      t.dev.flashIf.error = true ∧ t.nv.fuses = s.nv.fuses ∧
      ∀ i, i < b ∨ b + flashOpBytes op ≤ i → flashByte t.nv i = flashByte s.nv i))

/-- 17 R604, R605, R608 to R610, R616: the HDM-DB window returns what was written to it, the host's snoop is answered without a line, its
back-invalidate response writes back, and the link, flush and mailbox rows answer. -/
def Obligations.HostMemoryRequestsAreServed : Prop :=
  ∀ (s : State) (off : Nat) (data : List Byte), s.dev.pwr.rails = true →
    let sends (m : OutMsg) (t : State) : Prop := t = { s with dev := { s.dev with out := m :: s.dev.out } }
    let onlyHdm (t : State) : Prop := t = { s with dev := { s.dev with mem := { s.dev.mem with hdm := t.dev.mem.hdm } } }
    (off < 2 ^ 36 → hdmOpen s.dev = true → off % 64 + data.length ≤ 64 → Completes (.hdmMemRequest true off data) s (fun t => onlyHdm t ∧
      ∀ a, memByte t.dev.mem.hdm a = if off ≤ a ∧ a < off + data.length then nth 0#8 data (a - off) else memByte s.dev.mem.hdm a)) ∧
    (off < 2 ^ 36 → hdmOpen s.dev = true → Completes (.hdmMemRequest false off data) s (fun t => ∃ bs : List Byte, bs.length = 64 ∧
      (∀ k, k < 64 → nth 0#8 bs k = memByte s.dev.mem.hdm (off / 64 * 64 + k)) ∧ sends (.memData bs false) t)) ∧
    (off < 2 ^ 36 → hdmOpen s.dev = false → Completes (.hdmMemRequest false off data) s (sends (.memData [] true))) ∧
    (off / 64 ∈ s.dev.host.snooping → data.length = 64 → Completes (.backInvalidateResponse off data) s (fun t =>
      off / 64 ∈ t.dev.host.snooped ∧ off / 64 ∉ t.dev.host.snooping ∧
      ∀ a, memByte t.dev.mem.hdm a = if a / 64 = off / 64 then nth 0#8 data (a % 64) else memByte s.dev.mem.hdm a)) ∧
    (∀ width gts, 1 ≤ s.dev.boot.phase → (width = 8 ∨ width = 16) → (gts = 32 ∨ gts = 64) → Completes (.cxlLinkTrained width gts) s (fun t =>
      t = { s with dev := { s.dev with host := { s.dev.host with linkUp := true, width := width, gts := gts, decoder := true } } })) ∧
    (s.dev.host.linkUp = true →
      Completes (.hostSnoop off) s (sends .snoopResp) ∧ Completes .globalPersistentFlush s (sends .gpfAck) ∧
      (∀ n, n < (cdatEntries s.dev).length → Completes (.cdatTableAccess n) s (fun t => ∃ hd : List Byte,
        hd.length = 4 ∧ sends (.cdat (hd ++ nth [] (cdatEntries s.dev) n)) t)) ∧
      (∀ n, Completes (.doeDiscovery n) s (fun t => ∃ bs : List Byte, bs.length = 4 ∧ sends (.doe bs) t)))

/-- 17 R616 to R618, R652: a returned line of host memory goes into the range that asked for it, a failed one ends its command with DEVICE_FAULT,
DETAIL 7; setting Bus Master Enable issues the reads that wait and ends the commands' wait for it, clearing it begins the wait of those that need host memory. -/
def Obligations.ReadsOfHostMemoryReturnOrFail : Prop :=
  ∀ (s : State) (addr : Nat) (w : HostWant),
    (∀ data : List Byte, data.length = 64 → s.dev.host.inFlight = [(addr, w.use)] → s.dev.host.reads = [w] → w.addr / 64 * 64 ≤ addr →
      addr < w.addr + w.len → w.len + w.addr % 64 ≤ w.next → Completes (.hostReadComplete addr data) s (fun t =>
        t = { s with dev := { s.dev with host := { s.dev.host with inFlight := [], reads := t.dev.host.reads } } } ∧
        ∃ v, t.dev.host.reads = [v] ∧ v = { w with left := w.left - 1, got := v.got } ∧
          ∀ j, memByte v.got j = if addr ≤ w.addr + j ∧ w.addr + j < addr + 64 ∧ j < w.len then nth 0#8 data (w.addr + j - addr)
            else memByte w.got j)) ∧
    (∀ cid c, w.use = .cmd cid → s.dev.host.inFlight = [(addr, w.use)] → s.dev.host.reads = [w] → w.addr / 64 * 64 ≤ addr →
      addr < w.addr + w.len → smFind s.dev.cmds cid = some c → c.fin = none → opcodeC c ≠ 0x0501 →
      Completes (.hostReadError addr) s (fun t => t.dev.host = { s.dev.host with inFlight := [], reads := [] } ∧
        finOf t cid = some (0x00F0#16, 0x0007#16, resultOf [(0x18, 8, addr)]))) ∧
    (s.dev.pwr.rails = true → s.dev.host.linkUp = true → s.dev.host.bme = false → s.dev.host.inFlight = [] → s.dev.host.reads = [w] →
      w.next = 0 → w.len = 64 → w.addr % 64 = 0 → s.dev.queues = [] → Completes .busMasterEnableSet s (fun t => ∃ u : State, t = followed u ∧
        u = { s with dev := { s.dev with cmds := u.dev.cmds, out := .readReq w.addr :: s.dev.out, host := { s.dev.host with
          bme := true, inFlight := [(w.addr, w.use)], reads := [{ w with next := 64 }] } } } ∧
        ∀ k, smFind u.dev.cmds k = (smFind s.dev.cmds k).map (fun c => { c with bmeFrom := none, bmeFor := bmeWaited s.dev c }))) ∧
    Completes .busMasterEnableClear s (fun t =>
      t = { s with dev := { s.dev with cmds := t.dev.cmds, host := { s.dev.host with bme := false } } } ∧
      ∀ k, smFind t.dev.cmds k = if k ∈ stalledCmds s.dev then
          (smFind s.dev.cmds k).map (fun c => { c with bmeStall := true, bmeFrom := some (c.bmeFrom.getD s.dev.now) })
        else smFind s.dev.cmds k)

/-! ### The SPDM responder (16) -/

/-- 16 R598, R599; 17 R620: GET_VERSION, GET_CAPABILITIES, NEGOTIATE_ALGORITHMS, GET_DIGESTS, GET_CERTIFICATE, CHALLENGE, GET_MEASUREMENTS, KEY_EXCHANGE,
FINISH, KEY_UPDATE, END_SESSION and IDE_KM_REQUEST are each answered in their place with their response code: the negotiation goes through its stages, one
session is set up, updated and ended, IDE keys are programmed and IDE goes and stops. Out of its place a request is answered with ERROR,
UnexpectedRequest, and any other with ERROR, UnsupportedRequest. -/
def Obligations.SpdmRequestsAreAnswered : Prop :=
  ∀ (s : State) (msg : List Byte), s.dev.pwr.rails = true → s.dev.host.linkUp = true →
    let p := s.dev.spdm
    let op := field msg 2 1
    let slot0 := op = 0
    let error (code data : Nat) (t : State) : Prop :=
      t = { s with dev := { s.dev with out := .spdm 0x7F ([0x12#8, 0x7F#8] ++ natLe 1 code ++ natLe 1 data) :: s.dev.out } }
    -- the connection: each request moves its stage
    Completes (.getVersion msg) s (fun t => Says s t 0x04 ∧ t.dev.spdm.stage = 1) ∧
    (1 ≤ p.stage → Completes (.getCapabilities msg) s (fun t => Says s t 0x61 ∧ t.dev.spdm.stage = max p.stage 2)) ∧
    (2 ≤ p.stage → Completes (.negotiateAlgorithms msg) s (fun t => Says s t 0x63 ∧ t.dev.spdm.stage = 3)) ∧
    -- the certificates, the challenge and the measurements
    (3 ≤ p.stage → Completes (.getDigests msg) s (fun t => Says s t 0x01 ∧
      ∃ h, t.dev.out = .spdm 0x01 (h ++ sha256 (spdmChain s.nv)) :: s.dev.out ∧ h.length = 4)) ∧
    (3 ≤ p.stage → slot0 → field msg 4 2 < (spdmChain s.nv).length → Completes (.getCertificate msg) s (fun t => Says s t 0x02 ∧
      ∃ h, t.dev.out = .spdm 0x02 (h ++ ((spdmChain s.nv).drop (field msg 4 2)).take (field msg 6 2)) :: s.dev.out ∧ h.length = 8)) ∧
    (3 ≤ p.stage → slot0 → Completes (.challenge msg) s (fun t => Says s t 0x03)) ∧
    (3 ≤ p.stage → (field msg 3 1 ≤ 6 ∨ field msg 3 1 = 0xFF) → Completes (.getMeasurements msg) s (fun t => Says s t 0x60)) ∧
    -- the session
    (3 ≤ p.stage → p.established = false → Completes (.keyExchange msg) s (fun t => Says s t 0x64 ∧ t.dev.spdm.session.isSome = true ∧
      t.dev.spdm.established = false ∧ t.dev.spdm.keyGen = 0 ∧ t.dev.spdm.nextSession = p.nextSession + 1)) ∧
    (3 ≤ p.stage → p.session.isSome = true → p.established = false → Completes (.finish msg) s (fun t => Says s t 0x65 ∧
      t.dev.spdm.established = true ∧ t.dev.spdm.session = p.session)) ∧
    (3 ≤ p.stage → p.established = true →
      (1 ≤ op → op ≤ 3 → Completes (.keyUpdate msg) s (fun t => Says s t 0x69 ∧
        t.dev.spdm.keyGen = if op = 3 then p.keyGen else p.keyGen + 1)) ∧
      Completes (.endSession msg) s (fun t => Says s t 0x6C ∧ t.dev.spdm.session = none ∧ t.dev.spdm.established = false) ∧
      (field msg 12 1 = 0 → Completes (.ideKmRequest msg) s (fun t => Says s t 0x7E ∧ t.dev.spdm.ideMem = p.ideMem ∧ t.dev.spdm.ideIo = p.ideIo)) ∧
      (field msg 12 1 = 2 → Completes (.ideKmRequest msg) s (fun t => Says s t 0x7E ∧
        (field msg 7 2 = 0x1E98 → t.dev.spdm.ideMem = true ∧ t.dev.spdm.ideIo = p.ideIo) ∧
        (field msg 7 2 ≠ 0x1E98 → t.dev.spdm.ideIo = true ∧ t.dev.spdm.ideMem = p.ideMem))) ∧
      (field msg 12 1 = 4 ∨ field msg 12 1 = 5 → Completes (.ideKmRequest msg) s (fun t => ∃ body : List Byte,
        t = { s with dev := { s.dev with spdm := t.dev.spdm, host := t.dev.host, out := .spdm 0x7E body :: s.dev.out } } ∧
        t.dev.host = { s.dev.host with
          ide := if field msg 12 1 = 5 then false else if p.ideMem = true ∧ p.ideIo = true then true else s.dev.host.ide }))) ∧
    -- a request out of its place, or that names what is not there
    (p.stage < 1 → Completes (.getCapabilities msg) s (error 0x04 0)) ∧
    (p.stage < 2 → Completes (.negotiateAlgorithms msg) s (error 0x04 0)) ∧
    (p.stage < 3 → ∀ row ∈ [Instr.getDigests msg, .getCertificate msg, .challenge msg, .getMeasurements msg, .keyExchange msg, .finish msg,
      .keyUpdate msg, .endSession msg, .ideKmRequest msg], Completes row s (error 0x04 0)) ∧
    (p.established = false → ∀ row ∈ [Instr.keyUpdate msg, .endSession msg, .ideKmRequest msg], Completes row s (error 0x04 0)) ∧
    (3 ≤ p.stage → p.session = none ∨ p.established = true → Completes (.finish msg) s (error 0x04 0)) ∧
    (3 ≤ p.stage → p.established = true → Completes (.keyExchange msg) s (error 0x0A 0)) ∧
    (3 ≤ p.stage → ¬ slot0 → ∀ row ∈ [Instr.getCertificate msg, .challenge msg], Completes row s (error 0x01 0)) ∧
    Completes (.spdmUnsupportedRequest msg) s (fun t => Says s t 0x7F ∧ error 0x07 (field msg 1 1) t)

/-! ### The fabric (10) -/

/-- 10 R385, R387, R414 to R416; 18 R644: a half-port goes through DETECT, AN, TRAIN, ALIGN and IDENT to UP; a direct port with a failed lane
trains again on the half without one; an IDENT from the wrong device or port, a state that times out and a new cable take it DOWN. -/
def Obligations.PortsComeUpAndGoDown : Prop :=
  ∀ (s : State) (h : Fin 36) (lanes pol : BitVec 8) (rev : Bool),
    let p := portOf s.dev h
    let cfg := portConfig s.dev h
    let now := s.dev.now
    let is (q : HalfPort) (t : State) : Prop := PortIs h s t q ∧ t.dev.tally = s.dev.tally
    let trains (q : HalfPort) (t : State) : Prop :=
      OnlyPort h s t ∧ portOf t.dev h = { q with state := .train, stateAt := now } ∧ t.dev.out = .train h :: s.dev.out ∧ t.dev.tally = s.dev.tally
    (p.state = .detect →
      (2 ≤ cfg → fabMedia s.dev (h / 2) = 0 → Completes (.portSignalDetect h) s (is { p with state := .an, stateAt := now })) ∧
      ((cfg < 2 ∨ fabMedia s.dev (h / 2) ≠ 0) → Completes (.portSignalDetect h) s (trains p))) ∧
    (p.state = .an → Completes (.portAnComplete h) s (trains p)) ∧
    (p.state = .train →
      (p.degraded = false → hasLanes lanes.toNat (laneMask s.dev h) = true → Completes (.portTrainComplete h lanes pol rev) s
        (is { p with state := .align, stateAt := now, laneOk := lanes &&& BitVec.ofNat 8 (laneMask s.dev h), revPol := pol, laneRev := rev })) ∧
      (p.degraded = true → hasLanes lanes.toNat p.laneOk.toNat = true → Completes (.portTrainComplete h lanes pol rev) s
        (is { p with state := .align, stateAt := now, laneOk := lanes &&& p.laneOk, revPol := pol, laneRev := rev })) ∧
      (p.degraded = false → cfg = 1 → hasLanes lanes.toNat 0xFF = false → hasLanes lanes.toNat 0x0F = true →
        Completes (.portTrainComplete h lanes pol rev) s (trains { p with degraded := true, laneOk := 0x0F#8 })) ∧
      (p.degraded = false → cfg = 1 → hasLanes lanes.toNat 0x0F = false → hasLanes lanes.toNat 0xF0 = true →
        Completes (.portTrainComplete h lanes pol rev) s (trains { p with degraded := true, laneOk := 0xF0#8 }))) ∧
    (p.state = .align →
      (cfg = 1 → Completes (.portAlignComplete h) s (fun t => PortSends h s t 1 { p with state := .ident, stateAt := now, owed := owesAtIdent p } ∧ t.dev.tally = s.dev.tally)) ∧
      (cfg ≠ 1 → p.retrain = false → Completes (.portAlignComplete h) s
        (is { p with state := .up, stateAt := now, replays := 0, nakSent := false }))) ∧
    (p.state = .ident → cfg = 1 → ∀ dev port credits digest,
      let diff := decide (digest ≠ digest64 s.dev)
      ((dev, port) = directPeer s.dev (h / 2) → p.retrain = false → Completes (.ident h dev port credits digest) s (is { p with
        state := .up, stateAt := now, peer := dev, digestDiff := diff, replays := 0, nakSent := false, txSeq := 0, txAcked := 1023, retry := [],
        inRetry := [], credits := (span 0 4).map (nth 0 credits) })) ∧
      ((dev, port) ≠ directPeer s.dev (h / 2) → p.inRetry = [] → p.queued = [] → Completes (.ident h dev port credits digest) s (fun t =>
        PortIs h s t (downPort s h { p with peerMismatch := true, digestDiff := diff })))) ∧
    ((p.state = .an ∨ p.state = .train ∨ p.state = .align ∨ p.state = .ident) → p.inRetry = [] → p.queued = [] →
      (limitPassed s.dev h = true → Completes (.portStateTimeout h) s (fun t => PortIs h s t (downPort s h p))) ∧
      Completes (.cableConnect h) s (is (downPort s h p))) ∧
    (p.state = .down → p.stateAt + 400000000 ≤ now → Completes (.portDownWaitExpire h) s (is { p with state := .detect, stateAt := now })) ∧
    (limitPassed s.dev h = false → exec (.portStateTimeout h) s = .next s ∧ exec (.portDownWaitExpire h) s = .next s) ∧
    (∀ row st, (row, st) ∈ [(Instr.portSignalDetect h, PState.detect), (.portAnComplete h, .an), (.portAlignComplete h, .align),
      (.portTrainComplete h lanes pol rev, .train), (.portDownWaitExpire h, .down)] → p.state ≠ st → exec row s = .next s)

/-- 10 R392 to R396, R398: a flit that fails its CRC is answered with one NAK; the next DATA flit is taken with its ACK, its credits and the packets
it carries; NAK, and 3,200 n-cycles without ACK progress, send again from a SEQ on; a retraining keeps the retry buffer, and one that times out takes the port DOWN. -/
def Obligations.FlitsAreTakenInOrderAndReplayed : Prop :=
  ∀ (s : State) (h : Fin 36) (f : List Byte), portConfig s.dev h = 1 →
    let p := portOf s.dev h
    let w := field f 0 4
    let body := slice f 4 1016
    let pk := packetOf body
    let went (q : HalfPort) : HalfPort := { q with rxNext := (p.rxNext + 1) % 1024, nakSent := false }
    (p.state = .up → f.length = 1024 → (crc32c (f.take 1020)).toNat ≠ field f 1020 4 → Completes (.linkFlitReceive h f) s (fun t =>
      (p.nakSent = true → PortIs h s t p) ∧ (p.nakSent = false → PortSends h s t 1 { p with nakSent := true }))) ∧
    (p.state = .up → NextFlit p f → p.rxBuf = [] →
      (zeros body = true → (∀ q ∈ p.retry, q.1 ≠ bits w 19 10) → Completes (.linkFlitReceive h f) s (fun t =>
        PortIs h s t (went (flitAcked s.dev.now p f none [])))) ∧
      (∀ l b r, zeros body = true → p.retry = l ++ (bits w 19 10, b) :: r → (∀ q ∈ l, q.1 ≠ bits w 19 10) →
        Completes (.linkFlitReceive h f) s (fun t => PortIs h s t (went (flitAcked s.dev.now p f (some l) r)))) ∧
      (zeros body = false → (∀ q ∈ p.retry, q.1 ≠ bits w 19 10) → knownKind pk.kind = true → pk.dst = myId s.dev → packetSize pk ≤ 1016 →
        zeros (body.drop (packetSize pk)) = true → Completes (.linkFlitReceive h f) s (fun t =>
          t = { s with dev := { s.dev with fabric := { s.dev.fabric with ports := t.dev.fabric.ports, rxq := s.dev.fabric.rxq ++ [((h : Nat), pk)] } } } ∧
          (∀ k, k ≠ (h : Nat) → portOf t.dev k = portOf s.dev k) ∧
          portOf t.dev h = { went (flitAcked s.dev.now p f none []) with
            rxFill := setNth p.rxFill pk.vc (nth 0 p.rxFill pk.vc + packetSize pk) }))) ∧
    (∀ l seq b r, p.state = .up → p.retry = l ++ (seq, b) :: r → (∀ q ∈ l, q.1 ≠ seq) →
      Completes (.nak h seq) s (fun t => PortSends h s t (r.length + 1) { p with replays := p.replays + 1, ackAt := s.dev.now }) ∧
      (l = [] → p.ackAt + 800 ≤ s.dev.now → Completes (.replayTimeout h) s (fun t =>
        PortSends h s t (r.length + 1) { p with replays := p.replays + 1, ackAt := s.dev.now }))) ∧
    (s.dev.now < p.ackAt + 800 → exec (.replayTimeout h) s = .next s) ∧
    (p.state = .up →
      Completes (.retrain h true) s (fun t => OnlyPort h s t ∧ t.dev.out = .train h :: s.dev.out ∧
        portOf t.dev h = { p with state := .train, retrain := true, degraded := false, retrainAt := s.dev.now, stateAt := s.dev.now }) ∧
      (p.replays < 8 → exec (.retrain h false) s = .next s) ∧
      (8 ≤ p.replays → Completes (.retrain h false) s (fun t => OnlyPort h s t ∧
        portOf t.dev h = { p with
          state := .train, retrain := true, degraded := false, retrainAt := s.dev.now, stateAt := s.dev.now, owed := (portOf t.dev h).owed } ∧
        ∃ b, b.length = 1024 ∧ t.dev.out = .train h :: .flit h b :: s.dev.out))) ∧
    (p.retrain = true → p.state ≠ .up → p.inRetry = [] → p.queued = [] → p.retrainAt + 400000000 ≤ s.dev.now →
      Completes (.retrainTimeout h) s (fun t => PortIs h s t (downPort s h p) ∧ t.dev.tally = s.dev.tally)) ∧
    (s.dev.now < p.retrainAt + 400000000 → exec (.retrainTimeout h) s = .next s)

/-- 07 R259, R260; 10 R398, R400, R401: a READ is answered with the bytes and a WRITE stores them and is acknowledged, within a 4 KiB page of a context's
LOCAL page with RX, else READ_ERR says why; an answer frees the TAG of its request, a failed request keeps it; a MSG is answered. -/
def Obligations.PacketsOfRequestsAreServed : Prop :=
  ∀ (s : State) (g : Nat) (pk : Packet) (rest : List (Nat × Packet)), FirstPacket s g pk rest →
    let d1 := tookPacket s g pk rest
    let d2 := accessed s g pk rest
    let va := 64 * pk.addr
    let sent (d : Dev) (p : Packet) (t : State) : Prop := t = { s with dev := sendOrDrop d p }
    let err (c : Nat) : State → Prop := sent d2 (mkPacket d2 pk.src pkReadErr 0 pk.tag 0 4 (natLe 4 c))
    let near := va % 4096 + pk.len ≤ 4096
    (d2 = { d1 with mem := { s.dev.mem with caches := d2.mem.caches } } ∧ d1 = { s.dev with fabric := { s.dev.fabric with ports := d1.fabric.ports, rxq := rest }, out := d1.out } ∧
      (36 ≤ g → d1.fabric.ports = s.dev.fabric.ports ∧ d1.out = s.dev.out) ∧
      (g < 36 → ∃ l, nth 0 (portOf d1 g).rxFill pk.vc = nth 0 l pk.vc ∧ l = setNth (portOf s.dev g).rxFill pk.vc
        (nth 0 (portOf s.dev g).rxFill pk.vc - packetSize pk))) ∧
    (∀ x dpa, smFind s.dev.ctxs pk.ctx = some x → translate x va .peer = .ok dpa → near →
      (pk.kind = pkRead → badIn s.dev.mem dpa pk.len = false → Completes (.read pk) s
        (sent d2 (mkPacket d2 pk.src pkReadData pk.ctx pk.tag va pk.len (memRead s.dev.mem.dram dpa pk.len)))) ∧
      (pk.kind = pkWrite → pk.data.length = pk.len → Completes (.write pk) s (fun t => ∃ m : MemSys,
        m = { d2.mem with dram := m.dram, bad := m.bad } ∧
        sent { d2 with mem := m } (mkPacket d2 pk.src pkWriteAck pk.ctx pk.tag va 0 []) t ∧
        ∀ a, memByte m.dram a = if dpa ≤ a ∧ a < dpa + pk.len then nth 0#8 pk.data (a - dpa) else memByte s.dev.mem.dram a))) ∧
    (∀ k row, (k, row) ∈ [(pkRead, Instr.read pk), (pkWrite, .write pk)] → pk.kind = k →
      (smFind s.dev.ctxs pk.ctx = none → Completes row s (err 4)) ∧
      (∀ x, smFind s.dev.ctxs pk.ctx = some x →
        (¬ near → Completes row s (err 1)) ∧ (near → leafKey x va = none → Completes row s (err 1)) ∧
        (∀ q, near → leafKey x va = some q → q.2.transit = true → q.2.rx = true → Completes row s (err 3)) ∧
        (∀ q, near → leafKey x va = some q → q.2.rx = false → 0 < pk.len → pk.data.length = (if k = pkWrite then pk.len else 0) →
          Completes row s (err 1)))) ∧
    (∀ o, smFind s.dev.fabric.outst pk.tag = some o → o.dead = false → o.dst = pk.src →
      let freed (t : State) : Prop := ∀ k, smFind t.dev.fabric.outst k = if k = pk.tag then none else smFind s.dev.fabric.outst k
      let dead (t : State) : Prop := ∀ k, smFind t.dev.fabric.outst k =
        if k = pk.tag then some { o with dead := true, at_ := s.dev.now } else smFind s.dev.fabric.outst k
      (∀ id off x, o.use = .xfer id off → smFind s.dev.xfers id = some x →
        let ends (data : List Byte) (t : State) : Prop := freed t ∧
          t = { s with dev := { d1 with xfers := t.dev.xfers, fabric := { d1.fabric with outst := t.dev.fabric.outst } } } ∧
          ∀ k, smFind t.dev.xfers k = if k = id then some { x with tags := x.tags.filter (fun t => t != pk.tag), data := data }
            else smFind s.dev.xfers k
        (pk.kind = pkReadData → Completes (.readData pk) s (ends ((patchBytes x.data off pk.data).take x.len))) ∧
        (pk.kind = pkWriteAck → Completes (.writeAck pk) s (ends x.data))) ∧
      (∀ cid c, o.use = .mirror cid → smFind s.dev.cmds cid = some c →
        let fails (t : State) : Prop := dead t ∧ ∀ k, smFind t.dev.cmds k = if k = cid then some { c with hostErr := true } else smFind s.dev.cmds k
        (pk.kind = pkReadErr → Completes (.readErr pk) s (fun t => fails t ∧
          t = { s with dev := { d1 with cmds := t.dev.cmds, fabric := { d1.fabric with outst := t.dev.fabric.outst } } })) ∧
        (o.at_ + 400 * fabReqTimeout s.dev ≤ s.dev.now → Completes (.reqTimeoutExpire pk.tag) s (fun t => fails t ∧
          t = { s with dev := { s.dev with cmds := t.dev.cmds, fabric := { s.dev.fabric with outst := t.dev.fabric.outst } } }))) ∧
      (s.dev.now < o.at_ + 400 * fabReqTimeout s.dev → exec (.reqTimeoutExpire pk.tag) s = .next s)) ∧
    (pk.kind = pkMsg →
      (field pk.data 0 1 = 4 → Completes (.msg pk) s (sent d1 (mkPacket d1 pk.src pkMsg pk.ctx pk.tag 0
        (natLe 4 5 ++ registry (field pk.data 4 4) (wset d1 (field pk.data 4 4))).length
        (natLe 4 5 ++ registry (field pk.data 4 4) (wset d1 (field pk.data 4 4)))))) ∧
      (8 < field pk.data 0 1 → Completes (.msg pk) s (fun t => t = { s with dev := d1 }))) ∧
    (∀ row ∈ [Instr.read pk, .write pk, .readData pk, .writeAck pk, .readErr pk, .msg pk], 7 ≤ pk.kind → pk.kind ≠ pkMsg →
      exec row s = .next s)

/-- 10 R392, R393, R402 to R406, R411, R412: a frame that fails the filter is only counted; a packet is taken once, in PSN order; a packet missing, or not
acknowledged for RTO, is sent again, seven times at most; a pause holds its channels; the arbiter refills and starts the packet that waits, and an idle
direct port sends IDLE. The rows ETH_FRAME_RECEIVE, ETH_NAK, ETH_RTO_EXPIRE, PFC_FRAME_RECEIVE, FABRIC_ARBITER_REFILL and FABRIC_GRANT complete so. -/
def Obligations.FramesAreDeliveredOnceAndPacketsStart : Prop :=
  ∀ (s : State) (h : Fin 36),
    let p := portOf s.dev h
    let cfg := portConfig s.dev h
    let conn (t : State) (k : Nat) : EthConn := connOf t.dev k
    (∀ f : List Byte, p.state = .up → 2 ≤ cfg →
      let peer := framePeer f
      let shim := frameShim s.dev f
      let pk := packetOf (f.drop (etherOff s.dev + 10))
      let ack := bits shim 47 24
      let left := (conn s peer).unacked.filter (fun u => decide (2 ^ 23 ≤ (ack + 2 ^ 24 - u.1) % 2 ^ 24))
      let onlyConn (t : State) (c : EthConn) : Prop := conn t peer = c ∧ ∀ k, k ≠ peer → conn t k = conn s k
      (frameOk s.dev h f = false → (Completes (.ethFrameReceive h f) s (fun t => PortIs h s t p) ∧
        Completes (.ethNak h f) s (fun t => PortIs h s t p))) ∧
      (frameOk s.dev h f = true → bit shim 48 = true → Completes (.ethFrameReceive h f) s (fun t =>
        t = { s with dev := { s.dev with fabric := { s.dev.fabric with conns := t.dev.fabric.conns } } } ∧
        onlyConn t { conn s peer with unacked := left })) ∧
      (frameOk s.dev h f = true → bit shim 48 = false → pk.dst = myId s.dev → (conn s peer).rxCum < 2 ^ 24 →
        (bits shim 23 0 = (conn s peer).rxCum → Completes (.ethFrameReceive h f) s (fun t =>
          t = { s with dev := { s.dev with fabric := { s.dev.fabric with conns := t.dev.fabric.conns } } } ∧
          onlyConn t { conn s peer with unacked := left, ackDue := true })) ∧
        (bits shim 23 0 = ((conn s peer).rxCum + 1) % 2 ^ 24 → (conn s peer).rxAhead = [] → knownKind pk.kind = true → pfcOn s.dev = false →
          Completes (.ethFrameReceive h f) s (fun t =>
            t = { s with dev := { s.dev with fabric := { s.dev.fabric with
              ports := t.dev.fabric.ports, conns := t.dev.fabric.conns, rxq := s.dev.fabric.rxq ++ [((h : Nat), pk)] } } } ∧
            onlyConn t { conn s peer with unacked := left, ackDue := true, rxCum := bits shim 23 0 })))) ∧
    (∀ peer psn pk n at_, (conn s peer).unacked = [(psn, pk, n, at_)] → pk.dst = peer →
      let due : Prop := at_ + 400 * fabRto s.dev ≤ s.dev.now
      let again (t : State) : Prop := ∃ g, ethChoice s.dev = some g ∧
        t = { s with dev := { s.dev with
          fabric := { s.dev.fabric with conns := t.dev.fabric.conns }, out := t.dev.out, tally := t.dev.tally } } ∧
        t.dev.out = .frame g (frameBytes s.dev g peer 0 (conn s peer).rxCum psn pk.vc (packetBytes pk)) :: s.dev.out ∧
        conn t peer = { conn s peer with unacked := [(psn, pk, n + 1, s.dev.now)], ackDue := false }
      (s.dev.now < at_ + 400 * fabRto s.dev → exec (.ethRtoExpire peer psn) s = .next s) ∧
      (n < 7 → ethChoice s.dev ≠ none → ((due → Completes (.ethRtoExpire peer psn) s again) ∧
        ∀ f, p.state = .up → 2 ≤ cfg → frameOk s.dev h f = true → framePeer f = peer → bit (frameShim s.dev f) 49 = true →
          psn = (bits (frameShim s.dev f) 47 24 + 1) % 2 ^ 24 → Completes (.ethNak h f) s again)) ∧
      (7 ≤ n → due → s.dev.fabric.outst = [] → Completes (.ethRtoExpire peer psn) s (fun t =>
        conn t peer = { conn s peer with txPsn := 0, unacked := [] } ∧
        t = { s with dev := { s.dev with fabric := { s.dev.fabric with conns := t.dev.fabric.conns } } }))) ∧
    (∀ (prio : Fin 8) (quanta : Nat), (pfcOn s.dev = true → 2 ≤ cfg → Completes (.pfcFrameReceive h prio quanta) s (fun t =>
        PortIs h s t { p with paused := (portOf t.dev h).paused } ∧
        ∀ vc, vc < p.paused.length → nth false (portOf t.dev h).paused vc = pausedBy s h prio quanta vc)) ∧
      (pfcOn s.dev = false → exec (.pfcFrameReceive h prio quanta) s = .next s)) ∧
    (cfg ≠ 0 → Completes (.fabricArbiterRefill h) s (fun t => PortIs h s t { p with arb := (portOf t.dev h).arb } ∧
      (portOf t.dev h).arb.length = p.arb.length ∧ ∀ c, c < p.arb.length → nth 0 (portOf t.dev h).arb c =
        min (nth 0 p.arb c + fabWeight s.dev c) (4 * (fabWeight s.dev c : Int)))) ∧
    (cfg = 1 → p.state = .up → p.queued = [] → p.txBuf = [] → Completes (.fabricGrant h) s (fun t =>
      PortSends h s t 1 { p with current := none, snapshot := [] })) ∧
    (∀ c pk, p.state = .up → p.current = none → c < 5 → p.queued = [(c, pk)] → maySend s.dev h pk = true →
      let spent (q : HalfPort) : HalfPort := { q with
        queued := [], current := some c, snapshot := [], arb := setNth p.arb c (max (nth 0 p.arb c - (ceilDiv (16 + pk.len) 64 : Nat)) (-4096)) }
      (cfg = 1 → p.txBuf = [] → Completes (.fabricGrant h) s (fun t => ∃ fl, fl.length = ceilDiv (packetSize pk) 1016 ∧
        PortSends h s t (ceilDiv (packetSize pk) 1016) (spent { p with
          credits := setNth p.credits pk.vc (nth 0 p.credits pk.vc - packetCredits pk), txSeq := (p.txSeq + ceilDiv (packetSize pk) 1016) % 1024,
          retry := p.retry ++ fl, ackAt := if p.retry = [] then s.dev.now else p.ackAt, inRetry := p.inRetry ++ [((p.txSeq + ceilDiv (packetSize pk) 1016 + 1023) % 1024, pk)] }))) ∧
      (2 ≤ cfg → acksDue s.dev = [] → Completes (.fabricGrant h) s (fun t => (∀ k, portOf t.dev k = if k = (h : Nat) then spent p else portOf s.dev k) ∧
        t.dev.out = .frame h (frameBytes s.dev h pk.dst 0 (conn s pk.dst).rxCum (conn s pk.dst).txPsn pk.vc (packetBytes pk)) :: s.dev.out ∧
        conn t pk.dst = { conn s pk.dst with
          ackDue := false, txPsn := ((conn s pk.dst).txPsn + 1) % 2 ^ 24,
          unacked := (conn s pk.dst).unacked ++ [((conn s pk.dst).txPsn, pk, 0, s.dev.now)] })))

/-! ### Demotion and recall of contexts (13), tally (15) -/

/-- 13 R515, R516, R518: a resident that has been blocked longest while another waits is demoted to its pool and releases its shares; when they are
rinsed it is DEMOTED; the first waiting context is recalled into a free place and is resident when its granules are rinsed. -/
def Obligations.ContextsAreDemotedAndRecalled : Prop :=
  ∀ (s : State) (ctx : Nat) (x : Ctx), smFind s.dev.ctxs ctx = some x →
    let others (t : State) : Prop := ∀ k, k ≠ ctx → smFind t.dev.ctxs k = smFind s.dev.ctxs k
    let onlyCtx (y : Ctx) (t : State) : Prop := others t ∧ smFind t.dev.ctxs ctx = some y ∧
      t = { s with dev := { s.dev with ctxs := t.dev.ctxs } }
    (∀ p ks, partOf s.dev x.part = some p → x.state = .resident → x.destroying = false → x.moveCid = none →
      placeWanted s.dev x.part = true → placesFull s.dev x.part = true → longBlocked s.dev ctx x p = true → longest s.dev ctx x p = true →
      (∀ c ∈ s.dev.ctxs, c.2.part = x.part → c.2.state ≠ .demoting) → s.dev.xfers = [] → s.dev.mem.moves = [] → s.dev.host.bme = true →
      cupPages x = [] → ks = freePool p (ceilDiv (imageOf s.dev ctx).length 65536) → ks.length = ceilDiv (imageOf s.dev ctx).length 65536 →
      Completes (.contextDemote ctx) s (fun t => others t ∧ t.nv = s.nv ∧ t.pending = s.pending ∧
        (∃ y, smFind t.dev.ctxs ctx = some y ∧ y.state = .demoting ∧ y.image = some ks ∧ y.base = [] ∧ y.ptes = x.ptes ∧
          y.rinseWait = (granulesOfCtx s.dev x).map (fun g => 2 * g + 1)) ∧
        (∀ g ∈ granulesOfCtx s.dev x, g ∈ t.dev.mem.granRinse) ∧
        (x.base ≠ [] → ∀ k, smGet {} t.dev.eng k = if k / 128 = ctx then {} else smGet {} s.dev.eng k) ∧
        t.dev.out = (ks.zipIdx.foldl (fun d k => bulkWrite d (poolAddr p k.1) (fit 65536 ((imageOf s.dev ctx).drop (65536 * k.2)))) s.dev).out)) ∧
    (∀ p, partOf s.dev x.part = some p → x.state = .demoting → allRinsed s.dev x = true → Completes (.contextDemote ctx) s
      (onlyCtx { x with state := .demoted, rinseWait := [] })) ∧
    (∀ d1, x.state = .demoted → x.destroying = false → x.moveCid = none → firstWanting s.dev ctx x = true → placesFull s.dev x.part = false →
      s.dev.host.bme = true → settle s.dev ctx x .recalling = .ok d1 → x.image = none → x.cupBack = [] →
      Completes (.contextRecall ctx) s (fun t => t = { s with dev := d1 } ∧ (smFind t.dev.ctxs ctx).map (·.state) = some .recalling)) ∧
    (x.state = .recalling → x.cupBack = [] → s.dev.mem.granRinse = [] → x.image = none → Completes (.contextRecall ctx) s
      (onlyCtx { x with state := .resident, wantAt := none, everResident := true, blockedAt := s.dev.now })) ∧
    (∀ st row, (st, row) ∈ [(CtxState.demoted, Instr.contextDemote ctx), (.recalling, .contextDemote ctx), (.resident, .contextRecall ctx),
      (.demoting, .contextRecall ctx)] → x.state = st → exec row s = .next s)

/-- 15 R555 to R558, R561, R563 to R566: an update raises STORE_SEQ and APPLIED and sets COUNT, SUM, extremes and bin of its record; a freeze holds
the store for its window, a thaw applies what was held, in order, and the read copies header and directory or records. -/
def Obligations.TallyIsUpdatedFrozenAndRead : Prop :=
  ∀ (s : State) (cid : Nat) (c : Cmd),
    let a := s.dev.tally
    let sat (n : Nat) : Nat := min n (2 ^ 64 - 1)
    let only (t : State) : Prop := t = { s with dev := { s.dev with cmds := t.dev.cmds, tally := t.dev.tally } } ∧
      ∀ k, k ≠ cid → smFind t.dev.cmds k = smFind s.dev.cmds k
    let thawed (byHold : Bool) : Tally :=
      { (a.held.foldl applyUpd { a with frozen := false, held := [], edgeHeld := [], heldDrops := [] }) with byHold := byHold }
    (∀ u us, a.input = u :: us →
      (a.frozen = true → exec .tallyUpdate s = .next s) ∧
      (∀ q i, a.frozen = false → (∃ n m src w, u = .count q i n m src w) ∨ (∃ v tag, u = .value q i v tag) →
        Completes .tallyUpdate s (fun t => t = { s with dev := { s.dev with tally := t.dev.tally } } ∧
          t.dev.tally = { a with input := us, storeSeq := a.storeSeq + 1, applied := sat (a.applied + 1), taken := a.taken + 1,
                                   recs := t.dev.tally.recs } ∧
          (∀ k, k ≠ recKey q i → smGet {} t.dev.tally.recs k = smGet {} a.recs k) ∧
          let r := smGet {} a.recs (recKey q i)
          let r' := smGet {} t.dev.tally.recs (recKey q i)
          r'.seq = a.storeSeq + 1 ∧
          (∀ n m src w, u = .count q i n m src w → r'.count = sat (r.count + n) ∧ r'.sum = sat (r.sum + m) ∧ r'.min = r.min ∧
            r'.max = r.max ∧ r'.bins = r.bins) ∧
          (∀ v tag, u = .value q i v tag → r'.count = sat (r.count + 1) ∧ r'.sum = sat (r.sum + v) ∧
            (r'.min = if v < r.min.toNat then BitVec.ofNat 32 v else r.min) ∧ (r'.max = if r.max.toNat < v then BitVec.ofNat 32 v else r.max) ∧
            (r'.minTag = if v < r.min.toNat then tag else r.minTag) ∧ (r'.maxTag = if r.max.toNat < v then tag else r.maxTag) ∧
            ∀ b, smGet 0 r'.bins b = if kindOfQ q = 2 ∧ b = binOf (edgesOf a q) v then sat (smGet 0 r.bins b + 1) else smGet 0 r.bins b)))) ∧
    (Runs s 0x0C01 cid c → chkFreeze c = .ok () →
      (a.frozen = true → Completes (.tallyFreeze cid) s (fun t => OnlyCmd cid s t ∧ finOf t cid = some (0x0002#16, 0#16, 0#160))) ∧
      (a.frozen = false → nth 0 c.info 0 ≤ a.taken → Completes (.tallyFreeze cid) s (fun t => only t ∧
        finOf t cid = some (0#16, 0#16, resultOf [(0x0C, 4, a.storeSeq.toNat)]) ∧
        t.dev.tally = { a with
          frozen := true, held := a.input, input := [], byHold := false, window := s.dev.gov.windows,
          freezeEnd := s.dev.now + 400 * (if par c 0x10 4 = 0 then 1000000 else par c 0x10 4) }))) ∧
    (Runs s 0x0C02 cid c → zeros (slice c.hdr 0x10 48) = true →
      (a.frozen = false → Completes (.tallyThaw cid) s (fun t => OnlyCmd cid s t ∧
        finOf t cid = some (0x0002#16, (if a.byHold then 3#16 else 0#16), 0#160))) ∧
      (a.frozen = true → a.edgeHeld = [] → a.heldDrops = [] → Completes (.tallyThaw cid) s (fun t => only t ∧ t.dev.tally = thawed false ∧
        finOf t cid = some (0#16, 0#16, resultOf [(0x0C, 4, a.held.length), (0x10, 4, 0)])))) ∧
    (a.frozen = true → a.edgeHeld = [] → a.heldDrops = [] → a.freezeEnd ≤ s.dev.now → readingTally s.dev = false →
      Completes .tallyMaxHoldExpire s (fun t => t = { s with dev := { s.dev with tally := thawed true } })) ∧
    (a.frozen = false ∨ s.dev.now < a.freezeEnd ∨ readingTally s.dev = true → exec .tallyMaxHoldExpire s = .next s) ∧
    (Runs s 0x0C03 cid c → chkTallyRead s.dev c = .ok () →
      (par c 0x10 1 = 0 → Completes (.tallyRead cid) s (fun t => OnlyCmd cid s t ∧ endsOk t cid ∧
        slotOutOf t cid = some (storeHeader s.dev ++ directory))) ∧
      (par c 0x10 1 ≠ 0 → Completes (.tallyRead cid) s (fun t => only t ∧
        finOf t cid = some (0#16, 0#16, resultOf [(0x0C, 4, (selected s.dev c).length), (0x10, 4, a.storeSeq.toNat)]) ∧
        slotOutOf t cid = some ((selected s.dev c).flatMap (fun q => tallyRecord a q.1 q.2)) ∧
        (bit (par c 0x11 1) 0 = false → t.dev.tally = a) ∧
        (bit (par c 0x11 1) 0 = true → (∀ q ∈ selected s.dev c, ∃ n, smGet {} t.dev.tally.recs (recKey q.1.qid q.2) = { seq := n }) ∧
          ∀ k, (∀ q ∈ selected s.dev c, k ≠ recKey q.1.qid q.2) → smGet {} t.dev.tally.recs k = smGet {} a.recs k))))

/-! ### KV memory (08) -/

/-- 08 R316 to R325, R330, R338, R339, R342: KV.APPEND, KV.FORK, KV.FREE and the append windows make, extend, share, cut and drop sequences, wait for the
step that their sequence belongs to, and pages cool and move between tiers. -/
def Obligations.KvCommandsKeepTheSequences : Prop :=
  ∀ (s : State) (cid : Nat) (c : Cmd),
    let ctx := cmdContext c
    let d := began s cid
    let n := fkPool c
    let seqOf (t : State) (k m slot : Nat) : Option KvSeq := (poolOf t.dev k m).bind (fun p => smFind p.seq slot)
    let made (h : Nat) (t : State) (P : KvSeq → Prop) : Prop := ∃ slot q, h = handleOf slot q.gen ∧ seqOf t ctx n slot = some q ∧ q.live = true ∧ P q
    let open_ (p : KvPool) : Prop := liveSeqs s.dev < 131072 ∧ ∃ k, k < p.seqs ∧ ∀ v, smFind p.seq k = some v → v.live = false
    (∀ m slot q p, Runs s 0x0801 cid c → attached s.dev ctx (apSeq c) = false → chkKvAppend d c = .ok () →
      seqFind s.dev ctx (apSeq c) = some (m, slot, q) → poolOf s.dev ctx m = some p → smFind p.seq slot = some q →
      PoolSound p → SeqSound p q → 0 < kvH p → 0 < kvTpp p → (∀ l, nth 0 q.heads l = 0) → NoLaterCopy p q (apPos c) (apTokens c) →
      let need := appendNeeds p q (apPos c) (apTokens c)
      let per := apLayers c * kvH p * 4 * kvD p
      notLocal s.dev ctx [(par c 0x18 8, appendSrc p c, false)] = [] →
      (∀ k, k < apTokens c → ∃ src, readVirt s.dev ctx (par c 0x18 8 + k * per) per .any = .ok src) →
      need.1 + need.2 ≤ kvFreeCount p → need.1 + need.2 ≤ kvOpen p →
      Completes (.kvAppend cid) s (fun t => ∃ (f : BitVec 32) (r : KvPool) (v : KvSeq),
        finOf t cid = some (0#16, 0#16, resultOf [(0x0C, 4, need.1 + need.2), (0x10, 4, need.2), (0x14, 4, f.toNat)]) ∧
        poolOf t.dev ctx m = some r ∧ smFind r.seq slot = some v ∧ PoolSound r ∧ SeqSound r v ∧
        (∀ l, nth 0 v.len l = if apLayer0 c ≤ l ∧ l < apLayer0 c + apLayers c then nth 0 q.len l + apTokens c else nth 0 q.len l) ∧
        v.commit = (if apTent c then q.commit else max q.commit (seqLen v)) ∧ v.pages.length = q.pages.length + need.1 ∧
        (∀ k, k ≠ slot → (smFind r.seq k).map (fun u => (u.live, u.len, u.commit, u.pages)) =
          (smFind p.seq k).map (fun u => (u.live, u.len, u.commit, u.pages))) ∧
        ∀ k, k ≠ ctx → smFind t.dev.ctxs k = smFind s.dev.ctxs k)) ∧
    (∀ op row h x, (op, row, h) ∈ [(0x0801, Instr.kvAppend cid, apSeq c), (0x0802, .kvFork cid, fkSeq c), (0x0803, .kvFree cid, fkSeq c)] →
      Runs s op cid c → (op = 0x0802 → fkMode c = 1 ∨ fkMode c = 2) → (op = 0x0803 → fkMode c < 2) → attached s.dev ctx h = true →
      smFind s.dev.ctxs ctx = some x → Completes row s (fun t =>
        t = { s with dev := { s.dev with cmds := t.dev.cmds, ctxs := t.dev.ctxs } } ∧ finOf t cid = none ∧
        ∃ y, smFind t.dev.ctxs ctx = some y ∧ cid ∈ y.serve.heldCmds ∧ y.pools = x.pools)) ∧
    (∀ p, Runs s 0x0802 cid c → fkMode c = 0 → chkKvFork d c = .ok () → poolOf s.dev ctx n = some p → open_ p →
      Completes (.kvFork cid) s (fun t => ∃ h,
        t = { s with dev := { s.dev with cmds := t.dev.cmds, ctxs := t.dev.ctxs, kvGens := t.dev.kvGens } } ∧
        finOf t cid = some (0#16, 0#16, resultOf [(0x0C, 4, h)]) ∧
        made h t (fun q => q.pages = [] ∧ q.commit = 0 ∧ q.version = word c.hdr 0x1C ∧ q.publish = bit (par c 0x12 2) 0 ∧ SeqSound p q ∧
          ∀ v ∈ q.len, v = 0))) ∧
    (∀ slot q p, Runs s 0x0802 cid c → fkMode c = 1 → attached s.dev ctx (fkSeq c) = false → chkKvFork d c = .ok () →
      seqIn s.dev ctx n (fkSeq c) = some (slot, q) → poolOf s.dev ctx n = some p → open_ p →
      let keep := ceilDiv (fkLength c) (kvTpp p)
      (fkLength c % 32 = 0 → Completes (.kvFork cid) s (fun t => ∃ h, t.dev.mem = s.dev.mem ∧
        finOf t cid = some (0#16, 0#16, resultOf [(0x0C, 4, h), (0x10, 4, 0)]) ∧
        made h t (fun r => r.pages = q.pages.take keep ∧ r.commit = fkLength c ∧ r.version = q.version ∧ ∀ v ∈ r.len, v = fkLength c))) ∧
      (fkLength c % 32 ≠ 0 → PoolSound p → (∀ pg ∈ q.pages, (smFind p.page pg).isSome = true) → 1 ≤ kvFreeCount p → 1 ≤ kvOpen p →
        Completes (.kvFork cid) s (fun t => ∃ h pg, smFind p.page pg = none ∧
          finOf t cid = some (0#16, 0#16, resultOf [(0x0C, 4, h), (0x10, 4, 1)]) ∧
          made h t (fun r => r.pages = q.pages.take (keep - 1) ++ [pg] ∧ r.commit = fkLength c ∧ r.version = q.version ∧
            ∀ v ∈ r.len, v = fkLength c)))) ∧
    (∀ slot q p, Runs s 0x0802 cid c → fkMode c = 2 → attached s.dev ctx (fkSeq c) = false → chkKvFork d c = .ok () →
      seqIn s.dev ctx n (fkSeq c) = some (slot, q) → poolOf s.dev ctx n = some p → smFind p.seq slot = some q → q.len ≠ [] →
      let ids := (idsOf c.payload).take 1024
      Completes (.kvFork cid) s (fun t => ∃ m slow r, m ≤ ids.length / 32 ∧ slow ≤ m ∧ seqOf t ctx n slot = some r ∧
        finOf t cid = some (0#16, 0#16, resultOf [(0x0C, 4, fkSeq c), (0x10, 4, 32 * m), (0x14, 4, seqLen r), (0x18, 4, slow)]) ∧
        seqLen r = seqLen q + 32 * m ∧ (m = 0 → r = q) ∧ (1 ≤ m → r.commit = seqLen r) ∧
        (1 ≤ m ↔ 32 ≤ ids.length ∧ (lookNode p q.treePos (ids.take 32) q.version).1 ≠ none))) ∧
    (∀ x p, Runs s 0x0802 cid c → fkMode c = 3 → chkKvFork d c = .ok () → newPool s.dev c = some p → reserveReady s.dev c = true →
      smFind s.dev.ctxs ctx = some x → Completes (.kvFork cid) s (fun t =>
        t = { s with dev := { s.dev with cmds := t.dev.cmds, ctxs := t.dev.ctxs } } ∧
        finOf t cid = some (0#16, 0#16, resultOf [(0x0C, 8, kvEnd p - p.va)]) ∧
        ∃ y, smFind t.dev.ctxs ctx = some y ∧ y = { x with pools := y.pools, ptes := y.ptes } ∧
          (∀ k, smFind y.pools k = if k = n then some p else smFind x.pools k) ∧
          ∀ pg, smFind y.ptes pg = if p.va / 65536 ≤ pg ∧ pg < p.va / 65536 + (kvEnd p - p.va) / 65536 then
            some (poolLeaf p n c.frames (pg - p.va / 65536)).2 else smFind x.ptes pg)) ∧
    (∀ slot q p, Runs s 0x0803 cid c → attached s.dev ctx (fkSeq c) = false → chkKvFree d c = .ok () → poolOf s.dev ctx n = some p →
      seqIn s.dev ctx n (fkSeq c) = some (slot, q) → smFind p.seq slot = some q →
      (fkMode c = 0 → Completes (.kvFree cid) s (fun t => finOf t cid = some (0#16, 0#16, 0#160) ∧
        seqOf t ctx n slot = some { gen := q.gen, live := false } ∧ ∃ r, poolOf t.dev ctx n = some r ∧
        ∀ pg v, smFind p.page pg = some v → ∃ w, smFind r.page pg = some w ∧ w.count = v.count - q.pages.count pg ∧ w.pins = v.pins)) ∧
      (fkMode c = 1 → fkLength c % 32 = 0 ∨ 1 ≤ kvFreeCount p → Completes (.kvFree cid) s (fun t =>
        finOf t cid = some (0#16, 0#16, resultOf [(0x0C, 4, fkLength c)]) ∧ ∃ r, seqOf t ctx n slot = some r ∧ r.commit = fkLength c ∧
          r.pages.length = min (ceilDiv (fkLength c) (kvTpp p)) q.pages.length ∧ ∀ v ∈ r.len, v = fkLength c))) ∧
    (∀ p, Runs s 0x0803 cid c → chkKvFree d c = .ok () → poolOf s.dev ctx n = some p →
      let cut (v : KvNode) : Bool := word c.hdr 0x1C == 0xFFFFFFFF#32 || v.version == word c.hdr 0x1C
      (fkMode c = 2 → Completes (.kvFree cid) s (fun t =>
        finOf t cid = some (0#16, 0#16, resultOf [(0x0C, 4, (p.node.filter (fun v => cut v.2)).length)]) ∧
        ∃ r, poolOf t.dev ctx n = some r ∧ ∀ k v, smFind r.node k = some v → cut v = false)) ∧
      (fkMode c = 3 → poolHeld d ctx n = false → Completes (.kvFree cid) s (fun t => finOf t cid = some (0#16, 0#16, 0#160) ∧
        poolOf t.dev ctx n = none ∧ ∀ k, k ≠ n → poolOf t.dev ctx k = poolOf s.dev ctx k))) ∧
    (∀ id x k m w p slot q, smFind s.dev.xfers id = some x → x.kind = .toMem → x.dropped = 0 → smFind s.dev.ctxs x.ctx = some k →
      windowAt k x.va = some (m, w) → checkVirt s.dev x.ctx x.va x.len .engWrite = .ok () → poolOf s.dev x.ctx m = some p →
      x.data.length = 64 + 4 * kvD p → (∀ z, x.sem = some z → smGet 0 (getE s.dev x.ctx x.idx).sem z < 65535) →
      let pos := field x.data 4 4
      let l := field x.data 8 2
      let h := field x.data 0x0A 1
      let fl := field x.data 0x0B 1
      let need := appendNeeds p q pos 1
      seqIn s.dev x.ctx m (field x.data 0 4) = some (slot, q) → smFind p.seq slot = some q → l < kvL p → h < kvH p → (l * kvH p + h) % 16 = w →
      nth 0 q.len l = pos → fl ≤ 1 → zeros (slice x.data 0x0C 4) = true → zeros (slice x.data 0x18 40) = true → pos < 2 ^ 20 →
      (fl = 1 → seqLen (headDone p q pos l h) ≤ q.commit + 32) → need.1 + need.2 ≤ kvFreeCount p →
      let mask := nth 0 q.heads l ||| 2 ^ h
      let len := if mask = allHeads p then setNth q.len l (pos + 1) else q.len
      Completes (.appendWindowWrite id) s (fun t => smFind t.dev.xfers id = none ∧ t.dev.cmds = s.dev.cmds ∧
        (∀ z, x.sem = some z → smGet 0 (getE t.dev x.ctx x.idx).sem z = smGet 0 (getE s.dev x.ctx x.idx).sem z + 1) ∧
        ∃ r, seqOf t x.ctx m slot = some r ∧ r.len = len ∧ r.heads = setNth q.heads l (if mask = allHeads p then 0 else mask) ∧
          r.commit = if fl = 1 then q.commit else max q.commit (seqLen { q with len := len }))) ∧
    (∀ (k : Fin 4) p, poolOf s.dev ctx k = some p →
      (p.halved + 64 ≤ p.step → Completes (.kvHeatHalve ctx k) s (fun t => t = { s with dev := { s.dev with ctxs := t.dev.ctxs } } ∧
        ∃ r, poolOf t.dev ctx k = some r ∧ r = { p with page := r.page, halved := p.halved + 64 } ∧
          ∀ pg, smFind r.page pg = (smFind p.page pg).map (fun v => { v with heat := v.heat / 2 }))) ∧
      (p.step < p.halved + 64 → Completes (.kvHeatHalve ctx k) s (fun t => t = { s with dev := { s.dev with ctxs := t.dev.ctxs } } ∧
        poolOf t.dev ctx k = some p)) ∧
      (p.step < p.promoted + 16 → exec (.kvHotPromote ctx k) s = .next s) ∧
      (p.promoted + 16 ≤ p.step →
        (stepBusy s.dev ctx = true → Completes (.kvHotPromote ctx k) s (fun t => t = { s with dev := { s.dev with ctxs := t.dev.ctxs } } ∧
          poolOf t.dev ctx k = some { p with
            promoted := p.promoted + 16, remap := (promotions p).filter (fun r => !appendedInStep s.dev ctx k r.1) })) ∧
        (stepBusy s.dev ctx = false → Completes (.kvHotPromote ctx k) s (fun t => t.dev.cmds = s.dev.cmds ∧ t.nv = s.nv ∧
          ∃ r, poolOf t.dev ctx k = some r ∧ r = { p with page := r.page, promoted := p.promoted + 16, remap := [] } ∧
            ∀ pg, (smFind r.page pg).map (fun v => { v with tier := 0 }) = (smFind p.page pg).map (fun v => { v with tier := 0 })))))

/-! ### Serving (09) -/

/-- 09 R350 to R365, R373, R374, R383, R384: a submitted request is admitted, waits or is refused; one that is cancelled or whose latest join instant
passes ends; a query copies its record and tokens. R355 to R358, R368, R375, R380: with no step in flight the boundary is taken and the first group that
can run is launched; a member launches the step whose batch table it has received; a step is committed when its launch has ended. -/
def Obligations.RequestsAreServedInBatchSteps : Prop :=
  (∀ (s : State) (cid : Nat) (c : Cmd),
    let ctx := cmdContext c
    (∀ e slot, Runs s 0x0701 cid c → c.info = [] → cloneWaits (began s cid) c = false → chkReqSubmit (began s cid) c = .ok () →
      sEntry s.dev ctx (rqModel c) = some e → rqAddr c = 0 → (∀ t ∈ idsOf c.payload, t.toNat < seVocab e) → freeRecord s.dev = some slot →
      (getReq s.dev slot).state = .free →
      let gen := match smFind s.dev.reqs slot with | some o => nextGen slot o.gen | none => 0
      let r0 := newReq (began s cid) cid c e (idsOf c.payload) gen
      let d0 : Dev := modCmd { began s cid with freeCtr := s.dev.freeCtr + 2 ^ 20 } cid (fun c => { c with info := [slot] })
      let r : Req := { r0 with joinBy := latestJoin (modReq d0 slot (fun _ => r0)) slot r0 }
      let d := modReq (modReq d0 slot (fun _ => r0)) slot (fun _ => r)
      (∀ p o i, testReq d slot (parentOfReq d r) r = .ok p o i → Completes (.reqSubmit cid) s (fun t =>
        t = { s with dev := modCmd (noteWant (joinReq d slot p o i) ctx) cid waitState } ∧
        ∃ q, smFind t.dev.reqs slot = some q ∧ isActive q = true ∧ q = { p.req with outVa := q.outVa, rollout := q.rollout })) ∧
      (∀ fs, testReq d slot (parentOfReq d r) r = .no fs →
        (r.sflags.getLsbD 0 = true → fs.all (·.2) = true → Completes (.reqSubmit cid) s (fun t =>
          t = { s with dev := modCmd (noteWant d ctx) cid waitState } ∧ smFind t.dev.reqs slot = some r ∧ r.state = .waiting ∧ finOf t cid = none)) ∧
        (r.sflags.getLsbD 0 = false ∨ fs.all (·.2) = false → Completes (.reqSubmit cid) s (fun t => t.dev.reqs = s.dev.reqs ∧
          t.dev.mem = s.dev.mem ∧ ∃ res, finOf t cid = some (0x0020#16, BitVec.ofNat 16 (firstFail fs), res))))) ∧
    (∀ slot r, Runs s 0x0702 cid c → c.info = [] → chkReqCancel (began s cid) c = .ok () → namedReq s.dev c = some (slot, r) →
      (r.state = .done ∨ r.ended = true → Completes (.reqCancel cid) s (fun t => OnlyCmd cid s t ∧ finOf t cid = some (0x0002#16, 0#16, 0#160))) ∧
      (r.state ≠ .done → r.ended = false → inStep s.dev slot r = true → getReq s.dev slot = r → Completes (.reqCancel cid) s (fun t =>
        t = { s with dev := { s.dev with cmds := t.dev.cmds, reqs := t.dev.reqs } } ∧ finOf t cid = none ∧
        ∀ k, smFind t.dev.reqs k = if k = slot then some { r with cancel := true } else smFind s.dev.reqs k)) ∧
      (r.state ≠ .done → r.ended = false → inStep s.dev slot r = false → getReq s.dev slot = r → r.cid ≠ some cid → slot < 131072 →
        Completes (.reqCancel cid) s (fun t => finOf t cid = some (0#16, 0#16, 0#160) ∧
        (∃ q, smFind t.dev.reqs slot = some q ∧ q.stop = 3 ∧ q.outToks = r.outToks ∧ (r.cid = none → q.state = .done ∧ q.status = 0x0003#16) ∧
          (r.cid ≠ none → q.ended = true ∧ q.state = r.state ∧ q.endStatus = 0x0003#16)) ∧
        (∀ k, k ≠ slot → smFind t.dev.reqs k = smFind s.dev.reqs k) ∧
        ∀ k v, r.cid = some k → smFind s.dev.cmds k = some v → v.fin = none → (finOf t k).map (·.1) = some 0x0003#16))) ∧
    (∀ slot r, Runs s 0x0703 cid c → chkReqQuery (began s cid) c = .ok () → namedReq s.dev c = some (slot, r) →
      let l := r.outToks.drop (par c 0x1C 4)
      Completes (.reqQuery cid) s (fun t => finOf t cid = some (0#16, 0#16, resultOf [(0x0C, 4, reqStateCode r.state), (0x10, 4, r.outLen)]) ∧
        slotOutOf t cid = some (reqRecord s.dev slot r ++ l.flatMap (fun t => natLe 4 t.1.toNat) ++ l.flatMap (fun t => natLe 4 t.2.toNat)) ∧
        (bit (par c 0x15 1) 0 = false → OnlyCmd cid s t) ∧
        (bit (par c 0x15 1) 0 = true → getReq s.dev slot = r → slot < 131072 → smFind t.dev.reqs slot = some { gen := r.gen }))) ∧
    (∀ req r, getReq s.dev (req % 2 ^ 17) = r → reqHandle (req % 2 ^ 17) r = req →
      (r.state = .waiting → r.ended = false → r.joinBy < s.dev.now → Completes (.deferralExpire req) s (fun t =>
        (∃ q, smFind t.dev.reqs (req % 2 ^ 17) = some q ∧ q.stop = 4 ∧ (r.cid = none → q.state = .done ∧ q.status = 0x0020#16) ∧
          (r.cid ≠ none → q.ended = true ∧ q.endStatus = 0x0020#16)) ∧
        ∀ k v, r.cid = some k → smFind s.dev.cmds k = some v → v.fin = none → ∃ res, finOf t k = some (0x0020#16, 0x0015#16, res))) ∧
      (r.state ≠ .waiting ∨ r.ended = true ∨ s.dev.now ≤ r.joinBy → exec (.deferralExpire req) s = .next s))) ∧
  (∀ (s : State) (ctx : Nat) (x : Ctx), smFind s.dev.ctxs ctx = some x →
    (x.serve.step ≠ none → exec (.batchStepPlan ctx) s = .next s) ∧
    (∀ d1 x1 g gs e l d2 rows, x.serve.step = none → x.destroying = false → refolding s.dev ctx = false → boundary (idleEnd s.dev ctx) ctx = d1 →
      smFind d1.ctxs ctx = some x1 → groupOrder d1 ctx = g :: gs → sEntry d1 ctx g.1 = some e →
      readyReqs d1 ctx e ((activeReqs d1 ctx).filter (fun p => inGroup g p.2)) = (l, d2) → versionOk d2 ctx e g.2 = true →
      draftOf d2 ctx e = none → l.any (fun p => hasGoal d2 p.2) = true →
      rows = (l.filter (fun p => decide (p.2.state = .decode))).flatMap (fun p => decodeRows d2 p.1 p.2) →
      rows.length ≤ seRows e → (∀ p ∈ l, p.2.state = .decode) → rows ≠ [] → (copyForRows d2 ctx (sePool e) rows).1 = true →
      (∃ y, smFind d2.ctxs ctx = some y) → Completes (.batchStepPlan ctx) s (fun t =>
        t = { s with dev := (launchStep d2 ctx x1 e false g.2 rows (earliest (l.map (fun p => nextDue d2 p.2))) 1).2 } ∧
        ∃ y st, smFind t.dev.ctxs ctx = some y ∧ y.serve.step = some st ∧ st.rows = rows ∧ st.stage = .running ∧ st.version = g.2 ∧
          st.model = seId e ∧ st.num = x1.serve.nextStep ∧ st.tableVa = batchVa (servTab d2 ctx) ∧ st.waiting.length = seMembers e - 1)) ∧
    (∀ pk g rest e, FirstPacket s g pk rest → pk.kind = pkMsg → field pk.data 0 4 = 6 → pk.ctx = ctx → x.serve.step = none →
      sEntry s.dev ctx (field pk.data 12 4) = some e →
      let last := ceilDiv (field pk.data 24 4) 2048 ≤ 1
      Completes (.batchTableReceive pk) s (fun t => ∃ y st, smFind t.dev.ctxs ctx = some y ∧ y.serve.step = some st ∧
        st.num = field pk.data 4 4 ∧ st.model = field pk.data 12 4 ∧ st.version = word pk.data 8 ∧ st.remote = true ∧ st.leader = pk.src ∧
        st.tableVa = field pk.data 16 8 ∧ st.got = [field pk.data 28 4] ∧
        (¬ last → st.stage = .planned ∧ st.launch = none ∧ t.dev.launches = s.dev.launches) ∧
        (last → st.stage = .running ∧ st.launch = some s.dev.nextLaunch ∧ ∃ z, smFind t.dev.launches s.dev.nextLaunch = some z ∧
          z.ctx = ctx ∧ z.purpose = .serve (field pk.data 4 4) ∧ z.slot = seSlot e ∧ z.state = .waiting))) ∧
    (∀ st k z e, x.serve.step = some st → st.launch = some k → smFind s.dev.launches k = some z → sEntry s.dev ctx st.model = some e →
      let slots := (st.rows.map (fun b => b.req.toNat % 2 ^ 17)).eraseDups
      let n := (st.rows.filter (fun b => b.sample)).length
      let reads := stepReads s.dev ctx st e
      let ended (d : Dev) (t : State) : Prop :=
        t = { s with dev := boundary { endBatch d ctx st e reads with launches := smErase (endBatch d ctx st e reads).launches k } ctx }
      (z.state ≠ .ended → exec (.batchStepCommit ctx) s = .next s) ∧
      (st.remote = false → st.waiting ≠ [] → exec (.batchStepCommit ctx) s = .next s) ∧
      (z.state = .ended → st.remote = true → Completes (.batchStepCommit ctx) s (fun t =>
        let d := endBatch (sendMsg s.dev st.leader ctx 0 (natLe 4 7 ++ natLe 4 st.num ++ natLe 4 (b2n z.fault.isSome))) ctx st e reads
        t = { s with dev := { d with launches := smErase d.launches k } })) ∧
      (∀ bs, z.state = .ended → st.remote = false → st.waiting = [] → st.failed = false → z.fault = none →
        readVirt s.dev ctx (st.tableVa + tokenOff st.rows) (16 * n) .any = .ok bs →
        let of (k : Nat) : List (BRow × Option Sample) := (samplesOf bs st.rows 0).filter (fun b => b.1.req.toNat % 2 ^ 17 == k)
        Completes (.batchStepCommit ctx) s (ended (slots.foldl (fun d k =>
          if st.draft then commitDraft d k (of k) else commitReq e st.version d k (of k)) s.dev))) ∧
      (z.state = .ended → st.remote = false → st.waiting = [] → st.failed = true ∨ z.fault ≠ none → Completes (.batchStepCommit ctx) s (ended
        (slots.foldl (fun d k => if isActive (getReq d k) then endReq d k 0x00F0 0x0002 4 else d) s.dev))) ∧
      (∀ slot rows smp r, getReq s.dev slot = r → isActive r = true → r.cancel = false → r.draftToks = [] → rows.filterMap (·.2) = [smp] →
        isNan32 smp.2.2 = false → (∀ i, i < 8 → r.stopMask.getLsbD i = true → seStop e i ≠ smp.1) → r.outLen + 1 < r.maxNew →
        r.promptLen + r.outLen + 1 < 2 ^ 20 →
        let q := getReq (commitReq e st.version s.dev slot rows) slot
        q.outLen = r.outLen + 1 ∧ q.outToks = r.outToks ++ [(smp.1, smp.2.1)] ∧ q.lastDeliv = s.dev.now ∧ q.vLast = st.version ∧
          q.processed = r.processed + (rows.filter (fun b => b.1.kind == 1)).length ∧ q.stop = r.stop)))

/-! ### Learning steps and weight versions (12) -/

/-- 12 R462, R464, R467 to R474, R477 to R482, R491 to R494: a token is kept until a step takes it; a step runs with its version pinned and ends with
its report; versions are staged, sealed, aborted and queried; a switch waits for a boundary, where the version becomes live. -/
def Obligations.StepsAndWeightVersionsMove : Prop :=
  ∀ (s : State) (cid : Nat) (c : Cmd),
    let ctx := cmdContext c
    let w := wgSet c
    let v := wset s.dev w
    let slotsAre (t : State) (f : Nat → WSlot) : Prop := (wset t.dev w).slots.length = v.slots.length ∧
      ∀ k, k < v.slots.length → wslot (wset t.dev w) k = f k
    let onlyW (t : State) : Prop := t = { s with dev := { s.dev with cmds := t.dev.cmds, weights := { s.dev.weights with sets := t.dev.weights.sets } } } ∧
      ∀ k, k ≠ w → wset t.dev k = wset s.dev k
    (∀ cx (tk : BitVec 32) x, smFind s.dev.ctxs cx = some x → (tokenCount s.dev cx tk ≠ 0 ∨ s.dev.weights.tokens = []) →
      Completes (.stepTokenArrive cx tk) s (fun t =>
        t = { s with dev := { s.dev with weights := { s.dev.weights with tokens := t.dev.weights.tokens } } } ∧
        ∀ k, smGet 0 t.dev.weights.tokens k = smGet 0 s.dev.weights.tokens k + if k = 2 ^ 32 * cx + tk.toNat then 1 else 0)) ∧
    (Runs s 0x0601 cid c → Completes (.stepRun cid) s (fun t => t = { s with dev := modCmd (noteWant (began s cid) ctx) cid waitState })) ∧
    (∀ cx t0 c0, nextStep s.dev cx = some (t0, c0) → Completes (.stepLaunch cx) s (fun t =>
      (∃ z, smFind t.dev.launches s.dev.nextLaunch = some z ∧ z.ctx = cx ∧ z.purpose = .train t0.cid ∧ z.slot = srSlot c0 ∧ z.state = .waiting ∧
        z.args = (span 0 8).map (fun k => word c0.payload (4 * k)) ++ [t0.version, (wset s.dev t0.wset).scale, BitVec.ofNat 32 (srId c0)]) ∧
      smFind t.dev.weights.steps t0.cid = some { t0 with launch := some s.dev.nextLaunch } ∧
      (∀ k, k ≠ t0.cid → smFind t.dev.weights.steps k = smFind s.dev.weights.steps k) ∧
      (srWait0 c0 ≠ 0#32 → srWait1 c0 = 0#32 → tokenCount t.dev cx (srWait0 c0) = tokenCount s.dev cx (srWait0 c0) - 1))) ∧
    (∀ t0 k z, smFind s.dev.weights.steps cid = some t0 → t0.cid = cid → smFind s.dev.cmds cid = some c → c.fin = none → t0.launch = some k →
      smFind s.dev.launches k = some z →
      let isOver (t : State) : Prop := smFind t.dev.weights.steps cid = some { t0 with complete := true, notes := srNotes c }
      (z.state ≠ .ended ∨ t0.complete = true → exec (.stepEnd cid) s = .next s) ∧
      (∀ f, z.state = .ended → t0.complete = false → z.fault = some f → Completes (.stepEnd cid) s (fun t => isOver t ∧
        finOf t cid = some (0x0030#16, BitVec.ofNat 16 (faultDetail f.code), resultOf (faultResult f)))) ∧
      (∀ r, z.state = .ended → t0.complete = false → z.fault = none → notLocal s.dev t0.ctx [(srReport c, 16, false)] = [] → t0.ctx = ctx →
        readVirt s.dev ctx (srReport c) 16 .any = .ok r → srHealth c = false → srLoss c = false →
        Completes (.stepEnd cid) s (fun t => isOver t ∧
          finOf t cid = some (0#16, 0#16, resultOf [(0x0C, 4, t0.version.toNat), (0x10, 4, sat32 z.most), (0x14, 4, 0),
            (0x18, 4, (word r 0).toNat), (0x1C, 4, field r 4 4)]) ∧
          (srIter c = true → (smGet {} (wset s.dev t0.wset).iter (srId c)).cid = some cid →
            (smGet {} (wset t.dev t0.wset).iter (srId c)).state = 3)))) ∧
    (∀ t0 ids, Runs s 0x0602 cid c → chkStepDiscard (began s cid) c = .ok () → discardSet (began s cid) c = ([t0], ids) → t0.cid ≠ cid →
      t0.launch = none → (∀ k, smFind s.dev.cmds t0.cid = some k → k.fin = none) → Completes (.stepDiscard cid) s (fun t => endsOk t cid ∧
        (∀ k, smFind s.dev.cmds t0.cid = some k → smFind t.dev.weights.steps t0.cid = none ∧ (finOf t t0.cid).map (·.1) = some 0x0003#16) ∧
        ∀ i ∈ ids, (smGet {} (wset t.dev (par c 0x10 1)).iter i).state = 7)) ∧
    (∀ we slot, wOfCmd s.dev c w = some we →
      (Runs s 0x0901 cid c → wgMode c = 0 → chkStage (began s cid) c = .ok () → v.slots.findIdx? (fun k => decide (k.state = .free)) = some slot →
        Completes (.weightsStage cid) s (fun t => onlyW t ∧ finOf t cid = some (0#16, 0#16, resultOf [(0x0C, 4, slot)]) ∧
          slotsAre t (fun k => if k = slot then { state := .staging, version := wgVersion c } else wslot v k))) ∧
      (Runs s 0x0901 cid c → wgMode c = 2 → chkStage (began s cid) c = .ok () → verSlot v (wgVersion c) = some slot →
        updating (began s cid) w (wgVersion c) cid = false → (wslot v slot).coll = 0 → v.rejoin = false →
        Completes (.weightsStage cid) s (fun t => onlyW t ∧ endsOk t cid ∧
          slotsAre t (fun k => if k = slot then { wslot v k with state := .ready } else wslot v k))) ∧
      (Runs s 0x0903 cid c → wgMode c = 0 → c.info = [] → committing (began s cid) w (wgVersion c) = false → chkAbort (began s cid) c = .ok () →
        verSlot v (wgVersion c) = some slot → (wslot v slot).coll = 0 → Completes (.weightsAbort cid) s (fun t => onlyW t ∧ endsOk t cid ∧
          slotsAre t (fun k => if k = slot then {} else wslot v k))) ∧
      (Runs s 0x0903 cid c → wgMode c = 1 → c.info = [] → chkAbort (began s cid) c = .ok () → verSlot v (wgVersion c) = some slot →
        pinsOf (wslot v slot) = 0 → stepBusy s.dev ctx = false → Completes (.weightsAbort cid) s (fun t => onlyW t ∧ endsOk t cid ∧
          slotsAre t (fun k => if k = slot ∨ ((wslot v k).released = true ∧ pinsOf (wslot v k) = 0) then {} else wslot v k))) ∧
      (Runs s 0x0904 cid c → (∀ p ∈ v.pending, p.2.2 ≠ some cid) → chkSwitch (began s cid) c = .ok () → verSlot v (wgVersion c) = some slot →
        Completes (.weightsSwitch cid) s (fun t => onlyW t ∧ finOf t cid = none ∧
          wset t.dev w = { v with pending := v.pending ++ [(wgVersion c, bit (par c 0x11 1) 1, some cid)] })) ∧
      (Runs s 0x0905 cid c → c.info = [] → chkQuery (began s cid) c = .ok () →
        (wgMode c = 0 → Completes (.weightsQuery cid) s (fun t => OnlyCmd cid s t ∧ endsOk t cid ∧ slotOutOf t cid = some (registry w v))) ∧
        (wgMode c ≠ 0 → nodePeers s.dev ≠ [] → Completes (.weightsQuery cid) s (fun t => finOf t cid = none ∧
          t.dev.weights = { s.dev.weights with queries := s.dev.weights.queries ++
            [{ cid := cid, answers := [], waiting := nodePeers s.dev, at_ := s.dev.now }] })))) ∧
    (∀ ver slot o, v.pending = [(ver, true, none)] → verSlot v ver = some slot → (wslot v slot).state = .committed ∨ (wslot v slot).state = .held →
      liveSlot v = some o → o ≠ slot →
      let u := wset (applySwitch s.dev w) w
      u.pending = [] ∧ wslot u slot = { wslot v slot with state := .live } ∧ wslot u o = { wslot v o with state := .held } ∧
        ∀ k, k ≠ slot → k ≠ o → wslot u k = wslot v k) ∧
    (∀ q, s.dev.weights.queries = [q] → q.cid = cid → smFind s.dev.cmds cid = some c → c.fin = none → wgMode c = 1 →
      (s.dev.now < q.at_ + 400000 → exec (.peersQueryTimeout cid) s = .next s) ∧
      (q.at_ + 400000 ≤ s.dev.now → Completes (.peersQueryTimeout cid) s (fun t => endsOk t cid ∧ t.dev.weights.queries = [] ∧
        slotOutOf t cid = some ((nodePeers s.dev).flatMap (fun p => match smFind q.answers p with | some r => natLe 2 p ++ r | none => [])))))

/-! ### Collectives (11), the commit of a version (12) -/

/-- 11 R426 to R432, R435, R436, R442, R443, R447, R452, R454 to R457; 12 R485, R487 to R489: a collective's member sends its START, member 0 decides,
the decision ends it or begins its data phase, each packet of the data phase does its part, timers send again, ask again or end it, and once the final
record of a CHECK has been placed its group is checked. -/
def Obligations.CollectivesStartDecideAndExchange : Prop :=
  ∀ (s : State) (n : Nat) (k : Coll), getColl s.dev n = some k →
    let started (d : Dev) (t : State) : Prop := t = { s with dev := d } ∧
      ∃ j, getColl t.dev n = some j ∧ j = { k with phase := .start, sentAt := s.dev.now, startAt := j.startAt, vote := j.vote }
    -- its effect is complete on this member: its final record is to be placed
    let isOver (t : State) : Prop := ∃ j, getColl t.dev n = some j ∧ j = { k with phase := .complete, met := j.met }
    (∀ cid c op row, (op, row) ∈ [(0x0A01, Instr.refoldRun cid), (0x0B01, .collRun cid), (0x0902, .weightsCommit cid)] → Runs s op cid c →
      collOfCmd s.dev cid = some (n, k) → k.phase = .waiting →
      let d := began s cid
      let begun := started (modCmd (sendStart d n) cid waitState)
      (k.op ≠ opCommit → notLocal d (cmdContext c) (rangesOf d k) = [] →
        (isReduce k.op = true → ∃ y, smFind d.ctxs k.ctx = some y ∧ bufsOnDies d (groupDevs d k.group) k.member c k.desc y = true) →
        (k.op = opRefold → pagesPinned d n k = false ∧ slotPinned d k.ctx (rangesOf d k) = false) → Completes row s begun) ∧
      (k.op = opCommit → voteOf (wset s.dev (cWset k)) (cVer k) = 0 ∨ k.startAt + 400 * par c 0x1C 4 ≤ s.dev.now → Completes row s begun) ∧
      (k.op = opCommit → voteOf (wset s.dev (cWset k)) (cVer k) ≠ 0 → s.dev.now < k.startAt + 400 * par c 0x1C 4 →
        Completes row s (fun t => t = { s with dev := modCmd d cid waitState }))) ∧
    (∀ cid c, k.cid = some cid → smFind s.dev.cmds cid = some c → c.phase = .running → k.op = opCommit → k.phase = .waiting →
      k.startAt + 400 * field k.hdr 0x1C 4 ≤ s.dev.now → Completes (.commitWaitExpire n) s (started (sendStart s.dev n))) ∧
    (k.phase = .start → k.sentAt + 400 * fabRto s.dev ≤ s.dev.now → Completes (.collStartResend n) s (started (sendStart s.dev n))) ∧
    (∀ e, groupEntry s.dev k.group = some e → k.member = 0 → k.phase = .start → k.startAt + 400 * gStartTimeout e ≤ s.dev.now →
      let x := decideOn k (groupDevs s.dev k.group).length true
      Completes (.collStartTimeout n) s (fun t => t = { s with dev := spreadDecision s.dev n (decisionBytes (decisionAux k x) x) } ∧
        ∀ i, (span 0 (groupDevs s.dev k.group).length).find? (fun i => (smFind k.starts i).isNone) = some i →
          x.status = 0x00F0 ∧ x.detail = 3 ∧ x.member = i)) ∧
    (∀ g pk rest, FirstPacket s g pk rest → pk.kind = pkColl → 64 ≤ pk.data.length → findColl s.dev (cpGroup pk) (cpId pk) = some (n, k) →
      let d1 := noteThrottled (tookPacket s g pk rest) pk
      let devs := groupDevs s.dev k.group
      let put := (startRecords pk).foldl (fun m r => smPut m (srMember r) r) k.starts
      (∀ cid c, cpFlag pk 2 = true → k.cid = some cid → smFind s.dev.cmds cid = some c → smFind d1.cmds cid = some { c with throttled := true }) ∧
      (ckOf pk = 0 → k.phase = .start → k.member = 0 →
        let d2 := modColl d1 n (fun k => { k with starts := put })
        let j : Coll := { k with starts := put }
        let x := decideOn j devs.length false
        ((∃ i, i < devs.length ∧ smFind put i = none) → Completes (.collStart pk) s (fun t => t = { s with dev := d2 })) ∧
        ((∀ i, i < devs.length → (smFind put i).isSome = true) → Completes (.collStart pk) s (fun t =>
          t = { s with dev := spreadDecision d2 n (decisionBytes (decisionAux j x) x) }))) ∧
      (∀ cid c, ckOf pk = 1 → k.phase = .start → k.cid = some cid → smFind s.dev.cmds cid = some c → c.fin = none →
        (k.op ≠ opCommit → cpAux pk % 65536 ≠ 0 → Completes (.decide pk) s (fun t => isOver t ∧
          ∃ res, finOf t cid = some (BitVec.ofNat 16 (cpAux pk % 65536), BitVec.ofNat 16 (field (cpData pk) 0 4), res))) ∧
        (k.op ≤ 2 → cpAux pk % 65536 = 0 → Completes (.decide pk) s (fun t => isOver t ∧ endsOk t cid)) ∧
        (2 < k.op → k.op ≠ opCommit → cpAux pk % 65536 = 0 → Completes (.decide pk) s (fun t =>
          ∃ d, t = { s with dev := pump d n } ∧ getColl d n = some { k with phase := .go })) ∧
        (∀ e slot, k.op = opCommit → bit (cpAux pk) 31 = true → wEntry s.dev (cWset k) = some e →
          verSlot (wset s.dev (cWset k)) (cVer k) = some slot → (wslot (wset s.dev (cWset k)) slot).state = .ready → Completes (.decide pk) s (fun t =>
            isOver t ∧ endsOk t cid ∧ (wslot (wset t.dev (cWset k)) slot).state = .committed ∧
            (wset t.dev (cWset k)).committed = cVer k ∧ (wset t.dev (cWset k)).iter = [] ∧
            (wset t.dev (cWset k)).mpar = 1 - (wset s.dev (cWset k)).mpar))) ∧
      (∀ cid c, ckOf pk = 8 → k.phase ≠ .complete → k.cid = some cid → smFind s.dev.cmds cid = some c → c.fin = none → Completes (.abort pk) s (fun t =>
        isOver t ∧ finOf t cid = some (BitVec.ofNat 16 (cpAux pk % 65536), BitVec.ofNat 16 (field (cpData pk) 0 4),
          resultOf [(0x0C, 4, cpAux pk / 65536), (0x10, 4, nth 0 devs (cpAux pk / 65536))]))) ∧
      (∀ kind row cid c, (kind, row) ∈ [(2, Instr.collData pk), (3, .fetch pk), (4, .ack pk), (5, .resend pk), (6, .busy pk), (7, .ready pk),
        (9, .count pk), (10, .nack pk)] → ckOf pk = kind → k.phase ≠ .complete → k.cid = some cid → smFind s.dev.cmds cid = some c →
        let d2 := modColl d1 n (fun k => { k with heard := smPut k.heard (cpSrc pk) s.dev.now })
        let j : Coll := { k with heard := smPut k.heard (cpSrc pk) s.dev.now }
        let after := (getColl (dataPacket n d2 pk) n).getD j
        (slice pk.data 8 8 ≠ k.digest.take 8 → c.fin = none → Completes row s (fun t => isOver t ∧
          finOf t cid = some (0x0040#16, 0x0001#16, resultOf [(0x0C, 4, cpSrc pk), (0x10, 4, nth 0 devs (cpSrc pk))]))) ∧
        (slice pk.data 8 8 = k.digest.take 8 →
          (k.phase = .start → Completes row s (fun t => ∃ d, t = { s with dev := pump d n } ∧
            getColl d n = some { j with held := k.held ++ [pk], phase := .go })) ∧
          (k.phase = .data → Completes row s (fun t => t = { s with dev := pump (dataPacket n d2 pk) n })) ∧
          (∀ key x, kind = 4 → sendKey k pk = some key → smFind k.send key = some x →
            smFind after.send key = some { x with done := true, lost := false }) ∧
          (∀ key x, kind = 6 → sendKey k pk = some key → smFind k.send key = some x →
            smFind after.send key = some { x with busy := some s.dev.now }) ∧
          (kind = 7 → after.ready = k.ready ++ [(cpSrc pk, cpAux pk)]) ∧
          (kind = 9 → k.op = opAllToAll → isReverse k = false → cpHi pk ≠ 0 → smFind after.took (cpSrc pk) = some (cpLo pk)) ∧
          (∀ key x, kind = 10 → k.recv.find? (fun q => q.2.idx == cpShard pk && q.2.peer == cpSrc pk && q.2.hi == 0 && q.2.asked) = some (key, x) →
            smFind k.recv key = some x → settled x = false → cpAux pk ≠ 1 → x.repl = false → x.attempts < 3 →
            smFind after.recv key = some { x with total := x.total + 1, attempts := x.attempts + 1, landed := [], crc := none, at_ := s.dev.now }) ∧
          (∀ key x, kind = 2 → recvKey k pk = some key → smFind k.recv key = some x → isReduce k.op = false → settled x = false →
            cpFlag pk 0 = true → cpOff pk = 0 → (cpData pk).length = x.bytes → 0 < x.bytes → x.bytes ≤ 4032 → x.landed = [] →
            peek (poke d2 k.ctx x.va (cpData pk)) k.ctx x.va x.bytes = cpData pk → crc32c (cpData pk) = cpCrc pk →
            smFind after.recv key = some { x with landed := [0], crc := some (cpCrc pk), at_ := s.dev.now, done := true, total := x.total + 1 }) ∧
          (kind = 3 → lookShard d2 j pk = .never → dataPacket n d2 pk = sendColl d2 j (cpSrc pk) (CHead.mk 10 (cpShard pk) 0 (cpLo pk) 0 0
            (b2n (cpFlag pk 1) * 2) 2 0 none) 0 []) ∧
          (kind = 5 → ∀ key, sendKey k pk = some key → dataPacket n d2 pk = sendAgain d2 n key true)))) ∧
    (∀ key x t0 bs, k.phase = .data → smFind k.send key = some x → x.busy = some t0 → t0 + 400 * fabRto s.dev ≤ s.dev.now → settled x = false → k.op ≠ opAllToAll →
      readVirt s.dev k.ctx x.va x.bytes .any = .ok bs → Completes (.busyRetryExpire n key) s (fun t => ∃ j, getColl t.dev n = some j ∧
        smFind j.send key = some { x with asked := true, busy := none, at_ := s.dev.now })) ∧
    (∀ e key x, groupEntry s.dev k.group = some e → k.phase = .data → settled x = false → x.asked = true → x.at_ + 400 * gDarnWait e ≤ s.dev.now →
      (smFind k.send key = some x → x.busy = none → Completes (.darnWaitExpire n (2 * key + 1)) s (fun t =>
        t = { s with dev := pump (darnSend s.dev n key k x) n })) ∧
      (smFind k.recv key = some x → pulled k x = true → x.copy = false → x.repl = false → x.attempts < 3 → Completes (.darnWaitExpire n (2 * key)) s (fun t =>
        t = { s with dev := pump (missingCount (failAttempt s.dev n key 1) n key) n } ∧
        ((getColl (failAttempt s.dev n key 1) n).bind (fun j => smFind j.recv key)).map (·.attempts) = some (x.attempts + 1)))) ∧
    (∀ e cid c, groupEntry s.dev k.group = some e → k.startAt + 400 * gStartTimeout e ≤ s.dev.now → k.op = opCommit → k.phase = .start →
      k.vote = some 0 → k.cid = some cid → smFind s.dev.cmds cid = some c → c.fin = none →
      (k.asks = none → Completes (.commitDecideTimeout n) s (fun t => ∃ j l, getColl t.dev n = some j ∧ j.asks = some (s.dev.now, l) ∧
        ∀ v ∈ l, v ≠ myId s.dev ∧ v ∈ groupDevs s.dev k.group ++ [0])) ∧
      (∀ t0 l, k.asks = some (t0, l) → (l = [] ∨ t0 + 400000 ≤ s.dev.now) → Completes (.commitDecideTimeout n) s (fun t =>
        isOver t ∧ finOf t cid = some (0x00F0#16, 0x0004#16, 0#160) ∧ ∀ slot, verSlot (wset s.dev (cWset k)) (cVer k) = some slot →
          (wslot (wset s.dev (cWset k)) slot).state = .ready → (wslot (wset t.dev (cWset k)) slot).state = .doubt))) ∧
    (k.phase = .complete → k.op = 1 → k.status = 0#16 → k.pins = [] → k.wpins = [] →
      getColl (settleColl s.dev n k) n = none ∧ k.group ∈ (settleColl s.dev n k).colls.checked)
end

