-- ==== Sys2Proof/Laws/Maps.lean ====
section
/-! SUPPORT. Finite maps and memories: reading after writing, and the canonical form. -/

namespace Sys2Proof.Machine

/-! ### Reading after writing: these hold of every list, sorted or not -/

@[simp] theorem smFind_nil {α : Type} (k : Nat) : smFind ([] : SMap α) k = none := rfl

@[simp] theorem smFind_smPut_same {α : Type} (m : SMap α) (k : Nat) (v : α) : smFind (smPut m k v) k = some v := by
  induction m with
  | nil => simp [smPut, smFind]
  | cons p m ih =>
    obtain ⟨k', v'⟩ := p
    simp only [smPut]
    split
    · simp [smFind]
    · split
      · simp [smFind]
      · simp_all [smFind]

theorem smFind_smPut_ne {α : Type} (m : SMap α) {j k : Nat} (v : α) (h : j ≠ k) : smFind (smPut m k v) j = smFind m j := by
  induction m with
  | nil => simp [smPut, smFind, h]
  | cons p m ih =>
    obtain ⟨k', v'⟩ := p
    simp only [smPut]
    split
    · simp [smFind, h]
    · split
      · subst_vars
        simp [smFind, h]
      · simp only [smFind, ih]

theorem smFind_filter {α : Type} (m : SMap α) (p : Nat → Bool) (j : Nat) :
    smFind (m.filter (fun q => p q.1)) j = if p j then smFind m j else none := by
  induction m with
  | nil => simp [smFind]
  | cons q m ih =>
    obtain ⟨k', v'⟩ := q
    by_cases hp : p k' = true
    · simp only [List.filter_cons, hp, if_true, smFind, ih]
      by_cases hj : j = k'
      · simp [hj, hp]
      · simp [hj]
    · by_cases hj : j = k'
      · subst hj; simp [hp, ih]
      · simp [hp, smFind, ih, hj]

@[simp] theorem smFind_smErase_same {α : Type} (m : SMap α) (k : Nat) : smFind (smErase m k) k = none := by
  rw [smErase, smFind_filter m (fun j => j != k)]
  simp

theorem smFind_smErase_ne {α : Type} (m : SMap α) {j k : Nat} (h : j ≠ k) : smFind (smErase m k) j = smFind m j := by
  rw [smErase, smFind_filter m (fun j => j != k)]
  simp [h]

@[simp] theorem smGet_smSet_same {α : Type} [DecidableEq α] (d : α) (m : SMap α) (k : Nat) (v : α) :
    smGet d (smSet d m k v) k = v := by
  unfold smSet
  split
  · next h => simp [smGet, h]
  · simp [smGet]

theorem smGet_smSet_ne {α : Type} [DecidableEq α] (d : α) (m : SMap α) {j k : Nat} (v : α) (h : j ≠ k) :
    smGet d (smSet d m k v) j = smGet d m j := by
  unfold smSet
  split
  · simp [smGet, smFind_smErase_ne m h]
  · simp [smGet, smFind_smPut_ne m v h]

@[simp] theorem smGet_smPut_same {α : Type} (d : α) (m : SMap α) (k : Nat) (v : α) : smGet d (smPut m k v) k = v := by simp [smGet]

theorem smGet_smPut_ne {α : Type} (d : α) (m : SMap α) {j k : Nat} (v : α) (h : j ≠ k) : smGet d (smPut m k v) j = smGet d m j := by
  simp [smGet, smFind_smPut_ne m v h]

theorem smFind_smUpd_same {α : Type} (m : SMap α) (k : Nat) (f : α → α) : smFind (smUpd m k f) k = (smFind m k).map f := by
  unfold smUpd
  cases h : smFind m k <;> simp [h]

theorem smFind_smUpd_ne {α : Type} (m : SMap α) {j k : Nat} (f : α → α) (h : j ≠ k) : smFind (smUpd m k f) j = smFind m j := by
  unfold smUpd
  cases smFind m k with
  | none => rfl
  | some v => exact smFind_smPut_ne m _ h

/-! ### The order of keys -/

theorem smSorted_iff {α : Type} (m : SMap α) : smSorted m = true ↔ m.Pairwise (fun a b => a.1 < b.1) := by
  induction m with
  | nil => simp [smSorted]
  | cons a m ih =>
    cases m with
    | nil => simp [smSorted]
    | cons b m =>
      simp only [smSorted, Bool.and_eq_true, decide_eq_true_eq, ih]
      constructor
      · rintro ⟨h, hp⟩
        refine List.Pairwise.cons ?_ hp
        intro c hc
        rcases List.mem_cons.mp hc with rfl | hc
        · exact h
        · exact h.trans ((List.pairwise_cons.mp hp).1 c hc)
      · intro hp
        exact ⟨(List.pairwise_cons.mp hp).1 b (List.mem_cons_self ..), (List.pairwise_cons.mp hp).2⟩

theorem mem_smPut {α : Type} {m : SMap α} {k : Nat} {v : α} {p : Nat × α} (h : p ∈ smPut m k v) : p = (k, v) ∨ p ∈ m := by
  induction m with
  | nil => simp_all [smPut]
  | cons q m ih =>
    obtain ⟨k', v'⟩ := q
    simp only [smPut] at h
    split at h
    · rcases List.mem_cons.mp h with rfl | h
      · exact .inl rfl
      · exact .inr h
    · split at h
      · rcases List.mem_cons.mp h with rfl | h
        · exact .inl rfl
        · exact .inr (List.mem_cons_of_mem _ h)
      · rcases List.mem_cons.mp h with rfl | h
        · exact .inr (List.mem_cons_self ..)
        · rcases ih h with h | h
          · exact .inl h
          · exact .inr (List.mem_cons_of_mem _ h)

theorem mem_smErase {α : Type} {m : SMap α} {k : Nat} {p : Nat × α} (h : p ∈ smErase m k) : p ∈ m := List.mem_of_mem_filter h

theorem smSorted_smPut {α : Type} {m : SMap α} (hs : smSorted m = true) (k : Nat) (v : α) : smSorted (smPut m k v) = true := by
  rw [smSorted_iff] at *
  induction m with
  | nil => simp [smPut]
  | cons q m ih =>
    obtain ⟨k', v'⟩ := q
    obtain ⟨hq, hm⟩ := List.pairwise_cons.mp hs
    simp only [smPut]
    split
    · next h =>
      refine List.Pairwise.cons ?_ hs
      intro p hp
      rcases List.mem_cons.mp hp with rfl | hp
      · exact h
      · exact h.trans (hq p hp)
    · split
      · next h => subst h; exact List.Pairwise.cons hq hm
      · refine List.Pairwise.cons ?_ (ih hm)
        intro p hp
        rcases mem_smPut hp with rfl | hp
        · simp only; omega
        · exact hq p hp

theorem smSorted_filter {α : Type} {m : SMap α} (hs : smSorted m = true) (f : Nat × α → Bool) : smSorted (m.filter f) = true := by
  rw [smSorted_iff] at *
  exact hs.filter f

theorem smSorted_smErase {α : Type} {m : SMap α} (hs : smSorted m = true) (k : Nat) : smSorted (smErase m k) = true :=
  smSorted_filter hs _

/-- An entry of a map whose keys rise is what its key finds. -/
theorem smFind_eq_of_mem {α : Type} {m : SMap α} (hs : smSorted m = true) {p : Nat × α} (hp : p ∈ m) : smFind m p.1 = some p.2 := by
  induction m with
  | nil => simp at hp
  | cons q m ih =>
    obtain ⟨hq, hm⟩ := List.pairwise_cons.mp ((smSorted_iff _).mp hs)
    rcases List.mem_cons.mp hp with rfl | hp
    · simp [smFind]
    · have := hq p hp
      simp [smFind, show p.1 ≠ q.1 by omega, ih ((smSorted_iff _).mpr hm) hp]

/-! ### Memories -/

@[simp] theorem memByte_memSet_same (m : Mem) (a : Nat) (b : Byte) : memByte (memSet m a b) a = b := smGet_smSet_same _ _ _ _

theorem memByte_memSet_ne (m : Mem) {a k : Nat} (b : Byte) (hk : k ≠ a) : memByte (memSet m a b) k = memByte m k :=
  smGet_smSet_ne _ _ _ hk

/-- A write leaves every byte outside it as it was. -/
theorem memByte_memWrite_out (m : Mem) (a k : Nat) (bs : List Byte) (hk : k < a ∨ a + bs.length ≤ k) :
    memByte (memWrite m a bs) k = memByte m k := by
  induction bs generalizing m a with
  | nil => rfl
  | cons b bs ih =>
    simp only [List.length_cons] at hk
    rw [memWrite, ih (memSet m a b) (a + 1) (by omega), memByte_memSet_ne m b (by omega)]

/-- A byte that has just been written reads as written. -/
theorem memByte_memWrite_in (m : Mem) (a k : Nat) (bs : List Byte) (hk : k < bs.length) :
    memByte (memWrite m a bs) (a + k) = bs[k] := by
  induction bs generalizing m a k with
  | nil => simp at hk
  | cons b bs ih =>
    cases k with
    | zero => rw [memWrite, memByte_memWrite_out _ _ _ _ (by omega)]; exact memByte_memSet_same m a b
    | succ k =>
      rw [memWrite, show a + (k + 1) = a + 1 + k by omega, ih _ _ k (by simpa using hk)]
      rfl

/-- A read of what has just been written returns it. -/
theorem memRead_memWrite (m : Mem) (a : Nat) (bs : List Byte) : memRead (memWrite m a bs) a bs.length = bs := by
  induction bs generalizing m a with
  | nil => rfl
  | cons b bs ih =>
    simp only [List.length_cons, memRead, memWrite]
    rw [memByte_memWrite_out _ (a + 1) a bs (by omega), memByte_memSet_same, ih (memSet m a b) (a + 1)]

@[simp] theorem memRead_length (m : Mem) (a n : Nat) : (memRead m a n).length = n := by
  induction n generalizing a with
  | zero => rfl
  | succ n ih => simp [memRead, ih]

/-- Clearing: zero inside the range, unchanged outside. -/
theorem memByte_memClear (m : Mem) (a n k : Nat) :
    memByte (memClear m a n) k = if k < a ∨ a + n ≤ k then memByte m k else 0#8 := by
  unfold memByte smGet memClear
  rw [smFind_filter m (fun j => decide (j < a) || decide (a + n ≤ j))]
  by_cases h : k < a ∨ a + n ≤ k
  · simp [h]
  · simp [h]

theorem Memory.wf_iff (m : Mem) : Memory.wf m = true ↔ smSorted m = true ∧ ∀ p ∈ m, p.2 ≠ 0#8 := by
  simp [Memory.wf, smCanon, List.all_eq_true]

@[simp] theorem Memory.wf_nil : Memory.wf [] = true := rfl

/-- Writing a byte keeps the canonical form. -/
theorem Memory.wf_memSet {m : Mem} (h : Memory.wf m = true) (a : Nat) (b : Byte) : Memory.wf (memSet m a b) = true := by
  rw [Memory.wf_iff] at *
  unfold memSet smSet
  split
  · exact ⟨smSorted_smErase h.1 a, fun p hp => h.2 p (mem_smErase hp)⟩
  · next hb =>
    refine ⟨smSorted_smPut h.1 a b, fun p hp => ?_⟩
    rcases mem_smPut hp with rfl | hp
    · exact hb
    · exact h.2 p hp

/-- Writing a byte string keeps the canonical form. -/
theorem Memory.wf_memWrite {m : Mem} (h : Memory.wf m = true) (a : Nat) (bs : List Byte) : Memory.wf (memWrite m a bs) = true := by
  induction bs generalizing m a with
  | nil => exact h
  | cons b bs ih => exact ih (Memory.wf_memSet h a b) (a + 1)

/-- Clearing a range keeps the canonical form. -/
theorem Memory.wf_memClear {m : Mem} (h : Memory.wf m = true) (a n : Nat) : Memory.wf (memClear m a n) = true := by
  rw [Memory.wf_iff] at *
  exact ⟨smSorted_filter h.1 _, fun p hp => h.2 p (List.mem_of_mem_filter hp)⟩

end Sys2Proof.Machine
end

