-- ==== Sys2Proof/Laws/State.lean ====
section
/-! SUPPORT. What each named update of the device leaves in each field. -/

namespace Sys2Proof.Machine

/-! ### emit -/
@[simp] theorem emit_out (d : Dev) (m : OutMsg) : (emit d m).out = m :: d.out := rfl
@[simp] theorem emit_now (d : Dev) (m : OutMsg) : (emit d m).now = d.now := rfl
@[simp] theorem emit_freeCtr (d : Dev) (m : OutMsg) : (emit d m).freeCtr = d.freeCtr := rfl
@[simp] theorem emit_pwr (d : Dev) (m : OutMsg) : (emit d m).pwr = d.pwr := rfl
@[simp] theorem emit_boot (d : Dev) (m : OutMsg) : (emit d m).boot = d.boot := rfl
@[simp] theorem emit_flashIf (d : Dev) (m : OutMsg) : (emit d m).flashIf = d.flashIf := rfl
@[simp] theorem emit_host (d : Dev) (m : OutMsg) : (emit d m).host = d.host := rfl
@[simp] theorem emit_spdm (d : Dev) (m : OutMsg) : (emit d m).spdm = d.spdm := rfl
@[simp] theorem emit_queues (d : Dev) (m : OutMsg) : (emit d m).queues = d.queues := rfl
@[simp] theorem emit_cmds (d : Dev) (m : OutMsg) : (emit d m).cmds = d.cmds := rfl
@[simp] theorem emit_nextCid (d : Dev) (m : OutMsg) : (emit d m).nextCid = d.nextCid := rfl
@[simp] theorem emit_rr (d : Dev) (m : OutMsg) : (emit d m).rr = d.rr := rfl
@[simp] theorem emit_tables (d : Dev) (m : OutMsg) : (emit d m).tables = d.tables := rfl
@[simp] theorem emit_loading (d : Dev) (m : OutMsg) : (emit d m).loading = d.loading := rfl
@[simp] theorem emit_configGen (d : Dev) (m : OutMsg) : (emit d m).configGen = d.configGen := rfl
@[simp] theorem emit_ctxs (d : Dev) (m : OutMsg) : (emit d m).ctxs = d.ctxs := rfl
@[simp] theorem emit_eng (d : Dev) (m : OutMsg) : (emit d m).eng = d.eng := rfl
@[simp] theorem emit_launches (d : Dev) (m : OutMsg) : (emit d m).launches = d.launches := rfl
@[simp] theorem emit_nextLaunch (d : Dev) (m : OutMsg) : (emit d m).nextLaunch = d.nextLaunch := rfl
@[simp] theorem emit_running (d : Dev) (m : OutMsg) : (emit d m).running = d.running := rfl
@[simp] theorem emit_xfers (d : Dev) (m : OutMsg) : (emit d m).xfers = d.xfers := rfl
@[simp] theorem emit_nextXfer (d : Dev) (m : OutMsg) : (emit d m).nextXfer = d.nextXfer := rfl
@[simp] theorem emit_mem (d : Dev) (m : OutMsg) : (emit d m).mem = d.mem := rfl
@[simp] theorem emit_parts (d : Dev) (m : OutMsg) : (emit d m).parts = d.parts := rfl
@[simp] theorem emit_reqs (d : Dev) (m : OutMsg) : (emit d m).reqs = d.reqs := rfl
@[simp] theorem emit_kvGens (d : Dev) (m : OutMsg) : (emit d m).kvGens = d.kvGens := rfl
@[simp] theorem emit_fabric (d : Dev) (m : OutMsg) : (emit d m).fabric = d.fabric := rfl
@[simp] theorem emit_colls (d : Dev) (m : OutMsg) : (emit d m).colls = d.colls := rfl
@[simp] theorem emit_weights (d : Dev) (m : OutMsg) : (emit d m).weights = d.weights := rfl
@[simp] theorem emit_gov (d : Dev) (m : OutMsg) : (emit d m).gov = d.gov := rfl
@[simp] theorem emit_tally (d : Dev) (m : OutMsg) : (emit d m).tally = d.tally := rfl

/-! ### setHost -/
@[simp] theorem setHost_host (d : Dev) (f : HostIf → HostIf) : (setHost d f).host = f d.host := rfl
@[simp] theorem setHost_now (d : Dev) (f : HostIf → HostIf) : (setHost d f).now = d.now := rfl
@[simp] theorem setHost_freeCtr (d : Dev) (f : HostIf → HostIf) : (setHost d f).freeCtr = d.freeCtr := rfl
@[simp] theorem setHost_out (d : Dev) (f : HostIf → HostIf) : (setHost d f).out = d.out := rfl
@[simp] theorem setHost_pwr (d : Dev) (f : HostIf → HostIf) : (setHost d f).pwr = d.pwr := rfl
@[simp] theorem setHost_boot (d : Dev) (f : HostIf → HostIf) : (setHost d f).boot = d.boot := rfl
@[simp] theorem setHost_flashIf (d : Dev) (f : HostIf → HostIf) : (setHost d f).flashIf = d.flashIf := rfl
@[simp] theorem setHost_spdm (d : Dev) (f : HostIf → HostIf) : (setHost d f).spdm = d.spdm := rfl
@[simp] theorem setHost_queues (d : Dev) (f : HostIf → HostIf) : (setHost d f).queues = d.queues := rfl
@[simp] theorem setHost_cmds (d : Dev) (f : HostIf → HostIf) : (setHost d f).cmds = d.cmds := rfl
@[simp] theorem setHost_nextCid (d : Dev) (f : HostIf → HostIf) : (setHost d f).nextCid = d.nextCid := rfl
@[simp] theorem setHost_rr (d : Dev) (f : HostIf → HostIf) : (setHost d f).rr = d.rr := rfl
@[simp] theorem setHost_tables (d : Dev) (f : HostIf → HostIf) : (setHost d f).tables = d.tables := rfl
@[simp] theorem setHost_loading (d : Dev) (f : HostIf → HostIf) : (setHost d f).loading = d.loading := rfl
@[simp] theorem setHost_configGen (d : Dev) (f : HostIf → HostIf) : (setHost d f).configGen = d.configGen := rfl
@[simp] theorem setHost_ctxs (d : Dev) (f : HostIf → HostIf) : (setHost d f).ctxs = d.ctxs := rfl
@[simp] theorem setHost_eng (d : Dev) (f : HostIf → HostIf) : (setHost d f).eng = d.eng := rfl
@[simp] theorem setHost_launches (d : Dev) (f : HostIf → HostIf) : (setHost d f).launches = d.launches := rfl
@[simp] theorem setHost_nextLaunch (d : Dev) (f : HostIf → HostIf) : (setHost d f).nextLaunch = d.nextLaunch := rfl
@[simp] theorem setHost_running (d : Dev) (f : HostIf → HostIf) : (setHost d f).running = d.running := rfl
@[simp] theorem setHost_xfers (d : Dev) (f : HostIf → HostIf) : (setHost d f).xfers = d.xfers := rfl
@[simp] theorem setHost_nextXfer (d : Dev) (f : HostIf → HostIf) : (setHost d f).nextXfer = d.nextXfer := rfl
@[simp] theorem setHost_mem (d : Dev) (f : HostIf → HostIf) : (setHost d f).mem = d.mem := rfl
@[simp] theorem setHost_parts (d : Dev) (f : HostIf → HostIf) : (setHost d f).parts = d.parts := rfl
@[simp] theorem setHost_reqs (d : Dev) (f : HostIf → HostIf) : (setHost d f).reqs = d.reqs := rfl
@[simp] theorem setHost_kvGens (d : Dev) (f : HostIf → HostIf) : (setHost d f).kvGens = d.kvGens := rfl
@[simp] theorem setHost_fabric (d : Dev) (f : HostIf → HostIf) : (setHost d f).fabric = d.fabric := rfl
@[simp] theorem setHost_colls (d : Dev) (f : HostIf → HostIf) : (setHost d f).colls = d.colls := rfl
@[simp] theorem setHost_weights (d : Dev) (f : HostIf → HostIf) : (setHost d f).weights = d.weights := rfl
@[simp] theorem setHost_gov (d : Dev) (f : HostIf → HostIf) : (setHost d f).gov = d.gov := rfl
@[simp] theorem setHost_tally (d : Dev) (f : HostIf → HostIf) : (setHost d f).tally = d.tally := rfl

/-! ### setBoot -/
@[simp] theorem setBoot_boot (d : Dev) (f : Boot → Boot) : (setBoot d f).boot = f d.boot := rfl
@[simp] theorem setBoot_now (d : Dev) (f : Boot → Boot) : (setBoot d f).now = d.now := rfl
@[simp] theorem setBoot_freeCtr (d : Dev) (f : Boot → Boot) : (setBoot d f).freeCtr = d.freeCtr := rfl
@[simp] theorem setBoot_out (d : Dev) (f : Boot → Boot) : (setBoot d f).out = d.out := rfl
@[simp] theorem setBoot_pwr (d : Dev) (f : Boot → Boot) : (setBoot d f).pwr = d.pwr := rfl
@[simp] theorem setBoot_flashIf (d : Dev) (f : Boot → Boot) : (setBoot d f).flashIf = d.flashIf := rfl
@[simp] theorem setBoot_host (d : Dev) (f : Boot → Boot) : (setBoot d f).host = d.host := rfl
@[simp] theorem setBoot_spdm (d : Dev) (f : Boot → Boot) : (setBoot d f).spdm = d.spdm := rfl
@[simp] theorem setBoot_queues (d : Dev) (f : Boot → Boot) : (setBoot d f).queues = d.queues := rfl
@[simp] theorem setBoot_cmds (d : Dev) (f : Boot → Boot) : (setBoot d f).cmds = d.cmds := rfl
@[simp] theorem setBoot_nextCid (d : Dev) (f : Boot → Boot) : (setBoot d f).nextCid = d.nextCid := rfl
@[simp] theorem setBoot_rr (d : Dev) (f : Boot → Boot) : (setBoot d f).rr = d.rr := rfl
@[simp] theorem setBoot_tables (d : Dev) (f : Boot → Boot) : (setBoot d f).tables = d.tables := rfl
@[simp] theorem setBoot_loading (d : Dev) (f : Boot → Boot) : (setBoot d f).loading = d.loading := rfl
@[simp] theorem setBoot_configGen (d : Dev) (f : Boot → Boot) : (setBoot d f).configGen = d.configGen := rfl
@[simp] theorem setBoot_ctxs (d : Dev) (f : Boot → Boot) : (setBoot d f).ctxs = d.ctxs := rfl
@[simp] theorem setBoot_eng (d : Dev) (f : Boot → Boot) : (setBoot d f).eng = d.eng := rfl
@[simp] theorem setBoot_launches (d : Dev) (f : Boot → Boot) : (setBoot d f).launches = d.launches := rfl
@[simp] theorem setBoot_nextLaunch (d : Dev) (f : Boot → Boot) : (setBoot d f).nextLaunch = d.nextLaunch := rfl
@[simp] theorem setBoot_running (d : Dev) (f : Boot → Boot) : (setBoot d f).running = d.running := rfl
@[simp] theorem setBoot_xfers (d : Dev) (f : Boot → Boot) : (setBoot d f).xfers = d.xfers := rfl
@[simp] theorem setBoot_nextXfer (d : Dev) (f : Boot → Boot) : (setBoot d f).nextXfer = d.nextXfer := rfl
@[simp] theorem setBoot_mem (d : Dev) (f : Boot → Boot) : (setBoot d f).mem = d.mem := rfl
@[simp] theorem setBoot_parts (d : Dev) (f : Boot → Boot) : (setBoot d f).parts = d.parts := rfl
@[simp] theorem setBoot_reqs (d : Dev) (f : Boot → Boot) : (setBoot d f).reqs = d.reqs := rfl
@[simp] theorem setBoot_kvGens (d : Dev) (f : Boot → Boot) : (setBoot d f).kvGens = d.kvGens := rfl
@[simp] theorem setBoot_fabric (d : Dev) (f : Boot → Boot) : (setBoot d f).fabric = d.fabric := rfl
@[simp] theorem setBoot_colls (d : Dev) (f : Boot → Boot) : (setBoot d f).colls = d.colls := rfl
@[simp] theorem setBoot_weights (d : Dev) (f : Boot → Boot) : (setBoot d f).weights = d.weights := rfl
@[simp] theorem setBoot_gov (d : Dev) (f : Boot → Boot) : (setBoot d f).gov = d.gov := rfl
@[simp] theorem setBoot_tally (d : Dev) (f : Boot → Boot) : (setBoot d f).tally = d.tally := rfl

/-! ### setFlash -/
@[simp] theorem setFlash_flashIf (d : Dev) (f : FlashIf → FlashIf) : (setFlash d f).flashIf = f d.flashIf := rfl
@[simp] theorem setFlash_now (d : Dev) (f : FlashIf → FlashIf) : (setFlash d f).now = d.now := rfl
@[simp] theorem setFlash_freeCtr (d : Dev) (f : FlashIf → FlashIf) : (setFlash d f).freeCtr = d.freeCtr := rfl
@[simp] theorem setFlash_out (d : Dev) (f : FlashIf → FlashIf) : (setFlash d f).out = d.out := rfl
@[simp] theorem setFlash_pwr (d : Dev) (f : FlashIf → FlashIf) : (setFlash d f).pwr = d.pwr := rfl
@[simp] theorem setFlash_boot (d : Dev) (f : FlashIf → FlashIf) : (setFlash d f).boot = d.boot := rfl
@[simp] theorem setFlash_host (d : Dev) (f : FlashIf → FlashIf) : (setFlash d f).host = d.host := rfl
@[simp] theorem setFlash_spdm (d : Dev) (f : FlashIf → FlashIf) : (setFlash d f).spdm = d.spdm := rfl
@[simp] theorem setFlash_queues (d : Dev) (f : FlashIf → FlashIf) : (setFlash d f).queues = d.queues := rfl
@[simp] theorem setFlash_cmds (d : Dev) (f : FlashIf → FlashIf) : (setFlash d f).cmds = d.cmds := rfl
@[simp] theorem setFlash_nextCid (d : Dev) (f : FlashIf → FlashIf) : (setFlash d f).nextCid = d.nextCid := rfl
@[simp] theorem setFlash_rr (d : Dev) (f : FlashIf → FlashIf) : (setFlash d f).rr = d.rr := rfl
@[simp] theorem setFlash_tables (d : Dev) (f : FlashIf → FlashIf) : (setFlash d f).tables = d.tables := rfl
@[simp] theorem setFlash_loading (d : Dev) (f : FlashIf → FlashIf) : (setFlash d f).loading = d.loading := rfl
@[simp] theorem setFlash_configGen (d : Dev) (f : FlashIf → FlashIf) : (setFlash d f).configGen = d.configGen := rfl
@[simp] theorem setFlash_ctxs (d : Dev) (f : FlashIf → FlashIf) : (setFlash d f).ctxs = d.ctxs := rfl
@[simp] theorem setFlash_eng (d : Dev) (f : FlashIf → FlashIf) : (setFlash d f).eng = d.eng := rfl
@[simp] theorem setFlash_launches (d : Dev) (f : FlashIf → FlashIf) : (setFlash d f).launches = d.launches := rfl
@[simp] theorem setFlash_nextLaunch (d : Dev) (f : FlashIf → FlashIf) : (setFlash d f).nextLaunch = d.nextLaunch := rfl
@[simp] theorem setFlash_running (d : Dev) (f : FlashIf → FlashIf) : (setFlash d f).running = d.running := rfl
@[simp] theorem setFlash_xfers (d : Dev) (f : FlashIf → FlashIf) : (setFlash d f).xfers = d.xfers := rfl
@[simp] theorem setFlash_nextXfer (d : Dev) (f : FlashIf → FlashIf) : (setFlash d f).nextXfer = d.nextXfer := rfl
@[simp] theorem setFlash_mem (d : Dev) (f : FlashIf → FlashIf) : (setFlash d f).mem = d.mem := rfl
@[simp] theorem setFlash_parts (d : Dev) (f : FlashIf → FlashIf) : (setFlash d f).parts = d.parts := rfl
@[simp] theorem setFlash_reqs (d : Dev) (f : FlashIf → FlashIf) : (setFlash d f).reqs = d.reqs := rfl
@[simp] theorem setFlash_kvGens (d : Dev) (f : FlashIf → FlashIf) : (setFlash d f).kvGens = d.kvGens := rfl
@[simp] theorem setFlash_fabric (d : Dev) (f : FlashIf → FlashIf) : (setFlash d f).fabric = d.fabric := rfl
@[simp] theorem setFlash_colls (d : Dev) (f : FlashIf → FlashIf) : (setFlash d f).colls = d.colls := rfl
@[simp] theorem setFlash_weights (d : Dev) (f : FlashIf → FlashIf) : (setFlash d f).weights = d.weights := rfl
@[simp] theorem setFlash_gov (d : Dev) (f : FlashIf → FlashIf) : (setFlash d f).gov = d.gov := rfl
@[simp] theorem setFlash_tally (d : Dev) (f : FlashIf → FlashIf) : (setFlash d f).tally = d.tally := rfl

/-! ### setSpdm -/
@[simp] theorem setSpdm_spdm (d : Dev) (f : Spdm → Spdm) : (setSpdm d f).spdm = f d.spdm := rfl
@[simp] theorem setSpdm_now (d : Dev) (f : Spdm → Spdm) : (setSpdm d f).now = d.now := rfl
@[simp] theorem setSpdm_freeCtr (d : Dev) (f : Spdm → Spdm) : (setSpdm d f).freeCtr = d.freeCtr := rfl
@[simp] theorem setSpdm_out (d : Dev) (f : Spdm → Spdm) : (setSpdm d f).out = d.out := rfl
@[simp] theorem setSpdm_pwr (d : Dev) (f : Spdm → Spdm) : (setSpdm d f).pwr = d.pwr := rfl
@[simp] theorem setSpdm_boot (d : Dev) (f : Spdm → Spdm) : (setSpdm d f).boot = d.boot := rfl
@[simp] theorem setSpdm_flashIf (d : Dev) (f : Spdm → Spdm) : (setSpdm d f).flashIf = d.flashIf := rfl
@[simp] theorem setSpdm_host (d : Dev) (f : Spdm → Spdm) : (setSpdm d f).host = d.host := rfl
@[simp] theorem setSpdm_queues (d : Dev) (f : Spdm → Spdm) : (setSpdm d f).queues = d.queues := rfl
@[simp] theorem setSpdm_cmds (d : Dev) (f : Spdm → Spdm) : (setSpdm d f).cmds = d.cmds := rfl
@[simp] theorem setSpdm_nextCid (d : Dev) (f : Spdm → Spdm) : (setSpdm d f).nextCid = d.nextCid := rfl
@[simp] theorem setSpdm_rr (d : Dev) (f : Spdm → Spdm) : (setSpdm d f).rr = d.rr := rfl
@[simp] theorem setSpdm_tables (d : Dev) (f : Spdm → Spdm) : (setSpdm d f).tables = d.tables := rfl
@[simp] theorem setSpdm_loading (d : Dev) (f : Spdm → Spdm) : (setSpdm d f).loading = d.loading := rfl
@[simp] theorem setSpdm_configGen (d : Dev) (f : Spdm → Spdm) : (setSpdm d f).configGen = d.configGen := rfl
@[simp] theorem setSpdm_ctxs (d : Dev) (f : Spdm → Spdm) : (setSpdm d f).ctxs = d.ctxs := rfl
@[simp] theorem setSpdm_eng (d : Dev) (f : Spdm → Spdm) : (setSpdm d f).eng = d.eng := rfl
@[simp] theorem setSpdm_launches (d : Dev) (f : Spdm → Spdm) : (setSpdm d f).launches = d.launches := rfl
@[simp] theorem setSpdm_nextLaunch (d : Dev) (f : Spdm → Spdm) : (setSpdm d f).nextLaunch = d.nextLaunch := rfl
@[simp] theorem setSpdm_running (d : Dev) (f : Spdm → Spdm) : (setSpdm d f).running = d.running := rfl
@[simp] theorem setSpdm_xfers (d : Dev) (f : Spdm → Spdm) : (setSpdm d f).xfers = d.xfers := rfl
@[simp] theorem setSpdm_nextXfer (d : Dev) (f : Spdm → Spdm) : (setSpdm d f).nextXfer = d.nextXfer := rfl
@[simp] theorem setSpdm_mem (d : Dev) (f : Spdm → Spdm) : (setSpdm d f).mem = d.mem := rfl
@[simp] theorem setSpdm_parts (d : Dev) (f : Spdm → Spdm) : (setSpdm d f).parts = d.parts := rfl
@[simp] theorem setSpdm_reqs (d : Dev) (f : Spdm → Spdm) : (setSpdm d f).reqs = d.reqs := rfl
@[simp] theorem setSpdm_kvGens (d : Dev) (f : Spdm → Spdm) : (setSpdm d f).kvGens = d.kvGens := rfl
@[simp] theorem setSpdm_fabric (d : Dev) (f : Spdm → Spdm) : (setSpdm d f).fabric = d.fabric := rfl
@[simp] theorem setSpdm_colls (d : Dev) (f : Spdm → Spdm) : (setSpdm d f).colls = d.colls := rfl
@[simp] theorem setSpdm_weights (d : Dev) (f : Spdm → Spdm) : (setSpdm d f).weights = d.weights := rfl
@[simp] theorem setSpdm_gov (d : Dev) (f : Spdm → Spdm) : (setSpdm d f).gov = d.gov := rfl
@[simp] theorem setSpdm_tally (d : Dev) (f : Spdm → Spdm) : (setSpdm d f).tally = d.tally := rfl

/-! ### modMem -/
@[simp] theorem modMem_mem (d : Dev) (f : MemSys → MemSys) : (modMem d f).mem = f d.mem := rfl
@[simp] theorem modMem_now (d : Dev) (f : MemSys → MemSys) : (modMem d f).now = d.now := rfl
@[simp] theorem modMem_freeCtr (d : Dev) (f : MemSys → MemSys) : (modMem d f).freeCtr = d.freeCtr := rfl
@[simp] theorem modMem_out (d : Dev) (f : MemSys → MemSys) : (modMem d f).out = d.out := rfl
@[simp] theorem modMem_pwr (d : Dev) (f : MemSys → MemSys) : (modMem d f).pwr = d.pwr := rfl
@[simp] theorem modMem_boot (d : Dev) (f : MemSys → MemSys) : (modMem d f).boot = d.boot := rfl
@[simp] theorem modMem_flashIf (d : Dev) (f : MemSys → MemSys) : (modMem d f).flashIf = d.flashIf := rfl
@[simp] theorem modMem_host (d : Dev) (f : MemSys → MemSys) : (modMem d f).host = d.host := rfl
@[simp] theorem modMem_spdm (d : Dev) (f : MemSys → MemSys) : (modMem d f).spdm = d.spdm := rfl
@[simp] theorem modMem_queues (d : Dev) (f : MemSys → MemSys) : (modMem d f).queues = d.queues := rfl
@[simp] theorem modMem_cmds (d : Dev) (f : MemSys → MemSys) : (modMem d f).cmds = d.cmds := rfl
@[simp] theorem modMem_nextCid (d : Dev) (f : MemSys → MemSys) : (modMem d f).nextCid = d.nextCid := rfl
@[simp] theorem modMem_rr (d : Dev) (f : MemSys → MemSys) : (modMem d f).rr = d.rr := rfl
@[simp] theorem modMem_tables (d : Dev) (f : MemSys → MemSys) : (modMem d f).tables = d.tables := rfl
@[simp] theorem modMem_loading (d : Dev) (f : MemSys → MemSys) : (modMem d f).loading = d.loading := rfl
@[simp] theorem modMem_configGen (d : Dev) (f : MemSys → MemSys) : (modMem d f).configGen = d.configGen := rfl
@[simp] theorem modMem_ctxs (d : Dev) (f : MemSys → MemSys) : (modMem d f).ctxs = d.ctxs := rfl
@[simp] theorem modMem_eng (d : Dev) (f : MemSys → MemSys) : (modMem d f).eng = d.eng := rfl
@[simp] theorem modMem_launches (d : Dev) (f : MemSys → MemSys) : (modMem d f).launches = d.launches := rfl
@[simp] theorem modMem_nextLaunch (d : Dev) (f : MemSys → MemSys) : (modMem d f).nextLaunch = d.nextLaunch := rfl
@[simp] theorem modMem_running (d : Dev) (f : MemSys → MemSys) : (modMem d f).running = d.running := rfl
@[simp] theorem modMem_xfers (d : Dev) (f : MemSys → MemSys) : (modMem d f).xfers = d.xfers := rfl
@[simp] theorem modMem_nextXfer (d : Dev) (f : MemSys → MemSys) : (modMem d f).nextXfer = d.nextXfer := rfl
@[simp] theorem modMem_parts (d : Dev) (f : MemSys → MemSys) : (modMem d f).parts = d.parts := rfl
@[simp] theorem modMem_reqs (d : Dev) (f : MemSys → MemSys) : (modMem d f).reqs = d.reqs := rfl
@[simp] theorem modMem_kvGens (d : Dev) (f : MemSys → MemSys) : (modMem d f).kvGens = d.kvGens := rfl
@[simp] theorem modMem_fabric (d : Dev) (f : MemSys → MemSys) : (modMem d f).fabric = d.fabric := rfl
@[simp] theorem modMem_colls (d : Dev) (f : MemSys → MemSys) : (modMem d f).colls = d.colls := rfl
@[simp] theorem modMem_weights (d : Dev) (f : MemSys → MemSys) : (modMem d f).weights = d.weights := rfl
@[simp] theorem modMem_gov (d : Dev) (f : MemSys → MemSys) : (modMem d f).gov = d.gov := rfl
@[simp] theorem modMem_tally (d : Dev) (f : MemSys → MemSys) : (modMem d f).tally = d.tally := rfl

/-! ### modCtx -/
@[simp] theorem modCtx_ctxs (d : Dev) (c : Nat) (f : Ctx → Ctx) : (modCtx d c f).ctxs = smUpd d.ctxs c f := rfl
@[simp] theorem modCtx_now (d : Dev) (c : Nat) (f : Ctx → Ctx) : (modCtx d c f).now = d.now := rfl
@[simp] theorem modCtx_freeCtr (d : Dev) (c : Nat) (f : Ctx → Ctx) : (modCtx d c f).freeCtr = d.freeCtr := rfl
@[simp] theorem modCtx_out (d : Dev) (c : Nat) (f : Ctx → Ctx) : (modCtx d c f).out = d.out := rfl
@[simp] theorem modCtx_pwr (d : Dev) (c : Nat) (f : Ctx → Ctx) : (modCtx d c f).pwr = d.pwr := rfl
@[simp] theorem modCtx_boot (d : Dev) (c : Nat) (f : Ctx → Ctx) : (modCtx d c f).boot = d.boot := rfl
@[simp] theorem modCtx_flashIf (d : Dev) (c : Nat) (f : Ctx → Ctx) : (modCtx d c f).flashIf = d.flashIf := rfl
@[simp] theorem modCtx_host (d : Dev) (c : Nat) (f : Ctx → Ctx) : (modCtx d c f).host = d.host := rfl
@[simp] theorem modCtx_spdm (d : Dev) (c : Nat) (f : Ctx → Ctx) : (modCtx d c f).spdm = d.spdm := rfl
@[simp] theorem modCtx_queues (d : Dev) (c : Nat) (f : Ctx → Ctx) : (modCtx d c f).queues = d.queues := rfl
@[simp] theorem modCtx_cmds (d : Dev) (c : Nat) (f : Ctx → Ctx) : (modCtx d c f).cmds = d.cmds := rfl
@[simp] theorem modCtx_nextCid (d : Dev) (c : Nat) (f : Ctx → Ctx) : (modCtx d c f).nextCid = d.nextCid := rfl
@[simp] theorem modCtx_rr (d : Dev) (c : Nat) (f : Ctx → Ctx) : (modCtx d c f).rr = d.rr := rfl
@[simp] theorem modCtx_tables (d : Dev) (c : Nat) (f : Ctx → Ctx) : (modCtx d c f).tables = d.tables := rfl
@[simp] theorem modCtx_loading (d : Dev) (c : Nat) (f : Ctx → Ctx) : (modCtx d c f).loading = d.loading := rfl
@[simp] theorem modCtx_configGen (d : Dev) (c : Nat) (f : Ctx → Ctx) : (modCtx d c f).configGen = d.configGen := rfl
@[simp] theorem modCtx_eng (d : Dev) (c : Nat) (f : Ctx → Ctx) : (modCtx d c f).eng = d.eng := rfl
@[simp] theorem modCtx_launches (d : Dev) (c : Nat) (f : Ctx → Ctx) : (modCtx d c f).launches = d.launches := rfl
@[simp] theorem modCtx_nextLaunch (d : Dev) (c : Nat) (f : Ctx → Ctx) : (modCtx d c f).nextLaunch = d.nextLaunch := rfl
@[simp] theorem modCtx_running (d : Dev) (c : Nat) (f : Ctx → Ctx) : (modCtx d c f).running = d.running := rfl
@[simp] theorem modCtx_xfers (d : Dev) (c : Nat) (f : Ctx → Ctx) : (modCtx d c f).xfers = d.xfers := rfl
@[simp] theorem modCtx_nextXfer (d : Dev) (c : Nat) (f : Ctx → Ctx) : (modCtx d c f).nextXfer = d.nextXfer := rfl
@[simp] theorem modCtx_mem (d : Dev) (c : Nat) (f : Ctx → Ctx) : (modCtx d c f).mem = d.mem := rfl
@[simp] theorem modCtx_parts (d : Dev) (c : Nat) (f : Ctx → Ctx) : (modCtx d c f).parts = d.parts := rfl
@[simp] theorem modCtx_reqs (d : Dev) (c : Nat) (f : Ctx → Ctx) : (modCtx d c f).reqs = d.reqs := rfl
@[simp] theorem modCtx_kvGens (d : Dev) (c : Nat) (f : Ctx → Ctx) : (modCtx d c f).kvGens = d.kvGens := rfl
@[simp] theorem modCtx_fabric (d : Dev) (c : Nat) (f : Ctx → Ctx) : (modCtx d c f).fabric = d.fabric := rfl
@[simp] theorem modCtx_colls (d : Dev) (c : Nat) (f : Ctx → Ctx) : (modCtx d c f).colls = d.colls := rfl
@[simp] theorem modCtx_weights (d : Dev) (c : Nat) (f : Ctx → Ctx) : (modCtx d c f).weights = d.weights := rfl
@[simp] theorem modCtx_gov (d : Dev) (c : Nat) (f : Ctx → Ctx) : (modCtx d c f).gov = d.gov := rfl
@[simp] theorem modCtx_tally (d : Dev) (c : Nat) (f : Ctx → Ctx) : (modCtx d c f).tally = d.tally := rfl

/-! ### setQueue -/
@[simp] theorem setQueue_queues (d : Dev) (q : Nat) (v : Queue) : (setQueue d q v).queues = smSet {} d.queues q v := rfl
@[simp] theorem setQueue_now (d : Dev) (q : Nat) (v : Queue) : (setQueue d q v).now = d.now := rfl
@[simp] theorem setQueue_freeCtr (d : Dev) (q : Nat) (v : Queue) : (setQueue d q v).freeCtr = d.freeCtr := rfl
@[simp] theorem setQueue_out (d : Dev) (q : Nat) (v : Queue) : (setQueue d q v).out = d.out := rfl
@[simp] theorem setQueue_pwr (d : Dev) (q : Nat) (v : Queue) : (setQueue d q v).pwr = d.pwr := rfl
@[simp] theorem setQueue_boot (d : Dev) (q : Nat) (v : Queue) : (setQueue d q v).boot = d.boot := rfl
@[simp] theorem setQueue_flashIf (d : Dev) (q : Nat) (v : Queue) : (setQueue d q v).flashIf = d.flashIf := rfl
@[simp] theorem setQueue_host (d : Dev) (q : Nat) (v : Queue) : (setQueue d q v).host = d.host := rfl
@[simp] theorem setQueue_spdm (d : Dev) (q : Nat) (v : Queue) : (setQueue d q v).spdm = d.spdm := rfl
@[simp] theorem setQueue_cmds (d : Dev) (q : Nat) (v : Queue) : (setQueue d q v).cmds = d.cmds := rfl
@[simp] theorem setQueue_nextCid (d : Dev) (q : Nat) (v : Queue) : (setQueue d q v).nextCid = d.nextCid := rfl
@[simp] theorem setQueue_rr (d : Dev) (q : Nat) (v : Queue) : (setQueue d q v).rr = d.rr := rfl
@[simp] theorem setQueue_tables (d : Dev) (q : Nat) (v : Queue) : (setQueue d q v).tables = d.tables := rfl
@[simp] theorem setQueue_loading (d : Dev) (q : Nat) (v : Queue) : (setQueue d q v).loading = d.loading := rfl
@[simp] theorem setQueue_configGen (d : Dev) (q : Nat) (v : Queue) : (setQueue d q v).configGen = d.configGen := rfl
@[simp] theorem setQueue_ctxs (d : Dev) (q : Nat) (v : Queue) : (setQueue d q v).ctxs = d.ctxs := rfl
@[simp] theorem setQueue_eng (d : Dev) (q : Nat) (v : Queue) : (setQueue d q v).eng = d.eng := rfl
@[simp] theorem setQueue_launches (d : Dev) (q : Nat) (v : Queue) : (setQueue d q v).launches = d.launches := rfl
@[simp] theorem setQueue_nextLaunch (d : Dev) (q : Nat) (v : Queue) : (setQueue d q v).nextLaunch = d.nextLaunch := rfl
@[simp] theorem setQueue_running (d : Dev) (q : Nat) (v : Queue) : (setQueue d q v).running = d.running := rfl
@[simp] theorem setQueue_xfers (d : Dev) (q : Nat) (v : Queue) : (setQueue d q v).xfers = d.xfers := rfl
@[simp] theorem setQueue_nextXfer (d : Dev) (q : Nat) (v : Queue) : (setQueue d q v).nextXfer = d.nextXfer := rfl
@[simp] theorem setQueue_mem (d : Dev) (q : Nat) (v : Queue) : (setQueue d q v).mem = d.mem := rfl
@[simp] theorem setQueue_parts (d : Dev) (q : Nat) (v : Queue) : (setQueue d q v).parts = d.parts := rfl
@[simp] theorem setQueue_reqs (d : Dev) (q : Nat) (v : Queue) : (setQueue d q v).reqs = d.reqs := rfl
@[simp] theorem setQueue_kvGens (d : Dev) (q : Nat) (v : Queue) : (setQueue d q v).kvGens = d.kvGens := rfl
@[simp] theorem setQueue_fabric (d : Dev) (q : Nat) (v : Queue) : (setQueue d q v).fabric = d.fabric := rfl
@[simp] theorem setQueue_colls (d : Dev) (q : Nat) (v : Queue) : (setQueue d q v).colls = d.colls := rfl
@[simp] theorem setQueue_weights (d : Dev) (q : Nat) (v : Queue) : (setQueue d q v).weights = d.weights := rfl
@[simp] theorem setQueue_gov (d : Dev) (q : Nat) (v : Queue) : (setQueue d q v).gov = d.gov := rfl
@[simp] theorem setQueue_tally (d : Dev) (q : Nat) (v : Queue) : (setQueue d q v).tally = d.tally := rfl

/-! ### modQueue -/
@[simp] theorem modQueue_now (d : Dev) (q : Nat) (f : Queue → Queue) : (modQueue d q f).now = d.now := rfl
@[simp] theorem modQueue_freeCtr (d : Dev) (q : Nat) (f : Queue → Queue) : (modQueue d q f).freeCtr = d.freeCtr := rfl
@[simp] theorem modQueue_out (d : Dev) (q : Nat) (f : Queue → Queue) : (modQueue d q f).out = d.out := rfl
@[simp] theorem modQueue_pwr (d : Dev) (q : Nat) (f : Queue → Queue) : (modQueue d q f).pwr = d.pwr := rfl
@[simp] theorem modQueue_boot (d : Dev) (q : Nat) (f : Queue → Queue) : (modQueue d q f).boot = d.boot := rfl
@[simp] theorem modQueue_flashIf (d : Dev) (q : Nat) (f : Queue → Queue) : (modQueue d q f).flashIf = d.flashIf := rfl
@[simp] theorem modQueue_host (d : Dev) (q : Nat) (f : Queue → Queue) : (modQueue d q f).host = d.host := rfl
@[simp] theorem modQueue_spdm (d : Dev) (q : Nat) (f : Queue → Queue) : (modQueue d q f).spdm = d.spdm := rfl
@[simp] theorem modQueue_cmds (d : Dev) (q : Nat) (f : Queue → Queue) : (modQueue d q f).cmds = d.cmds := rfl
@[simp] theorem modQueue_nextCid (d : Dev) (q : Nat) (f : Queue → Queue) : (modQueue d q f).nextCid = d.nextCid := rfl
@[simp] theorem modQueue_rr (d : Dev) (q : Nat) (f : Queue → Queue) : (modQueue d q f).rr = d.rr := rfl
@[simp] theorem modQueue_tables (d : Dev) (q : Nat) (f : Queue → Queue) : (modQueue d q f).tables = d.tables := rfl
@[simp] theorem modQueue_loading (d : Dev) (q : Nat) (f : Queue → Queue) : (modQueue d q f).loading = d.loading := rfl
@[simp] theorem modQueue_configGen (d : Dev) (q : Nat) (f : Queue → Queue) : (modQueue d q f).configGen = d.configGen := rfl
@[simp] theorem modQueue_ctxs (d : Dev) (q : Nat) (f : Queue → Queue) : (modQueue d q f).ctxs = d.ctxs := rfl
@[simp] theorem modQueue_eng (d : Dev) (q : Nat) (f : Queue → Queue) : (modQueue d q f).eng = d.eng := rfl
@[simp] theorem modQueue_launches (d : Dev) (q : Nat) (f : Queue → Queue) : (modQueue d q f).launches = d.launches := rfl
@[simp] theorem modQueue_nextLaunch (d : Dev) (q : Nat) (f : Queue → Queue) : (modQueue d q f).nextLaunch = d.nextLaunch := rfl
@[simp] theorem modQueue_running (d : Dev) (q : Nat) (f : Queue → Queue) : (modQueue d q f).running = d.running := rfl
@[simp] theorem modQueue_xfers (d : Dev) (q : Nat) (f : Queue → Queue) : (modQueue d q f).xfers = d.xfers := rfl
@[simp] theorem modQueue_nextXfer (d : Dev) (q : Nat) (f : Queue → Queue) : (modQueue d q f).nextXfer = d.nextXfer := rfl
@[simp] theorem modQueue_mem (d : Dev) (q : Nat) (f : Queue → Queue) : (modQueue d q f).mem = d.mem := rfl
@[simp] theorem modQueue_parts (d : Dev) (q : Nat) (f : Queue → Queue) : (modQueue d q f).parts = d.parts := rfl
@[simp] theorem modQueue_reqs (d : Dev) (q : Nat) (f : Queue → Queue) : (modQueue d q f).reqs = d.reqs := rfl
@[simp] theorem modQueue_kvGens (d : Dev) (q : Nat) (f : Queue → Queue) : (modQueue d q f).kvGens = d.kvGens := rfl
@[simp] theorem modQueue_fabric (d : Dev) (q : Nat) (f : Queue → Queue) : (modQueue d q f).fabric = d.fabric := rfl
@[simp] theorem modQueue_colls (d : Dev) (q : Nat) (f : Queue → Queue) : (modQueue d q f).colls = d.colls := rfl
@[simp] theorem modQueue_weights (d : Dev) (q : Nat) (f : Queue → Queue) : (modQueue d q f).weights = d.weights := rfl
@[simp] theorem modQueue_gov (d : Dev) (q : Nat) (f : Queue → Queue) : (modQueue d q f).gov = d.gov := rfl
@[simp] theorem modQueue_tally (d : Dev) (q : Nat) (f : Queue → Queue) : (modQueue d q f).tally = d.tally := rfl

/-! ### modCmd -/
@[simp] theorem modCmd_cmds (d : Dev) (c : Nat) (f : Cmd → Cmd) : (modCmd d c f).cmds = smUpd d.cmds c f := rfl
@[simp] theorem modCmd_now (d : Dev) (c : Nat) (f : Cmd → Cmd) : (modCmd d c f).now = d.now := rfl
@[simp] theorem modCmd_freeCtr (d : Dev) (c : Nat) (f : Cmd → Cmd) : (modCmd d c f).freeCtr = d.freeCtr := rfl
@[simp] theorem modCmd_out (d : Dev) (c : Nat) (f : Cmd → Cmd) : (modCmd d c f).out = d.out := rfl
@[simp] theorem modCmd_pwr (d : Dev) (c : Nat) (f : Cmd → Cmd) : (modCmd d c f).pwr = d.pwr := rfl
@[simp] theorem modCmd_boot (d : Dev) (c : Nat) (f : Cmd → Cmd) : (modCmd d c f).boot = d.boot := rfl
@[simp] theorem modCmd_flashIf (d : Dev) (c : Nat) (f : Cmd → Cmd) : (modCmd d c f).flashIf = d.flashIf := rfl
@[simp] theorem modCmd_host (d : Dev) (c : Nat) (f : Cmd → Cmd) : (modCmd d c f).host = d.host := rfl
@[simp] theorem modCmd_spdm (d : Dev) (c : Nat) (f : Cmd → Cmd) : (modCmd d c f).spdm = d.spdm := rfl
@[simp] theorem modCmd_queues (d : Dev) (c : Nat) (f : Cmd → Cmd) : (modCmd d c f).queues = d.queues := rfl
@[simp] theorem modCmd_nextCid (d : Dev) (c : Nat) (f : Cmd → Cmd) : (modCmd d c f).nextCid = d.nextCid := rfl
@[simp] theorem modCmd_rr (d : Dev) (c : Nat) (f : Cmd → Cmd) : (modCmd d c f).rr = d.rr := rfl
@[simp] theorem modCmd_tables (d : Dev) (c : Nat) (f : Cmd → Cmd) : (modCmd d c f).tables = d.tables := rfl
@[simp] theorem modCmd_loading (d : Dev) (c : Nat) (f : Cmd → Cmd) : (modCmd d c f).loading = d.loading := rfl
@[simp] theorem modCmd_configGen (d : Dev) (c : Nat) (f : Cmd → Cmd) : (modCmd d c f).configGen = d.configGen := rfl
@[simp] theorem modCmd_ctxs (d : Dev) (c : Nat) (f : Cmd → Cmd) : (modCmd d c f).ctxs = d.ctxs := rfl
@[simp] theorem modCmd_eng (d : Dev) (c : Nat) (f : Cmd → Cmd) : (modCmd d c f).eng = d.eng := rfl
@[simp] theorem modCmd_launches (d : Dev) (c : Nat) (f : Cmd → Cmd) : (modCmd d c f).launches = d.launches := rfl
@[simp] theorem modCmd_nextLaunch (d : Dev) (c : Nat) (f : Cmd → Cmd) : (modCmd d c f).nextLaunch = d.nextLaunch := rfl
@[simp] theorem modCmd_running (d : Dev) (c : Nat) (f : Cmd → Cmd) : (modCmd d c f).running = d.running := rfl
@[simp] theorem modCmd_xfers (d : Dev) (c : Nat) (f : Cmd → Cmd) : (modCmd d c f).xfers = d.xfers := rfl
@[simp] theorem modCmd_nextXfer (d : Dev) (c : Nat) (f : Cmd → Cmd) : (modCmd d c f).nextXfer = d.nextXfer := rfl
@[simp] theorem modCmd_mem (d : Dev) (c : Nat) (f : Cmd → Cmd) : (modCmd d c f).mem = d.mem := rfl
@[simp] theorem modCmd_parts (d : Dev) (c : Nat) (f : Cmd → Cmd) : (modCmd d c f).parts = d.parts := rfl
@[simp] theorem modCmd_reqs (d : Dev) (c : Nat) (f : Cmd → Cmd) : (modCmd d c f).reqs = d.reqs := rfl
@[simp] theorem modCmd_kvGens (d : Dev) (c : Nat) (f : Cmd → Cmd) : (modCmd d c f).kvGens = d.kvGens := rfl
@[simp] theorem modCmd_fabric (d : Dev) (c : Nat) (f : Cmd → Cmd) : (modCmd d c f).fabric = d.fabric := rfl
@[simp] theorem modCmd_colls (d : Dev) (c : Nat) (f : Cmd → Cmd) : (modCmd d c f).colls = d.colls := rfl
@[simp] theorem modCmd_weights (d : Dev) (c : Nat) (f : Cmd → Cmd) : (modCmd d c f).weights = d.weights := rfl
@[simp] theorem modCmd_gov (d : Dev) (c : Nat) (f : Cmd → Cmd) : (modCmd d c f).gov = d.gov := rfl
@[simp] theorem modCmd_tally (d : Dev) (c : Nat) (f : Cmd → Cmd) : (modCmd d c f).tally = d.tally := rfl

/-! ### setPort -/
@[simp] theorem setPort_now (d : Dev) (h : Nat) (p : HalfPort) : (setPort d h p).now = d.now := rfl
@[simp] theorem setPort_freeCtr (d : Dev) (h : Nat) (p : HalfPort) : (setPort d h p).freeCtr = d.freeCtr := rfl
@[simp] theorem setPort_out (d : Dev) (h : Nat) (p : HalfPort) : (setPort d h p).out = d.out := rfl
@[simp] theorem setPort_pwr (d : Dev) (h : Nat) (p : HalfPort) : (setPort d h p).pwr = d.pwr := rfl
@[simp] theorem setPort_boot (d : Dev) (h : Nat) (p : HalfPort) : (setPort d h p).boot = d.boot := rfl
@[simp] theorem setPort_flashIf (d : Dev) (h : Nat) (p : HalfPort) : (setPort d h p).flashIf = d.flashIf := rfl
@[simp] theorem setPort_host (d : Dev) (h : Nat) (p : HalfPort) : (setPort d h p).host = d.host := rfl
@[simp] theorem setPort_spdm (d : Dev) (h : Nat) (p : HalfPort) : (setPort d h p).spdm = d.spdm := rfl
@[simp] theorem setPort_queues (d : Dev) (h : Nat) (p : HalfPort) : (setPort d h p).queues = d.queues := rfl
@[simp] theorem setPort_cmds (d : Dev) (h : Nat) (p : HalfPort) : (setPort d h p).cmds = d.cmds := rfl
@[simp] theorem setPort_nextCid (d : Dev) (h : Nat) (p : HalfPort) : (setPort d h p).nextCid = d.nextCid := rfl
@[simp] theorem setPort_rr (d : Dev) (h : Nat) (p : HalfPort) : (setPort d h p).rr = d.rr := rfl
@[simp] theorem setPort_tables (d : Dev) (h : Nat) (p : HalfPort) : (setPort d h p).tables = d.tables := rfl
@[simp] theorem setPort_loading (d : Dev) (h : Nat) (p : HalfPort) : (setPort d h p).loading = d.loading := rfl
@[simp] theorem setPort_configGen (d : Dev) (h : Nat) (p : HalfPort) : (setPort d h p).configGen = d.configGen := rfl
@[simp] theorem setPort_ctxs (d : Dev) (h : Nat) (p : HalfPort) : (setPort d h p).ctxs = d.ctxs := rfl
@[simp] theorem setPort_eng (d : Dev) (h : Nat) (p : HalfPort) : (setPort d h p).eng = d.eng := rfl
@[simp] theorem setPort_launches (d : Dev) (h : Nat) (p : HalfPort) : (setPort d h p).launches = d.launches := rfl
@[simp] theorem setPort_nextLaunch (d : Dev) (h : Nat) (p : HalfPort) : (setPort d h p).nextLaunch = d.nextLaunch := rfl
@[simp] theorem setPort_running (d : Dev) (h : Nat) (p : HalfPort) : (setPort d h p).running = d.running := rfl
@[simp] theorem setPort_xfers (d : Dev) (h : Nat) (p : HalfPort) : (setPort d h p).xfers = d.xfers := rfl
@[simp] theorem setPort_nextXfer (d : Dev) (h : Nat) (p : HalfPort) : (setPort d h p).nextXfer = d.nextXfer := rfl
@[simp] theorem setPort_mem (d : Dev) (h : Nat) (p : HalfPort) : (setPort d h p).mem = d.mem := rfl
@[simp] theorem setPort_parts (d : Dev) (h : Nat) (p : HalfPort) : (setPort d h p).parts = d.parts := rfl
@[simp] theorem setPort_reqs (d : Dev) (h : Nat) (p : HalfPort) : (setPort d h p).reqs = d.reqs := rfl
@[simp] theorem setPort_kvGens (d : Dev) (h : Nat) (p : HalfPort) : (setPort d h p).kvGens = d.kvGens := rfl
@[simp] theorem setPort_colls (d : Dev) (h : Nat) (p : HalfPort) : (setPort d h p).colls = d.colls := rfl
@[simp] theorem setPort_weights (d : Dev) (h : Nat) (p : HalfPort) : (setPort d h p).weights = d.weights := rfl
@[simp] theorem setPort_gov (d : Dev) (h : Nat) (p : HalfPort) : (setPort d h p).gov = d.gov := rfl
@[simp] theorem setPort_tally (d : Dev) (h : Nat) (p : HalfPort) : (setPort d h p).tally = d.tally := rfl

/-! ### setE -/
@[simp] theorem setE_eng (d : Dev) (c i : Nat) (v : EngCtx) : (setE d c i v).eng = smSet {} d.eng (engKey c i) v := rfl
@[simp] theorem setE_now (d : Dev) (c i : Nat) (v : EngCtx) : (setE d c i v).now = d.now := rfl
@[simp] theorem setE_freeCtr (d : Dev) (c i : Nat) (v : EngCtx) : (setE d c i v).freeCtr = d.freeCtr := rfl
@[simp] theorem setE_out (d : Dev) (c i : Nat) (v : EngCtx) : (setE d c i v).out = d.out := rfl
@[simp] theorem setE_pwr (d : Dev) (c i : Nat) (v : EngCtx) : (setE d c i v).pwr = d.pwr := rfl
@[simp] theorem setE_boot (d : Dev) (c i : Nat) (v : EngCtx) : (setE d c i v).boot = d.boot := rfl
@[simp] theorem setE_flashIf (d : Dev) (c i : Nat) (v : EngCtx) : (setE d c i v).flashIf = d.flashIf := rfl
@[simp] theorem setE_host (d : Dev) (c i : Nat) (v : EngCtx) : (setE d c i v).host = d.host := rfl
@[simp] theorem setE_spdm (d : Dev) (c i : Nat) (v : EngCtx) : (setE d c i v).spdm = d.spdm := rfl
@[simp] theorem setE_queues (d : Dev) (c i : Nat) (v : EngCtx) : (setE d c i v).queues = d.queues := rfl
@[simp] theorem setE_cmds (d : Dev) (c i : Nat) (v : EngCtx) : (setE d c i v).cmds = d.cmds := rfl
@[simp] theorem setE_nextCid (d : Dev) (c i : Nat) (v : EngCtx) : (setE d c i v).nextCid = d.nextCid := rfl
@[simp] theorem setE_rr (d : Dev) (c i : Nat) (v : EngCtx) : (setE d c i v).rr = d.rr := rfl
@[simp] theorem setE_tables (d : Dev) (c i : Nat) (v : EngCtx) : (setE d c i v).tables = d.tables := rfl
@[simp] theorem setE_loading (d : Dev) (c i : Nat) (v : EngCtx) : (setE d c i v).loading = d.loading := rfl
@[simp] theorem setE_configGen (d : Dev) (c i : Nat) (v : EngCtx) : (setE d c i v).configGen = d.configGen := rfl
@[simp] theorem setE_ctxs (d : Dev) (c i : Nat) (v : EngCtx) : (setE d c i v).ctxs = d.ctxs := rfl
@[simp] theorem setE_launches (d : Dev) (c i : Nat) (v : EngCtx) : (setE d c i v).launches = d.launches := rfl
@[simp] theorem setE_nextLaunch (d : Dev) (c i : Nat) (v : EngCtx) : (setE d c i v).nextLaunch = d.nextLaunch := rfl
@[simp] theorem setE_running (d : Dev) (c i : Nat) (v : EngCtx) : (setE d c i v).running = d.running := rfl
@[simp] theorem setE_xfers (d : Dev) (c i : Nat) (v : EngCtx) : (setE d c i v).xfers = d.xfers := rfl
@[simp] theorem setE_nextXfer (d : Dev) (c i : Nat) (v : EngCtx) : (setE d c i v).nextXfer = d.nextXfer := rfl
@[simp] theorem setE_mem (d : Dev) (c i : Nat) (v : EngCtx) : (setE d c i v).mem = d.mem := rfl
@[simp] theorem setE_parts (d : Dev) (c i : Nat) (v : EngCtx) : (setE d c i v).parts = d.parts := rfl
@[simp] theorem setE_reqs (d : Dev) (c i : Nat) (v : EngCtx) : (setE d c i v).reqs = d.reqs := rfl
@[simp] theorem setE_kvGens (d : Dev) (c i : Nat) (v : EngCtx) : (setE d c i v).kvGens = d.kvGens := rfl
@[simp] theorem setE_fabric (d : Dev) (c i : Nat) (v : EngCtx) : (setE d c i v).fabric = d.fabric := rfl
@[simp] theorem setE_colls (d : Dev) (c i : Nat) (v : EngCtx) : (setE d c i v).colls = d.colls := rfl
@[simp] theorem setE_weights (d : Dev) (c i : Nat) (v : EngCtx) : (setE d c i v).weights = d.weights := rfl
@[simp] theorem setE_gov (d : Dev) (c i : Nat) (v : EngCtx) : (setE d c i v).gov = d.gov := rfl
@[simp] theorem setE_tally (d : Dev) (c i : Nat) (v : EngCtx) : (setE d c i v).tally = d.tally := rfl

/-! ### modPart -/
@[simp] theorem modPart_parts (d : Dev) (p : Nat) (f : Partn → Partn) : (modPart d p f).parts = smUpd d.parts p f := rfl
@[simp] theorem modPart_now (d : Dev) (p : Nat) (f : Partn → Partn) : (modPart d p f).now = d.now := rfl
@[simp] theorem modPart_freeCtr (d : Dev) (p : Nat) (f : Partn → Partn) : (modPart d p f).freeCtr = d.freeCtr := rfl
@[simp] theorem modPart_out (d : Dev) (p : Nat) (f : Partn → Partn) : (modPart d p f).out = d.out := rfl
@[simp] theorem modPart_pwr (d : Dev) (p : Nat) (f : Partn → Partn) : (modPart d p f).pwr = d.pwr := rfl
@[simp] theorem modPart_boot (d : Dev) (p : Nat) (f : Partn → Partn) : (modPart d p f).boot = d.boot := rfl
@[simp] theorem modPart_flashIf (d : Dev) (p : Nat) (f : Partn → Partn) : (modPart d p f).flashIf = d.flashIf := rfl
@[simp] theorem modPart_host (d : Dev) (p : Nat) (f : Partn → Partn) : (modPart d p f).host = d.host := rfl
@[simp] theorem modPart_spdm (d : Dev) (p : Nat) (f : Partn → Partn) : (modPart d p f).spdm = d.spdm := rfl
@[simp] theorem modPart_queues (d : Dev) (p : Nat) (f : Partn → Partn) : (modPart d p f).queues = d.queues := rfl
@[simp] theorem modPart_cmds (d : Dev) (p : Nat) (f : Partn → Partn) : (modPart d p f).cmds = d.cmds := rfl
@[simp] theorem modPart_nextCid (d : Dev) (p : Nat) (f : Partn → Partn) : (modPart d p f).nextCid = d.nextCid := rfl
@[simp] theorem modPart_rr (d : Dev) (p : Nat) (f : Partn → Partn) : (modPart d p f).rr = d.rr := rfl
@[simp] theorem modPart_tables (d : Dev) (p : Nat) (f : Partn → Partn) : (modPart d p f).tables = d.tables := rfl
@[simp] theorem modPart_loading (d : Dev) (p : Nat) (f : Partn → Partn) : (modPart d p f).loading = d.loading := rfl
@[simp] theorem modPart_configGen (d : Dev) (p : Nat) (f : Partn → Partn) : (modPart d p f).configGen = d.configGen := rfl
@[simp] theorem modPart_ctxs (d : Dev) (p : Nat) (f : Partn → Partn) : (modPart d p f).ctxs = d.ctxs := rfl
@[simp] theorem modPart_eng (d : Dev) (p : Nat) (f : Partn → Partn) : (modPart d p f).eng = d.eng := rfl
@[simp] theorem modPart_launches (d : Dev) (p : Nat) (f : Partn → Partn) : (modPart d p f).launches = d.launches := rfl
@[simp] theorem modPart_nextLaunch (d : Dev) (p : Nat) (f : Partn → Partn) : (modPart d p f).nextLaunch = d.nextLaunch := rfl
@[simp] theorem modPart_running (d : Dev) (p : Nat) (f : Partn → Partn) : (modPart d p f).running = d.running := rfl
@[simp] theorem modPart_xfers (d : Dev) (p : Nat) (f : Partn → Partn) : (modPart d p f).xfers = d.xfers := rfl
@[simp] theorem modPart_nextXfer (d : Dev) (p : Nat) (f : Partn → Partn) : (modPart d p f).nextXfer = d.nextXfer := rfl
@[simp] theorem modPart_mem (d : Dev) (p : Nat) (f : Partn → Partn) : (modPart d p f).mem = d.mem := rfl
@[simp] theorem modPart_reqs (d : Dev) (p : Nat) (f : Partn → Partn) : (modPart d p f).reqs = d.reqs := rfl
@[simp] theorem modPart_kvGens (d : Dev) (p : Nat) (f : Partn → Partn) : (modPart d p f).kvGens = d.kvGens := rfl
@[simp] theorem modPart_fabric (d : Dev) (p : Nat) (f : Partn → Partn) : (modPart d p f).fabric = d.fabric := rfl
@[simp] theorem modPart_colls (d : Dev) (p : Nat) (f : Partn → Partn) : (modPart d p f).colls = d.colls := rfl
@[simp] theorem modPart_weights (d : Dev) (p : Nat) (f : Partn → Partn) : (modPart d p f).weights = d.weights := rfl
@[simp] theorem modPart_gov (d : Dev) (p : Nat) (f : Partn → Partn) : (modPart d p f).gov = d.gov := rfl
@[simp] theorem modPart_tally (d : Dev) (p : Nat) (f : Partn → Partn) : (modPart d p f).tally = d.tally := rfl

/-! ### finishCmd -/
@[simp] theorem finishCmd_now (d : Dev) (c st dt : Nat) (r : List (Nat × Nat × Nat)) (o : Option (List Byte)) : (finishCmd d c st dt r o).now = d.now := rfl
@[simp] theorem finishCmd_freeCtr (d : Dev) (c st dt : Nat) (r : List (Nat × Nat × Nat)) (o : Option (List Byte)) : (finishCmd d c st dt r o).freeCtr = d.freeCtr := rfl
@[simp] theorem finishCmd_out (d : Dev) (c st dt : Nat) (r : List (Nat × Nat × Nat)) (o : Option (List Byte)) : (finishCmd d c st dt r o).out = d.out := rfl
@[simp] theorem finishCmd_pwr (d : Dev) (c st dt : Nat) (r : List (Nat × Nat × Nat)) (o : Option (List Byte)) : (finishCmd d c st dt r o).pwr = d.pwr := rfl
@[simp] theorem finishCmd_boot (d : Dev) (c st dt : Nat) (r : List (Nat × Nat × Nat)) (o : Option (List Byte)) : (finishCmd d c st dt r o).boot = d.boot := rfl
@[simp] theorem finishCmd_flashIf (d : Dev) (c st dt : Nat) (r : List (Nat × Nat × Nat)) (o : Option (List Byte)) : (finishCmd d c st dt r o).flashIf = d.flashIf := rfl
@[simp] theorem finishCmd_host (d : Dev) (c st dt : Nat) (r : List (Nat × Nat × Nat)) (o : Option (List Byte)) : (finishCmd d c st dt r o).host = d.host := rfl
@[simp] theorem finishCmd_spdm (d : Dev) (c st dt : Nat) (r : List (Nat × Nat × Nat)) (o : Option (List Byte)) : (finishCmd d c st dt r o).spdm = d.spdm := rfl
@[simp] theorem finishCmd_queues (d : Dev) (c st dt : Nat) (r : List (Nat × Nat × Nat)) (o : Option (List Byte)) : (finishCmd d c st dt r o).queues = d.queues := rfl
@[simp] theorem finishCmd_nextCid (d : Dev) (c st dt : Nat) (r : List (Nat × Nat × Nat)) (o : Option (List Byte)) : (finishCmd d c st dt r o).nextCid = d.nextCid := rfl
@[simp] theorem finishCmd_rr (d : Dev) (c st dt : Nat) (r : List (Nat × Nat × Nat)) (o : Option (List Byte)) : (finishCmd d c st dt r o).rr = d.rr := rfl
@[simp] theorem finishCmd_tables (d : Dev) (c st dt : Nat) (r : List (Nat × Nat × Nat)) (o : Option (List Byte)) : (finishCmd d c st dt r o).tables = d.tables := rfl
@[simp] theorem finishCmd_loading (d : Dev) (c st dt : Nat) (r : List (Nat × Nat × Nat)) (o : Option (List Byte)) : (finishCmd d c st dt r o).loading = d.loading := rfl
@[simp] theorem finishCmd_configGen (d : Dev) (c st dt : Nat) (r : List (Nat × Nat × Nat)) (o : Option (List Byte)) : (finishCmd d c st dt r o).configGen = d.configGen := rfl
@[simp] theorem finishCmd_ctxs (d : Dev) (c st dt : Nat) (r : List (Nat × Nat × Nat)) (o : Option (List Byte)) : (finishCmd d c st dt r o).ctxs = d.ctxs := rfl
@[simp] theorem finishCmd_eng (d : Dev) (c st dt : Nat) (r : List (Nat × Nat × Nat)) (o : Option (List Byte)) : (finishCmd d c st dt r o).eng = d.eng := rfl
@[simp] theorem finishCmd_launches (d : Dev) (c st dt : Nat) (r : List (Nat × Nat × Nat)) (o : Option (List Byte)) : (finishCmd d c st dt r o).launches = d.launches := rfl
@[simp] theorem finishCmd_nextLaunch (d : Dev) (c st dt : Nat) (r : List (Nat × Nat × Nat)) (o : Option (List Byte)) : (finishCmd d c st dt r o).nextLaunch = d.nextLaunch := rfl
@[simp] theorem finishCmd_running (d : Dev) (c st dt : Nat) (r : List (Nat × Nat × Nat)) (o : Option (List Byte)) : (finishCmd d c st dt r o).running = d.running := rfl
@[simp] theorem finishCmd_xfers (d : Dev) (c st dt : Nat) (r : List (Nat × Nat × Nat)) (o : Option (List Byte)) : (finishCmd d c st dt r o).xfers = d.xfers := rfl
@[simp] theorem finishCmd_nextXfer (d : Dev) (c st dt : Nat) (r : List (Nat × Nat × Nat)) (o : Option (List Byte)) : (finishCmd d c st dt r o).nextXfer = d.nextXfer := rfl
@[simp] theorem finishCmd_mem (d : Dev) (c st dt : Nat) (r : List (Nat × Nat × Nat)) (o : Option (List Byte)) : (finishCmd d c st dt r o).mem = d.mem := rfl
@[simp] theorem finishCmd_parts (d : Dev) (c st dt : Nat) (r : List (Nat × Nat × Nat)) (o : Option (List Byte)) : (finishCmd d c st dt r o).parts = d.parts := rfl
@[simp] theorem finishCmd_reqs (d : Dev) (c st dt : Nat) (r : List (Nat × Nat × Nat)) (o : Option (List Byte)) : (finishCmd d c st dt r o).reqs = d.reqs := rfl
@[simp] theorem finishCmd_kvGens (d : Dev) (c st dt : Nat) (r : List (Nat × Nat × Nat)) (o : Option (List Byte)) : (finishCmd d c st dt r o).kvGens = d.kvGens := rfl
@[simp] theorem finishCmd_fabric (d : Dev) (c st dt : Nat) (r : List (Nat × Nat × Nat)) (o : Option (List Byte)) : (finishCmd d c st dt r o).fabric = d.fabric := rfl
@[simp] theorem finishCmd_colls (d : Dev) (c st dt : Nat) (r : List (Nat × Nat × Nat)) (o : Option (List Byte)) : (finishCmd d c st dt r o).colls = d.colls := rfl
@[simp] theorem finishCmd_weights (d : Dev) (c st dt : Nat) (r : List (Nat × Nat × Nat)) (o : Option (List Byte)) : (finishCmd d c st dt r o).weights = d.weights := rfl
@[simp] theorem finishCmd_gov (d : Dev) (c st dt : Nat) (r : List (Nat × Nat × Nat)) (o : Option (List Byte)) : (finishCmd d c st dt r o).gov = d.gov := rfl
@[simp] theorem finishCmd_tally (d : Dev) (c st dt : Nat) (r : List (Nat × Nat × Nat)) (o : Option (List Byte)) : (finishCmd d c st dt r o).tally = d.tally := rfl

/-! ### finishRaw -/
@[simp] theorem finishRaw_now (d : Dev) (c st dt : Nat) (r : BitVec 160) : (finishRaw d c st dt r).now = d.now := rfl
@[simp] theorem finishRaw_freeCtr (d : Dev) (c st dt : Nat) (r : BitVec 160) : (finishRaw d c st dt r).freeCtr = d.freeCtr := rfl
@[simp] theorem finishRaw_out (d : Dev) (c st dt : Nat) (r : BitVec 160) : (finishRaw d c st dt r).out = d.out := rfl
@[simp] theorem finishRaw_pwr (d : Dev) (c st dt : Nat) (r : BitVec 160) : (finishRaw d c st dt r).pwr = d.pwr := rfl
@[simp] theorem finishRaw_boot (d : Dev) (c st dt : Nat) (r : BitVec 160) : (finishRaw d c st dt r).boot = d.boot := rfl
@[simp] theorem finishRaw_flashIf (d : Dev) (c st dt : Nat) (r : BitVec 160) : (finishRaw d c st dt r).flashIf = d.flashIf := rfl
@[simp] theorem finishRaw_host (d : Dev) (c st dt : Nat) (r : BitVec 160) : (finishRaw d c st dt r).host = d.host := rfl
@[simp] theorem finishRaw_spdm (d : Dev) (c st dt : Nat) (r : BitVec 160) : (finishRaw d c st dt r).spdm = d.spdm := rfl
@[simp] theorem finishRaw_queues (d : Dev) (c st dt : Nat) (r : BitVec 160) : (finishRaw d c st dt r).queues = d.queues := rfl
@[simp] theorem finishRaw_nextCid (d : Dev) (c st dt : Nat) (r : BitVec 160) : (finishRaw d c st dt r).nextCid = d.nextCid := rfl
@[simp] theorem finishRaw_rr (d : Dev) (c st dt : Nat) (r : BitVec 160) : (finishRaw d c st dt r).rr = d.rr := rfl
@[simp] theorem finishRaw_tables (d : Dev) (c st dt : Nat) (r : BitVec 160) : (finishRaw d c st dt r).tables = d.tables := rfl
@[simp] theorem finishRaw_loading (d : Dev) (c st dt : Nat) (r : BitVec 160) : (finishRaw d c st dt r).loading = d.loading := rfl
@[simp] theorem finishRaw_configGen (d : Dev) (c st dt : Nat) (r : BitVec 160) : (finishRaw d c st dt r).configGen = d.configGen := rfl
@[simp] theorem finishRaw_ctxs (d : Dev) (c st dt : Nat) (r : BitVec 160) : (finishRaw d c st dt r).ctxs = d.ctxs := rfl
@[simp] theorem finishRaw_eng (d : Dev) (c st dt : Nat) (r : BitVec 160) : (finishRaw d c st dt r).eng = d.eng := rfl
@[simp] theorem finishRaw_launches (d : Dev) (c st dt : Nat) (r : BitVec 160) : (finishRaw d c st dt r).launches = d.launches := rfl
@[simp] theorem finishRaw_nextLaunch (d : Dev) (c st dt : Nat) (r : BitVec 160) : (finishRaw d c st dt r).nextLaunch = d.nextLaunch := rfl
@[simp] theorem finishRaw_running (d : Dev) (c st dt : Nat) (r : BitVec 160) : (finishRaw d c st dt r).running = d.running := rfl
@[simp] theorem finishRaw_xfers (d : Dev) (c st dt : Nat) (r : BitVec 160) : (finishRaw d c st dt r).xfers = d.xfers := rfl
@[simp] theorem finishRaw_nextXfer (d : Dev) (c st dt : Nat) (r : BitVec 160) : (finishRaw d c st dt r).nextXfer = d.nextXfer := rfl
@[simp] theorem finishRaw_mem (d : Dev) (c st dt : Nat) (r : BitVec 160) : (finishRaw d c st dt r).mem = d.mem := rfl
@[simp] theorem finishRaw_parts (d : Dev) (c st dt : Nat) (r : BitVec 160) : (finishRaw d c st dt r).parts = d.parts := rfl
@[simp] theorem finishRaw_reqs (d : Dev) (c st dt : Nat) (r : BitVec 160) : (finishRaw d c st dt r).reqs = d.reqs := rfl
@[simp] theorem finishRaw_kvGens (d : Dev) (c st dt : Nat) (r : BitVec 160) : (finishRaw d c st dt r).kvGens = d.kvGens := rfl
@[simp] theorem finishRaw_fabric (d : Dev) (c st dt : Nat) (r : BitVec 160) : (finishRaw d c st dt r).fabric = d.fabric := rfl
@[simp] theorem finishRaw_colls (d : Dev) (c st dt : Nat) (r : BitVec 160) : (finishRaw d c st dt r).colls = d.colls := rfl
@[simp] theorem finishRaw_weights (d : Dev) (c st dt : Nat) (r : BitVec 160) : (finishRaw d c st dt r).weights = d.weights := rfl
@[simp] theorem finishRaw_gov (d : Dev) (c st dt : Nat) (r : BitVec 160) : (finishRaw d c st dt r).gov = d.gov := rfl
@[simp] theorem finishRaw_tally (d : Dev) (c st dt : Nat) (r : BitVec 160) : (finishRaw d c st dt r).tally = d.tally := rfl

/-! ### tallySend -/
@[simp] theorem tallySend_now (d : Dev) (u : TUpd) : (tallySend d u).now = d.now := rfl
@[simp] theorem tallySend_freeCtr (d : Dev) (u : TUpd) : (tallySend d u).freeCtr = d.freeCtr := rfl
@[simp] theorem tallySend_out (d : Dev) (u : TUpd) : (tallySend d u).out = d.out := rfl
@[simp] theorem tallySend_pwr (d : Dev) (u : TUpd) : (tallySend d u).pwr = d.pwr := rfl
@[simp] theorem tallySend_boot (d : Dev) (u : TUpd) : (tallySend d u).boot = d.boot := rfl
@[simp] theorem tallySend_flashIf (d : Dev) (u : TUpd) : (tallySend d u).flashIf = d.flashIf := rfl
@[simp] theorem tallySend_host (d : Dev) (u : TUpd) : (tallySend d u).host = d.host := rfl
@[simp] theorem tallySend_spdm (d : Dev) (u : TUpd) : (tallySend d u).spdm = d.spdm := rfl
@[simp] theorem tallySend_queues (d : Dev) (u : TUpd) : (tallySend d u).queues = d.queues := rfl
@[simp] theorem tallySend_cmds (d : Dev) (u : TUpd) : (tallySend d u).cmds = d.cmds := rfl
@[simp] theorem tallySend_nextCid (d : Dev) (u : TUpd) : (tallySend d u).nextCid = d.nextCid := rfl
@[simp] theorem tallySend_rr (d : Dev) (u : TUpd) : (tallySend d u).rr = d.rr := rfl
@[simp] theorem tallySend_tables (d : Dev) (u : TUpd) : (tallySend d u).tables = d.tables := rfl
@[simp] theorem tallySend_loading (d : Dev) (u : TUpd) : (tallySend d u).loading = d.loading := rfl
@[simp] theorem tallySend_configGen (d : Dev) (u : TUpd) : (tallySend d u).configGen = d.configGen := rfl
@[simp] theorem tallySend_ctxs (d : Dev) (u : TUpd) : (tallySend d u).ctxs = d.ctxs := rfl
@[simp] theorem tallySend_eng (d : Dev) (u : TUpd) : (tallySend d u).eng = d.eng := rfl
@[simp] theorem tallySend_launches (d : Dev) (u : TUpd) : (tallySend d u).launches = d.launches := rfl
@[simp] theorem tallySend_nextLaunch (d : Dev) (u : TUpd) : (tallySend d u).nextLaunch = d.nextLaunch := rfl
@[simp] theorem tallySend_running (d : Dev) (u : TUpd) : (tallySend d u).running = d.running := rfl
@[simp] theorem tallySend_xfers (d : Dev) (u : TUpd) : (tallySend d u).xfers = d.xfers := rfl
@[simp] theorem tallySend_nextXfer (d : Dev) (u : TUpd) : (tallySend d u).nextXfer = d.nextXfer := rfl
@[simp] theorem tallySend_mem (d : Dev) (u : TUpd) : (tallySend d u).mem = d.mem := rfl
@[simp] theorem tallySend_parts (d : Dev) (u : TUpd) : (tallySend d u).parts = d.parts := rfl
@[simp] theorem tallySend_reqs (d : Dev) (u : TUpd) : (tallySend d u).reqs = d.reqs := rfl
@[simp] theorem tallySend_kvGens (d : Dev) (u : TUpd) : (tallySend d u).kvGens = d.kvGens := rfl
@[simp] theorem tallySend_fabric (d : Dev) (u : TUpd) : (tallySend d u).fabric = d.fabric := rfl
@[simp] theorem tallySend_colls (d : Dev) (u : TUpd) : (tallySend d u).colls = d.colls := rfl
@[simp] theorem tallySend_weights (d : Dev) (u : TUpd) : (tallySend d u).weights = d.weights := rfl
@[simp] theorem tallySend_gov (d : Dev) (u : TUpd) : (tallySend d u).gov = d.gov := rfl

/-! ### setPhase -/
@[simp] theorem setPhase_now (d : Dev) (c : Nat) (p : CmdPhase) : (setPhase d c p).now = d.now := rfl
@[simp] theorem setPhase_freeCtr (d : Dev) (c : Nat) (p : CmdPhase) : (setPhase d c p).freeCtr = d.freeCtr := rfl
@[simp] theorem setPhase_out (d : Dev) (c : Nat) (p : CmdPhase) : (setPhase d c p).out = d.out := rfl
@[simp] theorem setPhase_pwr (d : Dev) (c : Nat) (p : CmdPhase) : (setPhase d c p).pwr = d.pwr := rfl
@[simp] theorem setPhase_boot (d : Dev) (c : Nat) (p : CmdPhase) : (setPhase d c p).boot = d.boot := rfl
@[simp] theorem setPhase_flashIf (d : Dev) (c : Nat) (p : CmdPhase) : (setPhase d c p).flashIf = d.flashIf := rfl
@[simp] theorem setPhase_host (d : Dev) (c : Nat) (p : CmdPhase) : (setPhase d c p).host = d.host := rfl
@[simp] theorem setPhase_spdm (d : Dev) (c : Nat) (p : CmdPhase) : (setPhase d c p).spdm = d.spdm := rfl
@[simp] theorem setPhase_queues (d : Dev) (c : Nat) (p : CmdPhase) : (setPhase d c p).queues = d.queues := rfl
@[simp] theorem setPhase_nextCid (d : Dev) (c : Nat) (p : CmdPhase) : (setPhase d c p).nextCid = d.nextCid := rfl
@[simp] theorem setPhase_rr (d : Dev) (c : Nat) (p : CmdPhase) : (setPhase d c p).rr = d.rr := rfl
@[simp] theorem setPhase_tables (d : Dev) (c : Nat) (p : CmdPhase) : (setPhase d c p).tables = d.tables := rfl
@[simp] theorem setPhase_loading (d : Dev) (c : Nat) (p : CmdPhase) : (setPhase d c p).loading = d.loading := rfl
@[simp] theorem setPhase_configGen (d : Dev) (c : Nat) (p : CmdPhase) : (setPhase d c p).configGen = d.configGen := rfl
@[simp] theorem setPhase_ctxs (d : Dev) (c : Nat) (p : CmdPhase) : (setPhase d c p).ctxs = d.ctxs := rfl
@[simp] theorem setPhase_eng (d : Dev) (c : Nat) (p : CmdPhase) : (setPhase d c p).eng = d.eng := rfl
@[simp] theorem setPhase_launches (d : Dev) (c : Nat) (p : CmdPhase) : (setPhase d c p).launches = d.launches := rfl
@[simp] theorem setPhase_nextLaunch (d : Dev) (c : Nat) (p : CmdPhase) : (setPhase d c p).nextLaunch = d.nextLaunch := rfl
@[simp] theorem setPhase_running (d : Dev) (c : Nat) (p : CmdPhase) : (setPhase d c p).running = d.running := rfl
@[simp] theorem setPhase_xfers (d : Dev) (c : Nat) (p : CmdPhase) : (setPhase d c p).xfers = d.xfers := rfl
@[simp] theorem setPhase_nextXfer (d : Dev) (c : Nat) (p : CmdPhase) : (setPhase d c p).nextXfer = d.nextXfer := rfl
@[simp] theorem setPhase_mem (d : Dev) (c : Nat) (p : CmdPhase) : (setPhase d c p).mem = d.mem := rfl
@[simp] theorem setPhase_parts (d : Dev) (c : Nat) (p : CmdPhase) : (setPhase d c p).parts = d.parts := rfl
@[simp] theorem setPhase_reqs (d : Dev) (c : Nat) (p : CmdPhase) : (setPhase d c p).reqs = d.reqs := rfl
@[simp] theorem setPhase_kvGens (d : Dev) (c : Nat) (p : CmdPhase) : (setPhase d c p).kvGens = d.kvGens := rfl
@[simp] theorem setPhase_fabric (d : Dev) (c : Nat) (p : CmdPhase) : (setPhase d c p).fabric = d.fabric := rfl
@[simp] theorem setPhase_colls (d : Dev) (c : Nat) (p : CmdPhase) : (setPhase d c p).colls = d.colls := rfl
@[simp] theorem setPhase_weights (d : Dev) (c : Nat) (p : CmdPhase) : (setPhase d c p).weights = d.weights := rfl
@[simp] theorem setPhase_gov (d : Dev) (c : Nat) (p : CmdPhase) : (setPhase d c p).gov = d.gov := rfl
@[simp] theorem setPhase_tally (d : Dev) (c : Nat) (p : CmdPhase) : (setPhase d c p).tally = d.tally := rfl

/-! ### modPool -/
@[simp] theorem modPool_now (d : Dev) (c n : Nat) (f : KvPool → KvPool) : (modPool d c n f).now = d.now := rfl
@[simp] theorem modPool_freeCtr (d : Dev) (c n : Nat) (f : KvPool → KvPool) : (modPool d c n f).freeCtr = d.freeCtr := rfl
@[simp] theorem modPool_out (d : Dev) (c n : Nat) (f : KvPool → KvPool) : (modPool d c n f).out = d.out := rfl
@[simp] theorem modPool_pwr (d : Dev) (c n : Nat) (f : KvPool → KvPool) : (modPool d c n f).pwr = d.pwr := rfl
@[simp] theorem modPool_boot (d : Dev) (c n : Nat) (f : KvPool → KvPool) : (modPool d c n f).boot = d.boot := rfl
@[simp] theorem modPool_flashIf (d : Dev) (c n : Nat) (f : KvPool → KvPool) : (modPool d c n f).flashIf = d.flashIf := rfl
@[simp] theorem modPool_host (d : Dev) (c n : Nat) (f : KvPool → KvPool) : (modPool d c n f).host = d.host := rfl
@[simp] theorem modPool_spdm (d : Dev) (c n : Nat) (f : KvPool → KvPool) : (modPool d c n f).spdm = d.spdm := rfl
@[simp] theorem modPool_queues (d : Dev) (c n : Nat) (f : KvPool → KvPool) : (modPool d c n f).queues = d.queues := rfl
@[simp] theorem modPool_cmds (d : Dev) (c n : Nat) (f : KvPool → KvPool) : (modPool d c n f).cmds = d.cmds := rfl
@[simp] theorem modPool_nextCid (d : Dev) (c n : Nat) (f : KvPool → KvPool) : (modPool d c n f).nextCid = d.nextCid := rfl
@[simp] theorem modPool_rr (d : Dev) (c n : Nat) (f : KvPool → KvPool) : (modPool d c n f).rr = d.rr := rfl
@[simp] theorem modPool_tables (d : Dev) (c n : Nat) (f : KvPool → KvPool) : (modPool d c n f).tables = d.tables := rfl
@[simp] theorem modPool_loading (d : Dev) (c n : Nat) (f : KvPool → KvPool) : (modPool d c n f).loading = d.loading := rfl
@[simp] theorem modPool_configGen (d : Dev) (c n : Nat) (f : KvPool → KvPool) : (modPool d c n f).configGen = d.configGen := rfl
@[simp] theorem modPool_eng (d : Dev) (c n : Nat) (f : KvPool → KvPool) : (modPool d c n f).eng = d.eng := rfl
@[simp] theorem modPool_launches (d : Dev) (c n : Nat) (f : KvPool → KvPool) : (modPool d c n f).launches = d.launches := rfl
@[simp] theorem modPool_nextLaunch (d : Dev) (c n : Nat) (f : KvPool → KvPool) : (modPool d c n f).nextLaunch = d.nextLaunch := rfl
@[simp] theorem modPool_running (d : Dev) (c n : Nat) (f : KvPool → KvPool) : (modPool d c n f).running = d.running := rfl
@[simp] theorem modPool_xfers (d : Dev) (c n : Nat) (f : KvPool → KvPool) : (modPool d c n f).xfers = d.xfers := rfl
@[simp] theorem modPool_nextXfer (d : Dev) (c n : Nat) (f : KvPool → KvPool) : (modPool d c n f).nextXfer = d.nextXfer := rfl
@[simp] theorem modPool_mem (d : Dev) (c n : Nat) (f : KvPool → KvPool) : (modPool d c n f).mem = d.mem := rfl
@[simp] theorem modPool_parts (d : Dev) (c n : Nat) (f : KvPool → KvPool) : (modPool d c n f).parts = d.parts := rfl
@[simp] theorem modPool_reqs (d : Dev) (c n : Nat) (f : KvPool → KvPool) : (modPool d c n f).reqs = d.reqs := rfl
@[simp] theorem modPool_kvGens (d : Dev) (c n : Nat) (f : KvPool → KvPool) : (modPool d c n f).kvGens = d.kvGens := rfl
@[simp] theorem modPool_fabric (d : Dev) (c n : Nat) (f : KvPool → KvPool) : (modPool d c n f).fabric = d.fabric := rfl
@[simp] theorem modPool_colls (d : Dev) (c n : Nat) (f : KvPool → KvPool) : (modPool d c n f).colls = d.colls := rfl
@[simp] theorem modPool_weights (d : Dev) (c n : Nat) (f : KvPool → KvPool) : (modPool d c n f).weights = d.weights := rfl
@[simp] theorem modPool_gov (d : Dev) (c n : Nat) (f : KvPool → KvPool) : (modPool d c n f).gov = d.gov := rfl
@[simp] theorem modPool_tally (d : Dev) (c n : Nat) (f : KvPool → KvPool) : (modPool d c n f).tally = d.tally := rfl

/-! ### modSeq -/
@[simp] theorem modSeq_now (d : Dev) (c n k : Nat) (f : KvSeq → KvSeq) : (modSeq d c n k f).now = d.now := rfl
@[simp] theorem modSeq_freeCtr (d : Dev) (c n k : Nat) (f : KvSeq → KvSeq) : (modSeq d c n k f).freeCtr = d.freeCtr := rfl
@[simp] theorem modSeq_out (d : Dev) (c n k : Nat) (f : KvSeq → KvSeq) : (modSeq d c n k f).out = d.out := rfl
@[simp] theorem modSeq_pwr (d : Dev) (c n k : Nat) (f : KvSeq → KvSeq) : (modSeq d c n k f).pwr = d.pwr := rfl
@[simp] theorem modSeq_boot (d : Dev) (c n k : Nat) (f : KvSeq → KvSeq) : (modSeq d c n k f).boot = d.boot := rfl
@[simp] theorem modSeq_flashIf (d : Dev) (c n k : Nat) (f : KvSeq → KvSeq) : (modSeq d c n k f).flashIf = d.flashIf := rfl
@[simp] theorem modSeq_host (d : Dev) (c n k : Nat) (f : KvSeq → KvSeq) : (modSeq d c n k f).host = d.host := rfl
@[simp] theorem modSeq_spdm (d : Dev) (c n k : Nat) (f : KvSeq → KvSeq) : (modSeq d c n k f).spdm = d.spdm := rfl
@[simp] theorem modSeq_queues (d : Dev) (c n k : Nat) (f : KvSeq → KvSeq) : (modSeq d c n k f).queues = d.queues := rfl
@[simp] theorem modSeq_cmds (d : Dev) (c n k : Nat) (f : KvSeq → KvSeq) : (modSeq d c n k f).cmds = d.cmds := rfl
@[simp] theorem modSeq_nextCid (d : Dev) (c n k : Nat) (f : KvSeq → KvSeq) : (modSeq d c n k f).nextCid = d.nextCid := rfl
@[simp] theorem modSeq_rr (d : Dev) (c n k : Nat) (f : KvSeq → KvSeq) : (modSeq d c n k f).rr = d.rr := rfl
@[simp] theorem modSeq_tables (d : Dev) (c n k : Nat) (f : KvSeq → KvSeq) : (modSeq d c n k f).tables = d.tables := rfl
@[simp] theorem modSeq_loading (d : Dev) (c n k : Nat) (f : KvSeq → KvSeq) : (modSeq d c n k f).loading = d.loading := rfl
@[simp] theorem modSeq_configGen (d : Dev) (c n k : Nat) (f : KvSeq → KvSeq) : (modSeq d c n k f).configGen = d.configGen := rfl
@[simp] theorem modSeq_eng (d : Dev) (c n k : Nat) (f : KvSeq → KvSeq) : (modSeq d c n k f).eng = d.eng := rfl
@[simp] theorem modSeq_launches (d : Dev) (c n k : Nat) (f : KvSeq → KvSeq) : (modSeq d c n k f).launches = d.launches := rfl
@[simp] theorem modSeq_nextLaunch (d : Dev) (c n k : Nat) (f : KvSeq → KvSeq) : (modSeq d c n k f).nextLaunch = d.nextLaunch := rfl
@[simp] theorem modSeq_running (d : Dev) (c n k : Nat) (f : KvSeq → KvSeq) : (modSeq d c n k f).running = d.running := rfl
@[simp] theorem modSeq_xfers (d : Dev) (c n k : Nat) (f : KvSeq → KvSeq) : (modSeq d c n k f).xfers = d.xfers := rfl
@[simp] theorem modSeq_nextXfer (d : Dev) (c n k : Nat) (f : KvSeq → KvSeq) : (modSeq d c n k f).nextXfer = d.nextXfer := rfl
@[simp] theorem modSeq_mem (d : Dev) (c n k : Nat) (f : KvSeq → KvSeq) : (modSeq d c n k f).mem = d.mem := rfl
@[simp] theorem modSeq_parts (d : Dev) (c n k : Nat) (f : KvSeq → KvSeq) : (modSeq d c n k f).parts = d.parts := rfl
@[simp] theorem modSeq_reqs (d : Dev) (c n k : Nat) (f : KvSeq → KvSeq) : (modSeq d c n k f).reqs = d.reqs := rfl
@[simp] theorem modSeq_kvGens (d : Dev) (c n k : Nat) (f : KvSeq → KvSeq) : (modSeq d c n k f).kvGens = d.kvGens := rfl
@[simp] theorem modSeq_fabric (d : Dev) (c n k : Nat) (f : KvSeq → KvSeq) : (modSeq d c n k f).fabric = d.fabric := rfl
@[simp] theorem modSeq_colls (d : Dev) (c n k : Nat) (f : KvSeq → KvSeq) : (modSeq d c n k f).colls = d.colls := rfl
@[simp] theorem modSeq_weights (d : Dev) (c n k : Nat) (f : KvSeq → KvSeq) : (modSeq d c n k f).weights = d.weights := rfl
@[simp] theorem modSeq_gov (d : Dev) (c n k : Nat) (f : KvSeq → KvSeq) : (modSeq d c n k f).gov = d.gov := rfl
@[simp] theorem modSeq_tally (d : Dev) (c n k : Nat) (f : KvSeq → KvSeq) : (modSeq d c n k f).tally = d.tally := rfl

/-! ### modReq -/
@[simp] theorem modReq_now (d : Dev) (k : Nat) (f : Req → Req) : (modReq d k f).now = d.now := rfl
@[simp] theorem modReq_freeCtr (d : Dev) (k : Nat) (f : Req → Req) : (modReq d k f).freeCtr = d.freeCtr := rfl
@[simp] theorem modReq_out (d : Dev) (k : Nat) (f : Req → Req) : (modReq d k f).out = d.out := rfl
@[simp] theorem modReq_pwr (d : Dev) (k : Nat) (f : Req → Req) : (modReq d k f).pwr = d.pwr := rfl
@[simp] theorem modReq_boot (d : Dev) (k : Nat) (f : Req → Req) : (modReq d k f).boot = d.boot := rfl
@[simp] theorem modReq_flashIf (d : Dev) (k : Nat) (f : Req → Req) : (modReq d k f).flashIf = d.flashIf := rfl
@[simp] theorem modReq_host (d : Dev) (k : Nat) (f : Req → Req) : (modReq d k f).host = d.host := rfl
@[simp] theorem modReq_spdm (d : Dev) (k : Nat) (f : Req → Req) : (modReq d k f).spdm = d.spdm := rfl
@[simp] theorem modReq_queues (d : Dev) (k : Nat) (f : Req → Req) : (modReq d k f).queues = d.queues := rfl
@[simp] theorem modReq_cmds (d : Dev) (k : Nat) (f : Req → Req) : (modReq d k f).cmds = d.cmds := rfl
@[simp] theorem modReq_nextCid (d : Dev) (k : Nat) (f : Req → Req) : (modReq d k f).nextCid = d.nextCid := rfl
@[simp] theorem modReq_rr (d : Dev) (k : Nat) (f : Req → Req) : (modReq d k f).rr = d.rr := rfl
@[simp] theorem modReq_tables (d : Dev) (k : Nat) (f : Req → Req) : (modReq d k f).tables = d.tables := rfl
@[simp] theorem modReq_loading (d : Dev) (k : Nat) (f : Req → Req) : (modReq d k f).loading = d.loading := rfl
@[simp] theorem modReq_configGen (d : Dev) (k : Nat) (f : Req → Req) : (modReq d k f).configGen = d.configGen := rfl
@[simp] theorem modReq_ctxs (d : Dev) (k : Nat) (f : Req → Req) : (modReq d k f).ctxs = d.ctxs := rfl
@[simp] theorem modReq_eng (d : Dev) (k : Nat) (f : Req → Req) : (modReq d k f).eng = d.eng := rfl
@[simp] theorem modReq_launches (d : Dev) (k : Nat) (f : Req → Req) : (modReq d k f).launches = d.launches := rfl
@[simp] theorem modReq_nextLaunch (d : Dev) (k : Nat) (f : Req → Req) : (modReq d k f).nextLaunch = d.nextLaunch := rfl
@[simp] theorem modReq_running (d : Dev) (k : Nat) (f : Req → Req) : (modReq d k f).running = d.running := rfl
@[simp] theorem modReq_xfers (d : Dev) (k : Nat) (f : Req → Req) : (modReq d k f).xfers = d.xfers := rfl
@[simp] theorem modReq_nextXfer (d : Dev) (k : Nat) (f : Req → Req) : (modReq d k f).nextXfer = d.nextXfer := rfl
@[simp] theorem modReq_mem (d : Dev) (k : Nat) (f : Req → Req) : (modReq d k f).mem = d.mem := rfl
@[simp] theorem modReq_parts (d : Dev) (k : Nat) (f : Req → Req) : (modReq d k f).parts = d.parts := rfl
@[simp] theorem modReq_reqs (d : Dev) (k : Nat) (f : Req → Req) : (modReq d k f).reqs = smPut d.reqs k (f (getReq d k)) := rfl
@[simp] theorem modReq_kvGens (d : Dev) (k : Nat) (f : Req → Req) : (modReq d k f).kvGens = d.kvGens := rfl
@[simp] theorem modReq_fabric (d : Dev) (k : Nat) (f : Req → Req) : (modReq d k f).fabric = d.fabric := rfl
@[simp] theorem modReq_colls (d : Dev) (k : Nat) (f : Req → Req) : (modReq d k f).colls = d.colls := rfl
@[simp] theorem modReq_weights (d : Dev) (k : Nat) (f : Req → Req) : (modReq d k f).weights = d.weights := rfl
@[simp] theorem modReq_gov (d : Dev) (k : Nat) (f : Req → Req) : (modReq d k f).gov = d.gov := rfl
@[simp] theorem modReq_tally (d : Dev) (k : Nat) (f : Req → Req) : (modReq d k f).tally = d.tally := rfl

/-! ### modServe -/
@[simp] theorem modServe_now (d : Dev) (c : Nat) (f : Serve → Serve) : (modServe d c f).now = d.now := rfl
@[simp] theorem modServe_freeCtr (d : Dev) (c : Nat) (f : Serve → Serve) : (modServe d c f).freeCtr = d.freeCtr := rfl
@[simp] theorem modServe_out (d : Dev) (c : Nat) (f : Serve → Serve) : (modServe d c f).out = d.out := rfl
@[simp] theorem modServe_pwr (d : Dev) (c : Nat) (f : Serve → Serve) : (modServe d c f).pwr = d.pwr := rfl
@[simp] theorem modServe_boot (d : Dev) (c : Nat) (f : Serve → Serve) : (modServe d c f).boot = d.boot := rfl
@[simp] theorem modServe_flashIf (d : Dev) (c : Nat) (f : Serve → Serve) : (modServe d c f).flashIf = d.flashIf := rfl
@[simp] theorem modServe_host (d : Dev) (c : Nat) (f : Serve → Serve) : (modServe d c f).host = d.host := rfl
@[simp] theorem modServe_spdm (d : Dev) (c : Nat) (f : Serve → Serve) : (modServe d c f).spdm = d.spdm := rfl
@[simp] theorem modServe_queues (d : Dev) (c : Nat) (f : Serve → Serve) : (modServe d c f).queues = d.queues := rfl
@[simp] theorem modServe_cmds (d : Dev) (c : Nat) (f : Serve → Serve) : (modServe d c f).cmds = d.cmds := rfl
@[simp] theorem modServe_nextCid (d : Dev) (c : Nat) (f : Serve → Serve) : (modServe d c f).nextCid = d.nextCid := rfl
@[simp] theorem modServe_rr (d : Dev) (c : Nat) (f : Serve → Serve) : (modServe d c f).rr = d.rr := rfl
@[simp] theorem modServe_tables (d : Dev) (c : Nat) (f : Serve → Serve) : (modServe d c f).tables = d.tables := rfl
@[simp] theorem modServe_loading (d : Dev) (c : Nat) (f : Serve → Serve) : (modServe d c f).loading = d.loading := rfl
@[simp] theorem modServe_configGen (d : Dev) (c : Nat) (f : Serve → Serve) : (modServe d c f).configGen = d.configGen := rfl
@[simp] theorem modServe_ctxs (d : Dev) (c : Nat) (f : Serve → Serve) : (modServe d c f).ctxs = smUpd d.ctxs c (fun x => { x with serve := f x.serve }) := rfl
@[simp] theorem modServe_eng (d : Dev) (c : Nat) (f : Serve → Serve) : (modServe d c f).eng = d.eng := rfl
@[simp] theorem modServe_launches (d : Dev) (c : Nat) (f : Serve → Serve) : (modServe d c f).launches = d.launches := rfl
@[simp] theorem modServe_nextLaunch (d : Dev) (c : Nat) (f : Serve → Serve) : (modServe d c f).nextLaunch = d.nextLaunch := rfl
@[simp] theorem modServe_running (d : Dev) (c : Nat) (f : Serve → Serve) : (modServe d c f).running = d.running := rfl
@[simp] theorem modServe_xfers (d : Dev) (c : Nat) (f : Serve → Serve) : (modServe d c f).xfers = d.xfers := rfl
@[simp] theorem modServe_nextXfer (d : Dev) (c : Nat) (f : Serve → Serve) : (modServe d c f).nextXfer = d.nextXfer := rfl
@[simp] theorem modServe_mem (d : Dev) (c : Nat) (f : Serve → Serve) : (modServe d c f).mem = d.mem := rfl
@[simp] theorem modServe_parts (d : Dev) (c : Nat) (f : Serve → Serve) : (modServe d c f).parts = d.parts := rfl
@[simp] theorem modServe_reqs (d : Dev) (c : Nat) (f : Serve → Serve) : (modServe d c f).reqs = d.reqs := rfl
@[simp] theorem modServe_kvGens (d : Dev) (c : Nat) (f : Serve → Serve) : (modServe d c f).kvGens = d.kvGens := rfl
@[simp] theorem modServe_fabric (d : Dev) (c : Nat) (f : Serve → Serve) : (modServe d c f).fabric = d.fabric := rfl
@[simp] theorem modServe_colls (d : Dev) (c : Nat) (f : Serve → Serve) : (modServe d c f).colls = d.colls := rfl
@[simp] theorem modServe_weights (d : Dev) (c : Nat) (f : Serve → Serve) : (modServe d c f).weights = d.weights := rfl
@[simp] theorem modServe_gov (d : Dev) (c : Nat) (f : Serve → Serve) : (modServe d c f).gov = d.gov := rfl
@[simp] theorem modServe_tally (d : Dev) (c : Nat) (f : Serve → Serve) : (modServe d c f).tally = d.tally := rfl

/-! ### modE -/
@[simp] theorem modE_now (d : Dev) (c i : Nat) (f : EngCtx → EngCtx) : (modE d c i f).now = d.now := rfl
@[simp] theorem modE_freeCtr (d : Dev) (c i : Nat) (f : EngCtx → EngCtx) : (modE d c i f).freeCtr = d.freeCtr := rfl
@[simp] theorem modE_out (d : Dev) (c i : Nat) (f : EngCtx → EngCtx) : (modE d c i f).out = d.out := rfl
@[simp] theorem modE_pwr (d : Dev) (c i : Nat) (f : EngCtx → EngCtx) : (modE d c i f).pwr = d.pwr := rfl
@[simp] theorem modE_boot (d : Dev) (c i : Nat) (f : EngCtx → EngCtx) : (modE d c i f).boot = d.boot := rfl
@[simp] theorem modE_flashIf (d : Dev) (c i : Nat) (f : EngCtx → EngCtx) : (modE d c i f).flashIf = d.flashIf := rfl
@[simp] theorem modE_host (d : Dev) (c i : Nat) (f : EngCtx → EngCtx) : (modE d c i f).host = d.host := rfl
@[simp] theorem modE_spdm (d : Dev) (c i : Nat) (f : EngCtx → EngCtx) : (modE d c i f).spdm = d.spdm := rfl
@[simp] theorem modE_queues (d : Dev) (c i : Nat) (f : EngCtx → EngCtx) : (modE d c i f).queues = d.queues := rfl
@[simp] theorem modE_cmds (d : Dev) (c i : Nat) (f : EngCtx → EngCtx) : (modE d c i f).cmds = d.cmds := rfl
@[simp] theorem modE_nextCid (d : Dev) (c i : Nat) (f : EngCtx → EngCtx) : (modE d c i f).nextCid = d.nextCid := rfl
@[simp] theorem modE_rr (d : Dev) (c i : Nat) (f : EngCtx → EngCtx) : (modE d c i f).rr = d.rr := rfl
@[simp] theorem modE_tables (d : Dev) (c i : Nat) (f : EngCtx → EngCtx) : (modE d c i f).tables = d.tables := rfl
@[simp] theorem modE_loading (d : Dev) (c i : Nat) (f : EngCtx → EngCtx) : (modE d c i f).loading = d.loading := rfl
@[simp] theorem modE_configGen (d : Dev) (c i : Nat) (f : EngCtx → EngCtx) : (modE d c i f).configGen = d.configGen := rfl
@[simp] theorem modE_ctxs (d : Dev) (c i : Nat) (f : EngCtx → EngCtx) : (modE d c i f).ctxs = d.ctxs := rfl
@[simp] theorem modE_eng (d : Dev) (c i : Nat) (f : EngCtx → EngCtx) : (modE d c i f).eng = smSet {} d.eng (engKey c i) (f (getE d c i)) := rfl
@[simp] theorem modE_launches (d : Dev) (c i : Nat) (f : EngCtx → EngCtx) : (modE d c i f).launches = d.launches := rfl
@[simp] theorem modE_nextLaunch (d : Dev) (c i : Nat) (f : EngCtx → EngCtx) : (modE d c i f).nextLaunch = d.nextLaunch := rfl
@[simp] theorem modE_running (d : Dev) (c i : Nat) (f : EngCtx → EngCtx) : (modE d c i f).running = d.running := rfl
@[simp] theorem modE_xfers (d : Dev) (c i : Nat) (f : EngCtx → EngCtx) : (modE d c i f).xfers = d.xfers := rfl
@[simp] theorem modE_nextXfer (d : Dev) (c i : Nat) (f : EngCtx → EngCtx) : (modE d c i f).nextXfer = d.nextXfer := rfl
@[simp] theorem modE_mem (d : Dev) (c i : Nat) (f : EngCtx → EngCtx) : (modE d c i f).mem = d.mem := rfl
@[simp] theorem modE_parts (d : Dev) (c i : Nat) (f : EngCtx → EngCtx) : (modE d c i f).parts = d.parts := rfl
@[simp] theorem modE_reqs (d : Dev) (c i : Nat) (f : EngCtx → EngCtx) : (modE d c i f).reqs = d.reqs := rfl
@[simp] theorem modE_kvGens (d : Dev) (c i : Nat) (f : EngCtx → EngCtx) : (modE d c i f).kvGens = d.kvGens := rfl
@[simp] theorem modE_fabric (d : Dev) (c i : Nat) (f : EngCtx → EngCtx) : (modE d c i f).fabric = d.fabric := rfl
@[simp] theorem modE_colls (d : Dev) (c i : Nat) (f : EngCtx → EngCtx) : (modE d c i f).colls = d.colls := rfl
@[simp] theorem modE_weights (d : Dev) (c i : Nat) (f : EngCtx → EngCtx) : (modE d c i f).weights = d.weights := rfl
@[simp] theorem modE_gov (d : Dev) (c i : Nat) (f : EngCtx → EngCtx) : (modE d c i f).gov = d.gov := rfl
@[simp] theorem modE_tally (d : Dev) (c i : Nat) (f : EngCtx → EngCtx) : (modE d c i f).tally = d.tally := rfl

/-! ### modConn -/
@[simp] theorem modConn_now (d : Dev) (k : Nat) (f : EthConn → EthConn) : (modConn d k f).now = d.now := rfl
@[simp] theorem modConn_freeCtr (d : Dev) (k : Nat) (f : EthConn → EthConn) : (modConn d k f).freeCtr = d.freeCtr := rfl
@[simp] theorem modConn_out (d : Dev) (k : Nat) (f : EthConn → EthConn) : (modConn d k f).out = d.out := rfl
@[simp] theorem modConn_pwr (d : Dev) (k : Nat) (f : EthConn → EthConn) : (modConn d k f).pwr = d.pwr := rfl
@[simp] theorem modConn_boot (d : Dev) (k : Nat) (f : EthConn → EthConn) : (modConn d k f).boot = d.boot := rfl
@[simp] theorem modConn_flashIf (d : Dev) (k : Nat) (f : EthConn → EthConn) : (modConn d k f).flashIf = d.flashIf := rfl
@[simp] theorem modConn_host (d : Dev) (k : Nat) (f : EthConn → EthConn) : (modConn d k f).host = d.host := rfl
@[simp] theorem modConn_spdm (d : Dev) (k : Nat) (f : EthConn → EthConn) : (modConn d k f).spdm = d.spdm := rfl
@[simp] theorem modConn_queues (d : Dev) (k : Nat) (f : EthConn → EthConn) : (modConn d k f).queues = d.queues := rfl
@[simp] theorem modConn_cmds (d : Dev) (k : Nat) (f : EthConn → EthConn) : (modConn d k f).cmds = d.cmds := rfl
@[simp] theorem modConn_nextCid (d : Dev) (k : Nat) (f : EthConn → EthConn) : (modConn d k f).nextCid = d.nextCid := rfl
@[simp] theorem modConn_rr (d : Dev) (k : Nat) (f : EthConn → EthConn) : (modConn d k f).rr = d.rr := rfl
@[simp] theorem modConn_tables (d : Dev) (k : Nat) (f : EthConn → EthConn) : (modConn d k f).tables = d.tables := rfl
@[simp] theorem modConn_loading (d : Dev) (k : Nat) (f : EthConn → EthConn) : (modConn d k f).loading = d.loading := rfl
@[simp] theorem modConn_configGen (d : Dev) (k : Nat) (f : EthConn → EthConn) : (modConn d k f).configGen = d.configGen := rfl
@[simp] theorem modConn_ctxs (d : Dev) (k : Nat) (f : EthConn → EthConn) : (modConn d k f).ctxs = d.ctxs := rfl
@[simp] theorem modConn_eng (d : Dev) (k : Nat) (f : EthConn → EthConn) : (modConn d k f).eng = d.eng := rfl
@[simp] theorem modConn_launches (d : Dev) (k : Nat) (f : EthConn → EthConn) : (modConn d k f).launches = d.launches := rfl
@[simp] theorem modConn_nextLaunch (d : Dev) (k : Nat) (f : EthConn → EthConn) : (modConn d k f).nextLaunch = d.nextLaunch := rfl
@[simp] theorem modConn_running (d : Dev) (k : Nat) (f : EthConn → EthConn) : (modConn d k f).running = d.running := rfl
@[simp] theorem modConn_xfers (d : Dev) (k : Nat) (f : EthConn → EthConn) : (modConn d k f).xfers = d.xfers := rfl
@[simp] theorem modConn_nextXfer (d : Dev) (k : Nat) (f : EthConn → EthConn) : (modConn d k f).nextXfer = d.nextXfer := rfl
@[simp] theorem modConn_mem (d : Dev) (k : Nat) (f : EthConn → EthConn) : (modConn d k f).mem = d.mem := rfl
@[simp] theorem modConn_parts (d : Dev) (k : Nat) (f : EthConn → EthConn) : (modConn d k f).parts = d.parts := rfl
@[simp] theorem modConn_reqs (d : Dev) (k : Nat) (f : EthConn → EthConn) : (modConn d k f).reqs = d.reqs := rfl
@[simp] theorem modConn_kvGens (d : Dev) (k : Nat) (f : EthConn → EthConn) : (modConn d k f).kvGens = d.kvGens := rfl
@[simp] theorem modConn_colls (d : Dev) (k : Nat) (f : EthConn → EthConn) : (modConn d k f).colls = d.colls := rfl
@[simp] theorem modConn_weights (d : Dev) (k : Nat) (f : EthConn → EthConn) : (modConn d k f).weights = d.weights := rfl
@[simp] theorem modConn_gov (d : Dev) (k : Nat) (f : EthConn → EthConn) : (modConn d k f).gov = d.gov := rfl
@[simp] theorem modConn_tally (d : Dev) (k : Nat) (f : EthConn → EthConn) : (modConn d k f).tally = d.tally := rfl

/-! ### modColl -/
@[simp] theorem modColl_now (d : Dev) (n : Nat) (f : Coll → Coll) : (modColl d n f).now = d.now := rfl
@[simp] theorem modColl_freeCtr (d : Dev) (n : Nat) (f : Coll → Coll) : (modColl d n f).freeCtr = d.freeCtr := rfl
@[simp] theorem modColl_out (d : Dev) (n : Nat) (f : Coll → Coll) : (modColl d n f).out = d.out := rfl
@[simp] theorem modColl_pwr (d : Dev) (n : Nat) (f : Coll → Coll) : (modColl d n f).pwr = d.pwr := rfl
@[simp] theorem modColl_boot (d : Dev) (n : Nat) (f : Coll → Coll) : (modColl d n f).boot = d.boot := rfl
@[simp] theorem modColl_flashIf (d : Dev) (n : Nat) (f : Coll → Coll) : (modColl d n f).flashIf = d.flashIf := rfl
@[simp] theorem modColl_host (d : Dev) (n : Nat) (f : Coll → Coll) : (modColl d n f).host = d.host := rfl
@[simp] theorem modColl_spdm (d : Dev) (n : Nat) (f : Coll → Coll) : (modColl d n f).spdm = d.spdm := rfl
@[simp] theorem modColl_queues (d : Dev) (n : Nat) (f : Coll → Coll) : (modColl d n f).queues = d.queues := rfl
@[simp] theorem modColl_cmds (d : Dev) (n : Nat) (f : Coll → Coll) : (modColl d n f).cmds = d.cmds := rfl
@[simp] theorem modColl_nextCid (d : Dev) (n : Nat) (f : Coll → Coll) : (modColl d n f).nextCid = d.nextCid := rfl
@[simp] theorem modColl_rr (d : Dev) (n : Nat) (f : Coll → Coll) : (modColl d n f).rr = d.rr := rfl
@[simp] theorem modColl_tables (d : Dev) (n : Nat) (f : Coll → Coll) : (modColl d n f).tables = d.tables := rfl
@[simp] theorem modColl_loading (d : Dev) (n : Nat) (f : Coll → Coll) : (modColl d n f).loading = d.loading := rfl
@[simp] theorem modColl_configGen (d : Dev) (n : Nat) (f : Coll → Coll) : (modColl d n f).configGen = d.configGen := rfl
@[simp] theorem modColl_ctxs (d : Dev) (n : Nat) (f : Coll → Coll) : (modColl d n f).ctxs = d.ctxs := rfl
@[simp] theorem modColl_eng (d : Dev) (n : Nat) (f : Coll → Coll) : (modColl d n f).eng = d.eng := rfl
@[simp] theorem modColl_launches (d : Dev) (n : Nat) (f : Coll → Coll) : (modColl d n f).launches = d.launches := rfl
@[simp] theorem modColl_nextLaunch (d : Dev) (n : Nat) (f : Coll → Coll) : (modColl d n f).nextLaunch = d.nextLaunch := rfl
@[simp] theorem modColl_running (d : Dev) (n : Nat) (f : Coll → Coll) : (modColl d n f).running = d.running := rfl
@[simp] theorem modColl_xfers (d : Dev) (n : Nat) (f : Coll → Coll) : (modColl d n f).xfers = d.xfers := rfl
@[simp] theorem modColl_nextXfer (d : Dev) (n : Nat) (f : Coll → Coll) : (modColl d n f).nextXfer = d.nextXfer := rfl
@[simp] theorem modColl_mem (d : Dev) (n : Nat) (f : Coll → Coll) : (modColl d n f).mem = d.mem := rfl
@[simp] theorem modColl_parts (d : Dev) (n : Nat) (f : Coll → Coll) : (modColl d n f).parts = d.parts := rfl
@[simp] theorem modColl_reqs (d : Dev) (n : Nat) (f : Coll → Coll) : (modColl d n f).reqs = d.reqs := rfl
@[simp] theorem modColl_kvGens (d : Dev) (n : Nat) (f : Coll → Coll) : (modColl d n f).kvGens = d.kvGens := rfl
@[simp] theorem modColl_fabric (d : Dev) (n : Nat) (f : Coll → Coll) : (modColl d n f).fabric = d.fabric := rfl
@[simp] theorem modColl_weights (d : Dev) (n : Nat) (f : Coll → Coll) : (modColl d n f).weights = d.weights := rfl
@[simp] theorem modColl_gov (d : Dev) (n : Nat) (f : Coll → Coll) : (modColl d n f).gov = d.gov := rfl
@[simp] theorem modColl_tally (d : Dev) (n : Nat) (f : Coll → Coll) : (modColl d n f).tally = d.tally := rfl

/-! ### modWset -/
@[simp] theorem modWset_now (d : Dev) (w : Nat) (f : WSet → WSet) : (modWset d w f).now = d.now := rfl
@[simp] theorem modWset_freeCtr (d : Dev) (w : Nat) (f : WSet → WSet) : (modWset d w f).freeCtr = d.freeCtr := rfl
@[simp] theorem modWset_out (d : Dev) (w : Nat) (f : WSet → WSet) : (modWset d w f).out = d.out := rfl
@[simp] theorem modWset_pwr (d : Dev) (w : Nat) (f : WSet → WSet) : (modWset d w f).pwr = d.pwr := rfl
@[simp] theorem modWset_boot (d : Dev) (w : Nat) (f : WSet → WSet) : (modWset d w f).boot = d.boot := rfl
@[simp] theorem modWset_flashIf (d : Dev) (w : Nat) (f : WSet → WSet) : (modWset d w f).flashIf = d.flashIf := rfl
@[simp] theorem modWset_host (d : Dev) (w : Nat) (f : WSet → WSet) : (modWset d w f).host = d.host := rfl
@[simp] theorem modWset_spdm (d : Dev) (w : Nat) (f : WSet → WSet) : (modWset d w f).spdm = d.spdm := rfl
@[simp] theorem modWset_queues (d : Dev) (w : Nat) (f : WSet → WSet) : (modWset d w f).queues = d.queues := rfl
@[simp] theorem modWset_cmds (d : Dev) (w : Nat) (f : WSet → WSet) : (modWset d w f).cmds = d.cmds := rfl
@[simp] theorem modWset_nextCid (d : Dev) (w : Nat) (f : WSet → WSet) : (modWset d w f).nextCid = d.nextCid := rfl
@[simp] theorem modWset_rr (d : Dev) (w : Nat) (f : WSet → WSet) : (modWset d w f).rr = d.rr := rfl
@[simp] theorem modWset_tables (d : Dev) (w : Nat) (f : WSet → WSet) : (modWset d w f).tables = d.tables := rfl
@[simp] theorem modWset_loading (d : Dev) (w : Nat) (f : WSet → WSet) : (modWset d w f).loading = d.loading := rfl
@[simp] theorem modWset_configGen (d : Dev) (w : Nat) (f : WSet → WSet) : (modWset d w f).configGen = d.configGen := rfl
@[simp] theorem modWset_ctxs (d : Dev) (w : Nat) (f : WSet → WSet) : (modWset d w f).ctxs = d.ctxs := rfl
@[simp] theorem modWset_eng (d : Dev) (w : Nat) (f : WSet → WSet) : (modWset d w f).eng = d.eng := rfl
@[simp] theorem modWset_launches (d : Dev) (w : Nat) (f : WSet → WSet) : (modWset d w f).launches = d.launches := rfl
@[simp] theorem modWset_nextLaunch (d : Dev) (w : Nat) (f : WSet → WSet) : (modWset d w f).nextLaunch = d.nextLaunch := rfl
@[simp] theorem modWset_running (d : Dev) (w : Nat) (f : WSet → WSet) : (modWset d w f).running = d.running := rfl
@[simp] theorem modWset_xfers (d : Dev) (w : Nat) (f : WSet → WSet) : (modWset d w f).xfers = d.xfers := rfl
@[simp] theorem modWset_nextXfer (d : Dev) (w : Nat) (f : WSet → WSet) : (modWset d w f).nextXfer = d.nextXfer := rfl
@[simp] theorem modWset_mem (d : Dev) (w : Nat) (f : WSet → WSet) : (modWset d w f).mem = d.mem := rfl
@[simp] theorem modWset_parts (d : Dev) (w : Nat) (f : WSet → WSet) : (modWset d w f).parts = d.parts := rfl
@[simp] theorem modWset_reqs (d : Dev) (w : Nat) (f : WSet → WSet) : (modWset d w f).reqs = d.reqs := rfl
@[simp] theorem modWset_kvGens (d : Dev) (w : Nat) (f : WSet → WSet) : (modWset d w f).kvGens = d.kvGens := rfl
@[simp] theorem modWset_fabric (d : Dev) (w : Nat) (f : WSet → WSet) : (modWset d w f).fabric = d.fabric := rfl
@[simp] theorem modWset_colls (d : Dev) (w : Nat) (f : WSet → WSet) : (modWset d w f).colls = d.colls := rfl
@[simp] theorem modWset_gov (d : Dev) (w : Nat) (f : WSet → WSet) : (modWset d w f).gov = d.gov := rfl
@[simp] theorem modWset_tally (d : Dev) (w : Nat) (f : WSet → WSet) : (modWset d w f).tally = d.tally := rfl

/-! ### modArb -/
@[simp] theorem modArb_now (d : Dev) (k : Nat) (f : Arb → Arb) : (modArb d k f).now = d.now := rfl
@[simp] theorem modArb_freeCtr (d : Dev) (k : Nat) (f : Arb → Arb) : (modArb d k f).freeCtr = d.freeCtr := rfl
@[simp] theorem modArb_out (d : Dev) (k : Nat) (f : Arb → Arb) : (modArb d k f).out = d.out := rfl
@[simp] theorem modArb_pwr (d : Dev) (k : Nat) (f : Arb → Arb) : (modArb d k f).pwr = d.pwr := rfl
@[simp] theorem modArb_boot (d : Dev) (k : Nat) (f : Arb → Arb) : (modArb d k f).boot = d.boot := rfl
@[simp] theorem modArb_flashIf (d : Dev) (k : Nat) (f : Arb → Arb) : (modArb d k f).flashIf = d.flashIf := rfl
@[simp] theorem modArb_host (d : Dev) (k : Nat) (f : Arb → Arb) : (modArb d k f).host = d.host := rfl
@[simp] theorem modArb_spdm (d : Dev) (k : Nat) (f : Arb → Arb) : (modArb d k f).spdm = d.spdm := rfl
@[simp] theorem modArb_queues (d : Dev) (k : Nat) (f : Arb → Arb) : (modArb d k f).queues = d.queues := rfl
@[simp] theorem modArb_cmds (d : Dev) (k : Nat) (f : Arb → Arb) : (modArb d k f).cmds = d.cmds := rfl
@[simp] theorem modArb_nextCid (d : Dev) (k : Nat) (f : Arb → Arb) : (modArb d k f).nextCid = d.nextCid := rfl
@[simp] theorem modArb_rr (d : Dev) (k : Nat) (f : Arb → Arb) : (modArb d k f).rr = d.rr := rfl
@[simp] theorem modArb_tables (d : Dev) (k : Nat) (f : Arb → Arb) : (modArb d k f).tables = d.tables := rfl
@[simp] theorem modArb_loading (d : Dev) (k : Nat) (f : Arb → Arb) : (modArb d k f).loading = d.loading := rfl
@[simp] theorem modArb_configGen (d : Dev) (k : Nat) (f : Arb → Arb) : (modArb d k f).configGen = d.configGen := rfl
@[simp] theorem modArb_ctxs (d : Dev) (k : Nat) (f : Arb → Arb) : (modArb d k f).ctxs = d.ctxs := rfl
@[simp] theorem modArb_eng (d : Dev) (k : Nat) (f : Arb → Arb) : (modArb d k f).eng = d.eng := rfl
@[simp] theorem modArb_launches (d : Dev) (k : Nat) (f : Arb → Arb) : (modArb d k f).launches = d.launches := rfl
@[simp] theorem modArb_nextLaunch (d : Dev) (k : Nat) (f : Arb → Arb) : (modArb d k f).nextLaunch = d.nextLaunch := rfl
@[simp] theorem modArb_running (d : Dev) (k : Nat) (f : Arb → Arb) : (modArb d k f).running = d.running := rfl
@[simp] theorem modArb_xfers (d : Dev) (k : Nat) (f : Arb → Arb) : (modArb d k f).xfers = d.xfers := rfl
@[simp] theorem modArb_nextXfer (d : Dev) (k : Nat) (f : Arb → Arb) : (modArb d k f).nextXfer = d.nextXfer := rfl
@[simp] theorem modArb_mem (d : Dev) (k : Nat) (f : Arb → Arb) : (modArb d k f).mem = { d.mem with arbs := smMod {} d.mem.arbs k f } := rfl
@[simp] theorem modArb_parts (d : Dev) (k : Nat) (f : Arb → Arb) : (modArb d k f).parts = d.parts := rfl
@[simp] theorem modArb_reqs (d : Dev) (k : Nat) (f : Arb → Arb) : (modArb d k f).reqs = d.reqs := rfl
@[simp] theorem modArb_kvGens (d : Dev) (k : Nat) (f : Arb → Arb) : (modArb d k f).kvGens = d.kvGens := rfl
@[simp] theorem modArb_fabric (d : Dev) (k : Nat) (f : Arb → Arb) : (modArb d k f).fabric = d.fabric := rfl
@[simp] theorem modArb_colls (d : Dev) (k : Nat) (f : Arb → Arb) : (modArb d k f).colls = d.colls := rfl
@[simp] theorem modArb_weights (d : Dev) (k : Nat) (f : Arb → Arb) : (modArb d k f).weights = d.weights := rfl
@[simp] theorem modArb_gov (d : Dev) (k : Nat) (f : Arb → Arb) : (modArb d k f).gov = d.gov := rfl
@[simp] theorem modArb_tally (d : Dev) (k : Nat) (f : Arb → Arb) : (modArb d k f).tally = d.tally := rfl

/-! ### stallBme -/
@[simp] theorem stallBme_now (d : Dev) (c : Nat) : (stallBme d c).now = d.now := rfl
@[simp] theorem stallBme_freeCtr (d : Dev) (c : Nat) : (stallBme d c).freeCtr = d.freeCtr := rfl
@[simp] theorem stallBme_out (d : Dev) (c : Nat) : (stallBme d c).out = d.out := rfl
@[simp] theorem stallBme_pwr (d : Dev) (c : Nat) : (stallBme d c).pwr = d.pwr := rfl
@[simp] theorem stallBme_boot (d : Dev) (c : Nat) : (stallBme d c).boot = d.boot := rfl
@[simp] theorem stallBme_flashIf (d : Dev) (c : Nat) : (stallBme d c).flashIf = d.flashIf := rfl
@[simp] theorem stallBme_host (d : Dev) (c : Nat) : (stallBme d c).host = d.host := rfl
@[simp] theorem stallBme_spdm (d : Dev) (c : Nat) : (stallBme d c).spdm = d.spdm := rfl
@[simp] theorem stallBme_queues (d : Dev) (c : Nat) : (stallBme d c).queues = d.queues := rfl
@[simp] theorem stallBme_nextCid (d : Dev) (c : Nat) : (stallBme d c).nextCid = d.nextCid := rfl
@[simp] theorem stallBme_rr (d : Dev) (c : Nat) : (stallBme d c).rr = d.rr := rfl
@[simp] theorem stallBme_tables (d : Dev) (c : Nat) : (stallBme d c).tables = d.tables := rfl
@[simp] theorem stallBme_loading (d : Dev) (c : Nat) : (stallBme d c).loading = d.loading := rfl
@[simp] theorem stallBme_configGen (d : Dev) (c : Nat) : (stallBme d c).configGen = d.configGen := rfl
@[simp] theorem stallBme_ctxs (d : Dev) (c : Nat) : (stallBme d c).ctxs = d.ctxs := rfl
@[simp] theorem stallBme_eng (d : Dev) (c : Nat) : (stallBme d c).eng = d.eng := rfl
@[simp] theorem stallBme_launches (d : Dev) (c : Nat) : (stallBme d c).launches = d.launches := rfl
@[simp] theorem stallBme_nextLaunch (d : Dev) (c : Nat) : (stallBme d c).nextLaunch = d.nextLaunch := rfl
@[simp] theorem stallBme_running (d : Dev) (c : Nat) : (stallBme d c).running = d.running := rfl
@[simp] theorem stallBme_xfers (d : Dev) (c : Nat) : (stallBme d c).xfers = d.xfers := rfl
@[simp] theorem stallBme_nextXfer (d : Dev) (c : Nat) : (stallBme d c).nextXfer = d.nextXfer := rfl
@[simp] theorem stallBme_mem (d : Dev) (c : Nat) : (stallBme d c).mem = d.mem := rfl
@[simp] theorem stallBme_parts (d : Dev) (c : Nat) : (stallBme d c).parts = d.parts := rfl
@[simp] theorem stallBme_reqs (d : Dev) (c : Nat) : (stallBme d c).reqs = d.reqs := rfl
@[simp] theorem stallBme_kvGens (d : Dev) (c : Nat) : (stallBme d c).kvGens = d.kvGens := rfl
@[simp] theorem stallBme_fabric (d : Dev) (c : Nat) : (stallBme d c).fabric = d.fabric := rfl
@[simp] theorem stallBme_colls (d : Dev) (c : Nat) : (stallBme d c).colls = d.colls := rfl
@[simp] theorem stallBme_weights (d : Dev) (c : Nat) : (stallBme d c).weights = d.weights := rfl
@[simp] theorem stallBme_gov (d : Dev) (c : Nat) : (stallBme d c).gov = d.gov := rfl
@[simp] theorem stallBme_tally (d : Dev) (c : Nat) : (stallBme d c).tally = d.tally := rfl

end Sys2Proof.Machine
end

