-- ==== Sys2Proof/Laws/Ops.lean ====
section
/-! SUPPORT. What the shared operations can do. -/

namespace Sys2Proof.Machine

/-! ### Outcomes -/

/-- A command whose effect is a change of the device answers a next state: the queue and what is kept without power stay. -/
@[simp] theorem onDev_next (s : State) (f : Dev → Dev) : onDev s f = .next { s with dev := f s.dev } := rfl

theorem tearRange_fuses (nv : NonVol) (k a n : Nat) : (tearRange nv k a n).fuses = nv.fuses := rfl

/-- Breaking off a flash operation touches no fuse. -/
theorem tearFlash_fuses (nv : NonVol) (k : Nat) (op : FlashOp) (a : Nat) : (tearFlash nv k op a).fuses = nv.fuses := by
  cases op with
  | read => rfl
  | program => exact tearRange_fuses nv k a _
  | erase => exact tearRange_fuses nv k a _

/-- An event on the package answers a next state with the device changed. -/
theorem onPackage_next (s : State) (f : Dev → Dev) :
    ∃ t, onPackage s f = .next t ∧ t.pending = s.pending ∧ t.nv.fuses = s.nv.fuses ∧ (t.dev = f s.dev ∨
      t.dev = { f s.dev with freeCtr := (f s.dev).freeCtr + 1 }) := by
  cases h : s.dev.flashIf.busy with
  | none => exact ⟨{ s with dev := f s.dev }, by simp only [onPackage, h], rfl, rfl, .inl rfl⟩
  | some b =>
    cases h' : (f s.dev).flashIf.busy with
    | none =>
      exact ⟨{ s with nv := tearFlash s.nv (f s.dev).freeCtr b.1 b.2, dev := { f s.dev with freeCtr := (f s.dev).freeCtr + 1 } },
        by simp only [onPackage, h, h'], rfl, tearFlash_fuses _ _ _ _, .inr rfl⟩
    | some c => exact ⟨{ s with dev := f s.dev }, by simp only [onPackage, h, h'], rfl, rfl, .inl rfl⟩

/-! ### Queues -/

@[simp] theorem queueOf_setQueue_same (d : Dev) (q : Nat) (v : Queue) : queueOf (setQueue d q v) q = v :=
  smGet_smSet_same _ _ _ _

theorem queueOf_setQueue_ne (d : Dev) {q r : Nat} (v : Queue) (hr : r ≠ q) :
    queueOf (setQueue d q v) r = queueOf d r := smGet_smSet_ne _ _ _ hr

/-! ### What an engine holds -/

@[simp] theorem getE_setE_same (d : Dev) (c i : Nat) (v : EngCtx) : getE (setE d c i v) c i = v := smGet_smSet_same _ _ _ _

theorem getE_setE_ne (d : Dev) {c i c' i' : Nat} (v : EngCtx) (h : engKey c' i' ≠ engKey c i) :
    getE (setE d c i v) c' i' = getE d c' i' := smGet_smSet_ne _ _ _ h

@[simp] theorem getE_modE_same (d : Dev) (c i : Nat) (f : EngCtx → EngCtx) : getE (modE d c i f) c i = f (getE d c i) :=
  getE_setE_same ..

/-! ### Commands in flight -/

/-- Preparing the final record: the command ends with it, unless it already has one. -/
theorem finishCmd_find (d : Dev) (cid st dt : Nat) (r : List (Nat × Nat × Nat)) (o : Option (List Byte)) {c : Cmd}
    (h : smFind d.cmds cid = some c) (hf : c.fin = none) :
    ((smFind (finishCmd d cid st dt r o).cmds cid).bind (·.fin)) =
      some { status := BitVec.ofNat 16 st, detail := BitVec.ofNat 16 dt, result := resultOf r, slotOut := o, at_ := d.now } := by
  simp [finishCmd, smFind_smUpd_same, h, hf]

/-- Every other command keeps what it has. -/
theorem finishCmd_other (d : Dev) (cid st dt : Nat) (r : List (Nat × Nat × Nat)) (o : Option (List Byte)) {j : Nat} (h : j ≠ cid) :
    smFind (finishCmd d cid st dt r o).cmds j = smFind d.cmds j := smFind_smUpd_ne _ _ h

/-- A command that runs is given to its body. -/
theorem runCmd_runs {s : State} {op cid : Nat} {c : Cmd} (body : Dev → Nat → Cmd → Option Dev) (h : Runs s op cid c) :
    runCmd op cid body s.dev =
      ((body (setPhase s.dev cid .running) cid c).map (fun d => modCmd d cid waitState)).getD s.dev := by
  obtain ⟨hc, ho, hf, hp⟩ := h
  simp [runCmd, hc, ho, hf, hp]

/-- A command that is not in flight, or is another opcode's, or has its record, or may not begin, changes nothing. -/
theorem runCmd_skip {d : Dev} {op cid : Nat} (body : Dev → Nat → Cmd → Option Dev)
    (h : ∀ c, smFind d.cmds cid = some c → opcodeC c = op → c.fin = none → c.phase ≠ .running ∧
      (c.phase = .admitted → mayBegin d cid c = false)) : runCmd op cid body d = d := by
  unfold runCmd
  cases hc : smFind d.cmds cid with
  | none => rfl
  | some c =>
    simp only
    split
    · next hh =>
      obtain ⟨ho, hf, hp⟩ := hh
      have := h c hc ho (by simpa using hf)
      rcases hp with hp | ⟨hp, hm⟩
      · exact absurd hp this.1
      · simp [this.2 hp] at hm
    · rfl

/-! ### Records read after they are written -/

@[simp] theorem portOf_setPort_same (d : Dev) (h : Nat) (p : HalfPort) : portOf (setPort d h p) h = p := smGet_smSet_same _ _ _ _

theorem portOf_setPort_ne (d : Dev) {h k : Nat} (p : HalfPort) (hk : k ≠ h) : portOf (setPort d h p) k = portOf d k :=
  smGet_smSet_ne _ _ _ hk

@[simp] theorem connOf_modConn_same (d : Dev) (k : Nat) (f : EthConn → EthConn) : connOf (modConn d k f) k = f (connOf d k) :=
  smGet_smSet_same _ _ _ _

theorem connOf_modConn_ne (d : Dev) {k j : Nat} (f : EthConn → EthConn) (hj : j ≠ k) : connOf (modConn d k f) j = connOf d j :=
  smGet_smSet_ne _ _ _ hj

@[simp] theorem getReq_modReq_same (d : Dev) (k : Nat) (f : Req → Req) : getReq (modReq d k f) k = f (getReq d k) :=
  smGet_smPut_same _ _ _ _

theorem getReq_modReq_ne (d : Dev) {k j : Nat} (f : Req → Req) (hj : j ≠ k) : getReq (modReq d k f) j = getReq d j :=
  smGet_smPut_ne _ _ _ hj

@[simp] theorem wset_modWset_same (d : Dev) (w : Nat) (f : WSet → WSet) : wset (modWset d w f) w = f (wset d w) :=
  smGet_smPut_same _ _ _ _

theorem wset_modWset_ne (d : Dev) {w v : Nat} (f : WSet → WSet) (h : v ≠ w) : wset (modWset d w f) v = wset d v :=
  smGet_smPut_ne _ _ _ h

@[simp] theorem getColl_modColl_same (d : Dev) (n : Nat) (f : Coll → Coll) : getColl (modColl d n f) n = (getColl d n).map f :=
  smFind_smUpd_same _ _ _

theorem getColl_modColl_ne (d : Dev) {n j : Nat} (f : Coll → Coll) (h : j ≠ n) : getColl (modColl d n f) j = getColl d j :=
  smFind_smUpd_ne _ _ h

@[simp] theorem poolOf_modPool_same (d : Dev) (ctx n : Nat) (f : KvPool → KvPool) :
    poolOf (modPool d ctx n f) ctx n = (poolOf d ctx n).map f := by
  unfold poolOf modPool modCtx
  rw [smFind_smUpd_same]
  cases smFind d.ctxs ctx with
  | none => rfl
  | some x => exact smFind_smUpd_same _ _ _

theorem poolOf_modPool_ne (d : Dev) {ctx n c j : Nat} (f : KvPool → KvPool) (h : c ≠ ctx ∨ j ≠ n) :
    poolOf (modPool d ctx n f) c j = poolOf d c j := by
  unfold poolOf modPool modCtx
  by_cases hc : c = ctx
  · subst hc
    rw [smFind_smUpd_same]
    cases smFind d.ctxs c with
    | none => rfl
    | some x => exact smFind_smUpd_ne _ _ (h.resolve_left (fun g => g rfl))
  · rw [smFind_smUpd_ne _ _ hc]

/-! ### The step -/

/-- A step takes the command at the front of the queue. -/
theorem step_front (s : State) (c : Instr) (rest : List Instr) :
    step { s with pending := c :: rest } = exec c { s with pending := rest } := rfl

/-- With nothing waiting an h-cycle passes. -/
theorem step_idle (s : State) (h : s.pending = []) : step s = .next (tick s) := by simp [step, h]

/-- Every memory is empty, and so in canonical form, right after reset. -/
theorem reset_memories : Memory.wf State.reset.dev.mem.dram = true ∧ Memory.wf State.reset.dev.mem.hdm = true
    ∧ Memory.wf State.reset.dev.mem.baskets = true ∧ smSorted State.reset.nv.flash = true := ⟨rfl, rfl, rfl, rfl⟩

end Sys2Proof.Machine
end

