-- ==== Sys2Proof/Laws/Engine.lean ====
section
/-! SUPPORT. What the issue of an engine instruction does, and the laws of scalar registers. -/

namespace Sys2Proof.Machine

/-! ### Scalar registers -/

@[simp] theorem sreg_zero (e : EngCtx) : sreg e 0 = 0#32 := rfl

@[simp] theorem setSreg_zero (e : EngCtx) (v : Word) : setSreg e 0 v = e := rfl

/-- A scalar register reads as written; s0 reads as zero. -/
theorem sreg_setSreg (e : EngCtx) (n r : Nat) (v : Word) : sreg (setSreg e n v) r = if r = n ∧ r ≠ 0 then v else sreg e r := by
  by_cases hn : n = 0
  · subst hn
    by_cases hr : r = 0 <;> simp [hr]
  · by_cases hr : r = n
    · subst hr; simp [sreg, setSreg, hn]
    · simp only [setSreg, hn, if_false, sreg, smGet_smSet_ne _ _ _ hr, hr, false_and]

theorem setSreg_only (e : EngCtx) (n : Nat) (v : Word) : setSreg e n v = { e with s := (setSreg e n v).s } := by
  unfold setSreg; split <;> rfl

/-! ### Checks -/

@[simp] theorem failIf_false (code : Nat) : failIf false code = .ok () := rfl
@[simp] theorem failIf_true (code : Nat) : failIf true code = flt code := rfl
@[simp] theorem stallIf_false : stallIf false = .ok () := rfl
@[simp] theorem stallIf_true : stallIf true = .error .stall := rfl
@[simp] theorem lineIf_false (code n : Nat) : lineIf false code n = .ok () := rfl
@[simp] theorem lineIf_true (code n : Nat) : lineIf true code n = lineFlt code n := rfl

/-- A check that passes is followed by the rest of the instruction. -/
@[simp] theorem ok_bind {ε α β : Type} (a : α) (f : α → Except ε β) : (Except.ok a >>= f) = f a := rfl

/-- A check that fails ends the instruction. -/
@[simp] theorem error_bind {ε α β : Type} (x : ε) (f : α → Except ε β) : ((Except.error x : Except ε α) >>= f) = Except.error x := rfl

/-! ### Engines -/

theorem eng_setE_ne (d : Dev) (c i : Nat) (v : EngCtx) {k : Nat} (h : k ≠ engKey c i) :
    smGet {} (setE d c i v).eng k = smGet {} d.eng k := smGet_smSet_ne _ _ _ h

theorem setE_only (d : Dev) (c i : Nat) (v : EngCtx) : setE d c i v = { d with eng := (setE d c i v).eng } := rfl

theorem modE_only (d : Dev) (c i : Nat) (f : EngCtx → EngCtx) : modE d c i f = { d with eng := (modE d c i f).eng } := rfl

theorem eng_modE_ne (d : Dev) (c i : Nat) (f : EngCtx → EngCtx) {k : Nat} (h : k ≠ engKey c i) :
    smGet {} (modE d c i f).eng k = smGet {} d.eng k := smGet_smSet_ne _ _ _ h

/-- A quantity that no step of a fold changes. -/
theorem foldl_keep {α β γ : Type} (g : α → γ) (f : α → β → α) (h : ∀ d i, g (f d i) = g d) (l : List β) (d : α) :
    g (l.foldl f d) = g d := by
  induction l generalizing d with
  | nil => rfl
  | cons a l ih => rw [List.foldl_cons, ih, h]

/-- Changing what several engines hold changes nothing else. -/
theorem foldl_modE_only (l : List Nat) (d : Dev) (ctx : Nat) (f : Nat → EngCtx → EngCtx) :
    l.foldl (fun d i => modE d ctx i (f i)) d = { d with eng := (l.foldl (fun d i => modE d ctx i (f i)) d).eng } := by
  induction l generalizing d with
  | nil => rfl
  | cons a l ih => rw [List.foldl_cons, ih]; rfl

theorem keptPatch_eq (c : Ic) (pc : Nat) (v : EngCtx) : keptPatch c pc v.patch = leavesPatch c pc v := by
  unfold keptPatch leavesPatch
  cases v.patch with
  | none => rfl
  | some q => simp [Option.filter]

/-- An instruction that stands at PC, whose opcode the tables have and which neither stalls nor faults, takes effect: its own effect,
then PC moves and an earlier patch is forgotten. -/
theorem issue_ok {d : Dev} {op e n : Nat} {c : Ic} {x : Nx} {body : Dev → Ic → Ex Nx}
    (hf : fetchIns d e = some (c, n)) (hp : c.pc < n) (ho : opcodeOf c.w0 = op) (hk : opcodeKnown op = true)
    (hb : body d c = .ok x) :
    issue op e body d = movePc (modE x.dev c.ctx c.idx (fun v => { v with patch := leavesPatch c x.pc v })) c.ctx c.idx x.pc x.seq := by
  unfold issue
  rw [hf]
  simp only [ho, hk, hb, Nat.not_le.mpr hp, if_false, Bool.not_true, Bool.false_eq_true, ne_eq, not_true, keptPatch_eq]

/-- An instruction that is at issue and stalls changes nothing; a stalled LWAIT notes when its stall began. -/
theorem issue_stall {d : Dev} {op e n : Nat} {c : Ic} {body : Dev → Ic → Ex Nx}
    (hf : fetchIns d e = some (c, n)) (hp : c.pc < n) (ho : opcodeOf c.w0 = op) (hk : opcodeKnown op = true)
    (hb : body d c = .error .stall) : issue op e body d = if op = 0x22 then noteStall d c else d := by
  unfold issue
  rw [hf]
  simp only [ho, hk, hb, Nat.not_le.mpr hp, if_false, Bool.not_true, Bool.false_eq_true, ne_eq, not_true]

/-- An instruction that is at issue and faults ends its launch. -/
theorem issue_fault {d : Dev} {op e n : Nat} {c : Ic} {body : Dev → Ic → Ex Nx} {code va line peg : Nat}
    (hf : fetchIns d e = some (c, n)) (hp : c.pc < n) (ho : opcodeOf c.w0 = op) (hk : opcodeKnown op = true)
    (hb : body d c = .error (.fault code va line peg)) :
    issue op e body d = endLaunchFault d c.launch { idx := c.li, line := line, peg := peg, pc := c.pc, va := va, code := code } := by
  unfold issue
  rw [hf]
  simp only [ho, hk, hb, Nat.not_le.mpr hp, if_false, Bool.not_true, Bool.false_eq_true, ne_eq, not_true]

/-- The program's instruction count of an instruction that has been fetched. -/
theorem icount_fetch {d : Dev} {e n : Nat} {c : Ic} (hf : fetchIns d e = some (c, n)) : icount d c = n := by
  unfold fetchIns at hf
  split at hf
  · cases hf
  · split at hf
    · cases hf
    · next z hz =>
      split at hf
      · cases hf
      · next x hx =>
        split at hf
        · cases hf
        · dsimp only at hf
          split at hf
          · cases hf
          · split at hf
            · cases hf
            · next p hpp =>
              cases hf
              simp [icount, hz, hx, hpp]

/-- Moving PC in sequence and by a jump. -/
theorem getE_movePc_seq (d : Dev) (c : Ic) (f : EngCtx → EngCtx) :
    getE (movePc (modE d c.ctx c.idx f) c.ctx c.idx (c.pc + 1) true) c.ctx c.idx =
      { f (getE d c.ctx c.idx) with
        loops := (loopNext c.pc (c.pc + 1) (f (getE d c.ctx c.idx)).loops).1
        pc := (loopNext c.pc (c.pc + 1) (f (getE d c.ctx c.idx)).loops).2 } := by
  simp [movePc]

theorem getE_movePc_jump (d : Dev) (c : Ic) (f : EngCtx → EngCtx) (pc : Nat) :
    getE (movePc (modE d c.ctx c.idx f) c.ctx c.idx pc false) c.ctx c.idx = { f (getE d c.ctx c.idx) with pc := pc } := by
  simp [movePc]

theorem movePc_only (d : Dev) (ctx i n : Nat) (q : Bool) : movePc d ctx i n q = { d with eng := (movePc d ctx i n q).eng } := rfl

theorem eng_movePc_ne (d : Dev) (ctx i n : Nat) (q : Bool) {k : Nat} (h : k ≠ engKey ctx i) :
    smGet {} (movePc d ctx i n q).eng k = smGet {} d.eng k := eng_modE_ne _ _ _ _ h

/-- An instruction followed by the next in sequence: the device it leaves, but for its engine, is the device after its own effect. -/
theorem issue_seq {s : State} {op e n : Nat} {c : Ic} {d' : Dev} {body : Dev → Ic → Ex Nx}
    (h : AtIns s e op n c) (hk : opcodeKnown op = true) (hb : body s.dev c = nextIns c d') :
    ∃ t, onDev s (issue op e body) = .next t ∧ t = { s with dev := { d' with eng := t.dev.eng } }
      ∧ (∀ k, k ≠ engKey c.ctx c.idx → smGet {} t.dev.eng k = smGet {} d'.eng k)
      ∧ engOf t c = afterSeq c (getE d' c.ctx c.idx) := by
  refine ⟨_, onDev_next _ _, ?_, ?_, ?_⟩
  · rw [issue_ok h.1 h.2.1 h.2.2 hk hb]; rfl
  · rw [issue_ok h.1 h.2.1 h.2.2 hk hb]
    intro k hkk
    simp only
    rw [eng_movePc_ne _ _ _ _ _ hkk, eng_modE_ne _ _ _ _ hkk]
  · rw [issue_ok h.1 h.2.1 h.2.2 hk hb]
    simp only [engOf]
    rw [getE_movePc_seq]
    simp [afterSeq]

/-- An instruction that moves PC to an index. -/
theorem issue_jump {s : State} {op e n pc : Nat} {c : Ic} {d' : Dev} {body : Dev → Ic → Ex Nx}
    (h : AtIns s e op n c) (hk : opcodeKnown op = true) (hb : body s.dev c = .ok { dev := d', pc := pc, seq := false }) :
    ∃ t, onDev s (issue op e body) = .next t ∧ t = { s with dev := { d' with eng := t.dev.eng } }
      ∧ (∀ k, k ≠ engKey c.ctx c.idx → smGet {} t.dev.eng k = smGet {} d'.eng k)
      ∧ engOf t c = afterJump c (getE d' c.ctx c.idx) pc := by
  refine ⟨_, onDev_next _ _, ?_, ?_, ?_⟩
  · rw [issue_ok h.1 h.2.1 h.2.2 hk hb]; rfl
  · rw [issue_ok h.1 h.2.1 h.2.2 hk hb]
    intro k hkk
    simp only
    rw [eng_movePc_ne _ _ _ _ _ hkk, eng_modE_ne _ _ _ _ hkk]
  · rw [issue_ok h.1 h.2.1 h.2.2 hk hb]
    simp only [engOf]
    rw [getE_movePc_jump]
    simp [afterJump]

/-- An instruction whose own effect changes only what its engine holds. -/
theorem issue_engine {s : State} {op e n : Nat} {c : Ic} {f : EngCtx → EngCtx} {body : Dev → Ic → Ex Nx}
    (h : AtIns s e op n c) (hk : opcodeKnown op = true) (hb : body s.dev c = nextIns c (modE s.dev c.ctx c.idx f)) :
    ∃ t, onDev s (issue op e body) = .next t ∧ OnlyEngine c s t ∧ engOf t c = afterSeq c (f (engOf s c)) := by
  obtain ⟨t, h1, h2, h3, h4⟩ := issue_seq h hk hb
  refine ⟨t, h1, ⟨?_, fun k hkk => ?_⟩, ?_⟩
  · rw [h2]; rfl
  · rw [h3 k hkk, eng_modE_ne _ _ _ _ hkk]
  · rw [h4, getE_modE_same]; rfl

/-- An instruction whose own effect is to write a scalar register. -/
theorem writesReg_of {s : State} {op e n r : Nat} {c : Ic} {v : Word} {body : Dev → Ic → Ex Nx}
    (h : AtIns s e op n c) (hk : opcodeKnown op = true)
    (hb : body s.dev c = nextIns c (modE s.dev c.ctx c.idx (fun e => setSreg e r v))) :
    ∃ t, onDev s (issue op e body) = .next t ∧ WritesReg c s t r v := by
  obtain ⟨t, h1, h2, h3⟩ := issue_engine h hk hb
  refine ⟨t, h1, h2, fun q => ?_, ?_⟩
  · rw [h3]
    have : sreg (afterSeq c (setSreg (engOf s c) r v)) q = sreg (setSreg (engOf s c) r v) q := rfl
    rw [this, sreg_setSreg]
  · rw [h3]
    conv_lhs => rw [setSreg_only]
    rfl

theorem writesSd_of {s : State} {op e n : Nat} {c : Ic} {v : Word} {body : Dev → Ic → Ex Nx}
    (h : AtIns s e op n c) (hk : opcodeKnown op = true) (hb : body s.dev c = writeSd s.dev c v) :
    ∃ t, onDev s (issue op e body) = .next t ∧ WritesSd c s t v := writesReg_of h hk hb

/-- A line reads as it was put. -/
theorem lineOf_setLine (e : EngCtx) (n m : Nat) (l : Line) : lineOf (setLine e n l) m = if m = n then l else lineOf e m := by
  by_cases h : m = n
  · subst h; simp [lineOf, setLine]
  · simp [lineOf, setLine, smGet_smSet_ne _ _ _ h, h]

/-- An instruction whose own effect is to put a line into a state. -/
theorem writesLine_of {s : State} {op e n r : Nat} {c : Ic} {l : Line} {body : Dev → Ic → Ex Nx}
    (h : AtIns s e op n c) (hk : opcodeKnown op = true)
    (hb : body s.dev c = nextIns c (modE s.dev c.ctx c.idx (fun e => setLine e r l))) :
    ∃ t, onDev s (issue op e body) = .next t ∧ WritesLine c s t r l := by
  obtain ⟨t, h1, h2, h3⟩ := issue_engine h hk hb
  refine ⟨t, h1, h2, fun q => ?_, ?_⟩
  · rw [h3]
    have : lineOf (afterSeq c (setLine (engOf s c) r l)) q = lineOf (setLine (engOf s c) r l) q := rfl
    rw [this, lineOf_setLine]
  · rw [h3]; rfl

/-- The physical engine of an instruction that has been fetched. -/
theorem phys_fetch {d : Dev} {e n : Nat} {c : Ic} (h : fetchIns d e = some (c, n)) : c.phys = e := by
  unfold fetchIns at h
  repeat (first | split at h | (simp only [reduceCtorEq] at h) | (dsimp only at h))
  all_goals (try cases h)
  all_goals rfl

/-! ### The basket -/

theorem basketOk_open {s : State} {ctx i off n code : Nat} (h : BasketOpen s ctx i off n) :
    basketOk s.dev ctx i off n code = .ok () := by
  unfold basketOk
  rw [if_neg (by have := h.1; omega)]
  have hr : rinsing s.dev ctx i off n = false := by
    unfold rinsing
    by_cases hn : n = 0
    · simp [hn]
    · rw [Bool.and_eq_false_iff, List.any_eq_false]
      exact .inr fun g hg => by have := h.2 g hg hn; simpa using this
  rw [hr]
  rfl

theorem dirty_none {s : State} {ctx i : Nat} {who : BUnit} {lo hi : Nat} (h : HandedOver s ctx i who lo hi) :
    (getE s.dev ctx i).dirty.filter (dirtyFor who lo hi) = [] := by
  rw [List.filter_eq_nil_iff]
  intro z hz
  have := h z hz
  simp only [dirtyFor, Bool.and_eq_true, decide_eq_true_eq, not_and]
  intro h1 h2
  rcases this with h | h | h
  · exact absurd h h1.1
  · omega
  · have := h1.2; omega

/-- A read of bytes that have been handed over reads the basket, and nothing changes. -/
theorem basketRead_clean {s : State} {ctx i : Nat} {who : BUnit} {off n : Nat} (h : HandedOver s ctx i who off (off + n)) :
    basketRead s.dev ctx i who off n = (memRead s.dev.mem.baskets (shareAt s ctx i off) n, s.dev) := by
  unfold basketRead
  simp only [dirty_none h]
  rfl

/-- Noting replaced list entries changes only what the engine holds, and nothing where no running line reads a list. -/
theorem noteLists_only (d : Dev) (ctx i off n : Nat) (old : Mem) :
    noteLists d ctx i off n old = { d with eng := (noteLists d ctx i off n old).eng } := by
  unfold noteLists; split <;> rfl

theorem noteLists_none {d : Dev} {ctx i : Nat} (off n : Nat) (old : Mem)
    (h : (getE d ctx i).lines.any (fun p => listRuns p.2) = false) : noteLists d ctx i off n old = d := by
  simp [noteLists, h]

theorem eng_noteLists_ne (d : Dev) (ctx i off n : Nat) (old : Mem) {k : Nat} (h : k ≠ engKey ctx i) :
    smGet {} (noteLists d ctx i off n old).eng k = smGet {} d.eng k := by
  unfold noteLists
  split
  · exact eng_modE_ne _ _ _ _ h
  · rfl

/-- Noting leaves all that the engine holds but its lines. -/
theorem getE_noteLists (d : Dev) (ctx i off n : Nat) (old : Mem) :
    getE (noteLists d ctx i off n old) ctx i =
      { getE d ctx i with lines := (getE (noteLists d ctx i off n old) ctx i).lines } := by
  unfold noteLists
  split
  · rw [getE_modE_same]
  · rfl

/-- A write of bytes that have been handed over writes the basket. -/
theorem basketWrite_clean {s : State} {ctx i : Nat} {who : BUnit} {off : Nat} {bs : List Byte} (h : HandedOver s ctx i who off (off + bs.length)) :
    (basketWrite s.dev ctx i who off bs).mem.baskets = memWrite s.dev.mem.baskets (shareAt s ctx i off) bs
      ∧ (basketWrite s.dev ctx i who off bs).freeCtr = s.dev.freeCtr := by
  unfold basketWrite
  simp only [dirty_none h]
  split
  · rw [noteLists_only]; exact ⟨rfl, rfl⟩
  · rw [modE_only, noteLists_only]; exact ⟨rfl, rfl⟩

/-- A write changes nothing but the baskets, the free value counter and the dirty ranges of the engine. -/
theorem basketWrite_only (d : Dev) (ctx i : Nat) (who : BUnit) (off : Nat) (bs : List Byte) :
    basketWrite d ctx i who off bs = { d with
      freeCtr := (basketWrite d ctx i who off bs).freeCtr, eng := (basketWrite d ctx i who off bs).eng,
      mem := { d.mem with baskets := (basketWrite d ctx i who off bs).mem.baskets } } := by
  unfold basketWrite
  dsimp only
  split
  · rw [noteLists_only]
  · rw [modE_only, noteLists_only]

/-- A write of the sequencer leaves what its engine holds as it was, but for what its lines note of their lists. -/
theorem basketWrite_sequencer (d : Dev) (ctx i off : Nat) (bs : List Byte) :
    getE (basketWrite d ctx i .sequencer off bs) ctx i =
      { getE d ctx i with lines := (getE (basketWrite d ctx i .sequencer off bs) ctx i).lines } := by
  unfold basketWrite
  simp only [decide_true, Bool.or_true, Bool.true_or, if_true]
  exact getE_noteLists _ _ _ _ _ _

/-- Where no running line reads a list, it leaves it as it was. -/
theorem basketWrite_sequencer_eng {d : Dev} {ctx i : Nat} (off : Nat) (bs : List Byte)
    (h : (getE d ctx i).lines.any (fun p => listRuns p.2) = false) : (basketWrite d ctx i .sequencer off bs).eng = d.eng := by
  unfold basketWrite
  simp only [decide_true, Bool.or_true, Bool.true_or, if_true]
  rw [noteLists_none _ _ _ (by exact h)]

theorem eng_basketWrite_ne (d : Dev) (ctx i : Nat) (who : BUnit) (off : Nat) (bs : List Byte) {k : Nat} (h : k ≠ engKey ctx i) :
    smGet {} (basketWrite d ctx i who off bs).eng k = smGet {} d.eng k := by
  unfold basketWrite
  dsimp only
  split
  · rw [eng_noteLists_ne _ _ _ _ _ _ h]
  · rw [eng_modE_ne _ _ _ _ h, eng_noteLists_ne _ _ _ _ _ _ h]

@[simp] theorem natLe_length (n v : Nat) : (natLe n v).length = n := by
  induction n generalizing v with
  | zero => rfl
  | succ n ih => simp [natLe, ih]

/-- Byte k of a number laid out least significant byte first. -/
theorem natLe_get (n v k : Nat) (h : k < n) : (natLe n v)[k]'(by simpa using h) = BitVec.ofNat 8 (v / 256 ^ k) := by
  induction n generalizing v k with
  | zero => omega
  | succ n ih =>
    cases k with
    | zero => simp [natLe]
    | succ k =>
      simp only [natLe, List.getElem_cons_succ, ih (v / 256) k (by omega)]
      rw [Nat.div_div_eq_div_mul, Nat.pow_succ']

end Sys2Proof.Machine
end

