-- ==== Sys2Proof/Laws/Contexts.lean ====
section
/-! SUPPORT. The length of a context image. -/

namespace Sys2Proof.Machine

theorem slice_length (bs : List Byte) (o n : Nat) : (slice bs o n).length = n := by
  simp only [slice, List.length_append, List.length_replicate, List.length_take]
  omega

@[simp] theorem fit_length (n : Nat) (bs : List Byte) : (fit n bs).length = n := slice_length bs 0 n

theorem shaBlocks_length (fuel : Nat) (hs : List Word) (m : List Byte) (h : hs.length = 8) : (shaBlocks hs m fuel).length = 8 := by
  induction fuel generalizing hs m with
  | zero => exact h
  | succ n ih =>
    rw [shaBlocks]
    split
    · exact h
    · exact ih _ _ rfl

theorem flatMap_length {α : Type} (l : List α) (f : α → List Byte) (n : Nat) (h : ∀ a, (f a).length = n) :
    (l.flatMap f).length = l.length * n := by
  induction l with
  | nil => simp
  | cons a l ih => rw [List.flatMap_cons, List.length_append, h, ih, List.length_cons, Nat.succ_mul, Nat.add_comm]

@[simp] theorem sha256_length (m : List Byte) : (sha256 m).length = 32 := by
  rw [sha256, flatMap_length _ _ 4 (fun w => by simp [natBe, natLe_length]), shaBlocks_length _ _ _ rfl]

theorem engImage_length (d : Dev) (ctx : Nat) (x : Ctx) (layout i : Nat) : (engImage d ctx x layout i).length = engStride x := by
  simp [engImage, engStride]

/-- An image has the bytes that its header says (13 R504). -/
theorem imageOf_length (d : Dev) (ctx : Nat) (x : Ctx) (h : smFind d.ctxs ctx = some x) : (imageOf d ctx).length = imageBytes x := by
  have e : 256 ≤ engOff x := by
    simp only [engOff, align64k, ceilDiv]
    omega
  simp only [imageOf, h, List.length_append, fit_length, sha256_length, flatMap_length _ _ _ (engImage_length d ctx x _), imageBytes]
  simp only [span, List.length_range']
  omega

end Sys2Proof.Machine
end

