-- ==== Sys2Proof/Tests/Slice0.lean ====
section
/-! SUPPORT. Tests: ill-formed operands that are refused; single steps on small states; and, for every statement with hypotheses, a
state and operands that meet the hypotheses of each of its clauses (theorems `witness_…`, in the order of the statements). -/

namespace Sys2Proof.Tests

set_option Elab.async false

open Sys2Proof.Machine

/-! ### Small states -/

/-- A context of two engines, four granules and eight tiles in partition 0. -/
def ctx0 : Ctx := {
  state := .resident, part := 0, subn := false, engFirst := 0, engCount := 2, basket := 4, tiles := 8, ttiles := 0, weight := 1,
  istore := 4, seed := 0, base := [0, 0], saveFrames := [], progs := [], ptes := [], pools := [], serve := {}, pins := [],
  stopped := false, stopLaunch := none, destroying := false, destroyCid := none, moveCid := none, image := none, cupBack := [],
  blockedAt := 0, wantAt := none, engTime := [], eest := [], everResident := true, rinseWait := [] }

/-- A launch of both engines of context 1. -/
def launch0 : Launch := {
  ctx := 1, purpose := .prog 0, slot := 0, engFirst := 0, engCount := 2, args := [], resume := false, cls := 1, due := none,
  arrived := 0, state := .running, started := 0, watchdog := 0, fault := none, wasted := 0, sliceFrom := 0, pstat0 := 0,
  nonfin := 0, most := 0 }

/-- An instruction of four words. -/
def ins (w0 w1 w2 w3 : Nat) : BitVec 128 := BitVec.ofNat 128 (w0 + 2 ^ 32 * (w1 + 2 ^ 32 * (w2 + 2 ^ 32 * w3)))

/-- Engine 0 runs, as engine 0 of context 1, a program that stands in the engine at v; engine 1 holds u. -/
def engState (p : List (BitVec 128)) (v u : EngCtx) : State := { dev := {
  ctxs := [(1, { ctx0 with progs := [(0, { hdr := [], words := p })] })], launches := [(0, launch0)], running := [(0, 0), (1, 0)],
  eng := [(128, { v with seq := .running }), (129, { u with seq := .running })], nextLaunch := 1 } }

/-- The same, of an engine in its reset state. -/
def eng1 (p : List (BitVec 128)) : State := engState p {} {}

/-- The instruction at issue on engine 0. -/
def ic0 (s : State) : Ic := match fetchIns s.dev 0 with
  | some (c, _) => c
  | none => { ctx := 0, idx := 0, phys := 0, launch := 0, li := 0, pc := 0, w0 := 0, w1 := 0, w2 := 0, w3 := 0 }

/-! ### Engine programs -/

/-- A program of one instruction, and two NOPs behind it. -/
def prog1 (w : BitVec 128) : List (BitVec 128) := [w, ins 0 0 0 0, ins 0 0 0 0]

/-- Engine 0 at a program of one instruction. -/
def at1 (w0 w1 w2 w3 : Nat) : State := eng1 (prog1 (ins w0 w1 w2 w3))

/-- The instruction on engine 0 of s has opcode op and no reserved bit of a scalar instruction. -/
abbrev Scalar (s : State) (op : Nat) : Prop := ctlReserved (ic0 s) = false ∧ AtIns s 0 op 3 (ic0 s)

theorem witness_ScalarInstructionsWriteTheirDestination :
    Scalar (at1 0 0 0 0) 0 ∧ Scalar (at1 0x06080000 5 0 0) 6 ∧
    (Scalar (at1 0x070801A0 7 0 0) 7 ∧ fFUNC (ic0 (at1 0x070801A0 7 0 0)).w0 % 16 ≤ 10) ∧
    (Scalar (at1 0x0C0000F0 1 2 0) 12 ∧ fFUNC (ic0 (at1 0x0C0000F0 1 2 0)).w0 ≤ 15) := by decide

theorem witness_MovsReadsSpecialRegisters :
    ∀ n ∈ [0, 1, 2, 3, 4, 5, 6, 7, 8, 16, 31], let s := at1 0x0A080000 n 0 0
      Scalar s 0x0A ∧ (ic0 s).w1 = n ∧ (smFind s.dev.launches (ic0 s).launch).isSome ∧ (smFind s.dev.ctxs (ic0 s).ctx).isSome := by decide

theorem witness_ControlInstructionsMovePc :
    (let s := at1 0x02000000 2 0 0
     Scalar s 2 ∧ fFUNC (ic0 s).w0 = 0 ∧ (ic0 s).w1 < 3 ∧ (ic0 s).w1 ≠ (ic0 s).pc + 1) ∧
    (let s := at1 0x02000020 2 0 0
     Scalar s 2 ∧ fFUNC (ic0 s).w0 = 2 ∧ (ic0 s).w1 < 3 ∧ sreg (engOf s (ic0 s)) (fSA (ic0 s).w0) = sreg (engOf s (ic0 s)) (fSB (ic0 s).w0)) ∧
    (∀ n ∈ [0, 4], let s := at1 0x03000000 2 n 0
     Scalar s 3 ∧ fFUNC (ic0 s).w0 = 0 ∧ (ic0 s).w1 < 3 ∧ (ic0 s).pc + 1 ≤ (ic0 s).w1 ∧ (engOf s (ic0 s)).loops.length < 4
       ∧ (ic0 s).w2 = n) ∧
    (let s := at1 0x04000000 2 0 0
     Scalar s 4 ∧ (ic0 s).w1 < 3 ∧ (engOf s (ic0 s)).calls.length < 8) ∧
    (let s := engState (prog1 (ins 0x05000000 0 0 0)) { calls := [2] } {}
     Scalar s 5 ∧ (engOf s (ic0 s)).calls = 2 :: []) ∧
    (let s := at1 0x01000000 0 0 0
     Scalar s 1 ∧ unitXfers s.dev 1 0 = [] ∧ smFind s.dev.launches (ic0 s).launch = some launch0 ∧ launch0.engFirst ≤ 1
       ∧ 1 < launch0.engFirst + launch0.engCount ∧ engKey (ic0 s).ctx 1 ≠ engKey (ic0 s).ctx (ic0 s).idx
       ∧ (getE s.dev (ic0 s).ctx 1).seq ≠ .halted) := by decide

theorem witness_ScalarLoadsAndStoresReachTheBasket :
    ∀ p ∈ [(0x08, 0x08080000), (0x09, 0x09000000)], let s := at1 p.2 64 0 0
      Scalar s p.1 ∧ ((sreg (engOf s (ic0 s)) (fSA (ic0 s).w0)).toNat + (ic0 s).w1) % 2 ^ 32 = 64 ∧ BasketOpen s 1 0 64 4
        ∧ HandedOver s 1 0 .sequencer 64 68 := by decide

/-- An XADD of s1 into a field of the LREL behind it. -/
def atXadd : State := eng1 [ins 0x0B000000 (2 ^ 27 + 2 ^ 25 + 15 * 2 ^ 15 + 2 ^ 14) 0 0, ins 0x23000000 0 0 0, ins 0 0 0 0]

theorem witness_XaddPatchesTheNextInstruction :
    let s := atXadd
    let c := ic0 s
    let ps := [c.w1, c.w2, c.w3].filterMap patchOf
    let target := ins 0x23000000 0 0 0
    AtIns s 0 0x0B 3 c ∧ smFind s.dev.launches c.launch = some launch0 ∧
    (smFind s.dev.ctxs c.ctx).bind (fun x => (smFind x.progs launch0.slot).map (fun p => nth 0#128 p.words (c.pc + 1))) = some target ∧
    c.w0 % 2 ^ 24 = 0 ∧ (∀ w ∈ [c.w1, c.w2, c.w3], w % 2 ^ 14 = 0) ∧ c.pc + 1 < 3 ∧ 0x20 ≤ opcodeOf (insWord target 0) ∧ ps ≠ [] ∧
    (∀ q ∈ ps, patchBad q = false) ∧ ps.Pairwise (fun q r => patchOverlap q r = false) := by decide

/-- A transfer of context 1's engine 0. -/
def xfer0 (k : XKind) : Xfer := {
  kind := k, ctx := 1, idx := 0, va := 0, off := 0, roff := 0, len := 64, sem := none, drain := false, tags := [], pc := 0, data := [] }

theorem witness_BfenceHandsOverBasketWrites :
    (let s := at1 0x0D0000F0 0 0 0
     Scalar s 0x0D ∧ fFUNC (ic0 s).w0 = 15 ∧ unitXfers s.dev 1 0 = []) ∧
    (∀ k ∈ [XKind.toBasket, .toEngine 1], let s := at1 0x0D000080 0 0 0
     let t : State := { s with dev := { s.dev with xfers := [(0, xfer0 k)] } }
     Scalar t 0x0D ∧ fFUNC (ic0 t).w0 ≤ 15 ∧ bit (fFUNC (ic0 t).w0) 3 = true ∧ ∃ x ∈ unitXfers t.dev 1 0, x.kind = k) := by
  decide

/-- A line descriptor of a MODE: 4,096 bytes from virtual address 0, or from where an INDEX list at basket offset 0 says, in one peg of three
slots at basket offset 4,096. -/
def modeDesc (mode rate prio : Nat) : List Byte :=
  natLe 32 0 ++ natLe 4 4096 ++ natLe 4 1 ++ natLe 4 1 ++ natLe 4 (64 * 2 ^ 15 + 2 * 2 ^ 11) ++ natLe 4 4096
    ++ natLe 4 (rate * 2 ^ 20 + 4 * 2 ^ 10 + prio * 2 ^ 8 + mode * 2 ^ 4) ++ natLe 8 0

/-- One that reads its addresses in order. -/
def lineDesc (rate prio : Nat) : List Byte := modeDesc 0 rate prio

/-- A line of that descriptor with its three slots. -/
def line0 (st : LState) (peg : PegState) : Line := {
  state := st, desc := lineDesc 0 0, pegs := [{ state := peg }, {}, {}], tail := if peg = .empty then 0 else 1 }

/-- Engine 0 at an instruction of its line 2, which is l. -/
def atLine (w0 w1 : Nat) (l : Line) : State := engState (prog1 (ins w0 w1 0 0)) { lines := [(2, l)] } {}

theorem witness_LineInstructionsMoveTheLineStates :
    (let s := { atLine 0x20200000 0 {} with dev := { (atLine 0x20200000 0 {}).dev with mem := { baskets := memWrite [] 0 (lineDesc 0 0) } } }
     let c := ic0 s
     let x := memRead s.dev.mem.baskets (shareAt s c.ctx c.idx (64 * bits c.w1 31 15)) 64
     AtIns s 0 0x20 3 c ∧ c.w0 % 2 ^ 15 = 0 ∧ c.w1 % 2 ^ 15 = 0 ∧ c.w2 = 0 ∧ c.w3 = 0 ∧ BasketOpen s c.ctx c.idx 0 64 ∧
     HandedOver s c.ctx c.idx .line 0 64 ∧ (lineOf (engOf s c) (fLine c.w0)).state = .idle ∧ ldBad x = false ∧
     ldPegBase x + ldSlots x * ldPegSize x ≤ shareBytes s.dev c.ctx ∧ ldMode x ≠ 1 ∧
     ∀ p ∈ (engOf s c).lines, p.1 ≠ fLine c.w0 → p.2.state ≠ .idle → pegsOverlap x p.2.desc = false) ∧
    (let s := atLine 0x21200000 0 (line0 .ready .empty)
     AtIns s 0 0x21 3 (ic0 s) ∧ lineReserved (ic0 s) = false ∧ (lineOf (engOf s (ic0 s)) (fLine (ic0 s).w0)).state = .ready) ∧
    (∀ st ∈ [LState.running, .done], let s := atLine 0x23200000 0 (line0 st .taken)
     let l := lineOf (engOf s (ic0 s)) (fLine (ic0 s).w0)
     AtIns s 0 0x23 3 (ic0 s) ∧ lineReserved (ic0 s) = false ∧ 0 < countPegs l .taken ∧ l.state = st ∧ l.rel + 1 = streamPegs l.desc) ∧
    (let s := atLine 0x25208000 0 (line0 .running .filling)
     AtIns s 0 0x25 3 (ic0 s) ∧ lineReserved (ic0 s) = false) := by decide +kernel

theorem witness_LwaitTakesTheHeadPeg :
    ∀ p ∈ [PegState.full, .filling], let s := atLine 0x22208000 0 (line0 .running p)
      let c := ic0 s
      let l := lineOf (engOf s c) (fLine c.w0)
      AtIns s 0 0x22 3 c ∧ lineReserved c = false ∧ fLineSD c.w0 ≠ 31 ∧ l.state = .running ∧ l.head ≠ streamPegs l.desc ∧
      countPegs l .taken ≠ ldSlots l.desc ∧ (pegAt l (slotOf l l.head)).state = p ∧ (pegAt l (slotOf l l.head)).peg = l.head := by decide

theorem witness_LcancelCancelsTheLine :
    let s := atLine 0x24200000 0 (line0 .running .filling)
    AtIns s 0 0x24 3 (ic0 s) ∧ lineReserved (ic0 s) = false ∧ (lineOf (engOf s (ic0 s)) (fLine (ic0 s).w0)).state ≠ .cancelling := by
  decide

theorem witness_LineUnitRefillsCreditAndIssuesTransfers :
    ∀ mode ∈ [0, 1], let s := atLine 0 0 { line0 .running .empty with desc := modeDesc mode 0 0 }
      let v := getE s.dev 1 0
      let d := beginRuns s.dev launch0.ctx 0
      runningOn s.dev 0 = some (0, launch0, 0) ∧ chooseLine d launch0.ctx 0 = some 2 ∧ ldMode (lineOf v 2).desc = mode ∧
      (lineOf v 2).state = .running ∧ nextKind (lineOf v 2) = some (false, 0) ∧ (runKnown (lineOf v 2) 0 = false ↔ mode = 1) ∧
      rinsing s.dev 1 0 0 8 = false ∧ (lineOf v 2).olds = [] ∧ HandedOver s 1 0 .line 0 8 ∧
      nextTransfer (lineOf (getE d 1 0) 2) = some (false, 0, 0, 4096) ∧ remoteOf s.dev launch0.ctx 0 false = none := by decide +kernel

/-- A local page of 64 KiB in frame 8, which every access may use. -/
def page0 : Pte := {
  kind := .localPage, size2m := false, r := true, w := true, mg := true, rx := true, transit := false, target := 8, frames := [8],
  slowPgs := [], tier0 := false, cupTier := false, kvPool := none }

/-- The state in which context 1 has pages ps, transfer 0 is x and line 2 of engine 0 is l. -/
def atXfer (ps : SMap Pte) (x : Xfer) (l : Line) : State :=
  let s := atLine 0 0 l
  { s with dev := { s.dev with ctxs := [(1, { ctx0 with progs := [(0, { hdr := [], words := prog1 0 })], ptes := ps })],
                               xfers := [(0, x)], nextXfer := 1 } }

/-- A line transfer of 64 bytes. -/
def lineXfer (drain : Bool) : Xfer := { xfer0 (.line 2 false 0 0) with drain := drain }

theorem witness_LineTransfersLandDrainOrFail :
    (let s := atXfer [(0, page0)] (lineXfer false) (line0 .running .filling)
     let l := lineOf (getE s.dev 1 0) 2
     smFind s.dev.xfers 0 = some (lineXfer false) ∧ ldExpand l.desc = 0 ∧ remoteOf s.dev 1 0 false = none ∧
     (match readVirt s.dev 1 0 64 .engRead with | .ok bs => bs.length == 64 | .error _ => false) = true ∧ HandedOver s 1 0 .line 4096 4160 ∧
     rinsing s.dev 1 0 4096 64 = false ∧ NoIndexLine s 1 0) ∧
    (let s := atXfer [(0, page0)] (lineXfer true) (line0 .cancelling .draining)
     smFind s.dev.xfers 0 = some (lineXfer true) ∧ (lineXfer true).drain = true) ∧
    (let s := atXfer [] (lineXfer false) (line0 .running .filling)
     smFind s.dev.xfers 0 = some (lineXfer false) ∧ remoteOf s.dev 1 0 false = none ∧ (smFind s.dev.ctxs 1).isSome ∧
     (match readVirt s.dev 1 0 64 .engRead with | .error e => e == .unmapped 0 | .ok _ => false) = true ∧
     (lineOf (getE s.dev 1 0) 2).state = .running) := by
  decide +kernel

/-- A command of opcode op in context ctx and queue 1 with 48 parameter bytes, running. -/
def cmd0 (op ctx : Nat) (pars : List Byte) (payload : List Byte) : Cmd := {
  queue := 1, hdr := natLe 2 op ++ natLe 2 0 ++ natLe 4 7 ++ natLe 1 ctx ++ natLe 1 1 ++ natLe 2 payload.length ++ natLe 4 0 ++ pars,
  payload := payload, arrival := 0, phase := .running, entry := [], tstate := 0, guarantee := none, throttled := false,
  bmeStall := false, progress := 0, fin := none }

/-- Bytes of the values, each in its number of bytes. -/
def bytesOf (l : List (Nat × Nat)) : List Byte := l.flatMap (fun p => natLe p.1 p.2)

theorem witness_EngineTimersAndRecallsEnd :
    (let s := atXfer [(0, page0)] (xfer0 .toMem) (line0 .recall .filling)
     let l := lineOf (getE s.dev 1 0) 2
     runningOn s.dev 0 = some (0, launch0, 0) ∧ l.state = .recall ∧ l.out = 0 ∧
     (smFind s.dev.ctxs launch0.ctx).bind (fun x => leafKey x l.faultVa) = some (0, page0) ∧ page0.transit = false ∧
     page0.kind = .localPage) ∧
    (let s : State := { dev := { mem := { granRinse := [130] } } }
     (128 * 1 + 2) ∈ s.dev.mem.granRinse) ∧
    (∀ xs ∈ [[], [(0, xfer0 .toMem)]], let z := { launch0 with watchdog := 2 }
     let s : State := { dev := { now := 800, launches := [(0, z)], cmds := [(0, cmd0 0x0402 1 (natLe 48 0) [])], xfers := xs } }
     ((∀ i ∈ launchEngines z, unitXfers s.dev z.ctx i = []) ↔ xs = []) ∧ smFind s.dev.launches 0 = some z ∧ z.state = .running ∧ z.purpose = .prog 0 ∧ z.watchdog ≠ 0 ∧
     z.started + 400 * z.watchdog ≤ s.dev.now ∧ smFind s.dev.cmds 0 = some (cmd0 0x0402 1 (natLe 48 0) []) ∧
     (cmd0 0x0402 1 (natLe 48 0) []).fin = none) := by decide

theorem witness_XferIssuesATransfer :
    ∀ dir ∈ [0, 1, 2], let s := at1 (0x30000000 + dir * 2 ^ 22 + (if dir = 2 then 2 ^ 14 else 0)) 1 0 0
      let c := ic0 s
      AtIns s 0 0x30 3 c ∧ bits c.w0 23 22 = dir ∧ c.w0 % 2 ^ 10 = 0 ∧ 64 * bits c.w1 14 0 ≠ 0 ∧ BasketOpen s c.ctx c.idx 0 64 ∧
      outstanding s.dev c.ctx c.idx < 128 ∧ HandedOver s c.ctx c.idx .transfer 0 64 ∧ c.w3 < 2 ^ 20 ∧
      (∀ p ∈ remotePieces 0 64, remoteOf s.dev c.ctx (0 + p.1) (dir == 0) = none) ∧ c.w2 % 2 ^ 15 = 0 ∧ c.w3 = 0 ∧
      bits c.w0 20 14 < launchCount s.dev c ∧ BasketOpen s c.ctx (ofLaunchIndex s.dev c.launch (bits c.w0 20 14)) 0 64 := by decide

theorem witness_SignalsWaitsAndBarriers :
    (let s := at1 0x31004000 0 0 0
     let c := ic0 s
     smFind s.dev.launches c.launch = some launch0 ∧ AtIns s 0 0x31 3 c ∧ c.w0 % 2 ^ 10 = 0 ∧ bits c.w0 23 21 = 0 ∧ c.w1 = 0 ∧ c.w2 = 0
       ∧ c.w3 = 0 ∧ bits c.w0 20 14 < launch0.engCount ∧ earlierTo s.dev c.ctx c.idx (launch0.engFirst + bits c.w0 20 14) s.dev.nextXfer = false
       ∧ smGet 0 (getE s.dev c.ctx (launch0.engFirst + bits c.w0 20 14)).sem (bits c.w0 13 10) < 65535) ∧
    (∀ n ∈ [3, 1], let s := engState (prog1 (ins 0x32000402 0 0 0)) { sem := [(1, n)] } {}
     let c := ic0 s
     smFind s.dev.launches c.launch = some launch0 ∧ AtIns s 0 0x32 3 c ∧ bits c.w0 23 14 = 0 ∧ c.w1 = 0 ∧ c.w2 = 0 ∧ c.w3 = 0 ∧
       smGet 0 (engOf s c).sem (bits c.w0 13 10) = n ∧ bits c.w0 9 0 = 2) ∧
    (∀ b ∈ [none, some 1], let s := engState (prog1 (ins 0x33000400 0 0 0)) {} { barAt := b }
     let c := ic0 s
     smFind s.dev.launches c.launch = some launch0 ∧ AtIns s 0 0x33 3 c ∧ bits c.w0 23 14 = 0 ∧ bits c.w0 9 0 = 0 ∧ c.w1 = 0 ∧ c.w2 = 0 ∧
       c.w3 = 0 ∧ c.idx ∈ launchEngines launch0 ∧
       (b = none → ∃ i ∈ launchEngines launch0, i ≠ c.idx ∧ (getE s.dev c.ctx i).barAt ≠ some (bits c.w0 13 10)) ∧
       (b = some 1 → ∀ i ∈ launchEngines launch0, i ≠ c.idx → (getE s.dev c.ctx i).barAt = some (bits c.w0 13 10))) := by decide

/-- Whether a result is an answer. -/
def isOk {α β : Type} : Except α β → Bool
  | .ok _ => true
  | .error _ => false

theorem witness_XferCompletesAtItsDestination :
    (let s := atXfer [(0, page0)] (xfer0 .toMem) {}
     smFind s.dev.xfers 0 = some (xfer0 .toMem) ∧ inWindowOf s.dev 1 0 = false ∧ isOk (xferStore s.dev (xfer0 .toMem)) = true ∧
     (xfer0 .toMem).sem = none) ∧
    (let x := { xfer0 .toBasket with sem := some 3 }
     let s := atXfer [(0, page0)] x {}
     smFind s.dev.xfers 0 = some x ∧ isOk (xferBytes s.dev x) = true ∧ smGet 0 (getE s.dev 1 0).sem 3 < 65535 ∧
     HandedOver s 1 0 .transfer 0 64) ∧
    (let x := xfer0 (.toEngine 1)
     let s := atXfer [(0, page0)] x {}
     smFind s.dev.xfers 0 = some x ∧ earlierTo s.dev 1 0 1 0 = false ∧ x.sem = none ∧ (∀ p ∈ s.dev.xfers, p.2.kind ≠ .sig 1) ∧
     HandedOver s 1 1 (.remote none) 0 64) := by decide

theorem witness_PressRegistersAndTileImagesMove :
    (let c := ic0 (at1 0x44000000 7 8 0)
     AtIns (at1 0x44000000 7 8 0) 0 0x44 3 c ∧ bits c.w0 23 0 = 0 ∧ c.w3 = 0) ∧
    (∀ p ∈ [(0x42, 0x42020000), (0x43, 0x43020000)], let s := at1 p.2 0 0 0
     let c := ic0 s
     AtIns s 0 p.1 3 c ∧ bits c.w0 16 0 = 0 ∧ bits c.w1 14 0 = 0 ∧ c.w2 = 0 ∧ c.w3 = 0 ∧ bits c.w0 23 17 < tileCount s.dev c.ctx ∧
     BasketOpen s c.ctx c.idx 0 16448 ∧ HandedOver s c.ctx c.idx .press 0 16448) := by decide

/-- A whole leaf tile of chunk k of two chunks, the last of which is empty. -/
def leaf (k : Nat) : Tile := { tag := { lo := k, hi := k + 1, nchunk := 1, valid := true, chlog := 2, kpos := if k = 0 then 1024 else 0 } }

theorem witness_PcombFormsTheParentTile :
    let s := engState (prog1 (ins (0x41000000 + 2 ^ 10) 0 0 0)) { tiles := [(0, leaf 0), (1, leaf 1)] } {}
    let c := ic0 s
    AtIns s 0 0x41 3 c ∧ bits c.w0 9 0 = 0 ∧ c.w1 = 0 ∧ c.w2 = 0 ∧ c.w3 = 0 ∧ bits c.w0 23 17 = 0 ∧ bits c.w0 16 10 = 1 ∧
    1 < tileCount s.dev c.ctx ∧ combBad (leaf 0).tag (leaf 1).tag = false ∧ tileOf (engOf s c) 0 = leaf 0 ∧ tileOf (engOf s c) 1 = leaf 1 := by
  decide

/-- Engine 0 at a product in mode 0 of klen K elements into tile 0, whose operands are BF16 at basket offsets 0 and 2,048. -/
def atMul (dot init : Bool) (klen : Nat) : State := engState
  (prog1 (ins ((if dot then 0x56000000 else 0x40000000) + (if init then 2 ^ 16 else 0)) 0 (32 * 2 ^ 15 + klen) 0))
  { fd := [(0, 1#64)], pctl1 := 16#32 } {}

theorem witness_ProductsKeepTagsAndInactiveEntries :
    ∀ dot ∈ [false, true], ∀ p ∈ [(false, 0), (true, 16)], let s := atMul dot p.1 p.2
      let c := ic0 s
      let m := mulOf c dot
      AtIns s 0 (if dot then 0x56 else 0x40) 3 c ∧ mulReserved c = false ∧ m.mode = 0 ∧ m.group ≤ 2 ∧ pctlChlog (engOf s c) ≤ 6 ∧
      m.ncols = 0 ∧ (fdOf (fdReg (engOf s c) m.fda)).any (modeAccepts m.mode) = true ∧
      (fdOf (fdReg (engOf s c) m.fdb)).any (modeAccepts m.mode) = true ∧ m.tile < tileCount s.dev c.ctx ∧
      BasketOpen s c.ctx c.idx m.aAddr 1024 ∧ BasketOpen s c.ctx c.idx m.bAddr 2048 ∧ mulOrderBad (engOf s c) m = false ∧ m.bias = false ∧
      m.init = p.1 ∧ m.klen = p.2 ∧ HandedOver s c.ctx c.idx (if dot then .finisher else .press) m.aAddr (m.aAddr + 1024) ∧
      HandedOver s c.ctx c.idx (if dot then .finisher else .press) m.bAddr (m.bAddr + 2048) := by decide

theorem witness_FinisherRegistersLoad :
    (∀ k ∈ [0, 1, 2, 3], let s := at1 0x57000000 (k * 2 ^ 28) 9 0
     AtIns s 0 0x57 3 (ic0 s) ∧ finUsed (ic0 s) 0 0xFF000000 0xFFFFFFFF 0 = true ∧ bits (ic0 s).w1 31 28 = k) ∧
    (let s := at1 0x58000000 (15 * 2 ^ 11) 0 0
     AtIns s 0 0x58 3 (ic0 s) ∧ finUsed (ic0 s) 0 0xFFFFF800 0 0 = true ∧ BasketOpen s 1 0 0 32 ∧ HandedOver s 1 0 .finisher 0 32) ∧
    (let s := at1 0x59000000 (2 ^ 11) 0 0
     AtIns s 0 0x59 3 (ic0 s) ∧ finUsed (ic0 s) 0 0xFFFFF800 0 0 = true ∧ BasketOpen s 1 0 0 16448 ∧ HandedOver s 1 0 .finisher 0 16448
       ∧ s.dev.mem.baskets = []) ∧
    curveBad [] = false := by decide +kernel

theorem witness_FinisherMovesElements :
    (∀ p ∈ [(0x50, 0x50040000), (0x51, 0x51001000)], let s := engState (prog1 (ins p.2 0 0 0)) { fd := [(0, 6#64)] } {}
     let c := ic0 s
     AtIns s 0 p.1 3 c ∧ (fdOf (fdReg (engOf s c) (bits c.w1 14 11))).any (fun f => f.elem == 6 && !f.block && !f.stoch) = true ∧
     BasketOpen s c.ctx c.idx 0 (4 * vecLen (engOf s c) (fNREG c.w0)) ∧
     HandedOver s c.ctx c.idx .finisher 0 (4 * vecLen (engOf s c) (fNREG c.w0)) ∧
     finUsed c (if p.1 = 0x50 then 0xFC0E00 else 0x03FE00) 0xFFFFF800 0xFFFF8000 0 = true ∧ fTD c.w0 + fNREG c.w0 ≤ 64 ∧
     fTS c.w0 + fNREG c.w0 ≤ 64) ∧
    (∀ k ∈ [0, 1, 2, 3], let s := at1 0x55042000 (k * 2 ^ 30 + (if k = 0 then 3 * 2 ^ 24 else 0)) 0 0
     let c := ic0 s
     AtIns s 0 0x55 3 c ∧ finUsed c 0xFFFE00 0xFFFFFE00 0 0 = true ∧ fTD c.w0 + fNREG c.w0 ≤ 64 ∧ fTS c.w0 + fNREG c.w0 ≤ 64 ∧
     bits c.w1 31 30 = k ∧ bits c.w1 29 24 + fNREG c.w0 ≤ 64 ∧ bits c.w1 23 20 ≤ 11) := by decide

theorem witness_FinisherComputesVectors :
    (let s := engState (prog1 (ins 0x53041000 0 0 0)) { ch := [(0, BitVec.ofNat 32 (0x11 * 2 ^ 26))] } {}
     let c := ic0 s
     let ws := chainWords (engOf s c) (fCH c.w0)
     AtIns s 0 0x53 3 c ∧ finUsed c 0xFFFFE0 0 0 0 = true ∧ fTD c.w0 + fNREG c.w0 ≤ 64 ∧ fTS c.w0 + fNREG c.w0 ≤ 64 ∧
     chainStages ws ≠ [] ∧ chainBad (fNREG c.w0) ws = false ∧ curveMissing (engOf s c) ws = false ∧ drawsRandom ws = false) ∧
    (∀ k ∈ [1, 2], let s := at1 0x54041000 (k * 2 ^ 29) 0 0
     let c := ic0 s
     AtIns s 0 0x54 3 c ∧ finUsed c 0xFFFE00 0xFF000000 0 0 = true ∧ fTS c.w0 + fNREG c.w0 ≤ 64 ∧ bit c.w1 28 = false ∧
     bits c.w1 31 29 = k ∧ fTD c.w0 < 64) ∧
    (∀ clear ∈ [0, 1], let s := engState (prog1 (ins 0x52040000 (clear * 2 ^ 23) 0 0)) { fd := [(0, 1#64)], tiles := [(0, leaf 1)] } {}
     let c := ic0 s
     AtIns s 0 0x52 3 c ∧ finUsed c 0xFC0FE0 0xFFFFC000 0xFFFFF800 0xFFFF8000 = true ∧ bit c.w1 24 = false ∧ bit c.w1 22 = false ∧
     (fdOf (fdReg (engOf s c) (bits c.w1 21 18))).isSome = true ∧ (fdOf (fdReg (engOf s c) (bits c.w1 17 14))).isSome = true ∧
     fTD c.w0 + fNREG c.w0 ≤ 64 ∧ bits c.w1 31 25 < tileCount s.dev c.ctx ∧ (tileOf (engOf s c) (bits c.w1 31 25)).tag.valid = true ∧
     bit c.w1 23 = (clear == 1)) := by decide

/-! ### Queues and records -/

/-- A queue of 64 entries in partition 0. -/
def queue0 : Queue := { state := .active, sqLog2 := 6, cqLog2 := 6, partition := some 0, maxInflight := 8, slotCount := 1 }

/-- A device that is ready, with queue 1, contexts 1 (without programs) and command 0. -/
def ready (v : Queue) (cs : SMap Cmd) : State := { dev := {
  boot := { ready := true }, host := { linkUp := true, bme := true }, pwr := { rails := true }, queues := [(1, v)], cmds := cs, nextCid := 5,
  ctxs := [(1, ctx0)], parts := [(0, { dies := 0xFF, resMax := 16, slice := 1000, block := 10000, quota := 2 ^ 40, charge := 0, pool := [] })] } }

theorem witness_DoorbellsSubmitAndFree :
    let s := ready { queue0 with sqTail := 2 } []
    let v := queueOf s.dev 1
    s.dev.boot.ready = true ∧ v.state ≠ .disabled ∧ sqSize v ≤ 64 ∧ cqSize v ≤ 64 ∧ 63 < sqSize v ∧ 63 < cqSize v ∧
    (1 + sqSize v - v.sqHead) % sqSize v ≤ (v.sqTail + sqSize v - v.sqHead) % sqSize v ∧
    (v.sqTail + sqSize v - v.sqHead) % sqSize v < (63 + sqSize v - v.sqHead) % sqSize v := by decide

/-- A QUEUE.NOP at the head of queue 1, which expects host sequence number n; the command's is 7. -/
def atFetch (n : Nat) (fs : List (BitVec 32 × BitVec 32)) (cs : SMap Cmd) : State :=
  let s := ready { queue0 with sqTail := 1, subs := [(1, 0)], expHostSeq := BitVec.ofNat 32 n, finals := fs } cs
  { s with dev := { s.dev with host := { s.dev.host with snooped := [0] }, mem := { hdm := memWrite [] 0 (cmd0 0x0100 0xFF (natLe 48 0) []).hdr } } }

theorem witness_FetchAnswersCommandsOutOfSequence :
    (∀ p ∈ [(5, ([] : List (BitVec 32 × BitVec 32)), ([] : SMap Cmd)), (9, [], [(0, cmd0 0x0100 1 [] [])]), (9, [(7#32, 3#32)], []), (9, [], [])],
      let s := atFetch p.1 p.2.1 p.2.2
      let hdr := headerOf s.dev (queueOf s.dev 1)
      Fetches s 1 hdr [] ∧ CanProduce s 1 ∧ field hdr 0 2 ≠ 0x0103 ∧ word hdr 4 = 7#32 ∧ stillRunning s.dev 1 7#32 = !p.2.2.isEmpty) ∧
    1 ≤ (7#32 - 5#32).toNat ∧ (7#32 - 5#32).toNat < 2 ^ 31 ∧ 2 ^ 31 ≤ (7#32 - 9#32).toNat := by decide +kernel

theorem witness_FetchAdmitsACommandInSequence :
    let s := atFetch 7 [] []
    let hdr := headerOf s.dev (queueOf s.dev 1)
    Fetches s 1 hdr [] ∧ (queueOf s.dev 1).state = .active ∧
    (tableEntry s.dev 0x0100).any (fun e => !entQ0 e && !entContext e && entMin e == 0) = true ∧ field hdr 0 2 = 0x0100 ∧
    field hdr 2 2 = 0 ∧ word hdr 4 = (queueOf s.dev 1).expHostSeq ∧ field hdr 8 1 = 0xFF ∧ field hdr 9 1 = 1 ∧ payloadLen hdr = 0 ∧
    field hdr 0x0C 4 = 0 ∧ resv hdr 0x10 48 = [] := by decide +kernel

/-- The record that a command has prepared. -/
def done0 (status : BitVec 16) : Done := { status := status, detail := 0, result := 0, slotOut := none, at_ := 0 }

/-- A command with deadline us and a prepared OK record. -/
def cmdDue (us : Nat) : Cmd := { cmd0 0x0100 1 [] [] with hdr := natLe 12 0x0100 ++ natLe 4 us ++ natLe 48 0, phase := .done, fin := some (done0 0) }

/-- A held record. -/
def qrec0 : QRec := { rcd := mkRec 7 0 0 0, irq := true, final := true, cid := none }

theorem witness_CommandsEndWithOneFinalRecord :
    Runs (ready queue0 [(0, cmd0 0x0100 1 [] [])]) 0x0100 0 (cmd0 0x0100 1 [] []) ∧
    (∀ p ∈ [(0, 0), (1, 400), (1, 401)], let s := { ready queue0 [(0, cmdDue p.1)] with dev := { (ready queue0 [(0, cmdDue p.1)]).dev with now := p.2 } }
     smFind s.dev.cmds 0 = some (cmdDue p.1) ∧ (cmdDue p.1).fin = some (done0 0) ∧ CanProduce s (cmdDue p.1).queue ∧
     deadlineOf (cmdDue p.1) = (if p.1 = 0 then none else some 400) ∧ (done0 0).status = 0#16 ∧ reqOfCmd s.dev 0 (cmdDue p.1) = none ∧
     (cmdDue p.1).throttled = false ∧ (cmdDue p.1).bmeStall = false) ∧
    (∀ p ∈ [(true, false, 0), (false, true, 1), (false, true, 0)], let c := { cmdDue 1 with throttled := p.1, bmeStall := p.2.1, bmeFor := p.2.2 }
     let s := { ready queue0 [(0, c)] with dev := { (ready queue0 [(0, c)]).dev with now := 401 } }
     smFind s.dev.cmds 0 = some c ∧ c.fin = some (done0 0) ∧ CanProduce s c.queue ∧ deadlineOf c = some 400 ∧ reqOfCmd s.dev 0 c = none ∧
     400 + bmeWaited s.dev c = 400 + p.2.2 ∧ s.dev.now = 401) ∧
    (let c := { cmdDue 0 with fin := some (done0 3) }
     smFind (ready queue0 [(0, c)]).dev.cmds 0 = some c ∧ CanProduce (ready queue0 [(0, c)]) c.queue ∧ (done0 3).status ≠ 0#16) ∧
    (let s := ready { queue0 with hold := [qrec0], state := .held } []
     let v := queueOf s.dev 1
     v.replay = none ∧ v.waiting = [] ∧ v.hold ≠ [] ∧ s.dev.host.bme = true ∧ v.hold.length ≤ ringRoom v) ∧
    (let c := cmd0 0x0D01 0xFF (bytesOf [(8, 0), (8, 0), (4, 64)]) []
     let s := ready { queue0 with slots := [(0, { state := .ready, payload := [1#8, 2#8] })] } [(0, c)]
     Runs s 0x0D01 0 c ∧ c.snap = none ∧ s.dev.host.bme = true ∧ (smGet {} (queueOf s.dev c.queue).slots (par c 0x10 2)).state = .ready) := by
  decide +kernel

theorem witness_QueuePairsAreMadeDrainedAndRebound :
    (let c := cmd0 0x0101 0xFF (natLe 16 0 ++ bytesOf [(1, 2)]) []
     Runs (ready queue0 [(0, c)]) 0x0101 0 c ∧ reserveReady (ready queue0 [(0, c)]).dev c = true) ∧
    (let c := { cmd0 0x0102 0xFF (bytesOf [(1, 1)]) [] with queue := 0, phase := .admitted }
     (let s := ready queue0 [(0, c)]
      let v := queueOf s.dev (par c 0x10 1)
      Runs s 0x0102 0 c ∧ par c 0x10 1 ≠ c.queue ∧ v.state = .active ∧ v.hold = [] ∧ v.waiting = [] ∧ v.replay = none ∧
      ∀ p ∈ s.dev.cmds, p.2.queue ≠ par c 0x10 1) ∧
     (let s := ready { queue0 with state := .draining } [(0, c)]
      Runs s 0x0102 0 c ∧ c.phase = .admitted ∧ (queueOf s.dev (par c 0x10 1)).state ≠ .active ∧ (queueOf s.dev (par c 0x10 1)).state ≠ .held) ∧
     (let x := { cmd0 0x0100 1 [] [] with phase := .admitted }
      let s := ready queue0 [(0, c), (1, x)]
      Runs s 0x0102 0 c ∧ c.phase = .admitted ∧ (queueOf s.dev (par c 0x10 1)).state = .active ∧ s.dev.weights.steps = [] ∧
      smFind s.dev.cmds 1 = some x ∧ x.queue = par c 0x10 1 ∧ x.phase = .admitted ∧ x.fin = none)) ∧
    (∀ mode ∈ [0, 2], let c := { cmd0 0x0103 0xFF (bytesOf [(1, 1), (1, mode), (6, 0), (8, 4096), (1, 6)]) [] with queue := 0, phase := .admitted }
     let s := { ready queue0 [(0, c)] with dev := { (ready queue0 [(0, c)]).dev with host := {} } }
     let v := queueOf s.dev (par c 0x10 1)
     Runs s 0x0103 0 c ∧ c.phase = .admitted ∧ par c 0x11 1 = mode ∧ v.state ≠ .disabled ∧ retained v (word c.hdr 0x28) = true ∧
     v.waiting = [] ∧ s.dev.host.bme = false) := by decide +kernel

/-! ### Contexts and configuration -/

/-- Host memory that has been read for command 0. -/
def gotHost (s : State) (bs : List Byte) : State := { s with dev := { s.dev with host := { s.dev.host with
  reads := [{ use := .cmd 0, addr := 0, next := 0, len := bs.length, got := memWrite [] 0 bs, left := 0 }] } } }

/-- A context image of 256 bytes: a header, and its digest. -/
def image0 : List Byte :=
  let h := bytesOf [(4, 0x4D495843), (2, 1), (1, 1), (1, 0), (2, 1), (2, 256), (4, 0), (4, 0), (4, 256), (4, 256), (4, 0), (8, 256)] ++ natLe 184 0
  h ++ sha256 (h ++ List.replicate 32 0#8)

theorem witness_ContextsAreMadeSavedRestoredAndDestroyed :
    (let c := cmd0 0x0201 0xFF (bytesOf [(1, 2), (1, 0), (2, 0), (1, 0), (1, 1), (1, 1), (1, 1), (1, 0), (1, 1), (2, 0), (4, 256), (8, 9)]) []
     let s := ready queue0 [(0, c)]
     Runs s 0x0201 0 c ∧ c.info ≠ [1] ∧ isOk (chkCtxCreate (began s 0) 0 c) = true ∧ nwResident c = false ∧ s.dev.tally.frozen = false ∧
     s.dev.tally.held = []) ∧
    (∀ info ∈ [1, 2], let c := { cmd0 0x0202 0xFF (bytesOf [(1, 1)]) [] with info := [info] }
     let s := ready queue0 [(0, c), (1, cmd0 0x0A01 1 [] [])]
     Runs s 0x0202 0 c ∧ collsOf (began s 0) (nwCtx c) = true ∧ (smFind s.dev.ctxs (nwCtx c)).any (allRinsed s.dev) = true) ∧
    (let c := cmd0 0x0203 1 (bytesOf [(8, 2 ^ 63), (8, 2 ^ 40)]) []
     let s := ready queue0 [(0, c)]
     Runs s 0x0203 0 c ∧ smFind s.dev.ctxs (cmdContext c) = some ctx0 ∧ ctx0.state = .resident ∧ ctx0.moveCid = none ∧ imHost c = true ∧
     s.dev.host.bme = true ∧ s.dev.launches = [] ∧ s.dev.xfers = [] ∧
     isOk (chkCtxSave (modCtx (began s 0) 1 (fun x => { x with moveCid := some 0 })) c) = true) ∧
    (let c := cmd0 0x0204 1 (bytesOf [(8, 2 ^ 63), (8, 256)]) []
     let s := gotHost (ready queue0 [(0, c)]) image0
     Runs s 0x0204 0 c ∧ smFind s.dev.ctxs (cmdContext c) = some ctx0 ∧ isOk (chkCtxRestore (began s 0) c) = true ∧
     ctx0.engCount ≤ 96 ∧ s.dev.mem.granRinse = [] ∧ imHost c = true ∧
     (wantDone s.dev (.cmd 0)).any (fun img => isOk (chkImageFor ctx0 c img)) = true ∧ field image0 0x08 2 = 1) := by decide +kernel

/-- A memory arbiter table. -/
def arbTable : List Byte := bytesOf [(4, 16), (4, 16), (4, 16), (4, 16), (4, 16), (4, 16), (4, 16), (4, 16)]

theorem witness_ConfigurationLoadsAndReports :
    (let c := cmd0 0x0301 0xFF (bytesOf [(1, 2), (1, 0), (6, 0), (8, 2 ^ 63), (4, 32)]) []
     let s := gotHost (ready queue0 [(0, c)]) arbTable
     Runs s 0x0301 0 c ∧ isOk (chkCfgLoad (began s 0) c) = true ∧ loadAhead (began s 0) 0 = false ∧ clLen c ≠ 0 ∧ arbTable ≠ [] ∧
     bit (clSrc c) 63 = true ∧ wantDone s.dev (.cmd 0) = some arbTable ∧
     isOk (chkTable (dropWant (began s 0) (.cmd 0)) (clKind c) (clInst c) arbTable) = true) ∧
    (let c := { cmd0 0x0301 0xFF (bytesOf [(1, 2), (1, 0), (6, 0), (8, 2 ^ 63), (4, 32)]) [] with phase := .done, fin := some (done0 0) }
     let s0 := ready queue0 [(0, c)]
     let s := { s0 with dev := { s0.dev with loading := some (0, 2, 0, arbTable) } }
     s.dev.loading = some (0, clKind c, clInst c, arbTable) ∧ smFind s.dev.cmds 0 = some c ∧ c.fin = some (done0 0) ∧ CanProduce s c.queue ∧
     arbTable ≠ [] ∧ clKind c ≠ 0x0A) ∧
    (let c := cmd0 0x0302 0xFF [] []
     Runs (ready queue0 [(0, c)]) 0x0302 0 c ∧ isOk (chkCfgDigest c) = true) ∧
    (let c := cmd0 0x0F01 0xFF [] []
     Runs (ready queue0 [(0, c)]) 0x0F01 0 c ∧ isOk (chkPartInfo c) = true) ∧
    (let c := { cmd0 0x0E01 0xFF [] [] with hdr := bytesOf [(2, 0x0E01), (2, 1), (44, 0), (4, 2), (12, 0)] }
     Runs (ready queue0 [(0, c)]) 0x0E01 0 c ∧ isOk (chkAttest c) = true) := by decide +kernel

/-! ### Memory -/

/-- Two pages of context 1, in frames 8 and 9. -/
def pages0 : SMap Pte := [(0, page0), (1, { page0 with target := 9, frames := [9] })]

/-- The context with two pages. -/
def ctxP : Ctx := { ctx0 with ptes := pages0 }

/-- A device that is ready, whose context 1 has two pages, with a memory system m. -/
def readyM (cs : SMap Cmd) (m : MemSys) : State :=
  let s := ready queue0 cs
  { s with dev := { s.dev with ctxs := [(1, ctxP)], mem := { m with frames := smPut (smPut m.frames 8 .used) 9 .used } } }

theorem witness_MemoryIsAllocatedAndFreed :
    (let c := { cmd0 0x0401 1 (bytesOf [(8, 2 ^ 20), (8, 65536), (1, 1), (1, 0), (2, 0), (1, 7)]) [] with frames := [10] }
     let s := readyM [(0, c)] { frames := [(10, .used)] }
     smFind s.dev.ctxs (cmdContext c) = some ctxP ∧ memBlocked (began s 0) 0 c = false ∧ Runs s 0x0401 0 c ∧ par c 0x20 1 ≤ 1 ∧
     mapped ctxP (par c 0x10 8) (par c 0x18 8) = false ∧ reserveReady s.dev c = true ∧ par c 0x18 8 / allocPage c = 1) ∧
    (let c := cmd0 0x0402 1 (bytesOf [(8, 0), (8, 131072)]) []
     let s := readyM [(0, c)] {}
     smFind s.dev.ctxs (cmdContext c) = some ctxP ∧ memBlocked (began s 0) 0 c = false ∧ Runs s 0x0402 0 c ∧
     isOk (chkFree (began s 0) c) = true ∧ (leavesIn ctxP (par c 0x10 8) (par c 0x18 8)).length = 2 ∧
     ∀ q ∈ leavesIn ctxP (par c 0x10 8) (par c 0x18 8), inUse s.dev (cmdContext c) q.1 q.2 = false ∧ q.2.transit = false ∧
       (∀ f ∈ q.2.frames, frameState s.dev f = some .used)) := by decide +kernel

/-- MEM.COPY of n bytes from address a to the second page. -/
def copyCmd (a n : Nat) : Cmd := cmd0 0x0403 1 (bytesOf [(8, a), (8, 65536), (8, n)]) []

/-- MEM.FILL of the first page, and a MEM.MANGLE that converts 32 FP32 elements of it to BF16. -/
def fillCmd : Cmd := cmd0 0x0404 1 (bytesOf [(8, 0), (8, 65536), (4, 5)]) []
def convertCmd : Cmd := cmd0 0x0407 1 (bytesOf [(1, 4), (3, 0), (4, 0), (8, 0), (8, 32), (8, 0)])
  (bytesOf [(8, 0), (8, 0), (8, 4096), (8, 1), (8, 0)])

/-- A piece of command 0 of context 1. -/
def piece0 (m : Option Nat) : Piece := { cid := 0, op := .copy, q := 0, die := 0, mang := m }

/-- How piece q of a command fails on mangle 0. -/
def pieceFails (s : State) (q : Nat) (c : Cmd) : Option VErr :=
  match ((pieceBody s.dev c q).run (0 : Fin 32)).run (modMem s.dev (fun k => { k with pieces := [] }), c.flags, c.count) with
  | .error e => some e
  | .ok _ => none

theorem witness_MangleCommandsWorkInPieces :
    (∀ p ∈ [(0x0403, copyCmd 0 64), (0x0404, fillCmd), (0x0407, convertCmd)], let s := readyM [(0, p.2)] {}
     Runs s p.1 0 p.2 ∧ smFind s.dev.ctxs (cmdContext p.2) = some ctxP ∧ p.2.info = [] ∧ memBlocked (began s 0) 0 p.2 = false ∧
     notLocal s.dev (cmdContext p.2) (memRanges (began s 0) p.2) = [] ∧ isOk (chkBegin (began s 0) p.2) = true ∧ pieceCount p.2 ≠ 0) ∧
    nextPiece (readyM [(0, copyCmd 0 64)] { pieces := [piece0 none] }).dev 0 = some (piece0 none) ∧
    (let s := readyM [(0, copyCmd 0 64)] { pieces := [piece0 (some 0)] }
     let c := copyCmd 0 64
     s.dev.mem.pieces.find? (fun p => p.mang == some 0) = some (piece0 (some 0)) ∧ smFind s.dev.cmds 0 = some c ∧ opcodeC c = 0x0403 ∧
     smFind s.dev.ctxs (cmdContext c) = some ctxP ∧ c.fin = none ∧ min 65536 (par c 0x20 8 - 65536 * 0) = 64 ∧
     isOk (readVirt s.dev 1 (par c 0x10 8) 64 .any) = true ∧ isOk (checkVirt s.dev 1 (par c 0x18 8) 64 .any) = true) ∧
    (let c := copyCmd (2 ^ 20) 64
     let s := readyM [(0, c)] { pieces := [piece0 (some 0)] }
     s.dev.mem.pieces.find? (fun p => p.mang == some 0) = some (piece0 (some 0)) ∧ smFind s.dev.cmds 0 = some c ∧ opcodeC c ≠ 0x0901 ∧
     opcodeC c ≠ 0x0A01 ∧ c.fin = none ∧ pieceFails s 0 c = some (.unmapped (2 ^ 20))) ∧
    (∀ q ∈ [{ page0 with transit := true }, { page0 with kind := .slow, frames := [], slowPgs := [3] }], let c := copyCmd 0 64
     let s := readyM [(0, c)] { pieces := [piece0 (some 0)] }
     let t := { s with dev := { s.dev with ctxs := [(1, { ctxP with ptes := [(0, q), (1, page0)] })] } }
     t.dev.mem.pieces.find? (fun p => p.mang == some 0) = some (piece0 (some 0)) ∧ smFind t.dev.cmds 0 = some c ∧
     leafKey { ctxP with ptes := [(0, q), (1, page0)] } 0 = some (0, q) ∧ moveOf t.dev 1 0 = none ∧ waitOf t.dev 1 0 = none ∧
     pieceFails t 0 c = some (if q.transit then .transit 0 else .absent 0)) := by decide +kernel

/-- The first page of context 1 waits for its move to the cupboard frame f; and is on its way there. -/
def wait0 (f : Nat) : MoveWait := { ctx := 1, page := 0, to_ := 0, dest := some [f], slow := [], cid := some 0, line := [] }
def move0 (f : Nat) : Move := { ctx := 1, page := 0, dest := some [f], slow := [], cid := some 0, failAt := none, line := [], asked := false }

/-- MEM.DEMOTE of the first page to the slower tier. -/
def demoteCmd (info : List Nat) : Cmd := { cmd0 0x0405 1 (bytesOf [(8, 0), (8, 65536), (1, 2)] ++ natLe 31 0) [] with info := info, pool := [3] }

/-- MEM.RECALL of the first page to the cupboard. -/
def recallCmd (info : List Nat) : Cmd :=
  { cmd0 0x0406 1 (bytesOf [(8, 0), (8, 65536), (1, 0)] ++ natLe 31 0) [] with info := info, frames := [2 ^ 26] }

theorem witness_PagesMoveBetweenTiers :
    (∀ p ∈ [(0x0405, demoteCmd []), (0x0406, recallCmd [])], let s := readyM [(0, p.2)] {}
     Runs s p.1 0 p.2 ∧ smFind s.dev.ctxs (cmdContext p.2) = some ctxP ∧ p.2.info = [] ∧ memBlocked (began s 0) 0 p.2 = false ∧
     (p.1 = 0x0405 → isOk (chkDemote (began s 0) p.2) = true) ∧ (p.1 = 0x0406 → isOk (chkRecall (began s 0) p.2) = true) ∧
     (∀ q ∈ leavesIn ctxP (par p.2 0x10 8) (par p.2 0x18 8), q.2.transit = false) ∧
     reserveFits (began s 0) ctxP p.2 (movedPages ctxP p.2) = true ∧ movedPages ctxP p.2 ≠ []) ∧
    (∀ p ∈ [(0x0405, demoteCmd [1, 0]), (0x0406, recallCmd [1, 0])], let s := readyM [(0, p.2)] {}
     Runs s p.1 0 p.2 ∧ smFind s.dev.ctxs (cmdContext p.2) = some ctxP ∧ p.2.info ≠ [] ∧ s.dev.mem.waits = [] ∧ s.dev.mem.moves = []) ∧
    (let s := readyM [(0, recallCmd [1, 0])] { waits := [wait0 (2 ^ 26)] }
     smFind s.dev.ctxs 1 = some ctxP ∧ waitOf s.dev 1 0 = some (wait0 (2 ^ 26)) ∧ moveOf s.dev 1 0 = none ∧ smFind ctxP.ptes 0 = some page0 ∧
     page0.kind = .localPage ∧ (wait0 0).to_ ≠ 2 ∧ (wait0 0).to_ ≠ tierOf page0 ∧ ¬ tierOf page0 < (wait0 0).to_ ∧
     inUse s.dev 1 0 page0 = false ∧ stepAppends s.dev ctxP 1 0 page0 0 = false) ∧
    (let s := readyM [(0, recallCmd [1, 0])] { moves := [move0 10], frames := [(10, .used)] }
     smFind s.dev.ctxs 1 = some ctxP ∧ moveOf s.dev 1 0 = some (move0 10) ∧ smFind ctxP.ptes 0 = some page0 ∧ page0.kind = .localPage ∧
     page0.frames = [8] ∧ frameState s.dev 10 = some .used ∧ frameState s.dev 8 = some .used ∧ (move0 10).failAt = none ∧
     s.dev.mem.bad = [] ∧ page0.kvPool = none) ∧
    (∀ f ∈ [FrameState.rinsing, .rinsingUsed, .retiredRinsing], let s := readyM [] { frames := [(11, f)] }
     kvPlaneAt s.dev 11 = none ∧ frameState s.dev 11 = some f) := by decide +kernel

theorem witness_MemoryUnitsRefreshScrubAndGrant :
    (arbOf State.reset 895).current = none ∧ [{ unit := .fabric, walk := false }, { unit := .mangle 3, walk := true }].filterMap (classOf State.reset.dev) = [6, 5] ∧
    (∀ p ∈ [(0, 0), (2 ^ 42 - 65536, 383)], p.1 % 32 = 0 ∧ isCup (p.1 / 65536) = false ∧ p.1 < 2 ^ 42 ∧ channelOf p.1 < 384) ∧
    (let s := atXfer [(0, page0)] (lineXfer false) (line0 .running .filling)
     smFind s.dev.xfers 0 = some (lineXfer false) ∧ (lineXfer false).kind = .line 2 false 0 0) := by decide

/-! ### Launches, the scheduler and the governor -/

/-- A program image of one HALT. -/
def progImage : List Byte := bytesOf [(4, 0x4E4F4547), (2, 1), (2, 0), (4, 0), (4, 0), (4, 1), (44, 0), (3, 0), (1, 1), (12, 0)]

/-- Context 1 with a program in slot 0, and a page. -/
def ctxR : Ctx := { ctxP with progs := [(0, { hdr := natLe 64 0, words := [0x01000000#128] })], istore := 256 }

/-- The device that is ready with that context, and launches. -/
def readyR (cs : SMap Cmd) (ls : SMap Launch) : State :=
  let s := readyM cs { dram := memWrite [] (65536 * 8) progImage }
  { s with dev := { s.dev with ctxs := [(1, ctxR), (2, { ctxR with weight := 2 })], launches := ls, nextLaunch := 5 } }

theorem witness_ProgramsLoadAndLaunch :
    (let c := cmd0 0x0501 1 (bytesOf [(8, 0), (4, 80), (1, 3)]) []
     let s := readyR [(0, c)] []
     Runs s 0x0501 0 c ∧ smFind s.dev.ctxs (cmdContext c) = some ctxR ∧ slotRuns s.dev 1 (plSlot c) = false ∧
     isOk (chkProgLoad (began s 0) c) = true ∧ notLocal s.dev 1 [(plVa c, plLen c, false)] = [] ∧
     (match readVirt s.dev 1 (plVa c) (plLen c) .any with
      | .ok img => img == progImage && isOk (chkImage (began s 0) ctxR c img) | .error _ => false) = true) ∧
    (let c := cmd0 0x0502 1 (bytesOf [(1, 0), (1, 0), (1, 0), (1, 2), (4, 0)]) []
     let s := readyR [(0, c)] []
     Runs s 0x0502 0 c ∧ c.info = [] ∧ smFind s.dev.ctxs (cmdContext c) = some ctxR ∧ isOk (chkProgLaunch (began s 0) c) = true) ∧
    (let z := { launch0 with cls := 2 }
     let w := { launch0 with ctx := 2, cls := 2, state := .waiting }
     let s := { readyR [] [(0, z), (1, w)] with dev := { (readyR [] [(0, z), (1, w)]).dev with now := 400001 } }
     smFind s.dev.launches 0 = some z ∧ smFind s.dev.ctxs z.ctx = some ctxR ∧ (partOf s.dev ctxR.part).map (·.slice) = some 1000 ∧
     z.state = .running ∧ z.cls ≠ 1 ∧ 400 * 1000 < s.dev.now - z.sliceFrom ∧ (1, w) ∈ candidates s.dev ctxR.part ∧ w.ctx ≠ z.ctx ∧
     ∃ e ∈ launchPhys s.dev w, e ∈ launchPhys s.dev z) := by decide +kernel

theorem witness_EnginesStartGateAndPowerOff :
    (candOrder (readyR [] []).dev 0 = [] ∧ (partOf (readyR [] []).dev 0).isSome = true) ∧
    (let w := { launch0 with cls := 2, state := .waiting }
     let s := readyR [] [(1, w)]
     (candOrder s.dev 0).map (fun c => (c.num, c.z)) = [(1, w)] ∧ w.cls ≠ 1 ∧ smFind s.dev.launches 1 = some w ∧
     smFind s.dev.ctxs w.ctx = some ctxR ∧ ∀ e ∈ launchPhys s.dev w, smFind s.dev.running e = none) ∧
    (smFind (readyR [] []).dev.running 95 = none ∧ 95 ∉ (readyR [] []).dev.gov.off ∧ (readyR [] []).dev.mem.pieces = []) ∧
    (let s := { readyR [] [] with dev := { (readyR [] []).dev with now := 400000 } }
     sharesOn s.dev 7 = [] ∧ smGet 0 s.dev.gov.shareFree 7 + 400000 ≤ s.dev.now ∧ 7 ∉ s.dev.gov.off) ∧
    (∀ q ∈ (readyR [] []).dev.mem.frames, q.1 / 512 ≠ (bankFrames 3 4).1 / 512) := by decide +kernel

/-- A device that runs after its self test. -/
def powered : State := { dev := { now := 400000, pwr := { rails := true, ctrlOn := true, refOk := true, vin := 48000, pwrGood := true },
                                  boot := { ready := true, phase := 8, selfTest := true } } }

theorem witness_GovernorLimitsAndTrips :
    powered.dev.flashIf.busy = none ∧ powered.dev.boot.ready = true ∧ powered.dev.gov.windowAt + 400000 ≤ powered.dev.now ∧
    powered.dev.pwr.rails = true ∧ powered.dev.boot.selfTest = true ∧ (459#16).toInt < 460 ∧ (0xFFFF#16).toInt < 460 ∧
    460 ≤ (460#16).toInt ∧ powered.dev.pwr.ctrlOn = true ∧ powered.dev.pwr.trip = false ∧ 37999 < 38000 := by decide +kernel

/-! ### Boot and resets -/

/-- The package in phase n of its cold start. -/
def phase (n : Nat) : State := { powered with dev := { powered.dev with boot := { kind := some .cold, phase := n } } }

theorem witness_BootPhasesFollowEachOther :
    (∀ ref ∈ [false, true], let s : State := { dev := { pwr := { ctrlOn := true, refOk := ref } } }
     s.dev.pwr.ctrlOn = true ∧ s.dev.pwr.rails = false ∧ s.dev.boot.kind = none ∧ s.dev.flashIf.busy = none ∧ s.dev.pwr.refOk = ref) ∧
    (∀ n ∈ [0, 1, 2, 3, 4, 5, 6], inPhase (phase n).dev n = true ∧ (phase n).dev.pwr.refOk = true) ∧ (phase 2).nv.fuses.lifecycle = 5 ∧
    (({ phase 2 with nv := { fuses := { lifecycle := 1 } } } : State).nv.fuses.lifecycle ≠ 5) := by decide

/-- A flash whose image headers begin with zeros. -/
def badImages : NonVol := { flash := [(0, 0#8), (1, 0#8), (2, 0#8), (3, 0#8), (2 ^ 25, 0#8), (2 ^ 25 + 1, 0#8), (2 ^ 25 + 2, 0#8), (2 ^ 25 + 3, 0#8)] }

theorem witness_ImagesVerifyAndTheBootEndsReady :
    (∀ tried ∈ [[], [(0, 0x60#16)]], let b : Boot := { kind := some .cold, phase := 3, tried := tried }
     let s : State := { nv := badImages, dev := { powered.dev with boot := b } }
     inPhase s.dev 3 = true ∧ s.dev.boot.tried = tried ∧
     imageStatus s.nv (match tried with | [] => 0 | z :: _ => 1 - z.1) ≠ 0) ∧
    inPhase (phase 6).dev 6 = true ∧
    (let b : Boot := { kind := some .function, phase := 7, rinseHdm := true }
     b.kind = some .function ∧ b.rinsed = false ∧ b.joined = false) ∧
    (let b : Boot := { ready := true, iflags := 1, svn := 1 }
     let s : State := { powered with dev := { powered.dev with boot := b } }
     s.dev.boot.ready = true ∧ bit s.dev.boot.iflags 0 = true ∧ counterOf s.nv.fuses < s.dev.boot.svn ∧ counterOf s.nv.fuses < 64) ∧
    powered.dev.boot.svn ≤ counterOf powered.nv.fuses := by decide +kernel

theorem witness_SystemResetsStartThePackageAgain :
    powered.dev.flashIf.busy = none ∧ powered.dev.pwr.rails = true ∧ powered.dev.pwr.ctrlOn = true ∧ powered.dev.pwr.trip = false ∧
    powered.dev.pwr.resetN = true ∧ powered.dev.pwr.perstN = true := by decide

theorem witness_FunctionResetsEndEveryContext :
    (powered.dev.boot.ready = true ∧ powered.dev.pwr.rails = true ∧ powered.dev.host.d3hot = false) ∧
    (let b : Boot := { kind := some .function, joined := true, rinsed := true }
     let s : State := { powered with dev := { powered.dev with host := { d3hot := true }, boot := b } }
     s.dev.host.d3hot = true ∧ s.dev.boot.kind = some .function ∧ s.dev.boot.joined = true ∧ s.dev.boot.rinsed = true) := by decide

theorem witness_ManagementControllerRegisters :
    36000 < 36001 ∧ State.reset.dev.pwr.ctrlOn = false ∧ powered.dev.pwr.ctrlOn = true := by decide

/-! ### The host attachment and the SPDM responder -/

/-- A device that is ready with its host link up. -/
def linked : State := { powered with dev := { powered.dev with host := { linkUp := true, decoder := true } } }

theorem witness_HostRegistersConfigureQueueZero :
    linked.dev.pwr.rails = true ∧ linked.dev.host.linkUp = true ∧ linked.dev.boot.ready = true ∧
    linked.dev.host.q0Cfg.getLsbD 31 = false ∧ linked.dev.host.q0Sq.toNat % 4096 = 0 ∧ linked.dev.host.q0Cq.toNat % 4096 = 0 ∧
    (6 ≤ bits (0x0606#32).toNat 4 0 ∧ bits (0x0606#32).toNat 4 0 ≤ 16 ∧ 6 ≤ bits (0x0606#32).toNat 12 8 ∧ bits (0x0606#32).toNat 12 8 ≤ 16 ∧
      linked.dev.host.q0Sq.toNat + 64 * 2 ^ 6 ≤ 2 ^ 36) ∧
    ¬ 6 ≤ bits (0x0605#32).toNat 4 0 ∧
    (let s := { linked with dev := { linked.dev with host := { linkUp := true, q0Cfg := 0x80000606#32 } } }
     s.dev.pwr.rails = true ∧ s.dev.host.linkUp = true ∧ s.dev.host.q0Cfg.getLsbD 31 = true) ∧ 0x34 < 0xF8 := by decide +kernel

/-- The same, with half-port 1 in a state. -/
def withPort (p : HalfPort) : State := { linked with dev := { linked.dev with fabric := { ports := [(1, p)] } } }

theorem witness_DeviceIdIsWrittenWhileEveryPortIsOff :
    linked.dev.pwr.rails = true ∧ linked.dev.host.linkUp = true ∧ (∀ h, h < 36 → (portOf linked.dev h).state = .off) ∧
    (withPort { state := .down }).dev.pwr.rails = true ∧ (withPort { state := .down }).dev.host.linkUp = true ∧
    ∃ h, h < 36 ∧ (portOf (withPort { state := .down }).dev h).state ≠ .off := by
  refine ⟨by decide, by decide, by decide, by decide, by decide, 1, by decide, by decide⟩

/-- The same with a flash address, and an operation under way. -/
def atFlash (a : BitVec 32) (b : Option (FlashOp × Nat)) : State :=
  { linked with dev := { linked.dev with flashIf := { addr := a, busy := b } } }

theorem witness_FlashOperationsReadProgramAndErase :
    (let s := atFlash 0x02000000#32 none
     let a := s.dev.flashIf.addr.toNat
     s.dev.pwr.rails = true ∧ s.dev.host.linkUp = true ∧ s.dev.boot.ready = true ∧ s.dev.flashIf.busy = none ∧ a % 65536 = 0 ∧ a % 4096 = 0 ∧
     0x2000000 * s.dev.boot.slot + 0x2000000 ≤ a ∧ a + 65536 ≤ 0x4000000) ∧
    -- the booted slot, the certificate area, and an address that is not aligned
    (∀ a ∈ [0x1FFF000, 0x4000000, 0x400F000], (atFlash (BitVec.ofNat 32 a) none).dev.flashIf.addr.toNat = a ∧
      (atFlash (BitVec.ofNat 32 a) none).dev.boot.slot = 0 ∧ a % 4096 = 0 ∧
      ¬ ((a + 4096 ≤ 0x2000000 * 0 ∨ 0x2000000 * 0 + 0x2000000 ≤ a) ∧ (a + 4096 ≤ 0x4000000 ∨ 0x4010000 ≤ a))) ∧
    ((0x02000001#32).toNat % 4096 ≠ 0 ∧ bit (0x80000003#64).toNat 31 = true ∧ bits (0x80000003#64).toNat 1 0 = 3) ∧
    ((phase 4).dev.boot.ready = false ∧ (atFlash 0#32 (some (.program, 0x02000000))).dev.flashIf.busy ≠ none) ∧
    ∀ op ∈ [FlashOp.program, .erase], (atFlash 0#32 (some (op, 0x02000000))).dev.flashIf.busy = some (op, 0x02000000) := by decide +kernel

theorem witness_HostMemoryRequestsAreServed :
    linked.dev.pwr.rails = true ∧ hdmOpen linked.dev = true ∧ 2 ^ 36 - 64 < 2 ^ 36 ∧ (2 ^ 36 - 64) % 64 + (List.replicate 64 1#8).length ≤ 64 ∧
    hdmOpen (phase 4).dev = false ∧ (phase 4).dev.pwr.rails = true ∧
    (let s := { linked with dev := { linked.dev with host := { linkUp := true, snooping := [2] } } }
     128 / 64 ∈ s.dev.host.snooping ∧ (List.replicate 64 1#8).length = 64) ∧
    1 ≤ linked.dev.boot.phase ∧ linked.dev.host.linkUp = true ∧ 1 < (cdatEntries linked.dev).length := by decide +kernel

/-- One line of host memory that command 0 waits for, of which n bytes have been asked for. -/
def want0 (n : Nat) : HostWant := { use := .cmd 0, addr := 4096, next := n, len := 64, got := [], left := 1 }

theorem witness_ReadsOfHostMemoryReturnOrFail :
    (let c := cmd0 0x0301 0xFF [] []
     let h : HostIf := { linkUp := true, bme := true, inFlight := [(4096, .cmd 0)], reads := [want0 64] }
     let s := { linked with dev := { linked.dev with cmds := [(0, c)], host := h } }
     (List.replicate 64 1#8).length = 64 ∧ s.dev.host.inFlight = [(4096, (want0 64).use)] ∧ s.dev.host.reads = [want0 64] ∧
     (want0 64).addr / 64 * 64 ≤ 4096 ∧ 4096 < (want0 64).addr + (want0 64).len ∧ (want0 64).len + (want0 64).addr % 64 ≤ (want0 64).next ∧
     (want0 64).use = .cmd 0 ∧ smFind s.dev.cmds 0 = some c ∧ c.fin = none ∧ opcodeC c ≠ 0x0501) ∧
    (let s := { linked with dev := { linked.dev with host := { linkUp := true, reads := [want0 0] } } }
     s.dev.pwr.rails = true ∧ s.dev.host.linkUp = true ∧ s.dev.host.bme = false ∧ s.dev.host.inFlight = [] ∧ s.dev.host.reads = [want0 0] ∧
     (want0 0).next = 0 ∧ (want0 0).len = 64 ∧ (want0 0).addr % 64 = 0 ∧ s.dev.queues = []) := by decide +kernel

/-- An SPDM message of code and Param1 op, which names an IDE object where it is IDE_KM. -/
def ideMsg (code op object : Nat) : List Byte :=
  bytesOf [(1, 0x12), (1, code), (1, op), (1, 1), (2, 0), (1, 0), (2, 0x1E98), (3, 0), (1, object)]
def spdmMsg (code op : Nat) : List Byte := ideMsg code op 2

/-- The responder of a device with its link up. -/
def atSpdm (p : Spdm) : State := { linked with dev := { linked.dev with spdm := p } }

theorem witness_SpdmRequestsAreAnswered :
    (∀ n ∈ [0, 1, 2, 3], let s := atSpdm { stage := n }
     s.dev.pwr.rails = true ∧ s.dev.host.linkUp = true ∧ s.dev.spdm.stage = n ∧ s.dev.spdm.session = none ∧ s.dev.spdm.established = false) ∧
    (∀ est ∈ [false, true], let s := atSpdm { stage := 3, session := some 1, established := est }
     s.dev.pwr.rails = true ∧ s.dev.host.linkUp = true ∧ 3 ≤ s.dev.spdm.stage ∧ s.dev.spdm.session.isSome = true ∧ s.dev.spdm.established = est) ∧
    (∀ op ∈ [0, 1, 2, 3], field (spdmMsg 0xE9 op) 2 1 = op) ∧ (∀ object ∈ [0, 2, 4, 5], field (ideMsg 0xFE 1 object) 12 1 = object) ∧
    field (spdmMsg 0x82 0) 3 1 ≤ 6 ∧ field (spdmMsg 0xFE 1) 7 2 = 0x1E98 ∧ field (spdmMsg 0x82 0) 4 2 = 0 := by decide

/-- The chain of GET_CERTIFICATE begins with 36 bytes of its own. -/
theorem witness_SpdmRequestsAreAnswered_chain (nv : NonVol) : field (spdmMsg 0x82 0) 4 2 < (spdmChain nv).length := by
  have h : field (spdmMsg 0x82 0) 4 2 = 0 := by decide
  simp [h, spdmChain, natLe]

/-! ### The fabric -/

/-- A fabric table: ports 0 and 1 direct, ports 2 and 3 Ethernet over copper, port 4 Ethernet split, port 5 Ethernet optical. -/
def fabTable0 : List Byte := bytesOf [(1, 3), (1, 0), (2, 0x600), (4, 0x3C), (4, 0x10), (2, 0), (2, 0), (4, 100), (4, 1000), (8, 2 ^ 10),
  (4, 32), (4, 64), (4, 192), (4, 160), (4, 32), (12, 0)]

/-- A device with that table, whose half-port h is p. -/
def atPort (h : Nat) (p : HalfPort) : State :=
  { linked with dev := { linked.dev with tables := [(1280, fabTable0)], fabric := { ports := [(h, p)] } } }

theorem witness_PortsComeUpAndGoDown :
    ((portOf (atPort 4 { state := .detect }).dev 4).state = .detect ∧ 2 ≤ portConfig (atPort 4 {}).dev 4 ∧ fabMedia (atPort 4 {}).dev 2 = 0) ∧
    (portOf (atPort 0 { state := .detect }).dev 0).state = .detect ∧ portConfig (atPort 0 {}).dev 0 = 1 ∧
    (fabMedia (atPort 10 {}).dev 5 ≠ 0 ∧ 2 ≤ portConfig (atPort 10 {}).dev 10) ∧
    (portOf (atPort 4 { state := .an }).dev 4).state = .an ∧
    (let s := atPort 8 { state := .train }
     (portOf s.dev 8).state = .train ∧ (portOf s.dev 8).degraded = false ∧ laneMask s.dev 8 = 0x0F ∧ hasLanes 0x0F (laneMask s.dev 8) = true) ∧
    (let s := atPort 0 { state := .train, degraded := true, laneOk := 0x0F#8 }
     (portOf s.dev 0).state = .train ∧ (portOf s.dev 0).degraded = true ∧ hasLanes 0x0F (portOf s.dev 0).laneOk.toNat = true) ∧
    (let s := atPort 0 { state := .train }
     (portOf s.dev 0).state = .train ∧ (portOf s.dev 0).degraded = false ∧ hasLanes 0x7F 0xFF = false ∧ hasLanes 0x7F 0x0F = true ∧
     hasLanes 0xF7 0x0F = false ∧ hasLanes 0xF7 0xF0 = true) ∧
    ((portOf (atPort 0 { state := .align }).dev 0).state = .align ∧ (portOf (atPort 4 { state := .align }).dev 4).state = .align ∧
     portConfig (atPort 4 {}).dev 4 ≠ 1 ∧ (portOf (atPort 4 { state := .align }).dev 4).retrain = false) ∧
    (let s := atPort 0 { state := .ident }
     (portOf s.dev 0).state = .ident ∧ directPeer s.dev 0 = (1, 1) ∧ ((2, 1) : Nat × Nat) ≠ directPeer s.dev 0 ∧
     (portOf s.dev 0).retrain = false ∧ (portOf s.dev 0).inRetry = [] ∧ (portOf s.dev 0).queued = []) ∧
    (portOf (atPort 0 { state := .down }).dev 0).state = .down ∧ (portOf (atPort 0 { state := .up }).dev 0).state ≠ .down ∧
    (∀ n ∈ [399999999, 400000000], let s := { atPort 0 { state := .down } with dev := { (atPort 0 { state := .down }).dev with now := n } }
     ((portOf s.dev 0).stateAt + 400000000 ≤ s.dev.now ↔ n = 400000000) ∧ (limitPassed s.dev 0 = false ↔ n = 399999999)) ∧
    (let s := { atPort 0 { state := .align } with dev := { (atPort 0 { state := .align }).dev with now := 400000000 } }
     limitPassed s.dev 0 = true) := by decide +kernel

/-- A flit of first word w, body bs and CRC word c. -/
def flit0 (w : Nat) (bs : List Byte) (c : Nat) : List Byte := natLe 4 w ++ (bs ++ natLe 4 c)

/-- The CRC of a flit's first word and body. -/
def crcOf (w : Nat) (bs : List Byte) : Nat := (crc32c (natLe 4 w ++ bs)).toNat

theorem leNat_natLe_four (v : Nat) : leNat (natLe 4 v) = v % 2 ^ 32 := by
  simp only [natLe, leNat, BitVec.toNat_ofNat]
  omega

theorem flit0_parts (w : Nat) (bs : List Byte) (c : Nat) (h : bs.length = 1016) :
    (flit0 w bs c).length = 1024 ∧ (flit0 w bs c).take 1020 = natLe 4 w ++ bs ∧ field (flit0 w bs c) 1020 4 = c % 2 ^ 32 ∧
    field (flit0 w bs c) 0 4 = w % 2 ^ 32 ∧ slice (flit0 w bs c) 4 1016 = bs := by
  have hw := natLe_length 4 w
  have hc := natLe_length 4 c
  have e : flit0 w bs c = (natLe 4 w ++ bs) ++ natLe 4 c := by simp [flit0]
  have l : (natLe 4 w ++ bs).length = 1020 := by simp [hw, h]
  refine ⟨by simp [flit0, hw, hc, h], ?_, ?_, ?_, ?_⟩
  · rw [e]; exact List.take_left' l
  · rw [field, slice, e, List.drop_left' l, List.take_of_length_le (by omega)]
    simp [hc, leNat_natLe_four]
  · rw [field, slice, flit0, List.drop_zero, List.take_left' hw]
    simp [hw, leNat_natLe_four]
  · rw [slice, flit0, List.drop_left' hw, List.take_left' h]
    simp [h]

/-- A flit whose CRC word is its CRC is the next one of a half-port where its first word says so. -/
theorem flit0_next (q : HalfPort) (w : Nat) (bs : List Byte) (h : bs.length = 1016) (hw : w < 2 ^ 32) (hk : bits w 31 30 = 1)
    (hs : bits w 29 20 = q.rxNext) : NextFlit q (flit0 w bs (crcOf w bs)) := by
  obtain ⟨h1, h2, h3, h4, -⟩ := flit0_parts w bs (crcOf w bs) h
  have hc : crcOf w bs % 2 ^ 32 = crcOf w bs := Nat.mod_eq_of_lt (BitVec.isLt _)
  refine ⟨h1, ?_, ?_, ?_⟩
  · rw [h2, h3, hc]; rfl
  · rw [h4, Nat.mod_eq_of_lt hw, hk]
  · rw [h4, Nat.mod_eq_of_lt hw, hs]

/-- A flit whose CRC word is one more than its CRC fails. -/
theorem flit0_fails (w : Nat) (bs : List Byte) (h : bs.length = 1016) :
    let f := flit0 w bs (crcOf w bs + 1)
    f.length = 1024 ∧ (crc32c (f.take 1020)).toNat ≠ field f 1020 4 := by
  obtain ⟨h1, h2, h3, -, -⟩ := flit0_parts w bs (crcOf w bs + 1) h
  refine ⟨h1, ?_⟩
  rw [h2, h3]
  have := (crc32c (natLe 4 w ++ bs)).isLt
  simp only [crcOf]
  omega

/-- A MSG to this part of 64 bytes, and the body of the flit that carries it. -/
def msg0 : Packet := { dst := 0, fwd := false, src := 1, kind := 0x20, vc := 0, ctx := 1, len := 64, tag := 5, addr := 0, data := List.replicate 64 7#8 }
def msgBody : List Byte := packetBytes msg0 ++ List.replicate 936 0#8

theorem witness_FlitsAreTakenInOrderAndReplayed :
    (∀ q ∈ [([] : List (Nat × List Byte)), [(9, [1#8])]], let s := atPort 0 { state := .up, retry := q }
     let p := portOf s.dev 0
     portConfig s.dev 0 = 1 ∧ p.state = .up ∧ p.rxBuf = [] ∧ p.retry = q ∧ p.rxNext = bits (2 ^ 30 + 9 * 2 ^ 10) 29 20 ∧
     bits (2 ^ 30 + 9 * 2 ^ 10) 31 30 = 1 ∧ bits (2 ^ 30 + 9 * 2 ^ 10) 19 10 = 9 ∧ p.replays < 8 ∧ p.ackAt + 800 ≤ s.dev.now) ∧
    (∀ n ∈ [799, 800], let s := { atPort 0 {} with dev := { (atPort 0 {}).dev with now := n } }
     s.dev.now < (portOf s.dev 0).ackAt + 800 ↔ n = 799) ∧
    zeros (List.replicate 1016 0#8) = true ∧
    (zeros msgBody = false ∧ msgBody.length = 1016 ∧ packetOf msgBody = msg0 ∧ knownKind msg0.kind = true ∧
     msg0.dst = myId (atPort 0 {}).dev ∧ packetSize msg0 ≤ 1016 ∧ zeros (msgBody.drop (packetSize msg0)) = true) ∧
    (∀ n ∈ [399999999, 400000000], let s := { atPort 0 { state := .train, retrain := true, replays := 8 } with
       dev := { (atPort 0 { state := .train, retrain := true, replays := 8 }).dev with now := n } }
     let p := portOf s.dev 0
     p.retrain = true ∧ p.state ≠ .up ∧ p.inRetry = [] ∧ p.queued = [] ∧ 8 ≤ p.replays ∧
     (p.retrainAt + 400000000 ≤ s.dev.now ↔ n = 400000000)) := by decide +kernel

/-- The flits of the statement: one without packets, one with a MSG, and one that fails its CRC. -/
theorem witness_FlitsAreTakenInOrderAndReplayed_flits :
    (let p := portOf (atPort 0 { state := .up }).dev 0
     ∀ bs ∈ [List.replicate 1016 0#8, msgBody], let w := 2 ^ 30 + 9 * 2 ^ 10
      NextFlit p (flit0 w bs (crcOf w bs)) ∧ slice (flit0 w bs (crcOf w bs)) 4 1016 = bs ∧ field (flit0 w bs (crcOf w bs)) 0 4 = w) ∧
    (let f := flit0 0 msgBody (crcOf 0 msgBody + 1)
     f.length = 1024 ∧ (crc32c (f.take 1020)).toNat ≠ field f 1020 4) := by
  refine ⟨fun bs hb => ?_, flit0_fails 0 msgBody (by decide +kernel)⟩
  have h : bs.length = 1016 := by
    rcases List.mem_cons.1 hb with rfl | hb
    · exact List.length_replicate
    · rw [List.mem_singleton.1 hb]; decide +kernel
  obtain ⟨-, -, -, h4, h5⟩ := flit0_parts (2 ^ 30 + 9 * 2 ^ 10) bs (crcOf (2 ^ 30 + 9 * 2 ^ 10) bs) h
  exact ⟨flit0_next _ _ bs h (by decide) (by decide) (by decide), h5, h4.trans (by decide)⟩

/-- A packet of a kind from device 1 to this part: 64 bytes at address 0 of context 1, with its data. -/
def packet0 (kind tag : Nat) (data : List Byte) : Packet :=
  { dst := 0, fwd := false, src := 1, kind := kind, vc := 0, ctx := 1, len := 64, tag := tag, addr := 0, data := data }

/-- A device with that packet at the head of what has been received, and with requests outstanding. -/
def atPacket (pk : Packet) (os : SMap Outst) : State :=
  let s := readyM [(0, cmd0 0x0901 1 [] [])] {}
  { s with dev := { s.dev with fabric := { rxq := [(0, pk)], outst := os }, xfers := [(0, xfer0 .toBasket)], now := 400000000 } }

/-- A request of a transfer, and of a mirror write. -/
def outX : Outst := { dst := 1, use := .xfer 0 0, port := 0, dead := false, at_ := 0 }
def outM (at_ : Nat) : Outst := { outX with use := .mirror 0, at_ := at_ }

/-- 64 bytes. -/
def line64 : List Byte := List.replicate 64 9#8

theorem witness_PacketsOfRequestsAreServed :
    (∀ p ∈ [(pkRead, ([] : List Byte)), (pkWrite, line64)], let pk := packet0 p.1 0 p.2
     let s := atPacket pk []
     FirstPacket s 0 pk [] ∧ smFind s.dev.ctxs pk.ctx = some ctxP ∧
     (match translate ctxP (64 * pk.addr) .peer with | .ok dpa => dpa == 65536 * 8 && !badIn s.dev.mem dpa pk.len | .error _ => false) = true ∧
     64 * pk.addr % 4096 + pk.len ≤ 4096 ∧ pk.kind = p.1 ∧ (p.1 = pkWrite → pk.data.length = pk.len)) ∧
    (smFind (atPacket (packet0 pkRead 0 []) []).dev.ctxs 9 = none ∧ ¬ 64 * 63 % 4096 + 128 ≤ 4096 ∧ leafKey ctxP (2 ^ 30) = none) ∧
    (∀ rx ∈ [false, true], let q := { page0 with transit := rx, rx := rx }
     leafKey { ctx0 with ptes := [(0, q)] } 0 = some (0, q) ∧ q.transit = rx ∧ q.rx = rx) ∧
    (∀ k ∈ [pkReadData, pkWriteAck], let pk := packet0 k 4 line64
     let s := atPacket pk [(4, outX)]
     FirstPacket s 0 pk [] ∧ smFind s.dev.fabric.outst pk.tag = some outX ∧ outX.dead = false ∧ outX.dst = pk.src ∧ outX.use = .xfer 0 0 ∧
     smFind s.dev.xfers 0 = some (xfer0 .toBasket) ∧ pk.kind = k) ∧
    (∀ t ∈ [0, 400000000], let pk := packet0 pkReadErr 4 (natLe 4 1)
     let s := atPacket pk [(4, outM t)]
     smFind s.dev.fabric.outst pk.tag = some (outM t) ∧ (outM t).use = .mirror 0 ∧ (smFind s.dev.cmds 0).isSome = true ∧
     (t = 0 → (outM t).at_ + 400 * fabReqTimeout s.dev ≤ s.dev.now) ∧
     (t = 400000000 → fabReqTimeout { s.dev with tables := [(1280, fabTable0)] } = 1000)) ∧
    (∀ b ∈ [4, 8], let pk := packet0 pkMsg 4 (natLe 8 b)
     FirstPacket (atPacket pk []) 0 pk [] ∧ pk.kind = pkMsg ∧ field pk.data 0 1 = b) ∧
    (7 ≤ (packet0 7 0 []).kind ∧ (packet0 7 0 []).kind ≠ pkMsg) := by decide +kernel

/-- A device with Ethernet half-port 4, in state p, and a connection to device 1. -/
def atEth (p : HalfPort) (c : EthConn) : State :=
  let s := atPort 4 p
  { s with dev := { s.dev with fabric := { s.dev.fabric with conns := [(1, c)] } } }

/-- A frame that device 1 sends to half-port 4 of device 0. -/
def frame0 (sflags ack psn : Nat) : List Byte :=
  let d := { (atEth {} {}).dev with host := { (atEth {} {}).dev.host with deviceId := 1#32 } }
  frameBytes d 4 0 sflags ack psn 0 (packetBytes msg0)

/-- A frame whose last four bytes are the FCS of the rest, between 64 and 4,142 bytes, passes its FCS. -/
theorem fcs_holds (b : List Byte) (h : 60 ≤ b.length ∧ b.length ≤ 4138) : fcsOk (b ++ fcs32 b) = true := by
  have n : (fcs32 b).length = 4 := natLe_length 4 _
  have l : (b ++ fcs32 b).length = b.length + 4 := by simp [n]
  have e : (b ++ fcs32 b).length - 4 = b.length := by omega
  rw [fcsOk, e, List.drop_left, List.take_left, l]
  simp only [beq_self_eq_true, Bool.and_true, decide_eq_true_eq]
  omega

/-- The frames of the statement pass their FCS. -/
theorem frame0_fcs : ∀ p ∈ [((1, 0, 0) : Nat × Nat × Nat), (0, 0, 0xFFFFFF), (0, 0, 0), (3, 4, 0)], fcsOk (frame0 p.1 p.2.1 p.2.2) = true := by
  intro p hp
  refine fcs_holds _ ?_
  revert p
  decide +kernel

/-- A frame that passes its FCS passes the filter of half-port 4 where its addresses and EtherType do. -/
theorem frame0_ok (d : Dev) (f : List Byte) (h : fcsOk f = true)
    (hs : (slice f 0 6 == macOf d (myId d) 4 && (etherOff d == 12 || slice f 12 2 == [0x81#8, 0x00#8])
      && beNat (slice f (etherOff d) 2) == field (fabTable d) 2 2) = true) : frameOk d 4 f = true := by
  simpa [frameOk, h, and_assoc] using hs

theorem witness_FramesAreDeliveredOnceAndPacketsStart_filter :
    ∀ p ∈ [((1, 0, 0) : Nat × Nat × Nat), (0, 0, 0xFFFFFF), (0, 0, 0), (3, 4, 0)],
      frameOk (atEth { state := .up } {}).dev 4 (frame0 p.1 p.2.1 p.2.2) = true := by
  intro p hp
  refine frame0_ok _ _ (frame0_fcs p hp) ?_
  revert p
  decide +kernel

theorem witness_FramesAreDeliveredOnceAndPacketsStart :
    (let s := atEth { state := .up } {}
     (portOf s.dev 4).state = .up ∧ portConfig s.dev 4 = 2 ∧ frameOk s.dev 4 (List.replicate 63 0#8) = false) ∧
    (∀ p ∈ [((1, 0, 0) : Nat × Nat × Nat), (0, 0, 0xFFFFFF), (0, 0, 0)], let s := atEth { state := .up } {}
     let f := frame0 p.1 p.2.1 p.2.2
     let pk := packetOf (f.drop (etherOff s.dev + 10))
     framePeer f = 1 ∧ bit (frameShim s.dev f) 48 = (p.1 == 1) ∧ pk.dst = myId s.dev ∧ knownKind pk.kind = true ∧
     (connOf s.dev 1).rxCum < 2 ^ 24 ∧ bits (frameShim s.dev f) 23 0 = p.2.2 ∧ pfcOn s.dev = false ∧ (connOf s.dev 1).rxAhead = [] ∧
     ((connOf s.dev 1).rxCum = 0xFFFFFF ∧ ((connOf s.dev 1).rxCum + 1) % 2 ^ 24 = 0)) ∧
    (∀ n ∈ [6, 7], ∀ t ∈ [0, 400000], let pk := { msg0 with dst := 1 }
     let s := atEth { state := .up } { unacked := [(5, pk, (n : Nat), t)] }
     let f := frame0 3 4 0
     (connOf s.dev 1).unacked = [(5, pk, n, t)] ∧ pk.dst = 1 ∧ ethChoice s.dev ≠ none ∧ framePeer f = 1 ∧
     bit (frameShim s.dev f) 49 = true ∧ 5 = (bits (frameShim s.dev f) 47 24 + 1) % 2 ^ 24 ∧ s.dev.fabric.outst = [] ∧
     (t + 400 * fabRto s.dev ≤ s.dev.now ↔ t = 0)) ∧
    (let s := { atEth {} {} with dev := { (atEth {} {}).dev with tables := [(1280, patchBytes fabTable0 0x0C (natLe 2 (2 ^ 13)))] } }
     pfcOn s.dev = true ∧ 2 ≤ portConfig s.dev 4) ∧
    (let s := atPort 0 { state := .up }
     portConfig s.dev 0 = 1 ∧ (portOf s.dev 0).state = .up ∧ (portOf s.dev 0).queued = [] ∧ (portOf s.dev 0).txBuf = []) ∧
    (∀ h ∈ [0, 4], let pk := { msg0 with dst := 1 }
     let p : HalfPort := { state := .up, credits := [8, 8, 8, 8], queued := [(2, pk)] }
     let s := atPort h p
     (portOf s.dev h).state = .up ∧ (portOf s.dev h).current = none ∧ (portOf s.dev h).queued = [(2, pk)] ∧ maySend s.dev h pk = true ∧
     portConfig s.dev h = (if h = 0 then 1 else 2) ∧ (portOf s.dev h).txBuf = [] ∧ acksDue s.dev = []) := by
  refine ⟨?_, ?_, ?_, ?_, ?_, ?_⟩ <;> decide +kernel

/-- A partition of one place with a pool of 1,024 pages. -/
def part1 : Partn := {
  dies := 0xFF, resMax := 1, slice := 1000, block := 100, quota := 2 ^ 40, charge := 0,
  pool := [{ base := 2 ^ 30, pages := 1024, rate := 1, used := [] }] }

/-- Context 1 in state x beside context 2, which is demoted and wants its place since 0. -/
def atMove (x : Ctx) (want : Option Nat) (p : Partn) : State :=
  let s := ready queue0 []
  { s with dev := { s.dev with ctxs := [(1, x), (2, { ctx0 with state := .demoted, base := [], wantAt := want })], parts := [(0, p)], now := 400000 } }

theorem witness_ContextsAreDemotedAndRecalled :
    (let s := atMove ctx0 (some 0) part1
     smFind s.dev.ctxs 1 = some ctx0 ∧ partOf s.dev ctx0.part = some part1 ∧ ctx0.state = .resident ∧ ctx0.destroying = false ∧
     ctx0.moveCid = none ∧ placeWanted s.dev 0 = true ∧ placesFull s.dev 0 = true ∧ longBlocked s.dev 1 ctx0 part1 = true ∧
     longest s.dev 1 ctx0 part1 = true ∧ (∀ c ∈ s.dev.ctxs, c.2.part = ctx0.part → c.2.state ≠ .demoting) ∧ s.dev.xfers = [] ∧
     s.dev.mem.moves = [] ∧ s.dev.host.bme = true ∧ cupPages ctx0 = [] ∧ ctx0.base ≠ [] ∧
     (freePool part1 (ceilDiv (imageBytes ctx0) 65536)).length = ceilDiv (imageBytes ctx0) 65536) ∧
    (let x := { ctx0 with state := .demoting, rinseWait := [3], base := [] }
     let s := atMove x none part1
     smFind s.dev.ctxs 1 = some x ∧ (partOf s.dev x.part).isSome = true ∧ x.state = .demoting ∧ allRinsed s.dev x = true) ∧
    (let x := { ctx0 with state := .demoted, base := [], wantAt := some 0 }
     let s := atMove x none part1
     smFind s.dev.ctxs 1 = some x ∧ x.state = .demoted ∧ x.destroying = false ∧ x.moveCid = none ∧ firstWanting s.dev 1 x = true ∧
     placesFull s.dev x.part = false ∧ s.dev.host.bme = true ∧ isOk (settle s.dev 1 x .recalling) = true ∧ x.image = none ∧ x.cupBack = []) ∧
    (let x := { ctx0 with state := .recalling }
     let s := atMove x none part1
     smFind s.dev.ctxs 1 = some x ∧ x.state = .recalling ∧ x.cupBack = [] ∧ s.dev.mem.granRinse = [] ∧ x.image = none) := by decide +kernel

/-- The image of the resident above has as many bytes as it needs of the pool. -/
theorem witness_ContextsAreDemotedAndRecalled_image :
    (imageOf (atMove ctx0 (some 0) part1).dev 1).length = imageBytes ctx0 := imageOf_length _ _ _ (by decide)

/-- A ready device with a tally and command 0. -/
def atTally (a : Tally) (c : Cmd) : State := { ready queue0 [(0, c)] with dev := { (ready queue0 [(0, c)]).dev with tally := a, now := 500 } }

theorem witness_TallyIsUpdatedFrozenAndRead_update (f : Bool) (u : TUpd) :
    (atTally { input := [u], frozen := f } (cmd0 0x0C01 0xFF [] [])).dev.tally.input = u :: [] ∧
    (atTally { input := [u], frozen := f } (cmd0 0x0C01 0xFF [] [])).dev.tally.frozen = f := ⟨rfl, rfl⟩

theorem witness_TallyIsUpdatedFrozenAndRead_freeze :
    ∀ f ∈ [false, true], let c := { cmd0 0x0C01 0xFF [] [] with info := [0] }
     let s := atTally { frozen := f } c
     Runs s 0x0C01 0 c ∧ isOk (chkFreeze c) = true ∧ s.dev.tally.frozen = f ∧ nth 0 c.info 0 ≤ s.dev.tally.taken := by decide +kernel

theorem witness_TallyIsUpdatedFrozenAndRead_thaw :
    ∀ f ∈ [false, true], let c := cmd0 0x0C02 0xFF [] []
     let s := atTally { frozen := f, held := [.count 1 1 2 3 4 5] } c
     Runs s 0x0C02 0 c ∧ zeros (slice c.hdr 0x10 48) = true ∧ s.dev.tally.frozen = f ∧ s.dev.tally.edgeHeld = [] ∧ s.dev.tally.heldDrops = [] ∧
     s.dev.tally.freezeEnd ≤ s.dev.now ∧ readingTally s.dev = false := by decide +kernel

theorem witness_TallyIsUpdatedFrozenAndRead_read :
    ∀ p ∈ [(0, 0), (1, 0), (1, 1)], let c := cmd0 0x0C03 0xFF (bytesOf [(1, p.1), (1, p.2), (2, 1), (2, 1), (2, 0)]) []
     let s := atTally {} c
     Runs s 0x0C03 0 c ∧ isOk (chkTallyRead s.dev c) = true ∧ par c 0x10 1 = p.1 ∧ bit (par c 0x11 1) 0 = (p.2 == 1) := by decide +kernel

/-! ### KV memory -/

/-- A layout of 64 dimensions, one layer and one head, in BF16; and a pool of it with four pages and four sequences. -/
def layout0 : List Byte := bytesOf [(1, 1), (1, 6), (2, 1), (1, 1), (3, 0), (4, 1), (4, 0), (4, 1), (4, 0), (8, 0)]
def pool0 (sq : SMap KvSeq) (pg : SMap KvPage) : KvPool := {
  layout := layout0, va := 2 ^ 20, pages := 4, seqs := 4, nodes := 4, cup := 0, page := pg, seq := sq, node := [], nextNode := 0,
  step := 0, remap := [], toks := [] }

/-- An empty sequence, and one of 32 positions. -/
def seq0 : KvSeq := { live := true, len := [0], heads := [0] }
def seq32 : KvSeq := { seq0 with len := [32], commit := 32, pages := [0], closed := 1 }

/-- A row of a batch table, and a step of it in flight. -/
def row0 (kind : Nat) : BRow := {
  req := 0#32, seq := 0#32, pos := 0, token := 0#32, kind := kind, sample := true, tent := false, topK := 0, invTemp := 0#32, stream := 0#64 }
def step0 : BStep := {
  num := 0, model := 3, draft := false, version := noVersion, stage := .running, rows := [row0 0], pins := [], tableVa := 0, failed := false,
  launch := some 0, remote := false, waiting := [], got := [], leader := 0 }

/-- Context 1 with two pages and that pool; a step in flight when st says so. -/
def ctxK (p : KvPool) (st : Option BStep) : Ctx := { ctxP with pools := [(0, p)], serve := { step := st } }

/-- The device that is ready with that context. -/
def readyK (cs : SMap Cmd) (x : Ctx) : State :=
  let s := readyM cs {}
  { s with dev := { s.dev with ctxs := [(1, x)], tables := [(2048, layout0)] } }

/-- KV.APPEND of one token at a position, KV.FORK and KV.FREE of pool 0. -/
def appendCmd (pos : Nat) : Cmd := cmd0 0x0801 1 (bytesOf [(4, 0), (4, pos), (8, 0), (2, 1), (2, 0), (2, 1), (2, 0), (8, 0), (16, 0)]) []
def forkCmd (mode len : Nat) (payload : List Byte) : Cmd := cmd0 0x0802 1 (bytesOf [(1, mode), (1, 0), (2, 0), (4, 0), (4, len), (4, 0),
  (8, 2 ^ 20), (4, 4), (4, 4), (4, 4), (4, 0), (1, 1), (7, 0)]) payload
def freeCmd (mode len : Nat) : Cmd := cmd0 0x0803 1 (bytesOf [(1, mode), (1, 0), (2, 0), (4, 0), (4, len), (4, 0), (32, 0)]) []

/-- A layer of a sequence none of whose heads is half appended. -/
theorem noHeads (l : Nat) : nth 0 [0] l = 0 := by cases l <;> simp [nth]

/-- An append of one token copies no page but the one at its position. -/
theorem noLaterCopy_one (p : KvPool) (q : KvSeq) (pos : Nat) : NoLaterCopy p q pos 1 := by
  intro i pg h1 h2
  omega

/-- An append to an empty sequence, and one that copies the page it shares. -/
theorem witness_KvCommandsKeepTheSequences_append :
    (∀ v ∈ [(0, seq0, ([] : SMap KvPage), 1, 0), (8, { seq0 with len := [8], commit := 8, pages := [0] }, [(0, { count := 2, fill := 16 })], 0, 1)],
     let c := appendCmd v.1
     let q := v.2.1
     let p := pool0 [(0, q)] v.2.2.1
     let s := readyK [(0, c)] (ctxK p none)
     let d := began s 0
     Runs s 0x0801 0 c ∧ attached s.dev 1 (apSeq c) = false ∧ isOk (chkKvAppend d c) = true ∧ seqFind s.dev 1 (apSeq c) = some (0, 0, q) ∧
     poolOf s.dev 1 0 = some p ∧ smFind p.seq 0 = some q ∧ PoolSound p ∧ SeqSound p q ∧ 0 < kvH p ∧ 0 < kvTpp p ∧ q.heads = [0] ∧
     apTokens c = 1 ∧ notLocal s.dev 1 [(par c 0x18 8, appendSrc p c, false)] = [] ∧
     isOk (readVirt s.dev 1 (par c 0x18 8) (apLayers c * kvH p * 4 * kvD p) .any) = true ∧
     appendNeeds p q (apPos c) (apTokens c) = (v.2.2.2.1, v.2.2.2.2) ∧ v.2.2.2.1 + v.2.2.2.2 ≤ kvFreeCount p ∧
     v.2.2.2.1 + v.2.2.2.2 ≤ kvOpen p) ∧
    (∀ q ∈ [(0x0801, appendCmd 0), (0x0802, forkCmd 1 32 []), (0x0802, forkCmd 2 0 (natLe 128 0)), (0x0803, freeCmd 0 0)],
     let s := readyK [(0, q.2)] (ctxK (pool0 [(0, seq0)] []) (some step0))
     Runs s q.1 0 q.2 ∧ (q.1 = 0x0801 → apSeq q.2 = 0) ∧ (q.1 ≠ 0x0801 → fkSeq q.2 = 0) ∧ (q.1 = 0x0802 → fkMode q.2 = 1 ∨ fkMode q.2 = 2) ∧
     (q.1 = 0x0803 → fkMode q.2 < 2) ∧ attached s.dev (cmdContext q.2) 0 = true ∧ (smFind s.dev.ctxs (cmdContext q.2)).isSome = true) := by
  decide +kernel

theorem witness_KvCommandsKeepTheSequences_fork :
    (let c := forkCmd 0 0 []
     let p := pool0 [(0, seq0)] []
     let s := readyK [(0, c)] (ctxK p none)
     Runs s 0x0802 0 c ∧ fkMode c = 0 ∧ isOk (chkKvFork (began s 0) c) = true ∧ poolOf s.dev 1 (fkPool c) = some p ∧ liveSeqs s.dev < 131072 ∧
     1 < p.seqs ∧ smFind p.seq 1 = none) ∧
    (∀ n ∈ [0, 8, 32], let c := forkCmd 1 n []
     let p := pool0 [(0, seq32)] [(0, { count := 1, fill := 32 })]
     let s := readyK [(0, c)] (ctxK p none)
     Runs s 0x0802 0 c ∧ fkMode c = 1 ∧ attached s.dev 1 (fkSeq c) = false ∧ isOk (chkKvFork (began s 0) c) = true ∧
     seqIn s.dev 1 (fkPool c) (fkSeq c) = some (0, seq32) ∧ poolOf s.dev 1 (fkPool c) = some p ∧ liveSeqs s.dev < 131072 ∧ 1 < p.seqs ∧
     smFind p.seq 1 = none ∧ fkLength c = n ∧ PoolSound p ∧ (∀ pg ∈ seq32.pages, (smFind p.page pg).isSome = true) ∧ 1 ≤ kvFreeCount p ∧
     1 ≤ kvOpen p) ∧
    (let c := forkCmd 2 0 (natLe 128 0)
     let p := pool0 [(0, seq0)] []
     let s := readyK [(0, c)] (ctxK p none)
     Runs s 0x0802 0 c ∧ fkMode c = 2 ∧ attached s.dev 1 (fkSeq c) = false ∧ isOk (chkKvFork (began s 0) c) = true ∧
     seqIn s.dev 1 (fkPool c) (fkSeq c) = some (0, seq0) ∧ poolOf s.dev 1 (fkPool c) = some p ∧ smFind p.seq 0 = some seq0 ∧ seq0.len ≠ []) ∧
    (let c := { forkCmd 3 0 [] with frames := span 16 20 }
     let s := readyK [(0, c)] ctxP
     Runs s 0x0802 0 c ∧ fkMode c = 3 ∧ isOk (chkKvFork (began s 0) c) = true ∧ newPool s.dev c = some { pool0 [] [] with nodes := 4 } ∧
     reserveReady s.dev c = true ∧ smFind s.dev.ctxs 1 = some ctxP ∧ (kvEnd (pool0 [] []) - 2 ^ 20) / 65536 = c.frames.length) := by
  refine ⟨?_, ?_, ?_, ?_⟩ <;> decide +kernel

theorem witness_KvCommandsKeepTheSequences_free :
    (∀ v ∈ [(0, 0), (1, 0), (1, 8)], let c := freeCmd v.1 v.2
     let p := pool0 [(0, seq32)] [(0, { count := 1, fill := 32 })]
     let s := readyK [(0, c)] (ctxK p none)
     Runs s 0x0803 0 c ∧ fkMode c = v.1 ∧ attached s.dev 1 (fkSeq c) = false ∧ isOk (chkKvFree (began s 0) c) = true ∧
     poolOf s.dev 1 (fkPool c) = some p ∧ seqIn s.dev 1 (fkPool c) (fkSeq c) = some (0, seq32) ∧ smFind p.seq 0 = some seq32 ∧
     (v.1 = 1 → fkLength c = v.2) ∧ 1 ≤ kvFreeCount p) ∧
    (∀ m ∈ [2, 3], let c := freeCmd m 0
     let s := readyK [(0, c)] (ctxK (pool0 [] []) none)
     Runs s 0x0803 0 c ∧ fkMode c = m ∧ isOk (chkKvFree (began s 0) c) = true ∧ (poolOf s.dev 1 (fkPool c)).isSome = true ∧
     poolHeld (began s 0) 1 (fkPool c) = false) := by decide +kernel

/-- An append entry for position 0 of sequence 0, with its keys and values. -/
def entry0 (fl : Nat) : List Byte := bytesOf [(4, 0), (4, 0), (2, 0), (1, 0), (1, fl), (52, 0), (256, 0)]

theorem witness_KvCommandsKeepTheSequences_window :
    ∀ fl ∈ [0, 1], ∀ sem ∈ [none, some 3], let va := 2 ^ 20 + 4 * 65536
     let q := { seq0 with pages := [0] }
     let p := pool0 [(0, q)] [(0, { count := 1 })]
     let leaf : Pte := { page0 with kvPool := some 0, target := 9, frames := [9] }
     let k := { ctxK p (some step0) with ptes := [(va / 65536, leaf)] }
     let x := { xfer0 .toMem with va := va, len := 320, data := entry0 fl, sem := sem }
     let s := { readyK [] k with dev := { (readyK [] k).dev with xfers := [(0, x)] } }
     smFind s.dev.xfers 0 = some x ∧ x.kind = .toMem ∧ x.dropped = 0 ∧ x.ctx = 1 ∧ smFind s.dev.ctxs 1 = some k ∧
     windowAt k x.va = some (0, 0) ∧ isOk (checkVirt s.dev 1 x.va x.len .engWrite) = true ∧ poolOf s.dev 1 0 = some p ∧
     x.data.length = 64 + 4 * kvD p ∧ smGet 0 (getE s.dev x.ctx x.idx).sem 3 < 65535 ∧
     field x.data 4 4 = 0 ∧ field x.data 8 2 = 0 ∧ field x.data 0x0A 1 = 0 ∧ field x.data 0x0B 1 = fl ∧
     seqIn s.dev 1 0 (field x.data 0 4) = some (0, q) ∧ smFind p.seq 0 = some q ∧ 0 < kvL p ∧ 0 < kvH p ∧ (0 * kvH p + 0) % 16 = 0 ∧
     nth 0 q.len 0 = 0 ∧ fl ≤ 1 ∧ zeros (slice x.data 0x0C 4) = true ∧ zeros (slice x.data 0x18 40) = true ∧
     seqLen (headDone p q 0 0 0) ≤ q.commit + 32 ∧ (appendNeeds p q 0 1).1 + (appendNeeds p q 0 1).2 ≤ kvFreeCount p := by decide +kernel

theorem witness_KvCommandsKeepTheSequences_heat :
    ∀ n ∈ [15, 16, 63, 64], ∀ st ∈ [none, some step0],
     let p := { pool0 [(0, seq32)] [(0, { count := 1, heat := 6 })] with step := n }
     let s := readyK [] (ctxK p st)
     poolOf s.dev 1 0 = some p ∧ (p.halved + 64 ≤ p.step ↔ n = 64) ∧ (p.promoted + 16 ≤ p.step ↔ n ≠ 15) ∧ stepBusy s.dev 1 = st.isSome := by
  decide +kernel

/-! ### Serving -/

/-- A serving entry 3 without a draft model, and the serving table of context 1 with room for recs requests. -/
def serveEntry : List Byte :=
  bytesOf [(1, 3), (1, 0), (1, 0xFF), (1, 0), (1, 0), (1, 0), (1, 1), (1, 0), (4, 100), (4, 8), (4, 8), (4, 0), (24, 0), (8, 0), (8, 65536)]
    ++ (List.replicate 32 0xFF#8 ++ natLe 32 0)
def serveTab (recs : Nat) : List Byte :=
  bytesOf [(1, 0), (1, 1), (1, 1), (1, 0), (4, recs), (8, 0), (8, 65536), (4, 0), (36, 0)] ++ serveEntry

/-- The device that is ready with that table, context 1 in x, and requests rs. -/
def readyS (cs : SMap Cmd) (x : Ctx) (rs : SMap Req) (recs : Nat) : State :=
  let s := readyK cs x
  { s with dev := { s.dev with reqs := rs, tables := [(2048, layout0), (2561, serveTab recs)] } }

/-- A request of that model in record 0: of one prompt token, and one token put out. -/
def req0 (st : ReqState) : Req := {
  ctx := 1, state := st, model := 3, queue := 1, hostSeq := 7#32, seq := 0#32, promptLen := 1, prompt := [5#32], processed := 1, maxNew := 4,
  outLen := 1, outToks := [(6#32, 0#32)], reservedTo := 5, tbtGoal := 1000, horizon := 256, version := noVersion, vLast := noVersion }

/-- Its sequence. -/
def seq1 : KvSeq := { seq0 with len := [1], commit := 1, pages := [0] }
def ctxS (st : Option BStep) : Ctx := ctxK (pool0 [(0, seq1)] [(0, { count := 1, fill := 1 })]) st

/-- REQ.SUBMIT of one prompt token with SFLAGS fl. -/
def submitCmd (fl : Nat) : Cmd :=
  let c := cmd0 0x0701 1 (bytesOf [(1, 3), (1, fl), (2, 0), (4, 1), (8, 0), (4, 4), (4, 0), (4, 1000), (4, 0), (8, 0), (4, 0xFFFFFFFF), (4, 0)]) (natLe 4 5)
  { c with hdr := patchBytes c.hdr 2 (natLe 2 2) }

theorem witness_RequestsAreServedInBatchSteps_submit :
    ∀ p ∈ [(0, 8), (0, 0), (1, 0)], let c := submitCmd p.1
     let s := readyS [(0, c)] (ctxK (pool0 [] []) none) [] p.2
     let r0 := newReq (began s 0) 0 c serveEntry (idsOf c.payload) 0
     let d0 : Dev := modCmd { began s 0 with freeCtr := s.dev.freeCtr + 2 ^ 20 } 0 (fun c => { c with info := [0] })
     let r : Req := { r0 with joinBy := latestJoin (modReq d0 0 (fun _ => r0)) 0 r0 }
     let d := modReq (modReq d0 0 (fun _ => r0)) 0 (fun _ => r)
     Runs s 0x0701 0 c ∧ c.info = [] ∧ cloneWaits (began s 0) c = false ∧ isOk (chkReqSubmit (began s 0) c) = true ∧
     sEntry s.dev 1 (rqModel c) = some serveEntry ∧ rqAddr c = 0 ∧ (idsOf c.payload).all (fun t => decide (t.toNat < seVocab serveEntry)) = true ∧
     freeRecord s.dev = some 0 ∧ (getReq s.dev 0).state = .free ∧ smFind s.dev.reqs 0 = none ∧ r.sflags.getLsbD 0 = (p.1 == 1) ∧
     (match testReq d 0 (parentOfReq d r) r with | .ok _ _ _ => p.2 == 8 | .no fs => p.2 == 0 && fs.all (·.2)) = true := by decide +kernel

/-- REQ.CANCEL and REQ.QUERY of request 0. -/
def cancelCmd : Cmd := cmd0 0x0702 1 (natLe 48 0) []
def queryCmd (rel : Nat) : Cmd :=
  let c := cmd0 0x0703 1 (bytesOf [(4, 0), (1, 0), (1, rel), (42, 0)]) []
  { c with hdr := patchBytes c.hdr 2 (natLe 2 1) }

/-- The final record of a request that has missed a goal, in time for its deadline. -/
theorem witness_CommandsEndWithOneFinalRecord_request :
    ∀ hot ∈ [false, true], let c := { submitCmd 0 with phase := .done, fin := some (done0 0), info := [0] }
     let r := { req0 .decode with cid := some 0, missed := true, lateHot := hot, ended := true }
     let s := readyS [(0, c)] (ctxS none) [(0, r)] 8
     smFind s.dev.cmds 0 = some c ∧ c.fin = some (done0 0) ∧ CanProduce s c.queue ∧ deadlineOf c = none ∧ reqOfCmd s.dev 0 c = some r ∧
     r.missed = true ∧ (done0 0).status = 0#16 := by decide +kernel

theorem witness_RequestsAreServedInBatchSteps_ended :
    let r := { req0 .decode with ended := true }
    let s := readyS [(0, cancelCmd)] (ctxS none) [(0, r)] 8
    Runs s 0x0702 0 cancelCmd ∧ cancelCmd.info = [] ∧ isOk (chkReqCancel (began s 0) cancelCmd) = true ∧ namedReq s.dev cancelCmd = some (0, r) ∧
    r.ended = true := by decide +kernel

theorem witness_RequestsAreServedInBatchSteps_cancel :
    ∀ p ∈ [(ReqState.done, false), (.decode, true), (.waiting, false)], let c := cancelCmd
     let r := { req0 p.1 with cid := if p.1 = .waiting then some 1 else none }
     let s := readyS [(0, c), (1, submitCmd 0)] (ctxS (if p.2 then some step0 else none)) [(0, r)] 8
     Runs s 0x0702 0 c ∧ c.info = [] ∧ isOk (chkReqCancel (began s 0) c) = true ∧ namedReq s.dev c = some (0, r) ∧ r.state = p.1 ∧
     inStep s.dev 0 r = p.2 ∧ getReq s.dev 0 = r ∧ r.ended = false ∧ r.cid ≠ some 0 ∧ (p.1 = .waiting → r.cid = some 1 ∧ smFind s.dev.cmds 1 = some (submitCmd 0) ∧
     (submitCmd 0).fin = none) := by decide +kernel

theorem witness_RequestsAreServedInBatchSteps_query :
    (∀ rel ∈ [0, 1], let c := queryCmd rel
     let s := readyS [(0, c)] (ctxS none) [(0, req0 .done)] 8
     Runs s 0x0703 0 c ∧ isOk (chkReqQuery (began s 0) c) = true ∧ namedReq s.dev c = some (0, req0 .done) ∧
     bit (par c 0x15 1) 0 = (rel == 1) ∧ getReq s.dev 0 = req0 .done) ∧
    (∀ j ∈ [0, 400000], let r := { req0 .waiting with joinBy := j, cid := some 1 }
     let s := { readyS [(1, submitCmd 0)] (ctxS none) [(0, r)] 8 with dev := { (readyS [(1, submitCmd 0)] (ctxS none) [(0, r)] 8).dev with now := 1000 } }
     getReq s.dev (0 % 2 ^ 17) = r ∧ reqHandle (0 % 2 ^ 17) r = 0 ∧ r.state = .waiting ∧ r.ended = false ∧ (j = 0 → r.joinBy < s.dev.now) ∧
     (j = 400000 → s.dev.now ≤ r.joinBy) ∧ (smFind s.dev.cmds 1).isSome = true) := by decide +kernel

theorem witness_RequestsAreServedInBatchSteps_plan :
    (ctxS (some step0)).serve.step ≠ none ∧
    (let s := readyS [] (ctxS none) [(0, req0 .decode)] 8
     let d1 := boundary (idleEnd s.dev 1) 1
     smFind s.dev.ctxs 1 = some (ctxS none) ∧ (ctxS none).serve.step = none ∧ (ctxS none).destroying = false ∧ refolding s.dev 1 = false ∧
     (smFind d1.ctxs 1).isSome = true ∧ groupOrder d1 1 = [(3, noVersion)] ∧ sEntry d1 1 3 = some serveEntry ∧
     (match readyReqs d1 1 serveEntry ((activeReqs d1 1).filter (fun p => inGroup (3, noVersion) p.2)) with
      | (l, d2) => versionOk d2 1 serveEntry noVersion && (draftOf d2 1 serveEntry).isNone && l.any (fun p => hasGoal d2 p.2)
          && l.all (fun p => decide (p.2.state = .decode)) && (smFind d2.ctxs 1).isSome
          && (match (l.filter (fun p => decide (p.2.state = .decode))).flatMap (fun p => decodeRows d2 p.1 p.2) with
              | rows => decide (rows.length = 1) && (copyForRows d2 1 (sePool serveEntry) rows).1)) = true ∧
     1 ≤ seRows serveEntry) := by decide +kernel

/-- A piece of a batch table of n bytes, from device 1. -/
def tablePiece (n : Nat) : Packet := packet0 pkMsg 0 (bytesOf [(4, 6), (4, 9), (4, 0), (4, 3), (8, 4096), (4, n), (4, 0), (64, 0)])

theorem witness_RequestsAreServedInBatchSteps_receive :
    ∀ n ∈ [64, 4096], let pk := tablePiece n
     let s0 := readyS [] (ctxS none) [] 8
     let s := { s0 with dev := { s0.dev with fabric := { rxq := [(0, pk)] } } }
     FirstPacket s 0 pk [] ∧ pk.kind = pkMsg ∧ field pk.data 0 4 = 6 ∧ pk.ctx = 1 ∧ (ctxS none).serve.step = none ∧
     smFind s.dev.ctxs 1 = some (ctxS none) ∧ sEntry s.dev 1 (field pk.data 12 4) = some serveEntry ∧
     (decide (ceilDiv (field pk.data 24 4) 2048 ≤ 1) = (n == 64)) := by decide +kernel

theorem witness_RequestsAreServedInBatchSteps_commit :
    (∀ p ∈ [(false, LaunchState.running, ([] : List Nat), false), (false, .ended, [5], false), (true, .ended, [], false),
      (false, .ended, [], false), (false, .ended, [], true)],
     let st := { step0 with remote := p.1, waiting := p.2.2.1, failed := p.2.2.2 }
     let z := { launch0 with state := p.2.1 }
     let s0 := readyS [] (ctxS (some st)) [(0, req0 .decode)] 8
     let s := { s0 with dev := { s0.dev with launches := [(0, z)] } }
     smFind s.dev.ctxs 1 = some (ctxS (some st)) ∧ (ctxS (some st)).serve.step = some st ∧ st.launch = some 0 ∧ smFind s.dev.launches 0 = some z ∧
     sEntry s.dev 1 st.model = some serveEntry ∧ z.state = p.2.1 ∧ st.remote = p.1 ∧ st.waiting = p.2.2.1 ∧ st.failed = p.2.2.2 ∧ z.fault = none ∧
     isOk (readVirt s.dev 1 (st.tableVa + tokenOff st.rows) (16 * (st.rows.filter (fun b => b.sample)).length) .any) = true) ∧
    (let r := req0 .decode
     let s := readyS [] (ctxS (some step0)) [(0, r)] 8
     let rows : List (BRow × Option Sample) := [(row0 0, some (9#32, 0#32, 0#32))]
     getReq s.dev 0 = r ∧ isActive r = true ∧ r.cancel = false ∧ r.draftToks = [] ∧ rows.filterMap (·.2) = [(9#32, 0#32, 0#32)] ∧
     isNan32 0#32 = false ∧ (∀ i, i < 8 → r.stopMask.getLsbD i = true → seStop serveEntry i ≠ 9#32) ∧ r.outLen + 1 < r.maxNew ∧
     r.promptLen + r.outLen + 1 < 2 ^ 20) := by decide +kernel

/-! ### Learning steps and weight versions -/

/-- Weight set 0 of context 1, group 1, and its registry: slot 0 holds version 5 in state st. -/
def weightEntry : List Byte := bytesOf [(1, 0), (1, 1), (1, 2), (1, 1), (4, 0), (8, 65536), (112, 0)]
def set0 (st : WState) : WSet := { slots := [if st = .free then {} else { state := st, version := 5#32 }, {}] }

/-- The device that is ready with it. -/
def readyW (cs : SMap Cmd) (v : WSet) (w : Weights) : State :=
  let s := readyR cs []
  { s with dev := { s.dev with tables := [(2304, weightEntry)], weights := { w with sets := [(0, v)] } } }

/-- STEP.RUN of program slot 0 that waits for token 9, with ITER; its learning step, and its iteration entry. -/
def trainCmd (fl : Nat) : Cmd := cmd0 0x0601 1 (bytesOf [(1, 0), (1, 0), (1, 0), (1, fl), (4, 5), (2, 3), (1, 0), (1, 1), (4, 0), (4, 9), (4, 0),
  (8, 0), (8, 0), (8, 0)]) (natLe 32 0)
def tstep0 (l : Option Nat) : TStep := { cid := 0, ctx := 1, wset := 0, slot := 0, version := 5#32, launch := l }

theorem witness_StepsAndWeightVersionsMove_run :
    (∀ l ∈ [([] : SMap Nat), [(2 ^ 32 + 9, 4)]], let s := readyW [] (set0 .live) { tokens := l }
     (smFind s.dev.ctxs 1).isSome = true ∧ (tokenCount s.dev 1 9#32 ≠ 0 ∨ s.dev.weights.tokens = [])) ∧
    (let c := trainCmd 4
     let s := readyW [(0, c)] (set0 .committed) { tokens := [(2 ^ 32 + 9, 1)], steps := [(0, tstep0 none)] }
     Runs s 0x0601 0 c ∧ nextStep s.dev 1 = some (tstep0 none, c) ∧ srWait0 c ≠ 0#32 ∧ srWait1 c = 0#32) := by decide +kernel

theorem witness_StepsAndWeightVersionsMove_end :
    ∀ p ∈ [(LaunchState.running, none), (.ended, some { idx := 0, line := 0, peg := 0, pc := 0, va := 0, code := 1 }), (.ended, none)],
     let c := trainCmd 4
     let z : Launch := { launch0 with state := p.1, fault := p.2 }
     let s0 := readyW [(0, c)] { set0 .committed with iter := [(3, { state := 2, cid := some 0 })] } { steps := [(0, tstep0 (some 0))] }
     let s := { s0 with dev := { s0.dev with launches := [(0, z)] } }
     smFind s.dev.weights.steps 0 = some (tstep0 (some 0)) ∧ smFind s.dev.cmds 0 = some c ∧ c.fin = none ∧ smFind s.dev.launches 0 = some z ∧
     z.state = p.1 ∧ z.fault = p.2 ∧ notLocal s.dev 1 [(srReport c, 16, false)] = [] ∧ isOk (readVirt s.dev 1 (srReport c) 16 .any) = true ∧
     srHealth c = false ∧ srLoss c = false ∧ srNotes c = [] ∧ srIter c = true ∧
     (smGet {} (wset s.dev 0).iter (srId c)).cid = some 0 := by decide +kernel

theorem witness_StepsAndWeightVersionsMove_discard :
    let c := cmd0 0x0602 1 (bytesOf [(1, 0), (1, 1), (2, 0), (4, 7), (40, 0)]) []
    let t0 : TStep := { tstep0 none with cid := 1 }
    let s := readyW [(0, c), (1, trainCmd 4)]
      { set0 .committed with iter := [(3, { state := 1, cid := some 1, queue := 1, hostSeq := 7#32 })] } { steps := [(1, t0)] }
    Runs s 0x0602 0 c ∧ isOk (chkStepDiscard (began s 0) c) = true ∧ discardSet (began s 0) c = ([t0], [3]) ∧ t0.cid ≠ 0 ∧ t0.launch = none ∧
    smFind s.dev.cmds 1 = some (trainCmd 4) ∧ (trainCmd 4).fin = none := by decide +kernel

/-- WEIGHTS commands on version ver of set 0. -/
def weightsCmd (op mode ver : Nat) : Cmd := cmd0 op 1 (bytesOf [(1, 0), (1, mode), (2, 0), (4, ver), (40, 0)]) []

theorem witness_StepsAndWeightVersionsMove_versions :
    (∀ p ∈ [(0x0901, 0, WState.free), (0x0901, 2, .staging), (0x0903, 0, .ready), (0x0903, 1, .held), (0x0904, 0, .committed), (0x0905, 0, .live),
      (0x0905, 1, .live)],
     let c := weightsCmd p.1 p.2.1 (if p.1 = 0x0905 then 0 else 5)
     let s0 := readyW [(0, c)] (set0 p.2.2) {}
     let s := { s0 with dev := { s0.dev with tables := [(1280, fabTable0), (2304, weightEntry)] } }
     let v := wset s.dev 0
     wOfCmd s.dev c 0 = some weightEntry ∧ Runs s p.1 0 c ∧ wgMode c = p.2.1 ∧ c.info = [] ∧
     (p.1 = 0x0901 → isOk (chkStage (began s 0) c) = true) ∧
     (p.2.2 = .free → v.slots.findIdx? (fun k => decide (k.state = .free)) = some 0) ∧
     (p.2.2 ≠ .free → p.1 ≠ 0x0905 → verSlot v (wgVersion c) = some 0 ∧ (wslot v 0).coll = 0) ∧
     updating (began s 0) 0 (wgVersion c) 0 = false ∧ v.rejoin = false ∧ committing (began s 0) 0 (wgVersion c) = false ∧
     (p.1 = 0x0903 → isOk (chkAbort (began s 0) c) = true ∧ pinsOf (wslot v 0) = 0 ∧ stepBusy s.dev 1 = false) ∧ v.pending = [] ∧
     (p.1 = 0x0904 → isOk (chkSwitch (began s 0) c) = true) ∧
     (p.1 = 0x0905 → isOk (chkQuery (began s 0) c) = true) ∧ nodePeers s.dev ≠ []) ∧
    (∀ t ∈ [0, 400000], let c := weightsCmd 0x0905 1 0
     let q : PeersQ := { cid := 0, answers := [], waiting := [1], at_ := 0 }
     let s0 := readyW [(0, c)] (set0 .live) { queries := [q] }
     let s := { s0 with dev := { s0.dev with now := t } }
     s.dev.weights.queries = [q] ∧ q.cid = 0 ∧ smFind s.dev.cmds 0 = some c ∧ c.fin = none ∧ wgMode c = 1 ∧
     (t = 0 → s.dev.now < q.at_ + 400000) ∧ (t = 400000 → q.at_ + 400000 ≤ s.dev.now)) := by decide +kernel

/-- A switch that waits for its boundary, from version 6 to version 5. -/
theorem witness_StepsAndWeightVersionsMove_switch :
    ∀ st ∈ [WState.committed, .held], let v : WSet := { slots := [{ state := st, version := 5#32 }, { state := .live, version := 6#32 }],
                                                         pending := [(5#32, true, none)] }
     let s := readyW [] v {}
     (wset s.dev 0).pending = [(5#32, true, none)] ∧ verSlot (wset s.dev 0) 5#32 = some 0 ∧ (wslot (wset s.dev 0) 0).state = st ∧
     liveSlot (wset s.dev 0) = some 1 := by decide +kernel

/-! ### Collectives -/

/-- Group 1: devices 0 and 1, in context 1. -/
def groupTable0 : List Byte := bytesOf [(1, 1), (1, 0), (1, 1), (1, 0), (2, 2), (2, 0), (2, 1), (2, 0), (4, 0), (4, 1), (4, 1000), (4, 100), (4, 0)]

/-- A shard map: member 1 holds one shard of 64 bytes. -/
def shardMap0 : List Byte := bytesOf [(4, 1), (60, 0), (8, 0), (8, 0), (4, 64), (2, 1), (2, 0xFFFF), (2, 0xFFFF), (1, 0xFF), (1, 0), (4, 0)]

/-- REFOLD.RUN, COLL.RUN and WEIGHTS.COMMIT of COLL_ID 5, WAIT us. -/
def collCmd (op cop us : Nat) : Cmd :=
  if op = 0x0902 then cmd0 op 1 (bytesOf [(1, 0), (1, 0), (2, 0), (4, 5), (4, 5), (4, us), (32, 0)]) []
  else if op = 0x0A01 then cmd0 op 1 (bytesOf [(2, 1), (2, 0), (4, 5), (40, 0)]) []
  else cmd0 op 1 (bytesOf [(1, cop), (1, 0), (2, 1), (4, 5), (8, 0), (4, 96), (4, 0xFFFFFFFF), (24, 0)]) []

/-- The collective of command 0 on member 0. -/
def coll0 (c : Cmd) (op : Nat) (ph : CollPhase) : Coll := {
  group := 1, id := 5#32, op := op, cid := some 0, ctx := 1, member := 0, hdr := c.hdr, desc := if op = 3 then shardMap0 else [],
  digest := natLe 32 0, hash := natLe 8 0, refusal := 0#32, phase := ph, startAt := 0, sentAt := 0 }

/-- The device that is ready with collective 2, the tables, packets received, and the version of weight set 0 in state st. -/
def atColl (c : Cmd) (k : Coll) (pks : List Packet) (st : WState) (now : Nat) : State :=
  let s := readyW [(0, c)] (set0 st) {}
  { s with dev := { s.dev with tables := [(1280, fabTable0), (1792, groupTable0), (2304, weightEntry)], colls := { live := [(2, k)] },
                               fabric := { rxq := pks.map (fun p => (0, p)) }, now := now } }

theorem witness_CollectivesStartDecideAndExchange_commands :
    (∀ p ∈ [(0x0A01, 0x10, WState.ready, 10), (0x0B01, 3, .ready, 10), (0x0B01, 6, .ready, 10), (0x0902, 0x20, .ready, 10), (0x0902, 0x20, .staging, 10),
      (0x0902, 0x20, .staging, 0)],
     let c := collCmd p.1 p.2.1 p.2.2.2
     let k := coll0 c p.2.1 .waiting
     let s := atColl c k [] p.2.2.1 5
     let d := began s 0
     getColl s.dev 2 = some k ∧ Runs s p.1 0 c ∧ collOfCmd s.dev 0 = some (2, k) ∧ k.phase = .waiting ∧
     (isReduce k.op = true → smFind d.ctxs k.ctx = some ctxR ∧ bufsOnDies d (groupDevs d k.group) k.member c k.desc ctxR = true) ∧
     (k.op ≠ opCommit → notLocal d (cmdContext c) (rangesOf d k) = [] ∧ pagesPinned d 2 k = false ∧ slotPinned d k.ctx (rangesOf d k) = false) ∧
     (k.op = opCommit → (voteOf (wset s.dev (cWset k)) (cVer k) = 0 ↔ p.2.2.1 = .ready) ∧
       (s.dev.now < k.startAt + 400 * par c 0x1C 4 ↔ p.2.2.2 = 10))) ∧
    (let c := collCmd 0x0902 0 0
     let k := coll0 c opCommit .waiting
     let s := atColl c k [] .staging 5
     k.cid = some 0 ∧ smFind s.dev.cmds 0 = some c ∧ c.phase = .running ∧ k.startAt + 400 * field k.hdr 0x1C 4 ≤ s.dev.now) := by decide +kernel

theorem witness_CollectivesStartDecideAndExchange_timers :
    let c := collCmd 0x0B01 3 0
    let k := coll0 c 3 .start
    let s := atColl c k [] .ready 400000
    getColl s.dev 2 = some k ∧ k.phase = .start ∧ k.sentAt + 400 * fabRto s.dev ≤ s.dev.now ∧ groupEntry s.dev k.group = some groupTable0 ∧
    k.member = 0 ∧ k.startAt + 400 * gStartTimeout groupTable0 ≤ s.dev.now ∧
    (span 0 (groupDevs s.dev k.group).length).find? (fun i => (smFind k.starts i).isNone) = some 0 := by decide +kernel

/-- A collective packet of member 1 with its data. -/
def collPkt (op ck off lo hi crc cfl aux : Nat) (data : List Byte) : Packet :=
  { packet0 pkColl 0 (bytesOf [(4, 5), (1, op), (1, ck), (2, 1), (8, 0), (4, 0), (4, 0), (4, off), (4, lo), (4, hi), (4, crc), (2, cfl), (2, 1),
      (4, aux), (16, 0)] ++ data) with addr := 1 }

theorem witness_CollectivesStartDecideAndExchange_start :
    ∀ p ∈ [([] : List Byte), startRecord 1 0 0 (natLe 8 0) (natLe 32 0)],
     let c := collCmd 0x0B01 3 0
     let k := { coll0 c 3 .start with starts := [(0, startRecord 0 0 0 (natLe 8 0) (natLe 32 0))] }
     let pk := collPkt 3 0 0 0 0 0 0 0 p
     let s := atColl c k [pk] .ready 0
     let put := (startRecords pk).foldl (fun m r => smPut m (srMember r) r) k.starts
     FirstPacket s 0 pk [] ∧ pk.kind = pkColl ∧ 64 ≤ pk.data.length ∧ findColl s.dev (cpGroup pk) (cpId pk) = some (2, k) ∧ ckOf pk = 0 ∧
     (groupDevs s.dev k.group).length = 2 ∧ (p = [] → smFind put 1 = none) ∧ (p ≠ [] → (smFind put 0).isSome = true ∧ (smFind put 1).isSome = true) := by
  decide +kernel

theorem witness_CollectivesStartDecideAndExchange_decide :
    ∀ p ∈ [(1, 3, 0x40), (1, 1, 0), (1, 3, 0), (1, 0x20, 2 ^ 31 + 0xFFFF), (8, 3, 0x10040)],
     let c := collCmd (if p.2.1 = 0x20 then 0x0902 else 0x0B01) p.2.1 0
     let k := coll0 c p.2.1 .start
     let pk := collPkt p.2.1 p.1 0 0 0 0 0 p.2.2 (natLe 16 0)
     let s := atColl c k [pk] .ready 0
     FirstPacket s 0 pk [] ∧ pk.kind = pkColl ∧ 64 ≤ pk.data.length ∧ findColl s.dev (cpGroup pk) (cpId pk) = some (2, k) ∧ ckOf pk = p.1 ∧
     smFind s.dev.cmds 0 = some c ∧ c.fin = none ∧ k.op = p.2.1 ∧ cpAux pk = p.2.2 ∧
     (p.2.1 = 0x20 → bit (cpAux pk) 31 = true ∧ wEntry s.dev (cWset k) = some weightEntry ∧ k.pins = [] ∧ k.wpins = [] ∧
       verSlot (wset s.dev (cWset k)) (cVer k) = some 0 ∧ (wslot (wset s.dev (cWset k)) 0).state = .ready) := by decide +kernel

/-- A shard of 64 bytes that is asked of member 1 or sent to it. -/
def shard0 (at_ : Nat) : Shard := { idx := 0, peer := 1, va := 64, bytes := 64, asked := true, at_ := at_ }

/-- Its collective in a phase, when a packet of kind ck arrives, and that packet. -/
def dataColl (ck op : Nat) (ph : CollPhase) : Coll :=
  { coll0 (collCmd 0x0B01 op 0) op ph with
    desc := if ck = 3 then [] else shardMap0, send := [(6, shard0 0)], recv := if ck = 3 then [] else [(7, shard0 0)] }
def dataPkt (ck op : Nat) : Packet :=
  collPkt op ck 0 0 (if ck = 9 then 4 else 0) (if ck = 2 then (crc32c line64).toNat else 0) (if ck = 2 then 1 else 0) 0
    (if ck = 2 then line64 else [])

theorem witness_CollectivesStartDecideAndExchange_data :
    ∀ p ∈ [(2, 3), (3, 3), (4, 3), (5, 3), (6, 3), (7, 3), (9, 7), (10, 3)], ∀ ph ∈ [CollPhase.start, .data],
     let c := collCmd 0x0B01 p.2 0
     let k := dataColl p.1 p.2 ph
     let pk := dataPkt p.1 p.2
     let s := atColl c k [pk] .ready 0
     FirstPacket s 0 pk [] ∧ 64 ≤ pk.data.length ∧ findColl s.dev (cpGroup pk) (cpId pk) = some (2, k) ∧ ckOf pk = p.1 ∧
     smFind s.dev.cmds 0 = some c ∧ c.fin = none ∧ slice pk.data 8 8 = k.digest.take 8 ∧ cpFlag pk 2 = false ∧ k.phase = ph := by
  decide +kernel

theorem witness_CollectivesStartDecideAndExchange_shards :
    (∀ n ∈ [4, 5, 6], sendKey (dataColl n 3 .data) (dataPkt n 3) = some 6 ∧ smFind (dataColl n 3 .data).send 6 = some (shard0 0)) ∧
    (let k := dataColl 9 7 .data
     k.op = opAllToAll ∧ isReverse k = false ∧ cpHi (dataPkt 9 7) ≠ 0) ∧
    (let k := dataColl 10 3 .data
     let pk := dataPkt 10 3
     k.recv.find? (fun q => q.2.idx == cpShard pk && q.2.peer == cpSrc pk && q.2.hi == 0 && q.2.asked) = some (7, shard0 0) ∧
     smFind k.recv 7 = some (shard0 0) ∧ settled (shard0 0) = false ∧ cpAux pk ≠ 1) ∧
    (let k := dataColl 2 3 .data
     let pk := dataPkt 2 3
     let x := shard0 0
     let d2 := tookPacket (atColl (collCmd 0x0B01 3 0) k [pk] .ready 0) 0 pk []
     recvKey k pk = some 7 ∧ smFind k.recv 7 = some x ∧ isReduce k.op = false ∧ settled x = false ∧ cpFlag pk 0 = true ∧ cpOff pk = 0 ∧
     (cpData pk).length = x.bytes ∧ 0 < x.bytes ∧ x.bytes ≤ 4032 ∧ x.landed = [] ∧ peek (poke d2 k.ctx x.va (cpData pk)) k.ctx x.va x.bytes = cpData pk ∧ crc32c (cpData pk) = cpCrc pk) ∧
    (let k := dataColl 3 3 .data
     lookShard (atColl (collCmd 0x0B01 3 0) k [] .ready 0).dev k (dataPkt 3 3) = .never) := by decide +kernel

/-- A packet of a member that is throttled; a CHECK whose final record has been placed. -/
theorem witness_CollectivesStartDecideAndExchange_throttled :
    (let c := collCmd 0x0B01 3 0
     let k := coll0 c 3 .data
     let pk := collPkt 3 4 0 0 0 0 4 0 []
     let s := atColl c k [pk] .ready 0
     FirstPacket s 0 pk [] ∧ findColl s.dev (cpGroup pk) (cpId pk) = some (2, k) ∧ cpFlag pk 2 = true ∧ smFind s.dev.cmds 0 = some c) ∧
    (let k := { coll0 (collCmd 0x0B01 1 0) 1 .complete with status := 0#16 }
     let s := atColl (collCmd 0x0B01 1 0) k [] .ready 0
     getColl s.dev 2 = some k ∧ k.phase = .complete ∧ k.op = 1 ∧ k.status = 0#16 ∧ k.pins = [] ∧ k.wpins = []) := by decide +kernel

/-- A packet whose digest is not the collective's. -/
theorem witness_CollectivesStartDecideAndExchange_skew :
    let c := collCmd 0x0B01 3 0
    let k := { coll0 c 3 .data with digest := natLe 32 1 }
    let pk := collPkt 3 4 0 0 0 0 0 0 []
    let s := atColl c k [pk] .ready 0
    FirstPacket s 0 pk [] ∧ findColl s.dev (cpGroup pk) (cpId pk) = some (2, k) ∧ slice pk.data 8 8 ≠ k.digest.take 8 ∧ c.fin = none := by
  decide +kernel

theorem witness_CollectivesStartDecideAndExchange_expiry :
    (let c := collCmd 0x0B01 3 0
     let x := shard0 0
     let y : Shard := { x with busy := some 0 }
     let k := { coll0 c 3 .data with send := [(6, x), (8, y)], recv := [(7, x)] }
     let s := atColl c k [] .ready 400000
     getColl s.dev 2 = some k ∧ smFind k.send 8 = some y ∧ y.busy = some 0 ∧ 0 + 400 * fabRto s.dev ≤ s.dev.now ∧ settled y = false ∧
     k.op ≠ opAllToAll ∧ isOk (readVirt s.dev k.ctx y.va y.bytes .any) = true ∧ groupEntry s.dev k.group = some groupTable0 ∧ k.phase = .data ∧
     settled x = false ∧ x.asked = true ∧ x.at_ + 400 * gDarnWait groupTable0 ≤ s.dev.now ∧ smFind k.send 6 = some x ∧ x.busy = none ∧
     smFind k.recv 7 = some x ∧ pulled k x = true ∧ x.copy = false ∧ x.repl = false ∧ x.attempts < 3) ∧
    (∀ a ∈ [none, some (0, [1])], let c := collCmd 0x0902 0 0
     let k := { coll0 c opCommit .start with vote := some 0, asks := a }
     let s := atColl c k [] .ready 400000
     groupEntry s.dev k.group = some groupTable0 ∧ k.startAt + 400 * gStartTimeout groupTable0 ≤ s.dev.now ∧ k.op = opCommit ∧
     k.phase = .start ∧ k.vote = some 0 ∧ k.cid = some 0 ∧ smFind s.dev.cmds 0 = some c ∧ c.fin = none ∧ k.asks = a ∧
     (a ≠ none → 0 + 400000 ≤ s.dev.now)) := by decide +kernel

/-! ### The queue, well-formedness, reset -/

theorem witness_StepRunsTheFrontCommand : State.reset.pending = [] ∧ powered.dev.pwr.rails = true := by decide

theorem witness_WellFormedCommandsComplete : Instr.wf .commandFetch = true ∧ Instr.wf (.hostReadComplete 0 []) = false := by decide

theorem witness_StepsKeepTheNonVolatileState :
    State.reset.nv.ok = true ∧ ∃ t, step { State.reset with pending := [.antiRollbackRatchet] } = .next t := ⟨by decide, _, rfl⟩

/-- A returned host line that is not 64 bytes, a response with part of a line, and a flit that is not 1,024 bytes are refused. -/
theorem test_illFormed_operands :
    ∀ i ∈ [Instr.hostReadComplete 0 (natLe 63 0), .backInvalidateResponse 0 (natLe 65 0), .linkFlitReceive 0 (natLe 1023 0)],
      i.wf = false ∧ (match exec i State.reset with | .fault f => f == .illFormed | _ => false) = true := by decide +kernel

/-- The same operands of the right lengths are accepted. -/
theorem test_wellFormed_operands :
    ∀ i ∈ [Instr.hostReadComplete 0 (natLe 64 0), .backInvalidateResponse 0 (natLe 64 0), .backInvalidateResponse 0 [],
      .linkFlitReceive 0 (natLe 1024 0)], i.wf = true := by decide +kernel

/-! ### Worked examples of the spec -/

/-- 04, worked example: tree(0, 6) splits at 4, [0, 4) at 2 and [4, 6) at 5; 11, worked example: tree(0, 10) splits at 8. -/
theorem test_treeSplit : treeSplit 0 6 = 4 ∧ treeSplit 0 4 = 2 ∧ treeSplit 4 6 = 5 ∧ treeSplit 0 10 = 8 := by decide

/-- 11, worked example: node 0 holds the ranges [0,2), [2,3), [3,5) and [5,6) of 10 chunks: its cover is [0,4) and [4,6). -/
theorem test_cover_of_a_node :
    coverIn [(0, 2), (2, 3), (3, 5), (5, 6)] 0 10 6 = [(0, 4), (4, 6)] := by decide

/-- 03, worked example: a block of BF16 keys with 0.3125 and 0x3B87 in E4M3 has the scale 0x75 and the codes 0x7A and 0x49 where the
generator supplies 0b1010, and 0x3B87 gives 0x48 when it is rounded to nearest even. -/
theorem test_quantise_a_block :
    (let keys := natLe 2 0x3EA0 ++ natLe 2 0x3B87 ++ natLe 60 0
     let run (mode : Nat) := (runFlags (do
       let vs ← bf16Vals true keys 32
       encodeVals true (fdFields (2 + 2 ^ 17 + mode * 2 ^ 20) 0) (fun _ => 0b1010) vs)).1
     (run 1).1.take 2 = [0x7A#8, 0x49#8] ∧ (run 1).2 = [0x75#8] ∧ (run 0).1.take 2 = [0x7A#8, 0x48#8]) := by decide +kernel

/-- 14, worked example: vocabulary entry 6,500 at position 7,800 is drawn at the same counter however the slice is placed. -/
theorem test_draw_counter : 7800 * 2 ^ 20 + 6144 + 356 = 0x1E7801964 ∧ 7800 * 2 ^ 20 + 6500 = 0x1E7801964 := by decide

/-! ### Single steps -/

/-- 06: NOP goes on in sequence, through the queue. -/
theorem test_step_nop :
    (match step { at1 0 0 0 0 with pending := [.iNop 0] } with
     | .next t => (getE t.dev 1 0).pc == 1 && t.pending.isEmpty
     | _ => false) = true := by decide

/-- 06: SLI writes its immediate into SD, and into s0 nothing. -/
theorem test_step_sli :
    ∀ n ∈ [0, 5], (match exec (.iSli 0) (at1 (0x06000000 + n * 2 ^ 19) 0xFFFFFFFF 0 0) with
      | .next t => sreg (getE t.dev 1 0) n == if n = 0 then 0#32 else 0xFFFFFFFF#32
      | _ => false) = true := by decide

/-- 16 R612: a write of DEVICE_ID is ignored while a half-port is not OFF. -/
theorem test_step_device_id :
    ∀ p ∈ [PState.off, .up], (match exec (.deviceIdWrite 9#32) (withPort { state := p }) with
      | .next t => t.dev.host.deviceId == if p = .off then 9#32 else 0#32
      | _ => false) = true := by decide

/-- 02 R37: the submission doorbell takes bits 15:0 alone. -/
theorem test_step_doorbell :
    (match exec (.submissionDoorbell 1 0xABCD0003#32) (ready queue0 []) with
     | .next t => (queueOf t.dev 1).sqTail == 3 && !(queueOf t.dev 1).dbRange
     | _ => false) = true := by decide

end Sys2Proof.Tests
end

section
/-! PROOF. The machine as a whole: the step and the tick of the hub clock (00 R3, R4; log 1). -/

namespace Sys2Proof.Machine

/-! ### What a tick changes -/

/-- The contexts' blocking instants stand in the context table. -/
theorem tickBlocked_frame (d : Dev) : ∃ cs, tickBlocked d = { d with ctxs := cs } := by
  unfold tickBlocked
  refine List.foldlRecOn (motive := fun t : Dev => ∃ cs, t = { d with ctxs := cs }) d.ctxs _ ⟨d.ctxs, rfl⟩ ?_
  rintro _ ⟨cs, rfl⟩ c -
  split
  · exact ⟨_, rfl⟩
  · exact ⟨cs, rfl⟩

/-- The a-cycle counters stand in the governor's registers. -/
theorem tickEngines_frame (d : Dev) : ∃ g, tickEngines d = { d with gov := g } := ⟨_, rfl⟩

/-- With the rails on, an h-cycle changes only the hub clock, the governor's registers and the context table. -/
theorem tickDev_frame (d : Dev) (hrails : d.pwr.rails = true) :
    ∃ g cs, tickDev d = { d with now := d.now + 1, gov := g, ctxs := cs } := by
  obtain ⟨g, hengines⟩ := tickEngines_frame { d with now := d.now + 1 }
  obtain ⟨cs, hblocked⟩ := tickBlocked_frame (tickEngines { d with now := d.now + 1 })
  refine ⟨g, cs, ?_⟩
  calc tickDev d = tickBlocked (tickEngines { d with now := d.now + 1 }) := if_pos hrails
    _ = { tickEngines { d with now := d.now + 1 } with ctxs := cs } := hblocked
    _ = { d with now := d.now + 1, gov := g, ctxs := cs } := by rw [hengines]

/-- With the rails on, a tick changes the hub clock, the governor's registers and the context table of the device, and nothing else
of the part. -/
theorem tick_frame (s : State) (hrails : s.dev.pwr.rails = true) :
    ∃ g cs, tick s = { s with dev := { s.dev with now := s.dev.now + 1, gov := g, ctxs := cs } } := by
  obtain ⟨g, cs, hdev⟩ := tickDev_frame s.dev hrails
  exact ⟨g, cs, by rw [tick, hdev]⟩

/-! ### The obligation -/

/-- Settles O22: `step` takes the front command or ticks, and the frame of the tick leaves what the last clause names. -/
theorem stepRunsTheFrontCommand : Obligations.StepRunsTheFrontCommand := by
  refine ⟨fun s c => step_front s c s.pending, step_idle, fun s hrails => ?_⟩
  obtain ⟨g, cs, htick⟩ := tick_frame s hrails
  rw [htick]
  exact ⟨rfl, rfl, rfl, rfl, rfl, rfl⟩

end Sys2Proof.Machine
end

section
/-! PROOF. Every command ends in a next state or in the fault ILL_FORMED, and the state after reset (06 R187; log 2, log 3, log 5). -/

namespace Sys2Proof.Machine

/-! ### Outcomes that keep the waiting commands -/

/-- The outcome is a next state in which the commands that wait are those that waited. -/
def KeepsWaiting (s : State) (o : Host.Outcome State Fault Refusal) : Prop := ∃ t, o = .next t ∧ t.pending = s.pending

theorem onPackage_keepsWaiting (s : State) (f : Dev → Dev) : KeepsWaiting s (onPackage s f) := by
  obtain ⟨t, ht, hpending, -⟩ := onPackage_next s f
  exact ⟨t, ht, hpending⟩

/-- A flash operation ends with the flash and its controller changed, whether it failed or not. -/
theorem execFlashOpComplete_keepsWaiting (failed : Bool) (s : State) : KeepsWaiting s (execFlashOpComplete failed s) := by
  unfold execFlashOpComplete
  split
  · exact ⟨s, rfl, rfl⟩
  · split <;> exact ⟨_, rfl, rfl⟩

/-- Where the operands can reach the part, a command is a change of the device, of the package, or of what is kept without power; the three
messages with a bound on their length are within it. -/
theorem exec_keepsWaiting (i : Instr) (s : State) (hwf : i.wf = true) : KeepsWaiting s (exec i s) := by
  cases i with
  | hostReadComplete addr data => exact ⟨_, if_pos (beq_iff_eq.mp hwf), rfl⟩
  | linkFlitReceive p flit => exact ⟨_, if_pos (beq_iff_eq.mp hwf), rfl⟩
  | backInvalidateResponse off data =>
    have hlen : data.length = 0 ∨ data.length = 64 := by simpa only [Instr.wf, Bool.or_eq_true, beq_iff_eq] using hwf
    exact ⟨_, if_pos hlen, rfl⟩
  | flashOpComplete failed => exact execFlashOpComplete_keepsWaiting failed s
  | sensorRead readings => exact onPackage_keepsWaiting s _
  | coldStart vin => exact onPackage_keepsWaiting s _
  | resetNAssert => exact onPackage_keepsWaiting s _
  | conventionalReset perst => exact (onPackage_keepsWaiting s _ : KeepsWaiting s (execConventionalReset perst s))
  | clockFault => exact (onPackage_keepsWaiting s _ : KeepsWaiting s (execClockFault s))
  | inputLoss vin => exact onPackage_keepsWaiting s _
  | _ => exact ⟨_, rfl, rfl⟩

/-- Only a returned line, a flit and a back-invalidate response have operands that cannot reach the part; they raise ILL_FORMED. -/
theorem exec_illFormed (i : Instr) (s : State) (hwf : i.wf = false) : exec i s = .fault .illFormed := by
  cases i with
  | hostReadComplete addr data => exact if_neg (beq_eq_false_iff_ne.mp hwf)
  | linkFlitReceive p flit => exact if_neg (beq_eq_false_iff_ne.mp hwf)
  | backInvalidateResponse off data =>
    refine if_neg fun hlen => ?_
    simp only [Instr.wf, Bool.or_eq_false_iff, beq_eq_false_iff_ne] at hwf
    exact hlen.elim hwf.1 hwf.2
  | _ => cases hwf

/-- Settles O23: well formed operands end in a next state, any others in ILL_FORMED (the model's choice, log 5). -/
theorem wellFormedCommandsComplete : Obligations.WellFormedCommandsComplete :=
  fun i s => ⟨exec_keepsWaiting i s, exec_illFormed i s⟩

/-! ### Reset -/

/-- Settles O25: after reset no map holds an entry, so every queue pair and half-port reads as its default, and each register is at
the value of its field (log 2, log 3). -/
theorem resetHoldsTheResetState : Obligations.ResetHoldsTheResetState :=
  ⟨rfl, rfl, rfl, rfl, rfl, fun _ => ⟨rfl, rfl, rfl⟩, smFind_nil, fun _ => rfl, rfl⟩

end Sys2Proof.Machine
end

section
/-! PROOF. What an update leaves in a map and in the queue table, and the doorbells (02 R37, R39). -/

namespace Sys2Proof.Machine

/-! ### Maps after an update -/

theorem smFind_smPut {α : Type} (m : SMap α) (k j : Nat) (v : α) : smFind (smPut m k v) j = if j = k then some v else smFind m j := by
  by_cases h : j = k
  · rw [if_pos h, h, smFind_smPut_same]
  · rw [if_neg h, smFind_smPut_ne m v h]

/-! ### The queue table after an update -/

theorem queueOf_setQueue (d : Dev) (q k : Nat) (v : Queue) : queueOf (setQueue d q v) k = if k = q then v else queueOf d k := by
  by_cases h : k = q
  · rw [if_pos h, h, queueOf_setQueue_same]
  · rw [if_neg h, queueOf_setQueue_ne d v h]

@[simp] theorem queueOf_modQueue_same (d : Dev) (q : Nat) (f : Queue → Queue) : queueOf (modQueue d q f) q = f (queueOf d q) :=
  queueOf_setQueue_same ..

theorem queueOf_modQueue_ne (d : Dev) {q k : Nat} (f : Queue → Queue) (h : k ≠ q) : queueOf (modQueue d q f) k = queueOf d k :=
  queueOf_setQueue_ne d _ h

@[simp] theorem queueOf_modCmd (d : Dev) (cid q : Nat) (f : Cmd → Cmd) : queueOf (modCmd d cid f) q = queueOf d q := rfl

/-! ### Doorbells -/

theorem heard_iff (d : Dev) (q : Nat) : heard d q = true ↔ d.boot.ready = true ∧ (queueOf d q).state ≠ .disabled := by
  simp [heard]

section
variable {d : Dev} {q value : Nat} (hheard : heard d q = true)
include hheard

/-- A new tail outside the ring sets DB_RANGE. -/
theorem ringSubmission_out_of_range (hx : sqSize (queueOf d q) ≤ value % 65536) :
    ringSubmission q value d = setQueue d q { queueOf d q with dbRange := true } := by
  simp [ringSubmission, hheard, hx]

/-- A new tail that submits no more than the last one accepted is ignored. -/
theorem ringSubmission_behind (hx : value % 65536 < sqSize (queueOf d q))
    (hn : submitted { queueOf d q with sqTail := value % 65536 } ≤ submitted (queueOf d q)) : ringSubmission q value d = d := by
  have hsize : ¬ sqSize (queueOf d q) ≤ value % 65536 := Nat.not_le.mpr hx
  simp only [ringSubmission, hheard, Bool.not_true, Bool.false_eq_true, if_false, if_neg hsize]
  exact if_pos hn

/-- A new tail ahead of the last one accepted submits the entries between them. -/
theorem ringSubmission_ahead (hx : value % 65536 < sqSize (queueOf d q))
    (hn : submitted (queueOf d q) < submitted { queueOf d q with sqTail := value % 65536 }) :
    ringSubmission q value d = setQueue d q { queueOf d q with
      sqTail := value % 65536,
      subs := (queueOf d q).subs ++ [(submitted { queueOf d q with sqTail := value % 65536 } - submitted (queueOf d q), d.now)] } := by
  have hsize : ¬ sqSize (queueOf d q) ≤ value % 65536 := Nat.not_le.mpr hx
  simp only [ringSubmission, hheard, Bool.not_true, Bool.false_eq_true, if_false, if_neg hsize]
  exact if_neg (Nat.not_le.mpr hn)

/-- A head outside the completion ring sets DB_RANGE. -/
theorem ringCompletion_out_of_range (hx : cqSize (queueOf d q) ≤ value % 65536) :
    ringCompletion q value d = setQueue d q { queueOf d q with dbRange := true } := by
  simp [ringCompletion, hheard, hx]

/-- A head within the completion ring is taken. -/
theorem ringCompletion_in_range (hx : value % 65536 < cqSize (queueOf d q)) :
    ringCompletion q value d = setQueue d q { queueOf d q with cqHead := value % 65536 } := by
  simp [ringCompletion, hheard, hx]

end

/-- A command that puts one queue pair into state w completes, and changes nothing else. -/
theorem completes_setQueue {i : Instr} {s : State} {q : Nat} {w : Queue} (h : exec i s = .next { s with dev := setQueue s.dev q w }) :
    Completes i s (fun t => t = { s with dev := { s.dev with queues := t.dev.queues } } ∧
      ∀ k, queueOf t.dev k = if k = q then w else queueOf s.dev k) :=
  ⟨_, h, rfl, fun k => queueOf_setQueue s.dev q k w⟩

/-- A doorbell write is a change of the device by its value alone. -/
theorem exec_submissionDoorbell {q : Fin 256} {value : BitVec 32} {s : State} {d : Dev} (h : ringSubmission q value.toNat s.dev = d) :
    exec (.submissionDoorbell q value) s = .next { s with dev := d } := by
  rw [← h]; rfl

theorem exec_completionDoorbell {q : Fin 256} {value : BitVec 32} {s : State} {d : Dev} (h : ringCompletion q value.toNat s.dev = d) :
    exec (.completionDoorbell q value) s = .next { s with dev := d } := by
  rw [← h]; rfl

/-- Settles O26: each doorbell write is one of the five cases above. -/
theorem doorbellsSubmitAndFree : Obligations.DoorbellsSubmitAndFree := by
  intro s q value hready hstate
  have hheard : heard s.dev q = true := (heard_iff s.dev q).mpr ⟨hready, hstate⟩
  refine ⟨fun hx => ?_, fun hx hn => ?_, fun hx hn => ?_, fun hx => ?_, fun hx => ?_⟩
  · exact completes_setQueue (exec_submissionDoorbell (ringSubmission_out_of_range hheard hx))
  · exact exec_submissionDoorbell (ringSubmission_behind hheard hx hn)
  · exact completes_setQueue (exec_submissionDoorbell (ringSubmission_ahead hheard hx hn))
  · exact completes_setQueue (exec_completionDoorbell (ringCompletion_out_of_range hheard hx))
  · exact completes_setQueue (exec_completionDoorbell (ringCompletion_in_range hheard hx))

end Sys2Proof.Machine
end

section
/-! PROOF. What producing a record and writing one to the completion ring change (02 R42, R53, R60, R62, R650). -/

namespace Sys2Proof.Machine

/-! ### Writing to the ring -/

/-- An interrupt leaves the part, or its bit in the PBA is set. -/
theorem raiseMsix_frame (d : Dev) (v : Nat) :
    ∃ out pba, raiseMsix d v = { d with out := out, host := { d.host with pba := pba } } := by
  unfold raiseMsix
  split
  · exact ⟨_, _, rfl⟩
  · exact ⟨_, _, rfl⟩

/-- The queue once a record has been written to its ring. -/
def tailMoved (v : Queue) : Queue := { v with cqTail := (v.cqTail + 1) % cqSize v }

/-- A write to the ring moves the ring's tail on; else only what has left the part and the pending interrupts differ. -/
theorem writeRing_frame (d : Dev) (q : Nat) (r : QRec) :
    ∃ out pba, writeRing d q r = { d with
      queues := (modQueue d q tailMoved).queues, out := out, host := { d.host with pba := pba } } := by
  unfold writeRing
  simp only
  split
  · exact raiseMsix_frame _ _
  · exact ⟨_, d.host.pba, rfl⟩

/-- A record that raises no interrupt leaves the host attachment as it was. -/
theorem writeRing_host (d : Dev) (q : Nat) {r : QRec} (h : r.irq = false) : (writeRing d q r).host = d.host := by
  simp [writeRing, h]

theorem writeRing_queues (d : Dev) (q : Nat) (r : QRec) : (writeRing d q r).queues = (modQueue d q tailMoved).queues := by
  obtain ⟨out, pba, h⟩ := writeRing_frame d q r
  rw [h]

@[simp] theorem queueOf_writeRing_same (d : Dev) (q : Nat) (r : QRec) : queueOf (writeRing d q r) q = tailMoved (queueOf d q) := by
  rw [queueOf, writeRing_queues]
  exact queueOf_modQueue_same d q tailMoved

theorem queueOf_writeRing_ne (d : Dev) {q k : Nat} (r : QRec) (hk : k ≠ q) : queueOf (writeRing d q r) k = queueOf d k := by
  rw [queueOf, writeRing_queues]
  exact queueOf_modQueue_ne d tailMoved hk

/-! ### The retention log -/

theorem lastN_getLast? {α : Type} {n : Nat} (hn : 0 < n) (l : List α) (x : α) : (lastN n (l ++ [x])).getLast? = some x := by
  rw [lastN, List.getLast?_drop, if_neg (by simp only [List.length_append, List.length_singleton]; omega)]
  exact List.getLast?_concat

/-- The newest record of the log is the one that has entered it last. -/
theorem logRec_getLast? (v : Queue) (r : QRec) : (logRec v r).log.getLast? = some r.rcd := lastN_getLast? (by positivity) _ _

/-! ### Producing a record -/

/-- A record once it has its number. -/
def numbered (v : Queue) (r : QRec) : QRec := { r with rcd := { r.rcd with devSeq := v.nextDevSeq } }

/-- The queue once a record that has its number is in the log. -/
def logged (v : Queue) (r : QRec) : Queue := { logRec v r with nextDevSeq := v.nextDevSeq + 1 }

/-- The queue once a record has gone to the hold buffer. -/
def heldBack (v : Queue) (r : QRec) : Queue :=
  { v with hold := v.hold ++ [r], state := if v.state = .active ∧ holdCap v ≤ (v.hold ++ [r]).length then .held else v.state }

/-- The device once a record has its number and has gone to the ring or the hold buffer; the command whose final record it is, is still in
flight. -/
def issued (d : Dev) (q : Nat) (r : QRec) : Dev :=
  let r1 := numbered (queueOf d q) r
  let d1 := modQueue d q (fun v => logged v r1)
  if (queueOf d q).replay.isNone && (queueOf d q).hold.isEmpty && ringOpen d q then writeRing d1 q r1
  else modQueue d1 q (fun v => heldBack v r1)

/-- A record of no command is produced by issuing it. -/
theorem produce_of_no_command (d : Dev) (q : Nat) {r : QRec} (h : r.cid = none) : produce d q r = issued d q r := by
  obtain ⟨rcd, irq, final, cid⟩ := r
  subst h
  rfl

/-- The final record of a command is issued, and then the command is in flight no longer. -/
theorem produce_of_command (d : Dev) (q : Nat) {r : QRec} {cid : Nat} (h : r.cid = some cid) :
    produce d q r = settleFinal (issued d q r) cid (numbered (queueOf d q) r).rcd := by
  obtain ⟨rcd, irq, final, cid'⟩ := r
  subst h
  rfl

theorem issued_frame (d : Dev) (q : Nat) (r : QRec) :
    ∃ queues out pba, issued d q r = { d with queues := queues, out := out, host := { d.host with pba := pba } } := by
  unfold issued
  simp only
  split
  · obtain ⟨out, pba, h⟩ := writeRing_frame (modQueue d q (fun v => logged v (numbered (queueOf d q) r))) q (numbered (queueOf d q) r)
    exact ⟨_, out, pba, h⟩
  · exact ⟨_, _, d.host.pba, rfl⟩

theorem issued_host (d : Dev) (q : Nat) {r : QRec} (h : r.irq = false) : (issued d q r).host = d.host := by
  unfold issued
  simp only
  split
  · exact writeRing_host _ q (r := numbered (queueOf d q) r) h
  · rfl

/-- A record that raises no interrupt changes nothing but the queues and what has left the part. -/
theorem issued_frame_of_no_irq (d : Dev) (q : Nat) {r : QRec} (h : r.irq = false) :
    ∃ queues out, issued d q r = { d with queues := queues, out := out } := by
  obtain ⟨queues, out, pba, hframe⟩ := issued_frame d q r
  have hhost : ({ d.host with pba := pba } : HostIf) = d.host := by rw [← issued_host d q h, hframe]
  exact ⟨queues, out, by rw [hframe, hhost]⟩

/-- The queue of a record that has been issued has logged it; else only where records go differs. -/
theorem queueOf_issued_same (d : Dev) (q : Nat) (r : QRec) :
    ∃ tail hold state, queueOf (issued d q r) q =
      { logged (queueOf d q) (numbered (queueOf d q) r) with cqTail := tail, hold := hold, state := state } := by
  unfold issued
  simp only
  split
  · exact ⟨_, _, _, by rw [queueOf_writeRing_same, queueOf_modQueue_same]; rfl⟩
  · exact ⟨_, _, _, by rw [queueOf_modQueue_same, queueOf_modQueue_same]; rfl⟩

theorem queueOf_issued_ne (d : Dev) {q k : Nat} (r : QRec) (hk : k ≠ q) : queueOf (issued d q r) k = queueOf d k := by
  unfold issued
  simp only
  split
  · rw [queueOf_writeRing_ne _ _ hk, queueOf_modQueue_ne _ _ hk]
  · rw [queueOf_modQueue_ne _ _ hk, queueOf_modQueue_ne _ _ hk]

/-- Between s and t, queue q has produced the record that it has logged. -/
theorem produced_of_logged {s t : State} {q : Nat} {r : QRec}
    (hlog : (queueOf t.dev q).log = (logged (queueOf s.dev q) (numbered (queueOf s.dev q) r)).log)
    (hseq : (queueOf t.dev q).nextDevSeq = (queueOf s.dev q).nextDevSeq + 1)
    (hne : ∀ k, k ≠ q → queueOf t.dev k = queueOf s.dev k) : Produced s t q r.rcd :=
  ⟨by rw [hlog]; exact logRec_getLast? _ _, hseq, hne⟩

/-- A record that can be produced at once is. -/
theorem readyRec_of_room {d : Dev} {q : Nat} (r : QRec) (hstate : (queueOf d q).state ≠ .disabled) (hwaiting : (queueOf d q).waiting = [])
    (hroom : (queueOf d q).hold.length < holdCap (queueOf d q)) : readyRec d q r = produce d q r := by
  simp [readyRec, hstate, hwaiting, hroom]

/-! ### The end of a command with its final record -/

/-- The command is in flight no longer, and at most its result slot differs in its queue. -/
theorem settleFinal_cases {d : Dev} {cid : Nat} {c : Cmd} (r : Rec) (hc : smFind d.cmds cid = some c) :
    settleFinal d cid r = { d with cmds := smErase d.cmds cid } ∨
      ∃ slots, settleFinal d cid r = setQueue { d with cmds := smErase d.cmds cid } c.queue { queueOf d c.queue with slots := slots } := by
  unfold settleFinal
  rw [hc]
  simp only
  split
  · exact .inr ⟨_, rfl⟩
  · exact .inl rfl

theorem settleFinal_frame {d : Dev} {cid : Nat} {c : Cmd} (r : Rec) (hc : smFind d.cmds cid = some c) :
    ∃ queues, settleFinal d cid r = { d with cmds := smErase d.cmds cid, queues := queues } := by
  obtain h | ⟨slots, h⟩ := settleFinal_cases r hc
  · exact ⟨_, h⟩
  · exact ⟨_, h⟩

/-- Only the result slot of the command that has ended differs in its queue. -/
theorem queueOf_settleFinal_same {d : Dev} {cid : Nat} {c : Cmd} (r : Rec) (hc : smFind d.cmds cid = some c) :
    ∃ slots, queueOf (settleFinal d cid r) c.queue = { queueOf d c.queue with slots := slots } := by
  obtain h | ⟨slots, h⟩ := settleFinal_cases r hc
  · exact ⟨(queueOf d c.queue).slots, by rw [h]; rfl⟩
  · exact ⟨slots, by rw [h, queueOf_setQueue_same]⟩

theorem queueOf_settleFinal_ne {d : Dev} {cid k : Nat} {c : Cmd} (r : Rec) (hc : smFind d.cmds cid = some c) (hk : k ≠ c.queue) :
    queueOf (settleFinal d cid r) k = queueOf d k := by
  obtain h | ⟨slots, h⟩ := settleFinal_cases r hc
  · rw [h]; rfl
  · rw [h, queueOf_setQueue_ne _ _ hk]; rfl

/-- The final record of a command that can be produced at once: it is logged, and the command is in flight no longer. -/
theorem readyRec_final {d : Dev} {q cid : Nat} {c : Cmd} {r : QRec} (hstate : (queueOf d q).state ≠ .disabled)
    (hwaiting : (queueOf d q).waiting = []) (hroom : (queueOf d q).hold.length < holdCap (queueOf d q)) (hcid : r.cid = some cid)
    (hc : smFind d.cmds cid = some c) (hq : c.queue = q) :
    (∃ queues out pba, readyRec d q r = { d with
      cmds := smErase d.cmds cid, queues := queues, out := out, host := { d.host with pba := pba } }) ∧
    (queueOf (readyRec d q r) q).log = (logged (queueOf d q) (numbered (queueOf d q) r)).log ∧
    (queueOf (readyRec d q r) q).nextDevSeq = (queueOf d q).nextDevSeq + 1 ∧
    ∀ k, k ≠ q → queueOf (readyRec d q r) k = queueOf d k := by
  subst hq
  rw [readyRec_of_room r hstate hwaiting hroom, produce_of_command d c.queue hcid]
  obtain ⟨queues, out, pba, hissued⟩ := issued_frame d c.queue r
  obtain ⟨tail, hold, state, hqueue⟩ := queueOf_issued_same d c.queue r
  have hc' : smFind (issued d c.queue r).cmds cid = some c := by rw [hissued]; exact hc
  obtain ⟨queues', hsettled⟩ := settleFinal_frame (numbered (queueOf d c.queue) r).rcd hc'
  obtain ⟨slots, hqueue'⟩ := queueOf_settleFinal_same (numbered (queueOf d c.queue) r).rcd hc'
  refine ⟨⟨queues', out, pba, by rw [hsettled, hissued]⟩, by rw [hqueue', hqueue], by rw [hqueue', hqueue]; rfl, fun k hk => ?_⟩
  rw [queueOf_settleFinal_ne _ hc' hk, queueOf_issued_ne d r hk]

end Sys2Proof.Machine
end

section
/-! PROOF. COMMAND_FETCH: taking a command from its ring, the sequence step, and the admission of a QUEUE.NOP (02 R31, R35, R48, R51, R57 to
R59). -/

namespace Sys2Proof.Machine

/-! ### Taking the entries of a command -/

/-- The arbiter's round moves to the queue that it takes a command from; else only what is left of that queue's round differs. -/
theorem nextQueue_some {d d1 : Dev} {q : Nat} (h : nextQueue d = some (q, d1)) :
    (∃ queues, d1 = { d with rr := q, queues := queues }) ∧ (∃ n, queueOf d1 q = { queueOf d q with roundLeft := n }) ∧
      ∀ k, k ≠ q → queueOf d1 k = queueOf d k := by
  unfold nextQueue at h
  simp only at h
  split at h
  · cases h
    exact ⟨⟨_, rfl⟩, ⟨_, rfl⟩, fun _ _ => rfl⟩
  · obtain ⟨q', -, hq'⟩ := Option.map_eq_some_iff.mp h
    cases hq'
    exact ⟨⟨_, rfl⟩, ⟨_, queueOf_modQueue_same { d with rr := q } q _⟩, fun k hk => queueOf_modQueue_ne { d with rr := q } _ hk⟩

/-- Lines that have all been answered are not asked for again. -/
theorem snoopRange_of_answered {d : Dev} {lines : List Nat} (h : ∀ l ∈ lines, l ∈ d.host.snooped) : snoopRange d lines = (true, d) := by
  have hmissing : lines.filter (fun l => !d.host.snooped.contains l && !d.host.snooping.contains l) = [] := by
    simp only [List.filter_eq_nil_iff, List.contains_eq_mem, Bool.and_eq_true, Bool.not_eq_true', decide_eq_false_iff_not]
    exact fun l hl hno => hno.1 (h l hl)
  have hall : lines.all (fun l => d.host.snooped.contains l) = true := by simpa using h
  simp only [snoopRange, hmissing, hall, List.append_nil, List.foldl_nil]

/-- The entries of the command with header hdr have been taken from queue q, and the sequence step is still to come: nothing but the
arbiter's round, the queue's head, its doorbell record and the lines waited for differs. -/
structure EntriesTaken (s : State) (q : Nat) (hdr : List Byte) (d : Dev) : Prop where
  frame : ∃ queues snooped, d = { s.dev with rr := q, queues := queues, host := { s.dev.host with snooped := snooped } }
  queue : ∃ subs n, queueOf d q = { queueOf s.dev q with
    sqHead := ((queueOf s.dev q).sqHead + cmdEntries hdr) % sqSize (queueOf s.dev q), subs := subs, roundLeft := n }
  others : ∀ k, k ≠ q → queueOf d k = queueOf s.dev k

/-- The payload of the command with header hdr at the head of queue q, as it stands in the ring. -/
def ringPayload (d : Dev) (q : Nat) (hdr : List Byte) : List Byte :=
  ((span 1 (cmdEntries hdr - 1)).flatMap (fun j => memRead d.mem.hdm (ringAt (queueOf d q) j) 64)).take (payloadLen hdr)

/-- The queue once n entries at its head have been read. -/
def entriesOff (n : Nat) (v : Queue) : Queue :=
  { v with sqHead := (v.sqHead + n) % sqSize v, subs := takeSubs v.subs n, roundLeft := v.roundLeft - 1 }

/-- The device once the entries of the command with header hdr have been taken from queue q. -/
def dequeued (d : Dev) (q : Nat) (hdr : List Byte) : Dev :=
  modQueue (dropSnooped d ((span 0 (cmdEntries hdr)).map (fun j => ringAt (queueOf d q) j / 64))) q (entriesOff (cmdEntries hdr))

/-- A command whose lines have all been answered is read, and its entries are taken. -/
theorem takeCommand_of_answered {d : Dev} {q : Nat} {hdr : List Byte} (hhdr : headerOf d (queueOf d q) = hdr)
    (hsize : oversize (queueOf d q) hdr = false) (hhere : headerHere d (queueOf d q) = true)
    (hlines : ∀ j, j < cmdEntries hdr → ringAt (queueOf d q) j / 64 ∈ d.host.snooped) :
    takeCommand d q = seqStep (dequeued d q hdr) (readCmd d q hdr (ringPayload d q hdr))
      (fun d' => checkCmd d' (readCmd d q hdr (ringPayload d q hdr))) := by
  have hsnoop : snoopRange d ((span 0 (cmdEntries hdr)).map (fun j => ringAt (queueOf d q) j / 64)) = (true, d) := by
    refine snoopRange_of_answered fun l hl => ?_
    obtain ⟨j, hj, rfl⟩ := List.mem_map.mp hl
    exact hlines j (by simpa [span] using hj)
  simp only [takeCommand, hhere, hhdr, hsize, hsnoop, Bool.not_true, Bool.false_eq_true, if_false]
  rfl

/-- Once the arbiter's round has moved, taking the entries leaves them taken. -/
theorem entriesTaken_dequeued {s : State} {q n : Nat} {queues : SMap Queue} (hdr : List Byte)
    (hqueue : queueOf { s.dev with rr := q, queues := queues } q = { queueOf s.dev q with roundLeft := n })
    (hothers : ∀ k, k ≠ q → queueOf { s.dev with rr := q, queues := queues } k = queueOf s.dev k) :
    EntriesTaken s q hdr (dequeued { s.dev with rr := q, queues := queues } q hdr) where
  frame := ⟨_, _, rfl⟩
  queue := by
    have h : queueOf (dequeued { s.dev with rr := q, queues := queues } q hdr) q =
        entriesOff (cmdEntries hdr) (queueOf { s.dev with rr := q, queues := queues } q) := queueOf_modQueue_same ..
    exact ⟨_, _, h.trans (by rw [hqueue]; rfl)⟩
  others := fun k hk => (queueOf_modQueue_ne _ _ hk).trans (hothers k hk)

/-- The command that COMMAND_FETCH reads goes to the sequence step with its entries taken. -/
theorem fetchOne_takes {s : State} {q : Nat} {hdr pay : List Byte} (h : Fetches s q hdr pay) :
    ∃ d, EntriesTaken s q hdr d ∧
      fetchOne s.dev = seqStep d (readCmd s.dev q hdr pay) (fun d => checkCmd d (readCmd s.dev q hdr pay)) := by
  obtain ⟨hmay, hround, hhdr, hsize, hhere, hlines, hpay⟩ := h
  obtain ⟨⟨q', d1⟩, hnext, hq⟩ := Option.map_eq_some_iff.mp hround
  obtain rfl : q = q' := hq.symm
  obtain ⟨⟨queues, rfl⟩, ⟨n, hqueue⟩, hothers⟩ := nextQueue_some hnext
  have hread : readCmd { s.dev with rr := q, queues := queues } q hdr (ringPayload { s.dev with rr := q, queues := queues } q hdr) =
      readCmd s.dev q hdr pay := by
    simp only [readCmd, ringPayload, hqueue, hpay]
    rfl
  have htake := takeCommand_of_answered (d := { s.dev with rr := q, queues := queues }) (q := q) (hdr := hdr)
    (by rw [hqueue]; exact hhdr.symm) (by rw [hqueue]; exact hsize) (by rw [hqueue]; exact hhere) (by rw [hqueue]; exact hlines)
  rw [hread] at htake
  refine ⟨_, entriesTaken_dequeued hdr hqueue hothers, ?_⟩
  rw [fetchOne, if_pos hmay, hnext]
  exact htake

/-! ### What a command holds as it was read -/

@[simp] theorem readCmd_queue (d : Dev) (q : Nat) (hdr pay : List Byte) : (readCmd d q hdr pay).queue = q := rfl
@[simp] theorem hostSeqOf_readCmd (d : Dev) (q : Nat) (hdr pay : List Byte) : hostSeqOf (readCmd d q hdr pay) = word hdr 4 := rfl
@[simp] theorem opcodeC_readCmd (d : Dev) (q : Nat) (hdr pay : List Byte) : opcodeC (readCmd d q hdr pay) = field hdr 0 2 := rfl

/-! ### The sequence step -/

section
variable {d : Dev} {c : Cmd} (go : Dev → Dev) (hconsumes : consumes (opcodeC c) = true)
include hconsumes

/-- A command with the expected number consumes it. -/
theorem seqStep_in_sequence (h : hostSeqOf c = (queueOf d c.queue).expHostSeq) :
    seqStep d c go = go (modQueue d c.queue (fun v => { v with expHostSeq := v.expHostSeq + 1 })) := by
  simp [seqStep, hconsumes, h]

/-- A command ahead of the expected number. -/
theorem seqStep_ahead (hlo : 1 ≤ (hostSeqOf c - (queueOf d c.queue).expHostSeq).toNat)
    (hhi : (hostSeqOf c - (queueOf d c.queue).expHostSeq).toNat < 2 ^ 31) :
    seqStep d c go = answerSeq d c.queue (hostSeqOf c) stSeqGap 1 [(0x0C, 4, (queueOf d c.queue).expHostSeq.toNat)] := by
  have hne : hostSeqOf c ≠ (queueOf d c.queue).expHostSeq := by
    intro h
    rw [h, BitVec.sub_self] at hlo
    exact absurd hlo (by decide)
  simp only [seqStep, hconsumes, Bool.not_true, Bool.false_eq_true, if_false, if_neg hne, if_pos hhi]

omit hconsumes in
theorem hostSeq_ne_of_behind (hlo : 2 ^ 31 ≤ (hostSeqOf c - (queueOf d c.queue).expHostSeq).toNat) :
    hostSeqOf c ≠ (queueOf d c.queue).expHostSeq := by
  intro h
  rw [h, BitVec.sub_self] at hlo
  exact absurd hlo (by decide)

section
variable (hlo : 2 ^ 31 ≤ (hostSeqOf c - (queueOf d c.queue).expHostSeq).toNat)
include hlo

/-- A duplicate of a command that still runs. -/
theorem seqStep_running (hruns : stillRunning d c.queue (hostSeqOf c) = true) :
    seqStep d c go = answerSeq d c.queue (hostSeqOf c) stPending 1 [] := by
  simp only [seqStep, hconsumes, Bool.not_true, Bool.false_eq_true, if_false, if_neg (hostSeq_ne_of_behind hlo),
    if_neg (Nat.not_lt.mpr hlo), hruns, if_true]

/-- A duplicate of a command whose final record the log holds. -/
theorem seqStep_retained {f : BitVec 32 × BitVec 32} (hruns : stillRunning d c.queue (hostSeqOf c) = false)
    (hfind : (queueOf d c.queue).finals.reverse.find? (fun f => f.1 == hostSeqOf c) = some f) :
    seqStep d c go = answerSeq d c.queue (hostSeqOf c) stAlreadyComplete 1 [(0x0C, 4, f.2.toNat)] := by
  simp only [seqStep, hconsumes, Bool.not_true, Bool.false_eq_true, if_false, if_neg (hostSeq_ne_of_behind hlo),
    if_neg (Nat.not_lt.mpr hlo), hruns, hfind]

/-- A duplicate of a command of which nothing is known any more. -/
theorem seqStep_forgotten (hruns : stillRunning d c.queue (hostSeqOf c) = false)
    (hfind : (queueOf d c.queue).finals.reverse.find? (fun f => f.1 == hostSeqOf c) = none) :
    seqStep d c go = answerSeq d c.queue (hostSeqOf c) stSeqGap 2 [] := by
  simp only [seqStep, hconsumes, Bool.not_true, Bool.false_eq_true, if_false, if_neg (hostSeq_ne_of_behind hlo),
    if_neg (Nat.not_lt.mpr hlo), hruns, hfind]

end

end

/-! ### Answers to commands out of sequence -/

/-- A result of one 32-bit word at 0x0C. -/
theorem resultOf_word (x : BitVec 32) : resultOf [(0x0C, 4, x.toNat)] = BitVec.ofNat 160 x.toNat := by
  have hx : x.toNat % 256 ^ 4 = x.toNat := Nat.mod_eq_of_lt (by have := x.isLt; omega)
  simp only [resultOf, List.foldl_cons, List.foldl_nil, hx]
  simp

/-- The newest final record that the log holds for a number is the one that the reversed list finds first. -/
theorem find?_newest {α : Type} {p : α → Bool} {l a b : List α} {x : α} (hl : l = a ++ x :: b) (hx : p x = true)
    (hb : ∀ y ∈ b, p y = false) : l.reverse.find? p = some x := by
  have hnone : b.reverse.find? p = none := by simpa using hb
  rw [hl, List.reverse_append, List.reverse_cons, List.append_assoc, List.find?_append, hnone]
  simp [hx]

/-- Once the entries have been taken, a record of no command and without interrupt is produced at once, and E stays. -/
theorem readyRec_answers {s : State} {q : Nat} {hdr : List Byte} {d : Dev} {r : QRec} (htaken : EntriesTaken s q hdr d)
    (hroom : CanProduce s q) (hirq : r.irq = false) (hcid : r.cid = none) :
    Taken s { s with dev := readyRec d q r } q hdr ∧ (queueOf (readyRec d q r) q).expHostSeq = (queueOf s.dev q).expHostSeq ∧
      Produced s { s with dev := readyRec d q r } q r.rcd := by
  obtain ⟨⟨queues, snooped, rfl⟩, ⟨subs, n, hqueue⟩, hothers⟩ := htaken
  obtain ⟨hstate, hwaiting, hhold⟩ := hroom
  rw [readyRec_of_room r (by rw [hqueue]; exact hstate) (by rw [hqueue]; exact hwaiting) (by rw [hqueue]; exact hhold),
    produce_of_no_command _ q hcid]
  obtain ⟨tail, hold, state, hissued⟩ := queueOf_issued_same
    { s.dev with rr := q, queues := queues, host := { s.dev.host with snooped := snooped } } q r
  obtain ⟨queues', out, hframe⟩ := issued_frame_of_no_irq
    { s.dev with rr := q, queues := queues, host := { s.dev.host with snooped := snooped } } q hirq
  rw [hqueue] at hissued
  refine ⟨⟨by rw [hframe], by rw [hissued]; rfl⟩, by rw [hissued]; rfl,
    produced_of_logged (by rw [hissued]; rfl) (by rw [hissued]; rfl) fun k hk => ?_⟩
  exact (queueOf_issued_ne _ r hk).trans (hothers k hk)

/-- Where the sequence step answers, the record is produced and nothing is executed. -/
theorem commandFetch_answers {s : State} {q : Nat} {hdr : List Byte} {d : Dev} {hs : Word} {status detail : Nat}
    {fields : List (Nat × Nat × Nat)} {res : BitVec 160} (htaken : EntriesTaken s q hdr d) (hroom : CanProduce s q)
    (hfetch : fetchOne s.dev = answerSeq d q hs status detail fields) (hres : resultOf fields = res) :
    Completes .commandFetch s (fun t => Taken s t q hdr ∧ (queueOf t.dev q).expHostSeq = (queueOf s.dev q).expHostSeq ∧
      Produced s t q { hostSeq := hs, devSeq := 0, status := BitVec.ofNat 16 status, detail := BitVec.ofNat 16 detail, result := res }) := by
  subst hres
  refine ⟨{ s with dev := fetchOne s.dev }, rfl, ?_⟩
  rw [hfetch]
  exact readyRec_answers htaken hroom rfl rfl

/-- Settles O27: the sequence step answers by how the number lies to E, and what it answers is produced (which of a running copy and a
retained record is looked for first is the model's choice, log 43). -/
theorem fetchAnswersCommandsOutOfSequence : Obligations.FetchAnswersCommandsOutOfSequence := by
  intro s q hdr pay hfetches hroom hop
  obtain ⟨d, htaken, hfetch⟩ := fetchOne_takes hfetches
  obtain ⟨subs, n, hqueue⟩ := htaken.queue
  obtain ⟨queues, snooped, hd⟩ := htaken.frame
  have hexp : (queueOf d q).expHostSeq = (queueOf s.dev q).expHostSeq := by rw [hqueue]
  have hfinals : (queueOf d q).finals = (queueOf s.dev q).finals := by rw [hqueue]
  have hrunning : stillRunning d q (word hdr 4) = stillRunning s.dev q (word hdr 4) := by rw [hd]; rfl
  have hconsumes : consumes (opcodeC (readCmd s.dev q hdr pay)) = true := bne_iff_ne.mpr hop
  have hahead := seqStep_ahead (d := d) (fun d => checkCmd d (readCmd s.dev q hdr pay)) hconsumes
  have hruns := seqStep_running (d := d) (fun d => checkCmd d (readCmd s.dev q hdr pay)) hconsumes
  have hretained := seqStep_retained (d := d) (fun d => checkCmd d (readCmd s.dev q hdr pay)) hconsumes
  have hforgotten := seqStep_forgotten (d := d) (fun d => checkCmd d (readCmd s.dev q hdr pay)) hconsumes
  simp only [← hfetch, readCmd_queue, hostSeqOf_readCmd, hexp, hfinals, hrunning] at hahead hruns hretained hforgotten
  refine ⟨fun hlo hhi => ?_, fun hlo hrun => ?_, fun a b m hlo hrun hlog hlast => ?_, fun hlo hrun hlog => ?_⟩
  · exact commandFetch_answers htaken hroom (hahead hlo hhi) (resultOf_word _)
  · exact commandFetch_answers htaken hroom (hruns hlo hrun) rfl
  · have hfind := find?_newest (p := fun f : BitVec 32 × BitVec 32 => f.1 == word hdr 4) hlog (beq_self_eq_true _)
      (fun f hf => beq_false_of_ne (hlast f hf))
    exact commandFetch_answers htaken hroom (hretained hlo hrun hfind) (resultOf_word _)
  · have hfind : (queueOf s.dev q).finals.reverse.find? (fun f => f.1 == word hdr 4) = none := by simpa using hlog
    exact commandFetch_answers htaken hroom (hforgotten hlo hrun hfind) rfl

/-! ### The checks of a QUEUE.NOP -/

/-- Fields of which none fails pass. -/
theorem chkFields_of_none {l : List (Nat × Bool)} (h : ∀ f ∈ l, f.2 = false) : chkFields l = .ok () := by
  have hnone : l.filter (·.2) = [] := List.filter_eq_nil_iff.mpr fun f hf => by rw [h f hf]; exact Bool.false_ne_true
  simp only [chkFields, lowest, hnone, List.map_nil, List.foldl_nil]

/-- A header without flags, context, payload and deadline passes step 4 on the queue that it names, where its entry asks for none of
them. -/
theorem chkHeader_of_plain {d : Dev} {c : Cmd} {e : List Byte} (hctx : entContext e = false) (hmin : entMin e = 0)
    (hflags : cmdFlags c = 0) (hnoctx : cmdContext c = 0xFF) (hqueue : field c.hdr 9 1 = c.queue) (hlen : payloadLen c.hdr = 0)
    (hdue : cmdDeadline c = 0) : chkHeader d c e = .ok () := by
  refine chkFields_of_none ?_
  simp [hctx, hmin, hflags, hnoctx, hqueue, hlen, hdue, outside, bit, span, List.range']

/-- A QUEUE.NOP whose parameter bytes are 0 passes step 5. -/
theorem chkOp_of_nop {d : Dev} {cid : Nat} {c : Cmd} (hop : opcodeC c = 0x0100) (hzero : resv c.hdr 0x10 48 = []) :
    chkOp d cid c = .ok () := by
  simp only [chkOp, hop, chkNop, hzero]
  rfl

/-- A command without flags names no result slot. -/
theorem slotIndex_of_no_flags {c : Cmd} (h : cmdFlags c = 0) : slotIndex c = none := by simp [slotIndex, h, bit]

/-- A plain QUEUE.NOP is admitted with nothing reserved and no bound on its completion. -/
theorem admitCmd_nop {d : Dev} {c : Cmd} {e : List Byte} (hop : opcodeC c = 0x0100) (hctx : entContext e = false) (hmin : entMin e = 0)
    (hflags : cmdFlags c = 0) (hnoctx : cmdContext c = 0xFF) (hqueue : field c.hdr 9 1 = c.queue) (hlen : payloadLen c.hdr = 0)
    (hdue : cmdDeadline c = 0) (hzero : resv c.hdr 0x10 48 = []) : admitCmd d c e = .ok (enlist d c none) := by
  have hslot : chkSlot d c = .ok () := by simp only [chkSlot, slotIndex_of_no_flags hflags]
  have hadm : admOp d c = .ok (c, d) := by simp only [admOp, hop]
  have hbound : admDeadline d c = .ok (none, d) := by simp [admDeadline, hop, guaranteeOf, deadlineOf, hdue]
  simp only [admitCmd, chkHeader_of_plain hctx hmin hflags hnoctx hqueue hlen hdue, chkOp_of_nop hop hzero, hslot, hadm, hbound, ok_bind]
  rfl

/-! ### What the admission of a command leaves -/

/-- Nothing but the commands in flight and the result slots of queue q differs between d and d'. -/
structure OnlySlots (q : Nat) (d d' : Dev) : Prop where
  frame : ∃ queues cmds, d' = { d with queues := queues, cmds := cmds }
  queue : ∃ slots, queueOf d' q = { queueOf d q with slots := slots }
  others : ∀ k, k ≠ q → queueOf d' k = queueOf d k

theorem OnlySlots.refl (q : Nat) (d : Dev) : OnlySlots q d d := ⟨⟨_, _, rfl⟩, ⟨_, rfl⟩, fun _ _ => rfl⟩

theorem OnlySlots.trans {q : Nat} {d d' d'' : Dev} (h : OnlySlots q d d') (h' : OnlySlots q d' d'') : OnlySlots q d d'' := by
  obtain ⟨⟨queues, cmds, rfl⟩, ⟨slots, hqueue⟩, hothers⟩ := h
  obtain ⟨⟨queues', cmds', hframe'⟩, ⟨slots', hqueue'⟩, hothers'⟩ := h'
  exact ⟨⟨queues', cmds', hframe'⟩, ⟨slots', by rw [hqueue', hqueue]⟩, fun k hk => (hothers' k hk).trans (hothers k hk)⟩

/-- The slot that a RESULT.READ names, in a queue. -/
def namedSlot (v : Queue) (c : Cmd) : Slot := smGet {} v.slots (par c 0x10 2)

/-- The queue once a RESULT.READ has taken its view of its slot. -/
def slotRead (v : Queue) (c : Cmd) : Queue := { v with slots := smSet {} v.slots (par c 0x10 2) (readSlot (namedSlot v c)) }

/-- A RESULT.READ without a view takes one. -/
theorem captureSlot_of_no_view {d : Dev} {cid : Nat} {c : Cmd} (h : c.snap = none) :
    captureSlot d cid c = modCmd (setQueue d c.queue (slotRead (queueOf d c.queue) c)) cid
      (fun c' => { c' with snap := some (readSlot (namedSlot (queueOf d c.queue) c)) }) := by
  simp only [captureSlot, h, Option.isSome_none, Bool.false_eq_true, if_false]
  rfl

theorem captureSlot_onlySlots (d : Dev) (cid : Nat) (c : Cmd) : OnlySlots c.queue d (captureSlot d cid c) := by
  cases h : c.snap with
  | some s => simpa only [captureSlot, h, Option.isSome_some, if_true] using OnlySlots.refl c.queue d
  | none =>
    rw [captureSlot_of_no_view h]
    exact ⟨⟨_, _, rfl⟩, ⟨_, by rw [queueOf_modCmd, queueOf_setQueue_same]; rfl⟩,
      fun k hk => by rw [queueOf_modCmd, queueOf_setQueue_ne _ _ hk]⟩

theorem captureReads_onlySlots (d : Dev) (q : Nat) : OnlySlots q d (captureReads d q) := by
  unfold captureReads
  refine List.foldlRecOn (motive := OnlySlots q d) d.cmds _ (.refl q d) fun d' h p _ => ?_
  split
  · next hp => exact h.trans (hp.1 ▸ captureSlot_onlySlots d' p.1 p.2)
  · exact h

/-- A command that consumes a number and names no slot is in flight under the next number; the reads of its queue have taken their view. -/
theorem enlist_of_no_slot {d : Dev} {c : Cmd} (hconsumes : consumes (opcodeC c) = true) (hslot : slotIndex c = none) (g : Option Nat) :
    enlist d c g = { captureReads d c.queue with nextCid := d.nextCid + 1, cmds := smPut d.cmds d.nextCid { c with guarantee := g } } := by
  simp only [enlist, hconsumes, hslot, if_true]

/-- An ACTIVE queue admits a command that its entry allows and that passes the checks. -/
theorem checkCmd_admits {d d1 : Dev} {c : Cmd} {e : List Byte} (hstate : (queueOf d c.queue).state = .active)
    (hentry : tableEntry d (opcodeC c) = some e) (hq0 : entQ0 e = false) (hstep : opcodeC c ≠ 0x0601)
    (hadmit : admitCmd d { c with entry := e } e = .ok d1) : checkCmd d c = d1 := by
  simp [checkCmd, hstate, hentry, hq0, hstep, hadmit]

/-- Where a command consumes its number and is admitted without a slot, it is in flight under the next number; else only the queues, the
arbiter's round and the lines waited for differ. -/
theorem commandFetch_admits {s : State} {q : Nat} {hdr : List Byte} {d : Dev} {c : Cmd} (htaken : EntriesTaken s q hdr d)
    (hcq : c.queue = q) (hconsumes : consumes (opcodeC c) = true) (hslot : slotIndex c = none)
    (hfetch : fetchOne s.dev = enlist (modQueue d q (fun v => { v with expHostSeq := v.expHostSeq + 1 })) c none) :
    Completes .commandFetch s (fun t =>
      t = { s with dev := { s.dev with rr := q, queues := t.dev.queues, cmds := t.dev.cmds, nextCid := s.dev.nextCid + 1,
                                       host := { s.dev.host with snooped := t.dev.host.snooped } } } ∧
      (queueOf t.dev q).expHostSeq = (queueOf s.dev q).expHostSeq + 1 ∧
      (queueOf t.dev q).sqHead = ((queueOf s.dev q).sqHead + cmdEntries hdr) % sqSize (queueOf s.dev q) ∧
      (∀ k, smFind t.dev.cmds k = if k = s.dev.nextCid then some { c with guarantee := none } else smFind s.dev.cmds k) ∧
      ∀ k, k ≠ q → queueOf t.dev k = queueOf s.dev k) := by
  subst hcq
  obtain ⟨⟨queues, snooped, rfl⟩, ⟨subs, n, hq⟩, hothers⟩ := htaken
  rw [enlist_of_no_slot hconsumes hslot] at hfetch
  obtain ⟨⟨queues', cmds, hframe⟩, ⟨slots, hq'⟩, hothers'⟩ := captureReads_onlySlots
    (modQueue { s.dev with rr := c.queue, queues := queues, host := { s.dev.host with snooped := snooped } } c.queue
      (fun v => { v with expHostSeq := v.expHostSeq + 1 })) c.queue
  rw [queueOf_modQueue_same, hq] at hq'
  refine ⟨{ s with dev := fetchOne s.dev }, rfl, ?_, ?_, ?_, ?_, ?_⟩
  · rw [hfetch, hframe]; rfl
  · rw [hfetch]
    exact congrArg Queue.expHostSeq hq'
  · rw [hfetch]
    exact congrArg Queue.sqHead hq'
  · intro k
    rw [hfetch]
    exact smFind_smPut _ _ _ _
  · intro k hk
    rw [hfetch]
    exact (hothers' k hk).trans ((queueOf_modQueue_ne _ _ hk).trans (hothers k hk))

/-- Settles O28: the command goes through the sequence step and steps 2 to 7 of R51, and is enlisted. -/
theorem fetchAdmitsACommandInSequence : Obligations.FetchAdmitsACommandInSequence := by
  intro s q hdr pay e hfetches v hstate hentry hq0 hctx hmin hop hflags hseq hnoctx hqueue hlen hdue hzero
  obtain ⟨d, htaken, hfetch⟩ := fetchOne_takes hfetches
  have hpay : pay = [] := by
    obtain ⟨-, -, -, -, -, -, hpay⟩ := hfetches
    rw [hpay, hlen, List.take_zero]
  subst hpay
  have hone : cmdEntries hdr = 1 := by simp [cmdEntries, hlen, ceilDiv]
  have hconsumes : consumes (opcodeC (readCmd s.dev q hdr [])) = true := by rw [opcodeC_readCmd, hop]; rfl
  have hslot : slotIndex { readCmd s.dev q hdr [] with entry := e } = none := slotIndex_of_no_flags hflags
  have hcompletes := commandFetch_admits htaken (c := { readCmd s.dev q hdr [] with entry := e }) rfl hconsumes hslot
  rw [hone] at hcompletes
  refine hcompletes ?_
  obtain ⟨⟨queues, snooped, rfl⟩, ⟨subs, n, hq⟩, -⟩ := htaken
  rw [hfetch, seqStep_in_sequence _ hconsumes (by rw [readCmd_queue, hq]; exact hseq)]
  refine checkCmd_admits ?_ ?_ hq0 ?_ (admitCmd_nop hop hctx hmin hflags hnoctx hqueue hlen hdue hzero)
  · rw [readCmd_queue, queueOf_modQueue_same, hq]; exact hstate
  · rw [opcodeC_readCmd, hop]; exact hentry
  · rw [opcodeC_readCmd, hop]; decide

end Sys2Proof.Machine
end

section
/-! PROOF. What a step of a command in flight leaves, and the end of a command (02 R43, R48, R49, R54). -/

namespace Sys2Proof.Machine

/-! ### Outcomes -/

theorem Completes.imp {i : Instr} {s : State} {P Q : State → Prop} (h : Completes i s P) (hPQ : ∀ t, P t → Q t) : Completes i s Q := by
  obtain ⟨t, ht, hP⟩ := h
  exact ⟨t, ht, hPQ t hP⟩

/-! ### The command as it begins and as it waits -/

/-- A command that runs has no final record. -/
theorem fin_of_runs {s : State} {op cid : Nat} {c : Cmd} (h : Runs s op cid c) : c.fin = none := by
  obtain ⟨-, -, hfin, -⟩ := h
  exact hfin

theorem smFind_began_same {s : State} {op cid : Nat} {c : Cmd} (h : Runs s op cid c) :
    smFind (began s cid).cmds cid = some { c with phase := .running } := by
  obtain ⟨hc, -⟩ := h
  exact (smFind_smUpd_same ..).trans (by rw [hc]; rfl)

theorem smFind_began_ne (s : State) {cid k : Nat} (h : k ≠ cid) : smFind (began s cid).cmds k = smFind s.dev.cmds k :=
  smFind_smUpd_ne _ _ h

@[simp] theorem queueOf_began (s : State) (cid q : Nat) : queueOf (began s cid) q = queueOf s.dev q := rfl

/-- Entering the next state of its table entry leaves a command's record as it is. -/
@[simp] theorem waitState_fin (c : Cmd) : (waitState c).fin = c.fin := by
  unfold waitState
  split <;> rfl

/-- The final record of a command, as it waits, is the one that it has prepared. -/
theorem bind_fin_waitState (d : Dev) (cid : Nat) :
    (smFind (modCmd d cid waitState).cmds cid).bind (·.fin) = (smFind d.cmds cid).bind (·.fin) := by
  rw [modCmd_cmds, smFind_smUpd_same]
  cases smFind d.cmds cid with
  | none => rfl
  | some c => exact waitState_fin c

/-- A command that runs is given to its body as it begins, and waits with what the body leaves. -/
theorem onDev_runCmd {s : State} {op cid : Nat} {c : Cmd} {body : Dev → Nat → Cmd → Option Dev} {d : Dev} (h : Runs s op cid c)
    (hbody : body (began s cid) cid c = some d) : onDev s (runCmd op cid body) = .next { s with dev := modCmd d cid waitState } := by
  have hbody' : body (setPhase s.dev cid .running) cid c = some d := hbody
  rw [onDev_next, runCmd_runs body h, hbody']
  rfl

/-! ### The end of a command -/

/-- The command has prepared a final record and what it writes to its slot, and no other command differs from s. -/
def EndsWith (s t : State) (cid : Nat) (record : BitVec 16 × BitVec 16 × BitVec 160) (slotOut : Option (List Byte)) : Prop :=
  (∀ k, k ≠ cid → smFind t.dev.cmds k = smFind s.dev.cmds k) ∧ finOf t cid = some record ∧ slotOutOf t cid = slotOut

/-- A command whose body ends it on device d has its final record there; else the device is d. -/
theorem completes_finish {i : Instr} {s : State} {op cid : Nat} {c c' : Cmd} {body : Dev → Nat → Cmd → Option Dev} {d : Dev}
    {status detail : Nat} {result : List (Nat × Nat × Nat)} {slotOut : Option (List Byte)}
    (hexec : exec i s = onDev s (runCmd op cid body)) (hruns : Runs s op cid c)
    (hbody : body (began s cid) cid c = some (finishCmd d cid status detail result slotOut))
    (hother : ∀ k, k ≠ cid → smFind d.cmds k = smFind s.dev.cmds k) (hfind : smFind d.cmds cid = some c') (hfin : c'.fin = none) :
    Completes i s (fun t => t = { s with dev := { d with cmds := t.dev.cmds } } ∧
      EndsWith s t cid (BitVec.ofNat 16 status, BitVec.ofNat 16 detail, resultOf result) slotOut) := by
  have hdone := finishCmd_find d cid status detail result slotOut hfind hfin
  rw [← bind_fin_waitState] at hdone
  refine ⟨_, hexec.trans (onDev_runCmd hruns hbody), rfl, fun k hk => ?_, ?_, ?_⟩
  · exact (smFind_smUpd_ne _ _ hk).trans ((finishCmd_other d cid status detail result slotOut hk).trans (hother k hk))
  · exact congrArg (Option.map fun f : Done => (f.status, f.detail, f.result)) hdone
  · exact congrArg (fun o : Option Done => o.bind (·.slotOut)) hdone

/-- A command whose body ends it on a device d that has left the commands in flight as they were. -/
theorem completes_finish_kept {i : Instr} {s : State} {op cid : Nat} {c : Cmd} {body : Dev → Nat → Cmd → Option Dev} {d : Dev}
    {status detail : Nat} {result : List (Nat × Nat × Nat)} {slotOut : Option (List Byte)}
    (hexec : exec i s = onDev s (runCmd op cid body)) (hruns : Runs s op cid c)
    (hbody : body (began s cid) cid c = some (finishCmd d cid status detail result slotOut)) (hcmds : d.cmds = (began s cid).cmds) :
    Completes i s (fun t => t = { s with dev := { d with cmds := t.dev.cmds } } ∧
      EndsWith s t cid (BitVec.ofNat 16 status, BitVec.ofNat 16 detail, resultOf result) slotOut) :=
  completes_finish (c' := { c with phase := .running }) hexec hruns hbody (fun k hk => by rw [hcmds]; exact smFind_began_ne s hk)
    (by rw [hcmds]; exact smFind_began_same hruns) (fin_of_runs (c := c) hruns)

/-- A command whose body does nothing but end it. -/
theorem completes_finish_only {i : Instr} {s : State} {op cid : Nat} {c : Cmd} {body : Dev → Nat → Cmd → Option Dev}
    {status detail : Nat} {result : List (Nat × Nat × Nat)} {slotOut : Option (List Byte)}
    (hexec : exec i s = onDev s (runCmd op cid body)) (hruns : Runs s op cid c)
    (hbody : body (began s cid) cid c = some (finishCmd (began s cid) cid status detail result slotOut)) :
    Completes i s (fun t => OnlyCmd cid s t ∧ finOf t cid = some (BitVec.ofNat 16 status, BitVec.ofNat 16 detail, resultOf result) ∧
      slotOutOf t cid = slotOut) := by
  refine (completes_finish_kept hexec hruns hbody rfl).imp ?_
  rintro t ⟨hframe, hother, hdone, hslot⟩
  exact ⟨⟨hframe, hother⟩, hdone, hslot⟩

end Sys2Proof.Machine
end

section
/-! PROOF. The final record: COMMAND_COMPLETE with the lateness of a command, HOLD_BUFFER_DRAIN and RESULT.READ (02 R42, R54, R64, R66, R70 to
R73; 09 R365; 13 R533; 17 R617). -/

namespace Sys2Proof.Machine

/-! ### The lateness of a command -/

/-- The command's deadline has passed. -/
def pastDue (d : Dev) (c : Cmd) : Bool := match deadlineOf c with | some t => decide (t < d.now) | none => false

/-- The hub µs by which the command is past its deadline. -/
def lateBy (d : Dev) (c : Cmd) : Nat := match deadlineOf c with | some t => (d.now - t) / 400 | none => 0

/-- The request of the command, if it has one, missed a goal; its greatest lateness; and a throttle was the cause. -/
def missedGoal (r : Option Req) : Bool × Nat × Bool := match r with | some r => (r.missed, r.late, r.lateHot) | none => (false, 0, false)

/-- Status, DETAIL and tally at completion, by whether the command is late, what made it late, and by how much. -/
theorem lateStatus_eq (d : Dev) (cid : Nat) (c : Cmd) (f : Done) : lateStatus d cid c f =
    let g := missedGoal (reqOfCmd d cid c)
    let late := max (lateBy d c) g.2.1
    if f.status.toNat = stOk ∧ (pastDue d c || g.1) = true then
      if g.2.2 || (pastDue d c && c.throttled) then
        (0x0070#16, BitVec.ofNat 16 (min late 0xFFFF), tallyValue d 0x11 c.queue late (hostSeqOf c))
      else if !g.1 && c.bmeStall && decide (d.now ≤ (deadlineOf c).getD 0 + bmeWaited d c) then (0x00F0#16, 6#16, d)
      else (0x0021#16, BitVec.ofNat 16 (min late 0xFFFF), tallyValue d 0x10 c.queue late (hostSeqOf c))
    else (f.status, f.detail, d) := by
  unfold lateStatus missedGoal
  cases reqOfCmd d cid c <;> rfl

theorem tallyValue_frame (d : Dev) (qid inst v : Nat) (tag : Word) : ∃ tally, tallyValue d qid inst v tag = { d with tally := tally } :=
  ⟨_, rfl⟩

/-- A command that does not end OK keeps its status. -/
theorem lateStatus_of_not_ok {d : Dev} {cid : Nat} {c : Cmd} {f : Done} (h : f.status ≠ 0#16) :
    lateStatus d cid c f = (f.status, f.detail, d) := by
  rw [lateStatus_eq]
  exact if_neg fun h0 => h (BitVec.eq_of_toNat_eq h0.1)

/-- The command's deadline has not passed. -/
def OnTime (d : Dev) (c : Cmd) : Prop := deadlineOf c = none ∨ ∃ x, deadlineOf c = some x ∧ d.now ≤ x

theorem OnTime.pastDue {d : Dev} {c : Cmd} (h : OnTime d c) : pastDue d c = false := by
  obtain h | ⟨x, h, hx⟩ := h
  · simp [Machine.pastDue, h]
  · simp [Machine.pastDue, h, hx]

/-- An OK that is on time, and of no request that missed a goal, stays as it is. -/
theorem lateStatus_of_on_time {d : Dev} {cid : Nat} {c : Cmd} {f : Done} (htime : OnTime d c)
    (hreq : ∀ r, reqOfCmd d cid c = some r → r.missed = false) : lateStatus d cid c f = (f.status, f.detail, d) := by
  have hmissed : (missedGoal (reqOfCmd d cid c)).1 = false := by
    cases hr : reqOfCmd d cid c with
    | none => rfl
    | some r => exact hreq r hr
  rw [lateStatus_eq]
  exact if_neg fun h => by simp [htime.pastDue, hmissed] at h

/-- An OK that is on time, of a request that missed a goal, by the greatest lateness and the cause of the request. -/
theorem lateStatus_of_missed_goal {d : Dev} {cid : Nat} {c : Cmd} {f : Done} {r : Req} (htime : OnTime d c) (hok : f.status = 0#16)
    (hreq : reqOfCmd d cid c = some r) (hmissed : r.missed = true) :
    ∃ tally, lateStatus d cid c f = (if r.lateHot then 0x0070#16 else 0x0021#16,
      BitVec.ofNat 16 (min (max (lateBy d c) r.late) 0xFFFF), { d with tally := tally }) := by
  have hst : f.status.toNat = stOk := by rw [hok]; rfl
  simp only [lateStatus_eq, hreq, missedGoal, hmissed, htime.pastDue, hst, Bool.or_true, Bool.false_and, Bool.or_false, true_and, if_true,
    Bool.not_true, Bool.false_eq_true, if_false]
  split
  · exact ⟨_, rfl⟩
  · exact ⟨_, rfl⟩

section
variable {d : Dev} {cid x : Nat} {c : Cmd} {f : Done} (hdue : deadlineOf c = some x) (hpast : x < d.now) (hok : f.status = 0#16)
  (hreq : reqOfCmd d cid c = none)
include hdue hpast hok hreq

/-- An OK of a command past its deadline, which has no request. -/
theorem lateStatus_of_past : lateStatus d cid c f =
    let late := (d.now - x) / 400
    if c.throttled then (0x0070#16, BitVec.ofNat 16 (min late 0xFFFF), tallyValue d 0x11 c.queue late (hostSeqOf c))
    else if c.bmeStall && decide (d.now ≤ x + bmeWaited d c) then (0x00F0#16, 6#16, d)
    else (0x0021#16, BitVec.ofNat 16 (min late 0xFFFF), tallyValue d 0x10 c.queue late (hostSeqOf c)) := by
  have hst : f.status.toNat = stOk := by rw [hok]; rfl
  have hd : pastDue d c = true := by simp [pastDue, hdue, hpast]
  have hby : lateBy d c = (d.now - x) / 400 := by simp [lateBy, hdue]
  simp only [lateStatus_eq, hreq, missedGoal, hd, hby, hst, hdue, Bool.or_false, Bool.true_and, Bool.false_or, Bool.not_false, true_and,
    if_true, Option.getD_some, Nat.max_zero]

/-- The throttle of a die made it late. -/
theorem lateStatus_of_throttled (h : c.throttled = true) :
    ∃ tally, lateStatus d cid c f = (0x0070#16, BitVec.ofNat 16 (min ((d.now - x) / 400) 0xFFFF), { d with tally := tally }) :=
  ⟨_, (lateStatus_of_past hdue hpast hok hreq).trans (if_pos h)⟩

/-- Nothing but the wait for Bus Master Enable made it late. -/
theorem lateStatus_of_stalled (h : c.throttled = false) (hbme : c.bmeStall = true) (hwait : d.now ≤ x + bmeWaited d c) :
    lateStatus d cid c f = (0x00F0#16, 6#16, d) := by
  simp [lateStatus_of_past hdue hpast hok hreq, h, hbme, hwait]

/-- Anything else made it late. -/
theorem lateStatus_of_late (h : c.throttled = false) (hwait : c.bmeStall = false ∨ x + bmeWaited d c < d.now) :
    ∃ tally, lateStatus d cid c f = (0x0021#16, BitVec.ofNat 16 (min ((d.now - x) / 400) 0xFFFF), { d with tally := tally }) := by
  have hother : (c.bmeStall && decide (d.now ≤ x + bmeWaited d c)) = false := by
    simpa only [Bool.and_eq_false_iff, decide_eq_false_iff_not, Nat.not_le] using hwait
  obtain ⟨tally, htally⟩ := tallyValue_frame d 0x10 c.queue ((d.now - x) / 400) (hostSeqOf c)
  exact ⟨tally, by simp [lateStatus_of_past hdue hpast hok hreq, h, hother, htally]⟩

end

/-! ### COMMAND_COMPLETE -/

theorem noteStatus_frame (d : Dev) (cid : Nat) (c : Cmd) (st : BitVec 16) :
    ∃ reqs weights colls, noteStatus d cid c st = { d with reqs := reqs, weights := weights, colls := colls } := by
  unfold noteStatus
  split
  · exact ⟨_, _, _, rfl⟩
  · exact ⟨d.reqs, _, _, rfl⟩

theorem noteStatus_with_tally (d : Dev) (cid : Nat) (c : Cmd) (st : BitVec 16) (tally : Tally) :
    noteStatus { d with tally := tally } cid c st = { noteStatus d cid c st with tally := tally } := by
  have hreq : reqOfCmd { d with tally := tally } cid c = reqOfCmd d cid c := rfl
  unfold noteStatus
  rw [hreq]
  split <;> rfl

theorem isSome_smUpd {α : Type} (m : SMap α) (k j : Nat) (f : α → α) : (smFind (smUpd m k f) j).isSome = (smFind m j).isSome := by
  by_cases h : j = k
  · rw [h, smFind_smUpd_same, Option.isSome_map]
  · rw [smFind_smUpd_ne m f h]

/-- The two maps have the same keys. -/
def SameKeys {α : Type} (m n : SMap α) : Prop := ∀ k, (smFind n k).isSome = (smFind m k).isSome

/-- The context of a command notes the instant of its end. -/
theorem noteEnd_frame (d : Dev) (c : Cmd) : ∃ ctxs, SameKeys d.ctxs ctxs ∧ noteEnd d c = { d with ctxs := ctxs } := by
  unfold noteEnd
  split
  · exact ⟨_, fun k => isSome_smUpd .., rfl⟩
  · exact ⟨_, fun _ => rfl, rfl⟩

/-- The device once the end of a command has been noted: its status, the instant from which its context can be blocked, its duration. -/
def endNoted (d : Dev) (cid : Nat) (c : Cmd) (st : BitVec 16) (lasted : Nat) : Dev :=
  tallyValue (noteEnd (noteStatus d cid c st) c) 0x12 c.queue lasted (hostSeqOf c)

/-- Noting the end leaves the records as the status leaves them, and else differs in the contexts and the tally alone. -/
theorem endNoted_frame (d : Dev) (cid : Nat) (c : Cmd) (st : BitVec 16) (lasted : Nat) (tally : Tally) :
    ∃ tally' ctxs, SameKeys d.ctxs ctxs ∧ endNoted { d with tally := tally } cid c st lasted = { d with
      tally := tally', ctxs := ctxs, reqs := (noteStatus d cid c st).reqs, weights := (noteStatus d cid c st).weights,
      colls := (noteStatus d cid c st).colls } := by
  obtain ⟨reqs, weights, colls, hstatus⟩ := noteStatus_frame d cid c st
  obtain ⟨ctxs, hkeys, hend⟩ := noteEnd_frame { d with tally := tally, reqs := reqs, weights := weights, colls := colls } c
  rw [endNoted, noteStatus_with_tally, hstatus, hend]
  exact ⟨_, ctxs, hkeys, rfl⟩

/-- The final record of a command with a status and DETAIL. -/
def finalRec (c : Cmd) (cid : Nat) (st det : BitVec 16) (result : BitVec 160) : QRec :=
  { rcd := { hostSeq := hostSeqOf c, devSeq := 0, status := st, detail := det, result := result }, irq := bit (cmdFlags c) 3,
    final := consumes (opcodeC c), cid := some cid }

/-- A command whose final record does not wait has it ready, with the status and DETAIL of its lateness. -/
theorem completeCmd_eq {d d0 : Dev} {cid : Nat} {c : Cmd} {f : Done} {st det : BitVec 16} (hc : smFind d.cmds cid = some c)
    (hf : c.fin = some f) (hwaiting : (queueOf d c.queue).waiting = []) (hlate : lateStatus d cid c f = (st, det, d0)) :
    completeCmd d cid = readyRec (endNoted d0 cid c st ((d.now - c.arrival) / 400)) c.queue (finalRec c cid st det f.result) := by
  simp only [completeCmd, hc, hf, hwaiting, List.any_nil, Bool.false_eq_true, if_false, hlate]
  rfl

/-- What the final record of a command leaves, when it is produced with the status and DETAIL of its lateness: the command is in flight no
longer, the records that it belongs to note the status, and its queue has logged the record. -/
theorem completeCmd_frame {d : Dev} {cid : Nat} {c : Cmd} {f : Done} {st det : BitVec 16} {tally : Tally} (hc : smFind d.cmds cid = some c)
    (hf : c.fin = some f) (hstate : (queueOf d c.queue).state ≠ .disabled) (hwaiting : (queueOf d c.queue).waiting = [])
    (hhold : (queueOf d c.queue).hold.length < holdCap (queueOf d c.queue))
    (hlate : lateStatus d cid c f = (st, det, { d with tally := tally })) :
    (∃ queues host out tally ctxs, SameKeys d.ctxs ctxs ∧ completeCmd d cid = { d with
      cmds := smErase d.cmds cid, queues := queues, host := host, out := out, tally := tally, ctxs := ctxs,
      reqs := (noteStatus d cid c st).reqs, weights := (noteStatus d cid c st).weights, colls := (noteStatus d cid c st).colls }) ∧
    (queueOf (completeCmd d cid) c.queue).log =
      (logged (queueOf d c.queue) (numbered (queueOf d c.queue) (finalRec c cid st det f.result))).log ∧
    (queueOf (completeCmd d cid) c.queue).nextDevSeq = (queueOf d c.queue).nextDevSeq + 1 ∧
    ∀ k, k ≠ c.queue → queueOf (completeCmd d cid) k = queueOf d k := by
  obtain ⟨tally', ctxs, hkeys, hnoted⟩ := endNoted_frame d cid c st ((d.now - c.arrival) / 400) tally
  rw [completeCmd_eq hc hf hwaiting hlate, hnoted]
  obtain ⟨⟨queues, out, pba, hframe⟩, hlog, hseq, hothers⟩ := readyRec_final (r := finalRec c cid st det f.result) (cid := cid) (d := { d with
    tally := tally', ctxs := ctxs, reqs := (noteStatus d cid c st).reqs, weights := (noteStatus d cid c st).weights,
    colls := (noteStatus d cid c st).colls }) hstate hwaiting hhold rfl hc rfl
  exact ⟨⟨_, _, _, _, _, hkeys, hframe⟩, hlog, hseq, hothers⟩

/-- The final record of command cid is produced on its queue with a status and a DETAIL, the records that it belongs to note the status, the
command is in flight no longer, and all that waits for this follows. -/
def Places (s : State) (cid : Nat) (c : Cmd) (f : Done) (status detail : BitVec 16) : Prop :=
  Completes (.commandComplete cid) s (fun t => ∃ u : State, t = followed u ∧
    u = { s with dev := { s.dev with
      cmds := smErase s.dev.cmds cid, queues := u.dev.queues, host := u.dev.host, out := u.dev.out, tally := u.dev.tally,
      ctxs := u.dev.ctxs, reqs := (noteStatus s.dev cid c status).reqs, weights := (noteStatus s.dev cid c status).weights,
      colls := (noteStatus s.dev cid c status).colls } } ∧
    Produced s u c.queue { hostSeq := hostSeqOf c, devSeq := 0, status := status, detail := detail, result := f.result })

/-- A command's final record is placed with the status and DETAIL of its lateness. -/
theorem places_of_lateStatus {s : State} {cid : Nat} {c : Cmd} {f : Done} {st det : BitVec 16} {tally : Tally}
    (hc : smFind s.dev.cmds cid = some c) (hf : c.fin = some f) (hroom : CanProduce s c.queue)
    (hlate : lateStatus s.dev cid c f = (st, det, { s.dev with tally := tally })) : Places s cid c f st det := by
  obtain ⟨hstate, hwaiting, hhold⟩ := hroom
  obtain ⟨⟨queues, host, out, tally', ctxs, -, hframe⟩, hlog, hseq, hothers⟩ := completeCmd_frame hc hf hstate hwaiting hhold hlate
  refine ⟨_, rfl, { s with dev := completeCmd s.dev cid }, rfl, ?_, produced_of_logged (r := finalRec c cid st det f.result) hlog hseq hothers⟩
  rw [hframe]

/-! ### HOLD_BUFFER_DRAIN -/

/-- A record written takes at most one place of the room in the ring, whatever the head that the host has written. -/
theorem ringRoom_tailMoved (v : Queue) : ringRoom v - 1 ≤ ringRoom (tailMoved v) := by
  have hsize : 0 < cqSize v := by unfold cqSize; positivity
  have hmoved : ringRoom (tailMoved v) = cqSize v - 1 - ((v.cqTail + 1) % cqSize v + cqSize v - v.cqHead) % cqSize v := rfl
  rw [hmoved, ringRoom]
  generalize cqSize v = n at hsize
  generalize v.cqTail = t
  generalize v.cqHead = h
  have hstep (a : Nat) : (a + 1) % n ≤ a % n + 1 := by
    rw [← Nat.mod_add_mod]
    exact Nat.mod_le _ _
  have key : ((t + 1) % n + n - h) % n ≤ (t + n - h) % n + 1 := by
    rcases Nat.lt_or_ge h ((t + 1) % n + n) with hh | hh
    · have hsplit := Nat.mod_add_div (t + 1) n
      have hsum : t + n - h + 1 = (t + 1) % n + n - h + n * ((t + 1) / n) := by omega
      have hmod := hstep (t + n - h)
      rwa [hsum, Nat.add_mul_mod_self_left] at hmod
    · rw [Nat.sub_eq_zero_of_le hh, Nat.zero_mod]
      exact Nat.zero_le _
  omega

/-- The queue once the oldest held record, if there is one, has been written to the ring. -/
def oldestWritten (v : Queue) : Queue := match v.hold with | _ :: hs => tailMoved { v with hold := hs } | [] => v

/-- The queue once it is ACTIVE again, if its hold buffer has drained. -/
def heldEnded (v : Queue) : Queue := if v.state = .held ∧ v.hold.isEmpty then { v with state := .active } else v

/-- The queue once every held record has been written to the ring. -/
def drained (v : Queue) : Queue :=
  { v with hold := [], cqTail := (v.cqTail + v.hold.length) % cqSize v, state := if v.state = .held then .active else v.state }

/-- All that the queue has to write is held records, and the ring has room for them. -/
structure Drainable (v : Queue) : Prop where
  no_replay : v.replay = none
  none_waits : v.waiting = []
  fits : v.hold.length ≤ ringRoom v
  wrapped : v.hold = [] → v.cqTail % cqSize v = v.cqTail

/-- The end of HELD changes the state of the queue alone. -/
theorem heldEnded_eq (v : Queue) : ∃ state, heldEnded v = { v with state := state } := by
  unfold heldEnded
  split
  · exact ⟨_, rfl⟩
  · exact ⟨v.state, rfl⟩

theorem drained_heldEnded (v : Queue) : drained (heldEnded v) = drained v := by
  unfold heldEnded
  split
  next h => simp [drained, h.1, cqSize]
  next => rfl

/-- A record written moves the tail on, as the length of the hold buffer counts. -/
theorem drained_oldestWritten (v : Queue) : drained (oldestWritten v) = drained v := by
  unfold oldestWritten
  split
  next h hs hold =>
    have htail : ((v.cqTail + 1) % cqSize v + hs.length) % cqSize v = (v.cqTail + (h :: hs).length) % cqSize v := by
      rw [Nat.mod_add_mod, List.length_cons]
      congr 1
      omega
    rw [drained, drained, hold, ← htail]
    rfl
  next => rfl

/-- Once all is written the queue is as the end of HELD leaves it. -/
theorem heldEnded_of_empty {v : Queue} (hv : Drainable v) (hold : v.hold = []) : heldEnded v = drained v := by
  have hdrained : drained v = { v with state := if v.state = .held then .active else v.state } := by
    rw [drained, hold, List.length_nil, Nat.add_zero, hv.wrapped hold, ← hold]
  rw [hdrained]
  unfold heldEnded
  by_cases hs : v.state = .held
  · rw [if_pos ⟨hs, by rw [hold]; rfl⟩, if_pos hs]
  · rw [if_neg (fun h => hs h.1), if_neg hs]

theorem Drainable.heldEnded {v : Queue} (hv : Drainable v) : Drainable (heldEnded v) := by
  obtain ⟨state, h⟩ := heldEnded_eq v
  rw [h]
  exact ⟨hv.no_replay, hv.none_waits, hv.fits, hv.wrapped⟩

theorem Drainable.oldestWritten {v : Queue} (hv : Drainable v) : Drainable (oldestWritten v) := by
  unfold Machine.oldestWritten
  split
  next h hs hold =>
    have hroom : ringRoom v - 1 ≤ ringRoom (tailMoved { v with hold := hs }) := ringRoom_tailMoved { v with hold := hs }
    have hfits := hv.fits
    rw [hold, List.length_cons] at hfits
    exact ⟨hv.no_replay, hv.none_waits, show hs.length ≤ _ by omega, fun _ => Nat.mod_mod _ _⟩
  next => exact hv

theorem hold_oldestWritten (v : Queue) : (oldestWritten v).hold = v.hold.tail := by
  unfold oldestWritten
  split
  next hold => rw [hold]; rfl
  next hold => rw [hold]; rfl

theorem hold_heldEnded (v : Queue) : (heldEnded v).hold = v.hold := by
  obtain ⟨state, h⟩ := heldEnded_eq v
  rw [h]

/-- Between d and e, queue q has become v, and else nothing differs but what has left the part and the pending interrupts. -/
structure RingWritten (d e : Dev) (q : Nat) (v : Queue) : Prop where
  frame : ∃ queues out pba, e = { d with queues := queues, out := out, host := { d.host with pba := pba } }
  same : queueOf e q = v
  others : ∀ k, k ≠ q → queueOf e k = queueOf d k

theorem RingWritten.trans {d e f : Dev} {q : Nat} {v w : Queue} (h : RingWritten d e q v) (h' : RingWritten e f q w) :
    RingWritten d f q w := by
  obtain ⟨⟨queues, out, pba, rfl⟩, -, hne⟩ := h
  obtain ⟨⟨queues', out', pba', rfl⟩, hsame, hne'⟩ := h'
  exact ⟨⟨_, _, _, rfl⟩, hsame, fun k hk => (hne' k hk).trans (hne k hk)⟩

theorem ringWritten_modQueue (d : Dev) (q : Nat) (f : Queue → Queue) : RingWritten d (modQueue d q f) q (f (queueOf d q)) :=
  ⟨⟨_, d.out, d.host.pba, rfl⟩, queueOf_modQueue_same d q f, fun _ hk => queueOf_modQueue_ne d f hk⟩

theorem ringWritten_writeRing (d : Dev) (q : Nat) (r : QRec) : RingWritten d (writeRing d q r) q (tailMoved (queueOf d q)) := by
  obtain ⟨out, pba, h⟩ := writeRing_frame d q r
  exact ⟨⟨_, out, pba, h⟩, queueOf_writeRing_same d q r, fun _ hk => queueOf_writeRing_ne d r hk⟩

/-- The oldest held record goes to the ring when there is room for it. -/
theorem ringWritten_drainOnce {d : Dev} {q : Nat} (hv : Drainable (queueOf d q)) (hbme : d.host.bme = true) :
    RingWritten d (drainOnce d q) q (oldestWritten (queueOf d q)) := by
  have hfits := hv.fits
  cases hold : (queueOf d q).hold with
  | cons h hs =>
    rw [hold, List.length_cons] at hfits
    have hopen : ringOpen d q = true := by
      simp only [ringOpen, hbme, Bool.true_and, decide_eq_true_eq]
      omega
    have honce : drainOnce d q = writeRing (modQueue d q (fun v => { v with hold := hs })) q h := by
      simp only [drainOnce, hv.no_replay, hold]
      exact if_pos hopen
    rw [honce, oldestWritten, hold]
    have hmoved := ringWritten_modQueue d q (fun v => { v with hold := hs })
    have hwritten := hmoved.trans (ringWritten_writeRing _ q h)
    rwa [hmoved.same] at hwritten
  | nil =>
    have honce : drainOnce d q = d := by simp only [drainOnce, hv.no_replay, hold]
    rw [honce, oldestWritten, hold]
    exact ⟨⟨d.queues, d.out, d.host.pba, rfl⟩, rfl, fun _ _ => rfl⟩

/-- With no record that waits, a round writes the oldest held record and ends HELD once none is left. -/
theorem ringWritten_round {d : Dev} {q : Nat} (hv : Drainable (queueOf d q)) (hbme : d.host.bme = true) :
    RingWritten d (admitWaiting (endHeld (drainOnce d q) q) q) q (heldEnded (oldestWritten (queueOf d q))) := by
  have honce := ringWritten_drainOnce hv hbme
  have hended := honce.trans (ringWritten_modQueue (drainOnce d q) q heldEnded)
  rw [honce.same] at hended
  have hwaiting : (queueOf (endHeld (drainOnce d q) q) q).waiting = [] :=
    (congrArg Queue.waiting hended.same).trans hv.oldestWritten.heldEnded.none_waits
  have hadmit : admitWaiting (endHeld (drainOnce d q) q) q = endHeld (drainOnce d q) q := by rw [admitWaiting]; simp only [hwaiting]
  rw [hadmit]
  exact hended

/-- As many rounds as there are held records, or more, write them all. -/
theorem ringWritten_drainLoop {q : Nat} (fuel : Nat) {d : Dev} (hv : Drainable (queueOf d q)) (hbme : d.host.bme = true)
    (hfuel : (queueOf d q).hold.length ≤ fuel) : RingWritten d (endHeld (drainLoop q fuel d) q) q (drained (queueOf d q)) := by
  induction fuel generalizing d with
  | zero =>
    have hold : (queueOf d q).hold = [] := List.length_eq_zero_iff.mp (Nat.le_zero.mp hfuel)
    rw [← heldEnded_of_empty hv hold]
    exact ringWritten_modQueue d q heldEnded
  | succ fuel ih =>
    have hround := ringWritten_round hv hbme
    have ⟨⟨_, _, _, hframe⟩, hqueue, _⟩ := hround
    have hrest := ih (d := admitWaiting (endHeld (drainOnce d q) q) q) (by rw [hqueue]; exact hv.oldestWritten.heldEnded)
      (by rw [hframe]; exact hbme) (by rw [hqueue, hold_heldEnded, hold_oldestWritten, List.length_tail]; omega)
    rw [hqueue, drained_heldEnded, drained_oldestWritten] at hrest
    exact hround.trans hrest

/-- The drain of a queue that has nothing but held records to write, and room for them. -/
theorem ringWritten_drainQueue {d : Dev} {q : Nat} (hv : Drainable (queueOf d q)) (hbme : d.host.bme = true) :
    RingWritten d (drainQueue d q) q (drained (queueOf d q)) :=
  ringWritten_drainLoop _ hv hbme (by omega)

/-- A queue with held records and room for them in its ring drains. -/
theorem holdBufferDrain_writes {s : State} (q : Fin 256) (hreplay : (queueOf s.dev q).replay = none) (hwaiting : (queueOf s.dev q).waiting = [])
    (hhold : (queueOf s.dev q).hold ≠ []) (hbme : s.dev.host.bme = true) (hroom : (queueOf s.dev q).hold.length ≤ ringRoom (queueOf s.dev q)) :
    Completes (.holdBufferDrain q) s (fun t => ∃ u : State, t = followed u ∧
      u = { s with dev := { s.dev with queues := u.dev.queues, host := u.dev.host, out := u.dev.out } } ∧
      (∀ k, k ≠ (q : Nat) → queueOf u.dev k = queueOf s.dev k) ∧ queueOf u.dev q = drained (queueOf s.dev q)) := by
  have hv : Drainable (queueOf s.dev q) := ⟨hreplay, hwaiting, hroom, fun h => absurd h hhold⟩
  obtain ⟨⟨queues, out, pba, hframe⟩, hsame, hne⟩ := ringWritten_drainQueue hv hbme
  exact ⟨_, rfl, { s with dev := drainQueue s.dev q }, rfl, by rw [hframe], hne, hsame⟩

/-! ### RESULT.READ -/

/-- A write to host memory in bulk only sends messages, which do not depend on the rest of the device. -/
theorem bulkWrite_go_eq (fuel addr : Nat) (bs : List Byte) :
    ∃ msgs, ∀ d, bulkWrite.go d addr bs fuel = { d with out := msgs ++ d.out } := by
  induction fuel generalizing addr bs with
  | zero => exact ⟨[], fun _ => rfl⟩
  | succ fuel ih =>
    by_cases hbs : bs.isEmpty = true
    · exact ⟨[], fun d => by rw [bulkWrite.go, if_pos hbs]; rfl⟩
    · obtain ⟨msgs, hrest⟩ := ih (addr + (512 - addr % 512)) (bs.drop (512 - addr % 512))
      refine ⟨msgs ++ [.memWrite addr (bs.take (512 - addr % 512)) true], fun d => ?_⟩
      rw [bulkWrite.go, if_neg hbs, hrest, List.append_assoc]
      rfl

theorem bulkWrite_eq (addr : Nat) (bs : List Byte) : ∃ msgs, ∀ d, bulkWrite d addr bs = { d with out := msgs ++ d.out } :=
  bulkWrite_go_eq bs.length addr bs

/-- A read of a READY slot counts itself. -/
theorem readSlot_of_ready {x : Slot} (h : x.state = .ready) :
    readSlot x = { x with reads := if x.reads = 0xFFFFFFFF#32 then x.reads else x.reads + 1, rpt := x.reads != 0#32 } := if_pos h

theorem slots_slotRead (v : Queue) (c : Cmd) (j : Nat) :
    smGet {} (slotRead v c).slots j = if j = par c 0x10 2 then readSlot (namedSlot v c) else smGet {} v.slots j := by
  by_cases h : j = par c 0x10 2
  · rw [if_pos h, h]
    exact smGet_smSet_same ..
  · rw [if_neg h]
    exact smGet_smSet_ne _ _ _ h

/-- What a RESULT.READ writes to host memory: the header of the slot, and as much of its payload as SIZE holds. -/
def readOut (c : Cmd) (y : Slot) : List Byte := slotHeader y ++ y.payload.take (par c 0x20 4 - 32)

/-- A RESULT.READ of a READY slot writes what it read and ends OK. -/
theorem stepResultRead_ready {d d1 : Dev} {cid : Nat} {c c' : Cmd} {y : Slot} (hd : captureSlot d cid c = d1) (hc : smFind d1.cmds cid = some c')
    (hsnap : c'.snap = some y) (hbme : d1.host.bme = true) (hready : y.state = .ready) : stepResultRead d cid c =
      some (finishCmd (bulkWrite d1 (par c 0x18 8) (readOut c y)) cid stOk
        (b2n y.rpt + 2 * b2n (decide (par c 0x20 4 < 32 + y.payload.length)))
        [(0x0C, 4, slotCode y.state), (0x10, 4, y.hostSeq.toNat), (0x14, 4, y.status.toNat), (0x18, 4, (readOut c y).length)] none) := by
  simp only [stepResultRead, hd, hc, Option.bind_some, hsnap, hbme, Bool.not_true, Bool.false_eq_true, if_false, if_pos hready]
  rfl

/-- The view of a RESULT.READ that begins: its slot has counted it, and only the command and the slot differ. -/
theorem captureSlot_began {s : State} {cid : Nat} {c : Cmd} (hruns : Runs s 0x0D01 cid c) (hsnap : c.snap = none) :
    ∃ cmds, captureSlot (began s cid) cid c =
        { s.dev with cmds := cmds, queues := (setQueue s.dev c.queue (slotRead (queueOf s.dev c.queue) c)).queues } ∧
      smFind cmds cid = some { c with phase := .running, snap := some (readSlot (namedSlot (queueOf s.dev c.queue) c)) } ∧
      ∀ k, k ≠ cid → smFind cmds k = smFind s.dev.cmds k := by
  refine ⟨_, captureSlot_of_no_view hsnap, ?_, fun k hk => (smFind_smUpd_ne _ _ hk).trans (smFind_began_ne s hk)⟩
  exact (smFind_smUpd_same ..).trans (congrArg _ (smFind_began_same hruns))

/-- A RESULT.READ of a READY slot counts itself in the slot, writes what it read, and ends OK. -/
theorem resultRead_ready {s : State} {cid : Nat} {c : Cmd} (hruns : Runs s 0x0D01 cid c) (hsnap : c.snap = none) (hbme : s.dev.host.bme = true)
    (hready : (namedSlot (queueOf s.dev c.queue) c).state = .ready) : Completes (.resultRead cid) s (fun t =>
      let y := readSlot (namedSlot (queueOf s.dev c.queue) c)
      t = { s with dev := { s.dev with cmds := t.dev.cmds, queues := t.dev.queues, out := t.dev.out } } ∧
      (∀ q, queueOf t.dev q = if q = c.queue then slotRead (queueOf s.dev c.queue) c else queueOf s.dev q) ∧
      t.dev.out = (bulkWrite s.dev (par c 0x18 8) (readOut c y)).out ∧
      ∃ r, finOf t cid = some (0#16, BitVec.ofNat 16 (b2n y.rpt + 2 * b2n (decide (par c 0x20 4 < 32 + y.payload.length))), r)) := by
  have hy : (readSlot (namedSlot (queueOf s.dev c.queue) c)).state = .ready := (congrArg Slot.state (readSlot_of_ready hready)).trans hready
  obtain ⟨cmds, hcapture, hcmd, hother⟩ := captureSlot_began hruns hsnap
  obtain ⟨msgs, hwrite⟩ := bulkWrite_eq (par c 0x18 8) (readOut c (readSlot (namedSlot (queueOf s.dev c.queue) c)))
  have hbody := stepResultRead_ready hcapture hcmd rfl hbme hy
  rw [hwrite] at hbody
  refine (completes_finish rfl hruns hbody hother hcmd (fin_of_runs (c := c) hruns)).imp ?_
  rintro t ⟨hframe, -, hfin, -⟩
  refine ⟨by rw [hframe], fun q => ?_, by rw [hframe, hwrite], _, hfin⟩
  rw [hframe]
  exact queueOf_setQueue s.dev c.queue q _

/-- Settles O29: each command's step, with the lateness of a command by what made it late. -/
theorem commandsEndWithOneFinalRecord : Obligations.CommandsEndWithOneFinalRecord := by
  intro s cid c
  refine ⟨fun hruns => ?_, fun f hc hf hroom => ?_, fun q hreplay hwaiting hhold hbme hfits =>
    holdBufferDrain_writes q hreplay hwaiting hhold hbme hfits, fun hruns hsnap hbme => ?_⟩
  · exact (completes_finish_only rfl hruns rfl).imp fun t ⟨honly, hfin, _⟩ => ⟨honly, hfin⟩
  · have hplace {st det : BitVec 16} {tally : Tally} := places_of_lateStatus (st := st) (det := det) (tally := tally) hc hf hroom
    refine ⟨fun hst => hplace (lateStatus_of_not_ok hst), fun htime hreq => hplace (lateStatus_of_on_time htime hreq),
      fun x hdue hpast hok hreq => ⟨fun hhot => ?_, fun hhot hstall hwait => ?_, fun hhot hwait => ?_⟩, fun r htime hreq hmissed hok => ?_⟩
    · obtain ⟨tally, h⟩ := lateStatus_of_throttled hdue hpast hok hreq hhot
      exact hplace h
    · exact hplace (lateStatus_of_stalled hdue hpast hok hreq hhot hstall hwait)
    · obtain ⟨tally, h⟩ := lateStatus_of_late hdue hpast hok hreq hhot hwait
      exact hplace h
    · obtain ⟨tally, h⟩ := lateStatus_of_missed_goal htime hok hreq hmissed
      exact hplace h
  · intro k x y size hready
    have hcount : readSlot (namedSlot (queueOf s.dev c.queue) c) = y := readSlot_of_ready hready
    refine (resultRead_ready hruns hsnap hbme hready).imp fun t ⟨hframe, hqueues, hout, r, hfin⟩ => ⟨hframe, fun q j => ?_, ?_, r, ?_⟩
    · by_cases hq : q = c.queue
      · rw [hqueues, if_pos hq, slots_slotRead, hq, ← hcount]
        simp only [true_and]
        rfl
      · rw [hqueues, if_neg hq, if_neg (fun h => hq h.1)]
    · exact hout.trans (by rw [readOut, hcount])
    · exact hfin.trans (by rw [hcount])

end Sys2Proof.Machine
end

section
/-! PROOF. Queue pairs: QUEUE.CREATE, QUEUE.DESTROY and QUEUE.RESYNC (02 R33, R43, R74 to R77, R645). -/

namespace Sys2Proof.Machine

/-! ### What the end of a launch leaves as it is -/

/-- The device without what its engines hold and do, and without what counts it: launches, transfers, contexts, the fabric, the governor and the
tally. -/
def beside (d : Dev) : Dev :=
  { d with freeCtr := 0, ctxs := [], eng := [], launches := [], running := [], xfers := [], fabric := {}, gov := {}, tally := {} }

theorem beside_foldl {β : Type} {f : Dev → β → Dev} (h : ∀ d x, beside (f d x) = beside d) (l : List β) (d : Dev) :
    beside (l.foldl f d) = beside d := foldl_keep beside f h l d

@[simp] theorem beside_modE (d : Dev) (ctx i : Nat) (f : EngCtx → EngCtx) : beside (modE d ctx i f) = beside d := rfl

@[simp] theorem beside_modCtx (d : Dev) (ctx : Nat) (f : Ctx → Ctx) : beside (modCtx d ctx f) = beside d := rfl

@[simp] theorem beside_tallyCount (d : Dev) (qid inst n src : Nat) : beside (tallyCount d qid inst n src) = beside d := rfl

@[simp] theorem beside_chargeTime (d : Dev) (z : Launch) : beside (chargeTime d z) = beside d := rfl

@[simp] theorem beside_releaseEngines (d : Dev) (k : Nat) : beside (releaseEngines d k) = beside d := rfl

@[simp] theorem beside_cancelLine (d : Dev) (ctx i n : Nat) (own : Option Nat) : beside (cancelLine d ctx i n own) = beside d := by
  unfold cancelLine
  simp only
  split
  · rfl
  · simp only [apply_ite beside, beside_tallyCount, ite_self]
    cases own <;> rfl

@[simp] theorem beside_cancelLines (d : Dev) (ctx i : Nat) (own : Option Nat) : beside (cancelLines d ctx i own) = beside d :=
  beside_foldl (fun d n => beside_cancelLine d ctx i n own) (span 0 16) d

/-- The lines of every engine of a launch are cancelled. -/
@[simp] theorem beside_cancelAllLines (d : Dev) (z : Launch) (own : Option Nat) :
    beside ((launchEngines z).foldl (fun d i => cancelLines d z.ctx i own) d) = beside d :=
  beside_foldl (fun d i => beside_cancelLines d z.ctx i own) (launchEngines z) d

/-- Every engine of a launch changes what it holds. -/
@[simp] theorem beside_modAllE (d : Dev) (z : Launch) (f : EngCtx → EngCtx) :
    beside ((launchEngines z).foldl (fun d i => modE d z.ctx i f) d) = beside d :=
  beside_foldl (fun d i => beside_modE d z.ctx i f) (launchEngines z) d

@[simp] theorem beside_clearTransient (d : Dev) (z : Launch) : beside (clearTransient d z) = beside d := by
  unfold clearTransient
  split
  · rfl
  · exact beside_modAllE d z _

/-- The device once a launch has left its engines; the command that it serves, if any, has not ended. -/
def launchGone (d : Dev) (k : Nat) (z : Launch) : Dev :=
  let d1 := (launchEngines z).foldl (fun d i => cancelLines d z.ctx i (some k)) d
  let d2 := (launchEngines z).foldl (fun d i => modE d z.ctx i (fun e => { e with seq := .idle, stallFrom := none })) d1
  let d3 := if z.state = .running then chargeTime (releaseEngines d2 k) z else releaseEngines d2 k
  { clearTransient d3 z with launches := smUpd d3.launches k (fun z => { z with state := .ended }) }

@[simp] theorem beside_launchGone (d : Dev) (k : Nat) (z : Launch) : beside (launchGone d k z) = beside d := by
  unfold launchGone
  refine (beside_clearTransient _ z).trans ?_
  simp only [apply_ite beside, beside_chargeTime, beside_releaseEngines, beside_modAllE, beside_cancelAllLines, ite_self]

/-! ### The commands and steps in flight, and what leaves them as they are -/

/-- The commands and the learning steps in flight. -/
def workOf (d : Dev) : SMap Cmd × SMap TStep := (d.cmds, d.weights.steps)

theorem workOf_of_beside {d e : Dev} (h : beside e = beside d) : workOf e = workOf d :=
  show workOf (beside e) = workOf (beside d) by rw [h]

theorem workOf_foldl {β : Type} {f : Dev → β → Dev} (h : ∀ d x, workOf (f d x) = workOf d) (l : List β) (d : Dev) :
    workOf (l.foldl f d) = workOf d := foldl_keep workOf f h l d

@[simp] theorem freeFrames_queues (d : Dev) (l : List Nat) : (freeFrames d l).queues = d.queues :=
  foldl_keep Dev.queues freeFrame (fun _ _ => rfl) l d

@[simp] theorem workOf_freeFrames (d : Dev) (l : List Nat) : workOf (freeFrames d l) = workOf d :=
  workOf_foldl (f := freeFrame) (fun _ _ => rfl) l d

@[simp] theorem freeFrames_cmds (d : Dev) (l : List Nat) : (freeFrames d l).cmds = d.cmds := congrArg Prod.fst (workOf_freeFrames d l)

@[simp] theorem workOf_freeReleased (d : Dev) (w : Nat) : workOf (freeReleased d w) = workOf d := by
  unfold freeReleased
  split
  · rfl
  · split <;> rfl

@[simp] theorem workOf_unpin (d : Dev) (w : Nat) (ver : Word) (k : PinKind) : workOf (unpin d w ver k) = workOf d := by
  unfold unpin
  split
  · rfl
  · exact workOf_freeReleased _ w

@[simp] theorem workOf_dropColl (d : Dev) (n : Nat) : workOf (dropColl d n) = workOf d := by
  unfold dropColl
  split
  · rfl
  · refine (workOf_foldl (fun d (w : Nat × Word) => workOf_unpin d w.1 w.2 .coll) _ _).trans ?_
    split <;> rfl

/-- A launch that is cancelled leaves its engines, and a command that it serves ends CANCELLED. -/
theorem cancelLaunch_cases (d : Dev) (k : Nat) : cancelLaunch d k = d ∨ ∃ z, cancelLaunch d k = launchGone d k z ∨
    ∃ cid, cancelLaunch d k = finishCmd (launchGone d k z) cid stCancelled 0 [] none := by
  unfold cancelLaunch
  split
  · exact .inl rfl
  next z _ =>
    refine .inr ⟨z, ?_⟩
    simp only
    split
    next cid _ => exact .inr ⟨cid, rfl⟩
    next => exact .inl rfl

/-! ### Commands that end CANCELLED -/

/-- The record of a command that ends CANCELLED. -/
def cancelledRecord : BitVec 16 × BitVec 16 × BitVec 160 := (0x0003#16, 0#16, 0#160)

def recordOf (f : Done) : BitVec 16 × BitVec 16 × BitVec 160 := (f.status, f.detail, f.result)

/-- Between d and e command k stays in flight on its queue: its final record is as it was, or it has ended CANCELLED; and a learning step
filed under k stays its own. -/
structure Cancels (k : Nat) (d e : Dev) : Prop where
  cmd : ∀ x, smFind d.cmds k = some x → ∃ y, smFind e.cmds k = some y ∧ y.queue = x.queue ∧
    (y.fin = x.fin ∨ (x.fin = none ∧ y.fin.map recordOf = some cancelledRecord))
  step : (∀ q, smFind d.weights.steps k = some q → q.cid = k) → ∀ q, smFind e.weights.steps k = some q → q.cid = k

theorem Cancels.of_workOf {k : Nat} {d e : Dev} (h : workOf e = workOf d) : Cancels k d e := by
  obtain ⟨hcmds, hsteps⟩ := Prod.ext_iff.mp h
  simp only [workOf] at hcmds hsteps
  exact ⟨fun x hx => ⟨x, by rw [hcmds]; exact hx, rfl, .inl rfl⟩, fun hd => by rw [hsteps]; exact hd⟩

theorem Cancels.trans {k : Nat} {d e f : Dev} (h : Cancels k d e) (h' : Cancels k e f) : Cancels k d f := by
  refine ⟨fun x hx => ?_, fun hd => h'.step (h.step hd)⟩
  obtain ⟨y, hy, hqueue, hfin⟩ := h.cmd x hx
  obtain ⟨z, hz, hqueue', hfin'⟩ := h'.cmd y hy
  refine ⟨z, hz, hqueue'.trans hqueue, ?_⟩
  obtain hfin | ⟨hnone, hcancelled⟩ := hfin
  · rwa [hfin] at hfin'
  · refine .inr ⟨hnone, ?_⟩
    obtain hfin' | ⟨hnone', -⟩ := hfin'
    · rwa [hfin']
    · rw [hnone'] at hcancelled
      cases hcancelled

/-- A change of a command that leaves its queue and its final record. -/
theorem cancels_modCmd (k : Nat) (d : Dev) (cid : Nat) {f : Cmd → Cmd} (hqueue : ∀ c, (f c).queue = c.queue) (hfin : ∀ c, (f c).fin = c.fin) :
    Cancels k d (modCmd d cid f) := by
  refine ⟨fun x hx => ?_, fun hd => hd⟩
  by_cases hk : k = cid
  · subst hk
    exact ⟨f x, by rw [modCmd_cmds, smFind_smUpd_same, hx]; rfl, hqueue x, .inl (hfin x)⟩
  · exact ⟨x, (smFind_smUpd_ne _ _ hk).trans hx, rfl, .inl rfl⟩

theorem cancels_finishCmd (k : Nat) (d : Dev) (cid : Nat) : Cancels k d (finishCmd d cid stCancelled 0 [] none) := by
  refine ⟨fun x hx => ?_, fun hd => hd⟩
  by_cases hk : k = cid
  · subst hk
    refine ⟨_, (smFind_smUpd_same ..).trans (congrArg _ hx), ?_⟩
    cases hfin : x.fin with
    | some f => simp [hfin]
    | none =>
      simp only [hfin, Option.isSome_none, Bool.false_eq_true, if_false, true_and]
      exact .inr rfl
  · exact ⟨x, (smFind_smUpd_ne _ _ hk).trans hx, rfl, .inl rfl⟩

theorem cancels_cancelLaunch (k : Nat) (d : Dev) (n : Nat) : Cancels k d (cancelLaunch d n) := by
  obtain h | ⟨z, h | ⟨cid, h⟩⟩ := cancelLaunch_cases d n
  · rw [h]
    exact .of_workOf rfl
  · rw [h]
    exact .of_workOf (workOf_of_beside (beside_launchGone d n z))
  · rw [h]
    exact (Cancels.of_workOf (workOf_of_beside (beside_launchGone d n z))).trans (cancels_finishCmd k _ cid)

theorem cancels_undoReserve (k : Nat) (d : Dev) (cid : Nat) : Cancels k d (undoReserve d cid) := by
  unfold undoReserve
  split
  · exact .of_workOf rfl
  next c _ =>
    have hfreed : workOf (uncharge (freePoolPages (freeFrames d c.frames) c.part c.pool) c.part c.charged) = workOf d :=
      workOf_freeFrames d c.frames
    exact (Cancels.of_workOf hfreed).trans (cancels_modCmd k _ cid (fun _ => rfl) (fun _ => rfl))

/-- The device once what a command holds has been released; the command has not ended. -/
def holdsNothing (d : Dev) (cid : Nat) : Dev :=
  let d2 := modMem (undoReserve d cid) (fun m => { m with pieces := m.pieces.filter (fun p => p.cid != cid) })
  { dropWant d2 (.cmd cid) with weights := { d2.weights with queries := d2.weights.queries.filter (fun q => q.cid != cid) } }

theorem cancelCmd_eq (d : Dev) (cid : Nat) : cancelCmd d cid = finishCmd (holdsNothing d cid) cid stCancelled 0 [] none := rfl

theorem cancels_holdsNothing (k : Nat) (d : Dev) (cid : Nat) : Cancels k d (holdsNothing d cid) :=
  (cancels_undoReserve k d cid).trans (.of_workOf rfl)

theorem cancels_cancelCmd (k : Nat) (d : Dev) (cid : Nat) : Cancels k d (cancelCmd d cid) := by
  rw [cancelCmd_eq]
  exact (cancels_holdsNothing k d cid).trans (cancels_finishCmd k _ cid)

/-- The end of a step files it under its own command, and its leaving takes it away. -/
theorem cancels_closeStep (k : Nat) (d : Dev) (t : TStep) (c : Cmd) (state : Nat) (loss tokens : Word) :
    Cancels k d (closeStep d t c state loss tokens) := by
  have hput : Cancels k d { d with weights := { d.weights with
      steps := smPut d.weights.steps t.cid { t with complete := true, notes := srNotes c } } } := by
    refine ⟨fun x hx => ⟨x, hx, rfl, .inl rfl⟩, fun hd q hq => ?_⟩
    rw [smFind_smPut] at hq
    split at hq
    next hk =>
      cases hq
      exact hk.symm
    next => exact hd q hq
  unfold closeStep
  simp only
  split
  · exact hput.trans (.of_workOf rfl)
  · exact hput

theorem cancels_dropStep (k : Nat) (d : Dev) (t : TStep) : Cancels k d (dropStep d t) := by
  have herase : Cancels k d { d with weights := { d.weights with steps := smErase d.weights.steps t.cid } } := by
    refine ⟨fun x hx => ⟨x, hx, rfl, .inl rfl⟩, fun hd q hq => ?_⟩
    by_cases hk : k = t.cid
    · rw [hk, smFind_smErase_same] at hq
      cases hq
    · exact hd q ((smFind_smErase_ne _ hk).symm.trans hq)
  exact herase.trans (.of_workOf (workOf_unpin ..))

/-- The device once a step of command c has left; the command has not ended. -/
def stepGone (d : Dev) (t : TStep) (c : Cmd) : Dev :=
  dropStep (closeStep (match t.launch with | some n => cancelLaunch d n | none => d) t c 7 0 0) t

theorem discardStep_of_cmd {d : Dev} {t : TStep} {c : Cmd} (hc : smFind d.cmds t.cid = some c) :
    discardStep d t = finishCmd (stepGone d t c) t.cid stCancelled 0 [] none := by
  rw [discardStep, hc]
  rfl

theorem cancels_stepGone (k : Nat) (d : Dev) (t : TStep) (c : Cmd) : Cancels k d (stepGone d t c) := by
  have hlaunch : Cancels k d (match t.launch with | some n => cancelLaunch d n | none => d) := by
    split
    · exact cancels_cancelLaunch k d _
    · exact .of_workOf rfl
  exact (hlaunch.trans (cancels_closeStep k _ t c 7 0 0)).trans (cancels_dropStep k _ t)

theorem cancels_discardStep (k : Nat) (d : Dev) (t : TStep) : Cancels k d (discardStep d t) := by
  cases hc : smFind d.cmds t.cid with
  | none => exact .of_workOf (by rw [discardStep, hc])
  | some c =>
    rw [discardStep_of_cmd hc]
    exact (cancels_stepGone k d t c).trans (cancels_finishCmd k _ t.cid)

/-- A command that has not begun ends CANCELLED. -/
theorem cancels_cancelAdmitted (k : Nat) (d : Dev) (cid : Nat) (c : Cmd) : Cancels k d (cancelAdmitted d cid c) := by
  unfold cancelAdmitted
  split
  · exact cancels_discardStep k d _
  · exact (Cancels.of_workOf (workOf_dropColl d _)).trans (cancels_cancelCmd k _ cid)
  · refine Cancels.trans (.of_workOf ?_) (cancels_cancelCmd k _ cid)
    split <;> rfl

/-! ### The command that is cancelled has ended -/

/-- Command k is in flight. -/
def InFlight (k : Nat) (d : Dev) : Prop := ∃ x, smFind d.cmds k = some x

theorem InFlight.of_cancels {k : Nat} {d e : Dev} (hd : InFlight k d) (h : Cancels k d e) : InFlight k e := by
  obtain ⟨x, hx⟩ := hd
  obtain ⟨y, hy, -⟩ := h.cmd x hx
  exact ⟨y, hy⟩

/-- Command k is in flight and has its final record. -/
def Ended (k : Nat) (d : Dev) : Prop := ∃ x, smFind d.cmds k = some x ∧ x.fin ≠ none

theorem Ended.of_cancels {k : Nat} {d e : Dev} (hd : Ended k d) (h : Cancels k d e) : Ended k e := by
  obtain ⟨x, hx, hfin⟩ := hd
  obtain ⟨y, hy, -, hkept | ⟨hnone, -⟩⟩ := h.cmd x hx
  · exact ⟨y, hy, by rwa [hkept]⟩
  · exact absurd hnone hfin

theorem ended_finishCmd {k : Nat} {d : Dev} (h : InFlight k d) : Ended k (finishCmd d k stCancelled 0 [] none) := by
  obtain ⟨x, hx⟩ := h
  refine ⟨_, (smFind_smUpd_same ..).trans (congrArg _ hx), ?_⟩
  cases hfin : x.fin <;> simp [hfin]

theorem ended_cancelCmd {k : Nat} {d : Dev} (h : InFlight k d) : Ended k (cancelCmd d k) := by
  rw [cancelCmd_eq]
  exact ended_finishCmd (h.of_cancels (cancels_holdsNothing k d k))

theorem ended_discardStep {d : Dev} {t : TStep} (h : InFlight t.cid d) : Ended t.cid (discardStep d t) := by
  obtain ⟨c, hc⟩ := h
  rw [discardStep_of_cmd hc]
  exact ended_finishCmd (InFlight.of_cancels ⟨c, hc⟩ (cancels_stepGone t.cid d t c))

/-- A command that has not begun, and under which no other's step is filed, has ended once it is cancelled. -/
theorem ended_cancelAdmitted {k : Nat} {d : Dev} (c : Cmd) (h : InFlight k d)
    (hstep : ∀ q, smFind d.weights.steps k = some q → q.cid = k) : Ended k (cancelAdmitted d k c) := by
  unfold cancelAdmitted
  split
  next t ht =>
    obtain rfl := hstep t ht
    exact ended_discardStep h
  next => exact ended_cancelCmd (h.of_cancels (.of_workOf (workOf_dropColl d _)))
  next =>
    refine ended_cancelCmd (h.of_cancels (.of_workOf ?_))
    split <;> rfl

/-! ### The commands of a queue that have not begun -/

/-- One command of the fold: cancelled if it is of queue q, has not begun, and has no final record. -/
def cancelIfUnbegun (q : Nat) (d : Dev) (p : Nat × Cmd) : Dev :=
  if p.2.queue = q ∧ p.2.phase = .admitted ∧ p.2.fin.isNone then cancelAdmitted d p.1 p.2 else d

theorem cancelUnbegun_eq (d : Dev) (q : Nat) : cancelUnbegun d q = d.cmds.foldl (cancelIfUnbegun q) d := rfl

theorem cancels_cancelIfUnbegun (k q : Nat) (d : Dev) (p : Nat × Cmd) : Cancels k d (cancelIfUnbegun q d p) := by
  unfold cancelIfUnbegun
  split
  · exact cancels_cancelAdmitted k d p.1 p.2
  · exact .of_workOf rfl

theorem cancels_foldl (k q : Nat) (l : List (Nat × Cmd)) (d : Dev) : Cancels k d (l.foldl (cancelIfUnbegun q) d) :=
  List.foldlRecOn (motive := Cancels k d) l _ (.of_workOf rfl) fun d' h p _ => h.trans (cancels_cancelIfUnbegun k q d' p)

theorem mem_of_smFind {α : Type} {m : SMap α} {k : Nat} {v : α} (h : smFind m k = some v) : (k, v) ∈ m := by
  induction m with
  | nil => cases h
  | cons p m ih =>
    obtain ⟨j, w⟩ := p
    rw [smFind] at h
    split at h
    next hj =>
      cases h
      rw [hj]
      exact List.mem_cons_self
    next => exact List.mem_cons_of_mem _ (ih h)

/-- A command of queue q that has not begun ends CANCELLED, and stays on its queue. -/
theorem cancelUnbegun_cancels {d : Dev} {q k : Nat} {x : Cmd} (hx : smFind d.cmds k = some x) (hq : x.queue = q) (hphase : x.phase = .admitted)
    (hfin : x.fin = none) (hstep : ∀ t, smFind d.weights.steps k = some t → t.cid = k) :
    ∃ y, smFind (cancelUnbegun d q).cmds k = some y ∧ y.queue = q ∧ y.fin.map recordOf = some cancelledRecord := by
  obtain ⟨before, after, hsplit⟩ := List.append_of_mem (mem_of_smFind hx)
  have hall : Cancels k d (cancelUnbegun d q) := cancels_foldl k q d.cmds d
  have hended : Ended k (cancelUnbegun d q) := by
    have hbefore := cancels_foldl k q before d
    have hthis : cancelIfUnbegun q (before.foldl (cancelIfUnbegun q) d) (k, x) = cancelAdmitted (before.foldl (cancelIfUnbegun q) d) k x :=
      if_pos ⟨hq, hphase, by rw [hfin]; rfl⟩
    rw [cancelUnbegun_eq, hsplit, List.foldl_append, List.foldl_cons, hthis]
    exact (ended_cancelAdmitted x (InFlight.of_cancels ⟨x, hx⟩ hbefore) (hbefore.step hstep)).of_cancels (cancels_foldl k q after _)
  obtain ⟨y, hy, hqueue, hkept | ⟨-, hcancelled⟩⟩ := hall.cmd x hx
  · obtain ⟨z, hz, hne⟩ := hended
    obtain rfl : y = z := Option.some.inj (hy.symm.trans hz)
    exact absurd (hkept.trans hfin) hne
  · exact ⟨y, hy, hqueue.trans hq, hcancelled⟩

/-- With no command of the queue in flight nothing is cancelled. -/
theorem cancelUnbegun_of_none {d : Dev} {q : Nat} (h : ∀ p ∈ d.cmds, p.2.queue ≠ q) : cancelUnbegun d q = d :=
  List.foldlRecOn (motive := fun e => e = d) d.cmds (cancelIfUnbegun q) rfl fun e he p hp => by
    rw [cancelIfUnbegun, if_neg (fun hc => h p hp hc.1), he]

/-! ### QUEUE.DESTROY -/

theorem queueEmpty_of_none {d : Dev} {q : Nat} (hcmds : ∀ p ∈ d.cmds, p.2.queue ≠ q) (hhold : (queueOf d q).hold = [])
    (hwaiting : (queueOf d q).waiting = []) (hreplay : (queueOf d q).replay = none) : queueEmpty d q = true := by
  have hnone : inFlightOf d q = 0 := by
    rw [inFlightOf, List.filter_eq_nil_iff.mpr (fun p hp => by simpa using hcmds p hp)]
    rfl
  simp [queueEmpty, hnone, hhold, hwaiting, hreplay]

theorem queueEmpty_of_inFlight {d : Dev} {q k : Nat} {x : Cmd} (hx : smFind d.cmds k = some x) (hq : x.queue = q) : queueEmpty d q = false := by
  have hsome : inFlightOf d q ≠ 0 := by
    intro h
    have hmem : (k, x) ∈ d.cmds.filter (fun c => c.2.queue == q) := List.mem_filter.mpr ⟨mem_of_smFind hx, by simpa using hq⟩
    rw [List.length_eq_zero_iff.mp h] at hmem
    cases hmem
  simp [queueEmpty, hsome]

/-- The target drains: it takes no new command, and those that have not begun have ended CANCELLED. -/
def draining (d : Dev) (cid q : Nat) : Dev :=
  modQueue (cancelUnbegun d q) q (fun v => { v with state := .draining, subs := [], destroyCid := some cid })

theorem queueOf_draining_same (d : Dev) (cid q : Nat) : queueOf (draining d cid q) q =
    { queueOf (cancelUnbegun d q) q with state := .draining, subs := [], destroyCid := some cid } := queueOf_modQueue_same ..

/-- The device once a QUEUE.DESTROY has begun, or as it goes on. -/
def destroyBegun (d : Dev) (cid : Nat) (c : Cmd) : Dev := if c.phase = .admitted then draining d cid (par c 0x10 1) else d

/-- What a queue pair held is released. -/
def released (d : Dev) (q : Nat) : Dev :=
  uncharge (freeFrames d (queueOf d q).frames) ((queueOf d q).partition.getD 0) (queueOf d q).charged

theorem released_cmds (d : Dev) (q : Nat) : (released d q).cmds = d.cmds := freeFrames_cmds d _

theorem queueOf_released (d : Dev) (q k : Nat) : queueOf (released d q) k = queueOf d k := by
  have hqueues : (released d q).queues = d.queues := freeFrames_queues d _
  rw [queueOf, queueOf, hqueues]

/-- QUEUE.DESTROY by what is left of its target. -/
theorem stepDestroy_eq (d : Dev) (cid : Nat) (c : Cmd) : stepDestroy d cid c =
    if c.phase = .admitted ∧ ¬((queueOf d (par c 0x10 1)).state = .active ∨ (queueOf d (par c 0x10 1)).state = .held) then
      some (finishCmd d cid stBadParam 0x10 [] none)
    else if queueEmpty (destroyBegun d cid c) (par c 0x10 1) then
      some (finishCmd (setQueue (released (destroyBegun d cid c) (par c 0x10 1)) (par c 0x10 1) {}) cid stOk 0 [] none)
    else some (destroyBegun d cid c) := rfl

/-- A QUEUE.DESTROY whose target has no command in flight and no record to write has begun without cancelling any. -/
theorem destroyBegun_of_none {d : Dev} {cid : Nat} {c : Cmd} (hcmds : ∀ p ∈ d.cmds, p.2.queue ≠ par c 0x10 1)
    (hhold : (queueOf d (par c 0x10 1)).hold = []) (hwaiting : (queueOf d (par c 0x10 1)).waiting = [])
    (hreplay : (queueOf d (par c 0x10 1)).replay = none) : (destroyBegun d cid c).cmds = d.cmds ∧
      (∀ k, k ≠ par c 0x10 1 → queueOf (destroyBegun d cid c) k = queueOf d k) ∧ queueEmpty (destroyBegun d cid c) (par c 0x10 1) = true := by
  unfold destroyBegun
  split
  · rw [draining, cancelUnbegun_of_none hcmds]
    exact ⟨rfl, fun k hk => queueOf_modQueue_ne d _ hk, queueEmpty_of_none hcmds (by rwa [queueOf_modQueue_same])
      (by rwa [queueOf_modQueue_same]) (by rwa [queueOf_modQueue_same])⟩
  · exact ⟨rfl, fun _ _ => rfl, queueEmpty_of_none hcmds hhold hwaiting hreplay⟩

section
variable {s : State} {cid : Nat} {c : Cmd} (hruns : Runs s 0x0102 cid c)
include hruns

/-- A QUEUE.DESTROY that begins on a target that is neither ACTIVE nor HELD is refused. -/
theorem queueDestroy_refused (hphase : c.phase = .admitted) (hactive : (queueOf s.dev (par c 0x10 1)).state ≠ .active)
    (hheld : (queueOf s.dev (par c 0x10 1)).state ≠ .held) : Completes (.queueDestroy cid) s (fun t =>
      OnlyCmd cid s t ∧ finOf t cid = some (0x0011#16, 0x10#16, 0#160)) := by
  have hbody := (stepDestroy_eq (began s cid) cid c).trans (if_pos ⟨hphase, not_or.mpr ⟨hactive, hheld⟩⟩)
  exact (completes_finish_only rfl hruns hbody).imp fun t ⟨honly, hfin, _⟩ => ⟨honly, hfin⟩

/-- With nothing left on it the target of a QUEUE.DESTROY is disabled. -/
theorem queueDestroy_disables (htarget : par c 0x10 1 ≠ c.queue)
    (hstate : c.phase = .admitted → (queueOf s.dev (par c 0x10 1)).state = .active ∨ (queueOf s.dev (par c 0x10 1)).state = .held)
    (hhold : (queueOf s.dev (par c 0x10 1)).hold = []) (hwaiting : (queueOf s.dev (par c 0x10 1)).waiting = [])
    (hreplay : (queueOf s.dev (par c 0x10 1)).replay = none) (hcmds : ∀ p ∈ s.dev.cmds, p.2.queue ≠ par c 0x10 1) :
    Completes (.queueDestroy cid) s (fun t =>
      endsOk t cid ∧ ∀ k, queueOf t.dev k = if k = par c 0x10 1 then {} else queueOf s.dev k) := by
  have hbegan : ∀ p ∈ (began s cid).cmds, p.2.queue ≠ par c 0x10 1 := by
    intro p hp
    have hput : (began s cid).cmds = smPut s.dev.cmds cid { c with phase := .running } := by
      rw [began, setPhase, smUpd, hruns.1]
    rw [hput] at hp
    obtain rfl | hp := mem_smPut hp
    · exact htarget.symm
    · exact hcmds p hp
  obtain ⟨hsame, hothers, hempty⟩ := destroyBegun_of_none (cid := cid) hbegan hhold hwaiting hreplay
  have hbody := (stepDestroy_eq (began s cid) cid c).trans ((if_neg fun h => h.2 (hstate h.1)).trans (if_pos hempty))
  have hkept : (setQueue (released (destroyBegun (began s cid) cid c) (par c 0x10 1)) (par c 0x10 1) {}).cmds = (began s cid).cmds :=
    (released_cmds _ _).trans hsame
  refine (completes_finish_kept rfl hruns hbody hkept).imp ?_
  rintro t ⟨hframe, -, hfin, -⟩
  refine ⟨⟨_, hfin⟩, fun k => ?_⟩
  have hqueue : queueOf t.dev k = queueOf (setQueue (released (destroyBegun (began s cid) cid c) (par c 0x10 1)) (par c 0x10 1) {}) k := by
    rw [hframe]
    rfl
  rw [hqueue, queueOf_setQueue, queueOf_released]
  split
  next => rfl
  next hk => exact hothers k hk

/-- A QUEUE.DESTROY that begins cancels the commands of its target that have not begun, and the target drains. -/
theorem queueDestroy_cancels {k : Nat} {x : Cmd} (hphase : c.phase = .admitted)
    (hstate : (queueOf s.dev (par c 0x10 1)).state = .active ∨ (queueOf s.dev (par c 0x10 1)).state = .held) (htarget : par c 0x10 1 ≠ c.queue)
    (hx : smFind s.dev.cmds k = some x) (hqueue : x.queue = par c 0x10 1) (hunbegun : x.phase = .admitted) (hnone : x.fin = none)
    (hstep : ∀ q, smFind s.dev.weights.steps k = some q → q.cid = k) : Completes (.queueDestroy cid) s (fun t =>
      finOf t k = some (0x0003#16, 0#16, 0#160) ∧ (queueOf t.dev (par c 0x10 1)).state = .draining ∧
      (queueOf t.dev (par c 0x10 1)).subs = []) := by
  have hk : k ≠ cid := by
    rintro rfl
    obtain rfl : x = c := Option.some.inj (hx.symm.trans hruns.1)
    exact htarget hqueue.symm
  obtain ⟨y, hy, hqueue', hcancelled⟩ := cancelUnbegun_cancels ((smFind_began_ne s hk).trans hx) hqueue hunbegun hnone hstep
  have hbegun : destroyBegun (began s cid) cid c = draining (began s cid) cid (par c 0x10 1) := if_pos hphase
  have hleft : queueEmpty (draining (began s cid) cid (par c 0x10 1)) (par c 0x10 1) = false := queueEmpty_of_inFlight hy hqueue'
  have hbody : stepDestroy (began s cid) cid c = some (draining (began s cid) cid (par c 0x10 1)) := by
    rw [stepDestroy_eq, if_neg fun h => h.2 hstate, hbegun, hleft]
    rfl
  refine ⟨_, onDev_runCmd hruns hbody, ?_, ?_, ?_⟩
  · have hfind : smFind (modCmd (draining (began s cid) cid (par c 0x10 1)) cid waitState).cmds k = some y := (smFind_smUpd_ne _ _ hk).trans hy
    rw [finOf, hfind]
    exact hcancelled
  · exact congrArg Queue.state (queueOf_draining_same (began s cid) cid (par c 0x10 1))
  · exact congrArg Queue.subs (queueOf_draining_same (began s cid) cid (par c 0x10 1))

end

/-! ### QUEUE.RESYNC -/

/-- A queue that may write no record to host memory keeps its ring: between d and e at most its replay ends and its state changes. -/
structure RingKept (q : Nat) (d e : Dev) : Prop where
  same : ∃ replay state, queueOf e q = { queueOf d q with replay := replay, state := state }
  others : ∀ k, k ≠ q → queueOf e k = queueOf d k
  host : e.host = d.host

theorem RingKept.refl (q : Nat) (d : Dev) : RingKept q d d := ⟨⟨_, _, rfl⟩, fun _ _ => rfl, rfl⟩

theorem RingKept.trans {q : Nat} {d e f : Dev} (h : RingKept q d e) (h' : RingKept q e f) : RingKept q d f := by
  obtain ⟨replay, state, hsame⟩ := h.same
  obtain ⟨replay', state', hsame'⟩ := h'.same
  exact ⟨⟨replay', state', by rw [hsame', hsame]⟩, fun k hk => (h'.others k hk).trans (h.others k hk), h'.host.trans h.host⟩

theorem ringKept_modQueue {q : Nat} (d : Dev) {f : Queue → Queue}
    (hf : ∀ v, ∃ replay state, f v = { v with replay := replay, state := state }) : RingKept q d (modQueue d q f) := by
  obtain ⟨replay, state, h⟩ := hf (queueOf d q)
  exact ⟨⟨replay, state, by rw [queueOf_modQueue_same, h]⟩, fun k hk => queueOf_modQueue_ne d f hk, rfl⟩

theorem ringKept_finishRaw (q : Nat) (d : Dev) (cid st dt : Nat) (r : BitVec 160) : RingKept q d (finishRaw d cid st dt r) :=
  ⟨⟨_, _, rfl⟩, fun _ _ => rfl, rfl⟩

/-- With Bus Master Enable clear nothing goes to the ring; a replay with nothing left to write ends. -/
theorem ringKept_drainOnce {q : Nat} {d : Dev} (hbme : d.host.bme = false) : RingKept q d (drainOnce d q) := by
  have hclosed : ringOpen d q = false := by rw [ringOpen, hbme, Bool.false_and]
  unfold drainOnce
  simp only [hclosed, Bool.false_eq_true, if_false]
  split
  · split
    · exact (ringKept_modQueue d fun v => ⟨none, v.state, rfl⟩).trans (ringKept_finishRaw q _ _ _ _ _)
    · exact .refl q d
  · split <;> exact .refl q d

theorem ringKept_endHeld (q : Nat) (d : Dev) : RingKept q d (endHeld d q) :=
  ringKept_modQueue d fun v => by
    obtain ⟨state, h⟩ := heldEnded_eq v
    exact ⟨v.replay, state, h⟩

theorem admitWaiting_of_none {q : Nat} {d : Dev} (h : (queueOf d q).waiting = []) : admitWaiting d q = d := by
  rw [admitWaiting]
  simp only [h]

theorem ringKept_drainLoop {q : Nat} (fuel : Nat) {d : Dev} (hbme : d.host.bme = false) (hwaiting : (queueOf d q).waiting = []) :
    RingKept q d (drainLoop q fuel d) := by
  induction fuel generalizing d with
  | zero => exact .refl q d
  | succ fuel ih =>
    have hround : RingKept q d (endHeld (drainOnce d q) q) := (ringKept_drainOnce hbme).trans (ringKept_endHeld q _)
    have hwaiting' : (queueOf (endHeld (drainOnce d q) q) q).waiting = [] := by
      obtain ⟨replay, state, h⟩ := hround.same
      rw [h]
      exact hwaiting
    rw [drainLoop, admitWaiting_of_none hwaiting']
    exact hround.trans (ih (by rw [hround.host]; exact hbme) hwaiting')

theorem ringKept_drainQueue {q : Nat} {d : Dev} (hbme : d.host.bme = false) (hwaiting : (queueOf d q).waiting = []) :
    RingKept q d (drainQueue d q) :=
  (ringKept_drainLoop _ hbme hwaiting).trans (ringKept_endHeld q _)

/-- A snapshot ends the command at once. -/
theorem stepResync_snapshot {d : Dev} {cid : Nat} {c : Cmd} (hphase : c.phase = .admitted) (hmode : par c 0x11 1 = 0) :
    stepResync d cid c = some (finishRaw d cid stOk 0 (snapshotOf d (par c 0x10 1))) := by
  simp only [stepResync, hphase, hmode]
  rfl

/-- A rebind to a record that is retained gives the target its new ring, and the records left are written to it. -/
theorem stepResync_rebind {d : Dev} {cid : Nat} {c : Cmd} (hphase : c.phase = .admitted) (hmode : par c 0x11 1 = 2)
    (hstate : (queueOf d (par c 0x10 1)).state ≠ .disabled) (hretained : retained (queueOf d (par c 0x10 1)) (word c.hdr 0x28) = true) :
    stepResync d cid c = some (drainQueue (setQueue d (par c 0x10 1)
      (rebound (queueOf d (par c 0x10 1)) c cid (snapshotOf d (par c 0x10 1)))) (par c 0x10 1)) := by
  simp only [stepResync, hphase, hmode, hretained, if_neg hstate, Bool.not_true, Bool.false_eq_true, if_false]
  rfl

/-- A QUEUE.RESYNC whose body leaves device d: all that follows a final record follows. -/
theorem queueResync_completes {s : State} {cid : Nat} {c : Cmd} {d : Dev} {P : State → Prop} (hruns : Runs s 0x0103 cid c)
    (hbody : stepResync (began s cid) cid c = some d) (hP : P { s with dev := modCmd d cid waitState }) :
    Completes (.queueResync cid) s (fun t => ∃ u : State, t = followed u ∧ P u) := by
  refine ⟨_, rfl, { s with dev := runCmd 0x0103 cid stepResync s.dev }, rfl, ?_⟩
  have hbody' : stepResync (setPhase s.dev cid .running) cid c = some d := hbody
  rw [runCmd_runs stepResync hruns, hbody']
  exact hP

/-- The record that finishRaw gives a command that has none. -/
theorem finishRaw_find {d : Dev} {cid : Nat} {c : Cmd} (st dt : Nat) (r : BitVec 160) (h : smFind d.cmds cid = some c) (hf : c.fin = none) :
    (smFind (finishRaw d cid st dt r).cmds cid).bind (·.fin) =
      some { status := BitVec.ofNat 16 st, detail := BitVec.ofNat 16 dt, result := r, slotOut := none, at_ := d.now } := by
  simp [finishRaw, smFind_smUpd_same, h, hf]

theorem queueResync_snapshot {s : State} {cid : Nat} {c : Cmd} (hruns : Runs s 0x0103 cid c) (hphase : c.phase = .admitted)
    (hmode : par c 0x11 1 = 0) : Completes (.queueResync cid) s (fun t => ∃ u : State, t = followed u ∧ OnlyCmd cid s u ∧
      finOf u cid = some (0#16, 0#16, snapshotOf (began s cid) (par c 0x10 1))) := by
  refine queueResync_completes hruns (stepResync_snapshot hphase hmode) ⟨⟨rfl, fun k hk => ?_⟩, ?_⟩
  · exact (smFind_smUpd_ne _ _ hk).trans ((smFind_smUpd_ne _ _ hk).trans (smFind_began_ne s hk))
  · have hfin := finishRaw_find stOk 0 (snapshotOf (began s cid) (par c 0x10 1)) (smFind_began_same hruns) (fin_of_runs (c := c) hruns)
    rw [← bind_fin_waitState] at hfin
    exact congrArg (Option.map recordOf) hfin

theorem queueResync_rebinds {s : State} {cid : Nat} {c : Cmd} (hruns : Runs s 0x0103 cid c) (hphase : c.phase = .admitted)
    (hmode : par c 0x11 1 = 2) (hstate : (queueOf s.dev (par c 0x10 1)).state ≠ .disabled)
    (hretained : retained (queueOf s.dev (par c 0x10 1)) (word c.hdr 0x28) = true) (hwaiting : (queueOf s.dev (par c 0x10 1)).waiting = [])
    (hbme : s.dev.host.bme = false) : Completes (.queueResync cid) s (fun t => ∃ u : State, t = followed u ∧
      (∃ replay state, queueOf u.dev (par c 0x10 1) =
        { rebound (queueOf s.dev (par c 0x10 1)) c cid (snapshotOf (began s cid) (par c 0x10 1)) with replay := replay, state := state }) ∧
      ∀ k, k ≠ par c 0x10 1 → queueOf u.dev k = queueOf s.dev k) := by
  generalize hrebound : rebound (queueOf s.dev (par c 0x10 1)) c cid (snapshotOf (began s cid) (par c 0x10 1)) = v
  have hbody := stepResync_rebind (d := began s cid) (cid := cid) hphase hmode hstate hretained
  rw [queueOf_began, hrebound] at hbody
  have hset : queueOf (setQueue (began s cid) (par c 0x10 1) v) (par c 0x10 1) = v := queueOf_setQueue_same ..
  have hnone : (queueOf (setQueue (began s cid) (par c 0x10 1) v) (par c 0x10 1)).waiting = [] := by
    rw [hset, ← hrebound]
    exact hwaiting
  have hkept := ringKept_drainQueue (q := par c 0x10 1) (d := setQueue (began s cid) (par c 0x10 1) v) hbme hnone
  generalize drainQueue (setQueue (began s cid) (par c 0x10 1) v) (par c 0x10 1) = e at hbody hkept
  obtain ⟨replay, state, hsame⟩ := hkept.same
  rw [hset] at hsame
  exact queueResync_completes hruns hbody ⟨⟨replay, state, hsame⟩, fun k hk =>
    (hkept.others k hk).trans (queueOf_setQueue_ne (began s cid) v hk)⟩

/-! ### QUEUE.CREATE -/

theorem queueCreate_makes {s : State} {cid : Nat} {c : Cmd} (hruns : Runs s 0x0101 cid c) (hready : reserveReady s.dev c = true) :
    Completes (.queueCreate cid) s (fun t => t = { s with dev := { s.dev with cmds := t.dev.cmds, queues := t.dev.queues } } ∧
      endsOk t cid ∧ ∀ k, queueOf t.dev k = if k = par c 0x20 1 then newQueue c else queueOf s.dev k) := by
  have hfind : smFind (useReserve (began s cid) cid).cmds cid = some { c with phase := .running, frames := [], pool := [], charged := 0 } :=
    (smFind_smUpd_same ..).trans (congrArg _ (smFind_began_same hruns))
  refine (completes_finish (d := { s.dev with
    cmds := (useReserve (began s cid) cid).cmds, queues := (setQueue s.dev (par c 0x20 1) (newQueue c)).queues }) rfl hruns
    (if_pos hready) (fun k hk => (smFind_smUpd_ne _ _ hk).trans (smFind_began_ne s hk)) hfind (fin_of_runs (c := c) hruns)).imp ?_
  rintro t ⟨hframe, -, hfin, -⟩
  refine ⟨by rw [hframe], ⟨_, hfin⟩, fun k => ?_⟩
  rw [hframe]
  exact queueOf_setQueue s.dev (par c 0x20 1) k (newQueue c)

/-- Settles O30: each command's step by the state of its target. -/
theorem queuePairsAreMadeDrainedAndRebound : Obligations.QueuePairsAreMadeDrainedAndRebound := by
  intro s cid c target v
  refine ⟨queueCreate_makes, fun hruns htarget hstate hhold hwaiting hreplay hcmds => ?_, fun hruns hphase hactive hheld => ?_,
    fun k x hruns hphase hstate htarget hx hqueue hunbegun hnone hstep => ?_, fun hruns hphase => ⟨fun hmode => ?_,
    fun hmode hstate hretained hwaiting hbme => ?_⟩⟩
  · exact queueDestroy_disables hruns htarget hstate hhold hwaiting hreplay hcmds
  · exact queueDestroy_refused hruns hphase hactive hheld
  · exact queueDestroy_cancels hruns hphase hstate htarget hx hqueue hunbegun hnone hstep
  · exact queueResync_snapshot hruns hphase hmode
  · refine (queueResync_rebinds hruns hphase hmode hstate hretained hwaiting hbme).imp ?_
    rintro t ⟨u, hu, ⟨replay, state, hqueue⟩, hothers⟩
    exact ⟨u, hu, by rw [hqueue]; rfl, by rw [hqueue]; rfl, by rw [hqueue]; rfl, by rw [hqueue]; rfl, by rw [hqueue]; rfl, hothers⟩

end Sys2Proof.Machine
end

section
/-! PROOF. Configuration: CFG.LOAD and what its final record brings into force, CFG.DIGEST, PART.INFO and ATTEST.REPORT (02 R50; 16 R590 to
R593, R597, R600). -/

namespace Sys2Proof.Machine

/-! ### What the end of a transfer leaves as it is -/

/-- The configuration, and whether command cid is in flight. -/
def configView (cid : Nat) (d : Dev) : SMap (List Byte) × Nat × Option (Nat × Nat × Nat × List Byte) × Bool :=
  (d.tables, d.configGen, d.loading, (smFind d.cmds cid).isSome)

theorem configView_of_beside (cid : Nat) {d e : Dev} (h : beside e = beside d) : configView cid e = configView cid d :=
  show configView cid (beside e) = configView cid (beside d) by rw [h]

/-- A change of a command keeps every command in flight. -/
theorem configView_modCmd (cid : Nat) (d : Dev) (k : Nat) (f : Cmd → Cmd) : configView cid (modCmd d k f) = configView cid d := by
  simp only [configView, modCmd_tables, modCmd_configGen, modCmd_loading, modCmd_cmds, isSome_smUpd]

theorem configView_finishCmd (cid : Nat) (d : Dev) (k st dt : Nat) (r : List (Nat × Nat × Nat)) (o : Option (List Byte)) :
    configView cid (finishCmd d k st dt r o) = configView cid d := configView_modCmd cid d k _

/-- The device once a launch has stopped at a fault; the command that it serves, if any, has not ended. -/
def launchStopped (d : Dev) (k : Nat) (z : Launch) (f : PFault) : Dev :=
  let res := resumable f.code
  let d1 := if res then d else (launchEngines z).foldl (fun d i => cancelLines d z.ctx i (some k)) d
  let d2 := (launchEngines z).foldl (fun d i => modE d z.ctx i (fun e =>
    { e with seq := if e.seq = .running then .stopped else e.seq, stallFrom := none })) d1
  let d3 := if z.state = .running then chargeTime (releaseEngines d2 k) z else d2
  if res then d3 else clearTransient d3 z

@[simp] theorem beside_launchStopped (d : Dev) (k : Nat) (z : Launch) (f : PFault) : beside (launchStopped d k z f) = beside d := by
  simp only [launchStopped, apply_ite beside, beside_clearTransient, beside_chargeTime, beside_releaseEngines, beside_modAllE,
    beside_cancelAllLines, ite_self]

theorem configView_stopForFault (cid : Nat) (d : Dev) (k : Nat) (z : Launch) (f : PFault) :
    configView cid (stopForFault d k z f) = configView cid d := by
  rw [← configView_of_beside cid (beside_launchStopped d k z f)]
  unfold stopForFault
  simp only
  split
  · exact (configView_finishCmd ..).trans (configView_of_beside cid rfl)
  · exact configView_of_beside cid rfl

/-- The device once a later fault of a launch that has stopped has been counted. -/
def laterCounted (d : Dev) (k : Nat) (z : Launch) (f : PFault) : Dev :=
  let d1 := tallyCount d 0x0003 z.ctx 1 srcJenorneb
  let mine : Bool := match smFind d.ctxs z.ctx with | some x => x.stopLaunch == some k | none => false
  if mine && !resumable f.code then
    modCtx (clearTransient ((launchEngines z).foldl (fun d i => cancelLines d z.ctx i none) d1) z) z.ctx
      (fun x => { x with stopped := false, stopLaunch := none, imgLaunch := [] })
  else d1

theorem beside_laterCounted (d : Dev) (k : Nat) (z : Launch) (f : PFault) : beside (laterCounted d k z f) = beside d := by
  simp only [laterCounted, apply_ite beside, beside_modCtx, beside_clearTransient, beside_cancelAllLines, beside_tallyCount, ite_self]

/-- A later fault is counted, and at most the record of the launch's command tells of it. -/
theorem configView_laterFault (cid : Nat) (d : Dev) (k : Nat) (z : Launch) (g f : PFault) :
    configView cid (laterFault d k z g f) = configView cid d := by
  rw [← configView_of_beside cid (beside_laterCounted d k z f)]
  unfold laterFault
  simp only
  split
  · split
    · exact (configView_modCmd cid _ _ _).trans (configView_of_beside cid rfl)
    · exact configView_of_beside cid rfl
  · rfl

theorem configView_endLaunchFault (cid : Nat) (d : Dev) (k : Nat) (f : PFault) : configView cid (endLaunchFault d k f) = configView cid d := by
  unfold endLaunchFault
  split
  · rfl
  · split
    · exact configView_stopForFault cid d k _ f
    · split
      · exact configView_laterFault cid d k _ _ f
      · rfl

@[simp] theorem beside_dropLater (d : Dev) (id : Nat) (x : Xfer) : beside (dropLater d id x) = beside d :=
  beside_foldl (f := killTag) (fun _ _ => rfl) _ d

theorem configView_xferFault (cid : Nat) (d : Dev) (id : Nat) (x : Xfer) (code va : Nat) :
    configView cid (xferFault d id x code va) = configView cid d :=
  (configView_endLaunchFault cid _ _ _).trans (configView_of_beside cid (beside_dropLater d id x))

theorem beside_failXfer (d : Dev) (id : Nat) (x : Xfer) (code : Nat) (again : Bool) : beside (failXfer d id x code again) = beside d := by
  unfold failXfer
  split
  · split <;> rfl
  · rfl

theorem configView_failXferReq (cid : Nat) (d : Dev) (id code : Nat) : configView cid (failXferReq d id code) = configView cid d := by
  unfold failXferReq
  split
  · rfl
  next x _ =>
    have hkilled : configView cid (x.tags.foldl killTag d) = configView cid d :=
      configView_of_beside cid (beside_foldl (f := killTag) (fun _ _ => rfl) x.tags d)
    rw [← hkilled]
    simp only
    split
    · exact configView_of_beside cid (beside_failXfer ..)
    · exact configView_xferFault ..
    · exact configView_xferFault ..
    · rfl

theorem configView_failRequest (cid : Nat) (d : Dev) (tag code : Nat) : configView cid (failRequest d tag code) = configView cid d := by
  unfold failRequest
  split
  · rfl
  · split
    · rfl
    · simp only
      split
      · exact configView_failXferReq ..
      · exact configView_modCmd ..
      · rfl

theorem configView_foldl (cid : Nat) {β : Type} {f : Dev → β → Dev} (h : ∀ d x, configView cid (f d x) = configView cid d) (l : List β)
    (d : Dev) : configView cid (l.foldl f d) = configView cid d := foldl_keep (configView cid) f h l d

theorem configView_losePackets (cid : Nat) (d : Dev) (l : List Packet) : configView cid (losePackets d l) = configView cid d := by
  refine configView_foldl cid (fun d p => ?_) l d
  split
  · exact configView_failRequest ..
  · rfl

theorem configView_portDown (cid : Nat) (d : Dev) (h : Nat) : configView cid (portDown d h) = configView cid d :=
  configView_losePackets cid _ _

theorem configView_refitPorts (cid : Nat) (old d : Dev) : configView cid (refitPorts old d) = configView cid d := by
  refine configView_foldl cid (fun d h => ?_) _ d
  simp only
  split
  · exact configView_portDown cid d h
  · rfl

theorem configView_applyEdges (cid : Nat) (d : Dev) (t : List Byte) : configView cid (applyEdges d t) = configView cid d := by
  refine configView_foldl cid (fun d q => ?_) _ d
  simp only
  split <;> rfl

/-! ### CFG.LOAD -/

/-- CONFIG_GEN once a device holds other tables: a change of what is in force is counted. -/
def genAfter (d : Dev) (tables : SMap (List Byte)) : Nat :=
  if tablesInForce { d with tables := tables } = tablesInForce d then d.configGen else d.configGen + 1

/-- A table loaded replaces the one that its key names, and a change of what is in force is counted. -/
theorem configView_loadTable (cid : Nat) (d : Dev) (kind inst : Nat) {t : List Byte} (ht : t ≠ []) : configView cid (loadTable d kind inst t) =
    (smPut d.tables (256 * kind + inst) t, genAfter d (smPut d.tables (256 * kind + inst) t), d.loading, (smFind d.cmds cid).isSome) := by
  unfold loadTable genAfter
  simp only [List.isEmpty_eq_false_iff.mpr ht, Bool.false_eq_true, if_false]
  split
  · rfl
  · split
    · rfl
    · exact configView_refitPorts ..
    · exact configView_refitPorts ..
    · rfl
    · exact configView_applyEdges ..
    · rfl

/-- A table that has been checked takes effect once the final record of its CFG.LOAD has been placed. -/
theorem settleLoad_of_ended {d : Dev} {cid kind inst : Nat} {t : List Byte} (hloading : d.loading = some (cid, kind, inst, t))
    (hgone : smFind d.cmds cid = none) (hctx : kind = 0x0A → (smFind d.ctxs inst).isSome = true) :
    settleLoad d = loadTable { d with loading := none } kind inst t := by
  have hkept : ¬(kind = 0x0A ∧ (smFind d.ctxs inst).isNone = true) := fun h => by
    rw [Option.isNone_eq_false_iff.mpr (hctx h.1)] at h
    exact Bool.false_ne_true h.2
  simp only [settleLoad, hloading, hgone, Option.isSome_none, Bool.false_eq_true, if_false, if_neg hkept]

theorem lateStatus_frame (d : Dev) (cid : Nat) (c : Cmd) (f : Done) :
    ∃ st det tally, lateStatus d cid c f = (st, det, { d with tally := tally }) := by
  rw [lateStatus_eq]
  simp only
  split
  · split
    · exact ⟨_, _, _, rfl⟩
    · split
      · exact ⟨_, _, d.tally, rfl⟩
      · exact ⟨_, _, _, rfl⟩
  · exact ⟨_, _, d.tally, rfl⟩

/-- With the final record of a CFG.LOAD its table is in force. -/
theorem commandComplete_loads {s : State} {cid : Nat} {c : Cmd} {f : Done} {tb : List Byte}
    (hloading : s.dev.loading = some (cid, clKind c, clInst c, tb)) (hc : smFind s.dev.cmds cid = some c) (hf : c.fin = some f)
    (hroom : CanProduce s c.queue) (htb : tb ≠ []) (hctx : clKind c = 0x0A → (smFind s.dev.ctxs (clInst c)).isSome = true) :
    Completes (.commandComplete cid) s (fun t => ∃ u : State, t = { u with dev := settleColls (settleSteps (settleReqs u.dev)) } ∧
      configView cid u.dev = (smPut s.dev.tables (256 * clKind c + clInst c) tb,
        genAfter s.dev (smPut s.dev.tables (256 * clKind c + clInst c) tb), none, false)) := by
  obtain ⟨hstate, hwaiting, hhold⟩ := hroom
  obtain ⟨st, det, tally, hlate⟩ := lateStatus_frame s.dev cid c f
  obtain ⟨⟨queues, host, out, tally', ctxs, hkeys, hframe⟩, -⟩ := completeCmd_frame hc hf hstate hwaiting hhold hlate
  refine ⟨_, rfl, { s with dev := settleLoad (completeCmd s.dev cid) }, rfl, ?_⟩
  have hgone : smFind (smErase s.dev.cmds cid) cid = none := smFind_smErase_same ..
  rw [hframe, settleLoad_of_ended (by exact hloading) (by exact hgone) (fun hk => by rw [hkeys]; exact hctx hk), configView_loadTable _ _ _ _ htb]
  simp only [hgone, Option.isSome_none]
  rfl

/-- A CFG.LOAD from host memory, whose table has been read and passes, ends OK; its table takes effect with its final record. -/
theorem stepCfgLoad_ok {d : Dev} {cid : Nat} {c : Cmd} {tb : List Byte} (hchk : chkCfgLoad d c = .ok ()) (hahead : loadAhead d cid = false)
    (hlen : clLen c ≠ 0) (hhost : bit (clSrc c) 63 = true) (hread : wantDone d (.cmd cid) = some tb)
    (htable : chkTable (dropWant d (.cmd cid)) (clKind c) (clInst c) tb = .ok ()) : ∃ result, stepCfgLoad d cid c =
      some (finishCmd { dropWant d (.cmd cid) with loading := some (cid, clKind c, clInst c, tb) } cid stOk 0 result none) := by
  have hbytes : cfgBytes d cid c = (some tb, dropWant d (.cmd cid)) := by
    simp only [cfgBytes, if_neg hlen, hhost, if_true, hread]
  exact ⟨_, by simp only [stepCfgLoad, hchk, hahead, hbytes, htable, Bool.false_eq_true, if_false]; rfl⟩

/-! ### CFG.DIGEST, PART.INFO and ATTEST.REPORT -/

theorem stepCfgDigest_ok {d : Dev} {cid : Nat} {c : Cmd} (hchk : chkCfgDigest c = .ok ()) : stepCfgDigest d cid c =
    some (finishCmd d cid stOk 0 [(0x0C, 8, digest8 d), (0x14, 4, d.configGen)] (some (digestList d))) := by
  rw [stepCfgDigest, hchk]

theorem stepPartInfo_ok {nv : NonVol} {d : Dev} {cid : Nat} {c : Cmd} (hchk : chkPartInfo c = .ok ()) : ∃ result,
    stepPartInfo nv d cid c = some (finishCmd d cid stOk 0 result (some (partRecord nv d))) :=
  ⟨_, by rw [stepPartInfo, hchk]⟩

/-- The 64 free bytes that stand for the signature of a report. -/
def signature (d : Dev) : List Byte := (span 0 64).map (Config.freeByte d.freeCtr)

theorem length_signature (d : Dev) : (signature d).length = 64 := by simp [signature, span]

theorem stepAttest_ok {nv : NonVol} {d : Dev} {cid : Nat} {c : Cmd} (hchk : chkAttest c = .ok ()) : stepAttest nv d cid c =
    some (finishCmd { d with freeCtr := d.freeCtr + 1 } cid stOk 0
      [(0x0C, 4, (reportBody nv d c).length + 64), (0x10, 4, d.configGen)] (some (reportBody nv d c ++ signature d))) := by
  rw [stepAttest, hchk]
  rfl

/-- Settles O32: the load of a table, what its final record brings into force, and the three reports. -/
theorem configurationLoadsAndReports : Obligations.ConfigurationLoadsAndReports := by
  intro s cid c key
  refine ⟨fun tb hruns hchk hahead hlen htb hhost hread htable => ?_, fun f tb hloading hc hf hroom htb hctx => ?_, fun hruns hchk => ?_,
    fun hruns hchk => ?_, fun hruns hchk => ?_⟩
  · obtain ⟨result, hbody⟩ := stepCfgLoad_ok hchk hahead hlen hhost hread htable
    refine (completes_finish_kept rfl hruns hbody rfl).imp ?_
    rintro t ⟨hframe, -, hfin, -⟩
    exact ⟨by rw [hframe]; rfl, _, hfin⟩
  · refine (commandComplete_loads hloading hc hf hroom htb hctx).imp ?_
    rintro t ⟨u, ht, hview⟩
    simp only [configView, Prod.mk.injEq, Option.isSome_eq_false_iff, Option.isNone_iff_eq_none] at hview
    obtain ⟨htables, hgen, hnone, hgone⟩ := hview
    exact ⟨u, ht, hgone, hnone, fun k => by rw [htables]; exact smFind_smPut .., hgen⟩
  · refine (completes_finish_only rfl hruns (stepCfgDigest_ok hchk)).imp ?_
    exact fun t ⟨honly, hfin, hslot⟩ => ⟨honly, ⟨_, hfin⟩, hslot⟩
  · obtain ⟨result, hbody⟩ := stepPartInfo_ok (nv := s.nv) (d := began s cid) (cid := cid) hchk
    refine (completes_finish_only rfl hruns hbody).imp ?_
    exact fun t ⟨honly, hfin, hslot⟩ => ⟨honly, ⟨_, hfin⟩, hslot⟩
  · refine (completes_finish_kept rfl hruns (stepAttest_ok hchk) rfl).imp ?_
    rintro t ⟨hframe, -, hfin, hslot⟩
    exact ⟨⟨_, hfin⟩, by rw [hframe]; rfl, _, length_signature _, hslot⟩

end Sys2Proof.Machine
end

section
/-! PROOF. Tiles, PNF bits and entries read after an update, and what an instruction of the press leaves of its engine
(04 R133, R134, R149; 03 R104). -/

namespace Sys2Proof.Machine

/-! ### Reading after an update -/

theorem smGet_smSet {α : Type} [DecidableEq α] (x : α) (m : SMap α) (k j : Nat) (v : α) :
    smGet x (smSet x m k v) j = if j = k then v else smGet x m j := by
  by_cases h : j = k
  · rw [if_pos h, h, smGet_smSet_same]
  · rw [if_neg h, smGet_smSet_ne x m v h]

theorem tileOf_setTile (v : EngCtx) (n m : Nat) (t : Tile) : tileOf (setTile v n t) m = if m = n then t else tileOf v m :=
  smGet_smSet ..

@[simp] theorem tileOf_setPnf (v : EngCtx) (n m : Nat) (b : Bool) : tileOf (setPnf v n b) m = tileOf v m := rfl

@[simp] theorem tileOf_addPstat (v : EngCtx) (k m : Nat) : tileOf (addPstat v k) m = tileOf v m := rfl

@[simp] theorem tileOf_afterSeq (c : Ic) (v : EngCtx) (m : Nat) : tileOf (afterSeq c v) m = tileOf v m := rfl

/-- A tile's PNF bit reads as set once it is set. -/
theorem setPnf_true_bit (v : EngCtx) (n : Nat) :
    (smGet 0#32 (setPnf v n true).pnf (n / 32)).getLsbD (n % 32) = true := by
  have hlt : n % 32 < 32 := Nat.mod_lt _ (by omega)
  simp [setPnf, smMod, hlt]

/-- An entry reads as before once another is written. -/
theorem setEntry_ne (m : SMap (BitVec 64)) {k j : Nat} (x : Entry) (h : j ≠ k) :
    smGet 0#64 (setEntry m k x) j = smGet 0#64 m j := smGet_smSet_ne _ _ _ h

/-- Writing a list of entries leaves an entry that it does not name. -/
theorem foldl_setEntry_ne (out : List (Nat × Entry)) (m : SMap (BitVec 64)) {j : Nat} (h : ∀ p ∈ out, j ≠ p.1) :
    smGet 0#64 (out.foldl (fun m p => setEntry m p.1 p.2) m) j = smGet 0#64 m j := by
  induction out generalizing m with
  | nil => rfl
  | cons p out ih =>
    rw [List.foldl_cons, ih _ fun q hq => h q (List.mem_cons_of_mem _ hq), setEntry_ne _ _ (h p List.mem_cons_self)]

/-! ### Noting a non-finite tile -/

/-- The engine once a tile's PNF bit has been set, where nf holds. -/
def notePnf (v : EngCtx) (n : Nat) (nf : Bool) : EngCtx := if nf then setPnf v n true else v

theorem notePnf_frame (v : EngCtx) (n : Nat) (nf : Bool) : notePnf v n nf = { v with pnf := (notePnf v n nf).pnf } := by
  cases nf <;> rfl

@[simp] theorem tileOf_notePnf (v : EngCtx) (n m : Nat) (nf : Bool) : tileOf (notePnf v n nf) m = tileOf v m := by
  rw [notePnf_frame]
  rfl

/-! ### What the press may change of its engine -/

/-- Between v and w an engine has changed nothing but its tiles, PNF, PSTAT and AFLAGS. -/
def PressOnly (v w : EngCtx) : Prop := w = { v with tiles := w.tiles, pnf := w.pnf, pstat := w.pstat, aflags := w.aflags }

theorem pressOnly_setTile (v : EngCtx) (n : Nat) (t : Tile) : PressOnly v (setTile v n t) := rfl

theorem pressOnly_setPnf (v : EngCtx) (n : Nat) (b : Bool) : PressOnly v (setPnf v n b) := rfl

theorem pressOnly_notePnf (v : EngCtx) (n : Nat) (nf : Bool) : PressOnly v (notePnf v n nf) := by
  cases nf <;> rfl

theorem pressOnly_addPstat (v : EngCtx) (k : Nat) : PressOnly v (addPstat v k) := rfl

theorem PressOnly.trans {u v w : EngCtx} (huv : PressOnly u v) (hvw : PressOnly v w) : PressOnly u w := by
  unfold PressOnly at *
  rw [hvw, huv]

theorem PressOnly.ite {p : Prop} [Decidable p] {u v w : EngCtx} (hv : PressOnly u v) (hw : PressOnly u w) :
    PressOnly u (if p then v else w) := by
  split
  · exact hv
  · exact hw

/-- Following the next instruction in sequence touches none of what the press may change. -/
theorem PressOnly.afterSeq {v w : EngCtx} (c : Ic) (h : PressOnly v w) : PressOnly (afterSeq c v) (afterSeq c w) := by
  unfold PressOnly at h
  rw [h]
  rfl

/-- An instruction whose own effect changes what its engine holds and raises flags. -/
theorem issue_engine_flags {s : State} {op e n : Nat} {c : Ic} {f : EngCtx → EngCtx} {fl : Word} {body : Dev → Ic → Ex Nx}
    (h : AtIns s e op n c) (hk : opcodeKnown op = true)
    (hb : body s.dev c = nextIns c (addAflags (modE s.dev c.ctx c.idx f) c.ctx c.idx fl)) :
    ∃ t, onDev s (issue op e body) = .next t ∧ OnlyEngine c s t
      ∧ engOf t c = afterSeq c { f (engOf s c) with aflags := (f (engOf s c)).aflags ||| fl } := by
  obtain ⟨t, hnext, hdev, hothers, heng⟩ := issue_seq h hk hb
  refine ⟨t, hnext, ⟨hdev, fun k hne => ?_⟩, ?_⟩
  · rw [hothers k hne, addAflags, eng_modE_ne _ _ _ _ hne, eng_modE_ne _ _ _ _ hne]
  · rw [heng, addAflags, getE_modE_same, getE_modE_same]
    rfl

/-- An instruction of the press whose own effect changes tiles, PNF and PSTAT of its engine and raises flags. -/
theorem issue_press {s : State} {op e n : Nat} {c : Ic} {f : EngCtx → EngCtx} {fl : Word} {body : Dev → Ic → Ex Nx}
    (h : AtIns s e op n c) (hk : opcodeKnown op = true) (hf : PressOnly (engOf s c) (f (engOf s c)))
    (hb : body s.dev c = nextIns c (addAflags (modE s.dev c.ctx c.idx f) c.ctx c.idx fl)) :
    ∃ t, onDev s (issue op e body) = .next t ∧ OnlyEngine c s t
      ∧ (∀ m, tileOf (engOf t c) m = tileOf (f (engOf s c)) m) ∧ PressOnly (afterSeq c (engOf s c)) (engOf t c) := by
  obtain ⟨t, hnext, honly, heng⟩ := issue_engine_flags h hk hb
  refine ⟨t, hnext, honly, fun m => by rw [heng]; rfl, ?_⟩
  have hflags : PressOnly (f (engOf s c)) { f (engOf s c) with aflags := (f (engOf s c)).aflags ||| fl } := rfl
  rw [heng]
  exact (hf.trans hflags).afterSeq c

end Sys2Proof.Machine
end


section
/-! PROOF. What a unit's write of the basket leaves in its engine: its dirty ranges, and the entries that lines note of their INDEX
lists (06 R188, R189, R207; log 7). -/

namespace Sys2Proof.Machine

/-! ### Lines that note list entries -/

theorem smFind_map {α β : Type} (f : α → β) (m : SMap α) (k : Nat) :
    smFind (m.map fun p => (p.1, f p.2)) k = (smFind m k).map f := by
  induction m with
  | nil => rfl
  | cons p m ih =>
    simp only [List.map_cons, smFind, ih]
    split <;> rfl

/-- A map whose unlisted keys read as d reads through f where f keeps d. -/
theorem smGet_map {α : Type} {d : α} {f : α → α} (hf : f d = d) (m : SMap α) (k : Nat) :
    smGet d (m.map fun p => (p.1, f p.2)) k = f (smGet d m k) := by
  unfold smGet
  rw [smFind_map]
  cases smFind m k with
  | none => exact hf.symm
  | some v => rfl

/-- Noting the replaced entries of its list changes nothing else of a line. -/
theorem noteOlds_frame (old : Mem) (base off n : Nat) (l : Line) :
    noteOlds old base off n l = { l with olds := (noteOlds old base off n l).olds } := by
  unfold noteOlds
  split <;> rfl

/-- A line that stands in its reset state notes nothing. -/
theorem noteOlds_reset (old : Mem) (base off n : Nat) : noteOlds old base off n {} = {} := rfl

/-- The lines of an engine once they have noted the entries that a write of n bytes at off replaces. -/
def notedLines (d : Dev) (ctx i off n : Nat) (old : Mem) : SMap Line :=
  if (getE d ctx i).lines.any (fun p => listRuns p.2) then
    (getE d ctx i).lines.map fun p => (p.1, noteOlds old (shareBase d ctx i) off n p.2)
  else (getE d ctx i).lines

theorem noteLists_lines (d : Dev) (ctx i off n : Nat) (old : Mem) :
    (getE (noteLists d ctx i off n old) ctx i).lines = notedLines d ctx i off n old := by
  unfold noteLists notedLines
  split
  · rw [getE_modE_same]
  · rfl

theorem basketWrite_lines (d : Dev) (ctx i : Nat) (who : BUnit) (off : Nat) (bs : List Byte) :
    (getE (basketWrite d ctx i who off bs) ctx i).lines = notedLines d ctx i off bs.length d.mem.baskets := by
  unfold basketWrite
  dsimp only
  split
  · exact noteLists_lines ..
  · rw [getE_modE_same]
    exact noteLists_lines ..

/-- Lines that have noted list entries are as they were but for what they noted. -/
theorem linesNote_of_notedLines {s t : State} {ctx i off n : Nat} {old : Mem}
    (h : (getE t.dev ctx i).lines = notedLines s.dev ctx i off n old) : LinesNote s t ctx i := by
  refine ⟨fun m => ?_, fun hnone => ?_⟩
  · unfold lineOf
    rw [h, notedLines]
    split
    · rw [smGet_map (noteOlds_reset ..)]
      exact noteOlds_frame ..
    · rfl
  · rw [h, notedLines, hnone, if_neg Bool.false_ne_true]

/-! ### A write of the basket -/

/-- A write leaves what the engine holds as it was, but for its dirty ranges and what its lines note of their lists. -/
theorem getE_basketWrite (d : Dev) (ctx i : Nat) (who : BUnit) (off : Nat) (bs : List Byte) :
    getE (basketWrite d ctx i who off bs) ctx i =
      { getE d ctx i with dirty := (getE (basketWrite d ctx i who off bs) ctx i).dirty,
                          lines := (getE (basketWrite d ctx i who off bs) ctx i).lines } := by
  unfold basketWrite
  dsimp only
  split
  · rw [getE_noteLists]
    rfl
  · rw [getE_modE_same, getE_noteLists]
    rfl

/-- An instruction whose own effect is to write bytes of the basket that have been handed over. -/
theorem issue_store {s : State} {op e n : Nat} {c : Ic} {who : BUnit} {off : Nat} {bs : List Byte} {body : Dev → Ic → Ex Nx}
    (h : AtIns s e op n c) (hk : opcodeKnown op = true) (hclean : HandedOver s c.ctx c.idx who off (off + bs.length))
    (hb : body s.dev c = nextIns c (basketWrite s.dev c.ctx c.idx who off bs)) :
    ∃ t, onDev s (issue op e body) = .next t ∧ OnlyEngineAndBasket c s t
      ∧ engOf t c = { afterSeq c (engOf s c) with dirty := (engOf t c).dirty, lines := (engOf t c).lines }
      ∧ LinesNote s t c.ctx c.idx ∧ t.dev.mem.baskets = memWrite s.dev.mem.baskets (shareAt s c.ctx c.idx off) bs := by
  obtain ⟨hbytes, hfree⟩ := basketWrite_clean hclean
  obtain ⟨t, hnext, hdev, hothers, heng⟩ := issue_seq h hk hb
  have hbaskets : t.dev.mem.baskets = memWrite s.dev.mem.baskets (shareAt s c.ctx c.idx off) bs := by rw [hdev, ← hbytes]
  have hlines : (engOf t c).lines = notedLines s.dev c.ctx c.idx off bs.length s.dev.mem.baskets := by
    rw [heng, ← basketWrite_lines s.dev c.ctx c.idx who]
    rfl
  refine ⟨t, hnext, ⟨?_, fun k hne => ?_⟩, ?_, linesNote_of_notedLines hlines, hbaskets⟩
  · rw [hbaskets, ← hbytes]
    conv_lhs => rw [hdev, basketWrite_only, hfree]
  · rw [hothers k hne, eng_basketWrite_ne _ _ _ _ _ _ hne]
  · rw [heng, getE_basketWrite]
    rfl

end Sys2Proof.Machine
end

section
/-! PROOF. The press registers and tile images: PSET, PSTORE and PLOAD (04 R134, R144). -/

namespace Sys2Proof.Machine

/-- A tile image has 16,448 bytes. -/
theorem tileImage_length (t : Tile) : (tileImage t).length = 16448 := by
  have hent : ((span 0 2048).flatMap fun k => natLe 8 (smGet 0#64 t.ent k).toNat).length = 2048 * 8 := by
    rw [List.length_flatMap]
    simp only [natLe_length, List.map_const', List.sum_replicate_nat, span, List.length_range']
  have htag : ((tagWords t.tag).flatMap (natLe 4)).length = 5 * 4 := by simp [tagWords]
  rw [tileImage, List.length_append, List.length_append, hent, htag, List.length_replicate]

theorem doPset_ok {d : Dev} {c : Ic} (h0 : bits c.w0 23 0 = 0) (h3 : c.w3 = 0) :
    doPset d c = nextIns c (modE d c.ctx c.idx fun v =>
      { v with pctl0 := BitVec.ofNat 32 c.w1 &&& 0xFFFFFF00#32, pctl1 := BitVec.ofNat 32 c.w2 }) := by
  simp only [doPset, h0, h3, bne_self_eq_false, Bool.or_false, failIf_false, ok_bind]

section
variable {s : State} {c : Ic} (h0 : bits c.w0 16 0 = 0) (h1 : bits c.w1 14 0 = 0) (h2 : c.w2 = 0) (h3 : c.w3 = 0)
  (htile : bits c.w0 23 17 < tileCount s.dev c.ctx) (hopen : BasketOpen s c.ctx c.idx (64 * bits c.w1 31 15) 16448)
include h0 h1 h2 h3 htile hopen

theorem doPstore_ok : doPstore s.dev c = nextIns c (basketWrite s.dev c.ctx c.idx .press (64 * bits c.w1 31 15)
    (tileImage (tileOf (engOf s c) (bits c.w0 23 17)))) := by
  simp only [doPstore, h0, h1, h2, h3, decide_eq_false (Nat.not_le.mpr htile), basketOk_open hopen, bne_self_eq_false, Bool.or_false,
    failIf_false, ok_bind, engOf]

/-- PLOAD loads the tile of the image at its offset of the basket. -/
theorem doPload_ok (hclean : HandedOver s c.ctx c.idx .press (64 * bits c.w1 31 15) (64 * bits c.w1 31 15 + 16448)) :
    let x := tileOfImage (memRead s.dev.mem.baskets (shareAt s c.ctx c.idx (64 * bits c.w1 31 15)) 16448)
    doPload s.dev c = nextIns c (modE s.dev c.ctx c.idx fun v =>
      notePnf (setTile v (bits c.w0 23 17) x) (bits c.w0 23 17) x.tag.nf) := by
  simp only [doPload, h0, h1, h2, h3, decide_eq_false (Nat.not_le.mpr htile), basketOk_open hopen, bne_self_eq_false, Bool.or_false,
    failIf_false, ok_bind, basketRead_clean hclean, notePnf]

end

/-- An instruction whose own effect is to load a tile and to note its NF in PNF. -/
theorem issue_loadTile {s : State} {op e n k : Nat} {c : Ic} {x : Tile} {body : Dev → Ic → Ex Nx} (h : AtIns s e op n c)
    (hk : opcodeKnown op = true)
    (hb : body s.dev c = nextIns c (modE s.dev c.ctx c.idx fun v => notePnf (setTile v k x) k x.tag.nf)) :
    ∃ t, onDev s (issue op e body) = .next t ∧ OnlyEngine c s t ∧ WritesTile c s t k x
      ∧ engOf t c = { afterSeq c (engOf s c) with tiles := (engOf t c).tiles, pnf := (engOf t c).pnf }
      ∧ (x.tag.nf = true → (smGet 0#32 (engOf t c).pnf (k / 32)).getLsbD (k % 32) = true)
      ∧ (x.tag.nf = false → (engOf t c).pnf = (engOf s c).pnf) := by
  obtain ⟨t, hnext, honly, heng⟩ := issue_engine h hk hb
  refine ⟨t, hnext, honly, fun m => ?_, ?_, fun hnf => ?_, fun hnf => ?_⟩
  · rw [heng, tileOf_afterSeq, tileOf_notePnf, tileOf_setTile]
  · rw [heng, notePnf_frame]
    rfl
  · rw [heng, hnf]
    exact setPnf_true_bit ..
  · rw [heng, hnf]
    rfl

/-- Settles O16: PSET by its effect on PCTL, PSTORE as a write of the basket by the press, PLOAD as a tile put into its engine. -/
theorem pressRegistersAndTileImagesMove : Obligations.PressRegistersAndTileImagesMove := by
  intro s e n c v tile off
  refine ⟨fun hat h0 h3 => ?_, fun h0 h1 h2 h3 htile hopen hclean => ⟨fun hat => ?_, fun hat => ?_⟩⟩
  · obtain ⟨t, hnext, honly, heng⟩ := issue_engine hat rfl (doPset_ok h0 h3)
    exact ⟨t, hnext, honly, heng⟩
  · have hlen := tileImage_length (tileOf v tile)
    obtain ⟨t, hnext, honly, heng, hnote, hbytes⟩ := issue_store hat rfl (by rwa [hlen]) (doPstore_ok h0 h1 h2 h3 htile hopen)
    refine ⟨t, hnext, honly, heng, hnote, fun k hk => ?_, fun a ha => ?_⟩
    · rw [hbytes, memByte_memWrite_in _ _ _ _ (by rwa [hlen])]
      exact (List.getElem_eq_getD 0#8)
    · rw [hbytes, memByte_memWrite_out _ _ _ _ (by rwa [hlen])]
  · obtain ⟨t, hnext, honly, htiles, heng, hset, hkept⟩ := issue_loadTile hat rfl (doPload_ok h0 h1 h2 h3 htile hopen hclean)
    exact ⟨t, hnext, honly, htiles, heng, fun _ => hset, hkept⟩

end Sys2Proof.Machine
end

section
/-! PROOF. PCOMB: the parent tile of two children of a node (04 R142, R143). -/

namespace Sys2Proof.Machine

/-- The engine once tile td is put as t, tile ts marked as b, and the non-finite sums are counted. -/
def putParent (td ts : Nat) (t b : Tile) (nf : Bool) (bad : Nat) (v : EngCtx) : EngCtx :=
  addPstat (notePnf (if ts = td then setTile v td t else setTile (setTile v td t) ts b) td nf) bad

theorem pressOnly_putParent (td ts : Nat) (t b : Tile) (nf : Bool) (bad : Nat) (v : EngCtx) :
    PressOnly v (putParent td ts t b nf bad v) := by
  have htiles : PressOnly v (if ts = td then setTile v td t else setTile (setTile v td t) ts b) :=
    .ite (pressOnly_setTile ..) ((pressOnly_setTile ..).trans (pressOnly_setTile ..))
  exact (htiles.trans (pressOnly_notePnf ..)).trans (pressOnly_addPstat ..)

/-- The parent stands in td, whichever tile is read there otherwise; ts is marked where it is another tile. -/
theorem tileOf_putParent (td ts : Nat) (t b : Tile) (nf : Bool) (bad : Nat) (v : EngCtx) (m : Nat) :
    tileOf (putParent td ts t b nf bad v) m = if m = td then t else if m = ts then b else tileOf v m := by
  unfold putParent
  rw [tileOf_addPstat, tileOf_notePnf]
  by_cases hts : ts = td
  · rw [if_pos hts, tileOf_setTile, hts]
    split <;> rfl
  · rw [if_neg hts, tileOf_setTile, tileOf_setTile]
    by_cases hm : m = td
    · rw [if_pos hm, if_pos hm, if_neg (by omega)]
    · rw [if_neg hm, if_neg hm]

/-- The combined entries, last first, as a tile lists them. -/
def listEntries (out : List (Nat × Entry)) : SMap (BitVec 64) :=
  out.foldl (fun m p => if packEntry p.2 = 0#64 then m else (p.1, packEntry p.2) :: m) []

/-- PCOMB of tiles a and b, of which l is the left one and r the right one, puts their parent. -/
theorem doPcomb_ok {d : Dev} {c : Ic} {a b l r : Tile} {out : List (Nat × Entry)} {bad : Nat} {fl : Word}
    (h0 : bits c.w0 9 0 = 0) (h1 : c.w1 = 0) (h2 : c.w2 = 0) (h3 : c.w3 = 0)
    (htd : bits c.w0 23 17 < tileCount d c.ctx) (hts : bits c.w0 16 10 < tileCount d c.ctx)
    (ha : tileOf (getE d c.ctx c.idx) (bits c.w0 23 17) = a) (hb : tileOf (getE d c.ctx c.idx) (bits c.w0 16 10) = b)
    (hgood : combBad a.tag b.tag = false) (hsides : (if a.tag.lo < b.tag.lo then (a, b) else (b, a)) = (l, r))
    (hrun : runFlags (combTiles (subnOf d c.ctx) l r) = ((out, bad), fl)) :
    doPcomb d c = nextIns c (addAflags (modE d c.ctx c.idx (putParent (bits c.w0 23 17) (bits c.w0 16 10)
      { ent := listEntries out, tag := { l.tag with hi := r.tag.hi, nf := l.tag.nf || r.tag.nf } }
      { b with tag := { b.tag with valid := false } } (out.any fun p => !isFinite32 p.2.s) bad)) c.ctx c.idx fl) := by
  unfold doPcomb
  -- the kernel must not evaluate the loop over 2,048 entries
  obtain ⟨combine, hcombine⟩ : ∃ combine, combine = combTiles := ⟨_, rfl⟩
  rw [← hcombine] at hrun ⊢
  simp only [h0, h1, h2, h3, decide_eq_false (Nat.not_le.mpr htd), decide_eq_false (Nat.not_le.mpr hts), ha, hb, hgood, hsides,
    hrun, bne_self_eq_false, Bool.or_false, failIf_false, ok_bind]
  rfl

/-- Settles O17: the parent and the mark on TILE_S are all that PCOMB puts into the tiles of its engine. -/
theorem pcombFormsTheParentTile : Obligations.PcombFormsTheParentTile := by
  intro s e n c v td ts a b l r out hat h0 h1 h2 h3 htd hts hgood
  have hsides : (if a.tag.lo < b.tag.lo then (a, b) else (b, a)) = (l, r) := by
    simp only [l, r]
    split <;> rfl
  obtain ⟨⟨⟨out', bad⟩, fl⟩, hrun⟩ : ∃ run, runFlags (combTiles (subnOf s.dev c.ctx) l r) = run := ⟨_, rfl⟩
  have hout : out = out' := congrArg (fun run => run.1.1) hrun
  clear_value out
  subst hout
  obtain ⟨t, hnext, honly, htiles, heng⟩ :=
    issue_press hat rfl (pressOnly_putParent ..) (doPcomb_ok h0 h1 h2 h3 htd hts rfl rfl hgood hsides hrun)
  refine ⟨t, hnext, honly, ?_, ?_, fun hne => ?_, fun m hmd hms => ?_, heng⟩
  · rw [htiles, tileOf_putParent, if_pos rfl]
  · rw [htiles, tileOf_putParent, if_pos rfl]
    rfl
  · rw [htiles, tileOf_putParent, if_neg hne, if_pos rfl]
    rfl
  · rw [htiles, tileOf_putParent, if_neg hmd, if_neg hms]

end Sys2Proof.Machine
end

section
/-! PROOF. Flagged computations: what holds of the value whatever flags stand before it (03 R104). -/

namespace Sys2Proof.Machine

/-- Whatever flags are set, the computation gives a value of which P holds. -/
def Yields {α : Type} (m : FlagM α) (P : α → Prop) : Prop := ∀ f, P (m.run f).1

theorem yields_runFlags {α : Type} {m : FlagM α} {P : α → Prop} (h : Yields m P) : P (runFlags m).1 := h 0#32

theorem yields_any {α : Type} (m : FlagM α) : Yields m fun _ => True := fun _ => trivial

theorem yields_pure {α : Type} {a : α} {P : α → Prop} (h : P a) : Yields (pure a) P := fun _ => h

theorem Yields.bind {α β : Type} {m : FlagM α} {k : α → FlagM β} {P : α → Prop} {Q : β → Prop} (hm : Yields m P)
    (hk : ∀ a, P a → Yields (k a) Q) : Yields (m >>= k) Q :=
  fun f => hk (m.run f).1 (hm f) (m.run f).2

/-- What holds of the start and survives every step holds of the end of a fold. -/
theorem yields_foldlM {α β : Type} {g : β → α → FlagM β} {P : β → Prop} {l : List α} {b : β} (hb : P b)
    (hg : ∀ a ∈ l, ∀ b, P b → Yields (g b a) P) : Yields (l.foldlM g b) P := by
  induction l generalizing b with
  | nil => exact yields_pure hb
  | cons a l ih =>
    rw [List.foldlM_cons]
    exact (hg a List.mem_cons_self b hb).bind fun b' hb' => ih hb' fun a' ha' => hg a' (List.mem_cons_of_mem _ ha')

theorem yields_mapM_length {α β : Type} (g : α → FlagM β) (l : List α) : Yields (l.mapM g) fun r => r.length = l.length := by
  induction l with
  | nil => exact yields_pure rfl
  | cons a l ih =>
    rw [List.mapM_cons]
    exact (yields_any _).bind fun _ _ => ih.bind fun r hr => yields_pure (by rw [List.length_cons, hr, List.length_cons])

end Sys2Proof.Machine
end

section
/-! PROOF. The product of PMUL and FDOT: which entries it computes, and what it leaves of the tile (04 R138, R139, R146, R148;
05 R177). -/

namespace Sys2Proof.Machine

/-! ### The active entries -/

/-- Columns of entries that a product computes: a real and an imaginary one each in complex mode (04 R118). -/
def outCols (m : Mul) : Nat := if m.mode = 3 then 2 * (m.ncols + 1) else m.ncols + 1

/-- Entry k lies in the active rows and columns of a product. -/
def Active (m : Mul) (k : Nat) : Prop := ∃ i j, i ≤ m.mrows ∧ j < outCols m ∧ k = 64 * i + j

/-- An entry outside the active rows or columns is not active: a row holds 64 entries. -/
theorem not_active_of_outside {m : Mul} (hcols : outCols m ≤ 64) {i j : Nat} (hj : j < 64) (hout : m.mrows < i ∨ outCols m ≤ j) :
    ¬ Active m (64 * i + j) := by
  rintro ⟨i', j', hi', hj', heq⟩
  omega

theorem active_append {m : Mul} {out : List (Nat × Entry)} {k : Nat} (x : Entry) (hout : ∀ p ∈ out, Active m p.1) (hk : Active m k) :
    ∀ p ∈ out ++ [(k, x)], Active m p.1 := by
  intro p hp
  rcases List.mem_append.mp hp with hp | hp
  · exact hout p hp
  · rwa [List.mem_singleton.mp hp]

/-- A product computes active entries only, row by row and column by column. -/
theorem product_active (subn : Bool) (m : Mul) (fa fb : Fd) (ab bb bias : List Byte) (t : Tile) (useBias : Bool) :
    Yields (product subn m fa fb ab bb bias t useBias) fun r => ∀ p ∈ r.1, Active m p.1 := by
  unfold product
  refine (yields_any _).bind fun cols _ => (yields_mapM_length _ _).bind fun rows hrows => ?_
  refine yields_foldlM (fun p hp => absurd hp List.not_mem_nil) fun row hrow st hst => yields_foldlM hst fun j hj st hst => ?_
  have hi : row.2 ≤ m.mrows := by
    have hlt := List.snd_lt_of_mem_zipIdx hrow
    simp only [hrows, span, List.length_range'] at hlt
    omega
  have hactive : Active m (64 * row.2 + j) := ⟨row.2, j, hi, by simpa [span, outCols] using hj, rfl⟩
  dsimp only
  split
  · exact (yields_any _).bind fun e0 _ => (yields_any _).bind fun ⟨x, n⟩ _ => yields_pure (active_append x hst hactive)
  · exact (yields_any _).bind fun e0 _ => (yields_any _).bind fun ⟨x, n⟩ _ => yields_pure (active_append x hst hactive)

end Sys2Proof.Machine
end

section
/-! PROOF. PMUL and FDOT on operands they accept: what they put into their engine (04 R137 to R141, R146 to R149; 05 R177). -/

namespace Sys2Proof.Machine

/-! ### The tile of a product -/

/-- The engine once a product has put tile t: INIT clears the tile's PNF bit, a non-finite sum sets it, bad sums are counted. -/
def putProduct (m : Mul) (t : Tile) (nf : Bool) (bad : Nat) (v : EngCtx) : EngCtx :=
  addPstat (setTile (notePnf (if m.init then setPnf v m.tile false else v) m.tile nf) m.tile t) bad

theorem pressOnly_putProduct (m : Mul) (t : Tile) (nf : Bool) (bad : Nat) (v : EngCtx) : PressOnly v (putProduct m t nf bad v) := by
  have hinit : PressOnly v (if m.init then setPnf v m.tile false else v) := .ite (pressOnly_setPnf ..) rfl
  exact ((hinit.trans (pressOnly_notePnf ..)).trans (pressOnly_setTile ..)).trans (pressOnly_addPstat ..)

theorem tileOf_putProduct (m : Mul) (t : Tile) (nf : Bool) (bad : Nat) (v : EngCtx) (q : Nat) :
    tileOf (putProduct m t nf bad v) q = if q = m.tile then t else tileOf v q := by
  rw [putProduct, tileOf_addPstat, tileOf_setTile, tileOf_notePnf]
  split
  · rfl
  · split
    · exact tileOf_setPnf ..
    · rfl

/-- The tag from which a product counts on: that of its chunk with INIT, the tile's own without. -/
def startTag (v : EngCtx) (m : Mul) : Tag :=
  if m.init then
    { lo := m.chunk, hi := m.chunk + 1, nchunk := pctlNchunk v, valid := true, nf := false, mode := m.mode, group := m.group,
      chlog := pctlChlog v, kpos := 0, klast := pctlKlast v }
  else (tileOf v m.tile).tag

theorem startTag_kpos (v : EngCtx) (m : Mul) : (startTag v m).kpos = if m.init then 0 else (tileOf v m.tile).tag.kpos := by
  unfold startTag
  split <;> rfl

/-- The tile once the entries of out have been computed from it. -/
def productTile (v : EngCtx) (m : Mul) (out : List (Nat × Entry)) : Tile :=
  { ent := out.foldl (fun mp p => setEntry mp p.1 p.2) (tileOf v m.tile).ent,
    tag := { startTag v m with
      kpos := (startTag v m).kpos + m.klen, nf := (startTag v m).nf || out.any fun p => !isFinite32 p.2.s } }

theorem productTile_tag (v : EngCtx) (m : Mul) (out : List (Nat × Entry)) : (productTile v m out).tag = { startTag v m with
    kpos := (if m.init then 0 else (tileOf v m.tile).tag.kpos) + m.klen, nf := (productTile v m out).tag.nf } := by
  rw [← startTag_kpos]
  rfl

/-- An entry that is not active stays as it was. -/
theorem entryAt_productTile {v : EngCtx} {m : Mul} {out : List (Nat × Entry)} {k : Nat} (hout : ∀ p ∈ out, Active m p.1)
    (hk : ¬ Active m k) : entryAt (productTile v m out) k = entryAt (tileOf v m.tile) k := by
  have hne : ∀ p ∈ out, k ≠ p.1 := fun p hp heq => hk (by rw [heq]; exact hout p hp)
  exact congrArg unpackEntry (foldl_setEntry_ne out _ hne)

/-! ### The checks of a product -/

/-- The unit that reads the operands. -/
def productUnit (dot : Bool) : BUnit := if dot then .finisher else .press

/-- Bytes of A and of B that a product reads (04 R119, 05 R177). -/
def aBytes (m : Mul) (fa : Fd) : Nat := ceilDiv m.klen (kStep m.mode) * aStep m.mode fa.block

def bBytes (m : Mul) (fb : Fd) : Nat := ceilDiv m.klen (kStep m.mode) * bStep m.mode fb.block m.dot

/-- A product without a bias passes every check, and its operands have been handed over. -/
structure ProductReady (s : State) (c : Ic) (m : Mul) (fa fb : Fd) : Prop where
  reserved : mulReserved c = false
  mode : m.mode ≤ 3
  group : m.group ≤ 2
  chlog : pctlChlog (engOf s c) ≤ 6
  cols : if m.dot then m.ncols = 0 else m.mode = 3 → m.ncols ≤ 31
  descA : fdOf (fdReg (engOf s c) m.fda) = some fa
  descB : fdOf (fdReg (engOf s c) m.fdb) = some fb
  acceptsA : modeAccepts m.mode fa = true
  acceptsB : modeAccepts m.mode fb = true
  tile : m.tile < tileCount s.dev c.ctx
  openA : BasketOpen s c.ctx c.idx m.aAddr (aBytes m fa)
  openB : BasketOpen s c.ctx c.idx m.bAddr (bBytes m fb)
  order : mulOrderBad (engOf s c) m = false
  unbiased : m.init = true → m.bias = true → m.chunk ≠ 0
  cleanA : HandedOver s c.ctx c.idx (productUnit m.dot) m.aAddr (m.aAddr + aBytes m fa)
  cleanB : HandedOver s c.ctx c.idx (productUnit m.dot) m.bAddr (m.bAddr + bBytes m fb)

/-- An empty range is open at offset 0. -/
theorem basketOpen_empty (s : State) (ctx i : Nat) : BasketOpen s ctx i 0 0 :=
  ⟨Nat.zero_le _, fun _ _ h => absurd rfl h⟩

/-- The operand check of PMUL and FDOT. -/
theorem ProductReady.operands {s : State} {c : Ic} {m : Mul} {fa fb : Fd} (h : ProductReady s c m fa fb) :
    (mulReserved c || decide (3 < m.mode) || decide (2 < m.group) || decide (6 < pctlChlog (engOf s c))
      || (if m.dot then m.ncols != 0 else m.mode == 3 && decide (31 < m.ncols))) = false := by
  have hcols : (if m.dot then m.ncols != 0 else m.mode == 3 && decide (31 < m.ncols)) = false := by
    have := h.cols
    cases hd : m.dot with
    | true => simpa [hd] using this
    | false => simpa [hd] using this
  rw [h.reserved, decide_eq_false (Nat.not_lt.mpr h.mode), decide_eq_false (Nat.not_lt.mpr h.group),
    decide_eq_false (Nat.not_lt.mpr h.chlog), hcols]
  rfl

theorem ProductReady.useBias {s : State} {c : Ic} {m : Mul} {fa fb : Fd} (h : ProductReady s c m fa fb) :
    (m.init && m.bias && m.chunk == 0) = false := by
  simpa using h.unbiased

/-- A tile's row holds every column that a product computes. -/
theorem ProductReady.outCols_le {s : State} {c : Ic} {dot : Bool} {fa fb : Fd} (h : ProductReady s c (mulOf c dot) fa fb) :
    outCols (mulOf c dot) ≤ 64 := by
  have hcols := h.cols
  have hfield : (mulOf c dot).ncols < 2 ^ 6 := Nat.mod_lt _ (by omega)
  unfold outCols
  cases hdot : (mulOf c dot).dot with
  | true =>
    rw [hdot, if_pos rfl] at hcols
    split <;> omega
  | false =>
    rw [hdot, if_neg Bool.false_ne_true] at hcols
    split
    · have := hcols ‹_›
      omega
    · omega

/-! ### What a product does -/

/-- The computation of a product without a bias from the bytes of its operands: the entries and the bad sums, and the flags. -/
def productRun (s : State) (c : Ic) (m : Mul) (fa fb : Fd) : (List (Nat × Entry) × Nat) × Word :=
  runFlags (product (subnOf s.dev c.ctx) m fa fb
    (memRead s.dev.mem.baskets (shareAt s c.ctx c.idx m.aAddr) (aBytes m fa))
    (memRead s.dev.mem.baskets (shareAt s c.ctx c.idx m.bAddr) (bBytes m fb)) [] (tileOf (engOf s c) m.tile) false)

theorem productRun_active (s : State) (c : Ic) (m : Mul) (fa fb : Fd) : ∀ p ∈ (productRun s c m fa fb).1.1, Active m p.1 :=
  yields_runFlags (product_active _ _ _ _ _ _ _ _ _)

/-- What a product of accepted operands does once they are checked. -/
theorem doMul_ready {s : State} {c : Ic} {dot : Bool} {fa fb : Fd} {out : List (Nat × Entry)} {bad : Nat} {fl : Word}
    (h : ProductReady s c (mulOf c dot) fa fb)
    (hrun : productRun s c (mulOf c dot) fa fb = ((out, bad), fl)) :
    doMul dot s.dev c = if (mulOf c dot).klen = 0 ∧ !(mulOf c dot).init then nextIns c s.dev
      else nextIns c (addAflags (modE s.dev c.ctx c.idx (putProduct (mulOf c dot) (productTile (engOf s c) (mulOf c dot) out)
        (out.any fun p => !isFinite32 p.2.s) bad)) c.ctx c.idx fl) := by
  have heng : getE s.dev c.ctx c.idx = engOf s c := rfl
  have hoperands := h.operands
  have hopenA : basketOk s.dev c.ctx c.idx (mulOf c dot).aAddr _ PRESS_RANGE = .ok () := basketOk_open h.openA
  have hopenB : basketOk s.dev c.ctx c.idx (mulOf c dot).bAddr _ PRESS_RANGE = .ok () := basketOk_open h.openB
  have hreadA := basketRead_clean h.cleanA
  have hreadB := basketRead_clean h.cleanB
  have hdot : (mulOf c dot).dot = dot := rfl
  -- the kernel must not evaluate the product
  obtain ⟨prod, hprod⟩ : ∃ prod, prod = product := ⟨_, rfl⟩
  unfold doMul
  unfold productRun at hrun
  rw [← hprod] at hrun ⊢
  simp only [aBytes, bBytes, productUnit, hdot] at hoperands hopenA hopenB hreadA hreadB hrun
  simp only [heng, hoperands, h.descA, h.descB, h.acceptsA, h.acceptsB, decide_eq_false (Nat.not_le.mpr h.tile), hopenA, hopenB, h.order,
    h.useBias, basketOk_open (basketOpen_empty s c.ctx c.idx), hreadA, hreadB, hrun, failIf_false, ok_bind, Bool.not_true, Bool.or_false,
    Bool.false_eq_true, if_false]
  rfl

theorem exec_product (dot : Bool) (e : Fin 96) (s : State) :
    exec (if dot then .iFdot e else .iPmul e) s = onDev s (issue (if dot then 0x56 else 0x40) e (doMul dot)) := by
  cases dot <;> rfl

theorem opcodeKnown_product (dot : Bool) : opcodeKnown (if dot then 0x56 else 0x40) = true := by
  cases dot <;> rfl

/-- With KLEN 0 and without INIT a product only goes on in sequence. -/
theorem completes_product_idle {s : State} {e : Fin 96} {n : Nat} {c : Ic} {dot : Bool} {fa fb : Fd}
    (hat : AtIns s e (if dot then 0x56 else 0x40) n c) (hready : ProductReady s c (mulOf c dot) fa fb)
    (hklen : (mulOf c dot).klen = 0) (hinit : (mulOf c dot).init = false) :
    Completes (if dot then .iFdot e else .iPmul e) s (fun t => OnlyEngine c s t ∧ engOf t c = afterSeq c (engOf s c)) := by
  obtain ⟨⟨⟨out, bad⟩, fl⟩, hrun⟩ : ∃ run, productRun s c (mulOf c dot) fa fb = run := ⟨_, rfl⟩
  have hbody := doMul_ready hready hrun
  rw [if_pos ⟨hklen, by rw [hinit]; rfl⟩] at hbody
  obtain ⟨t, hnext, hdev, hothers, heng⟩ := issue_seq hat (opcodeKnown_product dot) hbody
  exact ⟨t, (exec_product dot e s).trans hnext, ⟨hdev, hothers⟩, heng⟩

/-- Any other product puts the tile of its active entries, and changes no other tile. -/
theorem completes_product {s : State} {e : Fin 96} {n : Nat} {c : Ic} {dot : Bool} {fa fb : Fd}
    (hat : AtIns s e (if dot then 0x56 else 0x40) n c) (hready : ProductReady s c (mulOf c dot) fa fb)
    (hwork : (mulOf c dot).init = true ∨ (mulOf c dot).klen ≠ 0) :
    Completes (if dot then .iFdot e else .iPmul e) s (fun t => OnlyEngine c s t ∧
      (∃ out : List (Nat × Entry), (∀ p ∈ out, Active (mulOf c dot) p.1) ∧
        ∀ q, tileOf (engOf t c) q = if q = (mulOf c dot).tile then productTile (engOf s c) (mulOf c dot) out else tileOf (engOf s c) q) ∧
      PressOnly (afterSeq c (engOf s c)) (engOf t c)) := by
  obtain ⟨⟨⟨out, bad⟩, fl⟩, hrun⟩ : ∃ run, productRun s c (mulOf c dot) fa fb = run := ⟨_, rfl⟩
  have hactive : ∀ p ∈ out, Active (mulOf c dot) p.1 := by
    have := productRun_active s c (mulOf c dot) fa fb
    rwa [hrun] at this
  have hbusy : ¬ ((mulOf c dot).klen = 0 ∧ (!(mulOf c dot).init) = true) := by
    rintro ⟨hklen, hinit⟩
    rcases hwork with hwork | hwork
    · simp [hwork] at hinit
    · exact hwork hklen
  have hbody := doMul_ready hready hrun
  rw [if_neg hbusy] at hbody
  obtain ⟨t, hnext, honly, htiles, heng⟩ := issue_press hat (opcodeKnown_product dot) (pressOnly_putProduct ..) hbody
  exact ⟨t, (exec_product dot e s).trans hnext, honly, ⟨out, hactive, fun q => by rw [htiles, tileOf_putProduct]⟩, heng⟩

/-- Settles O18: a product computes active entries only, and counts its tag on from that of its chunk or of its tile. -/
theorem productsKeepTagsAndInactiveEntries : Obligations.ProductsKeepTagsAndInactiveEntries := by
  intro s e n c dot fa fb v m old unit alen blen row hat hreserved hmode hgroup hchlog hcols hdescA hdescB hacceptsA hacceptsB htile
    hopenA hopenB horder hunbiased hcleanA hcleanB
  have hready : ProductReady s c m fa fb :=
    ⟨hreserved, hmode, hgroup, hchlog, hcols, hdescA, hdescB, hacceptsA, hacceptsB, htile, hopenA, hopenB, horder, hunbiased, hcleanA,
      hcleanB⟩
  refine ⟨completes_product_idle hat hready, fun hwork => ?_⟩
  obtain ⟨t, hnext, honly, ⟨out, hactive, htiles⟩, heng⟩ := completes_product hat hready hwork
  have hput : tileOf (engOf t c) m.tile = productTile v m out := (htiles m.tile).trans (if_pos rfl)
  refine ⟨t, hnext, honly, ?_, fun i j _ hj hout => ?_, fun q hq => (htiles q).trans (if_neg hq), heng⟩
  · rw [hput]
    exact productTile_tag v m out
  · rw [hput]
    exact entryAt_productTile hactive (not_active_of_outside hready.outCols_le hj hout)

end Sys2Proof.Machine
end

section
/-! PROOF. What the finisher writes: values under successive keys and vectors of tile registers (05 R152, R153; 03 R104). -/

namespace Sys2Proof.Machine

/-! ### Lists over a span -/

/-- Element i of the list of a function's values from 0 on. -/
theorem nth_map_span {α : Type} (x : α) (g : Nat → α) {n i : Nat} (h : i < n) : nth x ((span 0 n).map g) i = g i := by
  simp [nth, span, h]

@[simp] theorem length_map_span {α : Type} (g : Nat → α) (n : Nat) : ((span 0 n).map g).length = n := by
  simp [span]

@[simp] theorem readVec_length (v : EngCtx) (base n : Nat) : (readVec v base n).length = n := length_map_span ..

/-! ### Values written under successive keys -/

/-- Once values have been written under the keys from b on, those keys read as them, and every other key as before. -/
theorem smGet_foldl_smSet {α : Type} [DecidableEq α] (x : α) (vs : List α) (m : SMap α) (b j : Nat) :
    smGet x (vs.zipIdx.foldl (fun m p => smSet x m (b + p.2) p.1) m) j =
      if b ≤ j ∧ j < b + vs.length then nth x vs (j - b) else smGet x m j := by
  induction vs using List.reverseRecOn with
  | nil => simp
  | append_singleton vs v ih =>
    simp only [List.zipIdx_append, List.zipIdx_singleton, List.foldl_append, List.foldl_cons, List.foldl_nil, smGet_smSet, ih,
      List.length_append, List.length_singleton, Nat.zero_add]
    by_cases hlast : j = b + vs.length
    · rw [if_pos hlast, if_pos (by omega), hlast, Nat.add_sub_cancel_left]
      simp [nth]
    · rw [if_neg hlast]
      by_cases hin : b ≤ j ∧ j < b + vs.length
      · rw [if_pos hin, if_pos (by omega), nth, nth, List.getD_append _ _ _ _ (by omega)]
      · rw [if_neg hin, if_neg (by omega)]

/-- The tile registers once a vector has been written. -/
theorem smGet_writeVec (v : EngCtx) (base : Nat) (vs : List Word) (j : Nat) : smGet 0#32 (writeVec v base vs).t j =
    if 256 * base ≤ j ∧ j < 256 * base + vs.length then nth 0#32 vs (j - 256 * base) else smGet 0#32 v.t j :=
  smGet_foldl_smSet 0#32 vs v.t (256 * base) j

/-- An instruction whose own effect is to write a vector and to raise flags. -/
theorem issue_writeVec {s : State} {op e n base : Nat} {c : Ic} {vs : List Word} {fl : Word} {body : Dev → Ic → Ex Nx}
    (h : AtIns s e op n c) (hk : opcodeKnown op = true)
    (hb : body s.dev c = nextIns c (addAflags (modE s.dev c.ctx c.idx fun v => writeVec v base vs) c.ctx c.idx fl)) :
    ∃ t, onDev s (issue op e body) = .next t ∧ OnlyEngine c s t ∧ WritesVec c s t base vs fl := by
  obtain ⟨t, hnext, honly, heng⟩ := issue_engine_flags h hk hb
  refine ⟨t, hnext, honly, fun j => ?_, ?_⟩
  · rw [heng]
    exact smGet_writeVec ..
  · rw [heng]
    rfl

/-! ### Checks -/

/-- A vector that ends at t63 or before it is in range. -/
theorem vecBad_of_le {base nreg : Nat} (h : base + nreg ≤ 64) : vecBad base nreg = false := decide_eq_false (Nat.not_lt.mpr h)

/-- An instruction works on one element at least. -/
theorem vecLen_pos (v : EngCtx) (w0 : Nat) : 0 < vecLen v (fNREG w0) := by
  unfold vecLen fNREG
  omega

end Sys2Proof.Machine
end

section
/-! PROOF. The registers of the finisher: FSET, FCHAIN and FCURVE (05 R155, R159, R166, R182). -/

namespace Sys2Proof.Machine

/-- What FSET puts: FCTL, the low or the high half of FIDX, or a scalar operand register (05 R155, R182). -/
def fsetPut (target r : Nat) (w : Word) (v : EngCtx) : EngCtx :=
  match target with
  | 0 => { v with fctl := w &&& 0xFF0007FF#32 }
  | 1 => { v with fidx := v.fidx.extractLsb' 32 32 ++ w }
  | 2 => { v with fidx := w ++ v.fidx.extractLsb' 0 32 }
  | _ => { v with fs := smSet 0#32 v.fs r w }

theorem doFset_ok {d : Dev} {c : Ic} (hused : finUsed c 0 0xFF000000 0xFFFFFFFF 0 = true) (htarget : bits c.w1 31 28 ≤ 3) :
    doFset d c = nextIns c (modE d c.ctx c.idx (fsetPut (bits c.w1 31 28) (bits c.w1 27 24) (BitVec.ofNat 32 c.w2))) := by
  simp only [doFset, hused, decide_eq_false (Nat.not_lt.mpr htarget), Bool.not_true, failIf_false, ok_bind]
  rfl

/-- What FCHAIN puts: the eight words of a chain image into chain k (05 R159, R182). -/
def chainPut (k : Nat) (bs : List Byte) (v : EngCtx) : EngCtx :=
  { v with ch := ((span 0 8).map fun i => word bs (4 * i)).zipIdx.foldl (fun m p => smSet 0#32 m (8 * k + p.2) p.1) v.ch }

theorem smGet_chainPut (k : Nat) (bs : List Byte) (v : EngCtx) (j : Nat) : smGet 0#32 (chainPut k bs v).ch j =
    if 8 * k ≤ j ∧ j < 8 * k + 8 then word bs (4 * (j - 8 * k)) else smGet 0#32 v.ch j := by
  rw [chainPut, smGet_foldl_smSet, length_map_span]
  split
  · rw [nth_map_span _ _ (by omega)]
  · rfl

theorem afterSeq_chainPut (c : Ic) (k : Nat) (bs : List Byte) (v : EngCtx) :
    afterSeq c (chainPut k bs v) = { afterSeq c v with ch := (chainPut k bs v).ch } := rfl

/-- What FCURVE puts: the image of a table into slot k (05 R166). -/
def curvePut (k : Nat) (bs : List Byte) (v : EngCtx) : EngCtx := { v with curves := smPut v.curves k (memOf bs) }

section
variable {s : State} {c : Ic} (hused : finUsed c 0 0xFFFFF800 0 0 = true)
include hused

theorem doFchain_ok (hopen : BasketOpen s c.ctx c.idx (64 * bits c.w1 31 15) 32)
    (hclean : HandedOver s c.ctx c.idx .finisher (64 * bits c.w1 31 15) (64 * bits c.w1 31 15 + 32)) :
    doFchain s.dev c = nextIns c (modE s.dev c.ctx c.idx (chainPut (bits c.w1 14 11)
      (memRead s.dev.mem.baskets (shareAt s c.ctx c.idx (64 * bits c.w1 31 15)) 32))) := by
  simp only [doFchain, hused, basketOk_open hopen, basketRead_clean hclean, Bool.not_true, failIf_false, ok_bind]
  rfl

theorem doFcurve_ok (hopen : BasketOpen s c.ctx c.idx (64 * bits c.w1 31 15) 16448)
    (hclean : HandedOver s c.ctx c.idx .finisher (64 * bits c.w1 31 15) (64 * bits c.w1 31 15 + 16448))
    (hgood : curveBad (memOf (memRead s.dev.mem.baskets (shareAt s c.ctx c.idx (64 * bits c.w1 31 15)) 16448)) = false) :
    doFcurve s.dev c = nextIns c (modE s.dev c.ctx c.idx (curvePut (bits c.w1 14 11)
      (memRead s.dev.mem.baskets (shareAt s c.ctx c.idx (64 * bits c.w1 31 15)) 16448))) := by
  simp only [doFcurve, hused, basketOk_open hopen, basketRead_clean hclean, hgood, Bool.not_true, failIf_false, ok_bind]
  rfl

end

/-- Settles O19: FSET by its four targets, FCHAIN and FCURVE by the registers they put. -/
theorem finisherRegistersLoad : Obligations.FinisherRegistersLoad := by
  intro s e n c v off k w target
  refine ⟨fun hat hused htarget => ?_, fun hat hused hopen hclean => ?_, fun hat hused hopen hclean => ?_⟩
  · obtain ⟨t, hnext, honly, heng⟩ := issue_engine hat rfl (doFset_ok hused htarget)
    have hput : ∀ i, target = i → engOf t c = afterSeq c (fsetPut i (bits c.w1 27 24) w v) := by
      rintro _ rfl
      exact heng
    refine ⟨t, hnext, honly, hput 0, hput 1, hput 2, fun h3 => ?_⟩
    rw [hput 3 h3]
    exact ⟨rfl, fun r => smGet_smSet ..⟩
  · obtain ⟨t, hnext, honly, heng⟩ := issue_engine hat rfl (doFchain_ok hused hopen hclean)
    rw [afterSeq_chainPut] at heng
    refine ⟨t, hnext, honly, by rw [heng], fun i hi => ?_, fun j hj => ?_⟩
    · rw [heng, smGet_chainPut, if_pos (by omega), Nat.add_sub_cancel_left]
    · rw [heng, smGet_chainPut, if_neg (by omega)]
  · intro img hgood
    obtain ⟨t, hnext, honly, heng⟩ := issue_engine hat rfl (doFcurve_ok hused hopen hclean hgood)
    refine ⟨t, hnext, honly, by rw [heng]; rfl, fun j => ?_⟩
    rw [heng]
    exact smFind_smPut ..

end Sys2Proof.Machine
end

section
/-! PROOF. The finisher's moves of INT32 elements and its permutations: FLD, FST and FPERM (05 R153, R174, R175, R178, R179). -/

namespace Sys2Proof.Machine

/-! ### Bytes of words -/

/-- Byte b of a word laid out least significant byte first. -/
theorem natLe_four_getElem? (x : Word) {b : Nat} (hb : b < 4) : (natLe 4 x.toNat)[b]? = some (x.extractLsb' (8 * b) 8) := by
  rw [List.getElem?_eq_getElem (by rwa [natLe_length]), natLe_get _ _ _ hb]
  congr 1
  apply BitVec.eq_of_toNat_eq
  rw [BitVec.toNat_ofNat, BitVec.extractLsb'_toNat, Nat.shiftRight_eq_div_pow, pow_mul]
  rfl

/-- The words of a vector, laid out one after the other (03 R81). -/
def wordBytes (xs : List Word) : List Byte := xs.flatMap fun x => natLe 4 x.toNat

@[simp] theorem wordBytes_length (xs : List Word) : (wordBytes xs).length = 4 * xs.length := by
  rw [wordBytes, flatMap_length xs (fun x => natLe 4 x.toNat) 4 fun x => natLe_length 4 x.toNat, Nat.mul_comm]

/-- Byte b of word k of a vector. -/
theorem wordBytes_getElem? {xs : List Word} {k b : Nat} {x : Word} (hx : xs[k]? = some x) (hb : b < 4) :
    (wordBytes xs)[4 * k + b]? = some (x.extractLsb' (8 * b) 8) := by
  induction xs generalizing k with
  | nil => cases hx
  | cons y ys ih =>
    have hcons : wordBytes (y :: ys) = natLe 4 y.toNat ++ wordBytes ys := rfl
    rw [hcons]
    cases k with
    | zero =>
      obtain rfl : y = x := Option.some.inj hx
      rw [List.getElem?_append_left (by rw [natLe_length]; omega), Nat.mul_zero, Nat.zero_add, natLe_four_getElem? y hb]
    | succ k =>
      rw [List.getElem?_append_right (by rw [natLe_length]; omega), natLe_length, Nat.mul_succ, Nat.add_right_comm, Nat.add_sub_cancel]
      exact ih hx

/-! ### INT32 elements -/

/-- A descriptor of INT32 elements, which have no block scales. -/
structure IsInt32 (f : Fd) : Prop where
  elem : f.elem = 6
  plain : f.block = false

section
variable {f : Fd} (hf : IsInt32 f)
include hf

theorem IsInt32.packedBytes (n : Nat) : packedBytes f.elem n = 4 * n := by
  rw [hf.elem]
  simp only [Machine.packedBytes, elemBits, ceilDiv]
  omega

/-- INT32 elements come in any number. -/
theorem IsInt32.countBad (n : Nat) : countBad f n = false := by
  rw [Machine.countBad, hf.elem, hf.plain]
  rfl

theorem IsInt32.storeOk {s : State} {c : Ic} {addr n : Nat} (saddr : Nat) (hopen : BasketOpen s c.ctx c.idx addr (4 * n)) :
    storeOk s.dev c f addr saddr n = .ok () := by
  simp only [Machine.storeOk, hf.packedBytes, basketOk_open hopen, hf.plain, ok_bind]
  rfl

/-- Loaded INT32 elements are the words of the bytes, and raise no flag. -/
theorem IsInt32.loadElems (subn : Bool) (bs scales : List Byte) (n : Nat) :
    runFlags (loadElems subn f bs scales n) = ((span 0 n).map fun k => word bs (4 * k), 0#32) := by
  simp only [Machine.loadElems, hf.elem, if_true, List.mapM_pure]
  rfl

/-- Stored INT32 elements are the bytes of the words, and raise no flag. -/
theorem IsInt32.storeElems (subn : Bool) (rnd : Nat → Nat) (xs : List Word) :
    runFlags (storeElems subn f rnd xs) = ((wordBytes xs, []), 0#32) := by
  simp only [Machine.storeElems, hf.elem, if_true]
  rfl

end

/-! ### FLD and FST -/

/-- An instruction whose own effect is to write bytes of the basket that have been handed over and to raise flags. -/
theorem issue_store_flags {s : State} {op e n : Nat} {c : Ic} {who : BUnit} {off : Nat} {bs : List Byte} {fl : Word} {body : Dev → Ic → Ex Nx}
    (h : AtIns s e op n c) (hk : opcodeKnown op = true) (hclean : HandedOver s c.ctx c.idx who off (off + bs.length))
    (hb : body s.dev c = nextIns c (addAflags (basketWrite s.dev c.ctx c.idx who off bs) c.ctx c.idx fl)) :
    ∃ t, onDev s (issue op e body) = .next t ∧ OnlyEngineAndBasket c s t
      ∧ engOf t c = { afterSeq c (engOf s c) with dirty := (engOf t c).dirty, lines := (engOf t c).lines,
                                                     aflags := (engOf s c).aflags ||| fl }
      ∧ LinesNote s t c.ctx c.idx ∧ t.dev.mem.baskets = memWrite s.dev.mem.baskets (shareAt s c.ctx c.idx off) bs := by
  obtain ⟨hbytes, hfree⟩ := basketWrite_clean hclean
  obtain ⟨t, hnext, hdev, hothers, heng⟩ := issue_seq h hk hb
  have hbaskets : t.dev.mem.baskets = memWrite s.dev.mem.baskets (shareAt s c.ctx c.idx off) bs := by rw [hdev, ← hbytes]; rfl
  rw [addAflags, getE_modE_same] at heng
  have hlines : (engOf t c).lines = notedLines s.dev c.ctx c.idx off bs.length s.dev.mem.baskets := by
    rw [heng, ← basketWrite_lines s.dev c.ctx c.idx who]
    rfl
  refine ⟨t, hnext, ⟨?_, fun k hne => ?_⟩, ?_, linesNote_of_notedLines hlines, hbaskets⟩
  · rw [hbaskets, ← hbytes]
    conv_lhs => rw [hdev, addAflags, modE_only, basketWrite_only, hfree]
  · rw [hothers k hne, addAflags, eng_modE_ne _ _ _ _ hne, eng_basketWrite_ne _ _ _ _ _ _ hne]
  · rw [heng, getE_basketWrite]
    rfl

section
variable {s : State} {c : Ic} {f : Fd} (hf : IsInt32 f) (hdesc : fdOf (fdReg (engOf s c) (bits c.w1 14 11)) = some f)
  (hopen : BasketOpen s c.ctx c.idx (64 * bits c.w1 31 15) (4 * vecLen (engOf s c) (fNREG c.w0)))
include hf hdesc hopen

theorem doFld_int32 (hused : finUsed c 0xFC0E00 0xFFFFF800 0xFFFF8000 0 = true) (hvec : fTD c.w0 + fNREG c.w0 ≤ 64)
    (hclean : HandedOver s c.ctx c.idx .finisher (64 * bits c.w1 31 15)
      (64 * bits c.w1 31 15 + 4 * vecLen (engOf s c) (fNREG c.w0))) :
    doFld s.dev c = nextIns c (addAflags (modE s.dev c.ctx c.idx fun v => writeVec v (fTD c.w0)
      ((span 0 (vecLen (engOf s c) (fNREG c.w0))).map fun k => word (memRead s.dev.mem.baskets
        (shareAt s c.ctx c.idx (64 * bits c.w1 31 15)) (4 * vecLen (engOf s c) (fNREG c.w0))) (4 * k))) c.ctx c.idx 0#32) := by
  have heng : getE s.dev c.ctx c.idx = engOf s c := rfl
  simp only [doFld, heng, hused, hdesc, vecBad_of_le hvec, hf.countBad, hf.storeOk _ hopen, hf.packedBytes, hf.plain,
    basketRead_clean hclean, hf.loadElems, Bool.not_true, Bool.or_false, Bool.false_eq_true, if_false, failIf_false, ok_bind]

theorem doFst_int32 (hused : finUsed c 0x03FE00 0xFFFFF800 0xFFFF8000 0 = true) (hvec : fTS c.w0 + fNREG c.w0 ≤ 64)
    (hstoch : f.stoch = false) :
    doFst s.dev c = nextIns c (addAflags (basketWrite s.dev c.ctx c.idx .finisher (64 * bits c.w1 31 15)
      (wordBytes (readVec (engOf s c) (fTS c.w0) (vecLen (engOf s c) (fNREG c.w0))))) c.ctx c.idx 0#32) := by
  have heng : getE s.dev c.ctx c.idx = engOf s c := rfl
  simp only [doFst, heng, hused, hdesc, vecBad_of_le hvec, hf.countBad, hf.storeOk _ hopen, hstoch, drawsOf, hf.storeElems, putStore,
    List.isEmpty_nil, Bool.not_true, Bool.or_false, Bool.false_eq_true, if_false, if_true, failIf_false, ok_bind]

end

/-! ### FPERM -/

/-- The source of element k by the pattern (05 R175). -/
theorem permSrc_eq (v : EngCtx) (pat ti sl imm n k : Nat) : permSrc v pat ti sl imm n k =
    if pat = 0 then (tElem v ti k).toNat
    else if pat = 1 then 256 * (k / 256) + 16 * (k % 16) + k % 256 / 16
    else if pat = 2 then imm + k / 2 ^ sl
    else (k + imm) % n := by
  match pat with
  | 0 => rfl
  | 1 => rfl
  | 2 => rfl
  | _ + 3 => rfl

/-- A permutation whose vectors are in range writes the elements of its sources that lie below n, and +0 for the others (05 R174, R175). -/
theorem doFperm_ok {d : Dev} {c : Ic} {v : EngCtx} {len : Nat} {src : Nat → Nat} (hv : getE d c.ctx c.idx = v)
    (hlen : vecLen v (fNREG c.w0) = len)
    (hsrc : ∀ k, permSrc v (bits c.w1 31 30) (bits c.w1 29 24) (bits c.w1 23 20) (bits c.w1 19 9) len k = src k)
    (hused : finUsed c 0xFFFE00 0xFFFFFE00 0 0 = true) (hdst : fTD c.w0 + fNREG c.w0 ≤ 64) (hvec : fTS c.w0 + fNREG c.w0 ≤ 64)
    (hindex : bits c.w1 31 30 = 0 → bits c.w1 29 24 + fNREG c.w0 ≤ 64) (hshift : bits c.w1 31 30 = 2 → bits c.w1 23 20 ≤ 11) :
    doFperm d c = nextIns c (addAflags (modE d c.ctx c.idx fun v' => writeVec v' (fTD c.w0)
      ((span 0 len).map fun k => if src k < len then tElem v (fTS c.w0) (src k) else 0#32)) c.ctx c.idx
      (if ∃ k, k < len ∧ len ≤ src k then Fl.permRange else 0#32)) := by
  have hindexed : (bits c.w1 31 30 == 0 && vecBad (bits c.w1 29 24) (fNREG c.w0)) = false := by
    cases hpat : bits c.w1 31 30 == 0 with
    | false => rfl
    | true => exact vecBad_of_le (hindex (eq_of_beq hpat))
  have hshifted : (bits c.w1 31 30 == 2 && decide (11 < bits c.w1 23 20)) = false := by
    cases hpat : bits c.w1 31 30 == 2 with
    | false => rfl
    | true => exact decide_eq_false (Nat.not_lt.mpr (hshift (eq_of_beq hpat)))
  have hbeyond : (((span 0 len).map src).any fun k => decide (len ≤ k)) = true ↔ ∃ k, k < len ∧ len ≤ src k := by
    simp [span]
  simp only [doFperm, hv, hused, vecBad_of_le hdst, vecBad_of_le hvec, hindexed, hshifted, hlen, funext hsrc, hbeyond, List.map_map,
    Function.comp_def, Bool.not_true, Bool.or_false, failIf_false, ok_bind]

/-- Settles O20: FLD and FST by the bytes of INT32 words, FPERM by its sources. -/
theorem finisherMovesElements : Obligations.FinisherMovesElements := by
  intro s e n c f v nreg len addr src
  refine ⟨fun hdesc helem hplain hopen hclean => ?_, fun hat hused hdst hvec hindex hshift => ?_⟩
  · have hf : IsInt32 f := ⟨helem, hplain⟩
    refine ⟨fun hat hused hvec => issue_writeVec hat rfl (doFld_int32 hf hdesc hopen hused hvec hclean),
      fun hat hused hvec hstoch => ?_⟩
    have hbytes : (wordBytes (readVec v (fTS c.w0) len)).length = 4 * len := by rw [wordBytes_length, readVec_length]
    obtain ⟨t, hnext, honly, heng, hnote, hstored⟩ :=
      issue_store_flags hat rfl (by rwa [hbytes]) (doFst_int32 hf hdesc hopen hused hvec hstoch)
    rw [BitVec.or_zero] at heng
    refine ⟨t, hnext, honly, heng, hnote, fun k b hk hb => ?_, fun a ha => ?_⟩
    · have hword : (readVec v (fTS c.w0) len)[k]? = some (tElem v (fTS c.w0) k) := by simp [readVec, span, hk]
      rw [hstored, Nat.add_assoc, memByte_memWrite_in _ _ _ _ (by rw [hbytes]; omega)]
      exact List.getElem_eq_iff _ |>.mpr (wordBytes_getElem? hword hb)
    · rw [hstored, memByte_memWrite_out _ _ _ _ (by rwa [hbytes])]
  · exact issue_writeVec hat rfl (doFperm_ok rfl rfl (fun k => permSrc_eq ..) hused hdst hvec hindex hshift)

end Sys2Proof.Machine
end

section
/-! PROOF. The finisher's computations: FOP, FRED of one segment and FACC into a vector (05 R159, R162, R171 to R173, R180). -/

namespace Sys2Proof.Machine

/-! ### Chains -/

/-- A chain gives one element for each of its vector (05 R162). -/
theorem runChain_length (subn : Bool) (v : EngCtx) (rnd : Nat → Nat) (stages : List Stage) (xs : List Word) :
    (runFlags (runChain subn v rnd stages xs)).1.length = xs.length := by
  have h := yields_runFlags (yields_mapM_length (fun p => stages.foldlM (fun a st => runStage subn v (rnd p.2) p.2 st a) p.1) xs.zipIdx)
  exact h.trans List.length_zipIdx

/-- A chain without stages passes every element unchanged and raises no flag (05 R159). -/
theorem runChain_nil (subn : Bool) (v : EngCtx) (rnd : Nat → Nat) (xs : List Word) : runChain subn v rnd [] xs = pure xs := by
  simp only [runChain, List.foldlM_nil, List.mapM_pure, List.zipIdx_map_fst]

theorem doFop_ok {d : Dev} {c : Ic} {v : EngCtx} {ws : List Nat} {r : List Word × Word} (hv : getE d c.ctx c.idx = v)
    (hws : chainWords v (fCH c.w0) = ws) (hused : finUsed c 0xFFFFE0 0 0 0 = true) (hdst : fTD c.w0 + fNREG c.w0 ≤ 64)
    (hvec : fTS c.w0 + fNREG c.w0 ≤ 64) (hchain : chainBad (fNREG c.w0) ws = false) (hcurves : curveMissing v ws = false)
    (hdraws : drawsRandom ws = false)
    (hrun : runFlags (runChain (subnOf d c.ctx) v (fun _ => 0) (chainStages ws) (readVec v (fTS c.w0) (vecLen v (fNREG c.w0)))) = r) :
    doFop d c = nextIns c (addAflags (modE d c.ctx c.idx fun v' => writeVec v' (fTD c.w0) r.1) c.ctx c.idx r.2) := by
  obtain ⟨ys, fl⟩ := r
  simp only [doFop, hv, hws, hused, vecBad_of_le hdst, vecBad_of_le hvec, hchain, hcurves, hdraws, drawsOf, hrun, Bool.not_true,
    Bool.or_false, Bool.false_eq_true, if_false, failIf_false, ok_bind]

/-! ### Reductions -/

/-- A list that is one run of n is cut into itself. -/
theorem runsOf_one {α : Type} {n fuel : Nat} {l : List α} (hlen : l.length = n) (hpos : 0 < n) : runsOf n l (fuel + 2) = [l] := by
  have hne : l.isEmpty = false := List.isEmpty_eq_false_iff.mpr (List.ne_nil_of_length_pos (by omega))
  simp only [runsOf, hne, List.take_of_length_le hlen.le, List.drop_of_length_le hlen.le, List.isEmpty_nil, Bool.false_eq_true,
    if_false, if_true]

/-- A computation over a single item gives its one value with its flags. -/
theorem runFlags_mapM_singleton {α β : Type} (g : α → FlagM β) (a : α) :
    runFlags ([a].mapM g) = ([(runFlags (g a)).1], (runFlags (g a)).2) := by
  simp only [List.mapM_cons, List.mapM_nil]
  rfl

/-- FRED of the maximum (OP 1) or the minimum (OP 2) of a vector as one segment writes one element (05 R172, R173). -/
theorem doFred_extreme {d : Dev} {c : Ic} {v : EngCtx} {r : Word × Word} (hv : getE d c.ctx c.idx = v)
    (hused : finUsed c 0xFFFE00 0xFF000000 0 0 = true) (hvec : fTS c.w0 + fNREG c.w0 ≤ 64) (hrow : bit c.w1 28 = false)
    (hop : bits c.w1 31 29 = 1 ∨ bits c.w1 31 29 = 2) (hdst : fTD c.w0 < 64)
    (hrun : runFlags (foldExtreme (bits c.w1 31 29 == 1) (subnOf d c.ctx) (readVec v (fTS c.w0) (vecLen v (fNREG c.w0)))) = r) :
    doFred d c = nextIns c (addAflags (modE d c.ctx c.idx fun v' => writeVec v' (fTD c.w0) [r.1]) c.ctx c.idx r.2) := by
  obtain ⟨x, fl⟩ := r
  have hpos := vecLen_pos v c.w0
  have hsegs : runsOf (vecLen v (fNREG c.w0)) (readVec v (fTS c.w0) (vecLen v (fNREG c.w0))) (1 + 1) =
      [readVec v (fTS c.w0) (vecLen v (fNREG c.w0))] := runsOf_one (fuel := 0) (readVec_length ..) hpos
  have hregs : ceilDiv 1 256 = 1 := rfl
  have hvalid : decide (4 < bits c.w1 31 29) = false := decide_eq_false (by omega)
  have hsum : (bits c.w1 31 29 == 0) = false := beq_eq_false_iff_ne.mpr (by omega)
  have hfold : ¬ bits c.w1 31 29 = 0 := by omega
  have harg : ¬ bits c.w1 31 29 ≥ 3 := by omega
  simp only [doFred, hv, hused, hrow, Nat.div_self hpos, hregs, hvalid, hsum, hfold, harg, vecBad_of_le hvec,
    vecBad_of_le (show fTD c.w0 + 1 ≤ 64 by omega), hsegs, runFlags_mapM_singleton, hrun, Bool.false_and, Bool.not_true, Bool.or_false,
    Bool.false_eq_true, if_false, failIf_false, ok_bind]

/-! ### FACC -/

/-- FACC reads one element for each entry that it resolves (05 R180). -/
theorem readTile_length (subn : Bool) (fa fb : Fd) (x : Tile) (n : Nat) : (runFlags (readTile subn fa fb x n)).1.length = n := by
  unfold readTile
  refine yields_runFlags (P := fun r : List Word => r.length = n) ((yields_any _).bind fun ts _ => ?_)
  have h := yields_mapM_length (fun k => do let r ← resolve subn (entryAt x k); fmul subn r ts) (span 0 n)
  simpa only [span, List.length_range'] using h

/-- A value that is passed on takes its flags with it. -/
theorem runFlags_bind_pure {α β : Type} (m : FlagM α) (g : α → β) :
    runFlags (m >>= fun a => pure (g a)) = (g (runFlags m).1, (runFlags m).2) := rfl

/-- A tile without its VALID bit. -/
def cleared (x : Tile) : Tile := { x with tag := { x.tag with valid := false } }

/-- The engine once FACC has written a vector and, with CLEAR, cleared VALID of its tile. -/
def tileToVec (base : Nat) (ys : List Word) (tile : Nat) (clear : Bool) (v : EngCtx) : EngCtx :=
  if clear then setTile (writeVec v base ys) tile (cleared (tileOf v tile)) else writeVec v base ys

/-- The device once FACC has done so on its engine. -/
def devTileToVec (d : Dev) (c : Ic) (base : Nat) (ys : List Word) (tile : Nat) (x : Tile) (clear : Bool) : Dev :=
  if clear then modE (modE d c.ctx c.idx fun v => writeVec v base ys) c.ctx c.idx fun v => setTile v tile (cleared x)
  else modE d c.ctx c.idx fun v => writeVec v base ys

section
variable (base : Nat) (ys : List Word) (tile : Nat) (clear : Bool)

theorem tileToVec_frame (v : EngCtx) : tileToVec base ys tile clear v =
    { v with t := (writeVec v base ys).t, tiles := (tileToVec base ys tile clear v).tiles } := by
  cases clear <;> rfl

theorem tileOf_tileToVec (v : EngCtx) (m : Nat) : tileOf (tileToVec base ys tile clear v) m =
    if m = tile then (if clear then cleared (tileOf v tile) else tileOf v tile) else tileOf v m := by
  cases clear with
  | true => exact tileOf_setTile ..
  | false =>
    by_cases hm : m = tile
    · rw [if_pos hm, hm]
      rfl
    · rw [if_neg hm]
      rfl

theorem devTileToVec_only (d : Dev) (c : Ic) (x : Tile) :
    devTileToVec d c base ys tile x clear = { d with eng := (devTileToVec d c base ys tile x clear).eng } := by
  cases clear <;> rfl

theorem eng_devTileToVec_ne (d : Dev) (c : Ic) (x : Tile) {k : Nat} (h : k ≠ engKey c.ctx c.idx) :
    smGet {} (devTileToVec d c base ys tile x clear).eng k = smGet {} d.eng k := by
  unfold devTileToVec
  split
  · rw [eng_modE_ne _ _ _ _ h, eng_modE_ne _ _ _ _ h]
  · rw [eng_modE_ne _ _ _ _ h]

theorem getE_devTileToVec (s : State) (c : Ic) :
    getE (devTileToVec s.dev c base ys tile (tileOf (engOf s c) tile) clear) c.ctx c.idx = tileToVec base ys tile clear (engOf s c) := by
  simp only [devTileToVec, apply_ite (getE · c.ctx c.idx), getE_modE_same, tileToVec, engOf]

end

/-- FACC of a valid tile into a vector, without a chain. -/
theorem doFacc_vector {d : Dev} {c : Ic} {v : EngCtx} {fa fb : Fd} {x : Tile} {r : List Word × Word} (hv : getE d c.ctx c.idx = v)
    (hused : finUsed c 0xFC0FE0 0xFFFFC000 0xFFFFF800 0xFFFF8000 = true) (hstore : bit c.w1 24 = false) (hchain : bit c.w1 22 = false)
    (hdescA : fdOf (fdReg v (bits c.w1 21 18)) = some fa) (hdescB : fdOf (fdReg v (bits c.w1 17 14)) = some fb)
    (hdst : fTD c.w0 + fNREG c.w0 ≤ 64) (htile : bits c.w1 31 25 < tileCount d c.ctx) (hx : tileOf v (bits c.w1 31 25) = x)
    (hvalid : x.tag.valid = true) (hrun : runFlags (readTile (subnOf d c.ctx) fa fb x (vecLen v (fNREG c.w0))) = r) :
    doFacc d c = nextIns c (addAflags (devTileToVec d c (fTD c.w0) r.1 (bits c.w1 31 25) x (bit c.w1 23)) c.ctx c.idx r.2) := by
  obtain ⟨ys, fl⟩ := r
  have hstages : chainStages [] = [] := rfl
  have hchainGood : chainBad (fNREG c.w0) [] = false := rfl
  have hcurves : curveMissing v [] = false := rfl
  have hdraws : drawsRandom [] = false := rfl
  simp only [doFacc, hv, hused, hstore, hchain, hdescA, hdescB, vecBad_of_le hdst, decide_eq_false (Nat.not_le.mpr htile), hx, hvalid,
    hstages, hchainGood, hcurves, hdraws, drawsOf, runChain_nil, pure_bind, runFlags_bind_pure, hrun, Bool.not_true, Bool.or_false,
    Bool.false_and, Bool.false_eq_true, if_false, failIf_false, ok_bind]
  rfl

/-- An instruction whose own effect is to read out a tile into a vector and to raise flags. -/
theorem issue_tileToVec {s : State} {op e n base tile : Nat} {c : Ic} {ys : List Word} {clear : Bool} {fl : Word} {body : Dev → Ic → Ex Nx}
    (h : AtIns s e op n c) (hk : opcodeKnown op = true)
    (hb : body s.dev c = nextIns c (addAflags (devTileToVec s.dev c base ys tile (tileOf (engOf s c) tile) clear) c.ctx c.idx fl)) :
    ∃ t, onDev s (issue op e body) = .next t ∧ OnlyEngine c s t
      ∧ (∀ j, smGet 0#32 (engOf t c).t j =
          if 256 * base ≤ j ∧ j < 256 * base + ys.length then nth 0#32 ys (j - 256 * base) else smGet 0#32 (engOf s c).t j)
      ∧ WritesTile c s t tile (if clear then cleared (tileOf (engOf s c) tile) else tileOf (engOf s c) tile)
      ∧ engOf t c = { afterSeq c (engOf s c) with
          t := (engOf t c).t, tiles := (engOf t c).tiles, aflags := (engOf s c).aflags ||| fl } := by
  obtain ⟨t, hnext, hdev, hothers, heng⟩ := issue_seq h hk hb
  rw [addAflags, getE_modE_same, getE_devTileToVec] at heng
  refine ⟨t, hnext, ⟨?_, fun k hne => ?_⟩, fun j => ?_, fun m => ?_, ?_⟩
  · conv_lhs => rw [hdev, addAflags, modE_only, devTileToVec_only]
  · rw [hothers k hne, addAflags, eng_modE_ne _ _ _ _ hne, eng_devTileToVec_ne _ _ _ _ _ _ _ hne]
  · rw [heng, tileToVec_frame]
    exact smGet_writeVec ..
  · rw [heng]
    exact tileOf_tileToVec ..
  · rw [heng, tileToVec_frame]
    rfl

/-- Settles O21: FOP by its chain, FRED by its one segment, FACC by the tile that it reads out. -/
theorem finisherComputesVectors : Obligations.FinisherComputesVectors := by
  intro s e n c v subn nreg len ws xs
  refine ⟨fun hat hused hdst hvec hchain hcurves hdraws => ⟨?_, fun hnil => ?_, ?_⟩, fun hat hused hvec hrow hop hdst => ?_,
    fun fa fb => ?_⟩
  · rw [runChain_length, readVec_length]
  · rw [hnil, runChain_nil]
    rfl
  · exact issue_writeVec hat rfl (doFop_ok rfl rfl hused hdst hvec hchain hcurves hdraws rfl)
  · exact issue_writeVec hat rfl (doFred_extreme rfl hused hvec hrow hop hdst rfl)
  · intro tile x hat hused hstore hchain hdescA hdescB hdst htile hvalid
    refine ⟨readTile_length .., ?_⟩
    obtain ⟨t, hnext, honly, hvec, htiles, heng⟩ := issue_tileToVec hat rfl
      (doFacc_vector rfl hused hstore hchain hdescA hdescB hdst htile rfl hvalid rfl)
    rw [readTile_length] at hvec
    exact ⟨t, hnext, honly, hvec, htiles, heng⟩

end Sys2Proof.Machine
end

section
/-! PROOF. What an instruction that changes only its engine leaves of it, and the scalar instructions (06 R192 to R199). -/

namespace Sys2Proof.Machine

/-! ### Instructions that change only what their engine holds -/

/-- An instruction without an effect of its own is followed by the next. -/
theorem issue_next {s : State} {op e n : Nat} {c : Ic} {body : Dev → Ic → Ex Nx} (h : AtIns s e op n c) (hk : opcodeKnown op = true)
    (hb : body s.dev c = nextIns c s.dev) :
    ∃ t, onDev s (issue op e body) = .next t ∧ OnlyEngine c s t ∧ engOf t c = afterSeq c (engOf s c) := by
  obtain ⟨t, hnext, hdev, hothers, heng⟩ := issue_seq h hk hb
  exact ⟨t, hnext, ⟨hdev, hothers⟩, heng⟩

/-- An instruction whose own effect changes only what its engine holds, and that moves PC to an index. -/
theorem issue_jump_engine {s : State} {op e n pc : Nat} {c : Ic} {f : EngCtx → EngCtx} {body : Dev → Ic → Ex Nx}
    (h : AtIns s e op n c) (hk : opcodeKnown op = true)
    (hb : body s.dev c = .ok { dev := modE s.dev c.ctx c.idx f, pc := pc, seq := false }) :
    ∃ t, onDev s (issue op e body) = .next t ∧ OnlyEngine c s t ∧ engOf t c = afterJump c (f (engOf s c)) pc := by
  obtain ⟨t, hnext, hdev, hothers, heng⟩ := issue_jump h hk hb
  refine ⟨t, hnext, ⟨hdev, fun k hne => ?_⟩, ?_⟩
  · rw [hothers k hne, eng_modE_ne _ _ _ _ hne]
  · rw [heng, getE_modE_same]
    rfl

/-! ### Scalar operations (06 R194) -/

theorem scalarOp_shl (a b : Word) : (scalarOp 5 a b).toNat = a.toNat * 2 ^ b.toNat % 2 ^ 32 := by
  rw [scalarOp, BitVec.toNat_shiftLeft, Nat.shiftLeft_eq]

theorem scalarOp_shr (a b : Word) : (scalarOp 6 a b).toNat = a.toNat / 2 ^ b.toNat := by
  rw [scalarOp, BitVec.toNat_ushiftRight, Nat.shiftRight_eq_div_pow]

theorem scalarOp_sra (a b : Word) : (scalarOp 7 a b).toInt = a.toInt / 2 ^ b.toNat := by
  rw [scalarOp, BitVec.toInt_sshiftRight, Int.shiftRight_eq_div_pow]
  norm_cast

theorem scalarOp_min (a b : Word) : (scalarOp 9 a b).toInt = min a.toInt b.toInt := by
  rw [scalarOp, apply_ite BitVec.toInt, min_def]

theorem scalarOp_max (a b : Word) : (scalarOp 10 a b).toInt = max a.toInt b.toInt := by
  rw [max_def, ← apply_ite BitVec.toInt]
  rfl

section
variable {d : Dev} {c : Ic} (hres : ctlReserved c = false)
include hres

theorem doNop_ok : doNop d c = nextIns c d := by
  simp only [doNop, hres, failIf_false, ok_bind]

theorem doSli_ok : doSli d c = writeSd d c (BitVec.ofNat 32 c.w1) := by
  simp only [doSli, hres, failIf_false, ok_bind]

theorem doSop_ok (hfunc : fFUNC c.w0 % 16 ≤ 10) : doSop d c = writeSd d c (scalarOp (fFUNC c.w0 % 16)
    (sreg (getE d c.ctx c.idx) (fSA c.w0)) (if bit (fFUNC c.w0) 4 then BitVec.ofNat 32 c.w1 else sreg (getE d c.ctx c.idx) (fSB c.w0))) := by
  simp only [doSop, hres, decide_eq_false (Nat.not_lt.mpr hfunc), Bool.or_false, failIf_false, ok_bind]

theorem doFdset_ok (hfunc : fFUNC c.w0 ≤ 15) : doFdset d c = nextIns c (modE d c.ctx c.idx fun e =>
    { e with fd := smSet 0#64 e.fd (fFUNC c.w0) (BitVec.ofNat 32 c.w2 ++ BitVec.ofNat 32 c.w1) }) := by
  simp only [doFdset, hres, decide_eq_false (Nat.not_lt.mpr hfunc), Bool.or_false, failIf_false, ok_bind]

theorem doMovs_ok {v : Word} (hv : special d c c.w1 = some v) : doMovs d c = writeSd d c v := by
  simp only [doMovs, hres, hv, failIf_false, ok_bind]

end

/-- Settles O1: each of them by its effect on its engine, SOP by its operation; a shift of 32 or more takes the whole of B (log 19). -/
theorem scalarInstructionsWriteTheirDestination : Obligations.ScalarInstructionsWriteTheirDestination := by
  intro s e n c hres v A B
  refine ⟨fun hat => issue_next hat rfl (doNop_ok hres), fun hat => writesSd_of hat rfl (doSli_ok hres), fun hat hfunc => ?_,
    fun hat hfunc => ?_⟩
  · obtain ⟨t, hnext, hwrites⟩ := writesSd_of hat rfl (doSop_ok hres hfunc)
    refine ⟨t, hnext, _, hwrites, ?_⟩
    refine ⟨fun h => ?_, fun h => ?_, fun h => ?_, fun h => ?_, fun h => ?_, fun h => ?_, fun h => ?_, fun h => ?_, fun h => ?_, fun h => ?_,
      fun h => ?_⟩ <;> rw [h]
    · rfl
    · rfl
    · rfl
    · rfl
    · rfl
    · exact scalarOp_shl A B
    · exact scalarOp_shr A B
    · exact scalarOp_sra A B
    · rfl
    · exact scalarOp_min A B
    · exact scalarOp_max A B
  · obtain ⟨t, hnext, honly, heng⟩ := issue_engine hat rfl (doFdset_ok hres hfunc)
    refine ⟨t, hnext, honly, fun r => ?_, ?_⟩
    · rw [heng]
      exact smGet_smSet ..
    · rw [heng]
      rfl

/-! ### Special registers (06 R199) -/

/-- The low 13 bits of a word. -/
theorem ofNat_mod_eq_and (x : Word) : BitVec.ofNat 32 (x.toNat % 2 ^ 13) = x &&& 0x1FFF#32 := by
  apply BitVec.eq_of_toNat_eq
  rw [BitVec.toNat_and, BitVec.toNat_ofNat, show (0x1FFF#32).toNat = 2 ^ 13 - 1 from rfl, Nat.and_two_pow_sub_one_eq_mod]
  omega

/-- Special register 16 + l reads the state word of line l. -/
theorem special_line (d : Dev) (c : Ic) {l : Nat} (h : l < 16) :
    special d c (16 + l) = some (lineWord (lineOf (getE d c.ctx c.idx) l)) := by
  rw [Nat.add_comm]
  exact if_pos (by omega)

/-- A MOVS of a special register writes it into SD. -/
theorem movs_writes {s : State} {e : Fin 96} {n : Nat} {c : Ic} (hres : ctlReserved c = false) (hat : AtIns s e 0x0A n c) {v : Word}
    (hv : special s.dev c c.w1 = some v) : Completes (.iMovs e) s (fun t => WritesSd c s t v) :=
  writesSd_of hat rfl (doMovs_ok hres hv)

/-- Settles O2: each clause is a line of the table that `special` computes. -/
theorem movsReadsSpecialRegisters : Obligations.MovsReadsSpecialRegisters := by
  intro s e n c hres hat
  refine ⟨fun h => ?_, fun z hz h => ?_, fun h => ?_, fun h => ?_, fun h => ?_, fun h => ?_, fun x hx h => ?_, fun h => ?_, fun h => ?_,
    fun l hl h => ?_⟩ <;> refine movs_writes hres hat ?_ <;> rw [h]
  · rfl
  · simp only [special, hz]
  · exact congrArg (fun p => some (BitVec.ofNat 32 p)) (phys_fetch hat.1)
  · exact congrArg some (ofNat_mod_eq_and _)
  · rfl
  · rfl
  · simp only [special, shareBytes, hx]
    exact congrArg (fun k => some (BitVec.ofNat 32 k)) (by omega)
  · exact congrArg (fun p => some (BitVec.ofNat 32 (acycles s.dev p))) (phys_fetch hat.1)
  · exact congrArg (fun p => some (BitVec.ofNat 32 (acycles s.dev p / 2 ^ 32))) (phys_fetch hat.1)
  · exact special_line s.dev c hl

end Sys2Proof.Machine
end

section
/-! PROOF. The control instructions: BR, LOOP, CALL, RET and HALT (06 R194, R195). -/

namespace Sys2Proof.Machine

/-- The conditions of BR by FUNC. -/
theorem brTaken_iff {f : Nat} (hf : f ≤ 6) (a b : Word) : brTaken f a b = true ↔
    f = 0 ∨ (f = 1 ∧ a = b) ∨ (f = 2 ∧ a ≠ b) ∨ (f = 3 ∧ a.toInt < b.toInt) ∨ (f = 4 ∧ b.toInt ≤ a.toInt)
      ∨ (f = 5 ∧ a.toNat < b.toNat) ∨ (f = 6 ∧ b.toNat ≤ a.toNat) := by
  interval_cases f <;> simp [brTaken]

section
variable {s : State} {e n : Nat} {c : Ic} (hres : ctlReserved c = false)
include hres

/-- BR to an index of the program goes there or on in sequence, by its condition. -/
theorem doBr_ok {op : Nat} (hat : AtIns s e op n c) (hfunc : fFUNC c.w0 ≤ 6) (hin : c.w1 < n) :
    doBr s.dev c = if brTaken (fFUNC c.w0) (sreg (engOf s c) (fSA c.w0)) (sreg (engOf s c) (fSB c.w0)) then
      .ok { dev := s.dev, pc := c.w1, seq := decide (c.w1 = c.pc + 1) } else nextIns c s.dev := by
  simp only [doBr, hres, icount_fetch hat.1, decide_eq_false (Nat.not_lt.mpr hfunc), decide_eq_false (Nat.not_le.mpr hin),
    Bool.or_false, failIf_false, ok_bind]
  rfl

/-- LOOP with a body in the program and a free loop counter passes its body over, or takes the counter. -/
theorem doLoop_ok {op : Nat} (hat : AtIns s e op n c) (hfunc : fFUNC c.w0 ≤ 1) (hin : c.w1 < n) (hbody : c.pc + 1 ≤ c.w1)
    (hroom : (engOf s c).loops.length < 4) :
    doLoop s.dev c =
      let count := if fFUNC c.w0 = 1 then (sreg (engOf s c) (fSA c.w0)).toNat else c.w2
      if count = 0 then .ok { dev := s.dev, pc := c.w1 + 1, seq := true }
      else nextIns c (modE s.dev c.ctx c.idx fun e => { e with loops := (c.pc + 1, c.w1, count) :: e.loops }) := by
  have hroom' : ¬ 4 ≤ (getE s.dev c.ctx c.idx).loops.length := Nat.not_le.mpr hroom
  simp only [doLoop, hres, icount_fetch hat.1, decide_eq_false (Nat.not_lt.mpr hfunc), decide_eq_false (Nat.not_le.mpr hin),
    decide_eq_false (Nat.not_lt.mpr hbody), decide_eq_false hroom', Bool.or_false, failIf_false, ok_bind]
  rfl

/-- CALL with room on the call stack stacks the index after it. -/
theorem doCall_ok {op : Nat} (hat : AtIns s e op n c) (hin : c.w1 < n) (hroom : (engOf s c).calls.length < 8) :
    doCall s.dev c =
      .ok { dev := modE s.dev c.ctx c.idx fun e => { e with calls := (c.pc + 1) :: e.calls }, pc := c.w1, seq := false } := by
  have hroom' : ¬ 8 ≤ (getE s.dev c.ctx c.idx).calls.length := Nat.not_le.mpr hroom
  simp only [doCall, hres, icount_fetch hat.1, decide_eq_false (Nat.not_le.mpr hin), decide_eq_false hroom', Bool.or_false,
    failIf_false, ok_bind]
  rfl

/-- RET takes the index on top of the call stack. -/
theorem doRet_ok {r : Nat} {rs : List Nat} (hcalls : (engOf s c).calls = r :: rs) :
    doRet s.dev c = .ok { dev := modE s.dev c.ctx c.idx fun e => { e with calls := rs }, pc := r, seq := false } := by
  have hcalls' : (getE s.dev c.ctx c.idx).calls = r :: rs := hcalls
  simp only [doRet, hres, hcalls', failIf_false, ok_bind]
  rfl

/-- HALT of an engine whose launch has another one that has not halted: the launch goes on. -/
theorem doHalt_ok {z : Launch} {i : Nat} (hidle : unitXfers s.dev c.ctx c.idx = []) (hz : smFind s.dev.launches c.launch = some z)
    (hlo : z.engFirst ≤ i) (hhi : i < z.engFirst + z.engCount) (hother : engKey c.ctx i ≠ engKey c.ctx c.idx)
    (hruns : (getE s.dev c.ctx i).seq ≠ .halted) :
    doHalt s.dev c = .ok { dev := modE s.dev c.ctx c.idx fun e => { e with seq := .halted, endCyc := acycles s.dev c.phys },
                           pc := c.pc, seq := false } := by
  have hmem : i ∈ launchEngines z := List.mem_range'_1.mpr ⟨hlo, hhi⟩
  have hrest : (launchEngines z).all (fun j => decide ((getE (modE s.dev c.ctx c.idx fun e =>
      { e with seq := .halted, endCyc := acycles s.dev c.phys }) c.ctx j).seq = .halted)) = false := by
    rw [List.all_eq_false]
    refine ⟨i, hmem, ?_⟩
    rw [modE, getE_setE_ne _ _ hother]
    simpa using hruns
  simp only [doHalt, hres, hidle, List.isEmpty_nil, Bool.not_true, failIf_false, stallIf_false, ok_bind, modE_launches, hz, hrest,
    Bool.false_eq_true, if_false]
  rfl

end

/-- A LOOP of count 0 moves PC behind its body, which may end the bodies of other loops (06 R194). -/
theorem issue_pass_over {s : State} {op e n last : Nat} {c : Ic} {body : Dev → Ic → Ex Nx} (h : AtIns s e op n c)
    (hk : opcodeKnown op = true) (hb : body s.dev c = .ok { dev := s.dev, pc := last + 1, seq := true }) :
    ∃ t, onDev s (issue op e body) = .next t ∧ OnlyEngine c s t ∧
      ((engOf t c).loops, (engOf t c).pc) = loopNext last (last + 1) (engOf s c).loops := by
  have hissue := issue_ok h.1 h.2.1 h.2.2 hk hb
  refine ⟨_, rfl, ⟨?_, fun k hne => ?_⟩, ?_⟩
  · rw [hissue]
    rfl
  · rw [hissue]
    exact (eng_movePc_ne _ _ _ _ _ hne).trans (eng_modE_ne _ _ _ _ hne)
  · simp only [engOf, hissue, movePc, getE_modE_same, if_true]
    rfl

/-- Settles O3: BR by its condition, LOOP by its count, the others by their effect on their engine. HALT leaves PC on itself (log 19). -/
theorem controlInstructionsMovePc : Obligations.ControlInstructionsMovePc := by
  intro s e n c hres v A B F holds
  refine ⟨fun hat hfunc hin hne hholds => ?_, fun hat hfunc hin hnot => ?_, fun hat hfunc hin hbody hroom => ?_,
    fun hat hin hroom => issue_jump_engine hat rfl (doCall_ok hres hat hin hroom),
    fun r rs hat hcalls => issue_jump_engine hat rfl (doRet_ok hres hcalls),
    fun z i hat hidle hz hlo hhi hother hruns => issue_jump_engine hat rfl (doHalt_ok hres hidle hz hlo hhi hother hruns)⟩
  · have htaken : brTaken F A B = true := (brTaken_iff hfunc A B).mpr hholds
    have hbr := doBr_ok hres hat hfunc hin
    rw [if_pos htaken, decide_eq_false hne] at hbr
    obtain ⟨t, hnext, hdev, hothers, heng⟩ := issue_jump hat rfl hbr
    exact ⟨t, hnext, ⟨hdev, hothers⟩, heng⟩
  · have htaken : ¬ brTaken F A B = true := fun h => hnot ((brTaken_iff hfunc A B).mp h)
    have hbr := doBr_ok hres hat hfunc hin
    rw [if_neg htaken] at hbr
    exact issue_next hat rfl hbr
  · have hloop := doLoop_ok hres hat hfunc hin hbody hroom
    intro count
    refine ⟨fun hpos => ?_, fun hzero => ?_⟩
    · exact issue_engine hat rfl (hloop.trans (if_neg hpos.ne'))
    · exact issue_pass_over hat rfl (hloop.trans (if_pos hzero))

end Sys2Proof.Machine
end

section
/-! PROOF. Scalar loads and stores, and BFENCE (06 R189, R194, R195, R202). -/

namespace Sys2Proof.Machine

/-! ### Bytes of the basket as a word -/

/-- Byte k of a number laid out least significant byte first. -/
theorem leNat_byte (bs : List Byte) {k : Nat} (hk : k < bs.length) : leNat bs / 256 ^ k % 256 = bs[k].toNat := by
  induction bs generalizing k with
  | nil => simp at hk
  | cons b bs ih =>
    have hb := b.isLt
    cases k with
    | zero => simp only [leNat, List.getElem_cons_zero]; omega
    | succ k =>
      have hdiv : leNat (b :: bs) / 256 = leNat bs := by simp only [leNat]; omega
      rw [pow_succ', ← Nat.div_div_eq_div_mul, hdiv, ih (by simpa using hk)]
      rfl

theorem memRead_getElem (m : Mem) (a : Nat) {n k : Nat} (hk : k < (memRead m a n).length) : (memRead m a n)[k] = memByte m (a + k) := by
  induction n generalizing a k with
  | zero => simp [memRead] at hk
  | succ n ih =>
    cases k with
    | zero => rfl
    | succ k => exact (ih (a + 1) (by simpa [memRead] using hk)).trans (by rw [Nat.add_assoc, Nat.add_comm 1])

/-- Byte k of a word read from memory. -/
theorem extract_memRead (m : Mem) (a : Nat) {k : Nat} (hk : k < 4) :
    (BitVec.ofNat 32 (leNat (memRead m a 4))).extractLsb' (8 * k) 8 = memByte m (a + k) := by
  have hlen : k < (memRead m a 4).length := by rwa [memRead_length]
  have hbyte := leNat_byte _ hlen
  rw [memRead_getElem] at hbyte
  apply BitVec.eq_of_toNat_eq
  rw [← hbyte, BitVec.extractLsb'_toNat, BitVec.toNat_ofNat, Nat.shiftRight_eq_div_pow, pow_mul]
  interval_cases k <;> omega

/-! ### SLD and SST -/

section
variable {s : State} {c : Ic} (hres : ctlReserved c = false)
  (halign : ((sreg (engOf s c) (fSA c.w0)).toNat + c.w1) % 2 ^ 32 % 4 = 0)
  (hopen : BasketOpen s c.ctx c.idx (((sreg (engOf s c) (fSA c.w0)).toNat + c.w1) % 2 ^ 32) 4)
include halign hopen

theorem sldCheck_ok : sldCheck s.dev c = .ok (((sreg (engOf s c) (fSA c.w0)).toNat + c.w1) % 2 ^ 32) := by
  have hoff : sldOff s.dev c % 2 ^ 32 = ((sreg (engOf s c) (fSA c.w0)).toNat + c.w1) % 2 ^ 32 := rfl
  simp only [sldCheck, hoff, if_pos halign, basketOk_open hopen, ok_bind]
  rfl

include hres

theorem doSld_ok (hclean : HandedOver s c.ctx c.idx .sequencer (((sreg (engOf s c) (fSA c.w0)).toNat + c.w1) % 2 ^ 32)
      (((sreg (engOf s c) (fSA c.w0)).toNat + c.w1) % 2 ^ 32 + 4)) :
    doSld s.dev c = writeSd s.dev c (BitVec.ofNat 32 (leNat (memRead s.dev.mem.baskets
      (shareAt s c.ctx c.idx (((sreg (engOf s c) (fSA c.w0)).toNat + c.w1) % 2 ^ 32)) 4))) := by
  simp only [doSld, hres, failIf_false, sldCheck_ok halign hopen, ok_bind, basketRead_clean hclean]

theorem doSst_ok : doSst s.dev c = nextIns c (basketWrite s.dev c.ctx c.idx .sequencer
    (((sreg (engOf s c) (fSA c.w0)).toNat + c.w1) % 2 ^ 32) (natLe 4 (sreg (engOf s c) (fSB c.w0)).toNat)) := by
  simp only [doSst, hres, failIf_false, sldCheck_ok halign hopen, ok_bind]
  rfl

end

/-- A store of the sequencer leaves its engine as it was, but for what lines note of their lists. -/
theorem issue_store_sequencer {s : State} {op e n : Nat} {c : Ic} {off : Nat} {bs : List Byte} {body : Dev → Ic → Ex Nx}
    (h : AtIns s e op n c) (hk : opcodeKnown op = true) (hclean : HandedOver s c.ctx c.idx .sequencer off (off + bs.length))
    (hb : body s.dev c = nextIns c (basketWrite s.dev c.ctx c.idx .sequencer off bs)) :
    ∃ t, onDev s (issue op e body) = .next t ∧ OnlyEngineAndBasket c s t
      ∧ engOf t c = { afterSeq c (engOf s c) with lines := (engOf t c).lines }
      ∧ LinesNote s t c.ctx c.idx ∧ t.dev.mem.baskets = memWrite s.dev.mem.baskets (shareAt s c.ctx c.idx off) bs := by
  obtain ⟨t, hnext, honly, -, hnote, hbytes⟩ := issue_store h hk hclean hb
  obtain ⟨u, hnext', -, -, heng⟩ := issue_seq h hk hb
  obtain rfl : t = u := Host.Outcome.next.inj (hnext.symm.trans hnext')
  refine ⟨t, hnext, honly, ?_, hnote, hbytes⟩
  rw [heng, basketWrite_sequencer]
  rfl

/-- Settles O4: SLD as a read of its word, SST as a write of the sequencer's four bytes; lines note replaced list entries (log 7). -/
theorem scalarLoadsAndStoresReachTheBasket : Obligations.ScalarLoadsAndStoresReachTheBasket := by
  intro s e n c hres off halign hopen
  refine ⟨fun hat hclean => ?_, fun hat hclean => ?_⟩
  · obtain ⟨t, hnext, hwrites⟩ := writesSd_of hat rfl (doSld_ok hres halign hopen hclean)
    exact ⟨t, hnext, _, hwrites, fun k hk => extract_memRead _ _ hk⟩
  · obtain ⟨t, hnext, honly, heng, hnote, hbytes⟩ :=
      issue_store_sequencer hat rfl (by rwa [natLe_length]) (doSst_ok hres halign hopen)
    refine ⟨t, hnext, honly, heng, hnote, fun k hk => ?_, fun a ha => ?_⟩
    · rw [hbytes, memByte_memWrite_in _ _ _ _ (by rwa [natLe_length])]
      exact Option.some.inj ((List.getElem?_eq_getElem _).symm.trans (natLe_four_getElem? _ hk))
    · rw [hbytes, memByte_memWrite_out _ _ _ _ (by rwa [natLe_length])]

/-! ### BFENCE -/

/-- A BFENCE of mask m hands the written range over. -/
def fenced (m : Nat) (z : Dirty) : Bool :=
  (bit m 0 && decide (z.who = .press)) || (bit m 1 && decide (z.who = .finisher))
    || (bit m 2 && decide (z.who = .line)) || (bit m 3 && decide (writerOf z.who = .transfer))

theorem fenced_iff (m : Nat) (z : Dirty) : fenced m z = true ↔ (bit m 0 = true ∧ z.who = .press) ∨ (bit m 1 = true ∧ z.who = .finisher)
    ∨ (bit m 2 = true ∧ z.who = .line) ∨ (bit m 3 = true ∧ writerOf z.who = .transfer) := by
  simp only [fenced, Bool.or_eq_true, Bool.and_eq_true, decide_eq_true_eq, or_assoc]

/-- The transfers that write a basket. -/
theorem lands_iff (k : XKind) : doBfence.lands k = true ↔ k = .toBasket ∨ ∃ dst, k = .toEngine dst := by
  cases k <;> simp [doBfence.lands]

theorem any_lands_iff (d : Dev) (c : Ic) : (unitXfers d c.ctx c.idx).any (fun x => doBfence.lands x.kind) = true ↔
    ∃ x ∈ unitXfers d c.ctx c.idx, x.kind = .toBasket ∨ ∃ dst, x.kind = .toEngine dst := by
  simp only [List.any_eq_true, lands_iff]

section
variable {d : Dev} {c : Ic} (hres : ctlReserved c = false) (hfunc : fFUNC c.w0 ≤ 15)
include hres hfunc

/-- BFENCE does what it does once the transfers that it waits for have written. -/
theorem doBfence_eq : doBfence d c =
    (stallIf (bit (fFUNC c.w0) 3 && (unitXfers d c.ctx c.idx).any fun x => doBfence.lands x.kind) >>= fun _ =>
      nextIns c (handOver d c.ctx c.idx (fenced (fFUNC c.w0)))) := by
  simp only [doBfence, hres, decide_eq_false (Nat.not_lt.mpr hfunc), Bool.or_false, failIf_false, ok_bind]
  rfl

end

/-- Settles O6: the mask selects what is handed over; the line bit waits for no stream, the transfer bit for no read (log 7). -/
theorem bfenceHandsOverBasketWrites : Obligations.BfenceHandsOverBasketWrites := by
  intro s e n c hres hfunc hat landing named
  have hbody := doBfence_eq (d := s.dev) hres hfunc
  have hwait : (bit (fFUNC c.w0) 3 && (unitXfers s.dev c.ctx c.idx).any fun x => doBfence.lands x.kind) = true ↔
      bit (fFUNC c.w0) 3 = true ∧ landing := by
    rw [Bool.and_eq_true, any_lands_iff]
  refine ⟨fun hgo => ?_, fun hstall => ?_⟩
  · rw [Bool.eq_false_iff.mpr fun h => hgo (hwait.mp h), stallIf_false, ok_bind] at hbody
    obtain ⟨t, hnext, honly, heng⟩ := issue_engine hat rfl hbody
    refine ⟨t, hnext, honly, fun z => ?_, ?_⟩
    · rw [heng]
      refine List.mem_filter.trans (and_congr_right fun _ => ?_)
      rw [Bool.not_eq_true', ← Bool.not_eq_true, fenced_iff]
    · rw [heng]
      rfl
  · rw [hwait.mpr hstall, stallIf_true, error_bind] at hbody
    exact congrArg Host.Outcome.next (congrArg (fun d => { s with dev := d }) (issue_stall hat.1 hat.2.1 hat.2.2 rfl hbody))

end Sys2Proof.Machine
end

section
/-! PROOF. XADD: fields of an instruction word that patches change one after the other (06 R197, R198). -/

namespace Sys2Proof.Machine

/-! ### The bits of a patched word -/

/-- The lowest bit of a patch's field in the instruction. -/
def Patch.start (p : Patch) : Nat := 32 * p.word + p.low

/-- The field lies in the 32 bits of one of the four words. -/
def Patch.inWord (p : Patch) : Prop := p.word < 4 ∧ p.low + p.width ≤ 32

/-- The value that a patch gives its field (06 R198). -/
def patched (e : EngCtx) (w : BitVec 128) (p : Patch) : Nat := (patchField w p + (sreg e p.sr).toNat) % 2 ^ p.width

theorem patched_lt (e : EngCtx) (w : BitVec 128) (p : Patch) : patched e w p < 2 ^ p.width := Nat.mod_lt _ (Nat.two_pow_pos _)

theorem inPatch_iff (p : Patch) (b : Nat) : inPatch p b ↔ p.start ≤ b ∧ b < p.start + p.width := Iff.rfl

/-- Bit i of a field is a bit of the word. -/
theorem testBit_patchField (w : BitVec 128) (p : Patch) (i : Nat) :
    (patchField w p).testBit i = (decide (i < p.width) && w.getLsbD (p.start + i)) := by
  rw [patchField, Nat.testBit_mod_two_pow, Nat.testBit_div_two_pow, Nat.add_comm i, ← BitVec.testBit_toNat, Patch.start]

/-- A number with n bits from bit k on replaced. -/
theorem testBit_replace {v x k n : Nat} (hx : x < 2 ^ n) (b : Nat) :
    (v - v / 2 ^ k % 2 ^ n * 2 ^ k + x * 2 ^ k).testBit b = if k ≤ b ∧ b < k + n then x.testBit (b - k) else v.testBit b := by
  have hcut : v - v / 2 ^ k % 2 ^ n * 2 ^ k + x * 2 ^ k = 2 ^ k * (2 ^ n * (v / 2 ^ k / 2 ^ n) + x) + v % 2 ^ k := by
    have hlow := Nat.div_add_mod v (2 ^ k)
    have hmid := congrArg (2 ^ k * ·) (Nat.div_add_mod (v / 2 ^ k) (2 ^ n))
    simp only [Nat.mul_add] at hmid
    rw [Nat.mul_add, Nat.mul_comm _ (2 ^ k), Nat.mul_comm x]
    omega
  rw [hcut, Nat.testBit_two_pow_mul_add _ (Nat.mod_lt _ (Nat.two_pow_pos k))]
  by_cases hk : b < k
  · rw [if_pos hk, if_neg (by omega), Nat.testBit_mod_two_pow, decide_eq_true hk, Bool.true_and]
  · rw [if_neg hk, Nat.testBit_two_pow_mul_add _ hx]
    by_cases hn : b - k < n
    · rw [if_pos hn, if_pos (by omega)]
    · rw [if_neg hn, if_neg (by omega), Nat.testBit_div_two_pow, Nat.testBit_div_two_pow]
      congr 1
      omega

/-- A patch gives its field the sum and leaves every other bit. -/
theorem getLsbD_applyPatch (e : EngCtx) (w : BitVec 128) (p : Patch) {b : Nat} (hb : b < 128) :
    (applyPatch e w p).getLsbD b =
      if p.start ≤ b ∧ b < p.start + p.width then (patched e w p).testBit (b - p.start) else w.getLsbD b := by
  have hreplace := testBit_replace (v := w.toNat) (k := p.start) (patched_lt e w p) b
  rw [BitVec.testBit_toNat] at hreplace
  rw [← hreplace, applyPatch, BitVec.getLsbD_ofNat, decide_eq_true hb, Bool.true_and]
  rfl

/-! ### One patch -/

/-- A field depends on its own bits alone. -/
theorem patchField_congr {w w' : BitVec 128} {p : Patch} (h : ∀ b, inPatch p b → w.getLsbD b = w'.getLsbD b) :
    patchField w p = patchField w' p := by
  refine Nat.eq_of_testBit_eq fun i => ?_
  rw [testBit_patchField, testBit_patchField]
  by_cases hi : i < p.width
  · rw [h _ ((inPatch_iff ..).mpr (by omega))]
  · rw [decide_eq_false hi, Bool.false_and, Bool.false_and]

theorem Patch.inWord.lt {p : Patch} (hp : p.inWord) {b : Nat} (hb : inPatch p b) : b < 128 := by
  obtain ⟨hword, hend⟩ := hp
  obtain ⟨-, hhi⟩ := hb
  omega

theorem patchField_applyPatch_same (e : EngCtx) (w : BitVec 128) {p : Patch} (hp : p.inWord) :
    patchField (applyPatch e w p) p = patched e w p := by
  refine Nat.eq_of_testBit_eq fun i => ?_
  rw [testBit_patchField]
  by_cases hi : i < p.width
  · have hin : inPatch p (p.start + i) := (inPatch_iff ..).mpr (by omega)
    rw [getLsbD_applyPatch e w p (hp.lt hin), if_pos ((inPatch_iff ..).mp hin), Nat.add_sub_cancel_left, decide_eq_true hi, Bool.true_and]
  · rw [decide_eq_false hi, Bool.false_and]
    exact (Nat.testBit_lt_two_pow ((patched_lt e w p).trans_le (Nat.pow_le_pow_right (by omega) (by omega)))).symm

theorem getLsbD_applyPatch_out (e : EngCtx) (w : BitVec 128) {p : Patch} {b : Nat} (hb : b < 128) (hout : ¬ inPatch p b) :
    (applyPatch e w p).getLsbD b = w.getLsbD b := by
  rw [getLsbD_applyPatch e w p hb, if_neg fun h => hout ((inPatch_iff ..).mpr h)]

/-- Patches that do not overlap have no bit in common. -/
theorem not_inPatch_of_disjoint {p q : Patch} (hp : p.inWord) (hq : q.inWord) (hdisj : patchOverlap p q = false) {b : Nat}
    (hb : inPatch q b) : ¬ inPatch p b := by
  obtain ⟨-, hpend⟩ := hp
  obtain ⟨-, hqend⟩ := hq
  obtain ⟨hqlo, hqhi⟩ := hb
  rintro ⟨hplo, hphi⟩
  simp only [patchOverlap, Bool.and_eq_false_iff, beq_eq_false_iff_ne, decide_eq_false_iff_not] at hdisj
  omega

/-! ### All patches of an XADD -/

/-- Patches that do not overlap each add their register into their field, and no bit outside them changes. -/
theorem foldl_applyPatch (e : EngCtx) {ps : List Patch} (hin : ∀ p ∈ ps, p.inWord)
    (hdisj : ps.Pairwise fun q r => patchOverlap q r = false) (w : BitVec 128) :
    (∀ q ∈ ps, patchField (ps.foldl (applyPatch e) w) q = patched e w q) ∧
      ∀ b, b < 128 → (∀ q ∈ ps, ¬ inPatch q b) → (ps.foldl (applyPatch e) w).getLsbD b = w.getLsbD b := by
  induction ps generalizing w with
  | nil => exact ⟨by simp, fun _ _ _ => rfl⟩
  | cons p ps ih =>
    obtain ⟨hfirst, hrest⟩ := List.pairwise_cons.mp hdisj
    have hp := hin p List.mem_cons_self
    obtain ⟨hfields, hbits⟩ := ih (fun q hq => hin q (List.mem_cons_of_mem _ hq)) hrest (applyPatch e w p)
    have hapart {q : Patch} (hq : q ∈ ps) {b : Nat} (hb : inPatch q b) : ¬ inPatch p b :=
      not_inPatch_of_disjoint hp (hin q (List.mem_cons_of_mem _ hq)) (hfirst q hq) hb
    refine ⟨fun q hq => ?_, fun b hb hout => ?_⟩
    · rcases List.mem_cons.mp hq with rfl | hq
      · have hkeep : ∀ b, inPatch q b → (ps.foldl (applyPatch e) (applyPatch e w q)).getLsbD b = (applyPatch e w q).getLsbD b :=
          fun b hb => hbits b (hp.lt hb) fun r hr hbr => hapart hr hbr hb
        exact (patchField_congr hkeep).trans (patchField_applyPatch_same e w hp)
      · have hkeep : patchField (applyPatch e w p) q = patchField w q := patchField_congr fun b hb =>
          getLsbD_applyPatch_out e w ((hin q (List.mem_cons_of_mem _ hq)).lt hb) (hapart hq hb)
        rw [List.foldl_cons, hfields q hq, patched, hkeep]
        rfl
    · rw [List.foldl_cons, hbits b hb fun q hq => hout q (List.mem_cons_of_mem _ hq),
        getLsbD_applyPatch_out e w hb (hout p List.mem_cons_self)]

/-- A patch of an instruction names one of its four words. -/
theorem word_lt_of_patchOf {w : Nat} {p : Patch} (h : patchOf w = some p) : p.word < 4 := by
  unfold patchOf at h
  split at h
  · cases h
    exact Nat.mod_lt _ (by decide)
  · cases h

theorem inWord_of_patches {ws : List Nat} {p : Patch} (hp : p ∈ ws.filterMap patchOf) (hbad : patchBad p = false) : p.inWord := by
  obtain ⟨w, -, hw⟩ := List.mem_filterMap.mp hp
  simp only [patchBad, Bool.or_eq_false_iff, decide_eq_false_iff_not] at hbad
  exact ⟨word_lt_of_patchOf hw, Nat.not_lt.mp hbad.1⟩

/-- Patches that do not overlap do not clash. -/
theorem patchClash_of_pairwise {ps : List Patch} (h : ps.Pairwise fun q r => patchOverlap q r = false) : patchClash ps = false := by
  unfold patchClash
  split
  · simpa using h
  · simp only [List.pairwise_cons, List.mem_cons, List.not_mem_nil, or_false, forall_eq_or_imp, forall_eq] at h
    obtain ⟨⟨hpq, hpr⟩, hqr, -⟩ := h
    rw [hpq, hpr, hqr]
    rfl
  · rfl

/-- XADD of patches that may stand together leaves the patched word for the next instruction. -/
theorem doXadd_ok {s : State} {op e n : Nat} {c : Ic} {z : Launch} {x : Ctx} {p : Prog} (hat : AtIns s e op n c)
    (hz : smFind s.dev.launches c.launch = some z) (hx : smFind s.dev.ctxs c.ctx = some x) (hp : smFind x.progs z.slot = some p)
    (h0 : c.w0 % 2 ^ 24 = 0) (hws : ∀ w ∈ [c.w1, c.w2, c.w3], w % 2 ^ 14 = 0) (hnext : c.pc + 1 < n)
    (hop : 0x20 ≤ opcodeOf (insWord (nth 0#128 p.words (c.pc + 1)) 0))
    (hbad : ∀ q ∈ [c.w1, c.w2, c.w3].filterMap patchOf, patchBad q = false)
    (hdisj : ([c.w1, c.w2, c.w3].filterMap patchOf).Pairwise fun q r => patchOverlap q r = false) :
    doXadd s.dev c = nextIns c (modE s.dev c.ctx c.idx fun v => { v with patch := some (c.pc + 1,
      ([c.w1, c.w2, c.w3].filterMap patchOf).foldl (applyPatch (engOf s c)) (nth 0#128 p.words (c.pc + 1))) }) := by
  have hreserved : [c.w1, c.w2, c.w3].any (fun w => w % 2 ^ 14 != 0) = false := by
    rw [List.any_eq_false]
    exact fun w hw => by rw [hws w hw]; decide
  have hgood : ([c.w1, c.w2, c.w3].filterMap patchOf).any patchBad = false := by
    rw [List.any_eq_false]
    exact fun q hq => by rw [hbad q hq]; decide
  simp only [doXadd, h0, hreserved, icount_fetch hat.1, hgood, patchClash_of_pairwise hdisj, hz, hx, hp,
    decide_eq_false (Nat.not_le.mpr hnext), decide_eq_false (Nat.not_lt.mpr hop), bne_self_eq_false, Bool.or_false, failIf_false, ok_bind]
  rfl

/-- Settles O5: the patches do not overlap, so that each finds its field as the instruction has it. -/
theorem xaddPatchesTheNextInstruction : Obligations.XaddPatchesTheNextInstruction := by
  intro s e n c z x p ps target hat hz hx hp h0 hws hnext hop hbad hdisj
  obtain ⟨t, hstep, honly, heng⟩ := issue_engine hat rfl (doXadd_ok hat hz hx hp h0 hws hnext hop hbad hdisj)
  obtain ⟨hfields, hbits⟩ := foldl_applyPatch (engOf s c) (fun q hq => inWord_of_patches hq (hbad q hq)) hdisj target
  exact ⟨t, hstep, _, honly, heng, hfields, hbits⟩

end Sys2Proof.Machine
end

section
/-! PROOF. The line instructions: LSET, LSTART, LREL, LSTAT, LWAIT and LCANCEL (06 R208, R215 to R220, R226, R228). -/

namespace Sys2Proof.Machine

@[simp] theorem lineAt_false (off n : Nat) : lineAt false off n = .ok () := rfl

/-! ### LSET, LSTART, LREL and LSTAT -/

/-- LSET of a descriptor that may stand, into an IDLE line. -/
theorem doLset_ok {s : State} {c : Ic} {x : List Byte} (h0 : c.w0 % 2 ^ 15 = 0) (h1 : c.w1 % 2 ^ 15 = 0) (h2 : c.w2 = 0) (h3 : c.w3 = 0)
    (hopen : BasketOpen s c.ctx c.idx (64 * bits c.w1 31 15) 64)
    (hclean : HandedOver s c.ctx c.idx .line (64 * bits c.w1 31 15) (64 * bits c.w1 31 15 + 64))
    (hx : x = memRead s.dev.mem.baskets (shareAt s c.ctx c.idx (64 * bits c.w1 31 15)) 64)
    (hidle : (lineOf (engOf s c) (fLine c.w0)).state = .idle) (hgood : ldBad x = false)
    (hpegs : ldPegBase x + ldSlots x * ldPegSize x ≤ shareBytes s.dev c.ctx)
    (hlist : ldMode x = 1 → listBase x + 8 * ldCount1 x ≤ shareBytes s.dev c.ctx)
    (hapart : ∀ p ∈ (engOf s c).lines, p.1 ≠ fLine c.w0 → p.2.state ≠ .idle → pegsOverlap x p.2.desc = false) :
    doLset s.dev c = nextIns c (modE s.dev c.ctx c.idx fun e => setLine e (fLine c.w0) { state := .ready, desc := x }) := by
  have hread := basketRead_clean hclean
  rw [← hx] at hread
  have hidle' : (lineOf (getE s.dev c.ctx c.idx) (fLine c.w0)).state = .idle := hidle
  have hdesc : ¬ shareBytes s.dev c.ctx < 64 * bits c.w1 31 15 + 64 := Nat.not_lt.mpr hopen.1
  have hin : (ldMode x == 1 && decide (shareBytes s.dev c.ctx < listBase x + 8 * ldCount1 x)) = false := by
    rw [Bool.and_eq_false_iff, beq_eq_false_iff_ne, decide_eq_false_iff_not, Nat.not_lt]
    exact or_iff_not_imp_left.mpr fun h => hlist (not_not.mp h)
  have hfree : (getE s.dev c.ctx c.idx).lines.any
      (fun p => p.1 != fLine c.w0 && decide (p.2.state ≠ .idle) && pegsOverlap x p.2.desc) = false := by
    rw [List.any_eq_false]
    intro p hp hmeets
    simp only [Bool.and_eq_true, bne_iff_ne, decide_eq_true_eq] at hmeets
    obtain ⟨⟨hne, hused⟩, hover⟩ := hmeets
    rw [hapart p hp hne hused] at hover
    cases hover
  simp only [doLset, h0, h1, h2, h3, hidle', decide_eq_false hdesc, basketOk_open hopen, hread, hgood, hin, hfree,
    decide_eq_false (Nat.not_lt.mpr hpegs), bne_self_eq_false, Bool.or_false, ne_eq, not_true, decide_false, lineIf_false, lineAt_false,
    reduceCtorEq, stallIf_false, ok_bind]

section
variable {d : Dev} {c : Ic} (hres : lineReserved c = false)
include hres

theorem doLstart_ok (hready : (lineOf (getE d c.ctx c.idx) (fLine c.w0)).state = .ready) :
    let l := lineOf (getE d c.ctx c.idx) (fLine c.w0)
    doLstart d c = nextIns c (modE d c.ctx c.idx fun e => setLine e (fLine c.w0)
      { l with state := .running, head := 0, tail := 0, rel := 0, pos := 0,
               pegs := List.replicate (ldSlots l.desc) {}, credit := 64 * ldRate l.desc }) := by
  simp only [doLstart, hres, hready, ne_eq, not_true, decide_false, lineIf_false, ok_bind]

/-- LREL of a line with a TAKEN peg frees the oldest; the last one of a DONE line ends it. -/
theorem doLrel_ok (htaken : 0 < countPegs (lineOf (getE d c.ctx c.idx) (fLine c.w0)) .taken) :
    let l := lineOf (getE d c.ctx c.idx) (fLine c.w0)
    doLrel d c = nextIns c (modE d c.ctx c.idx fun e => setLine e (fLine c.w0)
      (if l.state = .done ∧ l.rel + 1 = streamPegs l.desc then {} else { setPeg l (slotOf l l.rel) {} with rel := l.rel + 1 })) := by
  simp only [doLrel, hres, beq_eq_false_iff_ne.mpr htaken.ne', lineIf_false, ok_bind]

theorem doLstat_ok : doLstat d c = nextIns c (modE d c.ctx c.idx fun e =>
    setSreg e (fLineSD c.w0) (lineWord (lineOf e (fLine c.w0)))) := by
  simp only [doLstat, hres, lineIf_false, ok_bind]

end

/-- LSTAT writes the word of the line as the engine holds it. -/
theorem doLstat_writes {d : Dev} {c : Ic} (hres : lineReserved c = false) : doLstat d c = nextIns c (modE d c.ctx c.idx fun e =>
    setSreg e (fLineSD c.w0) (lineWord (lineOf (getE d c.ctx c.idx) (fLine c.w0)))) := doLstat_ok hres

/-- Settles O7: each instruction passes its checks and puts its line into the stated state. -/
theorem lineInstructionsMoveTheLineStates : Obligations.LineInstructionsMoveTheLineStates := by
  intro s e k c v n l off x share
  refine ⟨fun hat h0 h1 h2 h3 hopen hclean hidle hgood hpegs hlist hapart =>
      writesLine_of hat rfl (doLset_ok h0 h1 h2 h3 hopen hclean rfl hidle hgood hpegs hlist hapart),
    fun hat hres hready => writesLine_of hat rfl (doLstart_ok hres hready), fun hat hres htaken hgoes => ?_,
    fun hat hres htaken hdone hlast => ?_, fun hat hres => writesReg_of hat rfl (doLstat_writes hres)⟩
  · have hbody := doLrel_ok hres htaken
    dsimp only at hbody
    rw [if_neg fun h => hgoes.elim (fun hs => hs h.1) fun hr => hr h.2] at hbody
    exact writesLine_of hat rfl hbody
  · have hbody := doLrel_ok hres htaken
    dsimp only at hbody
    rw [if_pos ⟨hdone, hlast⟩] at hbody
    exact writesLine_of hat rfl hbody

/-! ### LWAIT -/

@[simp] theorem setSreg_lines (e : EngCtx) (n : Nat) (v : Word) : (setSreg e n v).lines = e.lines := by rw [setSreg_only]

@[simp] theorem lineOf_setSreg (e : EngCtx) (n m : Nat) (v : Word) : lineOf (setSreg e n v) m = lineOf e m := by
  rw [lineOf, setSreg_lines]
  rfl

/-- The engine once LWAIT has taken the HEAD peg, but for its dirty ranges and the count of its stall. -/
def pegTaken (c : Ic) (n : Nat) (l : Line) (v : EngCtx) : EngCtx :=
  let k := slotOf l l.head
  setSreg (setSreg (setLine v n { setPeg l k { pegAt l k with state := .taken } with head := l.head + 1 })
    (fLineSD c.w0) (BitVec.ofNat 32 (slotOff l.desc k / 64))) (fLineSD c.w0 + 1) (BitVec.ofNat 32 (dstLen l.desc (pegSrcLen l.desc l.head)))

/-- Taking a peg changes scalar registers and lines. -/
theorem pegTaken_frame (c : Ic) (n : Nat) (l : Line) (v : EngCtx) :
    pegTaken c n l v = { v with s := (pegTaken c n l v).s, lines := (pegTaken c n l v).lines } := by
  simp only [pegTaken]
  rw [setSreg_only, setSreg_only (setLine _ _ _)]
  rfl

theorem getE_takePeg (d : Dev) (c : Ic) (n : Nat) (l : Line) : getE (takePeg d c n l) c.ctx c.idx =
    { pegTaken c n l (getE d c.ctx c.idx) with
      dirty := (getE (takePeg d c n l) c.ctx c.idx).dirty, stalled := (getE (takePeg d c n l) c.ctx c.idx).stalled, stallFrom := none } := by
  simp only [takePeg, getE_modE_same]
  rfl

theorem takePeg_only (d : Dev) (c : Ic) (n : Nat) (l : Line) : takePeg d c n l = { d with eng := (takePeg d c n l).eng } := rfl

theorem eng_takePeg_ne (d : Dev) (c : Ic) (n : Nat) (l : Line) {k : Nat} (h : k ≠ engKey c.ctx c.idx) :
    smGet {} (takePeg d c n l).eng k = smGet {} d.eng k :=
  (eng_modE_ne _ _ _ _ h).trans (eng_modE_ne _ _ _ _ h)

theorem getE_noteStall (d : Dev) (c : Ic) : getE (noteStall d c) c.ctx c.idx =
    { getE d c.ctx c.idx with stallFrom := (getE (noteStall d c) c.ctx c.idx).stallFrom } := by
  unfold noteStall
  rw [getE_modE_same]

section
variable {d : Dev} {c : Ic} (hres : lineReserved c = false) (hsd : fLineSD c.w0 ≠ 31)
  (hidle : (lineOf (getE d c.ctx c.idx) (fLine c.w0)).state ≠ .idle) (hready : (lineOf (getE d c.ctx c.idx) (fLine c.w0)).state ≠ .ready)
  (hcancel : (lineOf (getE d c.ctx c.idx) (fLine c.w0)).state ≠ .cancelling)
  (hend : (lineOf (getE d c.ctx c.idx) (fLine c.w0)).head ≠ streamPegs (lineOf (getE d c.ctx c.idx) (fLine c.w0)).desc)
  (htaken : countPegs (lineOf (getE d c.ctx c.idx) (fLine c.w0)) .taken ≠ ldSlots (lineOf (getE d c.ctx c.idx) (fLine c.w0)).desc)
include hres hsd hidle hready hcancel hend htaken

/-- LWAIT in order of a started line goes by its HEAD peg. -/
theorem doLwait_eq : doLwait d c =
    let l := lineOf (getE d c.ctx c.idx) (fLine c.w0)
    if (pegAt l (slotOf l l.head)).state = .full ∧ (pegAt l (slotOf l l.head)).peg = l.head then nextIns c (takePeg d c (fLine c.w0) l)
    else if l.state = .faulted ∧ l.head = l.faultPeg ∧ (unitXfers d c.ctx c.idx).isEmpty then
      .error (.fault l.fault l.faultVa (fLine c.w0) l.faultPeg)
    else .error .stall := by
  simp only [doLwait, hres, beq_eq_false_iff_ne.mpr hsd, hidle, hready, hcancel, hend, htaken, or_self, decide_false, lineIf_false, ok_bind]

end

/-- Settles O8: a FULL HEAD peg is taken, else the engine stalls at the LWAIT and notes since when. -/
theorem lwaitTakesTheHeadPeg : Obligations.LwaitTakesTheHeadPeg := by
  intro s e k c v n l slot hat hres hsd hidle hready hcancel hend htaken
  have hwait := doLwait_eq hres hsd hidle hready hcancel hend htaken
  refine ⟨fun hfull hpeg => ?_, fun hnot hnofault => ?_⟩
  · have hbody : doLwait s.dev c = nextIns c (takePeg s.dev c n l) := hwait.trans (if_pos ⟨hfull, hpeg⟩)
    obtain ⟨t, hnext, hdev, hothers, heng⟩ := issue_seq hat rfl hbody
    rw [getE_takePeg] at heng
    rw [takePeg_only] at hdev
    refine ⟨t, hnext, ⟨hdev, fun j hj => (hothers j hj).trans (eng_takePeg_ne _ _ _ _ hj)⟩, fun r => ?_, fun m => ?_, ?_⟩
    · have hreg : sreg (engOf t c) r = sreg (pegTaken c n l v) r := by rw [heng]; rfl
      rw [hreg, pegTaken, sreg_setSreg, sreg_setSreg]
      by_cases hr : r = fLineSD c.w0 + 1
      · rw [if_pos ⟨hr, by omega⟩, if_pos hr]
      · rw [if_neg fun h => hr h.1, if_neg hr]
        rfl
    · have hline : lineOf (engOf t c) m = lineOf (pegTaken c n l v) m := by rw [heng]; rfl
      rw [hline, pegTaken, lineOf_setSreg, lineOf_setSreg, lineOf_setLine]
    · rw [heng, pegTaken_frame]
      rfl
  · have hbody : doLwait s.dev c = .error .stall :=
      hwait.trans ((if_neg hnot).trans (if_neg fun ⟨hstate, hhead, _⟩ => hnofault ⟨hstate, hhead⟩))
    have hstall := issue_stall hat.1 hat.2.1 hat.2.2 rfl hbody
    rw [if_pos rfl] at hstall
    refine ⟨_, rfl, ⟨?_, fun j hj => ?_⟩, ?_⟩
    · rw [hstall]
      rfl
    · rw [hstall]
      exact eng_modE_ne _ _ _ _ hj
    · rw [hstall]
      exact getE_noteStall s.dev c

/-! ### LCANCEL -/

/-- A line without transfers in flight is IDLE once it is cancelled. -/
theorem cancelledLine_nil (l : Line) : cancelledLine l [] = {} := rfl

theorem cancelledLine_state (l : Line) (xs : List Xfer) : (cancelledLine l xs).state = if xs = [] then .idle else .cancelling := by
  cases xs <;> rfl

/-- Every slot of a cancelled line is EMPTY or DRAINING. -/
theorem cancelledLine_pegs (l : Line) (xs : List Xfer) {p : Peg} (hp : p ∈ (cancelledLine l xs).pegs) :
    p.state = .empty ∨ p.state = .draining := by
  cases xs with
  | nil => cases hp
  | cons x xs =>
    obtain ⟨q, -, rfl⟩ := List.mem_map.mp hp
    split
    · exact .inr rfl
    · exact .inl rfl

/-- Cancellation of a line that is in use puts it into its cancelled state; other lines stay. -/
theorem getE_cancelLine (d : Dev) (ctx i n : Nat) (own : Option Nat) : getE (cancelLine d ctx i n own) ctx i =
    if (lineOf (getE d ctx i) n).state = .idle ∨ (lineOf (getE d ctx i) n).state = .cancelling then getE d ctx i
    else setLine (getE d ctx i) n (cancelledLine (lineOf (getE d ctx i) n) ((d.xfers.map (·.2)).filter (isLineXfer ctx i n))) := by
  have heng {a b : Dev} (h : a.eng = b.eng) : getE a ctx i = getE b ctx i := by rw [getE, h]; rfl
  unfold cancelLine
  dsimp only
  split
  · rfl
  · refine (heng ?_).trans (getE_modE_same d ctx i fun e => setLine e n
      (cancelledLine (lineOf (getE d ctx i) n) ((d.xfers.map (·.2)).filter (isLineXfer ctx i n))))
    simp only [tallyCount, apply_ite Dev.eng, tallySend_eng, ite_self]
    cases own <;> rfl

@[simp] theorem cancelLine_ctxs (d : Dev) (ctx i n : Nat) (own : Option Nat) : (cancelLine d ctx i n own).ctxs = d.ctxs := by
  unfold cancelLine
  dsimp only
  split
  · rfl
  · simp only [tallyCount, apply_ite Dev.ctxs, tallySend_ctxs, ite_self]
    cases own <;> rfl

@[simp] theorem cancelLine_mem (d : Dev) (ctx i n : Nat) (own : Option Nat) : (cancelLine d ctx i n own).mem = d.mem :=
  show (beside (cancelLine d ctx i n own)).mem = (beside d).mem by rw [beside_cancelLine]

@[simp] theorem cancelLine_cmds (d : Dev) (ctx i n : Nat) (own : Option Nat) : (cancelLine d ctx i n own).cmds = d.cmds :=
  show (beside (cancelLine d ctx i n own)).cmds = (beside d).cmds by rw [beside_cancelLine]

theorem doLcancel_ok {d : Dev} {c : Ic} (hres : lineReserved c = false) :
    doLcancel d c = nextIns c (cancelLine d c.ctx c.idx (fLine c.w0) (some c.launch)) := by
  simp only [doLcancel, hres, lineIf_false, ok_bind]

/-- Settles O9: an IDLE line stays as it is, any other goes into its cancelled state. -/
theorem lcancelCancelsTheLine : Obligations.LcancelCancelsTheLine := by
  intro s e k c n l hat hres hcancel
  obtain ⟨t, hnext, hdev, -, heng⟩ := issue_seq hat rfl (doLcancel_ok hres)
  rw [getE_cancelLine] at heng
  have hline : ∀ m, lineOf (engOf t c) m =
      if m = n ∧ l.state ≠ .idle then cancelledLine l (flying s c.ctx c.idx n) else lineOf (engOf s c) m := by
    intro m
    rw [heng]
    by_cases hidle : l.state = .idle
    · rw [if_pos (.inl hidle), if_neg fun h => h.2 hidle]
      rfl
    · rw [if_neg (by rintro (h | h); exacts [hidle h, hcancel h])]
      refine (lineOf_setLine _ n m _).trans ?_
      by_cases hm : m = n
      · rw [if_pos hm, if_pos ⟨hm, hidle⟩]
        rfl
      · rw [if_neg hm, if_neg fun h => hm h.1]
        rfl
  refine ⟨t, hnext, ?_, fun hused p hp => ?_, fun m hm => ?_, ?_⟩
  · rw [hline n]
    by_cases hidle : l.state = .idle
    · rw [if_neg fun h => h.2 hidle, if_pos (.inl hidle)]
      exact hidle
    · rw [if_pos ⟨rfl, hidle⟩, cancelledLine_state]
      exact if_congr (by simp [hidle]) rfl rfl
  · rw [hline n, if_pos ⟨rfl, hused⟩] at hp
    exact cancelledLine_pegs l _ hp
  · rw [hline m, if_neg fun h => hm h.1]
  · rw [hdev]
    exact ⟨rfl, rfl, cancelLine_mem .., cancelLine_cmds .., cancelLine_ctxs ..⟩

end Sys2Proof.Machine
end

section
/-! PROOF. What folds over the engines of a launch leave of each, and the frames of the line unit's reads (06 R205, R207; 07 R260). -/

namespace Sys2Proof.Machine

/-! ### One engine after another -/

theorem engKey_ne {ctx i j : Nat} (h : j ≠ i) : engKey ctx j ≠ engKey ctx i := by
  unfold engKey
  omega

theorem getE_modE_ne (d : Dev) {ctx i j : Nat} (f : EngCtx → EngCtx) (h : j ≠ i) : getE (modE d ctx i f) ctx j = getE d ctx j :=
  getE_setE_ne _ _ (engKey_ne h)

theorem getE_congr {d e : Dev} (h : e.eng = d.eng) (ctx i : Nat) : getE e ctx i = getE d ctx i := by
  rw [getE, h]
  rfl

/-- Steps that each change what one engine holds leave every engine of the list changed by its own. -/
theorem getE_foldl {g : Dev → Nat → Dev} {F : Nat → EngCtx → EngCtx} {ctx : Nat}
    (hsame : ∀ d i, getE (g d i) ctx i = F i (getE d ctx i)) (hother : ∀ d i j, j ≠ i → getE (g d i) ctx j = getE d ctx j)
    {l : List Nat} (hnodup : l.Nodup) (d : Dev) (j : Nat) :
    getE (l.foldl g d) ctx j = if j ∈ l then F j (getE d ctx j) else getE d ctx j := by
  induction l generalizing d with
  | nil => rfl
  | cons i l ih =>
    obtain ⟨hi, hl⟩ := List.nodup_cons.mp hnodup
    rw [List.foldl_cons, ih hl]
    by_cases hj : j = i
    · subst hj
      rw [if_neg hi, if_pos List.mem_cons_self, hsame]
    · rw [hother d i j hj]
      simp only [List.mem_cons, hj, false_or]

theorem launchEngines_nodup (z : Launch) : (launchEngines z).Nodup := List.nodup_range'

/-! ### What reads leave as it was -/

theorem basketRead_frame (d : Dev) (ctx i : Nat) (who : BUnit) (off n : Nat) :
    ∃ k, (basketRead d ctx i who off n).2 = { d with freeCtr := k } := by
  unfold basketRead
  dsimp only
  split <;> exact ⟨_, rfl⟩

/-- Reading a list entry draws at most a free value. -/
theorem listValue_frame (d : Dev) (ctx i : Nat) (l : Line) (r : Nat) : ∃ k, (listValue d ctx i l r).2 = { d with freeCtr := k } := by
  unfold listValue
  dsimp only
  split
  · exact basketRead_frame ..
  · exact ⟨_, rfl⟩

/-- An access fills translation caches and changes nothing else. -/
theorem cacheFill_frame (d : Dev) (unit ctx va : Nat) :
    ∃ cs, cacheFill d unit ctx va = { d with mem := { d.mem with caches := cs } } := by
  unfold cacheFill
  split
  · exact ⟨_, rfl⟩
  · split
    · split
      · exact ⟨_, rfl⟩
      · exact ⟨_, rfl⟩
    · exact ⟨_, rfl⟩

theorem cacheRange_frame (d : Dev) (unit ctx va n : Nat) :
    ∃ cs, cacheRange d unit ctx va n = { d with mem := { d.mem with caches := cs } } := by
  unfold cacheRange
  refine List.foldlRecOn (motive := fun e : Dev => ∃ cs, e = { d with mem := { d.mem with caches := cs } }) _ _ ⟨_, rfl⟩ ?_
  rintro _ ⟨cs, rfl⟩ p -
  obtain ⟨cs', hfill⟩ := cacheFill_frame { d with mem := { d.mem with caches := cs } } unit ctx p.1
  exact ⟨cs', hfill⟩

end Sys2Proof.Machine
end

section
/-! PROOF. The line unit: credit, the runs of INDEX lists, the line whose turn it is, and the transfer that it issues (06 R205, R207,
R213, R214). -/

namespace Sys2Proof.Machine

/-! ### The runs of INDEX lists -/

/-- Between d and e nothing differs but free values and what engines hold, and engine i of the context keeps its line m and its dirty
ranges. -/
def KeepsLine (ctx i m : Nat) (d e : Dev) : Prop :=
  e = { d with freeCtr := e.freeCtr, eng := e.eng } ∧ (getE e ctx i).dirty = (getE d ctx i).dirty
    ∧ lineOf (getE e ctx i) m = lineOf (getE d ctx i) m

theorem KeepsLine.refl (ctx i m : Nat) (d : Dev) : KeepsLine ctx i m d d := ⟨rfl, rfl, rfl⟩

theorem KeepsLine.trans {ctx i m : Nat} {d e f : Dev} (hde : KeepsLine ctx i m d e) (hef : KeepsLine ctx i m e f) : KeepsLine ctx i m d f := by
  obtain ⟨hdev, hdirty, hline⟩ := hde
  obtain ⟨hdev', hdirty', hline'⟩ := hef
  refine ⟨?_, hdirty'.trans hdirty, hline'.trans hline⟩
  rw [hdev', hdev]

/-- A line without a run to read, or whose run has an address, reads nothing. -/
theorem beginRun_known {ctx i n : Nat} {d : Dev} (h : ∀ sc p, nextKind (lineOf (getE d ctx i) n) = some (sc, p) →
    runKnown (lineOf (getE d ctx i) n) p = true) : beginRun ctx i d n = d := by
  unfold beginRun
  dsimp only
  split
  · rfl
  · next hkind =>
    rw [if_neg]
    simp [h _ _ hkind]

/-- A line that reads its run leaves every other line. -/
theorem beginRun_keeps {ctx i n m : Nat} (hm : m ≠ n) (d : Dev) : KeepsLine ctx i m d (beginRun ctx i d n) := by
  have hput : ∀ k l, KeepsLine ctx i m d (modE { d with freeCtr := k } ctx i fun e => setLine e n l) := fun k l => by
    refine ⟨rfl, ?_, ?_⟩
    · rw [getE_modE_same]
      rfl
    · rw [getE_modE_same, lineOf_setLine, if_neg hm]
      rfl
  unfold beginRun
  dsimp only
  split
  · exact .refl ..
  · next pos _ =>
    split
    · obtain ⟨k, hread⟩ := listValue_frame d ctx i (lineOf (getE d ctx i) n) (pos / ldRun (lineOf (getE d ctx i) n).desc)
      rw [hread]
      exact hput k _
    · exact .refl ..

theorem foldl_beginRun_keeps {ctx i m : Nat} {l : List Nat} (h : m ∉ l) (d : Dev) : KeepsLine ctx i m d (l.foldl (beginRun ctx i) d) := by
  induction l generalizing d with
  | nil => exact .refl ..
  | cons n l ih =>
    rw [List.mem_cons, not_or] at h
    exact (beginRun_keeps h.1 d).trans (ih h.2 _)

/-- The lines before line m, line m, and those after it. -/
theorem span_split {m k : Nat} (h : m < k) : span 0 k = span 0 m ++ m :: span (m + 1) (k - m - 1) := by
  have hlast : m :: span (m + 1) (k - m - 1) = span m (k - m) := by
    rw [show k - m = k - m - 1 + 1 by omega]
    rfl
  have happend := List.range'_append_1 (s := 0) (m := m) (n := k - m)
  rw [Nat.zero_add, show m + (k - m) = k by omega] at happend
  rw [hlast]
  exact happend.symm

/-- Line m after all lines have read their runs is line m after it has read its own. -/
theorem lineOf_beginRuns (d : Dev) (ctx i : Nat) {m : Nat} (hm : m < 16) : ∃ e, KeepsLine ctx i m d e ∧
    lineOf (getE (beginRuns d ctx i) ctx i) m = lineOf (getE (beginRun ctx i e m) ctx i) m := by
  have hbefore : m ∉ span 0 m := fun h => by have := List.mem_range'_1.mp h; omega
  have hafter : m ∉ span (m + 1) (16 - m - 1) := fun h => by have := List.mem_range'_1.mp h; omega
  refine ⟨(span 0 m).foldl (beginRun ctx i) d, foldl_beginRun_keeps hbefore d, ?_⟩
  rw [beginRuns, span_split hm, List.foldl_append, List.foldl_cons]
  obtain ⟨-, -, hline⟩ := foldl_beginRun_keeps (ctx := ctx) (i := i) hafter (beginRun ctx i ((span 0 m).foldl (beginRun ctx i) d) m)
  exact hline

theorem beginRuns_frame (d : Dev) (ctx i : Nat) : ∃ k m, beginRuns d ctx i = { d with freeCtr := k, eng := m } := by
  have hnone : 16 ∉ span 0 16 := by decide
  obtain ⟨hdev, -⟩ := foldl_beginRun_keeps (ctx := ctx) (i := i) hnone d
  exact ⟨_, _, hdev⟩

theorem lineOf_beginRuns_of_no_list {d : Dev} {ctx i m : Nat} (hmode : ldMode (lineOf (getE d ctx i) m).desc ≠ 1) :
    lineOf (getE (beginRuns d ctx i) ctx i) m = lineOf (getE d ctx i) m := by
  by_cases hm : m < 16
  · obtain ⟨e, ⟨-, -, hline⟩, hruns⟩ := lineOf_beginRuns d ctx i hm
    rw [hruns, beginRun_known, hline]
    intro sc p _
    rw [hline, runKnown, bne_iff_ne.mpr hmode, Bool.true_or]
  · have hout : m ∉ span 0 16 := fun h => hm (by have := List.mem_range'_1.mp h; omega)
    exact (foldl_beginRun_keeps hout d).2.2

/-- An entry of a list that no unit writes and that the line has not seen replaced is read from the basket. -/
theorem listValue_clean {s : State} {ctx i r : Nat} {l : Line} (holds : ∀ o ∈ l.olds, o.1 ≠ r)
    (hclean : HandedOver s ctx i .line (listBase l.desc + 8 * r) (listBase l.desc + 8 * r + 8)) : listValue s.dev ctx i l r =
      (leNat (memRead s.dev.mem.baskets (shareAt s ctx i (listBase l.desc + 8 * r)) 8) % 2 ^ 52, s.dev) := by
  have hnone : l.olds.filter (fun o => o.1 == r) = [] := by
    rw [List.filter_eq_nil_iff]
    exact fun o ho h => holds o ho (beq_iff_eq.mp h)
  simp only [listValue, hnone, List.map_nil, List.isEmpty_nil, if_true, basketRead_clean hclean]

/-- A running line that comes to a run reads its entry of the list (06 R207). -/
theorem lineOf_beginRun {s : State} {ctx i m p : Nat} {sc : Bool} {l : Line} (hl : lineOf (getE s.dev ctx i) m = l)
    (hruns : l.state = .running) (hkind : nextKind l = some (sc, p)) (hnew : runKnown l p = false)
    (hrinsed : rinsing s.dev ctx i (listBase l.desc + 8 * (p / ldRun l.desc)) 8 = false) (holds : ∀ o ∈ l.olds, o.1 ≠ p / ldRun l.desc)
    (hclean : HandedOver s ctx i .line (listBase l.desc + 8 * (p / ldRun l.desc)) (listBase l.desc + 8 * (p / ldRun l.desc) + 8)) :
    lineOf (getE (beginRun ctx i s.dev m) ctx i) m = { l with
      runs := smPut l.runs (p / ldRun l.desc)
        (leNat (memRead s.dev.mem.baskets (shareAt s ctx i (listBase l.desc + 8 * (p / ldRun l.desc))) 8) % 2 ^ 52) } := by
  simp only [beginRun, hl, hkind, hruns, hnew, hrinsed, listValue_clean holds hclean, Bool.not_false, and_self, if_true, getE_modE_same,
    lineOf_setLine]

/-! ### The line whose turn it is (06 R214) -/

/-- The turns of a priority come to every line. -/
theorem mem_turns (t : Nat) {m : Nat} (hm : m < 16) : m ∈ (span 1 16).map (fun k => (t + k) % 16) :=
  List.mem_map.mpr ⟨(m + 15 - t % 16) % 16 + 1, List.mem_range'_1.mpr (by omega), by omega⟩

theorem chooseOf_eligible {d : Dev} {ctx i prio n : Nat} (h : chooseOf d ctx i prio = some n) :
    ldPrio (lineOf (getE d ctx i) n).desc = prio ∧ lineEligible d ctx i (lineOf (getE d ctx i) n) = true := by
  have hfound := List.find?_some h
  rwa [Bool.and_eq_true, beq_iff_eq] at hfound

theorem not_eligible_of_chooseOf_none {d : Dev} {ctx i prio m : Nat} (h : chooseOf d ctx i prio = none) (hm : m < 16)
    (hprio : ldPrio (lineOf (getE d ctx i) m).desc = prio) : lineEligible d ctx i (lineOf (getE d ctx i) m) ≠ true := by
  have hnone := List.find?_eq_none.mp h m (mem_turns _ hm)
  rwa [hprio, beq_self_eq_true, Bool.true_and] at hnone

/-- The line chosen is of a priority above which no line is eligible. -/
theorem chooseLine_some {d : Dev} {ctx i n : Nat} (h : chooseLine d ctx i = some n) :
    ∃ prio, chooseOf d ctx i prio = some n ∧ ∀ p, prio < p → p ≤ 3 → chooseOf d ctx i p = none := by
  simp only [chooseLine, List.findSome?_cons, List.findSome?_nil] at h
  cases h3 : chooseOf d ctx i 3 with
  | some k => rw [h3] at h; exact ⟨3, h3.trans h, fun p _ _ => by omega⟩
  | none =>
    cases h2 : chooseOf d ctx i 2 with
    | some k =>
      rw [h3, h2] at h
      exact ⟨2, h2.trans h, fun p hlo hhi => by obtain rfl : p = 3 := by omega
                                                exact h3⟩
    | none =>
      cases h1 : chooseOf d ctx i 1 with
      | some k =>
        rw [h3, h2, h1] at h
        refine ⟨1, h1.trans h, fun p hlo hhi => ?_⟩
        obtain rfl | rfl : p = 2 ∨ p = 3 := by omega
        exacts [h2, h3]
      | none =>
        rw [h3, h2, h1] at h
        cases h0 : chooseOf d ctx i 0 with
        | none => rw [h0] at h; cases h
        | some k =>
          rw [h0] at h
          refine ⟨0, h0.trans h, fun p hlo hhi => ?_⟩
          obtain rfl | rfl | rfl : p = 1 ∨ p = 2 ∨ p = 3 := by omega
          exacts [h1, h2, h3]

theorem ldPrio_le (x : List Byte) : ldPrio x ≤ 3 := Nat.le_of_lt_succ (Nat.mod_lt _ (by decide))

/-- The line chosen is eligible, and no eligible line has a higher PRIO. -/
theorem chooseLine_highest {d : Dev} {ctx i n : Nat} (h : chooseLine d ctx i = some n) :
    lineEligible d ctx i (lineOf (getE d ctx i) n) = true ∧ ∀ m, m < 16 → lineEligible d ctx i (lineOf (getE d ctx i) m) = true →
      ldPrio (lineOf (getE d ctx i) m).desc ≤ ldPrio (lineOf (getE d ctx i) n).desc := by
  obtain ⟨prio, hchosen, habove⟩ := chooseLine_some h
  obtain ⟨hprio, helig⟩ := chooseOf_eligible hchosen
  refine ⟨helig, fun m hm hmelig => ?_⟩
  by_contra hgt
  exact not_eligible_of_chooseOf_none (habove _ (by omega) (ldPrio_le _)) hm rfl hmelig

/-- An eligible line of a rate has the credit for its next transfer (06 R213). -/
theorem credit_of_eligible {d : Dev} {ctx i : Nat} {l : Line} {scale : Bool} {va pos len : Nat} (helig : lineEligible d ctx i l = true)
    (hnext : nextTransfer l = some (scale, va, pos, len)) (hrate : ldRate l.desc ≠ 0) : len ≤ l.credit := by
  simp only [lineEligible, hnext, Bool.and_eq_true, Bool.or_eq_true, beq_iff_eq, decide_eq_true_eq] at helig
  exact helig.2.resolve_left hrate

/-! ### The transfer -/

/-- The transfer that line n of engine i issues next for launch k. -/
def lineXferOf (k : Nat) (z : Launch) (i n : Nat) (l : Line) (scale : Bool) (va pos len : Nat) : Xfer :=
  { kind := .line n scale (slotOf l (fillPeg l)) pos, ctx := z.ctx, idx := i, va := va, off := 0, roff := 0, len := len, sem := none,
    drain := false, tags := [], pc := 0, data := [], launch := k }

/-- The engine once line n has issued a transfer, whose turn it then was. -/
def lineIssued (n : Nat) (l : Line) (scale : Bool) (len : Nat) (v : EngCtx) : EngCtx :=
  { setLine v n (noteIssued l scale len) with turn := smSet 0 v.turn (ldPrio l.desc) n }

theorem lineOf_lineIssued (n m : Nat) (l : Line) (scale : Bool) (len : Nat) (v : EngCtx) :
    lineOf (lineIssued n l scale len v) m = if m = n then noteIssued l scale len else lineOf v m := lineOf_setLine v n m _

/-- The line unit issues the next transfer of the line chosen, of a page of this part. -/
theorem issueLine_local {d : Dev} {e k i n : Nat} {z : Launch} {scale : Bool} {va pos len : Nat} (hrun : runningOn d e = some (k, z, i))
    (hchosen : chooseLine (beginRuns d z.ctx i) z.ctx i = some n)
    (hnext : nextTransfer (lineOf (getE (beginRuns d z.ctx i) z.ctx i) n) = some (scale, va, pos, len))
    (hlocal : remoteOf (beginRuns d z.ctx i) z.ctx va false = none) :
    issueLine e d =
      let d1 := beginRuns d z.ctx i
      let l := lineOf (getE d1 z.ctx i) n
      modE (addXfer (cacheRange d1 e z.ctx va len) (lineXferOf k z i n l scale va pos len)).2 z.ctx i (lineIssued n l scale len) := by
  simp only [issueLine, hrun, hchosen, hnext, hlocal]
  rfl

/-- What the issue leaves: the new transfer, the line that notes it, and all else but free values, engines and caches. -/
theorem issueLine_effect (d : Dev) {e k i n : Nat} {z : Launch} {scale : Bool} {va pos len : Nat} (hrun : runningOn d e = some (k, z, i))
    (hchosen : chooseLine (beginRuns d z.ctx i) z.ctx i = some n)
    (hnext : nextTransfer (lineOf (getE (beginRuns d z.ctx i) z.ctx i) n) = some (scale, va, pos, len))
    (hlocal : remoteOf d z.ctx va false = none) :
    let l := lineOf (getE (beginRuns d z.ctx i) z.ctx i) n
    (∃ fc eng xs cs, issueLine e d = { d with
        freeCtr := fc, eng := eng, xfers := xs, nextXfer := d.nextXfer + 1, mem := { d.mem with caches := cs } } ∧
      smFind xs d.nextXfer = some (lineXferOf k z i n l scale va pos len)) ∧
    getE (issueLine e d) z.ctx i = lineIssued n l scale len (getE (beginRuns d z.ctx i) z.ctx i) := by
  obtain ⟨fc, eng, hframe⟩ := beginRuns_frame d z.ctx i
  have hlocal' : remoteOf (beginRuns d z.ctx i) z.ctx va false = none := by
    rw [hframe]
    exact hlocal
  obtain ⟨cs, hcache⟩ := cacheRange_frame (beginRuns d z.ctx i) e z.ctx va len
  rw [issueLine_local hrun hchosen hnext hlocal']
  dsimp only
  rw [hcache]
  generalize beginRuns d z.ctx i = b at hframe ⊢
  subst hframe
  exact ⟨⟨_, _, _, _, rfl, smFind_smPut_same ..⟩, getE_modE_same ..⟩

/-! ### The obligation -/

/-- The refill of every line of the engine (06 R213). -/
theorem lineOf_refilled (v : EngCtx) (n : Nat) :
    lineOf { v with lines := v.lines.map fun p => (p.1, refillLine p.2) } n = refillLine (lineOf v n) := smGet_map rfl v.lines n

/-- Settles O10: the refill line by line; a list entry counts modulo 2^52 and is read when its run is come to (log 61). -/
theorem lineUnitRefillsCreditAndIssuesTransfers : Obligations.LineUnitRefillsCreditAndIssuesTransfers := by
  intro s e k i z hrun v
  refine ⟨?_, ?_⟩
  · refine ⟨{ s with dev := modE s.dev z.ctx i fun v => { v with lines := v.lines.map fun p => (p.1, refillLine p.2) } }, ?_, rfl,
      fun n => ?_⟩
    · have hexec : exec (.lineCreditRefill e) s = execLineCreditRefill e s := rfl
      rw [hexec, execLineCreditRefill, onDev_next, hrun]
    · rw [getE_modE_same, lineOf_refilled]
      rfl
  · intro d w
    refine ⟨fun m hmode => lineOf_beginRuns_of_no_list hmode, fun m sc p hm hmode hstate hkind => ?_,
      fun n scale va pos len hchosen hnext hlocal => ?_⟩
    · intro r a hnew hrinsed holds hclean
      obtain ⟨f, ⟨hdev, hdirty, hline⟩, hruns⟩ := lineOf_beginRuns s.dev z.ctx i hm
      have hrinsed' : rinsing f z.ctx i a 8 = false := by rw [hdev]; exact hrinsed
      have hclean' : HandedOver { s with dev := f } z.ctx i .line a (a + 8) := fun y hy => hclean y (by rw [← hdirty]; exact hy)
      refine hruns.trans ((lineOf_beginRun (s := { s with dev := f }) hline hstate hkind hnew hrinsed' holds hclean').trans ?_)
      rw [shareAt, hdev]
      rfl
    · obtain ⟨helig, hhighest⟩ := chooseLine_highest hchosen
      obtain ⟨⟨fc, eng, xs, cs, hissue, hxfer⟩, heng⟩ := issueLine_effect s.dev hrun hchosen hnext hlocal
      have hlines : ∀ m, lineOf (getE (issueLine e s.dev) z.ctx i) m = if m = n then noteIssued (lineOf w n) scale len else lineOf w m := by
        intro m
        rw [heng, lineOf_lineIssued]
      refine ⟨⟨helig, hhighest⟩, { s with dev := issueLine e s.dev }, rfl, ?_, ?_, ?_, fun hrate => ?_, fun m hm => ?_⟩
      · rw [hissue]
      · rw [hissue]
        exact hxfer
      · exact (hlines n).trans (if_pos rfl)
      · have hcredit : len ≤ (lineOf w n).credit := credit_of_eligible helig hnext hrate
        rw [hlines n, if_pos rfl]
        simp only [noteIssued, if_neg hrate]
        omega
      · exact (hlines m).trans (if_neg hm)

end Sys2Proof.Machine
end

section
/-! PROOF. A line transfer that lands, drains or fails (06 R212, R222, R226, R227). -/

namespace Sys2Proof.Machine

/-! ### Landing -/

/-- The line once n bytes have landed in slot k. -/
def landIn (k n : Nat) (l : Line) : Line := setPeg l k { pegAt l k with landed := (pegAt l k).landed + n }

/-- The line once one of its transfers is complete: pegs that are complete become FULL in order (06 R212, R219). -/
def transferOver (l : Line) : Line := settleDone (fillFull { l with out := l.out - 1 } l.rel (ldSlots l.desc))

/-- The offset in the share at which the bytes of a source position of the stream land. -/
def landOff (l : Line) (pos : Nat) : Nat :=
  slotOff l.desc (slotOf l (pos / pegSrc l.desc)) + (pos - pos / pegSrc l.desc * pegSrc l.desc)

theorem landRange_plain {l : Line} (hplain : ldExpand l.desc = 0) (pos n : Nat) : landRange l pos n = (landOff l pos, n) := if_pos hplain

/-- Landing without expansion writes the bytes and changes the line. -/
theorem landLine_plain {d : Dev} {ctx i n : Nat} (hplain : ldExpand (lineOf (getE d ctx i) n).desc = 0) (pos : Nat) (bs : List Byte) :
    let l := lineOf (getE d ctx i) n
    landLine d ctx i n false pos bs =
      modE (modE (basketWrite d ctx i .line (landOff l pos) bs) ctx i fun e =>
        setLine e n (landIn (slotOf l (pos / pegSrc l.desc)) bs.length (lineOf e n))) ctx i fun e =>
        setLine e n (transferOver (lineOf e n)) := by
  simp only [landLine, hplain, if_true]
  rfl

/-- Other lines keep what the write leaves of them. -/
theorem lineOf_landLine {d : Dev} {ctx i n m : Nat} (hplain : ldExpand (lineOf (getE d ctx i) n).desc = 0) (pos : Nat) (bs : List Byte)
    (hm : m ≠ n) : lineOf (getE (landLine d ctx i n false pos bs) ctx i) m =
      lineOf (getE (basketWrite d ctx i .line (landOff (lineOf (getE d ctx i) n) pos) bs) ctx i) m := by
  rw [landLine_plain hplain, getE_modE_same, lineOf_setLine, if_neg hm, getE_modE_same, lineOf_setLine, if_neg hm]

/-- A landing of bytes that have been handed over changes the baskets and its engine. -/
theorem landLine_frame {s : State} {ctx i n pos : Nat} {bs : List Byte} (hplain : ldExpand (lineOf (getE s.dev ctx i) n).desc = 0)
    (hclean : HandedOver s ctx i .line (landOff (lineOf (getE s.dev ctx i) n) pos)
      (landOff (lineOf (getE s.dev ctx i) n) pos + bs.length)) : ∃ eng, landLine s.dev ctx i n false pos bs =
    { s.dev with eng := eng, mem := { s.dev.mem with
      baskets := memWrite s.dev.mem.baskets (shareAt s ctx i (landOff (lineOf (getE s.dev ctx i) n) pos)) bs } } := by
  obtain ⟨hbytes, hfree⟩ := basketWrite_clean hclean
  rw [landLine_plain hplain, modE_only, modE_only, basketWrite_only, hbytes, hfree]
  exact ⟨_, rfl⟩

/-! ### The events of a transfer in flight -/

section
variable {s : State} {id n slot pos : Nat} {x : Xfer} (hx : smFind s.dev.xfers id = some x) (hkind : x.kind = .line n false slot pos)
include hx hkind

/-- A completed transfer lands where its line's peg lies, once its data is here and its granules are rinsed. -/
theorem exec_lineTransferComplete_lands {bs : List Byte} (hkeep : x.drain = false)
    (hplain : ldExpand (lineOf (getE s.dev x.ctx x.idx) n).desc = 0) (hlocal : remoteOf s.dev x.ctx x.va false = none)
    (hread : readVirt s.dev x.ctx x.va x.len .engRead = .ok bs)
    (hrinsed : rinsing s.dev x.ctx x.idx (landOff (lineOf (getE s.dev x.ctx x.idx) n) pos) bs.length = false) :
    exec (.lineTransferComplete id) s = .next { s with dev := landLine (dropXfer s.dev id) x.ctx x.idx n false pos bs } := by
  have hexec : exec (.lineTransferComplete id) s = execLineTransferComplete id s := rfl
  simp only [hexec, execLineTransferComplete, onDev_next, hx, hkind, hkeep, lineData, hlocal, Option.isSome_none, hread,
    landRange_plain hplain, hrinsed, Bool.false_eq_true, if_false]

/-- A transfer into a DRAINING slot is discarded. -/
theorem exec_lineTransferComplete_drains (hdrain : x.drain = true) :
    exec (.lineTransferComplete id) s = .next { s with dev := drainOne (dropXfer s.dev id) x.ctx x.idx n slot } := by
  have hexec : exec (.lineTransferComplete id) s = execLineTransferComplete id s := rfl
  simp only [hexec, execLineTransferComplete, onDev_next, hx, hkind, hdrain, if_true]

/-- A transfer of an unmapped page fails with LINE_MAP. -/
theorem exec_lineTransferFault_unmapped {c : Ctx} {a : Nat} (hkeep : x.drain = false) (hlocal : remoteOf s.dev x.ctx x.va false = none)
    (hctx : smFind s.dev.ctxs x.ctx = some c) (hread : readVirt s.dev x.ctx x.va x.len .engRead = .error (.unmapped a)) :
    exec (.lineTransferFault id false) s =
      .next { s with dev := failLine (dropXfer s.dev id) x.ctx x.idx n LINE_MAP false false pos x.va } := by
  have hexec : exec (.lineTransferFault id false) s = execLineTransferFault id false s := rfl
  simp only [hexec, execLineTransferFault, onDev_next, hx, hkind, hlocal, Option.isSome_none, localFault, hctx, hread, failXfer, hkeep,
    Bool.false_eq_true, if_false]

end

/-- A line that loses the last of its transfers in flight is IDLE; other lines stay. -/
theorem lineOf_drainOne (d : Dev) (ctx i n k m : Nat) : (m ≠ n → lineOf (getE (drainOne d ctx i n k) ctx i) m = lineOf (getE d ctx i) m) ∧
    ((d.xfers.map (·.2)).filter (isLineXfer ctx i n) = [] → lineOf (getE (drainOne d ctx i n k) ctx i) n = {}) := by
  refine ⟨fun hm => ?_, fun hnone => ?_⟩
  · rw [drainOne, getE_modE_same, lineOf_setLine, if_neg hm]
  · rw [drainOne, getE_modE_same, lineOf_setLine, if_pos rfl, hnone]
    rfl

/-- A running line that a transfer fails is FAULTED at the transfer's position; other lines stay. -/
theorem lineOf_failLine {d : Dev} {ctx i n : Nat} (hruns : (lineOf (getE d ctx i) n).state = .running) (code pos va m : Nat) :
    let l := lineOf (getE d ctx i) n
    lineOf (getE (failLine d ctx i n code false false pos va) ctx i) m = if m = n then
      { l with out := l.out - 1, state := .faulted, fault := code, faultPos := pos, faultPeg := pos / pegSrc l.desc, faultVa := va }
      else lineOf (getE d ctx i) m := by
  simp only [failLine, getE_modE_same, lineOf_setLine, hruns, decide_true, Bool.true_or, if_true, Bool.false_eq_true, if_false]

/-- Settles O11: a landing as a write of the line unit, which lines note of their lists; a drain; a fault of an unmapped page. -/
theorem lineTransfersLandDrainOrFail : Obligations.LineTransfersLandDrainOrFail := by
  intro s id n slot pos x hx hkind l off left
  refine ⟨fun bs hkeep hplain hlocal hread hrinsed hclean => ?_, fun hdrain => ?_, fun c a hkeep hlocal hctx hread hruns => ?_⟩
  · obtain ⟨eng, hland⟩ := landLine_frame (s := { s with dev := dropXfer s.dev id }) (pos := pos) hplain hclean
    have hlines : ∀ m, m ≠ n → lineOf (getE (landLine (dropXfer s.dev id) x.ctx x.idx n false pos bs) x.ctx x.idx) m =
        lineOf (getE (basketWrite (dropXfer s.dev id) x.ctx x.idx .line off bs) x.ctx x.idx) m :=
      fun m hm => lineOf_landLine (d := dropXfer s.dev id) hplain pos bs hm
    have hnote : LinesNote s { s with dev := basketWrite (dropXfer s.dev id) x.ctx x.idx .line off bs } x.ctx x.idx :=
      linesNote_of_notedLines (basketWrite_lines (dropXfer s.dev id) x.ctx x.idx .line off bs)
    refine ⟨_, exec_lineTransferComplete_lands hx hkind hkeep hplain hlocal hread hrinsed, ?_, fun j hj => ?_, fun b hb => ?_,
      fun m hm => ?_, fun hnone m hm => ?_⟩
    · rw [hland]
      rfl
    · rw [hland]
      exact memByte_memWrite_in _ _ _ _ hj
    · rw [hland]
      exact memByte_memWrite_out _ _ _ _ hb
    · rw [hlines m hm]
      exact hnote.1 m
    · rw [hlines m hm]
      exact congrArg (smGet {} · m) (hnote.2 hnone)
  · refine ⟨_, exec_lineTransferComplete_drains hx hkind hdrain, rfl, fun hnone => ?_, fun m hm => ?_⟩
    · rw [(lineOf_drainOne (dropXfer s.dev id) x.ctx x.idx n slot n).2 hnone]
    · exact (lineOf_drainOne (dropXfer s.dev id) x.ctx x.idx n slot m).1 hm
  · refine ⟨_, exec_lineTransferFault_unmapped hx hkind hkeep hlocal hctx hread, rfl, fun m => ?_⟩
    exact lineOf_failLine (d := dropXfer s.dev id) hruns LINE_MAP pos x.va m

end Sys2Proof.Machine
end

section
/-! PROOF. A line that its page lets run again, the rinse of a granule, and the watchdog of a launch (06 R203, R222, R223, R243, R245). -/

namespace Sys2Proof.Machine

/-! ### Resumption and rinse -/

/-- A line in RECALL without transfers in flight, whose page is local again, resumes (06 R222, R223). -/
theorem resumeLine_local {d : Dev} {e n k i key : Nat} {z : Launch} {x : Ctx} {p : Pte} (hrun : runningOn d e = some (k, z, i))
    (hrecall : (lineOf (getE d z.ctx i) n).state = .recall) (hout : (lineOf (getE d z.ctx i) n).out = 0)
    (hctx : smFind d.ctxs z.ctx = some x) (hleaf : leafKey x (lineOf (getE d z.ctx i) n).faultVa = some (key, p))
    (hhere : p.transit = false) (hlocal : p.kind = .localPage) :
    resumeLine e n d = modE d z.ctx i fun w => setLine w n (resumedLine (lineOf (getE d z.ctx i) n)) := by
  simp only [resumeLine, hrun, hrecall, hout, hctx, hleaf, hhere, hlocal, ne_eq, not_true, or_self, if_false, Bool.false_eq_true]

/-- The rinse of a granule clears its bytes, and it is no longer awaited (06 R203). -/
theorem exec_basketRinseComplete {s : State} {e : Fin 96} {g : Fin 128} (hg : 128 * (e : Nat) + g ∈ s.dev.mem.granRinse) :
    exec (.basketRinseComplete e g) s = .next { s with dev := modMem s.dev fun m => { m with
      granRinse := m.granRinse.filter (fun k => k != 128 * (e : Nat) + g), baskets := memClear m.baskets (65536 * (128 * e + g)) 65536 } } := by
  have hexec : exec (.basketRinseComplete e g) s = execBasketRinseComplete e g s := rfl
  rw [hexec, execBasketRinseComplete, onDev_next]
  dsimp only
  rw [if_pos (List.contains_iff_mem.mpr hg)]

/-- A byte after a granule or frame of 64 KiB has been cleared. -/
theorem memByte_memClear_64k (m : Mem) (g a : Nat) :
    memByte (memClear m (65536 * g) 65536) a = if a / 65536 = g then 0#8 else memByte m a := by
  rw [memByte_memClear]
  by_cases h : a / 65536 = g
  · rw [if_pos h, if_neg (by omega)]
  · rw [if_neg h, if_pos (by omega)]

/-! ### The end of a launch by a fault -/

/-- Tally and energy records of a launch that ends leave its state as it is. -/
theorem recordLaunch_launches (d : Dev) (k : Nat) (z : Launch) : ∃ f : Launch → Launch,
    (recordLaunch d k z).2.2.2.launches = smUpd d.launches k f := ⟨_, rfl⟩

/-- A launch that stops at a resumable fault is otherwise as it was. -/
theorem launchStopped_launches {k : Nat} {z : Launch} {f : PFault} (hres : resumable f.code = true) (d : Dev) :
    (launchStopped d k z f).launches = d.launches := by
  have hstop : ((launchEngines z).foldl (fun d i => modE d z.ctx i (fun e =>
      { e with seq := if e.seq = .running then .stopped else e.seq, stallFrom := none })) d).launches = d.launches :=
    foldl_keep Dev.launches (fun d i => modE d z.ctx i _) (fun _ _ => rfl) (launchEngines z) d
  simp only [launchStopped, hres, if_true]
  split
  · exact hstop
  · exact hstop

/-- A resumable fault of a running launch that serves a command ends the launch, and prepares the record of the command. -/
theorem stopForFault_prog {d : Dev} {k cid : Nat} {z : Launch} {f : PFault} (hprog : z.purpose = .prog cid)
    (hres : resumable f.code = true) : ∃ u, stopForFault d k z f = finishCmd u cid stLineFault (faultDetail f.code) (faultResult f) none ∧
      u.cmds = d.cmds ∧ (smFind u.launches k).map (·.state) = (smFind d.launches k).map fun _ => .ended := by
  obtain ⟨g, hrecord⟩ := recordLaunch_launches (launchStopped d k z f) k z
  let v := (recordLaunch (launchStopped d k z f) k z).2.2.2
  have hstop : stopForFault d k z f = finishCmd (modCtx { v with launches := smUpd v.launches k fun z =>
      { z with state := .ended, fault := some f, faultAt := hubUs d } } z.ctx fun x =>
        { x with stopped := resumable f.code, stopLaunch := if resumable f.code then some k else none, imgLaunch := [] })
      cid stLineFault (faultDetail f.code) (faultResult f) none := by
    simp only [stopForFault, hprog]
    rfl
  refine ⟨_, hstop, ?_, ?_⟩
  · show (beside (launchStopped d k z f)).cmds = (beside d).cmds
    rw [beside_launchStopped]
  · rw [modCtx_launches]
    simp only [v, hrecord, smFind_smUpd_same, launchStopped_launches hres, Option.map_map]
    rfl

/-! ### The watchdog -/

/-- The fault of a launch past its WATCHDOG (06 R243). -/
def watchdogFault (d : Dev) (z : Launch) : PFault :=
  { idx := lowestRunning d z - z.engFirst, line := 0xFF, peg := 0xFF, pc := (getE d z.ctx (lowestRunning d z)).pc, va := 0,
    code := CTL_WATCHDOG }

section
variable {s : State} {k : Nat} {z : Launch} (hz : smFind s.dev.launches k = some z) (hruns : z.state = .running)
  (hset : z.watchdog ≠ 0) (hdue : z.started + 400 * z.watchdog ≤ s.dev.now)
include hz hruns hset hdue

/-- The watchdog of a launch whose transfers have completed ends it. -/
theorem exec_watchdog_ends (hquiet : ∀ i ∈ launchEngines z, unitXfers s.dev z.ctx i = []) :
    exec (.launchWatchdogExpire k) s = .next { s with dev := stopForFault s.dev k z (watchdogFault s.dev z) } := by
  have hexec : exec (.launchWatchdogExpire k) s = execLaunchWatchdogExpire k s := rfl
  have hall : (launchEngines z).all (fun i => (unitXfers s.dev z.ctx i).isEmpty) = true :=
    List.all_eq_true.mpr fun i hi => List.isEmpty_iff.mpr (hquiet i hi)
  simp only [hexec, execLaunchWatchdogExpire, onDev_next, hz, hruns, hset, hdue, hall, endLaunchFault, ne_eq, not_false_eq_true, and_self,
    if_true, true_or, watchdogFault]

/-- While a transfer is in flight the watchdog stops the sequencers (06 R245). -/
theorem exec_watchdog_stops (hbusy : ∃ i ∈ launchEngines z, unitXfers s.dev z.ctx i ≠ []) :
    exec (.launchWatchdogExpire k) s = .next { s with dev := (launchEngines z).foldl (fun d i => modE d z.ctx i fun e =>
      { e with seq := if e.seq = .running then .stopped else e.seq }) s.dev } := by
  have hexec : exec (.launchWatchdogExpire k) s = execLaunchWatchdogExpire k s := rfl
  have hall : (launchEngines z).all (fun i => (unitXfers s.dev z.ctx i).isEmpty) = false := by
    obtain ⟨i, hi, hne⟩ := hbusy
    exact List.all_eq_false.mpr ⟨i, hi, by rwa [List.isEmpty_iff]⟩
  simp only [hexec, execLaunchWatchdogExpire, onDev_next, hz, hruns, hset, hdue, hall, ne_eq, not_false_eq_true, and_self, if_true,
    Bool.false_eq_true, if_false]

end

/-- Settles O12: a launch past its WATCHDOG ends as by a fault, its sequencers stopping at once (log 20, log 61). -/
theorem engineTimersAndRecallsEnd : Obligations.EngineTimersAndRecallsEnd := by
  intro s e
  refine ⟨fun n k z i x key p hrun => ?_, fun g hg => ?_,
    fun k z cid c hz hruns hprog hset hdue hc hfin => ⟨fun hquiet => ?_, fun hbusy => ?_⟩⟩
  · intro l hrecall hout hctx hleaf hhere hlocal
    have hresume := resumeLine_local (n := n) hrun hrecall hout hctx hleaf hhere hlocal
    have hlines : ∀ m, lineOf (getE (resumeLine e n s.dev) z.ctx i) m =
        if m = n then resumedLine l else lineOf (getE s.dev z.ctx i) m := by
      intro m
      rw [hresume, getE_modE_same, lineOf_setLine]
    have hline := (hlines n).trans (if_pos rfl)
    refine ⟨{ s with dev := resumeLine e n s.dev }, rfl, ?_, ?_, ?_, ?_, fun m hm => (hlines m).trans (if_neg hm)⟩
    · rw [hresume]
      rfl
    · rw [hline]
      rfl
    · rw [hline]
      rfl
    · rw [hline]
      rfl
  · refine ⟨_, exec_basketRinseComplete hg, rfl, fun h => ?_, fun a => memByte_memClear_64k ..⟩
    have hgone := (List.mem_filter.mp h).2
    simp at hgone
  · obtain ⟨u, hstop, hcmds, hlaunch⟩ := stopForFault_prog (d := s.dev) (k := k) (f := watchdogFault s.dev z) hprog rfl
    refine ⟨_, exec_watchdog_ends hz hruns hset hdue hquiet, rfl, rfl, ?_, ?_⟩
    · have hdone := finishCmd_find u cid stLineFault (faultDetail (watchdogFault s.dev z).code) (faultResult (watchdogFault s.dev z)) none
        (by rw [hcmds]; exact hc) hfin
      have hdetail : faultDetail (watchdogFault s.dev z).code = 0x8004 := (rfl : faultDetail CTL_WATCHDOG = 0x8004)
      rw [← hstop, hdetail] at hdone
      exact ⟨resultOf (faultResult (watchdogFault s.dev z)), congrArg (Option.map fun f : Done => (f.status, f.detail, f.result)) hdone⟩
    · rw [hstop, finishCmd_launches, hlaunch, hz]
      rfl
  · refine ⟨_, exec_watchdog_stops hz hruns hset hdue hbusy, ?_, fun i hi => ?_⟩
    · rw [foldl_modE_only _ _ _ fun _ e => { e with seq := if e.seq = .running then .stopped else e.seq }]
    · rw [getE_foldl (F := fun _ e => { e with seq := if e.seq = .running then .stopped else e.seq })
        (fun d i => getE_modE_same d z.ctx i _) (fun d i j hj => getE_modE_ne d _ hj) (launchEngines_nodup z), if_pos hi]
      dsimp only
      split
      · decide
      · assumption

end Sys2Proof.Machine
end

section
/-! PROOF. The transfer unit: the issue of XFER by its direction (06 R230). -/

namespace Sys2Proof.Machine

/-! ### XFER -/

/-- A transfer whose pieces lie on this part asks no peer. -/
theorem askPieces_local {d : Dev} {ctx : Nat} {x : Xfer} {write : Bool} {ps : List (Nat × Nat)}
    (h : ∀ p ∈ ps, remoteOf d ctx (x.va + p.1) write = none) : askPieces d ctx x write ps = .ok ([], d) := by
  induction ps with
  | nil => rfl
  | cons p ps ih =>
    simp only [askPieces, h p List.mem_cons_self]
    exact ih fun q hq => h q (List.mem_cons_of_mem _ hq)

/-- The semaphore that an XFER increments at its end, if any. -/
def xferSem (c : Ic) : Option Nat := if bit c.w0 21 then some (bits c.w0 13 10) else none

/-- The transfer that an XFER of DIR 0 or 1 issues, with the data that it has read. -/
def memXfer (c : Ic) (kind : XKind) (bs : List Byte) : Xfer :=
  { kind := kind, launch := c.launch, ctx := c.ctx, idx := c.idx, va := c.w2 + 2 ^ 32 * c.w3, off := 64 * bits c.w1 31 15, roff := 0,
    len := 64 * bits c.w1 14 0, sem := xferSem c, drain := false, tags := [], pc := c.pc, data := bs }

/-- The transfer that an XFER of DIR 2 issues. -/
def engXfer (c : Ic) (dst : Nat) (bs : List Byte) : Xfer :=
  { kind := .toEngine dst, launch := c.launch, ctx := c.ctx, idx := c.idx, va := 0, off := 64 * bits c.w1 31 15,
    roff := 64 * bits c.w2 31 15, len := 64 * bits c.w1 14 0, sem := xferSem c, drain := false, tags := [], pc := c.pc, data := bs }

section
variable {s : State} {c : Ic} (h0 : c.w0 % 2 ^ 10 = 0) (hlen : 64 * bits c.w1 14 0 ≠ 0)
  (hopen : BasketOpen s c.ctx c.idx (64 * bits c.w1 31 15) (64 * bits c.w1 14 0)) (hroom : outstanding s.dev c.ctx c.idx < 128)
include h0 hlen hopen hroom

section
variable (hbits : c.w3 < 2 ^ 20)
include hbits

/-- XFER from the basket to local pages of memory carries the bytes that it reads at issue (log 7). -/
theorem doXfer_toMem (hdir : bits c.w0 23 22 = 0)
    (hclean : HandedOver s c.ctx c.idx .transfer (64 * bits c.w1 31 15) (64 * bits c.w1 31 15 + 64 * bits c.w1 14 0))
    (hlocal : ∀ p ∈ remotePieces (c.w2 + 2 ^ 32 * c.w3) (64 * bits c.w1 14 0),
      remoteOf s.dev c.ctx (c.w2 + 2 ^ 32 * c.w3 + p.1) true = none) :
    doXfer s.dev c = nextIns c (addXfer (cacheRange s.dev c.phys c.ctx (c.w2 + 2 ^ 32 * c.w3) (64 * bits c.w1 14 0))
      (memXfer c .toMem (memRead s.dev.mem.baskets (shareAt s c.ctx c.idx (64 * bits c.w1 31 15)) (64 * bits c.w1 14 0)))).2 := by
  have hpieces (x : Xfer) (hva : x.va = c.w2 + 2 ^ 32 * c.w3) :
      askPieces s.dev c.ctx x true (remotePieces (c.w2 + 2 ^ 32 * c.w3) (64 * bits c.w1 14 0)) = .ok ([], s.dev) :=
    askPieces_local (by rwa [hva])
  simp only [doXfer, xDir, hdir, h0, beq_eq_false_iff_ne.mpr hlen, Nat.div_eq_of_lt hbits, basketOk_open hopen, basketRead_clean hclean,
    decide_eq_false (Nat.not_le.mpr hroom), hpieces, bne_self_eq_false, Bool.or_false, Bool.false_and, Nat.reduceBEq, if_true,
    OfNat.zero_ne_ofNat, if_false, failIf_false, stallIf_false, ok_bind]
  rfl

/-- XFER from local pages of memory to the basket reads them when it ends. -/
theorem doXfer_toBasket (hdir : bits c.w0 23 22 = 1)
    (hlocal : ∀ p ∈ remotePieces (c.w2 + 2 ^ 32 * c.w3) (64 * bits c.w1 14 0),
      remoteOf s.dev c.ctx (c.w2 + 2 ^ 32 * c.w3 + p.1) false = none) :
    doXfer s.dev c = nextIns c
      (addXfer (cacheRange s.dev c.phys c.ctx (c.w2 + 2 ^ 32 * c.w3) (64 * bits c.w1 14 0)) (memXfer c .toBasket [])).2 := by
  have hpieces (x : Xfer) (hva : x.va = c.w2 + 2 ^ 32 * c.w3) :
      askPieces s.dev c.ctx x false (remotePieces (c.w2 + 2 ^ 32 * c.w3) (64 * bits c.w1 14 0)) = .ok ([], s.dev) :=
    askPieces_local (by rwa [hva])
  simp only [doXfer, xDir, hdir, h0, beq_eq_false_iff_ne.mpr hlen, Nat.div_eq_of_lt hbits, basketOk_open hopen,
    decide_eq_false (Nat.not_le.mpr hroom), hpieces, bne_self_eq_false, Bool.or_false, Bool.false_and, Nat.reduceBEq, if_false,
    OfNat.one_ne_ofNat, one_ne_zero, failIf_false, stallIf_false, ok_bind]
  rfl

end

/-- XFER to the basket of another engine of the launch. -/
theorem doXfer_toEngine (hdir : bits c.w0 23 22 = 2) (h2 : c.w2 % 2 ^ 15 = 0) (h3 : c.w3 = 0)
    (hclean : HandedOver s c.ctx c.idx .transfer (64 * bits c.w1 31 15) (64 * bits c.w1 31 15 + 64 * bits c.w1 14 0))
    (hdst : bits c.w0 20 14 < launchCount s.dev c)
    (hopen' : BasketOpen s c.ctx (ofLaunchIndex s.dev c.launch (bits c.w0 20 14)) (64 * bits c.w2 31 15) (64 * bits c.w1 14 0)) :
    doXfer s.dev c = nextIns c (addXfer s.dev (engXfer c (ofLaunchIndex s.dev c.launch (bits c.w0 20 14))
      (memRead s.dev.mem.baskets (shareAt s c.ctx c.idx (64 * bits c.w1 31 15)) (64 * bits c.w1 14 0)))).2 := by
  have hdst' : ¬ launchCount s.dev c ≤ xEngine c.w0 := Nat.not_le.mpr hdst
  have hthere := basketOk_open (code := XFER_RANGE) (i := ofLaunchIndex s.dev c.launch (xEngine c.w0)) hopen'
  simp only [doXfer, xDir, hdir, h0, h2, h3, beq_eq_false_iff_ne.mpr hlen, basketOk_open hopen, hthere, basketRead_clean hclean,
    decide_eq_false (Nat.not_le.mpr hroom), decide_eq_false hdst', bne_self_eq_false, Bool.or_false, Bool.and_false, Nat.reduceBEq,
    if_true, failIf_false, stallIf_false, ok_bind]
  rfl

end

/-- An instruction whose own effect is to issue a transfer, with the translations that it has cached. -/
theorem issue_addXfer {s : State} {op e n : Nat} {c : Ic} {x : Xfer} {cs : SMap (List (Nat × Nat × BitVec 64))} {body : Dev → Ic → Ex Nx}
    (h : AtIns s e op n c) (hk : opcodeKnown op = true)
    (hb : body s.dev c = nextIns c (addXfer { s.dev with mem := { s.dev.mem with caches := cs } } x).2) :
    ∃ t, onDev s (issue op e body) = .next t ∧ t = { s with dev := { s.dev with
        xfers := smPut s.dev.xfers s.dev.nextXfer x, nextXfer := s.dev.nextXfer + 1, eng := t.dev.eng,
        mem := { s.dev.mem with caches := t.dev.mem.caches } } } ∧ engOf t c = afterSeq c (engOf s c) := by
  obtain ⟨t, hnext, hdev, -, heng⟩ := issue_seq h hk hb
  refine ⟨t, hnext, ?_, heng⟩
  have hcaches : t.dev.mem.caches = cs := by rw [hdev]; rfl
  rw [hcaches]
  exact hdev

/-- Settles O13: by the direction; the source bytes are those that the basket holds at issue (log 7). -/
theorem xferIssuesATransfer : Obligations.XferIssuesATransfer := by
  intro s e n c dir len off va sem dst hat h0 hlen hopen hroom hclean hmem heng hdir3
  obtain ⟨cs, hcache⟩ := cacheRange_frame s.dev c.phys c.ctx va len
  have hcases : dir = 0 ∨ dir = 1 ∨ dir = 2 := by
    have hlt : dir < 4 := Nat.mod_lt _ (by decide)
    omega
  rcases hcases with hdir | hdir | hdir
  · obtain ⟨hbits, hlocal⟩ := hmem (by omega)
    have hbody := doXfer_toMem h0 hlen hopen hroom hbits hdir (hclean (by omega)) (by rwa [hdir] at hlocal)
    rw [hcache] at hbody
    obtain ⟨t, hnext, hdev, hafter⟩ := issue_addXfer hat rfl hbody
    refine ⟨t, hnext, _, hdev, hafter, rfl, rfl, rfl, rfl, rfl, rfl, fun _ => rfl, fun _ => rfl, fun h => ?_, rfl, fun h => ?_, fun _ => rfl⟩
    · omega
    · omega
  · obtain ⟨hbits, hlocal⟩ := hmem (by omega)
    have hbody := doXfer_toBasket h0 hlen hopen hroom hbits hdir (by rwa [hdir] at hlocal)
    rw [hcache] at hbody
    obtain ⟨t, hnext, hdev, hafter⟩ := issue_addXfer hat rfl hbody
    refine ⟨t, hnext, _, hdev, hafter, rfl, rfl, rfl, rfl, rfl, rfl, fun _ => rfl, fun h => ?_, fun _ => rfl, rfl, fun h => ?_, fun h => ?_⟩
    · omega
    · omega
    · exact absurd hdir h
  · obtain ⟨h2, h3, hdst, hopen'⟩ := heng hdir
    obtain ⟨t, hnext, hdev, hafter⟩ := issue_addXfer (cs := s.dev.mem.caches) hat rfl
      (doXfer_toEngine h0 hlen hopen hroom hdir h2 h3 (hclean (by omega)) hdst hopen')
    refine ⟨t, hnext, _, hdev, hafter, rfl, rfl, rfl, rfl, rfl, rfl, fun h => ?_, fun h => ?_, fun h => ?_, rfl, fun _ => ⟨rfl, rfl⟩,
      fun _ => rfl⟩
    · exact absurd hdir h
    · omega
    · omega

end Sys2Proof.Machine
end

section
/-! PROOF. Signals, waits and barriers of the engines of a launch (06 R231 to R233). -/

namespace Sys2Proof.Machine

/-! ### SIG and SWAIT -/

/-- An instruction whose effect is on what one engine of its context holds. -/
theorem issue_modE {s : State} {op e n i : Nat} {c : Ic} {f : EngCtx → EngCtx} {body : Dev → Ic → Ex Nx} (h : AtIns s e op n c)
    (hk : opcodeKnown op = true) (hb : body s.dev c = nextIns c (modE s.dev c.ctx i f)) :
    ∃ t, onDev s (issue op e body) = .next t ∧ t = { s with dev := { s.dev with eng := t.dev.eng } }
      ∧ (∀ k, k ≠ engKey c.ctx c.idx → smGet {} t.dev.eng k = smGet {} (modE s.dev c.ctx i f).eng k)
      ∧ engOf t c = afterSeq c (getE (modE s.dev c.ctx i f) c.ctx c.idx) :=
  issue_seq h hk hb

/-- Semaphore n of an engine set to a count. -/
def setSem (n count : Nat) (v : EngCtx) : EngCtx := { v with sem := smSet 0 v.sem n count }

theorem smGet_sem_modE_setSem (d : Dev) (ctx j n count i m : Nat) : smGet 0 (getE (modE d ctx j (setSem n count)) ctx i).sem m =
    if i = j ∧ m = n then count else smGet 0 (getE d ctx i).sem m := by
  by_cases hi : i = j
  · rw [hi, getE_modE_same, setSem, smGet_smSet]
    simp only [true_and]
  · rw [getE_modE_ne _ _ hi, if_neg fun h => hi h.1]

theorem loops_modE_setSem (d : Dev) (ctx j n count i : Nat) :
    (getE (modE d ctx j (setSem n count)) ctx i).loops = (getE d ctx i).loops := by
  by_cases hi : i = j
  · rw [hi, getE_modE_same, setSem]
  · rw [getE_modE_ne _ _ hi]

/-- A semaphore that has not saturated counts up. -/
theorem bumpSem_room {d : Dev} {ctx i n : Nat} (h : smGet 0 (getE d ctx i).sem n < 65535) : bumpSem d ctx i n =
    (modE d ctx i (setSem n (smGet 0 (getE d ctx i).sem n + 1)), true) := by
  rw [bumpSem, Nat.min_eq_left (Nat.succ_le_of_lt h), decide_eq_true h]
  rfl

/-- SIG that no earlier transfer or signal holds back counts up the semaphore of its engine. -/
theorem doSig_ok {d : Dev} {c : Ic} {z : Launch} (hz : smFind d.launches c.launch = some z) (h0 : c.w0 % 2 ^ 10 = 0)
    (hbits : bits c.w0 23 21 = 0) (h1 : c.w1 = 0) (h2 : c.w2 = 0) (h3 : c.w3 = 0) (hdst : bits c.w0 20 14 < z.engCount)
    (hfirst : earlierTo d c.ctx c.idx (z.engFirst + bits c.w0 20 14) d.nextXfer = false)
    (hroom : smGet 0 (getE d c.ctx (z.engFirst + bits c.w0 20 14)).sem (bits c.w0 13 10) < 65535) :
    doSig d c = nextIns c (modE d c.ctx (z.engFirst + bits c.w0 20 14)
      (setSem (bits c.w0 13 10) (smGet 0 (getE d c.ctx (z.engFirst + bits c.w0 20 14)).sem (bits c.w0 13 10) + 1))) := by
  have hcount : ¬ launchCount d c ≤ xEngine c.w0 := by
    simp only [launchCount, hz]
    exact Nat.not_le.mpr hdst
  have hto : ofLaunchIndex d c.launch (xEngine c.w0) = z.engFirst + bits c.w0 20 14 := by
    simp only [ofLaunchIndex, hz]
    rfl
  simp only [doSig, h0, hbits, h1, h2, h3, decide_eq_false hcount, hto, hfirst, xSem, bumpSem_room hroom,
    bne_self_eq_false, Bool.or_false, Bool.false_eq_true, if_false, if_true, failIf_false, ok_bind]

/-- Following the next instruction in sequence touches no semaphore. -/
theorem sem_of_issue_seq {c : Ic} {d' : Dev} {t : State}
    (hothers : ∀ k, k ≠ engKey c.ctx c.idx → smGet {} t.dev.eng k = smGet {} d'.eng k)
    (heng : engOf t c = afterSeq c (getE d' c.ctx c.idx)) (i : Nat) : (getE t.dev c.ctx i).sem = (getE d' c.ctx i).sem := by
  by_cases hi : i = c.idx
  · rw [hi]
    exact (congrArg EngCtx.sem heng : (engOf t c).sem = _)
  · exact congrArg EngCtx.sem (hothers _ (engKey_ne hi))

/-- SWAIT of a semaphore goes on by its count. -/
theorem doSwait_eq {d : Dev} {c : Ic} (hbits : bits c.w0 23 14 = 0) (h1 : c.w1 = 0) (h2 : c.w2 = 0) (h3 : c.w3 = 0) : doSwait d c =
    (stallIf (decide (smGet 0 (getE d c.ctx c.idx).sem (bits c.w0 13 10) < bits c.w0 9 0)) >>= fun _ =>
      nextIns c (handOver (modE d c.ctx c.idx
        (setSem (bits c.w0 13 10) (smGet 0 (getE d c.ctx c.idx).sem (bits c.w0 13 10) - bits c.w0 9 0))) c.ctx c.idx
        fun z => match z.who with
          | .remote (some k) => k == bits c.w0 13 10 | .remote none => true | .signalled k => k == bits c.w0 13 10 | _ => false)) := by
  simp only [doSwait, hbits, h1, h2, h3, bne_self_eq_false, Bool.or_false, failIf_false, ok_bind]
  rfl

/-- An instruction with two effects, one after the other, each on what its engine holds. -/
theorem issue_engine_twice {s : State} {op e n : Nat} {c : Ic} {f g : EngCtx → EngCtx} {body : Dev → Ic → Ex Nx} (h : AtIns s e op n c)
    (hk : opcodeKnown op = true) (hb : body s.dev c = nextIns c (modE (modE s.dev c.ctx c.idx f) c.ctx c.idx g)) :
    ∃ t, onDev s (issue op e body) = .next t ∧ OnlyEngine c s t ∧ engOf t c = afterSeq c (g (f (engOf s c))) := by
  obtain ⟨t, hnext, hdev, hothers, heng⟩ := issue_seq h hk hb
  have hframe (d : Dev) (r : EngCtx → EngCtx) : modE d c.ctx c.idx r = { d with eng := (modE d c.ctx c.idx r).eng } := rfl
  rw [hframe (modE s.dev c.ctx c.idx f), hframe s.dev] at hdev
  refine ⟨t, hnext, ⟨hdev, fun k hne => ?_⟩, ?_⟩
  · rw [hothers k hne, eng_modE_ne _ _ _ _ hne, eng_modE_ne _ _ _ _ hne]
  · rw [heng, getE_modE_same, getE_modE_same]
    rfl

/-! ### BAR -/

/-- BAR: the last engine to arrive goes on, any other stays at it. -/
def barBody (d : Dev) (c : Ic) : Ex Nx := do
  let (all, d1) ← doBar d c
  return (if all then { dev := d1, pc := c.pc + 1, seq := true } else { dev := d1, pc := c.pc, seq := false })

theorem execBar_eq (e : Fin 96) (s : State) : exec (.iBar e) s = onDev s (issue 0x33 e barBody) := rfl

/-- The engine at the barrier. -/
def atBar (k : Nat) (v : EngCtx) : EngCtx := { v with barAt := some k }

/-- What the release of a barrier leaves of engine i: the last to arrive, idx, still stands at its BAR, every other one goes on (06 R233). -/
def barReleased (idx i : Nat) (v : EngCtx) : EngCtx :=
  if i = idx then { v with barAt := none }
  else { v with barAt := none, patch := none, loops := (loopNext v.pc (v.pc + 1) v.loops).1, pc := (loopNext v.pc (v.pc + 1) v.loops).2 }

/-- The release of one engine of a launch. -/
def releaseOne (c : Ic) (d : Dev) (i : Nat) : Dev :=
  if i = c.idx then modE d c.ctx i fun e => { e with barAt := none }
  else movePc (modE d c.ctx i fun e => { e with barAt := none, patch := none }) c.ctx i ((getE d c.ctx i).pc + 1) true

theorem releaseBar_eq {d : Dev} {c : Ic} {z : Launch} (hz : smFind d.launches c.launch = some z) :
    releaseBar d c = (launchEngines z).foldl (releaseOne c) d := by
  simp only [releaseBar, hz]
  rfl

theorem getE_releaseOne_same (c : Ic) (d : Dev) (i : Nat) :
    getE (releaseOne c d i) c.ctx i = barReleased c.idx i (getE d c.ctx i) := by
  unfold releaseOne barReleased
  split
  · exact getE_modE_same ..
  · simp only [movePc, getE_modE_same, if_true]
    rfl

theorem getE_releaseOne_ne (c : Ic) (d : Dev) (i j : Nat) (h : j ≠ i) : getE (releaseOne c d i) c.ctx j = getE d c.ctx j := by
  unfold releaseOne
  split
  · exact getE_modE_ne d _ h
  · exact (getE_modE_ne _ _ h).trans (getE_modE_ne _ _ h)

theorem releaseBar_frame {d : Dev} {c : Ic} {z : Launch} (hz : smFind d.launches c.launch = some z) :
    ∃ eng, releaseBar d c = { d with eng := eng } := by
  rw [releaseBar_eq hz]
  refine List.foldlRecOn (motive := fun e : Dev => ∃ eng, e = { d with eng := eng }) _ _ ⟨_, rfl⟩ ?_
  rintro _ ⟨eng, rfl⟩ i -
  unfold releaseOne
  split <;> exact ⟨_, rfl⟩

theorem getE_releaseBar {d : Dev} {c : Ic} {z : Launch} (hz : smFind d.launches c.launch = some z) {i : Nat} (hi : i ∈ launchEngines z) :
    getE (releaseBar d c) c.ctx i = barReleased c.idx i (getE d c.ctx i) := by
  rw [releaseBar_eq hz, getE_foldl (getE_releaseOne_same c) (getE_releaseOne_ne c) (launchEngines_nodup z), if_pos hi]

/-- BAR notes the barrier and goes by whether every engine of the launch is at it. -/
theorem barBody_eq {d : Dev} {c : Ic} {z : Launch} (hz : smFind d.launches c.launch = some z) (hbits : bits c.w0 23 14 = 0)
    (hlow : bits c.w0 9 0 = 0) (h1 : c.w1 = 0) (h2 : c.w2 = 0) (h3 : c.w3 = 0) : barBody d c =
    if (launchEngines z).all fun i =>
        decide ((getE (modE d c.ctx c.idx (atBar (bits c.w0 13 10))) c.ctx i).barAt = some (bits c.w0 13 10))
    then nextIns c (releaseBar (modE d c.ctx c.idx (atBar (bits c.w0 13 10))) c)
    else .ok { dev := modE d c.ctx c.idx (atBar (bits c.w0 13 10)), pc := c.pc, seq := false } := by
  have hbar (k : Nat) : (fun v : EngCtx => { v with barAt := some k }) = atBar k := rfl
  simp only [barBody, doBar, hz, xSem, hbar, hbits, hlow, h1, h2, h3, bne_self_eq_false, Bool.or_false, failIf_false, ok_bind]
  cases (launchEngines z).all fun i =>
    decide ((getE (modE d c.ctx c.idx (atBar (bits c.w0 13 10))) c.ctx i).barAt = some (bits c.w0 13 10)) <;> rfl

/-- Every engine of the launch is at the barrier when the others are. -/
theorem barAt_modE_atBar {d : Dev} {ctx idx k i : Nat} (h : i ≠ idx → (getE d ctx i).barAt = some k) :
    (getE (modE d ctx idx (atBar k)) ctx i).barAt = some k := by
  by_cases hi : i = idx
  · rw [hi, getE_modE_same]
    rfl
  · rw [getE_modE_ne d _ hi, h hi]

/-- The instruction at which an engine of a launch stands at its barrier: that of the engine that issues, which is c's, or its own PC. -/
def barPc (d : Dev) (c : Ic) (i : Nat) : Nat := if i = c.idx then c.pc else (getE d c.ctx i).pc

/-- The BAR of the last engine to arrive moves every engine of its launch on (06 R233). -/
theorem issue_bar_last {s : State} {e n k : Nat} {c : Ic} {z : Launch} (h : AtIns s e 0x33 n c)
    (hz : smFind s.dev.launches c.launch = some z)
    (hb : barBody s.dev c = nextIns c (releaseBar (modE s.dev c.ctx c.idx (atBar k)) c)) :
    ∃ t, onDev s (issue 0x33 e barBody) = .next t ∧ t = { s with dev := { s.dev with eng := t.dev.eng } } ∧
      ∀ i ∈ launchEngines z, (getE t.dev c.ctx i).barAt = none ∧
        (getE t.dev c.ctx i).pc = (loopNext (barPc s.dev c i) (barPc s.dev c i + 1) (getE s.dev c.ctx i).loops).2 := by
  have hz' : smFind (modE s.dev c.ctx c.idx (atBar k)).launches c.launch = some z := hz
  obtain ⟨eng, hframe⟩ := releaseBar_frame hz'
  obtain ⟨t, hnext, hdev, hothers, heng⟩ := issue_seq h rfl hb
  refine ⟨t, hnext, ?_, fun i hi => ?_⟩
  · rw [hframe] at hdev
    exact hdev
  have hreleased := getE_releaseBar hz' hi
  by_cases hidx : i = c.idx
  · rw [hidx] at hreleased ⊢
    have hthere : getE t.dev c.ctx c.idx = _ := heng
    rw [hreleased, barReleased, if_pos rfl, getE_modE_same] at hthere
    rw [hthere, barPc, if_pos rfl]
    exact ⟨rfl, rfl⟩
  · have hthere : getE t.dev c.ctx i = _ := hothers _ (engKey_ne hidx)
    rw [hthere, barPc, if_neg hidx]
    rw [barReleased, if_neg hidx, getE_modE_ne _ _ hidx] at hreleased
    exact ⟨congrArg EngCtx.barAt hreleased, congrArg EngCtx.pc hreleased⟩

/-- Settles O14: SIG by the semaphore it bumps, SWAIT by its stall, BAR by whether every other engine is at the barrier. -/
theorem signalsWaitsAndBarriers : Obligations.SignalsWaitsAndBarriers := by
  intro s e n c z hz k dst to_ v
  refine ⟨fun hat h0 hbits h1 h2 h3 hdst hfirst hroom => ?_, fun hat hbits h1 h2 h3 => ?_, fun hat hbits hlow h1 h2 h3 hmem => ?_⟩
  · obtain ⟨t, hnext, hdev, hothers, heng⟩ := issue_modE hat rfl (doSig_ok hz h0 hbits h1 h2 h3 hdst hfirst hroom)
    have hsem := sem_of_issue_seq hothers heng
    refine ⟨t, hnext, hdev, ?_, fun i m hne => ?_, ?_⟩
    · rw [hsem, smGet_sem_modE_setSem, if_pos ⟨rfl, rfl⟩]
    · rw [hsem, smGet_sem_modE_setSem, if_neg (not_and_or.mpr hne)]
    · rw [heng]
      exact congrArg (fun l => (loopNext c.pc (c.pc + 1) l).2) (loops_modE_setSem ..)
  · have hbody := doSwait_eq (d := s.dev) hbits h1 h2 h3
    refine ⟨fun (hgo : bits c.w0 9 0 ≤ smGet 0 (getE s.dev c.ctx c.idx).sem (bits c.w0 13 10)) => ?_,
      fun (hstall : smGet 0 (getE s.dev c.ctx c.idx).sem (bits c.w0 13 10) < bits c.w0 9 0) => ?_⟩
    · rw [decide_eq_false (Nat.not_lt.mpr hgo), stallIf_false, ok_bind] at hbody
      obtain ⟨t, hnext, honly, heng⟩ := issue_engine_twice hat rfl hbody
      refine ⟨t, hnext, honly, fun m => ?_, ?_⟩
      · rw [heng]
        exact smGet_smSet ..
      · rw [heng]
        rfl
    · rw [decide_eq_true hstall, stallIf_true, error_bind] at hbody
      exact congrArg Host.Outcome.next (congrArg (fun d => { s with dev := d }) (issue_stall hat.1 hat.2.1 hat.2.2 rfl hbody))
  · have hbody := barBody_eq hz hbits hlow h1 h2 h3
    refine ⟨fun ⟨i, hi, hne, haway⟩ => ?_, fun hall => ?_⟩
    · have hwait : ((launchEngines z).all fun i => decide ((getE (modE s.dev c.ctx c.idx (atBar k)) c.ctx i).barAt = some k)) = false :=
        List.all_eq_false.mpr ⟨i, hi, by rwa [decide_eq_true_iff, getE_modE_ne _ _ hne]⟩
      rw [hwait, if_neg Bool.false_ne_true] at hbody
      obtain ⟨t, hnext, honly, heng⟩ := issue_jump_engine hat rfl hbody
      exact ⟨t, hnext, honly, heng⟩
    · have hgo : ((launchEngines z).all fun i => decide ((getE (modE s.dev c.ctx c.idx (atBar k)) c.ctx i).barAt = some k)) = true :=
        List.all_eq_true.mpr fun i hi => decide_eq_true (barAt_modE_atBar (hall i hi))
      rw [hgo, if_pos rfl] at hbody
      exact issue_bar_last hat hz hbody

end Sys2Proof.Machine
end

section
/-! PROOF. The load of a program and its launch (06 R235 to R241), and the end of a launch's slice (13 R511). -/

namespace Sys2Proof.Machine

/-! ### Commands that wait with a note -/

/-- A note upon a command leaves its final record. -/
theorem bind_fin_modCmd (d : Dev) (cid : Nat) {f : Cmd → Cmd} (hf : ∀ v, (f v).fin = v.fin) :
    (smFind (modCmd d cid f).cmds cid).bind (·.fin) = (smFind d.cmds cid).bind (·.fin) := by
  rw [modCmd_cmds, smFind_smUpd_same]
  cases smFind d.cmds cid with
  | none => rfl
  | some c => exact hf c

theorem bind_fin_began {s : State} {op cid : Nat} {c : Cmd} (h : Runs s op cid c) : (smFind (began s cid).cmds cid).bind (·.fin) = none := by
  rw [smFind_began_same h]
  exact fin_of_runs (c := c) h

theorem finOf_waitState (s : State) (d : Dev) (cid : Nat) (h : (smFind d.cmds cid).bind (·.fin) = none) :
    finOf { s with dev := modCmd d cid waitState } cid = none := by
  rw [finOf, bind_fin_waitState, h]
  rfl

/-! ### PROG.LOAD -/

theorem readPieces_began (s : State) (cid : Nat) (x : Ctx) (perm : Perm) (l : List (Nat × Nat)) :
    readPieces (began s cid) x perm l = readPieces s.dev x perm l := by
  induction l with
  | nil => rfl
  | cons q l ih =>
    simp only [readPieces, ih]
    rfl

/-- What a virtual address holds does not depend on how far a command is. -/
theorem readVirt_began (s : State) (cid ctx va n : Nat) (perm : Perm) :
    readVirt (began s cid) ctx va n perm = readVirt s.dev ctx va n perm := by
  have hctxs : (began s cid).ctxs = s.dev.ctxs := rfl
  simp only [readVirt, hctxs, readPieces_began]

/-- Nothing is brought in where every page of the ranges is local. -/
theorem bringIn_local {d : Dev} {cid : Nat} {c : Cmd} {rs : List (Nat × Nat × Bool)} (h : notLocal d (cmdContext c) rs = []) :
    bringIn d cid c rs = (true, d) := by
  rw [bringIn, h]
  rfl

/-- The program that an image holds (06 R235). -/
def imageProg (img : List Byte) : Prog :=
  { hdr := slice img 0 64, words := (span 0 (field img 0x10 4)).map fun k => BitVec.ofNat 128 (field img (64 + 16 * k) 16) }

theorem stepProgLoad_ok {d : Dev} {cid : Nat} {c : Cmd} {x : Ctx} {img : List Byte} (hctx : smFind d.ctxs (cmdContext c) = some x)
    (hidle : slotRuns d (cmdContext c) (plSlot c) = false) (hchk : chkProgLoad d c = .ok ())
    (hlocal : notLocal d (cmdContext c) [(plVa c, plLen c, false)] = [])
    (hread : readVirt d (cmdContext c) (plVa c) (plLen c) .any = .ok img) (himg : chkImage d x c img = .ok ()) :
    stepProgLoad d cid c = some (finishCmd
      (modCtx d (cmdContext c) fun x => { x with progs := smPut x.progs (plSlot c) (imageProg img) }) cid stOk 0
      [(0x0C, 4, field img 0x10 4)] none) := by
  simp only [stepProgLoad, hctx, hidle, hchk, bringIn_local hlocal, hread, himg, Bool.not_true, Bool.false_eq_true, if_false]
  rfl

/-! ### PROG.LAUNCH -/

/-- The launch that a PROG.LAUNCH asks for (06 R239). -/
def progLaunch (d : Dev) (cid : Nat) (c : Cmd) : Launch :=
  mkLaunch d (cmdContext c) (.prog cid) (lhSlot c) (lhFirst c) (lhCount c) ((span 0 8).map fun k => word c.hdr (0x20 + 4 * k))
    (lhMode c == 1) (par c 0x14 4) (deadlineOf c) (if cmdDeadline c = 0 then 2 else 1)

/-- A launch that is queued takes the next number, and of the rest its context alone may change. -/
theorem queueLaunch_frame (d : Dev) (z : Launch) : ∃ ctxs, queueLaunch d z = (d.nextLaunch,
    { d with ctxs := ctxs, launches := smPut d.launches d.nextLaunch z, nextLaunch := d.nextLaunch + 1 }) := ⟨_, rfl⟩

theorem stepProgLaunch_ok {d : Dev} {cid : Nat} {c : Cmd} (hinfo : c.info = []) (hchk : chkProgLaunch d c = .ok ()) :
    ∃ ctxs, stepProgLaunch d cid c = some (modCmd
      { d with ctxs := ctxs, launches := smPut d.launches d.nextLaunch (progLaunch d cid c), nextLaunch := d.nextLaunch + 1 } cid
      fun c => { c with info := [d.nextLaunch] }) := by
  obtain ⟨ctxs, hqueue⟩ := queueLaunch_frame
    (modCtx d (cmdContext c) fun x => { x with stopped := false, stopLaunch := none, imgLaunch := [] }) (progLaunch d cid c)
  refine ⟨ctxs, ?_⟩
  rw [progLaunch] at hqueue
  simp only [stepProgLaunch, hinfo, hchk, hqueue, List.isEmpty_nil, Bool.not_true, Bool.false_eq_true, if_false]
  rfl

/-! ### SLICE_MAX_EXPIRE -/

/-- An engine whose launch is taken off it, with the stall that it has counted. -/
def stallEnded (d : Dev) (z : Launch) (i : Nat) (v : EngCtx) : EngCtx :=
  { v with stalled := v.stalled + preemptLaunch.stallOf d z i v, stallFrom := none }

/-- The stalls of a launch's engines end. -/
def endStalls (d : Dev) (z : Launch) : Dev := (launchEngines z).foldl (fun d i => modE d z.ctx i (stallEnded d z i)) d

theorem endStalls_frame (d : Dev) (z : Launch) : ∃ eng, endStalls d z = { d with eng := eng } := by
  refine List.foldlRecOn (motive := fun e : Dev => ∃ eng, e = { d with eng := eng }) _ _ ⟨_, rfl⟩ ?_
  rintro _ ⟨eng, rfl⟩ i -
  exact ⟨_, rfl⟩

/-- An engine and what it was differ in the count of its stall only. -/
def OnlyStall (v w : EngCtx) : Prop := w = { v with stalled := w.stalled, stallFrom := w.stallFrom }

theorem getE_endStalls (d : Dev) (z : Launch) (q i : Nat) : OnlyStall (getE d q i) (getE (endStalls d z) q i) := by
  refine List.foldlRecOn (motive := fun e : Dev => OnlyStall (getE d q i) (getE e q i)) _ _ rfl ?_
  rintro e he j -
  by_cases hkey : engKey q i = engKey z.ctx j
  · have hsame : getE (modE e z.ctx j (stallEnded e z j)) q i = stallEnded e z j (getE e q i) := by
      simp only [getE, hkey]
      exact getE_modE_same ..
    rw [hsame, he]
    rfl
  · have hother : getE (modE e z.ctx j (stallEnded e z j)) q i = getE e q i := getE_setE_ne _ _ hkey
    rwa [hother]

theorem preemptLaunch_running {d : Dev} {k : Nat} {z : Launch} (hz : smFind d.launches k = some z) (hrun : z.state = .running) :
    ∃ ctxs, preemptLaunch d k = { endStalls d z with
      running := d.running.filter (fun p => p.2 != k), ctxs := ctxs, launches := smUpd d.launches k fun z => { z with state := .preempted } } := by
  obtain ⟨eng, hframe⟩ := endStalls_frame d z
  have hfold : (launchEngines z).foldl (fun d i => modE d z.ctx i fun e =>
      { e with stalled := e.stalled + preemptLaunch.stallOf d z i e, stallFrom := none }) d = endStalls d z := rfl
  simp only [preemptLaunch, hz, hrun, if_true, hfold, hframe]
  exact ⟨_, rfl⟩

theorem sliceExpire_due {d : Dev} {k : Nat} {z : Launch} {x : Ctx} {p : Partn} {w : Nat × Launch} (hz : smFind d.launches k = some z)
    (hctx : smFind d.ctxs z.ctx = some x) (hpart : partOf d x.part = some p) (hrun : z.state = .running) (hcls : z.cls ≠ 1)
    (hslice : 400 * p.slice < d.now - z.sliceFrom) (hw : w ∈ candidates d x.part) (hne : w.2.ctx ≠ z.ctx)
    (hshare : ∃ e ∈ launchPhys d w.2, e ∈ launchPhys d z) : sliceExpire k d = preemptLaunch d k := by
  obtain ⟨e, hthere, hhere⟩ := hshare
  have hwanted : ((candidates d x.part).any fun c => c.2.ctx != z.ctx && (launchPhys d c.2).any fun e => (launchPhys d z).contains e) = true :=
    List.any_eq_true.mpr ⟨w, hw, Bool.and_eq_true_iff.mpr
      ⟨bne_iff_ne.mpr hne, List.any_eq_true.mpr ⟨e, hthere, List.contains_iff_mem.mpr hhere⟩⟩⟩
  simp only [sliceExpire, hz, hctx, hpart, Option.bind_some, Option.map_some]
  rw [if_pos ⟨hrun, hcls, hslice, hwanted⟩]

/-- Settles O37: PROG.LOAD by its image, PROG.LAUNCH by the launch that it queues, the slice by the launch that it pre-empts; a context
need not be resident (log 51). -/
theorem programsLoadAndLaunch : Obligations.ProgramsLoadAndLaunch := by
  intro s cid c x ctx
  refine ⟨fun img hruns hctx hidle hchk hlocal hread himg => ?_, fun hruns hinfo hchk => ?_,
    fun k z p w hz hctx hpart hrun hcls hslice hw hne hshare => ?_⟩
  · have hbody := stepProgLoad_ok (d := began s cid) (cid := cid) hctx hidle hchk hlocal ((readVirt_began ..).trans hread) himg
    refine (completes_finish_kept rfl hruns hbody rfl).imp ?_
    rintro t ⟨hdev, -, hfin, -⟩
    have hctxs : t.dev.ctxs = smUpd s.dev.ctxs ctx fun x => { x with progs := smPut x.progs (plSlot c) (imageProg img) } := by rw [hdev]; rfl
    refine ⟨?_, ⟨_, hfin⟩, fun k hk => ?_, { x with progs := smPut x.progs (plSlot c) (imageProg img) }, imageProg img, ?_, rfl,
      fun k => smFind_smPut .., rfl, length_map_span .., fun k hk => nth_map_span _ _ hk⟩
    · rw [hctxs]
      exact hdev
    · rw [hctxs, smFind_smUpd_ne _ _ hk]
    · rw [hctxs, smFind_smUpd_same, hctx]
      rfl
  · obtain ⟨ctxs, hbody⟩ := stepProgLaunch_ok (d := began s cid) (cid := cid) hinfo hchk
    refine ⟨_, onDev_runCmd hruns hbody, rfl, ?_, fun k hk => smFind_smPut_ne _ _ hk, progLaunch (began s cid) cid c,
      smFind_smPut_same .., rfl, rfl, rfl, rfl, rfl, rfl, rfl, rfl, rfl, rfl⟩
    refine finOf_waitState _ _ _ ?_
    rw [bind_fin_modCmd]
    · exact bind_fin_began hruns
    · exact fun _ => rfl
  · have hexec : exec (.sliceMaxExpire k) s = onDev s (sliceExpire k) := rfl
    obtain ⟨ctxs, hpre⟩ := preemptLaunch_running hz hrun
    obtain ⟨eng, hframe⟩ := endStalls_frame s.dev z
    have hstalls := getE_endStalls s.dev z
    rw [hframe] at hpre hstalls
    refine ⟨_, hexec.trans (onDev_next _ _), ?_⟩
    rw [sliceExpire_due hz hctx hpart hrun hcls hslice hw hne hshare, hpre]
    refine ⟨rfl, fun q i => hstalls q i, ?_, fun q hq => ?_⟩
    · exact (congrArg (Option.map _) (smFind_smUpd_same ..)).trans (by rw [hz]; rfl)
    · exact bne_iff_ne.mp (List.mem_filter.mp hq).2

end Sys2Proof.Machine
end

section
/-! PROOF. The moves of pages between the tiers, and the rinse of frames (07 R222, R273 to R275, R280; 08 R342). -/

namespace Sys2Proof.Machine

/-! ### MEM.DEMOTE and MEM.RECALL -/

theorem splitReserve_pages (l : List (Nat × Pte)) (fs : List Nat) : (splitReserve l fs).map (·.1) = l.map (·.1) := by
  induction l generalizing fs with
  | nil => rfl
  | cons q l ih => rw [splitReserve, List.map_cons, List.map_cons, ih]

/-- The waits that a command books for its pages (07 R273). -/
def bookedWaits (cid : Nat) (x : Ctx) (c : Cmd) : List MoveWait :=
  (splitReserve (movedPages x c) (if par c 0x20 1 = 2 then c.pool else c.frames)).map fun q =>
    { ctx := cmdContext c, page := q.1, to_ := par c 0x20 1, dest := if par c 0x20 1 = 2 then none else some q.2,
      slow := if par c 0x20 1 = 2 then q.2 else [], cid := some cid, line := [] }

theorem bookedWaits_pages (cid : Nat) (x : Ctx) (c : Cmd) : (bookedWaits cid x c).map (fun w => (w.ctx, w.page, w.to_, w.cid)) =
    (movedPages x c).map fun q => (cmdContext c, q.1, par c 0x20 1, some cid) := by
  have hpages := congrArg (List.map fun page => (cmdContext c, page, par c 0x20 1, some cid))
    (splitReserve_pages (movedPages x c) (if par c 0x20 1 = 2 then c.pool else c.frames))
  rw [List.map_map, List.map_map] at hpages
  rw [bookedWaits, List.map_map]
  exact hpages

theorem bookMoves_eq (d : Dev) (cid : Nat) (x : Ctx) (c : Cmd) (h : movedPages x c ≠ []) : ∃ info, bookMoves d cid x c =
    modCmd (modMem (useReserve d cid) fun m => { m with waits := m.waits ++ bookedWaits cid x c }) cid fun c => { c with info := info } := by
  have hmoved : (movedPages x c).isEmpty = false := by rwa [List.isEmpty_eq_false_iff]
  simp only [bookMoves, hmoved, Bool.false_eq_true, if_false]
  exact ⟨_, rfl⟩

/-- A move that has not begun books its pages, when what it has reserved suits them and none is on its way. -/
theorem stepMove_books {d : Dev} {cid : Nat} {c : Cmd} {x : Ctx} (hctx : smFind d.ctxs (cmdContext c) = some x) (hinfo : c.info = [])
    (hopen : memBlocked d cid c = false) (hchk : (if opcodeC c = 0x0405 then chkDemote d c else chkRecall d c) = .ok ())
    (hhere : ∀ q ∈ leavesIn x (par c 0x10 8) (par c 0x18 8), q.2.transit = false) (hfits : reserveFits d x c (movedPages x c) = true) :
    stepMove d cid c = some (bookMoves d cid x c) := by
  have htransit : (leavesIn x (par c 0x10 8) (par c 0x18 8)).any (fun q => q.2.transit) = false :=
    List.any_eq_false.mpr fun q hq => Bool.not_eq_true _ ▸ hhere q hq
  simp only [stepMove, hctx, hinfo, hopen, hchk, htransit, hfits, List.isEmpty_nil, if_true, Bool.false_eq_true, if_false]

/-- A move whose pages neither wait nor move any more ends. -/
theorem stepMove_ends {d : Dev} {cid : Nat} {c : Cmd} {x : Ctx} (hctx : smFind d.ctxs (cmdContext c) = some x) (hinfo : c.info ≠ [])
    (hwaits : ∀ w ∈ d.mem.waits, w.cid ≠ some cid) (hmoves : ∀ v ∈ d.mem.moves, v.cid ≠ some cid) :
    stepMove d cid c = some (finishCmd d cid stOk 0 [(0x0C, 4, nth 0 c.info 0), (0x10, 4, nth 0 c.info 1)] none) := by
  have hbegun : c.info.isEmpty = false := by rwa [List.isEmpty_eq_false_iff]
  have hnowait : d.mem.waits.any (fun w => w.cid == some cid) = false :=
    List.any_eq_false.mpr fun w hw => by rw [beq_iff_eq]; exact hwaits w hw
  have hnomove : d.mem.moves.any (fun m => m.cid == some cid) = false :=
    List.any_eq_false.mpr fun v hv => by rw [beq_iff_eq]; exact hmoves v hv
  simp only [stepMove, hctx, hbegun, hnowait, hnomove, Bool.or_self, Bool.false_eq_true, if_false]

/-! ### PAGE_MOVE -/

/-- Marking a command as throttled changes only the commands in flight. -/
theorem markThrottled_frame (d : Dev) (cid : Nat) (dies : List Nat) : ∃ cmds, markThrottled d cid dies = { d with cmds := cmds } := by
  unfold markThrottled
  split <;> exact ⟨_, rfl⟩

/-- The move that starts for a local page that goes to frames which are reserved for it (07 R274). -/
def localMove (ctx page : Nat) (p : Pte) (w : MoveWait) (fs : List Nat) : Move :=
  { ctx := ctx, page := page, dest := some fs, slow := p.slowPgs, cid := w.cid, failAt := none, line := w.line, asked := false }

/-- A move that starts is no longer awaited. -/
def withMove (d : Dev) (w : MoveWait) (mv : Move) : Dev := modMem (dropWait d w) fun m => { m with moves := m.moves ++ [mv] }

theorem startMove_local {d : Dev} {ctx page : Nat} {x : Ctx} {w : MoveWait} {p : Pte} {fs : List Nat} (hctx : smFind d.ctxs ctx = some x)
    (hwait : waitOf d ctx page = some w) (hstill : moveOf d ctx page = none) (hpage : smFind x.ptes page = some p)
    (hlocal : p.kind = .localPage) (hdest : w.dest = some fs) (hnear : w.to_ ≠ 2) (hother : w.to_ ≠ tierOf p)
    (hdown : tierOf p < w.to_ → demoteHeld d x ctx page p w.to_ w.cid = false) (hidle : inUse d ctx page p = false)
    (hsteady : stepAppends d x ctx page p w.to_ = false) : ∃ cmds, startMove ctx page d =
      if p.kvPool.isSome && stepBusy d ctx then { withMove d w (localMove ctx page p w fs) with cmds := cmds }
      else setPte { withMove d w (localMove ctx page p w fs) with cmds := cmds } ctx page { p with transit := true } := by
  have hheld : (decide (tierOf p < w.to_) && demoteHeld d x ctx page p w.to_ w.cid) = false := by
    by_cases h : tierOf p < w.to_
    · rw [hdown h, Bool.and_false]
    · rw [decide_eq_false h, Bool.false_and]
  have hto : (w.to_ == 2) = false := beq_eq_false_iff_ne.mpr hnear
  simp only [startMove, hctx, hwait, hstill, hpage, hheld, hidle, hsteady, hdest, hnear, hto, hother.symm, switchLater, hlocal,
    reduceCtorEq, decide_true, decide_false, Option.isSome_some, Bool.or_self, Bool.and_true, Bool.and_false, Bool.false_eq_true,
    or_self, if_false]
  cases hcid : w.cid with
  | none =>
    refine ⟨d.cmds, ?_⟩
    simp only [withMove, localMove, hcid]
    rfl
  | some c =>
    obtain ⟨cmds, hmark⟩ := markThrottled_frame (withMove d w (localMove ctx page p w fs)) c
      (((p.frames ++ (some fs).getD []).filterMap fun f => if isCup f then none else some (8 + homeDie f)).eraseDups)
    refine ⟨cmds, ?_⟩
    simp only [withMove, localMove, hcid] at hmark ⊢
    rw [hmark]

theorem moveOf_append {d e : Dev} {ctx page : Nat} {mv : Move} (hmoves : e.mem.moves = d.mem.moves ++ [mv])
    (hnone : moveOf d ctx page = none) (hctx : mv.ctx = ctx) (hpage : mv.page = page) : moveOf e ctx page = some mv := by
  have hmatch : (mv.ctx == ctx && mv.page == page) = true := by simp only [hctx, hpage, beq_self_eq_true, Bool.and_self]
  have hfirst : d.mem.moves.find? (fun m => m.ctx == ctx && m.page == page) = none := hnone
  rw [moveOf, hmoves, List.find?_append, hfirst, Option.none_or]
  exact List.find?_cons_of_pos (p := fun m : Move => m.ctx == ctx && m.page == page) hmatch

/-! ### PAGE_MOVE_COMPLETE -/

/-- The rewriting of a leaf changes its context's pages, and drops cached copies. -/
theorem setPte_frame (d : Dev) (ctx page : Nat) (p : Pte) : ∃ caches, setPte d ctx page p = { d with
    ctxs := smUpd d.ctxs ctx fun x => { x with ptes := smPut x.ptes page p }, mem := { d.mem with caches := caches } } := ⟨_, rfl⟩

/-- The end of a move rewrites its leaf, and of the device beyond its context and the caches it changes the moves alone. -/
theorem finishMove_frame {d : Dev} {mv : Move} {x : Ctx} (p : Pte) (hctx : smFind d.ctxs mv.ctx = some x) : ∃ ctxs caches y,
    finishMove d mv p = { d with
      ctxs := ctxs, mem := { d.mem with caches := caches, moves := d.mem.moves.filter fun v => !(v.ctx == mv.ctx && v.page == mv.page) } } ∧
    smFind ctxs mv.ctx = some y ∧ y.ptes = smPut x.ptes mv.page { p with transit := false } := by
  have hput : smFind (smUpd d.ctxs mv.ctx fun x => { x with ptes := smPut x.ptes mv.page { p with transit := false } }) mv.ctx =
      some { x with ptes := smPut x.ptes mv.page { p with transit := false } } := by
    rw [smFind_smUpd_same, hctx]
    rfl
  obtain ⟨caches, hset⟩ := setPte_frame d mv.ctx mv.page { p with transit := false }
  simp only [finishMove, hset, modMem]
  generalize smUpd d.ctxs mv.ctx (fun x => { x with ptes := smPut x.ptes mv.page { p with transit := false } }) = ctxs at hput
  split
  · split
    · exact ⟨_, caches, _, rfl, (smFind_smUpd_same ..).trans (congrArg _ hput), rfl⟩
    · exact ⟨ctxs, caches, _, rfl, hput, rfl⟩
  · exact ⟨ctxs, caches, _, rfl, hput, rfl⟩

theorem slice_all {bs : List Byte} {n : Nat} (h : bs.length = n) : slice bs 0 n = bs := by
  subst h
  simp [slice]

/-- A frame's bytes written over another's. -/
theorem memByte_copy {n : Nat} (hn : 0 < n) (m : Mem) (src dst a : Nat) : memByte (memWrite m (n * dst) (memRead m (n * src) n)) a =
    if a / n = dst then memByte m (n * src + a % n) else memByte m a := by
  have hlen : (memRead m (n * src) n).length = n := memRead_length ..
  by_cases h : a / n = dst
  · have hmod : a % n < (memRead m (n * src) n).length := by
      rw [hlen]
      exact Nat.mod_lt a hn
    have hat : a = n * dst + a % n := by rw [← h, Nat.div_add_mod]
    rw [if_pos h]
    conv_lhs => rw [hat]
    rw [memByte_memWrite_in _ _ _ _ hmod, memRead_getElem]
  · rw [if_neg h, memByte_memWrite_out]
    rw [hlen]
    by_contra hin
    push Not at hin
    exact h (Nat.div_eq_of_lt_le (by rw [Nat.mul_comm]; exact hin.1) (by rw [Nat.mul_comm, Nat.mul_succ]; exact hin.2))

/-- The leaf of a page that has moved to one frame (07 R274). -/
def movedTo (p : Pte) (f : Nat) : Pte := { p with target := f, frames := [f], slowPgs := [] }

/-- A frame without uncorrectable units is read as it is. -/
theorem copiedBytes_clean {d : Dev} {f : Nat} (h : ∀ b ∈ d.mem.bad, b / 65536 ≠ f) :
    copiedBytes d [f] = (memRead d.mem.dram (65536 * f) 65536, d) := by
  have hclean : (d.mem.bad.filter fun b => [f].contains (b / 65536)) = [] :=
    List.filter_eq_nil_iff.mpr fun b hb => by rw [List.contains_iff_mem, List.mem_singleton]; exact h b hb
  rw [copiedBytes, hclean, frameBytesOf, List.flatMap_singleton]
  rfl

section
variable {d : Dev} {x : Ctx} {mv : Move} {p : Pte} {f0 f1 : Nat} (hctx : smFind d.ctxs mv.ctx = some x)
  (hmove : moveOf d mv.ctx mv.page = some mv) (hpage : smFind x.ptes mv.page = some p) (hlocal : p.kind = .localPage) (hwell : mv.failAt = none)
  (hdest : mv.dest = some [f1]) (hready : frameState d f1 = some .used)
include hctx hmove hpage hlocal hwell hdest hready

/-- The copy of a page that a step reads is complete, and its mapping is switched later (08 R342). -/
theorem endMove_later (hlater : (p.kvPool.isSome && stepBusy d mv.ctx) = true) : endMove mv.ctx mv.page d =
    modMem d fun m => { m with moves := m.moves.map fun v => if v = mv then { v with copied := true } else v } := by
  have hrinsed : ([f1].any fun f => !rinsed d f) = false := by
    simp only [List.any_cons, List.any_nil, rinsed, hready, Bool.not_true, Bool.or_self]
  have hswitch : switchLater d mv p = true := by
    simp only [switchLater, hdest, hlocal, decide_true, Option.isSome_some, Bool.and_true, hlater]
  simp only [endMove, hctx, hmove, hpage, hwell, hdest, hrinsed, hswitch, Bool.false_eq_true, if_false, if_true]

/-- The page's bytes go to its new frame and its leaf with them; the old frame goes to rinse (07 R274, R275). -/
theorem endMove_now (hframes : p.frames = [f0]) (hgood : ∀ b ∈ d.mem.bad, b / 65536 ≠ f0)
    (hnow : (p.kvPool.isSome && stepBusy d mv.ctx) = false) : ∃ parts, endMove mv.ctx mv.page d =
    { freeFrame (finishMove (modMem d fun m => writePhys m (65536 * f1) (memRead d.mem.dram (65536 * f0) 65536)) mv (movedTo p f1)) f0 with
      parts := parts } := by
  have hrinsed : ([f1].any fun f => !rinsed d f) = false := by
    simp only [List.any_cons, List.any_nil, rinsed, hready, Bool.not_true, Bool.or_self]
  have hswitch : switchLater d mv p = false := by
    simp only [switchLater, hdest, hlocal, decide_true, Option.isSome_some, Bool.and_true, hnow]
  have hput (bs : List Byte) (h : bs.length = 65536) : putFrames d [f1] bs = modMem d fun m => writePhys m (65536 * f1) bs := by
    have hslice := slice_all h
    simp only [putFrames, List.zipIdx_cons, List.zipIdx_nil, List.foldl_cons, List.foldl_nil, Nat.mul_zero, hslice]
  have hleaf : { p with kind := .localPage, target := nth 0 [f1] 0, frames := [f1], slowPgs := [] } = movedTo p f1 := by
    rw [movedTo, ← hlocal]
    rfl
  simp only [endMove, hctx, hmove, hpage, hwell, hdest, hrinsed, hswitch, hframes, copiedBytes_clean hgood, hput _ (memRead_length ..),
    hleaf, Bool.false_eq_true, if_false]
  simp only [hlocal]
  rw [freeFrames, List.foldl_cons, List.foldl_nil]
  generalize freeFrame _ f0 = e
  exact ⟨_, rfl⟩

end

theorem freeFrame_used {d : Dev} {f : Nat} (h : frameState d f = some .used) :
    freeFrame d f = modMem d fun m => { m with frames := smPut m.frames f .rinsing } := by
  have hfind : smFind d.mem.frames f = some .used := h
  simp only [freeFrame, modMem, hfind]

/-- The device once the one page of a move has gone from frame f0 to frame f1, and LPDDR6 holds dram (07 R274, R275, R280). -/
def Moved (d e : Dev) (mv : Move) (x : Ctx) (p : Pte) (f0 f1 : Nat) (dram : Mem) : Prop :=
  (∃ y, smFind e.ctxs mv.ctx = some y ∧ y.ptes = smPut x.ptes mv.page { movedTo p f1 with transit := false }) ∧
  e.mem.frames = smPut d.mem.frames f0 .rinsing ∧ e.mem.moves = d.mem.moves.filter (fun v => !(v.ctx == mv.ctx && v.page == mv.page)) ∧
  e.mem.dram = dram

theorem moved_frame {d : Dev} {mv : Move} {x : Ctx} {p : Pte} {f0 f1 a : Nat} {bs : List Byte} {parts : SMap Partn}
    (hctx : smFind d.ctxs mv.ctx = some x) (hused : frameState d f0 = some .used) : Moved d
      { freeFrame (finishMove (modMem d fun m => writePhys m a bs) mv (movedTo p f1)) f0 with parts := parts } mv x p f0 f1
      (memWrite d.mem.dram a bs) := by
  obtain ⟨ctxs, caches, y, hfinish, hy, hptes⟩ := finishMove_frame (d := modMem d fun m => writePhys m a bs) (movedTo p f1) hctx
  have hused' : frameState (finishMove (modMem d fun m => writePhys m a bs) mv (movedTo p f1)) f0 = some .used := by
    rw [hfinish]
    exact hused
  rw [freeFrame_used hused', hfinish]
  exact ⟨⟨y, hy, hptes⟩, rfl, rfl, rfl⟩

theorem moveOf_filtered {d e : Dev} {ctx page : Nat} (h : e.mem.moves = d.mem.moves.filter fun v => !(v.ctx == ctx && v.page == page)) :
    moveOf e ctx page = none := by
  rw [moveOf, h]
  refine List.find?_eq_none.mpr fun v hv => ?_
  have hkept := (List.mem_filter.mp hv).2
  rwa [Bool.not_eq_true', ← Bool.not_eq_true] at hkept

/-! ### FRAME_RINSE_COMPLETE -/

/-- A frame whose rinse is awaited is zero once it is complete. -/
theorem exec_frameRinse {s : State} {f : Nat} {st : Option FrameState} (hplane : kvPlaneAt s.dev f = none)
    (h : (st, frameState s.dev f) ∈
      [(none, some FrameState.rinsing), (some .used, some .rinsingUsed), (some .retiredUsed, some .retiredRinsing)]) :
    Completes (.frameRinseComplete f) s fun t => frameState t.dev f = st ∧ t.dev.mem.dram = memClear s.dev.mem.dram (65536 * f) 65536 := by
  have hexec : exec (.frameRinseComplete f) s = execFrameRinseComplete f s := rfl
  refine ⟨_, hexec.trans (onDev_next _ _), ?_⟩
  simp only [hplane]
  simp only [List.mem_cons, Prod.mk.injEq, List.not_mem_nil, or_false] at h
  rcases h with ⟨rfl, h⟩ | ⟨rfl, h⟩ | ⟨rfl, h⟩
  · have hfind : smFind s.dev.mem.frames f = some .rinsing := h
    simp only [rinseFrame, modMem, hfind]
    exact ⟨smFind_smErase_same .., trivial⟩
  · have hfind : smFind s.dev.mem.frames f = some .rinsingUsed := h
    simp only [rinseFrame, modMem, hfind]
    exact ⟨smFind_smPut_same .., trivial⟩
  · have hfind : smFind s.dev.mem.frames f = some .retiredRinsing := h
    simp only [rinseFrame, modMem, hfind]
    exact ⟨smFind_smPut_same .., trivial⟩

/-- Settles O35: the command by the waits that it books, the move by the leaf that it marks, its end by the frame that it writes and the one
that it leaves, the rinse by the bytes that it clears. -/
theorem pagesMoveBetweenTiers : Obligations.PagesMoveBetweenTiers := by
  intro s
  refine ⟨fun cid c x row hrow hruns hctx => ?_, fun ctx page x w p fs hctx hwait hstill hpage hlocal hdest hnear hother hdown hidle hsteady => ?_,
    fun ctx page x mv p f0 f1 hctx hmove hmvctx hmvpage hpage hlocal hwell hdest hframes hready hused hne hgood => ?_,
    fun f st hplane h => (exec_frameRinse hplane h).imp fun t ⟨hstate, hdram⟩ => ⟨hstate, fun a => by rw [hdram, memByte_memClear_64k]⟩⟩
  · have hexec : exec row.2 s = onDev s (runCmd row.1 cid stepMove) := by
      simp only [List.mem_cons, List.not_mem_nil, or_false] at hrow
      rcases hrow with rfl | rfl <;> rfl
    have hchk (hdemote : row.1 = 0x0405 → chkDemote (began s cid) c = .ok ()) (hrecall : row.1 = 0x0406 → chkRecall (began s cid) c = .ok ()) :
        (if opcodeC c = 0x0405 then chkDemote (began s cid) c else chkRecall (began s cid) c) = .ok () := by
      obtain ⟨-, hop, -⟩ := hruns
      simp only [List.mem_cons, List.not_mem_nil, or_false] at hrow
      rcases hrow with rfl | rfl
      · rw [if_pos hop, hdemote rfl]
      · rw [if_neg (ne_of_eq_of_ne hop (by decide : (0x0406 : Nat) ≠ 0x0405)), hrecall rfl]
    refine ⟨fun hinfo hopen hdemote hrecall hhere hfits hmoved => ?_, fun hinfo hwaits hmoves => ?_⟩
    · have hbody := stepMove_books (d := began s cid) hctx hinfo hopen (hchk hdemote hrecall) hhere hfits
      obtain ⟨info, hbook⟩ := bookMoves_eq (began s cid) cid x c hmoved
      rw [hbook] at hbody
      refine ⟨_, hexec.trans (onDev_runCmd hruns hbody), finOf_waitState _ _ _ ?_, bookedWaits cid x c, rfl, bookedWaits_pages cid x c⟩
      rw [bind_fin_modCmd, modMem_cmds, useReserve, bind_fin_modCmd]
      · exact bind_fin_began hruns
      · exact fun _ => rfl
      · exact fun _ => rfl
    · refine (completes_finish_only hexec hruns (stepMove_ends (d := began s cid) hctx hinfo hwaits hmoves)).imp ?_
      rintro t ⟨honly, hfin, -⟩
      exact ⟨honly, hfin⟩
  · obtain ⟨cmds, hstart⟩ := startMove_local hctx hwait hstill hpage hlocal hdest hnear hother hdown hidle hsteady
    have hexec : exec (.pageMove ctx page) s = execPageMove ctx page s := rfl
    refine ⟨_, hexec.trans (onDev_next _ _), ?_⟩
    rw [hstart]
    split
    · next hlater =>
      refine ⟨rfl, rfl, ⟨x, hctx, fun k => ?_⟩, localMove ctx page p w fs, moveOf_append rfl hstill rfl rfl, rfl, rfl⟩
      rw [hlater, Bool.not_true, Bool.or_false]
      split
      · next hk => rw [hk, hpage]
      · rfl
    · next hnow =>
      refine ⟨rfl, rfl, ⟨{ x with ptes := smPut x.ptes page { p with transit := true } }, ?_, fun k => ?_⟩, localMove ctx page p w fs,
        moveOf_append rfl hstill rfl rfl, rfl, rfl⟩
      · exact (smFind_smUpd_same ..).trans (congrArg _ hctx)
      · rw [Bool.eq_false_iff.mpr hnow, Bool.not_false, Bool.or_true]
        exact smFind_smPut ..
  · subst hmvctx hmvpage
    have hexec : exec (.pageMoveComplete mv.ctx mv.page) s = execPageMoveComplete mv.ctx mv.page s := rfl
    refine ⟨fun hkv hbusy => ⟨_, hexec.trans (onDev_next _ _), ?_⟩, fun hnow => ⟨_, hexec.trans (onDev_next _ _), ?_⟩⟩
    · rw [endMove_later hctx hmove hpage hlocal hwell hdest hready (by rw [hkv, hbusy, Bool.and_self])]
      rfl
    · obtain ⟨parts, hend⟩ := endMove_now hctx hmove hpage hlocal hwell hdest hready hframes hgood (by
        rcases hnow with h | h <;> simp [h])
      have hmoved := moved_frame (p := p) (f1 := f1) (a := 65536 * f1)
        (bs := memRead s.dev.mem.dram (65536 * f0) 65536) (parts := parts) hctx hused
      rw [← hend] at hmoved
      obtain ⟨⟨y, hy, hptes⟩, hfr, hmv, hdram⟩ := hmoved
      refine ⟨⟨y, hy, ?_⟩, ?_, moveOf_filtered hmv, fun a => ?_⟩
      · rw [hptes]
        exact smFind_smPut_same ..
      · rw [frameState, hfr]
        exact smFind_smPut_same ..
      · rw [hdram]
        exact memByte_copy (by decide) ..

end Sys2Proof.Machine
end

section
/-! PROOF. The units of memory: refresh, patrol scrub and the decoder of a burst, and the memory arbiters (07 R249 to R253, R301 to R303). -/

namespace Sys2Proof.Machine

/-! ### What an uncorrectable unit leaves -/

/-- The states of a frame that has been retired (07 R251). -/
def retiredStates : List (Option FrameState) := [some .retired, some .retiredUsed, some .retiredRinsing]

/-- Retiring a frame changes its state alone. -/
theorem retireFrame_retires (d : Dev) (fr : Nat) : ∃ frames, retireFrame d fr = { d with mem := { d.mem with frames := frames } } ∧
    smFind frames fr ∈ retiredStates := by
  unfold retireFrame modMem
  dsimp only
  split <;> next h => exact ⟨_, rfl, by simp [retiredStates, h]⟩

/-- An uncorrectable unit is listed once. -/
def listBad (l : List Nat) (u : Nat) : List Nat := if l.contains u then l else u :: l

theorem mem_listBad (l : List Nat) (u : Nat) : u ∈ listBad l u := by
  unfold listBad
  split
  · next h => exact List.contains_iff_mem.mp h
  · exact List.mem_cons_self

/-- The device once the unit of an address is listed as uncorrectable. -/
def withBad (d : Dev) (dpa : Nat) : Dev := modMem d fun m => { m with bad := listBad m.bad (dpa / eccUnit dpa * eccUnit dpa) }

/-- A report retires a frame that is not retired yet. -/
theorem reportBad_eq (d : Dev) (dpa : Nat) : ∃ tally, reportBad d dpa =
    if frameState d (dpa / 65536) ∈ retiredStates then { withBad d dpa with tally := tally }
    else { retireFrame (withBad d dpa) (dpa / 65536) with tally := tally } := by
  have hknown : (match frameState d (dpa / 65536) with
      | some .retired => true | some .retiredUsed => true | some .retiredRinsing => true | _ => false) =
      decide (frameState d (dpa / 65536) ∈ retiredStates) := by
    cases frameState d (dpa / 65536) with
    | none => rfl
    | some v => cases v <;> rfl
  have hreport : reportBad d dpa =
      if (match frameState d (dpa / 65536) with
        | some .retired => true | some .retiredUsed => true | some .retiredRinsing => true | _ => false) then
        if isCup (dpa / 65536) then
          tallySend (withBad d dpa) (.count 0x33 (frameDie (dpa / 65536)) 0 1 (2000 + frameDie (dpa / 65536)) (hubUs d))
        else tallyCount (withBad d dpa) 0x31 (frameDie (dpa / 65536)) 1 (2000 + frameDie (dpa / 65536))
      else tallyCount (retireFrame (if isCup (dpa / 65536) then
          tallySend (withBad d dpa) (.count 0x33 (frameDie (dpa / 65536)) 0 1 (2000 + frameDie (dpa / 65536)) (hubUs d))
        else tallyCount (withBad d dpa) 0x31 (frameDie (dpa / 65536)) 1 (2000 + frameDie (dpa / 65536))) (dpa / 65536))
        0x32 (homeDie (dpa / 65536)) 1 srcJenorneb := rfl
  rw [hreport, hknown]
  by_cases hin : frameState d (dpa / 65536) ∈ retiredStates <;> by_cases hcup : isCup (dpa / 65536) = true
  all_goals
    simp only [hin, hcup, decide_true, decide_false, if_true, if_false, Bool.false_eq_true]
    exact ⟨_, rfl⟩

/-- A reported unit is listed as uncorrectable, its frame is retired, and beyond the two only the tally changes (07 R250, R251). -/
theorem reportBad_retires (d : Dev) (dpa : Nat) : ∃ bad frames tally,
    reportBad d dpa = { d with mem := { d.mem with bad := bad, frames := frames }, tally := tally } ∧
    dpa / eccUnit dpa * eccUnit dpa ∈ bad ∧ smFind frames (dpa / 65536) ∈ retiredStates := by
  obtain ⟨tally, hreport⟩ := reportBad_eq d dpa
  obtain ⟨frames, hretire, hretired⟩ := retireFrame_retires (withBad d dpa) (dpa / 65536)
  rw [hreport]
  split
  · next hknown => exact ⟨_, _, tally, rfl, mem_listBad .., hknown⟩
  · exact ⟨_, frames, tally, by rw [hretire]; rfl, mem_listBad .., hretired⟩

/-! ### The decoder of a burst -/

/-- What the errors of a burst come to in a symbol (07 R248). -/
def symbolDiff (e : List (Fin 41 × Byte)) (k : Nat) : Byte := (e.filter fun p => p.1.val == k).foldl (fun b p => b ^^^ p.2) 0#8

theorem mem_symbolsWrong {e : List (Fin 41 × Byte)} {k : Nat} : k ∈ symbolsWrong e ↔ k < 41 ∧ symbolDiff e k ≠ 0#8 := by
  rw [symbolsWrong, List.mem_filter, decide_eq_true_eq, span, List.mem_range'_1, Nat.zero_add]
  simp only [Nat.zero_le, true_and, symbolDiff]

theorem symbolsWrong_perm {e : List (Fin 41 × Byte)} {l : List Nat} (hl : l.Nodup) (h : ∀ k, k < 41 → (symbolDiff e k ≠ 0#8 ↔ k ∈ l))
    (hlt : ∀ k ∈ l, k < 41) : (symbolsWrong e).Perm l := by
  refine (List.perm_ext_iff_of_nodup (List.Nodup.filter _ List.nodup_range') hl).mpr fun k => mem_symbolsWrong.trans ?_
  exact ⟨fun ⟨hk, hd⟩ => (h k hk).mp hd, fun hk => ⟨hlt k hk, (h k (hlt k hk)).mpr hk⟩⟩

theorem symbolDiff_one (i : Fin 41) (v : Byte) (k : Nat) : symbolDiff [(i, v)] k = if (i : Nat) = k then v else 0#8 := by
  by_cases h : (i : Nat) = k <;> simp [symbolDiff, h]

theorem symbolDiff_two (i j : Fin 41) (v w : Byte) (k : Nat) :
    symbolDiff [(i, v), (j, w)] k = (if (i : Nat) = k then v else 0#8) ^^^ (if (j : Nat) = k then w else 0#8) := by
  by_cases hi : (i : Nat) = k <;> by_cases hj : (j : Nat) = k <;> simp [symbolDiff, hi, hj]

/-- One symbol in error is corrected where it is stored, and uncorrectable where it is an address symbol (07 R249). -/
theorem decodeBurst_one (i : Fin 41) {v : Byte} (hv : v ≠ 0#8) :
    decodeBurst [(i, v)] = if (i : Nat) < 36 then .corrected else .uncorrectable := by
  have hone : symbolsWrong [(i, v)] = [(i : Nat)] := List.perm_singleton.mp (symbolsWrong_perm (List.nodup_singleton _)
    (fun k _ => by rw [symbolDiff_one, List.mem_singleton, eq_comm (a := k)]; split <;> simp [*])
    (fun k hk => List.mem_singleton.mp hk ▸ i.isLt))
  rw [decodeBurst, hone]

/-- Two symbols in error are uncorrectable (07 R249). -/
theorem decodeBurst_two {i j : Fin 41} {v w : Byte} (hv : v ≠ 0#8) (hw : w ≠ 0#8) (hij : i ≠ j) :
    decodeBurst [(i, v), (j, w)] = .uncorrectable := by
  have hne : (i : Nat) ≠ j := Fin.val_ne_of_ne hij
  have htwo : (symbolsWrong [(i, v), (j, w)]).Perm [(i : Nat), (j : Nat)] := by
    refine symbolsWrong_perm (by simpa using hne) (fun k _ => ?_) (fun k hk => ?_)
    · rw [symbolDiff_two, List.mem_cons, List.mem_singleton]
      by_cases hi : (i : Nat) = k
      · have hj : (j : Nat) ≠ k := hi ▸ hne.symm
        simp [hi, hj, hv]
      · by_cases hj : (j : Nat) = k
        · simp [hi, hj, hw]
        · simp [hi, hj, Ne.symm hi, Ne.symm hj]
    · simp only [List.mem_cons, List.not_mem_nil, or_false] at hk
      rcases hk with rfl | rfl <;> exact Fin.isLt _
  obtain ⟨a, b, hab⟩ := List.length_eq_two.mp htwo.length_eq
  rw [decodeBurst, hab]
  rfl

/-- A corrected unit is counted, and its bytes are as they were (07 R249). -/
theorem decodedUnit_corrected (d : Dev) (dpa : Nat) : ∃ tally, decodedUnit d dpa .corrected = { d with tally := tally } := by
  unfold decodedUnit
  dsimp only
  split <;> exact ⟨_, rfl⟩

/-! ### REFRESH and PATROL_SCRUB -/

theorem smGet_smMod {α : Type} [DecidableEq α] (x : α) (m : SMap α) (k : Nat) (f : α → α) (j : Nat) :
    smGet x (smMod x m k f) j = if j = k then f (smGet x m k) else smGet x m j := by
  split
  · next h => exact h ▸ smGet_smSet_same ..
  · next h => exact smGet_smSet_ne _ _ _ h

theorem exec_refresh (bank : Fin 384 × Fin 16) (s : State) : exec (.refresh bank) s =
    onDev s fun d => modMem d fun m => { m with refresh := smMod 0 m.refresh (16 * (bank.1 : Nat) + bank.2) (· + 1) } := rfl

/-- The device once a subchannel has gone on to its next burst (07 R252). -/
def scrubbed (d : Dev) (sub : Nat) : Dev :=
  modMem d fun m => { m with scrub := smSet 0 m.scrub sub ((smGet 0 d.mem.scrub sub + 1) % scrubBursts d) }

theorem exec_patrolScrub (sub : Fin 384) (e : List (Fin 41 × Byte)) (s : State) : exec (.patrolScrub sub e) s =
    .next { s with dev := decodedUnit (scrubbed s.dev sub) (scrubDpa sub (smGet 0 s.dev.mem.scrub sub)) (decodeBurst e) } := rfl

theorem scrub_scrubbed (d : Dev) (sub : Nat) :
    smGet 0 (scrubbed d sub).mem.scrub sub = (smGet 0 d.mem.scrub sub + 1) % scrubBursts d ∧
    ∀ j, j ≠ sub → smGet 0 (scrubbed d sub).mem.scrub j = smGet 0 d.mem.scrub j :=
  ⟨smGet_smSet_same .., fun _ hj => smGet_smSet_ne _ _ _ hj⟩

/-- A burst whose errors are uncorrectable is reported, and the scrub has gone on. -/
theorem patrolScrub_uncorrectable {sub : Fin 384} {e : List (Fin 41 × Byte)} (s : State) (h : decodeBurst e = .uncorrectable) :
    exec (.patrolScrub sub e) s =
      .next { s with dev := reportBad (scrubbed s.dev sub) (scrubDpa sub (smGet 0 s.dev.mem.scrub sub)) } := by
  rw [exec_patrolScrub, h]
  rfl

/-! ### The memory arbiters -/

theorem mem_insertSorted {x y : Nat} {l : List Nat} : y ∈ insertSorted x l ↔ y = x ∨ y ∈ l := by
  induction l with
  | nil => simp [insertSorted]
  | cons z l ih =>
    simp only [insertSorted]
    split
    · exact List.mem_cons
    · split
      · next h => simp [h]
      · simp only [List.mem_cons, ih]
        tauto

theorem pairwise_insertSorted {x : Nat} {l : List Nat} (hl : l.Pairwise (· < ·)) : (insertSorted x l).Pairwise (· < ·) := by
  induction l with
  | nil => exact List.pairwise_singleton ..
  | cons z l ih =>
    obtain ⟨hz, hl'⟩ := List.pairwise_cons.mp hl
    simp only [insertSorted]
    split
    · next h => exact hl.cons fun y hy => (List.mem_cons.mp hy).elim (fun he => he ▸ h) (fun hy => h.trans (hz y hy))
    · split
      · exact hl
      · refine (ih hl').cons fun y hy => (mem_insertSorted.mp hy).elim (fun he => ?_) (hz y)
        omega

/-- Classes in rising order, each once. -/
def inOrder (cls : List Nat) : List Nat := cls.foldl (fun l c => insertSorted c l) []

theorem inOrder_spec (cls : List Nat) : (inOrder cls).Pairwise (· < ·) ∧ ∀ c, c ∈ inOrder cls ↔ c ∈ cls := by
  have hfold : ∀ (cls l : List Nat), l.Pairwise (· < ·) → (cls.foldl (fun l c => insertSorted c l) l).Pairwise (· < ·) ∧
      ∀ c, c ∈ cls.foldl (fun l c => insertSorted c l) l ↔ c ∈ l ∨ c ∈ cls := by
    intro cls
    induction cls with
    | nil => exact fun l hl => ⟨hl, fun c => by simp⟩
    | cons x cls ih =>
      refine fun l hl => (ih _ (pairwise_insertSorted hl)).imp_right fun h c => ?_
      rw [List.foldl_cons, h, mem_insertSorted, List.mem_cons]
      tauto
  exact (hfold cls [] List.Pairwise.nil).imp_right fun h c => by simp [inOrder, h]

/-- Class g is the fullest of classes, and of those as full the lowest (07 R303). -/
def IsFullest (counters : List Int) (g : Nat) (cls : List Nat) : Prop :=
  g ∈ cls ∧ ∀ o ∈ cls, nth 0 counters o < nth 0 counters g ∨ (nth 0 counters o = nth 0 counters g ∧ g ≤ o)

/-- The fuller of two classes. -/
def fuller (counters : List Int) (b : Option Nat) (c : Nat) : Option Nat :=
  match b with
  | none => some c
  | some x => if nth 0 counters x < nth 0 counters c then some c else some x

theorem fullest_eq (counters : List Int) (cls : List Nat) : fullest counters cls = (inOrder cls).foldl (fuller counters) none := rfl

/-- The fullest so far, and the classes above it that are still to come. -/
theorem foldl_fuller {counters : List Int} (l : List Nat) {x : Nat} {before : List Nat} (hx : IsFullest counters x before)
    (habove : ∀ c ∈ l, ∀ o ∈ before, o < c) (hl : l.Pairwise (· < ·)) :
    ∃ g, l.foldl (fuller counters) (some x) = some g ∧ IsFullest counters g (before ++ l) := by
  induction l generalizing x before with
  | nil => exact ⟨x, rfl, by rwa [List.append_nil]⟩
  | cons c l ih =>
    obtain ⟨hmem, hfull⟩ := hx
    obtain ⟨hc, hl'⟩ := List.pairwise_cons.mp hl
    have hnext : ∃ y, fuller counters (some x) c = some y ∧ IsFullest counters y (before ++ [c]) := by
      have hxc : x < c := habove c List.mem_cons_self x hmem
      by_cases h : nth 0 counters x < nth 0 counters c
      · refine ⟨c, by simp [fuller, h], by simp, fun o ho => ?_⟩
        rcases List.mem_append.mp ho with ho | ho
        · rcases hfull o ho with hlt | ⟨heq, -⟩
          · exact .inl (hlt.trans h)
          · exact .inl (heq ▸ h)
        · exact .inr (by rw [List.mem_singleton.mp ho]; exact ⟨rfl, Nat.le_refl _⟩)
      · refine ⟨x, by simp [fuller, h], List.mem_append_left _ hmem, fun o ho => ?_⟩
        rcases List.mem_append.mp ho with ho | ho
        · exact hfull o ho
        · rw [List.mem_singleton.mp ho]
          exact (lt_or_eq_of_le (not_lt.mp h)).imp_right fun heq => ⟨heq, hxc.le⟩
    obtain ⟨y, hy, hfy⟩ := hnext
    obtain ⟨g, hg, hfg⟩ := ih hfy (fun a ha o ho => (List.mem_append.mp ho).elim (habove a (List.mem_cons_of_mem _ ha) o)
      (fun ho => List.mem_singleton.mp ho ▸ hc a ha)) hl'
    exact ⟨g, by rw [List.foldl_cons, hy, hg], by rwa [List.append_assoc] at hfg⟩

/-- Where classes wait, one of them is the fullest. -/
theorem fullest_some (counters : List Int) {cls : List Nat} (h : cls ≠ []) :
    ∃ g, fullest counters cls = some g ∧ IsFullest counters g cls := by
  obtain ⟨hsorted, hmem⟩ := inOrder_spec cls
  rw [fullest_eq]
  cases hord : inOrder cls with
  | nil =>
    obtain ⟨c, hc⟩ := List.exists_mem_of_ne_nil _ h
    exact absurd ((hmem c).mpr hc) (by simp [hord])
  | cons x l =>
    obtain ⟨hx, hl⟩ := List.pairwise_cons.mp (hord ▸ hsorted)
    obtain ⟨g, hg, hin, hfull⟩ := foldl_fuller (counters := counters) (before := [x]) l
      (x := x) ⟨List.mem_cons_self, by simp⟩ (by simpa using hx) hl
    refine ⟨g, hg, (hmem g).mp (by rw [hord]; exact hin), fun o ho => hfull o ?_⟩
    have := (hmem o).mpr ho
    rwa [hord] at this

/-- An arbiter whose classes have been given their weights (07 R303). -/
def refilled (d : Dev) (a : Arb) : Arb :=
  { a with counters := a.counters.zipIdx.map fun p => min (p.1 + memWeight d p.2) (4 * memWeight d p.2 : Nat) }

theorem exec_arbiterRefill (ch : Fin 896) (s : State) : exec (.arbiterRefill ch) s = .next { s with dev := modArb s.dev ch (refilled s.dev) } := rfl

theorem nth_refilled (d : Dev) {a : Arb} {i : Nat} (hi : i < a.counters.length) : nth 0 (refilled d a).counters i =
    min (nth 0 a.counters i + memWeight d i) (4 * (memWeight d i : Int)) := by
  simp [refilled, nth, hi]

/-- What the arbiter of a channel becomes when its present granule ends and classes wait (07 R303). -/
def granted (now : List Nat) (a : Arb) : Arb :=
  let cls := if a.current.isNone then now else a.snapshot
  match fullest a.counters cls with
  | some c => { a with current := some c, snapshot := now, counters := setNth a.counters c (max (nth 0 a.counters c - 96) (-4096)) }
  | none => { a with current := none, snapshot := now }

theorem exec_memoryGrant (ch : Fin 896) (waiting : List MemReq) (errs : List UnitErr) (s : State) :
    exec (.memoryGrant ch waiting errs) s = onDev s fun d =>
      (errs.filter fun e => (errAt e).map channelOf == some (ch : Nat)).foldl readErr
        (modArb d ch (granted (waiting.filterMap (classOf d)))) := rfl

/-- The arbiters once a granule of a channel has ended (07 R303). -/
def grantedOn (s : State) (ch : Nat) (waiting : List MemReq) : Dev := modArb s.dev ch (granted (waiting.filterMap (classOf s.dev)))

theorem memoryGrant_clean (ch : Fin 896) (waiting : List MemReq) (s : State) :
    exec (.memoryGrant ch waiting []) s = .next { s with dev := grantedOn s ch waiting } := rfl

/-- A burst that was read on the channel with errors that are uncorrectable is reported. -/
theorem memoryGrant_uncorrectable {ch : Fin 896} {dpa : Nat} {e : List (Fin 41 × Byte)} (waiting : List MemReq) (s : State)
    (haligned : dpa % 32 = 0) (hlp : isCup (dpa / 65536) = false) (hch : channelOf dpa = ch) (he : decodeBurst e = .uncorrectable) :
    exec (.memoryGrant ch waiting [.burst dpa e]) s = .next { s with dev := reportBad (grantedOn s ch waiting) dpa } := by
  have hhere : ((errAt (.burst dpa e)).map channelOf == some (ch : Nat)) = true := by simp [errAt, haligned, hlp, hch]
  simp only [exec_memoryGrant, onDev_next, List.filter_cons, hhere, if_true, List.filter_nil, List.foldl_cons, List.foldl_nil, readErr, he]
  rfl

/-- An arbiter changes, and the others do not. -/
theorem arbOf_modArb (s : State) (ch : Nat) (f : Arb → Arb) (j : Nat) :
    arbOf { s with dev := modArb s.dev ch f } j = if j = ch then f (arbOf s ch) else arbOf s j := smGet_smMod ..

/-- Settles O36: the scrub by what the decoder makes of the errors, the grant by the fullest of the classes that wait. REFRESH changes its
count alone, as the bursts of its granule are no state (log 62). -/
theorem memoryUnitsRefreshScrubAndGrant : Obligations.MemoryUnitsRefreshScrubAndGrant := by
  intro s sub bank ch
  have hscrub := scrub_scrubbed s.dev sub
  refine ⟨⟨_, exec_refresh (sub, bank) s, rfl, fun j => ?_⟩, ⟨_, exec_patrolScrub sub [] s, hscrub, rfl⟩,
    fun i v hv => ⟨fun hi => ?_, fun hi => ?_, fun j w hw hij => ?_, fun waiting dpa hdpa hlp hch hi => ?_⟩,
    ⟨_, exec_arbiterRefill ch s, rfl, fun j hj => ?_, ?_, fun i hi => ?_⟩, fun waiting hidle hwait => ?_,
    fun id x n r o l hx hkind => ?_, rfl, rfl⟩
  · refine (smGet_smMod 0 s.dev.mem.refresh (16 * (sub : Nat) + bank) (· + 1) j).trans ?_
    split
    · next hj => rw [hj]
    · rfl
  · obtain ⟨tally, hfixed⟩ := decodedUnit_corrected (scrubbed s.dev sub) (scrubDpa sub (smGet 0 s.dev.mem.scrub sub))
    refine ⟨_, exec_patrolScrub sub [(i, v)] s, ?_⟩
    rw [decodeBurst_one i hv, if_pos hi, hfixed]
    exact ⟨hscrub, rfl⟩
  · obtain ⟨bad, frames, tally, hbad, hlisted, hretired⟩ := reportBad_retires (scrubbed s.dev sub) (scrubDpa sub (smGet 0 s.dev.mem.scrub sub))
    refine ⟨_, patrolScrub_uncorrectable s ((decodeBurst_one i hv).trans (if_neg (Nat.not_lt.mpr hi))), ?_⟩
    rw [hbad]
    exact ⟨hscrub, rfl, hlisted, hretired⟩
  · obtain ⟨bad, frames, tally, hbad, hlisted, hretired⟩ := reportBad_retires (scrubbed s.dev sub) (scrubDpa sub (smGet 0 s.dev.mem.scrub sub))
    refine ⟨_, patrolScrub_uncorrectable s (decodeBurst_two hv hw hij), ?_⟩
    rw [hbad]
    exact ⟨hscrub, rfl, hlisted, hretired⟩
  · obtain ⟨bad, frames, tally, hbad, hlisted, hretired⟩ := reportBad_retires (grantedOn s ch waiting) dpa
    refine ⟨_, memoryGrant_uncorrectable waiting s hdpa hlp hch ((decodeBurst_one i hv).trans (if_neg (Nat.not_lt.mpr hi))), ?_⟩
    rw [hbad]
    exact ⟨rfl, hlisted, hretired⟩
  · rw [arbOf_modArb, if_neg hj]
  · rw [arbOf_modArb, if_pos rfl]
    simp only [refilled, List.length_map, List.length_zipIdx]
  · rw [arbOf_modArb, if_pos rfl]
    exact nth_refilled s.dev hi
  · obtain ⟨g, hg, hin, hfull⟩ := fullest_some (arbOf s ch).counters hwait
    refine ⟨_, memoryGrant_clean ch waiting s, rfl, fun j hj => ?_, g, hin, hfull, ?_⟩
    · rw [grantedOn, arbOf_modArb, if_neg hj]
    · rw [grantedOn, arbOf_modArb, if_pos rfl]
      simp only [granted, hidle, Option.isNone_none, if_true, hg]
  · simp only [classOf, hx, Option.map_some, hkind]

end Sys2Proof.Machine
end

section
/-! PROOF. What reads and writes of device memory depend on and leave (07 R250, R257, R258). -/

namespace Sys2Proof.Machine

/-! ### What reads and checks depend on -/

theorem readPieces_congr {d e : Dev} (hdram : e.mem.dram = d.mem.dram) (hbad : e.mem.bad = d.mem.bad) (x : Ctx) (perm : Perm)
    (l : List (Nat × Nat)) : readPieces e x perm l = readPieces d x perm l := by
  induction l with
  | nil => rfl
  | cons q l ih => simp only [readPieces, firstBad, ih, hdram, hbad]

/-- A read depends on the contexts, the bytes of the memory and its uncorrectable units. -/
theorem readVirt_congr {d e : Dev} (hctxs : e.ctxs = d.ctxs) (hdram : e.mem.dram = d.mem.dram) (hbad : e.mem.bad = d.mem.bad)
    (ctx va n : Nat) (perm : Perm) : readVirt e ctx va n perm = readVirt d ctx va n perm := by
  simp only [readVirt, hctxs, readPieces_congr hdram hbad]

/-! ### What writes leave -/

/-- A write changes the bytes of the memory and the list of its uncorrectable units alone. -/
theorem writePieces_frame (x : Ctx) (perm : Perm) (m : MemSys) (bs : List Byte) (l : List (Nat × Nat)) :
    ∃ dram bad, writePieces x perm m bs l = { m with dram := dram, bad := bad } := by
  induction l generalizing m bs with
  | nil => exact ⟨_, _, rfl⟩
  | cons q l ih =>
    cases h : translate x q.1 perm with
    | error e => exact ⟨m.dram, m.bad, by simp only [writePieces, h]⟩
    | ok dpa =>
      obtain ⟨dram, bad, hrest⟩ := ih (writePhys m dpa (bs.take q.2)) (bs.drop q.2)
      exact ⟨dram, bad, by simp only [writePieces, h, hrest]; rfl⟩

/-- The bytes that a write leaves depend on those that were there. -/
theorem writePieces_dram_congr (x : Ctx) (perm : Perm) {m k : MemSys} (h : k.dram = m.dram) (bs : List Byte) (l : List (Nat × Nat)) :
    (writePieces x perm k bs l).dram = (writePieces x perm m bs l).dram := by
  induction l generalizing m k bs with
  | nil => exact h
  | cons q l ih =>
    cases ht : translate x q.1 perm with
    | error e => simp only [writePieces, ht, h]
    | ok dpa =>
      have hphys : (writePhys k dpa (bs.take q.2)).dram = (writePhys m dpa (bs.take q.2)).dram :=
        congrArg (fun dram => memWrite dram dpa (bs.take q.2)) h
      simpa only [writePieces, ht] using ih hphys (bs.drop q.2)

/-- A write to pages that may be written is made. -/
theorem writeVirt_ok {d : Dev} {ctx va : Nat} {x : Ctx} {bs : List Byte} {perm : Perm} (hctx : smFind d.ctxs ctx = some x)
    (hcheck : checkPieces x perm (pieces va bs.length) = .ok ()) :
    writeVirt d ctx va bs perm = .ok { d with mem := writePieces x perm d.mem bs (pieces va bs.length) } := by
  simp only [writeVirt, hctx, hcheck]

end Sys2Proof.Machine
end

section
/-! PROOF. MEM.COPY, MEM.FILL and MEM.MANGLE, and the pieces that mangles take and finish (07 R250, R270, R275, R278, R282). -/

namespace Sys2Proof.Machine

/-! ### The cut into pieces -/

/-- The pieces of a command of a context (07 R282). -/
def cutPieces (cid : Nat) (x : Ctx) (c : Cmd) : List Piece :=
  (span 0 (pieceCount c)).map fun q => { cid := cid, op := pieceOpOf c, q := q, die := (dieAt x (pieceVa c q)).getD 0, mang := none }

/-- A command whose pages are local, and that passes its checks, is cut into its pieces. -/
theorem stepPieces_cuts {d : Dev} {cid : Nat} {c : Cmd} {x : Ctx} (hctx : smFind d.ctxs (cmdContext c) = some x) (hinfo : c.info = [])
    (hopen : memBlocked d cid c = false) (hlocal : notLocal d (cmdContext c) (memRanges d c) = []) (hchk : chkBegin d c = .ok ())
    (hsome : pieceCount c ≠ 0) : stepPieces d cid c = some (modMem (modCmd d cid fun c => { c with info := [1] }) fun m =>
      { m with pieces := m.pieces ++ cutPieces cid x c }) := by
  have hctx' : smFind (modCmd d cid fun c => { c with info := [1] }).ctxs (cmdContext c) = some x := hctx
  simp only [stepPieces, hinfo, hopen, bringIn_local hlocal, hchk, hsome, makePieces, hctx', List.isEmpty_nil, Bool.not_true,
    Bool.false_eq_true, if_false]
  rfl

/-! ### MANGLE_PIECE_START -/

/-- The piece of the earlier command. -/
def earlier (b q : Piece) : Piece := if q.cid < b.cid then q else b

theorem foldl_earlier_mem (l : List Piece) (p : Piece) : l.foldl earlier p ∈ p :: l := by
  induction l generalizing p with
  | nil => exact List.mem_cons_self
  | cons q l ih =>
    have hfirst : earlier p q = p ∨ earlier p q = q := by
      unfold earlier
      split <;> simp
    rcases List.mem_cons.mp (ih (earlier p q)) with h | h
    · rw [List.foldl_cons, h]
      rcases hfirst with h | h <;> simp [h]
    · exact List.mem_cons_of_mem _ (List.mem_cons_of_mem _ h)

/-- The pieces that wait on a die. -/
def waitingOn (d : Dev) (die : Nat) : List Piece := d.mem.pieces.filter fun p => p.die == die && p.mang.isNone

theorem nextPiece_waits {d : Dev} {m : Nat} {p : Piece} (h : nextPiece d m = some p) : p ∈ waitingOn d (m / 2) := by
  have hnext : nextPiece d m =
      if smGet 0 d.mem.turn (m / 2) ≠ m % 2 ∨ d.mem.pieces.any (fun p => p.mang == some m) then none
      else match (waitingOn d (m / 2)).find? (fun p => decide (smGet 0 d.mem.lastCmd m < p.cid + 1)) with
        | some p => some (((waitingOn d (m / 2)).filter fun q => decide (smGet 0 d.mem.lastCmd m < q.cid + 1)).foldl earlier p)
        | none => (waitingOn d (m / 2)).head?.map fun p => (waitingOn d (m / 2)).foldl earlier p := rfl
  rw [hnext] at h
  split at h
  · exact absurd h nofun
  · split at h
    · next q hq =>
      rw [← Option.some.inj h]
      rcases List.mem_cons.mp (foldl_earlier_mem ((waitingOn d (m / 2)).filter fun q => decide (smGet 0 d.mem.lastCmd m < q.cid + 1)) q)
        with hmem | hmem
      · rw [hmem]
        exact List.mem_of_find?_eq_some hq
      · exact List.mem_of_mem_filter hmem
    · obtain ⟨q, hq, rfl⟩ := Option.map_eq_some_iff.mp h
      rcases List.mem_cons.mp (foldl_earlier_mem (waitingOn d (m / 2)) q) with hmem | hmem
      · rw [hmem]
        exact List.mem_of_mem_head? hq
      · exact hmem

/-- A mangle takes its next piece; the other mangle of the die is next, and the command is the last that this one has served. -/
theorem exec_manglePieceStart {s : State} {m : Fin 32} {p : Piece} (h : nextPiece s.dev m = some p) : ∃ t,
    exec (.manglePieceStart m) s = .next t ∧ t.dev.mem = { s.dev.mem with
      pieces := s.dev.mem.pieces.map fun q => if q = p then { q with mang := some (m : Nat) } else q
      turn := smSet 0 s.dev.mem.turn (m / 2) (1 - m % 2), lastCmd := smSet 0 s.dev.mem.lastCmd m (p.cid + 1) } := by
  have hexec : exec (.manglePieceStart m) s = execManglePieceStart m s := rfl
  refine ⟨_, hexec.trans (onDev_next _ _), ?_⟩
  simp only [h]
  obtain ⟨cmds, hmark⟩ := markThrottled_frame
    { s.dev with gov := { s.dev.gov with mangGated := s.dev.gov.mangGated.filter fun g => g != (m : Nat) } } p.cid [8 + (m : Nat) / 2]
  rw [hmark]
  rfl

/-! ### MANGLE_PIECE_COMPLETE -/

/-- What a piece works on is at hand. -/
theorem run_get_bind {α : Type} (m : Nat) (st : Dev × BitVec 32 × Nat) (f : Dev × BitVec 32 × Nat → PieceM α) :
    ((get >>= f).run m).run st = ((f st).run m).run st := rfl

/-- A piece goes on with what a step of it has answered. -/
theorem run_bind_ok {α β : Type} {m : Nat} {st st' : Dev × BitVec 32 × Nat} {p : PieceM α} {a : α} (f : α → PieceM β)
    (h : (p.run m).run st = .ok (a, st')) : ((p >>= f).run m).run st = ((f a).run m).run st' := by
  have hbind : ((p >>= f).run m).run st = (p.run m).run st >>= fun r => ((f r.1).run m).run r.2 := rfl
  rw [hbind, h]
  rfl

/-- A piece reads what the memory holds, and the caches of its mangle may change. -/
theorem run_pread {ctx va n m : Nat} {d : Dev} {r : BitVec 32 × Nat} {bs : List Byte} (h : readVirt d ctx va n .any = .ok bs) :
    ∃ caches, ((pread ctx va n).run m).run (d, r) = .ok (bs, { d with mem := { d.mem with caches := caches } }, r) := by
  obtain ⟨caches, hcached⟩ := cacheRange_frame d (96 + m) ctx va n
  refine ⟨caches, ?_⟩
  rw [pread, run_get_bind, ← hcached]
  simp only [h]
  rfl

/-- A piece writes to pages that may be written, and the caches of its mangle may change. -/
theorem run_pwrite {ctx va m : Nat} {d : Dev} {r : BitVec 32 × Nat} {bs : List Byte} {x : Ctx} (hctx : smFind d.ctxs ctx = some x)
    (hpages : checkPieces x .any (pieces va bs.length) = .ok ()) : ∃ dram bad caches,
    ((pwrite ctx va bs).run m).run (d, r) =
      .ok ((), { d with mem := { d.mem with dram := dram, bad := bad, caches := caches } }, r) ∧
    dram = (writePieces x .any d.mem bs (pieces va bs.length)).dram := by
  have hwrite := writeVirt_ok (perm := .any) hctx hpages
  obtain ⟨dram, bad, hwritten⟩ := writePieces_frame x .any d.mem bs (pieces va bs.length)
  rw [hwritten] at hwrite ⊢
  obtain ⟨caches, hcached⟩ := cacheRange_frame { d with mem := { d.mem with dram := dram, bad := bad } } (96 + m) ctx va bs.length
  refine ⟨dram, bad, caches, ?_, rfl⟩
  rw [pwrite, run_get_bind]
  simp only [hwrite]
  exact congrArg (fun e => Except.ok ((), e, r)) hcached

/-- The memory without a piece that a mangle has finished. -/
def pieceTaken (d : Dev) (p : Piece) : Dev := modMem d fun k => { k with pieces := k.pieces.filter fun q => q != p }

/-- A piece of a MEM.COPY has copied its bytes; the caches of its mangle may have changed (07 R270). -/
theorem pieceBody_copy (d : Dev) (m : Nat) (p : Piece) {c : Cmd} {x : Ctx} {bs : List Byte} {r : BitVec 32 × Nat} {q : Nat} (hop : opcodeC c = 0x0403)
    (hctx : smFind d.ctxs (cmdContext c) = some x)
    (hread : readVirt d (cmdContext c) (par c 0x10 8 + 65536 * q) (min 65536 (par c 0x20 8 - 65536 * q)) .any = .ok bs)
    (hwrite : checkVirt d (cmdContext c) (par c 0x18 8 + 65536 * q) bs.length .any = .ok ()) : ∃ dram bad caches,
    ((pieceBody d c q).run m).run (pieceTaken d p, r) = .ok ((), { pieceTaken d p with
      mem := { (pieceTaken d p).mem with dram := dram, bad := bad, caches := caches } }, r) ∧
    dram = (writePieces x .any d.mem bs (pieces (par c 0x18 8 + 65536 * q) bs.length)).dram := by
  have hbody : pieceBody d c q = (do
      let bs ← pread (cmdContext c) (par c 0x10 8 + 65536 * q) (min 65536 (par c 0x20 8 - 65536 * q))
      pwrite (cmdContext c) (par c 0x18 8 + 65536 * q) bs) := by
    simp only [pieceBody, hop]
  have hpages : checkPieces x .any (pieces (par c 0x18 8 + 65536 * q) bs.length) = .ok () := by
    simpa only [checkVirt, hctx] using hwrite
  obtain ⟨cs, hrun⟩ := run_pread (m := m) (r := r) ((readVirt_congr (d := d) (e := pieceTaken d p) rfl rfl rfl ..).trans hread)
  obtain ⟨dram, bad, caches, hrun', hdram⟩ :=
    run_pwrite (d := { pieceTaken d p with mem := { (pieceTaken d p).mem with caches := cs } }) (m := m) (r := r) hctx hpages
  refine ⟨dram, bad, caches, ?_, hdram.trans ?_⟩
  · rw [hbody, run_bind_ok _ hrun, hrun']
  · apply writePieces_dram_congr
    rfl

/-- A page of the slower tier that nothing moves yet waits for its recall (07 R278). -/
theorem recallPage_slow {d : Dev} {ctx page : Nat} {p : Pte} (hslow : p.kind = .slow) (hmove : moveOf d ctx page = none)
    (hwait : waitOf d ctx page = none) (cid : Option Nat) (line : List (Nat × Nat × Nat)) : recallPage d ctx page p cid line =
    modMem d fun m => { m with waits := m.waits ++ [{
      ctx := ctx, page := page, to_ := if p.cupTier && !ctxAway d ctx then 0 else 1, dest := none, slow := [], cid := cid, line := line }] } := by
  simp only [recallPage, hmove, hwait, hslow, if_true]

section
variable {d : Dev} {m : Nat} {p : Piece} {c : Cmd} (hpiece : d.mem.pieces.find? (fun p => p.mang == some m) = some p)
  (hcmd : smFind d.cmds p.cid = some c)

include hpiece hcmd

/-- A piece that meets a page in TRANSIT is left as it is (07 R275). -/
theorem endPiece_transit {va : Nat}
    (hbody : ((pieceBody d c p.q).run m).run (pieceTaken d p, c.flags, c.count) = .error (.transit va)) : endPiece m d = d := by
  rw [pieceTaken] at hbody
  simp only [endPiece, hpiece, hcmd, hbody]

/-- A piece that meets a page in the slower tier has it recalled (07 R278). -/
theorem endPiece_absent {va key : Nat} {x : Ctx} {q : Pte}
    (hbody : ((pieceBody d c p.q).run m).run (pieceTaken d p, c.flags, c.count) = .error (.absent va))
    (hctx : smFind d.ctxs (cmdContext c) = some x) (hleaf : leafKey x va = some (key, q)) :
    endPiece m d = recallPage d (cmdContext c) key q none [] := by
  rw [pieceTaken] at hbody
  simp only [endPiece, hpiece, hcmd, hbody, hctx, hleaf, Option.bind_some]

/-- A piece that cannot be done ends its command, whose other pieces are dropped (07 R250). -/
theorem endPiece_fails {e : VErr} (hstage : opcodeC c ≠ 0x0901) (hrefold : opcodeC c ≠ 0x0A01) (htransit : ∀ va, e ≠ .transit va)
    (habsent : ∀ va, e ≠ .absent va)
    (hbody : ((pieceBody d c p.q).run m).run (pieceTaken d p, c.flags, c.count) = .error e) : ∃ d1,
    endPiece m d = finishCmd d1 p.cid stDeviceFault 1 [(0x18, 8, verrVa e)] none ∧ d1.cmds = d.cmds ∧
    d1.mem.pieces = (pieceTaken d p).mem.pieces.filter fun q => q.cid != p.cid := by
  have hreport (e : Dev) (dpa : Nat) : (reportBad e dpa).cmds = e.cmds ∧ (reportBad e dpa).mem.pieces = e.mem.pieces := by
    obtain ⟨bad, frames, tally, h, -, -⟩ := reportBad_retires e dpa
    rw [h]
    exact ⟨rfl, rfl⟩
  have hbody' := hbody
  rw [pieceTaken] at hbody'
  refine ⟨match smFind d.ctxs (cmdContext c) with
    | some x => match translate x (verrVa e) .any with
      | .ok dpa => reportBad (modMem (pieceTaken d p) fun k => { k with pieces := k.pieces.filter fun q => q.cid != p.cid }) dpa
      | .error _ => modMem (pieceTaken d p) fun k => { k with pieces := k.pieces.filter fun q => q.cid != p.cid }
    | none => modMem (pieceTaken d p) fun k => { k with pieces := k.pieces.filter fun q => q.cid != p.cid }, ?_, ?_⟩
  · cases e with
    | transit va => exact absurd rfl (htransit va)
    | absent va => exact absurd rfl (habsent va)
    | _ =>
      simp only [endPiece, hpiece, hcmd, hbody', hstage, hrefold, if_false]
      rfl
  · split
    · split
      · exact hreport _ _
      · exact ⟨rfl, rfl⟩
    · exact ⟨rfl, rfl⟩

/-- A piece of a MEM.COPY has its effect, and the last one ends its command. -/
theorem endPiece_copied {e : Dev} {f : BitVec 32} {n : Nat} (hop : opcodeC c = 0x0403)
    (hbody : ((pieceBody d c p.q).run m).run (pieceTaken d p, c.flags, c.count) = .ok ((), e, f, n)) : endPiece m d =
    if e.mem.pieces.any (fun q => q.cid == p.cid) then modCmd e p.cid fun c => { c with flags := f, count := n }
    else finishCmd (modCmd e p.cid fun c => { c with flags := f, count := n }) p.cid stOk 0 [] none := by
  rw [pieceTaken] at hbody
  have hclose (e : Dev) : mangleClose e c = e := by simp [mangleClose, hop]
  have hresult : mangleResult { c with flags := f, count := n } = [] := by
    have hop' : opcodeC { c with flags := f, count := n } = 0x0403 := hop
    simp [mangleResult, hop']
  simp only [endPiece, hpiece, hcmd, hbody, hop, hclose, hresult, Nat.reduceEqDiff, if_false]
  rfl

end

/-- Settles O34: the command by the pieces that it is cut into, the start by the piece that is next, the end by what the body of the piece
answers. That a piece waits for a page in TRANSIT, has a SLOW one recalled first, and ends its command where its bytes are in error, is the
model's reading of 07 R250 (log 56). -/
theorem mangleCommandsWorkInPieces : Obligations.MangleCommandsWorkInPieces := by
  intro s m
  refine ⟨fun cid c x row hrow hruns hctx hinfo hopen hlocal hchk hsome => ?_, fun p hnext => ?_, fun p c hpiece hcmd => ?_⟩
  · have hexec : exec row.2 s = onDev s (runCmd row.1 cid stepPieces) := by
      simp only [List.mem_cons, List.not_mem_nil, or_false] at hrow
      rcases hrow with rfl | rfl | rfl <;> rfl
    exact ⟨_, hexec.trans (onDev_runCmd hruns (stepPieces_cuts (d := began s cid) hctx hinfo hopen hlocal hchk hsome)), rfl, rfl⟩
  · obtain ⟨hmem, hwaits⟩ := List.mem_filter.mp (nextPiece_waits hnext)
    obtain ⟨hdie, hfree⟩ := Bool.and_eq_true_iff.mp hwaits
    obtain ⟨t, ht, hstart⟩ := exec_manglePieceStart hnext
    refine ⟨hmem, beq_iff_eq.mp hdie, Option.isNone_iff_eq_none.mp hfree, t, ht, ?_⟩
    beta_reduce
    rw [hstart]
    exact ⟨rfl, smGet_smSet_same .., smGet_smSet_same 0 s.dev.mem.lastCmd m (p.cid + 1)⟩
  · have hexec : exec (.manglePieceComplete m) s = .next { s with dev := endPiece m s.dev } := rfl
    refine ⟨fun x bs hop hctx hfin hread hwrite => ?_, fun va hbody => ?_, fun va x key q hbody hctx hleaf hslow hmove hwait => ?_,
      fun e hstage hrefold hfin htransit habsent hbody => ?_⟩
    · obtain ⟨dram, bad, caches, hbody, hdram⟩ := pieceBody_copy s.dev m p (r := (c.flags, c.count)) hop hctx hread hwrite
      rw [endPiece_copied hpiece hcmd hop hbody] at hexec
      refine ⟨_, hexec, ?_⟩
      split
      · next hmore =>
        obtain ⟨q, hq, hcid⟩ := List.any_eq_true.mp hmore
        exact ⟨rfl, hdram, fun hlast => absurd (beq_iff_eq.mp hcid) (hlast q hq)⟩
      · refine ⟨rfl, hdram, fun _ => ?_⟩
        exact congrArg (Option.map _) (finishCmd_find _ p.cid stOk 0 [] none ((smFind_smUpd_same ..).trans (congrArg _ hcmd)) hfin)
    · exact ⟨_, hexec, by rw [endPiece_transit hpiece hcmd hbody]⟩
    · rw [endPiece_absent hpiece hcmd hbody hctx hleaf, recallPage_slow hslow hmove hwait] at hexec
      exact ⟨_, hexec, _, rfl, rfl, rfl, rfl⟩
    · obtain ⟨d1, hend, hcmds, hpieces⟩ := endPiece_fails hpiece hcmd hstage hrefold htransit habsent hbody
      refine ⟨_, hexec, ?_⟩
      rw [hend]
      refine ⟨fun q hq => ?_, ?_⟩
      · rw [finishCmd_mem, hpieces] at hq
        exact bne_iff_ne.mp (List.mem_filter.mp hq).2
      · exact congrArg (Option.map _) (finishCmd_find d1 p.cid stDeviceFault 1 _ none (by rw [hcmds]; exact hcmd) hfin)

end Sys2Proof.Machine
end

section
/-! PROOF. MEM.ALLOC and MEM.FREE (07 R265 to R269). -/

namespace Sys2Proof.Machine

/-! ### The leaves of an allocation -/

theorem smFind_foldl_smPut_ne {α : Type} {l : List (Nat × α)} {k : Nat} (h : ∀ q ∈ l, k ≠ q.1) (m : SMap α) :
    smFind (l.foldl (fun m q => smPut m q.1 q.2) m) k = smFind m k := by
  induction l generalizing m with
  | nil => rfl
  | cons q l ih =>
    obtain ⟨hq, hl⟩ := List.forall_mem_cons.mp h
    rw [List.foldl_cons, ih hl, smFind_smPut_ne _ _ hq]

theorem smFind_foldl_smPut_mem {α : Type} {l : List (Nat × α)} (hl : l.Pairwise fun q r => q.1 ≠ r.1) {q : Nat × α} (hq : q ∈ l)
    (m : SMap α) : smFind (l.foldl (fun m q => smPut m q.1 q.2) m) q.1 = some q.2 := by
  induction l generalizing m with
  | nil => exact absurd hq List.not_mem_nil
  | cons r l ih =>
    obtain ⟨hr, hl'⟩ := List.pairwise_cons.mp hl
    rw [List.foldl_cons]
    rcases List.mem_cons.mp hq with rfl | hq
    · rw [smFind_foldl_smPut_ne hr, smFind_smPut_same]
    · exact ih hl' hq _

/-- The leaves of a whole allocation (07 R265). -/
def allocLeaves (c : Cmd) : List (Nat × Pte) := (span 0 (par c 0x18 8 / allocPage c)).map (allocLeaf c)

theorem allocLeaf_page (c : Cmd) (j : Nat) : (allocLeaf c j).1 = par c 0x10 8 / 65536 + j * (if par c 0x21 1 = 1 then 32 else 1) := rfl

/-- The pages of an allocation begin at different 64 KiB pages. -/
theorem allocLeaf_page_ne {c : Cmd} {i j : Nat} (h : i ≠ j) : (allocLeaf c i).1 ≠ (allocLeaf c j).1 := by
  rw [allocLeaf_page, allocLeaf_page]
  split <;> omega

theorem allocLeaves_pairwise (c : Cmd) : (allocLeaves c).Pairwise fun q r => q.1 ≠ r.1 :=
  List.pairwise_map.mpr ((List.nodup_range' (step := 1)).imp fun h => allocLeaf_page_ne h)

theorem mem_allocLeaves {c : Cmd} {q : Nat × Pte} : q ∈ allocLeaves c ↔ ∃ j, j < par c 0x18 8 / allocPage c ∧ allocLeaf c j = q := by
  simp only [allocLeaves, span, List.mem_map, List.mem_range'_1, Nat.zero_le, true_and, Nat.zero_add]

/-- The context with the pages of an allocation mapped. -/
def withAlloc (c : Cmd) (x : Ctx) : Ctx := { x with ptes := (allocLeaves c).foldl (fun m q => smPut m q.1 q.2) x.ptes }

/-- A result of one number of 32 bits (02 R52). -/
theorem resultOf_first (n : Nat) : resultOf [(0x0C, 4, n)] = BitVec.ofNat 160 (n % 2 ^ 32) := by simp [resultOf]

/-- An allocation of LPDDR6 or of the cupboard maps its pages once its frames are rinsed (07 R267). -/
theorem stepAlloc_maps {d : Dev} {cid : Nat} {c : Cmd} {x : Ctx} (hctx : smFind d.ctxs (cmdContext c) = some x) (htier : par c 0x20 1 ≤ 1)
    (hopen : memBlocked d cid c = false) (hfree : mapped x (par c 0x10 8) (par c 0x18 8) = false) (hready : reserveReady d c = true) :
    stepAlloc d cid c = some (finishCmd (modCtx (useReserve d cid) (cmdContext c) (withAlloc c)) cid stOk 0 [(0x0C, 4, c.frames.length)] none) := by
  have hnear : par c 0x20 1 ≠ 2 := by omega
  simp only [stepAlloc, hctx, hnear, hopen, hfree, hready, Bool.not_true, Bool.false_eq_true, if_false]
  rfl

/-! ### Frames that are freed -/

/-- The state of a frame once its page has let it go (07 R251, R280). -/
def letGo : FrameState → FrameState
  | .used | .rinsing | .rinsingUsed => .rinsing
  | .retired | .retiredUsed | .retiredRinsing => .retired

theorem letGo_letGo (v : FrameState) : letGo (letGo v) = letGo v := by cases v <;> rfl

theorem freeFrame_frame (d : Dev) (fr : Nat) : ∃ frames, freeFrame d fr = { d with mem := { d.mem with frames := frames } } ∧
    ∀ f, smFind frames f = if f = fr then (frameState d f).map letGo else frameState d f := by
  have hput (v : FrameState) (h : smFind d.mem.frames fr = some v) (f : Nat) : smFind (smPut d.mem.frames fr (letGo v)) f =
      if f = fr then (frameState d f).map letGo else frameState d f := by
    rw [smFind_smPut]
    split
    · next hf => rw [frameState, hf, h, Option.map_some]
    · rfl
  have hkeep (h : (smFind d.mem.frames fr).map letGo = smFind d.mem.frames fr) (f : Nat) : smFind d.mem.frames f =
      if f = fr then (frameState d f).map letGo else frameState d f := by
    split
    · next hf => rw [frameState, hf, h]
    · rfl
  cases h : smFind d.mem.frames fr with
  | none =>
    simp only [freeFrame, modMem, h]
    exact ⟨_, rfl, hkeep (by rw [h]; rfl)⟩
  | some v =>
    cases v with
    | rinsing | retired =>
      simp only [freeFrame, modMem, h]
      exact ⟨_, rfl, hkeep (by rw [h]; rfl)⟩
    | _ =>
      simp only [freeFrame, modMem, h]
      exact ⟨_, rfl, hput _ h⟩

theorem freeFrames_frame (d : Dev) (l : List Nat) : ∃ frames, freeFrames d l = { d with mem := { d.mem with frames := frames } } ∧
    ∀ f, smFind frames f = if f ∈ l then (frameState d f).map letGo else frameState d f := by
  induction l generalizing d with
  | nil => exact ⟨_, rfl, fun f => by rw [if_neg List.not_mem_nil]; rfl⟩
  | cons fr l ih =>
    obtain ⟨frames, hfree, hstate⟩ := freeFrame_frame d fr
    obtain ⟨frames', hrest, hstate'⟩ := ih { d with mem := { d.mem with frames := frames } }
    refine ⟨frames', ?_, fun f => ?_⟩
    · rw [freeFrames, List.foldl_cons, hfree]
      exact hrest
    · rw [hstate' f, frameState, hstate f]
      by_cases hf : f = fr
      · have hin : f ∈ fr :: l := hf ▸ List.mem_cons_self
        rw [if_pos hf, if_pos hin]
        split
        · rw [Option.map_map]
          exact congrArg (fun g => Option.map g (frameState d f)) (funext letGo_letGo)
        · rfl
      · simp only [List.mem_cons, hf, false_or, if_false]

/-! ### Pages that are unmapped -/

theorem unmapPage_mapped {d : Dev} {ctx page : Nat} {x : Ctx} {p : Pte} (hctx : smFind d.ctxs ctx = some x)
    (hpage : smFind x.ptes page = some p) : ∃ parts caches frames, unmapPage d ctx page = { d with
      parts := parts, ctxs := smUpd d.ctxs ctx fun x => { x with ptes := smErase x.ptes page }
      mem := { d.mem with caches := caches, frames := frames } } ∧
    ∀ f, smFind frames f = if f ∈ p.frames then (frameState d f).map letGo else frameState d f := by
  obtain ⟨frames, hfree, hstate⟩ := freeFrames_frame
    (modCtx (dropCached d ctx page) ctx fun x => { x with ptes := smErase x.ptes page }) p.frames
  simp only [unmapPage, hctx, hpage, hfree]
  exact ⟨_, _, frames, rfl, hstate⟩

/-- What unmapping the pages of a list leaves: the other pages of the context, the commands and the bytes; the used frames of these pages
go to rinse, and a frame that is being rinsed is so still (07 R269). -/
structure Unmapped (d e : Dev) (ctx : Nat) (x : Ctx) (l : SMap Pte) : Prop where
  cmds : e.cmds = d.cmds
  dram : e.mem.dram = d.mem.dram
  pages : ∃ y, smFind e.ctxs ctx = some y ∧ ∀ p, smFind y.ptes p = if p ∈ l.map (·.1) then none else smFind x.ptes p
  rinsing : ∀ f, frameState d f = some .rinsing → frameState e f = some .rinsing
  freed : ∀ q f, q ∈ l → smFind x.ptes q.1 = some q.2 → f ∈ q.2.frames → frameState d f = some .used → frameState e f = some .rinsing

/-- A map without a key, and then without the keys of a list. -/
theorem smFind_without_cons {α : Type} {m m' m'' : SMap α} {l : SMap α} {q : Nat × α}
    (h : ∀ p, smFind m p = if p ∈ l.map (·.1) then none else smFind m' p) (hq : smFind m' q.1 = none)
    (hother : ∀ p, p ≠ q.1 → smFind m' p = smFind m'' p) (p : Nat) :
    smFind m p = if p ∈ (q :: l).map (·.1) then none else smFind m'' p := by
  rw [h p]
  by_cases hl : p ∈ l.map (·.1)
  · have hin : p ∈ (q :: l).map (·.1) := List.mem_cons_of_mem _ hl
    rw [if_pos hl, if_pos hin]
  · rw [if_neg hl]
    by_cases hp : p = q.1
    · have hin : p ∈ (q :: l).map (·.1) := hp ▸ List.mem_cons_self
      rw [if_pos hin, hp, hq]
    · have hout : p ∉ (q :: l).map (·.1) := fun hin => (List.mem_cons.mp hin).elim hp hl
      rw [if_neg hout, hother p hp]

theorem unmapped_foldl {ctx : Nat} (l : SMap Pte) {d : Dev} {x : Ctx} (hctx : smFind d.ctxs ctx = some x) :
    Unmapped d (l.foldl (fun d q => unmapPage d ctx q.1) d) ctx x l := by
  induction l generalizing d x with
  | nil => exact ⟨rfl, rfl, ⟨x, hctx, fun p => by simp⟩, fun _ h => h, fun q f hq => absurd hq List.not_mem_nil⟩
  | cons q l ih =>
    rw [List.foldl_cons]
    cases hpage : smFind x.ptes q.1 with
    | none =>
      have hsame : unmapPage d ctx q.1 = d := by simp only [unmapPage, hctx, hpage]
      rw [hsame]
      obtain ⟨hcmds, hdram, ⟨y, hy, hptes⟩, hrinsing, hfreed⟩ := ih hctx
      refine ⟨hcmds, hdram, ⟨y, hy, fun p => ?_⟩, hrinsing, fun r f hr hfind => ?_⟩
      · exact smFind_without_cons hptes hpage (fun _ _ => rfl) p
      · rcases List.mem_cons.mp hr with rfl | hr
        · exact absurd (hpage.symm.trans hfind) nofun
        · exact hfreed r f hr hfind
    | some p0 =>
      obtain ⟨parts, caches, frames, hunmap, hstate⟩ := unmapPage_mapped hctx hpage
      have hctx' : smFind (unmapPage d ctx q.1).ctxs ctx = some { x with ptes := smErase x.ptes q.1 } := by
        rw [hunmap]
        exact (smFind_smUpd_same ..).trans (congrArg _ hctx)
      obtain ⟨hcmds, hdram, ⟨y, hy, hptes⟩, hrinsing, hfreed⟩ := ih hctx'
      have hnow : ∀ f, frameState (unmapPage d ctx q.1) f = if f ∈ p0.frames then (frameState d f).map letGo else frameState d f := by
        rw [hunmap]
        exact hstate
      refine ⟨hcmds.trans (by rw [hunmap]), hdram.trans (by rw [hunmap]), ⟨y, hy, fun p => ?_⟩, fun f hf => hrinsing f ?_,
        fun r f hr hfind hin hused => ?_⟩
      · exact smFind_without_cons hptes (smFind_smErase_same ..) (fun _ hne => smFind_smErase_ne _ hne) p
      · rw [hnow f, hf]
        split <;> rfl
      · by_cases hpf : f ∈ p0.frames
        · exact hrinsing f (by rw [hnow f, if_pos hpf, hused]; rfl)
        · have hne : r.1 ≠ q.1 := fun he => hpf (by rw [he, hpage] at hfind; exact Option.some.inj hfind ▸ hin)
          have hlater : r ∈ l := (List.mem_cons.mp hr).resolve_left fun he => hne (congrArg Prod.fst he)
          exact hfreed r f hlater ((smFind_smErase_ne _ hne).trans hfind) hin (by rw [hnow f, if_neg hpf, hused])

/-! ### How far a command is does not tell on the pages that are in use -/

/-- Of a list of values, what the last one that says something says. -/
def latest {α β : Type} (φ : α → Option β) (b : Option β) (p : Nat × α) : Option β := (φ p.2).or b

/-- What comes before the value under a key in a list does not matter where it says the same. -/
theorem foldl_latest_of_find {α β : Type} {φ : α → Option β} {m : SMap α} {k : Nat} {v w : α} (hfind : smFind m k = some w)
    (hsame : φ v = φ w) (b : Option β) : m.foldl (latest φ) ((φ v).or b) = m.foldl (latest φ) b := by
  induction m generalizing b with
  | nil => exact absurd hfind nofun
  | cons p m ih =>
    rw [List.foldl_cons, List.foldl_cons]
    cases hp : φ p.2 with
    | some a => simp only [latest, hp, Option.some_or]
    | none =>
      simp only [latest, hp, Option.none_or]
      rw [smFind] at hfind
      split at hfind
      · rw [hsame, ← Option.some.inj hfind, hp, Option.none_or]
      · exact ih hfind b

/-- A value that says the same may take the place of the one under a key. -/
theorem foldl_latest_smPut {α β : Type} {φ : α → Option β} {m : SMap α} {k : Nat} {v w : α} (hfind : smFind m k = some w)
    (hsame : φ v = φ w) (b : Option β) : (smPut m k v).foldl (latest φ) b = m.foldl (latest φ) b := by
  induction m generalizing b with
  | nil => exact absurd hfind nofun
  | cons p m ih =>
    rw [smPut]
    split
    · exact foldl_latest_of_find hfind hsame b
    · rw [smFind] at hfind
      split
      · next hk =>
        rw [if_pos hk] at hfind
        rw [List.foldl_cons, List.foldl_cons, latest, latest, hsame, ← Option.some.inj hfind]
      · next hk =>
        rw [if_neg hk] at hfind
        rw [List.foldl_cons, List.foldl_cons, ih hfind]

/-- SLOTS of an RB_INIT of a buffer that has not finished (07 R651). -/
def initSlots (ctx va : Nat) (c : Cmd) : Option Nat :=
  if opcodeC c = 0x0407 ∧ mOp c = 9 ∧ cmdContext c = ctx ∧ blk c 0 8 = va ∧ c.fin.isNone then some (blk c 0xC 1) else none

theorem pendingInit_eq (d : Dev) (ctx va : Nat) : pendingInit d ctx va = d.cmds.foldl (latest (initSlots ctx va)) none := by
  unfold pendingInit
  congr 1
  funext b p
  unfold latest initSlots
  split <;> rfl

theorem pendingInit_began {s : State} {cid : Nat} {c : Cmd} (hcmd : smFind s.dev.cmds cid = some c) (ctx va : Nat) :
    pendingInit (began s cid) ctx va = pendingInit s.dev ctx va := by
  have hcmds : (began s cid).cmds = smPut s.dev.cmds cid { c with phase := .running } := by
    simp only [began, setPhase, smUpd, hcmd]
  rw [pendingInit_eq, pendingInit_eq, hcmds]
  apply foldl_latest_smPut hcmd
  rfl

theorem mangleOperands_began {s : State} {cid : Nat} {c : Cmd} (hcmd : smFind s.dev.cmds cid = some c) (k : Cmd) :
    mangleOperands (began s cid) k false = mangleOperands s.dev k false := by
  have hpeek (ctx va n : Nat) : peek (began s cid) ctx va n = peek s.dev ctx va n := by
    rw [peek, peek, readVirt_began]
  have hslots (ctx va : Nat) : bufSlots (began s cid) ctx va false = bufSlots s.dev ctx va false := by
    simp only [bufSlots, hpeek, pendingInit_began hcmd]
  simp only [mangleOperands, hslots]

theorem mangleRanges_began {s : State} {cid : Nat} {c : Cmd} (hcmd : smFind s.dev.cmds cid = some c) (k : Cmd) :
    mangleRanges (began s cid) k = mangleRanges s.dev k := by
  simp only [mangleRanges, memRanges, mangleOperands_began hcmd]

theorem mangleRanges_phase (d : Dev) (c : Cmd) (p : CmdPhase) : mangleRanges d { c with phase := p } = mangleRanges d c := rfl

/-- A page is in use or not however far a command is. -/
theorem inUse_began {s : State} {cid : Nat} {c : Cmd} (hcmd : smFind s.dev.cmds cid = some c) (ctx page : Nat) (p : Pte) :
    inUse (began s cid) ctx page p = inUse s.dev ctx page p := by
  have hpiece (q : Piece) : (match smFind (began s cid).cmds q.cid with
      | some c => cmdContext c == ctx && pageMeets page (pageBytes p) (mangleRanges (began s cid) c) | none => false) =
      (match smFind s.dev.cmds q.cid with
      | some c => cmdContext c == ctx && pageMeets page (pageBytes p) (mangleRanges s.dev c) | none => false) := by
    by_cases hq : q.cid = cid
    · have hbegan : smFind (began s cid).cmds cid = some { c with phase := .running } :=
        (smFind_smUpd_same ..).trans (congrArg _ hcmd)
      simp only [hq, hbegan, hcmd, mangleRanges_began hcmd, mangleRanges_phase]
      rfl
    · simp only [smFind_began_ne s hq, mangleRanges_began hcmd]
  have huses : pieceUses (began s cid) ctx page p = pieceUses s.dev ctx page p := by
    unfold pieceUses
    exact congrArg (List.any s.dev.mem.pieces) (funext fun q => congrArg (q.mang.isSome && ·) (hpiece q))
  exact congrArg (_ || ·) huses

/-! ### The two commands -/

/-- A MEM.FREE that passes its checks, and whose pages nothing uses, unmaps them (07 R261, R269). -/
theorem stepFree_unmaps {d : Dev} {cid : Nat} {c : Cmd} {x : Ctx} (hctx : smFind d.ctxs (cmdContext c) = some x)
    (hopen : memBlocked d cid c = false) (hchk : chkFree d c = .ok ())
    (hidle : ∀ q ∈ leavesIn x (par c 0x10 8) (par c 0x18 8), inUse d (cmdContext c) q.1 q.2 = false ∧ q.2.transit = false) :
    ∃ waits, stepFree d cid c = some (finishCmd
      ((leavesIn x (par c 0x10 8) (par c 0x18 8)).foldl (fun d q => unmapPage d (cmdContext c) q.1)
        (modMem d fun m => { m with waits := waits })) cid stOk 0 [] none) := by
  have hnone : (leavesIn x (par c 0x10 8) (par c 0x18 8)).any (fun q => inUse d (cmdContext c) q.1 q.2 || q.2.transit) = false :=
    List.any_eq_false.mpr fun q hq => by
      obtain ⟨huse, htransit⟩ := hidle q hq
      rw [huse, htransit]
      exact Bool.false_ne_true
  simp only [stepFree, hctx, hopen, hchk, hnone, Bool.false_eq_true, if_false]
  exact ⟨_, rfl⟩

/-- Settles O33: the allocation by the leaves that it puts, the free by what unmapping page after page leaves. -/
theorem memoryIsAllocatedAndFreed : Obligations.MemoryIsAllocatedAndFreed := by
  intro s cid c x hctx hopen
  refine ⟨fun pages hruns htier hfree hready hpages => ?_, fun hruns hchk hidle => ?_⟩
  · have hexec : exec (.memAlloc cid) s = onDev s (runCmd 0x0401 cid stepAlloc) := rfl
    have hbody := stepAlloc_maps (d := began s cid) hctx htier hopen hfree hready
    refine (completes_finish (c' := { c with phase := .running, frames := [], pool := [], charged := 0 }) hexec hruns hbody
      (fun k hk => ?_) ?_ (fin_of_runs (c := c) hruns)).imp ?_
    · exact (smFind_smUpd_ne _ _ hk).trans (smFind_began_ne s hk)
    · exact (smFind_smUpd_same ..).trans (congrArg _ (smFind_began_same hruns))
    · rintro t ⟨hframe, -, hfin, -⟩
      have hctxs : t.dev.ctxs = smUpd s.dev.ctxs (cmdContext c) (withAlloc c) := by rw [hframe]; rfl
      rw [hctxs]
      refine ⟨hframe, hfin.trans (by rw [resultOf_first]; rfl), fun k hk => smFind_smUpd_ne _ _ hk, withAlloc c x, ?_, rfl, fun j hj => ?_, fun p hp => ?_⟩
      · exact (smFind_smUpd_same ..).trans (congrArg _ hctx)
      · exact smFind_foldl_smPut_mem (allocLeaves_pairwise c) (mem_allocLeaves.mpr ⟨j, hpages ▸ hj, rfl⟩) _
      · refine smFind_foldl_smPut_ne (fun q hq => ?_) _
        obtain ⟨j, hj, rfl⟩ := mem_allocLeaves.mp hq
        exact hp j (hpages ▸ hj)
  · have hexec : exec (.memFree cid) s = onDev s (runCmd 0x0402 cid stepFree) := rfl
    have ⟨hcmd, _⟩ := hruns
    obtain ⟨waits, hbody⟩ := stepFree_unmaps (d := began s cid) hctx hopen hchk fun q hq =>
      (hidle q hq).imp_left fun h => (inUse_began hcmd ..).trans h
    obtain ⟨hcmds, hdram, hpages, -, hfreed⟩ := unmapped_foldl (leavesIn x (par c 0x10 8) (par c 0x18 8))
      (d := modMem (began s cid) fun m => { m with waits := waits }) hctx
    refine (completes_finish_kept hexec hruns hbody hcmds).imp ?_
    rintro t ⟨hframe, -, hfin, -⟩
    refine ⟨⟨_, hfin⟩, ?_, ?_, ?_⟩
    · rw [hframe]
      exact hdram
    · rw [hframe]
      exact hpages
    · rw [hframe]
      exact hfreed

end Sys2Proof.Machine
end

section
/-! PROOF. Requests within one page, as a read and a write of memory see them (07 R257 to R259). -/

namespace Sys2Proof.Machine

/-! ### Ranges within a page -/

/-- A range of bytes within a 4 KiB page is one piece, or none where it is empty. -/
theorem pieces_near {va n : Nat} (h : va % 4096 + n ≤ 4096) : pieces va n = if n = 0 then [] else [(va, n)] := by
  rw [pieces, pagePieces]
  split
  · rfl
  · have hin : min n (65536 - va % 65536) = n := by omega
    have hend : pagePieces (va + n) (n - n) (n / 65536 + 1) = [] := by
      rw [Nat.sub_self, pagePieces, if_pos rfl]
    simp only [hin, hend]

/-- Bytes that are good are read as they are. -/
theorem firstBad_good {m : MemSys} {dpa n : Nat} (h : badIn m dpa n = false) : firstBad m dpa n = none := by
  have hnone : (m.bad.filter fun b => decide (b < dpa + n) && decide (dpa < b + eccUnit b)) = [] :=
    List.filter_eq_nil_iff.mpr fun b hb => List.any_eq_false.mp h b hb
  rw [firstBad, hnone]
  rfl

section
variable {d : Dev} {ctx va : Nat} {x : Ctx} {perm : Perm} (hctx : smFind d.ctxs ctx = some x)
include hctx

theorem readVirt_near {n dpa : Nat} (hnear : va % 4096 + n ≤ 4096) (hpage : translate x va perm = .ok dpa)
    (hgood : badIn d.mem dpa n = false) : readVirt d ctx va n perm = .ok (memRead d.mem.dram dpa n) := by
  simp only [readVirt, hctx, pieces_near hnear]
  split
  · next h => rw [h]; rfl
  · simp only [readPieces, hpage, firstBad_good hgood, bind, pure, Except.bind, Except.pure, List.append_nil]

/-- A write within a page puts its bytes at the physical address of the first. -/
theorem writeVirt_near {bs : List Byte} {dpa : Nat} (hnear : va % 4096 + bs.length ≤ 4096) (hpage : translate x va perm = .ok dpa) :
    ∃ bad, writeVirt d ctx va bs perm = .ok { d with mem := { d.mem with dram := memWrite d.mem.dram dpa bs, bad := bad } } := by
  have hcheck : checkPieces x perm [(va, bs.length)] = .ok () := by
    simp only [checkPieces, hpage]
    rfl
  by_cases hbs : bs = []
  · refine ⟨d.mem.bad, ?_⟩
    simp only [writeVirt, hctx, hbs]
    rfl
  · have hlen : bs.length ≠ 0 := fun h => hbs (List.length_eq_zero_iff.mp h)
    simp only [writeVirt, hctx, pieces_near hnear, hlen, if_false, hcheck, writePieces, hpage, List.take_length]
    exact ⟨_, rfl⟩

theorem readVirt_denied {n : Nat} (hnear : va % 4096 + n ≤ 4096) (hn : 0 < n) (hpage : translate x va perm = .error (.denied va)) :
    readVirt d ctx va n perm = .error (.denied va) := by
  simp only [readVirt, hctx, pieces_near hnear, Nat.ne_of_gt hn, if_false, readPieces, hpage]
  rfl

theorem writeVirt_denied {bs : List Byte} (hnear : va % 4096 + bs.length ≤ 4096) (hn : 0 < bs.length)
    (hpage : translate x va perm = .error (.denied va)) : writeVirt d ctx va bs perm = .error (.denied va) := by
  have hcheck : checkPieces x perm [(va, bs.length)] = .error (.denied va) := by
    simp only [checkPieces, hpage]
    rfl
  simp only [writeVirt, hctx, pieces_near hnear, Nat.ne_of_gt hn, if_false, hcheck]

end

theorem memByte_memWrite (m : Mem) (dpa : Nat) (bs : List Byte) (a : Nat) : memByte (memWrite m dpa bs) a =
    if dpa ≤ a ∧ a < dpa + bs.length then nth 0#8 bs (a - dpa) else memByte m a := by
  split
  · next h =>
    have hlt : a - dpa < bs.length := by omega
    have hin := memByte_memWrite_in m dpa (a - dpa) bs hlt
    rw [Nat.add_sub_cancel' h.1] at hin
    rw [hin, nth, List.getD_eq_getElem _ _ hlt]
  · next h => exact memByte_memWrite_out m dpa a bs (by omega)

/-! ### The leaf of an address -/

/-- An access that is let through has a leaf that is not on its way. -/
theorem leafKey_of_translate {x : Ctx} {va dpa : Nat} {perm : Perm} (h : translate x va perm = .ok dpa) :
    ∃ q, leafKey x va = some q ∧ q.2.transit = false := by
  unfold translate at h
  split at h
  · exact absurd h nofun
  · next key p hleaf =>
    split at h
    · exact absurd h nofun
    · split at h
      · exact absurd h nofun
      · next hstill => exact ⟨_, hleaf, Bool.not_eq_true _ ▸ hstill⟩

/-- A peer may not access a page without RX (07 R258). -/
theorem translate_no_rx {x : Ctx} {va : Nat} {q : Nat × Pte} (hleaf : leafKey x va = some q) (hrx : q.2.rx = false) :
    translate x va .peer = .error (.denied va) := by
  simp only [translate, hleaf, permOk, hrx, Bool.not_false, if_true]

end Sys2Proof.Machine
end

section
/-! PROOF. Packets that are taken from the receive buffer: requests that are served, answers, and messages (07 R259, R260; 10 R398, R400,
R401). -/

namespace Sys2Proof.Machine

/-! ### The first packet is taken -/

/-- A half-port with the room of a packet, and what it owes for it, returned. -/
def roomBack (d : Dev) (h : Nat) (p : Packet) (q : HalfPort) : HalfPort :=
  { q with
    rxFill := setNth q.rxFill p.vc (nth 0 q.rxFill p.vc - packetSize p)
    owed := if portConfig d h = 1 then setNth q.owed p.vc (nth 0 q.owed p.vc + packetCredits p) else q.owed }

/-- A half-port that no longer pauses the channel of a packet. -/
def pauseEnds (p : Packet) (q : HalfPort) : HalfPort := { q with pausing := setNth q.pausing p.vc false }

theorem bufferOut_own {d : Dev} {g : Nat} (h : 36 ≤ g) (pk : Packet) : bufferOut d g pk = d := if_pos h

/-- The room of a packet is returned; a pause may end with it, of which the partner may be told (10 R398, R406). -/
theorem bufferOut_port {d : Dev} {g : Nat} (h : g < 36) (pk : Packet) : bufferOut d g pk = modPort d g (roomBack d g pk) ∨
    bufferOut d g pk = modPort (modPort d g (roomBack d g pk)) g (pauseEnds pk) ∨
    ∃ m, bufferOut d g pk = emit (modPort (modPort d g (roomBack d g pk)) g (pauseEnds pk)) m := by
  have heq : bufferOut d g pk =
      let d1 := modPort d g (roomBack d g pk)
      let d2 := modPort d1 g (pauseEnds pk)
      if nth false (portOf d1 g).pausing pk.vc ∧ 2 * nth 0 (portOf d1 g).rxFill pk.vc < vcBuffer pk.vc then
        if (span 0 4).any (fun v => nth false (portOf d2 g).pausing v && fabPcp d v == fabPcp d pk.vc) then d2
        else emit d2 (.pfc g (fabPcp d pk.vc) false)
      else d1 := if_neg (Nat.not_le.mpr h)
  rw [heq]
  dsimp only
  generalize modPort d g (roomBack d g pk) = d1
  split
  · split
    · exact .inr (.inl rfl)
    · exact .inr (.inr ⟨_, rfl⟩)
  · exact .inl rfl

theorem bufferOut_frame (d : Dev) (g : Nat) (pk : Packet) : ∃ ports out, bufferOut d g pk =
    { d with fabric := { d.fabric with ports := ports }, out := out } := by
  by_cases h : 36 ≤ g
  · rw [bufferOut_own h]
    exact ⟨_, _, rfl⟩
  · obtain hout | hout | ⟨m, hout⟩ := bufferOut_port (d := d) (Nat.not_le.mp h) pk <;> rw [hout] <;> exact ⟨_, _, rfl⟩

theorem rxFill_bufferOut {d : Dev} {g : Nat} (h : g < 36) (pk : Packet) : (portOf (bufferOut d g pk) g).rxFill =
    setNth (portOf d g).rxFill pk.vc (nth 0 (portOf d g).rxFill pk.vc - packetSize pk) := by
  have hroom : portOf (modPort d g (roomBack d g pk)) g = roomBack d g pk (portOf d g) := portOf_setPort_same ..
  have hpause : portOf (modPort (modPort d g (roomBack d g pk)) g (pauseEnds pk)) g = pauseEnds pk (roomBack d g pk (portOf d g)) :=
    (portOf_setPort_same ..).trans (congrArg _ hroom)
  obtain hout | hout | ⟨m, hout⟩ := bufferOut_port (d := d) h pk
  · rw [hout, hroom]
    rfl
  · rw [hout, hpause]
    rfl
  · rw [hout]
    exact congrArg HalfPort.rxFill hpause

section
variable {s : State} {g : Nat} {pk : Packet} {rest : List (Nat × Packet)}

theorem tookPacket_frame (s : State) (g : Nat) (pk : Packet) (rest : List (Nat × Packet)) : ∃ ports out, tookPacket s g pk rest =
    { s.dev with fabric := { s.dev.fabric with ports := ports, rxq := rest }, out := out } := by
  obtain ⟨ports, out, h⟩ := bufferOut_frame { s.dev with fabric := { s.dev.fabric with rxq := rest } } g pk
  exact ⟨ports, out, h⟩

variable (h : FirstPacket s g pk rest)
include h

theorem takePacket_first {k : Nat} (hkind : pk.kind = k) : takePacket s.dev k pk = some (tookPacket s g pk rest) := by
  have hq : s.dev.fabric.rxq = (g, pk) :: rest := h
  simp [takePacket, hq, hkind, tookPacket]

theorem takePacket_other {k : Nat} (hkind : pk.kind ≠ k) : takePacket s.dev k pk = none := by
  have hq : s.dev.fabric.rxq = (g, pk) :: rest := h
  simp [takePacket, hq, hkind]

theorem accessed_frame : ∃ caches, accessed s g pk rest = { tookPacket s g pk rest with
    mem := { (tookPacket s g pk rest).mem with caches := caches } } := by
  have hq : s.dev.fabric.rxq = (g, pk) :: rest := h
  have hfind : s.dev.fabric.rxq.find? (fun q => q.2 == pk) = some (g, pk) := by simp [hq]
  simp only [accessed, peerAccess, hfind]
  exact cacheRange_frame ..

end

/-! ### What a packet leaves as it was -/

section
variable (s : State) (g : Nat) (pk : Packet) (rest : List (Nat × Packet))

theorem tookPacket_now : (tookPacket s g pk rest).now = s.dev.now := by
  obtain ⟨ports, out, h⟩ := tookPacket_frame s g pk rest
  rw [h]

theorem tookPacket_cmds : (tookPacket s g pk rest).cmds = s.dev.cmds := by
  obtain ⟨ports, out, h⟩ := tookPacket_frame s g pk rest
  rw [h]

theorem tookPacket_xfers : (tookPacket s g pk rest).xfers = s.dev.xfers := by
  obtain ⟨ports, out, h⟩ := tookPacket_frame s g pk rest
  rw [h]

theorem tookPacket_outst : (tookPacket s g pk rest).fabric.outst = s.dev.fabric.outst := by
  obtain ⟨ports, out, h⟩ := tookPacket_frame s g pk rest
  rw [h]

end

section
variable {s : State} {g : Nat} {pk : Packet} {rest : List (Nat × Packet)} (h : FirstPacket s g pk rest)
include h

theorem accessed_same : ∃ ports out caches, accessed s g pk rest = { s.dev with
    fabric := { s.dev.fabric with ports := ports, rxq := rest }, out := out, mem := { s.dev.mem with caches := caches } } := by
  obtain ⟨caches, hd⟩ := accessed_frame h
  obtain ⟨ports, out, ht⟩ := tookPacket_frame s g pk rest
  rw [hd, ht]
  exact ⟨_, _, _, rfl⟩

theorem accessed_ctxs : (accessed s g pk rest).ctxs = s.dev.ctxs := by
  obtain ⟨_, _, _, hd⟩ := accessed_same h
  rw [hd]

theorem accessed_dram : (accessed s g pk rest).mem.dram = s.dev.mem.dram := by
  obtain ⟨_, _, _, hd⟩ := accessed_same h
  rw [hd]

theorem badIn_accessed (dpa n : Nat) : badIn (accessed s g pk rest).mem dpa n = badIn s.dev.mem dpa n := by
  obtain ⟨_, _, _, hd⟩ := accessed_same h
  rw [hd]
  rfl

end

/-! ### The rows that take a packet -/

/-- What a row does that takes a packet of kind k, and then does f. -/
def onPacket (k : Nat) (pk : Packet) (f : Dev → Dev) (d : Dev) : Dev :=
  match takePacket d k pk with
  | some d1 => f d1
  | none => d

theorem exec_read (pk : Packet) (s : State) : exec (.read pk) s =
    onDev s fun d => onPacket pkRead pk (fun d1 => serveRead (peerAccess d pk d1) pk) d := rfl

theorem exec_write (pk : Packet) (s : State) : exec (.write pk) s =
    onDev s fun d => onPacket pkWrite pk (fun d1 => serveWrite (peerAccess d pk d1) pk) d := rfl

theorem exec_readData (pk : Packet) (s : State) : exec (.readData pk) s =
    onDev s (onPacket pkReadData pk fun d1 => if (matched d1 pk).isSome then answered d1 pk.tag (some pk.data) else d1) := rfl

theorem exec_writeAck (pk : Packet) (s : State) : exec (.writeAck pk) s =
    onDev s (onPacket pkWriteAck pk fun d1 => if (matched d1 pk).isSome then answered d1 pk.tag none else d1) := rfl

theorem exec_readErr (pk : Packet) (s : State) : exec (.readErr pk) s =
    onDev s (onPacket pkReadErr pk fun d1 =>
      if (matched d1 pk).isSome then failRequest d1 pk.tag (max 1 (field pk.data 0 4)) else d1) := rfl

theorem exec_msg (pk : Packet) (s : State) : exec (.msg pk) s =
    onDev s fun d => if field pk.data 0 1 = 6 then d else onPacket pkMsg pk (fun d1 => gotMsg d1 pk) d := rfl

section
variable {s : State} {g : Nat} {pk : Packet} {rest : List (Nat × Packet)} (h : FirstPacket s g pk rest) {k : Nat} {f : Dev → Dev}
include h

theorem onPacket_first (hkind : pk.kind = k) : onPacket k pk f s.dev = f (tookPacket s g pk rest) := by
  rw [onPacket, takePacket_first h hkind]

theorem onPacket_other (hkind : pk.kind ≠ k) : onPacket k pk f s.dev = s.dev := by
  rw [onPacket, takePacket_other h hkind]

theorem completes_onPacket {i : Instr} {P : State → Prop} (hkind : pk.kind = k) (hi : exec i s = onDev s (onPacket k pk f))
    (hP : P { s with dev := f (tookPacket s g pk rest) }) : Completes i s P :=
  ⟨_, by rw [hi, onDev_next, onPacket_first h hkind], hP⟩

theorem completes_read {P : State → Prop} (hkind : pk.kind = pkRead) (hP : P { s with dev := serveRead (accessed s g pk rest) pk }) :
    Completes (.read pk) s P := by
  refine ⟨_, ?_, hP⟩
  rw [exec_read, onDev_next, onPacket_first h hkind]
  rfl

theorem completes_write {P : State → Prop} (hkind : pk.kind = pkWrite) (hP : P { s with dev := serveWrite (accessed s g pk rest) pk }) :
    Completes (.write pk) s P := by
  refine ⟨_, ?_, hP⟩
  rw [exec_write, onDev_next, onPacket_first h hkind]
  rfl

/-- A packet of another kind than the row's is left where it is. -/
theorem exec_otherKind {row : Instr} (hrow : row ∈ [Instr.read pk, .write pk, .readData pk, .writeAck pk, .readErr pk, .msg pk])
    (hkind : 7 ≤ pk.kind) (hmsg : pk.kind ≠ pkMsg) : exec row s = .next s := by
  have hother {k : Nat} (hk : k < 7) (f : Dev → Dev) : onPacket k pk f s.dev = s.dev := onPacket_other h (by omega)
  simp only [List.mem_cons, List.not_mem_nil, or_false] at hrow
  rcases hrow with rfl | rfl | rfl | rfl | rfl | rfl
  · rw [exec_read, onDev_next, hother (by decide)]
  · rw [exec_write, onDev_next, hother (by decide)]
  · rw [exec_readData, onDev_next, hother (by decide)]
  · rw [exec_writeAck, onDev_next, hother (by decide)]
  · rw [exec_readErr, onDev_next, hother (by decide)]
  · rw [exec_msg, onDev_next, onPacket_other h hmsg, ite_self]

end

/-! ### Requests (07 R259; 10 R401) -/

section
variable {d : Dev} {pk : Packet} {x : Ctx} (hctx : smFind d.ctxs pk.ctx = some x)

theorem peerCheck_noCtx (hnone : smFind d.ctxs pk.ctx = none) : peerCheck d pk = .error 4 := by
  simp only [peerCheck, hnone]

include hctx

theorem peerCheck_far (hfar : ¬ 64 * pk.addr % 4096 + pk.len ≤ 4096) : peerCheck d pk = .error 1 := by
  simp only [peerCheck, hctx, if_pos (Nat.not_le.mp hfar)]

variable (hnear : 64 * pk.addr % 4096 + pk.len ≤ 4096)
include hnear

theorem peerCheck_noLeaf (hleaf : leafKey x (64 * pk.addr) = none) : peerCheck d pk = .error 1 := by
  simp only [peerCheck, hctx, if_neg (Nat.not_lt.mpr hnear), hleaf]

variable {q : Nat × Pte} (hleaf : leafKey x (64 * pk.addr) = some q)
include hleaf

theorem peerCheck_transit (htransit : q.2.transit = true) (hrx : q.2.rx = true) : peerCheck d pk = .error 3 := by
  simp only [peerCheck, hctx, if_neg (Nat.not_lt.mpr hnear), hleaf, htransit, hrx, Bool.and_self, if_true]

theorem peerCheck_ok (hq : (q.2.transit && q.2.rx) = false) : peerCheck d pk = .ok () := by
  simp only [peerCheck, hctx, if_neg (Nat.not_lt.mpr hnear), hleaf, hq, Bool.false_eq_true, if_false]

end

section
variable {s : State} {g : Nat} {pk : Packet} {rest : List (Nat × Packet)} (h : FirstPacket s g pk rest) {k : Nat} {row : Instr}
  (hrow : (k, row) ∈ [(pkRead, Instr.read pk), (pkWrite, .write pk)]) (hkind : pk.kind = k)
include h hrow hkind

theorem completes_refused {c : Nat} (hc : peerCheck (accessed s g pk rest) pk = .error c) :
    Completes row s fun t => t = { s with dev := answerErr (accessed s g pk rest) pk c } := by
  simp only [List.mem_cons, Prod.mk.injEq, List.not_mem_nil, or_false] at hrow
  obtain ⟨rfl, rfl⟩ | ⟨rfl, rfl⟩ := hrow
  · exact completes_read h hkind (by rw [serveRead, hc])
  · exact completes_write h hkind (by rw [serveWrite, hc])

/-- A page without RX refuses an access of at least one byte (07 R258, R259). -/
theorem completes_denied {x : Ctx} {q : Nat × Pte} (hctx : smFind s.dev.ctxs pk.ctx = some x)
    (hnear : 64 * pk.addr % 4096 + pk.len ≤ 4096) (hleaf : leafKey x (64 * pk.addr) = some q) (hrx : q.2.rx = false) (hlen : 0 < pk.len)
    (hdata : pk.data.length = if k = pkWrite then pk.len else 0) :
    Completes row s fun t => t = { s with dev := answerErr (accessed s g pk rest) pk 1 } := by
  have hctx2 : smFind (accessed s g pk rest).ctxs pk.ctx = some x := by rw [accessed_ctxs h, hctx]
  have hok : peerCheck (accessed s g pk rest) pk = .ok () := peerCheck_ok hctx2 hnear hleaf (by rw [hrx, Bool.and_false])
  have hpage := translate_no_rx hleaf hrx
  simp only [List.mem_cons, Prod.mk.injEq, List.not_mem_nil, or_false] at hrow
  obtain ⟨rfl, rfl⟩ | ⟨rfl, rfl⟩ := hrow
  · refine completes_read h hkind ?_
    simp only [serveRead, hok, readVirt_denied hctx2 hnear hlen hpage]
    rfl
  · rw [if_pos rfl] at hdata
    rw [← hdata] at hnear hlen
    refine completes_write h hkind ?_
    simp only [serveWrite, hok, writeVirt_denied hctx2 hnear hlen hpage]
    rfl

end

section
variable {s : State} {g : Nat} {pk : Packet} {rest : List (Nat × Packet)} (h : FirstPacket s g pk rest) {x : Ctx} {dpa : Nat}
  (hctx : smFind s.dev.ctxs pk.ctx = some x) (hpage : translate x (64 * pk.addr) .peer = .ok dpa)
  (hnear : 64 * pk.addr % 4096 + pk.len ≤ 4096)
include h hctx hpage hnear

theorem peerCheck_accessed : peerCheck (accessed s g pk rest) pk = .ok () := by
  obtain ⟨q, hleaf, hstill⟩ := leafKey_of_translate hpage
  refine peerCheck_ok ?_ hnear hleaf (by rw [hstill, Bool.false_and])
  rw [accessed_ctxs h, hctx]

/-- A READ that is let through is answered with the bytes of memory (07 R259). -/
theorem serveRead_accessed (hgood : badIn s.dev.mem dpa pk.len = false) : serveRead (accessed s g pk rest) pk =
    sendOrDrop (accessed s g pk rest) (mkPacket (accessed s g pk rest) pk.src pkReadData pk.ctx pk.tag (64 * pk.addr) pk.len
      (memRead s.dev.mem.dram dpa pk.len)) := by
  have hctx2 : smFind (accessed s g pk rest).ctxs pk.ctx = some x := by rw [accessed_ctxs h, hctx]
  rw [← badIn_accessed h] at hgood
  simp only [serveRead, peerCheck_accessed h hctx hpage hnear, readVirt_near hctx2 hnear hpage hgood, accessed_dram h]

/-- A WRITE that is let through stores its bytes and is acknowledged (07 R259). -/
theorem serveWrite_accessed (hdata : pk.data.length = pk.len) : ∃ m : MemSys,
    m = { (accessed s g pk rest).mem with dram := m.dram, bad := m.bad } ∧ m.dram = memWrite s.dev.mem.dram dpa pk.data ∧
    serveWrite (accessed s g pk rest) pk = sendOrDrop { accessed s g pk rest with mem := m }
      (mkPacket (accessed s g pk rest) pk.src pkWriteAck pk.ctx pk.tag (64 * pk.addr) 0 []) := by
  have hctx2 : smFind (accessed s g pk rest).ctxs pk.ctx = some x := by rw [accessed_ctxs h, hctx]
  have hok := peerCheck_accessed h hctx hpage hnear
  rw [← hdata] at hnear
  obtain ⟨bad, hstored⟩ := writeVirt_near hctx2 hnear hpage
  refine ⟨{ (accessed s g pk rest).mem with dram := memWrite (accessed s g pk rest).mem.dram dpa pk.data, bad := bad }, rfl,
    congrArg (memWrite · dpa pk.data) (accessed_dram h), ?_⟩
  simp only [serveWrite, hok, hstored]

end

/-! ### Answers (10 R401) -/

theorem smFind_smErase {α : Type} (m : SMap α) (k j : Nat) : smFind (smErase m k) j = if j = k then none else smFind m j := by
  split
  · next h => rw [h, smFind_smErase_same]
  · next h => exact smFind_smErase_ne m h

theorem smFind_smUpd {α : Type} {m : SMap α} {k : Nat} {v : α} (hv : smFind m k = some v) (f : α → α) (j : Nat) :
    smFind (smUpd m k f) j = if j = k then some (f v) else smFind m j := by
  split
  · next h => rw [h, smFind_smUpd_same, hv, Option.map_some]
  · next h => exact smFind_smUpd_ne m f h

/-- A transfer for which an answer has come: with the bytes it has brought, where it has brought any. -/
def gotAnswer (tag off : Nat) (data : Option (List Byte)) (x : Xfer) : Xfer :=
  { x with
    tags := x.tags.filter (fun t => t != tag)
    data := match data with | some bs => (patchBytes x.data off bs).take x.len | none => x.data }

section
variable {d : Dev} {tag : Nat} {o : Outst} (ho : smFind d.fabric.outst tag = some o)
include ho

theorem answered_xfer {id off : Nat} (huse : o.use = .xfer id off) (data : Option (List Byte)) : answered d tag data =
    { freeTagOf d tag with xfers := smUpd d.xfers id (gotAnswer tag off data) } := by
  simp only [answered, ho, huse]
  rfl

theorem failRequest_mirror {cid : Nat} (hdead : o.dead = false) (huse : o.use = .mirror cid) (code : Nat) : failRequest d tag code =
    { killTag d tag with cmds := smUpd d.cmds cid (fun c => { c with hostErr := true }) } := by
  simp only [failRequest, ho, hdead, Bool.false_eq_true, if_false, huse]
  rfl

end

section
variable {s : State} {g : Nat} {pk : Packet} {rest : List (Nat × Packet)} {o : Outst} (ho : smFind s.dev.fabric.outst pk.tag = some o)
include ho

theorem smFind_outst_tookPacket : smFind (tookPacket s g pk rest).fabric.outst pk.tag = some o := by rw [tookPacket_outst, ho]

theorem matched_tookPacket (hdead : o.dead = false) (hdst : o.dst = pk.src) : (matched (tookPacket s g pk rest) pk).isSome = true := by
  simp only [matched, smFind_outst_tookPacket ho, hdead, hdst, bne_self_eq_false, Bool.or_self, Bool.false_eq_true, if_false,
    Option.isSome_some]

end

/-- An answer frees the TAG of its request, and its transfer waits for one TAG less (10 R401). -/
theorem completes_answer {s : State} {g : Nat} {pk : Packet} {rest : List (Nat × Packet)} (h : FirstPacket s g pk rest) {o : Outst}
    (ho : smFind s.dev.fabric.outst pk.tag = some o) (hdead : o.dead = false) (hdst : o.dst = pk.src) {id off : Nat} {x : Xfer}
    (huse : o.use = .xfer id off) (hx : smFind s.dev.xfers id = some x) {i : Instr} {k : Nat} (hkind : pk.kind = k)
    {data : Option (List Byte)}
    (hi : exec i s = onDev s (onPacket k pk fun d1 => if (matched d1 pk).isSome then answered d1 pk.tag data else d1)) :
    Completes i s fun t => (∀ j, smFind t.dev.fabric.outst j = if j = pk.tag then none else smFind s.dev.fabric.outst j) ∧
      t = { s with dev := { tookPacket s g pk rest with
        xfers := t.dev.xfers, fabric := { (tookPacket s g pk rest).fabric with outst := t.dev.fabric.outst } } } ∧
      ∀ j, smFind t.dev.xfers j = if j = id then some (gotAnswer pk.tag off data x) else smFind s.dev.xfers j := by
  refine completes_onPacket h hkind hi ?_
  rw [if_pos (matched_tookPacket ho hdead hdst), answered_xfer (smFind_outst_tookPacket ho) huse, tookPacket_xfers]
  refine ⟨fun j => ?_, rfl, smFind_smUpd hx _⟩
  rw [← tookPacket_outst s g pk rest]
  exact smFind_smErase _ _ j

/-- The mirror write of a command has failed in d, which is now d': its request keeps its TAG (10 R401). -/
structure MirrorFailed (tag cid : Nat) (o : Outst) (c : Cmd) (d d' : Dev) : Prop where
  tagKept : ∀ k, smFind d'.fabric.outst k = if k = tag then some { o with dead := true, at_ := d.now } else smFind d.fabric.outst k
  cmdFails : ∀ k, smFind d'.cmds k = if k = cid then some { c with hostErr := true } else smFind d.cmds k
  restSame : d' = { d with cmds := d'.cmds, fabric := { d.fabric with outst := d'.fabric.outst } }

theorem mirrorFailed_failRequest {d : Dev} {tag cid : Nat} {o : Outst} {c : Cmd} (ho : smFind d.fabric.outst tag = some o)
    (hdead : o.dead = false) (huse : o.use = .mirror cid) (hc : smFind d.cmds cid = some c) (code : Nat) :
    MirrorFailed tag cid o c d (failRequest d tag code) := by
  rw [failRequest_mirror ho hdead huse]
  exact ⟨smFind_smUpd ho _, smFind_smUpd hc _, rfl⟩

section
variable {s : State} {tag : Nat} {o : Outst} (ho : smFind s.dev.fabric.outst tag = some o)
include ho

theorem exec_reqTimeout_due (hdue : o.at_ + 400 * fabReqTimeout s.dev ≤ s.dev.now) : exec (.reqTimeoutExpire tag) s =
    .next { s with dev := failRequest s.dev tag 0 } := by
  simp only [exec, execReqTimeoutExpire, onDev_next, ho, hdue, if_true]

theorem exec_reqTimeout_soon (hsoon : s.dev.now < o.at_ + 400 * fabReqTimeout s.dev) : exec (.reqTimeoutExpire tag) s = .next s := by
  simp only [exec, execReqTimeoutExpire, onDev_next, ho, if_neg (Nat.not_le.mpr hsoon)]

end

/-! ### Messages (10 R400) -/

section
variable {d : Dev} {pk : Packet}

theorem gotMsg_ask (hask : field pk.data 0 1 = 4) : gotMsg d pk =
    sendMsg d pk.src pk.ctx pk.tag (natLe 4 5 ++ registry (field pk.data 4 4) (wset d (field pk.data 4 4))) := by
  simp only [gotMsg, hask]

/-- A message that begins with a byte beyond those that are known does nothing. -/
theorem gotMsg_unknown (hbyte : 8 < field pk.data 0 1) : gotMsg d pk = d := by
  unfold gotMsg
  dsimp only
  split
  · omega
  · omega
  · omega
  · omega
  · omega
  · omega
  · omega
  · rfl

end

section
variable {s : State} {g : Nat} {pk : Packet} {rest : List (Nat × Packet)} (h : FirstPacket s g pk rest)
include h

theorem completes_msg {P : State → Prop} (hkind : pk.kind = pkMsg) (hbyte : field pk.data 0 1 ≠ 6)
    (hP : P { s with dev := gotMsg (tookPacket s g pk rest) pk }) : Completes (.msg pk) s P := by
  refine ⟨_, ?_, hP⟩
  rw [exec_msg, onDev_next, if_neg hbyte, onPacket_first h hkind]

end

/-! ### The statement -/

/-- Settles O53. A packet that is taken leaves of the device what `tookPacket_frame` and `accessed_frame` say, and each row then does what it
does to that device: a request is refused, denied or served, an answer is matched by its TAG. The layouts of the messages that begin with 4
and 5, and that a message beginning with an unknown byte does nothing, are the model's choice (log 32). -/
theorem packetsOfRequestsAreServed : Obligations.PacketsOfRequestsAreServed := by
  unfold Obligations.PacketsOfRequestsAreServed
  intro s g pk rest h
  refine ⟨⟨?_, ?_, fun hg => ?_, fun hg => ⟨_, congrArg (nth 0 · pk.vc) (rxFill_bufferOut hg pk), rfl⟩⟩,
    fun x dpa hctx hpage hnear => ⟨fun hkind hgood => ?_, fun hkind hdata => ?_⟩, fun k row hrow hkind => ?_,
    fun o ho hdead hdst => ?_, fun hkind => ⟨fun hask => ?_, fun hbyte => ?_⟩, fun row hrow => exec_otherKind h hrow⟩
  · obtain ⟨caches, hd⟩ := accessed_frame h
    obtain ⟨ports, out, ht⟩ := tookPacket_frame s g pk rest
    rw [hd, ht]
  · obtain ⟨ports, out, ht⟩ := tookPacket_frame s g pk rest
    rw [ht]
  · simp only [tookPacket, bufferOut_own hg, and_self]
  · exact completes_read h hkind (by rw [serveRead_accessed h hctx hpage hnear hgood])
  · obtain ⟨m, hm, hdram, hserve⟩ := serveWrite_accessed h hctx hpage hnear hdata
    refine completes_write h hkind ⟨m, hm, by rw [hserve], fun a => ?_⟩
    rw [hdram, memByte_memWrite, hdata]
  · have refused {c : Nat} := completes_refused h hrow hkind (c := c)
    refine ⟨fun hnone => refused (peerCheck_noCtx ?_), fun x hctx => ?_⟩
    · rw [accessed_ctxs h, hnone]
    · have hctx2 : smFind (accessed s g pk rest).ctxs pk.ctx = some x := by rw [accessed_ctxs h, hctx]
      exact ⟨fun hfar => refused (peerCheck_far hctx2 hfar), fun hnear hleaf => refused (peerCheck_noLeaf hctx2 hnear hleaf),
        fun q hnear hleaf htransit hrx => refused (peerCheck_transit hctx2 hnear hleaf htransit hrx),
        fun q hnear hleaf hrx => completes_denied h hrow hkind hctx hnear hleaf hrx⟩
  · have hmatched := matched_tookPacket (g := g) (rest := rest) ho hdead hdst
    have ho1 := smFind_outst_tookPacket (g := g) (rest := rest) ho
    refine ⟨fun id off x huse hx => ?_, fun cid c huse hc => ?_, fun hsoon => ?_⟩
    · exact ⟨fun hkind => completes_answer h ho hdead hdst huse hx hkind (exec_readData pk s),
        fun hkind => completes_answer h ho hdead hdst huse hx hkind (exec_writeAck pk s)⟩
    · refine ⟨fun hkind => completes_onPacket h hkind (exec_readErr pk s) ?_, fun hdue => ⟨_, exec_reqTimeout_due ho hdue, ?_⟩⟩
      · rw [if_pos hmatched]
        have hc1 : smFind (tookPacket s g pk rest).cmds cid = some c := by rw [tookPacket_cmds, hc]
        obtain ⟨htag, hcmd, hrest⟩ := mirrorFailed_failRequest ho1 hdead huse hc1 (max 1 (field pk.data 0 4))
        rw [tookPacket_now, tookPacket_outst] at htag
        rw [tookPacket_cmds] at hcmd
        exact ⟨⟨htag, hcmd⟩, congrArg (fun d => { s with dev := d }) hrest⟩
      · obtain ⟨htag, hcmd, hrest⟩ := mirrorFailed_failRequest ho hdead huse hc 0
        exact ⟨⟨htag, hcmd⟩, congrArg (fun d => { s with dev := d }) hrest⟩
    · exact exec_reqTimeout_soon ho hsoon
  · refine completes_msg h hkind (by omega) ?_
    rw [gotMsg_ask hask]
    rfl
  · refine completes_msg h hkind (by omega) ?_
    rw [gotMsg_unknown hbyte]

end Sys2Proof.Machine
end

section
/-! PROOF. KV.FORK in CLONE mode where the part has no room for another sequence (08 R312, R322; log 26), and a state in which raising the
count of a shared page makes it so. -/

namespace Sys2Proof.Machine

/-! ### What an update of an entry out of order does to the sequences that are live -/

/-- The sequences of a context that are live. -/
def liveIn (x : Ctx) : Nat := (x.pools.map (fun p => (p.2.seq.filter (fun s => s.2.live)).length)).sum

theorem liveSeqs_eq (d : Dev) : liveSeqs d = (d.ctxs.map (fun c => liveIn c.2)).sum := rfl

/-- An update of a key that stands behind a greater one puts its result in front and leaves the old entry behind. -/
theorem smUpd_of_behind {α : Type} {m : SMap α} {j k : Nat} {u v : α} (f : α → α) (hk : k < j) (hv : smFind m k = some v) :
    smUpd ((j, u) :: m) k f = (k, f v) :: (j, u) :: m := by
  simp [smUpd, smFind, smPut, hv, hk, hk.ne]

/-- So a change of a pool of such a context counts the context's sequences again. -/
theorem liveSeqs_modPool_of_behind {d : Dev} {ctx k : Nat} {x y : Ctx} {m : SMap Ctx} (n : Nat) (f : KvPool → KvPool)
    (hctxs : d.ctxs = (k, y) :: m) (hk : ctx < k) (hx : smFind m ctx = some x) :
    liveSeqs (modPool d ctx n f) = liveIn { x with pools := smUpd x.pools n f } + liveSeqs d := by
  have hput : (modPool d ctx n f).ctxs = (ctx, { x with pools := smUpd x.pools n f }) :: d.ctxs := by
    simp only [modPool, modCtx, hctxs, smUpd_of_behind _ hk hx]
  simp only [liveSeqs_eq, hput, List.map_cons, List.sum_cons]

/-! ### CLONE on a part that is full -/

section
variable {d : Dev} {c : Cmd} {ctx n slot len : Nat} {q : KvSeq} {p : KvPool}

/-- Each of the pages has one more holder. -/
def holdersAdded (d : Dev) (ctx n : Nat) (pages : List Nat) : Dev :=
  pages.foldl (fun d pg => modPool d ctx n (fun p => setPage p pg { kvPage p pg with count := (kvPage p pg).count + 1 })) d

theorem newSeq_full (ctx n : Nat) (q : KvSeq) (hfull : 131072 ≤ liveSeqs d) : newSeq d ctx n q = none := by
  unfold newSeq
  split
  · simp [hfull]
  · rfl

theorem cloneSeq_full (hpool : poolOf d ctx n = some p) (hlen : len % 32 = 0)
    (hfull : 131072 ≤ liveSeqs (holdersAdded d ctx n (q.pages.take (ceilDiv len (kvTpp p))))) : cloneSeq d ctx n slot q len = none := by
  have hnone := newSeq_full ctx n
    { version := q.version, len := [len], commit := len, pages := q.pages.take (ceilDiv len (kvTpp p)), closed := len / 32 } hfull
  simp only [holdersAdded] at hnone
  simp [cloneSeq, hpool, hlen, hnone]

theorem effectClone_full (cid : Nat) (hpool : poolOf d ctx n = some p) (hlen : len % 32 = 0)
    (hfull : 131072 ≤ liveSeqs (holdersAdded d ctx n (q.pages.take (ceilDiv len (kvTpp p))))) :
    effectClone d cid ctx n slot q len = endOpen d cid := by
  simp [effectClone, hlen, cloneSeq_full hpool hlen hfull]

theorem stepKvFork_clone (cid : Nat) (hmode : fkMode c = 1) (hfree : attached d (cmdContext c) (fkSeq c) = false)
    (hchk : chkKvFork d c = .ok ()) (hseq : seqIn d (cmdContext c) (fkPool c) (fkSeq c) = some (slot, q)) :
    stepKvFork d cid c = some (effectClone d cid (cmdContext c) (fkPool c) slot q (fkLength c)) := by
  simp [stepKvFork, effectFork, hmode, hfree, hchk, hseq]

/-- A CLONE of whole blocks ends ADMISSION_REFUSED when no sequence may be added once its pages are shared. -/
theorem kvFork_clone_full {s : State} {cid : Nat} (hruns : Runs s 0x0802 cid c) (hmode : fkMode c = 1)
    (hfree : attached s.dev (cmdContext c) (fkSeq c) = false) (hchk : chkKvFork (began s cid) c = .ok ())
    (hseq : seqIn s.dev (cmdContext c) (fkPool c) (fkSeq c) = some (slot, q)) (hpool : poolOf s.dev (cmdContext c) (fkPool c) = some p)
    (hlen : fkLength c % 32 = 0)
    (hfull : 131072 ≤ liveSeqs (holdersAdded (began s cid) (cmdContext c) (fkPool c) (q.pages.take (ceilDiv (fkLength c) (kvTpp p))))) :
    Completes (.kvFork cid) s (fun t => ∃ detail result, finOf t cid = some (0x0020#16, detail, result)) := by
  have hbody := (stepKvFork_clone (d := began s cid) cid hmode hfree hchk hseq).trans
    (congrArg some (effectClone_full (slot := slot) cid hpool hlen hfull))
  refine (completes_finish_kept rfl hruns hbody rfl).imp ?_
  rintro t ⟨-, -, hfin, -⟩
  exact ⟨_, _, hfin⟩

end

/-! ### The counterexample -/

/-- The entry of a KV layout of 64 dimensions with one layer and one head. -/
def forkLayout : List Byte := natLe 1 1 ++ natLe 1 6 ++ natLe 2 1 ++ natLe 1 1 ++ natLe 3 0 ++ natLe 4 1 ++ natLe 4 0 ++ natLe 4 1 ++ natLe 12 0

/-- A pool of that layout with four pages and the sequences sq in as many slots as a part has sequences. -/
def forkPool (sq : SMap KvSeq) (pg : SMap KvPage) : KvPool := {
  layout := forkLayout, va := 2 ^ 20, pages := 4, seqs := 131072, nodes := 4, cup := 0, page := pg, seq := sq, node := [], nextNode := 0,
  step := 0, remap := [], toks := [] }

/-- A context with one KV pool. -/
def forkCtx (p : KvPool) : Ctx := {
  state := .resident, part := 0, subn := false, engFirst := 0, engCount := 2, basket := 4, tiles := 8, ttiles := 0, weight := 1,
  istore := 4, seed := 0, base := [0, 0], saveFrames := [], progs := [], ptes := [], pools := [(0, p)], serve := {}, pins := [],
  stopped := false, stopLaunch := none, destroying := false, destroyCid := none, moveCid := none, image := none, cupBack := [],
  blockedAt := 0, wantAt := none, engTime := [], eest := [], everResident := true, rinseWait := [] }

/-- KV.FORK in CLONE mode of 32 positions of sequence 0 of pool 0, in context 1; it runs. -/
def cloneCommand : Cmd := {
  queue := 1, hdr := natLe 2 0x0802 ++ natLe 2 0 ++ natLe 4 7 ++ natLe 1 1 ++ natLe 1 1 ++ natLe 6 0 ++ natLe 4 1 ++ natLe 4 0 ++ natLe 4 32 ++
    natLe 36 0,
  payload := [], arrival := 0, phase := .running, entry := [], tstate := 0, guarantee := none, throttled := false, bmeStall := false,
  progress := 0, fin := none }

/-- A sequence of 32 positions, in page 0 of its pool. -/
def clonedSeq : KvSeq := { live := true, len := [32], heads := [0], commit := 32, pages := [0], closed := 1 }

/-- The pool of context 1 with that sequence alone. -/
def clonePool : KvPool := forkPool [(0, clonedSeq)] [(0, { count := 1, fill := 32 })]

/-- The pool of context 2 with 131,070 sequences. -/
def crowdPool : KvPool := forkPool ((span 0 131070).map (fun k => (k, { live := true, len := [0], heads := [0] }))) []

/-- A part with these two contexts, context 2 before context 1, on which the clone runs. -/
def cloneState : State := { dev := {
  boot := { ready := true }, pwr := { rails := true }, cmds := [(0, cloneCommand)], ctxs := [(2, forkCtx crowdPool), (1, forkCtx clonePool)] } }

theorem liveIn_clone : liveIn (forkCtx clonePool) = 1 := rfl

theorem liveIn_crowd : liveIn (forkCtx crowdPool) = 131070 := by
  simp [liveIn, forkCtx, crowdPool, forkPool, span, List.filter_map, Function.comp_def]

/-- One more sequence could be added to the part. -/
theorem liveSeqs_cloneState : liveSeqs cloneState.dev = 131071 := by
  simp [liveSeqs_eq, cloneState, liveIn_clone, liveIn_crowd]

/-- Once page 0 has its new holder, context 1 stands in the list twice, and its sequence counts twice. -/
theorem liveSeqs_holdersAdded_cloneState : liveSeqs (holdersAdded (began cloneState 0) 1 0 [0]) = 131072 := by
  have hbegan : liveSeqs (began cloneState 0) = 131071 := liveSeqs_cloneState
  have hcopy (f : KvPool → KvPool) : smUpd (forkCtx clonePool).pools 0 f = [(0, f clonePool)] := rfl
  rw [holdersAdded, List.foldl_cons, List.foldl_nil,
    liveSeqs_modPool_of_behind (k := 2) (y := forkCtx crowdPool) (x := forkCtx clonePool) 0 _ rfl (by decide) rfl, hbegan, hcopy]
  rfl

/-- Refutes O57: the statement asks nothing of the order of the map of contexts. CLONE raises the counts of the pages that it shares before it
asks for a slot; where context 1 stands behind context 2 in the map, that update adds a second entry for context 1, the live sequences of the
part go from 131,071 to 131,072, and the clone is refused though a slot was open. -/
theorem not_kvCommandsKeepTheSequences : ¬ Obligations.KvCommandsKeepTheSequences := by
  unfold Obligations.KvCommandsKeepTheSequences
  intro h
  have hruns : Runs cloneState 0x0802 0 cloneCommand := ⟨rfl, by decide, rfl, .inl rfl⟩
  have hchk : chkKvFork (began cloneState 0) cloneCommand = .ok () := by decide +kernel
  have hseq : seqIn cloneState.dev 1 0 0 = some (0, clonedSeq) := by decide +kernel
  have hopen : ∃ k, k < clonePool.seqs ∧ ∀ v, smFind clonePool.seq k = some v → v.live = false :=
    ⟨1, by decide, fun v hv => by cases hv⟩
  obtain ⟨-, -, -, hclone, -⟩ := h cloneState 0 cloneCommand
  have hwhole := (hclone 0 clonedSeq clonePool hruns (by decide) rfl hchk hseq rfl
    ⟨by rw [liveSeqs_cloneState]; decide, hopen⟩).1 (by decide)
  obtain ⟨t, hexec, handle, -, hok, -⟩ := hwhole
  obtain ⟨u, hexec', detail, result, hrefused⟩ := kvFork_clone_full hruns (by decide) rfl hchk hseq rfl (by decide)
    liveSeqs_holdersAdded_cloneState.ge
  cases hexec.symm.trans hexec'
  rw [hok] at hrefused
  cases hrefused

end Sys2Proof.Machine
end

section
/-! PROOF. What the operations that serving shares leave as it is: the request records, the commands in flight and the hub clock, and the
contexts that there are (02 R54; 08 R323, R330; 09 R346, R362, R378). -/

namespace Sys2Proof.Machine

/-! ### The records, the commands in flight and the hub clock -/

/-- The request records, the commands in flight and the hub clock. -/
def recordsOf (d : Dev) : SMap Req × SMap Cmd × Nat := (d.reqs, d.cmds, d.now)

theorem reqs_of_recordsOf {d e : Dev} (h : recordsOf d = recordsOf e) : d.reqs = e.reqs := congrArg Prod.fst h

theorem cmds_of_recordsOf {d e : Dev} (h : recordsOf d = recordsOf e) : d.cmds = e.cmds := congrArg (fun v => v.2.1) h

theorem now_of_recordsOf {d e : Dev} (h : recordsOf d = recordsOf e) : d.now = e.now := congrArg (fun v => v.2.2) h

theorem getReq_of_recordsOf {d e : Dev} (h : recordsOf d = recordsOf e) (k : Nat) : getReq d k = getReq e k := by
  rw [getReq, getReq, reqs_of_recordsOf h]

theorem recordsOf_foldl {β : Type} {f : Dev → β → Dev} (h : ∀ d x, recordsOf (f d x) = recordsOf d) (l : List β) (d : Dev) :
    recordsOf (l.foldl f d) = recordsOf d := foldl_keep recordsOf f h l d

@[simp] theorem recordsOf_modServe (d : Dev) (ctx : Nat) (f : Serve → Serve) : recordsOf (modServe d ctx f) = recordsOf d := rfl

@[simp] theorem recordsOf_modPool (d : Dev) (ctx n : Nat) (f : KvPool → KvPool) : recordsOf (modPool d ctx n f) = recordsOf d := rfl

/-! ### Memory -/

/-- A write of a context's memory changes the memory alone. -/
theorem poke_frame (d : Dev) (ctx va : Nat) (bs : List Byte) : ∃ mem, poke d ctx va bs = { d with mem := mem } := by
  unfold poke writeVirt
  cases smFind d.ctxs ctx with
  | none => exact ⟨d.mem, rfl⟩
  | some x =>
    dsimp only
    cases checkPieces x .any (pieces va bs.length) with
    | error e => exact ⟨d.mem, rfl⟩
    | ok u => exact ⟨_, rfl⟩

@[simp] theorem recordsOf_poke (d : Dev) (ctx va : Nat) (bs : List Byte) : recordsOf (poke d ctx va bs) = recordsOf d := by
  obtain ⟨mem, h⟩ := poke_frame d ctx va bs
  rw [h]
  rfl

theorem recordsOf_takeRun {d d' : Dev} {p : Place} {k f : Nat} (h : takeRun d p k = some (f, d')) : recordsOf d' = recordsOf d := by
  unfold takeRun at h
  split at h
  · cases h
    exact recordsOf_foldl (f := takeFrame) (fun _ _ => rfl) _ _
  · cases h

@[simp] theorem recordsOf_recallPage (d : Dev) (ctx page : Nat) (p : Pte) (cid : Option Nat) (line : List (Nat × Nat × Nat)) :
    recordsOf (recallPage d ctx page p cid line) = recordsOf d := by
  unfold recallPage
  split
  · rfl
  · split
    · rfl
    · split <;> rfl

/-! ### KV sequences -/

@[simp] theorem recordsOf_unslow (ctx n : Nat) (d : Dev) : recordsOf (unslow ctx n d) = recordsOf d := by
  unfold unslow
  split
  · refine recordsOf_foldl (fun d q => ?_) _ d
    split
    · rfl
    next hrun =>
      have htaken := recordsOf_takeRun hrun
      exact htaken
  · rfl

@[simp] theorem recordsOf_freeSeq (d : Dev) (ctx n slot : Nat) : recordsOf (freeSeq d ctx n slot) = recordsOf d := by
  unfold freeSeq
  split
  · rfl
  · simp only [recordsOf_modPool]
    split
    · rw [recordsOf_foldl (fun d lh => recordsOf_poke d ctx _ _), recordsOf_foldl (fun d pg => recordsOf_modPool d ctx n _)]
    · exact recordsOf_foldl (fun d pg => recordsOf_modPool d ctx n _) _ d

@[simp] theorem recordsOf_freeHandle (d : Dev) (ctx : Nat) (h : Word) : recordsOf (freeHandle d ctx h) = recordsOf d := by
  unfold freeHandle
  split
  · rw [recordsOf_unslow, recordsOf_freeSeq]
  · rfl

@[simp] theorem recordsOf_noteToks (d : Dev) (ctx n slot pos : Nat) (ids : List Word) : recordsOf (noteToks d ctx n slot pos ids) = recordsOf d := rfl

/-! ### Messages and records to the host -/

/-- A packet that is sent changes the fabric alone; one that has no way out changes nothing. -/
theorem sendOrDrop_frame (d : Dev) (p : Packet) : ∃ fabric, sendOrDrop d p = { d with fabric := fabric } := by
  unfold sendOrDrop sendPacket
  by_cases hown : p.dst = myId d
  · rw [if_pos hown]
    exact ⟨_, rfl⟩
  · rw [if_neg hown]
    cases routeTo d p.dst with
    | none => exact ⟨d.fabric, rfl⟩
    | some r => exact ⟨_, rfl⟩

theorem sendMsg_frame (d : Dev) (dst ctx tag : Nat) (data : List Byte) : ∃ fabric, sendMsg d dst ctx tag data = { d with fabric := fabric } :=
  sendOrDrop_frame ..

@[simp] theorem recordsOf_sendMsg (d : Dev) (dst ctx tag : Nat) (data : List Byte) : recordsOf (sendMsg d dst ctx tag data) = recordsOf d := by
  obtain ⟨fabric, h⟩ := sendMsg_frame d dst ctx tag data
  rw [h]
  rfl

@[simp] theorem recordsOf_tellMembers (d : Dev) (r : Req) (h : Word) (what : KvNews) (parent : Word) (len reserved : Nat) :
    recordsOf (tellMembers d r h what parent len reserved) = recordsOf d := by
  unfold tellMembers
  split
  · rfl
  · split
    · rfl
    · exact recordsOf_foldl (fun d m => recordsOf_sendMsg d m r.ctx 0 _) _ d

@[simp] theorem recordsOf_dropHandle (d : Dev) (r : Req) (h : Word) : recordsOf (dropHandle d r h) = recordsOf d := by
  rw [dropHandle, recordsOf_freeHandle, recordsOf_tellMembers]

/-- A record that is no command's final record changes the queues, what has left the part and the interrupts that are pending. -/
theorem recordsOf_readyRec (d : Dev) (q : Nat) {r : QRec} (h : r.cid = none) : recordsOf (readyRec d q r) = recordsOf d := by
  unfold readyRec
  dsimp only
  split
  · rfl
  · split
    · obtain ⟨queues, out, pba, hframe⟩ := issued_frame d q r
      rw [produce_of_no_command d q h, hframe]
      rfl
    · rfl

@[simp] theorem recordsOf_progress (d : Dev) (cid kind : Nat) (result : List (Nat × Nat × Nat)) :
    recordsOf (progress d cid kind result) = recordsOf d := by
  unfold progress
  split
  · rfl
  · split
    · exact recordsOf_readyRec d _ rfl
    · rfl

@[simp] theorem recordsOf_tokenRecords (cid fuel : Nat) (d : Dev) (toks : List Word) (index : Nat) :
    recordsOf (tokenRecords cid d toks index fuel) = recordsOf d := by
  induction fuel generalizing d toks index with
  | zero => rfl
  | succ fuel ih =>
    rw [tokenRecords]
    split
    · rfl
    · rw [ih, recordsOf_progress]

/-! ### Models in memory -/

@[simp] theorem recordsOf_demoteModel (ctx : Nat) (d : Dev) (e : List Byte) : recordsOf (demoteModel ctx d e) = recordsOf d := by
  unfold demoteModel
  split
  · rfl
  · refine recordsOf_foldl (fun d q => ?_) _ d
    split <;> rfl

@[simp] theorem recordsOf_keepPage (ctx : Nat) (d : Dev) (page : Nat) : recordsOf (keepPage ctx d page) = recordsOf d := by
  unfold keepPage
  split
  · split <;> rfl
  · rfl

@[simp] theorem recordsOf_recallModel (ctx : Nat) (d : Dev) (e : List Byte) : recordsOf (recallModel ctx d e) = recordsOf d := by
  unfold recallModel
  dsimp only
  rw [recordsOf_foldl (fun d q => recordsOf_recallPage d ctx _ _ _ _)]
  split
  · exact recordsOf_foldl (recordsOf_keepPage ctx) _ d
  · rfl

/-! ### The contexts that there are -/

theorem SameKeys.refl {α : Type} (m : SMap α) : SameKeys m m := fun _ => rfl

theorem SameKeys.trans {α : Type} {l m n : SMap α} (h : SameKeys l m) (h' : SameKeys m n) : SameKeys l n := fun k => (h' k).trans (h k)

/-- An entry of a map stands under its key in every map with the same keys. -/
theorem SameKeys.some {α : Type} {m n : SMap α} (h : SameKeys m n) {k : Nat} {v : α} (hv : smFind m k = some v) : ∃ w, smFind n k = some w :=
  Option.isSome_iff_exists.mp (by rw [h k, hv]; rfl)

theorem sameKeys_modCtx (d : Dev) (ctx : Nat) (f : Ctx → Ctx) : SameKeys d.ctxs (modCtx d ctx f).ctxs := fun _ => isSome_smUpd ..

theorem sameKeys_modPool (d : Dev) (ctx n : Nat) (f : KvPool → KvPool) : SameKeys d.ctxs (modPool d ctx n f).ctxs :=
  sameKeys_modCtx d ctx _

theorem sameKeys_foldl {β : Type} {f : Dev → β → Dev} (h : ∀ d x, SameKeys d.ctxs (f d x).ctxs) (l : List β) (d : Dev) :
    SameKeys d.ctxs (l.foldl f d).ctxs :=
  List.foldlRecOn (motive := fun e : Dev => SameKeys d.ctxs e.ctxs) l f (SameKeys.refl _) fun e he x _ => he.trans (h e x)

@[simp] theorem poke_ctxs (d : Dev) (ctx va : Nat) (bs : List Byte) : (poke d ctx va bs).ctxs = d.ctxs := by
  obtain ⟨mem, h⟩ := poke_frame d ctx va bs
  rw [h]

theorem sameKeys_roomWithin (d : Dev) (ctx n need : Nat) : SameKeys d.ctxs (roomWithin d ctx n need).2.ctxs := by
  unfold roomWithin
  split
  · exact SameKeys.refl _
  · exact sameKeys_modPool d ctx n _

theorem sameKeys_takeKvPage {d d' : Dev} {ctx n k : Nat} (h : takeKvPage d ctx n = some (k, d')) : SameKeys d.ctxs d'.ctxs := by
  unfold takeKvPage at h
  split at h
  · cases h
  · obtain ⟨pg, -, hpg⟩ := Option.map_eq_some_iff.mp h
    cases hpg
    exact sameKeys_modPool d ctx n _

theorem sameKeys_copyPageBytes (d : Dev) (ctx n a b upto : Nat) : SameKeys d.ctxs (copyPageBytes d ctx n a b upto).ctxs := by
  unfold copyPageBytes
  split
  · exact SameKeys.refl _
  · refine (sameKeys_modPool d ctx n _).trans (sameKeys_foldl (fun d lh => ?_) _ _)
    dsimp only
    split <;> simp only [poke_ctxs] <;> exact SameKeys.refl _

theorem sameKeys_pinKv (d : Dev) (ctx n : Nat) (pins : List Nat) : SameKeys d.ctxs (pinKv d ctx n pins).ctxs :=
  sameKeys_modPool d ctx n _

theorem sameKeys_queueLaunch (d : Dev) (z : Launch) : SameKeys d.ctxs (queueLaunch d z).2.ctxs := sameKeys_modCtx { d with
  launches := smPut d.launches d.nextLaunch z, nextLaunch := d.nextLaunch + 1 } z.ctx _

@[simp] theorem sendTable_ctxs (d : Dev) (ctx : Nat) (st : BStep) (dst : Nat) (bs : List Byte) : (sendTable d ctx st dst bs).ctxs = d.ctxs := by
  refine foldl_keep Dev.ctxs _ (fun d k => ?_) _ d
  obtain ⟨fabric, h⟩ := sendMsg_frame d dst ctx 0 (natLe 4 6 ++ natLe 4 st.num ++ natLe 4 st.version.toNat ++ natLe 4 st.model
    ++ natLe 8 st.tableVa ++ natLe 4 bs.length ++ natLe 4 (2048 * k) ++ (bs.drop (2048 * k)).take 2048)
  rw [h]

end Sys2Proof.Machine
end

section
/-! PROOF. The end of a request, REQ.CANCEL, REQ.QUERY and the expiry of a deferral (09 R344, R345, R354, R363, R364, R373, R374, R383, R384). -/

namespace Sys2Proof.Machine

/-! ### The record of a request that has ended -/

/-- The record of a request whose final record has been placed. -/
def closedReq (d : Dev) (r : Req) : Req :=
  { r with state := .done, ended := false, status := r.endStatus, doneAt := 1 + (d.reqs.map (fun p => p.2.doneAt)).foldl max 0 }

/-- A request in a record is DONE; its rollout's entry is all that is written besides. -/
theorem recordsOf_closeReq {d : Dev} {slot : Nat} (hslot : slot < 131072) :
    recordsOf (closeReq d slot) = recordsOf (modReq d slot (closedReq d)) := by
  unfold closeReq
  rw [if_neg (Nat.not_le.mpr hslot)]
  dsimp only
  split
  · rfl
  · simp only [recordsOf_poke]
    rfl

/-- What follows when a request has ended: the final record of its command is prepared, or with no command the request is DONE at once. -/
def reqEnded (d : Dev) (slot : Nat) (cid : Option Nat) (status detail : Nat) (result : List (Nat × Nat × Nat)) : Dev :=
  match cid with
  | none => closeReq d slot
  | some c => finishCmd d c status detail result none

/-- The record of request r as it ends, its final record still to be placed. -/
structure EndsAs (r : Req) (status : BitVec 16) (stop : Nat) (r1 : Req) : Prop where
  ended : r1.ended = true
  status : r1.endStatus = status
  stop : r1.stop = stop
  state : r1.state = r.state
  toks : r1.outToks = r.outToks

section
variable {d : Dev} {slot : Nat} (hslot : slot < 131072) (status detail : Nat) (result : List (Nat × Nat × Nat))
include hslot

theorem smFind_reqs_reqEnded_ne (cid : Option Nat) {k : Nat} (hk : k ≠ slot) :
    smFind (reqEnded d slot cid status detail result).reqs k = smFind d.reqs k := by
  cases cid with
  | some c => rfl
  | none => exact (congrArg (smFind · k) (reqs_of_recordsOf (recordsOf_closeReq hslot))).trans (smFind_smPut_ne _ _ hk)

/-- A request that has ended stays in its record: with its status to come, or DONE (R345). -/
theorem smFind_reqs_reqEnded {r r1 : Req} {st : BitVec 16} {stop : Nat} (hr1 : smFind d.reqs slot = some r1) (hends : EndsAs r st stop r1) :
    ∃ q, smFind (reqEnded d slot r.cid status detail result).reqs slot = some q ∧ q.stop = stop ∧ q.outToks = r.outToks ∧
      (r.cid = none → q.state = .done ∧ q.status = st) ∧ (r.cid ≠ none → q.ended = true ∧ q.state = r.state ∧ q.endStatus = st) := by
  cases hcid : r.cid with
  | some c =>
    exact ⟨r1, hr1, hends.stop, hends.toks, fun h => (Option.some_ne_none c h).elim, fun _ => ⟨hends.ended, hends.state, hends.status⟩⟩
  | none =>
    have hget : getReq d slot = r1 := by rw [getReq, smGet, hr1, Option.getD_some]
    have hfind : smFind (closeReq d slot).reqs slot = some (closedReq d r1) := by
      rw [reqs_of_recordsOf (recordsOf_closeReq hslot), modReq_reqs, smFind_smPut_same, hget]
    exact ⟨closedReq d r1, hfind, hends.stop, hends.toks, fun _ => ⟨rfl, hends.status⟩, fun h => (h rfl).elim⟩

/-- The commands in flight that are not the request's are as they were. -/
theorem smFind_cmds_reqEnded_ne {cid : Option Nat} {k : Nat} (hk : cid ≠ some k) :
    smFind (reqEnded d slot cid status detail result).cmds k = smFind d.cmds k := by
  cases cid with
  | none => rw [reqEnded, cmds_of_recordsOf (recordsOf_closeReq hslot), modReq_cmds]
  | some c => exact finishCmd_other d c status detail result none fun h => hk (congrArg some h.symm)

end

/-! ### REQ.CANCEL's and the admission's ends -/

/-- The request as it leaves the batch (R354, R365, R374). -/
def leavingReq (status stop : Nat) (r : Req) : Req := { r with ended := true, endStatus := BitVec.ofNat 16 status, stop := stop, cancel := false }

theorem endsAs_leavingReq (r : Req) (status stop : Nat) : EndsAs r (BitVec.ofNat 16 status) stop (leavingReq status stop r) :=
  ⟨rfl, rfl, rfl, rfl, rfl⟩

/-- A request that ends leaves the batch with its sequences; then it has ended. -/
theorem endReq_eq (d : Dev) (slot status detail stop : Nat) : ∃ x result, endReq d slot status detail stop =
    reqEnded x slot (getReq d slot).cid status detail result ∧ recordsOf x = recordsOf (modReq d slot (leavingReq status stop)) := by
  refine ⟨_, _, rfl, ?_⟩
  rw [recordsOf_dropHandle]
  split
  · exact recordsOf_dropHandle ..
  · rfl

/-- The request as the admission tests refuse it (R345, R363). -/
def refusedReq (r : Req) : Req := { r with ended := true, endStatus := BitVec.ofNat 16 stAdmissionRefused, stop := 4 }

theorem endsAs_refusedReq (r : Req) : EndsAs r (BitVec.ofNat 16 stAdmissionRefused) 4 (refusedReq r) := ⟨rfl, rfl, rfl, rfl, rfl⟩

theorem refuseReq_eq (d : Dev) (slot detail : Nat) : ∃ x result, refuseReq d slot stAdmissionRefused detail =
    reqEnded x slot (getReq d slot).cid stAdmissionRefused detail result ∧ recordsOf x = recordsOf (modReq d slot refusedReq) := by
  refine ⟨tallyCount (modReq d slot refusedReq) 0x22 (getReq d slot).ctx 1 srcJenorneb,
    admissible d slot (parentOfReq d (getReq d slot)) (getReq d slot), ?_, rfl⟩
  simp only [refuseReq, if_true, reqEnded]
  cases (getReq d slot).cid <;> rfl

/-- A command that has no final record has the one that it is given. -/
theorem finOf_finishCmd {s : State} {d : Dev} {cid : Nat} {v : Cmd} (status detail : Nat) (result : List (Nat × Nat × Nat))
    (slotOut : Option (List Byte)) (hv : smFind d.cmds cid = some v) (hfin : v.fin = none) :
    finOf { s with dev := finishCmd d cid status detail result slotOut } cid =
      some (BitVec.ofNat 16 status, BitVec.ofNat 16 detail, resultOf result) := by
  rw [finOf, finishCmd_find d cid status detail result slotOut hv hfin]
  rfl

theorem finOf_modCmd_ne (s : State) (d : Dev) {cid k : Nat} (f : Cmd → Cmd) (h : k ≠ cid) :
    finOf { s with dev := modCmd d cid f } k = finOf { s with dev := d } k := by
  rw [finOf, finOf, modCmd_cmds, smFind_smUpd_ne _ _ h]

theorem finOf_modCmd_waitState (s : State) (d : Dev) (cid : Nat) :
    finOf { s with dev := modCmd d cid waitState } cid = finOf { s with dev := d } cid := by
  rw [finOf, finOf, bind_fin_waitState]

/-! ### REQ.CANCEL -/

section
variable {s : State} {cid : Nat} {c : Cmd} (hruns : Runs s 0x0702 cid c) (hinfo : c.info = []) (hchk : chkReqCancel (began s cid) c = .ok ())
  {slot : Nat} {r : Req} (hnamed : namedReq s.dev c = some (slot, r))
include hinfo hchk hnamed

/-- What REQ.CANCEL does once its checks hold (R373, R374). -/
theorem stepReqCancel_ok : stepReqCancel (began s cid) cid c =
    if r.state = .done ∨ r.ended = true then some (finishCmd (began s cid) cid stAlreadyComplete 0 [] none)
    else if inStep (began s cid) slot r then
      some (modCmd (modReq (began s cid) slot (fun r => { r with cancel := true })) cid (fun c => { c with info := [slot] }))
    else some (finishCmd (endReq (began s cid) slot stCancelled 0 3) cid stOk 0 [] none) := by
  have hnamed' : namedReq (began s cid) c = some (slot, r) := hnamed
  simp only [stepReqCancel, hinfo, hchk, hnamed']

include hruns

theorem reqCancel_complete (hdone : r.state = .done ∨ r.ended = true) :
    Completes (.reqCancel cid) s fun t => OnlyCmd cid s t ∧ finOf t cid = some (0x0002#16, 0#16, 0#160) := by
  refine (completes_finish_only rfl hruns ((stepReqCancel_ok hinfo hchk hnamed).trans (if_pos hdone))).imp ?_
  rintro t ⟨honly, hfin, -⟩
  exact ⟨honly, hfin⟩

variable (hstate : r.state ≠ .done) (hopen : r.ended = false) (hget : getReq s.dev slot = r)
include hstate hopen hget

/-- A request in the step in flight is marked: it ends at the commit of the step (R374). -/
theorem reqCancel_marks (hin : inStep s.dev slot r = true) : Completes (.reqCancel cid) s fun t =>
    t = { s with dev := { s.dev with cmds := t.dev.cmds, reqs := t.dev.reqs } } ∧ finOf t cid = none ∧
      ∀ k, smFind t.dev.reqs k = if k = slot then some { r with cancel := true } else smFind s.dev.reqs k := by
  have hnot : ¬ (r.state = .done ∨ r.ended = true) := by simp [hstate, hopen]
  have hbody := ((stepReqCancel_ok hinfo hchk hnamed).trans (if_neg hnot)).trans (if_pos hin)
  refine ⟨_, onDev_runCmd hruns hbody, rfl, ?_, fun k => ?_⟩
  · refine finOf_waitState s _ cid ?_
    exact (bind_fin_modCmd _ cid (f := fun c => { c with info := [slot] }) fun _ => rfl).trans (bind_fin_began hruns)
  · rw [← hget]
    exact smFind_smPut s.dev.reqs slot k _

/-- A request out of the step in flight ends at once, and with it its own command (R374). -/
theorem reqCancel_ends (hout : inStep s.dev slot r = false) (hown : r.cid ≠ some cid) (hslot : slot < 131072) :
    Completes (.reqCancel cid) s fun t => finOf t cid = some (0#16, 0#16, 0#160) ∧
      (∃ q, smFind t.dev.reqs slot = some q ∧ q.stop = 3 ∧ q.outToks = r.outToks ∧ (r.cid = none → q.state = .done ∧ q.status = 0x0003#16) ∧
        (r.cid ≠ none → q.ended = true ∧ q.state = r.state ∧ q.endStatus = 0x0003#16)) ∧
      (∀ k, k ≠ slot → smFind t.dev.reqs k = smFind s.dev.reqs k) ∧
      ∀ k v, r.cid = some k → smFind s.dev.cmds k = some v → v.fin = none → (finOf t k).map (·.1) = some 0x0003#16 := by
  have hnot : ¬ (r.state = .done ∨ r.ended = true) := by simp [hstate, hopen]
  have hbody := ((stepReqCancel_ok hinfo hchk hnamed).trans (if_neg hnot)).trans (if_neg (Bool.eq_false_iff.mp hout))
  obtain ⟨x, result, hend, hx⟩ := endReq_eq (began s cid) slot stCancelled 0 3
  have hget' : getReq (began s cid) slot = r := hget
  rw [hget'] at hend
  have hreqs : x.reqs = smPut s.dev.reqs slot (leavingReq stCancelled 3 r) := by rw [reqs_of_recordsOf hx, modReq_reqs, hget']; rfl
  have hcmds : x.cmds = (began s cid).cmds := (cmds_of_recordsOf hx).trans rfl
  rw [hend] at hbody
  refine ⟨_, onDev_runCmd hruns hbody, ?_, ?_, fun k hk => ?_, fun k v hcid hv hfin => ?_⟩
  · rw [finOf_modCmd_waitState]
    refine finOf_finishCmd _ _ _ _ (v := { c with phase := .running }) ?_ (fin_of_runs (c := c) hruns)
    rw [smFind_cmds_reqEnded_ne hslot _ _ _ hown, hcmds, smFind_began_same hruns]
  · exact smFind_reqs_reqEnded hslot _ _ _ (by rw [hreqs, smFind_smPut_same]) (endsAs_leavingReq r stCancelled 3)
  · exact (smFind_reqs_reqEnded_ne hslot _ _ _ _ hk).trans (by rw [hreqs, smFind_smPut_ne _ _ hk])
  · have hk : k ≠ cid := fun h => hown (h ▸ hcid)
    rw [finOf_modCmd_ne _ _ _ hk, finOf, finishCmd_other _ _ _ _ _ _ hk, hcid]
    have hv' : smFind x.cmds k = some v := by rw [hcmds, smFind_began_ne s hk, hv]
    exact congrArg (Option.map (·.1)) (finOf_finishCmd (s := s) stCancelled 0 result none hv' hfin)

end

/-! ### REQ.QUERY -/

/-- A record in the table is FREE once it is released, and its generation stays (R346, R384). -/
theorem releaseReq_records (d : Dev) (slot : Nat) : (releaseReq d slot).cmds = d.cmds ∧
    (slot < 131072 → smFind (releaseReq d slot).reqs slot = some { gen := (getReq d slot).gen }) := by
  unfold releaseReq
  dsimp only
  generalize hd1 : (if (getReq d slot).rollout = 0xFFFFFFFF then d else _) = d1
  have hrecords : recordsOf d1 = recordsOf d := by
    rw [← hd1]
    split
    · rfl
    · rw [recordsOf_dropHandle, recordsOf_poke, recordsOf_modServe]
  have hcmds := cmds_of_recordsOf hrecords
  split
  next hslot => exact ⟨hcmds, fun h => absurd hslot (Nat.not_le.mpr h)⟩
  next => exact ⟨hcmds, fun _ => smFind_smPut_same ..⟩

theorem peek_began (s : State) (cid ctx va n : Nat) : peek (began s cid) ctx va n = peek s.dev ctx va n := by
  rw [peek, peek, readVirt_began]

theorem reqReward_began (s : State) (cid : Nat) (r : Req) : reqReward (began s cid) r = reqReward s.dev r := by
  have htab : servTab (began s cid) r.ctx = servTab s.dev r.ctx := rfl
  unfold reqReward
  rw [htab, peek_began]

/-- What REQ.QUERY returns of a request does not depend on how far the command is. -/
theorem reqRecord_began (s : State) (cid slot : Nat) (r : Req) : reqRecord (began s cid) slot r = reqRecord s.dev slot r := by
  unfold reqRecord
  rw [reqReward_began]

/-- The record and the tokens go to the command's slot; RELEASE frees the record after the copy (R383, R384). -/
theorem reqQuery_answers {s : State} {cid : Nat} {c : Cmd} {slot : Nat} {r : Req} (hruns : Runs s 0x0703 cid c)
    (hchk : chkReqQuery (began s cid) c = .ok ()) (hnamed : namedReq s.dev c = some (slot, r)) :
    Completes (.reqQuery cid) s fun t => finOf t cid = some (0#16, 0#16, resultOf [(0x0C, 4, reqStateCode r.state), (0x10, 4, r.outLen)]) ∧
      slotOutOf t cid = some (reqRecord s.dev slot r ++ (r.outToks.drop (par c 0x1C 4)).flatMap (fun t => natLe 4 t.1.toNat)
        ++ (r.outToks.drop (par c 0x1C 4)).flatMap (fun t => natLe 4 t.2.toNat)) ∧
      (bit (par c 0x15 1) 0 = false → OnlyCmd cid s t) ∧
      (bit (par c 0x15 1) 0 = true → getReq s.dev slot = r → slot < 131072 → smFind t.dev.reqs slot = some { gen := r.gen }) := by
  have hnamed' : namedReq (began s cid) c = some (slot, r) := hnamed
  obtain ⟨d, hd⟩ : ∃ d, d = if bit (par c 0x15 1) 0 then releaseReq (began s cid) slot else began s cid := ⟨_, rfl⟩
  obtain ⟨hkept, hfree⟩ := releaseReq_records (began s cid) slot
  have hcmds : d.cmds = (began s cid).cmds := by
    rw [hd]
    split
    · exact hkept
    · rfl
  have hbody : stepReqQuery (began s cid) cid c = some (finishCmd d cid stOk 0 [(0x0C, 4, reqStateCode r.state), (0x10, 4, r.outLen)]
      (some (reqRecord s.dev slot r ++ (r.outToks.drop (par c 0x1C 4)).flatMap (fun t => natLe 4 t.1.toNat)
        ++ (r.outToks.drop (par c 0x1C 4)).flatMap (fun t => natLe 4 t.2.toNat)))) := by
    simp only [stepReqQuery, hchk, hnamed', reqRecord_began, hd]
  refine (completes_finish_kept rfl hruns hbody hcmds).imp ?_
  rintro t ⟨hframe, hother, hfin, hslot⟩
  refine ⟨hfin, hslot, fun hkeep => ⟨?_, hother⟩, fun hrelease hget hlow => ?_⟩
  · rw [hd, if_neg (Bool.eq_false_iff.mp hkeep)] at hframe
    exact hframe
  · have hreqs : t.dev.reqs = (releaseReq (began s cid) slot).reqs := by rw [hframe, hd, if_pos hrelease]
    rw [hreqs, hfree hlow, show getReq (began s cid) slot = r from hget]

/-! ### DEFERRAL_EXPIRE -/

section
variable {s : State} {req : Nat} {r : Req} (hget : getReq s.dev (req % 2 ^ 17) = r) (hname : reqHandle (req % 2 ^ 17) r = req)
include hget

theorem exec_deferralExpire : exec (.deferralExpire req) s = .next { s with dev :=
    (if reqHandle (req % 2 ^ 17) r = req ∧ r.state = .waiting ∧ r.ended = false ∧ r.joinBy < s.dev.now then
      refuseReq s.dev (req % 2 ^ 17) stAdmissionRefused 0x15 else s.dev) } := by
  rw [← hget]
  rfl

theorem deferralExpire_waits (hstays : r.state ≠ .waiting ∨ r.ended = true ∨ s.dev.now ≤ r.joinBy) :
    exec (.deferralExpire req) s = .next s := by
  have hnot : ¬ (reqHandle (req % 2 ^ 17) r = req ∧ r.state = .waiting ∧ r.ended = false ∧ r.joinBy < s.dev.now) := by
    rintro ⟨-, hstate, hopen, hlate⟩
    obtain h | h | h := hstays
    · exact h hstate
    · exact Bool.false_ne_true (hopen.symm.trans h)
    · exact absurd hlate (Nat.not_lt.mpr h)
  rw [exec_deferralExpire hget, if_neg hnot]

include hname

/-- A request that waits past its latest join instant ends ADMISSION_REFUSED, DETAIL 0x15 (R364). -/
theorem deferralExpire_refuses (hstate : r.state = .waiting) (hopen : r.ended = false) (hlate : r.joinBy < s.dev.now) :
    Completes (.deferralExpire req) s fun t =>
      (∃ q, smFind t.dev.reqs (req % 2 ^ 17) = some q ∧ q.stop = 4 ∧ (r.cid = none → q.state = .done ∧ q.status = 0x0020#16) ∧
        (r.cid ≠ none → q.ended = true ∧ q.endStatus = 0x0020#16)) ∧
      ∀ k v, r.cid = some k → smFind s.dev.cmds k = some v → v.fin = none → ∃ res, finOf t k = some (0x0020#16, 0x0015#16, res) := by
  obtain ⟨x, result, hend, hx⟩ := refuseReq_eq s.dev (req % 2 ^ 17) 0x15
  rw [hget] at hend
  have hreqs : smFind x.reqs (req % 2 ^ 17) = some (refusedReq r) := by
    rw [reqs_of_recordsOf hx, modReq_reqs, smFind_smPut_same, hget]
  have hcmds : x.cmds = s.dev.cmds := (cmds_of_recordsOf hx).trans rfl
  have hexec := exec_deferralExpire hget
  rw [if_pos ⟨hname, hstate, hopen, hlate⟩, hend] at hexec
  refine ⟨_, hexec, ?_, fun k v hcid hv hfin => ?_⟩
  · obtain ⟨q, hq, hstop, -, hdone, hleft⟩ :=
      smFind_reqs_reqEnded (Nat.mod_lt req (by decide)) stAdmissionRefused 0x15 result hreqs (endsAs_refusedReq r)
    refine ⟨q, hq, hstop, hdone, fun h => ?_⟩
    obtain ⟨hended, -, hstatus⟩ := hleft h
    exact ⟨hended, hstatus⟩
  · rw [hcid]
    exact ⟨_, finOf_finishCmd _ _ _ _ (by rw [hcmds, hv]) hfin⟩

end

end Sys2Proof.Machine
end

section
/-! PROOF. REQ.SUBMIT: the record of a request and what the admission tests do with it (09 R350 to R353, R362 to R364). -/

namespace Sys2Proof.Machine

/-! ### A request that passes the tests -/

/-- The sequences of a request are made and its state is set; it has not ended (R351). -/
theorem placeReq_active {d : Dev} {ctx : Nat} {e : List Byte} {parent : Word} {r : Req} {p : Placed} (h : placeReq d ctx e parent r = some p)
    (hopen : r.ended = false) : isActive p.req = true := by
  unfold placeReq at h
  obtain ⟨⟨handle, blocks, d3⟩, -, h⟩ := Option.bind_eq_some_iff.mp h
  obtain ⟨d4, -, h⟩ := Option.bind_eq_some_iff.mp h
  dsimp only at h
  have hstate (b : Prop) [Decidable b] : (if b then ReqState.prefill else .decode) = .prefill ∨
      (if b then ReqState.prefill else .decode) = .decode := by
    split
    · exact .inl rfl
    · exact .inr rfl
  split at h
  · obtain ⟨⟨g, d5⟩, -, h⟩ := Option.bind_eq_some_iff.mp h
    obtain ⟨d6, -, rfl⟩ := Option.map_eq_some_iff.mp h
    simp only [isActive, hopen, hstate]
    rfl
  · cases h
    simp only [isActive, hopen, hstate]
    rfl

/-- A request that passes the tests would be in the batch (R362). -/
theorem testReq_ok_active {d : Dev} {slot : Nat} {parent : Word} {r : Req} {p : Placed} {out in_ : List (List Byte)}
    (h : testReq d slot parent r = .ok p out in_) (hopen : r.ended = false) : isActive p.req = true := by
  unfold testReq at h
  dsimp only at h
  split at h
  · cases h
  · split at h
    · cases h
    next hplace =>
      split at h
      · cases h
        exact placeReq_active hplace hopen
      · cases h

/-! ### A request that joins -/

/-- A request that joins is in its record, where its output area and its rollout entry are new; the other records and the commands in flight
are as they were placed (R353, R381). -/
theorem recordsOf_joinReq (d : Dev) (slot : Nat) (p : Placed) (out in_ : List (List Byte)) : ∃ outVa rollout,
    recordsOf (joinReq d slot p out in_) = recordsOf (modReq p.dev slot fun _ => { p.req with outVa := outVa, rollout := rollout }) := by
  unfold joinReq
  extract_lets ctx t outVa used roll r0 r d1 d2 d3 reserved d4
  have hpoke : recordsOf d3 = recordsOf d2 := by
    unfold d3
    split
    · rfl
    · exact recordsOf_poke ..
  have htold : recordsOf d4 = recordsOf d3 := by
    unfold d4
    rw [recordsOf_tellMembers, recordsOf_tellMembers, recordsOf_foldl (recordsOf_recallModel ctx), recordsOf_foldl (recordsOf_demoteModel ctx)]
  refine ⟨outVa, roll, ?_⟩
  split
  · rw [recordsOf_progress, htold, hpoke]
    rfl
  · rw [htold, hpoke]
    rfl

theorem joinReq_record (d : Dev) (slot : Nat) (p : Placed) (out in_ : List (List Byte)) : ∃ q, smFind (joinReq d slot p out in_).reqs slot = some q ∧
    q = { p.req with outVa := q.outVa, rollout := q.rollout } := by
  obtain ⟨outVa, rollout, h⟩ := recordsOf_joinReq d slot p out in_
  exact ⟨{ p.req with outVa := outVa, rollout := rollout }, by rw [reqs_of_recordsOf h, modReq_reqs, smFind_smPut_same], rfl⟩

/-! ### REQ.SUBMIT -/

/-- The device once the command has a record for its request (R350). -/
def recordTaken (d : Dev) (cid slot : Nat) : Dev :=
  modCmd { d with freeCtr := d.freeCtr + 2 ^ 20 } cid (fun c => { c with info := [slot] })

/-- The request of a command, with its latest join instant (R350, R364). -/
def submittedReq (d : Dev) (cid slot : Nat) (c : Cmd) (e : List Byte) : Req :=
  let r0 := newReq d cid c e (idsOf c.payload) (genOf d slot)
  { r0 with joinBy := latestJoin (modReq (recordTaken d cid slot) slot (fun _ => r0)) slot r0 }

/-- The device with the request in its record, before the admission tests. -/
def submittedDev (d : Dev) (cid slot : Nat) (c : Cmd) (e : List Byte) : Dev :=
  modReq (modReq (recordTaken d cid slot) slot (fun _ => newReq d cid c e (idsOf c.payload) (genOf d slot))) slot
    (fun _ => submittedReq d cid slot c e)

/-- A record that is FREE is taken as it is. -/
theorem takeRecord_free {d : Dev} {slot : Nat} (h : (getReq d slot).state = .free) : takeRecord d slot = d := by
  rw [takeRecord, h]
  rfl

/-- What the admission tests do with a request that comes to them in a record: it joins, waits, or is refused, and then nothing of the device d
that stood before has changed but for the tally and the command (R362 to R364). -/
def tested (d d1 : Dev) (cid slot : Nat) (c : Cmd) (e : List Byte) : Dev :=
  let r := submittedReq d1 cid slot c e
  let d3 := submittedDev d1 cid slot c e
  match testReq d3 slot (parentOfReq d3 r) r with
  | .ok p o i => joinReq d3 slot p o i
  | .no fs =>
    if r.sflags.getLsbD 0 && fs.all (·.2) then d3
    else finishCmd (tallyCount d 0x22 r.ctx 1 srcJenorneb) cid stAdmissionRefused (firstFail fs) (admissible d3 slot (parentOfReq d3 r) r) none

theorem submitReq_free {d : Dev} {cid slot : Nat} {c : Cmd} {e : List Byte} (hslot : freeRecord d = some slot)
    (hfree : (getReq d slot).state = .free) : submitReq d cid c e (idsOf c.payload) = tested d d cid slot c e := by
  have htaken : (if slot < 131072 then takeRecord d slot else d) = d := by rw [takeRecord_free hfree, ite_self]
  have hsubmit : submitReq d cid c e (idsOf c.payload) = tested d (if slot < 131072 then takeRecord d slot else d) cid slot c e := by
    unfold submitReq
    rw [hslot]
    rfl
  rw [hsubmit, htaken]

section
variable {s : State} {cid slot : Nat} {c : Cmd} {e : List Byte} (hruns : Runs s 0x0701 cid c) (hinfo : c.info = [])
  (hclone : cloneWaits (began s cid) c = false) (hchk : chkReqSubmit (began s cid) c = .ok ())
  (hentry : sEntry s.dev (cmdContext c) (rqModel c) = some e) (hown : rqAddr c = 0) (hvocab : ∀ t ∈ idsOf c.payload, t.toNat < seVocab e)
  (hslot : freeRecord s.dev = some slot) (hfree : (getReq s.dev slot).state = .free)
include hinfo hclone hchk hentry hown hvocab hslot hfree

/-- A request with its tokens in the payload comes to the admission tests (R350). -/
theorem stepReqSubmit_tested : stepReqSubmit (began s cid) cid c =
    some (noteWant (tested (began s cid) (began s cid) cid slot c e) (cmdContext c)) := by
  have hentry' : sEntry (began s cid) (cmdContext c) (rqModel c) = some e := hentry
  have hany : (idsOf c.payload).any (fun t => decide (seVocab e ≤ t.toNat)) = false := by
    simpa only [List.any_eq_false, decide_eq_true_eq, Nat.not_le] using hvocab
  have hsubmit := submitReq_free (d := began s cid) (cid := cid) (c := c) (e := e) hslot hfree
  simp only [stepReqSubmit, hinfo, hclone, hchk, hentry', promptOf, hown, hany, hsubmit, if_true, List.isEmpty_nil, Bool.not_true, Bool.or_self,
    Bool.false_eq_true, if_false]

variable {d : Dev} {r : Req} (hd : submittedDev (began s cid) cid slot c e = d) (hr : submittedReq (began s cid) cid slot c e = r)
include hruns hd hr

/-- A request that passes the tests joins the batch (R353, R362). -/
theorem reqSubmit_joins {p : Placed} {o i : List (List Byte)} (htest : testReq d slot (parentOfReq d r) r = .ok p o i) :
    Completes (.reqSubmit cid) s fun t => t = { s with dev := modCmd (noteWant (joinReq d slot p o i) (cmdContext c)) cid waitState } ∧
      ∃ q, smFind t.dev.reqs slot = some q ∧ isActive q = true ∧ q = { p.req with outVa := q.outVa, rollout := q.rollout } := by
  have htested : tested (began s cid) (began s cid) cid slot c e = joinReq d slot p o i := by
    unfold tested
    dsimp only
    rw [hd, hr, htest]
  have hbody := stepReqSubmit_tested hinfo hclone hchk hentry hown hvocab hslot hfree
  rw [htested] at hbody
  refine ⟨_, onDev_runCmd hruns hbody, rfl, ?_⟩
  obtain ⟨q, hq, hplaced⟩ := joinReq_record d slot p o i
  have hopen : r.ended = false := by rw [← hr]; rfl
  refine ⟨q, hq, ?_, hplaced⟩
  rw [hplaced]
  exact testReq_ok_active htest hopen

variable {fs : List Fail} (htest : testReq d slot (parentOfReq d r) r = .no fs)
include htest

/-- A request that may wait, and for all that it fails, does so in its record (R364). -/
theorem reqSubmit_waits (hwait : r.sflags.getLsbD 0 = true) (hall : fs.all (·.2) = true) : Completes (.reqSubmit cid) s fun t =>
    t = { s with dev := modCmd (noteWant d (cmdContext c)) cid waitState } ∧ smFind t.dev.reqs slot = some r ∧ r.state = .waiting ∧
      finOf t cid = none := by
  have htested : tested (began s cid) (began s cid) cid slot c e = d := by
    unfold tested
    dsimp only
    rw [hd, hr, htest]
    simp only [hwait, hall, Bool.and_self, if_true]
  have hbody := stepReqSubmit_tested hinfo hclone hchk hentry hown hvocab hslot hfree
  rw [htested] at hbody
  refine ⟨_, onDev_runCmd hruns hbody, rfl, ?_, by rw [← hr]; rfl, finOf_waitState s _ cid ?_⟩
  · rw [← hd, ← hr]
    exact smFind_smPut_same ..
  · rw [← hd]
    exact (bind_fin_modCmd _ cid (f := fun c => { c with info := [slot] }) fun _ => rfl).trans (bind_fin_began hruns)

/-- A request that may not wait is refused without effect, with the first test that fails (R363). -/
theorem reqSubmit_refused (hrefuse : r.sflags.getLsbD 0 = false ∨ fs.all (·.2) = false) : Completes (.reqSubmit cid) s fun t =>
    t.dev.reqs = s.dev.reqs ∧ t.dev.mem = s.dev.mem ∧ ∃ res, finOf t cid = some (0x0020#16, BitVec.ofNat 16 (firstFail fs), res) := by
  have hnot : (r.sflags.getLsbD 0 && fs.all (·.2)) = false := by rwa [Bool.and_eq_false_iff]
  have htested : tested (began s cid) (began s cid) cid slot c e = finishCmd (tallyCount (began s cid) 0x22 r.ctx 1 srcJenorneb) cid
      stAdmissionRefused (firstFail fs) (admissible d slot (parentOfReq d r) r) none := by
    unfold tested
    dsimp only
    rw [hd, hr, htest]
    simp only [hnot, Bool.false_eq_true, if_false]
  have hbody := stepReqSubmit_tested hinfo hclone hchk hentry hown hvocab hslot hfree
  rw [htested] at hbody
  have hnoted : stepReqSubmit (began s cid) cid c = some (finishCmd (noteWant (tallyCount (began s cid) 0x22 r.ctx 1 srcJenorneb) (cmdContext c)) cid
      stAdmissionRefused (firstFail fs) (admissible d slot (parentOfReq d r) r) none) := hbody
  refine (completes_finish_kept rfl hruns hnoted rfl).imp ?_
  rintro t ⟨hframe, -, hfin, -⟩
  exact ⟨by rw [hframe]; rfl, by rw [hframe]; rfl, _, hfin⟩

end

end Sys2Proof.Machine
end

section
/-! PROOF. Planning and launching a batch step, and a member's part in one (09 R355, R356, R359, R375, R380). -/

namespace Sys2Proof.Machine

/-! ### Copies for the rows of a step -/

theorem sameKeys_copyForRows (d : Dev) (ctx n : Nat) (rows : List BRow) : SameKeys d.ctxs (copyForRows d ctx n rows).2.ctxs := by
  unfold copyForRows
  dsimp only
  refine List.foldlRecOn (motive := fun acc : Bool × Dev × List Nat => SameKeys d.ctxs acc.2.1.ctxs) _ _ (SameKeys.refl _) ?_
  rintro ⟨ok, d0, claimed⟩ hkeys q -
  dsimp only at hkeys ⊢
  split
  · exact hkeys
  split
  · exact hkeys
  split
  · exact hkeys
  split
  · exact hkeys
  split
  next d1 hroom =>
    have h1 : SameKeys d.ctxs d1.ctxs := by
      have hstep := sameKeys_roomWithin d0 ctx n 1
      rw [hroom] at hstep
      exact hkeys.trans hstep
    split
    next k d2 htake =>
      have h2 : SameKeys d.ctxs d2.ctxs := h1.trans (sameKeys_takeKvPage htake)
      exact ((h2.trans (sameKeys_copyPageBytes d2 ctx n _ k _)).trans (sameKeys_modPool _ ctx n _)).trans (sameKeys_modPool _ ctx n _)
    next => exact h1
  next a d1 _ hroom =>
    have hstep := sameKeys_roomWithin d0 ctx n 1
    rw [hroom] at hstep
    exact hkeys.trans hstep

/-! ### Launching a step -/

/-- A step that is put into a context that there is stands in it. -/
theorem smFind_modServe_step {d e : Dev} (hkeys : SameKeys d.ctxs e.ctxs) {ctx : Nat} (hctx : ∃ x, smFind d.ctxs ctx = some x) {f : Serve → Serve}
    {st : BStep} (hf : ∀ v, (f v).step = some st) : ∃ y, smFind (modServe e ctx f).ctxs ctx = some y ∧ y.serve.step = some st := by
  obtain ⟨x, hx⟩ := hctx
  obtain ⟨y, hy⟩ := hkeys.some hx
  exact ⟨{ y with serve := f y.serve }, by rw [modServe_ctxs, smFind_smUpd_same, hy, Option.map_some], hf y.serve⟩

/-- The device once the version that a step of a model runs with is pinned; a model in no weight set has none (12 R465; log 30). -/
def pinVersion (d : Dev) (ctx : Nat) (e : List Byte) (ver : Word) : Dev :=
  match modelSet d ctx e with
  | some w => (match verSlot (wset d w) ver with | some s => pin d w s .serve | none => d)
  | none => d

theorem pinVersion_frame (d : Dev) (ctx : Nat) (e : List Byte) (ver : Word) : ∃ weights, pinVersion d ctx e ver = { d with weights := weights } := by
  unfold pinVersion
  split
  · split <;> exact ⟨_, rfl⟩
  · exact ⟨_, rfl⟩

theorem sameKeys_pinVersion (d : Dev) (ctx : Nat) (e : List Byte) (ver : Word) : SameKeys d.ctxs (pinVersion d ctx e ver).ctxs := by
  obtain ⟨weights, h⟩ := pinVersion_frame d ctx e ver
  rw [h]
  exact SameKeys.refl _

@[simp] theorem otherMembers_length (e : List Byte) : (otherMembers e).length = seMembers e - 1 := by simp [otherMembers, span]

/-- A step that can have its copies is launched: it stands in its context, running, and its members' parts are awaited (R355, R356, R380). -/
theorem launchStep_launches {d : Dev} {ctx : Nat} {rows : List BRow} {e : List Byte} (hcopy : (copyForRows d ctx (sePool e) rows).1 = true)
    (hctx : ∃ y, smFind d.ctxs ctx = some y) (x : Ctx) (draft : Bool) (ver : Word) (due : Option Nat) (cls : Nat) :
    (launchStep d ctx x e draft ver rows due cls).1 = true ∧ ∃ y st, smFind (launchStep d ctx x e draft ver rows due cls).2.ctxs ctx = some y ∧
      y.serve.step = some st ∧ st.rows = rows ∧ st.stage = .running ∧ st.version = ver ∧ st.model = seId e ∧ st.num = x.serve.nextStep ∧
      st.tableVa = batchVa (servTab d ctx) ∧ st.waiting.length = seMembers e - 1 := by
  obtain ⟨d1, hd1⟩ : ∃ d1, copyForRows d ctx (sePool e) rows = (true, d1) := ⟨_, Prod.ext hcopy rfl⟩
  have hkeys1 := sameKeys_copyForRows d ctx (sePool e) rows
  rw [hd1] at hkeys1
  have hlaunch : ∃ d5 f st, launchStep d ctx x e draft ver rows due cls = (true, modServe d5 ctx f) ∧ SameKeys d.ctxs d5.ctxs ∧
      (∀ v, (f v).step = some st) ∧ st.rows = rows ∧ st.stage = .running ∧ st.version = ver ∧ st.model = seId e ∧ st.num = x.serve.nextStep ∧
      st.tableVa = batchVa (servTab d ctx) ∧ st.waiting = otherMembers e := by
    simp only [launchStep, hd1]
    refine ⟨_, _, _, rfl, ?_, fun _ => rfl, rfl, rfl, rfl, rfl, rfl, rfl, rfl⟩
    refine SameKeys.trans ?_ (sameKeys_foldl (fun d m => ?_) _ _)
    · refine SameKeys.trans ?_ (sameKeys_queueLaunch _ _)
      rw [poke_ctxs]
      exact (hkeys1.trans (sameKeys_pinKv d1 ctx _ _)).trans (sameKeys_pinVersion _ ctx e ver)
    · rw [sendTable_ctxs]
      exact SameKeys.refl _
  obtain ⟨d5, f, st, heq, hkeys, hf, hrows, hstage, hver, hmodel, hnum, hva, hwaiting⟩ := hlaunch
  obtain ⟨y, hy, hstep⟩ := smFind_modServe_step hkeys hctx hf
  rw [heq]
  exact ⟨rfl, y, st, hy, hstep, hrows, hstage, hver, hmodel, hnum, hva, by rw [hwaiting, otherMembers_length]⟩

/-! ### Planning -/

/-- Rows that all fit into a step are all taken. -/
theorem foldl_rows_fit {α : Type} (g : α → List BRow) {l : List α} {n : Nat} {acc : List BRow} (h : (acc ++ l.flatMap g).length ≤ n) :
    l.foldl (fun acc p => if acc.length + (g p).length ≤ n then acc ++ g p else acc) acc = acc ++ l.flatMap g := by
  induction l generalizing acc with
  | nil => simp
  | cons p l ih =>
    rw [List.flatMap_cons, ← List.append_assoc] at h
    have hfit : acc.length + (g p).length ≤ n := by
      rw [List.length_append, List.length_append] at h
      omega
    rw [List.foldl_cons, if_pos hfit, ih h, List.flatMap_cons, List.append_assoc]

/-- With no request that prefills there are no prefill rows. -/
theorem prefillOrder_of_decode {l : List (Nat × Req)} (h : ∀ p ∈ l, p.2.state = .decode) : prefillOrder l = [] := by
  have hnone : l.filter (fun p => decide (p.2.state = .prefill)) = [] :=
    List.filter_eq_nil_iff.mpr fun p hp => by rw [h p hp]; decide
  rw [prefillOrder, hnone, List.foldl_nil]

section
variable {d : Dev} {ctx : Nat} {e : List Byte} {l : List (Nat × Req)} {rows : List BRow} (hdraft : draftOf d ctx e = none)
  (hgoal : l.any (fun p => hasGoal d p.2) = true)
  (hrows : rows = (l.filter (fun p => decide (p.2.state = .decode))).flatMap (fun p => decodeRows d p.1 p.2)) (hfit : rows.length ≤ seRows e)
  (hdecode : ∀ p ∈ l, p.2.state = .decode) (hsome : rows ≠ [])
include hdraft hgoal hrows hfit hdecode hsome

/-- A group whose requests all decode, without a draft model, steps with the rows of them all (R355, R356). -/
theorem planGroup_decode (x : Ctx) (ver : Word) : planGroup d ctx x e ver l =
    launchStep d ctx x e false ver rows (earliest (l.map (fun p => nextDue d p.2))) 1 := by
  have htaken : (l.filter (fun p => decide (p.2.state = .decode))).foldl (fun acc p =>
      if acc.length + (decodeRows d p.1 p.2).length ≤ seRows e then acc ++ decodeRows d p.1 p.2 else acc) [] = rows := by
    rw [foldl_rows_fit (fun p : Nat × Req => decodeRows d p.1 p.2) (by rw [List.nil_append, ← hrows]; exact hfit), List.nil_append, hrows]
  have hempty : rows.isEmpty = false := List.isEmpty_eq_false_iff.mpr hsome
  simp only [planGroup, hdraft, hgoal, htaken, prefillOrder_of_decode hdecode, prefillRows, List.append_nil, hempty, if_true, beq_self_eq_true,
    Bool.true_or, Bool.not_true, Bool.or_self, Bool.false_eq_true, if_false]

end

theorem exec_batchStepPlan_busy {s : State} {ctx : Nat} {x : Ctx} (hctx : smFind s.dev.ctxs ctx = some x) (hbusy : x.serve.step ≠ none) :
    exec (.batchStepPlan ctx) s = .next s := by
  have hsome : x.serve.step.isSome = true := Option.isSome_iff_ne_none.mpr hbusy
  have hexec : exec (.batchStepPlan ctx) s = execBatchStepPlan ctx s := rfl
  rw [hexec, execBatchStepPlan, onDev_next]
  simp only [hctx, hsome, Bool.true_or, if_true]

/-- With no step in flight the boundary stands, and the first group that can run is planned (R355, R375). -/
theorem exec_batchStepPlan_idle {s : State} {ctx : Nat} {x x1 : Ctx} {d1 : Dev} (hctx : smFind s.dev.ctxs ctx = some x) (hidle : x.serve.step = none)
    (hlives : x.destroying = false) (hfold : refolding s.dev ctx = false) (hd1 : boundary (idleEnd s.dev ctx) ctx = d1)
    (hctx1 : smFind d1.ctxs ctx = some x1) :
    exec (.batchStepPlan ctx) s = .next { s with dev := planFirst ctx x1 d1 (groupOrder d1 ctx) } := by
  have hexec : exec (.batchStepPlan ctx) s = execBatchStepPlan ctx s := rfl
  rw [hexec, execBatchStepPlan, onDev_next]
  simp only [hctx, hidle, hlives, hfold, hd1, hctx1, Option.isSome_none, Bool.or_self, Bool.false_eq_true, if_false]

theorem planFirst_runs {ctx : Nat} {x : Ctx} {d d2 d3 : Dev} {g : Nat × Word} {gs : List (Nat × Word)} {e : List Byte} {l : List (Nat × Req)}
    (hentry : sEntry d ctx g.1 = some e) (hready : readyReqs d ctx e ((activeReqs d ctx).filter (fun p => inGroup g p.2)) = (l, d2))
    (hversion : versionOk d2 ctx e g.2 = true) (hplan : planGroup d2 ctx x e g.2 l = (true, d3)) : planFirst ctx x d (g :: gs) = d3 := by
  simp only [planFirst, hentry, hready, hversion, hplan, if_true]

/-- BATCH_STEP_PLAN where the first group of the order can run and its requests all decode (R355, R356, R375). -/
theorem batchStepPlan_launches {s : State} {ctx : Nat} {x x1 : Ctx} {d1 d2 : Dev} {g : Nat × Word} {gs : List (Nat × Word)} {e : List Byte}
    {l : List (Nat × Req)} {rows : List BRow} (hctx : smFind s.dev.ctxs ctx = some x) (hidle : x.serve.step = none) (hlives : x.destroying = false)
    (hfold : refolding s.dev ctx = false) (hd1 : boundary (idleEnd s.dev ctx) ctx = d1) (hctx1 : smFind d1.ctxs ctx = some x1)
    (horder : groupOrder d1 ctx = g :: gs) (hentry : sEntry d1 ctx g.1 = some e)
    (hready : readyReqs d1 ctx e ((activeReqs d1 ctx).filter (fun p => inGroup g p.2)) = (l, d2)) (hversion : versionOk d2 ctx e g.2 = true)
    (hcopy : (copyForRows d2 ctx (sePool e) rows).1 = true) (hctx2 : ∃ y, smFind d2.ctxs ctx = some y)
    (hplan : planGroup d2 ctx x1 e g.2 l = launchStep d2 ctx x1 e false g.2 rows (earliest (l.map (fun p => nextDue d2 p.2))) 1) :
    Completes (.batchStepPlan ctx) s fun t =>
      t = { s with dev := (launchStep d2 ctx x1 e false g.2 rows (earliest (l.map (fun p => nextDue d2 p.2))) 1).2 } ∧
      ∃ y st, smFind t.dev.ctxs ctx = some y ∧ y.serve.step = some st ∧ st.rows = rows ∧ st.stage = .running ∧ st.version = g.2 ∧
        st.model = seId e ∧ st.num = x1.serve.nextStep ∧ st.tableVa = batchVa (servTab d2 ctx) ∧ st.waiting.length = seMembers e - 1 := by
  obtain ⟨hdone, hstep⟩ := launchStep_launches hcopy hctx2 x1 false g.2 (earliest (l.map (fun p => nextDue d2 p.2))) 1
  have hexec := exec_batchStepPlan_idle hctx hidle hlives hfold hd1 hctx1
  rw [horder, planFirst_runs hentry hready hversion (hplan.trans (Prod.ext hdone rfl))] at hexec
  exact ⟨_, hexec, rfl, hstep⟩

/-! ### A member's part -/

/-- What a piece of a batch table says of its step, the first of its pieces (R380; log 32). -/
def memberStep (p : Packet) : BStep :=
  { num := field p.data 4 4, model := field p.data 12 4, draft := false, version := word p.data 8, stage := .planned, rows := [], pins := [],
    tableVa := field p.data 16 8, failed := false, launch := none, remote := true, waiting := [], got := [field p.data 28 4], leader := p.src }

/-- The device once the bytes of a piece lie in the serving area. -/
def pieceStored (d : Dev) (p : Packet) : Dev := poke d p.ctx (field p.data 16 8 + field p.data 28 4) (p.data.drop 32)

theorem pieceStored_frame (d : Dev) (p : Packet) : ∃ mem, pieceStored d p = { d with mem := mem } := poke_frame ..

section
variable {d : Dev} {p : Packet} {x : Ctx} {e : List Byte} (hctx : smFind d.ctxs p.ctx = some x) (hidle : x.serve.step = none)
  (hentry : sEntry d p.ctx (field p.data 12 4) = some e)
include hctx hidle hentry

/-- With pieces still to come the step is only noted. -/
theorem receiveTable_notes (hmore : 1 < ceilDiv (field p.data 24 4) 2048) :
    (∃ y, smFind (receiveTable d p).ctxs p.ctx = some y ∧ y.serve.step = some (memberStep p)) ∧ (receiveTable d p).launches = d.launches := by
  have hnotes : receiveTable d p = modServe (pieceStored d p) p.ctx (fun s => { s with step := some (memberStep p) }) := by
    simp only [receiveTable, hctx, hentry, hidle, List.length_singleton, if_pos hmore]
    rfl
  obtain ⟨mem, hmem⟩ := pieceStored_frame d p
  rw [hnotes, hmem]
  exact ⟨smFind_modServe_step (d := d) (e := { d with mem := mem }) (SameKeys.refl d.ctxs) ⟨x, hctx⟩ fun _ => rfl, rfl⟩

/-- The only piece is the last: the member's launch of the step takes the next number. -/
theorem receiveTable_launches (hlast : ceilDiv (field p.data 24 4) 2048 ≤ 1) : ∃ rows pins,
    (∃ y, smFind (receiveTable d p).ctxs p.ctx = some y ∧ y.serve.step = some { memberStep p with
      stage := .running, rows := rows, pins := pins, launch := some d.nextLaunch }) ∧
    ∃ z, smFind (receiveTable d p).launches d.nextLaunch = some z ∧ z.ctx = p.ctx ∧ z.purpose = .serve (field p.data 4 4) ∧ z.slot = seSlot e ∧
      z.state = .waiting := by
  have hlaunch : ∃ z rows pins d2 f, receiveTable d p = modServe (pinVersion d2 p.ctx e (word p.data 8)) p.ctx f ∧
      (∀ v, (f v).step = some { memberStep p with stage := .running, rows := rows, pins := pins, launch := some (pieceStored d p).nextLaunch }) ∧
      d2 = (queueLaunch (pinKv (pieceStored d p) p.ctx (sePool e) pins) z).2 ∧
      z.ctx = p.ctx ∧ z.purpose = .serve (field p.data 4 4) ∧ z.slot = seSlot e ∧ z.state = .waiting := by
    simp only [receiveTable, hctx, hentry, hidle, List.length_singleton, if_neg (Nat.not_lt.mpr hlast)]
    refine ⟨_, _, _, _, _, rfl, fun _ => rfl, rfl, ?_⟩
    exact ⟨rfl, rfl, rfl, rfl⟩
  obtain ⟨z, rows, pins, d2, f, heq, hf, hd2, hz⟩ := hlaunch
  obtain ⟨mem, hmem⟩ := pieceStored_frame d p
  obtain ⟨weights, hweights⟩ := pinVersion_frame d2 p.ctx e (word p.data 8)
  rw [hmem] at hf hd2
  have hkeys : SameKeys d.ctxs (pinVersion d2 p.ctx e (word p.data 8)).ctxs := by
    rw [hweights, hd2]
    exact (sameKeys_pinKv { d with mem := mem } p.ctx _ _).trans (sameKeys_queueLaunch _ z)
  have hlaunches : (receiveTable d p).launches = smPut d.launches d.nextLaunch z := by
    rw [heq, hweights, hd2]
    rfl
  refine ⟨rows, pins, ?_, z, ?_, hz⟩
  · rw [heq]
    exact smFind_modServe_step hkeys ⟨x, hctx⟩ hf
  · rw [hlaunches, smFind_smPut_same]

end

/-- A member takes the first message when it is a piece of a batch table and no step of the context is in flight (R380). -/
theorem exec_batchTableReceive {s : State} {pk : Packet} {g : Nat} {rest : List (Nat × Packet)} {x : Ctx} (hfirst : FirstPacket s g pk rest)
    (hkind : pk.kind = pkMsg) (htable : field pk.data 0 4 = 6) (hctx : smFind s.dev.ctxs pk.ctx = some x) (hidle : x.serve.step = none) :
    exec (.batchTableReceive pk) s = .next { s with dev := receiveTable (tookPacket s g pk rest) pk } := by
  have hexec : exec (.batchTableReceive pk) s = execBatchTableReceive pk s := rfl
  rw [hexec, execBatchTableReceive, onDev_next]
  simp only [hctx, htable, hidle, takePacket_first hfirst hkind, Option.bind_some, bne_self_eq_false, Bool.or_self, Bool.false_eq_true, if_false]

/-- A packet that is taken leaves the contexts, the launches and what memory holds as they are. -/
theorem tookPacket_kept (s : State) (g : Nat) (pk : Packet) (rest : List (Nat × Packet)) : (tookPacket s g pk rest).ctxs = s.dev.ctxs ∧
    (tookPacket s g pk rest).launches = s.dev.launches ∧ (tookPacket s g pk rest).nextLaunch = s.dev.nextLaunch ∧
    ∀ ctx n, sEntry (tookPacket s g pk rest) ctx n = sEntry s.dev ctx n := by
  obtain ⟨ports, out, htook⟩ := tookPacket_frame s g pk rest
  rw [htook]
  exact ⟨rfl, rfl, rfl, fun _ _ => rfl⟩

end Sys2Proof.Machine
end

section
/-! PROOF. The commit of a batch step whose launch has ended (09 R355, R357, R358, R368, R374, R375, R380). -/

namespace Sys2Proof.Machine

/-! ### BATCH_STEP_COMMIT -/

/-- The request slots that a step has rows of, each once. -/
def stepSlots (st : BStep) : List Nat := (st.rows.map (fun b => b.req.toNat % 2 ^ 17)).eraseDups

/-- What is read of a step's token table: a sample for each row that has one (R357). -/
def tokenTable (d : Dev) (ctx : Nat) (st : BStep) : Except VErr (List Byte) :=
  readVirt d ctx (st.tableVa + tokenOff st.rows) (16 * (st.rows.filter (fun b => b.sample)).length) .any

/-- The rows of a step that are a request's, with their samples. -/
def rowsOf (bs : List Byte) (st : BStep) (k : Nat) : List (BRow × Option Sample) :=
  (samplesOf bs st.rows 0).filter (fun b => b.1.req.toNat % 2 ^ 17 == k)

/-- The device once a step that was launched as k has ended and its launch is gone. -/
def stepEnded (d d0 : Dev) (ctx k : Nat) (st : BStep) (e : List Byte) : Dev :=
  { endBatch d ctx st e (stepReads d0 ctx st e) with launches := smErase (endBatch d ctx st e (stepReads d0 ctx st e)).launches k }

theorem commitStep_waits {d : Dev} {ctx : Nat} {st : BStep} {e : List Byte} {z : Launch} (hlocal : st.remote = false) (hwaits : st.waiting ≠ []) :
    commitStep d ctx st e z = d := by
  have hsome : st.waiting.isEmpty = false := List.isEmpty_eq_false_iff.mpr hwaits
  simp only [commitStep, hlocal, hsome, Bool.not_false, Bool.false_eq_true, if_true, if_false]

section
variable {d : Dev} {ctx k : Nat} {st : BStep} {e : List Byte} {z : Launch} (hlaunch : st.launch = some k)
include hlaunch

theorem commitStep_remote (hremote : st.remote = true) : commitStep d ctx st e z =
    stepEnded (sendMsg d st.leader ctx 0 (natLe 4 7 ++ natLe 4 st.num ++ natLe 4 (b2n z.fault.isSome))) d ctx k st e := by
  simp only [commitStep, hremote, hlaunch, if_true]
  rfl

variable (hlocal : st.remote = false) (hdone : st.waiting = [])
include hlocal hdone

theorem commitStep_samples {bs : List Byte} (hok : st.failed = false) (hfault : z.fault = none) (hread : tokenTable d ctx st = .ok bs) :
    commitStep d ctx st e z = boundary (stepEnded ((stepSlots st).foldl (fun d s =>
      if st.draft then commitDraft d s (rowsOf bs st s) else commitReq e st.version d s (rowsOf bs st s)) d) d ctx k st e) ctx := by
  unfold tokenTable at hread
  simp only [commitStep, hlocal, hdone, hok, hfault, hlaunch, hread, List.isEmpty_nil, Option.isSome_none, Bool.or_self, Bool.not_true,
    Bool.false_eq_true, if_false, Except.toOption]
  rfl

theorem commitStep_fails (hfails : st.failed = true ∨ z.fault ≠ none) : commitStep d ctx st e z = boundary (stepEnded ((stepSlots st).foldl
    (fun d s => if isActive (getReq d s) then endReq d s stDeviceFault 0x0002 4 else d) d) d ctx k st e) ctx := by
  have hany : (st.failed || z.fault.isSome) = true := by
    rw [Bool.or_eq_true, Option.isSome_iff_ne_none]
    exact hfails
  simp only [commitStep, hlocal, hdone, hany, hlaunch, List.isEmpty_nil, Bool.not_true, Bool.false_eq_true, if_false, if_true]
  rfl

end

section
variable {s : State} {ctx k : Nat} {x : Ctx} {st : BStep} {z : Launch} {e : List Byte} (hctx : smFind s.dev.ctxs ctx = some x)
  (hstep : x.serve.step = some st) (hlaunch : st.launch = some k) (hz : smFind s.dev.launches k = some z)
  (hentry : sEntry s.dev ctx st.model = some e)
include hctx hstep hlaunch hz hentry

theorem exec_batchStepCommit : exec (.batchStepCommit ctx) s = .next { s with dev :=
    (if z.state = .ended then commitStep s.dev ctx st e z else s.dev) } := by
  have hexec : exec (.batchStepCommit ctx) s = execBatchStepCommit ctx s := rfl
  rw [hexec, execBatchStepCommit, onDev_next]
  simp only [hctx, hstep, hlaunch, hz, hentry, Option.bind_some]

/-- Until its launch has ended a step is not committed (R357). -/
theorem batchStepCommit_runs (hruns : z.state ≠ .ended) : exec (.batchStepCommit ctx) s = .next s := by
  rw [exec_batchStepCommit hctx hstep hlaunch hz hentry, if_neg hruns]

/-- Until the members have ended their parts a leader's step is not committed (R380). -/
theorem batchStepCommit_waits (hlocal : st.remote = false) (hwaits : st.waiting ≠ []) : exec (.batchStepCommit ctx) s = .next s := by
  rw [exec_batchStepCommit hctx hstep hlaunch hz hentry, commitStep_waits hlocal hwaits, ite_self]

theorem batchStepCommit_ended {d : Dev} (hended : z.state = .ended) (hcommit : commitStep s.dev ctx st e z = d) :
    Completes (.batchStepCommit ctx) s fun t => t = { s with dev := d } :=
  ⟨_, by rw [exec_batchStepCommit hctx hstep hlaunch hz hentry, if_pos hended, hcommit], rfl⟩

end

/-! ### The one sample of a request -/

/-- Only the request's draft length and its pauses follow from a step (R371). -/
theorem nextK_frame (e : List Byte) (r : Req) (k a : Nat) : ∃ k' p n, nextK e r k a = { r with k := k', specPaused := p, pausedSteps := n } := by
  unfold nextK
  dsimp only
  split
  · exact ⟨r.k, r.specPaused, r.pausedSteps, rfl⟩
  split
  · split
    · exact ⟨r.k, r.specPaused, _, rfl⟩
    · exact ⟨_, _, _, rfl⟩
  split
  · exact ⟨r.k, r.specPaused, r.pausedSteps, rfl⟩
  · exact ⟨_, _, _, rfl⟩

/-- A sample that is finite and no stop, with room after it for another, is committed and the request goes on (R368, R369). -/
theorem applyStops_goes_on {e : List Byte} {r : Req} {smp : Sample} {n : Nat} (hfinite : isNan32 smp.2.2 = false)
    (hstop : ∀ i, i < 8 → r.stopMask.getLsbD i = true → seStop e i ≠ smp.1) (hroom : n + 1 < r.maxNew) (hlen : r.promptLen + n + 1 < 2 ^ 20) :
    applyStops e r [smp] n = ([smp], none, 0) := by
  have hgoes : (span 0 8).any (fun i => r.stopMask.getLsbD i && seStop e i != noVersion && seStop e i == smp.1) = false := by
    rw [List.any_eq_false]
    intro i hi
    have hlt : i < 8 := by
      have := List.mem_range'_1.mp hi
      omega
    cases hmask : r.stopMask.getLsbD i with
    | false => simp only [Bool.false_and, Bool.false_eq_true, not_false_eq_true]
    | true => simp only [beq_eq_false_iff_ne.mpr (hstop i hlt hmask), Bool.and_false, Bool.false_eq_true, not_false_eq_true]
  simp only [applyStops, hfinite, hgoes, Bool.false_eq_true, if_false, Nat.not_le.mpr hroom, Nat.not_le.mpr hlen]

/-- A score is written into the record of the rollout that it scores, and of a record nothing else (R382). -/
theorem getReq_writeScore (d : Dev) (ctx : Nat) (h score : Word) (slot : Nat) : (writeScore d ctx h score).now = d.now ∧
    ∃ w, getReq (writeScore d ctx h score) slot = { getReq d slot with reward := w } := by
  unfold writeScore
  split
  · exact ⟨rfl, _, rfl⟩
  next n r hscored =>
    split
    · exact ⟨rfl, _, rfl⟩
    · obtain ⟨d1, hd1⟩ : ∃ d1, poke d ctx (rolloutVa d r + 0x24) (natLe 4 score.toNat) = d1 := ⟨_, rfl⟩
      have hrec : recordsOf d1 = recordsOf d := by rw [← hd1, recordsOf_poke]
      dsimp only
      rw [hd1]
      obtain ⟨d2, hd2⟩ : ∃ d2, poke (modReq d1 n (fun r => { r with reward := score })) ctx (rolloutVa d r + 0x28) [3#8, 0#8] = d2 :=
        ⟨_, rfl⟩
      have hrec2 : recordsOf d2 = recordsOf (modReq d1 n (fun r => { r with reward := score })) := by rw [← hd2, recordsOf_poke]
      rw [hd2, now_of_recordsOf hrec2, getReq_of_recordsOf hrec2, ← getReq_of_recordsOf hrec]
      refine ⟨show d1.now = d.now from now_of_recordsOf hrec, ?_⟩
      by_cases hn : slot = n
      · subst hn
        exact ⟨score, by rw [getReq, modReq_reqs, smGet, smFind_smPut_same, Option.getD_some]⟩
      · exact ⟨_, by rw [getReq, modReq_reqs, smGet, smFind_smPut_ne _ _ hn]; rfl⟩

/-- What request r has become, q, once the samples l of a step of version ver have been delivered (R344, R358). -/
structure Delivered (now : Nat) (ver : Word) (l : List Sample) (r q : Req) : Prop where
  outLen : q.outLen = r.outLen + l.length
  outToks : q.outToks = r.outToks ++ l.map (fun s => (s.1, s.2.1))
  lastDeliv : q.lastDeliv = now
  version : q.vLast = ver
  processed : q.processed = r.processed
  stop : q.stop = r.stop

theorem deliver_delivers (d : Dev) (slot : Nat) (ver : Word) {l : List Sample} (hsome : l ≠ []) :
    Delivered d.now ver l (getReq d slot) (getReq (deliver d slot ver l) slot) := by
  unfold deliver
  extract_lets r first gap goal due miss lateBy hot r1 d1 d2 d3 d4 d5
  rw [if_neg (fun h => hsome (List.isEmpty_iff.mp h))]
  have hnoted : recordsOf d4 = recordsOf d3 := by
    unfold d4
    split
    · exact recordsOf_noteToks ..
    · rfl
  have hput : getReq d3 slot = r1 := by
    unfold d3
    rw [getReq, modReq_reqs, smGet, smFind_smPut_same, Option.getD_some]
  have hdelivered {d6 : Dev} (h : recordsOf d6 = recordsOf d3) : Delivered d.now ver l r (getReq d6 slot) := by
    rw [getReq_of_recordsOf h, hput]
    exact ⟨rfl, rfl, rfl, rfl, rfl, rfl⟩
  split
  · exact hdelivered ((recordsOf_tokenRecords ..).trans hnoted)
  · exact hdelivered hnoted

/-- Request r after a main step that filled n tokens of its prompt and offered no draft tokens (R358, R371). -/
def steppedReq (e : List Byte) (r : Req) (n : Nat) : Req :=
  let r1 := nextK e { r with processed := r.processed + n, draftToks := [] } 0 0
  if r1.processed < r1.promptLen then r1 else { r1 with state := .decode }

theorem steppedReq_frame (e : List Byte) (r : Req) (n : Nat) : ∃ k p m state, steppedReq e r n =
    { r with processed := r.processed + n, draftToks := [], k := k, specPaused := p, pausedSteps := m, state := state } := by
  obtain ⟨k, p, m, hnext⟩ := nextK_frame e { r with processed := r.processed + n, draftToks := [] } 0 0
  unfold steppedReq
  rw [hnext]
  dsimp only
  split
  · exact ⟨k, p, m, r.state, rfl⟩
  · exact ⟨k, p, m, .decode, rfl⟩

/-- The device once a scorer's first sample has gone to the rollout that it scores; another model's sample is no score (R382). -/
def scored (e : List Byte) (d : Dev) (r : Req) (l : List Sample) : Dev :=
  match seKind e, l with
  | 1, s :: _ => writeScore d r.ctx r.scores s.2.2
  | _, _ => d

theorem getReq_scored (e : List Byte) (d : Dev) (r : Req) (l : List Sample) (slot : Nat) : (scored e d r l).now = d.now ∧
    ∃ w, getReq (scored e d r l) slot = { getReq d slot with reward := w } := by
  unfold scored
  split
  · exact getReq_writeScore ..
  · exact ⟨rfl, _, rfl⟩

section
variable {e : List Byte} {d : Dev} {slot : Nat} {rows : List (BRow × Option Sample)} {smp : Sample} {r : Req} (ver : Word)
  (hr : getReq d slot = r) (hactive : isActive r = true) (hkeep : r.cancel = false) (hdrafts : r.draftToks = [])
  (hone : rows.filterMap (·.2) = [smp]) (hfinite : isNan32 smp.2.2 = false)
  (hstop : ∀ i, i < 8 → r.stopMask.getLsbD i = true → seStop e i ≠ smp.1) (hroom : r.outLen + 1 < r.maxNew)
  (hlen : r.promptLen + r.outLen + 1 < 2 ^ 20)
include hr hactive hkeep hdrafts hone hfinite hstop hroom hlen

/-- A request with one sample of a main step, that goes on after it, has it delivered (R358, R368). -/
theorem commitReq_one : commitReq e ver d slot rows =
    deliver (scored e (modReq d slot fun _ => steppedReq e r (rows.filter (fun b => b.1.kind == 1)).length) r [smp]) slot ver [smp] := by
  unfold commitReq
  rw [hr]
  extract_lets r0 fill samples drafts verify a offered r1 r2 d1
  have hgoes : (!isActive r0) = false := by
    rw [Bool.not_eq_false']
    exact hactive
  have hstays : r0.cancel = false := hkeep
  rw [hgoes, hstays]
  have hsamples : samples = [smp] := hone
  have hnodrafts : drafts = [] := hdrafts
  clear_value samples drafts
  subst hsamples hnodrafts
  have happly : applyStops e r0 offered r0.outLen = ([smp], none, 0) := applyStops_goes_on hfinite hstop hroom hlen
  rw [happly]
  rfl

/-- The one sample of a request that goes on is its next token (R358, R368). -/
theorem commitReq_delivers : Delivered d.now ver [smp] { r with processed := r.processed + (rows.filter (fun b => b.1.kind == 1)).length }
    (getReq (commitReq e ver d slot rows) slot) := by
  rw [commitReq_one ver hr hactive hkeep hdrafts hone hfinite hstop hroom hlen]
  obtain ⟨d1, hd1⟩ : ∃ d1, modReq d slot (fun _ => steppedReq e r (rows.filter (fun b => b.1.kind == 1)).length) = d1 := ⟨_, rfl⟩
  have hnow : d1.now = d.now := by rw [← hd1]; rfl
  have hput : getReq d1 slot = steppedReq e r (rows.filter (fun b => b.1.kind == 1)).length := by
    rw [← hd1, getReq, modReq_reqs, smGet, smFind_smPut_same, Option.getD_some]
  obtain ⟨k, p, m, state, hstepped⟩ := steppedReq_frame e r (rows.filter (fun b => b.1.kind == 1)).length
  obtain ⟨hnow2, w, hscored⟩ := getReq_scored e d1 r [smp] slot
  have h := deliver_delivers (scored e d1 r [smp]) slot ver (List.cons_ne_nil smp [])
  rw [hscored, hput, hstepped, hnow2, hnow] at h
  rw [hd1]
  exact ⟨h.outLen, h.outToks, h.lastDeliv, h.version, h.processed, h.stop⟩

end

end Sys2Proof.Machine
end

section
/-! PROOF. Requests are served in batch steps (09 R350 to R384). -/

namespace Sys2Proof.Machine

/-- Settles O58: each command by what the admission tests and the end of a request do with its record, the plan by the first group that can run,
the member by the pieces it has, the commit by the end of the launch. The layout of a batch table's pieces is the model's choice (log 32), and so is
that the step of a launch that faults ends its requests as R380 has a step end that fails on a member: DEVICE_FAULT, DETAIL 2 (log 52). -/
theorem requestsAreServedInBatchSteps : Obligations.RequestsAreServedInBatchSteps := by
  unfold Obligations.RequestsAreServedInBatchSteps
  refine ⟨fun s cid c => ⟨?_, ?_, ?_, ?_⟩, fun s ctx x hctx => ⟨exec_batchStepPlan_busy hctx, ?_, ?_, ?_⟩⟩
  · -- REQ.SUBMIT
    intro e slot hruns hinfo hclone hchk hentry hown hvocab hslot hfree gen r0 d0 r d
    refine ⟨fun p o i htest => reqSubmit_joins hruns hinfo hclone hchk hentry hown hvocab hslot hfree rfl rfl htest, fun fs htest => ⟨?_, ?_⟩⟩
    · exact reqSubmit_waits hruns hinfo hclone hchk hentry hown hvocab hslot hfree rfl rfl htest
    · exact reqSubmit_refused hruns hinfo hclone hchk hentry hown hvocab hslot hfree rfl rfl htest
  · -- REQ.CANCEL
    intro slot r hruns hinfo hchk hnamed
    exact ⟨reqCancel_complete hruns hinfo hchk hnamed,
      fun hstate hopen hin hget => reqCancel_marks hruns hinfo hchk hnamed hstate hopen hget hin,
      fun hstate hopen hout hget hown hslot => reqCancel_ends hruns hinfo hchk hnamed hstate hopen hget hout hown hslot⟩
  · -- REQ.QUERY
    exact fun slot r hruns hchk hnamed => reqQuery_answers hruns hchk hnamed
  · -- DEFERRAL_EXPIRE
    exact fun req r hget hname => ⟨deferralExpire_refuses hget hname, deferralExpire_waits hget⟩
  · -- BATCH_STEP_PLAN with no step in flight
    intro d1 x1 g gs e l d2 rows hidle hlives hfold hd1 hctx1 horder hentry hready hversion hdraft hgoal hrows hfit hdecode hsome hcopy hctx2
    exact batchStepPlan_launches hctx hidle hlives hfold hd1 hctx1 horder hentry hready hversion hcopy hctx2
      (planGroup_decode hdraft hgoal hrows hfit hdecode hsome x1 g.2)
  · -- BATCH_TABLE_RECEIVE
    intro pk g rest e hfirst hkind htable hown hidle hentry last
    subst hown
    obtain ⟨hctxs, hlaunches, hnext, hsame⟩ := tookPacket_kept s g pk rest
    have hctx' : smFind (tookPacket s g pk rest).ctxs pk.ctx = some x := by rw [hctxs, hctx]
    have hentry' : sEntry (tookPacket s g pk rest) pk.ctx (field pk.data 12 4) = some e := by rw [hsame, hentry]
    refine ⟨_, exec_batchTableReceive hfirst hkind htable hctx hidle, ?_⟩
    by_cases hlast : last
    · obtain ⟨rows, pins, ⟨y, hy, hst⟩, hz⟩ := receiveTable_launches hctx' hidle hentry' hlast
      rw [hnext] at hst hz
      exact ⟨y, _, hy, hst, rfl, rfl, rfl, rfl, rfl, rfl, rfl, fun hmore => (hmore hlast).elim, fun _ => ⟨rfl, rfl, hz⟩⟩
    · obtain ⟨⟨y, hy, hst⟩, hkept⟩ := receiveTable_notes hctx' hidle hentry' (Nat.not_le.mp hlast)
      exact ⟨y, _, hy, hst, rfl, rfl, rfl, rfl, rfl, rfl, rfl, fun _ => ⟨rfl, rfl, hkept.trans hlaunches⟩, fun h => (hlast h).elim⟩
  · -- BATCH_STEP_COMMIT
    intro st k z e hstep hlaunch hz hentry slots n reads ended
    refine ⟨batchStepCommit_runs hctx hstep hlaunch hz hentry, batchStepCommit_waits hctx hstep hlaunch hz hentry, ?_, ?_, ?_, ?_⟩
    · exact fun hended hremote => batchStepCommit_ended hctx hstep hlaunch hz hentry hended (commitStep_remote hlaunch hremote)
    · exact fun bs hended hlocal hdone hok hfault hread =>
        batchStepCommit_ended hctx hstep hlaunch hz hentry hended (commitStep_samples hlaunch hlocal hdone hok hfault hread)
    · exact fun hended hlocal hdone hfails =>
        batchStepCommit_ended hctx hstep hlaunch hz hentry hended (commitStep_fails hlaunch hlocal hdone hfails)
    · intro slot rows smp r hr hactive hkeep hdrafts hone hfinite hstop hroom hlen q
      have h := commitReq_delivers st.version hr hactive hkeep hdrafts hone hfinite hstop hroom hlen
      exact ⟨h.outLen, h.outToks, h.lastDeliv, h.version, h.processed, h.stop⟩

end Sys2Proof.Machine
end

section
/-! PROOF. What operations on a half-port leave as it was, and the flits that leave on a direct port (10 R392, R393, R396). -/

namespace Sys2Proof.Machine

/-! ### One half-port changes -/

@[simp] theorem portOf_modPort_same (d : Dev) (h : Nat) (f : HalfPort → HalfPort) : portOf (modPort d h f) h = f (portOf d h) :=
  portOf_setPort_same ..

theorem portOf_modPort_ne (d : Dev) {h k : Nat} (f : HalfPort → HalfPort) (hk : k ≠ h) : portOf (modPort d h f) k = portOf d k :=
  portOf_setPort_ne d _ hk

@[simp] theorem portOf_emit (d : Dev) (m : OutMsg) (h : Nat) : portOf (emit d m) h = portOf d h := rfl
@[simp] theorem portOf_tallySend (d : Dev) (u : TUpd) (h : Nat) : portOf (tallySend d u) h = portOf d h := rfl
@[simp] theorem portOf_tallyCount (d : Dev) (qid inst amount src h : Nat) : portOf (tallyCount d qid inst amount src) h = portOf d h := rfl

/-- Nothing but half-port h, the tally and n flits of 1,024 bytes that have left half-port h differs between d and e. -/
structure Flits (h n : Nat) (d e : Dev) : Prop where
  rest : e = { d with fabric := { d.fabric with ports := e.fabric.ports }, out := e.out, tally := e.tally }
  others : ∀ k, k ≠ h → portOf e k = portOf d k
  sent : ∃ l, e.out = l ++ d.out ∧ l.length = n ∧ ∀ m ∈ l, ∃ b, m = .flit h b ∧ b.length = 1024

namespace Flits
variable {h n m : Nat} {d e f : Dev}

theorem refl (h : Nat) (d : Dev) : Flits h 0 d d := ⟨rfl, fun _ _ => rfl, [], rfl, rfl, nofun⟩

theorem trans (a : Flits h n d e) (b : Flits h m e f) : Flits h (n + m) d f := by
  obtain ⟨l, hl, hn, hflits⟩ := a.sent
  obtain ⟨l', hl', hm, hflits'⟩ := b.sent
  refine ⟨?_, fun k hk => (b.others k hk).trans (a.others k hk), l' ++ l, ?_, ?_, fun x hx => ?_⟩
  · rw [b.rest, a.rest]
  · rw [hl', hl, List.append_assoc]
  · rw [List.length_append, hm, hn, Nat.add_comm]
  · exact (List.mem_append.mp hx).elim (hflits' x) (hflits x)

theorem setPort (a : Flits h n d e) (q : HalfPort) : Flits h n d (setPort e h q) :=
  a.trans ⟨rfl, fun _ hk => portOf_setPort_ne e q hk, [], rfl, rfl, nofun⟩

theorem modPort (a : Flits h n d e) (g : HalfPort → HalfPort) : Flits h n d (modPort e h g) := a.setPort _

theorem tallySend (a : Flits h n d e) (u : TUpd) : Flits h n d (tallySend e u) :=
  a.trans (m := 0) ⟨rfl, fun _ _ => rfl, [], rfl, rfl, nofun⟩

theorem tallyCount (a : Flits h n d e) (qid inst amount src : Nat) : Flits h n d (tallyCount e qid inst amount src) := a.tallySend _

theorem emit (a : Flits h n d e) {b : List Byte} (hb : b.length = 1024) : Flits h (n + 1) d (emit e (.flit h b)) :=
  a.trans ⟨rfl, fun _ _ => rfl, [.flit h b], rfl, rfl, fun _ hm => ⟨b, List.mem_singleton.mp hm, hb⟩⟩

theorem now (a : Flits h n d e) : e.now = d.now := by rw [a.rest]
theorem portConfig (a : Flits h n d e) (k : Nat) : portConfig e k = portConfig d k := by rw [a.rest]; rfl
theorem out_of_none (a : Flits h 0 d e) : e.out = d.out := by
  obtain ⟨l, hl, hn, -⟩ := a.sent
  rw [hl, List.length_eq_zero_iff.mp hn, List.nil_append]

end Flits

section
variable {s : State} {h n : Nat} {e : Dev} {q : HalfPort}

theorem Flits.onlyPort (a : Flits h n s.dev e) : OnlyPort h s { s with dev := e } :=
  ⟨congrArg (fun d => { s with dev := d }) a.rest, a.others⟩

theorem Flits.portIs (a : Flits h 0 s.dev e) (hq : portOf e h = q) : PortIs h s { s with dev := e } q := ⟨a.onlyPort, hq, a.out_of_none⟩

theorem Flits.portSends (a : Flits h n s.dev e) (hq : portOf e h = { q with owed := (portOf e h).owed }) :
    PortSends h s { s with dev := e } n q := ⟨a.onlyPort, hq, a.sent⟩

end

/-! ### Flits -/

/-- A flit is 1,024 bytes long whatever its fields and its body (10 R392). -/
theorem flitBytes_length (ty seq ack vc credits : Nat) (body : List Byte) : (flitBytes ty seq ack vc credits body).length = 1024 := by
  simp only [flitBytes, List.length_append, natLe_length, slice_length]

/-- A half-port without the credits that its next flit returns. -/
def owedReturned (q : HalfPort) : HalfPort :=
  let r := creditReturn q.owed
  { q with owed := setNth q.owed r.1 (nth 0 q.owed r.1 - r.2) }

theorem sendFlit_eq (d : Dev) (h ty seq : Nat) (body : List Byte) : ∃ b : List Byte, b.length = 1024 ∧
    sendFlit d h ty seq body = emit (modPort d h owedReturned) (.flit h b) := ⟨_, flitBytes_length .., rfl⟩

theorem portOf_sendFlit (d : Dev) (h ty seq : Nat) (body : List Byte) : portOf (sendFlit d h ty seq body) h = owedReturned (portOf d h) := by
  obtain ⟨b, -, heq⟩ := sendFlit_eq d h ty seq body
  rw [heq, portOf_emit, portOf_modPort_same]

theorem Flits.sendFlit {h n : Nat} {d e : Dev} (a : Flits h n d e) (ty seq : Nat) (body : List Byte) :
    Flits h (n + 1) d (sendFlit e h ty seq body) := by
  obtain ⟨b, hb, heq⟩ := sendFlit_eq e h ty seq body
  rw [heq]
  exact (a.modPort _).emit hb

/-! ### Half-ports that begin to train, or go DOWN -/

theorem portOf_startTrain (d : Dev) (h : Nat) : portOf (startTrain d h) h = { portOf d h with state := .train, stateAt := d.now } :=
  portOf_modPort_same d h fun p => { p with state := .train, stateAt := d.now }

theorem Flits.onlyPort_startTrain {s : State} {h n : Nat} {e : Dev} (a : Flits h n s.dev e) :
    OnlyPort h s { s with dev := startTrain e h } := by
  have b := a.modPort (fun p => { p with state := .train, stateAt := e.now })
  refine ⟨congrArg (fun d => { s with dev := d }) ?_, b.others⟩
  exact congrArg (Machine.emit · (.train h)) b.rest

/-- Half-port h of s, which was q but for its state, begins to train in t (10 R413). -/
def TrainsFrom (h : Nat) (s t : State) (q : HalfPort) : Prop :=
  OnlyPort h s t ∧ portOf t.dev h = { q with state := .train, stateAt := s.dev.now } ∧ t.dev.out = .train h :: s.dev.out
    ∧ t.dev.tally = s.dev.tally

theorem Flits.trainsFrom {s : State} {h : Nat} {e : Dev} {q : HalfPort} (a : Flits h 0 s.dev e) (hq : portOf e h = q)
    (htally : e.tally = s.dev.tally) : TrainsFrom h s { s with dev := startTrain e h } q := by
  refine ⟨a.onlyPort_startTrain, ?_, congrArg (_ :: ·) a.out_of_none, htally⟩
  rw [portOf_startTrain, hq, a.now]

section
variable {d : Dev} {h : Nat} (hretry : (portOf d h).inRetry = []) (hqueued : (portOf d h).queued = [])
include hretry hqueued

/-- A half-port that holds no packet loses none when it goes DOWN. -/
theorem portDown_empty : portDown d h = setPort d h { ({} : HalfPort) with
    state := if portConfig d h = 0 then .off else .down, peerMismatch := (portOf d h).peerMismatch
    digestDiff := (portOf d h).digestDiff, arb := (portOf d h).arb, rxFill := (portOf d h).rxFill, stateAt := d.now } := by
  simp only [portDown, hretry, hqueued]
  rfl

theorem portDown_tally : (portDown d h).tally = d.tally := by rw [portDown_empty hretry hqueued, setPort_tally]

end

theorem Flits.portIs_portDown {s : State} {h : Nat} {e : Dev} {q : HalfPort} (a : Flits h 0 s.dev e) (hq : portOf e h = q)
    (hretry : q.inRetry = []) (hqueued : q.queued = []) : PortIs h s { s with dev := portDown e h } (downPort s h q) := by
  subst hq
  rw [portDown_empty hretry hqueued]
  refine (a.setPort _).portIs ?_
  rw [portOf_setPort_same, a.portConfig, a.now]
  rfl

end Sys2Proof.Machine
end

section
/-! PROOF. Half-ports come up and go DOWN (10 R385, R387, R414 to R416; 18 R644). -/

namespace Sys2Proof.Machine

section
variable {s : State} {h : Fin 36}

/-! ### DETECT, AN and DOWN -/

theorem portSignalDetect_negotiates (hstate : (portOf s.dev h).state = .detect) (heth : 2 ≤ portConfig s.dev h)
    (hcopper : fabMedia s.dev (h / 2) = 0) :
    exec (.portSignalDetect h) s = .next { s with dev := enterState s.dev h .an } := by
  simp only [exec, execPortSignalDetect, onDev_next, hstate, heth, hcopper, ne_eq, not_true_eq_false, if_false, and_self, if_true]

theorem portSignalDetect_trains (hstate : (portOf s.dev h).state = .detect) (hdirect : portConfig s.dev h < 2 ∨ fabMedia s.dev (h / 2) ≠ 0) :
    exec (.portSignalDetect h) s = .next { s with dev := startTrain s.dev h } := by
  have hno : ¬ (2 ≤ portConfig s.dev h ∧ fabMedia s.dev (h / 2) = 0) := by omega
  simp only [exec, execPortSignalDetect, onDev_next, hstate, hno, ne_eq, not_true_eq_false, if_false]

theorem portAnComplete_trains (hstate : (portOf s.dev h).state = .an) :
    exec (.portAnComplete h) s = .next { s with dev := startTrain s.dev h } := by
  simp only [exec, execPortAnComplete, onDev_next, hstate, if_true]

theorem limitPassed_down (hstate : (portOf s.dev h).state = .down) (hdue : (portOf s.dev h).stateAt + 400000000 ≤ s.dev.now) :
    limitPassed s.dev h = true := by
  simp only [limitPassed, hstate, stateLimit, hdue, decide_true]

theorem portDownWaitExpire_detects (hstate : (portOf s.dev h).state = .down) (hpassed : limitPassed s.dev h = true) :
    exec (.portDownWaitExpire h) s = .next { s with dev := enterState s.dev h .detect } := by
  simp only [exec, execPortDownWaitExpire, onDev_next, hstate, hpassed, and_self, if_true]

/-! ### TRAIN -/

/-- A half-port whose lanes of a mask have been trained at both ends (10 R387, R416). -/
def lanesTrained (now : Nat) (mask lanes pol : BitVec 8) (rev : Bool) (q : HalfPort) : HalfPort :=
  { q with state := .align, stateAt := now, laneOk := lanes &&& mask, revPol := pol, laneRev := rev }

/-- A direct port that goes on with the lanes of a mask (10 R416). -/
def onLanes (mask : Nat) (q : HalfPort) : HalfPort := { q with degraded := true, laneOk := BitVec.ofNat 8 mask }

theorem ofNat_and_lanes (lanes : BitVec 8) (mask : Nat) : BitVec.ofNat 8 (lanes.toNat % 256 &&& mask) = lanes &&& BitVec.ofNat 8 mask := by
  rw [Nat.mod_eq_of_lt lanes.isLt, BitVec.ofNat_and, BitVec.ofNat_toNat, BitVec.setWidth_eq]

/-- What training comes to, with the lanes that it needs named (10 R416). -/
theorem portTrainComplete_eq {lanes pol : BitVec 8} {rev : Bool} (hstate : (portOf s.dev h).state = .train) :
    exec (.portTrainComplete h lanes pol rev) s = onDev s fun d =>
      if (portOf d h).degraded then
        if hasLanes lanes.toNat (portOf d h).laneOk.toNat then
          modPort d h (lanesTrained d.now (portOf d h).laneOk lanes pol rev)
        else bringUpFail d h
      else if hasLanes lanes.toNat (laneMask d h) then modPort d h (lanesTrained d.now (BitVec.ofNat 8 (laneMask d h)) lanes pol rev)
      else if portConfig d h ≠ 1 then bringUpFail d h
      else if hasLanes lanes.toNat 0x0F then startTrain (modPort d h (onLanes 0x0F)) h
      else if hasLanes lanes.toNat 0xF0 then startTrain (modPort d h (onLanes 0xF0)) h
      else bringUpFail d h := by
  simp only [exec, execPortTrainComplete, onDev_next, trained, hstate, ne_eq, not_true_eq_false, if_false, ofNat_and_lanes,
    BitVec.ofNat_toNat, BitVec.setWidth_eq]
  rfl

/-- A direct port uses all eight lanes of its port (10 R385). -/
theorem laneMask_direct {d : Dev} {h : Nat} (hcfg : portConfig d h = 1) : laneMask d h = 0xFF := by
  rw [laneMask, hcfg]
  rfl

/-- A lane of the low half that has failed is one of all eight. -/
theorem hasLanes_all {lanes : Nat} (hlow : hasLanes lanes 0x0F = false) : hasLanes lanes 0xFF = false := by
  refine Bool.eq_false_iff.mpr fun hall => Bool.eq_false_iff.mp hlow (List.all_eq_true.mpr fun i hi => ?_)
  have hlane := List.all_eq_true.mp hall i hi
  have hfull : ∀ i ∈ span 0 8, bit 0xFF i = true := by decide
  rw [hfull i hi] at hlane
  rw [show bit lanes i = true by simpa using hlane, Bool.or_true]

/-! ### ALIGN and IDENT -/

/-- A direct port that waits for the IDENT of its peer (10 R414, R415). -/
def awaitsIdent (now : Nat) (q : HalfPort) : HalfPort := { q with state := .ident, stateAt := now, owed := owesAtIdent q }

/-- A half-port that carries packets, its link begun anew (10 R414). -/
def comesUp (now : Nat) (q : HalfPort) : HalfPort := { q with state := .up, stateAt := now, replays := 0, nakSent := false }

theorem portAlignComplete_idents (hstate : (portOf s.dev h).state = .align) (hcfg : portConfig s.dev h = 1) :
    exec (.portAlignComplete h) s =
      .next { s with dev := sendCtrl (modPort s.dev h (awaitsIdent s.dev.now)) h 1 (identCredits s.dev h) } := by
  simp only [exec, execPortAlignComplete, onDev_next, hstate, hcfg, ne_eq, not_true_eq_false, if_false, if_true]
  rfl

theorem portUp_anew {d : Dev} {h : Nat} (hanew : (portOf d h).retrain = false) : portUp d h = modPort d h (comesUp d.now) := by
  simp only [portUp, modPort, comesUp, hanew]

theorem portAlignComplete_up (hstate : (portOf s.dev h).state = .align) (hcfg : portConfig s.dev h ≠ 1)
    (hanew : (portOf s.dev h).retrain = false) : exec (.portAlignComplete h) s = .next { s with dev := modPort s.dev h (comesUp s.dev.now) } := by
  simp only [exec, execPortAlignComplete, onDev_next, hstate, hcfg, ne_eq, not_true_eq_false, if_false, portUp_anew hanew]

/-- A half-port that knows its peer and has begun to count flits and credits anew (10 R393, R397, R415; log 3). -/
def identTaken (dev : Nat) (diff : Bool) (credits : List Nat) (q : HalfPort) : HalfPort :=
  { q with
    peer := dev, digestDiff := diff, txSeq := 0, txAcked := 1023, retry := [], inRetry := []
    credits := (span 0 4).map (nth 0 credits) }

/-- A half-port that leads to the wrong device or port (10 R415). -/
def mismatched (diff : Bool) (q : HalfPort) : HalfPort := { q with peerMismatch := true, digestDiff := diff }

section
variable {dev port : Nat} {credits : List Nat} {digest : BitVec 64} (hstate : (portOf s.dev h).state = .ident)
  (hcfg : portConfig s.dev h = 1)
include hstate hcfg

theorem ident_up (hpeer : (dev, port) = directPeer s.dev (h / 2)) (hanew : (portOf s.dev h).retrain = false) :
    exec (.ident h dev port credits digest) s = .next { s with
      dev := modPort (modPort s.dev h (identTaken dev (decide (digest ≠ digest64 s.dev)) credits)) h (comesUp s.dev.now) } := by
  have hgot : gotIdent h dev port credits digest s.dev =
      portUp (modPort s.dev h (identTaken dev (decide (digest ≠ digest64 s.dev)) credits)) h := by
    simp only [gotIdent]
    rw [if_neg (by simp only [hstate, hcfg, ne_eq, not_true_eq_false, or_self, not_false_eq_true]), if_neg (not_not_intro hpeer),
      if_neg (by rw [hanew]; nofun)]
    rfl
  simp only [exec, execIdent, onDev_next]
  rw [hgot, portUp_anew (by rw [portOf_modPort_same]; exact hanew)]
  rfl

theorem ident_mismatch (hpeer : (dev, port) ≠ directPeer s.dev (h / 2)) :
    exec (.ident h dev port credits digest) s = .next { s with
      dev := bringUpFail (modPort s.dev h (mismatched (decide (digest ≠ digest64 s.dev)))) h } := by
  simp only [exec, execIdent, onDev_next, gotIdent, hstate, hcfg, hpeer, ne_eq, not_true_eq_false, or_self, if_false, not_false_eq_true,
    if_true]
  rfl

end

/-! ### Time passes, or the cable is new -/

theorem isTraining_iff (q : PState) : [PState.an, .train, .align, .ident].contains q = true ↔
    q = .an ∨ q = .train ∨ q = .align ∨ q = .ident := by
  cases q <;> decide

theorem portStateTimeout_fails (hstate : [PState.an, .train, .align, .ident].contains (portOf s.dev h).state = true)
    (hpassed : limitPassed s.dev h = true) : exec (.portStateTimeout h) s = .next { s with dev := bringUpFail s.dev h } := by
  simp only [exec, execPortStateTimeout, onDev_next, hstate, hpassed, Bool.and_self, if_true]

theorem cableConnect_down (hstate : [PState.an, .train, .align, .ident].contains (portOf s.dev h).state = true) :
    exec (.cableConnect h) s = .next { s with dev := portDown s.dev h } := by
  simp only [exec, execCableConnect, onDev_next, hstate, if_true]

theorem portStateTimeout_waits (hsoon : limitPassed s.dev h = false) : exec (.portStateTimeout h) s = .next s := by
  simp only [exec, execPortStateTimeout, onDev_next, hsoon, Bool.and_false, Bool.false_eq_true, if_false]

theorem portDownWaitExpire_waits (hsoon : limitPassed s.dev h = false) : exec (.portDownWaitExpire h) s = .next s := by
  simp only [exec, execPortDownWaitExpire, onDev_next, hsoon, Bool.false_eq_true, and_false, if_false]

/-- A row of another state than the half-port's changes nothing. -/
theorem exec_otherState {lanes pol : BitVec 8} {rev : Bool} {row : Instr} {st : PState}
    (hrow : (row, st) ∈ [(Instr.portSignalDetect h, PState.detect), (.portAnComplete h, .an), (.portAlignComplete h, .align),
      (.portTrainComplete h lanes pol rev, .train), (.portDownWaitExpire h, .down)]) (hstate : (portOf s.dev h).state ≠ st) :
    exec row s = .next s := by
  simp only [List.mem_cons, Prod.mk.injEq, List.not_mem_nil, or_false] at hrow
  rcases hrow with ⟨rfl, rfl⟩ | ⟨rfl, rfl⟩ | ⟨rfl, rfl⟩ | ⟨rfl, rfl⟩ | ⟨rfl, rfl⟩
  · simp only [exec, execPortSignalDetect, onDev_next, hstate, ne_eq, not_false_eq_true, if_true]
  · simp only [exec, execPortAnComplete, onDev_next, hstate, if_false]
  · simp only [exec, execPortAlignComplete, onDev_next, hstate, ne_eq, not_false_eq_true, if_true]
  · simp only [exec, execPortTrainComplete, onDev_next, trained, hstate, ne_eq, not_false_eq_true, if_true]
  · simp only [exec, execPortDownWaitExpire, onDev_next, hstate, false_and, if_false]

end

/-- A change of the half-port alone. -/
theorem portIs_modPort (s : State) (h : Nat) (f : HalfPort → HalfPort) :
    PortIs h s { s with dev := modPort s.dev h f } (f (portOf s.dev h)) ∧ (modPort s.dev h f).tally = s.dev.tally :=
  ⟨((Flits.refl h s.dev).modPort f).portIs (portOf_modPort_same ..), rfl⟩

/-- Settles O51: each row by the state that the half-port is in. That it begins anew at SEQ 0 with 1023 acknowledged is the model's choice
(log 3). -/
theorem portsComeUpAndGoDown : Obligations.PortsComeUpAndGoDown := by
  unfold Obligations.PortsComeUpAndGoDown
  intro s h lanes pol rev p cfg now is trains
  have hself := Flits.refl h s.dev
  have htrain (f : HalfPort → HalfPort) : trains (f p) { s with dev := startTrain (modPort s.dev h f) h } :=
    (hself.modPort f).trainsFrom (portOf_modPort_same ..) rfl
  have hagain : trains p { s with dev := startTrain s.dev h } := hself.trainsFrom rfl rfl
  refine ⟨fun hstate => ⟨fun heth hcopper => ?_, fun hdirect => ?_⟩, fun hstate => ?_, fun hstate => ⟨?_, ?_, ?_, ?_⟩,
    fun hstate => ⟨fun hcfg => ?_, fun hcfg hanew => ?_⟩, fun hstate hcfg dev port credits digest => ⟨?_, ?_⟩,
    fun hstate hretry hqueued => ?_, fun hstate hdue => ?_,
    fun hsoon => ⟨portStateTimeout_waits hsoon, portDownWaitExpire_waits hsoon⟩, fun row st => exec_otherState⟩
  · exact ⟨_, portSignalDetect_negotiates hstate heth hcopper, portIs_modPort ..⟩
  · exact ⟨_, portSignalDetect_trains hstate hdirect, hagain⟩
  · exact ⟨_, portAnComplete_trains hstate, hagain⟩
  · intro hwhole hlanes
    refine ⟨_, (portTrainComplete_eq hstate).trans (onDev_next ..), ?_⟩
    rw [if_neg (by rw [hwhole]; nofun), if_pos hlanes]
    exact portIs_modPort ..
  · intro hhalf hlanes
    refine ⟨_, (portTrainComplete_eq hstate).trans (onDev_next ..), ?_⟩
    rw [if_pos hhalf, if_pos hlanes]
    exact portIs_modPort ..
  · intro hwhole hcfg hall hlow
    refine ⟨_, (portTrainComplete_eq hstate).trans (onDev_next ..), ?_⟩
    rw [if_neg (by rw [hwhole]; nofun), laneMask_direct hcfg, if_neg (by rw [hall]; nofun), if_neg (not_not_intro hcfg), if_pos hlow]
    exact htrain _
  · intro hwhole hcfg hlow hhigh
    refine ⟨_, (portTrainComplete_eq hstate).trans (onDev_next ..), ?_⟩
    rw [if_neg (by rw [hwhole]; nofun), laneMask_direct hcfg, if_neg (by rw [hasLanes_all hlow]; nofun), if_neg (not_not_intro hcfg),
      if_neg (by rw [hlow]; nofun), if_pos hhigh]
    exact htrain _
  · refine ⟨_, portAlignComplete_idents hstate hcfg, ((hself.modPort _).sendFlit ..).portSends ?_, rfl⟩
    rw [portOf_sendFlit, portOf_modPort_same]
    rfl
  · exact ⟨_, portAlignComplete_up hstate hcfg hanew, portIs_modPort ..⟩
  · intro hpeer hanew
    refine ⟨_, ident_up hstate hcfg hpeer hanew, ((hself.modPort _).modPort _).portIs ?_, rfl⟩
    rw [portOf_modPort_same, portOf_modPort_same]
    rfl
  · intro hpeer hretry hqueued
    exact ⟨_, ident_mismatch hstate hcfg hpeer, ((hself.modPort _).tallySend _).portIs_portDown (portOf_modPort_same ..) hretry hqueued⟩
  · have hstate := (isTraining_iff _).mpr hstate
    exact ⟨fun hpassed => ⟨_, portStateTimeout_fails hstate hpassed, (hself.tallySend _).portIs_portDown rfl hretry hqueued⟩,
      _, cableConnect_down hstate, hself.portIs_portDown rfl hretry hqueued, portDown_tally hretry hqueued⟩
  · exact ⟨_, portDownWaitExpire_detects hstate (limitPassed_down hstate hdue), portIs_modPort ..⟩

end Sys2Proof.Machine
end

section
/-! PROOF. Flits are taken in order, acknowledged and sent again, and links are retrained (10 R392 to R396, R398). -/

namespace Sys2Proof.Machine

/-! ### Sending flits -/

/-- Half-port h has sent n flits between d and e, where it is q but for the credits that it owes. -/
structure Sends (h n : Nat) (d e : Dev) (q : HalfPort) : Prop where
  flits : Flits h n d e
  port : portOf e h = { q with owed := (portOf e h).owed }

namespace Sends
variable {h n : Nat} {d e : Dev} {q : HalfPort}

theorem of_flits (a : Flits h n d e) : Sends h n d e (portOf e h) := ⟨a, rfl⟩

theorem sendFlit (a : Sends h n d e q) (ty seq : Nat) (body : List Byte) : Sends h (n + 1) d (sendFlit e h ty seq body) q := by
  refine ⟨a.flits.sendFlit .., ?_⟩
  rw [portOf_sendFlit, a.port]
  rfl

/-- A change of the half-port that does not turn on what it owes. -/
theorem modPort (a : Sends h n d e q) (g : HalfPort → HalfPort) (hg : ∀ r o, g { r with owed := o } = { g r with owed := o }) :
    Sends h n d (modPort e h g) (g q) := by
  refine ⟨a.flits.modPort g, ?_⟩
  rw [portOf_modPort_same, a.port, hg]

theorem portSends {s : State} (a : Sends h n s.dev e q) : PortSends h s { s with dev := e } n q := a.flits.portSends a.port

end Sends

/-! ### Flits that arrive -/

/-- A half-port after the ACK and the credits that a flit carries (10 R393, R394, R398). -/
def acked (now : Nat) (f : List Byte) (q : HalfPort) : HalfPort :=
  let w := field f 0 4
  let r := ackRetry now q (bits w 19 10)
  { r with credits := setNth r.credits (bits w 9 8) (nth 0 r.credits (bits w 9 8) + bits w 7 0) }

section
variable {now : Nat} {f : List Byte} {q : HalfPort}

theorem acked_unknown (hnone : ∀ u ∈ q.retry, u.1 ≠ bits (field f 0 4) 19 10) : acked now f q = flitAcked now q f none [] := by
  have hfind : q.retry.findIdx? (fun u => u.1 == bits (field f 0 4) 19 10) = none :=
    List.findIdx?_eq_none_iff.mpr fun u hu => beq_false_of_ne (hnone u hu)
  simp only [acked, ackRetry, hfind]
  rfl

theorem acked_known {l r : List (Nat × List Byte)} {b : List Byte} (hretry : q.retry = l ++ (bits (field f 0 4) 19 10, b) :: r)
    (hfirst : ∀ u ∈ l, u.1 ≠ bits (field f 0 4) 19 10) : acked now f q = flitAcked now q f (some l) r := by
  have hnone : l.findIdx? (fun u => u.1 == bits (field f 0 4) 19 10) = none :=
    List.findIdx?_eq_none_iff.mpr fun u hu => beq_false_of_ne (hfirst u hu)
  have hfind : q.retry.findIdx? (fun u => u.1 == bits (field f 0 4) 19 10) = some l.length := by
    rw [hretry, List.findIdx?_append, hnone, List.findIdx?_cons, beq_self_eq_true, if_pos rfl]
    simp
  have htake : q.retry.take (l.length + 1) = l ++ [(bits (field f 0 4) 19 10, b)] := by
    rw [hretry, List.take_length_add_append]
    rfl
  have hdrop : q.retry.drop (l.length + 1) = r := by
    rw [hretry, List.drop_length_add_append]
    rfl
  simp only [acked, ackRetry, hfind, htake, hdrop, List.map_append, List.map_cons, List.map_nil]
  rfl

end

/-- A half-port that has taken the DATA flit of a SEQ (10 R395). -/
def wentOn (seq : Nat) (q : HalfPort) : HalfPort := { q with rxNext := (seq + 1) % 1024, nakSent := false }

/-- The device once a DATA flit has been acknowledged and its SEQ taken. -/
def flitNoted (d : Dev) (h : Nat) (f : List Byte) : Dev :=
  modPort (modPort d h (acked d.now f)) h (wentOn (bits (field f 0 4) 29 20))

/-- A half-port that holds these bytes of a packet not yet whole. -/
def holding (bs : List Byte) (q : HalfPort) : HalfPort := { q with rxBuf := bs }

theorem portOf_flitNoted (d : Dev) (h : Nat) (f : List Byte) :
    portOf (flitNoted d h f) h = wentOn (bits (field f 0 4) 29 20) (acked d.now f (portOf d h)) := by
  simp only [flitNoted, portOf_modPort_same]

theorem flits_flitNoted (d : Dev) (h : Nat) (f : List Byte) : Flits h 0 d (flitNoted d h f) := ((Flits.refl h d).modPort _).modPort _

theorem flitNoted_frame (d : Dev) (h : Nat) (f : List Byte) : ∃ ports, flitNoted d h f = { d with fabric := { d.fabric with ports := ports } } :=
  ⟨_, rfl⟩

theorem rxBuf_acked (now : Nat) (f : List Byte) (q : HalfPort) : (acked now f q).rxBuf = q.rxBuf := by
  simp only [acked, ackRetry]
  split <;> rfl

theorem holding_self {q : HalfPort} {bs : List Byte} (h : q.rxBuf = bs) : holding bs q = q := by
  rw [← h]
  rfl

section
variable {d d' : Dev} {h : Nat} {f rest : List Byte} (hcfg : portConfig d h = 1) (hup : (portOf d h).state = .up)
include hcfg hup

/-- A flit that fails its CRC is answered with one NAK (10 R395). -/
theorem gotFlit_bad (hcrc : (crc32c (f.take 1020)).toNat ≠ field f 1020 4) : gotFlit h f d =
    if (portOf d h).nakSent then tallyCount d 0x40 h 1 (4000 + h)
    else sendCtrl (modPort (tallyCount d 0x40 h 1 (4000 + h)) h fun p => { p with nakSent := true }) h 0 (portOf d h).rxNext := by
  simp only [gotFlit, hcfg, hup, hcrc, ne_eq, not_true_eq_false, decide_true, Bool.true_or, Bool.not_true, Bool.false_eq_true, or_self,
    if_false, not_false_eq_true, if_true]

theorem gotFlit_next (hnext : NextFlit (portOf d h) f) (hbuf : (portOf d h).rxBuf = [])
    (htake : takeWhole h (slice f 4 1016) (flitNoted d h f) 128 = (rest, d')) : gotFlit h f d = modPort d' h (holding rest) := by
  obtain ⟨-, hcrc, hdata, hseq⟩ := hnext
  have hrx : (portOf (flitNoted d h f) h).rxBuf = [] := by
    rw [portOf_flitNoted, ← hbuf]
    exact rxBuf_acked ..
  have heq : gotFlit h f d =
      let r := takeWhole h ((portOf (flitNoted d h f) h).rxBuf ++ slice f 4 1016) (flitNoted d h f) 128
      modPort r.2 h (holding r.1) := by
    simp only [gotFlit, hcfg, hup, hcrc, hdata, ne_eq, not_true_eq_false, decide_true, Bool.true_or, Bool.not_true, Bool.false_eq_true,
      or_self, if_false, true_and]
    rw [if_pos hseq]
    rfl
  rw [heq, hrx, List.nil_append, htake]

end

/-! ### Packets within a flit -/

/-- A half-port whose receive buffer holds a packet more (10 R397). -/
def filled (p : Packet) (q : HalfPort) : HalfPort := { q with rxFill := setNth q.rxFill p.vc (nth 0 q.rxFill p.vc + packetSize p) }

/-- The device that has received a packet and pauses no one. -/
def received (d : Dev) (h : Nat) (p : Packet) : Dev :=
  let d1 := modPort d h (filled p)
  { d1 with fabric := { d1.fabric with rxq := d1.fabric.rxq ++ [(h, p)] } }

theorem portOf_received (d : Dev) (h : Nat) (p : Packet) : portOf (received d h p) h = filled p (portOf d h) :=
  portOf_modPort_same d h (filled p)

theorem portOf_received_ne (d : Dev) {h k : Nat} (p : Packet) (hk : k ≠ h) : portOf (received d h p) k = portOf d k :=
  portOf_modPort_ne d (filled p) hk

theorem received_frame (d : Dev) (h : Nat) (p : Packet) : ∃ ports, received d h p =
    { d with fabric := { d.fabric with ports := ports, rxq := d.fabric.rxq ++ [(h, p)] } } := ⟨_, rfl⟩

/-- Only an Ethernet half-port with flow control on pauses its partner (10 R406). -/
theorem bufferIn_received {d : Dev} {h : Nat} (p : Packet) (hpause : ¬ (pfcOn d = true ∧ 2 ≤ portConfig d h)) :
    bufferIn d h p = received d h p :=
  if_neg fun hyes => hpause ⟨hyes.1, hyes.2.1⟩

theorem arrive_received {d : Dev} {h : Nat} {p : Packet} (hkind : knownKind p.kind = true) (hdst : p.dst = myId d)
    (hcfg : portConfig d h = 1) : arrive d h p = received d h p := by
  rw [← bufferIn_received p (d := d) (h := h) (by omega)]
  simp only [arrive, hkind, hdst, Bool.not_true, Bool.false_eq_true, if_false, if_true]

theorem takeWhole_zeros {bs : List Byte} (hzero : zeros bs = true) (h : Nat) (d : Dev) (n : Nat) : takeWhole h bs d (n + 1) = ([], d) := by
  rw [takeWhole, if_pos hzero]

/-- The bytes of one packet, and zeros behind it. -/
theorem takeWhole_packet {bs : List Byte} (hbytes : zeros bs = false) (hsize : packetSize (packetOf bs) ≤ bs.length)
    (hrest : zeros (bs.drop (packetSize (packetOf bs))) = true) (h : Nat) (d : Dev) (n : Nat) :
    takeWhole h bs d (n + 2) = ([], arrive d h (packetOf bs)) := by
  have hlen : 16 ≤ packetSize (packetOf bs) := Nat.le_add_right ..
  rw [takeWhole, if_neg (by rw [hbytes]; nofun), if_neg (by omega)]
  exact (if_neg (by omega)).trans (takeWhole_zeros hrest ..)

/-! ### Replays -/

theorem sends_foldl_sendFlit {h : Nat} {d : Dev} {q : HalfPort} (l : List (Nat × List Byte)) : ∀ {n : Nat} {e : Dev}, Sends h n d e q →
    Sends h (n + l.length) d (l.foldl (fun d f => sendFlit d h 1 f.1 f.2) e) q := by
  induction l with
  | nil => exact id
  | cons f l ih =>
    intro n e a
    have b := ih (a.sendFlit 1 f.1 f.2)
    rwa [Nat.add_right_comm] at b

/-- A half-port that has counted a replay, from which ACK progress is awaited anew (10 R395, R396). -/
def replayed (now : Nat) (q : HalfPort) : HalfPort := { q with replays := q.replays + 1, ackAt := now }

/-- The device as the flits from a SEQ on are about to be sent again: the replay is counted. -/
def replayCounted (d : Dev) (h : Nat) : Dev :=
  modPort (tallyCount (modPort d h fun p => { p with replays := p.replays + 1 }) 0x41 h 1 (4000 + h)) h fun p => { p with ackAt := d.now }

theorem sends_replayCounted (d : Dev) (h : Nat) : Sends h 0 d (replayCounted d h) (replayed d.now (portOf d h)) := by
  have hport : portOf (replayCounted d h) h = replayed d.now (portOf d h) := by
    simp only [replayCounted, portOf_modPort_same, portOf_tallyCount]
    rfl
  rw [← hport]
  exact .of_flits ((((Flits.refl h d).modPort _).tallyCount ..).modPort _)

section
variable {d : Dev} {h seq : Nat} {l r : List (Nat × List Byte)} {b : List Byte} (hretry : (portOf d h).retry = l ++ (seq, b) :: r)
include hretry

theorem replay_eq (hup : (portOf d h).state = .up) (hfirst : ∀ u ∈ l, u.1 ≠ seq) :
    replay d h seq = ((seq, b) :: r).foldl (fun d f => sendFlit d h 1 f.1 f.2) (replayCounted d h) := by
  have hany : (portOf d h).retry.any (fun f => f.1 == seq) = true := by simp [hretry]
  have hfrom : (portOf d h).retry.dropWhile (fun f => f.1 != seq) = (seq, b) :: r := by
    rw [hretry, List.dropWhile_append_of_pos fun u hu => bne_iff_ne.mpr (hfirst u hu)]
    simp
  have hkept : (portOf (modPort d h fun p => { p with replays := p.replays + 1 }) h).retry = (portOf d h).retry := by
    rw [portOf_modPort_same]
  rw [← hfrom, ← hkept]
  simp only [replay, hup, hany, and_self, if_true]
  rfl

/-- The flits from a SEQ on leave once more (10 R395). -/
theorem sends_replay (hup : (portOf d h).state = .up) (hfirst : ∀ u ∈ l, u.1 ≠ seq) :
    Sends h (r.length + 1) d (replay d h seq) (replayed d.now (portOf d h)) := by
  have hsent := sends_foldl_sendFlit ((seq, b) :: r) (sends_replayCounted d h)
  rwa [List.length_cons, Nat.zero_add, ← replay_eq hretry hup hfirst] at hsent

end

section
variable {s : State} {h : Fin 36}

theorem replayTimeout_replays {seq : Nat} {b : List Byte} {r : List (Nat × List Byte)} (hretry : (portOf s.dev h).retry = (seq, b) :: r)
    (hdue : (portOf s.dev h).ackAt + 800 ≤ s.dev.now) : exec (.replayTimeout h) s = .next { s with dev := replay s.dev h seq } := by
  simp only [exec, execReplayTimeout, onDev_next, hretry, hdue, if_true]

theorem replayTimeout_waits (hsoon : s.dev.now < (portOf s.dev h).ackAt + 800) : exec (.replayTimeout h) s = .next s := by
  simp only [exec, execReplayTimeout, onDev_next, if_neg (Nat.not_le.mpr hsoon)]
  split <;> rfl

/-! ### Retraining (10 R396) -/

/-- A direct port that has begun to retrain, its retry buffer kept. -/
def retrains (now : Nat) (q : HalfPort) : HalfPort := { q with retrain := true, retrainAt := now, degraded := false }

/-- The device as the retraining of a half-port is counted. -/
def retrainCounted (d : Dev) (h now us : Nat) : Dev :=
  modPort (tallySend d (.count 0x42 h 1 0 (4000 + h) us)) h (retrains now)

section
variable (hup : (portOf s.dev h).state = .up) (hcfg : portConfig s.dev h = 1)
include hup hcfg

theorem retrain_received : exec (.retrain h true) s =
    .next { s with dev := startTrain (retrainCounted s.dev h s.dev.now (hubUs s.dev)) h } := by
  simp only [exec, execRetrain, onDev_next, hup, hcfg, true_or, and_self, if_true]
  rfl

theorem retrain_stuck (hreplays : 8 ≤ (portOf s.dev h).replays) : exec (.retrain h false) s =
    .next { s with dev := startTrain (retrainCounted (sendCtrl s.dev h 2 0) h s.dev.now (hubUs s.dev)) h } := by
  simp only [exec, execRetrain, onDev_next, hup, hcfg, hreplays, Bool.false_eq_true, false_or, and_self, if_true, if_false]
  rfl

end

theorem retrain_not_yet (hreplays : (portOf s.dev h).replays < 8) : exec (.retrain h false) s = .next s := by
  simp only [exec, execRetrain, onDev_next, Nat.not_le.mpr hreplays, Bool.false_eq_true, or_self, and_false, if_false]

theorem retrainTimeout_down (hretrain : (portOf s.dev h).retrain = true) (hdown : (portOf s.dev h).state ≠ .up)
    (hdue : (portOf s.dev h).retrainAt + 400000000 ≤ s.dev.now) :
    exec (.retrainTimeout h) s = .next { s with dev := portDown s.dev h } := by
  simp only [exec, execRetrainTimeout, onDev_next, isUp, hretrain, hdown, hdue, decide_false, Bool.not_false, and_self, if_true]

theorem retrainTimeout_waits (hsoon : s.dev.now < (portOf s.dev h).retrainAt + 400000000) : exec (.retrainTimeout h) s = .next s := by
  simp only [exec, execRetrainTimeout, onDev_next, Nat.not_le.mpr hsoon, and_false, if_false]

/-! ### The statement -/

theorem completes_linkFlitReceive {f : List Byte} {P : State → Prop} (hlen : f.length = 1024)
    (hP : P { s with dev := gotFlit h f s.dev }) : Completes (.linkFlitReceive h f) s P := by
  refine ⟨_, ?_, hP⟩
  simp only [exec, execLinkFlitReceive, hlen, if_true, onDev_next]

/-- A half-port that has taken the next DATA flit, its packets apart. -/
def tookFlit (now : Nat) (f : List Byte) (q : HalfPort) : HalfPort :=
  { acked now f q with rxNext := (q.rxNext + 1) % 1024, nakSent := false }

theorem rxBuf_tookFlit (now : Nat) (f : List Byte) (q : HalfPort) : (tookFlit now f q).rxBuf = q.rxBuf := rxBuf_acked ..

theorem rxBuf_filled (p : Packet) (q : HalfPort) : (filled p q).rxBuf = q.rxBuf := rfl

section
variable {f : List Byte} (hcfg : portConfig s.dev h = 1) (hup : (portOf s.dev h).state = .up) (hnext : NextFlit (portOf s.dev h) f)
  (hbuf : (portOf s.dev h).rxBuf = [])

include hnext in
theorem portOf_flitNoted_next : portOf (flitNoted s.dev h f) h = tookFlit s.dev.now f (portOf s.dev h) := by
  obtain ⟨-, -, -, hseq⟩ := hnext
  rw [portOf_flitNoted, hseq]
  rfl

include hcfg hup hnext hbuf

/-- The next DATA flit without packets changes its half-port alone. -/
theorem linkFlitReceive_empty (hzero : zeros (slice f 4 1016) = true) : Completes (.linkFlitReceive h f) s fun t =>
    PortIs h s t (tookFlit s.dev.now f (portOf s.dev h)) := by
  have ⟨hlen, _⟩ := hnext
  refine completes_linkFlitReceive hlen ?_
  rw [gotFlit_next hcfg hup hnext hbuf (takeWhole_zeros hzero ..)]
  refine ((flits_flitNoted ..).modPort _).portIs ?_
  rw [portOf_modPort_same, portOf_flitNoted_next hnext, holding_self ((rxBuf_tookFlit ..).trans hbuf)]

/-- The next DATA flit with one packet for this part. -/
theorem linkFlitReceive_packet {pk : Packet} (hpk : packetOf (slice f 4 1016) = pk) (hbytes : zeros (slice f 4 1016) = false)
    (hkind : knownKind pk.kind = true) (hdst : pk.dst = myId s.dev) (hsize : packetSize pk ≤ 1016)
    (hrest : zeros ((slice f 4 1016).drop (packetSize pk)) = true) : Completes (.linkFlitReceive h f) s fun t =>
      t = { s with dev := { s.dev with fabric := { s.dev.fabric with
        ports := t.dev.fabric.ports, rxq := s.dev.fabric.rxq ++ [((h : Nat), pk)] } } } ∧
      (∀ k, k ≠ (h : Nat) → portOf t.dev k = portOf s.dev k) ∧
      portOf t.dev h = filled pk (tookFlit s.dev.now f (portOf s.dev h)) := by
  subst hpk
  have hnoted := flits_flitNoted s.dev h f
  have htake := takeWhole_packet hbytes (by rwa [slice_length]) hrest h (flitNoted s.dev h f) 126
  rw [arrive_received (d := flitNoted s.dev h f) hkind hdst ((hnoted.portConfig h).trans hcfg)] at htake
  have ⟨hlen, _⟩ := hnext
  refine completes_linkFlitReceive hlen ?_
  rw [gotFlit_next hcfg hup hnext hbuf htake]
  refine ⟨?_, fun k hk => ?_, ?_⟩
  · obtain ⟨ports, hnotedPorts⟩ := flitNoted_frame s.dev h f
    obtain ⟨ports', hports⟩ := received_frame (flitNoted s.dev h f) h (packetOf (slice f 4 1016))
    rw [hports, hnotedPorts]
    rfl
  · exact (portOf_modPort_ne _ _ hk).trans ((portOf_received_ne _ _ hk).trans (hnoted.others k hk))
  · rw [portOf_modPort_same, portOf_received, portOf_flitNoted_next hnext, holding_self]
    rw [rxBuf_filled, rxBuf_tookFlit, hbuf]

end
end

/-- Settles O52: a flit by what its ACK finds in the retry buffer and by the packet that its body holds, a replay by the flits that stand from
its SEQ on. That the rest of a body that is zero holds no packet, and when ACK progress is counted from, are the model's choices (log 28). -/
theorem flitsAreTakenInOrderAndReplayed : Obligations.FlitsAreTakenInOrderAndReplayed := by
  unfold Obligations.FlitsAreTakenInOrderAndReplayed
  intro s h f hcfg p w body pk went
  have hself := Flits.refl h s.dev
  refine ⟨fun hup hlen hcrc => ?_, fun hup hnext hbuf => ⟨fun hzero hnone => ?_, fun l b r hzero hretry hfirst => ?_, ?_⟩,
    fun l seq b r hup hretry hfirst => ⟨?_, ?_⟩, replayTimeout_waits, fun hup => ⟨?_, retrain_not_yet, fun hreplays => ?_⟩, ?_,
    retrainTimeout_waits⟩
  · refine completes_linkFlitReceive hlen ?_
    rw [gotFlit_bad hcfg hup hcrc]
    refine ⟨fun hnak => ?_, fun hnak => ?_⟩
    · rw [if_pos hnak]
      exact (hself.tallyCount ..).portIs rfl
    · rw [if_neg (by rw [hnak]; nofun)]
      refine (((hself.tallyCount ..).modPort _).sendFlit ..).portSends ?_
      rw [portOf_sendFlit, portOf_modPort_same]
      rfl
  · have htook := linkFlitReceive_empty hcfg hup hnext hbuf hzero
    rwa [tookFlit, acked_unknown hnone] at htook
  · have htook := linkFlitReceive_empty hcfg hup hnext hbuf hzero
    rwa [tookFlit, acked_known hretry hfirst] at htook
  · intro hbytes hnone hkind hdst hsize hrest
    have htook := linkFlitReceive_packet hcfg hup hnext hbuf rfl hbytes hkind hdst hsize hrest
    rwa [tookFlit, acked_unknown hnone] at htook
  · exact ⟨_, rfl, (sends_replay hretry hup hfirst).portSends⟩
  · rintro rfl hdue
    exact ⟨_, replayTimeout_replays hretry hdue, (sends_replay hretry hup hfirst).portSends⟩
  · have hcounted := (hself.tallySend (.count 0x42 h 1 0 (4000 + h) (hubUs s.dev))).modPort (retrains s.dev.now)
    refine ⟨_, retrain_received hup hcfg, hcounted.onlyPort_startTrain, rfl, ?_⟩
    rw [portOf_startTrain, retrainCounted, portOf_modPort_same, portOf_tallySend]
    rfl
  · obtain ⟨b, hb, hflit⟩ := sendFlit_eq s.dev h 2 0 ((span 0 1016).map (Config.ctrlByte 2 0))
    have hcounted := ((hself.sendFlit 2 0 ((span 0 1016).map (Config.ctrlByte 2 0))).tallySend
      (.count 0x42 h 1 0 (4000 + h) (hubUs s.dev))).modPort (retrains s.dev.now)
    refine ⟨_, retrain_stuck hup hcfg hreplays, hcounted.onlyPort_startTrain, ?_, b, hb, ?_⟩
    · rw [portOf_startTrain, retrainCounted, portOf_modPort_same, portOf_tallySend, sendCtrl, portOf_sendFlit]
      rfl
    · exact congrArg (fun d : Dev => OutMsg.train h :: d.out) hflit
  · intro hretrain hdown hretry hqueued hdue
    exact ⟨_, retrainTimeout_down hretrain hdown hdue, hself.portIs_portDown rfl hretry hqueued, portDown_tally hretry hqueued⟩

end Sys2Proof.Machine
end

section
/-! PROOF. Frames and the connections that they belong to (10 R402 to R406). -/

namespace Sys2Proof.Machine

/-! ### Frames that arrive -/

/-- A connection of which the packets up to a PSN need no resend (10 R403). -/
def ackedUpTo (psn : Nat) (c : EthConn) : EthConn :=
  { c with unacked := c.unacked.filter fun u => decide (2 ^ 23 ≤ (psn + 2 ^ 24 - u.1) % 2 ^ 24) }

/-- A connection that owes its peer an acknowledgement (10 R404). -/
def owesAck (c : EthConn) : EthConn := { c with ackDue := true }

/-- A connection that has received a PSN beyond its cumulative point (10 R404). -/
def tookPsn (psn : Nat) (c : EthConn) : EthConn := advance { c with rxAhead := psn :: c.rxAhead } 4097

/-- The PSN after the cumulative point moves it on by one, where none has been received beyond. -/
theorem tookPsn_next {c : EthConn} {psn : Nat} (hahead : c.rxAhead = []) (hpsn : psn = (c.rxCum + 1) % 2 ^ 24) :
    tookPsn psn c = { c with rxCum := psn } := by
  have hmoved : advance { c with rxAhead := psn :: c.rxAhead } 4097 = advance { c with rxCum := psn, rxAhead := [] } 4096 := by
    rw [advance, hahead, ← hpsn]
    simp
  rw [tookPsn, hmoved, advance, ← hahead]
  simp [hahead]

/-- A connection has received a PSN already, or it lies too far beyond the cumulative point (10 R404). -/
abbrev PsnSeen (c : EthConn) (psn : Nat) : Prop :=
  (psn + 2 ^ 24 - c.rxCum) % 2 ^ 24 = 0 ∨ 4096 < (psn + 2 ^ 24 - c.rxCum) % 2 ^ 24 ∨ c.rxAhead.contains psn = true

theorem psnSeen_last {c : EthConn} {psn : Nat} (hpsn : psn = c.rxCum) : PsnSeen c psn := by
  left
  omega

theorem not_psnSeen_next {c : EthConn} {psn : Nat} (hcum : c.rxCum < 2 ^ 24) (hahead : c.rxAhead = [])
    (hpsn : psn = (c.rxCum + 1) % 2 ^ 24) : ¬ PsnSeen c psn := by
  have hone : (psn + 2 ^ 24 - c.rxCum) % 2 ^ 24 = 1 := by omega
  rw [PsnSeen, hone, hahead]
  simp

/-- A packet that has not come, with 64 or more beyond it, is named to the peer once (10 R404). -/
def nakMissing (h peer : Nat) (d : Dev) : Dev :=
  let c := connOf d peer
  let miss := (c.rxCum + 1) % 2 ^ 24
  if c.rxAhead.any (fun k => decide (64 ≤ (k + 2 ^ 24 - miss) % 2 ^ 24)) ∧ c.naked ≠ some miss then sendAckOnly d h peer (some miss) else d

theorem nakMissing_none {d : Dev} {peer : Nat} (hahead : (connOf d peer).rxAhead = []) (h : Nat) : nakMissing h peer d = d := by
  simp only [nakMissing, hahead, List.any_nil, Bool.false_eq_true, false_and, if_false]

theorem modConn_frame (d : Dev) (k : Nat) (g : EthConn → EthConn) : ∃ conns, modConn d k g = { d with fabric := { d.fabric with conns := conns } } :=
  ⟨_, rfl⟩

@[simp] theorem pfcOn_modConn (d : Dev) (k : Nat) (g : EthConn → EthConn) : pfcOn (modConn d k g) = pfcOn d := rfl

theorem connOf_received (d : Dev) (h : Nat) (p : Packet) (k : Nat) : connOf (received d h p) k = connOf d k := rfl

/-- The device once the acknowledgement that a frame carries has been taken (10 R403). -/
def ackTaken (d : Dev) (f : List Byte) : Dev := modConn d (framePeer f) (ackedUpTo (bits (frameShim d f) 47 24))

theorem connOf_ackTaken_same (d : Dev) (f : List Byte) :
    connOf (ackTaken d f) (framePeer f) = ackedUpTo (bits (frameShim d f) 47 24) (connOf d (framePeer f)) := connOf_modConn_same ..

theorem connOf_ackTaken_ne (d : Dev) {f : List Byte} {k : Nat} (hk : k ≠ framePeer f) : connOf (ackTaken d f) k = connOf d k :=
  connOf_modConn_ne d _ hk

section
variable {d : Dev} {h : Nat} {f : List Byte} (hcfg : 2 ≤ portConfig d h) (hup : (portOf d h).state = .up)
include hcfg hup

theorem gotFrame_filtered (hok : frameOk d h f = false) : gotFrame h f d = countDrop d h := by
  simp only [gotFrame, isUp, hup, hok, Nat.not_lt.mpr hcfg, decide_true, Bool.not_true, Bool.not_false, Bool.false_eq_true, or_self,
    if_false, if_true]

variable (hok : frameOk d h f = true)
include hok

theorem gotFrame_ackOnly (hempty : bit (frameShim d f) 48 = true) : gotFrame h f d = ackTaken d f := by
  simp only [gotFrame, isUp, hup, hok, hempty, Nat.not_lt.mpr hcfg, decide_true, Bool.not_true, Bool.false_eq_true, or_self,
    if_false, if_true]
  rfl

variable (hfull : bit (frameShim d f) 48 = false) {pk : Packet} (hpk : packetOf (f.drop (etherOff d + 10)) = pk) (hdst : pk.dst = myId d)
include hfull hpk hdst

/-- A frame with a packet for this part, by whether its PSN has been received. -/
theorem gotFrame_packet : gotFrame h f d =
    let d2 := modConn (ackTaken d f) (framePeer f) owesAck
    let d3 := modConn d2 (framePeer f) (tookPsn (bits (frameShim d f) 23 0))
    if PsnSeen (connOf (ackTaken d f) (framePeer f)) (bits (frameShim d f) 23 0) then d2
    else nakMissing h (framePeer f) (if knownKind pk.kind then bufferIn d3 h pk else countDrop d3 h) := by
  simp only [gotFrame, isUp, hup, hok, hfull, hpk, hdst, Nat.not_lt.mpr hcfg, decide_true, Bool.not_true, Bool.false_eq_true, or_self,
    ne_eq, not_true_eq_false, if_false]
  rfl

/-- A packet that has been taken before is acknowledged again (10 R404). -/
theorem gotFrame_repeated (hpsn : bits (frameShim d f) 23 0 = (connOf d (framePeer f)).rxCum) :
    gotFrame h f d = modConn (ackTaken d f) (framePeer f) owesAck := by
  rw [gotFrame_packet hcfg hup hok hfull hpk hdst]
  refine if_pos (psnSeen_last (hpsn.trans ?_))
  rw [connOf_ackTaken_same]
  rfl

/-- The packet after the cumulative point is taken into the receive buffer (10 R404, R406). -/
theorem gotFrame_inOrder (hcum : (connOf d (framePeer f)).rxCum < 2 ^ 24)
    (hpsn : bits (frameShim d f) 23 0 = ((connOf d (framePeer f)).rxCum + 1) % 2 ^ 24) (hahead : (connOf d (framePeer f)).rxAhead = [])
    (hkind : knownKind pk.kind = true) (hpfc : pfcOn d = false) :
    gotFrame h f d =
      received (modConn (modConn (ackTaken d f) (framePeer f) owesAck) (framePeer f) (tookPsn (bits (frameShim d f) 23 0))) h pk := by
  have hnew : ¬ PsnSeen (connOf (ackTaken d f) (framePeer f)) (bits (frameShim d f) 23 0) := by
    rw [connOf_ackTaken_same]
    exact not_psnSeen_next (c := ackedUpTo _ _) hcum hahead hpsn
  have hnone : (connOf (modConn (modConn (ackTaken d f) (framePeer f) owesAck) (framePeer f) (tookPsn (bits (frameShim d f) 23 0)))
      (framePeer f)).rxAhead = [] := by
    rw [connOf_modConn_same, connOf_modConn_same, connOf_ackTaken_same, tookPsn_next (c := owesAck (ackedUpTo _ _)) hahead hpsn]
    exact hahead
  rw [gotFrame_packet hcfg hup hok hfull hpk hdst]
  refine (if_neg hnew).trans ?_
  rw [if_pos hkind, bufferIn_received, nakMissing_none]
  · rw [connOf_received, hnone]
  · simp [ackTaken, hpfc]

end

theorem completes_ethFrameReceive {s : State} {h : Fin 36} {f : List Byte} {d : Dev} {P : State → Prop} (hgot : gotFrame h f s.dev = d)
    (hP : P { s with dev := d }) : Completes (.ethFrameReceive h f) s P := by
  subst hgot
  exact ⟨_, rfl, hP⟩

/-- Taking a packet changes the half-port, the connection and what has been received (10 R404, R406). -/
theorem received_modConn_frame (d : Dev) (h : Nat) (f : List Byte) (pk : Packet) (g : EthConn → EthConn) : ∃ ports conns,
    received (modConn (modConn (ackTaken d f) (framePeer f) owesAck) (framePeer f) g) h pk =
      { d with fabric := { d.fabric with ports := ports, conns := conns, rxq := d.fabric.rxq ++ [(h, pk)] } } := by
  obtain ⟨conns1, h1⟩ := modConn_frame d (framePeer f) (ackedUpTo (bits (frameShim d f) 47 24))
  obtain ⟨conns2, h2⟩ := modConn_frame (ackTaken d f) (framePeer f) owesAck
  obtain ⟨conns3, h3⟩ := modConn_frame (modConn (ackTaken d f) (framePeer f) owesAck) (framePeer f) g
  obtain ⟨ports, hports⟩ := received_frame (modConn (modConn (ackTaken d f) (framePeer f) owesAck) (framePeer f) g) h pk
  rw [hports, h3, h2, ackTaken, h1]
  exact ⟨ports, conns3, rfl⟩

theorem connOf_received_modConn (d : Dev) (h : Nat) (f : List Byte) (pk : Packet) (g : EthConn → EthConn) (k : Nat) :
    connOf (received (modConn (modConn (ackTaken d f) (framePeer f) owesAck) (framePeer f) g) h pk) k =
      if k = framePeer f then g (owesAck (ackedUpTo (bits (frameShim d f) 47 24) (connOf d (framePeer f)))) else connOf d k := by
  rw [connOf_received]
  split
  · next hk => rw [hk, connOf_modConn_same, connOf_modConn_same, connOf_ackTaken_same]
  · next hk => rw [connOf_modConn_ne _ _ hk, connOf_modConn_ne _ _ hk, connOf_ackTaken_ne _ hk]

/-! ### Packets that are sent again -/

/-- A connection that has sent its one unacknowledged packet again (10 R404). -/
def resentOnce (now psn : Nat) (pk : Packet) (n : Nat) (c : EthConn) : EthConn := { c with unacked := [(psn, pk, n + 1, now)], ackDue := false }

/-- The packet leaves again for its peer, on the half-port of the Ethernet group with the fewest bytes queued (10 R404, R410). -/
def SentAgain (s t : State) (peer psn : Nat) (pk : Packet) (n : Nat) : Prop := ∃ g, ethChoice s.dev = some g ∧
  t = { s with dev := { s.dev with fabric := { s.dev.fabric with conns := t.dev.fabric.conns }, out := t.dev.out, tally := t.dev.tally } } ∧
  t.dev.out = .frame g (frameBytes s.dev g peer 0 (connOf s.dev peer).rxCum psn pk.vc (packetBytes pk)) :: s.dev.out ∧
  connOf t.dev peer = resentOnce s.dev.now psn pk n (connOf s.dev peer)

section
variable {peer psn n at_ : Nat} {pk : Packet}

section
variable {d : Dev} (hun : (connOf d peer).unacked = [(psn, pk, n, at_)])
include hun

theorem resend_again (hn : n < 7) {g : Nat} (hg : ethChoice d = some g) :
    resend d peer psn = tallyValue (sendFrame d g pk (some psn)) 0x44 g (n + 1) (BitVec.ofNat 32 peer) := by
  simp only [resend, hun, List.find?_cons, beq_self_eq_true, Nat.not_le.mpr hn, if_false, hg]

/-- A peer with no request outstanding is given up after seven resends: its connection restarts (10 R404; log 55). -/
theorem resend_given_up (hn : 7 ≤ n) (hnone : d.fabric.outst = []) :
    resend d peer psn = modConn d peer fun c => { c with txPsn := 0, unacked := [] } := by
  simp only [resend, hun, List.find?_cons, beq_self_eq_true, hn, if_true, failPeer, modConn, hnone, List.filter_nil, List.foldl_nil]

end

variable {s : State} {e : Dev} (hun : (connOf s.dev peer).unacked = [(psn, pk, n, at_)])
include hun

/-- So it does in a device of which no more than other connections differs. -/
theorem sentAgain_resend (hframe : ∃ conns, e = { s.dev with fabric := { s.dev.fabric with conns := conns } })
    (hconn : connOf e peer = connOf s.dev peer) (hdst : pk.dst = peer) (hn : n < 7) (hway : ethChoice s.dev ≠ none) :
    SentAgain s { s with dev := resend e peer psn } peer psn pk n := by
  obtain ⟨g, hg⟩ := Option.ne_none_iff_exists'.mp hway
  obtain ⟨conns, hframe⟩ := hframe
  have hge : ethChoice e = some g := by
    rw [hframe]
    exact hg
  rw [← hconn] at hun
  subst hdst
  refine ⟨g, hg, ?_⟩
  rw [resend_again hun hn hge, ← hconn]
  refine ⟨?_, ?_, ?_⟩
  · subst hframe
    rfl
  · subst hframe
    rfl
  · have hsent : connOf (sendFrame e g pk (some psn)) pk.dst = { connOf e pk.dst with
        ackDue := false
        unacked := (connOf e pk.dst).unacked.map fun u => if u.1 = psn then (u.1, u.2.1, u.2.2.1 + 1, e.now) else u } :=
      connOf_modConn_same ..
    refine hsent.trans ?_
    rw [hun, hframe]
    simp [resentOnce]

theorem ethRtoExpire_due (hdue : at_ + 400 * fabRto s.dev ≤ s.dev.now) :
    exec (.ethRtoExpire peer psn) s = .next { s with dev := resend s.dev peer psn } := by
  simp only [exec, execEthRtoExpire, onDev_next, hun, List.find?_cons, beq_self_eq_true, hdue, if_true]

theorem ethRtoExpire_waits (hsoon : s.dev.now < at_ + 400 * fabRto s.dev) : exec (.ethRtoExpire peer psn) s = .next s := by
  simp only [exec, execEthRtoExpire, onDev_next, hun, List.find?_cons, beq_self_eq_true, Nat.not_le.mpr hsoon, if_false]

/-- The packet that a NAK names is beyond what the frame acknowledges (10 R404). -/
theorem ackTaken_named {f : List Byte} (hpeer : framePeer f = peer) (hpsn : psn = (bits (frameShim s.dev f) 47 24 + 1) % 2 ^ 24) :
    connOf (ackTaken s.dev f) peer = connOf s.dev peer := by
  have hack : bits (frameShim s.dev f) 47 24 < 2 ^ 24 := Nat.mod_lt _ (by decide)
  have hkept : 2 ^ 23 ≤ (bits (frameShim s.dev f) 47 24 + 2 ^ 24 - psn) % 2 ^ 24 := by omega
  subst hpeer
  rw [connOf_ackTaken_same, ackedUpTo, hun, List.filter_cons, if_pos (decide_eq_true hkept), List.filter_nil, ← hun]

end

section
variable {s : State} {h : Fin 36} {f : List Byte} (hcfg : 2 ≤ portConfig s.dev h) (hup : (portOf s.dev h).state = .up)
include hcfg hup

theorem ethNak_filtered (hok : frameOk s.dev h f = false) : exec (.ethNak h f) s = .next { s with dev := countDrop s.dev h } := by
  simp only [exec, execEthNak, onDev_next, isUp, hup, hok, Nat.not_lt.mpr hcfg, decide_true, Bool.not_true, Bool.not_false, Bool.false_eq_true,
    or_self, if_false, if_true]

theorem ethNak_resends (hok : frameOk s.dev h f = true) (hnak : bit (frameShim s.dev f) 49 = true) :
    exec (.ethNak h f) s = .next { s with
      dev := resend (ackTaken s.dev f) (framePeer f) ((bits (frameShim s.dev f) 47 24 + 1) % 2 ^ 24) } := by
  simp only [exec, execEthNak, onDev_next, isUp, hup, hok, hnak, Nat.not_lt.mpr hcfg, decide_true, Bool.not_true, Bool.false_eq_true,
    or_self, if_false, if_true]
  rfl

end

/-! ### Pauses (10 R406) -/

theorem nth_map_zipIdx {α β : Type} (a : α) (b : β) (g : α × Nat → β) {l : List α} {i : Nat} (hi : i < l.length) :
    nth b (l.zipIdx.map g) i = g (nth a l i, i) := by
  simp [nth, hi]

/-- A half-port whose partner has paused, or released, the channels of a priority (10 R406). -/
def pausesPrio (d : Dev) (prio quanta : Nat) (q : HalfPort) : HalfPort :=
  { q with paused := q.paused.zipIdx.map fun v => if fabPcp d v.2 = prio then quanta != 0 else v.1 }

section
variable {s : State} {h : Fin 36}

theorem pfcFrameReceive_pauses (prio : Fin 8) (quanta : Nat) (hpfc : pfcOn s.dev = true) (hcfg : 2 ≤ portConfig s.dev h) :
    exec (.pfcFrameReceive h prio quanta) s = .next { s with dev := modPort s.dev h (pausesPrio s.dev prio quanta) } := by
  simp only [exec, execPfcFrameReceive, onDev_next, hpfc, hcfg, and_self, if_true]
  rfl

theorem pfcFrameReceive_off (prio : Fin 8) (quanta : Nat) (hpfc : pfcOn s.dev = false) : exec (.pfcFrameReceive h prio quanta) s = .next s := by
  simp only [exec, execPfcFrameReceive, onDev_next, hpfc, Bool.false_eq_true, false_and, if_false]

end

end Sys2Proof.Machine
end

section
/-! PROOF. The fabric arbiter starts a packet, whose flits or frame leave (10 R392 to R394, R411, R412). -/

namespace Sys2Proof.Machine

/-! ### DATA flits of a byte stream -/

/-- A direct port that has sent the body as the DATA flit of a SEQ, and keeps it for replay (10 R393, R394). -/
def dataKept (now seq : Nat) (body : List Byte) (q : HalfPort) : HalfPort :=
  { q with
    txSeq := (seq + 1) % 1024, retry := q.retry ++ [(seq, slice body 0 1016)]
    ackAt := if q.retry.isEmpty then now else q.ackAt }

theorem sendData_eq (d : Dev) (h : Nat) (body : List Byte) : sendData d h body =
    modPort (sendFlit d h 1 (portOf d h).txSeq body) h (dataKept d.now (portOf d h).txSeq body) := rfl

/-- A direct port that has sent the body as its next DATA flit. -/
abbrev dataSent (now : Nat) (body : List Byte) (q : HalfPort) : HalfPort := dataKept now q.txSeq body q

/-- A direct port with these bytes in its byte stream, which no flit has taken yet. -/
def streaming (bs : List Byte) (q : HalfPort) : HalfPort := { q with txBuf := bs }

/-- A direct port that has sent its whole byte stream in the flits fl (10 R392 to R394). -/
def streamSent (now : Nat) (fl : List (Nat × List Byte)) (q : HalfPort) : HalfPort :=
  { q with
    txBuf := [], txSeq := (q.txSeq + fl.length) % 1024, retry := q.retry ++ fl
    ackAt := if q.retry = [] then now else q.ackAt }

theorem streamSent_one (now : Nat) (body : List Byte) (q : HalfPort) :
    dataSent now body (streaming [] q) = streamSent now [(q.txSeq, slice body 0 1016)] q := by
  simp only [dataSent, dataKept, streamSent, streaming, List.isEmpty_iff, List.length_singleton]

theorem streamSent_cons (now : Nat) (body rest : List Byte) (fl : List (Nat × List Byte)) (q : HalfPort) :
    streamSent now fl (dataSent now body (streaming rest q)) = streamSent now ((q.txSeq, slice body 0 1016) :: fl) q := by
  have hseq : ((q.txSeq + 1) % 1024 + fl.length) % 1024 = (q.txSeq + (fl.length + 1)) % 1024 := by omega
  simp only [dataSent, dataKept, streamSent, streaming, List.isEmpty_iff, hseq, List.length_cons, List.append_assoc, List.singleton_append,
    List.append_eq_nil_iff, List.cons_ne_self, and_false, if_false]

/-- The first body of a byte stream leaves (10 R392). -/
theorem sendWhole_more {e : Dev} {h : Nat} {bs : List Byte} (hbuf : (portOf e h).txBuf = bs) (hmore : 1016 ≤ bs.length) :
    sendWhole h (bs.length / 1016) e =
      sendWhole h ((bs.length - 1016) / 1016) (sendData (modPort e h (streaming (bs.drop 1016))) h (bs.take 1016)) := by
  subst hbuf
  rw [show (portOf e h).txBuf.length / 1016 = ((portOf e h).txBuf.length - 1016) / 1016 + 1 by omega, sendWhole]
  exact if_neg (Nat.not_lt.mpr hmore)

theorem flushBody_none {e : Dev} {h : Nat} (hbuf : (portOf e h).txBuf = []) : flushBody e h = e := by
  simp only [flushBody, hbuf, List.isEmpty_nil, if_true]

theorem flushBody_some {e : Dev} {h : Nat} {bs : List Byte} (hbuf : (portOf e h).txBuf = bs) (hsome : bs ≠ []) :
    flushBody e h = sendData (modPort e h (streaming [])) h bs := by
  simp only [flushBody, hbuf, List.isEmpty_eq_false_iff.mpr hsome, Bool.false_eq_true, if_false]
  rfl

section
variable {h n : Nat} {d e : Dev} {q : HalfPort}

theorem Sends.sendData (a : Sends h n d e q) (body : List Byte) : Sends h (n + 1) d (sendData e h body) (dataSent d.now body q) := by
  have hsent := (a.sendFlit 1 (portOf e h).txSeq body).modPort (dataKept e.now (portOf e h).txSeq body) fun _ _ => rfl
  rw [← sendData_eq, a.flits.now] at hsent
  rwa [show (portOf e h).txSeq = q.txSeq by rw [a.port]] at hsent

theorem Sends.stream (a : Sends h n d e q) (bs : List Byte) : Sends h n d (Machine.modPort e h (streaming bs)) (streaming bs q) :=
  a.modPort _ fun _ _ => rfl

theorem Sends.txBuf (a : Sends h n d e q) : (portOf e h).txBuf = q.txBuf := by rw [a.port]

/-- At most one body is left: it is sent, whole or filled up with zeros (10 R392). -/
theorem sends_last (a : Sends h n d e q) (hsome : 0 < q.txBuf.length) (hlast : q.txBuf.length ≤ 1016) :
    Sends h (n + 1) d (flushBody (sendWhole h (q.txBuf.length / 1016) e) h) (streamSent d.now [(q.txSeq, slice q.txBuf 0 1016)] q) := by
  have hsent := (a.stream []).sendData q.txBuf
  rw [streamSent_one] at hsent
  by_cases hwhole : q.txBuf.length = 1016
  · have hstep := sendWhole_more a.txBuf (by omega)
    rw [List.drop_of_length_le (by omega), List.take_of_length_le (by omega),
      show (q.txBuf.length - 1016) / 1016 = 0 by omega, sendWhole] at hstep
    rwa [hstep, flushBody_none hsent.txBuf]
  · rwa [show q.txBuf.length / 1016 = 0 by omega, sendWhole, flushBody_some a.txBuf (List.ne_nil_of_length_pos hsome)]

/-- A byte stream leaves in as many flits as its bytes fill (10 R392 to R394). -/
theorem sends_drained (k : Nat) : ∀ {n : Nat} {e : Dev} {q : HalfPort}, Sends h n d e q → 1016 * k < q.txBuf.length →
    q.txBuf.length ≤ 1016 * (k + 1) → ∃ fl, fl.length = k + 1 ∧
      Sends h (n + (k + 1)) d (flushBody (sendWhole h (q.txBuf.length / 1016) e) h) (streamSent d.now fl q) := by
  induction k with
  | zero => exact fun a hsome hlast => ⟨_, rfl, sends_last a hsome hlast⟩
  | succ k ih =>
    intro n e q a hmore hmost
    have hsent := (a.stream (q.txBuf.drop 1016)).sendData (q.txBuf.take 1016)
    have hleft : (dataSent d.now (q.txBuf.take 1016) (streaming (q.txBuf.drop 1016) q)).txBuf.length = q.txBuf.length - 1016 :=
      List.length_drop
    obtain ⟨fl, hfl, hrest⟩ := ih hsent (by omega) (by omega)
    have hstep := sendWhole_more a.txBuf (by omega)
    rw [hleft, streamSent_cons, ← hstep, Nat.add_right_comm n 1, Nat.add_assoc] at hrest
    exact ⟨_, congrArg (· + 1) hfl, hrest⟩

end

/-! ### Which classes may start (10 R411) -/

theorem acksDue_none_iff {d : Dev} : acksDue d = [] ↔ ∀ p ∈ d.fabric.conns, p.2.ackDue = false := by
  simp [acksDue]

theorem acksDue_modConn {d : Dev} (hnone : acksDue d = []) (k : Nat) {f : EthConn → EthConn} (hf : ∀ x, (f x).ackDue = false) :
    acksDue (modConn d k f) = [] := by
  rw [acksDue_none_iff] at *
  intro p hp
  have hp : p ∈ smSet {} d.fabric.conns k (f (connOf d k)) := hp
  rw [smSet] at hp
  split at hp
  · exact hnone p (mem_smErase hp)
  · obtain rfl | hp := mem_smPut hp
    · exact hf _
    · exact hnone p hp

section
variable {d : Dev} {h : Nat} (hacks : 2 ≤ portConfig d h → acksDue d = [])

theorem headOf_one (q : HalfPort) {c : Nat} {pk : Packet} (hqueued : q.queued = [(c, pk)]) (k : Nat) :
    headOf q k = if k = c then some pk else none := by
  simp only [headOf, hqueued, List.find?_cons, List.find?_nil]
  by_cases hk : k = c
  · simp [hk]
  · simp [hk, beq_false_of_ne (Ne.symm hk)]

include hacks

theorem no_ackOnly (c : Nat) : (c == 0 && decide (2 ≤ portConfig d h) && !(acksDue d).isEmpty) = false := by
  by_cases heth : 2 ≤ portConfig d h
  · simp [hacks heth]
  · simp [heth]

theorem classesReady_none (hqueued : (portOf d h).queued = []) : classesReady d h = [] := by
  refine List.filter_eq_nil_iff.mpr fun c _ => ?_
  rw [no_ackOnly hacks, headOf, hqueued]
  nofun

theorem classesReady_one {c : Nat} {pk : Packet} (hc : c < 5) (hqueued : (portOf d h).queued = [(c, pk)])
    (hmay : maySend d h pk = true) : classesReady d h = [c] := by
  have hone : ∀ c < 5, (span 0 5).filter (fun k => k == c) = [c] := by decide
  rw [← hone c hc]
  refine List.filter_congr fun k _ => ?_
  rw [no_ackOnly hacks, headOf_one _ hqueued, Bool.or_false]
  by_cases hk : k = c
  · simp [hk, hmay]
  · simp [hk]

end

/-! ### A packet starts (10 R411, R412) -/

/-- A half-port that sends no packet. -/
def atRest (q : HalfPort) : HalfPort := { q with current := none, snapshot := [] }

/-- A half-port on which a packet of a class, of n units, is being sent and none waits behind it (10 R412). -/
def grantedTo (c n : Nat) (q : HalfPort) : HalfPort :=
  { q with current := some c, snapshot := [], arb := setNth q.arb c (max (nth 0 q.arb c - n) (-4096)) }

/-- A half-port without a packet that was waiting. -/
def leftQueue (c : Nat) (pk : Packet) (q : HalfPort) : HalfPort := { q with queued := q.queued.erase (c, pk) }

/-- A direct port that has spent the credits of a packet (10 R398). -/
def creditsSpent (pk : Packet) (q : HalfPort) : HalfPort :=
  { q with credits := setNth q.credits pk.vc (nth 0 q.credits pk.vc - packetCredits pk) }

/-- A direct port whose byte stream is one packet (10 R392, R396). -/
def packetStreamed (pk : Packet) (q : HalfPort) : HalfPort :=
  { q with
    txBuf := packetBytes pk, inRetry := q.inRetry ++ [((q.txSeq + ((packetBytes pk).length - 1) / 1016) % 1024, pk)] }

/-- A direct port that has taken up its one packet: paid for, and its bytes the byte stream. -/
def packetLoaded (c : Nat) (pk : Packet) (q : HalfPort) : HalfPort := packetStreamed pk (creditsSpent pk (leftQueue c pk q))

/-- The device once a packet has left its queue and its credits are spent. -/
def packetPaid (d : Dev) (h c : Nat) (pk : Packet) : Dev := modPort (modPort d h (leftQueue c pk)) h (creditsSpent pk)

theorem portOf_packetPaid (d : Dev) (h c : Nat) (pk : Packet) : portOf (packetPaid d h c pk) h = creditsSpent pk (leftQueue c pk (portOf d h)) := by
  rw [packetPaid, portOf_modPort_same, portOf_modPort_same]

theorem sends_packetLoaded (d : Dev) (h c : Nat) (pk : Packet) :
    Sends h 0 d (modPort (packetPaid d h c pk) h (packetStreamed pk)) (packetLoaded c pk (portOf d h)) := by
  have hport : portOf (modPort (packetPaid d h c pk) h (packetStreamed pk)) h = packetLoaded c pk (portOf d h) := by
    rw [portOf_modPort_same, portOf_packetPaid, packetLoaded]
  rw [← hport]
  exact .of_flits ((((Flits.refl h d).modPort _).modPort _).modPort _)

theorem packetBytes_length (pk : Packet) : (packetBytes pk).length = packetSize pk := by
  simp only [packetBytes, List.length_append, natLe_length, packetSize]

/-- A packet begins an empty byte stream. -/
theorem withPacket_nil (bs : List Byte) : withPacket [] bs = bs := by
  simp [withPacket, zeros]

section
variable {d d1 : Dev} {h c n : Nat} (hup : (portOf d h).state = .up)
include hup

theorem grant_rests (hready : classesReady d h = []) : grant h d = restFlit (modPort d h atRest) h := by
  have hnone : (if (portOf d h).current.isNone then [] else (portOf d h).snapshot.filter (([] : List Nat).contains ·)) = [] := by
    simp
  simp only [grant, hup, hready, ne_eq, not_true_eq_false, if_false, hnone, List.foldl_nil]
  rfl

theorem grant_starts (hidle : (portOf d h).current = none) (hready : classesReady d h = [c]) (hstart : startPacket d h c = (n, d1))
    (hwait : classesReady d1 h = []) :
    grant h d = modPort (if portConfig d h = 1 then flushBody d1 h else d1) h (grantedTo c n) := by
  simp only [grant, hup, hidle, hready, hstart, hwait, ne_eq, not_true_eq_false, if_false, Option.isNone_none, if_true,
    List.foldl_cons, List.foldl_nil, List.isEmpty_nil, true_and]
  rfl

end

section
variable {d : Dev} {h c : Nat} {pk : Packet} (hqueued : (portOf d h).queued = [(c, pk)])
include hqueued

theorem startPacket_one (hacks : 2 ≤ portConfig d h → acksDue d = []) :
    startPacket d h c = (ceilDiv (16 + pk.len) 64,
      if portConfig d h = 1 then sendPacketFlits (packetPaid d h c pk) h pk
      else sendFrame (modPort d h (leftQueue c pk)) h pk none) := by
  have hnone : (if 2 ≤ portConfig d h then acksDue d else []) = [] := by
    split
    · next heth => exact hacks heth
    · rfl
  have hhead : headOf (portOf d h) c = some pk := by rw [headOf_one _ hqueued, if_pos rfl]
  simp only [startPacket, hnone, hhead]
  split
  · rfl
  · rfl

end

/-! ### On a direct port -/

theorem sendPacketFlits_empty {d : Dev} {h : Nat} (pk : Packet) (hbuf : (portOf d h).txBuf = []) : sendPacketFlits d h pk =
    sendWhole h ((packetBytes pk).length / 1016) (modPort d h (packetStreamed pk)) := by
  simp only [sendPacketFlits, hbuf, withPacket_nil]
  rfl

/-- However much of a byte stream leaves, no packet begins or ends to wait. -/
theorem sends_sendWhole {h : Nat} {d : Dev} (fuel : Nat) : ∀ {n : Nat} {e : Dev} {q : HalfPort}, Sends h n d e q →
    ∃ n' q', Sends h n' d (sendWhole h fuel e) q' ∧ q'.queued = q.queued := by
  induction fuel with
  | zero => exact fun a => ⟨_, _, a, rfl⟩
  | succ fuel ih =>
    intro n e q a
    rw [sendWhole]
    split
    · exact ⟨_, _, a, rfl⟩
    · obtain ⟨n', q', hsent, hqueued⟩ := ih ((a.stream ((portOf e h).txBuf.drop 1016)).sendData ((portOf e h).txBuf.take 1016))
      exact ⟨n', q', hsent, hqueued⟩

/-- A half-port that has begun the one packet that waited, in the class of it (10 R411, R412). -/
def startedOn (c : Nat) (pk : Packet) (q : HalfPort) : HalfPort :=
  { q with
    queued := [], current := some c, snapshot := []
    arb := setNth q.arb c (max (nth 0 q.arb c - (ceilDiv (16 + pk.len) 64 : Nat)) (-4096)) }

/-- A direct port that has sent a packet in k flits fl, for its credits (10 R393, R394, R396, R398). -/
def packetSent (now k : Nat) (fl : List (Nat × List Byte)) (pk : Packet) (q : HalfPort) : HalfPort :=
  { q with
    credits := setNth q.credits pk.vc (nth 0 q.credits pk.vc - packetCredits pk), txSeq := (q.txSeq + k) % 1024
    retry := q.retry ++ fl, ackAt := if q.retry = [] then now else q.ackAt
    inRetry := q.inRetry ++ [((q.txSeq + k + 1023) % 1024, pk)] }

/-- What the steps of a start leave of a direct port with one packet and an empty byte stream. -/
theorem packetSent_steps {now c k : Nat} {fl : List (Nat × List Byte)} {pk : Packet} {q : HalfPort} (hqueued : q.queued = [(c, pk)])
    (hbuf : q.txBuf = []) (hfl : fl.length = k) (hk : k = (packetSize pk - 1) / 1016 + 1) :
    grantedTo c (ceilDiv (16 + pk.len) 64) (streamSent now fl (packetLoaded c pk q)) =
      startedOn c pk (packetSent now k fl pk q) := by
  have hseq : (q.txSeq + (packetSize pk - 1) / 1016) % 1024 = (q.txSeq + k + 1023) % 1024 := by omega
  simp only [grantedTo, streamSent, packetLoaded, packetStreamed, creditsSpent, leftQueue, startedOn, packetSent, hqueued, hbuf, hfl,
    packetBytes_length, hseq, List.erase_cons_head]

section
variable {d : Dev} {h c : Nat} {pk : Packet} (hup : (portOf d h).state = .up) (hidle : (portOf d h).current = none) (hc : c < 5)
  (hqueued : (portOf d h).queued = [(c, pk)]) (hmay : maySend d h pk = true)
include hup hidle hc hqueued hmay

/-- The packet leaves in as many flits as its bytes fill (10 R392, R411). -/
theorem sends_grant (hcfg : portConfig d h = 1) (hbuf : (portOf d h).txBuf = []) : ∃ fl, fl.length = ceilDiv (packetSize pk) 1016 ∧
    Sends h (ceilDiv (packetSize pk) 1016) d (grant h d)
      (startedOn c pk (packetSent d.now (ceilDiv (packetSize pk) 1016) fl pk (portOf d h))) := by
  have hacks : ∀ {e : Dev}, portConfig e h = 1 → 2 ≤ portConfig e h → acksDue e = [] := fun hone heth => by omega
  have hsize : 16 ≤ packetSize pk := Nat.le_add_right ..
  have hk : ceilDiv (packetSize pk) 1016 = (packetSize pk - 1) / 1016 + 1 := by
    rw [ceilDiv]
    omega
  have hloaded := sends_packetLoaded d h c pk
  have hlen : (packetLoaded c pk (portOf d h)).txBuf.length = packetSize pk := packetBytes_length pk
  have hstart := startPacket_one hqueued (hacks hcfg)
  rw [if_pos hcfg, sendPacketFlits_empty pk (by rw [portOf_packetPaid]; exact hbuf)] at hstart
  have hwait : classesReady (sendWhole h ((packetBytes pk).length / 1016) (modPort (packetPaid d h c pk) h (packetStreamed pk))) h = [] := by
    obtain ⟨n, q, hsent, hleft⟩ := sends_sendWhole ((packetBytes pk).length / 1016) hloaded
    refine classesReady_none (hacks ((hsent.flits.portConfig h).trans hcfg)) ?_
    rw [hsent.port]
    refine hleft.trans ?_
    simp [packetLoaded, packetStreamed, creditsSpent, leftQueue, hqueued]
  obtain ⟨fl, hfl, hsent⟩ := sends_drained ((packetSize pk - 1) / 1016) hloaded (by omega) (by omega)
  rw [← hk] at hfl hsent
  refine ⟨fl, hfl, ?_⟩
  rw [grant_starts hup hidle (classesReady_one (hacks hcfg) hc hqueued hmay) hstart hwait, if_pos hcfg, ← packetSent_steps hqueued hbuf hfl hk]
  rw [Nat.zero_add] at hsent
  exact hsent.modPort _ fun _ _ => rfl

/-! ### On an Ethernet half-port -/

theorem grant_eth (hcfg : 2 ≤ portConfig d h) (hnone : acksDue d = []) : grant h d =
    modPort (sendFrame (modPort d h (leftQueue c pk)) h pk none) h (grantedTo c (ceilDiv (16 + pk.len) 64)) := by
  have hdirect : portConfig d h ≠ 1 := by omega
  have hstart := startPacket_one hqueued fun _ => hnone
  rw [if_neg hdirect] at hstart
  have hwait : classesReady (sendFrame (modPort d h (leftQueue c pk)) h pk none) h = [] := by
    refine classesReady_none (fun _ => acksDue_modConn hnone _ fun _ => rfl) ?_
    have hport : portOf (sendFrame (modPort d h (leftQueue c pk)) h pk none) h = leftQueue c pk (portOf d h) := portOf_modPort_same ..
    rw [hport]
    simp [leftQueue, hqueued]
  rw [grant_starts hup hidle (classesReady_one (fun _ => hnone) hc hqueued hmay) hstart hwait, if_neg hdirect]

end

theorem portOf_sendFrame (d : Dev) (h : Nat) (p : Packet) (again : Option Nat) (k : Nat) : portOf (sendFrame d h p again) k = portOf d k := rfl

/-- What the steps of a start leave of an Ethernet half-port with one packet. -/
theorem startedOn_steps {c : Nat} {pk : Packet} {q : HalfPort} (hqueued : q.queued = [(c, pk)]) :
    grantedTo c (ceilDiv (16 + pk.len) 64) (leftQueue c pk q) = startedOn c pk q := by
  simp only [grantedTo, leftQueue, startedOn, hqueued, List.erase_cons_head]

/-- A connection that has sent a packet for the first time (10 R404). -/
def sentOnce (now : Nat) (pk : Packet) (x : EthConn) : EthConn :=
  { x with ackDue := false, txPsn := (x.txPsn + 1) % 2 ^ 24, unacked := x.unacked ++ [(x.txPsn, pk, 0, now)] }

theorem connOf_sendFrame_new (d : Dev) (h : Nat) (pk : Packet) : connOf (sendFrame d h pk none) pk.dst = sentOnce d.now pk (connOf d pk.dst) :=
  connOf_modConn_same ..

theorem completes_fabricGrant {s : State} {h : Fin 36} {d : Dev} {P : State → Prop} (hgrant : grant h s.dev = d)
    (hP : P { s with dev := d }) : Completes (.fabricGrant h) s P := by
  subst hgrant
  exact ⟨_, rfl, hP⟩

/-! ### Refill, and a port at rest -/

/-- A half-port whose classes have been given their weights (10 R412). -/
def arbRefilled (d : Dev) (q : HalfPort) : HalfPort :=
  { q with arb := q.arb.zipIdx.map fun c => min (c.1 + fabWeight d c.2) (4 * fabWeight d c.2 : Nat) }

section
variable {s : State} {h : Fin 36}

theorem fabricArbiterRefill_refills (hcfg : portConfig s.dev h ≠ 0) :
    exec (.fabricArbiterRefill h) s = .next { s with dev := modPort s.dev h (arbRefilled s.dev) } := by
  simp only [exec, execFabricArbiterRefill, onDev_next, hcfg, if_false]
  rfl

theorem nth_arbRefilled (d : Dev) {q : HalfPort} {c : Nat} (hc : c < q.arb.length) :
    nth 0 (arbRefilled d q).arb c = min (nth 0 q.arb c + fabWeight d c) (4 * (fabWeight d c : Int)) :=
  (nth_map_zipIdx 0 0 _ hc).trans (by push_cast; rfl)

/-- A direct port with nothing to send sends an IDLE flit (10 R393). -/
theorem grant_idles {d : Dev} {h : Nat} (hcfg : portConfig d h = 1) (hup : (portOf d h).state = .up) (hqueued : (portOf d h).queued = [])
    (hbuf : (portOf d h).txBuf = []) : grant h d = sendIdle (modPort d h atRest) h := by
  have hempty : (portOf (modPort d h atRest) h).txBuf = [] := by
    rw [portOf_modPort_same]
    exact hbuf
  have hdirect : portConfig (modPort d h atRest) h = 1 := hcfg
  rw [grant_rests hup (classesReady_none (fun heth => by omega) hqueued)]
  simp only [restFlit, hdirect, hempty, ne_eq, not_true_eq_false, if_false, List.isEmpty_nil, if_true]

end

end Sys2Proof.Machine
end

section
/-! PROOF. Frames are delivered once and packets start (10 R392, R393, R402 to R406, R411, R412). -/

namespace Sys2Proof.Machine

/-- Settles O54: a frame by what its shim says of its packet, a packet that is sent again by how often it has been, a grant by the one class that
waits. That a frame whose FCS fails is counted with those that the filter drops, and that a body is sent when no packet follows, are the model's
choices (log 28), and so is that the connection to a peer restarts at PSN 0 after seven resends (log 55). -/
theorem framesAreDeliveredOnceAndPacketsStart : Obligations.FramesAreDeliveredOnceAndPacketsStart := by
  unfold Obligations.FramesAreDeliveredOnceAndPacketsStart
  intro s h p cfg conn
  have hself := Flits.refl h s.dev
  refine ⟨fun f hup hcfg => ⟨fun hok => ?_, fun hok hempty => ?_, fun hok hfull hdst hcum => ⟨fun hpsn => ?_, ?_⟩⟩,
    fun peer psn pk n at_ hun hdst => ⟨ethRtoExpire_waits hun, fun hn hway => ⟨fun hdue => ?_, ?_⟩, fun hn hdue hnone => ?_⟩,
    fun prio quanta => ⟨fun hpfc hcfg => ?_, pfcFrameReceive_off prio quanta⟩, fun hcfg => ?_, fun hcfg hup hqueued hbuf => ?_,
    fun c pk hup hidle hc hqueued hmay => ⟨fun hcfg hbuf => ?_, fun hcfg hnone => ?_⟩⟩
  · have hcounted := (hself.tallyCount 0x43 h 1 (4000 + h)).portIs (s := s) (q := p) rfl
    exact ⟨completes_ethFrameReceive (gotFrame_filtered hcfg hup hok) hcounted, _, ethNak_filtered hcfg hup hok, hcounted⟩
  · exact completes_ethFrameReceive (gotFrame_ackOnly hcfg hup hok hempty) ⟨rfl, connOf_ackTaken_same .., fun k hk => connOf_ackTaken_ne _ hk⟩
  · refine completes_ethFrameReceive (gotFrame_repeated hcfg hup hok hfull rfl hdst hpsn) ⟨rfl, ?_, fun k hk => ?_⟩
    · exact (connOf_modConn_same ..).trans (congrArg owesAck (connOf_ackTaken_same ..))
    · exact (connOf_modConn_ne _ _ hk).trans (connOf_ackTaken_ne _ hk)
  · intro hpsn hahead hkind hpfc
    refine completes_ethFrameReceive (gotFrame_inOrder hcfg hup hok hfull rfl hdst hcum hpsn hahead hkind hpfc) ⟨?_, ?_, fun k hk => ?_⟩
    · obtain ⟨ports, conns, hframe⟩ := received_modConn_frame s.dev h f (packetOf (f.drop (etherOff s.dev + 10)))
        (tookPsn (bits (frameShim s.dev f) 23 0))
      rw [hframe]
    · refine (connOf_received_modConn ..).trans ?_
      rw [if_pos rfl, tookPsn_next (c := owesAck (ackedUpTo _ _)) hahead hpsn]
      rfl
    · exact (connOf_received_modConn ..).trans (if_neg hk)
  · exact ⟨_, ethRtoExpire_due hun hdue, sentAgain_resend hun ⟨_, rfl⟩ rfl hdst hn hway⟩
  · intro f hup hcfg hok hpeer hnak hpsn
    refine ⟨_, ethNak_resends hcfg hup hok hnak, ?_⟩
    rw [← hpsn, hpeer]
    exact sentAgain_resend hun ⟨_, rfl⟩ (ackTaken_named hun hpeer hpsn) hdst hn hway
  · refine ⟨_, ethRtoExpire_due hun hdue, ?_⟩
    rw [resend_given_up hun hn hnone]
    exact ⟨connOf_modConn_same .., rfl⟩
  · refine ⟨_, pfcFrameReceive_pauses prio quanta hpfc hcfg, (hself.modPort _).portIs ?_, fun vc hvc => ?_⟩
    · rw [portOf_modPort_same]
      rfl
    · rw [portOf_modPort_same]
      exact nth_map_zipIdx false false _ hvc
  · refine ⟨_, fabricArbiterRefill_refills hcfg, (hself.modPort _).portIs ?_, ?_, fun c hc => ?_⟩
    · rw [portOf_modPort_same]
      rfl
    · rw [portOf_modPort_same]
      simp [arbRefilled, p]
    · rw [portOf_modPort_same]
      exact nth_arbRefilled s.dev hc
  · refine completes_fabricGrant (grant_idles hcfg hup hqueued hbuf) (((hself.modPort _).sendFlit ..).portSends ?_)
    rw [portOf_sendFlit, portOf_modPort_same]
    rfl
  · obtain ⟨fl, hfl, hsent⟩ := sends_grant hup hidle hc hqueued hmay hcfg hbuf
    exact completes_fabricGrant rfl ⟨fl, hfl, hsent.portSends⟩
  · refine completes_fabricGrant (grant_eth hup hidle hc hqueued hmay hcfg hnone) ⟨fun k => ?_, rfl, connOf_sendFrame_new ..⟩
    split
    · next hk => rw [hk, portOf_modPort_same, portOf_sendFrame, portOf_modPort_same, startedOn_steps hqueued]; rfl
    · next hk => rw [portOf_modPort_ne _ _ hk, portOf_sendFrame, portOf_modPort_ne _ _ hk]

end Sys2Proof.Machine
end

section
/-! PROOF. What the sends of a collective leave as it was, and its end on a member (11 R425 to R430, R434). -/

namespace Sys2Proof.Machine

/-! ### The collectives, the weight sets, the tables, the hub clock and the final records -/

/-- The collectives in flight, the weight sets, the tables in force, the hub clock and, by command in flight, its final record. -/
def collView (d : Dev) : SMap Coll × Weights × SMap (List Byte) × Nat × (Nat → Option (Option Done)) :=
  (d.colls.live, d.weights, d.tables, d.now, fun cid => (smFind d.cmds cid).map (·.fin))

section
variable {d e : Dev} (h : collView d = collView e)
include h

theorem live_of_collView : d.colls.live = e.colls.live := congrArg Prod.fst h

theorem weights_of_collView : d.weights = e.weights := congrArg (·.2.1) h

theorem tables_of_collView : d.tables = e.tables := congrArg (·.2.2.1) h

theorem now_of_collView : d.now = e.now := congrArg (·.2.2.2.1) h

theorem getColl_of_collView (n : Nat) : getColl d n = getColl e n := congrArg (smFind · n) (live_of_collView h)

theorem findColl_of_collView (group : Nat) (id : Word) : findColl d group id = findColl e group id := by
  rw [findColl, findColl, live_of_collView h]

theorem wset_of_collView (w : Nat) : wset d w = wset e w := by rw [wset, wset, weights_of_collView h]

theorem tableOf_of_collView (kind inst : Nat) : tableOf d kind inst = tableOf e kind inst := by
  rw [tableOf, tableOf, tables_of_collView h]

theorem wEntry_of_collView (w : Nat) : wEntry d w = wEntry e w := by rw [wEntry, wEntry, wEntries, wEntries, tableOf_of_collView h]

theorem groupDevs_of_collView (g : Nat) : groupDevs d g = groupDevs e g := by
  simp only [groupDevs, groupEntry, tableOf_of_collView h]

/-- A command of the one that has no final record has none in the other. -/
theorem unfinished_of_collView {cid : Nat} {c : Cmd} (hc : smFind e.cmds cid = some c) (hfin : c.fin = none) :
    ∃ c', smFind d.cmds cid = some c' ∧ c'.fin = none := by
  have hrec : (smFind d.cmds cid).map (·.fin) = (smFind e.cmds cid).map (·.fin) := congrFun (congrArg (·.2.2.2.2) h) cid
  rw [hc, Option.map_some, hfin] at hrec
  exact Option.map_eq_some_iff.mp hrec

end

theorem collView_foldl {β : Type} {f : Dev → β → Dev} (h : ∀ d x, collView (f d x) = collView d) (l : List β) (d : Dev) :
    collView (l.foldl f d) = collView d := foldl_keep collView f h l d

/-- A change of a command that leaves its final record. -/
theorem collView_modCmd (d : Dev) (cid : Nat) {f : Cmd → Cmd} (hf : ∀ c, (f c).fin = c.fin) : collView (modCmd d cid f) = collView d := by
  have hrec (j : Nat) : (smFind (smUpd d.cmds cid f) j).map (·.fin) = (smFind d.cmds j).map (·.fin) := by
    by_cases hj : j = cid
    · subst hj
      rw [smFind_smUpd_same, Option.map_map]
      exact congrArg (Option.map · _) (funext hf)
    · rw [smFind_smUpd_ne _ _ hj]
  exact congrArg (fun r => (d.colls.live, d.weights, d.tables, d.now, r)) (funext hrec)

@[simp] theorem collView_tookPacket (s : State) (g : Nat) (pk : Packet) (rest : List (Nat × Packet)) :
    collView (tookPacket s g pk rest) = collView s.dev := by
  obtain ⟨ports, out, h⟩ := tookPacket_frame s g pk rest
  rw [h]
  rfl

@[simp] theorem collView_poke (d : Dev) (ctx va : Nat) (bs : List Byte) : collView (poke d ctx va bs) = collView d := by
  obtain ⟨mem, h⟩ := poke_frame d ctx va bs
  rw [h]
  rfl

@[simp] theorem collView_sendOrDrop (d : Dev) (p : Packet) : collView (sendOrDrop d p) = collView d := by
  obtain ⟨fabric, h⟩ := sendOrDrop_frame d p
  rw [h]
  rfl

@[simp] theorem collView_sendColl (d : Dev) (k : Coll) (m : Nat) (h : CHead) (va : Nat) (data : List Byte) :
    collView (sendColl d k m h va data) = collView d := collView_sendOrDrop ..

@[simp] theorem collView_sendMsg (d : Dev) (dst ctx tag : Nat) (data : List Byte) : collView (sendMsg d dst ctx tag data) = collView d :=
  collView_sendOrDrop ..

@[simp] theorem collView_markColl (d : Dev) (k : Coll) : collView (markColl d k) = collView d := by
  unfold markColl
  split
  · split
    · exact collView_modCmd d _ fun _ => rfl
    · rfl
  · rfl

@[simp] theorem collView_noteThrottled (d : Dev) (p : Packet) : collView (noteThrottled d p) = collView d := by
  unfold noteThrottled
  split
  · split
    · split
      · exact collView_modCmd d _ fun _ => rfl
      · rfl
    · rfl
  · rfl

@[simp] theorem collView_moveDeadline (d : Dev) (k : Coll) : collView (moveDeadline d k) = collView d := by
  unfold moveDeadline
  split
  · exact collView_modCmd d _ fun _ => rfl
  · rfl

@[simp] theorem collView_passDecision (d : Dev) (k : Coll) (pay : List Byte) : collView (passDecision d k pay) = collView d :=
  (collView_foldl (fun d i => collView_sendColl d k i _ _ _) _ _).trans rfl

/-- Sending a shard's packets leaves the collective as it is, whether its bytes can be read or not. -/
@[simp] theorem collView_sendShard (d : Dev) (k : Coll) (x : Shard) (retry : Bool) : collView (sendShard d k x retry).2 = collView d := by
  unfold sendShard
  cases readVirt d k.ctx x.va x.bytes .any with
  | error e => rfl
  | ok bs => exact collView_foldl (fun d q => collView_sendColl d k _ _ _ _) _ _

/-- Two changes of a collective that agree on it are one. -/
theorem modColl_congr {d : Dev} {n : Nat} {k : Coll} {f g : Coll → Coll} (hk : getColl d n = some k) (h : f k = g k) :
    modColl d n f = modColl d n g := by
  have hfind : smFind d.colls.live n = some k := hk
  simp only [modColl, smUpd, hfind, h]

theorem getColl_modColl {d : Dev} {n : Nat} {k : Coll} (hk : getColl d n = some k) (f : Coll → Coll) :
    getColl (modColl d n f) n = some (f k) := by
  rw [getColl_modColl_same, hk, Option.map_some]

/-! ### The end of a collective -/

/-- The collective is complete: its final record is to be placed. -/
def Over (n : Nat) (k : Coll) (d : Dev) : Prop := ∃ j, getColl d n = some j ∧ j = { k with phase := .complete, met := j.met }

section
variable {d : Dev} {n cid : Nat} {k : Coll} (hk : getColl d n = some k) (hcid : k.cid = some cid)
include hk hcid

/-- The end of a collective completes it and prepares the record of its command. -/
theorem endColl_eq (status detail : Nat) (result : List (Nat × Nat × Nat)) (slot : Option (List Byte)) :
    ∃ met, endColl d n status detail result slot =
      finishCmd (modColl d n fun k => { k with phase := .complete, met := met }) cid status detail result slot := by
  simp only [endColl, hk, hcid]
  exact ⟨_, rfl⟩

theorem over_endColl (status detail : Nat) (result : List (Nat × Nat × Nat)) (slot : Option (List Byte)) :
    Over n k (endColl d n status detail result slot) := by
  obtain ⟨met, hend⟩ := endColl_eq hk hcid status detail result slot
  rw [hend]
  exact ⟨_, getColl_modColl hk _, rfl⟩

theorem weights_endColl (status detail : Nat) (result : List (Nat × Nat × Nat)) (slot : Option (List Byte)) :
    (endColl d n status detail result slot).weights = d.weights := by
  obtain ⟨met, hend⟩ := endColl_eq hk hcid status detail result slot
  rw [hend]
  rfl

theorem finOf_endColl (s : State) {c : Cmd} (hc : smFind d.cmds cid = some c) (hfin : c.fin = none) (status detail : Nat)
    (result : List (Nat × Nat × Nat)) (slot : Option (List Byte)) :
    finOf { s with dev := endColl d n status detail result slot } cid =
      some (BitVec.ofNat 16 status, BitVec.ofNat 16 detail, resultOf result) := by
  obtain ⟨met, hend⟩ := endColl_eq hk hcid status detail result slot
  rw [hend]
  exact finOf_finishCmd status detail result slot hc hfin

end

/-- A collective ends as d does with it, in whatever d has sent and noted since e. -/
theorem endColl_ends (s : State) {d e : Dev} {n cid : Nat} {k : Coll} {c : Cmd} (hview : collView d = collView e)
    (hk : getColl e n = some k) (hcid : k.cid = some cid) (hc : smFind e.cmds cid = some c) (hfin : c.fin = none) (status detail : Nat)
    (result : List (Nat × Nat × Nat)) (slot : Option (List Byte)) :
    Over n k (endColl d n status detail result slot) ∧ finOf { s with dev := endColl d n status detail result slot } cid =
      some (BitVec.ofNat 16 status, BitVec.ofNat 16 detail, resultOf result) := by
  have hk' : getColl d n = some k := by rw [getColl_of_collView hview, hk]
  obtain ⟨c', hc', hfin'⟩ := unfinished_of_collView hview hc hfin
  exact ⟨over_endColl hk' hcid .., finOf_endColl hk' hcid s hc' hfin' ..⟩

theorem colls_markSlots (d : Dev) (k : Coll) (ok : Bool) : (markSlots d k ok).colls = d.colls := by
  refine foldl_keep Dev.colls _ (fun d q => ?_) k.met d
  dsimp only
  split
  · split <;> rfl
  · split <;> rfl

/-- Once the final record of a CHECK that ended OK has been placed, the collective is gone and its group is checked (11 R424, R425). -/
theorem settleColl_check {d : Dev} {n : Nat} {k : Coll} (hk : getColl d n = some k) (hop : k.op = 1) (hstatus : k.status = 0#16)
    (hpins : k.pins = []) (hwpins : k.wpins = []) :
    getColl (settleColl d n k) n = none ∧ k.group ∈ (settleColl d n k).colls.checked := by
  have hlive : smFind (markSlots d k true).colls.live n = some k := by rw [colls_markSlots]; exact hk
  have hsettled : settleColl d n k = { markSlots d k true with colls := { (markSlots d k true).colls with
      live := smErase (markSlots d k true).colls.live n, checked := insertSorted k.group (markSlots d k true).colls.checked } } := by
    simp [settleColl, dropColl, getColl, hstatus, stOk, hop, opAllToAll, hlive, hpins, hwpins]
  rw [hsettled]
  exact ⟨smFind_smErase_same .., mem_insertSorted.mpr (.inl rfl)⟩

end Sys2Proof.Machine
end

section
/-! PROOF. The start phase and the decision of a collective, and the commit of a version (11 R426 to R432; 12 R484 to R489). -/

namespace Sys2Proof.Machine

/-! ### A START is sent (11 R429) -/

/-- The collective has sent its START at an instant. -/
def Started (now n : Nat) (k : Coll) (d : Dev) : Prop :=
  ∃ j, getColl d n = some j ∧ j = { k with phase := .start, sentAt := now, startAt := j.startAt, vote := j.vote }

theorem started_sendStart {d : Dev} {n : Nat} {k : Coll} (hk : getColl d n = some k) : Started d.now n k (sendStart d n) := by
  have hmark : getColl (markColl d k) n = some k := by rw [getColl_of_collView (collView_markColl d k), hk]
  have hnow : (markColl d k).now = d.now := now_of_collView (collView_markColl d k)
  simp only [Started, sendStart, hk, getColl_of_collView (collView_sendColl ..), getColl_modColl hmark, hnow]
  exact ⟨_, rfl, rfl⟩

/-! ### The command begins (11 R425, R429, R454; 12 R485) -/

/-- The rows of the commands that run a collective. -/
theorem exec_collCommand {op cid : Nat} {row : Instr}
    (hrow : (op, row) ∈ [(0x0A01, Instr.refoldRun cid), (0x0B01, .collRun cid), (0x0902, .weightsCommit cid)]) (s : State) :
    exec row s = onDev s (runCmd op cid stepColl) := by
  simp only [List.mem_cons, Prod.mk.injEq, List.not_mem_nil, or_false] at hrow
  obtain ⟨rfl, rfl⟩ | ⟨rfl, rfl⟩ | ⟨rfl, rfl⟩ := hrow <;> rfl

section
variable {d : Dev} {cid n : Nat} {c : Cmd} {k : Coll} (hcoll : collOfCmd d cid = some (n, k)) (hphase : k.phase = .waiting)
include hcoll hphase

theorem stepColl_votes (hop : k.op = opCommit)
    (hvote : voteOf (wset d (cWset k)) (cVer k) = 0 ∨ k.startAt + 400 * par c 0x1C 4 ≤ d.now) :
    stepColl d cid c = some (sendStart d n) := by
  simp [stepColl, hcoll, hphase, hop, hvote]

theorem stepColl_waits (hop : k.op = opCommit) (hvote : voteOf (wset d (cWset k)) (cVer k) ≠ 0)
    (hsoon : d.now < k.startAt + 400 * par c 0x1C 4) : stepColl d cid c = some d := by
  simp [stepColl, hcoll, hphase, hop, hvote, Nat.not_le.mpr hsoon]

theorem stepColl_starts (hop : k.op ≠ opCommit) (hlocal : notLocal d (cmdContext c) (rangesOf d k) = [])
    (hdies : isReduce k.op = true → ∃ y, smFind d.ctxs k.ctx = some y ∧
      bufsOnDies d (groupDevs d k.group) k.member c k.desc y = true)
    (hpins : k.op = opRefold → pagesPinned d n k = false ∧ slotPinned d k.ctx (rangesOf d k) = false) :
    stepColl d cid c = some (sendStart d n) := by
  have hbufs : ¬ (isReduce k.op = true ∧
      (!(smFind d.ctxs k.ctx).any (bufsOnDies d (groupDevs d k.group) k.member c k.desc)) = true) := by
    rintro ⟨hred, hno⟩
    obtain ⟨y, hy, hon⟩ := hdies hred
    simp [hy, hon] at hno
  have hfree : ¬ (k.op = opRefold ∧ (pagesPinned d n k = true ∨ slotPinned d k.ctx (rangesOf d k) = true)) := by
    rintro ⟨href, hpin⟩
    obtain ⟨hpages, hslots⟩ := hpins href
    simp [hpages, hslots] at hpin
  simp only [stepColl, hcoll, hphase, hop, bringIn_local hlocal, ne_eq, not_true_eq_false, Bool.not_true, Bool.false_eq_true, if_false,
    if_neg hbufs, if_neg hfree]

end

/-- A collective of a command that begins has sent its START, once the body of the command does. -/
theorem completes_started {s : State} {n op cid : Nat} {k : Coll} {c : Cmd} {row : Instr} (hk : getColl s.dev n = some k)
    (hexec : exec row s = onDev s (runCmd op cid stepColl)) (hruns : Runs s op cid c)
    (hbody : stepColl (began s cid) cid c = some (sendStart (began s cid) n)) :
    Completes row s fun t => t = { s with dev := modCmd (sendStart (began s cid) n) cid waitState } ∧ Started s.dev.now n k t.dev :=
  ⟨_, hexec.trans (onDev_runCmd hruns hbody), rfl, started_sendStart (d := began s cid) hk⟩

/-! ### The timers of the start phase (11 R429, R430; 12 R485, R489) -/

section
variable {s : State} {n : Nat} {k : Coll} (hk : getColl s.dev n = some k)
include hk

theorem exec_commitWaitExpire {cid : Nat} {c : Cmd} (hcid : k.cid = some cid) (hc : smFind s.dev.cmds cid = some c)
    (hrun : c.phase = .running) (hop : k.op = opCommit) (hphase : k.phase = .waiting)
    (hdue : k.startAt + 400 * field k.hdr 0x1C 4 ≤ s.dev.now) :
    exec (.commitWaitExpire n) s = .next { s with dev := sendStart s.dev n } := by
  simp only [exec, execCommitWaitExpire, onDev_next, hk, hcid, Option.bind_some, hc, hrun, decide_true, hop, hphase, hdue, and_self,
    if_true]

theorem exec_collStartResend (hphase : k.phase = .start) (hdue : k.sentAt + 400 * fabRto s.dev ≤ s.dev.now) :
    exec (.collStartResend n) s = .next { s with dev := sendStart s.dev n } := by
  simp only [exec, execCollStartResend, onDev_next, hk, hphase, hdue, and_self, if_true]

theorem exec_collStartTimeout {e : List Byte} (he : groupEntry s.dev k.group = some e) (hlead : k.member = 0) (hphase : k.phase = .start)
    (hdue : k.startAt + 400 * gStartTimeout e ≤ s.dev.now) :
    exec (.collStartTimeout n) s = .next { s with dev := decideNow s.dev n true } := by
  simp only [exec, execCollStartTimeout, onDev_next, hk, he, hlead, hphase, hdue, and_self, if_true]

end

/-- With a START missing after START_TIMEOUT member 0 decides on DEVICE_FAULT, naming its member (11 R430). -/
theorem decideOn_late {k : Coll} {m i : Nat} (hmissing : (span 0 m).find? (fun i => (smFind k.starts i).isNone) = some i) :
    decideOn k m true = { status := stDeviceFault, detail := 3, member := i } := by
  simp only [decideOn, if_true, hmissing]

end Sys2Proof.Machine
end

section
/-! PROOF. The packets of the start phase of a collective, and the commit of a version (11 R427 to R432, R434; 12 R475, R487, R488). -/

namespace Sys2Proof.Machine

/-! ### A collective packet is taken (11 R427) -/

section
variable {s : State} {g : Nat} {pk : Packet} {rest : List (Nat × Packet)} (h : FirstPacket s g pk rest) (hkind : pk.kind = pkColl)
  (hlen : 64 ≤ pk.data.length)
include h hkind hlen

theorem takeColl_first {kind : Nat} (hck : ckOf pk = kind) : takeColl s.dev kind pk = some (tookPacket s g pk rest) := by
  rw [takeColl, if_pos ⟨hck, hlen⟩, takePacket_first h hkind]

theorem exec_collStart_first (hck : ckOf pk = 0) : exec (.collStart pk) s =
    .next { s with dev := gotStart (noteThrottled (tookPacket s g pk rest) pk) pk } := by
  simp only [exec, execCollStart, onDev_next, takeColl_first h hkind hlen hck]

theorem exec_decide_first (hck : ckOf pk = 1) : exec (.decide pk) s =
    .next { s with dev := gotDecide (noteThrottled (tookPacket s g pk rest) pk) pk } := by
  simp only [exec, execDecide, onDev_next, takeColl_first h hkind hlen hck]

theorem exec_abort_first (hck : ckOf pk = 8) {n : Nat} {k : Coll} (hfind : findColl s.dev (cpGroup pk) (cpId pk) = some (n, k))
    (hphase : k.phase ≠ .complete) : exec (.abort pk) s = .next { s with
      dev := endColl (tookPacket s g pk rest) n (cpAux pk % 65536) (field (cpData pk) 0 4)
        [(0x0C, 4, cpAux pk / 65536), (0x10, 4, nth 0 (groupDevs s.dev k.group) (cpAux pk / 65536))] none } := by
  have hview := collView_tookPacket s g pk rest
  simp only [exec, execAbort, onDev_next, takeColl_first h hkind hlen hck, findColl_of_collView hview, hfind, if_neg hphase]

end

/-- A member that throttles has the command of the collective marked (11 R434). -/
theorem noteThrottled_marks {d : Dev} {pk : Packet} {n cid : Nat} {k : Coll} {c : Cmd}
    (hfind : findColl d (cpGroup pk) (cpId pk) = some (n, k)) (hcid : k.cid = some cid) (hflag : cpFlag pk 2 = true)
    (hc : smFind d.cmds cid = some c) : smFind (noteThrottled d pk).cmds cid = some { c with throttled := true } := by
  simp only [noteThrottled, hfind, hcid, hflag, if_true, modCmd_cmds, smFind_smUpd_same, hc, Option.map_some]

/-! ### A START arrives (11 R429, R430) -/

/-- The STARTs of a collective with those of a packet. -/
def startsWith (pk : Packet) (k : Coll) : SMap (List Byte) := (startRecords pk).foldl (fun m r => smPut m (srMember r) r) k.starts

theorem gotStart_eq {d : Dev} {pk : Packet} {n : Nat} {k : Coll} (hfind : findColl d (cpGroup pk) (cpId pk) = some (n, k))
    (hk : getColl d n = some k) (hphase : k.phase = .start) :
    gotStart d pk = passStarts (modColl d n fun j => { j with starts := startsWith pk k }) n := by
  simp only [gotStart, hfind, hphase, true_or, if_true]
  exact congrArg (passStarts · n) (modColl_congr hk rfl)

/-- Member 0 decides once it has the START of every member. -/
theorem passStarts_leader {d : Dev} {n : Nat} {k : Coll} (hk : getColl d n = some k) (hphase : k.phase = .start) (hlead : k.member = 0) :
    passStarts d n = if (span 0 (groupDevs d k.group).length).all (fun i => (smFind k.starts i).isSome) then decideNow d n false else d := by
  simp only [passStarts, hk, hphase, hlead, ne_eq, not_true_eq_false, if_false, if_true]

theorem decideNow_eq {d : Dev} {n : Nat} {k : Coll} (hk : getColl d n = some k) (late : Bool) : decideNow d n late =
    spreadDecision d n (decisionBytes (decisionAux k (decideOn k (groupDevs d k.group).length late))
      (decideOn k (groupDevs d k.group).length late)) := by
  simp only [decideNow, hk]

section
variable {s : State} {g : Nat} {pk : Packet} {rest : List (Nat × Packet)} (h : FirstPacket s g pk rest) (hkind : pk.kind = pkColl)
  (hlen : 64 ≤ pk.data.length) (hck : ckOf pk = 0) {n : Nat} {k : Coll}
  (hfind : findColl s.dev (cpGroup pk) (cpId pk) = some (n, k)) (hk : getColl s.dev n = some k) (hphase : k.phase = .start)
  (hlead : k.member = 0)

/-- The device once the STARTs of the first packet have been added to those of a collective. -/
def startsAdded (s : State) (g : Nat) (pk : Packet) (rest : List (Nat × Packet)) (n : Nat) (k : Coll) : Dev :=
  modColl (noteThrottled (tookPacket s g pk rest) pk) n fun j => { j with starts := startsWith pk k }

include hk in
theorem getColl_startsAdded : getColl (startsAdded s g pk rest n k) n = some { k with starts := startsWith pk k } := by
  have hnoted : getColl (noteThrottled (tookPacket s g pk rest) pk) n = some k := by rw [getColl_of_collView (e := s.dev) (by simp), hk]
  exact getColl_modColl hnoted fun j => { j with starts := startsWith pk k }

theorem groupDevs_startsAdded (group : Nat) : groupDevs (startsAdded s g pk rest n k) group = groupDevs s.dev group := by
  have hnoted : collView (noteThrottled (tookPacket s g pk rest) pk) = collView s.dev := by simp
  rw [← groupDevs_of_collView hnoted]
  rfl

include h hkind hlen hck hfind hk hphase hlead

/-- A START is added to those that member 0 has, and the last one has it decide (11 R429, R430). -/
theorem exec_collStart_leader : exec (.collStart pk) s = .next { s with
    dev := if (span 0 (groupDevs s.dev k.group).length).all (fun i => (smFind (startsWith pk k) i).isSome)
      then decideNow (startsAdded s g pk rest n k) n false else startsAdded s g pk rest n k } := by
  have hview : collView (noteThrottled (tookPacket s g pk rest) pk) = collView s.dev := by simp
  rw [exec_collStart_first h hkind hlen hck, gotStart_eq (n := n) (k := k) (by rw [findColl_of_collView hview, hfind])
    (by rw [getColl_of_collView hview, hk]) hphase]
  rw [← groupDevs_startsAdded (s := s) (g := g) (pk := pk) (rest := rest) (n := n) (k := k)]
  exact congrArg (fun d => Host.Outcome.next { s with dev := d }) (passStarts_leader (getColl_startsAdded hk) hphase hlead)

theorem exec_collStart_waits (hmissing : ∃ i, i < (groupDevs s.dev k.group).length ∧ smFind (startsWith pk k) i = none) :
    exec (.collStart pk) s = .next { s with dev := startsAdded s g pk rest n k } := by
  obtain ⟨i, hi, hnone⟩ := hmissing
  rw [exec_collStart_leader h hkind hlen hck hfind hk hphase hlead, if_neg]
  intro hall
  have hsome := List.all_eq_true.mp hall i (List.mem_range'_1.mpr (by omega))
  rw [hnone] at hsome
  cases hsome

theorem exec_collStart_decides (hall : ∀ i, i < (groupDevs s.dev k.group).length → (smFind (startsWith pk k) i).isSome = true) :
    exec (.collStart pk) s = .next { s with dev := decideNow (startsAdded s g pk rest n k) n false } := by
  rw [exec_collStart_leader h hkind hlen hck hfind hk hphase hlead, if_pos]
  refine List.all_eq_true.mpr fun i hi => hall i ?_
  have := List.mem_range'_1.mp hi
  omega

end

/-! ### A decision arrives (11 R430, R431) -/

theorem slice_append_left {bs : List Byte} {n : Nat} (h : bs.length = n) (l : List Byte) : slice (bs ++ l) 0 n = bs := by
  subst h
  simp [slice]

theorem slice_append_right {bs : List Byte} {m : Nat} (h : bs.length = m) (l : List Byte) (n : Nat) : slice (bs ++ l) m n = slice l 0 n := by
  subst h
  simp [slice]

/-- The bytes of a number that bytes give. -/
theorem natLe_leNat (bs : List Byte) : natLe bs.length (leNat bs) = bs := by
  induction bs with
  | nil => rfl
  | cons b bs ih =>
    have hdiv : (b.toNat + 256 * leNat bs) / 256 = leNat bs := by omega
    have hbyte : BitVec.ofNat 8 (b.toNat + 256 * leNat bs) = b := BitVec.eq_of_toNat_eq (by simp; omega)
    simp only [List.length_cons, natLe, leNat, hdiv, ih, hbyte]

/-- The decision that a DECIDE carries. -/
def decisionOf (pk : Packet) : List Byte := natLe 4 (cpAux pk) ++ cpData pk

theorem field_decisionOf_aux (pk : Packet) : field (decisionOf pk) 0 4 = cpAux pk := by
  have hlen : (slice pk.data 0x2C 4).length = 4 := slice_length ..
  have haux : natLe 4 (cpAux pk) = slice pk.data 0x2C 4 := by
    have h := natLe_leNat (slice pk.data 0x2C 4)
    rw [hlen] at h
    exact h
  rw [decisionOf, haux, field, slice_append_left hlen]
  rfl

theorem field_decisionOf_detail (pk : Packet) : field (decisionOf pk) 4 4 = field (cpData pk) 0 4 := by
  rw [decisionOf, field, slice_append_right (natLe_length 4 _)]
  rfl

/-- A member that waits for the decision passes it on and applies it. -/
theorem gotDecide_start {d : Dev} {pk : Packet} {n : Nat} {k : Coll} (hfind : findColl d (cpGroup pk) (cpId pk) = some (n, k))
    (hk : getColl d n = some k) (hphase : k.phase = .start) :
    gotDecide d pk = applyDecision (passDecision d k (decisionOf pk)) n (decisionOf pk) := by
  simp only [gotDecide, hfind, hphase, true_or, if_true, spreadDecision, hk, decisionOf]

section
variable {d : Dev} {n cid : Nat} {k : Coll} {pay : List Byte} (hk : getColl d n = some k) (hcid : k.cid = some cid)
include hk hcid

theorem applyDecision_refuses (hop : k.op ≠ opCommit) (hstatus : field pay 0 4 % 65536 ≠ 0) : ∃ result,
    applyDecision d n pay = endColl (moveDeadline d k) n (field pay 0 4 % 65536) (field pay 4 4) result none := by
  have hnot : ¬ field pay 0 4 % 65536 = stOk := hstatus
  simp only [applyDecision, hk, hcid, if_neg hop, Option.isNone_some, Bool.false_eq_true, if_false, if_neg hnot]
  exact ⟨_, rfl⟩

theorem applyDecision_noData (hop : k.op ≤ 2) (hstatus : field pay 0 4 % 65536 = 0) :
    applyDecision d n pay = endColl (moveDeadline d k) n stOk 0 [] (some []) := by
  have hne : k.op ≠ opCommit := by rw [opCommit]; omega
  simp only [applyDecision, hk, hcid, if_neg hne, Option.isNone_some, Bool.false_eq_true, if_false, stOk, hstatus, if_true, if_pos hop]

theorem applyDecision_go (hne : k.op ≠ opCommit) (hop : 2 < k.op) (hstatus : field pay 0 4 % 65536 = 0) :
    applyDecision d n pay = pump (modColl (moveDeadline d k) n fun k => { k with phase := .go }) n := by
  simp only [applyDecision, hk, hcid, if_neg hne, Option.isNone_some, Bool.false_eq_true, if_false, stOk, hstatus, if_true,
    if_neg (Nat.not_le.mpr hop)]

end

/-! ### The commit of a version (12 R475, R476, R488) -/

theorem wslot_setNth {v : WSet} {i : Nat} (h : (wslot v i).state ≠ .free) (x : WSlot) :
    wslot { v with slots := setNth v.slots i x } i = x := by
  have hi : i < v.slots.length := by
    by_contra hout
    exact h (congrArg WSlot.state (List.getD_eq_default _ _ (Nat.not_lt.mp hout)))
  simp [wslot, nth, setNth, hi]

theorem lossStats_kept (e : List Byte) (v : WSet) : (lossStats e v).mpar = v.mpar ∧ (lossStats e v).slots = v.slots := by
  unfold lossStats
  split
  · exact ⟨rfl, rfl⟩
  · split <;> exact ⟨rfl, rfl⟩

theorem commitScale_kept (e : List Byte) (v : WSet) : (commitScale e v).mpar = v.mpar ∧ (commitScale e v).slots = v.slots := by
  unfold commitScale
  dsimp only
  split <;> exact ⟨rfl, rfl⟩

theorem commitDecision_frame (d : Dev) (w : Nat) (ver : Word) (switch hold : Bool) :
    ∃ weights, commitDecision d w ver switch hold = { d with weights := weights } := by
  unfold commitDecision
  split
  · exact ⟨d.weights, rfl⟩
  · dsimp only
    split
    · exact ⟨_, rfl⟩
    · split <;> split <;> exact ⟨_, rfl⟩

/-- The weight set once its READY version in a slot is committed. -/
def committedSet (e : List Byte) (ver : Word) (slot : Nat) (v : WSet) : WSet :=
  let v1 := commitScale e (lossStats e v)
  { v1 with decided := ver, outcome := 1, outDetail := 0, committed := ver, mpar := 1 - v1.mpar, iter := [],
            slots := setNth v1.slots slot { wslot v1 slot with state := .committed, reason := 0 } }

section
variable {d : Dev} {w slot : Nat} {ver : Word} {e : List Byte} (he : wEntry d w = some e) (hslot : verSlot (wset d w) ver = some slot)
  (hready : (wslot (wset d w) slot).state = .ready)
include he hslot hready

theorem wset_commitDecision (switch hold : Bool) : ∃ pending,
    wset (commitDecision d w ver switch hold) w = { committedSet e ver slot (wset d w) with pending := pending } := by
  have hstate : slotState (wset d w) ver = .ready := by simp only [slotState, hslot, hready]
  simp only [commitDecision, he, hslot, hstate, true_or, or_true, decide_true, if_true]
  split
  · exact ⟨_, by simp only [modWSlot, wset_modWset_same]; rfl⟩
  · exact ⟨_, by simp only [modWSlot, wset_modWset_same]; rfl⟩

/-- The version of a READY slot is committed: it is the set's committed version, MPAR toggles and the iteration record is cleared. -/
theorem commitDecision_ready (switch hold : Bool) :
    let v := wset (commitDecision d w ver switch hold) w
    (wslot v slot).state = .committed ∧ v.committed = ver ∧ v.iter = [] ∧ v.mpar = 1 - (wset d w).mpar := by
  obtain ⟨pending, hset⟩ := wset_commitDecision he hslot hready switch hold
  obtain ⟨hlossM, hlossS⟩ := lossStats_kept e (wset d w)
  obtain ⟨hscaleM, hscaleS⟩ := commitScale_kept e (lossStats e (wset d w))
  have hused : (wslot (commitScale e (lossStats e (wset d w))) slot).state ≠ .free := by
    rw [wslot, hscaleS, hlossS]
    exact fun hfree => by cases hready.symm.trans hfree
  rw [hset]
  exact ⟨congrArg WSlot.state (wslot_setNth hused _), rfl, rfl, congrArg (1 - ·) (hscaleM.trans hlossM)⟩

end

/-- A commit whose version is READY on the device ends OK, with the version committed, in whatever the device has sent and noted since s. -/
theorem endColl_commitDecision (s : State) {d : Dev} {n cid slot : Nat} {k : Coll} {c : Cmd} {e : List Byte}
    (hview : collView d = collView s.dev) (hk : getColl s.dev n = some k) (hcid : k.cid = some cid) (hc : smFind s.dev.cmds cid = some c)
    (hfin : c.fin = none) (he : wEntry s.dev (cWset k) = some e) (hslot : verSlot (wset s.dev (cWset k)) (cVer k) = some slot)
    (hready : (wslot (wset s.dev (cWset k)) slot).state = .ready) (switch hold : Bool) (result : List (Nat × Nat × Nat)) :
    let t : State := { s with dev := endColl (commitDecision d (cWset k) (cVer k) switch hold) n stOk 0 result none }
    Over n k t.dev ∧ endsOk t cid ∧ (wslot (wset t.dev (cWset k)) slot).state = .committed ∧
      (wset t.dev (cWset k)).committed = cVer k ∧ (wset t.dev (cWset k)).iter = [] ∧
      (wset t.dev (cWset k)).mpar = 1 - (wset s.dev (cWset k)).mpar := by
  rw [← wEntry_of_collView hview] at he
  rw [← wset_of_collView hview] at hslot hready ⊢
  obtain ⟨weights, hframe⟩ := commitDecision_frame d (cWset k) (cVer k) switch hold
  have hk' : getColl (commitDecision d (cWset k) (cVer k) switch hold) n = some k := by
    rw [hframe, ← hk, ← getColl_of_collView hview]
    rfl
  obtain ⟨c', hc', hfin'⟩ := unfinished_of_collView hview hc hfin
  have hcmds : smFind (commitDecision d (cWset k) (cVer k) switch hold).cmds cid = some c' := by rw [hframe, ← hc']
  refine ⟨over_endColl hk' hcid .., ⟨_, finOf_endColl hk' hcid s hcmds hfin' ..⟩, ?_⟩
  simp only [wset, weights_endColl hk' hcid]
  exact commitDecision_ready he hslot hready switch hold

theorem applyDecision_commits {d : Dev} {n : Nat} {k : Coll} {pay : List Byte} (hk : getColl d n = some k) (hop : k.op = opCommit)
    (hcommit : bit (field pay 0 4) 31 = true) : ∃ switch hold result, applyDecision d n pay =
      endColl (commitDecision (moveDeadline d k) (cWset k) (cVer k) switch hold) n stOk 0 result none := by
  simp only [applyDecision, hk, if_pos hop, applyCommit, hcommit, if_true]
  exact ⟨_, _, _, rfl⟩

/-! ### What a DECIDE does that finds a member waiting for it -/

section
variable {s : State} {g : Nat} {pk : Packet} {rest : List (Nat × Packet)} (h : FirstPacket s g pk rest) (hkind : pk.kind = pkColl)
  (hlen : 64 ≤ pk.data.length) (hck : ckOf pk = 1) {n : Nat} {k : Coll}
  (hfind : findColl s.dev (cpGroup pk) (cpId pk) = some (n, k)) (hk : getColl s.dev n = some k) (hphase : k.phase = .start)

/-- The device once a member has passed on the decision of the first packet. -/
def passedOn (s : State) (g : Nat) (pk : Packet) (rest : List (Nat × Packet)) (k : Coll) : Dev :=
  passDecision (noteThrottled (tookPacket s g pk rest) pk) k (decisionOf pk)

@[simp] theorem collView_passedOn : collView (passedOn s g pk rest k) = collView s.dev := by simp [passedOn]

include hk in
theorem getColl_passedOn : getColl (passedOn s g pk rest k) n = some k := by rw [getColl_of_collView collView_passedOn, hk]

include h hkind hlen hck hfind hk hphase

theorem exec_decide_start : exec (.decide pk) s = .next { s with dev := applyDecision (passedOn s g pk rest k) n (decisionOf pk) } := by
  have hview : collView (noteThrottled (tookPacket s g pk rest) pk) = collView s.dev := by simp
  rw [exec_decide_first h hkind hlen hck, gotDecide_start (n := n) (k := k) ?_ ?_ hphase]
  · rfl
  · rw [findColl_of_collView hview, hfind]
  · rw [getColl_of_collView hview, hk]

theorem decide_goes {cid : Nat} (hcid : k.cid = some cid) (hne : k.op ≠ opCommit) (hop : 2 < k.op) (hstatus : cpAux pk % 65536 = 0) :
    Completes (.decide pk) s fun t => ∃ d, t = { s with dev := pump d n } ∧ getColl d n = some { k with phase := .go } := by
  have hmoved : getColl (moveDeadline (passedOn s g pk rest k) k) n = some k := by
    rw [getColl_of_collView (collView_moveDeadline ..), getColl_passedOn hk]
  refine ⟨_, exec_decide_start h hkind hlen hck hfind hk hphase, _, congrArg (fun d => { s with dev := d }) ?_,
    getColl_modColl hmoved fun k => { k with phase := .go }⟩
  exact applyDecision_go (getColl_passedOn hk) hcid hne hop (by rw [field_decisionOf_aux, hstatus])

variable {cid : Nat} {c : Cmd} (hcid : k.cid = some cid) (hc : smFind s.dev.cmds cid = some c) (hfin : c.fin = none)
include hcid hc hfin

theorem decide_refuses (hop : k.op ≠ opCommit) (hstatus : cpAux pk % 65536 ≠ 0) : Completes (.decide pk) s fun t => Over n k t.dev ∧
    ∃ res, finOf t cid = some (BitVec.ofNat 16 (cpAux pk % 65536), BitVec.ofNat 16 (field (cpData pk) 0 4), res) := by
  obtain ⟨result, happly⟩ := applyDecision_refuses (pay := decisionOf pk) (getColl_passedOn (g := g) (pk := pk) (rest := rest) hk) hcid hop
    (by rw [field_decisionOf_aux]; exact hstatus)
  rw [field_decisionOf_aux, field_decisionOf_detail] at happly
  obtain ⟨hover, hrec⟩ := endColl_ends s (d := moveDeadline (passedOn s g pk rest k) k) (by simp) hk hcid hc hfin (cpAux pk % 65536)
    (field (cpData pk) 0 4) result none
  rw [← happly] at hover hrec
  exact ⟨_, exec_decide_start h hkind hlen hck hfind hk hphase, hover, _, hrec⟩

theorem decide_noData (hop : k.op ≤ 2) (hstatus : cpAux pk % 65536 = 0) :
    Completes (.decide pk) s fun t => Over n k t.dev ∧ endsOk t cid := by
  have happly := applyDecision_noData (pay := decisionOf pk) (getColl_passedOn (g := g) (pk := pk) (rest := rest) hk) hcid hop
    (by rw [field_decisionOf_aux, hstatus])
  obtain ⟨hover, hrec⟩ := endColl_ends s (d := moveDeadline (passedOn s g pk rest k) k) (by simp) hk hcid hc hfin stOk 0 [] (some [])
  rw [← happly] at hover hrec
  exact ⟨_, exec_decide_start h hkind hlen hck hfind hk hphase, hover, _, hrec⟩

theorem decide_commits {e : List Byte} {slot : Nat} (hop : k.op = opCommit) (hcommit : bit (cpAux pk) 31 = true)
    (he : wEntry s.dev (cWset k) = some e) (hslot : verSlot (wset s.dev (cWset k)) (cVer k) = some slot)
    (hready : (wslot (wset s.dev (cWset k)) slot).state = .ready) : Completes (.decide pk) s fun t => Over n k t.dev ∧ endsOk t cid ∧
      (wslot (wset t.dev (cWset k)) slot).state = .committed ∧ (wset t.dev (cWset k)).committed = cVer k ∧
      (wset t.dev (cWset k)).iter = [] ∧ (wset t.dev (cWset k)).mpar = 1 - (wset s.dev (cWset k)).mpar := by
  obtain ⟨switch, hold, result, happly⟩ := applyDecision_commits (pay := decisionOf pk)
    (getColl_passedOn (g := g) (pk := pk) (rest := rest) hk) hop (by rw [field_decisionOf_aux, hcommit])
  refine ⟨_, exec_decide_start h hkind hlen hck hfind hk hphase, ?_⟩
  rw [happly]
  exact endColl_commitDecision s (by simp) hk hcid hc hfin he hslot hready switch hold result

end

end Sys2Proof.Machine
end

section
/-! PROOF. The data phase of a collective: what a packet does, and the timers of its shards (11 R428, R431, R435, R436, R442, R443, R447,
R452, R455 to R457). -/

namespace Sys2Proof.Machine

/-! ### A packet of the data phase arrives (11 R426, R428, R431) -/

/-- The rows of the packets of the data phase. -/
theorem exec_collRow {kind : Nat} {pk : Packet} {row : Instr}
    (hrow : (kind, row) ∈ [(2, Instr.collData pk), (3, .fetch pk), (4, .ack pk), (5, .resend pk), (6, .busy pk), (7, .ready pk),
      (9, .count pk), (10, .nack pk)]) (s : State) : exec row s = onDev s (collRow kind pk) := by
  simp only [List.mem_cons, Prod.mk.injEq, List.not_mem_nil, or_false] at hrow
  obtain ⟨rfl, rfl⟩ | ⟨rfl, rfl⟩ | ⟨rfl, rfl⟩ | ⟨rfl, rfl⟩ | ⟨rfl, rfl⟩ | ⟨rfl, rfl⟩ | ⟨rfl, rfl⟩ | ⟨rfl, rfl⟩ := hrow
  all_goals rfl

/-- The member has heard from the sender of a packet at an instant. -/
def heardFrom (pk : Packet) (now : Nat) (k : Coll) : Coll := { k with heard := smPut k.heard (cpSrc pk) now }

/-- The packet waits, and the data phase is to begin. -/
def heldFor (pk : Packet) (k : Coll) : Coll := { k with held := k.held ++ [pk], phase := .go }

section
variable {d : Dev} {pk : Packet} {n : Nat} {k : Coll} (hfind : findColl d (cpGroup pk) (cpId pk) = some (n, k)) {cid : Nat}
  (hcid : k.cid = some cid)
include hfind hcid

theorem dataArrives_skew (hphase : k.phase ≠ .complete) (hdigest : slice pk.data 8 8 ≠ k.digest.take 8) :
    dataArrives d pk = skewAbort d n k (cpSrc pk) := by
  simp only [dataArrives, hfind, hcid, Option.isNone_some, Bool.false_eq_true, hphase, or_self, if_false, if_pos hdigest]

variable (hdigest : slice pk.data 8 8 = k.digest.take 8)
include hdigest

theorem dataArrives_data (hphase : k.phase = .data) :
    dataArrives d pk = pump (dataPacket n (modColl (noteThrottled d pk) n (heardFrom pk d.now)) pk) n := by
  simp only [dataArrives, hfind, hcid, Option.isNone_some, Bool.false_eq_true, hphase, hdigest, reduceCtorEq, or_self, ne_eq,
    not_true_eq_false, if_false, if_true]
  rfl

/-- A packet of the data phase tells a member that waits for the decision that it was GO (11 R431). -/
theorem dataArrives_start (hk : getColl d n = some k) (hphase : k.phase = .start) :
    dataArrives d pk = pump (modColl (modColl (noteThrottled d pk) n (heardFrom pk d.now)) n (heldFor pk)) n := by
  have hnoted : getColl (noteThrottled d pk) n = some k := by rw [getColl_of_collView (collView_noteThrottled d pk), hk]
  have hheard := getColl_modColl hnoted (heardFrom pk d.now)
  simp only [dataArrives, hfind, hcid, Option.isNone_some, Bool.false_eq_true, hphase, hdigest, reduceCtorEq, or_self, ne_eq,
    not_true_eq_false, if_false]
  refine congrArg (pump · n) (modColl_congr hheard ?_)
  simp only [heardFrom, heldFor, hphase, if_true]

end

/-- A packet whose DIGEST differs ends the collective CONFIG_SKEW (11 R428). -/
theorem skewAbort_eq (d : Dev) (n : Nat) (k : Coll) (src : Nat) : ∃ e, collView e = collView d ∧
    skewAbort d n k src = endColl e n stConfigSkew 1 [(0x0C, 4, src), (0x10, 4, nth 0 (groupDevs d k.group) src)] none := by
  refine ⟨_, ?_, rfl⟩
  exact (collView_foldl (fun d i => collView_sendColl d k i _ _ _) _ _).trans rfl

/-! ### What each packet does (11 R435, R436, R443, R447, R452, R455, R456) -/

section
variable {d : Dev} {n : Nat} {k : Coll} {pk : Packet} (hk : getColl d n = some k)
include hk

theorem dataPacket_fetch_never (hck : ckOf pk = 3) (hlook : lookShard d k pk = .never) : dataPacket n d pk =
    sendColl d k (cpSrc pk) { pkind := 10, shard := cpShard pk, lo := cpLo pk, cfl := b2n (cpFlag pk 1) * 2, aux := 2 } 0 [] := by
  simp only [dataPacket, hk, hck, serveFetch, hlook]

theorem dataPacket_resend (hck : ckOf pk = 5) {key : Nat} (hkey : sendKey k pk = some key) :
    dataPacket n d pk = sendAgain d n key true := by
  simp only [dataPacket, hk, hck, hkey]

theorem getColl_dataPacket_ready (hck : ckOf pk = 7) :
    getColl (dataPacket n d pk) n = some { k with ready := k.ready ++ [(cpSrc pk, cpAux pk)] } := by
  simp only [dataPacket, hk, hck]
  exact getColl_modColl hk fun k => { k with ready := k.ready ++ [(cpSrc pk, cpAux pk)] }

section
variable {key : Nat} {x : Shard} (hkey : sendKey k pk = some key) (hx : smFind k.send key = some x)
include hkey hx

theorem getColl_dataPacket_ack (hck : ckOf pk = 4) : ∃ j, getColl (dataPacket n d pk) n = some j ∧
    smFind j.send key = some { x with done := true, lost := false } := by
  simp only [dataPacket, hk, hck, hkey]
  exact ⟨_, getColl_modColl hk _, by rw [smFind_smUpd_same, hx, Option.map_some]⟩

theorem getColl_dataPacket_busy (hck : ckOf pk = 6) {now : Nat} (hnow : d.now = now) : ∃ j, getColl (dataPacket n d pk) n = some j ∧
    smFind j.send key = some { x with busy := some now } := by
  subst hnow
  simp only [dataPacket, hk, hck, hkey]
  exact ⟨_, getColl_modColl hk _, by rw [smFind_smUpd_same, hx, Option.map_some]⟩

end

/-- The answer of a destination of an all-to-all says how many rows it has placed (11 R447). -/
theorem getColl_dataPacket_count (hck : ckOf pk = 9) (hop : k.op = opAllToAll) (hforward : isReverse k = false) (hanswer : cpHi pk ≠ 0) :
    ∃ j, getColl (dataPacket n d pk) n = some j ∧ smFind j.took (cpSrc pk) = some (cpLo pk) := by
  simp only [dataPacket, hk, hck, hop, ne_eq, not_true_eq_false, hforward, Bool.false_eq_true, or_self, if_false, hanswer]
  refine ⟨_, getColl_modColl (k := k) ?_ _, smFind_smPut_same ..⟩
  rw [getColl_of_collView (collView_poke ..), hk]

/-- An attempt at a shard that may be made again fails (11 R456). -/
theorem getColl_failAttempt_again {key : Nat} {x : Shard} (hx : smFind k.recv key = some x) (hrepl : x.repl = false)
    (htries : x.attempts < 3) : ∃ j, getColl (failAttempt d n key 1) n = some j ∧ smFind j.recv key =
      some { x with total := x.total + 1, attempts := x.attempts + 1, landed := [], crc := none, at_ := d.now } := by
  have hmore : x.attempts + 1 < 4 := by omega
  simp only [failAttempt, hk, hx, hrepl, hmore, Bool.not_false, ne_eq, OfNat.one_ne_ofNat, not_false_eq_true, and_self, if_true]
  split
  · exact ⟨_, (getColl_of_collView (collView_sendColl ..) n).trans (getColl_modColl hk _), smFind_smPut_same ..⟩
  · exact ⟨_, (getColl_of_collView (collView_sendColl ..) n).trans (getColl_modColl hk _), smFind_smPut_same ..⟩

theorem getColl_dataPacket_nack (hck : ckOf pk = 10) {key : Nat} {x : Shard}
    (hfind : k.recv.find? (fun q => q.2.idx == cpShard pk && q.2.peer == cpSrc pk && q.2.hi == 0 && q.2.asked) = some (key, x))
    (hx : smFind k.recv key = some x) (hopen : settled x = false) (hreason : cpAux pk ≠ 1) (hrepl : x.repl = false)
    (htries : x.attempts < 3) {now : Nat} (hnow : d.now = now) : ∃ j, getColl (dataPacket n d pk) n = some j ∧ smFind j.recv key =
      some { x with total := x.total + 1, attempts := x.attempts + 1, landed := [], crc := none, at_ := now } := by
  subst hnow
  have hfails : dataPacket n d pk = failAttempt d n key 1 := by
    simp only [dataPacket, hk, hck, hfind, hopen, Bool.false_eq_true, if_false, if_neg hreason]
  rw [hfails]
  exact getColl_failAttempt_again hk hx hrepl htries

end

/-! ### A shard of one packet lands (11 R455) -/

/-- What memory holds does not depend on how far a collective is. -/
theorem readPieces_modColl (d : Dev) (n : Nat) (f : Coll → Coll) (x : Ctx) (perm : Perm) (l : List (Nat × Nat)) :
    readPieces (modColl d n f) x perm l = readPieces d x perm l := by
  induction l with
  | nil => rfl
  | cons q l ih =>
    simp only [readPieces, ih]
    rfl

@[simp] theorem peek_modColl (d : Dev) (n : Nat) (f : Coll → Coll) (ctx va len : Nat) :
    peek (modColl d n f) ctx va len = peek d ctx va len := by
  simp only [peek, readVirt, modColl_ctxs, readPieces_modColl]

/-- A shard of at most 4,032 bytes is one packet (11 R427). -/
theorem shardCuts_one {b : Nat} (hpos : 0 < b) (hmax : b ≤ 4032) : ceilDiv b 4032 = 1 ∧ shardCuts b = [(0, b)] := by
  have hone : ceilDiv b 4032 = 1 := by rw [ceilDiv]; omega
  refine ⟨hone, ?_⟩
  simp [shardCuts, hone, span, hmax]

/-- The one packet of a shard lands, and its bytes have the CRC that it says: the shard is done. -/
theorem landData_one {d : Dev} {n key : Nat} {k : Coll} {pk : Packet} {x : Shard} (hk : getColl d n = some k)
    (hx : smFind k.recv key = some x) (hopen : settled x = false) (hlast : cpFlag pk 0 = true) (hoff : cpOff pk = 0)
    (hlen : (cpData pk).length = x.bytes) (hpos : 0 < x.bytes) (hmax : x.bytes ≤ 4032) (hfirst : x.landed = [])
    (hheld : peek (poke d k.ctx x.va (cpData pk)) k.ctx x.va x.bytes = cpData pk) (hcrc : crc32c (cpData pk) = cpCrc pk) :
    ∃ j, getColl (landData d n key pk) n = some j ∧ smFind j.recv key =
      some { x with landed := [0], crc := some (cpCrc pk), at_ := d.now, done := true, total := x.total + 1 } := by
  obtain ⟨hone, hcuts⟩ := shardCuts_one hpos hmax
  have hfits : (shardCuts x.bytes).contains (cpOff pk, (cpData pk).length) = true := by simp [hcuts, hoff, hlen]
  have hnoted : insertSorted (cpOff pk) x.landed = [0] := by rw [hoff, hfirst]; rfl
  have hwhole : ¬ [0].length < ceilDiv x.bytes 4032 := by simp [hone]
  have hgood : crc32c (peek (poke d k.ctx (x.va + cpOff pk) (cpData pk)) k.ctx x.va x.bytes) = cpCrc pk := by
    rw [hoff, Nat.add_zero, hheld, hcrc]
  have hpoked : getColl (poke d k.ctx (x.va + cpOff pk) (cpData pk)) n = some k := by rw [getColl_of_collView (collView_poke ..), hk]
  simp only [landData, hk, hx, hopen, Bool.false_eq_true, if_false, hfits, Bool.not_true, hnoted, hlast, if_true, hwhole, peek_modColl,
    hgood, sendAck]
  refine ⟨_, (getColl_of_collView (collView_sendColl ..) n).trans (getColl_modColl (getColl_modColl hpoked _) _), ?_⟩
  exact smFind_smPut_same ..

theorem getColl_dataPacket_data {d : Dev} {n key : Nat} {k : Coll} {pk : Packet} {x : Shard} (hk : getColl d n = some k)
    (hck : ckOf pk = 2) (hkey : recvKey k pk = some key) (hx : smFind k.recv key = some x) (hop : isReduce k.op = false)
    (hopen : settled x = false) (hlast : cpFlag pk 0 = true) (hoff : cpOff pk = 0) (hlen : (cpData pk).length = x.bytes)
    (hpos : 0 < x.bytes) (hmax : x.bytes ≤ 4032) (hfirst : x.landed = [])
    (hheld : peek (poke d k.ctx x.va (cpData pk)) k.ctx x.va x.bytes = cpData pk) (hcrc : crc32c (cpData pk) = cpCrc pk) {now : Nat}
    (hnow : d.now = now) : ∃ j, getColl (dataPacket n d pk) n = some j ∧ smFind j.recv key =
      some { x with landed := [0], crc := some (cpCrc pk), at_ := now, done := true, total := x.total + 1 } := by
  subst hnow
  have hlands : dataPacket n d pk = landData d n key pk := by
    simp only [dataPacket, hk, hck, hkey, hop, Bool.false_eq_true, false_and, if_false]
  rw [hlands]
  exact landData_one hk hx hopen hlast hoff hlen hpos hmax hfirst hheld hcrc

/-! ### The timers of a shard (11 R443, R456, R457) -/

/-- A shard whose bytes can be read is sent. -/
theorem sendShard_reads {d : Dev} {k : Coll} {x : Shard} {bs : List Byte} (hread : readVirt d k.ctx x.va x.bytes .any = .ok bs)
    (retry : Bool) : ∃ e, sendShard d k x retry = (true, e) ∧ collView e = collView d := by
  have hview := collView_sendShard d k x retry
  simp only [sendShard, hread] at hview ⊢
  exact ⟨_, rfl, hview⟩

theorem sendAgain_reads {d : Dev} {n key : Nat} {k : Coll} {x : Shard} {bs : List Byte} (hk : getColl d n = some k)
    (hx : smFind k.send key = some x) (hopen : settled x = false) (hop : k.op ≠ opAllToAll)
    (hread : readVirt d k.ctx x.va x.bytes .any = .ok bs) : ∃ j, getColl (sendAgain d n key false) n = some j ∧
      smFind j.send key = some { x with asked := true, busy := none, at_ := d.now } := by
  obtain ⟨-, hkept⟩ : x.done = false ∧ x.lost = false := Bool.or_eq_false_iff.mp hopen
  obtain ⟨e, hsend, hview⟩ := sendShard_reads hread false
  have hsent : getColl e n = some k := by rw [getColl_of_collView hview, hk]
  simp only [sendAgain, hk, hx, hopen, Bool.false_eq_true, if_false, hop, false_and, hsend]
  refine ⟨_, getColl_modColl hsent _, ?_⟩
  simp [b2n, hkept]

section
variable {s : State} {n : Nat} {k : Coll} (hk : getColl s.dev n = some k) {key : Nat} {x : Shard}
include hk

theorem exec_busyRetryExpire (hphase : k.phase = .data) (hx : smFind k.send key = some x) {t0 : Nat} (hbusy : x.busy = some t0)
    (hdue : t0 + 400 * fabRto s.dev ≤ s.dev.now) :
    exec (.busyRetryExpire n key) s = .next { s with dev := sendAgain s.dev n key false } := by
  simp only [exec, execBusyRetryExpire, onDev_next, hk, Option.bind_some, hphase, if_true, hx, hbusy, hdue]

variable {e : List Byte} (he : groupEntry s.dev k.group = some e) (hphase : k.phase = .data) (hopen : settled x = false)
  (hasked : x.asked = true) (hdue : x.at_ + 400 * gDarnWait e ≤ s.dev.now)
include he hphase hopen hasked hdue

theorem exec_darnWaitExpire_send (hx : smFind k.send key = some x) (hbusy : x.busy = none) :
    exec (.darnWaitExpire n (2 * key + 1)) s = .next { s with dev := pump (darnSend s.dev n key k x) n } := by
  have hodd : (2 * key + 1) % 2 = 1 := by omega
  have hplace : (2 * key + 1) / 2 = key := by omega
  simp [exec, execDarnWaitExpire, hk, he, hphase, hodd, hplace, hx, hopen, hasked, hbusy, hdue]

theorem exec_darnWaitExpire_recv (hx : smFind k.recv key = some x) (hpull : pulled k x = true) (hcopy : x.copy = false) :
    exec (.darnWaitExpire n (2 * key)) s =
      .next { s with dev := pump (missingCount (failAttempt s.dev n key 1) n key) n } := by
  have heven : ¬ 2 * key % 2 = 1 := by omega
  have hplace : 2 * key / 2 = key := by omega
  simp [exec, execDarnWaitExpire, hk, he, hphase, hplace, hx, hopen, hasked, hcopy, hpull, hdue]

end

/-! ### A commit without its decision (12 R489) -/

/-- The other parts that a voter asks for a decision that does not come: the members of its node, and member 0. -/
def askedFor (d : Dev) (k : Coll) : List Nat :=
  let devs := groupDevs d k.group
  (((nodeMembers d devs k.member).map (fun i => nth 0 devs i)) ++ [nth 0 devs 0]).eraseDups.filter (fun v => v != myId d)

theorem mem_askedFor {d : Dev} {k : Coll} {v : Nat} (hv : v ∈ askedFor d k) : v ≠ myId d ∧ v ∈ groupDevs d k.group ++ [0] := by
  obtain ⟨hall, hother⟩ := List.mem_filter.mp hv
  refine ⟨by simpa using hother, ?_⟩
  have hnth (i : Nat) : nth 0 (groupDevs d k.group) i ∈ groupDevs d k.group ++ [0] := by
    by_cases hi : i < (groupDevs d k.group).length
    · simp [nth, hi]
    · simp [nth, Nat.not_lt.mp hi]
  rcases List.mem_append.mp (List.mem_eraseDups.mp hall) with hpeer | hlead
  · obtain ⟨i, -, rfl⟩ := List.mem_map.mp hpeer
    exact hnth i
  · rw [List.mem_singleton.mp hlead]
    exact hnth 0

/-- The version in a slot that is READY is in DOUBT. -/
def doubted (x : WSlot) : WSlot := if x.state = .ready then { x with state := .doubt } else x

/-- A commit whose version is in doubt ends DEVICE_FAULT (12 R489). -/
theorem commitDoubt_eq {d : Dev} {n : Nat} {k : Coll} : ∃ weights, commitDoubt d n k = endColl { d with weights := weights } n stDeviceFault
    0x0004 [] none ∧ ∀ slot, verSlot (wset d (cWset k)) (cVer k) = some slot →
      (wslot (wset d (cWset k)) slot).state = .ready → (wslot (smGet {} weights.sets (cWset k)) slot).state = .doubt := by
  cases hslot : verSlot (wset d (cWset k)) (cVer k) with
  | none => exact ⟨d.weights, by simp only [commitDoubt, hslot], fun slot h => by cases h⟩
  | some slot =>
    refine ⟨(modWSlot d (cWset k) slot doubted).weights, by simp only [commitDoubt, hslot]; rfl, ?_⟩
    rintro _ ⟨rfl⟩ hready
    have hset : wset (modWSlot d (cWset k) slot doubted) (cWset k) = { wset d (cWset k) with
        slots := setNth (wset d (cWset k)).slots slot (doubted (wslot (wset d (cWset k)) slot)) } := wset_modWset_same ..
    have hused : (wslot (wset d (cWset k)) slot).state ≠ .free := fun hfree => by cases hready.symm.trans hfree
    have hdoubt : (doubted (wslot (wset d (cWset k)) slot)).state = .doubt := by rw [doubted, if_pos hready]
    rw [← hdoubt, ← wslot_setNth hused (doubted (wslot (wset d (cWset k)) slot)), ← hset]
    rfl

theorem commitDoubt_ends (s : State) {n cid : Nat} {k : Coll} {c : Cmd} (hk : getColl s.dev n = some k) (hcid : k.cid = some cid)
    (hc : smFind s.dev.cmds cid = some c) (hfin : c.fin = none) :
    let t : State := { s with dev := commitDoubt s.dev n k }
    Over n k t.dev ∧ finOf t cid = some (0x00F0#16, 0x0004#16, 0#160) ∧ ∀ slot, verSlot (wset s.dev (cWset k)) (cVer k) = some slot →
      (wslot (wset s.dev (cWset k)) slot).state = .ready → (wslot (wset t.dev (cWset k)) slot).state = .doubt := by
  obtain ⟨weights, hends, hdoubt⟩ := commitDoubt_eq (d := s.dev) (n := n) (k := k)
  have hk' : getColl { s.dev with weights := weights } n = some k := hk
  have hsets : wset (endColl { s.dev with weights := weights } n stDeviceFault 0x0004 [] none) (cWset k) =
      smGet {} weights.sets (cWset k) := by rw [wset, weights_endColl hk' hcid]
  dsimp only
  rw [hends, hsets]
  exact ⟨over_endColl hk' hcid .., finOf_endColl hk' hcid s (c := c) hc hfin .., hdoubt⟩

section
variable {s : State} {n cid : Nat} {k : Coll} {e : List Byte} (hk : getColl s.dev n = some k) (he : groupEntry s.dev k.group = some e)
  (hdue : k.startAt + 400 * gStartTimeout e ≤ s.dev.now) (hop : k.op = opCommit) (hphase : k.phase = .start) (hvote : k.vote = some 0)
  (hcid : k.cid = some cid)
include hk he hdue hop hphase hvote hcid

theorem exec_commitDecideTimeout_asks (hasks : k.asks = none) : ∃ d, exec (.commitDecideTimeout n) s = .next { s with dev := d } ∧
    getColl d n = some { k with asks := some (s.dev.now, askedFor s.dev k) } := by
  have hasked (l : List Nat) : getColl (l.foldl (fun d v => sendMsg d v k.ctx 0 (askBytes 2 0 k.group k.id [])) s.dev) n = some k := by
    rw [getColl_of_collView (collView_foldl (fun d v => collView_sendMsg d v _ _ _) l s.dev), hk]
  refine ⟨_, ?_, getColl_modColl (hasked (askedFor s.dev k)) fun j => { j with asks := some (s.dev.now, askedFor s.dev k) }⟩
  simp only [exec, execCommitDecideTimeout, onDev_next, hk, he, hdue, decide_true, hop, hphase, hvote, hcid, hasks, ne_eq, not_true_eq_false,
    Option.isNone_some, Bool.false_eq_true, Bool.not_true, or_self, if_false, askedFor]

theorem exec_commitDecideTimeout_doubts {t0 : Nat} {l : List Nat} (hasks : k.asks = some (t0, l)) (hlate : l = [] ∨ t0 + 400000 ≤ s.dev.now) :
    exec (.commitDecideTimeout n) s = .next { s with dev := commitDoubt s.dev n k } := by
  simp [exec, execCommitDecideTimeout, hk, he, hdue, hop, hphase, hvote, hcid, hasks, hlate]

end

end Sys2Proof.Machine
end

section
/-! PROOF. Collectives start, decide and exchange (11 R426 to R457; 12 R485, R487 to R489). -/

namespace Sys2Proof.Machine

/-! ### A packet of the data phase that is the first received -/

section
variable {s : State} {g : Nat} {pk : Packet} {rest : List (Nat × Packet)} (h : FirstPacket s g pk rest) (hkind : pk.kind = pkColl)
  (hlen : 64 ≤ pk.data.length) {kind n cid : Nat} (hck : ckOf pk = kind) {k : Coll} {row : Instr}
  (hrow : (kind, row) ∈ [(2, Instr.collData pk), (3, .fetch pk), (4, .ack pk), (5, .resend pk), (6, .busy pk), (7, .ready pk),
    (9, .count pk), (10, .nack pk)])

include h hkind hlen hck hrow in
theorem exec_dataArrives : exec row s = .next { s with dev := dataArrives (tookPacket s g pk rest) pk } := by
  rw [exec_collRow hrow, onDev_next, collRow, takeColl_first h hkind hlen hck]

variable (hfind : findColl s.dev (cpGroup pk) (cpId pk) = some (n, k)) (hk : getColl s.dev n = some k) (hcid : k.cid = some cid)

/-- The device once a member has heard from the sender of the first packet. -/
def heardOf (s : State) (g : Nat) (pk : Packet) (rest : List (Nat × Packet)) (n : Nat) : Dev :=
  modColl (noteThrottled (tookPacket s g pk rest) pk) n (heardFrom pk s.dev.now)

include hk in
theorem getColl_heardOf : getColl (heardOf s g pk rest n) n = some (heardFrom pk s.dev.now k) := by
  refine getColl_modColl ?_ _
  rw [getColl_of_collView (e := s.dev) (by simp), hk]

theorem now_heardOf : (heardOf s g pk rest n).now = s.dev.now := by
  rw [heardOf, modColl_now, now_of_collView (e := s.dev) (by simp)]

include hfind in
theorem findColl_tookPacket : findColl (tookPacket s g pk rest) (cpGroup pk) (cpId pk) = some (n, k) := by
  rw [findColl_of_collView (collView_tookPacket ..), hfind]

include hk in
theorem getColl_tookPacket : getColl (tookPacket s g pk rest) n = some k := by rw [getColl_of_collView (collView_tookPacket ..), hk]

include h hkind hlen hck hrow hfind hcid

theorem completes_skew {c : Cmd} (hk : getColl s.dev n = some k) (hphase : k.phase ≠ .complete)
    (hdigest : slice pk.data 8 8 ≠ k.digest.take 8) (hc : smFind s.dev.cmds cid = some c) (hfin : c.fin = none) :
    Completes row s fun t => Over n k t.dev ∧ finOf t cid = some (0x0040#16, 0x0001#16,
      resultOf [(0x0C, 4, cpSrc pk), (0x10, 4, nth 0 (groupDevs s.dev k.group) (cpSrc pk))]) := by
  obtain ⟨e, he, habort⟩ := skewAbort_eq (tookPacket s g pk rest) n k (cpSrc pk)
  refine ⟨_, exec_dataArrives h hkind hlen hck hrow, ?_⟩
  rw [dataArrives_skew (findColl_tookPacket hfind) hcid hphase hdigest, habort, groupDevs_of_collView (collView_tookPacket ..)]
  exact endColl_ends s (he.trans (collView_tookPacket ..)) hk hcid hc hfin ..

variable (hdigest : slice pk.data 8 8 = k.digest.take 8)
include hdigest

theorem exec_dataArrives_data (hphase : k.phase = .data) :
    exec row s = .next { s with dev := pump (dataPacket n (heardOf s g pk rest n) pk) n } := by
  rw [exec_dataArrives h hkind hlen hck hrow, dataArrives_data (findColl_tookPacket hfind) hcid hdigest hphase, tookPacket_now]
  rfl

theorem completes_held (hk : getColl s.dev n = some k) (hphase : k.phase = .start) : Completes row s fun t =>
    ∃ d, t = { s with dev := pump d n } ∧ getColl d n = some (heldFor pk (heardFrom pk s.dev.now k)) := by
  refine ⟨_, exec_dataArrives h hkind hlen hck hrow, _, ?_,
    getColl_modColl (getColl_heardOf (g := g) (pk := pk) (rest := rest) hk) (heldFor pk)⟩
  rw [dataArrives_start (findColl_tookPacket hfind) hcid hdigest (getColl_tookPacket hk) hphase, tookPacket_now]
  rfl

end

/-- What holds of the collective that there is holds of it as `getD` gives it. -/
theorem of_getColl {d : Dev} {n : Nat} {P : Coll → Prop} (h : ∃ j, getColl d n = some j ∧ P j) (k : Coll) : P ((getColl d n).getD k) := by
  obtain ⟨j, hj, hP⟩ := h
  rw [hj]
  exact hP

/-! ### The statement -/

/-- Settles O60: a command by the START that its body sends, a decision by what it does to the collective, a packet of the data phase by what
it does to its shard, and a timer by the shard or the decision that it waits for. The layouts of START, DECIDE and
ABORT are the model's choice (log 35), and so is that the digest test is one of the data phase alone (log 36). -/
theorem collectivesStartDecideAndExchange : Obligations.CollectivesStartDecideAndExchange := by
  unfold Obligations.CollectivesStartDecideAndExchange
  intro s n k hk
  refine ⟨fun cid c op row hrow hruns hcoll hphase => ⟨fun hop hlocal hdies hpins => ?_, fun hop hvote => ?_, fun hop hvote hsoon => ?_⟩,
    fun cid c hcid hc hrun hop hphase hdue => ?_, fun hphase hdue => ?_, fun e he hlead hphase hdue => ?_,
    fun g pk rest h hkind hlen hfind => ⟨fun cid c hflag hcid hc => ?_, fun hck hphase hlead => ⟨?_, fun hall => ?_⟩,
      fun cid c hck hphase hcid hc hfin => ⟨fun hop hstatus => ?_, fun hop hstatus => ?_, fun hop hne hstatus => ?_,
        fun e slot hop hcommit he hslot hready => ?_⟩,
      fun cid c hck hphase hcid hc hfin => ?_, fun kind row cid c hrow hck hphase hcid hc => ⟨fun hdigest hfin => ?_, fun hdigest =>
        ⟨fun hphase => ?_, fun hphase => ?_, fun key x h4 hkey hx => ?_, fun key x h6 hkey hx => ?_, fun h7 => ?_,
          fun h9 hop hforward hanswer => ?_, fun key x h10 hask hx hopen hreason hrepl htries => ?_,
          fun key x h2 hkey hx hop hopen hlast hoff hbytes hpos hmax hfirst hheld hcrc => ?_, fun h3 hlook => ?_, fun h5 key hkey => ?_⟩⟩⟩,
    fun key x t0 bs hphase hx hbusy hdue hopen hop hread => ?_, fun e key x he hphase hopen hasked hdue =>
      ⟨fun hx hbusy => ?_, fun hx hpull hcopy hrepl htries => ?_⟩,
    fun e cid c he hdue hop hphase hvote hcid hc hfin => ⟨fun hasks => ?_, fun t0 l hasks hlate => ?_⟩,
    fun hphase hop hstatus hpins hwpins => ?_⟩
  · exact completes_started hk (exec_collCommand hrow s) hruns (stepColl_starts hcoll hphase hop hlocal hdies hpins)
  · exact completes_started hk (exec_collCommand hrow s) hruns (stepColl_votes hcoll hphase hop hvote)
  · exact ⟨_, (exec_collCommand hrow s).trans (onDev_runCmd hruns (stepColl_waits hcoll hphase hop hvote hsoon)), rfl⟩
  · exact ⟨_, exec_commitWaitExpire hk hcid hc hrun hop hphase hdue, rfl, started_sendStart hk⟩
  · exact ⟨_, exec_collStartResend hk hphase hdue, rfl, started_sendStart hk⟩
  · refine ⟨_, exec_collStartTimeout hk he hlead hphase hdue, congrArg (fun d => { s with dev := d }) (decideNow_eq hk true),
      fun i hmissing => ?_⟩
    rw [decideOn_late hmissing]
    exact ⟨rfl, rfl, rfl⟩
  · exact noteThrottled_marks (by rw [findColl_of_collView (e := s.dev) (by simp), hfind]) hcid hflag (by rw [tookPacket_cmds, hc])
  · exact fun hmissing => ⟨_, exec_collStart_waits h hkind hlen hck hfind hk hphase hlead hmissing, rfl⟩
  · refine ⟨_, exec_collStart_decides h hkind hlen hck hfind hk hphase hlead hall, congrArg (fun d => { s with dev := d }) ?_⟩
    rw [decideNow_eq (getColl_startsAdded hk), groupDevs_startsAdded]
    rfl
  · exact decide_refuses h hkind hlen hck hfind hk hphase hcid hc hfin hop hstatus
  · exact decide_noData h hkind hlen hck hfind hk hphase hcid hc hfin hop hstatus
  · exact decide_goes h hkind hlen hck hfind hk hphase hcid hne hop hstatus
  · exact decide_commits h hkind hlen hck hfind hk hphase hcid hc hfin hop hcommit he hslot hready
  · exact ⟨_, exec_abort_first h hkind hlen hck hfind hphase, endColl_ends s (collView_tookPacket ..) hk hcid hc hfin ..⟩
  · exact completes_skew h hkind hlen hck hrow hfind hcid hk hphase hdigest hc hfin
  · exact completes_held h hkind hlen hck hrow hfind hcid hdigest hk hphase
  · exact ⟨_, exec_dataArrives_data h hkind hlen hck hrow hfind hcid hdigest hphase, rfl⟩
  · exact of_getColl (P := fun j => smFind j.send key = _) (getColl_dataPacket_ack (getColl_heardOf hk) hkey hx (hck.trans h4)) _
  · exact of_getColl (P := fun j => smFind j.send key = _)
      (getColl_dataPacket_busy (getColl_heardOf hk) hkey hx (hck.trans h6) now_heardOf) _
  · exact of_getColl (P := fun j => j.ready = k.ready ++ [(cpSrc pk, cpAux pk)])
      ⟨_, getColl_dataPacket_ready (getColl_heardOf hk) (hck.trans h7), rfl⟩ _
  · exact of_getColl (P := fun j => smFind j.took (cpSrc pk) = _)
      (getColl_dataPacket_count (getColl_heardOf hk) (hck.trans h9) hop hforward hanswer) _
  · exact of_getColl (P := fun j => smFind j.recv key = _)
      (getColl_dataPacket_nack (getColl_heardOf hk) (hck.trans h10) hask hx hopen hreason hrepl htries now_heardOf) _
  · exact of_getColl (P := fun j => smFind j.recv key = _) (getColl_dataPacket_data (getColl_heardOf hk) (hck.trans h2) hkey hx hop hopen
      hlast hoff hbytes hpos hmax hfirst hheld hcrc now_heardOf) _
  · exact dataPacket_fetch_never (getColl_heardOf hk) (hck.trans h3) hlook
  · exact dataPacket_resend (getColl_heardOf hk) (hck.trans h5) hkey
  · exact ⟨_, exec_busyRetryExpire hk hphase hx hbusy hdue, sendAgain_reads hk hx hopen hop hread⟩
  · exact ⟨_, exec_darnWaitExpire_send hk he hphase hopen hasked hdue hx hbusy, rfl⟩
  · refine ⟨_, exec_darnWaitExpire_recv hk he hphase hopen hasked hdue hx hpull hcopy, rfl, ?_⟩
    obtain ⟨j, hj, hy⟩ := getColl_failAttempt_again hk hx hrepl htries
    rw [hj, Option.bind_some, hy, Option.map_some]
  · obtain ⟨d, hexec, hd⟩ := exec_commitDecideTimeout_asks hk he hdue hop hphase hvote hcid hasks
    exact ⟨_, hexec, _, _, hd, rfl, fun v hv => mem_askedFor hv⟩
  · exact ⟨_, exec_commitDecideTimeout_doubts hk he hdue hop hphase hvote hcid hasks hlate, commitDoubt_ends s hk hcid hc hfin⟩
  · exact settleColl_check hk hop hstatus hpins hwpins

end Sys2Proof.Machine
end

section
/-! PROOF. Learning steps and their tokens; weight versions that are staged, aborted, queried and switched (12 R462 to R494). -/

namespace Sys2Proof.Machine

/-! ### Registries and their slots -/

/-- Nothing but the commands and the registry of weight set w differs between s and t. -/
def OnlySet (w : Nat) (s t : State) : Prop :=
  t = { s with dev := { s.dev with cmds := t.dev.cmds, weights := { s.dev.weights with sets := t.dev.weights.sets } } } ∧
    ∀ k, k ≠ w → wset t.dev k = wset s.dev k

/-- Registry u has as many slots as v, and f says what they hold. -/
def SlotsAre (v u : WSet) (f : Nat → WSlot) : Prop := u.slots.length = v.slots.length ∧ ∀ k, k < v.slots.length → wslot u k = f k

/-- The registry with a slot of it changed. -/
def withSlot (v : WSet) (slot : Nat) (f : WSlot → WSlot) : WSet := { v with slots := setNth v.slots slot (f (wslot v slot)) }

theorem modWSlot_eq (d : Dev) (w slot : Nat) (f : WSlot → WSlot) : modWSlot d w slot f = modWset d w (withSlot · slot f) := rfl

theorem lt_of_findIdx? {α : Type} {l : List α} {p : α → Bool} {i : Nat} (h : l.findIdx? p = some i) : i < l.length :=
  (List.findIdx?_eq_some_iff_findIdx_eq.mp h).1

theorem wslot_withSlot {v : WSet} {slot : Nat} (h : slot < v.slots.length) (f : WSlot → WSlot) (k : Nat) :
    wslot (withSlot v slot f) k = if k = slot then f (wslot v k) else wslot v k := by
  split
  · next hk =>
    subst hk
    simp [withSlot, wslot, nth, setNth, h]
  · next hk => simp [withSlot, wslot, nth, setNth, List.getElem?_set_ne (Ne.symm hk)]

theorem slotsAre_withSlot {v : WSet} {slot : Nat} (h : slot < v.slots.length) (f : WSlot → WSlot) :
    SlotsAre v (withSlot v slot f) fun k => if k = slot then f (wslot v k) else wslot v k :=
  ⟨List.length_set, fun k _ => wslot_withSlot h f k⟩

theorem wslot_map {v : WSet} {f : WSlot → WSlot} (hf : f {} = {}) (k : Nat) : wslot { v with slots := v.slots.map f } k = f (wslot v k) := by
  simp only [wslot, nth, List.getD_eq_getElem?_getD, List.getElem?_map]
  cases v.slots[k]? with
  | none => exact hf.symm
  | some x => rfl

theorem smPut_smPut {α : Type} (m : SMap α) (k : Nat) (v v' : α) : smPut (smPut m k v) k v' = smPut m k v' := by
  induction m with
  | nil => simp [smPut]
  | cons p m ih =>
    obtain ⟨j, x⟩ := p
    rcases Nat.lt_trichotomy k j with h | h | h
    · simp [smPut, h]
    · simp [smPut, h]
    · simp [smPut, Nat.not_lt.mpr h.le, h.ne', ih]

theorem modWset_modWset (d : Dev) (w : Nat) (f g : WSet → WSet) : modWset (modWset d w f) w g = modWset d w (g ∘ f) := by
  simp only [modWset, wset, smGet_smPut_same, smPut_smPut, Function.comp_apply]

/-! ### Commands upon a registry -/

section
variable {i : Instr} {s : State} {op cid w : Nat} {c : Cmd} {body : Dev → Nat → Cmd → Option Dev} {f : WSet → WSet}
  (hexec : exec i s = onDev s (runCmd op cid body)) (hruns : Runs s op cid c)
include hexec hruns

/-- A command whose body changes a registry and ends it OK. -/
theorem completes_finish_wset {result : List (Nat × Nat × Nat)}
    (hbody : body (began s cid) cid c = some (finishCmd (modWset (began s cid) w f) cid stOk 0 result none)) :
    Completes i s fun t => OnlySet w s t ∧ finOf t cid = some (0#16, 0#16, resultOf result) ∧ wset t.dev w = f (wset s.dev w) := by
  refine (completes_finish_kept hexec hruns hbody rfl).imp ?_
  rintro t ⟨hframe, -, hfin, -⟩
  generalize t.dev.cmds = cmds at hframe
  subst hframe
  exact ⟨⟨rfl, fun k hk => wset_modWset_ne _ _ hk⟩, hfin, wset_modWset_same ..⟩

/-- A command whose body changes a slot of a registry and ends it OK. -/
theorem completes_finish_wslot {slot : Nat} {g : WSlot → WSlot} {result : List (Nat × Nat × Nat)} (hslot : slot < (wset s.dev w).slots.length)
    (hbody : body (began s cid) cid c = some (finishCmd (modWSlot (began s cid) w slot g) cid stOk 0 result none)) :
    Completes i s fun t => OnlySet w s t ∧ finOf t cid = some (0#16, 0#16, resultOf result) ∧
      SlotsAre (wset s.dev w) (wset t.dev w) fun k => if k = slot then g (wslot (wset s.dev w) k) else wslot (wset s.dev w) k := by
  refine (completes_finish_wset hexec hruns hbody).imp ?_
  rintro t ⟨honly, hfin, hset⟩
  exact ⟨honly, hfin, hset ▸ slotsAre_withSlot hslot g⟩

/-- A command whose body changes a registry and leaves it to wait. -/
theorem completes_wait_wset (hbody : body (began s cid) cid c = some (modWset (began s cid) w f)) :
    Completes i s fun t => OnlySet w s t ∧ finOf t cid = none ∧ wset t.dev w = f (wset s.dev w) :=
  ⟨_, hexec.trans (onDev_runCmd hruns hbody), ⟨rfl, fun _ hk => wset_modWset_ne _ _ hk⟩,
    finOf_waitState s _ cid (bind_fin_began hruns), wset_modWset_same ..⟩

end

/-! ### WEIGHTS.STAGE (R479, R482) -/

section
variable {d : Dev} {cid slot : Nat} {c : Cmd} {e : List Byte} (he : wOfCmd d c (wgSet c) = some e) (hchk : chkStage d c = .ok ())
include he hchk

theorem stepStage_open (hmode : wgMode c = 0) (hfree : (wset d (wgSet c)).slots.findIdx? (fun k => decide (k.state = .free)) = some slot) :
    stepStage d cid c = some (finishCmd (modWSlot d (wgSet c) slot fun _ => { state := .staging, version := wgVersion c }) cid stOk 0
      [(0x0C, 4, slot)] none) := by
  simp only [stepStage, he, hmode, hchk, hfree]

theorem stepStage_seal (hmode : wgMode c = 2) (hslot : verSlot (wset d (wgSet c)) (wgVersion c) = some slot)
    (hidle : updating d (wgSet c) (wgVersion c) cid = false) (hcoll : (wslot (wset d (wgSet c)) slot).coll = 0)
    (hjoined : (wset d (wgSet c)).rejoin = false) :
    stepStage d cid c = some (finishCmd (modWSlot d (wgSet c) slot fun x => { x with state := .ready }) cid stOk 0 [] none) := by
  simp only [stepStage, he, hmode, sealVersion, hchk, hslot, hidle, hcoll, hjoined, Bool.false_eq_true, ne_eq, not_true_eq_false, if_false]

end

/-! ### WEIGHTS.ABORT (R462, R492) -/

section
variable {d : Dev} {cid slot : Nat} {c : Cmd} (hinfo : c.info = []) (hchk : chkAbort d c = .ok ())
  (hslot : verSlot (wset d (wgSet c)) (wgVersion c) = some slot)
include hinfo hchk hslot

theorem stepAbort_staged (hmode : wgMode c = 0) (hidle : committing d (wgSet c) (wgVersion c) = false)
    (hcoll : (wslot (wset d (wgSet c)) slot).coll = 0) :
    stepAbort d cid c = some (finishCmd (modWSlot d (wgSet c) slot fun _ => {}) cid stOk 0 [] none) := by
  simp [stepAbort, hinfo, hchk, hslot, hmode, hidle, hcoll]

theorem stepAbort_held (hmode : wgMode c = 1) : stepAbort d cid c = some (finishCmd (releaseSlot d (wgSet c) slot) cid stOk 0 [] none) := by
  simp [stepAbort, hinfo, hchk, hslot, hmode]

end

/-- A slot as a boundary leaves it: FREE once it has been released and no pin is left (R462). -/
def freedSlot (x : WSlot) : WSlot := if x.released && pinsOf x == 0 then {} else x

/-- The registry once a slot is released and every released slot without pins is FREE. -/
def withReleased (v : WSet) (slot : Nat) : WSet :=
  let u := withSlot v slot fun x => { x with released := true }
  { u with slots := u.slots.map freedSlot }

@[simp] theorem wEntry_modWset (d : Dev) (w : Nat) (f : WSet → WSet) (k : Nat) : wEntry (modWset d w f) k = wEntry d k := rfl

@[simp] theorem stepBusy_modWset (d : Dev) (w : Nat) (f : WSet → WSet) (ctx : Nat) : stepBusy (modWset d w f) ctx = stepBusy d ctx := rfl

/-- Between batch steps of its context a set frees what has been released at once. -/
theorem releaseSlot_idle {d : Dev} {w : Nat} {e : List Byte} (he : wEntry d w = some e) (hidle : stepBusy d (weContext e) = false) (slot : Nat) :
    releaseSlot d w slot = modWset d w (withReleased · slot) := by
  simp only [releaseSlot, freeReleased, modWSlot_eq, wEntry_modWset, he, stepBusy_modWset, hidle, Bool.false_eq_true, if_false, modWset_modWset]
  rfl

/-- A HELD version without pins is FREE at once, and so is every other that had been released and has no pin left. -/
theorem slotsAre_withReleased {v : WSet} {slot : Nat} (hslot : slot < v.slots.length) (hpins : pinsOf (wslot v slot) = 0) :
    SlotsAre v (withReleased v slot) fun k => if k = slot ∨ ((wslot v k).released = true ∧ pinsOf (wslot v k) = 0) then {} else wslot v k := by
  refine ⟨by simp [withReleased, withSlot, setNth], fun k _ => ?_⟩
  rw [withReleased, wslot_map rfl, wslot_withSlot hslot]
  by_cases hk : k = slot
  · subst hk
    have hpins' : pinsOf { wslot v k with released := true } = 0 := hpins
    simp [freedSlot, hpins']
  · simp [freedSlot, hk]

theorem wEntry_of_wOfCmd {d : Dev} {c : Cmd} {w : Nat} {e : List Byte} (h : wOfCmd d c w = some e) :
    wEntry d w = some e ∧ weContext e = cmdContext c := by
  obtain ⟨e', he, hown⟩ := Option.bind_eq_some_iff.mp h
  split at hown
  · next hctx =>
    cases hown
    exact ⟨he, hctx⟩
  · cases hown

/-! ### WEIGHTS.SWITCH and the boundary (R464, R491) -/

theorem stepSwitch_waits {d : Dev} {cid slot : Nat} {c : Cmd} (hnew : ∀ p ∈ (wset d (wgSet c)).pending, p.2.2 ≠ some cid)
    (hchk : chkSwitch d c = .ok ()) (hslot : verSlot (wset d (wgSet c)) (wgVersion c) = some slot) :
    stepSwitch d cid c = some (modWset d (wgSet c) fun v =>
      { v with pending := v.pending ++ [(wgVersion c, bit (par c 0x11 1) 1, some cid)] }) := by
  have hnot : (wset d (wgSet c)).pending.any (fun p => p.2.2 == some cid) = false := by simpa using hnew
  simp only [stepSwitch, hnot, hchk, hslot, Bool.false_eq_true, if_false]

/-- The registry once version slot `slot` is live and the one that was live, in slot o, is HELD. -/
def switched (v : WSet) (o slot : Nat) : WSet :=
  withSlot (withSlot v o fun x => { x with state := .held }) slot fun x => { x with state := .live }

theorem switchNow_hold {d : Dev} {w o slot : Nat} (hlive : liveSlot (wset d w) = some o) (hne : o ≠ slot) :
    switchNow d w slot true = modWset d w (switched · o slot) := by
  simp only [switchNow, hlive, if_neg hne, if_true, modWSlot_eq, modWset_modWset]
  rfl

/-- A waiting switch that no command awaits takes effect: its version, COMMITTED or HELD, is live and the live one HELD (R464). -/
theorem applySwitch_hold {d : Dev} {w o slot : Nat} {ver : Word} (hpending : (wset d w).pending = [(ver, true, none)])
    (hslot : verSlot (wset d w) ver = some slot)
    (hstate : (wslot (wset d w) slot).state = .committed ∨ (wslot (wset d w) slot).state = .held)
    (hlive : liveSlot (wset d w) = some o) (hne : o ≠ slot) :
    wset (applySwitch d w) w = switched { wset d w with pending := [] } o slot := by
  let d1 := modWset d w fun v => { v with pending := [] }
  have hd1 : wset d1 w = { wset d w with pending := [] } := wset_modWset_same ..
  have hslot' : verSlot (wset d1 w) ver = some slot := by rw [hd1]; exact hslot
  have hlive' : liveSlot (wset d1 w) = some o := by rw [hd1]; exact hlive
  have hstate' : (wslot (wset d1 w) slot).state = .committed ∨ (wslot (wset d1 w) slot).state = .held ∨
      (wslot (wset d1 w) slot).state = .live := by
    rw [hd1]
    exact hstate.imp_right .inl
  have happly : applySwitch d w = switchNow d1 w slot true := by
    rw [applySwitch, hpending, List.foldl_cons, List.foldl_nil]
    show applyOne w d1 _ = _
    simp only [applyOne, hslot', if_pos hstate']
  rw [happly, switchNow_hold hlive' hne, wset_modWset_same, hd1]

/-- What the slots hold once a version has become live. -/
theorem wslot_switched {v : WSet} {o slot : Nat} (ho : o < v.slots.length) (hslot : slot < v.slots.length) (hne : o ≠ slot) :
    let u := switched v o slot
    wslot u slot = { wslot v slot with state := .live } ∧ wslot u o = { wslot v o with state := .held } ∧
      ∀ k, k ≠ slot → k ≠ o → wslot u k = wslot v k := by
  have hslot' : slot < (withSlot v o fun x => { x with state := .held }).slots.length := by simpa [withSlot, setNth] using hslot
  refine ⟨?_, ?_, fun k hk hko => ?_⟩
  · rw [switched, wslot_withSlot hslot', if_pos rfl, wslot_withSlot ho, if_neg hne.symm]
  · rw [switched, wslot_withSlot hslot', if_neg hne, wslot_withSlot ho, if_pos rfl]
  · rw [switched, wslot_withSlot hslot', if_neg hk, wslot_withSlot ho, if_neg hko]

/-! ### WEIGHTS.QUERY (R493) -/

section
variable {d : Dev} {cid : Nat} {c : Cmd} (hinfo : c.info = []) (hchk : chkQuery d c = .ok ())
include hinfo hchk

theorem stepQuery_local (hmode : wgMode c = 0) :
    stepQuery d cid c = some (finishCmd d cid stOk 0 [] (some (registry (wgSet c) (wset d (wgSet c))))) := by
  simp [stepQuery, hinfo, hchk, hmode]

/-- A query of the peers asks each of them, and waits for their answers. -/
theorem stepQuery_peers (hmode : wgMode c ≠ 0) (hpeers : nodePeers d ≠ []) : ∃ fabric, stepQuery d cid c = some (modCmd
    { d with fabric := fabric, weights := { d.weights with queries := d.weights.queries ++
        [{ cid := cid, answers := [], waiting := nodePeers d, at_ := d.now }] } } cid fun c => { c with info := [1] }) := by
  obtain ⟨fabric, hasked⟩ : ∃ fabric, (nodePeers d).foldl
      (fun d p => sendMsg d p (cmdContext c) (cid % 65536) (natLe 4 4 ++ natLe 4 (wgSet c))) d = { d with fabric := fabric } := by
    refine List.foldlRecOn (motive := fun e : Dev => ∃ fabric, e = { d with fabric := fabric }) _ _ ⟨_, rfl⟩ ?_
    rintro _ ⟨fabric, rfl⟩ p -
    obtain ⟨fabric', h⟩ := sendMsg_frame { d with fabric := fabric } p (cmdContext c) (cid % 65536) (natLe 4 4 ++ natLe 4 (wgSet c))
    exact ⟨fabric', h⟩
  exact ⟨fabric, by simp [stepQuery, hinfo, hchk, hmode, hpeers, hasked]⟩

end

/-- What a query of the peers writes to its slot: the answers that have come, by member (R493). -/
def peersOut (d : Dev) (q : PeersQ) : List Byte :=
  (nodePeers d).flatMap fun p => match smFind q.answers p with | some r => natLe 2 p ++ r | none => []

/-- The device once a query of the peers has ended with the answers that have come. -/
def peersEnded (d : Dev) (q : PeersQ) : Dev :=
  finishCmd { d with weights := { d.weights with queries := [] } } q.cid stOk 0 [] (some (peersOut d q))

section
variable {s : State} {q : PeersQ} (hone : s.dev.weights.queries = [q])
include hone

theorem exec_peersQueryTimeout_early (hearly : s.dev.now < q.at_ + 400000) : exec (.peersQueryTimeout q.cid) s = .next s := by
  rw [show exec (.peersQueryTimeout q.cid) s = execPeersQueryTimeout q.cid s from rfl, execPeersQueryTimeout, onDev_next]
  simp [hone, Nat.not_le.mpr hearly]

theorem exec_peersQueryTimeout_late {c : Cmd} (hc : smFind s.dev.cmds q.cid = some c) (hmode : wgMode c = 1) (hlate : q.at_ + 400000 ≤ s.dev.now) :
    exec (.peersQueryTimeout q.cid) s = .next { s with dev := peersEnded s.dev q } := by
  rw [show exec (.peersQueryTimeout q.cid) s = execPeersQueryTimeout q.cid s from rfl, execPeersQueryTimeout, onDev_next]
  simp only [hone, List.find?_cons, BEq.rfl, if_pos hlate, endPeers, hc, hmode, List.filter_cons, List.filter_nil, bne_self_eq_false]
  rfl

end

/-! ### Tokens (R473) -/

theorem exec_stepTokenArrive {s : State} {cx : Nat} {tk : BitVec 32} {x : Ctx} (hctx : smFind s.dev.ctxs cx = some x)
    (hroom : tokenCount s.dev cx tk ≠ 0 ∨ s.dev.weights.tokens = []) :
    exec (.stepTokenArrive cx tk) s = .next { s with dev := setTokens s.dev cx tk (tokenCount s.dev cx tk + 1) } := by
  have hkept : ((smFind s.dev.ctxs cx).isNone || (tokenCount s.dev cx tk == 0 &&
      decide (4096 ≤ (s.dev.weights.tokens.filter (fun p => p.1 / 2 ^ 32 == cx)).length))) = false := by
    rcases hroom with hheld | hempty
    · simp [hctx, hheld]
    · simp [hctx, hempty]
  show onDev s (fun d => tokenArrives d cx tk) = _
  simp only [onDev_next, tokenArrives, hkept, Bool.false_eq_true, if_false]

theorem tokens_setTokens (d : Dev) (cx : Nat) (tk : Word) (n k : Nat) :
    smGet 0 (setTokens d cx tk n).weights.tokens k = if k = 2 ^ 32 * cx + tk.toNat then n else smGet 0 d.weights.tokens k :=
  smGet_smSet ..

theorem tokenCount_setTokens (d : Dev) (cx : Nat) (tk : Word) (n : Nat) : tokenCount (setTokens d cx tk n) cx tk = n :=
  (tokens_setTokens ..).trans (if_pos rfl)

/-! ### The launch of a step (R473, R474) -/

/-- The launch that a learning step asks for: its argument words, the version that it pins, the loss scale and its STEP_ID (R469). -/
def trainLaunch (d : Dev) (cx : Nat) (t : TStep) (c : Cmd) : Launch :=
  mkLaunch d cx (.train t.cid) (srSlot c) (srFirst c) (srCount c)
    ((span 0 8).map (fun k => word c.payload (4 * k)) ++ [t.version, (wset d t.wset).scale, BitVec.ofNat 32 (srId c)]) false (par c 0x1C 4)
    (deadlineOf c) (if cmdDeadline c = 0 then 2 else 1)

/-- The tokens that a step waits for are taken (R473). -/
def tokensTaken (d : Dev) (cx : Nat) (c : Cmd) : Dev := takeToken (takeToken d cx (srWait0 c)) cx (srWait1 c)

theorem takeToken_frame (d : Dev) (cx : Nat) (tk : Word) :
    ∃ tokens, takeToken d cx tk = { d with weights := { d.weights with tokens := tokens } } := by
  unfold takeToken
  split
  · exact ⟨_, rfl⟩
  · exact ⟨_, rfl⟩

theorem tokensTaken_frame (d : Dev) (cx : Nat) (c : Cmd) :
    ∃ tokens, tokensTaken d cx c = { d with weights := { d.weights with tokens := tokens } } := by
  obtain ⟨tokens, h⟩ := takeToken_frame d cx (srWait0 c)
  obtain ⟨tokens', h'⟩ := takeToken_frame { d with weights := { d.weights with tokens := tokens } } cx (srWait1 c)
  exact ⟨tokens', by rw [tokensTaken, h, h']⟩

theorem tokenCount_tokensTaken {d : Dev} {cx : Nat} {c : Cmd} (hfirst : srWait0 c ≠ 0#32) (hsecond : srWait1 c = 0#32) :
    tokenCount (tokensTaken d cx c) cx (srWait0 c) = tokenCount d cx (srWait0 c) - 1 := by
  rw [tokensTaken, hsecond, takeToken, takeToken, if_pos rfl, if_neg hfirst, tokenCount_setTokens]

/-- The step of a command, which launch k serves, with its iteration entry RUNNING (R472). -/
def stepStarted (d : Dev) (t : TStep) (c : Cmd) (k : Nat) : Dev :=
  let d1 : Dev := { d with weights := { d.weights with steps := smPut d.weights.steps t.cid { t with launch := some k } } }
  if srIter c then setIter d1 t.wset (srId c) (fun e => if e.cid = some t.cid then { e with state := 2 } else e) else d1

theorem stepStarted_frame (d : Dev) (t : TStep) (c : Cmd) (k : Nat) : ∃ sets, stepStarted d t c k =
    { d with weights := { d.weights with sets := sets, steps := smPut d.weights.steps t.cid { t with launch := some k } } } := by
  unfold stepStarted
  dsimp only
  split
  · exact ⟨_, rfl⟩
  · exact ⟨_, rfl⟩

/-- The device once a step is launched and has taken its tokens. -/
def stepLaunched (d : Dev) (cx : Nat) (t : TStep) (c : Cmd) : Dev :=
  stepStarted (tokensTaken (queueLaunch d (trainLaunch d cx t c)).2 cx c) t c d.nextLaunch

theorem exec_stepLaunch {s : State} {cx : Nat} {t : TStep} {c : Cmd} (hnext : nextStep s.dev cx = some (t, c)) :
    exec (.stepLaunch cx) s = .next { s with dev := stepLaunched s.dev cx t c } := by
  rw [show exec (.stepLaunch cx) s = execStepLaunch cx s from rfl, execStepLaunch, onDev_next, hnext]
  rfl

theorem stepLaunched_frame (d : Dev) (cx : Nat) (t : TStep) (c : Cmd) : ∃ ctxs sets tokens, stepLaunched d cx t c =
    { d with ctxs := ctxs, launches := smPut d.launches d.nextLaunch (trainLaunch d cx t c), nextLaunch := d.nextLaunch + 1,
             weights := { d.weights with sets := sets, tokens := tokens,
                                         steps := smPut d.weights.steps t.cid { t with launch := some d.nextLaunch } } } := by
  obtain ⟨sets, hstarted⟩ := stepStarted_frame (tokensTaken (queueLaunch d (trainLaunch d cx t c)).2 cx c) t c d.nextLaunch
  obtain ⟨tokens, htokens⟩ := tokensTaken_frame (queueLaunch d (trainLaunch d cx t c)).2 cx c
  exact ⟨_, sets, tokens, by rw [stepLaunched, hstarted, htokens]; rfl⟩

/-- Of the one token that a step waits for, one is taken. -/
theorem tokenCount_stepLaunched {d : Dev} {cx : Nat} {t : TStep} {c : Cmd} (hfirst : srWait0 c ≠ 0#32) (hsecond : srWait1 c = 0#32) :
    tokenCount (stepLaunched d cx t c) cx (srWait0 c) = tokenCount d cx (srWait0 c) - 1 := by
  obtain ⟨sets, hstarted⟩ := stepStarted_frame (tokensTaken (queueLaunch d (trainLaunch d cx t c)).2 cx c) t c d.nextLaunch
  rw [stepLaunched, hstarted]
  exact tokenCount_tokensTaken hfirst hsecond

/-! ### The end of a step (R470 to R473) -/

section
variable (d : Dev) (t : TStep) (c : Cmd) (state : Nat) (loss tokens : Word)

theorem closeStep_frame : ∃ sets, closeStep d t c state loss tokens =
    { d with weights := { d.weights with sets := sets, steps := smPut d.weights.steps t.cid { t with complete := true, notes := srNotes c } } } := by
  unfold closeStep
  dsimp only
  split
  · exact ⟨_, rfl⟩
  · exact ⟨_, rfl⟩

@[simp] theorem closeStep_cmds : (closeStep d t c state loss tokens).cmds = d.cmds := by
  obtain ⟨sets, h⟩ := closeStep_frame d t c state loss tokens
  rw [h]

theorem smFind_closeStep : smFind (closeStep d t c state loss tokens).weights.steps t.cid =
    some { t with complete := true, notes := srNotes c } := by
  obtain ⟨sets, h⟩ := closeStep_frame d t c state loss tokens
  rw [h]
  exact smFind_smPut_same ..

end

theorem iter_setIter (d : Dev) (w id : Nat) (f : IterE → IterE) (j : Nat) : smGet {} (wset (setIter d w id f) w).iter j =
    if j = id then f (smGet {} (wset d w).iter id) else smGet {} (wset d w).iter j := by
  rw [setIter, wset_modWset_same]
  exact smGet_smMod ..

/-- The iteration entry of a step that ends is in the step's last state. -/
theorem iter_closeStep {d : Dev} {t : TStep} {c : Cmd} (hiter : srIter c = true)
    (hown : (smGet {} (wset d t.wset).iter (srId c)).cid = some t.cid) (state : Nat) (loss tokens : Word) :
    (smGet {} (wset (closeStep d t c state loss tokens) t.wset).iter (srId c)).state = state := by
  have hown' (steps : SMap TStep) :
      (smGet {} (wset { d with weights := { d.weights with steps := steps } } t.wset).iter (srId c)).cid = some t.cid := hown
  simp only [closeStep, hiter, if_true, iter_setIter, hown']

section
variable {d : Dev} {t : TStep} {c : Cmd} {z : Launch}

theorem endStep_faulted {f : PFault} (hfault : z.fault = some f) :
    endStep d t c z = finishCmd (closeStep d t c 6 0 0) t.cid stLineFault (faultDetail f.code) (faultResult f) none := by
  rw [endStep, hfault]

/-- The result of a step that ends OK: its version, its greatest a-cycle count and what its report says of loss and tokens (R470). -/
def stepResult (t : TStep) (z : Launch) (report : List Byte) : List (Nat × Nat × Nat) :=
  [(0x0C, 4, t.version.toNat), (0x10, 4, sat32 z.most), (0x14, 4, 0), (0x18, 4, (word report 0).toNat), (0x1C, 4, field report 4 4)]

/-- A step that has neither HEALTH nor LOSS set ends OK, as its report reads; that it counts 0 non-finite values is the model's (log 53). -/
theorem endStep_reports {report : List Byte} (hfault : z.fault = none) (hlocal : notLocal d (cmdContext c) [(srReport c, 16, false)] = [])
    (hread : readVirt d t.ctx (srReport c) 16 .any = .ok report) (hhealth : srHealth c = false) (hloss : srLoss c = false) :
    endStep d t c z = finishCmd (closeStep d t c 3 (word report 0) (word report 4)) t.cid stOk 0 (stepResult t z report) none := by
  simp only [endStep, hfault, bringIn_local hlocal, hread, hhealth, hloss, Bool.not_true, Bool.false_eq_true, if_false, Bool.false_and,
    false_and, or_false, Nat.lt_irrefl]
  cases wEntry d t.wset with
  | none => rfl
  | some e => rfl

end

section
variable {s : State} {t : TStep} {c : Cmd} {k : Nat} {z : Launch} (ht : smFind s.dev.weights.steps t.cid = some t)
  (hc : smFind s.dev.cmds t.cid = some c) (hlaunch : t.launch = some k) (hz : smFind s.dev.launches k = some z)
include ht hc hlaunch hz

theorem exec_stepEnd : exec (.stepEnd t.cid) s =
    .next { s with dev := if z.state = .ended ∧ t.complete = false then endStep s.dev t c z else s.dev } := by
  rw [show exec (.stepEnd t.cid) s = execStepEnd t.cid s from rfl, execStepEnd, onDev_next]
  simp only [ht, hc, hlaunch, Option.bind_some, hz, Bool.not_eq_true']

/-- A step that ends has its effect complete, its final record, and what the end of the step has put into its weight set. -/
theorem stepEnd_completes {state status detail : Nat} {loss tokens : Word} {result : List (Nat × Nat × Nat)} (hfin : c.fin = none)
    (hended : z.state = .ended) (hopen : t.complete = false)
    (hstep : endStep s.dev t c z = finishCmd (closeStep s.dev t c state loss tokens) t.cid status detail result none) :
    Completes (.stepEnd t.cid) s fun u => smFind u.dev.weights.steps t.cid = some { t with complete := true, notes := srNotes c } ∧
      finOf u t.cid = some (BitVec.ofNat 16 status, BitVec.ofNat 16 detail, resultOf result) ∧
      u.dev.weights = (closeStep s.dev t c state loss tokens).weights := by
  refine ⟨_, (exec_stepEnd ht hc hlaunch hz).trans (by rw [if_pos ⟨hended, hopen⟩, hstep]), smFind_closeStep .., ?_, rfl⟩
  exact finOf_finishCmd _ _ _ _ (by rw [closeStep_cmds]; exact hc) hfin

end

/-! ### STEP.DISCARD (R477) -/

/-- The iteration entries that a STEP.DISCARD names are DISCARDED. -/
def itersDiscarded (d : Dev) (w : Nat) (ids : List Nat) : Dev :=
  ids.foldl (fun d i => setIter d w i fun e => { e with state := 7 }) d

theorem workOf_itersDiscarded (d : Dev) (w : Nat) (ids : List Nat) : workOf (itersDiscarded d w ids) = workOf d :=
  workOf_foldl (f := fun d i => setIter d w i fun e => { e with state := 7 }) (fun _ _ => rfl) ids d

theorem iter_itersDiscarded (d : Dev) (w : Nat) {ids : List Nat} {i : Nat} (h : i ∈ ids ∨ (smGet {} (wset d w).iter i).state = 7) :
    (smGet {} (wset (itersDiscarded d w ids) w).iter i).state = 7 := by
  induction ids generalizing d with
  | nil => exact h.resolve_left (List.not_mem_nil)
  | cons j ids ih =>
    refine ih (setIter d w j fun e => { e with state := 7 }) ?_
    rw [iter_setIter]
    by_cases hj : i = j
    · exact .inr (by rw [if_pos hj])
    · rw [if_neg hj]
      exact h.imp_left (List.mem_of_ne_of_mem hj)

theorem stepGone_cmds {d : Dev} {t : TStep} (hwaits : t.launch = none) (c : Cmd) : (stepGone d t c).cmds = d.cmds := by
  rw [stepGone, hwaits]
  exact (congrArg Prod.fst (workOf_unpin ..)).trans (closeStep_cmds ..)

theorem smFind_dropStep (d : Dev) (t : TStep) : smFind (dropStep d t).weights.steps t.cid = none :=
  (congrArg (fun work => smFind work.2 t.cid) (workOf_unpin ..)).trans (smFind_smErase_same ..)

/-- A step that waits ends CANCELLED and leaves; one whose command is gone stays. Other commands are as they were. -/
theorem discardStep_waiting {d : Dev} {t : TStep} (hwaits : t.launch = none) :
    (∀ k, k ≠ t.cid → smFind (discardStep d t).cmds k = smFind d.cmds k) ∧
    ∀ x, smFind d.cmds t.cid = some x → x.fin = none → smFind (discardStep d t).weights.steps t.cid = none ∧
      ((smFind (discardStep d t).cmds t.cid).bind (·.fin)).map recordOf = some cancelledRecord := by
  cases hx : smFind d.cmds t.cid with
  | none =>
    rw [discardStep, hx]
    exact ⟨fun _ _ => rfl, fun x h => by cases h⟩
  | some x =>
    rw [discardStep_of_cmd hx]
    refine ⟨fun k hk => (finishCmd_other _ _ _ _ _ _ hk).trans (by rw [stepGone_cmds hwaits]), fun y hy hfin => ⟨smFind_dropStep .., ?_⟩⟩
    cases hy
    rw [finishCmd_find _ _ _ _ _ _ ((congrArg (smFind · t.cid) (stepGone_cmds hwaits x)).trans hx) hfin]
    rfl

/-- STEP.DISCARD of one step that waits: its command ends CANCELLED, the step leaves, and the iteration entries named are DISCARDED. -/
theorem stepDiscard_completes {s : State} {cid : Nat} {c : Cmd} {t : TStep} {ids : List Nat} (hruns : Runs s 0x0602 cid c)
    (hchk : chkStepDiscard (began s cid) c = .ok ()) (hnamed : discardSet (began s cid) c = ([t], ids)) (hne : t.cid ≠ cid)
    (hwaits : t.launch = none) (hfin : ∀ x, smFind s.dev.cmds t.cid = some x → x.fin = none) :
    Completes (.stepDiscard cid) s fun u => endsOk u cid ∧
      (∀ x, smFind s.dev.cmds t.cid = some x → smFind u.dev.weights.steps t.cid = none ∧ (finOf u t.cid).map (·.1) = some 0x0003) ∧
      ∀ i ∈ ids, (smGet {} (wset u.dev (par c 0x10 1)).iter i).state = 7 := by
  let d := itersDiscarded (discardStep (began s cid) t) (par c 0x10 1) ids
  have hbody : exec (.stepDiscard cid) s = .next { s with dev := modCmd (finishCmd d cid stOk 0 [] none) cid waitState } := by
    refine (show exec (.stepDiscard cid) s = execStepDiscard cid s from rfl).trans (onDev_runCmd hruns ?_)
    simp only [hchk, hnamed]
    rfl
  obtain ⟨hcmds, hsteps⟩ : d.cmds = (discardStep (began s cid) t).cmds ∧ d.weights.steps = (discardStep (began s cid) t).weights.steps :=
    Prod.ext_iff.mp (workOf_itersDiscarded ..)
  obtain ⟨hother, hgone⟩ := discardStep_waiting (d := began s cid) hwaits
  have hown : smFind d.cmds cid = some { c with phase := .running } := by rw [hcmds, hother cid hne.symm, smFind_began_same hruns]
  refine ⟨_, hbody, ⟨_, (finOf_modCmd_waitState ..).trans (finOf_finishCmd _ _ _ _ hown (fin_of_runs (c := c) hruns))⟩, fun x hx => ?_,
    fun i hi => iter_itersDiscarded _ _ (.inl hi)⟩
  obtain ⟨hleft, hcancelled⟩ := hgone x ((smFind_began_ne s hne).trans hx) (hfin x hx)
  refine ⟨(congrArg (smFind · t.cid) hsteps).trans hleft, ?_⟩
  rw [finOf_modCmd_ne _ _ _ hne, finOf, finishCmd_other _ _ _ _ _ _ hne, hcmds]
  exact congrArg (Option.map (·.1)) hcancelled

/-! ### The statement -/

/-- Settles O59: a step by its launch and its end, a version by the slot that its command changes, a switch by what the boundary does to two
slots. That a report without HEALTH counts 0 is the model's choice (log 53). -/
theorem stepsAndWeightVersionsMove : Obligations.StepsAndWeightVersionsMove := by
  intro s cid c
  refine ⟨fun cx tk x hx hroom => ?_, fun hruns => ⟨_, onDev_runCmd hruns rfl, rfl⟩, fun cx t0 c0 hnext => ?_,
    fun t0 k z ht hcid hc hfin hlaunch hz => ⟨fun hstill => ?_, fun f hended hopen hfault => ?_,
      fun r hended hopen hfault hlocal hctx hread hhealth hloss => ?_⟩,
    fun t0 ids hruns hchk hnamed hne hwaits hother => stepDiscard_completes hruns hchk hnamed hne hwaits hother,
    fun we slot he => ⟨fun hruns hmode hchk hfree => ?_, fun hruns hmode hchk hslot hidle hcoll hjoined => ?_,
      fun hruns hmode hinfo hidle hchk hslot hcoll => ?_, fun hruns hmode hinfo hchk hslot hpins hidle => ?_,
      fun hruns hnew hchk hslot => ?_, fun hruns hinfo hchk => ⟨fun hmode => ?_, fun hmode hpeers => ?_⟩⟩,
    fun ver slot o hpending hslot hstate hlive hne => ?_, fun q hone hq hc hfin hmode => ⟨fun hearly => ?_, fun hlate => ?_⟩⟩
  · refine ⟨_, exec_stepTokenArrive hx hroom, rfl, fun k => ?_⟩
    rw [tokens_setTokens]
    split
    · next hk => rw [hk]; rfl
    · rfl
  · obtain ⟨ctxs, sets, tokens, hframe⟩ := stepLaunched_frame s.dev cx t0 c0
    refine ⟨_, exec_stepLaunch hnext, ⟨trainLaunch s.dev cx t0 c0, ?_, rfl, rfl, rfl, rfl, rfl⟩, ?_, fun k hk => ?_, tokenCount_stepLaunched⟩
    · rw [hframe]
      exact smFind_smPut_same ..
    · rw [hframe]
      exact smFind_smPut_same ..
    · rw [hframe]
      exact smFind_smPut_ne _ _ hk
  · subst hcid
    rw [exec_stepEnd ht hc hlaunch hz, if_neg (by simpa [imp_iff_not_or] using hstill)]
  · subst hcid
    refine (stepEnd_completes ht hc hlaunch hz hfin hended hopen (endStep_faulted hfault)).imp ?_
    rintro t ⟨hover, hrecord, -⟩
    exact ⟨hover, hrecord⟩
  · subst hcid
    have hlocal' : notLocal s.dev (cmdContext c) [(srReport c, 16, false)] = [] := hctx ▸ hlocal
    refine (stepEnd_completes ht hc hlaunch hz hfin hended hopen
      (endStep_reports hfault hlocal' (hctx ▸ hread) hhealth hloss)).imp ?_
    rintro t ⟨hover, hrecord, hweights⟩
    refine ⟨hover, hrecord, fun hiter hown => ?_⟩
    rw [wset, hweights]
    exact iter_closeStep hiter hown 3 _ _
  · exact completes_finish_wslot rfl hruns (lt_of_findIdx? hfree) (stepStage_open he hchk hmode hfree)
  · refine (completes_finish_wslot rfl hruns (lt_of_findIdx? hslot) (stepStage_seal he hchk hmode hslot hidle hcoll hjoined)).imp ?_
    exact fun t ⟨honly, hrecord, hslots⟩ => ⟨honly, ⟨_, hrecord⟩, hslots⟩
  · refine (completes_finish_wslot rfl hruns (lt_of_findIdx? hslot) (stepAbort_staged hinfo hchk hslot hmode hidle hcoll)).imp ?_
    exact fun t ⟨honly, hrecord, hslots⟩ => ⟨honly, ⟨_, hrecord⟩, hslots⟩
  · obtain ⟨hentry, hctx⟩ := wEntry_of_wOfCmd he
    have hreleased := releaseSlot_idle (d := began s cid) hentry (hctx ▸ hidle) slot
    refine (completes_finish_wset rfl hruns ((stepAbort_held hinfo hchk hslot hmode).trans (by rw [hreleased]))).imp ?_
    rintro t ⟨honly, hrecord, hset⟩
    have hslots := slotsAre_withReleased (lt_of_findIdx? hslot) hpins
    rw [← hset] at hslots
    exact ⟨honly, ⟨_, hrecord⟩, hslots⟩
  · exact completes_wait_wset rfl hruns (stepSwitch_waits hnew hchk hslot)
  · refine (completes_finish_only rfl hruns (stepQuery_local hinfo hchk hmode)).imp ?_
    exact fun t ⟨honly, hrecord, hslot⟩ => ⟨honly, ⟨_, hrecord⟩, hslot⟩
  · obtain ⟨fabric, hbody⟩ := stepQuery_peers (cid := cid) hinfo hchk hmode hpeers
    refine ⟨_, onDev_runCmd hruns hbody, finOf_waitState s _ cid ?_, rfl⟩
    exact (bind_fin_modCmd _ cid (f := fun c => { c with info := [1] }) fun _ => rfl).trans (bind_fin_began hruns)
  · have hset := applySwitch_hold hpending hslot hstate hlive hne
    have hslots := wslot_switched (v := { wset s.dev (wgSet c) with pending := [] }) (lt_of_findIdx? hlive) (lt_of_findIdx? hslot) hne
    rw [← hset] at hslots
    exact ⟨congrArg WSet.pending hset, hslots⟩
  · subst hq
    exact exec_peersQueryTimeout_early hone hearly
  · subst hq
    refine ⟨_, exec_peersQueryTimeout_late hone hc hmode hlate, ⟨_, finOf_finishCmd _ _ _ _ hc hfin⟩, rfl, ?_⟩
    exact congrArg (fun o : Option Done => o.bind (·.slotOut)) (finishCmd_find _ _ _ _ _ _ hc hfin)

end Sys2Proof.Machine
end

section
/-! PROOF. What the part keeps without power: the flash stays a map in canonical form, and fuses are blown by the ratchet alone (16 R572,
R573, R574, R578; 01 R26). -/

namespace Sys2Proof.Machine

/-! ### The flash as a map -/

theorem smSorted_foldl_smPut {α β : Type} (key : β → Nat) (val : β → α) (l : List β) {m : SMap α} (hm : smSorted m = true) :
    smSorted (l.foldl (fun m p => smPut m (key p) (val p)) m) = true :=
  List.foldlRecOn (motive := fun m : SMap α => smSorted m = true) l _ hm fun _ hb p _ => smSorted_smPut hb (key p) (val p)

theorem flashPut_sorted {nv : NonVol} (h : smSorted nv.flash = true) (a : Nat) (bs : List Byte) :
    smSorted (flashPut nv a bs).flash = true := smSorted_foldl_smPut Prod.fst Prod.snd _ h

theorem tearRange_sorted {nv : NonVol} (h : smSorted nv.flash = true) (draw a n : Nat) :
    smSorted (tearRange nv draw a n).flash = true := flashPut_sorted h a _

theorem tearFlash_sorted {nv : NonVol} (h : smSorted nv.flash = true) (draw : Nat) (op : FlashOp) (a : Nat) :
    smSorted (tearFlash nv draw op a).flash = true := by
  cases op with
  | read => exact h
  | program => exact tearRange_sorted h draw a _
  | erase => exact tearRange_sorted h draw a _

theorem flashEffect_sorted {nv : NonVol} (h : smSorted nv.flash = true) (buf : List Byte) (op : FlashOp) (a : Nat) :
    smSorted (flashEffect nv buf op a).flash = true := by
  cases op with
  | read => exact h
  | program => exact flashPut_sorted h a buf
  | erase => exact smSorted_filter h _

theorem flashEffect_fuses (nv : NonVol) (buf : List Byte) (op : FlashOp) (a : Nat) : (flashEffect nv buf op a).fuses = nv.fuses := by
  cases op <;> rfl

/-! ### Fuses -/

theorem counterOf_le (f : Fuses) : counterOf f ≤ 64 := (List.length_filter_le ..).trans_eq List.length_range'

theorem NonVol.ok_iff (nv : NonVol) : nv.ok = true ↔ smSorted nv.flash = true := by
  simp [NonVol.ok, counterOf_le]

theorem and_or_left {w : Nat} (v x : BitVec w) : v &&& (v ||| x) = v := by
  ext i; simp +contextual

theorem blowOne_keeps (v : BitVec 64) : v &&& blowOne v = v := by
  unfold blowOne
  split
  · exact and_or_left v _
  · exact BitVec.and_self

theorem Fuses.onlyBlown_refl (f : Fuses) : f.onlyBlown f := ⟨BitVec.and_self, BitVec.and_self, rfl⟩

theorem ratchet_onlyBlown (d : Dev) (nv : NonVol) : nv.fuses.onlyBlown (ratchet d nv).fuses := by
  unfold ratchet
  split
  · dsimp only
    split
    · exact ⟨blowOne_keeps _, and_or_left _ _, rfl⟩
    · exact ⟨blowOne_keeps _, BitVec.and_self, rfl⟩
  · exact nv.fuses.onlyBlown_refl

theorem ratchet_flash (d : Dev) (nv : NonVol) : (ratchet d nv).flash = nv.flash := by
  unfold ratchet
  split <;> rfl

/-! ### Outcomes that keep the fuses -/

/-- The outcome is a next state with the same fuses, whose flash is in canonical form where it was. -/
def KeepsFuses (s : State) (o : Host.Outcome State Fault Refusal) : Prop :=
  ∃ t, o = .next t ∧ t.nv.fuses = s.nv.fuses ∧ (smSorted s.nv.flash = true → smSorted t.nv.flash = true)

theorem onPackage_keepsFuses (s : State) (f : Dev → Dev) : KeepsFuses s (onPackage s f) := by
  unfold onPackage
  dsimp only
  split
  · exact ⟨_, rfl, tearFlash_fuses .., fun h => tearFlash_sorted h ..⟩
  · exact ⟨_, rfl, rfl, id⟩

theorem execFlashOpComplete_keepsFuses (failed : Bool) (s : State) : KeepsFuses s (execFlashOpComplete failed s) := by
  unfold execFlashOpComplete
  split
  · exact ⟨s, rfl, rfl, id⟩
  · split
    · exact ⟨_, rfl, tearFlash_fuses .., fun h => tearFlash_sorted h ..⟩
    · exact ⟨_, rfl, flashEffect_fuses .., fun h => flashEffect_sorted h ..⟩

/-- Every command but the ratchet is a change of the device or of the flash. -/
theorem exec_keepsFuses (i : Instr) (s : State) (hwf : i.wf = true) (hi : i ≠ .antiRollbackRatchet) : KeepsFuses s (exec i s) := by
  cases i with
  | hostReadComplete addr data => exact ⟨_, if_pos (beq_iff_eq.mp hwf), rfl, id⟩
  | linkFlitReceive p flit => exact ⟨_, if_pos (beq_iff_eq.mp hwf), rfl, id⟩
  | backInvalidateResponse off data =>
    have hlen : data.length = 0 ∨ data.length = 64 := by simpa only [Instr.wf, Bool.or_eq_true, beq_iff_eq] using hwf
    exact ⟨_, if_pos hlen, rfl, id⟩
  | antiRollbackRatchet => exact absurd rfl hi
  | flashOpComplete failed => exact execFlashOpComplete_keepsFuses failed s
  | sensorRead readings => exact onPackage_keepsFuses s _
  | coldStart vin => exact onPackage_keepsFuses s _
  | resetNAssert => exact onPackage_keepsFuses s _
  | conventionalReset perst => exact (onPackage_keepsFuses s _ : KeepsFuses s (execConventionalReset perst s))
  | clockFault => exact (onPackage_keepsFuses s _ : KeepsFuses s (execClockFault s))
  | inputLoss vin => exact onPackage_keepsFuses s _
  | _ => exact ⟨_, rfl, rfl, id⟩

/-- What a command that answers a next state leaves of what the part keeps without power. -/
theorem exec_keepsNonVol {i : Instr} {s t : State} (hsorted : smSorted s.nv.flash = true) (hexec : exec i s = .next t) :
    smSorted t.nv.flash = true ∧ s.nv.fuses.onlyBlown t.nv.fuses ∧ (t.nv.fuses ≠ s.nv.fuses → i = .antiRollbackRatchet) := by
  by_cases hi : i = .antiRollbackRatchet
  · subst hi
    obtain rfl : _ = t := Host.Outcome.next.inj hexec
    exact ⟨(congrArg smSorted (ratchet_flash s.dev s.nv)).trans hsorted, ratchet_onlyBlown s.dev s.nv, fun _ => rfl⟩
  · cases hwf : i.wf with
    | false => cases (exec_illFormed i s hwf).symm.trans hexec
    | true =>
      obtain ⟨u, hu, hfuses, hflash⟩ := exec_keepsFuses i s hwf hi
      obtain rfl : u = t := Host.Outcome.next.inj (hu.symm.trans hexec)
      exact ⟨hflash hsorted, hfuses ▸ s.nv.fuses.onlyBlown_refl, fun h => absurd hfuses h⟩

/-- Settles O24: a tick leaves what is kept without power as it is, and a command of the queue keeps it well formed; its fuses change in
the ratchet alone. -/
theorem stepsKeepTheNonVolatileState : Obligations.StepsKeepTheNonVolatileState := by
  intro s t hok hstep
  rw [NonVol.ok_iff] at hok
  cases hp : s.pending with
  | nil =>
    obtain rfl : tick s = t := Host.Outcome.next.inj ((step_idle s hp).symm.trans hstep)
    exact ⟨(NonVol.ok_iff _).mpr hok, s.nv.fuses.onlyBlown_refl, fun h => absurd rfl h⟩
  | cons c rest =>
    have hexec : exec c { s with pending := rest } = .next t := by rw [← step_front s c rest, ← hp]; exact hstep
    obtain ⟨hflash, hfuses, honly⟩ := exec_keepsNonVol (s := { s with pending := rest }) hok hexec
    exact ⟨(NonVol.ok_iff _).mpr hflash, hfuses, fun h => ⟨rest, congrArg (· :: rest) (honly h)⟩⟩

end Sys2Proof.Machine
end

section
/-! PROOF. The module power controller and its management bus (18 R629, R635, R636). -/

namespace Sys2Proof.Machine

/-- Two devices that are the same answer the same next state. -/
theorem next_dev (s : State) {d d' : Dev} (h : d = d') :
    (.next { s with dev := d } : Host.Outcome State Fault Refusal) = .next { s with dev := d' } := by rw [h]

/-- The bits of STATUS are the flags that it is made of. -/
theorem statusWord_bits (good ready throttle heat clk failed out : Bool) :
    let w := BitVec.ofNat 16 (b2n good * 2 ^ 15 + b2n ready * 2 ^ 14 + b2n throttle * 2 ^ 13 + b2n heat * 2 ^ 12 + b2n clk * 2 ^ 11 +
      b2n failed * 2 ^ 10 + b2n out * 2 ^ 9)
    w.getLsbD 15 = good ∧ w.getLsbD 14 = ready ∧ w.getLsbD 13 = throttle ∧ w.getLsbD 10 = failed := by
  revert good ready throttle heat clk failed out
  decide

theorem exec_mgmtControllerStart {s : State} {vin : Nat} (straps : Fin 8) (hvin : 36000 < vin) (hoff : s.dev.pwr.ctrlOn = false) :
    exec (.mgmtControllerStart vin straps) s = .next { s with dev := { s.dev with pwr := { s.dev.pwr with
      vin := vin, ctrlOn := true, straps := straps, cause := 0, trip := false, tripClk := false, vinOut := false,
      rStatus := 0, rVin := 0, rIin := 0, rPin := 0, rPlate := 0, rCause := 0,
      rTj := if s.dev.pwr.rails then s.dev.pwr.rTj else 0x8000#16, tjMax := if s.dev.pwr.rails then s.dev.pwr.tjMax else 0x8000#16 } } } :=
  next_dev s (if_pos ⟨hvin, hoff⟩)

/-- A refresh draws the measured current, power and plate temperature, which are open, and copies the rest. -/
theorem exec_mgmtRefresh {s : State} (hon : s.dev.pwr.ctrlOn = true) : ∃ i w t : BitVec 16,
    exec .mgmtRefresh s = .next { s with dev := { s.dev with freeCtr := s.dev.freeCtr + 3, pwr := { s.dev.pwr with
      rStatus := mgmtStatus s.dev, rVin := BitVec.ofNat 16 (s.dev.pwr.vin / 10), rIin := i, rPin := w, rPlate := t,
      rTj := s.dev.pwr.tjMax, rCause := s.dev.pwr.cause.setWidth 16, vinOut := false } } } :=
  ⟨_, _, _, next_dev s (if_pos hon)⟩

theorem exec_mgmtWrite {s : State} (reg value : Nat) (hon : s.dev.pwr.ctrlOn = true) :
    exec (.mgmtWrite reg value) s = .next { s with dev := emit s.dev .smbNack } :=
  next_dev s (if_pos hon)

/-- Settles O44: each row of the controller by what it leaves of the device. -/
theorem managementControllerRegisters : Obligations.ManagementControllerRegisters := by
  refine fun s => ⟨fun vin straps hvin hoff => ?_, fun hon => ?_,
    fun reg value hon => ⟨_, exec_mgmtWrite reg value hon, rfl⟩, ⟨_, rfl, rfl⟩⟩
  · exact ⟨_, exec_mgmtControllerStart straps hvin hoff, rfl, rfl, rfl, rfl, rfl, rfl⟩
  · obtain ⟨i, w, t, hexec⟩ := exec_mgmtRefresh hon
    exact ⟨_, hexec, rfl, rfl, rfl, rfl, rfl, statusWord_bits ..⟩

end Sys2Proof.Machine
end

section
/-! PROOF. SYSTEM resets: the reset pins and a conventional reset over the link (16 R585, R587; 17 R621; 18 R644). -/

namespace Sys2Proof.Machine

/-- With no flash operation under way, an event on the package is a change of the device. -/
theorem onPackage_idle {s : State} (f : Dev → Dev) (hidle : s.dev.flashIf.busy = none) : onPackage s f = .next { s with dev := f s.dev } := by
  simp only [onPackage, hidle]

/-- A run of the part ends with the cause it is given, where no trip has ended it before (16 R584). -/
theorem endRun_rails {d : Dev} (hon : d.pwr.ctrlOn = true) (hrails : d.pwr.rails = true) (htrip : d.pwr.trip = false) (stop die : Nat) :
    endRun d stop die = { d with pwr := { d.pwr with cause := BitVec.ofNat 32 (stop + 16 * die) } } := by
  simp [endRun, hon, hrails, htrip]

/-- The device as a SYSTEM reset of a part whose rails are on leaves it. -/
def restarted (d : Dev) (stop : Nat) : Dev :=
  { out := d.out, freeCtr := d.freeCtr,
    pwr := { d.pwr with cause := BitVec.ofNat 32 stop, pwrGood := true, readyPin := false, throttle := false, trip := false,
                        tripClk := false, coldWait := false, tjHist := [] },
    boot := { kind := some .system, phase := 1 } }

theorem sysReset_rails {d : Dev} (hon : d.pwr.ctrlOn = true) (hrails : d.pwr.rails = true) (htrip : d.pwr.trip = false) (stop : Nat) :
    sysReset d stop = restarted d stop := by
  simp [sysReset, endRun_rails hon hrails htrip, restarted, hrails]

section
variable {d : Dev} (hon : d.pwr.ctrlOn = true) (hrails : d.pwr.rails = true) (htrip : d.pwr.trip = false) (hreset : d.pwr.resetN = true)
  (hperst : d.pwr.perstN = true)
include hon hrails htrip hreset hperst

theorem pinLow_resetN : pinLow false d = restarted { d with pwr := { d.pwr with resetN := false } } 1 := by
  rw [← sysReset_rails (d := { d with pwr := { d.pwr with resetN := false } }) hon hrails htrip]
  simp [pinLow, hon, hrails, hreset, hperst]

theorem pinLow_perstN : pinLow true d = restarted { d with pwr := { d.pwr with perstN := false } } 2 := by
  rw [← sysReset_rails (d := { d with pwr := { d.pwr with perstN := false } }) hon hrails htrip]
  simp [pinLow, hon, hrails, hreset, hperst]

end

/-- Settles O42: with both pins high and the rails on, each way in is a SYSTEM reset of the device with its pin lowered. -/
theorem systemResetsStartThePackageAgain : Obligations.SystemResetsStartThePackageAgain := by
  refine fun s hidle => ⟨fun hrails hon htrip hreset hperst => ⟨?_, ?_, ?_⟩, ⟨_, rfl, rfl⟩, ⟨_, rfl, rfl⟩⟩
  · refine ⟨_, (onPackage_idle (pinLow false) hidle).trans (by rw [pinLow_resetN hon hrails htrip hreset hperst]), ?_⟩
    exact ⟨⟨rfl, rfl, rfl, hrails, rfl, rfl, rfl, rfl⟩, rfl, hperst⟩
  · refine ⟨_, (onPackage_idle (pinLow true) hidle).trans (by rw [pinLow_perstN hon hrails htrip hreset hperst]), ?_⟩
    exact ⟨⟨rfl, rfl, rfl, hrails, rfl, rfl, rfl, rfl⟩, hreset, rfl⟩
  · have hdev : (if s.dev.pwr.ctrlOn && s.dev.pwr.rails && pinsHigh s.dev then sysReset s.dev 2 else s.dev) = restarted s.dev 2 := by
      rw [if_pos (by simp [hon, hrails, pinsHigh, hreset, hperst]), sysReset_rails hon hrails htrip]
    refine ⟨_, (onPackage_idle _ hidle).trans (congrArg (fun d => Host.Outcome.next { s with dev := d }) hdev), ?_⟩
    exact ⟨⟨rfl, rfl, rfl, hrails, rfl, rfl, rfl, rfl⟩, hreset, hperst⟩

end Sys2Proof.Machine
end

section
/-! PROOF. DEVICE_ID and the FUNCTION resets (16 R585, R586; 17 R612, R621, R622, R652 to R654). -/

namespace Sys2Proof.Machine

/-! ### What a FUNCTION reset keeps -/

theorem smFind_mapKeys {α β : Type} (f : Nat → α → β) (m : SMap α) (k : Nat) :
    smFind (m.map fun p => (p.1, f p.1 p.2)) k = (smFind m k).map (f k) := by
  induction m with
  | nil => rfl
  | cons p m ih =>
    simp only [List.map_cons, smFind, ih]
    split
    · next h => rw [h]; rfl
    · rfl

theorem portOf_funcReset_state (d : Dev) (h : Nat) : (portOf (funcReset d) h).state = (portOf d h).state := by
  have hfind : smFind (funcReset d).fabric.ports h = (smFind d.fabric.ports h).map (emptied d h) := smFind_mapKeys (emptied d) _ h
  rw [portOf, portOf, smGet, smGet, hfind]
  cases smFind d.fabric.ports h <;> rfl

/-- Device e stands in a FUNCTION reset that device d began: every context, command, launch and queue has ended, and DEVICE_ID, the states of
the half-ports, the HDM-DB backing and the flash controller are as they were. -/
def FunctionBegun (d e : Dev) : Prop :=
  e.boot.kind = some .function ∧ e.boot.ready = false ∧ e.ctxs = [] ∧ e.cmds = [] ∧ e.launches = [] ∧ e.eng = [] ∧ e.mem.dram = [] ∧
    e.mem.baskets = [] ∧ (∀ q, (queueOf e q).state = .disabled) ∧ e.host.deviceId = d.host.deviceId ∧
    (∀ h, (portOf e h).state = (portOf d h).state) ∧ e.mem.hdm = d.mem.hdm ∧ e.flashIf = d.flashIf

/-- The reset leaves a device in which a FUNCTION reset has begun, whatever else it notes of the host attachment and the boot. -/
theorem functionBegun_funcReset {d e : Dev} {before after : HostIf} {b : Boot}
    (he : e = { funcReset { d with host := before } with host := after, boot := b }) (hkind : b.kind = some .function)
    (hready : b.ready = false) (hid : after.deviceId = d.host.deviceId) : FunctionBegun d e := by
  subst he
  exact ⟨hkind, hready, rfl, rfl, rfl, rfl, rfl, rfl, fun _ => rfl, hid, portOf_funcReset_state { d with host := before }, rfl, rfl⟩

/-! ### The return to D0 -/

/-- Leaving D3hot completes the reset that waits for it, or lets one that still rinses end by itself. -/
theorem leaveD3_cases (nv : NonVol) (d : Dev) : let d1 := setHost d (fun h => { h with d3hot := false })
    (d.boot.kind = some .function ∧ d.boot.joined = true ∧ d.boot.rinsed = true ∧ leaveD3 nv d = becomeReady nv d1) ∨
    (d.boot.kind = some .function ∧ d.boot.rinsed = false ∧ leaveD3 nv d = setBoot d1 (fun b => { b with joined := false })) ∨
    (¬ (d.boot.kind = some .function ∧ d.boot.joined = true) ∧ leaveD3 nv d = d1) := by
  intro d1
  by_cases hwaits : d.boot.kind = some .function ∧ d.boot.joined = true
  · cases hrinsed : d.boot.rinsed with
    | true => exact .inl ⟨hwaits.1, hwaits.2, rfl, (if_pos hwaits).trans (if_pos hrinsed)⟩
    | false => exact .inr (.inl ⟨hwaits.1, rfl, (if_pos hwaits).trans (if_neg (Bool.eq_false_iff.mp hrinsed))⟩)
  · exact .inr (.inr ⟨hwaits, if_neg hwaits⟩)

theorem leaveD3_host (nv : NonVol) (d : Dev) : (leaveD3 nv d).host.d3hot = false ∧ (leaveD3 nv d).host.bme = d.host.bme ∧
    (leaveD3 nv d).host.deviceId = d.host.deviceId ∧ (leaveD3 nv d).fabric = d.fabric := by
  obtain ⟨-, -, -, h⟩ | ⟨-, -, h⟩ | ⟨-, h⟩ := leaveD3_cases nv d <;> rw [h] <;> exact ⟨rfl, rfl, rfl, rfl⟩

theorem leaveD3_ready {nv : NonVol} {d : Dev} (hkind : d.boot.kind = some .function) (hjoined : d.boot.joined = true)
    (hrinsed : d.boot.rinsed = true) : (leaveD3 nv d).boot.ready = true := by
  obtain ⟨-, -, -, h⟩ | ⟨-, h, -⟩ | ⟨h, -⟩ := leaveD3_cases nv d
  · rw [h]; rfl
  · rw [hrinsed] at h; cases h
  · exact absurd ⟨hkind, hjoined⟩ h

theorem leaveD3_boot {nv : NonVol} {d : Dev} (hkind : d.boot.kind ≠ some .function) : (leaveD3 nv d).boot = d.boot := by
  obtain ⟨h, -⟩ | ⟨h, -⟩ | ⟨-, h⟩ := leaveD3_cases nv d
  · exact absurd h hkind
  · exact absurd h hkind
  · rw [h]; rfl

/-! ### The rows -/

section
variable {s : State} (hready : s.dev.boot.ready = true) (hrails : s.dev.pwr.rails = true)
include hready hrails

theorem running_rails : (s.dev.boot.ready && s.dev.pwr.rails) = true := by rw [hready, hrails]; rfl

theorem exec_functionLevelReset : exec .functionLevelReset s = .next { s with
    dev := setHost (funcReset (setHost s.dev fun h => { h with bme := false })) fun h => { h with d3hot := false } } :=
  next_dev s (if_pos (running_rails hready hrails))

theorem exec_cxlReset (memClr : Bool) : exec (.cxlReset memClr) s = .next { s with
    dev := setBoot (setHost (funcReset s.dev) fun h => { h with cxlRstC := false }) fun b =>
      { b with memClr := true, rinseHdm := b.rinseHdm || memClr } } :=
  next_dev s (if_pos (running_rails hready hrails))

theorem exec_d3hotEntry (hd0 : s.dev.host.d3hot = false) : exec .d3hotEntry s = .next { s with
    dev := setBoot (funcReset (setHost s.dev fun h => { h with d3hot := true })) fun b => { b with joined := true } } :=
  next_dev s ((if_neg (Bool.eq_false_iff.mp hd0)).trans (if_pos (running_rails hready hrails)))

end

/-- Settles O43: each way in is a FUNCTION reset with its own notes, and the return to D0 is the end of D3hot. -/
theorem functionResetsEndEveryContext : Obligations.FunctionResetsEndEveryContext := by
  refine fun s => ⟨fun hready hrails => ⟨?_, fun memClr => ?_, fun hd0 => ?_⟩, fun hd3 => ?_⟩
  · exact ⟨_, exec_functionLevelReset hready hrails, ⟨rfl, rfl, functionBegun_funcReset rfl rfl rfl rfl⟩, rfl, rfl, rfl⟩
  · exact ⟨_, exec_cxlReset hready hrails memClr, ⟨rfl, rfl, functionBegun_funcReset rfl rfl rfl rfl⟩, rfl, Bool.false_or memClr, rfl⟩
  · exact ⟨_, exec_d3hotEntry hready hrails hd0, ⟨rfl, rfl, functionBegun_funcReset rfl rfl rfl rfl⟩, rfl, rfl⟩
  · obtain ⟨hd0, hbme, -⟩ := leaveD3_host s.nv (setHost s.dev fun h => { h with bme := false })
    exact ⟨_, next_dev s (if_pos hd3), rfl, hd0, hbme, leaveD3_ready (d := setHost s.dev fun h => { h with bme := false }),
      leaveD3_boot (d := setHost s.dev fun h => { h with bme := false })⟩

/-! ### DEVICE_ID -/

theorem ofNat_mod_8192 (v : BitVec 32) : BitVec.ofNat 32 (v.toNat % 2 ^ 13) = v &&& 0x1FFF#32 := by
  apply BitVec.eq_of_toNat_eq
  rw [BitVec.toNat_and, BitVec.toNat_ofNat, show (0x1FFF#32).toNat = 2 ^ 13 - 1 from rfl, Nat.and_two_pow_sub_one_eq_mod]
  omega

theorem linkHere_iff (d : Dev) : linkHere d = true ↔ d.pwr.rails = true ∧ d.host.linkUp = true := by simp [linkHere]

/-- Every half-port of the part is OFF. -/
theorem allOff_iff (d : Dev) :
    ((span 0 36).all fun h => decide ((portOf d h).state = .off)) = true ↔ ∀ h, h < 36 → (portOf d h).state = .off := by
  simp [List.all_eq_true, span]

/-- DEVICE_ID and the states of the half-ports are those of d. -/
def KeepsIds (d e : Dev) : Prop := e.host.deviceId = d.host.deviceId ∧ ∀ h, (portOf e h).state = (portOf d h).state

theorem keepsIds_funcReset (d : Dev) : KeepsIds d (funcReset d) := ⟨rfl, portOf_funcReset_state d⟩

theorem keepsIds_leaveD3 (nv : NonVol) (d : Dev) : KeepsIds d (leaveD3 nv d) := by
  obtain ⟨-, -, hid, hfabric⟩ := leaveD3_host nv d
  exact ⟨hid, fun h => by rw [portOf, portOf, hfabric]⟩

theorem functionLevelReset_keepsIds (s : State) : Completes .functionLevelReset s fun t => KeepsIds s.dev t.dev := by
  refine ⟨_, rfl, ?_⟩
  dsimp only
  split
  · exact keepsIds_funcReset (setHost s.dev fun h => { h with bme := false })
  · exact keepsIds_leaveD3 s.nv (setHost s.dev fun h => { h with bme := false })

theorem cxlReset_keepsIds (memClr : Bool) (s : State) : Completes (.cxlReset memClr) s fun t => KeepsIds s.dev t.dev := by
  refine ⟨_, rfl, ?_⟩
  dsimp only
  split
  · exact keepsIds_funcReset s.dev
  · split
    · split <;> exact ⟨rfl, fun _ => rfl⟩
    · exact ⟨rfl, fun _ => rfl⟩

theorem d3hotEntry_keepsIds (s : State) : Completes .d3hotEntry s fun t => KeepsIds s.dev t.dev := by
  refine ⟨_, rfl, ?_⟩
  dsimp only
  split
  · exact ⟨rfl, fun _ => rfl⟩
  · split
    · exact keepsIds_funcReset (setHost s.dev fun h => { h with d3hot := true })
    · split <;> exact ⟨rfl, fun _ => rfl⟩

/-- Settles O46: a write is taken by the states of the half-ports, and each FUNCTION reset, or row that begins none, keeps the register. -/
theorem deviceIdIsWrittenWhileEveryPortIsOff : Obligations.DeviceIdIsWrittenWhileEveryPortIsOff := by
  refine ⟨fun s v hrails hlink => ⟨fun hoff => ?_, fun ⟨h, hh, hon⟩ => ?_⟩, rfl, fun s row hrow => ?_⟩
  · have hdev : writeDeviceId s.dev v.toNat = setHost s.dev fun h => { h with deviceId := v &&& 0x1FFF#32 } := by
      rw [← ofNat_mod_8192]
      exact if_pos ((allOff_iff s.dev).mpr hoff)
    exact ⟨_, next_dev s ((if_pos ((linkHere_iff s.dev).mpr ⟨hrails, hlink⟩)).trans hdev), rfl⟩
  · have hdev : writeDeviceId s.dev v.toNat = s.dev := if_neg fun hoff => hon ((allOff_iff s.dev).mp hoff h hh)
    exact next_dev s ((if_pos ((linkHere_iff s.dev).mpr ⟨hrails, hlink⟩)).trans hdev)
  · simp only [List.mem_cons, List.not_mem_nil, or_false] at hrow
    obtain rfl | rfl | rfl | rfl := hrow
    · exact functionLevelReset_keepsIds s
    · exact cxlReset_keepsIds false s
    · exact cxlReset_keepsIds true s
    · exact d3hotEntry_keepsIds s

end Sys2Proof.Machine
end

section
/-! PROOF. The registers that configure queue 0 (17 R611, R613). -/

namespace Sys2Proof.Machine

/-- The values that ENABLE takes are those in range. -/
theorem q0Bad_eq_false_iff (d : Dev) (v : Nat) : q0Bad d v = false ↔ d.host.q0Sq.toNat % 4096 = 0 ∧ d.host.q0Cq.toNat % 4096 = 0 ∧
    6 ≤ cfgSq v ∧ cfgSq v ≤ 16 ∧ 6 ≤ cfgCq v ∧ cfgCq v ≤ 16 ∧ d.host.q0Sq.toNat + 64 * 2 ^ cfgSq v ≤ 2 ^ 36 := by
  simp only [q0Bad, outside, Bool.or_eq_false_iff, bne_eq_false_iff_eq, decide_eq_false_iff_not, Nat.not_lt]
  tauto

theorem q0Open_iff (d : Dev) : q0Open d = true ↔ d.boot.ready = true ∧ d.host.q0Cfg.getLsbD 31 = false := by simp [q0Open]

theorem q0Open_setHost (d : Dev) {f : HostIf → HostIf} (hcfg : (f d.host).q0Cfg = d.host.q0Cfg) : q0Open (setHost d f) = q0Open d := by
  simp only [q0Open, setHost_boot, setHost_host, hcfg]

/-- A value that is put together from its two words is that value. -/
theorem putHalf_both (old w : BitVec 64) : putHalf (putHalf old false (w.toNat % 2 ^ 32)) true (w.toNat / 2 ^ 32) = w := by
  have hlow : (putHalf old false (w.toNat % 2 ^ 32)).toNat = (old.toNat / 2 ^ 32 * 2 ^ 32 + w.toNat % 2 ^ 32) % 2 ^ 64 := BitVec.toNat_ofNat ..
  have hhigh : (putHalf (putHalf old false (w.toNat % 2 ^ 32)) true (w.toNat / 2 ^ 32)).toNat =
      ((putHalf old false (w.toNat % 2 ^ 32)).toNat % 2 ^ 32 + w.toNat / 2 ^ 32 * 2 ^ 32) % 2 ^ 64 := BitVec.toNat_ofNat ..
  apply BitVec.eq_of_toNat_eq
  rw [hhigh, hlow]
  omega

/-- A write of the words from 0x34 to 0xFC does nothing: none of them is listed. -/
theorem writeWord_unlisted (nv : NonVol) (d : Dev) {off : Nat} (v : Nat) (hlow : 0x34 ≤ off) (hhigh : off < 0x100) : writeWord nv d off v = d := by
  rw [writeWord]
  by_cases hodd : off % 4 ≠ 0
  · exact if_pos hodd
  · rw [if_neg hodd]
    repeat rw [if_neg (by omega)]

section
variable {s : State} (hrails : s.dev.pwr.rails = true) (hlink : s.dev.host.linkUp = true)
include hrails hlink

theorem exec_registerWrite_wide (off : Nat) (w : BitVec 64) : exec (.registerWrite off true w) s = .next { s with
    dev := writeWord s.nv (writeWord s.nv s.dev off (w.toNat % 2 ^ 32)) (off + 4) (w.toNat / 2 ^ 32) } :=
  next_dev s (by simp only [writeBar, (linkHere_iff s.dev).mpr ⟨hrails, hlink⟩, Bool.not_true, Bool.false_eq_true, if_false, if_true])

theorem exec_q0CfgEnable (v : BitVec 32) : exec (.q0CfgEnable v) s = .next { s with dev := enableQ0 s.dev v.toNat } :=
  next_dev s (if_pos ((linkHere_iff s.dev).mpr ⟨hrails, hlink⟩))

end

theorem writeWord_q0Sq_low (nv : NonVol) (d : Dev) (v : Nat) : writeWord nv d 0x10 v =
    if q0Open d then setHost d (fun h => { h with q0Sq := putHalf h.q0Sq false v }) else d := by
  rw [writeWord, if_neg (by decide), if_neg (by decide), if_pos (by decide)]
  rfl

theorem writeWord_q0Sq_high (nv : NonVol) (d : Dev) (v : Nat) : writeWord nv d 0x14 v =
    if q0Open d then setHost d (fun h => { h with q0Sq := putHalf h.q0Sq true v }) else d := by
  rw [writeWord, if_neg (by decide), if_neg (by decide), if_pos (by decide)]
  rfl

theorem setHost_q0Sq_twice (d : Dev) (f g : BitVec 64 → BitVec 64) :
    setHost (setHost d fun h => { h with q0Sq := f h.q0Sq }) (fun h => { h with q0Sq := g h.q0Sq }) =
      { d with host := { d.host with q0Sq := g (f d.host.q0Sq) } } := rfl

/-- A write of both words of Q0_SQ_BASE sets both halves. -/
theorem writeWord_q0Sq_both {nv : NonVol} {d : Dev} (hopen : q0Open d = true) (low high : Nat) :
    writeWord nv (writeWord nv d 0x10 low) 0x14 high =
      { d with host := { d.host with q0Sq := putHalf (putHalf d.host.q0Sq false low) true high } } := by
  rw [writeWord_q0Sq_low, if_pos hopen, writeWord_q0Sq_high, if_pos ((q0Open_setHost d rfl).trans hopen)]
  exact setHost_q0Sq_twice d (putHalf · false low) (putHalf · true high)

theorem writeWord_q0Sq_closed {nv : NonVol} {d : Dev} (hclosed : q0Open d = false) (low high : Nat) :
    writeWord nv (writeWord nv d 0x10 low) 0x14 high = d := by
  rw [writeWord_q0Sq_low, hclosed, if_neg Bool.false_ne_true, writeWord_q0Sq_high, hclosed, if_neg Bool.false_ne_true]

/-- The device with Q0_CFG at a value. -/
def withQ0Cfg (d : Dev) (x : BitVec 32) : Dev := { d with host := { d.host with q0Cfg := x } }

theorem queueOf_withQ0Cfg (d : Dev) (x : BitVec 32) (q : Queue) (k : Nat) :
    queueOf (setQueue (withQ0Cfg d x) 0 q) k = if k = 0 then q else queueOf d k := queueOf_setQueue (withQ0Cfg d x) 0 k q

theorem setQueue_withQ0Cfg (d : Dev) (x : BitVec 32) (q : Queue) : setQueue (withQ0Cfg d x) 0 q =
    { d with queues := (setQueue (withQ0Cfg d x) 0 q).queues, host := { d.host with q0Cfg := x } } := rfl

theorem enableQ0_good {d : Dev} {v : Nat} (hopen : q0Open d = true) (hgood : q0Bad d v = false) : enableQ0 d v =
    setQueue (withQ0Cfg d (BitVec.ofNat 32 (cfgFields v + 2 ^ 31))) 0 (queueZero d v) := by
  rw [enableQ0, hopen, hgood]
  rfl

theorem enableQ0_bad {d : Dev} {v : Nat} (hopen : q0Open d = true) (hbad : q0Bad d v = true) : enableQ0 d v =
    withQ0Cfg d (BitVec.ofNat 32 (cfgFields v + 2 ^ 30)) := by
  rw [enableQ0, hopen, hbad]
  rfl

theorem enableQ0_closed {d : Dev} (v : Nat) (hclosed : q0Open d = false) : enableQ0 d v = d := by
  rw [enableQ0, hclosed]
  rfl

/-- Settles O45: what the registers take depends on whether they are open, and ENABLE on the values that they hold (that a ring which ends
where the window ends is within it is the model's reading). -/
theorem hostRegistersConfigureQueueZero : Obligations.HostRegistersConfigureQueueZero := by
  refine fun s v w hrails hlink => ⟨fun hready hdisabled => ?_, fun hclosed => ?_, fun off hlow hhigh => ?_⟩
  · have hopen : q0Open s.dev = true := (q0Open_iff _).mpr ⟨hready, hdisabled⟩
    refine ⟨⟨_, exec_registerWrite_wide hrails hlink 0x10 w, ?_⟩, fun hgood => ?_, fun hbad => ?_⟩
    · rw [writeWord_q0Sq_both hopen, putHalf_both]
    · have hok : q0Bad s.dev v.toNat = false := (q0Bad_eq_false_iff _ _).mpr hgood
      refine ⟨_, exec_q0CfgEnable hrails hlink v, ?_⟩
      rw [enableQ0_good hopen hok]
      exact ⟨congrArg (fun d => { s with dev := d }) (setQueue_withQ0Cfg ..), queueOf_withQ0Cfg s.dev _ (queueZero s.dev v.toNat)⟩
    · have hno : q0Bad s.dev v.toNat = true := by
        rw [← Bool.not_eq_false, q0Bad_eq_false_iff]
        exact hbad
      refine ⟨_, exec_q0CfgEnable hrails hlink v, ?_⟩
      rw [enableQ0_bad hopen hno]
      rfl
  · have hclosed' : q0Open s.dev = false := by
      rw [← Bool.not_eq_true, q0Open_iff, not_and_or, Bool.not_eq_true, Bool.not_eq_false]
      exact hclosed
    refine ⟨(exec_q0CfgEnable hrails hlink v).trans (next_dev s ?_), (exec_registerWrite_wide hrails hlink 0x10 w).trans (next_dev s ?_)⟩
    · exact enableQ0_closed v.toNat hclosed'
    · exact writeWord_q0Sq_closed hclosed' _ _
  · refine (exec_registerWrite_wide hrails hlink off w).trans (next_dev s ?_)
    rw [writeWord_unlisted s.nv s.dev _ hlow (by omega), writeWord_unlisted s.nv s.dev _ (by omega) (by omega)]

end Sys2Proof.Machine
end

section
/-! PROOF. Images that are verified, the end of the rinse, and the ratchet (16 R576 to R581, R585, R594, R596). -/

namespace Sys2Proof.Machine

/-! ### The verification of an image -/

theorem inPhase_iff (d : Dev) (p : Nat) : inPhase d p = true ↔ (d.boot.kind = some .cold ∨ d.boot.kind = some .system) ∧ d.boot.phase = p ∧
    d.boot.failed = false ∧ (p = 0 ∨ d.pwr.rails = true ∧ pinsHigh d = true) := by
  simp [inPhase, and_assoc]

theorem inPhase_of_function {d : Dev} (h : d.boot.kind = some .function) (p : Nat) : inPhase d p = false := by
  simp [inPhase, h]

/-- The slot that is verified next: the preferred one, then the other. -/
def slotToTry (nv : NonVol) (tried : List (Nat × BitVec 16)) : Nat :=
  match tried with
  | [] => firstSlot nv
  | t :: _ => 1 - t.1

/-- The device once a slot has been tried, with its status. -/
def slotTried (d : Dev) (k st : Nat) : Dev := setBoot d fun b => { b with tried := b.tried ++ [(k, BitVec.ofNat 16 st)] }

/-- The device once a slot has been verified with a status. -/
def slotVerified (nv : NonVol) (d : Dev) (k st : Nat) : Dev :=
  if st = stOk then setBoot (slotTried d k st) (bootImage nv k)
  else if d.boot.tried.isEmpty then setBoot (slotTried d k st) fun b => { b with fallback := true, failCode := st, failUnit := 1 }
  else setBoot (slotTried d k st) fun b => { b with kind := none, failed := true, ready := false, failUnit := 1 }

theorem verifyImage_eq {nv : NonVol} {d : Dev} (hphase : inPhase d 3 = true) {k st : Nat} (hk : slotToTry nv d.boot.tried = k)
    (hst : imageStatus nv k = st) : verifyImage nv d = slotVerified nv d k st := by
  subst hk hst
  cases htried : d.boot.tried <;>
    simp only [verifyImage, hphase, htried, slotVerified, slotTried, slotToTry, Bool.not_true, Bool.false_eq_true, if_false]

section
variable {nv : NonVol} {d : Dev} {k st : Nat}

theorem slotVerified_good : slotVerified nv d k 0 = setBoot (slotTried d k 0) (bootImage nv k) := rfl

theorem slotVerified_first_bad (hst : st ≠ 0) (hfirst : d.boot.tried = []) : slotVerified nv d k st =
    setBoot (slotTried d k st) fun b => { b with fallback := true, failCode := st, failUnit := 1 } :=
  (if_neg hst).trans (if_pos (List.isEmpty_iff.mpr hfirst))

theorem slotVerified_last_bad (hst : st ≠ 0) (hlast : d.boot.tried ≠ []) : slotVerified nv d k st =
    setBoot (slotTried d k st) fun b => { b with kind := none, failed := true, ready := false, failUnit := 1 } :=
  (if_neg hst).trans (if_neg fun h => hlast (List.isEmpty_iff.mp h))

end

/-! ### What a configuration bundle leaves as it is -/

/-- The device without its commands, and without what its engines hold and do and what counts it. -/
def besideCmds (d : Dev) : Dev := { beside d with cmds := [] }

theorem besideCmds_of_beside {d e : Dev} (h : beside e = beside d) : besideCmds e = besideCmds d := by rw [besideCmds, besideCmds, h]

theorem now_of_besideCmds {d e : Dev} (h : besideCmds e = besideCmds d) : e.now = d.now :=
  show (besideCmds e).now = (besideCmds d).now by rw [h]

theorem besideCmds_endLaunchFault (d : Dev) (k : Nat) (f : PFault) : besideCmds (endLaunchFault d k f) = besideCmds d := by
  unfold endLaunchFault
  split
  · rfl
  next z _ =>
    split
    · rw [← besideCmds_of_beside (beside_launchStopped d k z f)]
      unfold stopForFault
      dsimp only
      split <;> rfl
    · split
      · rw [← besideCmds_of_beside (beside_laterCounted d k z f)]
        unfold laterFault
        dsimp only
        split
        · split <;> rfl
        · rfl
      · rfl

theorem besideCmds_xferFault (d : Dev) (id : Nat) (x : Xfer) (code va : Nat) : besideCmds (xferFault d id x code va) = besideCmds d :=
  (besideCmds_endLaunchFault _ _ _).trans (besideCmds_of_beside (beside_dropLater d id x))

theorem besideCmds_failXferReq (d : Dev) (id code : Nat) : besideCmds (failXferReq d id code) = besideCmds d := by
  unfold failXferReq
  split
  · rfl
  next x _ =>
    rw [← besideCmds_of_beside (beside_foldl (f := killTag) (fun _ _ => rfl) x.tags d)]
    dsimp only
    split
    · exact besideCmds_of_beside (beside_failXfer ..)
    · exact besideCmds_xferFault ..
    · exact besideCmds_xferFault ..
    · rfl

theorem besideCmds_failRequest (d : Dev) (tag code : Nat) : besideCmds (failRequest d tag code) = besideCmds d := by
  unfold failRequest
  split
  · rfl
  · split
    · rfl
    · dsimp only
      split
      · exact besideCmds_failXferReq ..
      · rfl
      · rfl

theorem besideCmds_portDown (d : Dev) (h : Nat) : besideCmds (portDown d h) = besideCmds d := by
  refine foldl_keep besideCmds _ (fun e p => ?_) _ (setPort d h _)
  split
  · exact besideCmds_failRequest ..
  · rfl

theorem besideCmds_refitPorts (old d : Dev) : besideCmds (refitPorts old d) = besideCmds d := by
  refine foldl_keep besideCmds _ (fun e h => ?_) _ d
  dsimp only
  split
  · exact besideCmds_portDown e h
  · rfl

theorem now_refitPorts (old d : Dev) : (refitPorts old d).now = d.now := now_of_besideCmds (besideCmds_refitPorts old d)

theorem now_applyEdges (d : Dev) (t : List Byte) : (applyEdges d t).now = d.now := by
  refine foldl_keep Dev.now _ (fun e q => ?_) _ d
  dsimp only
  split <;> rfl

theorem now_loadTable (d : Dev) (kind inst : Nat) (t : List Byte) : (loadTable d kind inst t).now = d.now := by
  unfold loadTable
  dsimp only
  generalize (if t.isEmpty = true then _ else _ : SMap (List Byte)) = tables
  split
  · rfl
  · split
    · rfl
    · exact now_refitPorts ..
    · exact now_refitPorts ..
    · rfl
    · exact now_applyEdges ..
    · rfl

theorem now_bundleEntry (d : Dev) (i kind inst : Nat) (t : List Byte) : (bundleEntry d i kind inst t).now = d.now := by
  unfold bundleEntry
  extract_lets ok
  split
  · exact now_loadTable d kind inst t
  · split <;> rfl

theorem now_bundleFrom (nv : NonVol) (i off fuel : Nat) (d : Dev) : (bundleFrom nv i off fuel d).now = d.now := by
  induction fuel generalizing i off d with
  | zero => rfl
  | succ fuel ih =>
    unfold bundleFrom
    dsimp only
    split
    · split <;> rfl
    · exact (ih ..).trans (now_bundleEntry ..)

theorem now_applyBundle (nv : NonVol) (d : Dev) : (applyBundle nv d).now = d.now := by
  unfold applyBundle
  dsimp only
  split
  · exact now_bundleFrom ..
  · rfl

theorem now_checkIdentity (nv : NonVol) (d : Dev) : (checkIdentity nv d).now = d.now := by
  unfold checkIdentity
  split <;> rfl

/-! ### READY -/

/-- The part is READY, and the first budget window begins now. -/
def ReadyAt (now : Nat) (d : Dev) : Prop :=
  d.boot.ready = true ∧ d.boot.phase = 8 ∧ d.boot.kind = none ∧ d.pwr.readyPin = true ∧ d.gov.windowAt = now

theorem readyAt_becomeReady (nv : NonVol) (d : Dev) : ReadyAt d.now (becomeReady nv d) := ⟨rfl, rfl, rfl, rfl, rfl⟩

theorem readyAt_rinseDone {nv : NonVol} {d : Dev} (hphase : inPhase d 6 = true) : ReadyAt d.now (rinseDone [] nv d) := by
  rw [rinseDone, if_pos hphase]
  have hready := readyAt_becomeReady nv (checkIdentity nv (applyBundle nv { nextPhase d 7 with
    tables := [], parts := partsFrom [] (partDefault d.boot.partCode), configGen := 0 }))
  rw [now_checkIdentity, now_applyBundle] at hready
  exact hready

/-- The rinse of a FUNCTION reset ends with READY, and with the HDM-DB backing empty where it was to be rinsed. -/
theorem rinseDone_function {nv : NonVol} {d : Dev} (failed : List Nat) (hkind : d.boot.kind = some .function) (hrinsed : d.boot.rinsed = false)
    (hjoined : d.boot.joined = false) : rinseDone failed nv d =
      becomeReady nv (if d.boot.rinseHdm then modMem d (fun m => { m with hdm := [] }) else d) := by
  unfold rinseDone
  rw [inPhase_of_function hkind, if_neg Bool.false_ne_true, if_pos ⟨hkind, hrinsed⟩, hjoined]
  rfl

/-! ### The ratchet -/

theorem length_filter_or_beq {l : List Nat} (hl : l.Nodup) {i : Nat} (hi : i ∈ l) {p : Nat → Bool} (hp : p i = false) :
    (l.filter fun j => p j || j == i).length = (l.filter p).length + 1 := by
  induction l with
  | nil => cases hi
  | cons a l ih =>
    obtain ⟨ha, hl⟩ := List.nodup_cons.mp hl
    obtain rfl | hi := List.mem_cons.mp hi
    · have hrest : (l.filter fun j => p j || j == i) = l.filter p := List.filter_congr fun j hj => by
        rw [beq_eq_false_iff_ne.mpr (ne_of_mem_of_not_mem hj ha), Bool.or_false]
      simp [hp, hrest]
    · have hne : (a == i) = false := beq_eq_false_iff_ne.mpr (ne_of_mem_of_not_mem hi ha).symm
      simp only [List.filter_cons, hne, Bool.or_false]
      split
      · simp only [List.length_cons, ih hl hi]
      · exact ih hl hi

theorem getLsbD_blown (v : BitVec 64) (i : Nat) {j : Nat} (hj : j < 64) :
    (v ||| BitVec.ofNat 64 (2 ^ i)).getLsbD j = (v.getLsbD j || j == i) := by
  rw [BitVec.getLsbD_or, BitVec.getLsbD_ofNat, Nat.testBit_two_pow, decide_eq_true hj, Bool.true_and]
  exact congrArg (v.getLsbD j || ·) (decide_eq_decide.mpr eq_comm)

/-- Blowing a bit raises the counter by 1 while one of the 64 bits is not blown. -/
theorem counterOf_blowOne {f g : Fuses} (h : counterOf f < 64) (hg : g.antiRollback = blowOne f.antiRollback) :
    counterOf g = counterOf f + 1 := by
  unfold counterOf
  rw [hg, blowOne]
  cases hfind : (span 0 64).find? (fun i => !f.antiRollback.getLsbD i) with
  | none =>
    have hall : (span 0 64).filter (fun i => f.antiRollback.getLsbD i) = span 0 64 :=
      List.filter_eq_self.mpr fun i hi => by simpa using List.find?_eq_none.mp hfind i hi
    rw [counterOf, hall] at h
    exact absurd h (by decide)
  | some i =>
    have hopen : f.antiRollback.getLsbD i = false := by simpa using List.find?_some hfind
    refine Eq.trans ?_ (length_filter_or_beq List.nodup_range' (List.mem_of_find?_eq_some hfind) hopen)
    refine congrArg List.length (List.filter_congr fun j hj => ?_)
    exact getLsbD_blown f.antiRollback i (by simpa [span] using hj)

theorem ratchet_blows {d : Dev} {nv : NonVol} (hready : d.boot.ready = true) (hflag : bit d.boot.iflags 0 = true)
    (hbelow : counterOf nv.fuses < d.boot.svn) : ∃ f, ratchet d nv = { nv with fuses := f } ∧ f.antiRollback = blowOne nv.fuses.antiRollback := by
  rw [ratchet, hready, hflag, decide_eq_true hbelow]
  refine ⟨_, rfl, ?_⟩
  dsimp only
  split <;> rfl

theorem ratchet_reached {d : Dev} {nv : NonVol} (hreached : d.boot.svn ≤ counterOf nv.fuses) : ratchet d nv = nv := by
  rw [ratchet, decide_eq_false (Nat.not_lt.mpr hreached), Bool.and_false]
  rfl

/-- Settles O41: the slot that is tried, the end of a rinse, and the ratchet by its counter (one fuse blown per step is the model's choice,
log 48). -/
theorem imagesVerifyAndTheBootEndsReady : Obligations.ImagesVerifyAndTheBootEndsReady := by
  intro s h0 h1 k st h up
  refine ⟨fun hphase => ?_, fun hphase => ⟨_, rfl, rfl, readyAt_rinseDone hphase⟩, fun failed hkind hrinsed hjoined => ?_,
    fun hready hflag hbelow hroom => ?_, fun hreached => ?_⟩
  · have hk : slotToTry s.nv s.dev.boot.tried = k := rfl
    have hstatus : imageStatus s.nv k = st := rfl
    clear_value st
    have hexec : exec .imageVerify s = .next { s with dev := slotVerified s.nv s.dev k st } := next_dev s (verifyImage_eq hphase hk hstatus)
    obtain ⟨-, hthree, hfailed, -⟩ := (inPhase_iff s.dev 3).mp hphase
    by_cases hst : st = 0
    · rw [hst, slotVerified_good] at hexec
      exact ⟨_, hexec, rfl, hst ▸ rfl, fun _ => ⟨rfl, rfl, rfl, rfl, rfl, hfailed⟩, fun h => absurd hst h,
        fun h => absurd hst h⟩
    · by_cases htried : s.dev.boot.tried = []
      · rw [slotVerified_first_bad hst htried] at hexec
        exact ⟨_, hexec, rfl, rfl, fun h => absurd h hst, fun _ _ => ⟨hthree, rfl, rfl, rfl, hfailed⟩, fun _ h => absurd htried h⟩
      · rw [slotVerified_last_bad hst htried] at hexec
        exact ⟨_, hexec, rfl, rfl, fun h => absurd h hst, fun _ h => absurd h htried, fun _ _ => ⟨rfl, rfl, rfl⟩⟩
  · refine ⟨_, next_dev s (rinseDone_function failed hkind hrinsed hjoined), ?_⟩
    cases s.dev.boot.rinseHdm <;> exact ⟨⟨rfl, readyAt_becomeReady s.nv _⟩, rfl⟩
  · obtain ⟨f, hratchet, hblown⟩ := ratchet_blows hready hflag hbelow
    refine ⟨_, rfl, ?_⟩
    rw [hratchet]
    exact ⟨rfl, counterOf_blowOne hroom hblown⟩
  · exact congrArg (fun nv => Host.Outcome.next { s with nv := nv }) (ratchet_reached hreached)

end Sys2Proof.Machine
end

section
/-! PROOF. The flash update window: operations that are begun, refused and completed (16 R574; 17 R615). -/

namespace Sys2Proof.Machine

/-! ### The bytes of the flash and of its buffer -/

/-- A map into which a value has been put under each key of a range. -/
theorem smGet_foldl_span {α : Type} [DecidableEq α] (x : α) (g : Nat → α) (n lo : Nat) (m : SMap α) (j : Nat) :
    smGet x ((span lo n).foldl (fun m i => smSet x m i (g i)) m) j = if lo ≤ j ∧ j < lo + n then g j else smGet x m j := by
  induction n generalizing lo m with
  | zero => exact (if_neg (by omega)).symm
  | succ n ih =>
    refine (ih (lo + 1) (smSet x m lo (g lo))).trans ?_
    rw [smGet_smSet]
    by_cases hj : j = lo
    · rw [if_neg (by omega), if_pos hj, if_pos (by omega), hj]
    · rw [if_neg hj]
      exact if_congr (by omega) rfl rfl

theorem flashPut_cons (nv : NonVol) (a : Nat) (b : Byte) (bs : List Byte) :
    flashPut nv a (b :: bs) = flashPut { nv with flash := smPut nv.flash a b } (a + 1) bs := rfl

theorem flashByte_flashPut (nv : NonVol) (a : Nat) (bs : List Byte) (i : Nat) :
    flashByte (flashPut nv a bs) i = if a ≤ i ∧ i < a + bs.length then nth 0#8 bs (i - a) else flashByte nv i := by
  induction bs generalizing nv a with
  | nil => exact (if_neg (by simp only [List.length_nil]; omega)).symm
  | cons b bs ih =>
    rw [flashPut_cons, ih, List.length_cons]
    by_cases hi : i = a
    · subst hi
      rw [if_neg (by omega), if_pos (by omega), flashByte, smGet_smPut_same, Nat.sub_self]
      rfl
    · rw [flashByte, smGet_smPut_ne _ _ _ hi]
      refine if_ctx_congr (by omega) (fun h => ?_) fun _ => rfl
      rw [show i - a = i - (a + 1) + 1 by omega]
      rfl

theorem flashByte_flashWipe (nv : NonVol) (a n i : Nat) :
    flashByte (flashWipe nv a n) i = if a ≤ i ∧ i < a + n then Config.flashErased else flashByte nv i := by
  rw [flashByte, flashWipe, smGet, smFind_filter nv.flash (fun j => decide (j < a) || decide (a + n ≤ j))]
  by_cases h : a ≤ i ∧ i < a + n
  · rw [if_pos h, if_neg (by simp only [Bool.or_eq_true, decide_eq_true_eq]; omega)]
    rfl
  · rw [if_neg h, if_pos (by simp only [Bool.or_eq_true, decide_eq_true_eq]; omega)]
    rfl

@[simp] theorem flashByte_mendTorn (nv : NonVol) (a n i : Nat) : flashByte (mendTorn nv a n) i = flashByte nv i := rfl

/-- Breaking off an operation leaves the bytes that it does not work on. -/
theorem flashByte_tearFlash (nv : NonVol) (draw : Nat) (op : FlashOp) {a i : Nat} (hi : i < a ∨ a + flashOpBytes op ≤ i) :
    flashByte (tearFlash nv draw op a) i = flashByte nv i := by
  have htorn (n : Nat) (hn : i < a ∨ a + n ≤ i) : flashByte (tearRange nv draw a n) i = flashByte nv i := by
    have hlen : ((span a n).map (Config.freeByte draw)).length = n := (List.length_map ..).trans List.length_range'
    exact (flashByte_flashPut nv a _ i).trans (if_neg (by omega))
  cases op with
  | read => rfl
  | program => exact htorn _ hi
  | erase => exact htorn _ hi

@[simp] theorem length_bufBytes (f : FlashIf) : (bufBytes f).length = 4096 := length_map_span ..

theorem nth_bufBytes (f : FlashIf) {k : Nat} (hk : k < 4096) : nth 0#8 (bufBytes f) k = smGet 0#8 f.buf k := nth_map_span 0#8 _ hk

/-! ### GO -/

/-- GO is heard: the link is up, the part is READY, and no operation is under way. -/
def goHeard (d : Dev) : Bool := linkHere d && d.boot.ready && !d.flashIf.busy.isSome

theorem goHeard_iff (d : Dev) : goHeard d = true ↔
    d.pwr.rails = true ∧ d.host.linkUp = true ∧ d.boot.ready = true ∧ d.flashIf.busy = none := by
  simp [goHeard, linkHere, and_assoc]

theorem goHeard_eq (d : Dev) : (!linkHere d || !d.boot.ready || d.flashIf.busy.isSome) = !goHeard d := by
  simp [goHeard]

theorem flashGo_unheard {op : FlashOp} {nv : NonVol} {d : Dev} (h : goHeard d = false) : flashGo op nv d = d := by
  unfold flashGo
  rw [goHeard_eq, h]
  rfl

theorem flashGo_refused {op : FlashOp} {nv : NonVol} {d : Dev} (h : goHeard d = true) (hrefused : flashRefused d op = true) :
    flashGo op nv d = setFlash d fun f => { f with refused := true } := by
  unfold flashGo
  rw [goHeard_eq, h, hrefused]
  rfl

/-- A READ that is accepted brings 4 KiB into the buffer. -/
theorem flashGo_read {nv : NonVol} {d : Dev} (h : goHeard d = true) (hok : flashRefused d .read = false) : ∃ buf,
    flashGo .read nv d = setFlash d (fun f => { f with buf := buf }) ∧
      ∀ i, smGet 0#8 buf i = if i < 4096 then flashByte nv (d.flashIf.addr.toNat + i) else smGet 0#8 d.flashIf.buf i := by
  refine ⟨(span 0 4096).foldl (fun m i => smSet 0#8 m i (flashByte nv (d.flashIf.addr.toNat + i))) d.flashIf.buf, ?_, fun i => ?_⟩
  · simp only [flashGo, goHeard_eq, h, hok, Bool.not_true, Bool.false_eq_true, if_false, setFlash]
  · rw [smGet_foldl_span 0#8 fun i => flashByte nv (d.flashIf.addr.toNat + i)]
    exact if_congr (by omega) rfl rfl

theorem flashGo_begins {op : FlashOp} (hop : op ≠ .read) {nv : NonVol} {d : Dev} (h : goHeard d = true) (hok : flashRefused d op = false) :
    flashGo op nv d = setFlash d fun f => { f with busy := some (op, f.addr.toNat) } := by
  unfold flashGo
  rw [goHeard_eq, h, hok]
  cases op with
  | read => exact absurd rfl hop
  | program => rfl
  | erase => rfl

/-- The n bytes from FLASH_ADDR on lie outside the booted slot and the certificate area. -/
def FlashFree (d : Dev) (n : Nat) : Prop :=
  (d.flashIf.addr.toNat + n ≤ 0x2000000 * d.boot.slot ∨ 0x2000000 * d.boot.slot + 0x2000000 ≤ d.flashIf.addr.toNat) ∧
    (d.flashIf.addr.toNat + n ≤ 0x4000000 ∨ 0x4010000 ≤ d.flashIf.addr.toNat)

theorem flashGuarded_eq_false_iff (d : Dev) (n : Nat) : flashGuarded d d.flashIf.addr.toNat n = false ↔ FlashFree d n := by
  simp only [flashGuarded, FlashFree, Bool.or_eq_false_iff, Bool.and_eq_false_iff, decide_eq_false_iff_not]
  rw [slotBase]
  omega

theorem flashRefused_read_iff (d : Dev) : flashRefused d .read = false ↔ d.flashIf.addr.toNat % 4096 = 0 := by
  simp [flashRefused, flashOpBytes]

/-- A PROGRAM or ERASE is accepted at an address aligned to its size, clear of what is protected. -/
theorem flashRefused_iff {op : FlashOp} (hop : op ≠ .read) (d : Dev) : flashRefused d op = false ↔
    d.flashIf.addr.toNat % flashOpBytes op = 0 ∧ FlashFree d (flashOpBytes op) := by
  rw [← flashGuarded_eq_false_iff]
  simp [flashRefused, hop]

section
variable {s : State} (h : goHeard s.dev = true)
include h

theorem go_begins {op : FlashOp} (hop : op ≠ .read) {i : Instr} (hi : exec i s = onDev s (flashGo op s.nv))
    (halign : s.dev.flashIf.addr.toNat % flashOpBytes op = 0) (hfree : FlashFree s.dev (flashOpBytes op)) :
    Completes i s fun t => t = { s with dev := { s.dev with flashIf := { s.dev.flashIf with busy := some (op, s.dev.flashIf.addr.toNat) } } } :=
  ⟨_, hi.trans (next_dev s (flashGo_begins hop h ((flashRefused_iff hop s.dev).mpr ⟨halign, hfree⟩))), rfl⟩

theorem go_refused {op : FlashOp} {i : Instr} (hi : exec i s = onDev s (flashGo op s.nv)) (hrefused : flashRefused s.dev op ≠ false) :
    Completes i s fun t => t = { s with dev := { s.dev with flashIf := { s.dev.flashIf with refused := true } } } :=
  ⟨_, hi.trans (next_dev s (flashGo_refused h (Bool.not_eq_false _ ▸ hrefused))), rfl⟩

/-- GO with OP 3 sets REFUSED. -/
theorem go_op3 {v : BitVec 64} (hgo : bit v.toNat 31 = true) (hop : bits v.toNat 1 0 = 3) : Completes (.registerWrite 0x2C false v) s
    fun t => t = { s with dev := { s.dev with flashIf := { s.dev.flashIf with refused := true } } } := by
  obtain ⟨hrails, hlink, hready, hidle⟩ := (goHeard_iff s.dev).mp h
  have hlow : bit (v.toNat % 2 ^ 32) 31 = true := by
    simp only [bit, decide_eq_true_eq] at hgo ⊢
    omega
  have hop' : bits (v.toNat % 2 ^ 32) 1 0 = 3 := by
    simp only [bits] at hop ⊢
    omega
  have hbar : writeBar s.nv 0x2C false v.toNat s.dev = writeFlashCtrl s.nv s.dev (v.toNat % 2 ^ 32) := by
    rw [writeBar, (linkHere_iff s.dev).mpr ⟨hrails, hlink⟩]
    rfl
  have hctrl : writeFlashCtrl s.nv s.dev (v.toNat % 2 ^ 32) = setFlash s.dev fun f => { f with refused := true } := by
    simp only [writeFlashCtrl, hlow, hop', hready, hidle, Bool.not_true, Bool.false_eq_true, if_false, Option.isNone_none, Bool.and_self, if_true]
  exact ⟨_, next_dev s (hbar.trans hctrl), rfl⟩

end

theorem flashByte_programmed (nv : NonVol) (f : FlashIf) (a i : Nat) : flashByte (flashEffect nv (bufBytes f) .program a) i =
    if a ≤ i ∧ i < a + 4096 then smGet 0#8 f.buf (i - a) else flashByte nv i := by
  rw [flashEffect, flashByte_mendTorn, flashByte_flashPut, length_bufBytes]
  split
  next hin => exact nth_bufBytes f (by omega)
  next => rfl

theorem flashByte_erased (nv : NonVol) (buf : List Byte) (a i : Nat) : flashByte (flashEffect nv buf .erase a) i =
    if a ≤ i ∧ i < a + 65536 then Config.flashErased else flashByte nv i := by
  rw [flashEffect, flashByte_mendTorn, flashByte_flashWipe]

/-- The flash once an operation that did not fail has been completed. -/
theorem flashOpComplete_done {s : State} {op : FlashOp} {b : Nat} (hbusy : s.dev.flashIf.busy = some (op, b)) :
    exec (.flashOpComplete false) s = .next { s with
      nv := flashEffect s.nv (bufBytes s.dev.flashIf) op b, dev := setFlash s.dev fun f => { f with busy := none } } := by
  show execFlashOpComplete false s = _
  simp only [execFlashOpComplete, hbusy, Bool.false_eq_true, if_false]

theorem flashOpComplete_fault {s : State} {op : FlashOp} {b : Nat} (hbusy : s.dev.flashIf.busy = some (op, b)) :
    exec (.flashOpComplete true) s = .next { s with
      nv := tearFlash s.nv s.dev.freeCtr op b,
      dev := setFlash { s.dev with freeCtr := s.dev.freeCtr + 1 } fun f => { f with busy := none, error := true } } := by
  show execFlashOpComplete true s = _
  simp only [execFlashOpComplete, hbusy, if_true]

/-- Settles O47: GO by what it is heard and refused for, and the end of an operation by the bytes that it leaves (a READ is done at once, and
the link is wanted as for any register write: the model's choices, log 16 and log 49). -/
theorem flashOperationsReadProgramAndErase : Obligations.FlashOperationsReadProgramAndErase := by
  refine fun s => ⟨fun hrails hlink hready hidle => ?_, fun hclosed => ?_, fun b hbusy => ?_, fun b hbusy => ?_, fun op b hbusy => ?_⟩
  · have h : goHeard s.dev = true := (goHeard_iff s.dev).mpr ⟨hrails, hlink, hready, hidle⟩
    refine ⟨fun halign => ?_, go_begins (op := .program) h (by decide) rfl,
      go_begins (op := .erase) h (by decide) rfl, fun halign => ?_, fun hno => ?_, fun hno => ?_,
      fun v hgo hop => go_op3 h hgo hop⟩
    · obtain ⟨buf, hread, hbuf⟩ := flashGo_read (nv := s.nv) h ((flashRefused_read_iff s.dev).mpr halign)
      exact ⟨_, next_dev s hread, rfl, hbuf⟩
    · exact go_refused h rfl fun hok => halign ((flashRefused_read_iff s.dev).mp hok)
    · exact go_refused (op := .program) h rfl fun hok => not_and_or.mpr hno ((flashRefused_iff (by decide) s.dev).mp hok)
    · exact go_refused (op := .erase) h rfl fun hok => not_and_or.mpr hno ((flashRefused_iff (by decide) s.dev).mp hok)
  · have h : goHeard s.dev = false := by
      rw [← Bool.not_eq_true, goHeard_iff]
      rintro ⟨hrails, hlink, hready, hidle⟩
      simp [hrails, hlink, hready, hidle] at hclosed
    exact ⟨next_dev s (flashGo_unheard h), next_dev s (flashGo_unheard h), next_dev s (flashGo_unheard h)⟩
  · exact ⟨_, flashOpComplete_done hbusy, rfl, flashEffect_fuses .., flashByte_programmed s.nv s.dev.flashIf b⟩
  · exact ⟨_, flashOpComplete_done hbusy, rfl, flashEffect_fuses .., flashByte_erased s.nv (bufBytes s.dev.flashIf) b⟩
  · exact ⟨_, flashOpComplete_fault hbusy, rfl, rfl, tearFlash_fuses .., fun i hi => flashByte_tearFlash s.nv _ op hi⟩

end Sys2Proof.Machine
end

section
/-! PROOF. Requests of the host: the HDM-DB window, snoops, the link and the mailbox (17 R604, R605, R608 to R610, R616). -/

namespace Sys2Proof.Machine

theorem nth_memRead (m : Mem) (a : Nat) {n k : Nat} (hk : k < n) : nth 0#8 (memRead m a n) k = memByte m (a + k) := by
  have hlen : k < (memRead m a n).length := (memRead_length m a n).symm ▸ hk
  rw [nth, List.getD_eq_getElem _ _ hlen, memRead_getElem m a hlen]

/-- A line that is written back. -/
theorem memByte_writeLine (m : Mem) (l : Nat) {bs : List Byte} (hlen : bs.length = 64) (a : Nat) :
    memByte (memWrite m (64 * l) bs) a = if a / 64 = l then nth 0#8 bs (a % 64) else memByte m a := by
  rw [memByte_memWrite, hlen]
  refine if_ctx_congr (by omega) (fun h => ?_) fun _ => rfl
  rw [show a - 64 * l = a % 64 by omega]

section
variable {s : State} (hrails : s.dev.pwr.rails = true) {off : Nat}
include hrails

theorem hdmRequest_served (hoff : off < 2 ^ 36) (write : Bool) (data : List Byte) : hdmRequest write off data s.dev = if write then
    (if hdmOpen s.dev && decide (off % 64 + data.length ≤ 64) then modMem s.dev (fun m => { m with hdm := memWrite m.hdm off data }) else s.dev)
    else emit s.dev (if hdmOpen s.dev then .memData (memRead s.dev.mem.hdm (off / 64 * 64) 64) false else .memData [] true) := by
  rw [hdmRequest, hrails, decide_eq_false (Nat.not_le.mpr hoff)]
  rfl

end

theorem gotBiRsp_awaited {d : Dev} {off : Nat} (data : List Byte) (h : off / 64 ∈ d.host.snooping) : gotBiRsp off data d =
    setHost (modMem d fun m => { m with hdm := memWrite m.hdm (64 * (off / 64)) data }) fun h =>
      { h with snooping := h.snooping.filter (fun k => k != off / 64), snooped := h.snooped ++ [off / 64] } :=
  if_pos (List.contains_iff_mem.mpr h)

/-- A row whose effect is to send a message. -/
theorem completes_sends {i : Instr} {s : State} (m : OutMsg) (hi : exec i s = .next { s with dev := emit s.dev m }) :
    Completes i s fun t => t = { s with dev := { s.dev with out := m :: s.dev.out } } := ⟨_, hi, rfl⟩

section
variable {s : State} (hlink : linkHere s.dev = true)
include hlink

theorem exec_hostSnoop (addr : Nat) : exec (.hostSnoop addr) s = .next { s with dev := emit s.dev .snoopResp } := next_dev s (if_pos hlink)

theorem exec_globalPersistentFlush : exec .globalPersistentFlush s = .next { s with dev := emit s.dev .gpfAck } := next_dev s (if_pos hlink)

/-- The entry of the CDAT goes out behind a header that names the next one. -/
theorem exec_cdatTableAccess {n : Nat} (hn : n < (cdatEntries s.dev).length) : ∃ next : Nat, exec (.cdatTableAccess n) s = .next { s with
    dev := emit s.dev (.cdat (natLe 2 0 ++ natLe 2 next ++ nth [] (cdatEntries s.dev) n)) } :=
  ⟨_, next_dev s (if_pos (by rw [hlink, decide_eq_true hn]; rfl))⟩

theorem exec_doeDiscovery (n : Nat) : ∃ v t next : Nat, exec (.doeDiscovery n) s = .next { s with
    dev := emit s.dev (.doe (natLe 2 v ++ natLe 1 t ++ natLe 1 next)) } := ⟨_, _, _, next_dev s (if_pos hlink)⟩

end

/-- Settles O48: each row by what it sends, or by the bytes that it leaves (the decoder that is committed with the training of the link is the
model's choice, log 40; the layouts of CDAT and of the discovery object are presumed, log 41). -/
theorem hostMemoryRequestsAreServed : Obligations.HostMemoryRequestsAreServed := by
  refine fun s off data hrails => ⟨fun hoff hopen hfits => ?_, fun hoff hopen => ?_, fun hoff hshut => ?_, fun hsnooped hlen => ?_,
    fun width gts hphase hwidth hgts => ?_, fun hup => ?_⟩
  · have hboth : (hdmOpen s.dev && decide (off % 64 + data.length ≤ 64)) = true := by rw [hopen, decide_eq_true hfits]; rfl
    have hdev : hdmRequest true off data s.dev = modMem s.dev fun m => { m with hdm := memWrite m.hdm off data } :=
      (hdmRequest_served hrails hoff true data).trans (if_pos hboth)
    exact ⟨_, next_dev s hdev, rfl, memByte_memWrite s.dev.mem.hdm off data⟩
  · refine ⟨_, next_dev s (hdmRequest_served hrails hoff false data), memRead s.dev.mem.hdm (off / 64 * 64) 64, memRead_length .., ?_, ?_⟩
    · exact fun k hk => nth_memRead s.dev.mem.hdm (off / 64 * 64) hk
    · rw [hopen]
      rfl
  · refine ⟨_, next_dev s (hdmRequest_served hrails hoff false data), ?_⟩
    rw [hshut]
    rfl
  · have hexec : exec (.backInvalidateResponse off data) s = .next { s with dev := gotBiRsp off data s.dev } := if_pos (.inr hlen)
    refine ⟨_, hexec.trans (next_dev s (gotBiRsp_awaited data hsnooped)), ?_, ?_, memByte_writeLine s.dev.mem.hdm (off / 64) hlen⟩
    · exact List.mem_append_right _ (List.mem_singleton_self _)
    · exact fun h => absurd (List.mem_filter.mp h).2 (by simp)
  · exact ⟨_, next_dev s (if_pos ⟨hrails, hphase, hwidth, hgts⟩), rfl⟩
  · have hlink : linkHere s.dev = true := (linkHere_iff s.dev).mpr ⟨hrails, hup⟩
    refine ⟨completes_sends _ (exec_hostSnoop hlink off), completes_sends _ (exec_globalPersistentFlush hlink), fun n hn => ?_, fun n => ?_⟩
    · obtain ⟨next, hexec⟩ := exec_cdatTableAccess hlink hn
      exact ⟨_, hexec, natLe 2 0 ++ natLe 2 next, by simp, rfl⟩
    · obtain ⟨v, t, next, hexec⟩ := exec_doeDiscovery hlink n
      exact ⟨_, hexec, natLe 2 v ++ natLe 1 t ++ natLe 1 next, by simp, rfl⟩

end Sys2Proof.Machine
end

section
/-! PROOF. Reads of host memory, and Bus Master Enable (17 R616 to R618, R652). -/

namespace Sys2Proof.Machine

/-! ### Issuing reads -/

/-- Where every range has been asked for whole, no read is issued. -/
theorem pumpReads_none {d : Dev} (h : ∀ w ∈ d.host.reads, w.len + w.addr % 64 ≤ w.next) (n : Nat) : pumpReads n d = d := by
  have hnone : d.host.reads.find? (fun w => decide (w.next < w.len + w.addr % 64)) = none :=
    List.find?_eq_none.mpr fun w hw => by simpa using h w hw
  cases n with
  | zero => rfl
  | succ n =>
    rw [pumpReads, hnone]
    exact ite_self d

/-- The device once the only range, which is one line, has been asked for. -/
def lineAsked (d : Dev) (w : HostWant) : Dev :=
  emit { d with host := { d.host with reads := [{ w with next := 64 }], inFlight := [(w.addr, w.use)] } } (.readReq w.addr)

/-- A range of one line, of which nothing has been asked for, is asked for by one read. -/
theorem pumpReads_line {d : Dev} {w : HostWant} (hbme : d.host.bme = true) (hflight : d.host.inFlight = []) (hreads : d.host.reads = [w])
    (hnext : w.next = 0) (hlen : w.len = 64) (halign : w.addr % 64 = 0) (n : Nat) : pumpReads (n + 1) d = lineAsked d w := by
  have haddr : w.addr / 64 * 64 + w.next = w.addr := by omega
  have hfind : d.host.reads.find? (fun w => decide (w.next < w.len + w.addr % 64)) = some w := by
    rw [hreads]
    exact List.find?_cons_of_pos (decide_eq_true (by omega))
  have hmap : d.host.reads.map (fun x => if x = w then { x with next := x.next + 64 } else x) = [{ w with next := 64 }] := by
    rw [hreads, List.map_singleton, if_pos rfl, hnext]
  rw [pumpReads, hbme, hfind, hflight]
  simp only [List.length_nil, Nat.zero_lt_succ, decide_true, Bool.and_self, if_true, haddr, hmap, List.nil_append]
  refine pumpReads_none (fun v hv => ?_) n
  obtain rfl := List.mem_singleton.mp hv
  exact Nat.le_of_eq (by rw [hlen, halign])

/-! ### A line that returns -/

section
variable {d : Dev} {addr : Nat} {w : HostWant} (hflight : d.host.inFlight = [(addr, w.use)]) (hreads : d.host.reads = [w])
include hflight

theorem takeLine_only : takeLine d addr = some (w.use, setHost d fun h => { h with inFlight := [] }) := by
  simp [takeLine, hflight, setHost]

omit hflight
include hreads

theorem wantFor_only (hlow : w.addr / 64 * 64 ≤ addr) (hhigh : addr < w.addr + w.len) :
    wantFor (setHost d fun h => { h with inFlight := [] }) w.use addr = some w := by
  rw [wantFor, setHost_host, hreads]
  exact List.find?_cons_of_pos (by simp [hlow, hhigh])

end

/-- Byte i of a returned line is stored where a range asks for it. -/
def putLineByte (w : HostWant) (addr : Nat) (data : List Byte) (m : Mem) (i : Nat) : Mem :=
  if w.addr ≤ addr + i ∧ addr + i < w.addr + w.len then memSet m (addr + i - w.addr) (nth 0#8 data i) else m

theorem memByte_putLineByte (w : HostWant) (addr : Nat) (data : List Byte) (m : Mem) (i j : Nat) : memByte (putLineByte w addr data m i) j =
    if w.addr + j = addr + i ∧ j < w.len then nth 0#8 data i else memByte m j := by
  unfold putLineByte
  by_cases hin : w.addr ≤ addr + i ∧ addr + i < w.addr + w.len
  · rw [if_pos hin]
    by_cases hj : j = addr + i - w.addr
    · rw [if_pos (by omega), hj, memByte_memSet_same]
    · rw [if_neg (by omega), memByte_memSet_ne _ _ hj]
  · rw [if_neg hin, if_neg (by omega)]

theorem memByte_foldl_putLineByte (w : HostWant) (addr : Nat) (data : List Byte) (n i j : Nat) (m : Mem) :
    memByte ((span i n).foldl (putLineByte w addr data) m) j =
      if addr + i ≤ w.addr + j ∧ w.addr + j < addr + i + n ∧ j < w.len then nth 0#8 data (w.addr + j - addr) else memByte m j := by
  induction n generalizing i m with
  | zero => exact (if_neg (by omega)).symm
  | succ n ih =>
    refine (ih (i + 1) _).trans ?_
    rw [memByte_putLineByte]
    by_cases hj : w.addr + j = addr + i ∧ j < w.len
    · rw [if_neg (by omega), if_pos hj, if_pos (by omega), show w.addr + j - addr = i by omega]
    · rw [if_neg hj]
      exact if_congr (by omega) rfl rfl

theorem memByte_storeLine (w : HostWant) (addr : Nat) (data : List Byte) (j : Nat) : memByte (storeLine w addr data).got j =
    if addr ≤ w.addr + j ∧ w.addr + j < addr + 64 ∧ j < w.len then nth 0#8 data (w.addr + j - addr) else memByte w.got j :=
  memByte_foldl_putLineByte w addr data 64 0 j w.got

/-- The only line in flight returns to the only range, which has been asked for whole. -/
theorem gotLine_only {d : Dev} {addr : Nat} {w : HostWant} (hflight : d.host.inFlight = [(addr, w.use)]) (hreads : d.host.reads = [w])
    (hlow : w.addr / 64 * 64 ≤ addr) (hhigh : addr < w.addr + w.len) (hasked : w.len + w.addr % 64 ≤ w.next) (data : List Byte) :
    gotLine addr data d = { d with host := { d.host with inFlight := [], reads := [storeLine w addr data] } } := by
  have hmap : d.host.reads.map (fun x => if x = w then storeLine w addr data else x) = [storeLine w addr data] := by
    rw [hreads, List.map_singleton, if_pos rfl]
  unfold gotLine
  rw [takeLine_only hflight]
  dsimp only
  rw [wantFor_only hreads hlow hhigh]
  dsimp only [setHost]
  rw [hmap]
  refine pumpReads_none (fun v hv => ?_) 4096
  obtain rfl := List.mem_singleton.mp hv
  exact hasked

/-! ### A line that fails -/

/-- Releasing what a command has reserved leaves the host attachment, and every command but for what it has reserved. -/
theorem undoReserve_find {d : Dev} {cid : Nat} {c : Cmd} (hc : smFind d.cmds cid = some c) : (undoReserve d cid).host = d.host ∧
    smFind (undoReserve d cid).cmds cid = some { c with frames := [], pool := [], charged := 0 } := by
  rw [undoReserve, hc]
  refine ⟨foldl_keep Dev.host freeFrame (fun _ _ => rfl) c.frames d, ?_⟩
  rw [modCmd_cmds, smFind_smUpd_same]
  exact congrArg (Option.map _) ((congrArg (smFind · cid) (freeFrames_cmds d c.frames)).trans hc)

/-- The only line in flight fails: the only range is dropped, and its command ends with the address of the line. -/
theorem lineError_only {d : Dev} {addr cid : Nat} {w : HostWant} {c : Cmd} (hflight : d.host.inFlight = [(addr, w.use)])
    (hreads : d.host.reads = [w]) (hlow : w.addr / 64 * 64 ≤ addr) (hhigh : addr < w.addr + w.len) (huse : w.use = .cmd cid)
    (hc : smFind d.cmds cid = some c) (hfin : c.fin = none) (hop : opcodeC c ≠ 0x0501) : ∃ e, lineError addr d = e ∧
      e.host = { d.host with inFlight := [], reads := [] } ∧
      ∀ s : State, finOf { s with dev := e } cid = some (0x00F0#16, 0x0007#16, resultOf [(0x18, 8, addr)]) := by
  let taken := modCmd (dropWant (setHost d fun h => { h with inFlight := [] }) w.use) cid fun c => { c with hostErr := true, errAddr := addr }
  have htaken : smFind taken.cmds cid = some { c with hostErr := true, errAddr := addr } := (smFind_smUpd_same ..).trans (congrArg _ hc)
  have hdropped : taken.host = { d.host with inFlight := [], reads := [] } := by
    simp [taken, dropWant, setHost, hreads]
  have hfail : failUse (setHost d fun h => { h with inFlight := [] }) w.use addr =
      finishCmd (undoReserve taken cid) cid stDeviceFault 0x0007 [(0x18, 8, addr)] none := by
    simp only [failUse, taken, huse, setHost_cmds, hc, if_neg hop]
  obtain ⟨hhost, hfind⟩ := undoReserve_find htaken
  refine ⟨finishCmd (undoReserve taken cid) cid stDeviceFault 0x0007 [(0x18, 8, addr)] none, ?_, hhost.trans hdropped, fun s => ?_⟩
  · unfold lineError
    rw [takeLine_only hflight]
    dsimp only
    rw [wantFor_only hreads hlow hhigh, Option.isSome_some, if_pos rfl, hfail]
    refine pumpReads_none (fun v hv => ?_) 4096
    rw [finishCmd_host, hhost, hdropped] at hv
    cases hv
  · exact finOf_finishCmd _ _ _ _ hfind hfin

/-! ### Bus Master Enable -/

/-- A command whose wait for Bus Master Enable is over. -/
def waitOver (d : Dev) (c : Cmd) : Cmd := { c with bmeFrom := none, bmeFor := bmeWaited d c }

/-- The device with Bus Master Enable set, before a read is issued. -/
def masterOn (d : Dev) : Dev :=
  { d with cmds := d.cmds.map (fun p => (p.1, waitOver d p.2)), host := { d.host with bme := true } }

theorem setBme_off {d : Dev} (hlink : linkHere d = true) (hbme : d.host.bme = false) : setBme d =
    settleEnds (((pumpReads 4096 (masterOn d)).queues.map (·.1)).foldl drainQueue (pumpReads 4096 (masterOn d))) := by
  unfold setBme
  rw [hlink, hbme]
  exact if_neg Bool.false_ne_true

theorem foldl_drainQueue_none {d : Dev} (hqueues : d.queues = []) : (d.queues.map (·.1)).foldl drainQueue d = d := by
  rw [hqueues]
  rfl

/-- Setting Bus Master Enable asks for the only range, which is one line, and ends the commands' wait. -/
theorem setBme_line {d : Dev} {w : HostWant} (hlink : linkHere d = true) (hbme : d.host.bme = false) (hflight : d.host.inFlight = [])
    (hreads : d.host.reads = [w]) (hnext : w.next = 0) (hlen : w.len = 64) (halign : w.addr % 64 = 0) (hqueues : d.queues = []) :
    setBme d = settleEnds (lineAsked (masterOn d) w) := by
  have hpump := pumpReads_line (d := masterOn d) rfl hflight hreads hnext hlen halign 4095
  rw [setBme_off hlink hbme, hpump]
  exact congrArg settleEnds (foldl_drainQueue_none hqueues)

/-- The commands once some of them have begun to wait for Bus Master Enable. -/
theorem smFind_foldl_stallBme (l : List Nat) (d : Dev) (k : Nat) : smFind (l.foldl stallBme d).cmds k = if k ∈ l then
    (smFind d.cmds k).map (fun c => { c with bmeStall := true, bmeFrom := some (c.bmeFrom.getD d.now) }) else smFind d.cmds k := by
  induction l generalizing d with
  | nil => rfl
  | cons a l ih =>
    rw [List.foldl_cons, ih, stallBme_now, stallBme, modCmd_cmds]
    by_cases hk : k = a
    · subst hk
      rw [smFind_smUpd_same, if_pos List.mem_cons_self]
      cases smFind d.cmds k <;> simp
    · rw [smFind_smUpd_ne _ _ hk]
      exact if_congr (by simp [hk]) rfl rfl

theorem foldl_stallBme_frame (l : List Nat) (d : Dev) : ∃ cmds, l.foldl stallBme d = { d with cmds := cmds } := by
  refine List.foldlRecOn (motive := fun e : Dev => ∃ cmds, e = { d with cmds := cmds }) l _ ⟨d.cmds, rfl⟩ ?_
  rintro _ ⟨cmds, rfl⟩ k -
  exact ⟨_, rfl⟩

/-- Settles O49: the line that is taken, the range that wanted it, and the reads that are issued then. -/
theorem readsOfHostMemoryReturnOrFail : Obligations.ReadsOfHostMemoryReturnOrFail := by
  refine fun s addr w => ⟨fun data hlen hflight hreads hlow hhigh hasked => ?_, fun cid c huse hflight hreads hlow hhigh hc hfin hop => ?_,
    fun hrails hlink hbme hflight hreads hnext hlen halign hqueues => ?_, ?_⟩
  · have hexec : exec (.hostReadComplete addr data) s = .next { s with dev := gotLine addr data s.dev } := if_pos hlen
    rw [gotLine_only hflight hreads hlow hhigh hasked data] at hexec
    exact ⟨_, hexec, rfl, _, rfl, rfl, memByte_storeLine w addr data⟩
  · obtain ⟨e, herror, hhost, hrecord⟩ := lineError_only hflight hreads hlow hhigh huse hc hfin hop
    exact ⟨_, next_dev s herror, hhost, hrecord s⟩
  · have hset := setBme_line ((linkHere_iff s.dev).mpr ⟨hrails, hlink⟩) hbme hflight hreads hnext hlen halign hqueues
    exact ⟨_, next_dev s hset, { s with dev := lineAsked (masterOn s.dev) w }, rfl, rfl,
      smFind_map (waitOver s.dev) s.dev.cmds⟩
  · obtain ⟨cmds, hframe⟩ := foldl_stallBme_frame (stalledCmds s.dev) (setHost s.dev fun h => { h with bme := false })
    refine ⟨_, rfl, ?_, smFind_foldl_stallBme (stalledCmds s.dev) (setHost s.dev fun h => { h with bme := false })⟩
    dsimp only
    rw [hframe]
    rfl

end Sys2Proof.Machine
end

section
/-! PROOF. The SPDM responder (16 R598, R599; 17 R620). -/

namespace Sys2Proof.Machine

section Spdm
variable {s : State} {i : Instr} {need code : Nat} {f : Dev → Dev} {P : State → Prop}

/-- d' differs from d in the responder's state and in the count of random draws only. -/
def BesideSpdm (d d' : Dev) : Prop := d' = { d with spdm := d'.spdm, freeCtr := d'.freeCtr }

/-- The four bytes that begin a response. -/
def spdmHead (code p1 p2 : Nat) : List Byte :=
  (if code = 4 then [0x10#8] else [0x12#8]) ++ natLe 1 code ++ natLe 1 p1 ++ natLe 1 p2

theorem spdmHead_length (code p1 p2 : Nat) : (spdmHead code p1 p2).length = 4 := by
  unfold spdmHead
  split <;> rfl

theorem spdmSay_out (d : Dev) (msg : List Byte) (code p1 p2 : Nat) (body : List Byte) :
    (spdmSay d msg code p1 p2 body).out = .spdm code (spdmHead code p1 p2 ++ body) :: d.out := rfl

/-- A response whose body ends with b ends with b. -/
theorem spdmSay_out_append (d : Dev) (msg : List Byte) (code p1 p2 : Nat) (h b : List Byte) :
    ∃ h', (spdmSay d msg code p1 p2 (h ++ b)).out = .spdm code (h' ++ b) :: d.out ∧ h'.length = 4 + h.length :=
  ⟨spdmHead code p1 p2 ++ h, by rw [spdmSay_out, List.append_assoc], by rw [List.length_append, spdmHead_length]⟩

/-- An answer after a change of the responder's state says its code and leaves the rest of the part. -/
theorem says_spdmSay {d' : Dev} (h : BesideSpdm s.dev d') (msg : List Byte) (code p1 p2 : Nat) (body : List Byte) :
    Says s { s with dev := spdmSay d' msg code p1 p2 body } code := by
  unfold BesideSpdm at h
  rw [h]
  exact ⟨rfl, _, rfl⟩

theorem BesideSpdm.self (d : Dev) : BesideSpdm d d := rfl

theorem besideSpdm_freeBytes (d : Dev) (n : Nat) : BesideSpdm d (freeBytes d n).2 := rfl

theorem BesideSpdm.trans {d d' d'' : Dev} (h : BesideSpdm d d') (h' : BesideSpdm d' d'') : BesideSpdm d d'' := by
  unfold BesideSpdm at *
  rw [h] at h'
  exact h'

theorem BesideSpdm.setSpdm {d d' : Dev} (h : BesideSpdm d d') (g : Spdm → Spdm) : BesideSpdm d (setSpdm d' g) :=
  h.trans rfl

theorem BesideSpdm.freeBytes {d d' : Dev} (h : BesideSpdm d d') (n : Nat) : BesideSpdm d (freeBytes d' n).2 :=
  h.trans (besideSpdm_freeBytes d' n)

/-- The measurement summary draws random bytes at most. -/
theorem summaryHash_draws (nv : NonVol) (d : Dev) (kind : Nat) :
    ∃ k, (summaryHash nv d kind).2 = { d with freeCtr := k } := by
  unfold summaryHash
  split
  · exact ⟨_, rfl⟩
  · split
    · exact ⟨_, rfl⟩
    · exact ⟨_, rfl⟩

theorem summaryHash_spdm (nv : NonVol) (d : Dev) (kind : Nat) : (summaryHash nv d kind).2.spdm = d.spdm := by
  obtain ⟨k, hk⟩ := summaryHash_draws nv d kind
  rw [hk]

theorem BesideSpdm.summaryHash {d d' : Dev} (h : BesideSpdm d d') (nv : NonVol) (kind : Nat) :
    BesideSpdm d (summaryHash nv d' kind).2 := by
  refine h.trans ?_
  obtain ⟨k, hk⟩ := summaryHash_draws nv d' kind
  rw [hk]
  exact rfl

/-- A request at or after its stage is answered by its row. -/
theorem completes_onSpdm (hx : exec i s = onSpdm need s f) (hl : linkHere s.dev = true) (hs : need ≤ s.dev.spdm.stage)
    (hP : P { s with dev := f s.dev }) : Completes i s P := by
  refine ⟨_, hx.trans ?_, hP⟩
  simp only [onSpdm, onDev, hl, Bool.not_true, Bool.false_eq_true, if_false, Nat.not_lt.2 hs]

/-- What an ERROR response leaves. -/
def Refused (s : State) (err data : Nat) (t : State) : Prop := t = { s with dev := spdmError s.dev err data }

/-- A request before its stage is unexpected. -/
theorem completes_onSpdm_early (hx : exec i s = onSpdm need s f) (hl : linkHere s.dev = true) (hs : s.dev.spdm.stage < need) :
    Completes i s (Refused s 0x04 0) := by
  refine ⟨_, hx.trans ?_, rfl⟩
  simp only [onSpdm, onDev, hl, Bool.not_true, Bool.false_eq_true, if_false, if_pos hs, spUnexpected]

/-- A request whose row finds a fault in it is answered with ERROR. -/
theorem completes_onSpdm_error {err data : Nat} (hx : exec i s = onSpdm need s f) (hl : linkHere s.dev = true)
    (hs : need ≤ s.dev.spdm.stage) (hf : f s.dev = spdmError s.dev err data) : Completes i s (Refused s err data) :=
  completes_onSpdm hx hl hs (by rw [hf]; rfl)

/-- A request of the session is answered by its row while the session stands. -/
theorem completes_inSession (hx : exec i s = inSession s f) (hl : linkHere s.dev = true) (hs : 3 ≤ s.dev.spdm.stage)
    (he : s.dev.spdm.established = true) (hP : P { s with dev := f s.dev }) : Completes i s P :=
  completes_onSpdm hx hl hs (by rw [if_pos he]; exact hP)

theorem completes_inSession_early (hx : exec i s = inSession s f) (hl : linkHere s.dev = true) (hs : s.dev.spdm.stage < 3) :
    Completes i s (Refused s 0x04 0) :=
  completes_onSpdm_early hx hl hs

/-- Without a session its requests are unexpected, at every stage. -/
theorem completes_inSession_without (hx : exec i s = inSession s f) (hl : linkHere s.dev = true)
    (he : s.dev.spdm.established = false) : Completes i s (Refused s 0x04 0) := by
  by_cases hs : s.dev.spdm.stage < 3
  · exact completes_onSpdm_early hx hl hs
  · exact completes_onSpdm_error hx hl (Nat.not_lt.1 hs) (by rw [if_neg (by rw [he]; exact Bool.false_ne_true)]; rfl)

end Spdm

section Rows
variable {s : State} {msg : List Byte} (hl : linkHere s.dev = true)
include hl

/-! The connection. -/

theorem getVersion_answered : Completes (.getVersion msg) s (fun t => Says s t 0x04 ∧ t.dev.spdm.stage = 1) := by
  refine completes_onSpdm (Eq.refl (execGetVersion msg s)) hl (Nat.zero_le _) ?_
  exact ⟨says_spdmSay (.setSpdm (.self _) _) .., rfl⟩

theorem getCapabilities_answered (hs : 1 ≤ s.dev.spdm.stage) :
    Completes (.getCapabilities msg) s (fun t => Says s t 0x61 ∧ t.dev.spdm.stage = max s.dev.spdm.stage 2) := by
  refine completes_onSpdm (Eq.refl (execGetCapabilities msg s)) hl hs ?_
  exact ⟨says_spdmSay (.setSpdm (besideSpdm_freeBytes _ 9) _) .., rfl⟩

theorem negotiateAlgorithms_answered (hs : 2 ≤ s.dev.spdm.stage) :
    Completes (.negotiateAlgorithms msg) s (fun t => Says s t 0x63 ∧ t.dev.spdm.stage = 3) := by
  refine completes_onSpdm (Eq.refl (execNegotiateAlgorithms msg s)) hl hs ?_
  exact ⟨says_spdmSay (.setSpdm (.self _) _) .., rfl⟩

/-! The certificates, the challenge and the measurements. -/

theorem getDigests_answered (hs : 3 ≤ s.dev.spdm.stage) :
    Completes (.getDigests msg) s (fun t => Says s t 0x01 ∧
      ∃ h, t.dev.out = .spdm 0x01 (h ++ sha256 (spdmChain s.nv)) :: s.dev.out ∧ h.length = 4) := by
  refine completes_onSpdm (Eq.refl (execGetDigests msg s)) hl hs ?_
  exact ⟨says_spdmSay (.self _) .., spdmHead 1 0 1, spdmSay_out .., spdmHead_length ..⟩

theorem getCertificate_answered (hs : 3 ≤ s.dev.spdm.stage) (h0 : field msg 2 1 = 0)
    (ho : field msg 4 2 < (spdmChain s.nv).length) :
    Completes (.getCertificate msg) s (fun t => Says s t 0x02 ∧
      ∃ h, t.dev.out = .spdm 0x02 (h ++ ((spdmChain s.nv).drop (field msg 4 2)).take (field msg 6 2)) :: s.dev.out ∧
        h.length = 8) := by
  refine completes_onSpdm (Eq.refl (execGetCertificate msg s)) hl hs ?_
  have hgood : ¬(field msg 2 1 ≠ 0 ∨ (spdmChain s.nv).length ≤ field msg 4 2) := by omega
  rw [if_neg hgood]
  exact ⟨says_spdmSay (.self _) .., spdmSay_out_append ..⟩

theorem challenge_answered (hs : 3 ≤ s.dev.spdm.stage) (h0 : field msg 2 1 = 0) :
    Completes (.challenge msg) s (fun t => Says s t 0x03) := by
  refine completes_onSpdm (Eq.refl (execChallenge msg s)) hl hs ?_
  rw [if_neg (not_not.2 h0)]
  exact says_spdmSay (.freeBytes (.summaryHash (besideSpdm_freeBytes _ 32) ..) 64) ..

theorem getMeasurements_answered (hs : 3 ≤ s.dev.spdm.stage) (hop : field msg 3 1 ≤ 6 ∨ field msg 3 1 = 0xFF) :
    Completes (.getMeasurements msg) s (fun t => Says s t 0x60) := by
  refine completes_onSpdm (Eq.refl (execGetMeasurements msg s)) hl hs ?_
  have hgood : ¬(field msg 3 1 ≠ 0 ∧ field msg 3 1 ≠ 0xFF ∧ 6 < field msg 3 1) := by omega
  rw [if_neg hgood]
  refine says_spdmSay ?_ ..
  cases bit (field msg 2 1) 0
  · exact besideSpdm_freeBytes _ 32
  · exact .freeBytes (besideSpdm_freeBytes _ 32) 64

/-! The session. -/

theorem keyExchange_answered (hs : 3 ≤ s.dev.spdm.stage) (he : s.dev.spdm.established = false) :
    Completes (.keyExchange msg) s (fun t => Says s t 0x64 ∧ t.dev.spdm.session.isSome = true ∧
      t.dev.spdm.established = false ∧ t.dev.spdm.keyGen = 0 ∧ t.dev.spdm.nextSession = s.dev.spdm.nextSession + 1) := by
  refine completes_onSpdm (Eq.refl (execKeyExchange msg s)) hl hs ?_
  rw [if_neg (by rw [he]; exact Bool.false_ne_true)]
  refine ⟨says_spdmSay (.setSpdm (.freeBytes (.summaryHash (besideSpdm_freeBytes _ 96) ..) 96) _) .., rfl, ?_, rfl, rfl⟩
  exact (congrArg Spdm.established (summaryHash_spdm ..)).trans he

theorem finish_answered (hs : 3 ≤ s.dev.spdm.stage) (hk : s.dev.spdm.session.isSome = true)
    (he : s.dev.spdm.established = false) :
    Completes (.finish msg) s (fun t => Says s t 0x65 ∧ t.dev.spdm.established = true ∧
      t.dev.spdm.session = s.dev.spdm.session) := by
  refine completes_onSpdm (Eq.refl (execFinish msg s)) hl hs ?_
  rw [if_pos (by rw [hk, he]; rfl)]
  exact ⟨says_spdmSay (.setSpdm (.self _) _) .., rfl, rfl⟩

theorem keyUpdate_answered (hs : 3 ≤ s.dev.spdm.stage) (he : s.dev.spdm.established = true) (h1 : 1 ≤ field msg 2 1)
    (h3 : field msg 2 1 ≤ 3) :
    Completes (.keyUpdate msg) s (fun t => Says s t 0x69 ∧
      t.dev.spdm.keyGen = if field msg 2 1 = 3 then s.dev.spdm.keyGen else s.dev.spdm.keyGen + 1) := by
  refine completes_inSession (Eq.refl (execKeyUpdate msg s)) hl hs he ?_
  have hgood : ¬(field msg 2 1 = 0 ∨ 3 < field msg 2 1) := by omega
  rw [if_neg hgood]
  refine ⟨says_spdmSay (.setSpdm (.self _) _) .., ?_⟩
  by_cases hop : field msg 2 1 = 3
  · rw [if_pos hop, if_pos hop]
    rfl
  · rw [if_neg hop, if_neg hop]
    rfl

theorem endSession_answered (hs : 3 ≤ s.dev.spdm.stage) (he : s.dev.spdm.established = true) :
    Completes (.endSession msg) s (fun t => Says s t 0x6C ∧ t.dev.spdm.session = none ∧ t.dev.spdm.established = false) := by
  refine completes_inSession (Eq.refl (execEndSession msg s)) hl hs he ?_
  exact ⟨says_spdmSay (.setSpdm (.self _) _) .., rfl, rfl⟩

/-! IDE's keys. -/

theorem ideQuery_answered (hs : 3 ≤ s.dev.spdm.stage) (he : s.dev.spdm.established = true) (ho : field msg 12 1 = 0) :
    Completes (.ideKmRequest msg) s (fun t => Says s t 0x7E ∧ t.dev.spdm.ideMem = s.dev.spdm.ideMem ∧
      t.dev.spdm.ideIo = s.dev.spdm.ideIo) := by
  refine completes_inSession (Eq.refl (execIdeKmRequest msg s)) hl hs he ?_
  simp only [ideKm, ho]
  exact ⟨says_spdmSay (.self _) .., rfl, rfl⟩

theorem ideKeyProg_answered (hs : 3 ≤ s.dev.spdm.stage) (he : s.dev.spdm.established = true) (ho : field msg 12 1 = 2) :
    Completes (.ideKmRequest msg) s (fun t => Says s t 0x7E ∧
      (field msg 7 2 = 0x1E98 → t.dev.spdm.ideMem = true ∧ t.dev.spdm.ideIo = s.dev.spdm.ideIo) ∧
      (field msg 7 2 ≠ 0x1E98 → t.dev.spdm.ideIo = true ∧ t.dev.spdm.ideMem = s.dev.spdm.ideMem)) := by
  refine completes_inSession (Eq.refl (execIdeKmRequest msg s)) hl hs he ?_
  simp only [ideKm, ho]
  refine ⟨says_spdmSay (.setSpdm (.self _) _) .., fun hc => ?_, fun hc => ?_⟩
  · simp only [setSpdm, if_pos hc]
    exact ⟨rfl, rfl⟩
  · simp only [setSpdm, if_neg hc]
    exact ⟨rfl, rfl⟩

/-- IDE goes once both streams have a key, and stops. -/
theorem ideGoStop_answered (hs : 3 ≤ s.dev.spdm.stage) (he : s.dev.spdm.established = true)
    (ho : field msg 12 1 = 4 ∨ field msg 12 1 = 5) :
    Completes (.ideKmRequest msg) s (fun t => ∃ body : List Byte,
        t = { s with dev := { s.dev with spdm := t.dev.spdm, host := t.dev.host, out := .spdm 0x7E body :: s.dev.out } } ∧
        t.dev.host = { s.dev.host with
          ide := if field msg 12 1 = 5 then false
            else if s.dev.spdm.ideMem = true ∧ s.dev.spdm.ideIo = true then true else s.dev.host.ide }) := by
  refine completes_inSession (Eq.refl (execIdeKmRequest msg s)) hl hs he ?_
  rcases ho with ho | ho
  · simp only [ideKm, ho, Bool.and_eq_true]
    refine ⟨spdmHead 0x7E 0 0 ++ (slice msg 4 5 ++ natLe 2 2 ++ natLe 1 (field msg 11 1) ++ natLe 1 6), ?_⟩
    by_cases hk : s.dev.spdm.ideMem = true ∧ s.dev.spdm.ideIo = true
    · rw [if_pos hk]
      exact ⟨rfl, by rw [if_pos hk]; rfl⟩
    · rw [if_neg hk]
      exact ⟨rfl, by rw [if_neg hk]; rfl⟩
  · simp only [ideKm, ho]
    exact ⟨spdmHead 0x7E 0 0 ++ (slice msg 4 5 ++ natLe 2 2 ++ natLe 1 (field msg 11 1) ++ natLe 1 6), rfl, rfl⟩

/-! Requests that are out of place or name what is not there. -/

theorem getCapabilities_early (hs : s.dev.spdm.stage < 1) : Completes (.getCapabilities msg) s (Refused s 0x04 0) :=
  completes_onSpdm_early (Eq.refl (execGetCapabilities msg s)) hl hs

theorem negotiateAlgorithms_early (hs : s.dev.spdm.stage < 2) : Completes (.negotiateAlgorithms msg) s (Refused s 0x04 0) :=
  completes_onSpdm_early (Eq.refl (execNegotiateAlgorithms msg s)) hl hs

theorem session_rows_early (hs : s.dev.spdm.stage < 3) :
    ∀ row ∈ [Instr.getDigests msg, .getCertificate msg, .challenge msg, .getMeasurements msg, .keyExchange msg, .finish msg,
      .keyUpdate msg, .endSession msg, .ideKmRequest msg], Completes row s (Refused s 0x04 0) := by
  simp only [List.forall_mem_cons]
  exact ⟨completes_onSpdm_early (Eq.refl (execGetDigests msg s)) hl hs,
    completes_onSpdm_early (Eq.refl (execGetCertificate msg s)) hl hs,
    completes_onSpdm_early (Eq.refl (execChallenge msg s)) hl hs,
    completes_onSpdm_early (Eq.refl (execGetMeasurements msg s)) hl hs,
    completes_onSpdm_early (Eq.refl (execKeyExchange msg s)) hl hs,
    completes_onSpdm_early (Eq.refl (execFinish msg s)) hl hs,
    completes_inSession_early (Eq.refl (execKeyUpdate msg s)) hl hs,
    completes_inSession_early (Eq.refl (execEndSession msg s)) hl hs,
    completes_inSession_early (Eq.refl (execIdeKmRequest msg s)) hl hs,
    fun _ h => absurd h List.not_mem_nil⟩

theorem session_rows_without (he : s.dev.spdm.established = false) :
    ∀ row ∈ [Instr.keyUpdate msg, .endSession msg, .ideKmRequest msg], Completes row s (Refused s 0x04 0) := by
  simp only [List.forall_mem_cons]
  exact ⟨completes_inSession_without (Eq.refl (execKeyUpdate msg s)) hl he,
    completes_inSession_without (Eq.refl (execEndSession msg s)) hl he,
    completes_inSession_without (Eq.refl (execIdeKmRequest msg s)) hl he,
    fun _ h => absurd h List.not_mem_nil⟩

theorem finish_unexpected (hs : 3 ≤ s.dev.spdm.stage) (h : s.dev.spdm.session = none ∨ s.dev.spdm.established = true) :
    Completes (.finish msg) s (Refused s 0x04 0) := by
  refine completes_onSpdm_error (Eq.refl (execFinish msg s)) hl hs (if_neg ?_)
  rcases h with h | h
  · rw [h]
    exact Bool.false_ne_true
  · rw [h, Bool.not_true, Bool.and_false]
    exact Bool.false_ne_true

theorem keyExchange_second (hs : 3 ≤ s.dev.spdm.stage) (he : s.dev.spdm.established = true) :
    Completes (.keyExchange msg) s (Refused s 0x0A 0) :=
  completes_onSpdm_error (Eq.refl (execKeyExchange msg s)) hl hs (if_pos he)

theorem other_slot_refused (hs : 3 ≤ s.dev.spdm.stage) (h0 : ¬ field msg 2 1 = 0) :
    ∀ row ∈ [Instr.getCertificate msg, .challenge msg], Completes row s (Refused s 0x01 0) := by
  simp only [List.forall_mem_cons]
  exact ⟨completes_onSpdm_error (Eq.refl (execGetCertificate msg s)) hl hs (if_pos (.inl h0)),
    completes_onSpdm_error (Eq.refl (execChallenge msg s)) hl hs (if_pos h0),
    fun _ h => absurd h List.not_mem_nil⟩

theorem spdmUnsupported_refused : Completes (.spdmUnsupportedRequest msg) s (Refused s 0x07 (field msg 1 1)) :=
  ⟨_, next_dev s (if_pos hl), rfl⟩

end Rows

/-- An ERROR response is said with code 0x7F. -/
theorem says_refused {s t : State} {err data : Nat} (h : Refused s err data t) : Says s t 0x7F := by
  unfold Refused at h
  subst h
  exact ⟨rfl, _, rfl⟩

/-- Settles O50: each request is answered by its row once the connection is at the stage that the row needs, and by ERROR
otherwise. The codes and the layouts of the messages are those that the model presumes (log 42). -/
theorem spdmRequestsAreAnswered : Obligations.SpdmRequestsAreAnswered := by
  unfold Obligations.SpdmRequestsAreAnswered
  intro s msg hrails hlink
  have hl : linkHere s.dev = true := (linkHere_iff s.dev).2 ⟨hrails, hlink⟩
  exact ⟨getVersion_answered hl, getCapabilities_answered hl, negotiateAlgorithms_answered hl, getDigests_answered hl,
    getCertificate_answered hl, challenge_answered hl, getMeasurements_answered hl, keyExchange_answered hl, finish_answered hl,
    fun hs he => ⟨keyUpdate_answered hl hs he, endSession_answered hl hs he, ideQuery_answered hl hs he,
      ideKeyProg_answered hl hs he, ideGoStop_answered hl hs he⟩,
    getCapabilities_early hl, negotiateAlgorithms_early hl, session_rows_early hl, session_rows_without hl,
    finish_unexpected hl, keyExchange_second hl, other_slot_refused hl,
    (spdmUnsupported_refused hl).imp fun _ h => ⟨says_refused h, h⟩⟩

end Sys2Proof.Machine
end

section
/-! PROOF. Tally: updates, freezing, thawing and reading (15 R555 to R558, R561, R563 to R568). -/

namespace Sys2Proof.Machine

/-! ### One update -/

/-- Saturation at the greatest number of 64 bits (R556). -/
theorem satAdd_fst (a b : Nat) : (satAdd a b).1 = min (a + b) (2 ^ 64 - 1) := by
  unfold satAdd
  split
  · next h => exact (Nat.min_eq_right (Nat.le_of_lt h)).symm
  · next h => exact (Nat.min_eq_left (Nat.not_lt.1 h)).symm

/-- An update counts once in STORE_SEQ and APPLIED, and touches records otherwise (R558). -/
theorem applyUpd_frame (t : Tally) (u : TUpd) :
    applyUpd t u = { t with storeSeq := t.storeSeq + 1, applied := min (t.applied + 1) (2 ^ 64 - 1), recs := (applyUpd t u).recs } := by
  rw [← satAdd_fst]
  cases u <;> rfl

theorem applyUpd_count_recs (t : Tally) (q i n m src w k : Nat) :
    smGet {} (applyUpd t (.count q i n m src w)).recs k =
      if k = recKey q i then recCount (smGet {} t.recs k) (t.storeSeq + 1) n m else smGet {} t.recs k := by
  have hrecs : (applyUpd t (.count q i n m src w)).recs = smMod {} t.recs (recKey q i) fun r => recCount r (t.storeSeq + 1) n m := rfl
  rw [hrecs, smGet_smMod]
  split
  · next h => rw [h]
  · rfl

theorem applyUpd_value_recs (t : Tally) (q i v : Nat) (tag : Word) (k : Nat) :
    smGet {} (applyUpd t (.value q i v tag)).recs k =
      if k = recKey q i then recValue (smGet {} t.recs k) (t.storeSeq + 1) (kindOfQ q) v tag (edgesOf t q) else smGet {} t.recs k := by
  have hrecs : (applyUpd t (.value q i v tag)).recs =
      smMod {} t.recs (recKey q i) fun r => recValue r (t.storeSeq + 1) (kindOfQ q) v tag (edgesOf t q) := rfl
  rw [hrecs, smGet_smMod]
  split
  · next h => rw [h]
  · rfl

/-- A record after a COUNT update (R556). -/
theorem recCount_eq (r : TRec) (seq : Word) (n m : Nat) : recCount r seq n m = { r with
    seq := seq, count := min (r.count + n) (2 ^ 64 - 1), sum := min (r.sum + m) (2 ^ 64 - 1), rflags := (recCount r seq n m).rflags } := by
  rw [← satAdd_fst, ← satAdd_fst]
  rfl

theorem recCount_min (r : TRec) (seq : Word) (n m : Nat) : (recCount r seq n m).min = r.min := rfl

theorem recCount_max (r : TRec) (seq : Word) (n m : Nat) : (recCount r seq n m).max = r.max := rfl

/-- A record after a value: COUNT, SUM, the extremes with their tags, and the bin of a HIST quantity (R556, R560). -/
theorem recValue_eq (r : TRec) (seq : Word) (kind v : Nat) (tag : Word) (edges : List Nat) : recValue r seq kind v tag edges = {
    seq := seq
    rflags := (recValue r seq kind v tag edges).rflags
    count := min (r.count + 1) (2 ^ 64 - 1)
    sum := min (r.sum + v) (2 ^ 64 - 1)
    min := if v < r.min.toNat then BitVec.ofNat 32 v else r.min
    minTag := if v < r.min.toNat then tag else r.minTag
    max := if r.max.toNat < v then BitVec.ofNat 32 v else r.max
    maxTag := if r.max.toNat < v then tag else r.maxTag
    bins := if kind = 2 then smPut r.bins (binOf edges v) (min (smGet 0 r.bins (binOf edges v) + 1) (2 ^ 64 - 1)) else r.bins } := by
  rw [← satAdd_fst r.count, ← satAdd_fst r.sum, ← satAdd_fst (smGet 0 r.bins _)]
  by_cases hmin : v < r.min.toNat <;> by_cases hmax : r.max.toNat < v <;> by_cases hk : kind = 2
  all_goals
    simp only [recValue, recCount_min, recCount_max, hmin, hmax, hk, if_true, if_false]
    rfl

/-- The tally once its next update has been taken and applied. -/
def tookUpdate (a : Tally) (u : TUpd) (us : List TUpd) : Tally := applyUpd { a with input := us, taken := a.taken + 1 } u

section Update
variable {s : State} {u : TUpd} {us : List TUpd} (hin : s.dev.tally.input = u :: us)
include hin

theorem tallyUpdate_frozen (hf : s.dev.tally.frozen = true) : exec .tallyUpdate s = .next s := by
  refine next_dev s (d' := s.dev) ?_
  simp only [hin, hf, if_true]

theorem tallyUpdate_took (hf : s.dev.tally.frozen = false) :
    exec .tallyUpdate s = .next { s with dev := { s.dev with tally := tookUpdate s.dev.tally u us } } := by
  refine next_dev s ?_
  beta_reduce
  rw [hin]
  exact if_neg (by rw [hf]; exact Bool.false_ne_true)

end Update

theorem tookUpdate_frame (a : Tally) (u : TUpd) (us : List TUpd) : tookUpdate a u us = { a with
    input := us, storeSeq := a.storeSeq + 1, applied := min (a.applied + 1) (2 ^ 64 - 1), taken := a.taken + 1,
    recs := (tookUpdate a u us).recs } := applyUpd_frame ..

theorem tookUpdate_count (a : Tally) (us : List TUpd) (q i n m src w k : Nat) :
    smGet {} (tookUpdate a (.count q i n m src w) us).recs k =
      if k = recKey q i then recCount (smGet {} a.recs k) (a.storeSeq + 1) n m else smGet {} a.recs k := applyUpd_count_recs ..

theorem tookUpdate_value (a : Tally) (us : List TUpd) (q i v : Nat) (tag : Word) (k : Nat) :
    smGet {} (tookUpdate a (.value q i v tag) us).recs k =
      if k = recKey q i then recValue (smGet {} a.recs k) (a.storeSeq + 1) (kindOfQ q) v tag (edgesOf a q) else smGet {} a.recs k :=
  applyUpd_value_recs ..

/-- The bins of a record after a value. -/
theorem recValue_bins (r : TRec) (seq : Word) (kind v : Nat) (tag : Word) (edges : List Nat) (b : Nat) :
    smGet 0 (recValue r seq kind v tag edges).bins b =
      if kind = 2 ∧ b = binOf edges v then min (smGet 0 r.bins b + 1) (2 ^ 64 - 1) else smGet 0 r.bins b := by
  have hbins : (recValue r seq kind v tag edges).bins =
      if kind = 2 then smPut r.bins (binOf edges v) (min (smGet 0 r.bins (binOf edges v) + 1) (2 ^ 64 - 1)) else r.bins :=
    congrArg TRec.bins (recValue_eq r seq kind v tag edges)
  rw [hbins]
  by_cases hk : kind = 2
  · rw [if_pos hk]
    by_cases hb : b = binOf edges v
    · rw [if_pos ⟨hk, hb⟩, hb, smGet_smPut_same]
    · rw [if_neg fun h => hb h.2, smGet_smPut_ne _ _ _ hb]
  · rw [if_neg hk, if_neg fun h => hk h.1]

/-! ### Freezing and thawing -/

theorem resv_of_zeros {hdr : List Byte} {lo n : Nat} (h : zeros (slice hdr lo n) = true) : resv hdr lo n = [] := by
  have hnone : (slice hdr lo n).findIdx? (fun b => b != 0#8) = none := by
    rw [List.findIdx?_eq_none_iff]
    intro b hb
    have hb0 : (b == 0#8) = true := List.all_eq_true.1 h b hb
    rw [bne, hb0]
    rfl
  rw [resv, firstNonZero, hnone]
  rfl

/-- The tally after TALLY.FREEZE (R563, R564). -/
def frozenTally (d : Dev) (c : Cmd) : Tally := { d.tally with
  frozen := true, held := d.tally.input, input := [], byHold := false, window := d.gov.windows,
  freezeEnd := d.now + 400 * (if par c 0x10 4 = 0 then 1000000 else par c 0x10 4) }

/-- The tally after a thaw that finds no changed edges and no drops: what was held is applied in order (R565). -/
def thawedTally (a : Tally) (byHold : Bool) : Tally :=
  { (a.held.foldl applyUpd { a with frozen := false, held := [], edgeHeld := [], heldDrops := [] }) with byHold := byHold }

theorem thaw_eq {d : Dev} (he : d.tally.edgeHeld = []) (hd : d.tally.heldDrops = []) (byHold : Bool) :
    thaw d byHold = { d with tally := thawedTally d.tally byHold } := by
  simp only [thaw, he, hd, List.foldl_nil, thawedTally]

/-- Nothing but the commands and the tally of s differs in t, which holds the tally a, and no command but cid. -/
def OnlyTally (cid : Nat) (a : Tally) (s t : State) : Prop :=
  (t = { s with dev := { s.dev with cmds := t.dev.cmds, tally := t.dev.tally } } ∧
    ∀ k, k ≠ cid → smFind t.dev.cmds k = smFind s.dev.cmds k) ∧ t.dev.tally = a

/-- A TALLY command whose body ends it with a new tally. -/
theorem completes_finish_tally {i : Instr} {s : State} {op cid : Nat} {c : Cmd} {body : Dev → Nat → Cmd → Option Dev} {a : Tally}
    {status detail : Nat} {result : List (Nat × Nat × Nat)} {slotOut : Option (List Byte)}
    (hexec : exec i s = onDev s (runCmd op cid body)) (hruns : Runs s op cid c)
    (hbody : body (began s cid) cid c = some (finishCmd { began s cid with tally := a } cid status detail result slotOut)) :
    Completes i s (fun t => OnlyTally cid a s t ∧
      finOf t cid = some (BitVec.ofNat 16 status, BitVec.ofNat 16 detail, resultOf result) ∧ slotOutOf t cid = slotOut) := by
  refine (completes_finish_kept hexec hruns hbody rfl).imp ?_
  rintro t ⟨hframe, hother, hfin, hslot⟩
  have htally : t.dev.tally = a := congrArg (fun v : State => v.dev.tally) hframe
  refine ⟨⟨⟨?_, hother⟩, htally⟩, hfin, hslot⟩
  rw [htally]
  exact hframe

section Freeze
variable {s : State} {cid : Nat} {c : Cmd}

theorem tallyFreeze_again (hruns : Runs s 0x0C01 cid c) (hchk : chkFreeze c = .ok ()) (hf : s.dev.tally.frozen = true) :
    Completes (.tallyFreeze cid) s (fun t => OnlyCmd cid s t ∧ finOf t cid = some (0x0002#16, 0#16, resultOf []) ∧
      slotOutOf t cid = none) := by
  refine completes_finish_only (body := stepFreeze) rfl hruns ?_
  have hf' : (began s cid).tally.frozen = true := hf
  simp only [stepFreeze, hchk, hf', if_true, stAlreadyComplete]

theorem tallyFreeze_freezes (hruns : Runs s 0x0C01 cid c) (hchk : chkFreeze c = .ok ()) (hf : s.dev.tally.frozen = false)
    (htaken : nth 0 c.info 0 ≤ s.dev.tally.taken) :
    Completes (.tallyFreeze cid) s (fun t => OnlyTally cid (frozenTally s.dev c) s t ∧
      finOf t cid = some (0#16, 0#16, resultOf [(0x0C, 4, s.dev.tally.storeSeq.toNat)]) ∧ slotOutOf t cid = none) := by
  refine completes_finish_tally (body := stepFreeze) rfl hruns ?_
  have hf' : (began s cid).tally.frozen = false := hf
  have htaken' : ¬((began s cid).tally.taken < nth 0 c.info 0 ∧ (!(began s cid).tally.input.isEmpty) = true) :=
    fun h => absurd h.1 (Nat.not_lt.2 htaken)
  simp only [stepFreeze, hchk, hf', Bool.false_eq_true, if_false, if_neg htaken']
  rfl

theorem tallyThaw_again (hruns : Runs s 0x0C02 cid c) (hzero : zeros (slice c.hdr 0x10 48) = true) (hf : s.dev.tally.frozen = false) :
    Completes (.tallyThaw cid) s (fun t => OnlyCmd cid s t ∧
      finOf t cid = some (0x0002#16, BitVec.ofNat 16 (if s.dev.tally.byHold then 3 else 0), resultOf []) ∧ slotOutOf t cid = none) := by
  refine completes_finish_only (body := stepThaw) rfl hruns ?_
  have hf' : (began s cid).tally.frozen = false := hf
  simp only [stepThaw, resv_of_zeros hzero, chkFields_of_none (l := []) nofun, hf', Bool.not_false, if_true, stAlreadyComplete]
  rfl

theorem tallyThaw_thaws (hruns : Runs s 0x0C02 cid c) (hzero : zeros (slice c.hdr 0x10 48) = true) (hf : s.dev.tally.frozen = true)
    (he : s.dev.tally.edgeHeld = []) (hd : s.dev.tally.heldDrops = []) :
    Completes (.tallyThaw cid) s (fun t => OnlyTally cid (thawedTally s.dev.tally false) s t ∧
      finOf t cid = some (0#16, 0#16, resultOf [(0x0C, 4, s.dev.tally.held.length), (0x10, 4, 0)]) ∧ slotOutOf t cid = none) := by
  refine completes_finish_tally (body := stepThaw) rfl hruns ?_
  have hf' : (began s cid).tally.frozen = true := hf
  have hdrop : heldDropped (began s cid).tally = 0 := by
    rw [heldDropped, show (began s cid).tally.heldDrops = [] from hd]
    rfl
  simp only [stepThaw, resv_of_zeros hzero, chkFields_of_none (l := []) nofun, hf', Bool.not_true, Bool.false_eq_true, if_false,
    thaw_eq (d := began s cid) he hd, hdrop]
  rfl

end Freeze

theorem tallyMaxHold_thaws {s : State} (hf : s.dev.tally.frozen = true) (he : s.dev.tally.edgeHeld = []) (hd : s.dev.tally.heldDrops = [])
    (hend : s.dev.tally.freezeEnd ≤ s.dev.now) (hread : readingTally s.dev = false) :
    exec .tallyMaxHoldExpire s = .next { s with dev := { s.dev with tally := thawedTally s.dev.tally true } } := by
  refine next_dev s ((if_pos ⟨hf, hend, ?_⟩).trans (thaw_eq he hd true))
  rw [hread]
  rfl

theorem tallyMaxHold_waits {s : State} (h : s.dev.tally.frozen = false ∨ s.dev.now < s.dev.tally.freezeEnd ∨ readingTally s.dev = true) :
    exec .tallyMaxHoldExpire s = .next s := by
  refine next_dev s (d' := s.dev) (if_neg ?_)
  rintro ⟨hf, hend, hread⟩
  rcases h with h | h | h
  · exact Bool.false_ne_true (h.symm.trans hf)
  · exact absurd hend (Nat.not_le.2 h)
  · rw [h] at hread
    exact Bool.false_ne_true hread

/-! ### Reading -/

/-- A record that has been read is cleared, with the next number (R567). -/
def clearRead (t : Tally) (q : Qty × Nat) : Tally :=
  setRecs { t with storeSeq := t.storeSeq + 1, applied := (satAdd t.applied 1).1 } [recKey q.1.qid q.2] (fun _ => recClear (t.storeSeq + 1))

theorem clearRead_recs (t : Tally) (q : Qty × Nat) (k : Nat) :
    smGet {} (clearRead t q).recs k = if k = recKey q.1.qid q.2 then { seq := t.storeSeq + 1 } else smGet {} t.recs k := by
  have hrecs : (clearRead t q).recs = smMod {} t.recs (recKey q.1.qid q.2) fun _ => recClear (t.storeSeq + 1) := rfl
  rw [hrecs, smGet_smMod]
  rfl

/-- The record under k holds nothing but its number. -/
def ClearedAt (k : Nat) (t : Tally) : Prop := ∃ n, smGet {} t.recs k = { seq := n }

theorem ClearedAt.foldl {k : Nat} (l : List (Qty × Nat)) {t : Tally} (h : ClearedAt k t) : ClearedAt k (l.foldl clearRead t) := by
  induction l generalizing t with
  | nil => exact h
  | cons q l ih =>
    refine ih ?_
    obtain ⟨n, hn⟩ := h
    unfold ClearedAt
    rw [clearRead_recs]
    split
    · exact ⟨_, rfl⟩
    · exact ⟨n, hn⟩

theorem clearedAt_of_read (l : List (Qty × Nat)) (t : Tally) {q : Qty × Nat} (hq : q ∈ l) :
    ClearedAt (recKey q.1.qid q.2) (l.foldl clearRead t) := by
  induction l generalizing t with
  | nil => exact absurd hq List.not_mem_nil
  | cons p l ih =>
    rcases List.mem_cons.1 hq with rfl | hq
    · exact ClearedAt.foldl l ⟨_, (clearRead_recs ..).trans (if_pos rfl)⟩
    · exact ih _ hq

theorem unread_kept (l : List (Qty × Nat)) (t : Tally) {k : Nat} (hk : ∀ q ∈ l, k ≠ recKey q.1.qid q.2) :
    smGet {} (l.foldl clearRead t).recs k = smGet {} t.recs k := by
  induction l generalizing t with
  | nil => rfl
  | cons p l ih =>
    rw [List.forall_mem_cons] at hk
    rw [List.foldl_cons, ih _ hk.2, clearRead_recs, if_neg hk.1]

/-- The tally after TALLY.READ of records. -/
def readTally (d : Dev) (c : Cmd) : Tally := if bit (par c 0x11 1) 0 then (selected d c).foldl clearRead d.tally else d.tally

section Read
variable {s : State} {cid : Nat} {c : Cmd} (hruns : Runs s 0x0C03 cid c) (hchk : chkTallyRead s.dev c = .ok ())
include hruns hchk

theorem tallyRead_header (hsel : par c 0x10 1 = 0) :
    Completes (.tallyRead cid) s (fun t => OnlyCmd cid s t ∧ finOf t cid = some (0#16, 0#16, resultOf []) ∧
      slotOutOf t cid = some (storeHeader s.dev ++ directory)) := by
  refine completes_finish_only (body := stepTallyRead) rfl hruns ?_
  have hchk' : chkTallyRead (began s cid) c = .ok () := hchk
  have hhead : storeHeader (began s cid) = storeHeader s.dev := rfl
  simp only [stepTallyRead, hchk', if_pos hsel, hhead]
  rfl

theorem tallyRead_records (hsel : par c 0x10 1 ≠ 0) :
    Completes (.tallyRead cid) s (fun t => OnlyTally cid (readTally s.dev c) s t ∧
      finOf t cid = some (0#16, 0#16, resultOf [(0x0C, 4, (selected s.dev c).length), (0x10, 4, s.dev.tally.storeSeq.toNat)]) ∧
      slotOutOf t cid = some ((selected s.dev c).flatMap (fun q => tallyRecord s.dev.tally q.1 q.2))) := by
  refine completes_finish_tally (body := stepTallyRead) rfl hruns ?_
  have hchk' : chkTallyRead (began s cid) c = .ok () := hchk
  have hsel' : selected (began s cid) c = selected s.dev c := rfl
  simp only [stepTallyRead, hchk', if_neg hsel, hsel']
  rfl

end Read

/-! ### The statement's clauses about a record -/

/-- What an update of its input queue makes of a tally and of the record under k. -/
theorem tallyUpdate_applies {s : State} {u : TUpd} {us : List TUpd} {q i : Nat} (hin : s.dev.tally.input = u :: us)
    (hf : s.dev.tally.frozen = false) (g : TRec → TRec)
    (hrecs : ∀ k, smGet {} (tookUpdate s.dev.tally u us).recs k =
      if k = recKey q i then g (smGet {} s.dev.tally.recs k) else smGet {} s.dev.tally.recs k) :
    Completes .tallyUpdate s (fun t => t = { s with dev := { s.dev with tally := t.dev.tally } } ∧
      t.dev.tally = { s.dev.tally with
        input := us, storeSeq := s.dev.tally.storeSeq + 1, applied := min (s.dev.tally.applied + 1) (2 ^ 64 - 1),
        taken := s.dev.tally.taken + 1, recs := t.dev.tally.recs } ∧
      (∀ k, k ≠ recKey q i → smGet {} t.dev.tally.recs k = smGet {} s.dev.tally.recs k) ∧
      smGet {} t.dev.tally.recs (recKey q i) = g (smGet {} s.dev.tally.recs (recKey q i))) :=
  ⟨_, tallyUpdate_took hin hf, rfl, tookUpdate_frame .., fun k hk => (hrecs k).trans (if_neg hk), (hrecs _).trans (if_pos rfl)⟩

/-- Settles O56: by the update of a record, the frozen tally, the thawed one and the read one. That a freeze waits for the updates
accepted before it, and the number of the window that it holds, are the model's choices (log 65). -/
theorem tallyIsUpdatedFrozenAndRead : Obligations.TallyIsUpdatedFrozenAndRead := by
  unfold Obligations.TallyIsUpdatedFrozenAndRead
  intro s cid c
  refine ⟨fun u us hin => ⟨tallyUpdate_frozen hin, fun q i hf hu => ?_⟩, fun hruns hchk => ⟨fun hf => ?_, fun hf htaken => ?_⟩,
    fun hruns hzero => ⟨fun hf => ?_, fun hf he hd => ?_⟩, fun hf he hd hend hread => ⟨_, tallyMaxHold_thaws hf he hd hend hread, rfl⟩,
    tallyMaxHold_waits, fun hruns hchk => ⟨fun hsel => ?_, fun hsel => ?_⟩⟩
  · rcases hu with ⟨n, m, src, w, rfl⟩ | ⟨v, tag, rfl⟩
    · refine (tallyUpdate_applies hin hf (fun r => recCount r (s.dev.tally.storeSeq + 1) n m) (tookUpdate_count _ us q i n m src w)).imp ?_
      rintro t ⟨hframe, htally, hother, hrec⟩
      refine ⟨hframe, htally, hother, ?_⟩
      rw [hrec, recCount_eq]
      refine ⟨rfl, ?_, fun _ _ h => TUpd.noConfusion h⟩
      rintro _ _ _ _ ⟨⟩
      exact ⟨rfl, rfl, rfl, rfl, rfl⟩
    · refine (tallyUpdate_applies hin hf
        (fun r => recValue r (s.dev.tally.storeSeq + 1) (kindOfQ q) v tag (edgesOf s.dev.tally q)) (tookUpdate_value _ us q i v tag)).imp ?_
      rintro t ⟨hframe, htally, hother, hrec⟩
      refine ⟨hframe, htally, hother, ?_⟩
      have hbins := recValue_bins (smGet {} s.dev.tally.recs (recKey q i)) (s.dev.tally.storeSeq + 1) (kindOfQ q) v tag
        (edgesOf s.dev.tally q)
      rw [hrec]
      rw [recValue_eq] at hbins ⊢
      refine ⟨rfl, fun _ _ _ _ h => TUpd.noConfusion h, ?_⟩
      rintro _ _ ⟨⟩
      exact ⟨rfl, rfl, rfl, rfl, rfl, rfl, hbins⟩
  · exact (tallyFreeze_again hruns hchk hf).imp fun t ⟨honly, hfin, _⟩ => ⟨honly, hfin⟩
  · exact (tallyFreeze_freezes hruns hchk hf htaken).imp fun t ⟨⟨honly, htally⟩, hfin, _⟩ => ⟨honly, hfin, htally⟩
  · refine (tallyThaw_again hruns hzero hf).imp fun t ⟨honly, hfin, _⟩ => ⟨honly, hfin.trans ?_⟩
    cases s.dev.tally.byHold <;> rfl
  · exact (tallyThaw_thaws hruns hzero hf he hd).imp fun t ⟨⟨honly, htally⟩, hfin, _⟩ => ⟨honly, htally, hfin⟩
  · exact (tallyRead_header hruns hchk hsel).imp fun t ⟨honly, hfin, hslot⟩ => ⟨honly, ⟨_, hfin⟩, hslot⟩
  · refine (tallyRead_records hruns hchk hsel).imp fun t ⟨⟨honly, htally⟩, hfin, hslot⟩ =>
      ⟨honly, hfin, hslot, fun hclear => ?_, fun hclear => ?_⟩
    · rw [htally, readTally, if_neg (by rw [hclear]; exact Bool.false_ne_true)]
    · rw [htally, readTally, if_pos hclear]
      exact ⟨fun q hq => clearedAt_of_read _ _ hq, fun k hk => unread_kept _ _ hk⟩

end Sys2Proof.Machine
end

section
/-! PROOF. The budget governor: the end of a window, the sensors and the trips (13 R523, R526, R532 to R535; 16 R584). -/

namespace Sys2Proof.Machine

/-! ### Maps that list a value for each key -/

theorem smFind_smSet {α : Type} [DecidableEq α] (x : α) (m : SMap α) (k j : Nat) (v : α) :
    smFind (smSet x m k v) j = if j = k then (if v = x then none else some v) else smFind m j := by
  unfold smSet
  by_cases hv : v = x
  · rw [if_pos hv, if_pos hv, smFind_smErase]
  · rw [if_neg hv, if_neg hv, smFind_smPut]

theorem smFind_foldl_smSet {α : Type} [DecidableEq α] (x : α) (f : Nat → α) (l : List Nat) (k : Nat) :
    smFind (l.foldl (fun m r => smSet x m r (f r)) []) k = if k ∈ l ∧ f k ≠ x then some (f k) else none := by
  induction l using List.reverseRecOn with
  | nil => simp
  | append_singleton l r ih =>
    rw [List.foldl_append, List.foldl_cons, List.foldl_nil, smFind_smSet, ih]
    by_cases hk : k = r
    · subst hk
      simp
    · simp [hk]

theorem smGet_foldl_smSet_keys {α : Type} [DecidableEq α] (x : α) (f : Nat → α) {l : List Nat} {k : Nat} (hk : k ∈ l) :
    smGet x (l.foldl (fun m r => smSet x m r (f r)) []) k = f k := by
  rw [smGet, smFind_foldl_smSet]
  by_cases hf : f k = x
  · rw [if_neg fun h => h.2 hf, hf]
    rfl
  · rw [if_pos ⟨hk, hf⟩]
    rfl

theorem foldl_smSet_nonempty {α : Type} [DecidableEq α] (x : α) (f : Nat → α) (l : List Nat) :
    (l.foldl (fun m r => smSet x m r (f r)) []).isEmpty = false ↔ ∃ r ∈ l, f r ≠ x := by
  have hfind := smFind_foldl_smSet x f l
  generalize l.foldl (fun m r => smSet x m r (f r)) [] = m at hfind
  constructor
  · intro h
    cases m with
    | nil => cases h
    | cons p m =>
      have hp := hfind p.1
      rw [smFind, if_pos rfl] at hp
      by_cases hin : p.1 ∈ l ∧ f p.1 ≠ x
      · exact ⟨p.1, hin⟩
      · rw [if_neg hin] at hp
        cases hp
  · rintro ⟨r, hr⟩
    cases m with
    | nil =>
      have hp := hfind r
      rw [if_pos hr] at hp
      cases hp
    | cons p m => rfl

/-! ### The end of a budget window (R526, R532) -/

/-- The device without what a window's end counts and marks: engine time, commands in flight and the tally. -/
def besideWindow (d : Dev) : Dev := { d with freeCtr := 0, ctxs := [], launches := [], cmds := [], tally := {} }

theorem besideWindow_foldl {β : Type} {f : Dev → β → Dev} (h : ∀ d x, besideWindow (f d x) = besideWindow d) (l : List β) (d : Dev) :
    besideWindow (l.foldl f d) = besideWindow d := foldl_keep besideWindow f h l d

theorem besideWindow_markThrottled (d : Dev) (cid : Nat) (dies : List Nat) : besideWindow (markThrottled d cid dies) = besideWindow d := by
  obtain ⟨cmds, h⟩ := markThrottled_frame d cid dies
  rw [h]
  rfl

/-- A launch that is marked changes only the commands in flight. -/
theorem markLaunch_frame (d : Dev) (z : Launch) : ∃ cmds, markLaunch d z = { d with cmds := cmds } := by
  unfold markLaunch
  split
  · exact markThrottled_frame ..
  · split
    · refine List.foldlRecOn (motive := fun e : Dev => ∃ cmds, e = { d with cmds := cmds }) _ _ ⟨_, rfl⟩ ?_
      rintro _ ⟨cmds, rfl⟩ k -
      split
      · exact markThrottled_frame ..
      · exact ⟨_, rfl⟩
    · exact ⟨_, rfl⟩
  · exact ⟨_, rfl⟩

theorem besideWindow_markLaunch (d : Dev) (z : Launch) : besideWindow (markLaunch d z) = besideWindow d := by
  obtain ⟨cmds, h⟩ := markLaunch_frame d z
  rw [h]
  rfl

theorem besideWindow_markColl (d : Dev) (k : Coll) : besideWindow (markColl d k) = besideWindow d := by
  unfold markColl
  split
  · split <;> rfl
  · rfl

theorem besideWindow_markRunning (d : Dev) : besideWindow (markRunning d) = besideWindow d := by
  unfold markRunning
  refine (besideWindow_foldl (fun d (k : Nat × Coll) => besideWindow_markColl d k.2) ..).trans ?_
  refine (besideWindow_foldl (fun d p => besideWindow_markThrottled ..) ..).trans ?_
  exact besideWindow_foldl (fun d (z : Nat × Launch) => besideWindow_markLaunch d z.2) ..

theorem besideWindow_windowTimes (d : Dev) : besideWindow (windowTimes d) = besideWindow d :=
  besideWindow_foldl (f := fun d (z : Nat × Launch) =>
    { chargeTime d z.2 with launches := smUpd (chargeTime d z.2).launches z.1 (fun v => { v with timeFrom := d.now }) }) (fun _ _ => rfl) ..

theorem besideWindow_tallyValue (d : Dev) (qid inst v : Nat) (tag : Word) : besideWindow (tallyValue d qid inst v tag) = besideWindow d := by
  obtain ⟨tally, h⟩ := tallyValue_frame d qid inst v tag
  rw [h]
  rfl

theorem besideWindow_tallyValues (qid : Nat) (g : Dev → Nat → Nat) (tag : Word) (l : List Nat) (d : Dev) :
    besideWindow (l.foldl (fun d r => tallyValue d qid r (g d r) tag) d) = besideWindow d :=
  besideWindow_foldl (fun _ _ => besideWindow_tallyValue ..) l d

theorem besideWindow_drawFree (w : Nat) (d : Dev) : besideWindow (drawFree w d).2 = besideWindow d := rfl

theorem besideWindow_windowTally (d : Dev) : besideWindow (windowTally d) = besideWindow d := by
  unfold windowTally
  rw [besideWindow_tallyValue, besideWindow_drawFree, besideWindow_tallyValues 0x61 (fun d r => smGet 0 d.gov.tempMax r),
    besideWindow_tallyValues 0x60 (fun d r => 16 - smGet 0 d.gov.rate r)]

/-- The deficits of the thermal rates that the readings of the window give. -/
def nextThermal (g : Gov) : SMap Nat := (span 0 24).foldl (fun m r => smSet 0 m r (thermalNext g r)) []

/-- The deficits of the rates in force in the next window. -/
def nextRate (d : Dev) : SMap Nat :=
  (span 0 24).foldl (fun m r => smSet 0 m r (max (16 - powerRate (budget d)) (smGet 0 (nextThermal d.gov) r))) []

/-- The device as its window ends. -/
def windowEnded (d : Dev) : Dev := { d with
  gov := { d.gov with windowAt := d.gov.windowAt + 400000, windows := d.gov.windows + 1, thermal := nextThermal d.gov, rate := nextRate d,
                      hotSeen := [], warmSeen := [], tempMax := [], spent := 0 }
  pwr := { d.pwr with throttle := !(nextThermal d.gov).isEmpty } }

/-- The end of a window does not depend on what it counts and marks. -/
theorem besideWindow_windowEnded {d e : Dev} (h : besideWindow e = besideWindow d) : besideWindow (windowEnded e) = besideWindow (windowEnded d) :=
  congrArg windowEnded h

theorem besideWindow_budgetWindow {d : Dev} (hready : d.boot.ready = true) (hend : d.gov.windowAt + 400000 ≤ d.now) :
    besideWindow (budgetWindow d) = besideWindow (windowEnded d) := by
  have hbusy : ¬(!d.boot.ready || decide (d.now < d.gov.windowAt + 400000)) = true := by
    rw [hready, decide_eq_false (Nat.not_lt.2 hend)]
    exact Bool.false_ne_true
  rw [budgetWindow, if_neg hbusy]
  refine (besideWindow_markRunning (windowEnded (windowTally (windowTimes d)))).trans (besideWindow_windowEnded ?_)
  exact (besideWindow_windowTally _).trans (besideWindow_windowTimes d)

theorem budgetWindow_ends {s : State} (hready : s.dev.boot.ready = true) (hend : s.dev.gov.windowAt + 400000 ≤ s.dev.now) :
    Completes .budgetWindow s (fun t => t.nv = s.nv ∧ besideWindow t.dev = besideWindow (windowEnded s.dev)) :=
  ⟨_, rfl, rfl, besideWindow_budgetWindow hready hend⟩

theorem mem_span_zero {n r : Nat} : r ∈ span 0 n ↔ r < n := by simp [span, List.mem_range']

theorem nextThermal_get (g : Gov) {r : Nat} (hr : r < 24) : smGet 0 (nextThermal g) r = thermalNext g r :=
  smGet_foldl_smSet_keys 0 _ (mem_span_zero.2 hr)

theorem nextRate_get (d : Dev) {r : Nat} (hr : r < 24) :
    smGet 0 (nextRate d) r = max (16 - powerRate (budget d)) (thermalNext d.gov r) := by
  rw [← nextThermal_get d.gov hr]
  exact smGet_foldl_smSet_keys 0 _ (mem_span_zero.2 hr)

theorem nextThermal_nonempty (g : Gov) : (!(nextThermal g).isEmpty) = true ↔ ∃ r, r < 24 ∧ thermalNext g r ≠ 0 := by
  rw [Bool.not_eq_true', nextThermal, foldl_smSet_nonempty]
  simp only [mem_span_zero]

/-! ### The sensors (R532, R534) -/

/-- The device once the sensors have been read. -/
def noted (l : List (BitVec 16)) (d : Dev) : Dev := { d with
  gov := (l.map (fun v => v.toInt.toNat)).zipIdx.foldl (fun g p => noteReading (budget d) g p.2 p.1) d.gov
  pwr := notedTop d.pwr d.now (greatest l) }

/-- Each sensor's reading is its die's temperature; a negative one stands as 0. -/
theorem noted_temps (l : List (BitVec 16)) (d : Dev) {i : Nat} (h : i < l.length) :
    smGet 0 (noted l d).gov.temps i = l[i].toInt.toNat := by
  have hhom : (noted l d).gov.temps =
      (l.map (fun v => v.toInt.toNat)).zipIdx.foldl (fun m p => smSet 0 m (0 + p.2) p.1) d.gov.temps :=
    (List.foldl_hom Gov.temps fun g p => by rw [Nat.zero_add]; rfl).symm
  rw [hhom, smGet_foldl_smSet, if_pos ⟨Nat.zero_le _, by rw [List.length_map]; omega⟩]
  simp [nth, h]

theorem noted_quiet {l : List (BitVec 16)} {d : Dev} (hrails : d.pwr.rails = true) (htest : d.boot.selfTest = true) (hlen : l.length ≤ 66)
    (hcool : ∀ v ∈ l, v.toInt < 460) : readSensors l d = noted l d := by
  have hnone : (l.map (fun v => v.toInt.toNat)).zipIdx.find? (fun p => decide (460 ≤ p.1)) = none := by
    rw [List.find?_eq_none]
    intro p hp
    obtain ⟨v, hv, hpv⟩ := List.mem_map.1 (List.fst_mem_of_mem_zipIdx hp)
    have := hcool v hv
    rw [decide_eq_true_eq]
    omega
  simp only [readSensors, hrails, htest, Bool.not_true, Bool.or_self, Bool.false_eq_true, if_false, List.take_of_length_le hlen, hnone]
  rfl

/-- The first reading of 115 °C or more trips the part. -/
theorem noted_trips {l : List (BitVec 16)} {d : Dev} {i : Nat} (h : i < l.length) (hrails : d.pwr.rails = true)
    (htest : d.boot.selfTest = true) (hlen : l.length ≤ 66) (hhot : 460 ≤ l[i].toInt)
    (hcool : ∀ j, (g : j < i) → (l[j]'(Nat.lt_trans g h)).toInt < 460) : readSensors l d = tripPart (noted l d) 3 i := by
  have hfirst : (l.map (fun v => v.toInt.toNat)).zipIdx.find? (fun p => decide (460 ≤ p.1)) = some (l[i].toInt.toNat, i) := by
    rw [List.find?_eq_some_iff_getElem]
    refine ⟨decide_eq_true (by omega), i, by simpa using h, by simp, fun j hj => ?_⟩
    have := hcool j hj
    simp only [List.getElem_zipIdx, List.getElem_map, Bool.not_eq_true', decide_eq_false_iff_not]
    omega
  simp only [readSensors, hrails, htest, Bool.not_true, Bool.or_self, Bool.false_eq_true, if_false, List.take_of_length_le hlen, hfirst]
  rfl

/-! ### Trips and the loss of input (R523, R534, R535) -/

/-- What is left of the part when a trip with a cause ends its run. -/
def tripped (d : Dev) (stop die : Nat) : Dev :=
  let d1 := railsOff { d with pwr := { d.pwr with cause := BitVec.ofNat 32 (stop + 16 * die) } }
  { d1 with gov := { d1.gov with tripped := decide (stop = 3) }, pwr := { d1.pwr with trip := true, tripClk := decide (stop = 4) } }

theorem tripPart_rails {d : Dev} (hrails : d.pwr.rails = true) (hon : d.pwr.ctrlOn = true) (htrip : d.pwr.trip = false) (stop die : Nat) :
    tripPart d stop die = tripped d stop die := by
  rw [tripPart, if_pos (by rw [hrails, htrip]; rfl), endRun_rails hon hrails htrip]
  rfl

/-- The device as its reference clock fails. -/
def clockLost (d : Dev) : Dev := { d with pwr := { d.pwr with refOk := false } }

/-- The end of a run changes its cause at most. -/
theorem endRun_cause (d : Dev) (stop die : Nat) : ∃ cause, endRun d stop die = { d with pwr := { d.pwr with cause := cause } } := by
  unfold endRun
  split
  · exact ⟨_, rfl⟩
  · exact ⟨d.pwr.cause, rfl⟩

/-- The power state as the loss of input is seen. -/
def inputLost (vin : Nat) (d : Dev) : Dev :=
  { d with pwr := { d.pwr with vin := vin, vinOut := d.pwr.vinOut || d.pwr.rails, coldWait := false } }

/-- A loss of input takes the rails off, and ends the run with its cause above 36 V. -/
theorem inputLoss_rails {d : Dev} {vin : Nat} (hv : vin < 38000) (hrails : d.pwr.rails = true) : ∃ cause,
    inputLoss vin d = railsOff { inputLost vin d with pwr := { (inputLost vin d).pwr with cause := cause } } ∧
      (36000 < vin → d.pwr.ctrlOn = true → d.pwr.trip = false → cause = 5#32) := by
  have hrun : (d.pwr.rails || d.boot.kind.isSome) = true := by rw [hrails]; rfl
  have hloss : inputLoss vin d = railsOff (if 36000 < vin then endRun (inputLost vin d) 5 0 else inputLost vin d) :=
    (if_neg (Nat.not_le.2 hv)).trans (if_pos hrun)
  rw [hloss]
  by_cases h36 : 36000 < vin
  · obtain ⟨cause, hcause⟩ := endRun_cause (inputLost vin d) 5 0
    rw [if_pos h36, hcause]
    refine ⟨cause, rfl, fun _ hon htrip => ?_⟩
    rw [endRun_rails (d := inputLost vin d) hon hrails htrip] at hcause
    exact (congrArg (fun d : Dev => d.pwr.cause) hcause).symm
  · rw [if_neg h36]
    exact ⟨_, rfl, fun h => absurd h h36⟩

theorem onPackage_idle_eq {s : State} {f : Dev → Dev} {d : Dev} (hidle : s.dev.flashIf.busy = none) (h : f s.dev = d) :
    onPackage s f = .next { s with dev := d } := by rw [onPackage_idle f hidle, h]

/-- Settles O39: by the end of a window, the noted readings, the trip and the loss of input. -/
theorem governorLimitsAndTrips : Obligations.GovernorLimitsAndTrips := by
  unfold Obligations.GovernorLimitsAndTrips
  intro s hidle
  refine ⟨fun hready hend => ?_, fun l hrails htest hlen hcool => ?_, fun l i h hrails htest hlen hhot hcool hon htrip => ?_,
    fun hrails hon htrip => ?_, fun vin hv hrails => ?_⟩
  · refine (budgetWindow_ends hready hend).imp fun t ⟨hnv, hview⟩ => ?_
    have hgov : t.dev.gov = (windowEnded s.dev).gov := (congrArg Dev.gov hview :)
    have hpwr : t.dev.pwr = (windowEnded s.dev).pwr := (congrArg Dev.pwr hview :)
    rw [hgov, hpwr]
    exact ⟨hnv, (congrArg Dev.mem hview :), (congrArg Dev.eng hview :), rfl, rfl, rfl, rfl,
      fun r hr => ⟨nextThermal_get _ hr, nextRate_get _ hr⟩, nextThermal_nonempty _⟩
  · refine ⟨_, onPackage_idle_eq hidle (noted_quiet hrails htest hlen hcool), rfl, rfl, hrails, fun i h => ?_⟩
    exact noted_temps l s.dev h
  · have htrips : readSensors l s.dev = tripped (noted l s.dev) 3 i :=
      (noted_trips h hrails htest hlen hhot hcool).trans (tripPart_rails (d := noted l s.dev) hrails hon htrip 3 i)
    exact ⟨_, onPackage_idle_eq hidle htrips, rfl, rfl, rfl, rfl, rfl, rfl, rfl, rfl⟩
  · have htrips : tripPart (clockLost s.dev) 4 0 = tripped (clockLost s.dev) 4 0 := tripPart_rails (d := clockLost s.dev) hrails hon htrip 4 0
    exact ⟨_, onPackage_idle_eq (f := fun d => tripPart (clockLost d) 4 0) hidle htrips, rfl, rfl, rfl, rfl, rfl, rfl, rfl, rfl⟩
  · obtain ⟨cause, hloss, hcause⟩ := inputLoss_rails hv hrails
    exact ⟨_, onPackage_idle_eq hidle hloss, rfl, rfl, rfl, rfl, rfl, rfl, rfl, hcause⟩

end Sys2Proof.Machine
end

section
/-! PROOF. The step scheduler, gating and power-off (13 R508, R510, R524). -/

namespace Sys2Proof.Machine

theorem mem_addAll {l es : List Nat} {e : Nat} : e ∈ addAll l es ↔ e ∈ l ∨ e ∈ es := by
  induction es generalizing l with
  | nil => simp [addAll]
  | cons a es ih =>
    have hstep : addAll l (a :: es) = addAll (if l.contains a then l else insertSorted a l) es := rfl
    rw [hstep, ih, List.mem_cons]
    by_cases ha : l.contains a = true
    · rw [if_pos ha]
      have hmem : a ∈ l := List.contains_iff_mem.1 ha
      constructor
      · rintro (h | h)
        exacts [.inl h, .inr (.inr h)]
      · rintro (h | rfl | h)
        exacts [.inl h, .inl hmem, .inr h]
    · rw [if_neg ha, mem_insertSorted, or_assoc, or_left_comm]

/-! ### The start of a launch -/

/-- What the scheduler decides by: which engines run, the launches, and the governor. -/
def schedView (d : Dev) : SMap Nat × SMap Launch × Gov := (d.running, d.launches, d.gov)

theorem schedView_cancelLine (d : Dev) (ctx i n : Nat) : schedView (cancelLine d ctx i n none) = schedView d := by
  simp only [cancelLine]
  split_ifs <;> rfl

theorem schedView_cancelLines (d : Dev) (ctx i : Nat) : schedView (cancelLines d ctx i none) = schedView d :=
  foldl_keep schedView _ (fun d n => schedView_cancelLine d ctx i n) (span 0 16) d

theorem schedView_modE (d : Dev) (ctx i : Nat) (f : EngCtx → EngCtx) : schedView (modE d ctx i f) = schedView d := rfl

theorem schedView_startEngine (d : Dev) (z : Launch) (entry i : Nat) : schedView (startEngine d z entry i) = schedView d := by
  simp only [startEngine]
  split_ifs
  · exact schedView_modE ..
  · exact (schedView_modE ..).trans (schedView_cancelLines ..)

/-- A launch that starts runs on its engines; other launches, other engines and the governor stay. -/
theorem startLaunch_starts {d : Dev} {k : Nat} {z : Launch} {x : Ctx} (hz : smFind d.launches k = some z)
    (hx : smFind d.ctxs z.ctx = some x) :
    (startLaunch d k).running = (launchPhys d z).foldl (fun r e => smPut r e k) d.running ∧
      (smFind (startLaunch d k).launches k).map (·.state) = some .running ∧ (startLaunch d k).gov = d.gov := by
  simp only [startLaunch, hz, hx]
  generalize hd1 : (if z.state = .preempted then _ else _ : Dev) = d1
  have hview : schedView d1 = schedView d := by
    rw [← hd1]
    split
    · exact foldl_keep schedView _ (fun d i => schedView_modE ..) _ d
    · exact foldl_keep schedView _ (fun d i => schedView_startEngine ..) _ d
  have hrun : d1.running = d.running := congrArg (·.1) hview
  have hlaunch : d1.launches = d.launches := congrArg (·.2.1) hview
  have hgov : d1.gov = d.gov := congrArg (·.2.2) hview
  refine ⟨by rw [hrun], ?_, hgov⟩
  rw [hlaunch, smFind_smUpd_same, hz]
  rfl

theorem smFind_foldl_smPut_const (es : List Nat) (k : Nat) (m : SMap Nat) (e : Nat) :
    smFind (es.foldl (fun r e => smPut r e k) m) e = if e ∈ es then some k else smFind m e := by
  induction es using List.reverseRecOn with
  | nil => rfl
  | append_singleton es a ih =>
    rw [List.foldl_append, List.foldl_cons, List.foldl_nil, smFind_smPut, ih]
    by_cases ha : e = a
    · rw [if_pos ha, if_pos (by simp [ha])]
    · rw [if_neg ha]
      simp [ha]

/-! ### SCHEDULE_NEXT -/

section Schedule
variable {s : State} {part : Fin 8}

/-- With no candidate the free engines of the partition gate (R510, R524). -/
theorem scheduleNext_gates {p : Partn} (hnone : candOrder s.dev part = []) (hp : partOf s.dev part = some p) :
    exec (.scheduleNext part) s = .next { s with dev := { s.dev with gov := { s.dev.gov with
      gated := addAll s.dev.gov.gated
        ((partEngines p).filter fun e => (smFind s.dev.running e).isNone && !s.dev.gov.off.contains e) } } } := by
  refine next_dev s ?_
  simp only [scheduleNext, hnone, List.foldl_nil, List.find?_nil, hp]

/-- A candidate of class 2 pre-empts nothing (R511). -/
theorem foldl_clearFor_slow {l : List Cand} (hslow : ∀ b ∈ l, b.z.cls ≠ 1) (d : Dev) : l.foldl clearFor d = d := by
  induction l with
  | nil => rfl
  | cons c l ih =>
    obtain ⟨hc, hl⟩ := List.forall_mem_cons.1 hslow
    rw [List.foldl_cons, clearFor, if_pos hc, ih hl]

/-- The engines that a launch takes are no longer gated. -/
def ungated (d : Dev) (es : List Nat) : Dev := { d with gov := { d.gov with gated := d.gov.gated.filter (fun e => !es.contains e) } }

theorem not_mem_ungated (d : Dev) {es : List Nat} {e : Nat} (he : e ∈ es) : e ∉ (ungated d es).gov.gated := by
  simp [ungated, he]

/-- The first candidate starts when its engines are all free and nothing is to be pre-empted. -/
theorem scheduleNext_starts {c : Cand} {rest : List Cand} (hcand : candOrder s.dev part = c :: rest)
    (hslow : ∀ b ∈ c :: rest, b.z.cls ≠ 1) (hfree : ∀ e ∈ launchPhys s.dev c.z, smFind s.dev.running e = none) :
    exec (.scheduleNext part) s =
      .next { s with dev := markLaunch (startLaunch (ungated s.dev (launchPhys s.dev c.z)) c.num) c.z } := by
  refine next_dev s ?_
  have hfirst : ((launchPhys s.dev c.z).all fun e => (smFind s.dev.running e).isNone) = true := by
    rw [List.all_eq_true]
    intro e he
    rw [hfree e he]
    rfl
  have hfind : (c :: rest).find? (fun c => (launchPhys s.dev c.z).all fun e => (smFind s.dev.running e).isNone) = some c :=
    List.find?_cons_of_pos hfirst
  simp only [scheduleNext, hcand, foldl_clearFor_slow hslow, hfind]
  rfl

end Schedule

/-! ### Blocks that gate or power off (R524) -/

section Gate
variable {s : State}

theorem engineGate_engine {u : Fin 128} (hu : (u : Nat) < 96) (hidle : smFind s.dev.running u = none) (hon : (u : Nat) ∉ s.dev.gov.off) :
    exec (.engineGate u) s =
      .next { s with dev := { s.dev with gov := { s.dev.gov with gated := addAll s.dev.gov.gated [(u : Nat)] } } } := by
  refine next_dev s ((if_pos hu).trans (if_neg ?_))
  rw [hidle]
  simpa using hon

theorem engineGate_mangle {u : Fin 128} (hu : 96 ≤ (u : Nat)) (hidle : ∀ p ∈ s.dev.mem.pieces, p.mang ≠ some ((u : Nat) - 96)) :
    exec (.engineGate u) s =
      .next { s with dev := { s.dev with gov := { s.dev.gov with mangGated := addAll s.dev.gov.mangGated [(u : Nat) - 96] } } } := by
  refine next_dev s ((if_neg (Nat.not_lt.2 hu)).trans (if_neg ?_))
  rw [List.any_eq_true]
  rintro ⟨p, hp, hmang⟩
  exact hidle p hp (eq_of_beq hmang)

/-- The device once an engine is off: its basket keeps nothing. -/
def engineOffed (d : Dev) (u : Nat) : Dev :=
  let d1 := modMem d (fun m => { m with baskets := memClear m.baskets (2 ^ 23 * u) (2 ^ 23)
                                        granRinse := m.granRinse.filter (fun g => g / 128 != u) })
  { d1 with gov := { d1.gov with off := addAll d1.gov.off [u], gated := d1.gov.gated.filter (fun g => g != u) } }

theorem engineOff_idle {e : Fin 96} (hnone : sharesOn s.dev e = []) (hfree : smGet 0 s.dev.gov.shareFree e + 400000 ≤ s.dev.now)
    (hon : (e : Nat) ∉ s.dev.gov.off) : exec (.engineOff e) s = .next { s with dev := engineOffed s.dev e } := by
  refine next_dev s (if_neg ?_)
  rw [hnone]
  simp only [List.isEmpty_nil, Bool.not_true, Bool.false_or, Bool.or_eq_true, decide_eq_true_eq, List.contains_iff_mem, not_or]
  exact ⟨Nat.not_lt.2 hfree, hon⟩

/-- A basket is 8 MiB of the basket memory. -/
theorem memByte_basketCleared (m : Mem) (u a : Nat) :
    memByte (memClear m (2 ^ 23 * u) (2 ^ 23)) a = if a / 2 ^ 23 = u then 0#8 else memByte m a := by
  rw [memByte_memClear]
  by_cases h : a / 2 ^ 23 = u
  · rw [if_pos h, if_neg (by omega)]
  · rw [if_neg h, if_pos (by omega)]

/-- The frames of a bank are the 512 frames of one aligned block. -/
theorem bankFrames_aligned {die : Fin 32} {bank : Fin 16} {f : Nat} (hlo : (bankFrames die bank).1 ≤ f)
    (hhi : f < (bankFrames die bank).1 + (bankFrames die bank).2) : f / 512 = (bankFrames die bank).1 / 512 := by
  simp only [bankFrames, cupFrame] at hlo hhi ⊢
  omega

theorem cupboardBankOff_free {die : Fin 32} {bank : Fin 16}
    (hfree : ∀ q ∈ s.dev.mem.frames, q.1 / 512 = (bankFrames die bank).1 / 512 → q.2 = .retired) :
    exec (.cupboardBankOff die bank) s = .next { s with dev := { s.dev with gov := { s.dev.gov with
      banksOff := addAll s.dev.gov.banksOff [16 * (die : Nat) + bank] } } } := by
  refine next_dev s (if_neg ?_)
  rw [List.any_eq_true]
  rintro ⟨q, hq, huse⟩
  simp only [Bool.and_eq_true, decide_eq_true_eq] at huse
  obtain ⟨⟨hlo, hhi⟩, hstate⟩ := huse
  rw [hfree q hq (bankFrames_aligned hlo hhi)] at hstate
  exact Bool.false_ne_true hstate

end Gate

/-- Settles O38: SCHEDULE_NEXT with and without a candidate, and the blocks that gate and power off. That an engine gates at its own
row and not 64 a-cycles after it has ended, and that a cupboard bank has 512 frames, are the model's choices (log 51, log 9). -/
theorem enginesStartGateAndPowerOff : Obligations.EnginesStartGateAndPowerOff := by
  unfold Obligations.EnginesStartGateAndPowerOff
  intro s part
  refine ⟨fun p hnone hp => ⟨_, scheduleNext_gates hnone hp, rfl, fun e => ?_⟩, fun c rest x hcand hslow hz hx hfree => ?_,
    fun u hu hidle hon => ⟨_, engineGate_engine hu hidle hon, rfl, fun e => ?_⟩,
    fun u hu hidle => ⟨_, engineGate_mangle hu hidle, rfl, fun e => ?_⟩,
    fun e hnone hfree hon => ⟨_, engineOff_idle hnone hfree hon, ?_, ?_, rfl, memByte_basketCleared _ _⟩,
    fun die bank hfree => ⟨_, cupboardBankOff_free hfree, rfl, mem_addAll.2 (.inr (List.mem_singleton_self _))⟩⟩
  · simp only [mem_addAll, List.mem_filter, Bool.and_eq_true, Option.isNone_iff_eq_none, Bool.not_eq_true',
      List.contains_eq_mem, decide_eq_false_iff_not]
  · obtain ⟨hrunning, hlaunch, hgov⟩ := startLaunch_starts (d := ungated s.dev (launchPhys s.dev c.z)) hz hx
    obtain ⟨cmds, hmark⟩ := markLaunch_frame (startLaunch (ungated s.dev (launchPhys s.dev c.z)) c.num) c.z
    refine ⟨_, scheduleNext_starts hcand hslow hfree, ?_⟩
    rw [hmark]
    have hfind (e : Nat) := (congrArg (smFind · e) hrunning).trans (smFind_foldl_smPut_const (launchPhys s.dev c.z) c.num s.dev.running e)
    refine ⟨hlaunch, fun e he => ⟨(hfind e).trans (if_pos he), ?_⟩, fun e he => (hfind e).trans (if_neg he)⟩
    exact (congrArg Gov.gated hgov) ▸ not_mem_ungated s.dev he
  · rw [mem_addAll, List.mem_singleton]
  · rw [mem_addAll, List.mem_singleton]
  · exact mem_addAll.2 (.inr (List.mem_singleton_self _))
  · simp [engineOffed, modMem]

end Sys2Proof.Machine
end

section
/-! PROOF. Demotion and recall of contexts (13 R515, R516, R518). -/

namespace Sys2Proof.Machine

/-! ### Shares that are released -/

theorem mem_insertAll {xs ys : List Nat} {e : Nat} : e ∈ insertAll xs ys ↔ e ∈ xs ∨ e ∈ ys := by
  induction xs generalizing ys with
  | nil => simp [insertAll]
  | cons a xs ih =>
    have hstep : insertAll (a :: xs) ys = insertAll xs (insertSorted a ys) := rfl
    rw [hstep, ih, mem_insertSorted, List.mem_cons, or_left_comm, or_assoc]

theorem hasShares_iff (x : Ctx) : hasShares x = true ↔ x.base ≠ [] := by simp [hasShares]

/-- The engines of a context follow from the partition's dies. -/
theorem granulesOfCtx_of_parts {d e : Dev} {x : Ctx} (h : (partOf e x.part).map partEngines = (partOf d x.part).map partEngines) :
    granulesOfCtx e x = granulesOfCtx d x := by
  have hphys (i : Nat) : physEngine e x i = physEngine d x i := by
    unfold physEngine
    cases he : partOf e x.part with
    | none =>
      cases hd : partOf d x.part with
      | none => rfl
      | some p => rw [he, hd] at h; cases h
    | some q =>
      cases hd : partOf d x.part with
      | none => rw [he, hd] at h; cases h
      | some p =>
        rw [he, hd] at h
        exact congrArg (fun l => nth 0 l _) (Option.some.inj h)
  simp only [granulesOfCtx, hphys]

/-- With no granule to rinse, none of a context's is. -/
theorem any_rinsing {d : Dev} (h : d.mem.granRinse = []) (gs : List Nat) : (gs.any fun g => d.mem.granRinse.contains g) = false := by
  rw [List.any_eq_false]
  intro g _
  rw [h]
  exact Bool.false_ne_true

/-- What a context holds once its shares are released: no granule of a basket. -/
structure Released (d e : Dev) (ctx : Nat) (x y : Ctx) : Prop where
  out : e.out = d.out
  base : y.base = []
  rest : y = { x with base := y.base, saveFrames := y.saveFrames }
  ctxs : ∀ k, smFind e.ctxs k = if k = ctx then some y else smFind d.ctxs k
  rinses : ∀ g ∈ granulesOfCtx d x, g ∈ e.mem.granRinse
  eng : x.base ≠ [] → ∀ k, smGet {} e.eng k = if k / 128 = ctx then {} else smGet {} d.eng k

theorem smGet_dropEngines (d : Dev) (ctx k : Nat) :
    smGet {} (dropEngines d ctx).eng k = if k / 128 = ctx then {} else smGet {} d.eng k := by
  rw [smGet, dropEngines, smFind_filter d.eng (fun j => j / 128 != ctx)]
  by_cases h : k / 128 = ctx
  · simp [h]
  · rw [if_neg h, if_pos (by simpa using h)]
    rfl

/-- The basket granules of a context go to rinse, its save frames are freed and its engines keep nothing (R516). -/
theorem releaseShares_released {d : Dev} {ctx : Nat} {x : Ctx} (hx : smFind d.ctxs ctx = some x) :
    ∃ y, Released d (releaseShares d ctx) ctx x y := by
  simp only [releaseShares, hx]
  by_cases hs : hasShares x = true
  · obtain ⟨frames, hframes, -⟩ := freeFrames_frame (modMem d fun m => { m with granRinse := insertAll (granulesOfCtx d x) m.granRinse })
      x.saveFrames
    have hgs : granulesOfCtx d x = (span 0 x.engCount).flatMap (fun i => span (128 * physEngine d x i + nth 0 x.base i) x.basket) :=
      if_pos hs
    rw [← hgs, if_neg (by rw [hs]; exact Bool.false_ne_true), hframes]
    refine ⟨{ x with base := [], saveFrames := [] }, rfl, rfl, rfl, fun k => ?_, fun g hg => mem_insertAll.2 (.inl hg),
      fun _ k => smGet_dropEngines ..⟩
    exact smFind_smUpd (m := d.ctxs) hx _ k
  · have hbase : x.base = [] := by
      rw [hasShares_iff, not_not] at hs
      exact hs
    rw [if_pos (by rw [Bool.not_eq_true] at hs; rw [hs]; rfl)]
    refine ⟨x, rfl, hbase, rfl, fun k => ?_, fun g hg => ?_, fun h => absurd hbase h⟩
    · split
      · next h => rw [h, hx]
      · rfl
    · rw [granulesOfCtx, if_neg hs] at hg
      exact absurd hg List.not_mem_nil

/-! ### Demotion -/

/-- Blocks that are written to host memory leave the part as messages and change nothing else. -/
theorem foldl_bulkWrite_eq {β : Type} (a : β → Nat) (b : β → List Byte) (l : List β) :
    ∃ msgs, ∀ d, l.foldl (fun d k => bulkWrite d (a k) (b k)) d = { d with out := msgs ++ d.out } := by
  induction l with
  | nil => exact ⟨[], fun _ => rfl⟩
  | cons k l ih =>
    obtain ⟨msgs, ih⟩ := ih
    obtain ⟨first, hfirst⟩ := bulkWrite_eq (a k) (b k)
    exact ⟨msgs ++ first, fun d => by rw [List.foldl_cons, ih, hfirst]; simp⟩

/-- The image of a context in the blocks of its pool pages. -/
def imageToPool (p : Partn) (img : List Byte) (ks : List Nat) (d : Dev) : Dev :=
  ks.zipIdx.foldl (fun d k => bulkWrite d (poolAddr p k.1) (fit 65536 (img.drop (65536 * k.2)))) d

theorem imageToPool_eq (p : Partn) (img : List Byte) (ks : List Nat) :
    ∃ msgs, ∀ d, imageToPool p img ks d = { d with out := msgs ++ d.out } :=
  foldl_bulkWrite_eq (fun k : Nat × Nat => poolAddr p k.1) (fun k => fit 65536 (img.drop (65536 * k.2))) ks.zipIdx

/-- The part of a demotion before the shares are released: the image stands in pool pages, which are used. -/
def imagePut (d : Dev) (x : Ctx) (p : Partn) (img : List Byte) (ks : List Nat) : Dev :=
  imageToPool p img ks (modPart d x.part (fun p => markPool p ks true))

/-- A context that is DEMOTING, with its image in pool pages and its granules to be rinsed. -/
def demotingTo (ks gs : List Nat) (y : Ctx) : Ctx :=
  { y with state := .demoting, image := some ks, cupBack := [], rinseWait := gs.map (fun g => 2 * g + 1) }

/-- A demotion of a context without cupboard pages (R516). -/
theorem startDemote_eq {d : Dev} {ctx : Nat} {x : Ctx} {p : Partn} {img : List Byte} {ks : List Nat} (himg : imageOf d ctx = img)
    (hcup : cupPages x = []) (hbme : d.host.bme = true) (hks : freePool p (ceilDiv img.length 65536) = ks)
    (hlen : ks.length = ceilDiv img.length 65536) :
    startDemote d ctx x p = modCtx (releaseShares (imagePut d x p img ks) ctx) ctx (demotingTo ks (granulesOfCtx d x)) := by
  have htake : ks.take (ceilDiv img.length 65536) = ks := List.take_of_length_le (Nat.le_of_eq hlen)
  simp only [startDemote, himg, hcup, List.map_nil, List.sum_nil, Nat.add_zero, hks, hbme, Bool.not_true, Bool.false_or, hlen,
    Nat.lt_irrefl, decide_false, Bool.false_eq_true, if_false, htake, List.flatMap_nil, List.nil_append]
  rfl

/-- What a demotion leaves: the context is DEMOTING, its image is in pool pages, and its shares are released. -/
theorem startDemote_demotes {d : Dev} {ctx : Nat} {x : Ctx} {p : Partn} {img : List Byte} {ks : List Nat}
    (hx : smFind d.ctxs ctx = some x) (hp : partOf d x.part = some p) (himg : imageOf d ctx = img)
    (hcup : cupPages x = []) (hbme : d.host.bme = true) (hks : freePool p (ceilDiv img.length 65536) = ks)
    (hlen : ks.length = ceilDiv img.length 65536) :
    (∃ y, (∀ k, smFind (startDemote d ctx x p).ctxs k = if k = ctx then some y else smFind d.ctxs k) ∧ y.state = .demoting ∧
      y.image = some ks ∧ y.base = [] ∧ y.ptes = x.ptes ∧ y.rinseWait = (granulesOfCtx d x).map (fun g => 2 * g + 1)) ∧
    (∀ g ∈ granulesOfCtx d x, g ∈ (startDemote d ctx x p).mem.granRinse) ∧
    (x.base ≠ [] → ∀ k, smGet {} (startDemote d ctx x p).eng k = if k / 128 = ctx then {} else smGet {} d.eng k) ∧
    (startDemote d ctx x p).out = (imageToPool p img ks d).out := by
  obtain ⟨msgs, hmsgs⟩ := imageToPool_eq p img ks
  have hput : imagePut d x p img ks = { modPart d x.part (fun p => markPool p ks true) with out := msgs ++ d.out } := hmsgs _
  have hparts : (partOf (imagePut d x p img ks) x.part).map partEngines = (partOf d x.part).map partEngines := by
    rw [hput, hp]
    exact (congrArg (Option.map partEngines) (smFind_smUpd (m := d.parts) hp _ x.part)).trans (by rw [if_pos rfl]; rfl)
  have hgran := granulesOfCtx_of_parts hparts
  obtain ⟨y, hrel⟩ := releaseShares_released (d := imagePut d x p img ks) (by rw [hput]; exact hx)
  rw [startDemote_eq himg hcup hbme hks hlen]
  generalize releaseShares (imagePut d x p img ks) ctx = e at hrel
  obtain ⟨hout, hbase, hrest, hctxs, hrinses, heng⟩ := hrel
  rw [hgran] at hrinses
  rw [hput] at hctxs heng hout
  refine ⟨⟨demotingTo ks (granulesOfCtx d x) y, fun k => ?_, rfl, rfl, hbase, (congrArg Ctx.ptes hrest :), rfl⟩, hrinses, heng,
    by rw [hmsgs]; exact hout⟩
  refine (smFind_smUpd (m := e.ctxs) ((hctxs ctx).trans (if_pos rfl)) _ k).trans ?_
  by_cases hk : k = ctx
  · rw [if_pos hk, if_pos hk]
  · rw [if_neg hk, if_neg hk, hctxs, if_neg hk]
    rfl

section Rows
variable {s : State} {ctx : Nat} {x : Ctx} (hx : smFind s.dev.ctxs ctx = some x)
include hx

/-- CONTEXT_DEMOTE begins the demotion of the resident that has been blocked longest while another waits (R515). -/
theorem contextDemote_begins {p : Partn} (hp : partOf s.dev x.part = some p) (hstate : x.state = .resident)
    (hdestroying : x.destroying = false) (hmove : x.moveCid = none) (hwanted : placeWanted s.dev x.part = true)
    (hfull : placesFull s.dev x.part = true) (hblocked : longBlocked s.dev ctx x p = true) (hlongest : longest s.dev ctx x p = true)
    (hother : ∀ c ∈ s.dev.ctxs, c.2.part = x.part → c.2.state ≠ .demoting) (hxfers : s.dev.xfers = []) (hmoves : s.dev.mem.moves = [])
    (hcup : cupPages x = []) : exec (.contextDemote ctx) s = .next { s with dev := startDemote s.dev ctx x p } := by
  have hnone : s.dev.ctxs.any (fun c => c.2.part == x.part && decide (c.2.state = .demoting)) = false := by
    rw [List.any_eq_false]
    intro c hc
    simpa using hother c hc
  refine next_dev s ?_
  simp only [demote, hx, hp, hstate, hdestroying, hmove, hwanted, hfull, hblocked, hlongest, hnone, hxfers, hmoves, hcup, List.any_nil,
    Option.isNone_none, Bool.not_false, Bool.and_self, if_true]

/-- CONTEXT_DEMOTE ends the demotion once all is rinsed (R516). -/
theorem contextDemote_ends {p : Partn} (hp : partOf s.dev x.part = some p) (hstate : x.state = .demoting)
    (hrinsed : allRinsed s.dev x = true) : exec (.contextDemote ctx) s =
      .next { s with dev := modCtx s.dev ctx fun x => { x with state := .demoted, rinseWait := [] } } := by
  refine next_dev s ?_
  simp only [demote, hx, hp, hstate, hrinsed, if_true]

/-- CONTEXT_DEMOTE leaves a context that is neither resident nor on its way out. -/
theorem contextDemote_idle (hstate : x.state = .demoted ∨ x.state = .recalling) : exec (.contextDemote ctx) s = .next s := by
  refine next_dev s (d' := s.dev) ?_
  simp only [demote, hx]
  cases hp : partOf s.dev x.part with
  | none => rfl
  | some p => rcases hstate with h | h <;> rw [h]

/-- CONTEXT_RECALL begins the recall of the first waiting context into a free place (R515, R518). -/
theorem contextRecall_begins {d1 : Dev} (hstate : x.state = .demoted) (hdestroying : x.destroying = false) (hmove : x.moveCid = none)
    (hfirst : firstWanting s.dev ctx x = true) (hplace : placesFull s.dev x.part = false) (hbme : s.dev.host.bme = true)
    (hsettle : settle s.dev ctx x .recalling = .ok d1) (himage : x.image = none) (hcup : x.cupBack = []) :
    exec (.contextRecall ctx) s = .next { s with dev := d1 } := by
  refine next_dev s ?_
  simp only [recallCtx, hx, hstate, hdestroying, hmove, hfirst, hplace, hbme, Option.isNone_none, Bool.not_false, Bool.and_self, if_true,
    startRecall, hsettle, himage, hcup, List.filterMap_nil, List.foldl_nil]

/-- CONTEXT_RECALL ends the recall once the granules are rinsed and the image is in place (R516). -/
theorem contextRecall_ends (hstate : x.state = .recalling) (hcup : x.cupBack = []) (hrinsed : s.dev.mem.granRinse = [])
    (himage : x.image = none) : exec (.contextRecall ctx) s = .next { s with dev := modCtx s.dev ctx fun y => { y with
      state := .resident, image := none, cupBack := [], wantAt := none, everResident := true, blockedAt := s.dev.now, progs := x.progs } } := by
  have hnone := any_rinsing hrinsed (granulesOfCtx s.dev x)
  refine next_dev s ?_
  simp only [recallCtx, hx, hstate, endRecall, hcup, hnone, himage, List.any_nil, Bool.or_self, Bool.false_eq_true, if_false]

/-- CONTEXT_RECALL leaves a context that has its place or is on its way out. -/
theorem contextRecall_idle (hstate : x.state = .resident ∨ x.state = .demoting) : exec (.contextRecall ctx) s = .next s := by
  refine next_dev s (d' := s.dev) ?_
  simp only [recallCtx, hx]
  rcases hstate with h | h <;> rw [h]

end Rows

/-- A context that is settled has the state that it is settled for (R502, R515). -/
theorem settle_state {d d1 : Dev} {ctx : Nat} {x : Ctx} {st : CtxState} (h : settle d ctx x st = .ok d1) :
    (smFind d1.ctxs ctx).map (·.state) = some st := by
  unfold settle at h
  split at h
  · cases h
  · extract_lets y d2 at h
    split at h
    · cases h
      have hy : smFind d2.ctxs ctx = some y := smFind_smPut_same ..
      rw [modCtx_ctxs, smFind_smUpd_same, hy]
      rfl
    · cases h

/-- Settles O55: by the rows of CONTEXT_DEMOTE and CONTEXT_RECALL, state by state. That the shares are released as the demotion
begins, and not after the rinse, is the model's choice (log 51). -/
theorem contextsAreDemotedAndRecalled : Obligations.ContextsAreDemotedAndRecalled := by
  unfold Obligations.ContextsAreDemotedAndRecalled
  intro s ctx x hx
  have honly (f : Ctx → Ctx) (k : Nat) : smFind (modCtx s.dev ctx f).ctxs k = if k = ctx then some (f x) else smFind s.dev.ctxs k :=
    smFind_smUpd (m := s.dev.ctxs) hx f k
  refine ⟨?_, ?_, ?_, ?_, ?_⟩
  · intro p ks hp hstate hdestroying hmove hwanted hfull hblocked hlongest hother hxfers hmoves hbme hcup hks hlen
    obtain ⟨⟨y, hctxs, hy⟩, hrinses, heng, hout⟩ := startDemote_demotes hx hp rfl hcup hbme hks.symm hlen
    exact ⟨_, contextDemote_begins hx hp hstate hdestroying hmove hwanted hfull hblocked hlongest hother hxfers hmoves hcup,
      fun k hk => (hctxs k).trans (if_neg hk), rfl, rfl, ⟨y, (hctxs ctx).trans (if_pos rfl), hy⟩, hrinses, heng, hout⟩
  · intro p hp hstate hrinsed
    exact ⟨_, contextDemote_ends hx hp hstate hrinsed, fun k hk => (honly _ k).trans (if_neg hk), (honly _ ctx).trans (if_pos rfl), rfl⟩
  · intro d1 hstate hdestroying hmove hfirst hplace hbme hsettle himage hcup
    exact ⟨_, contextRecall_begins hx hstate hdestroying hmove hfirst hplace hbme hsettle himage hcup, rfl, settle_state hsettle⟩
  · intro hstate hcup hrinsed himage
    refine ⟨_, contextRecall_ends hx hstate hcup hrinsed himage, fun k hk => (honly _ k).trans (if_neg hk), ?_, rfl⟩
    rw [← himage, ← hcup]
    exact (honly _ ctx).trans (if_pos rfl)
  · intro st row hrow hstate
    simp only [List.mem_cons, Prod.mk.injEq, List.not_mem_nil, or_false] at hrow
    rcases hrow with ⟨rfl, rfl⟩ | ⟨rfl, rfl⟩ | ⟨rfl, rfl⟩ | ⟨rfl, rfl⟩
    · exact contextDemote_idle hx (.inl hstate)
    · exact contextDemote_idle hx (.inr hstate)
    · exact contextRecall_idle hx (.inl hstate)
    · exact contextRecall_idle hx (.inr hstate)

end Sys2Proof.Machine
end

section
/-! PROOF. The context commands (13 R500, R503, R506, R507). -/

namespace Sys2Proof.Machine

/-- A command whose body leaves it running goes on, and has no final record. -/
theorem completes_runs_on {i : Instr} {s : State} {op cid : Nat} {c : Cmd} {body : Dev → Nat → Cmd → Option Dev}
    (hexec : exec i s = onDev s (runCmd op cid body)) (hruns : Runs s op cid c)
    (hbody : body (began s cid) cid c = some (began s cid)) :
    Completes i s (fun t => OnlyCmd cid s t ∧ finOf t cid = none) :=
  ⟨_, hexec.trans (onDev_runCmd hruns hbody),
    ⟨rfl, fun _ hk => (smFind_smUpd_ne _ _ hk).trans (smFind_began_ne s hk)⟩,
    finOf_waitState s _ cid (bind_fin_began hruns)⟩

section Rows
variable {s : State} {cid : Nat} {c : Cmd}

/-! ### CTX.CREATE and CTX.DESTROY -/

theorem applyUpd_held (t : Tally) (u : TUpd) : (applyUpd t u).held = t.held := (congrArg Tally.held (applyUpd_frame t u) :)

theorem drainInput_held (t : Tally) : (drainInput t).held = t.held := foldl_keep Tally.held applyUpd applyUpd_held ..

/-- The tally as a new context's records are cleared. -/
def clearedTally (t : Tally) (ctx : Nat) : Tally := applyUpd (drainInput t) (.clearCtx ctx)

theorem clearedTally_held (t : Tally) (ctx : Nat) : (clearedTally t ctx).held = t.held :=
  (applyUpd_held ..).trans (drainInput_held t)

theorem ctxCreate_creates (hruns : Runs s 0x0201 cid c) (hinfo : c.info ≠ [1]) (hchk : chkCtxCreate (began s cid) cid c = .ok ())
    (hres : nwResident c = false) (hf : s.dev.tally.frozen = false) (hheld : s.dev.tally.held = []) :
    Completes (.ctxCreate cid) s (fun t =>
      t = { s with dev := { s.dev with
        cmds := t.dev.cmds, ctxs := smPut s.dev.ctxs (nwCtx c) (newCtx s.dev c), tally := clearedTally s.dev.tally (nwCtx c) } } ∧
      EndsWith s t cid (0#16, 0#16, resultOf [(0x0C, 1, 2)]) none) := by
  refine completes_finish_kept (body := stepCtxCreate) (d := { began s cid with
    ctxs := smPut s.dev.ctxs (nwCtx c) (newCtx s.dev c), tally := clearedTally s.dev.tally (nwCtx c) }) rfl hruns ?_ rfl
  have hf' : (began s cid).tally.frozen = false := hf
  have hcleared := (clearedTally_held s.dev.tally (nwCtx c)).trans hheld
  simp only [stepCtxCreate, if_neg hinfo, hchk, hres, Bool.not_false, if_true, applyOrHold, hf', Bool.false_eq_true, if_false]
  have hheld' : (applyUpd (drainInput (began s cid).tally) (.clearCtx (nwCtx c))).held = [] := hcleared
  simp only [endCreate, hheld', List.any_nil, hres, Bool.false_eq_true, if_false]
  rfl

theorem ctxDestroy_waits (hruns : Runs s 0x0202 cid c) (hinfo : c.info = [1]) (hcoll : collsOf (began s cid) (nwCtx c) = true) :
    Completes (.ctxDestroy cid) s (fun t => OnlyCmd cid s t ∧ finOf t cid = none) := by
  refine completes_runs_on (body := stepCtxDestroy) rfl hruns ?_
  simp only [stepCtxDestroy, hinfo, hcoll, Bool.true_or, if_true]

theorem ctxDestroy_ends {x : Ctx} (hruns : Runs s 0x0202 cid c) (hinfo : c.info = [2]) (hx : smFind s.dev.ctxs (nwCtx c) = some x)
    (hrinsed : allRinsed s.dev x = true) : Completes (.ctxDestroy cid) s (fun t =>
      t = { s with dev := { s.dev with cmds := t.dev.cmds, ctxs := smErase s.dev.ctxs (nwCtx c) } } ∧
      EndsWith s t cid (0#16, 0#16, resultOf []) none) := by
  refine completes_finish_kept (body := stepCtxDestroy) (d := { began s cid with ctxs := smErase s.dev.ctxs (nwCtx c) }) rfl hruns ?_ rfl
  have hx' : smFind (began s cid).ctxs (nwCtx c) = some x := hx
  have hrinsed' : allRinsed (began s cid) x = true := hrinsed
  simp only [stepCtxDestroy, hinfo, hx', hrinsed', if_true]
  rfl

/-! ### CTX.SAVE -/

/-- The device as the command has begun and the context is its to move. -/
def moving (s : State) (cid ctx : Nat) : Dev := modCtx (began s cid) ctx (fun x => { x with moveCid := some cid })

/-- A RESULT of eight bytes at its start is a number below 2^64. -/
theorem resultOf_one (n : Nat) : resultOf [(0x0C, 8, n)] = BitVec.ofNat 160 (n % 2 ^ 64) := by
  simp [resultOf]

/-- A context that is given back after it was taken to be moved is as before. -/
theorem smFind_given_back {m : SMap Ctx} {ctx : Nat} {x : Ctx} (hx : smFind m ctx = some x) (hmove : x.moveCid = none) (k : Nat) :
    smFind (smUpd (smUpd m ctx fun x => { x with moveCid := some cid }) ctx fun x => { x with moveCid := none }) k = smFind m k := by
  have hx' := (smFind_smUpd hx (fun x => { x with moveCid := some cid }) ctx).trans (if_pos rfl)
  rw [smFind_smUpd hx', smFind_smUpd hx]
  by_cases hk : k = ctx
  · rw [if_pos hk, hk, hx, ← hmove]
  · rw [if_neg hk, if_neg hk]

theorem ctxSave_saves {x : Ctx} {img : List Byte} (hruns : Runs s 0x0203 cid c) (hx : smFind s.dev.ctxs (cmdContext c) = some x)
    (hstate : x.state = .resident) (hmove : x.moveCid = none) (hhost : imHost c = true) (hbme : s.dev.host.bme = true)
    (hidle : ∀ z ∈ s.dev.launches, z.2.ctx ≠ cmdContext c ∨ z.2.state ≠ .running) (hxfers : ∀ v ∈ s.dev.xfers, v.2.ctx ≠ cmdContext c)
    (hchk : chkCtxSave (moving s cid (cmdContext c)) c = .ok ()) (himg : imageOf (moving s cid (cmdContext c)) (cmdContext c) = img) :
    Completes (.ctxSave cid) s (fun t =>
      t = { s with dev := { s.dev with cmds := t.dev.cmds, ctxs := t.dev.ctxs, out := t.dev.out } } ∧
      (∀ k, smFind t.dev.ctxs k = smFind s.dev.ctxs k) ∧ t.dev.out = (bulkWrite s.dev (imAddr c) img).out ∧
      finOf t cid = some (0#16, 0#16, BitVec.ofNat 160 (img.length % 2 ^ 64))) := by
  obtain ⟨msgs, hmsgs⟩ := bulkWrite_eq (imAddr c) img
  have hx' : smFind (began s cid).ctxs (cmdContext c) = some x := hx
  have hbme' : (moving s cid (cmdContext c)).host.bme = true := hbme
  have hruns' : (moving s cid (cmdContext c)).launches.filter (fun z => z.2.ctx == cmdContext c && decide (z.2.state = .running)) = [] := by
    rw [List.filter_eq_nil_iff]
    intro z hz
    have := hidle z hz
    simp only [Bool.and_eq_true, beq_iff_eq, decide_eq_true_eq, not_and]
    tauto
  have hxfers' : (moving s cid (cmdContext c)).xfers.any (fun v => v.2.ctx == cmdContext c) = false := by
    rw [List.any_eq_false]
    intro v hv
    simpa using hxfers v hv
  have hbody : stepCtxSave (began s cid) cid c = some (finishCmd (modCtx { moving s cid (cmdContext c) with
      out := msgs ++ s.dev.out } (cmdContext c) fun x => { x with moveCid := none }) cid stOk 0 [(0x0C, 8, img.length)] none) := by
    have htaken : modCtx (began s cid) (cmdContext c) (fun x => { x with moveCid := some cid }) = moving s cid (cmdContext c) := rfl
    simp only [stepCtxSave, hx', hmove, Option.isSome_none, Bool.false_eq_true, false_and, if_false, hstate, htaken, hruns', hxfers',
      List.filter_nil, List.map_nil, List.foldl_nil, List.any_nil, Bool.or_self, himg, putSaved, hchk, hhost, if_true, hbme', hmsgs]
    rfl
  refine (completes_finish_kept (body := stepCtxSave) rfl hruns hbody rfl).imp fun t ⟨hframe, hother, hfin, _⟩ => ?_
  have hctxs : t.dev.ctxs = _ := congrArg (fun t : State => t.dev.ctxs) hframe
  have hout : t.dev.out = msgs ++ s.dev.out := congrArg (fun t : State => t.dev.out) hframe
  refine ⟨?_, fun k => ?_, ?_, hfin.trans ?_⟩
  · rw [hctxs, hout]
    exact hframe
  · rw [hctxs]
    exact smFind_given_back hx hmove k
  · rw [hmsgs, hout]
  · rw [resultOf_one]
    rfl

end Rows

/-! ### CTX.RESTORE -/

section Image
variable {ctx : Nat} {x : Ctx} {img : List Byte}

/-- The section of an image that holds engine i. -/
def engineSection (img : List Byte) (i : Nat) : List Byte := slice img (field img 0x18 4 + field img 0x1C 4 * i) (field img 0x1C 4)

/-- The tiles of an engine that an image holds. -/
def imageTiles (img : List Byte) : Nat := field img 0x0D 1 + field img 0x0E 1

/-- The device with what an image gives the basket share of engine i. -/
def shareLoaded (ctx : Nat) (x : Ctx) (img : List Byte) (d : Dev) (i : Nat) : Dev :=
  let b := engineSection img (if i < field img 0x08 2 then i else 0)
  let share := if i < field img 0x08 2 then slice b (engHead (imageTiles img)) (65536 * field img 0x0C 1) else []
  modMem d (fun m => { m with baskets := memWrite m.baskets (shareBase d ctx i) (fit (65536 * x.basket) share) })

/-- What an image gives engine i to hold; engines beyond the image's get its curve tables alone (05 R185). -/
def engineLoaded (ctx : Nat) (x : Ctx) (img : List Byte) (d : Dev) (i : Nat) : EngCtx :=
  let e := engOfImage (engineSection img (if i < field img 0x08 2 then i else 0)) (imageTiles img)
  if i < field img 0x08 2 then { e with lines := e.lines.map (fun l => (l.1, setFaultVa (shareLoaded ctx x img d i) ctx i l.2)) }
  else { ({} : EngCtx) with fctl := 0, pctl0 := 0, curves := e.curves }

/-- The device with what an image gives engine i. -/
def loadEngine (ctx : Nat) (x : Ctx) (img : List Byte) (d : Dev) (i : Nat) : Dev :=
  setE (shareLoaded ctx x img d i) ctx i (engineLoaded ctx x img d i)

theorem putImage_eq {d : Dev} (hx : smFind d.ctxs ctx = some x) : putImage d ctx img =
    modCtx ((span 0 x.engCount).foldl (loadEngine ctx x img) d) ctx (fun x => { x with progs := progsOfImage img }) := by
  rw [putImage, hx]
  rfl

/-- An engine of the image holds the scalar registers of its section. -/
theorem engineLoaded_s {i : Nat} (hi : i < field img 0x08 2) (d : Dev) :
    (engineLoaded ctx x img d i).s = wordsOf (engineSection img i) 0xA0 32 := by
  rw [engineLoaded, if_pos hi, if_pos hi]
  rfl

theorem loadEngine_cmds (d : Dev) (i : Nat) : (loadEngine ctx x img d i).cmds = d.cmds := rfl

theorem loadEngine_ctxs (d : Dev) (i : Nat) : (loadEngine ctx x img d i).ctxs = d.ctxs := rfl

theorem smGet_loadEngine (d : Dev) (i k : Nat) : smGet {} (loadEngine ctx x img d i).eng k =
    if k = engKey ctx i then engineLoaded ctx x img d i else smGet {} d.eng k := smGet_smSet ..

/-- Each engine that is loaded from the image holds its scalar registers. -/
theorem loadEngines_s {l : List Nat} {i : Nat} (hl : i ∈ l) (hi : i < field img 0x08 2) (d : Dev) :
    (getE (l.foldl (loadEngine ctx x img) d) ctx i).s = wordsOf (engineSection img i) 0xA0 32 := by
  induction l using List.reverseRecOn with
  | nil => exact absurd hl List.not_mem_nil
  | append_singleton l a ih =>
    rw [List.foldl_append, List.foldl_cons, List.foldl_nil, getE, smGet_loadEngine]
    by_cases ha : i = a
    · rw [if_pos (by rw [ha]), ← ha, engineLoaded_s hi]
    · rw [if_neg (by unfold engKey; omega)]
      exact ih (by simpa [ha] using hl)

/-- Loading engines leaves what other contexts hold. -/
theorem loadEngines_others {l : List Nat} {k : Nat} (hl : ∀ i ∈ l, i < 128) (hk : k / 128 ≠ ctx) (d : Dev) :
    smGet {} (l.foldl (loadEngine ctx x img) d).eng k = smGet {} d.eng k := by
  induction l generalizing d with
  | nil => rfl
  | cons a l ih =>
    obtain ⟨ha, hl⟩ := List.forall_mem_cons.1 hl
    rw [List.foldl_cons, ih hl, smGet_loadEngine, if_neg (by unfold engKey; omega)]

end Image

section Restore
variable {s : State} {cid : Nat} {c : Cmd} {x : Ctx} {img : List Byte}

/-- The device with an image in the context's shares, its read gone. -/
def imageIn (d : Dev) (ctx : Nat) (use : ReadFor) (x : Ctx) (img : List Byte) : Dev :=
  (span 0 x.engCount).foldl (loadEngine ctx x img) (dropEngines (dropWant d use) ctx)

/-- What an image makes of its context. -/
def imaged (img : List Byte) (y : Ctx) : Ctx := { y with
  progs := progsOfImage img, stopped := bit (field img 7 1) 1, stopLaunch := none
  imgLaunch := if bit (field img 7 1) 1 then slice img 0x28 16 else [] }

theorem imageIn_cmds (d : Dev) (ctx : Nat) (use : ReadFor) (x : Ctx) (img : List Byte) : (imageIn d ctx use x img).cmds = d.cmds :=
  foldl_keep Dev.cmds _ loadEngine_cmds ..

theorem imageIn_ctxs (d : Dev) (ctx : Nat) (use : ReadFor) (x : Ctx) (img : List Byte) : (imageIn d ctx use x img).ctxs = d.ctxs :=
  foldl_keep Dev.ctxs _ loadEngine_ctxs ..

theorem ctxRestore_restores (hruns : Runs s 0x0204 cid c) (hx : smFind s.dev.ctxs (cmdContext c) = some x)
    (hchk : chkCtxRestore (began s cid) c = .ok ()) (hstate : x.state = .resident) (hmove : x.moveCid = none)
    (hrinsed : s.dev.mem.granRinse = []) (hhost : imHost c = true) (hwant : wantDone s.dev (.cmd cid) = some img)
    (himg : chkImageFor x c img = .ok ()) : Completes (.ctxRestore cid) s (fun t => endsOk t cid ∧
      smFind t.dev.ctxs (cmdContext c) = some (imaged img x) ∧
      t.dev.eng = (imageIn (began s cid) (cmdContext c) (.cmd cid) x img).eng) := by
  have hctxs := imageIn_ctxs (began s cid) (cmdContext c) (.cmd cid) x img
  have hbody : stepCtxRestore (began s cid) cid c = some (finishCmd (modCtx (modCtx (imageIn (began s cid) (cmdContext c) (.cmd cid) x img)
      (cmdContext c) fun x => { x with progs := progsOfImage img }) (cmdContext c) fun x => { x with
        stopped := bit (field img 7 1) 1, stopLaunch := none
        imgLaunch := if bit (field img 7 1) 1 then slice img 0x28 16 else [] }) cid stOk 0 [] none) := by
    have hx' : smFind (began s cid).ctxs (cmdContext c) = some x := hx
    have hwant' : wantDone (began s cid) (.cmd cid) = some img := hwant
    have hgran := any_rinsing (d := began s cid) hrinsed (granulesOfCtx (began s cid) x)
    have hput := putImage_eq (img := img) (d := dropEngines (dropWant (began s cid) (.cmd cid)) (cmdContext c)) hx
    simp only [stepCtxRestore, hx', hchk, hstate, ne_eq, not_true_eq_false, if_false, hgran, hmove, Option.isSome_none, Bool.or_self,
      Bool.false_eq_true, hhost, if_true, hwant', himg, hput]
    rfl
  refine (completes_finish_kept (body := stepCtxRestore) rfl hruns hbody (imageIn_cmds ..)).imp fun t ⟨hframe, _, hfin, _⟩ => ?_
  refine ⟨⟨_, hfin⟩, ?_, congrArg (fun t : State => t.dev.eng) hframe⟩
  have hmap : t.dev.ctxs = _ := congrArg (fun t : State => t.dev.ctxs) hframe
  rw [hmap]
  simp only [modCtx_ctxs, smFind_smUpd_same, hctxs]
  rw [show (began s cid).ctxs = s.dev.ctxs from rfl, hx]
  rfl

end Restore

/-- Settles O31: by the bodies of the four context commands. -/
theorem contextsAreMadeSavedRestoredAndDestroyed : Obligations.ContextsAreMadeSavedRestoredAndDestroyed := by
  unfold Obligations.ContextsAreMadeSavedRestoredAndDestroyed
  intro s cid c
  refine ⟨fun hruns hinfo hchk hres hf hheld => ?_, ctxDestroy_waits, fun x hruns hinfo hx hrinsed => ?_,
    fun x hruns hx hstate hmove hhost hbme hidle hxfers hchk => ctxSave_saves hruns hx hstate hmove hhost hbme hidle hxfers hchk rfl,
    fun x img hruns hx hchk hstate hmove hcount hrinsed hhost hwant himg => ?_⟩
  · refine (ctxCreate_creates hruns hinfo hchk hres hf hheld).imp fun t ⟨hframe, _, hfin, _⟩ => ?_
    have hctxs : t.dev.ctxs = _ := congrArg (fun t : State => t.dev.ctxs) hframe
    have htally : t.dev.tally = _ := congrArg (fun t : State => t.dev.tally) hframe
    refine ⟨?_, ⟨_, hfin⟩, fun k => ?_⟩
    · rw [hctxs, htally]
      exact hframe
    · rw [hctxs, smFind_smPut]
  · refine (ctxDestroy_ends hruns hinfo hx hrinsed).imp fun t ⟨hframe, _, hfin, _⟩ => ?_
    have hctxs : t.dev.ctxs = _ := congrArg (fun t : State => t.dev.ctxs) hframe
    refine ⟨?_, ⟨_, hfin⟩, fun k => ?_⟩
    · rw [hctxs]
      exact hframe
    · rw [hctxs, smFind_smErase]
  · refine (ctxRestore_restores hruns hx hchk hstate hmove hrinsed hhost hwant himg).imp fun t ⟨hend, hctx, heng⟩ => ?_
    refine ⟨hend, by rw [hctx]; rfl, fun i hi hn => ?_, fun k hk => ?_⟩
    · rw [getE, heng]
      exact loadEngines_s (mem_span_zero.2 hi) hn _
    · rw [heng]
      refine (loadEngines_others (fun i hi => ?_) hk _).trans ((smGet_dropEngines ..).trans (if_neg hk))
      have := mem_span_zero.1 hi
      omega

end Sys2Proof.Machine
end
